-- ==== Sys2Proof/Word.lean ====
section
/-!
DEFINITION. The word types of the C9 and the exact values its arithmetic is stated over (R6, R8).
-/
namespace Sys2Proof

/-- A 64-bit word (R6). -/
abbrev Word := BitVec 64

/-- A byte (R6). -/
abbrev Byte := BitVec 8

/-- An exact value as the manual computes with it before a rounding (R8, R68): NaN, an infinity, a zero
that keeps the sign IEEE 754 gives it, or a real number other than zero. -/
inductive Ext where
  | nan
  | inf (neg : Bool)
  | zero (neg : Bool)
  | num (q : Rat)
deriving DecidableEq, Repr

end Sys2Proof
end

