-- ==== Sys2Proof/Machine/Crypto.lean ====
section
/-!
DEFINITION. The published functions the manual names: CRC-32C (R217), ChaCha20 (R389) and SHA-256 (R377).
-/
namespace Sys2Proof

/-- One bit of the reflected Castagnoli CRC. -/
def crcBit (c : Nat) : Nat := if c % 2 = 1 then (c / 2) ^^^ 0x82F63B78 else c / 2

def crcByte (c : Nat) (b : Byte) : Nat :=
  crcBit (crcBit (crcBit (crcBit (crcBit (crcBit (crcBit (crcBit (c ^^^ b.toNat))))))))

/-- CRC-32C: reflected, initial and final value 0xFFFF_FFFF (Table 13-6). -/
def crc32c (bs : List Byte) : BitVec 32 := BitVec.ofNat 32 (bs.foldl crcByte 0xFFFFFFFF) ^^^ 0xFFFFFFFF#32

/-! ### ChaCha20 -/

def w32 (x : List (BitVec 32)) (i : Nat) : BitVec 32 := x.getD i 0#32

/-- A quarter round on four words of the block. -/
def quarter (x : List (BitVec 32)) (a b c d : Nat) : List (BitVec 32) :=
  let va := w32 x a + w32 x b
  let vd := (w32 x d ^^^ va).rotateLeft 16
  let vc := w32 x c + vd
  let vb := (w32 x b ^^^ vc).rotateLeft 12
  let va := va + vb
  let vd := (vd ^^^ va).rotateLeft 8
  let vc := vc + vd
  let vb := (vb ^^^ vc).rotateLeft 7
  (((x.set a va).set b vb).set c vc).set d vd

def doubleRound (x : List (BitVec 32)) : List (BitVec 32) :=
  let x := quarter (quarter (quarter (quarter x 0 4 8 12) 1 5 9 13) 2 6 10 14) 3 7 11 15
  quarter (quarter (quarter (quarter x 0 5 10 15) 1 6 11 12) 2 7 8 13) 3 4 9 14

def rounds : Nat → List (BitVec 32) → List (BitVec 32)
  | 0, x => x
  | n + 1, x => rounds n (doubleRound x)

/-- A ChaCha20 block of a 256-bit key (byte 0 in the low bits), a 64-bit block counter and a zero nonce (R389). -/
def chachaBlock (key : BitVec 256) (ctr : Nat) : List (BitVec 32) :=
  let init : List (BitVec 32) := [0x61707865#32, 0x3320646E#32, 0x79622D32#32, 0x6B206574#32] ++
    (List.range 8).map (fun i => key.extractLsb' (32 * i) 32) ++ [BitVec.ofNat 32 ctr, BitVec.ofNat 32 (ctr / 2 ^ 32), 0#32, 0#32]
  List.zipWith (· + ·) (rounds 10 init) init

/-- Draw n after a reseed: word n mod 16 of block n / 16 (R389). -/
def chachaDraw (key : BitVec 256) (n : Nat) : BitVec 32 := w32 (chachaBlock key (n / 16)) (n % 16)

/-! ### SHA-256 -/

def shaK : List Nat := [
    0x428A2F98, 0x71374491, 0xB5C0FBCF, 0xE9B5DBA5, 0x3956C25B, 0x59F111F1, 0x923F82A4, 0xAB1C5ED5,
    0xD807AA98, 0x12835B01, 0x243185BE, 0x550C7DC3, 0x72BE5D74, 0x80DEB1FE, 0x9BDC06A7, 0xC19BF174] ++ [
    0xE49B69C1, 0xEFBE4786, 0x0FC19DC6, 0x240CA1CC, 0x2DE92C6F, 0x4A7484AA, 0x5CB0A9DC, 0x76F988DA,
    0x983E5152, 0xA831C66D, 0xB00327C8, 0xBF597FC7, 0xC6E00BF3, 0xD5A79147, 0x06CA6351, 0x14292967] ++ [
    0x27B70A85, 0x2E1B2138, 0x4D2C6DFC, 0x53380D13, 0x650A7354, 0x766A0ABB, 0x81C2C92E, 0x92722C85,
    0xA2BFE8A1, 0xA81A664B, 0xC24B8B70, 0xC76C51A3, 0xD192E819, 0xD6990624, 0xF40E3585, 0x106AA070] ++ [
    0x19A4C116, 0x1E376C08, 0x2748774C, 0x34B0BCB5, 0x391C0CB3, 0x4ED8AA4A, 0x5B9CCA4F, 0x682E6FF3,
    0x748F82EE, 0x78A5636F, 0x84C87814, 0x8CC70208, 0x90BEFFFA, 0xA4506CEB, 0xBEF9A3F7, 0xC67178F2]

def shaH : List (BitVec 32) := [0x6A09E667, 0xBB67AE85, 0x3C6EF372, 0xA54FF53A, 0x510E527F, 0x9B05688C, 0x1F83D9AB, 0x5BE0CD19].map (BitVec.ofNat 32)

/-- The message schedule, most recent word first. -/
def shaSched : Nat → List (BitVec 32) → List (BitVec 32)
  | 0, w => w
  | n + 1, w =>
    let a := w32 w 14
    let b := w32 w 1
    let s0 := a.rotateRight 7 ^^^ a.rotateRight 18 ^^^ (a >>> 3)
    let s1 := b.rotateRight 17 ^^^ b.rotateRight 19 ^^^ (b >>> 10)
    shaSched n ((w32 w 15 + s0 + w32 w 6 + s1) :: w)

def shaRound (x : List (BitVec 32)) (kw : BitVec 32) : List (BitVec 32) :=
  let a := w32 x 0
  let e := w32 x 4
  let s1 := e.rotateRight 6 ^^^ e.rotateRight 11 ^^^ e.rotateRight 25
  let ch := (e &&& w32 x 5) ^^^ (~~~e &&& w32 x 6)
  let t1 := w32 x 7 + s1 + ch + kw
  let s0 := a.rotateRight 2 ^^^ a.rotateRight 13 ^^^ a.rotateRight 22
  let mj := (a &&& w32 x 1) ^^^ (a &&& w32 x 2) ^^^ (w32 x 1 &&& w32 x 2)
  [t1 + s0 + mj, a, w32 x 1, w32 x 2, w32 x 3 + t1, e, w32 x 5, w32 x 6]

def shaBlock (h : List (BitVec 32)) (block : List Byte) : List (BitVec 32) :=
  let w := (List.range 16).map fun i =>
    (block.getD (4 * i) 0#8 ++ block.getD (4 * i + 1) 0#8 ++ block.getD (4 * i + 2) 0#8 ++ block.getD (4 * i + 3) 0#8 : BitVec 32)
  let ws := (shaSched 48 w.reverse).reverse
  let kw := List.zipWith (fun k x => BitVec.ofNat 32 k + x) shaK ws
  List.zipWith (· + ·) h (kw.foldl shaRound h)

def shaBlocks : Nat → List (BitVec 32) → List Byte → List (BitVec 32)
  | 0, h, _ => h
  | n + 1, h, bs => shaBlocks n (shaBlock h (bs.take 64)) (bs.drop 64)

/-- SHA-256 of a string of bytes, its first byte in the high bits. -/
def sha256 (bs : List Byte) : BitVec 256 :=
  let n := bs.length
  let pad := (119 - n % 64) % 64
  let len := 8 * n
  let msg := bs ++ [0x80#8] ++ List.replicate pad 0#8 ++ (List.range 8).map (fun i => BitVec.ofNat 8 (len / 256 ^ (7 - i)))
  let h := shaBlocks (msg.length / 64) shaH msg
  BitVec.ofNat 256 (h.foldl (fun a w => a * 2 ^ 32 + w.toNat) 0)

/-- The bytes of a digest, first byte first. -/
def digestBytes (d : BitVec 256) : List Byte := (List.range 32).map fun i => d.extractLsb' (8 * (31 - i)) 8

end Sys2Proof
end

