-- ==== Sys2Proof/Config.lean ====
section
/-!
DEFINITION. What the manual leaves to the implementation or to chance, as constants without a body: nothing can be proved of
their values. A free value is one of these applied to the counter State.fresh, or, for a fixed function, to its operands.
-/
namespace Sys2Proof.Config

/-- Free value: a natural number the manual leaves open (a latency, a completion cycle, a choice), by counter; each
use keeps the limits its rule sets (log entry 10). -/
opaque freeNat : Nat → Nat

/-- The lowest cluster clock, in cycles of 1,700 CT cycles (R386, R388; log entry 50). -/
opaque lowestClock : Nat

/-- Free value: a byte the manual leaves undefined, by counter (R212, R333, R353; log entry 11). -/
opaque freeByte : Nat → Byte

/-- Free value: a 256-bit key of the conditioned noise source (R389; log entry 12). -/
opaque freeKey : Nat → BitVec 256

/-- Fixed functions of R181 before their bound is applied, by function code and f32 operand (log entry 13). -/
opaque special : Nat → BitVec 32 → BitVec 32

/-- This device's port-based-routing ID (R42, R314; log entry 14). -/
opaque deviceId : BitVec 12

/-- SHA-256 digest of firmware image i, measured in slot i (R377; log entry 15). -/
opaque imageDigest : Nat → BitVec 256

/-- The digest of the spare map's entries in order of core, the dies that the service record has out and its over-temperature events (R377; log
entry 15). -/
opaque serviceDigest : List (BitVec 32) → BitVec 4 → Nat → BitVec 256

/-- The digest of the security state: the debug enables, which the device has fixed, and the contexts that may inject errors (R377; log entry 15). -/
opaque securityDigest : List Nat → BitVec 256

/-- Whether image i's RSA-3072 signature holds against the fused public key (R377; log entry 15). -/
opaque imageSigned : Nat → Bool

/-- Image i's security version, and the fused minimum for it (R377; log entry 15). -/
opaque imageVersion : Nat → Nat
opaque minVersion : Nat → Nat

/-- Image i passes the two checks of R377. -/
def imageOk (i : Nat) : Bool := imageSigned i && decide (minVersion i ≤ imageVersion i)

/-- The identity key's RSA-3072 signature of a SHA-256 digest, 384 bytes (R378, R380; log entry 15). -/
opaque sign : BitVec 256 → BitVec 3072

/-- The identity certificate chain of slot 0 (R378; log entry 15). -/
opaque certificate : List Byte

/-- The device's secp384r1 exchange data and the resulting session secret, by counter and requester data (R378; log
entry 15). -/
opaque exchange : Nat → List Byte → BitVec 768 × BitVec 384

/-- The verify data a FINISH must carry in the session of a secret (R378; log entry 15). -/
opaque finishMac : BitVec 384 → BitVec 256

/-- The response body the SPDM 1.2 standard gives a request, by request code and offer (R378; log entry 15). -/
opaque spdmBody : Nat → List Byte → List Byte

end Sys2Proof.Config
end

