-- ==== Sys2Proof/Syntax.lean ====
section
/-!
DEFINITION. The instructions and events of the C9: one constructor for each row of the opcode table. The words of
the eight slots (Tables 7-13 to 7-15), the Bozoak words (Table 21-5), and the operations and events of the device.
-/
namespace Sys2Proof

/-- Memory scopes, in code order (Table 3-2, R285). -/
inductive Scope where
  | cluster | die | device | fabric
deriving DecidableEq, Repr

/-- Condition codes 0 to 9 (Table 9-2). -/
inductive Cond where
  | eq | ne | lt | ge | le | gt | ltu | geu | leu | gtu
deriving DecidableEq, Repr

/-- Flag operations 0 to 3 (R129). -/
inductive FlagOp where
  | and | or | xor | not
deriving DecidableEq, Repr

/-- The condition field cf of BR and LBRK (R130). -/
inductive CF where
  | always
  | ifSet (k : BitVec 3)
  | ifClear (k : BitVec 3)
deriving DecidableEq, Repr

/-- Size codes of LDF and STF: 1, 2, 4 or 8 bytes (R142). -/
inductive MSize where
  | b1 | b2 | b4 | b8
deriving DecidableEq, Repr

/-- Operations of ATOM (Table 9-4). -/
inductive AtomOp where
  | add | min | max | and | or | xor | swap | cas
deriving DecidableEq, Repr

/-- Ordering of ATOM (Table 9-4). -/
inductive MOrder where
  | none | acq | rel | ar
deriving DecidableEq, Repr

/-- Kinds of FENCE, codes 1 to 3 (R147). -/
inductive FenceKind where
  | acq | rel | ar
deriving DecidableEq, Repr

/-- Operations of CRED, codes 0 to 10 (Table 9-5), and of VRED and VSCAN (Table 11-5), which share the codes; the two
last FP codes are fmax 9 and fmin 10 in both tables. -/
inductive RedOp where
  | add | minS | maxS | minN | maxN | and | or | xor | fadd | fmax | fmin
deriving DecidableEq, Repr

/-- The forms of CMSK, modes 0 to 4 (R149). -/
inductive CmskOp where
  | all
  | rect (sa : BitVec 5)
  | and (aa : BitVec 4)
  | set (aa : BitVec 4)
  | not
deriving DecidableEq, Repr

/-- The modes of ACIX, codes 0 to 5 (Table 9-7). -/
inductive CixMode where
  | ix | row | col | tix | base | dev
deriving DecidableEq, Repr

/-- Fields of a format-table entry that FTW writes alone, numbers 1 to 9 (R157). -/
inductive FtField where
  | afmt | bfmt | dfmt | acc | rm | sm | srb | t | scsrc
deriving DecidableEq, Repr

/-- Operations of VUPD (Table 11-2). -/
inductive UpdOp where
  | add | min | max | and | or | xor
deriving DecidableEq, Repr

/-- Types of VUPD (Table 11-2). -/
inductive UpdTy where
  | s32 | n32 | s64 | n64 | f32
deriving DecidableEq, Repr

/-- The tag check of a load or plane load: none, or against e[k] (R103, R162). -/
abbrev Chk := Option (BitVec 3)

/-- Integer sizes in sub-type order (Table 7-16). -/
inductive ISz where
  | w8 | w16 | w32 | w64
deriving DecidableEq, Repr

/-- FP sub-types in code order (Table 7-16). -/
inductive FTy where
  | f32 | bf16 | f16
deriving DecidableEq, Repr

/-- Width and segment (Table 7-5): the range of register bits an operation acts on. -/
inductive VRange where
  | w256 (k : BitVec 2)
  | w512 (hi : Bool)
  | w1024
deriving DecidableEq, Repr

/-- The control fields every V word has (Table 7-10). -/
structure VCtl where
  rng : VRange
  mir : Bool
  pred : BitVec 4
deriving DecidableEq, Repr

/-- A vector operand and the read port beside it (R92). -/
structure VSrc where
  r : BitVec 6
  q : BitVec 2
deriving DecidableEq, Repr

/-- FCMP conditions in code order (R182). -/
inductive FCond where
  | eq | ne | lt | le | gt | ge | un | ord
deriving DecidableEq, Repr

/-- Scalar float formats 0x0 to 0x4 (Table 5-1). -/
inductive SFmt where
  | f32 | bf16 | f16 | e4m3 | e5m2
deriving DecidableEq, Repr

/-- Integer kinds 0 to 7 of VCVT (R184). -/
inductive IKind where
  | s8 | n8 | s16 | n16 | s32 | n32 | s64 | n64
deriving DecidableEq, Repr

/-- Rounding codes 0 to 4 (R71). -/
inductive RMode where
  | rne | rtz | rdn | rup | sr
deriving DecidableEq, Repr

/-- The three modes of VCVT with their formats (R184). -/
inductive CvtKind where
  | ff (src dst : SFmt)
  | fromInt (src : IKind) (dst : SFmt)
  | toInt (src : SFmt) (dst : IKind)
deriving DecidableEq, Repr

/-- Saturation of VPACK (Table 11-6). -/
inductive PackSat where
  | wrap | ssat | usat
deriving DecidableEq, Repr

/-- Selection modes of VAMAX and MDRNK (R190, R258). -/
inductive SelMode where
  | max | min | maxm | minm
deriving DecidableEq, Repr

/-- The format-select field (R81). -/
inductive FSel where
  | ft (n : BitVec 3)
  | lc (k : Fin 6)
deriving DecidableEq, Repr

/-- The element of a reduction: an integer size or an FP type, as the operation asks (Table 11-5). -/
inductive RedKind where
  | int (op : RedOp) (sz : ISz)
  | fp (op : RedOp) (ty : FTy)
deriving DecidableEq, Repr

/-- Modes of VRND: bits of an integer size, or f32 values in [0, 1) (R196). -/
inductive RndMode where
  | bits (sz : ISz)
  | unit
deriving DecidableEq, Repr

/-- Cell operations 0 to 4 (Table 7-11). -/
inductive CellOp where
  | mac | abd | cmx | cmn | sqd
deriving DecidableEq, Repr

/-- Start modes of a stream, codes 0 to 2 (R235). -/
inductive StartMode where
  | entry | zero | acc
deriving DecidableEq, Repr

/-- The part of a bank line that MRD and MWR move (R249), and the line. -/
structure BankLine where
  col : Bool
  part : Fin 3
  idx : Fin 65
deriving DecidableEq, Repr

/-- The fields every X command shares (Table 7-12, Table 13-2). -/
structure XOps where
  tm : BitVec 4
  st : BitVec 5
  toff : BitVec 16
  sq : BitVec 12
  sa : BitVec 5
  sb : BitVec 5
  acq : Bool
  rel : Bool
  scope : Scope
  pen : Bool
deriving DecidableEq, Repr

/-- Pairing modes of the D arithmetic (R270). -/
inductive PairMode where
  | tags | ind | com
deriving DecidableEq, Repr

/-- Functions of DMAP (R277). -/
inductive MapFn where
  | exp2 | log2 | sqrt | tanh | sigm | rcp | relu
deriving DecidableEq, Repr

/-- Operations of DTAG (R280). -/
inductive TagOp where
  | set | clr | rep
deriving DecidableEq, Repr

/-- The sign of RANK in a chunk expression (Table 21-3). -/
inductive RankSign where
  | none | plus | minus
deriving DecidableEq, Repr

/-- The chunk expression of a Bozoak word (Table 21-3, R320). -/
structure ChunkEx where
  cb : BitVec 12
  cr : RankSign
  ck : BitVec 4
  cg : BitVec 3
deriving DecidableEq, Repr

/-- The peer expression of a Bozoak word (Table 21-3, R320). -/
structure PeerEx where
  po : BitVec 12
  ps : BitVec 12
  pg : BitVec 3
deriving DecidableEq, Repr

/-- Reductions of RRD and RRS (Table 21-4). -/
inductive BzRop where
  | add | max | min
deriving DecidableEq, Repr

/-- Who reaches a Bozoak register: the supervisor page, or the block of a launch window (R311). -/
inductive Via where
  | supervisor
  | window (w : BitVec 4)
deriving DecidableEq, Repr

/-- The operation whose failure a trap names: its bundle, the DT of its issue (R336, R214). -/
structure Origin where
  pc : BitVec 57
  dt : Nat
deriving DecidableEq, Repr

/-- Kinds of an outside access (R304, R392, R297). -/
inductive AccKind where
  | read
  | write
  | atomicAdd
  /-- An atomic that answers the old value; the data of a cas hold its operand, then its comparison value. -/
  | atomic (op : AtomOp) (sgn : Bool)
  /-- A posted update. -/
  | update (op : UpdOp) (ty : UpdTy)
deriving DecidableEq, Repr

/-- What a debug read or write names (Table 23-5): any register, by physical number for v and p, or any table, bank,
plane or scratchpad byte; indices are those of the register file named. -/
inductive DbgReg where
  | pc | s (i : BitVec 5) | b (i : BitVec 3) | e (i : BitVec 3) | lc (i : Fin 6) | loop (lvl : Fin 6) (start : Bool)
  | dtnow | ctnow | holdmax | ageq | ctxid
  | rrbv | rrbp | gqctl | slipmax | cmsk | traphnd | errinj | trapcause | trappc | trapdt | trapopc | lvlix (i : BitVec 3)
  | v (core : BitVec 8) (i : BitVec 6) | p (core : BitVec 8) (i : BitVec 4) | a (core : BitVec 8) (i : BitVec 4)
  | dPts (core : BitVec 8) (i : BitVec 3) | dWords (core : BitVec 8) (i : BitVec 3)
  | ft (core : BitVec 8) (i : BitVec 3)
  | tm (i : BitVec 4) (f : Fin 53)
  | bank (core : BitVec 8) (m : BitVec 2) (row col : Fin 65)
  | edge (core : BitVec 8) (m : BitVec 2) (k : BitVec 7) | dstat (core : BitVec 8)
  | plane (core : BitVec 8) (pl : Bool) (k : BitVec 7) (n : BitVec 6)
  | spm (core : BitVec 8) (off : BitVec 18) | bst (core : BitVec 8) (off : BitVec 19)
  | spTag (core : BitVec 8) (page : BitVec 6) | bstTag (core : BitVec 8) (page : BitVec 7)
  | lin (core : BitVec 8) (m : BitVec 2) | stale (core : BitVec 8) (m : BitVec 2)
  | bsum (core : BitVec 8) (pl : Bool) (k : BitVec 7) | planeFmt (core : BitVec 8) (pl : Bool)
deriving DecidableEq, Repr

/-- An edit of a pipeline-image entry (Table 23-5, EDIMG). -/
inductive ImgEdit where
  | val (v : BitVec 256)
  | mask (m : BitVec 32)
  | land (n : Nat)
  | delete
deriving DecidableEq, Repr

/-- The rows of the opcode table: slot words in the table's order, the Bozoak words, then the events and operations of the device; a cluster
argument is the device cluster number (R16). -/
inductive Instr where
  -- S slot (Table 9-1)
  | add (sd sa sb : BitVec 5) | sub (sd sa sb : BitVec 5) | and (sd sa sb : BitVec 5) | or (sd sa sb : BitVec 5)
  | xor (sd sa sb : BitVec 5) | shl (sd sa sb : BitVec 5) | shr (sd sa sb : BitVec 5) | sra (sd sa sb : BitVec 5)
  | mul (sd sa sb : BitVec 5)
  | mulh (sgn : Bool) (sd sa sb : BitVec 5) | min (sgn : Bool) (sd sa sb : BitVec 5)
  | max (sgn : Bool) (sd sa sb : BitVec 5)
  | addImm (sd sa : BitVec 5) (imm : BitVec 16) | subImm (sd sa : BitVec 5) (imm : BitVec 16)
  | andImm (sd sa : BitVec 5) (imm : BitVec 16) | orImm (sd sa : BitVec 5) (imm : BitVec 16)
  | xorImm (sd sa : BitVec 5) (imm : BitVec 16)
  | shlImm (sd sa : BitVec 5) (k : BitVec 6) | shrImm (sd sa : BitVec 5) (k : BitVec 6)
  | sraImm (sd sa : BitVec 5) (k : BitVec 6)
  | mulImm (sd sa : BitVec 5) (imm : BitVec 16) | mulhImm (sd sa : BitVec 5) (imm : BitVec 16)
  | minImm (sd sa : BitVec 5) (imm : BitVec 16) | maxImm (sd sa : BitVec 5) (imm : BitVec 16)
  | cmp (c : Cond) (bd : BitVec 3) (sa sb : BitVec 5)
  | cmpImm (c : Cond) (bd : BitVec 3) (sa : BitVec 5) (imm : BitVec 12)
  | fop (op : FlagOp) (bd ba bb : BitVec 3)
  | nopn (n : BitVec 21)
  | ldi (sd : BitVec 5) (imm : BitVec 21)
  | ldih (sd : BitVec 5) (h : BitVec 2) (imm : BitVec 16)
  | br (cf : CF) (disp : BitVec 21)
  | jmp (sa : BitVec 5)
  | call (sd : BitVec 5) (disp : BitVec 21)
  | ret (sa : BitVec 5)
  | loop (n : BitVec 16)
  | loopReg (sa : BitVec 5)
  | lbrk (cf : CF) (disp : BitVec 21)
  | pini (sa sb : BitVec 5)
  | parr (sa : BitVec 5)
  | pwait (sa sb : BitVec 5)
  | pwaitImm (sa : BitVec 5) (ph : Bool)
  | bset (sc : Scope) (sa sb : BitVec 5)
  | bwait (sc : Scope) (sa sb : BitVec 5)
  | ldf (sgn : Bool) (sz : MSize) (sd sa : BitVec 5) (off : BitVec 12)
  | stf (sz : MSize) (sd sa : BitVec 5) (off : BitVec 12)
  | atom (op : AtomOp) (sgn w64 ret : Bool) (ord : MOrder) (sc : Scope) (sd sa sb : BitVec 5)
  | fence (kind : FenceKind) (sc : Scope)
  | cred (op : RedOp) (sd : BitVec 5) (aa : BitVec 4)
  | cmsk (m : CmskOp)
  | tex (ek : BitVec 3) (imm : BitVec 16)
  | texReg (ek : BitVec 3) (sa : BitVec 5) (imm : BitVec 16)
  | srr (sd : BitVec 5) (sel : BitVec 12)
  | srw (sel : BitVec 12) (sa : BitVec 5)
  | trap (code : BitVec 16)
  | lnch (sd sa : BitVec 5)
  -- A slot (Table 9-7)
  | aadd (ad aa ab : BitVec 4) | asub (ad aa ab : BitVec 4)
  | aaddi (ad aa : BitVec 4) (imm : BitVec 18)
  | ashl (ad aa : BitVec 4) (n : BitVec 5)
  | amov (ad aa : BitVec 4)
  | aldi (ad : BitVec 4) (imm : BitVec 18)
  | acix (m : CixMode) (ad : BitVec 4)
  | afroms (ad : BitVec 4) (n : BitVec 5)
  | shw (tm : BitVec 4) (fld : Fin 53) (sm : BitVec 5)
  | shwi (tm : BitVec 4) (fld : Fin 53) (imm : BitVec 11)
  | ftw (ft : BitVec 3) (sm : BitVec 5)
  | ftwField (ft : BitVec 3) (fld : FtField) (imm : BitVec 11)
  -- L slot (Table 11-1)
  | vld (vt : BitVec 6) (aa pd : BitVec 4) (ck : Chk) (off : BitVec 6)
  | vst (vt : VSrc) (aa pd : BitVec 4) (off : BitVec 6)
  | vldb (vt : BitVec 6) (aa pd : BitVec 4) (ck : Chk) (off : BitVec 6)
  | vlds (vt : BitVec 6) (aa pd : BitVec 4) (ck : Chk) (stride : BitVec 6)
  | vldx (half : Bool) (vt : BitVec 6) (aa pd : BitVec 4) (vi : VSrc)
  | vstx (half : Bool) (vt : VSrc) (aa pd : BitVec 4) (vi : VSrc)
  | pld (pt aa : BitVec 4) (ck : Chk) (off : BitVec 6)
  | pst (pt aa : BitVec 4) (off : BitVec 6)
  | dld (dt : BitVec 3) (aa : BitVec 4) (ck : Chk) (off : BitVec 6)
  | dst (dt : BitVec 3) (aa : BitVec 4) (off : BitVec 6)
  | vldf (vt : BitVec 6) (tm aa pd : BitVec 4) (off : BitVec 6)
  | vstf (vt : VSrc) (tm aa pd : BitVec 4) (off : BitVec 6)
  | vupd (op : UpdOp) (ty : UpdTy) (vt : VSrc) (tm aa pd : BitVec 4)
  -- V slots (Table 11-3)
  | vadd (c : VCtl) (sz : ISz) (sgn sat : Bool) (vd : BitVec 6) (va vb : VSrc)
  | vsub (c : VCtl) (sz : ISz) (sgn sat : Bool) (vd : BitVec 6) (va vb : VSrc)
  | vmul (c : VCtl) (sz : ISz) (vd : BitVec 6) (va vb : VSrc)
  | vmulh (c : VCtl) (sz : ISz) (sgn : Bool) (vd : BitVec 6) (va vb : VSrc)
  | vmad (c : VCtl) (sz : ISz) (vd : BitVec 6) (va vb vc : VSrc)
  | vmin (c : VCtl) (sz : ISz) (sgn : Bool) (vd : BitVec 6) (va vb : VSrc)
  | vmax (c : VCtl) (sz : ISz) (sgn : Bool) (vd : BitVec 6) (va vb : VSrc)
  | vabs (c : VCtl) (sz : ISz) (sat : Bool) (vd : BitVec 6) (va : VSrc)
  | vneg (c : VCtl) (sz : ISz) (sat : Bool) (vd : BitVec 6) (va : VSrc)
  | vand (c : VCtl) (sz : ISz) (vd : BitVec 6) (va vb : VSrc)
  | vor (c : VCtl) (sz : ISz) (vd : BitVec 6) (va vb : VSrc)
  | vxor (c : VCtl) (sz : ISz) (vd : BitVec 6) (va vb : VSrc)
  | vnot (c : VCtl) (sz : ISz) (vd : BitVec 6) (va : VSrc)
  | vshl (c : VCtl) (sz : ISz) (vd : BitVec 6) (va vb : VSrc)
  | vshr (c : VCtl) (sz : ISz) (vd : BitVec 6) (va vb : VSrc)
  | vsra (c : VCtl) (sz : ISz) (vd : BitVec 6) (va vb : VSrc)
  | vclz (c : VCtl) (sz : ISz) (vd : BitVec 6) (va : VSrc)
  | vpopc (c : VCtl) (sz : ISz) (vd : BitVec 6) (va : VSrc)
  | fadd (c : VCtl) (ty : FTy) (vd : BitVec 6) (va vb : VSrc)
  | fsub (c : VCtl) (ty : FTy) (vd : BitVec 6) (va vb : VSrc)
  | fmul (c : VCtl) (ty : FTy) (vd : BitVec 6) (va vb : VSrc)
  | ffma (c : VCtl) (ty : FTy) (vd : BitVec 6) (va vb vc : VSrc)
  | ffms (c : VCtl) (ty : FTy) (vd : BitVec 6) (va vb vc : VSrc)
  | fmin (c : VCtl) (ty : FTy) (vd : BitVec 6) (va vb : VSrc)
  | fmax (c : VCtl) (ty : FTy) (vd : BitVec 6) (va vb : VSrc)
  | fabs (c : VCtl) (ty : FTy) (vd : BitVec 6) (va : VSrc)
  | fneg (c : VCtl) (ty : FTy) (vd : BitVec 6) (va : VSrc)
  | fcps (c : VCtl) (ty : FTy) (vd : BitVec 6) (va vb : VSrc)
  | fexp2 (c : VCtl) (ty : FTy) (vd : BitVec 6) (va : VSrc)
  | flog2 (c : VCtl) (ty : FTy) (vd : BitVec 6) (va : VSrc)
  | frcp (c : VCtl) (ty : FTy) (vd : BitVec 6) (va : VSrc)
  | frsq (c : VCtl) (ty : FTy) (vd : BitVec 6) (va : VSrc)
  | fsqrt (c : VCtl) (ty : FTy) (vd : BitVec 6) (va : VSrc)
  | ftanh (c : VCtl) (ty : FTy) (vd : BitVec 6) (va : VSrc)
  | fsigm (c : VCtl) (ty : FTy) (vd : BitVec 6) (va : VSrc)
  | fsin (c : VCtl) (ty : FTy) (vd : BitVec 6) (va : VSrc)
  | fcos (c : VCtl) (ty : FTy) (vd : BitVec 6) (va : VSrc)
  | vcmp (c : VCtl) (sz : ISz) (cond : Cond) (pd : BitVec 4) (va vb : VSrc)
  | fcmp (c : VCtl) (ty : FTy) (cond : FCond) (pd : BitVec 4) (va vb : VSrc)
  | vsel (c : VCtl) (sz : ISz) (vd : BitVec 6) (va vb : VSrc)
  | fcls (c : VCtl) (ty : FTy) (vd : BitVec 6) (va : VSrc)
  | vcvt (c : VCtl) (k : CvtKind) (rm : RMode) (nsat : Bool) (vd : BitVec 6) (va : VSrc)
  | vpack (sz : ISz) (sat : PackSat) (vd : BitVec 6) (va vb : VSrc)
  | vunpk (sz : ISz) (sgn hi : Bool) (vd : BitVec 6) (va : VSrc)
  | vqnt (fs : FSel) (vd : BitVec 6) (va : VSrc)
  | vdqt (fs : FSel) (vd : BitVec 6) (va : VSrc)
  | vred (c : VCtl) (k : RedKind) (vd : BitVec 6) (va : VSrc)
  | vamax (c : VCtl) (ty : FTy) (m : SelMode) (vd : BitVec 6) (va : VSrc)
  | vscan (c : VCtl) (k : RedKind) (excl : Bool) (vd : BitVec 6) (va : VSrc)
  | vperm (c : VCtl) (sz : ISz) (vd : BitVec 6) (va vb : VSrc)
  | vshuf (c : VCtl) (sz : ISz) (vd : BitVec 6) (va vb vc : VSrc)
  | vbcst (c : VCtl) (sz : ISz) (idx : BitVec 6) (vd : BitVec 6) (va : VSrc)
  | vsld (c : VCtl) (sz : ISz) (k : BitVec 6) (vd : BitVec 6) (va vb : VSrc)
  | vzip (c : VCtl) (sz : ISz) (hi : Bool) (vd : BitVec 6) (va vb : VSrc)
  | vmov (c : VCtl) (sz : ISz) (rep : BitVec 6) (vd : BitVec 6) (va : VSrc)
  | vmovi (c : VCtl) (sz : ISz) (imm : BitVec 18) (vd : BitVec 6)
  | pand (c : VCtl) (pd pa pb : BitVec 4) | por (c : VCtl) (pd pa pb : BitVec 4)
  | pxor (c : VCtl) (pd pa pb : BitVec 4)
  | pnot (c : VCtl) (pd pa : BitVec 4)
  | pcnt (c : VCtl) (sz : ISz) (pd pa : BitVec 4)
  | pfirst (c : VCtl) (sz : ISz) (pd pa : BitVec 4)
  | vrnd (c : VCtl) (m : RndMode) (vd : BitVec 6)
  | vchk (rng : VRange) (mir : Bool) (ty : FTy) (trp : Bool) (t : BitVec 5) (pd : BitVec 4) (va vb : VSrc)
  -- M slot (Table 15-2); a row count M from 1 to 64 is held as M - 1
  | mbld (fs : FSel) (pl : Bool) (ck : Chk) (aa : BitVec 4) (off : BitVec 12)
  | mbldh (pl : Bool)
  | mrow (op : CellOp) (bk : BitVec 2) (fs : FSel) (pl : Bool) (va : VSrc) (m : BitVec 6) (st : StartMode)
      (hoff : BitVec 7) (vh : VSrc)
  | mchk (bk : BitVec 2) (fs : FSel) (pl : Bool) (reg : Option VSrc) (st : StartMode)
  | mzero (bk : Option (BitVec 2))
  | macc (bd bs : BitVec 2)
  | mdrn (bk : BitVec 2) (fs : FSel) (m : Fin 64) (nochk ckw : Bool) (tm : BitVec 4)
      (col : Option (BitVec 4 × BitVec 16))
  | mdrnk (bk : BitVec 2) (fs : FSel) (va : BitVec 6) (k : BitVec 4) (nochk : Bool) (mode : SelMode) (m : Fin 64)
      (nr : BitVec 5) (rb : BitVec 6)
  | mstat (va : BitVec 6) (clr : Bool)
  | mrd (bk : BitVec 2) (va : BitVec 6) (ln : BankLine)
  | mwr (bk : BitVec 2) (va : VSrc) (ln : BankLine)
  | mrot (bd bs : BitVec 2) (pl : Bool) (m : Fin 64)
  | mdiag (va : BitVec 6)
  | mspr (va : BitVec 6) (persist : Bool) (row : Fin 66)
  -- X slot (Table 13-3)
  | xld (o : XOps) | xldw (o : XOps) | xst (o : XOps) | xput (o : XOps) | xb (o : XOps)
  | xpsh (one : Bool) (sa sb : BitVec 5)
  | xgth (o : XOps) | xsct (o : XOps) | xchn (o : XOps) | xpair (o : XOps)
  | xfil (sp : Bool) (o : XOps)
  | xcol (k : BitVec 4) (o : XOps)
  | xfen (o : XOps)
  | xcan (all : Bool) (sq : BitVec 12)
  -- D slot (Table 17-2)
  | dadd (m : PairMode) (dd da db : BitVec 3) | dsub (m : PairMode) (dd da db : BitVec 3)
  | dmul (m : PairMode) (dd da db : BitVec 3) | dmax (m : PairMode) (dd da db : BitVec 3)
  | dmin (m : PairMode) (dd da db : BitVec 3)
  | daff (dd da : BitVec 3) (va : VSrc)
  | dmap (f : MapFn) (dd da : BitVec 3)
  | dmix (dd da db : BitVec 3) (va : VSrc)
  | dfrs (dd : BitVec 3) (va : VSrc)
  | dfrw (dd : BitVec 3) (va : VSrc)
  | dpnt (dd : BitVec 3) (va : VSrc)
  | dsmp (va : BitVec 6) (da : BitVec 3)
  | dmom (va : BitVec 6) (da : BitVec 3)
  | dqnt (lin : Bool) (da : BitVec 3) (va : VSrc)
  | dtag (op : TagOp) (dd da : BitVec 3) (va : VSrc)
  | dmov (sel : BitVec 8) (dd da : BitVec 3)
  | dcnd (dd da : BitVec 3) (va : VSrc)
  -- Bozoak words (Table 21-5)
  | send (pt ind : Bool) (c : ChunkEx) (p : PeerEx)
  | recv (pr : Bool) (c : ChunkEx)
  | rrs (rop : BzRop) (pr pt ind : Bool) (c : ChunkEx) (p : PeerEx)
  | rrd (rop : BzRop) (pr : Bool) (c : ChunkEx)
  | copy (c : ChunkEx)
  | waitc (c : ChunkEx)
  | sig (ind : Bool) (idx : BitVec 6) (p : PeerEx)
  | sigBit (b : BitVec 12)
  | waits (idx : BitVec 6) (n : BitVec 16)
  | bzLoop (gd : BitVec 3) (n : BitVec 32)
  | setv (gd : BitVec 3) (imm : BitVec 32)
  | addv (gd ga : BitVec 3) (imm : BitVec 32)
  | peer (gd : BitVec 3) (p : PeerEx)
  | peerInd (gd pg : BitVec 3)
  | peerXor (gd pg : BitVec 3)
  | bar (acq rel : Bool)
  -- events that the device's own turns carry out
  | chunkCount (c : BitVec 4) (k : BitVec 4) (chunk : BitVec 20) (inc : BitVec 16) (o : Origin)
  | deliveryComplete (id : Nat)
  | deliveryFailure (id : Nat)
  | buntingWindowReread (task : Nat)
  | windowTimeout (task : Nat)
  | preemptionFreeze (task gang : Nat)
  | checkpointSave (task gang : Nat)
  | gangResume (task gang : Nat)
  | killdone (ctx : BitVec 12)
  | runEnd (c : BitVec 4)
  | farAccessHoldEnd (c : BitVec 4)
  | pwaitResume (c : BitVec 4)
  | bwaitComplete (c : BitVec 4)
  | ttsyncRelease (c : BitVec 4)
  | lnchAnswer (c : BitVec 4)
  | amaxfComplete (c : BitVec 4)
  | holdTimeout (c : BitVec 4)
  | slipLimit (c : BitVec 4)
  | slipEnd (c : BitVec 4)
  | codeFetchArrival (c : BitVec 4)
  | gatherEntryArrival (c : BitVec 4)
  | copyCommandStart (c : BitVec 4)
  | copyCommandComplete (c : BitVec 4)
  | bsetPerform (c : BitVec 4)
  | postedAtomPerform (c : BitVec 4)
  | updateLineMerge (c : BitVec 4) (line : Nat)
  | windowWrite (c : BitVec 4)
  | resultLanding (c : BitVec 4)
  | scratchpadPerform (c : BitVec 4)
  | planeReady (c : BitVec 4)
  | arrayColumnStep (c : BitVec 4)
  | drainComplete (c : BitVec 4)
  | maintenanceRun (c : BitVec 4)
  | tlbInvalidationComplete (ctx : BitVec 12) (lo hi : BitVec 57)
  | throttleHoldEnd (c : BitVec 4)
  | generatorReseed (c : BitVec 4) (unit : BitVec 9)
  -- operations from outside, and events without operands
  | translationReplay (c : BitVec 4)
  | kill (ctx : BitVec 12)
  | droopDetect (c : BitVec 4)
  | bozoakContextTurn
  | bzcmdStart (via : Via) (k : BitVec 4)
  | bzcmdStop (via : Via) (k : BitVec 4)
  | bzcmdClrcnt (via : Via) (k : BitVec 4)
  | bzbindWrite (k : BitVec 4) (v : BitVec 64)
  | signalArrival (k : BitVec 4) (idx : BitVec 6)
  | hostLaunchDoorbell (w : BitVec 4) (tag : BitVec 32)
  | completionHeadWrite (w : BitVec 4) (v : BitVec 64)
  | supervisorRecord (rcd : BitVec 1024)
  | forwardedFabricRecord (sender : BitVec 12) (rcd : BitVec 1024) (pos : BitVec 8)
  | launchDispatch
  | ageingPeriod
  | remotePennantUpdate (c : BitVec 4) (addr : BitVec 26) (operand : BitVec 64)
  | launchWindowBind (w : BitVec 4) (bound : Bool) (ctx : BitVec 12)
  | contextDescriptorWrite (ctx : BitVec 12) (v : BitVec 64)
  | peerWindowWrite (i : BitVec 4) (v : BitVec 128)
  | peerInboundRequest (src : BitVec 12) (k : AccKind) (off : BitVec 39) (data : List Byte)
  | snapshotDescriptorWrite (i : BitVec 4) (v : BitVec 512)
  | snaproll (i : BitVec 4)
  | tlbInvalidation (ctx : BitVec 12) (lo hi : BitVec 57)
  | pcapWrite (watts : BitVec 32)
  | temperatureLimitWrite (warn crit : BitVec 16)
  | columnEventLimitWrite (thr : BitVec 32) (seconds : BitVec 32)
  | halt (c : BitVec 4)
  | step (c : BitVec 4)
  | resume (c : BitVec 4)
  | rdreg (c : BitVec 4) (r : DbgReg)
  | wrreg (c : BitVec 4) (r : DbgReg) (v : BitVec 2048)
  | rdimg (c : BitVec 4) (core : Option (BitVec 8))
  | edimg (c : BitVec 4) (core : BitVec 8) (entry : Nat) (e : ImgEdit)
  | handover (nonce : BitVec 256)
  | handoverStepOverrun
  | getVersion
  | getCapabilities
  | negotiateAlgorithms (offer : List Byte)
  | getDigests
  | getCertificate (slot : BitVec 8) (off len : BitVec 16)
  | challenge (slot : BitVec 8) (nonce : BitVec 256)
  | getMeasurements (index : BitVec 8) (sign : Bool) (nonce : BitVec 256)
  | keyExchange (exch : List Byte)
  | finish (session : Nat) (mac : List Byte)
  | endSession (session : Nat)
  | ideKm (session : Nat) (port : BitVec 3) (link : Bool) (key : BitVec 256)
  | powerWindow
  | monitorSample
  | patrolScrub
  | linkFailure (link : BitVec 3)
  | coldReset
  | warmReset
  | registerWrite (off : BitVec 22) (v : BitVec 64)
  | noiseSourceFailure (c : BitVec 4)
  | measurementSlotExtend (slot : BitVec 4) (digest : BitVec 256)
  | hostHdmAccess (k : AccKind) (addr : BitVec 39) (data : List Byte)
  | forwardedRecordRefusal (task : Nat)
  -- slot words and Bozoak words without operands
  | nop | endl | ttsync | rft | endRun | yieldRun | bzEndl | bzEnd | bzNop
deriving DecidableEq, Repr

end Sys2Proof
end

