-- ==== Sys2Proof/WellFormed.lean ====
section
/-!
DEFINITION. The restrictions the encodings put on operands: what the reserved codes and ranges of Tables 9-1, 9-4, 11-1,
11-3, 13-3, 15-2, 17-2 and 21-5 rule out.
-/
namespace Sys2Proof

/-- The selectors of Table 9-6. -/
def selAssigned (sel : BitVec 12) : Bool :=
  let n := sel.toNat
  decide (n ≤ 8) || (decide (0x10 ≤ n) && decide (n ≤ 0x14)) || n == 0x18 || (decide (0x20 ≤ n) && decide (n ≤ 0x27)) ||
    (decide (0x30 ≤ n) && decide (n ≤ 0x35)) || (decide (0x40 ≤ n) && decide (n ≤ 0x5F))

/-- Mirror with width 1024 is reserved (R94). -/
def VCtl.wf (c : VCtl) : Bool := !(c.mir && c.rng == .w1024)

/-- An integer reduction takes an integer operation and an FP one an FP operation (Table 11-5). -/
def RedKind.wf : RedKind → Bool
  | .int op _ => !(op == .fadd || op == .fmax || op == .fmin)
  | .fp op _ => op == .fadd || op == .fmax || op == .fmin

/-- SCOPE is zero unless ACQ or REL is set (Table 13-2). -/
def XOps.wf (o : XOps) : Bool := o.acq || o.rel || o.scope == .cluster

/-- With IND the peer is g[PG], and PO and PS are unused (R320, R321). -/
def PeerEx.wf (ind : Bool) (p : PeerEx) : Bool := !ind || (p.po == 0#12 && p.ps == 0#12)

/-- Well-formed instructions: those some word of the encoding stands for (R111, R321); events carry no restriction. -/
def Instr.wf : Instr → Bool
  | .fop op _ _ bb => !(op == .not) || bb == 0#3
  | .nopn n => n != 0#21
  | .loop n => n != 0#16
  | .atom op sgn _ rt _ _ sd _ _ =>
      (!sgn || op == .min || op == .max) && (!(op == .cas) || rt) && (rt || sd == 0#5)
  | .srr _ sel => selAssigned sel
  | .srw sel _ => selAssigned sel
  | .vlds _ _ _ _ stride => stride != 0#6
  | .vupd op ty _ _ _ _ => !(ty == .f32) || op == .add || op == .min || op == .max
  | .vadd c .. | .vsub c .. | .vmul c .. | .vmulh c .. | .vmad c .. | .vmin c .. | .vmax c .. | .vabs c .. | .vneg c ..
  | .vand c .. | .vor c .. | .vxor c .. | .vnot c .. | .vshl c .. | .vshr c .. | .vsra c .. | .vclz c .. | .vpopc c ..
  | .fadd c .. | .fsub c .. | .fmul c .. | .ffma c .. | .ffms c .. | .fmin c .. | .fmax c .. | .fabs c .. | .fneg c ..
  | .fcps c .. | .fexp2 c .. | .flog2 c .. | .frcp c .. | .frsq c .. | .fsqrt c .. | .ftanh c .. | .fsigm c ..
  | .fsin c .. | .fcos c .. | .vcmp c .. | .fcmp c .. | .vsel c .. | .fcls c .. | .vcvt c .. | .vamax c .. | .vperm c ..
  | .vshuf c .. | .vbcst c .. | .vsld c .. | .vzip c .. | .vmovi c .. | .pand c .. | .por c .. | .pxor c .. | .pnot c ..
  | .pcnt c .. | .pfirst c .. | .vrnd c .. => c.wf
  | .vred c k _ _ => c.wf && k.wf
  | .vscan c k _ _ _ => c.wf && k.wf
  | .vmov c _ rep vd va => c.wf && decide (vd.toNat + rep.toNat ≤ 63) && decide (va.r.toNat + rep.toNat ≤ 63)
  | .vchk rng mir .. => VCtl.wf ⟨rng, mir, 0#4⟩
  | .mdrnk _ _ va k _ _ m nr rb =>
      decide ((nr.toNat + 1) * (k.toNat + 1) ≤ 32) && decide (rb.toNat + nr.toNat + 1 ≤ m.val + 1) && decide (va.toNat ≤ 62)
  | .xld o | .xldw o | .xst o | .xput o | .xb o | .xgth o | .xsct o | .xchn o | .xpair o => o.wf
  | .xpsh one _ sb => !one || sb == 0#5
  | .xfil _ o => o.wf
  | .xcol _ o => o.wf && o.sq == 0#12 && (o.pen || o.tm == 0#4)
  | .xfen o => o.wf && o.sq == 0#12 && o.sa == 0#5 && o.sb == 0#5
  | .xcan all sq => !all || sq == 0#12
  | .dfrw _ va => decide (va.r.toNat ≤ 62)
  | .send _ ind _ p => p.wf ind
  | .rrs _ _ _ ind _ p => p.wf ind
  | .sig ind _ p => p.wf ind
  | .waits _ n => n != 0#16
  | .nop .. | .add .. | .sub .. | .and .. | .or .. | .xor .. | .shl .. | .shr .. | .sra .. | .mul .. | .mulh ..
  | .min .. | .max .. | .addImm .. | .subImm .. | .andImm .. | .orImm .. | .xorImm .. | .shlImm .. | .shrImm ..
  | .sraImm .. | .mulImm .. | .mulhImm .. | .minImm .. | .maxImm .. | .cmp .. | .cmpImm .. | .ldi .. | .ldih ..
  | .br .. | .jmp .. | .call .. | .ret .. | .loopReg .. | .endl .. | .lbrk .. | .ttsync .. | .pini .. | .parr ..
  | .pwait .. | .pwaitImm .. | .bset .. | .bwait .. | .ldf .. | .stf .. | .fence .. | .cred .. | .cmsk .. | .tex ..
  | .texReg .. | .trap .. | .rft .. | .endRun .. | .lnch .. | .yieldRun .. | .aadd .. | .asub .. | .aaddi ..
  | .ashl .. | .amov .. | .aldi .. | .acix .. | .afroms .. | .shw .. | .shwi .. | .ftw .. | .ftwField .. | .vld ..
  | .vst .. | .vldb .. | .vldx .. | .vstx .. | .pld .. | .pst .. | .dld .. | .dst .. | .vldf .. | .vstf ..
  | .vpack .. | .vunpk .. | .vqnt .. | .vdqt .. | .mbld .. | .mbldh .. | .mrow .. | .mchk .. | .mzero .. | .macc ..
  | .mdrn .. | .mstat .. | .mrd .. | .mwr .. | .mrot .. | .mdiag .. | .mspr .. | .dadd .. | .dsub .. | .dmul ..
  | .dmax .. | .dmin .. | .daff .. | .dmap .. | .dmix .. | .dfrs .. | .dpnt .. | .dsmp .. | .dmom .. | .dqnt ..
  | .dtag .. | .dmov .. | .dcnd .. | .recv .. | .rrd .. | .copy .. | .waitc .. | .sigBit .. | .bzLoop .. | .bzEndl ..
  | .setv .. | .addv .. | .peer .. | .peerInd .. | .peerXor .. | .bar .. | .bzEnd .. | .bzNop ..
  | .bozoakContextTurn .. | .bzcmdStart .. | .bzcmdStop .. | .bzcmdClrcnt .. | .bzbindWrite .. | .chunkCount ..
  | .deliveryComplete .. | .deliveryFailure .. | .signalArrival .. | .hostLaunchDoorbell .. | .completionHeadWrite ..
  | .supervisorRecord .. | .forwardedFabricRecord .. | .launchDispatch .. | .buntingWindowReread ..
  | .windowTimeout .. | .ageingPeriod .. | .preemptionFreeze .. | .checkpointSave .. | .gangResume .. | .kill ..
  | .killdone .. | .runEnd .. | .farAccessHoldEnd .. | .pwaitResume .. | .bwaitComplete .. | .ttsyncRelease ..
  | .lnchAnswer .. | .amaxfComplete .. | .holdTimeout .. | .slipLimit .. | .slipEnd .. | .codeFetchArrival ..
  | .gatherEntryArrival .. | .copyCommandStart .. | .copyCommandComplete .. | .bsetPerform .. | .postedAtomPerform ..
  | .updateLineMerge .. | .windowWrite .. | .remotePennantUpdate .. | .resultLanding .. | .scratchpadPerform ..
  | .planeReady .. | .arrayColumnStep .. | .drainComplete .. | .maintenanceRun .. | .translationReplay ..
  | .launchWindowBind .. | .contextDescriptorWrite .. | .peerWindowWrite .. | .peerInboundRequest ..
  | .snapshotDescriptorWrite .. | .snaproll .. | .tlbInvalidation .. | .tlbInvalidationComplete .. | .pcapWrite ..
  | .temperatureLimitWrite .. | .columnEventLimitWrite .. | .halt .. | .step .. | .resume .. | .rdreg .. | .wrreg ..
  | .rdimg .. | .edimg .. | .handover .. | .handoverStepOverrun .. | .getVersion .. | .getCapabilities ..
  | .negotiateAlgorithms .. | .getDigests .. | .getCertificate .. | .challenge .. | .getMeasurements ..
  | .keyExchange .. | .finish .. | .endSession .. | .ideKm .. | .powerWindow .. | .throttleHoldEnd ..
  | .droopDetect .. | .monitorSample .. | .patrolScrub .. | .generatorReseed .. | .linkFailure .. | .coldReset ..
  | .warmReset .. | .registerWrite .. | .noiseSourceFailure .. | .measurementSlotExtend .. | .hostHdmAccess ..
  | .forwardedRecordRefusal .. => true

/-- The operations and events of the device: they stand in the opcode table and have no word. -/
def Instr.isEvent : Instr → Bool
  | .bozoakContextTurn .. | .bzcmdStart .. | .bzcmdStop .. | .bzcmdClrcnt .. | .bzbindWrite .. | .chunkCount ..
  | .deliveryComplete .. | .deliveryFailure .. | .signalArrival .. | .hostLaunchDoorbell ..
  | .completionHeadWrite .. | .supervisorRecord .. | .forwardedFabricRecord .. | .launchDispatch ..
  | .buntingWindowReread .. | .windowTimeout .. | .ageingPeriod .. | .preemptionFreeze .. | .checkpointSave ..
  | .gangResume .. | .kill .. | .killdone .. | .runEnd .. | .farAccessHoldEnd .. | .pwaitResume ..
  | .bwaitComplete .. | .ttsyncRelease .. | .lnchAnswer .. | .amaxfComplete .. | .holdTimeout .. | .slipLimit ..
  | .slipEnd .. | .codeFetchArrival .. | .gatherEntryArrival .. | .copyCommandStart .. | .copyCommandComplete ..
  | .bsetPerform .. | .postedAtomPerform .. | .updateLineMerge .. | .windowWrite .. | .remotePennantUpdate ..
  | .resultLanding .. | .scratchpadPerform .. | .planeReady .. | .arrayColumnStep .. | .drainComplete ..
  | .maintenanceRun .. | .translationReplay .. | .launchWindowBind .. | .contextDescriptorWrite ..
  | .peerWindowWrite .. | .peerInboundRequest .. | .snapshotDescriptorWrite .. | .snaproll ..
  | .tlbInvalidation .. | .tlbInvalidationComplete .. | .pcapWrite .. | .temperatureLimitWrite ..
  | .columnEventLimitWrite .. | .halt .. | .step .. | .resume .. | .rdreg .. | .wrreg .. | .rdimg .. | .edimg ..
  | .handover .. | .handoverStepOverrun .. | .getVersion .. | .getCapabilities .. | .negotiateAlgorithms ..
  | .getDigests .. | .getCertificate .. | .challenge .. | .getMeasurements .. | .keyExchange .. | .finish ..
  | .endSession .. | .ideKm .. | .powerWindow .. | .throttleHoldEnd .. | .droopDetect .. | .monitorSample ..
  | .patrolScrub .. | .generatorReseed .. | .linkFailure .. | .coldReset .. | .warmReset .. | .registerWrite ..
  | .noiseSourceFailure .. | .measurementSlotExtend .. | .hostHdmAccess .. | .forwardedRecordRefusal .. => true
  | .add .. | .sub .. | .and .. | .or .. | .xor .. | .shl .. | .shr .. | .sra .. | .mul .. | .mulh .. | .min ..
  | .max .. | .addImm .. | .subImm .. | .andImm .. | .orImm .. | .xorImm .. | .shlImm .. | .shrImm ..
  | .sraImm .. | .mulImm .. | .mulhImm .. | .minImm .. | .maxImm .. | .cmp .. | .cmpImm .. | .fop .. | .nopn ..
  | .ldi .. | .ldih .. | .br .. | .jmp .. | .call .. | .ret .. | .loop .. | .loopReg .. | .lbrk .. | .pini ..
  | .parr .. | .pwait .. | .pwaitImm .. | .bset .. | .bwait .. | .ldf .. | .stf .. | .atom .. | .fence ..
  | .cred .. | .cmsk .. | .tex .. | .texReg .. | .srr .. | .srw .. | .trap .. | .lnch .. | .aadd .. | .asub ..
  | .aaddi .. | .ashl .. | .amov .. | .aldi .. | .acix .. | .afroms .. | .shw .. | .shwi .. | .ftw ..
  | .ftwField .. | .vld .. | .vst .. | .vldb .. | .vlds .. | .vldx .. | .vstx .. | .pld .. | .pst .. | .dld ..
  | .dst .. | .vldf .. | .vstf .. | .vupd .. | .vadd .. | .vsub .. | .vmul .. | .vmulh .. | .vmad .. | .vmin ..
  | .vmax .. | .vabs .. | .vneg .. | .vand .. | .vor .. | .vxor .. | .vnot .. | .vshl .. | .vshr .. | .vsra ..
  | .vclz .. | .vpopc .. | .fadd .. | .fsub .. | .fmul .. | .ffma .. | .ffms .. | .fmin .. | .fmax .. | .fabs ..
  | .fneg .. | .fcps .. | .fexp2 .. | .flog2 .. | .frcp .. | .frsq .. | .fsqrt .. | .ftanh .. | .fsigm ..
  | .fsin .. | .fcos .. | .vcmp .. | .fcmp .. | .vsel .. | .fcls .. | .vcvt .. | .vpack .. | .vunpk ..
  | .vqnt .. | .vdqt .. | .vred .. | .vamax .. | .vscan .. | .vperm .. | .vshuf .. | .vbcst .. | .vsld ..
  | .vzip .. | .vmov .. | .vmovi .. | .pand .. | .por .. | .pxor .. | .pnot .. | .pcnt .. | .pfirst ..
  | .vrnd .. | .vchk .. | .mbld .. | .mbldh .. | .mrow .. | .mchk .. | .mzero .. | .macc .. | .mdrn ..
  | .mdrnk .. | .mstat .. | .mrd .. | .mwr .. | .mrot .. | .mdiag .. | .mspr .. | .xld .. | .xldw .. | .xst ..
  | .xput .. | .xb .. | .xpsh .. | .xgth .. | .xsct .. | .xchn .. | .xpair .. | .xfil .. | .xcol .. | .xfen ..
  | .xcan .. | .dadd .. | .dsub .. | .dmul .. | .dmax .. | .dmin .. | .daff .. | .dmap .. | .dmix .. | .dfrs ..
  | .dfrw .. | .dpnt .. | .dsmp .. | .dmom .. | .dqnt .. | .dtag .. | .dmov .. | .dcnd .. | .send .. | .recv ..
  | .rrs .. | .rrd .. | .copy .. | .waitc .. | .sig .. | .sigBit .. | .waits .. | .bzLoop .. | .setv ..
  | .addv .. | .peer .. | .peerInd .. | .peerXor .. | .bar .. | .nop .. | .endl .. | .ttsync .. | .rft ..
  | .endRun .. | .yieldRun .. | .bzEndl .. | .bzEnd .. | .bzNop .. => false

end Sys2Proof
end

