-- ==== Sys2Proof/Decode.lean ====
section
/-!
DEFINITION. The encodings: the slot layouts of Tables 7-7 to 7-12, R107 and Tables 21-3 and 21-3a as records over their words,
the decoder of every slot word, the bundle (R83 to R85), and, after the decoder, the encoder.
-/
namespace Sys2Proof

/-- Why a word or bundle is refused (R84, R111, R321). -/
inductive DecErr where
  | crossing      -- the bundle leaves its fetch line: illegal bundle (R84)
  | opcode        -- an unassigned opcode (R111; Bozoak cause ILLOP)
  | reserved      -- a nonzero reserved field or a reserved code (R111; Bozoak cause RSVD)
deriving DecidableEq, Repr

/-- The slots in slot order (Table 7-1). -/
inductive Slot where
  | s | a | l | v0 | v1 | m | x | d
deriving DecidableEq, Repr

/-- A word with the slot kind it is for; V0 and V1 share one layout (Table 7-10), and Bozoak words stand alone. -/
inductive SlotWord where
  | s (w : BitVec 32) | a (w : BitVec 32) | l (w : BitVec 32) | v (w : BitVec 48)
  | m (w : BitVec 64) | x (w : BitVec 64) | d (w : BitVec 32) | bz (w : BitVec 64)
deriving DecidableEq, Repr

abbrev Dec := Except DecErr Instr

/-- An instruction whose reserved fields and codes are as they must be. -/
def okIf (legal : Bool) (i : Instr) : Dec := if legal then .ok i else .error .reserved

/-- An instruction that needs a field's code to be an assigned one. -/
def withCode {α : Type} (x : Option α) (f : α → Dec) : Dec := match x with
  | some a => f a
  | none => .error .reserved

/-- Keep a decoded instruction only when it is well formed: the codes the field tables reserve are refused (R111). -/
def onlyWf (d : Dec) : Dec := match d with
  | .ok i => if i.wf then .ok i else .error .reserved
  | .error e => .error e

/-! ### Codes of the enumerated fields -/

def Scope.ofCode (c : BitVec 2) : Scope := if c = 0#2 then .cluster else if c = 1#2 then .die else if c = 2#2 then .device else .fabric
def Scope.code : Scope → BitVec 2 | .cluster => 0#2 | .die => 1#2 | .device => 2#2 | .fabric => 3#2
def condAll : List Cond := [.eq, .ne, .lt, .ge, .le, .gt, .ltu, .geu, .leu, .gtu]
def Cond.code (c : Cond) : Nat := condAll.idxOf c
def flagAll : List FlagOp := [.and, .or, .xor, .not]
def FlagOp.code (c : FlagOp) : Nat := flagAll.idxOf c
def msizeAll : List MSize := [.b1, .b2, .b4, .b8]
def MSize.code (c : MSize) : Nat := msizeAll.idxOf c
def atomAll : List AtomOp := [.add, .min, .max, .and, .or, .xor, .swap, .cas]
def AtomOp.code (c : AtomOp) : Nat := atomAll.idxOf c
def orderAll : List MOrder := [.none, .acq, .rel, .ar]
def MOrder.code (c : MOrder) : Nat := orderAll.idxOf c
def redAll : List RedOp := [.add, .minS, .maxS, .minN, .maxN, .and, .or, .xor, .fadd, .fmax, .fmin]
def RedOp.code (c : RedOp) : Nat := redAll.idxOf c
def cixAll : List CixMode := [.ix, .row, .col, .tix, .base, .dev]
def CixMode.code (c : CixMode) : Nat := cixAll.idxOf c
def ftFieldAll : List FtField := [.afmt, .bfmt, .dfmt, .acc, .rm, .sm, .srb, .t, .scsrc]
def FtField.code (c : FtField) : Nat := ftFieldAll.idxOf c + 1
def updOpAll : List UpdOp := [.add, .min, .max, .and, .or, .xor]
def UpdOp.code (c : UpdOp) : Nat := updOpAll.idxOf c
def updTyAll : List UpdTy := [.s32, .n32, .s64, .n64, .f32]
def UpdTy.code (c : UpdTy) : Nat := updTyAll.idxOf c
def iszAll : List ISz := [.w8, .w16, .w32, .w64]
def ISz.code (c : ISz) : Nat := iszAll.idxOf c
def ftyAll : List FTy := [.f32, .bf16, .f16]
def FTy.code (c : FTy) : Nat := ftyAll.idxOf c
def fcondAll : List FCond := [.eq, .ne, .lt, .le, .gt, .ge, .un, .ord]
def FCond.code (c : FCond) : Nat := fcondAll.idxOf c
def sfmtAll : List SFmt := [.f32, .bf16, .f16, .e4m3, .e5m2]
def SFmt.code (c : SFmt) : Nat := sfmtAll.idxOf c
def ikindAll : List IKind := [.s8, .n8, .s16, .n16, .s32, .n32, .s64, .n64]
def IKind.code (c : IKind) : Nat := ikindAll.idxOf c
def rmAll : List RMode := [.rne, .rtz, .rdn, .rup, .sr]
def RMode.code (c : RMode) : Nat := rmAll.idxOf c
def packAll : List PackSat := [.wrap, .ssat, .usat]
def PackSat.code (c : PackSat) : Nat := packAll.idxOf c
def selAll : List SelMode := [.max, .min, .maxm, .minm]
def SelMode.code (c : SelMode) : Nat := selAll.idxOf c
def cellAll : List CellOp := [.mac, .abd, .cmx, .cmn, .sqd]
def CellOp.code (c : CellOp) : Nat := cellAll.idxOf c
def startAll : List StartMode := [.entry, .zero, .acc]
def StartMode.code (c : StartMode) : Nat := startAll.idxOf c
def pairAll : List PairMode := [.tags, .ind, .com]
def PairMode.code (c : PairMode) : Nat := pairAll.idxOf c
def mapAll : List MapFn := [.exp2, .log2, .sqrt, .tanh, .sigm, .rcp, .relu]
def MapFn.code (c : MapFn) : Nat := mapAll.idxOf c
def tagAll : List TagOp := [.set, .clr, .rep]
def TagOp.code (c : TagOp) : Nat := tagAll.idxOf c
def rankAll : List RankSign := [.none, .plus, .minus]
def RankSign.code (c : RankSign) : Nat := rankAll.idxOf c
def ropAll : List BzRop := [.add, .max, .min]
def BzRop.code (c : BzRop) : Nat := ropAll.idxOf c

/-- One bit as a truth value. -/
def bit (b : BitVec 1) : Bool := b == 1#1
/-- A truth value as one bit. -/
def ofBit (b : Bool) : BitVec 1 := if b then 1#1 else 0#1

/-- The condition field (R130): negate, test, flag. -/
def CF.ofCode (c : BitVec 5) : Option CF :=
  let k := c.extractLsb' 0 3
  if c = 0#5 then some .always
  else if c.extractLsb' 3 2 = 1#2 then some (.ifSet k)
  else if c.extractLsb' 3 2 = 3#2 then some (.ifClear k) else none
def CF.code : CF → BitVec 5
  | .always => 0#5
  | .ifSet k => 1#2 ++ k
  | .ifClear k => 3#2 ++ k

/-- The tag-check field ck (R103). -/
def chkOf (c : BitVec 4) : Option Chk :=
  if c = 0#4 then some none else if c.extractLsb' 3 1 = 1#1 then some (some (c.extractLsb' 0 3)) else none
def chkCode : Chk → BitVec 4
  | none => 0#4
  | some k => 1#1 ++ k

/-- Width and segment fields (Table 7-5). -/
def VRange.ofCode (w sg : BitVec 2) : Option VRange :=
  if w = 0#2 then some (.w256 sg)
  else if w = 1#2 then (if sg = 0#2 then some (.w512 false) else if sg = 1#2 then some (.w512 true) else none)
  else if w = 2#2 then (if sg = 0#2 then some .w1024 else none) else none
def VRange.wcode : VRange → BitVec 2 | .w256 _ => 0#2 | .w512 _ => 1#2 | .w1024 => 2#2
def VRange.scode : VRange → BitVec 2 | .w256 k => k | .w512 hi => if hi then 1#2 else 0#2 | .w1024 => 0#2

/-- The format-select field (R81). -/
def FSel.ofCode (c : BitVec 4) : Option FSel :=
  if c.extractLsb' 3 1 = 0#1 then some (.ft (c.extractLsb' 0 3))
  else if h : (c.extractLsb' 0 3).toNat < 6 then some (.lc ⟨(c.extractLsb' 0 3).toNat, h⟩) else none
def FSel.code : FSel → BitVec 4
  | .ft n => 0#1 ++ n
  | .lc k => 1#1 ++ BitVec.ofNat 3 k.val

/-! ### Layouts -/

/-- Layout SR (Table 7-7). -/
structure LaySR where
  op : BitVec 6
  sd : BitVec 5
  sa : BitVec 5
  sb : BitVec 5
  fn : BitVec 11
deriving DecidableEq, Repr
def LaySR.of (w : BitVec 32) : LaySR := ⟨w.extractLsb' 26 6, w.extractLsb' 21 5, w.extractLsb' 16 5, w.extractLsb' 11 5, w.extractLsb' 0 11⟩
def LaySR.word (x : LaySR) : BitVec 32 := x.op ++ x.sd ++ x.sa ++ x.sb ++ x.fn
/-- The imm16 field of layout SI: [15:11] and [10:0] (Table 7-7). -/
def LaySR.imm16 (x : LaySR) : BitVec 16 := x.sb ++ x.fn
/-- The imm21 field of layouts SW and SC (Table 7-7). -/
def LaySR.imm21 (x : LaySR) : BitVec 21 := x.sa ++ x.sb ++ x.fn
/-- A word of layout SI. -/
def wordSI (op : BitVec 6) (sd sa : BitVec 5) (imm : BitVec 16) : BitVec 32 := op ++ sd ++ sa ++ imm
/-- A word of layouts SW and SC. -/
def wordSW (op : BitVec 6) (sd : BitVec 5) (imm : BitVec 21) : BitVec 32 := op ++ sd ++ imm
/-- A word of layout SR. -/
def wordSR (op : BitVec 6) (sd sa sb : BitVec 5) (fn : BitVec 11) : BitVec 32 := op ++ sd ++ sa ++ sb ++ fn

/-- Layout AR (Table 7-8); AI and AT regroup its low fields. -/
structure LayA where
  op : BitVec 6
  ad : BitVec 4
  aa : BitVec 4
  ab : BitVec 4
  fn : BitVec 14
deriving DecidableEq, Repr
def LayA.of (w : BitVec 32) : LayA := ⟨w.extractLsb' 26 6, w.extractLsb' 22 4, w.extractLsb' 18 4, w.extractLsb' 14 4, w.extractLsb' 0 14⟩
def wordAR (op : BitVec 6) (ad aa ab : BitVec 4) (fn : BitVec 14) : BitVec 32 := op ++ ad ++ aa ++ ab ++ fn
def LayA.imm18 (x : LayA) : BitVec 18 := x.ab ++ x.fn
def wordAI (op : BitVec 6) (ad aa : BitVec 4) (imm : BitVec 18) : BitVec 32 := op ++ ad ++ aa ++ imm

/-- Layout AT (R102). -/
structure LayAT where
  op : BitVec 6
  ix : BitVec 4
  fld : BitVec 6
  ss : BitVec 5
  imm : BitVec 11
deriving DecidableEq, Repr
def LayAT.of (w : BitVec 32) : LayAT := ⟨w.extractLsb' 26 6, w.extractLsb' 22 4, w.extractLsb' 16 6, w.extractLsb' 11 5, w.extractLsb' 0 11⟩
def wordAT (op : BitVec 6) (ix : BitVec 4) (fld : BitVec 6) (ss : BitVec 5) (imm : BitVec 11) : BitVec 32 := op ++ ix ++ fld ++ ss ++ imm

/-- Layout LM (Table 7-9); LX regroups ck and off6 as vi, qi and fn. -/
structure LayL where
  op : BitVec 6
  vt : BitVec 6
  aa : BitVec 4
  pd : BitVec 4
  qt : BitVec 2
  ck : BitVec 4
  off : BitVec 6
deriving DecidableEq, Repr
def LayL.of (w : BitVec 32) : LayL :=
  ⟨w.extractLsb' 26 6, w.extractLsb' 20 6, w.extractLsb' 16 4, w.extractLsb' 12 4, w.extractLsb' 10 2, w.extractLsb' 6 4, w.extractLsb' 0 6⟩
def wordLM (op vt : BitVec 6) (aa pd : BitVec 4) (qt : BitVec 2) (ck : BitVec 4) (off : BitVec 6) : BitVec 32 :=
  op ++ vt ++ aa ++ pd ++ qt ++ ck ++ off
/-- Layout LX (Table 7-9). -/
structure LayLX where
  op : BitVec 6
  vt : BitVec 6
  aa : BitVec 4
  pd : BitVec 4
  qt : BitVec 2
  vi : BitVec 6
  qi : BitVec 2
  fn : BitVec 2
deriving DecidableEq, Repr
def LayLX.of (w : BitVec 32) : LayLX :=
  ⟨w.extractLsb' 26 6, w.extractLsb' 20 6, w.extractLsb' 16 4, w.extractLsb' 12 4, w.extractLsb' 10 2, w.extractLsb' 4 6, w.extractLsb' 2 2, w.extractLsb' 0 2⟩
def wordLX (op vt : BitVec 6) (aa pd : BitVec 4) (qt : BitVec 2) (vi : BitVec 6) (qi fn : BitVec 2) : BitVec 32 :=
  op ++ vt ++ aa ++ pd ++ qt ++ vi ++ qi ++ fn

/-- The V layout (Table 7-10). -/
structure LayV where
  op : BitVec 7
  vd : BitVec 6
  va : BitVec 6
  vb : BitVec 6
  vc : BitVec 6
  wd : BitVec 2
  sg : BitVec 2
  mir : BitVec 1
  pred : BitVec 4
  qa : BitVec 2
  qb : BitVec 2
  qc : BitVec 2
  st : BitVec 2
deriving DecidableEq, Repr
def LayV.of (w : BitVec 48) : LayV :=
  ⟨w.extractLsb' 41 7, w.extractLsb' 35 6, w.extractLsb' 29 6, w.extractLsb' 23 6, w.extractLsb' 17 6, w.extractLsb' 15 2,
   w.extractLsb' 13 2, w.extractLsb' 12 1, w.extractLsb' 8 4, w.extractLsb' 6 2, w.extractLsb' 4 2, w.extractLsb' 2 2, w.extractLsb' 0 2⟩
def LayV.word (x : LayV) : BitVec 48 :=
  x.op ++ x.vd ++ x.va ++ x.vb ++ x.vc ++ x.wd ++ x.sg ++ x.mir ++ x.pred ++ x.qa ++ x.qb ++ x.qc ++ x.st

/-- The M layout (Table 7-11). -/
structure LayM where
  op : BitVec 6
  bk : BitVec 2
  fs : BitVec 4
  cop : BitVec 3
  pl : BitVec 1
  va : BitVec 6
  qa : BitVec 2
  cnt : BitVec 8
  fl : BitVec 8
  aux : BitVec 24
deriving DecidableEq, Repr
def LayM.of (w : BitVec 64) : LayM :=
  ⟨w.extractLsb' 58 6, w.extractLsb' 56 2, w.extractLsb' 52 4, w.extractLsb' 49 3, w.extractLsb' 48 1, w.extractLsb' 42 6,
   w.extractLsb' 40 2, w.extractLsb' 32 8, w.extractLsb' 24 8, w.extractLsb' 0 24⟩
def LayM.word (x : LayM) : BitVec 64 := x.op ++ x.bk ++ x.fs ++ x.cop ++ x.pl ++ x.va ++ x.qa ++ x.cnt ++ x.fl ++ x.aux

/-- The X layout (Table 7-12). -/
structure LayX where
  op : BitVec 6
  tm : BitVec 4
  st : BitVec 5
  toff : BitVec 16
  sq : BitVec 12
  sa : BitVec 5
  sb : BitVec 5
  fl : BitVec 11
deriving DecidableEq, Repr
def LayX.of (w : BitVec 64) : LayX :=
  ⟨w.extractLsb' 58 6, w.extractLsb' 54 4, w.extractLsb' 49 5, w.extractLsb' 33 16, w.extractLsb' 21 12, w.extractLsb' 16 5,
   w.extractLsb' 11 5, w.extractLsb' 0 11⟩
def LayX.word (x : LayX) : BitVec 64 := x.op ++ x.tm ++ x.st ++ x.toff ++ x.sq ++ x.sa ++ x.sb ++ x.fl

/-- The D layout (R107). -/
structure LayD where
  op : BitVec 6
  dd : BitVec 3
  da : BitVec 3
  db : BitVec 3
  va : BitVec 6
  qa : BitVec 2
  fn : BitVec 9
deriving DecidableEq, Repr
def LayD.of (w : BitVec 32) : LayD :=
  ⟨w.extractLsb' 26 6, w.extractLsb' 23 3, w.extractLsb' 20 3, w.extractLsb' 17 3, w.extractLsb' 11 6, w.extractLsb' 9 2, w.extractLsb' 0 9⟩
def LayD.word (x : LayD) : BitVec 32 := x.op ++ x.dd ++ x.da ++ x.db ++ x.va ++ x.qa ++ x.fn

/-- Bozoak layout C (Table 21-3). -/
structure LayC where
  op : BitVec 6
  po : BitVec 12
  ps : BitVec 12
  pg : BitVec 3
  cg : BitVec 3
  ck : BitVec 4
  cr : BitVec 2
  cb : BitVec 12
  fl : BitVec 10
deriving DecidableEq, Repr
def LayC.of (w : BitVec 64) : LayC :=
  ⟨w.extractLsb' 58 6, w.extractLsb' 46 12, w.extractLsb' 34 12, w.extractLsb' 31 3, w.extractLsb' 28 3, w.extractLsb' 24 4,
   w.extractLsb' 22 2, w.extractLsb' 10 12, w.extractLsb' 0 10⟩
def LayC.word (x : LayC) : BitVec 64 := x.op ++ x.po ++ x.ps ++ x.pg ++ x.cg ++ x.ck ++ x.cr ++ x.cb ++ x.fl

/-- Bozoak layout I (Table 21-3a). -/
structure LayI where
  op : BitVec 6
  gd : BitVec 3
  ga : BitVec 3
  rs : BitVec 20
  imm : BitVec 32
deriving DecidableEq, Repr
def LayI.of (w : BitVec 64) : LayI :=
  ⟨w.extractLsb' 58 6, w.extractLsb' 55 3, w.extractLsb' 52 3, w.extractLsb' 32 20, w.extractLsb' 0 32⟩
def LayI.word (x : LayI) : BitVec 64 := x.op ++ x.gd ++ x.ga ++ x.rs ++ x.imm

/-! ### Decoders of the slots -/

/-- S words (Tables 7-13, 9-1). Fields of Table 9-1 that a form does not use are taken as reserved: a PWAIT sa, sb with fn[0] = 1, and a CMSK whose
mode does not use sa or aa with that field nonzero (log entry 84). -/
def decodeS (w : BitVec 32) : Dec :=
  let x := LaySR.of w
  let zfn := x.fn == 0#11
  let bd := x.sd.extractLsb' 0 3
  let zbd := x.sd.extractLsb' 3 2 == 0#2
  let imm := x.imm16
  let rrr (i : Instr) : Dec := okIf zfn i
  let sc := Scope.ofCode (x.fn.extractLsb' 0 2)
  let zf2 := x.fn.extractLsb' 2 9 == 0#9
  let zsd := x.sd == 0#5
  let zsa := x.sa == 0#5
  let zsb := x.sb == 0#5
  let sgn := bit (x.fn.extractLsb' 0 1)
  let zf1 := x.fn.extractLsb' 1 10 == 0#10
  let zk := imm.extractLsb' 6 10 == 0#10
  let k := imm.extractLsb' 0 6
  if x.op = 0x00#6 then okIf (w == 0#32) .nop
  else if x.op = 0x01#6 then rrr (.add x.sd x.sa x.sb)
  else if x.op = 0x02#6 then rrr (.sub x.sd x.sa x.sb)
  else if x.op = 0x03#6 then rrr (.and x.sd x.sa x.sb)
  else if x.op = 0x04#6 then rrr (.or x.sd x.sa x.sb)
  else if x.op = 0x05#6 then rrr (.xor x.sd x.sa x.sb)
  else if x.op = 0x06#6 then rrr (.shl x.sd x.sa x.sb)
  else if x.op = 0x07#6 then rrr (.shr x.sd x.sa x.sb)
  else if x.op = 0x08#6 then rrr (.sra x.sd x.sa x.sb)
  else if x.op = 0x09#6 then rrr (.mul x.sd x.sa x.sb)
  else if x.op = 0x0A#6 then okIf zf1 (.mulh sgn x.sd x.sa x.sb)
  else if x.op = 0x0B#6 then okIf zf1 (.min sgn x.sd x.sa x.sb)
  else if x.op = 0x0C#6 then okIf zf1 (.max sgn x.sd x.sa x.sb)
  else if x.op = 0x0D#6 then withCode condAll[(x.fn.extractLsb' 0 4).toNat]? fun c =>
    okIf (zbd && x.fn.extractLsb' 4 7 == 0#7) (.cmp c bd x.sa x.sb)
  else if x.op = 0x0E#6 then withCode flagAll[(x.fn.extractLsb' 0 2).toNat]? fun c =>
    okIf (zbd && x.sa.extractLsb' 3 2 == 0#2 && x.sb.extractLsb' 3 2 == 0#2 && zf2)
      (.fop c bd (x.sa.extractLsb' 0 3) (x.sb.extractLsb' 0 3))
  else if x.op = 0x0F#6 then okIf zsd (.nopn x.imm21)
  else if x.op = 0x10#6 then .ok (.ldi x.sd x.imm21)
  else if x.op = 0x11#6 then .ok (.addImm x.sd x.sa imm)
  else if x.op = 0x12#6 then .ok (.subImm x.sd x.sa imm)
  else if x.op = 0x13#6 then .ok (.andImm x.sd x.sa imm)
  else if x.op = 0x14#6 then .ok (.orImm x.sd x.sa imm)
  else if x.op = 0x15#6 then okIf zk (.shlImm x.sd x.sa k)
  else if x.op = 0x16#6 then okIf zk (.shrImm x.sd x.sa k)
  else if x.op = 0x17#6 then okIf zk (.sraImm x.sd x.sa k)
  else if x.op = 0x18#6 then .ok (.mulImm x.sd x.sa imm)
  else if x.op = 0x19#6 then .ok (.mulhImm x.sd x.sa imm)
  else if x.op = 0x1A#6 then .ok (.minImm x.sd x.sa imm)
  else if x.op = 0x1B#6 then .ok (.maxImm x.sd x.sa imm)
  else if x.op = 0x1C#6 then withCode condAll[(imm.extractLsb' 12 4).toNat]? fun c =>
    okIf zbd (.cmpImm c bd x.sa (imm.extractLsb' 0 12))
  else if x.op = 0x1D#6 then okIf (x.sa.extractLsb' 2 3 == 0#3) (.ldih x.sd (x.sa.extractLsb' 0 2) imm)
  else if x.op = 0x1E#6 then .ok (.xorImm x.sd x.sa imm)
  else if x.op = 0x20#6 then withCode (CF.ofCode x.sd) fun cf => .ok (.br cf x.imm21)
  else if x.op = 0x21#6 then okIf (zsd && zsb && zfn) (.jmp x.sa)
  else if x.op = 0x22#6 then .ok (.call x.sd x.imm21)
  else if x.op = 0x23#6 then okIf (zsd && zsb && zfn) (.ret x.sa)
  else if x.op = 0x24#6 then
    if imm = 0#16 then okIf zsd (.loopReg x.sa) else okIf (zsd && zsa) (.loop imm)
  else if x.op = 0x25#6 then okIf (zsd && x.imm21 == 0#21) .endl
  else if x.op = 0x26#6 then withCode (CF.ofCode x.sd) fun cf => .ok (.lbrk cf x.imm21)
  else if x.op = 0x27#6 then okIf (zsd && x.imm21 == 0#21) .ttsync
  else if x.op = 0x28#6 then okIf (zsd && zfn) (.pini x.sa x.sb)
  else if x.op = 0x29#6 then okIf (zsd && zsb && zfn) (.parr x.sa)
  else if x.op = 0x2A#6 then
    if x.fn.extractLsb' 1 1 = 1#1 then okIf (zsd && zsb && zf2) (.pwaitImm x.sa sgn)
    else okIf (zsd && zfn) (.pwait x.sa x.sb)
  else if x.op = 0x2B#6 then okIf (zsd && zf2) (.bset sc x.sa x.sb)
  else if x.op = 0x2C#6 then okIf (zsd && zf2) (.bwait sc x.sa x.sb)
  else if x.op = 0x2E#6 then withCode msizeAll[(imm.extractLsb' 12 2).toNat]? fun sz =>
    okIf (imm.extractLsb' 15 1 == 0#1) (.ldf (bit (imm.extractLsb' 14 1)) sz x.sd x.sa (imm.extractLsb' 0 12))
  else if x.op = 0x2F#6 then withCode msizeAll[(imm.extractLsb' 12 2).toNat]? fun sz =>
    okIf (imm.extractLsb' 14 2 == 0#2) (.stf sz x.sd x.sa (imm.extractLsb' 0 12))
  else if x.op = 0x30#6 then withCode atomAll[(x.fn.extractLsb' 0 3).toNat]? fun op =>
    withCode orderAll[(x.fn.extractLsb' 3 2).toNat]? fun o =>
    okIf (x.fn.extractLsb' 10 1 == 0#1)
      (.atom op (bit (x.fn.extractLsb' 8 1)) (bit (x.fn.extractLsb' 7 1)) (bit (x.fn.extractLsb' 9 1)) o
        (Scope.ofCode (x.fn.extractLsb' 5 2)) x.sd x.sa x.sb)
  else if x.op = 0x31#6 then
    let z := zsd && zsa && zsb && x.fn.extractLsb' 4 7 == 0#7
    if x.fn.extractLsb' 2 2 = 1#2 then okIf z (.fence .acq sc)
    else if x.fn.extractLsb' 2 2 = 2#2 then okIf z (.fence .rel sc)
    else if x.fn.extractLsb' 2 2 = 3#2 then okIf z (.fence .ar sc) else .error .reserved
  else if x.op = 0x32#6 then withCode redAll[(x.fn.extractLsb' 0 4).toNat]? fun op =>
    okIf (x.sa.extractLsb' 4 1 == 0#1 && zsb && x.fn.extractLsb' 4 7 == 0#7) (.cred op x.sd (x.sa.extractLsb' 0 4))
  else if x.op = 0x33#6 then
    let aa := x.fn.extractLsb' 3 4
    let z := zsd && zsb && x.fn.extractLsb' 7 4 == 0#4
    let md := x.fn.extractLsb' 0 3
    if md = 0#3 then okIf (z && zsa && aa == 0#4) (.cmsk .all)
    else if md = 1#3 then okIf (z && aa == 0#4) (.cmsk (.rect x.sa))
    else if md = 2#3 then okIf (z && zsa) (.cmsk (.and aa))
    else if md = 3#3 then okIf (z && zsa) (.cmsk (.set aa))
    else if md = 4#3 then okIf (z && zsa && aa == 0#4) (.cmsk .not) else .error .reserved
  else if x.op = 0x34#6 then
    if x.sd.extractLsb' 4 1 = 1#1 then okIf (x.sd.extractLsb' 3 1 == 0#1 && zsa) (.tex bd imm)
    else okIf (x.sd.extractLsb' 3 1 == 0#1) (.texReg bd x.sa imm)
  else if x.op = 0x35#6 then okIf (zsa && imm.extractLsb' 12 4 == 0#4) (.srr x.sd (imm.extractLsb' 0 12))
  else if x.op = 0x36#6 then okIf (zsd && imm.extractLsb' 12 4 == 0#4) (.srw (imm.extractLsb' 0 12) x.sa)
  else if x.op = 0x37#6 then okIf (zsd && zsa) (.trap imm)
  else if x.op = 0x38#6 then okIf (zsd && x.imm21 == 0#21) .rft
  else if x.op = 0x39#6 then okIf (zsd && x.imm21 == 0#21) .endRun
  else if x.op = 0x3A#6 then okIf (zsb && zfn) (.lnch x.sd x.sa)
  else if x.op = 0x3B#6 then okIf (zsd && x.imm21 == 0#21) .yieldRun
  else .error .opcode

/-- A words (Tables 7-14, 9-7). -/
def decodeA (w : BitVec 32) : Dec :=
  let x := LayA.of w
  let t := LayAT.of w
  let zfn := x.fn == 0#14
  let imm := x.imm18
  if x.op = 0x01#6 then okIf zfn (.aadd x.ad x.aa x.ab)
  else if x.op = 0x02#6 then okIf zfn (.asub x.ad x.aa x.ab)
  else if x.op = 0x03#6 then .ok (.aaddi x.ad x.aa imm)
  else if x.op = 0x04#6 then okIf (imm.extractLsb' 5 13 == 0#13) (.ashl x.ad x.aa (imm.extractLsb' 0 5))
  else if x.op = 0x05#6 then okIf (imm == 0#18) (.amov x.ad x.aa)
  else if x.op = 0x06#6 then okIf (x.aa == 0#4) (.aldi x.ad imm)
  else if x.op = 0x07#6 then withCode cixAll[(x.fn.extractLsb' 0 3).toNat]? fun m =>
    okIf (x.aa == 0#4 && x.ab == 0#4 && x.fn.extractLsb' 3 11 == 0#11) (.acix m x.ad)
  else if x.op = 0x08#6 then okIf (x.aa == 0#4 && x.ab == 0#4 && x.fn.extractLsb' 5 9 == 0#9) (.afroms x.ad (x.fn.extractLsb' 0 5))
  else if x.op = 0x09#6 then
    if h : t.fld.toNat < 53 then okIf (t.imm == 0#11) (.shw t.ix ⟨t.fld.toNat, h⟩ t.ss) else .error .reserved
  else if x.op = 0x0A#6 then
    if h : t.fld.toNat < 53 then okIf (t.ss == 0#5) (.shwi t.ix ⟨t.fld.toNat, h⟩ t.imm) else .error .reserved
  else if x.op = 0x0B#6 then
    let z := t.ix.extractLsb' 3 1 == 0#1
    if t.fld = 0#6 then okIf (z && t.imm == 0#11) (.ftw (t.ix.extractLsb' 0 3) t.ss)
    else withCode ftFieldAll[t.fld.toNat - 1]? fun f => okIf (z && t.ss == 0#5) (.ftwField (t.ix.extractLsb' 0 3) f t.imm)
  else .error .opcode

/-- L words (Tables 7-14, 11-1). -/
def decodeL (w : BitVec 32) : Dec :=
  let x := LayL.of w
  let y := LayLX.of w
  let zq := x.qt == 0#2
  let zpd := x.pd == 0#4
  let zck := x.ck == 0#4
  let pt := x.vt.extractLsb' 0 4
  let zp := x.vt.extractLsb' 4 2 == 0#2
  let dt := x.vt.extractLsb' 0 3
  let zd := x.vt.extractLsb' 3 3 == 0#3
  let half := bit (y.fn.extractLsb' 0 1)
  let zfn := y.fn.extractLsb' 1 1 == 0#1
  let vt : VSrc := ⟨x.vt, x.qt⟩
  if x.op = 0x01#6 then withCode (chkOf x.ck) fun ck => okIf zq (.vld x.vt x.aa x.pd ck x.off)
  else if x.op = 0x02#6 then okIf zck (.vst vt x.aa x.pd x.off)
  else if x.op = 0x03#6 then withCode (chkOf x.ck) fun ck => okIf zq (.vldb x.vt x.aa x.pd ck x.off)
  else if x.op = 0x04#6 then withCode (chkOf x.ck) fun ck => okIf zq (.vlds x.vt x.aa x.pd ck x.off)
  else if x.op = 0x05#6 then okIf (zq && zfn) (.vldx half y.vt y.aa y.pd ⟨y.vi, y.qi⟩)
  else if x.op = 0x06#6 then okIf zfn (.vstx half vt y.aa y.pd ⟨y.vi, y.qi⟩)
  else if x.op = 0x07#6 then withCode (chkOf x.ck) fun ck => okIf (zq && zpd && zp) (.pld pt x.aa ck x.off)
  else if x.op = 0x08#6 then okIf (zq && zpd && zp && zck) (.pst pt x.aa x.off)
  else if x.op = 0x09#6 then withCode (chkOf x.ck) fun ck => okIf (zq && zpd && zd) (.dld dt x.aa ck x.off)
  else if x.op = 0x0A#6 then okIf (zq && zpd && zd && zck) (.dst dt x.aa x.off)
  else if x.op = 0x0B#6 then okIf zq (.vldf x.vt x.ck x.aa x.pd x.off)
  else if x.op = 0x0C#6 then .ok (.vstf vt x.ck x.aa x.pd x.off)
  else if x.op = 0x0D#6 then withCode updOpAll[(x.off.extractLsb' 3 3).toNat]? fun op =>
    withCode updTyAll[(x.off.extractLsb' 0 3).toNat]? fun ty => .ok (.vupd op ty vt x.ck x.aa x.pd)
  else .error .opcode

/-- V words (Tables 7-15, 11-3). -/
def decodeV (w : BitVec 48) : Dec :=
  let x := LayV.of w
  withCode (VRange.ofCode x.wd x.sg) fun rng =>
  let c : VCtl := ⟨rng, bit x.mir, x.pred⟩
  let va : VSrc := ⟨x.va, x.qa⟩
  let vb : VSrc := ⟨x.vb, x.qb⟩
  let vc : VSrc := ⟨x.vc, x.qc⟩
  let zqc := x.qc == 0#2
  let zc := x.vc == 0#6 && zqc
  let zb := x.vb == 0#6 && x.qb == 0#2
  let za := x.va == 0#6 && x.qa == 0#2
  let int (f : ISz → Dec) : Dec := withCode iszAll[x.st.toNat]? f
  let fp (f : FTy → Dec) : Dec := withCode ftyAll[x.st.toNat]? f
  let sgn := bit (x.vc.extractLsb' 5 1)
  let sat := bit (x.vc.extractLsb' 4 1)
  let pd := x.vd.extractLsb' 0 4
  let zpd := x.vd.extractLsb' 4 2 == 0#2
  let full := rng == .w1024 && x.mir == 0#1 && x.pred == 0#4
  let zst := x.st == 0#2
  let pa := x.va.extractLsb' 0 4
  let pb := x.vb.extractLsb' 0 4
  let zq := x.qa == 0#2 && x.qb == 0#2
  let zpa := x.va.extractLsb' 4 2 == 0#2
  let zpb := x.vb.extractLsb' 4 2 == 0#2
  let red (f : RedKind → Dec) : Dec := withCode redAll[(x.vc.extractLsb' 0 4).toNat]? fun op =>
    if op = .fadd ∨ op = .fmax ∨ op = .fmin then fp fun ty => f (.fp op ty) else int fun sz => f (.int op sz)
  if x.op = 0x01#7 then int fun z => okIf (zqc && x.vc.extractLsb' 0 4 == 0#4) (.vadd c z sgn sat x.vd va vb)
  else if x.op = 0x02#7 then int fun z => okIf (zqc && x.vc.extractLsb' 0 4 == 0#4) (.vsub c z sgn sat x.vd va vb)
  else if x.op = 0x03#7 then int fun z => okIf zc (.vmul c z x.vd va vb)
  else if x.op = 0x04#7 then int fun z => okIf (zqc && x.vc.extractLsb' 0 5 == 0#5) (.vmulh c z sgn x.vd va vb)
  else if x.op = 0x05#7 then int fun z => .ok (.vmad c z x.vd va vb vc)
  else if x.op = 0x06#7 then int fun z => okIf (zqc && x.vc.extractLsb' 0 5 == 0#5) (.vmin c z sgn x.vd va vb)
  else if x.op = 0x07#7 then int fun z => okIf (zqc && x.vc.extractLsb' 0 5 == 0#5) (.vmax c z sgn x.vd va vb)
  else if x.op = 0x08#7 then int fun z =>
    okIf (zb && zqc && x.vc.extractLsb' 0 4 == 0#4 && !sgn) (.vabs c z sat x.vd va)
  else if x.op = 0x09#7 then int fun z =>
    okIf (zb && zqc && x.vc.extractLsb' 0 4 == 0#4 && !sgn) (.vneg c z sat x.vd va)
  else if x.op = 0x0A#7 then int fun z => okIf zc (.vand c z x.vd va vb)
  else if x.op = 0x0B#7 then int fun z => okIf zc (.vor c z x.vd va vb)
  else if x.op = 0x0C#7 then int fun z => okIf zc (.vxor c z x.vd va vb)
  else if x.op = 0x0D#7 then int fun z => okIf (zb && zc) (.vnot c z x.vd va)
  else if x.op = 0x0E#7 then int fun z => okIf zc (.vshl c z x.vd va vb)
  else if x.op = 0x0F#7 then int fun z => okIf zc (.vshr c z x.vd va vb)
  else if x.op = 0x10#7 then int fun z => okIf zc (.vsra c z x.vd va vb)
  else if x.op = 0x11#7 then int fun z => okIf (zb && zc) (.vclz c z x.vd va)
  else if x.op = 0x12#7 then int fun z => okIf (zb && zc) (.vpopc c z x.vd va)
  else if x.op = 0x20#7 then fp fun z => okIf zc (.fadd c z x.vd va vb)
  else if x.op = 0x21#7 then fp fun z => okIf zc (.fsub c z x.vd va vb)
  else if x.op = 0x22#7 then fp fun z => okIf zc (.fmul c z x.vd va vb)
  else if x.op = 0x23#7 then fp fun z => .ok (.ffma c z x.vd va vb vc)
  else if x.op = 0x24#7 then fp fun z => .ok (.ffms c z x.vd va vb vc)
  else if x.op = 0x25#7 then fp fun z => okIf zc (.fmin c z x.vd va vb)
  else if x.op = 0x26#7 then fp fun z => okIf zc (.fmax c z x.vd va vb)
  else if x.op = 0x27#7 then fp fun z => okIf (zb && zc) (.fabs c z x.vd va)
  else if x.op = 0x28#7 then fp fun z => okIf (zb && zc) (.fneg c z x.vd va)
  else if x.op = 0x29#7 then fp fun z => okIf zc (.fcps c z x.vd va vb)
  else if x.op = 0x30#7 then fp fun z => okIf (zb && zc) (.fexp2 c z x.vd va)
  else if x.op = 0x31#7 then fp fun z => okIf (zb && zc) (.flog2 c z x.vd va)
  else if x.op = 0x32#7 then fp fun z => okIf (zb && zc) (.frcp c z x.vd va)
  else if x.op = 0x33#7 then fp fun z => okIf (zb && zc) (.frsq c z x.vd va)
  else if x.op = 0x34#7 then fp fun z => okIf (zb && zc) (.fsqrt c z x.vd va)
  else if x.op = 0x35#7 then fp fun z => okIf (zb && zc) (.ftanh c z x.vd va)
  else if x.op = 0x36#7 then fp fun z => okIf (zb && zc) (.fsigm c z x.vd va)
  else if x.op = 0x37#7 then fp fun z => okIf (zb && zc) (.fsin c z x.vd va)
  else if x.op = 0x38#7 then fp fun z => okIf (zb && zc) (.fcos c z x.vd va)
  else if x.op = 0x40#7 then int fun z => withCode condAll[(x.vc.extractLsb' 0 4).toNat]? fun cd =>
    okIf (zpd && zqc && x.vc.extractLsb' 4 2 == 0#2) (.vcmp c z cd pd va vb)
  else if x.op = 0x41#7 then fp fun z => withCode fcondAll[(x.vc.extractLsb' 0 3).toNat]? fun cd =>
    okIf (zpd && zqc && x.vc.extractLsb' 3 3 == 0#3) (.fcmp c z cd pd va vb)
  else if x.op = 0x42#7 then int fun z => okIf zc (.vsel c z x.vd va vb)
  else if x.op = 0x43#7 then fp fun z => okIf (zb && zc) (.fcls c z x.vd va)
  else if x.op = 0x48#7 then
    let f : BitVec 12 := x.vb ++ x.vc
    let srcc := (f.extractLsb' 8 4).toNat
    let dstc := (f.extractLsb' 4 4).toNat
    let fin (k : CvtKind) : Dec := withCode rmAll[(f.extractLsb' 1 3).toNat]? fun rm =>
      okIf (x.qb == 0#2 && zqc) (.vcvt c k rm (bit (f.extractLsb' 0 1)) x.vd va)
    if x.st = 0#2 then withCode sfmtAll[srcc]? fun a => withCode sfmtAll[dstc]? fun b => fin (.ff a b)
    else if x.st = 1#2 then withCode ikindAll[srcc]? fun a => withCode sfmtAll[dstc]? fun b => fin (.fromInt a b)
    else if x.st = 2#2 then withCode sfmtAll[srcc]? fun a => withCode ikindAll[dstc]? fun b => fin (.toInt a b)
    else .error .reserved
  else if x.op = 0x49#7 then int fun z => withCode packAll[(x.vc.extractLsb' 0 2).toNat]? fun s =>
    okIf (full && zqc && x.vc.extractLsb' 2 4 == 0#4) (.vpack z s x.vd va vb)
  else if x.op = 0x4A#7 then int fun z =>
    okIf (full && zb && zqc && x.vc.extractLsb' 2 4 == 0#4) (.vunpk z (bit (x.vc.extractLsb' 1 1)) (bit (x.vc.extractLsb' 0 1)) x.vd va)
  else if x.op = 0x4C#7 then withCode (FSel.ofCode (x.vc.extractLsb' 0 4)) fun f =>
    okIf (full && zb && zqc && zst && x.vc.extractLsb' 4 2 == 0#2) (.vqnt f x.vd va)
  else if x.op = 0x4D#7 then withCode (FSel.ofCode (x.vc.extractLsb' 0 4)) fun f =>
    okIf (full && zb && zqc && zst && x.vc.extractLsb' 4 2 == 0#2) (.vdqt f x.vd va)
  else if x.op = 0x50#7 then red fun k => okIf (zb && zqc && x.vc.extractLsb' 4 2 == 0#2) (.vred c k x.vd va)
  else if x.op = 0x51#7 then fp fun z => withCode selAll[(x.vc.extractLsb' 0 2).toNat]? fun m =>
    okIf (zb && zqc && x.vc.extractLsb' 2 4 == 0#4) (.vamax c z m x.vd va)
  else if x.op = 0x52#7 then red fun k => okIf (zb && zqc && !sgn) (.vscan c k sat x.vd va)
  else if x.op = 0x58#7 then int fun z => okIf zc (.vperm c z x.vd va vb)
  else if x.op = 0x59#7 then int fun z => .ok (.vshuf c z x.vd va vb vc)
  else if x.op = 0x5A#7 then int fun z => okIf (zb && zqc) (.vbcst c z x.vc x.vd va)
  else if x.op = 0x5B#7 then int fun z => okIf zqc (.vsld c z x.vc x.vd va vb)
  else if x.op = 0x5C#7 then int fun z => okIf (zqc && x.vc.extractLsb' 1 5 == 0#5) (.vzip c z (bit (x.vc.extractLsb' 0 1)) x.vd va vb)
  else if x.op = 0x5D#7 then int fun z => okIf (zb && zqc) (.vmov c z x.vc x.vd va)
  else if x.op = 0x5E#7 then int fun z => okIf (zq && zqc) (.vmovi c z (x.va ++ x.vb ++ x.vc) x.vd)
  else if x.op = 0x60#7 then okIf (zpd && zpa && zpb && zq && zc && zst) (.pand c pd pa pb)
  else if x.op = 0x61#7 then okIf (zpd && zpa && zpb && zq && zc && zst) (.por c pd pa pb)
  else if x.op = 0x62#7 then okIf (zpd && zpa && zpb && zq && zc && zst) (.pxor c pd pa pb)
  else if x.op = 0x63#7 then okIf (zpd && zpa && zb && x.qa == 0#2 && zc && zst) (.pnot c pd pa)
  else if x.op = 0x64#7 then int fun z => okIf (zpd && zpa && zb && x.qa == 0#2 && zc) (.pcnt c z pd pa)
  else if x.op = 0x65#7 then int fun z => okIf (zpd && zpa && zb && x.qa == 0#2 && zc) (.pfirst c z pd pa)
  else if x.op = 0x68#7 then
    let z := za && zb && zqc && x.vc.extractLsb' 2 4 == 0#4
    if x.vc.extractLsb' 0 2 = 0#2 then int fun s => okIf z (.vrnd c (.bits s) x.vd)
    else if x.vc.extractLsb' 0 2 = 1#2 then okIf (z && zst) (.vrnd c .unit x.vd) else .error .reserved
  else if x.op = 0x69#7 then fp fun z =>
    okIf (zpd && zqc && x.pred == 0#4) (.vchk rng (bit x.mir) z sgn (x.vc.extractLsb' 0 5) pd va vb)
  else .error .opcode

/-- M words (Tables 7-14, 15-2). -/
def decodeM (w : BitVec 64) : Dec :=
  let x := LayM.of w
  let zbk := x.bk == 0#2
  let zfs := x.fs == 0#4
  let zcop := x.cop == 0#3
  let zpl := x.pl == 0#1
  let zqa := x.qa == 0#2
  let zva := x.va == 0#6 && zqa
  let zcnt := x.cnt == 0#8
  let zfl := x.fl == 0#8
  let zaux := x.aux == 0#24
  let pl := bit x.pl
  let va : VSrc := ⟨x.va, x.qa⟩
  let fl (i : Nat) := bit (x.fl.extractLsb' i 1)
  let start := startAll[(x.fl.extractLsb' 0 2).toNat]?
  let rows : Option (Fin 64) := if h : 1 ≤ x.cnt.toNat ∧ x.cnt.toNat ≤ 64 then some ⟨x.cnt.toNat - 1, by omega⟩ else none
  let line : Option BankLine :=
    let i := (x.aux.extractLsb' 0 7).toNat
    let p := (x.aux.extractLsb' 7 2).toNat
    if h : i < 65 ∧ p < 3 then some ⟨bit (x.aux.extractLsb' 9 1), ⟨p, h.2⟩, ⟨i, h.1⟩⟩ else none
  if x.op = 0x01#6 then withCode (FSel.ofCode x.fs) fun f => withCode (chkOf (x.fl.extractLsb' 0 4)) fun ck =>
    okIf (zbk && zcop && zva && zcnt && x.fl.extractLsb' 4 4 == 0#4 && x.aux.extractLsb' 20 4 == 0#4 && x.aux.extractLsb' 12 4 == 0#4)
      (.mbld f pl ck (x.aux.extractLsb' 16 4) (x.aux.extractLsb' 0 12))
  else if x.op = 0x02#6 then okIf (zbk && zfs && zcop && zva && zcnt && zfl && zaux) (.mbldh pl)
  else if x.op = 0x03#6 then withCode (FSel.ofCode x.fs) fun f => withCode cellAll[x.cop.toNat]? fun op => withCode start fun st =>
    okIf (x.cnt.extractLsb' 6 2 == 0#2 && x.fl.extractLsb' 2 6 == 0#6 && x.aux.extractLsb' 15 9 == 0#9)
      (.mrow op x.bk f pl va (x.cnt.extractLsb' 0 6) st (x.aux.extractLsb' 8 7) ⟨x.aux.extractLsb' 0 6, x.aux.extractLsb' 6 2⟩)
  else if x.op = 0x04#6 then withCode (FSel.ofCode x.fs) fun f => withCode start fun st =>
    okIf (zcop && zcnt && x.fl.extractLsb' 3 5 == 0#5 && zaux && (fl 2 || zva)) (.mchk x.bk f pl (if fl 2 then some va else none) st)
  else if x.op = 0x05#6 then
    okIf (zfs && zcop && zpl && zva && zcnt && x.fl.extractLsb' 1 7 == 0#7 && zaux && (!fl 0 || zbk)) (.mzero (if fl 0 then none else some x.bk))
  else if x.op = 0x06#6 then
    okIf (zfs && zcop && zpl && zva && zcnt && zfl && x.aux.extractLsb' 2 22 == 0#22) (.macc x.bk (x.aux.extractLsb' 0 2))
  else if x.op = 0x07#6 then withCode (FSel.ofCode x.fs) fun f => withCode rows fun m =>
    okIf (zcop && zpl && zva && x.fl.extractLsb' 3 5 == 0#5 && (fl 0 || x.aux.extractLsb' 0 20 == 0#20))
      (.mdrn x.bk f m (fl 2) (fl 1) (x.aux.extractLsb' 20 4)
        (if fl 0 then some (x.aux.extractLsb' 16 4, x.aux.extractLsb' 0 16) else none))
  else if x.op = 0x08#6 then withCode (FSel.ofCode x.fs) fun f => withCode selAll[(x.fl.extractLsb' 0 2).toNat]? fun md =>
    let mm := (x.aux.extractLsb' 11 7).toNat
    if h : 1 ≤ mm ∧ mm ≤ 64 then
      okIf (zcop && zpl && zqa && x.cnt.extractLsb' 4 4 == 0#4 && x.fl.extractLsb' 3 5 == 0#5 && x.aux.extractLsb' 18 6 == 0#6)
        (.mdrnk x.bk f x.va (x.cnt.extractLsb' 0 4) (fl 2) md ⟨mm - 1, by omega⟩ (x.aux.extractLsb' 6 5) (x.aux.extractLsb' 0 6))
    else .error .reserved
  else if x.op = 0x09#6 then
    okIf (zbk && zfs && zcop && zpl && zqa && zcnt && x.fl.extractLsb' 1 7 == 0#7 && zaux) (.mstat x.va (fl 0))
  else if x.op = 0x0A#6 then withCode line fun ln =>
    okIf (zfs && zcop && zpl && zqa && zcnt && zfl && x.aux.extractLsb' 10 14 == 0#14) (.mrd x.bk x.va ln)
  else if x.op = 0x0B#6 then withCode line fun ln =>
    okIf (zfs && zcop && zpl && zcnt && zfl && x.aux.extractLsb' 10 14 == 0#14) (.mwr x.bk va ln)
  else if x.op = 0x0C#6 then withCode rows fun m =>
    okIf (zfs && zcop && zva && zfl && x.aux.extractLsb' 2 22 == 0#22) (.mrot x.bk (x.aux.extractLsb' 0 2) pl m)
  else if x.op = 0x3E#6 then okIf (zbk && zfs && zcop && zpl && zqa && zcnt && zfl && zaux) (.mdiag x.va)
  else if x.op = 0x3F#6 then
    let r := (x.aux.extractLsb' 0 7).toNat
    if h : r < 66 then
      okIf (zbk && zfs && zcop && zpl && zqa && zcnt && x.fl.extractLsb' 1 7 == 0#7 && x.aux.extractLsb' 7 17 == 0#17)
        (.mspr x.va (fl 0) ⟨r, h⟩)
    else .error .reserved
  else .error .opcode

/-- X words (Tables 7-14, 13-2, 13-3). -/
def decodeX (w : BitVec 64) : Dec :=
  let x := LayX.of w
  let lo := x.fl.extractLsb' 0 6
  let z6 := lo == 0#6
  let z5 := lo.extractLsb' 1 5 == 0#5
  let b0 := bit (lo.extractLsb' 0 1)
  let zh := x.fl.extractLsb' 6 5 == 0#5
  let ztime := x.tm == 0#4 && x.st == 0#5 && x.toff == 0#16
  let o : XOps := ⟨x.tm, x.st, x.toff, x.sq, x.sa, x.sb, bit (x.fl.extractLsb' 10 1), bit (x.fl.extractLsb' 9 1),
    Scope.ofCode (x.fl.extractLsb' 7 2), bit (x.fl.extractLsb' 6 1)⟩
  if x.op = 0x01#6 then okIf z6 (.xld o)
  else if x.op = 0x02#6 then okIf z6 (.xldw o)
  else if x.op = 0x03#6 then okIf z6 (.xst o)
  else if x.op = 0x04#6 then okIf z6 (.xput o)
  else if x.op = 0x05#6 then okIf z6 (.xb o)
  else if x.op = 0x06#6 then okIf (ztime && x.sq == 0#12 && zh && z5) (.xpsh b0 x.sa x.sb)
  else if x.op = 0x07#6 then okIf z6 (.xgth o)
  else if x.op = 0x08#6 then okIf z6 (.xsct o)
  else if x.op = 0x09#6 then okIf z6 (.xchn o)
  else if x.op = 0x0A#6 then okIf z6 (.xpair o)
  else if x.op = 0x0B#6 then okIf z5 (.xfil b0 o)
  else if x.op = 0x0C#6 then okIf (lo.extractLsb' 4 2 == 0#2) (.xcol (lo.extractLsb' 0 4) o)
  else if x.op = 0x0D#6 then okIf z6 (.xfen o)
  else if x.op = 0x0E#6 then okIf (ztime && x.sa == 0#5 && x.sb == 0#5 && zh && z5) (.xcan b0 x.sq)
  else .error .opcode

/-- D words (Tables 7-14, 17-2). -/
def decodeD (w : BitVec 32) : Dec :=
  let x := LayD.of w
  let va : VSrc := ⟨x.va, x.qa⟩
  let zva := x.va == 0#6 && x.qa == 0#2
  let zdb := x.db == 0#3
  let zda := x.da == 0#3
  let zdd := x.dd == 0#3
  let zfn := x.fn == 0#9
  let pair (f : PairMode → Instr) : Dec := withCode pairAll[(x.fn.extractLsb' 0 2).toNat]? fun m =>
    okIf (zva && x.fn.extractLsb' 2 7 == 0#7) (f m)
  if x.op = 0x01#6 then pair fun m => .dadd m x.dd x.da x.db
  else if x.op = 0x02#6 then pair fun m => .dsub m x.dd x.da x.db
  else if x.op = 0x03#6 then pair fun m => .dmul m x.dd x.da x.db
  else if x.op = 0x04#6 then pair fun m => .dmax m x.dd x.da x.db
  else if x.op = 0x05#6 then pair fun m => .dmin m x.dd x.da x.db
  else if x.op = 0x06#6 then okIf (zdb && zfn) (.daff x.dd x.da va)
  else if x.op = 0x07#6 then withCode mapAll[(x.fn.extractLsb' 0 4).toNat]? fun f =>
    okIf (zdb && zva && x.fn.extractLsb' 4 5 == 0#5) (.dmap f x.dd x.da)
  else if x.op = 0x08#6 then okIf zfn (.dmix x.dd x.da x.db va)
  else if x.op = 0x09#6 then okIf (zda && zdb && zfn) (.dfrs x.dd va)
  else if x.op = 0x0A#6 then okIf (zda && zdb && zfn) (.dfrw x.dd va)
  else if x.op = 0x0B#6 then okIf (zda && zdb && zfn) (.dpnt x.dd va)
  else if x.op = 0x0C#6 then okIf (zdd && zdb && x.qa == 0#2 && zfn) (.dsmp x.va x.da)
  else if x.op = 0x0D#6 then okIf (zdd && zdb && x.qa == 0#2 && zfn) (.dmom x.va x.da)
  else if x.op = 0x0E#6 then okIf (zdd && zdb && x.fn.extractLsb' 1 8 == 0#8) (.dqnt (bit (x.fn.extractLsb' 0 1)) x.da va)
  else if x.op = 0x0F#6 then withCode tagAll[(x.fn.extractLsb' 0 2).toNat]? fun t =>
    okIf (zdb && x.fn.extractLsb' 2 7 == 0#7) (.dtag t x.dd x.da va)
  else if x.op = 0x10#6 then okIf (zdb && zva && x.fn.extractLsb' 8 1 == 0#1) (.dmov (x.fn.extractLsb' 0 8) x.dd x.da)
  else if x.op = 0x11#6 then okIf (zdb && zfn) (.dcnd x.dd x.da va)
  else .error .opcode

/-- Bozoak words (Table 21-5). -/
def decodeBz (w : BitVec 64) : Dec :=
  let x := LayC.of w
  let y := LayI.of w
  let zrest := w.extractLsb' 0 58 == 0#58
  let zpeer := x.po == 0#12 && x.ps == 0#12 && x.pg == 0#3
  let zchunk := x.cg == 0#3 && x.ck == 0#4 && x.cr == 0#2 && x.cb == 0#12
  let p : PeerEx := ⟨x.po, x.ps, x.pg⟩
  let f (i : Nat) := bit (x.fl.extractLsb' i 1)
  -- FL with the bits of a mask cleared
  let only (m : BitVec 10) : Bool := x.fl &&& ~~~m == 0#10
  let chunk (g : ChunkEx → Dec) : Dec := withCode rankAll[x.cr.toNat]? fun cr => g ⟨x.cb, cr, x.ck, x.cg⟩
  let rop (g : BzRop → Dec) : Dec := withCode ropAll[(x.fl.extractLsb' 8 2).toNat]? g
  let zI := y.rs == 0#20
  if x.op = 0x00#6 then okIf zrest .bzNop
  else if x.op = 0x01#6 then chunk fun c => okIf (only 0x060#10) (.send (f 6) (f 5) c p)
  else if x.op = 0x02#6 then chunk fun c => okIf (zpeer && only 0x080#10) (.recv (f 7) c)
  else if x.op = 0x03#6 then chunk fun c => rop fun r => okIf (only 0x3E0#10) (.rrs r (f 7) (f 6) (f 5) c p)
  else if x.op = 0x04#6 then chunk fun c => rop fun r => okIf (zpeer && only 0x380#10) (.rrd r (f 7) c)
  else if x.op = 0x05#6 then chunk fun c => okIf (zpeer && only 0#10) (.copy c)
  else if x.op = 0x06#6 then chunk fun c => okIf (zpeer && only 0#10) (.waitc c)
  else if x.op = 0x07#6 then
    if f 8 then okIf (zpeer && x.cg == 0#3 && x.ck == 0#4 && x.cr == 0#2 && only 0x100#10) (.sigBit x.cb)
    else okIf (x.cg == 0#3 && x.ck == 0#4 && x.cr == 0#2 && x.cb.extractLsb' 6 6 == 0#6 && only 0x020#10)
      (.sig (f 5) (x.cb.extractLsb' 0 6) p)
  else if x.op = 0x08#6 then
    okIf (zI && y.gd == 0#3 && y.ga == 0#3 && y.imm.extractLsb' 22 10 == 0#10) (.waits (y.imm.extractLsb' 16 6) (y.imm.extractLsb' 0 16))
  else if x.op = 0x09#6 then okIf (zI && y.ga == 0#3) (.bzLoop y.gd y.imm)
  else if x.op = 0x0A#6 then okIf zrest .bzEndl
  else if x.op = 0x0B#6 then okIf (zI && y.ga == 0#3) (.setv y.gd y.imm)
  else if x.op = 0x0C#6 then okIf zI (.addv y.gd y.ga y.imm)
  else if x.op = 0x0D#6 then
    let gd := x.fl.extractLsb' 0 3
    if f 8 then okIf (zchunk && x.po == 0#12 && x.ps == 0#12 && only 0x107#10) (.peerXor gd x.pg)
    else if f 5 then okIf (zchunk && x.po == 0#12 && x.ps == 0#12 && only 0x027#10) (.peerInd gd x.pg)
    else okIf (zchunk && only 0x007#10) (.peer gd p)
  else if x.op = 0x0E#6 then okIf (zpeer && zchunk && only 0x018#10) (.bar (f 4) (f 3))
  else if x.op = 0x0F#6 then okIf zrest .bzEnd
  else .error .opcode

/-- The decoder of one word: its slot's table, then the codes the field tables reserve. -/
def decodeWord : SlotWord → Dec
  | .s w => onlyWf (decodeS w)
  | .a w => onlyWf (decodeA w)
  | .l w => onlyWf (decodeL w)
  | .v w => onlyWf (decodeV w)
  | .m w => onlyWf (decodeM w)
  | .x w => onlyWf (decodeX w)
  | .d w => onlyWf (decodeD w)
  | .bz w => onlyWf (decodeBz w)

/-! ### Bundles -/

/-- The little-endian number of a list of bytes (R6). -/
def leNat : List Byte → Nat
  | [] => 0
  | b :: bs => b.toNat + 256 * leNat bs

/-- n bytes of a number, little-endian (R6). -/
def leBytes : Nat → Nat → List Byte
  | 0, _ => []
  | n + 1, w => BitVec.ofNat 8 w :: leBytes n (w / 256)

/-- The bytes a slot's word takes (Table 7-1). -/
def Slot.bytes : Slot → Nat
  | .s | .a | .l | .d => 4
  | .v0 | .v1 => 6
  | .m | .x => 8

/-- The slots in header-bit order (Table 7-1). -/
def slotsInOrder : List Slot := [.s, .a, .l, .v0, .v1, .m, .x, .d]

/-- The number of a slot: its header bit, and its code in TRAPCAUSE.SLOT (Tables 7-1, 23-1a). -/
def Slot.num : Slot → Nat
  | .s => 0 | .a => 1 | .l => 2 | .v0 => 3 | .v1 => 4 | .m => 5 | .x => 6 | .d => 7

/-- The slots a header announces, in the order their words follow it (R83). -/
def headerSlots (h : Byte) : List Slot := slotsInOrder.filter fun s => h.toNat.testBit s.num

/-- The length of a bundle from its header (R83). -/
def bundleLen (h : Byte) : Nat := 1 + ((headerSlots h).map Slot.bytes).sum

/-- The word of a slot from its bytes. -/
def slotWordOf (s : Slot) (bs : List Byte) : SlotWord :=
  let w := leNat bs
  match s with
  | .s => .s (BitVec.ofNat 32 w)
  | .a => .a (BitVec.ofNat 32 w)
  | .l => .l (BitVec.ofNat 32 w)
  | .v0 | .v1 => .v (BitVec.ofNat 48 w)
  | .m => .m (BitVec.ofNat 64 w)
  | .x => .x (BitVec.ofNat 64 w)
  | .d => .d (BitVec.ofNat 32 w)

/-- The words of the slots in order, each decoded by its table. -/
def decodeSlots : List Slot → List Byte → List (Slot × Dec)
  | [], _ => []
  | s :: ss, bs => (s, decodeWord (slotWordOf s (bs.take s.bytes))) :: decodeSlots ss (bs.drop s.bytes)

/-- A bundle as decoded at an offset of its fetch line: padding, or its length and its slots (R83 to R85). -/
inductive Bundle where
  | padding
  | bundle (len : Nat) (slots : List (Slot × Dec))
deriving Repr

/-- Decode the bundle at byte offset o of a 64-byte line (R84, R85). -/
def decodeBundle (line : List Byte) (o : Nat) : Except DecErr Bundle :=
  let h := line.getD o 0#8
  if h = 0#8 then .ok .padding
  else if o + bundleLen h > 64 then .error .crossing
  else .ok (.bundle (bundleLen h) (decodeSlots (headerSlots h) (line.drop (o + 1))))

/-- The instruction the decoder reads from the bits of a table row: a Bozoak word where the row has 64 bits, else a bundle of
one slot, its header in bits 7..0 and its word from bit 8 on. -/
def decodeTableWord (nbits w : Nat) : Option Instr :=
  if nbits = 64 then (match decodeWord (.bz (BitVec.ofNat 64 w)) with | .ok i => some i | .error _ => none)
  else match decodeBundle (leBytes 64 w) 0 with
    | .ok (.bundle _ [(_, .ok i)]) => some i
    | _ => none

/-! ### The encoder -/

/-- The word of a V instruction of vector operands. -/
def encV (op : BitVec 7) (c : VCtl) (vd : BitVec 6) (va vb vc : VSrc) (st : Nat) : Option SlotWord :=
  some (.v (LayV.word ⟨op, vd, va.r, vb.r, vc.r, c.rng.wcode, c.rng.scode, ofBit c.mir, c.pred, va.q, vb.q, vc.q, BitVec.ofNat 2 st⟩))

def noSrc : VSrc := ⟨0#6, 0#2⟩
/-- An immediate in the vc field. -/
def immC (i : BitVec 6) : VSrc := ⟨i, 0#2⟩
def fullCtl : VCtl := ⟨.w1024, false, 0#4⟩
/-- A predicate register in a vector field. -/
def pReg (p : BitVec 4) : BitVec 6 := 0#2 ++ p

def encRed (op : BitVec 7) (c : VCtl) (k : RedKind) (excl : Bool) (vd : BitVec 6) (va : VSrc) : Option SlotWord :=
  match k with
  | .int o sz => encV op c vd va noSrc (immC (0#1 ++ ofBit excl ++ BitVec.ofNat 4 o.code)) sz.code
  | .fp o ty => encV op c vd va noSrc (immC (0#1 ++ ofBit excl ++ BitVec.ofNat 4 o.code)) ty.code

def encM (op : BitVec 6) (bk : BitVec 2) (fs : BitVec 4) (cop : BitVec 3) (pl : Bool) (va : VSrc) (cnt fl : BitVec 8) (aux : BitVec 24) :
    Option SlotWord :=
  some (.m (LayM.word ⟨op, bk, fs, cop, ofBit pl, va.r, va.q, cnt, fl, aux⟩))

/-- The aux field of MRD and MWR. -/
def BankLine.aux (l : BankLine) : BitVec 24 := 0#14 ++ ofBit l.col ++ BitVec.ofNat 2 l.part.val ++ BitVec.ofNat 7 l.idx.val

def encX (op : BitVec 6) (o : XOps) (lo : BitVec 6) : Option SlotWord :=
  some (.x (LayX.word ⟨op, o.tm, o.st, o.toff, o.sq, o.sa, o.sb, ofBit o.acq ++ ofBit o.rel ++ o.scope.code ++ ofBit o.pen ++ lo⟩))

def encD (op : BitVec 6) (dd da db : BitVec 3) (va : VSrc) (fn : BitVec 9) : Option SlotWord :=
  some (.d (LayD.word ⟨op, dd, da, db, va.r, va.q, fn⟩))

def encC (op : BitVec 6) (p : PeerEx) (c : ChunkEx) (fl : BitVec 10) : Option SlotWord :=
  some (.bz (LayC.word ⟨op, p.po, p.ps, p.pg, c.cg, c.ck, BitVec.ofNat 2 c.cr.code, c.cb, fl⟩))

def encI (op : BitVec 6) (gd ga : BitVec 3) (imm : BitVec 32) : Option SlotWord := some (.bz (LayI.word ⟨op, gd, ga, 0#20, imm⟩))

def noPeer : PeerEx := ⟨0#12, 0#12, 0#3⟩
def noChunk : ChunkEx := ⟨0#12, .none, 0#4, 0#3⟩

/-- The word of an instruction, written from the encoding tables; none for the operations and events of the device. -/
def encode : Instr → Option SlotWord
  | .nop => some (.s 0#32)
  | .add d a b => some (.s (wordSR 0x01#6 d a b 0#11))
  | .sub d a b => some (.s (wordSR 0x02#6 d a b 0#11))
  | .and d a b => some (.s (wordSR 0x03#6 d a b 0#11))
  | .or d a b => some (.s (wordSR 0x04#6 d a b 0#11))
  | .xor d a b => some (.s (wordSR 0x05#6 d a b 0#11))
  | .shl d a b => some (.s (wordSR 0x06#6 d a b 0#11))
  | .shr d a b => some (.s (wordSR 0x07#6 d a b 0#11))
  | .sra d a b => some (.s (wordSR 0x08#6 d a b 0#11))
  | .mul d a b => some (.s (wordSR 0x09#6 d a b 0#11))
  | .mulh g d a b => some (.s (wordSR 0x0A#6 d a b (0#10 ++ ofBit g)))
  | .min g d a b => some (.s (wordSR 0x0B#6 d a b (0#10 ++ ofBit g)))
  | .max g d a b => some (.s (wordSR 0x0C#6 d a b (0#10 ++ ofBit g)))
  | .addImm d a i => some (.s (wordSI 0x11#6 d a i))
  | .subImm d a i => some (.s (wordSI 0x12#6 d a i))
  | .andImm d a i => some (.s (wordSI 0x13#6 d a i))
  | .orImm d a i => some (.s (wordSI 0x14#6 d a i))
  | .xorImm d a i => some (.s (wordSI 0x1E#6 d a i))
  | .shlImm d a k => some (.s (wordSI 0x15#6 d a (0#10 ++ k)))
  | .shrImm d a k => some (.s (wordSI 0x16#6 d a (0#10 ++ k)))
  | .sraImm d a k => some (.s (wordSI 0x17#6 d a (0#10 ++ k)))
  | .mulImm d a i => some (.s (wordSI 0x18#6 d a i))
  | .mulhImm d a i => some (.s (wordSI 0x19#6 d a i))
  | .minImm d a i => some (.s (wordSI 0x1A#6 d a i))
  | .maxImm d a i => some (.s (wordSI 0x1B#6 d a i))
  | .cmp c bd a b => some (.s (wordSR 0x0D#6 (0#2 ++ bd) a b (0#7 ++ BitVec.ofNat 4 c.code)))
  | .cmpImm c bd a i => some (.s (wordSI 0x1C#6 (0#2 ++ bd) a (BitVec.ofNat 4 c.code ++ i)))
  | .fop op bd a b => some (.s (wordSR 0x0E#6 (0#2 ++ bd) (0#2 ++ a) (0#2 ++ b) (0#9 ++ BitVec.ofNat 2 op.code)))
  | .nopn n => some (.s (wordSW 0x0F#6 0#5 n))
  | .ldi d i => some (.s (wordSW 0x10#6 d i))
  | .ldih d h i => some (.s (wordSI 0x1D#6 d (0#3 ++ h) i))
  | .br cf d => some (.s (wordSW 0x20#6 cf.code d))
  | .jmp a => some (.s (wordSR 0x21#6 0#5 a 0#5 0#11))
  | .call d i => some (.s (wordSW 0x22#6 d i))
  | .ret a => some (.s (wordSR 0x23#6 0#5 a 0#5 0#11))
  | .loop n => some (.s (wordSI 0x24#6 0#5 0#5 n))
  | .loopReg a => some (.s (wordSI 0x24#6 0#5 a 0#16))
  | .endl => some (.s (wordSW 0x25#6 0#5 0#21))
  | .lbrk cf d => some (.s (wordSW 0x26#6 cf.code d))
  | .ttsync => some (.s (wordSW 0x27#6 0#5 0#21))
  | .pini a b => some (.s (wordSR 0x28#6 0#5 a b 0#11))
  | .parr a => some (.s (wordSR 0x29#6 0#5 a 0#5 0#11))
  | .pwait a b => some (.s (wordSR 0x2A#6 0#5 a b 0#11))
  | .pwaitImm a ph => some (.s (wordSR 0x2A#6 0#5 a 0#5 (0#9 ++ 1#1 ++ ofBit ph)))
  | .bset sc a b => some (.s (wordSR 0x2B#6 0#5 a b (0#9 ++ sc.code)))
  | .bwait sc a b => some (.s (wordSR 0x2C#6 0#5 a b (0#9 ++ sc.code)))
  | .ldf g sz d a off => some (.s (wordSI 0x2E#6 d a (0#1 ++ ofBit g ++ BitVec.ofNat 2 sz.code ++ off)))
  | .stf sz d a off => some (.s (wordSI 0x2F#6 d a (0#2 ++ BitVec.ofNat 2 sz.code ++ off)))
  | .atom op g w r o sc d a b =>
      some (.s (wordSR 0x30#6 d a b (0#1 ++ ofBit r ++ ofBit g ++ ofBit w ++ sc.code ++ BitVec.ofNat 2 o.code ++ BitVec.ofNat 3 op.code)))
  | .fence k sc => some (.s (wordSR 0x31#6 0#5 0#5 0#5 (0#7 ++ (match k with | .acq => 1#2 | .rel => 2#2 | .ar => 3#2) ++ sc.code)))
  | .cred op d aa => some (.s (wordSR 0x32#6 d (0#1 ++ aa) 0#5 (0#7 ++ BitVec.ofNat 4 op.code)))
  | .cmsk .all => some (.s (wordSR 0x33#6 0#5 0#5 0#5 0#11))
  | .cmsk (.rect a) => some (.s (wordSR 0x33#6 0#5 a 0#5 1#11))
  | .cmsk (.and aa) => some (.s (wordSR 0x33#6 0#5 0#5 0#5 (0#4 ++ aa ++ 2#3)))
  | .cmsk (.set aa) => some (.s (wordSR 0x33#6 0#5 0#5 0#5 (0#4 ++ aa ++ 3#3)))
  | .cmsk .not => some (.s (wordSR 0x33#6 0#5 0#5 0#5 4#11))
  | .tex ek i => some (.s (wordSI 0x34#6 (1#1 ++ 0#1 ++ ek) 0#5 i))
  | .texReg ek a i => some (.s (wordSI 0x34#6 (0#2 ++ ek) a i))
  | .srr d sel => some (.s (wordSI 0x35#6 d 0#5 (0#4 ++ sel)))
  | .srw sel a => some (.s (wordSI 0x36#6 0#5 a (0#4 ++ sel)))
  | .trap c => some (.s (wordSI 0x37#6 0#5 0#5 c))
  | .rft => some (.s (wordSW 0x38#6 0#5 0#21))
  | .endRun => some (.s (wordSW 0x39#6 0#5 0#21))
  | .lnch d a => some (.s (wordSR 0x3A#6 d a 0#5 0#11))
  | .yieldRun => some (.s (wordSW 0x3B#6 0#5 0#21))
  | .aadd d a b => some (.a (wordAR 0x01#6 d a b 0#14))
  | .asub d a b => some (.a (wordAR 0x02#6 d a b 0#14))
  | .aaddi d a i => some (.a (wordAI 0x03#6 d a i))
  | .ashl d a n => some (.a (wordAI 0x04#6 d a (0#13 ++ n)))
  | .amov d a => some (.a (wordAI 0x05#6 d a 0#18))
  | .aldi d i => some (.a (wordAI 0x06#6 d 0#4 i))
  | .acix m d => some (.a (wordAR 0x07#6 d 0#4 0#4 (0#11 ++ BitVec.ofNat 3 m.code)))
  | .afroms d n => some (.a (wordAR 0x08#6 d 0#4 0#4 (0#9 ++ n)))
  | .shw tm f s => some (.a (wordAT 0x09#6 tm (BitVec.ofNat 6 f.val) s 0#11))
  | .shwi tm f i => some (.a (wordAT 0x0A#6 tm (BitVec.ofNat 6 f.val) 0#5 i))
  | .ftw ft s => some (.a (wordAT 0x0B#6 (0#1 ++ ft) 0#6 s 0#11))
  | .ftwField ft f i => some (.a (wordAT 0x0B#6 (0#1 ++ ft) (BitVec.ofNat 6 f.code) 0#5 i))
  | .vld v a p ck o => some (.l (wordLM 0x01#6 v a p 0#2 (chkCode ck) o))
  | .vst v a p o => some (.l (wordLM 0x02#6 v.r a p v.q 0#4 o))
  | .vldb v a p ck o => some (.l (wordLM 0x03#6 v a p 0#2 (chkCode ck) o))
  | .vlds v a p ck o => some (.l (wordLM 0x04#6 v a p 0#2 (chkCode ck) o))
  | .vldx h v a p i => some (.l (wordLX 0x05#6 v a p 0#2 i.r i.q (0#1 ++ ofBit h)))
  | .vstx h v a p i => some (.l (wordLX 0x06#6 v.r a p v.q i.r i.q (0#1 ++ ofBit h)))
  | .pld p a ck o => some (.l (wordLM 0x07#6 (0#2 ++ p) a 0#4 0#2 (chkCode ck) o))
  | .pst p a o => some (.l (wordLM 0x08#6 (0#2 ++ p) a 0#4 0#2 0#4 o))
  | .dld d a ck o => some (.l (wordLM 0x09#6 (0#3 ++ d) a 0#4 0#2 (chkCode ck) o))
  | .dst d a o => some (.l (wordLM 0x0A#6 (0#3 ++ d) a 0#4 0#2 0#4 o))
  | .vldf v tm a p o => some (.l (wordLM 0x0B#6 v a p 0#2 tm o))
  | .vstf v tm a p o => some (.l (wordLM 0x0C#6 v.r a p v.q tm o))
  | .vupd op ty v tm a p => some (.l (wordLM 0x0D#6 v.r a p v.q tm (BitVec.ofNat 3 op.code ++ BitVec.ofNat 3 ty.code)))
  | .vadd c z g s d a b => encV 0x01#7 c d a b (immC (ofBit g ++ ofBit s ++ 0#4)) z.code
  | .vsub c z g s d a b => encV 0x02#7 c d a b (immC (ofBit g ++ ofBit s ++ 0#4)) z.code
  | .vmul c z d a b => encV 0x03#7 c d a b noSrc z.code
  | .vmulh c z g d a b => encV 0x04#7 c d a b (immC (ofBit g ++ 0#5)) z.code
  | .vmad c z d a b e => encV 0x05#7 c d a b e z.code
  | .vmin c z g d a b => encV 0x06#7 c d a b (immC (ofBit g ++ 0#5)) z.code
  | .vmax c z g d a b => encV 0x07#7 c d a b (immC (ofBit g ++ 0#5)) z.code
  | .vabs c z s d a => encV 0x08#7 c d a noSrc (immC (0#1 ++ ofBit s ++ 0#4)) z.code
  | .vneg c z s d a => encV 0x09#7 c d a noSrc (immC (0#1 ++ ofBit s ++ 0#4)) z.code
  | .vand c z d a b => encV 0x0A#7 c d a b noSrc z.code
  | .vor c z d a b => encV 0x0B#7 c d a b noSrc z.code
  | .vxor c z d a b => encV 0x0C#7 c d a b noSrc z.code
  | .vnot c z d a => encV 0x0D#7 c d a noSrc noSrc z.code
  | .vshl c z d a b => encV 0x0E#7 c d a b noSrc z.code
  | .vshr c z d a b => encV 0x0F#7 c d a b noSrc z.code
  | .vsra c z d a b => encV 0x10#7 c d a b noSrc z.code
  | .vclz c z d a => encV 0x11#7 c d a noSrc noSrc z.code
  | .vpopc c z d a => encV 0x12#7 c d a noSrc noSrc z.code
  | .fadd c z d a b => encV 0x20#7 c d a b noSrc z.code
  | .fsub c z d a b => encV 0x21#7 c d a b noSrc z.code
  | .fmul c z d a b => encV 0x22#7 c d a b noSrc z.code
  | .ffma c z d a b e => encV 0x23#7 c d a b e z.code
  | .ffms c z d a b e => encV 0x24#7 c d a b e z.code
  | .fmin c z d a b => encV 0x25#7 c d a b noSrc z.code
  | .fmax c z d a b => encV 0x26#7 c d a b noSrc z.code
  | .fabs c z d a => encV 0x27#7 c d a noSrc noSrc z.code
  | .fneg c z d a => encV 0x28#7 c d a noSrc noSrc z.code
  | .fcps c z d a b => encV 0x29#7 c d a b noSrc z.code
  | .fexp2 c z d a => encV 0x30#7 c d a noSrc noSrc z.code
  | .flog2 c z d a => encV 0x31#7 c d a noSrc noSrc z.code
  | .frcp c z d a => encV 0x32#7 c d a noSrc noSrc z.code
  | .frsq c z d a => encV 0x33#7 c d a noSrc noSrc z.code
  | .fsqrt c z d a => encV 0x34#7 c d a noSrc noSrc z.code
  | .ftanh c z d a => encV 0x35#7 c d a noSrc noSrc z.code
  | .fsigm c z d a => encV 0x36#7 c d a noSrc noSrc z.code
  | .fsin c z d a => encV 0x37#7 c d a noSrc noSrc z.code
  | .fcos c z d a => encV 0x38#7 c d a noSrc noSrc z.code
  | .vcmp c z cd p a b => encV 0x40#7 c (pReg p) a b (immC (0#2 ++ BitVec.ofNat 4 cd.code)) z.code
  | .fcmp c z cd p a b => encV 0x41#7 c (pReg p) a b (immC (0#3 ++ BitVec.ofNat 3 cd.code)) z.code
  | .vsel c z d a b => encV 0x42#7 c d a b noSrc z.code
  | .fcls c z d a => encV 0x43#7 c d a noSrc noSrc z.code
  | .vcvt c k rm ns d a =>
      let f : BitVec 12 := match k with
        | .ff x y => BitVec.ofNat 4 x.code ++ BitVec.ofNat 4 y.code ++ BitVec.ofNat 3 rm.code ++ ofBit ns
        | .fromInt x y => BitVec.ofNat 4 x.code ++ BitVec.ofNat 4 y.code ++ BitVec.ofNat 3 rm.code ++ ofBit ns
        | .toInt x y => BitVec.ofNat 4 x.code ++ BitVec.ofNat 4 y.code ++ BitVec.ofNat 3 rm.code ++ ofBit ns
      encV 0x48#7 c d a (immC (f.extractLsb' 6 6)) (immC (f.extractLsb' 0 6)) (match k with | .ff .. => 0 | .fromInt .. => 1 | .toInt .. => 2)
  | .vpack z s d a b => encV 0x49#7 fullCtl d a b (immC (0#4 ++ BitVec.ofNat 2 s.code)) z.code
  | .vunpk z g h d a => encV 0x4A#7 fullCtl d a noSrc (immC (0#4 ++ ofBit g ++ ofBit h)) z.code
  | .vqnt f d a => encV 0x4C#7 fullCtl d a noSrc (immC (0#2 ++ f.code)) 0
  | .vdqt f d a => encV 0x4D#7 fullCtl d a noSrc (immC (0#2 ++ f.code)) 0
  | .vred c k d a => encRed 0x50#7 c k false d a
  | .vamax c z m d a => encV 0x51#7 c d a noSrc (immC (0#4 ++ BitVec.ofNat 2 m.code)) z.code
  | .vscan c k e d a => encRed 0x52#7 c k e d a
  | .vperm c z d a b => encV 0x58#7 c d a b noSrc z.code
  | .vshuf c z d a b e => encV 0x59#7 c d a b e z.code
  | .vbcst c z i d a => encV 0x5A#7 c d a noSrc (immC i) z.code
  | .vsld c z k d a b => encV 0x5B#7 c d a b (immC k) z.code
  | .vzip c z h d a b => encV 0x5C#7 c d a b (immC (0#5 ++ ofBit h)) z.code
  | .vmov c z r d a => encV 0x5D#7 c d a noSrc (immC r) z.code
  | .vmovi c z i d => encV 0x5E#7 c d (immC (i.extractLsb' 12 6)) (immC (i.extractLsb' 6 6)) (immC (i.extractLsb' 0 6)) z.code
  | .pand c d a b => encV 0x60#7 c (pReg d) (immC (pReg a)) (immC (pReg b)) noSrc 0
  | .por c d a b => encV 0x61#7 c (pReg d) (immC (pReg a)) (immC (pReg b)) noSrc 0
  | .pxor c d a b => encV 0x62#7 c (pReg d) (immC (pReg a)) (immC (pReg b)) noSrc 0
  | .pnot c d a => encV 0x63#7 c (pReg d) (immC (pReg a)) noSrc noSrc 0
  | .pcnt c z d a => encV 0x64#7 c (pReg d) (immC (pReg a)) noSrc noSrc z.code
  | .pfirst c z d a => encV 0x65#7 c (pReg d) (immC (pReg a)) noSrc noSrc z.code
  | .vrnd c (.bits z) d => encV 0x68#7 c d noSrc noSrc noSrc z.code
  | .vrnd c .unit d => encV 0x68#7 c d noSrc noSrc (immC 1#6) 0
  | .vchk r m z t tt p a b => encV 0x69#7 ⟨r, m, 0#4⟩ (pReg p) a b (immC (ofBit t ++ tt)) z.code
  | .mbld f pl ck aa off => encM 0x01#6 0#2 f.code 0#3 pl noSrc 0#8 (0#4 ++ chkCode ck) (0#4 ++ aa ++ 0#4 ++ off)
  | .mbldh pl => encM 0x02#6 0#2 0#4 0#3 pl noSrc 0#8 0#8 0#24
  | .mrow op bk f pl va m st ho vh =>
      encM 0x03#6 bk f.code (BitVec.ofNat 3 op.code) pl va (0#2 ++ m) (0#6 ++ BitVec.ofNat 2 st.code) (0#9 ++ ho ++ vh.q ++ vh.r)
  | .mchk bk f pl reg st =>
      encM 0x04#6 bk f.code 0#3 pl (reg.getD noSrc) 0#8 (0#5 ++ ofBit reg.isSome ++ BitVec.ofNat 2 st.code) 0#24
  | .mzero none => encM 0x05#6 0#2 0#4 0#3 false noSrc 0#8 1#8 0#24
  | .mzero (some bk) => encM 0x05#6 bk 0#4 0#3 false noSrc 0#8 0#8 0#24
  | .macc bd bs => encM 0x06#6 bd 0#4 0#3 false noSrc 0#8 0#8 (0#22 ++ bs)
  | .mdrn bk f m nochk ckw tm col =>
      encM 0x07#6 bk f.code 0#3 false noSrc (BitVec.ofNat 8 (m.val + 1)) (0#5 ++ ofBit nochk ++ ofBit ckw ++ ofBit col.isSome)
        (tm ++ (match col with | some (k, ch) => k ++ ch | none => 0#20))
  | .mdrnk bk f va k nochk md m nr rb =>
      encM 0x08#6 bk f.code 0#3 false (immC va) (0#4 ++ k) (0#5 ++ ofBit nochk ++ BitVec.ofNat 2 md.code)
        (0#6 ++ BitVec.ofNat 7 (m.val + 1) ++ nr ++ rb)
  | .mstat va clr => encM 0x09#6 0#2 0#4 0#3 false (immC va) 0#8 (0#7 ++ ofBit clr) 0#24
  | .mrd bk va ln => encM 0x0A#6 bk 0#4 0#3 false (immC va) 0#8 0#8 ln.aux
  | .mwr bk va ln => encM 0x0B#6 bk 0#4 0#3 false va 0#8 0#8 ln.aux
  | .mrot bd bs pl m => encM 0x0C#6 bd 0#4 0#3 pl noSrc (BitVec.ofNat 8 (m.val + 1)) 0#8 (0#22 ++ bs)
  | .mdiag va => encM 0x3E#6 0#2 0#4 0#3 false (immC va) 0#8 0#8 0#24
  | .mspr va p row => encM 0x3F#6 0#2 0#4 0#3 false (immC va) 0#8 (0#7 ++ ofBit p) (BitVec.ofNat 24 row.val)
  | .xld o => encX 0x01#6 o 0#6
  | .xldw o => encX 0x02#6 o 0#6
  | .xst o => encX 0x03#6 o 0#6
  | .xput o => encX 0x04#6 o 0#6
  | .xb o => encX 0x05#6 o 0#6
  | .xpsh one a b => some (.x (LayX.word ⟨0x06#6, 0#4, 0#5, 0#16, 0#12, a, b, 0#10 ++ ofBit one⟩))
  | .xgth o => encX 0x07#6 o 0#6
  | .xsct o => encX 0x08#6 o 0#6
  | .xchn o => encX 0x09#6 o 0#6
  | .xpair o => encX 0x0A#6 o 0#6
  | .xfil sp o => encX 0x0B#6 o (0#5 ++ ofBit sp)
  | .xcol k o => encX 0x0C#6 o (0#2 ++ k)
  | .xfen o => encX 0x0D#6 o 0#6
  | .xcan all sq => some (.x (LayX.word ⟨0x0E#6, 0#4, 0#5, 0#16, sq, 0#5, 0#5, 0#10 ++ ofBit all⟩))
  | .dadd m d a b => encD 0x01#6 d a b noSrc (BitVec.ofNat 9 m.code)
  | .dsub m d a b => encD 0x02#6 d a b noSrc (BitVec.ofNat 9 m.code)
  | .dmul m d a b => encD 0x03#6 d a b noSrc (BitVec.ofNat 9 m.code)
  | .dmax m d a b => encD 0x04#6 d a b noSrc (BitVec.ofNat 9 m.code)
  | .dmin m d a b => encD 0x05#6 d a b noSrc (BitVec.ofNat 9 m.code)
  | .daff d a v => encD 0x06#6 d a 0#3 v 0#9
  | .dmap f d a => encD 0x07#6 d a 0#3 noSrc (BitVec.ofNat 9 f.code)
  | .dmix d a b v => encD 0x08#6 d a b v 0#9
  | .dfrs d v => encD 0x09#6 d 0#3 0#3 v 0#9
  | .dfrw d v => encD 0x0A#6 d 0#3 0#3 v 0#9
  | .dpnt d v => encD 0x0B#6 d 0#3 0#3 v 0#9
  | .dsmp v a => encD 0x0C#6 0#3 a 0#3 (immC v) 0#9
  | .dmom v a => encD 0x0D#6 0#3 a 0#3 (immC v) 0#9
  | .dqnt lin a v => encD 0x0E#6 0#3 a 0#3 v (0#8 ++ ofBit lin)
  | .dtag op d a v => encD 0x0F#6 d a 0#3 v (BitVec.ofNat 9 op.code)
  | .dmov sel d a => encD 0x10#6 d a 0#3 noSrc (0#1 ++ sel)
  | .dcnd d a v => encD 0x11#6 d a 0#3 v 0#9
  | .send pt ind c p => encC 0x01#6 p c (0#3 ++ ofBit pt ++ ofBit ind ++ 0#5)
  | .recv pr c => encC 0x02#6 noPeer c (0#2 ++ ofBit pr ++ 0#7)
  | .rrs r pr pt ind c p => encC 0x03#6 p c (BitVec.ofNat 2 r.code ++ ofBit pr ++ ofBit pt ++ ofBit ind ++ 0#5)
  | .rrd r pr c => encC 0x04#6 noPeer c (BitVec.ofNat 2 r.code ++ ofBit pr ++ 0#7)
  | .copy c => encC 0x05#6 noPeer c 0#10
  | .waitc c => encC 0x06#6 noPeer c 0#10
  | .sig ind i p => encC 0x07#6 p ⟨0#6 ++ i, .none, 0#4, 0#3⟩ (0#4 ++ ofBit ind ++ 0#5)
  | .sigBit b => encC 0x07#6 noPeer ⟨b, .none, 0#4, 0#3⟩ 0x100#10
  | .waits i n => encI 0x08#6 0#3 0#3 (0#10 ++ i ++ n)
  | .bzLoop g n => encI 0x09#6 g 0#3 n
  | .bzEndl => encI 0x0A#6 0#3 0#3 0#32
  | .setv g i => encI 0x0B#6 g 0#3 i
  | .addv g a i => encI 0x0C#6 g a i
  | .peer g p => encC 0x0D#6 p noChunk (0#7 ++ g)
  | .peerInd g pg => encC 0x0D#6 ⟨0#12, 0#12, pg⟩ noChunk (0x04#7 ++ g)
  | .peerXor g pg => encC 0x0D#6 ⟨0#12, 0#12, pg⟩ noChunk (0x20#7 ++ g)
  | .bar a r => encC 0x0E#6 noPeer noChunk (0#5 ++ ofBit a ++ ofBit r ++ 0#3)
  | .bzEnd => encI 0x0F#6 0#3 0#3 0#32
  | .bzNop => encI 0x00#6 0#3 0#3 0#32
  | .bozoakContextTurn .. | .bzcmdStart .. | .bzcmdStop .. | .bzcmdClrcnt .. | .bzbindWrite .. | .chunkCount ..
  | .deliveryComplete .. | .deliveryFailure .. | .signalArrival .. | .hostLaunchDoorbell .. | .completionHeadWrite ..
  | .supervisorRecord .. | .forwardedFabricRecord .. | .launchDispatch .. | .buntingWindowReread ..
  | .windowTimeout .. | .ageingPeriod .. | .preemptionFreeze .. | .checkpointSave .. | .gangResume .. | .kill ..
  | .killdone .. | .runEnd .. | .farAccessHoldEnd .. | .pwaitResume .. | .bwaitComplete .. | .ttsyncRelease ..
  | .lnchAnswer .. | .amaxfComplete .. | .holdTimeout .. | .slipLimit .. | .slipEnd .. | .codeFetchArrival ..
  | .gatherEntryArrival .. | .copyCommandStart .. | .copyCommandComplete .. | .bsetPerform .. | .postedAtomPerform ..
  | .updateLineMerge .. | .windowWrite .. | .remotePennantUpdate .. | .resultLanding .. | .scratchpadPerform ..
  | .planeReady .. | .arrayColumnStep .. | .drainComplete .. | .maintenanceRun .. | .translationReplay ..
  | .launchWindowBind .. | .contextDescriptorWrite .. | .peerWindowWrite .. | .peerInboundRequest ..
  | .snapshotDescriptorWrite .. | .snaproll .. | .tlbInvalidation .. | .tlbInvalidationComplete .. | .pcapWrite ..
  | .temperatureLimitWrite .. | .columnEventLimitWrite .. | .halt .. | .step .. | .resume .. | .rdreg .. | .wrreg ..
  | .rdimg .. | .edimg .. | .handover .. | .handoverStepOverrun .. | .getVersion .. | .getCapabilities ..
  | .negotiateAlgorithms .. | .getDigests .. | .getCertificate .. | .challenge .. | .getMeasurements ..
  | .keyExchange .. | .finish .. | .endSession .. | .ideKm .. | .powerWindow .. | .throttleHoldEnd ..
  | .droopDetect .. | .monitorSample .. | .patrolScrub .. | .generatorReseed .. | .linkFailure .. | .coldReset ..
  | .warmReset .. | .registerWrite .. | .noiseSourceFailure .. | .measurementSlotExtend .. | .hostHdmAccess ..
  | .forwardedRecordRefusal .. => none

end Sys2Proof
end

