-- ==== Sys2Proof/Machine/Numbers.lean ====
section
/-!
DEFINITION. Numbers (05_numbers.md): exact arithmetic with R68 and R8, the formats of Table 5-2, round, round_sr and sat (R9, R10),
the ranking of R188, the special functions of R181, and the block quantiser and decoders (R65, R74).
-/
namespace Sys2Proof

/-! ### Exact values (R8, R68) -/

def extOfRat (q : Rat) : Ext := if q = 0 then .zero false else .num q

def Ext.isNan : Ext → Bool | .nan => true | _ => false
def Ext.isInf : Ext → Bool | .inf _ => true | _ => false
def Ext.isZero : Ext → Bool | .zero _ => true | _ => false
def Ext.finite (x : Ext) : Bool := !x.isNan && !x.isInf

/-- The sign: set for -0, -infinity and negative numbers. -/
def Ext.sgn : Ext → Bool
  | .nan => false
  | .inf n => n
  | .zero n => n
  | .num q => decide (q < 0)

/-- The real number of a finite value; 0 for the others. -/
def Ext.rat : Ext → Rat
  | .num q => q
  | _ => 0

def Ext.neg : Ext → Ext
  | .nan => .nan
  | .inf n => .inf (!n)
  | .zero n => .zero (!n)
  | .num q => .num (-q)

def Ext.abs : Ext → Ext
  | .nan => .nan
  | .inf _ => .inf false
  | .zero _ => .zero false
  | .num q => .num (if q < 0 then -q else q)

/-- Exact sum; a zero sum is -0 only when both are (R8). -/
def Ext.add (x y : Ext) : Ext :=
  match x, y with
  | .nan, _ => .nan
  | _, .nan => .nan
  | .inf a, .inf b => if a = b then .inf a else .nan
  | .inf a, _ => .inf a
  | _, .inf b => .inf b
  | .zero a, .zero b => .zero (a && b)
  | .zero _, y => y
  | x, .zero _ => x
  | .num p, .num q => extOfRat (p + q)

def Ext.sub (x y : Ext) : Ext := Ext.add x (Ext.neg y)

/-- Exact product; signs of zeros and infinities by exclusive-or (R68, R69). -/
def Ext.mul (x y : Ext) : Ext :=
  match x, y with
  | .nan, _ => .nan
  | _, .nan => .nan
  | .num p, .num q => .num (p * q)
  | .inf a, y => if y.isZero then .nan else .inf (a != y.sgn)
  | x, .inf b => if x.isZero then .nan else .inf (b != x.sgn)
  | x, y => .zero (x.sgn != y.sgn)

/-- Exact quotient (R68). -/
def Ext.div (x y : Ext) : Ext :=
  match x, y with
  | .nan, _ => .nan
  | _, .nan => .nan
  | .inf a, y => if y.isInf then .nan else .inf (a != y.sgn)
  | x, .inf b => .zero (b != x.sgn)
  | x, .zero b => if x.isZero then .nan else .inf (b != x.sgn)
  | .zero a, y => .zero (a != y.sgn)
  | .num p, .num q => .num (p / q)

/-- Exact sum of a list; +0 for none. -/
def sumExt : List Ext → Ext
  | [] => .zero false
  | x :: xs => xs.foldl Ext.add x

/-- Numeric order of values that are not NaN, with -0 equal to +0. -/
def Ext.lt (x y : Ext) : Bool :=
  match x, y with
  | .nan, _ => false
  | _, .nan => false
  | .inf a, .inf b => a && !b
  | .inf a, _ => a
  | _, .inf b => !b
  | x, y => decide (x.rat < y.rat)

def Ext.eqv (x y : Ext) : Bool := !x.isNan && !y.isNan && !Ext.lt x y && !Ext.lt y x
def Ext.le (x y : Ext) : Bool := Ext.lt x y || Ext.eqv x y

/-- x ranks strictly above y for maximum selection (R188). -/
def rankAbove (x y : Ext) : Bool :=
  if x.isNan then !y.isNan else if y.isNan then false
  else Ext.lt y x || (Ext.eqv x y && x.isZero && !x.sgn && y.sgn)

/-- x is selected over y for minimum selection: the order reversed, a NaN still winning (R188). -/
def rankBelow (x y : Ext) : Bool :=
  if x.isNan then !y.isNan else if y.isNan then false
  else Ext.lt x y || (Ext.eqv x y && x.isZero && x.sgn && !y.sgn)

/-! ### Formats (Table 5-2) -/

/-- A scalar or element format: exponent and mantissa bits, bias, largest finite magnitude code, infinity and NaN codes. -/
structure FP where
  eb : Nat
  mb : Nat
  bias : Nat
  max : Nat
  inf : Option Nat
  nan : Option Nat
deriving DecidableEq, Repr

def fpF32 : FP := ⟨8, 23, 127, 0x7F7FFFFF, some 0x7F800000, some 0x7FC00000⟩
def fpF16 : FP := ⟨5, 10, 15, 0x7BFF, some 0x7C00, some 0x7E00⟩
def fpBf16 : FP := ⟨8, 7, 127, 0x7F7F, some 0x7F80, some 0x7FC0⟩
def fpE4m3 : FP := ⟨4, 3, 7, 0x7E, none, some 0x7F⟩
def fpE5m2 : FP := ⟨5, 2, 15, 0x7B, some 0x7C, some 0x7E⟩
def fpE2m1 : FP := ⟨2, 1, 1, 7, none, none⟩
def fpUe5m3 : FP := ⟨5, 3, 15, 0xFE, none, some 0xFF⟩

/-- Bits of a code without its sign; the sign is the bit above. -/
def FP.width (f : FP) : Nat := f.eb + f.mb

def pow2 (e : Int) : Rat := if e ≥ 0 then ((2 ^ e.toNat : Nat) : Rat) else 1 / ((2 ^ (-e).toNat : Nat) : Rat)

/-- The magnitude of a code on the grid of a format (R62). -/
def FP.mag (f : FP) (k : Nat) : Rat :=
  if k < 2 ^ f.mb then (k : Rat) * pow2 (1 - f.bias - f.mb)
  else ((2 ^ f.mb + k % 2 ^ f.mb : Nat) : Rat) * pow2 ((k / 2 ^ f.mb : Nat) - (f.bias : Int) - f.mb)

/-- The exact value of a code (R62). -/
def FP.dec (f : FP) (c : Nat) : Ext :=
  let k := c % 2 ^ f.width
  let neg := c / 2 ^ f.width % 2 = 1
  if k ≤ f.max then
    (if k = 0 then .zero (decide neg) else .num (if neg then -(f.mag k) else f.mag k))
  else if f.inf = some k then .inf (decide neg) else .nan

/-- floor(log2 q) for q > 0. -/
def ilog2 (q : Rat) : Int :=
  let n := q.num.toNat
  let l : Int := (n.log2 : Int) - (q.den.log2 : Int)
  if pow2 l ≤ q then l else l - 1

/-- The largest grid code not above a positive magnitude, and the rest as a fraction of the spacing. -/
def FP.grid (f : FP) (q : Rat) : Nat × Rat :=
  let emin : Int := 1 - f.bias
  let e := ilog2 q
  let e' := if e < emin then emin else e
  let x := q * pow2 (f.mb - e')
  let n := x.floor.toNat
  (n + (e' - emin).toNat * 2 ^ f.mb, x - (n : Rat))

/-- sat (R9). -/
def FP.sat (f : FP) (neg nsat : Bool) : Nat :=
  let s := if neg then 2 ^ f.width else 0
  match nsat, f.inf, f.nan with
  | true, some i, _ => s + i
  | true, none, some n => n
  | _, _, _ => s + f.max

/-- Whether a value between two grid points rounds up in magnitude (R9, R10). -/
def roundsUp (mode : RMode) (n rv : Nat) (neg : Bool) (lo : Nat) (r : Rat) : Bool :=
  match mode with
  | .rne => decide (r > 1 / 2) || (decide (r = 1 / 2) && lo % 2 == 1)
  | .rtz => false
  | .rdn => neg && decide (r > 0)
  | .rup => !neg && decide (r > 0)
  | .sr =>
    let x := r * ((2 ^ n : Nat) : Rat)
    let w := x.floor.toNat
    let w := if ((w : Nat) : Rat) < x then w ||| 1 else w
    decide (w + rv ≥ 2 ^ n)

/-- round and round_sr of a real number other than zero (R9, R10); rv is used by SR only. -/
def FP.roundRat (f : FP) (mode : RMode) (nsat : Bool) (n rv : Nat) (q : Rat) : Nat :=
  let neg := decide (q < 0)
  let (lo, r) := f.grid (if neg then -q else q)
  let k := if roundsUp mode n rv neg lo r then lo + 1 else lo
  let s := if neg then 2 ^ f.width else 0
  if k ≤ f.max then s + k
  else if mode = .rtz ∨ (mode = .rdn ∧ ¬neg) ∨ (mode = .rup ∧ neg) then s + f.max
  else f.sat neg nsat

/-- cvt and round to a format: NaN to its canonical NaN, infinities by R68 point 5, zeros keep their sign (R69, R73). -/
def FP.round (f : FP) (mode : RMode) (nsat : Bool) (n rv : Nat) (x : Ext) : Nat :=
  match x with
  | .nan => f.nan.getD 0
  | .inf s => match f.inf with
    | some i => (if s then 2 ^ f.width else 0) + i
    | none => f.sat s nsat
  | .zero s => if s then 2 ^ f.width else 0
  | .num q => f.roundRat mode nsat n rv q

/-- RNE under a saturation mode. -/
def FP.rne (f : FP) (nsat : Bool) (x : Ext) : Nat := f.round .rne nsat 0 0 x

/-- rne32 (R9), as a value. -/
def rne32 (x : Ext) : Ext := fpF32.dec (fpF32.rne true x)

/-- rne32 as an f32 code. -/
def code32 (x : Ext) : BitVec 32 := BitVec.ofNat 32 (fpF32.rne true x)

/-- The value of an f32 code. -/
def val32 (c : BitVec 32) : Ext := fpF32.dec c.toNat

def canonNan32 : BitVec 32 := 0x7FC00000#32

def fpOfTy : FTy → FP | .f32 => fpF32 | .bf16 => fpBf16 | .f16 => fpF16
def FTy.width : FTy → Nat | .f32 => 32 | _ => 16
def fpOfS : SFmt → FP | .f32 => fpF32 | .bf16 => fpBf16 | .f16 => fpF16 | .e4m3 => fpE4m3 | .e5m2 => fpE5m2
def SFmt.width : SFmt → Nat | .f32 => 32 | .bf16 => 16 | .f16 => 16 | .e4m3 => 8 | .e5m2 => 8

/-! ### Special functions (R181) -/

/-- Fixed-point precision of the approximations below, far finer than the bounds of Table 11-4. -/
def fxP : Nat := 160
def fxOne : Int := (2 ^ fxP : Nat)
def ofFx (i : Int) : Rat := (i : Rat) / ((2 ^ fxP : Nat) : Rat)
def toFx (q : Rat) : Int := (q * ((2 ^ fxP : Nat) : Rat)).floor

/-- pi and ln 2, times 2^400. -/
def piC : Nat := 0x3243f6a8885a308d313198a2e03707344a4093822299f31d0082efa98ec4e6c89452821e638d01377be5466cf34e90c6cc0ac
def ln2C : Nat := 0xb17217f7d1cf79abc9e3b39803f2f6af40f343267298b62d8a0d175b8baafa2be7b876206debac98559552fb4afa1b10ed2e
def piRat : Rat := (piC : Rat) / ((2 ^ 400 : Nat) : Rat)
def ln2Rat : Rat := (ln2C : Rat) / ((2 ^ 400 : Nat) : Rat)

/-- Partial sums of a power series: the term is multiplied by x and divided by the next factors. -/
def series (x : Int) (fact : Nat → Nat) : Nat → Nat → Int → Int → Int
  | 0, _, _, acc => acc
  | n + 1, k, term, acc =>
    let t := term * x / fxOne / (fact k : Int)
    series x fact n (k + 1) t (acc + t)

/-- e^x for 0 ≤ x < 1, in fixed point. -/
def expFx (x : Int) : Int := series x (fun k => k) 45 1 fxOne fxOne

/-- An approximation of 2^x with relative error below 2^-120. -/
def exp2Approx (x : Rat) : Rat :=
  let k := x.floor
  if k < -1000 then pow2 (-1000) else if k > 1000 then pow2 1000
  else ofFx (expFx (toFx ((x - (k : Rat)) * ln2Rat))) * pow2 k

def expApprox (x : Rat) : Rat := exp2Approx (x / ln2Rat)

/-- An approximation of log2 q for q > 0, by 2 artanh((m - 1)/(m + 1)). -/
def log2Approx (q : Rat) : Rat :=
  let e := ilog2 q
  let m := q * pow2 (-e)
  let z := toFx ((m - 1) / (m + 1))
  let z2 := z * z / fxOne
  let rec go : Nat → Nat → Int → Int → Int
    | 0, _, _, acc => acc
    | n + 1, k, pw, acc => go n (k + 2) (pw * z2 / fxOne) (acc + pw / (k : Int))
  (e : Rat) + 2 * ofFx (go 60 1 z 0) / ln2Rat

/-- An approximation of the square root of q > 0, exact when the root is rational of up to 90 bits: the integer root at a scale
of 90 bits, plus a half where a rest remains, which rounds as the root does. -/
def sqrtApprox (q : Rat) : Rat :=
  let e := ilog2 q / 2
  let k : Int := 90 - e
  let n := (q * pow2 (2 * k)).floor.toNat
  let r := n.sqrt
  let exact := ((r * r : Nat) : Rat) = q * pow2 (2 * k)
  ((r : Rat) + (if exact then 0 else 1 / 2)) * pow2 (-k)

/-- sin and cos of x for |x| ≤ 4, in fixed point. -/
def sinFx (x : Int) : Int := 
  let x2 := -(x * x / fxOne)
  series x2 (fun k => 2 * k * (2 * k + 1)) 40 1 x x
def cosFx (x : Int) : Int :=
  let x2 := -(x * x / fxOne)
  series x2 (fun k => (2 * k - 1) * (2 * k)) 40 1 fxOne fxOne

/-- x reduced by whole turns to [-pi, pi]. -/
def reduceTurn (x : Rat) : Rat := x - 2 * piRat * ((x / (2 * piRat) + 1 / 2).floor : Rat)

def tanhApprox (x : Rat) : Rat :=
  if (if x < 0 then -x else x) < pow2 (-30) then x - x * x * x / 3
  else if x > 60 then 1 - pow2 (-80) else if x < -60 then pow2 (-80) - 1
  else let t := expApprox (2 * x); (t - 1) / (t + 1)

def sigmApprox (x : Rat) : Rat := let t := expApprox x; t / (1 + t)

/-- The f32 grid spacing at a magnitude (R181). -/
def ulp32 (q : Rat) : Rat :=
  if q = 0 then pow2 (-149) else
  let e := ilog2 (if q < 0 then -q else q)
  pow2 ((if e < -126 then -126 else e) - 23)

/-- The distance of two numbers. -/
def ratDist (x y : Rat) : Rat := if x < y then y - x else x - y

/-- The grid spacing of a format at a magnitude. -/
def FP.ulp (f : FP) (q : Rat) : Rat :=
  let lo : Int := 1 - (f.bias : Int)
  let e := if q = 0 then lo else ilog2 (if q < 0 then -q else q)
  pow2 ((if e < lo then lo else e) - (f.mb : Int))

/-- A result x of f32 for the exact value y of an operand q stays within 1 ulp of a sub-type that has q, once rounded to it (R181). -/
def subNear (f : FP) (q y x : Rat) : Bool :=
  f.dec (f.rne true (.num q)) != .num q || !(f.dec (f.rne true (.num y))).finite ||
    ((f.dec (f.rne true (.num x))).finite && decide (ratDist (f.dec (f.rne true (.num x))).rat y ≤ f.ulp y))

/-- A free result within a bound of the exact value y at an operand q: the configured code where it lies within the bound, at every sub-type
that has the operand, else y rounded. -/
def within (q y bound : Rat) (raw : BitVec 32) : BitVec 32 :=
  match val32 raw with
  | .nan | .inf _ => code32 (extOfRat y)
  | x => if ratDist x.rat y ≤ bound ∧ subNear fpBf16 q y x.rat ∧ subNear fpF16 q y x.rat then raw else code32 (extOfRat y)

/-- The special functions of Table 11-4, in table order, codes 0 to 8. -/
inductive SpFn where
  | exp2 | log2 | rcp | rsq | sqrt | tanh | sigm | sin | cos
deriving DecidableEq, Repr

def spAll : List SpFn := [.exp2, .log2, .rcp, .rsq, .sqrt, .tanh, .sigm, .sin, .cos]

/-- Results at infinities, zeros and outside the domain (Table 11-4). -/
def spFixed (f : SpFn) (x : Ext) : Option (BitVec 32) :=
  let nan := some canonNan32
  let inf (s : Bool) := some (if s then 0xFF800000#32 else 0x7F800000#32)
  let zero (s : Bool) := some (if s then 0x80000000#32 else 0#32)
  let one (s : Bool) := some (if s then 0xBF800000#32 else 0x3F800000#32)
  match f, x with
  | _, .nan => nan
  | .exp2, .inf s => if s then zero false else inf false
  | .exp2, .zero _ => one false
  | .log2, .zero _ => inf true
  | .log2, .inf s => if s then nan else inf false
  | .log2, .num q => if q < 0 then nan else if q = 1 then zero false else none
  | .rcp, .zero s => inf s
  | .rcp, .inf s => zero s
  | .rsq, .zero s => inf s
  | .rsq, .inf s => if s then nan else zero false
  | .rsq, .num q => if q < 0 then nan else none
  | .sqrt, .zero s => zero s
  | .sqrt, .inf s => if s then nan else inf false
  | .sqrt, .num q => if q < 0 then nan else none
  | .tanh, .zero s => zero s
  | .tanh, .inf s => one s
  | .sigm, .inf s => if s then zero false else one false
  | .sigm, .zero _ => some 0x3F000000#32
  | .sin, .zero s => zero s
  | .sin, .inf _ => nan
  | .cos, .zero _ => one false
  | .cos, .inf _ => nan
  | _, _ => none

/-- A special function at f32 (R181). -/
def special32 (f : SpFn) (x : Ext) : BitVec 32 :=
  match spFixed f x with
  | some c => c
  | none =>
    let q := x.rat
    let raw := Config.special (spAll.idxOf f) (code32 x)
    match f with
    | .exp2 =>
      if q.den = 1 ∧ q ≤ 127 ∧ -149 ≤ q then code32 (.num (pow2 q.num)) 
      else if q ≥ 128 then 0x7F800000#32
      else let y := exp2Approx q; within q y (ulp32 y) raw
    | .log2 => let y := log2Approx q; within q y (if 1 / 2 ≤ q ∧ q ≤ 2 then pow2 (-22) else ulp32 y) raw
    | .rcp =>
      let y := 1 / q
      if (if y < 0 then -y else y) ≥ pow2 128 then code32 (.num y) else within q y (ulp32 y) raw
    | .rsq => let y := sqrtApprox (1 / q); within q y (ulp32 y) raw
    | .sqrt => code32 (.num (sqrtApprox q))
    | .tanh => let y := tanhApprox q; within q y (2 * ulp32 y) raw
    | .sigm => let y := sigmApprox q; within q y (2 * ulp32 y) raw
    | .sin => let y := ofFx (sinFx (toFx (reduceTurn q))); within q y (pow2 (-22)) raw
    | .cos => let y := ofFx (cosFx (toFx (reduceTurn q))); within q y (pow2 (-22)) raw

/-- A special function at an FP sub-type: the f32 function of the exact operand, rounded RNE and NSAT (R181). -/
def specialTy (f : SpFn) (ty : FTy) (c : Nat) : Nat :=
  let r := special32 f ((fpOfTy ty).dec c)
  match ty with
  | .f32 => r.toNat
  | _ => (fpOfTy ty).rne true (val32 r)

/-! ### Format codes and block formats (Tables 5-1, 5-3; R65) -/

/-- Scalar format of a code 0x0 to 0x4. -/
def scalarFmt (c : Nat) : Option SFmt := sfmtAll[c]?

/-- Bits of an element of format codes 0x0 to 0xA. -/
def fmtBits (c : Nat) : Nat :=
  match c with
  | 0 => 32 | 1 => 16 | 2 => 16 | 3 => 8 | 4 => 8 | 5 => 4 | 6 => 8 | 7 => 8 | 8 => 8 | 9 => 8 | _ => 4

/-- Block length of a blocked or interchange format; 1 for a scalar one. -/
def fmtBlock (c : Nat) : Nat := match c with | 5 => 16 | 6 => 32 | 7 => 32 | 8 => 32 | 9 => 32 | 10 => 32 | _ => 1

/-- The element format of a code. -/
def fmtElem (c : Nat) : FP :=
  match c with
  | 0 => fpF32 | 1 => fpBf16 | 2 => fpF16 | 3 => fpE4m3 | 4 => fpE5m2 | 6 => fpE4m3 | 7 => fpE5m2 | 8 => fpE4m3 | 9 => fpE5m2
  | _ => fpE2m1

/-- The exact value of an E8M0 code (R62). -/
def decE8m0 (c : Nat) : Ext := if c = 0xFF then .nan else .num (pow2 ((c : Int) - 127))

/-- An element of an f4x block under scale and extra value (R65). -/
def decF4x (code s x : Nat) : Ext :=
  let sv := fpUe5m3.dec s
  if sv.isNan then .nan
  else if code = 8 then Ext.mul (fpE4m3.dec x) sv
  else Ext.mul (fpE2m1.dec code) sv

/-- An element of a b32 block (R65). -/
def decB32 (f : FP) (code s : Nat) : Ext :=
  let sv := fpUe5m3.dec s
  if sv.isNan then .nan else Ext.mul (f.dec code) sv

/-- The smallest ue5m3 code whose value is at least q, or 0xFE if none is (R74). -/
def ue5m3Ceil (q : Rat) : Nat :=
  let (lo, r) := fpUe5m3.grid q
  let k := if r > 0 then lo + 1 else lo
  if k ≤ 0xFE then k else 0xFE

/-- Rounding under an entry or map: mode, saturation, and for SR the bits and the draws in order (R72). -/
structure Rnd where
  mode : RMode
  nsat : Bool
  n : Nat
deriving DecidableEq, Repr

/-- A block of codes with its scale and extra value. -/
structure Block where
  s : Nat
  x : Nat
  codes : List Nat
deriving DecidableEq, Repr

def signedMax32 (s : Bool) : Ext := .num (if s then -(fpF32.mag fpF32.max) else fpF32.mag fpF32.max)

/-- The largest magnitude among finite values. -/
def maxAbs (xs : List Ext) : Rat := xs.foldl (fun m x => let a := (Ext.abs x).rat; if m < a then a else m) 0

/-- quant_f4x of 16 exact values; draws are the block's draws in element order (R74). -/
def quantF4x (r : Rnd) (draws : List Nat) (xs : List Ext) : Block :=
  if xs.any Ext.isNan || (r.nsat && xs.any Ext.isInf) then ⟨0xFF, 0, List.replicate 16 0⟩
  else
    let ys := xs.map fun x => match x with | .inf s => signedMax32 s | y => y
    let m := maxAbs ys
    if m = 0 then ⟨0, 0, List.replicate 16 0⟩
    else
      let sc := ue5m3Ceil (m / 6)
      let s := fpUe5m3.mag sc
      let q := (ys.zipIdx).map fun (y, i) => fpE2m1.round r.mode false r.n (draws.getD i 0) (Ext.div y (.num s))
      let codes := q.map fun c => if c % 8 = 0 then 0 else c
      let err := (ys.zip codes).map fun (y, c) => let d := y.rat - s * (fpE2m1.dec c).rat; if d < 0 then -d else d
      let em : Rat := err.foldl (fun a b => if a < b then b else a) 0
      if em = 0 then ⟨sc, 0, codes⟩
      else
        let j := err.idxOf em
        ⟨sc, fpE4m3.rne false (Ext.div (ys.getD j (.zero false)) (.num s)), codes.set j 8⟩

/-- The b32 quantiser of 32 exact values to an element format (R74). -/
def quantB32 (f : FP) (r : Rnd) (draws : List Nat) (xs : List Ext) : Block :=
  let fin := xs.filter fun x => !x.isNan
  let anyInf := fin.any Ext.isInf
  let m := maxAbs fin
  let nan := f.nan.getD 0
  if !anyInf && m = 0 then ⟨0, 0, xs.map fun x => if x.isNan then nan else if x.sgn then 0x80 else 0⟩
  else
    let sc := if anyInf then 0xFE else ue5m3Ceil (m / f.mag f.max)
    let s := fpUe5m3.mag sc
    ⟨sc, 0, (xs.zipIdx).map fun (x, i) => if x.isNan then nan else f.round r.mode r.nsat r.n (draws.getD i 0) (Ext.div x (.num s))⟩

/-- Quantise a block under a blocked format code 0x5 to 0x7. -/
def quantBlock (c : Nat) (r : Rnd) (draws : List Nat) (xs : List Ext) : Block :=
  if c = 5 then quantF4x r draws xs else quantB32 (fmtElem c) r draws xs

/-- The OCP re-encoding of 32 exact values (R67): E8M0 scale and element codes. The element codes of a block written with E8M0 0xFF are zeros, a
choice of the model (log entry 75); the zeros of a block of zeros keep their signs, but for E2M1 (R69). -/
def mxEncode (f : FP) (emax : Int) (e2m1 : Bool) (xs : List Ext) : Block :=
  if xs.any Ext.isNan then ⟨0xFF, 0, List.replicate xs.length 0⟩
  else
    let m := maxAbs xs
    if m = 0 then ⟨0x7F, 0, xs.map fun x => if e2m1 || !x.isZero then 0 else f.rne false x⟩
    else
      let e : Int := ilog2 m - emax + 127
      let e := if e < 0 then 0 else if e > 254 then 254 else e
      let s := pow2 (e - 127)
      let codes := xs.map fun x => f.rne false (Ext.div x (.num s))
      ⟨e.toNat, 0, if e2m1 then codes.map (fun c => if c % 8 = 0 then 0 else c) else codes⟩

end Sys2Proof
end

