-- ==== Sys2Proof/Machine/State.lean ====
section
/-!
DEFINITION. The state of the C9 as plain data: sequencers, cores, copy engines, memory, Halyard and the platform, and the
machine right after reset (R374, R391).
-/
namespace Sys2Proof.Machine

/-- A sparse table in canonical form: keys strictly rising, no entry equal to the table's default. -/
abbrev SMap (α : Type) := List (Nat × α)

/-- Traps of Table 23-2 a bundle or result meets, with the detail TRAPCAUSE records. -/
structure TrapInfo where
  cause : BitVec 8
  info : BitVec 16 := 0#16
  sub : BitVec 8 := 0#8
  core : Option (BitVec 8) := none
  slot : BitVec 3 := 0#3
  pend : Bool := false
  /-- Layout B's granule address VA[56:7] (Table 23-1b). -/
  gva : BitVec 50 := 0#50
  /-- The writer tag a race found (R342). -/
  wtag : BitVec 24 := 0#24
deriving DecidableEq, Repr

/-- A pending fault with the operation it comes from (R214, R336). -/
structure PendFault where
  origin : Origin
  trap : TrapInfo
deriving DecidableEq, Repr

/-- A completion-point failure and the cycle of the run it is due at (R336, R337). -/
structure CpTrap where
  due : Nat
  origin : Origin
  trap : TrapInfo
deriving DecidableEq, Repr

/-- Kinds of pipeline-image entries (Table 23-3). -/
inductive PKind where
  | v | p | d | dwords | a | load | store | rep
deriving DecidableEq, Repr

/-- A repeated or late read still to issue: the word, and what its issue resolved (R90, R91, R193, R273). -/
structure RepRec where
  instr : Instr
  rrbv : BitVec 5
  rrbp : BitVec 3
  popped : Option (BitVec 1024)
  first : BitVec 1024
deriving DecidableEq, Repr

/-- One entry of a pipeline image (Table 23-3); cycles are absolute in the time the entry is counted in (DT, or handler
cycles), where the saved image holds them relative to f. -/
structure PEntry where
  kind : PKind
  /-- For a LOAD, the kind of the register result. -/
  dk : PKind
  dest : Nat
  part : Nat
  slot : Slot
  land : Nat
  perf : Nat
  issue : Nat
  val : BitVec 256
  mask : BitVec 32
  /-- LOAD and STORE: the scratchpad address of each byte lane of the slice, lane 0 first. -/
  addrs : List Nat
  rep : Option RepRec
  /-- FLG: the failure the comparison at capture found, with its trap (R94, R197, R348). -/
  fail : Option TrapInfo
  /-- FLG as the comparison at capture leaves it: mirror copies disagree, VCHK fails, TRP (Table 23-3). -/
  flg : BitVec 3 := 0#3
  origin : Origin
deriving DecidableEq, Repr

/-- Plane formats: a code of Table 5-1, H, or NONE (Table 15-1). -/
inductive PFmt where
  | none | had | code (f : BitVec 4)
deriving DecidableEq, Repr

/-- A B plane (Table 15-1): decoded values by key 128 n + k (unlisted +0), bsum by k, format. -/
structure Plane where
  fmt : PFmt
  b : SMap Ext
  bsum : SMap (BitVec 32)
  /-- f4x elements whose block's scale is zero, before that scale: a cell's q takes its sign from them (R75). -/
  z : SMap (Option Ext)
deriving DecidableEq, Repr

/-- Where a stream's operands come from (R243 to R246, R259). -/
inductive StreamSrc where
  /-- MROW: its cell operation. -/
  | row (op : CellOp)
  /-- MCHK: registers still to be read, one a cycle, and the value the mapped v31 popped. -/
  | chk (regs : List Nat) (popped : Option (BitVec 1024))
  /-- MROT: the source row of a bank, read at its first cycle. -/
  | rot (bank : BitVec 2) (srow : Nat)
deriving DecidableEq, Repr

/-- A stream on its way through the columns: column n steps at start + n (Table 15-3); a holds the operands read so far. -/
structure Stream where
  start : Nat
  /-- The next column to step. -/
  col : Nat
  ord : Nat
  bank : BitVec 2
  row : Nat
  plane : Bool
  fresh : Bool
  f4 : Bool
  chkCol : Bool
  a : List Ext
  /-- As a plane's z, of an f4x row by k. -/
  z : SMap (Option Ext)
  src : StreamSrc
  /-- The stream's M word, and the operand bytes it has read (Table 23-4). -/
  instr : Instr
  opd : List Byte
deriving DecidableEq, Repr

/-- A plane load under way (R240, R241): sampled at samp, ready at ready. -/
structure PlaneLoad where
  plane : Bool
  samp : Nat
  ready : Nat
  fmt : PFmt
  addr : Nat
  bytes : Option (List Byte)
  issue : Nat
  origin : Origin
deriving DecidableEq, Repr

/-- A change of a bank at a later cycle (R247 to R249, R255, R262, R263). -/
inductive BankOp where
  | zero (bank : BitVec 2)
  | accSample (dst src : BitVec 2)
  | accAdd (dst : BitVec 2) (vals : SMap (BitVec 32)) (lin stale : Bool) (edge : SMap Ext)
  | write (bank : BitVec 2) (cells : List (Nat × BitVec 32))
  /-- The elements that an MWR wrote in its cycle, as M operations that issue in that same cycle find them (R249). -/
  | unseen (bank : BitVec 2) (cells : List (Nat × BitVec 32))
  | fix (bank : BitVec 2) (row col : Nat) (er ec : BitVec 32)
  | planesNone
  | retire (row : Nat)
deriving DecidableEq, Repr

/-- A bank change with its cycle and issue order (R239). -/
structure BankUpd where
  at' : Nat
  ord : Nat
  op : BankOp
deriving DecidableEq, Repr

/-- A generator: its key, the draws taken since it reseeded, its reseeds in the run, and the key that comes after 2^20 blocks (R389, R390). -/
structure Gen where
  key : BitVec 256
  draws : Nat
  seeds : Nat
  next : BitVec 256
deriving DecidableEq, Repr

/-- A word of a core that may hold an uncorrectable error (Table 25-1): of the v, p and d registers by 64 bits, 16, 2 and 34 to a register; an a register
or a format-table entry; a bank's element; a plane; a page's tag, B-store pages from 64 on. -/
inductive CoreWord where
  | v (n : Nat) | p (n : Nat) | d (n : Nat) | a (n : Nat) | ft (n : Nat) | cell (n : Nat) | plane (pl : Bool) | tag (n : Nat)
deriving DecidableEq, Repr

/-- A word of a sequencer or of the tensor maps that may (Table 25-1): a register, a level of the loop stack, a field of a map. -/
inductive SeqWord where
  | s (i : BitVec 5) | b (i : BitVec 3) | e (i : BitVec 3) | lc (i : Nat) | loop (l : Nat) | tm (key : Nat)
deriving DecidableEq, Repr

/-- One core (R20, R233). -/
structure Core where
  /-- v0 to v63, physical numbering (R20, R90). -/
  v : List (BitVec 1024)
  /-- p0 to p15 (R20). -/
  p : List (BitVec 128)
  /-- a0 to a15 (R20). -/
  a : List (BitVec 32)
  /-- Points of d0 to d7 (Table 17-1). -/
  dPts : List (BitVec 2048)
  /-- Element words of d0 to d7 in the image of R169: count in [3:0], tag in [31:16] of each 32 bits. -/
  dWords : List (BitVec 128)
  /-- ft0 to ft7, this core's copy (R78). -/
  ft : List (BitVec 64)
  /-- Banks m0 to m3, key 4225 bank + 65 row + column, unlisted +0 (R233). -/
  m : SMap (BitVec 32)
  lin : BitVec 4
  stale : BitVec 4
  /-- EDGE, key 128 bank + k, unlisted +0 (R233). -/
  edge : SMap Ext
  plane0 : Plane
  plane1 : Plane
  /-- Scratchpad bytes, unlisted 0 (R22). -/
  spm : List Host.Cell
  spTag : SMap (BitVec 16)
  /-- B-store bytes, unlisted 0 (R21). -/
  bst : List Host.Cell
  bstTag : SMap (BitVec 16)
  /-- The fault a poisoned page stands for, of the command that last finished with it (R213); key page, B-store pages from 64 on. -/
  poisonOrg : SMap (Option PendFault)
  /-- Gather data queue, oldest first (R227). -/
  gq : List (BitVec 1024)
  /-- Drain status record as MSTAT writes it (Table 15-6). -/
  dstat : BitVec 1024
  /-- Results, loads, stores and repetitions in flight (R347). -/
  pipe : List PEntry
  streams : List Stream
  loads : List PlaneLoad
  bankUpds : List BankUpd
  /-- Last stream issue of each bank, in the time it was issued in (R99). -/
  lastStream : SMap Nat
  /-- Input cycles of the row input still to come or last used: the first free cycle (R237). -/
  inputFree : Nat
  /-- First cycle after an MDIAG or MSPR window (R237). -/
  diagFree : Nat
  /-- Retired physical k-rows (R263, R264). -/
  retired : List Nat
  gen : Gen
  /-- Scratchpad bytes, then B-store bytes from 2^18 on, whose word holds an uncorrectable error (R360). -/
  bad : List Nat
  /-- Words of its registers, banks, planes and tags that hold one, until they are written (R360). -/
  hurt : List CoreWord
  /-- Byte lanes a soft error flips in the mirror copy of a result (R94). -/
  upset : BitVec 128
  /-- Granules written since the last save, by item and index (R355). -/
  dirty : List (Nat × Nat)
  dirtyAll : Bool
deriving DecidableEq, Repr

/-- S-slot results in flight (R350). -/
inductive SDest where
  /-- An s register, with a link value that is still to be worked out (R131). -/
  | link (i : BitVec 5)
  | s (i : BitVec 5) | b (i : BitVec 3) | e (i : BitVec 3) | lc (i : Nat)
  | cmsk | rrbv | rrbp | gqctl | slipmax | traphnd | errinj
deriving DecidableEq, Repr

structure SEntry where
  dest : SDest
  val : BitVec 256
  land : Nat
deriving DecidableEq, Repr

/-- A tensor-map field write in flight (R156). -/
structure TmWrite where
  key : Nat
  val : Word
  land : Nat
deriving DecidableEq, Repr

/-- A format-table write in flight on the cores of a mask (R157). -/
structure FtWrite where
  ft : BitVec 3
  fld : Option FtField
  val : Word
  cores : BitVec 256
  land : Nat
deriving DecidableEq, Repr

/-- A loop level: hidden trip count and start (R133), and the code its iterations span (R135). -/
structure LoopLv where
  tc : BitVec 32
  start : BitVec 57
  /-- The line of its ENDL once one has closed an iteration, before that the furthest line reached (R135; log entry 71). -/
  last : Nat
  closed : Bool
deriving DecidableEq, Repr

/-- One core's part of a far access: address, bytes to write or a read of so many, byte lanes. -/
structure FarPart where
  core : Nat
  va : Nat
  mask : BitVec 128
  data : BitVec 1024
deriving DecidableEq, Repr

/-- What a far access does (R142, R145, R171); an ATOM carries the scope of the FENCE release before it (Table 19-2). -/
inductive FarKind where
  | ldf (sgn : Bool) (n : Nat) (sd : BitVec 5)
  | stf (n : Nat)
  | atom (op : AtomOp) (sgn w64 ret : Bool) (ord : MOrder) (sc : Scope) (sd : BitVec 5) (cmp : Word) (fence : Option Scope)
  | vldf (phys : Nat)
  | vstf
deriving DecidableEq, Repr

/-- Holds in progress (R45). -/
inductive HoldKind where
  | lateFetch (line : Nat)
  | emptyQueue
  | fullBuffer
  | far (k : FarKind) (parts : List FarPart)
  | pwait (addr : Nat) (phase : Bool)
  /-- A PWAIT whose sample differed, or found an overflow: it ends in the next cycle (R138, R231). -/
  | pflip (addr : Nat) (ovf : Bool)
  | bwait (addr : Nat) (mask : Word) (sc : Scope)
  | ttsync
  | lnch (sd : BitVec 5) (va : Nat)
  | amaxf (sd : BitVec 5) (tm : BitVec 4)
  | endWait
deriving DecidableEq, Repr

/-- A hold: its bundle, the CT it began, the CT its access completes where one is awaited, and whether
its translation is being repaired (R45, R47, R309). -/
structure Hold where
  kind : HoldKind
  slot : Slot
  pc : BitVec 57
  start : Nat
  due : Nat
  replay : Bool
  /-- Posted accesses it must wait for, by their numbers (R147). -/
  after : List Nat
deriving DecidableEq, Repr

/-- Posted accesses on their way (R140, R146, R173); a BSET or ATOM carries the scope of the FENCE release before it (Table 19-2). -/
inductive PostKind where
  | bset (va : Nat) (bit : Nat) (sc : Scope) (cmds : List Nat) (fence : Option Scope)
  | atom (va : Nat) (op : AtomOp) (sgn w64 : Bool) (val : Word) (fence : Option Scope)
  | vupd (core elem va : Nat) (op : UpdOp) (ty : UpdTy) (val : Word)
deriving DecidableEq, Repr

structure Posted where
  id : Nat
  grp : Nat
  kind : PostKind
  origin : Origin
  due : Nat
  /-- The CT of its issue (R140). -/
  since : Nat
deriving DecidableEq, Repr

/-- A partial result of an update-only line (R295). -/
structure UpdWord where
  op : UpdOp
  ty : UpdTy
  val : Word
deriving DecidableEq, Repr

/-- A far-cache or RDC line of a peer device's memory (R25, R298): its PA over 128, the bytes it holds, those not yet at their home, and the
context they were written by. -/
structure PeerLine where
  line : Nat
  data : BitVec 1024
  valid : BitVec 128
  dirty : BitVec 128
  ctx : BitVec 12
deriving DecidableEq, Repr

/-- A byte a command reads or writes (R207): of a VA, of a cluster's scratchpad, of a core's B-store. -/
inductive CopyTarget where
  | mem (va : Nat) | sp (cluster addr : Nat) | bs (core off : Nat)
deriving DecidableEq, Repr

/-- A granule of a footprint (R207). -/
inductive Gran where
  | va (g : Nat) | sp (cluster g : Nat) | bs (core g : Nat)
deriving DecidableEq, Repr

/-- A command of the time-sorted buffer with the map and operands read at its issue (R198, R204, R205); its time is the DT it is due,
plus 2^48. -/
structure Cmd where
  id : Nat
  instr : Instr
  time : Nat
  map : List Word
  dstMap : List Word
  a : Word
  b : Word
  bundle : Origin
  /-- The granules it reads and writes (R207), where no index or descriptor that its start reads decides them. -/
  foot : Option (List Gran × List Gran)
deriving DecidableEq, Repr

/-- A started command (R206, R209). -/
structure Active where
  cmd : Cmd
  startCt : Nat
  reads : List Gran
  writes : List Gran
  /-- C of R210. -/
  bound : Nat
  /-- The run's race-detection clock at the start (R302). -/
  clk : BitVec 20
  /-- Bytes still to be read, each with the CT it is read in (R220), and those read. -/
  rd : List (CopyTarget × Nat)
  got : List (CopyTarget × Byte)
  /-- The CT every byte has been read by, and the CT of completion where nothing delays it. -/
  mid : Nat
  due : Nat
  formed : Bool
  /-- Writes still to be made to memory or a B-store, each with its CT, in order. -/
  outs : List (CopyTarget × Byte × Nat)
  /-- Bytes it writes in all, and the pages whose tags it sets: cluster, core, page, B-store pages from 64 on. -/
  nbytes : Nat
  pages : List (Nat × Nat × Nat)
  /-- Granules of memory that it writes whole and has not finished (R361). -/
  whole : List Nat
  /-- The failure found: its code of Table 13-5, and the trap. -/
  fail : Option (BitVec 3 × TrapInfo)
  replay : Bool
  /-- Something has delayed it beyond its bound (R211). -/
  loose : Bool
  /-- The tile is being read a second time (R219). -/
  second : Bool
  /-- Commands it waits for (R224, R225). -/
  waits : List Nat
  /-- XGTH: vectors still to enter the data queues, by core (R227). -/
  gather : List (Nat × List (BitVec 1024))
  popped : List (BitVec 32)
  /-- XCHN: the descriptor read at the start (R229). -/
  desc : List Byte
deriving DecidableEq, Repr

/-- A completed command, kept for the bounds of later ones (R210). -/
structure DoneCmd where
  id : Nat
  time : Nat
  reads : List Gran
  writes : List Gran
  bound : Nat
deriving DecidableEq, Repr

/-- A write from outside the timetable on its way into a cluster's scratchpad (R289), with the CT it performs, and the cluster and
command it comes from. -/
structure WinWrite where
  addr : Nat
  byte : Byte
  at' : Nat
  src : Option (Nat × Nat)
  /-- The CT by which a copy's byte performs, whatever the program does at its bank: the command's C, where it binds (R23, R211). -/
  by' : Option Nat
deriving DecidableEq, Repr

/-- A merge input of a pennant: arrivals and units performing at a CT (R230, R231), and the clocks a credit of another cluster carries
(R302). -/
structure PenUpd where
  addr : Nat
  arr : Nat
  units : Nat
  at' : Nat
  vc : List (BitVec 20)
deriving DecidableEq, Repr

/-- A PINI on its way (R138). -/
structure PenInit where
  addr : Nat
  word : Word
  perf : Nat
  issue : Nat
deriving DecidableEq, Repr

/-- A drain in flight on the cores of a mask (R250 to R258). -/
structure Drain where
  kind1 : Bool
  bank : BitVec 2
  issue : Nat
  /-- The cycle its outcome takes effect at: t + 100, t + 108 or t + 120. -/
  done : Nat
  cores : BitVec 256
  tm : BitVec 4
  col : Option (BitVec 4 × BitVec 16)
  /-- Bytes of the tile by cluster scratchpad address, empty when the drain traps. -/
  out : List (Nat × Byte)
  /-- MDRNK: the registers it writes, by core, physical number and value. -/
  regs : List (Nat × Nat × BitVec 1024)
  /-- AMAX folds in drain order: each block's largest magnitude as f32 (R232). -/
  folds : List (BitVec 32)
  bflag : Bool
  /-- Status records by core, without their counters (Table 15-6). -/
  stat : List (Nat × BitVec 1024)
  origin : Origin
  /-- Its M word, and by core the snapshot X with LIN and STALE as of its issue (R250, Table 23-4). -/
  instr : Instr
  snap : List (Nat × SMap (BitVec 32) × Bool × Bool)
deriving DecidableEq, Repr

/-- The part of the sequencer state that entering a handler banks, with the images captured (R343, R344). -/
structure Banked where
  pc : BitVec 57
  cmsk : BitVec 256
  loops : List LoopLv
  lc : List (BitVec 32)
  rrbv : BitVec 5
  rrbp : BitVec 3
  gqctl : Bool
  simg : List SEntry
  tmw : List TmWrite
  ftw : List FtWrite
  pipes : List (List PEntry)
  inits : List PenInit
  parrs : List PenUpd
  pend : List PendFault
  cps : List CpTrap
  /-- Port reads of repetitions to come: cycle, port, register, with bit 6 set for the mapped v31 (R92). -/
  ports : List (Nat × BitVec 2 × BitVec 7)
  /-- Lane groups of repetitions to come (R95). -/
  groups : List (Nat × BitVec 4)
  lastD : Option Nat
  lastMchk : Option Nat
  lastBf : Option Nat
  delay : Option (BitVec 57 × Nat)
  nopLeft : Nat
  /-- Array work in flight of the run, held while the handler runs (R343). -/
  streams : List (List Stream)
  loads : List (List PlaneLoad)
  bankUpds : List (List BankUpd)
  drains : List Drain
  lastStream : List (SMap Nat)
  inputFree : List Nat
  diagFree : List Nat
  /-- The trap was taken inside END's engine wait (R346). -/
  inEnd : Bool
  aq : Bool
deriving DecidableEq, Repr

/-- Who a run is (R36, R43), and the descriptor it started under (R305). -/
structure RunId where
  task : Nat
  gang : Nat
  member : Nat
  leaf : Nat
  ctx : BitVec 12
  desc : BitVec 64
  prio : BitVec 3
  rngm : BitVec 2
  ckpt : Nat
  tgSize : Nat
  startCt : Nat
  /-- Supervisor privilege of a maintenance run (R365). -/
  priv : Bool
  /-- Records of the generator log written, and the flag of a log that ran out (R390). -/
  logged : Nat
  logFlag : Bool
deriving DecidableEq, Repr

/-- Where a maintenance run stands: MDIAG to issue, its result awaited, then failed k-rows to retire with the cores they failed on (R365). -/
inductive MaintSt where
  | off | start | diag | rows (l : List (Nat × BitVec 256))
deriving DecidableEq, Repr

/-- Debug requests under way (R358). -/
inductive DbgSt where
  | off | halt | step | stepped
deriving DecidableEq, Repr

/-- One cluster (R17). -/
structure Cluster where
  pc : BitVec 57
  s : List Word
  b : BitVec 8
  e : List (BitVec 16)
  lc : List (BitVec 32)
  /-- Active loop levels, innermost first (R133). -/
  loops : List LoopLv
  rrbv : BitVec 5
  rrbp : BitVec 3
  gqctl : Bool
  slipmax : BitVec 21
  holdmax : Nat
  cmsk : BitVec 256
  /-- Unfrozen cycles since the run's first bundle; DT is this modulo 2^48 (R27, R28). -/
  dt : Nat
  trapcause : Word
  trappc : Word
  trapdt : Word
  trapopc : Word
  traphnd : Word
  errinj : Word
  lvlix : List (BitVec 20)
  /-- A taken transfer's target and its delay bundles still to issue (R131). -/
  delay : Option (BitVec 57 × Nat)
  /-- The link register of a CALL whose delay bundles could not be read as it issued, and whether a handler's: its value follows as they issue (R131). -/
  linkPend : Option (BitVec 5 × Bool)
  /-- Cycles a NOPN has still to fill (R136). -/
  nopLeft : Nat
  /-- Address of the bundle after the one at PC, as its S slot leaves it (R130 to R134). -/
  next : BitVec 57
  /-- Handler cycles since entry (R344). -/
  hc : Nat
  /-- Code window: line number and its 64 bytes (R18, R87). -/
  win : List (Nat × BitVec 512)
  /-- Fetches under way: line and the CT it arrives (R18). -/
  fetches : List (Nat × Nat)
  /-- Lines whose fetch met a translation fault (R309). -/
  fetchFault : List (Nat × TrapInfo)
  simg : List SEntry
  tmw : List TmWrite
  ftw : List FtWrite
  pend : List PendFault
  cps : List CpTrap
  holds : List Hold
  /-- A slip's start CT (R46). -/
  slip : Option Nat
  /-- A pre-emption freeze is in force (R352). -/
  frozenPre : Bool
  halted : Bool
  /-- CT of the latest freeze or halt (Table 23-4). -/
  freezeCt : Nat
  /-- The maintenance run's next step (R365). -/
  maint : MaintSt
  /-- A halt asked for, or a STEP and whether its bundle has issued (R358). -/
  dbg : DbgSt
  /-- CT at which a throttle hold ends (R386, R387). -/
  throttle : Nat
  handler : Option Banked
  /-- Port reads of repetitions to come: cycle, port, register, with bit 6 set for the mapped v31 (R92). -/
  ports : List (Nat × BitVec 2 × BitVec 7)
  /-- Lane groups of repetitions to come (R95). -/
  groups : List (Nat × BitVec 4)
  lastD : Option Nat
  lastMchk : Option Nat
  lastBf : Option Nat
  preReq : Bool
  run : Option RunId
  prevCtx : Option (BitVec 12)
  /-- TTSYNC arrival CT (R48). -/
  tts : Option Nat
  /-- Clock as cycles of DT in each 1,700 CT cycles, and the count of the divider (R29, R386). -/
  clock : Nat
  clockAcc : Nat
  /-- Cycles of the cluster's clock so far, frozen ones among them (R29). -/
  ticks : Nat
  inService : Bool
  tm : SMap Word
  /-- Maps written since the last save (R355). -/
  tmDirty : BitVec 16
  buf : List Cmd
  active : List Active
  /-- Start bound plus stream of the previous started command, and the clock cycle its streaming ends in (R29, R209, R210). -/
  lastStart : Nat
  lastStream : Nat
  doneCmds : List DoneCmd
  nextCmd : Nat
  addrQ : List (BitVec 32)
  unclaimed : Int
  egen : Gen
  winW : List WinWrite
  inits : List PenInit
  /-- PARRs on their way: the cycle of own time they perform at is at'. -/
  parrs : List PenUpd
  penUpds : List PenUpd
  posted : List Posted
  /-- Failures of the elements of a VUPD under way: its group, the element and the fault (R173). -/
  grpFault : List (Nat × Nat × PendFault)
  nextPost : Nat
  /-- FENCE releases still to be performed: the scope, whether an acquire follows, and the number the run's next posted access had (R147). -/
  relAfter : List (Scope × Bool × Nat)
  /-- The scope of a FENCE release that the next ATOM or BSET carries (R147, Table 19-2). -/
  relFence : Option Scope
  /-- Relaxed ATOM reads since the last acquire, by location: the scopes and clocks its sidecar held then (Table 19-2). -/
  relaxed : SMap (BitVec 8 × List (BitVec 20))
  upd : SMap UpdWord
  /-- Far-cache lines of peer memory, last used first (R298). -/
  far : List PeerLine
  /-- Clocks of the credits each pennant has received since its last flip, and of those its flips have consumed (R302). -/
  penAcc : SMap (List (BitVec 20))
  penVc : SMap (List (BitVec 20))
  drains : List Drain
  vc : List (BitVec 20)
  tlb : List (BitVec 12 × Nat × BitVec 64 × Nat)
  ending : Bool
  /-- RFT waits for what the handler has in flight (R346). -/
  rft : Bool
  /-- A cycle of own time has passed in this CT cycle (R27). -/
  issued : Bool
  /-- Words of the sequencer and the tensor maps that hold an uncorrectable error, until they are written (R360). -/
  hurt : List SeqWord
  /-- A fault found by a holding access while another hold lasts (R336). -/
  holdFault : Option PendFault
  /-- A TRAP whose bundle still holds: its code and bundle (R153). -/
  soft : Option (BitVec 16 × BitVec 57)
  cores : List Core
deriving DecidableEq, Repr

/-- Gang states (Table 3-6). -/
inductive GangSt where
  | queued | blocked | ready | reserving | running | frozen | ended
deriving DecidableEq, Repr

/-- A run's state saved by a pre-emption freeze, structured, beside its byte images in the area (R353 to R356). -/
structure Saved where
  cluster : Cluster
  leaf : Nat
deriving DecidableEq, Repr

structure Gang where
  idx : Nat
  st : GangSt
  /-- The clusters its live runs stand on. -/
  clusters : List Nat
  startCt : Nat
  /-- When it became dispatchable but for its windows (R49). -/
  blockedAt : Nat
  saved : List Saved
  /-- A pre-emption of it is under way: its runs are being frozen and saved. -/
  saving : Bool
deriving DecidableEq, Repr

/-- Where a record came from, and where its final status goes (R39, R393, R385, R152, R42). -/
inductive TaskSrc where
  | window (w : BitVec 4) (tag : BitVec 32)
  | mailbox
  | lnch
  | forwarded (sender : BitVec 12)
deriving DecidableEq, Repr

structure Task where
  id : Nat
  rcd : BitVec 1024
  src : TaskSrc
  ctx : BitVec 12
  fabricPos : Nat
  /-- Queue it stands in and cycles waited in it (R55). -/
  queue : Nat
  arrival : Nat
  waited : Nat
  /-- Its place among all records as they arrived, by which one gang is older than another (R57). -/
  born : Nat
  nextGang : Nat
  /-- Gangs of the task, and those reached so far that have not ended. -/
  total : Nat
  gangs : List Gang
  /-- Die and cluster, each plus 1, that an instance of a QUEUE level of those domains runs on (R34). -/
  dieHome : SMap Nat
  clHome : SMap Nat
  /-- It is to return to the queue of its PRIO (R55). -/
  returning : Bool
  /-- Final code the task will end with once no run is left (R49, R53). -/
  stop : Option Nat
  /-- CT of the next read of a blocked gang's windows (R49). -/
  reread : Nat
  /-- Runs that have ended, by their leaf index (R40). -/
  done : SMap Bool
  /-- Its record in the launch queue holds an uncorrectable error (Table 25-1). -/
  bad : Bool
deriving DecidableEq, Repr

/-- A host launch window (Table 27-1). -/
structure LaunchWin where
  /-- The CT of the DOOR write under way, and its place among all arrivals (R44, R385). -/
  doorCt : Nat
  doorSeq : Nat
  rcd : BitVec 1024
  tag : BitVec 32
  busy : Bool
  substTag : BitVec 32
  code : BitVec 8
  chead : BitVec 6
  ctail : BitVec 6
  bound : Option (BitVec 12)
  cring : List (BitVec 64)
deriving DecidableEq, Repr

inductive BzState where
  | unbound | idle | running | stopped | fault
deriving DecidableEq, Repr

/-- A Bozoak context (R310, Table 21-1). -/
structure BzCtx where
  bind : Word
  desc : Word
  cause : BitVec 8
  st : BzState
  pc : BitVec 57
  g : List (BitVec 32)
  loops : List (BitVec 3 × BitVec 32 × BitVec 57)
  sig : SMap (BitVec 32)
  barGen : Nat
  counts : SMap Nat
  /-- The descriptor, peer table and chunk table as START read them (R313). -/
  dsc : BitVec 512
  peers : List Word
  chunks : List Word
  /-- STOP waits for deliveries in flight (R312). -/
  stopping : Bool
  /-- A delivery reached a full slot (R333). -/
  overrun : Bool
  /-- Landing slots, then the signal words as one, that something other than a delivery has written (R317). -/
  lzBad : List Nat
  /-- The BAR at PC has arrived (R332). -/
  arrived : Bool
  /-- A SIG under way: its acknowledgement's CT. -/
  sigDue : Option Nat
deriving DecidableEq, Repr

/-- A delivery in the background (R323), with the CTXID it is made for (R335). -/
structure Delivery where
  id : Nat
  k : BitVec 4
  ctx : BitVec 12
  dev : BitVec 12
  slotOff : Nat
  bytes : List Byte
  header : List Byte
  due : Nat
deriving DecidableEq, Repr

/-- What the device sends out (R42, R332, R342, R378, R393). -/
inductive OutMsg where
  | peerWrite (dev : BitVec 12) (off : Nat) (bytes : List Byte)
  | forward (dev : BitVec 12) (rcd : BitVec 1024) (pos : Nat)
  | refuse (dev : BitVec 12) (code : Nat)
  | killdone (ctx : BitVec 12)
  | barArrive (dev : BitVec 12) (k : BitVec 4) (gen : Nat)
  | peerAdd (dev : BitVec 12) (off : Nat)
  | report (cause pc dt opc hnd : Word) (ctx : BitVec 12) (leaf ct : Nat) (wtag : BitVec 24) (syn : BitVec 56)
  | mailbox (code : Nat)
  | abort (dev : BitVec 12)
  | data (bytes : List Byte)
  | spdm (code : Nat) (bytes : List Byte)
  | dbg (v : BitVec 2048)
  | image (bytes : List Byte)
  | refused
  | busy
  | tlbDone (ctx : BitVec 12) (lo hi : BitVec 57)
  | backInvalidate
  | sramError (unit cluster addr : Nat)
deriving DecidableEq, Repr

/-- Handover in progress (R373, R380, R381). -/
structure Handover where
  nonce : BitVec 256
  step : Nat
  ctStart : Nat
  /-- CT the step began at, and the CT its own work is done at. -/
  begun : Nat
  stepCt : Nat
  failed : Bool
  /-- Stacks with a granule the sweep could not write (R375), and the clusters out of service before the health test (R379). -/
  bad : BitVec 8
  out : BitVec 16
  /-- The report's signed bytes as the health test formed them. -/
  body : List Byte
deriving DecidableEq, Repr

/-- An SPDM session (R378). -/
structure Session where
  id : Nat
  secret : BitVec 384
  live : Bool
deriving DecidableEq, Repr

/-- Whose operation a turn carries out: cluster, slot, or Bozoak context. -/
structure Cur where
  cl : Nat
  slot : Slot
  bz : Nat
deriving DecidableEq, Repr

/-- Turns of a CT cycle: an event; a cluster's holds, its cycle of own time, its bundle, its copy engine; Halyard's part; a
Bozoak context's word; and whether a cluster's bundle issues in the cycle or freezes it. -/
inductive Turn where
  | event (i : Instr)
  | holds (c : Nat)
  | cycle (c : Nat)
  | issue (c : Nat)
  | engine (c : Nat)
  | halyard
  | bzFetch (k : Nat)
  | probe (c : Nat)
deriving DecidableEq, Repr

/-- The state of the device. -/
structure State where
  /-- Chip time (R26). -/
  ct : Nat
  clusters : List Cluster
  /-- Device HBM bytes, unlisted 0 (R24, R375). -/
  mem : List Host.Cell
  /-- Writer tags by granule, unlisted 0 (R302). -/
  wtag : SMap (BitVec 24)
  /-- Poisoned granules of device memory (R361), and of peers' by PA as far as this device poisoned them (Table 25-1). -/
  poison : SMap Bool
  /-- Host memory and peer devices' HBM as this device sees them, by PA, unlisted 0 (R304; log entry 4). -/
  outer : List Host.Cell
  /-- Bytes of device memory that the host has written, as it last left them (R356; log entry 45). -/
  hostPut : SMap (Option Byte)
  /-- RDC lines of peer memory by die, last used first (R25, R298). -/
  rdc : List (List PeerLine)
  /-- Sidecars by sync location, and the scopes of the releases they hold: bit d, a DIE release of die d; bit 4 + d, a wider one (R302). -/
  sidecar : SMap (List (BitVec 20))
  sideScope : SMap (BitVec 8)
  /-- CVEC of each context (R302). -/
  cvec : SMap (List (BitVec 20))
  ctxTab : SMap Word
  inWin : List (BitVec 128)
  snap : List (BitVec 512)
  stlb : List (Nat × BitVec 12 × Nat × BitVec 64 × Nat)
  tlbInv : List (BitVec 12 × BitVec 57 × BitVec 57)
  ageq : BitVec 32
  tasks : List Task
  nextTask : Nat
  reserve : Option (Nat × Nat × BitVec 16)
  /-- The holder of the reservation has chosen victims (R57). -/
  reservePre : Bool
  /-- Clusters that an accepted maintenance run waits for (R365, R393). -/
  maintWait : BitVec 16
  killing : List (BitVec 12)
  /-- The CT of the last kill: pennant credits of before it have performed when KILLDONE comes (R59). -/
  killCt : Nat
  wins : List LaunchWin
  /-- Bindings of a sender's CTXID to a local one (R42): sender, its CTXID, local CTXID. -/
  fabBind : List (BitVec 12 × BitVec 12 × BitVec 12)
  bz : List BzCtx
  bzTurn : Nat
  /-- The BARs that members have started since their START, by 1,024 times the landing zone of the member told plus the rank that started them (R332). -/
  barIn : SMap Nat
  deliveries : List Delivery
  nextDelivery : Nat
  pcap : BitVec 32
  /-- Watts granted in the present window to clusters 0 to 15, HBM stacks 0 to 7 and ports 0 to 7 (R15, R386). -/
  grants : List Nat
  droopUsed : List Nat
  twarn : BitVec 16
  tcrit : BitVec 16
  /-- Thermal sensors in degrees C, as sampled: die d's at 64 d to 64 d + 63, Halyard's 16 from 256 on (R388). -/
  sensors : List Nat
  /-- Droop detectors' voltages and ring oscillators' process codes, as sampled, die d's at 16 d to 16 d + 15 (R15, R388). -/
  volts : List Nat
  procs : List Nat
  sourceFail : List Bool
  errLog : List (BitVec 128)
  /-- Records of the log from before the last reset, when CT began again (R364, R391). -/
  logOld : Nat
  colthr : BitVec 32
  colwin : BitVec 32
  spare : SMap (BitVec 32)
  /-- Non-volatile service record: dies recorded out, over-temperature events (R368, R388). -/
  svcOut : BitVec 4
  svcHot : Nat
  dieOut : BitVec 4
  /-- Links failed beyond repair: ring 0 to 3, Halyard 4 to 7 (R367, R368). -/
  linkBad : BitVec 8
  portUp : BitVec 8
  /-- HBM stacks that have failed, 2 × die + PA[8] (R24, R379). -/
  stackBad : BitVec 8
  errCount : Nat
  /-- Correctable errors counted by unit (R360). -/
  unitErrs : SMap Nat
  hand : Option Handover
  report : BitVec 8192
  meas : List (BitVec 256)
  /-- IDE keys by stream: twice the port, and 1 for the link stream (R383). -/
  ideKeys : List (Nat × BitVec 256)
  sessions : List Session
  nextSession : Nat
  /-- The launch unit accepts records (R391 step 8). -/
  ready : Bool
  failed : Bool
  inputs : List (Nat × Instr)
  outbox : List OutMsg
  agenda : List Turn
  cur : Cur
  /-- Counter of the free values taken (log entry 7). -/
  fresh : Nat
deriving DecidableEq, Repr

/-- Why a step stops. No rule of the manual gives a bundle, word or event without an effect, so no meaning answers with it;
raised by a turn alone, and safe. -/
inductive Fault where
  /-- The turn names a unit that does not exist; raised by the step on no state that reset or a step leaves; safe. -/
  | noUnit
deriving DecidableEq, Repr

/-- Why an instruction is refused. -/
inductive Refusal where
  /-- Raised by exec for a constructor that has no meaning yet; safe. -/
  | notModelled (mnemonic : String)
deriving DecidableEq, Repr

/-- A plane of no format (R234). -/
def Plane.empty : Plane := ⟨.none, [], [], []⟩

/-- The reset format table (Table 5-7). -/
def resetFt : List (BitVec 64) :=
  [0x01FE0155#64, 0x021E0133#64, 0x021E0067#64, 0x025E0011#64, 0x025E0111#64, 0x01FE8555#64, 0x021E0333#64, 0x025E1011#64]

/-- The drain status record's reset value: ROW and COL 0xFF (Table 15-6). -/
def resetDstat : BitVec 1024 := 0x00FFFF00#1024

/-- A core at reset (R374, R43). -/
def Core.reset : Core where
  v := List.replicate 64 0#1024
  p := List.replicate 16 0#128
  a := List.replicate 16 0#32
  dPts := List.replicate 8 0#2048
  dWords := List.replicate 8 0#128
  ft := resetFt
  m := []
  lin := 0xF#4
  stale := 0#4
  edge := []
  plane0 := Plane.empty
  plane1 := Plane.empty
  spm := []
  spTag := []
  bst := []
  bstTag := []
  poisonOrg := []
  gq := []
  dstat := resetDstat
  pipe := []
  streams := []
  loads := []
  bankUpds := []
  lastStream := []
  inputFree := 0
  diagFree := 0
  retired := []
  gen := ⟨0#256, 0, 0, 0#256⟩
  bad := []
  hurt := []
  upset := 0#128
  dirty := []
  dirtyAll := true

/-- A cluster at reset (R374, R43, Tables 3-5 and 7-3). -/
def Cluster.reset : Cluster where
  pc := 0#57
  s := List.replicate 32 0#64
  b := 0#8
  e := List.replicate 8 0#16
  lc := List.replicate 6 0#32
  loops := []
  rrbv := 0#5
  rrbp := 0#3
  gqctl := false
  slipmax := 4096#21
  holdmax := 0x100000000
  cmsk := BitVec.allOnes 256
  dt := 0
  trapcause := 0#64
  trappc := 0#64
  trapdt := 0#64
  trapopc := 0#64
  traphnd := 0#64
  errinj := 0#64
  lvlix := List.replicate 8 0#20
  delay := none
  linkPend := none
  nopLeft := 0
  next := 0#57
  hc := 0
  win := []
  fetches := []
  fetchFault := []
  simg := []
  tmw := []
  ftw := []
  pend := []
  cps := []
  holds := []
  slip := none
  frozenPre := false
  halted := false
  freezeCt := 0
  maint := .off
  dbg := .off
  throttle := 0
  handler := none
  ports := []
  groups := []
  lastD := none
  lastMchk := none
  lastBf := none
  preReq := false
  run := none
  prevCtx := none
  tts := none
  clock := 1700
  clockAcc := 0
  ticks := 0
  inService := true
  tm := []
  tmDirty := BitVec.allOnes 16
  buf := []
  active := []
  lastStart := 0
  lastStream := 0
  doneCmds := []
  nextCmd := 0
  addrQ := []
  unclaimed := 0
  egen := ⟨0#256, 0, 0, 0#256⟩
  winW := []
  inits := []
  parrs := []
  penUpds := []
  posted := []
  grpFault := []
  nextPost := 0
  relAfter := []
  relFence := none
  relaxed := []
  upd := []
  far := []
  penAcc := []
  penVc := []
  drains := []
  vc := List.replicate 16 0#20
  tlb := []
  ending := false
  rft := false
  issued := false
  hurt := []
  holdFault := none
  soft := none
  cores := List.replicate 256 Core.reset

/-- A launch window at reset (Table 27-1). -/
def LaunchWin.reset : LaunchWin := ⟨0, 0, 0#1024, 0#32, false, 0#32, 0#8, 0#6, 0#6, none, List.replicate 64 0#64⟩

/-- A Bozoak context at reset (Table 21-1). -/
def BzCtx.reset : BzCtx where
  bind := 0#64
  desc := 0#64
  cause := 0#8
  st := .unbound
  pc := 0#57
  g := List.replicate 8 0#32
  loops := []
  sig := []
  barGen := 0
  counts := []
  dsc := 0#512
  peers := []
  chunks := []
  stopping := false
  overrun := false
  lzBad := []
  arrived := false
  sigDue := none

/-- The measurement slots after a boot: slots 0 to 6 extended from zero, slots 5 and 6 with the digests given (R377, Table 25-6). -/
def bootMeas (service security : BitVec 256) : List (BitVec 256) :=
  (List.range 16).map fun i =>
    if i < 7 then sha256 (digestBytes 0#256 ++ digestBytes (if i = 5 then service else if i = 6 then security else Config.imageDigest i)) else 0#256

/-- The device right after reset, the launch unit accepting records (R391 step 8); registers without a reset value in the
spec: log entries 1 to 8. -/
def State.reset : State where
  ct := 0
  clusters := List.replicate 16 Cluster.reset
  mem := []
  wtag := []
  poison := []
  outer := []
  hostPut := []
  rdc := List.replicate 4 []
  sidecar := []
  sideScope := []
  cvec := []
  ctxTab := []
  inWin := List.replicate 16 0#128
  snap := List.replicate 16 0#512
  stlb := []
  tlbInv := []
  ageq := 2000#32
  tasks := []
  nextTask := 0
  reserve := none
  reservePre := false
  maintWait := 0#16
  killing := []
  killCt := 0
  wins := List.replicate 16 LaunchWin.reset
  fabBind := []
  bz := List.replicate 16 BzCtx.reset
  bzTurn := 0
  barIn := []
  deliveries := []
  nextDelivery := 0
  pcap := 2600#32
  grants := List.replicate 32 0
  droopUsed := List.replicate 16 0
  twarn := 95#16
  tcrit := 110#16
  sensors := List.replicate 272 0
  volts := List.replicate 64 0
  procs := List.replicate 64 0
  sourceFail := List.replicate 16 false
  errLog := []
  logOld := 0
  colthr := 3#32
  colwin := 60#32
  spare := []
  svcOut := 0#4
  svcHot := 0
  dieOut := 0#4
  linkBad := 0#8
  portUp := 0xFF#8
  stackBad := 0#8
  errCount := 0
  unitErrs := []
  hand := none
  report := 0#8192
  meas := bootMeas (Config.serviceDigest (List.replicate 4096 0#32) 0#4 0) (Config.securityDigest [])
  ideKeys := []
  sessions := []
  nextSession := 0
  ready := true
  failed := false
  inputs := []
  outbox := []
  agenda := []
  cur := ⟨0, .s, 0⟩
  fresh := 0

end Sys2Proof.Machine
end

