-- ==== Sys2Proof/Machine/Ops.lean ====
section
/-!
DEFINITION. The named operations over the state: sparse tables, clusters and cores, results in flight (R96), time (R27, R344),
physical memory with snapshots and update-only lines (R295, R304, R370), translation (R306), race detection (R302), taking a trap
and returning from one (R336 to R346), and the end of a run in a fault (R53).
-/
namespace Sys2Proof.Machine

/-! ### Sparse tables -/

/-- The value at a key; the default where none is listed. -/
def sget {α : Type} (d : α) (k : Nat) : SMap α → α
  | [] => d
  | (i, x) :: t => if k < i then d else if k = i then x else sget d k t

/-- Set the value at a key, keeping the canonical form. -/
def sput {α : Type} [DecidableEq α] (d : α) (k : Nat) (x : α) : SMap α → SMap α
  | [] => if x = d then [] else [(k, x)]
  | (i, y) :: t =>
    if k < i then (if x = d then (i, y) :: t else (k, x) :: (i, y) :: t)
    else if k = i then (if x = d then t else (k, x) :: t)
    else (i, y) :: sput d k x t

/-- Values put over the keys from k on, where no listed key lies below k. -/
def soverlay {α : Type} [DecidableEq α] (d : α) : Nat → List α → SMap α → SMap α
  | _, [], m => m
  | k, x :: xs, m =>
    let rest := match m with
      | (i, y) :: t => if i = k then t else (i, y) :: t
      | [] => []
    if x = d then soverlay d (k + 1) xs rest else (k, x) :: soverlay d (k + 1) xs rest
/-- Set the values of consecutive keys from k on, keeping the canonical form. -/
def sputs {α : Type} [DecidableEq α] (d : α) (k : Nat) (xs : List α) : SMap α → SMap α
  | [] => soverlay d k xs []
  | (i, y) :: t => if i < k then (i, y) :: sputs d k xs t else soverlay d k xs ((i, y) :: t)

/-- Keys rise strictly from a bound on and no entry is the default. -/
def swfFrom {α : Type} [DecidableEq α] (d : α) : Nat → SMap α → Bool
  | _, [] => true
  | lo, (i, x) :: t => decide (lo ≤ i) && decide (x ≠ d) && swfFrom d (i + 1) t

/-- Canonical form. -/
def swf {α : Type} [DecidableEq α] (d : α) (m : SMap α) : Bool := swfFrom d 0 m

/-- One byte of a memory; unlisted bytes read 0 (R374, R375). -/
def rdByte (m : List Host.Cell) (a : Nat) : Byte := sget 0#8 a m
def wrByte (m : List Host.Cell) (a : Nat) (b : Byte) : List Host.Cell := sput 0#8 a b m

/-- n bytes from an address on. -/
def rdBytes (m : List Host.Cell) (a n : Nat) : List Byte := (List.range n).map fun i => rdByte m (a + i)
def wrBytes (m : List Host.Cell) (a : Nat) (bs : List Byte) : List Host.Cell := sputs 0#8 a bs m

/-- The canonical form of a memory. -/
abbrev Memory.wf (m : List Host.Cell) : Bool := swf 0#8 m

/-- A list without the later ones of elements with one key. -/
def dedup {α : Type} (key : α → Nat) (l : List α) : List α :=
  (l.foldl (fun (acc, seen) x => if seen.contains (key x) then (acc, seen) else (x :: acc, seen.insert (key x))) (([] : List α), (∅ : Std.TreeSet Nat))).1.reverse

/-- Insert in order of issue, after equals. -/
def insBy {α : Type} (key : α → Nat) (x : α) : List α → List α
  | [] => [x]
  | y :: r => if key x < key y then x :: y :: r else y :: insBy key x r
def sortBy {α : Type} (key : α → Nat) (xs : List α) : List α := xs.foldl (fun acc x => insBy key x acc) []

/-- Keys of the bytes and granules of copies. -/
def CopyTarget.key : CopyTarget → Nat
  | .mem va => 4 * va
  | .sp c a => 4 * (2 ^ 26 * c + a) + 1
  | .bs k o => 4 * (2 ^ 19 * k + o) + 2
def Gran.key : Gran → Nat
  | .va g => 4 * g
  | .sp c g => 4 * (2 ^ 26 * c + g) + 1
  | .bs k g => 4 * (2 ^ 19 * k + g) + 2

/-! ### Clusters and cores -/

def State.cl (s : State) (c : Nat) : Cluster := s.clusters.getD c Cluster.reset
def State.setCl (s : State) (c : Nat) (k : Cluster) : State := { s with clusters := s.clusters.set c k }
def State.onCl (s : State) (c : Nat) (f : Cluster → Cluster) : State := s.setCl c (f (s.cl c))

/-- The cluster the current turn is for. -/
def State.me (s : State) : Cluster := s.cl s.cur.cl
def State.onMe (s : State) (f : Cluster → Cluster) : State := s.onCl s.cur.cl f

def Cluster.core (k : Cluster) (i : Nat) : Core := k.cores.getD i Core.reset
def Cluster.onCore (k : Cluster) (i : Nat) (f : Core → Core) : Cluster := { k with cores := k.cores.set i (f (k.core i)) }
/-- Change the cores with work of a kind: those without any are as they were. -/
def Cluster.onBusy (k : Cluster) (busy : Core → Bool) (f : Core → Core) : Cluster :=
  if k.cores.any busy then { k with cores := k.cores.map fun x => if busy x then f x else x } else k
/-- Change every core of a mask. -/
def Cluster.onCores (k : Cluster) (mask : BitVec 256) (f : Nat → Core → Core) : Cluster :=
  { k with cores := k.cores.zipIdx.map fun (x, i) => if mask.getLsbD i then f i x else x }
/-- Change every active core (R19). -/
def Cluster.onActive (k : Cluster) (f : Nat → Core → Core) : Cluster := k.onCores k.cmsk f
/-- Indices of the active cores, ascending. -/
def Cluster.activeIdx (k : Cluster) : List Nat := (List.range 256).filter fun i => k.cmsk.getLsbD i

/-- A free value of the next counter, and the state with the counter advanced (log entry 7). -/
def State.free (s : State) : Nat × State := (Config.freeNat s.fresh, { s with fresh := s.fresh + 1 })
/-- A free number from lo to hi. -/
def State.freeIn (s : State) (lo hi : Nat) : Nat × State :=
  let (n, s) := s.free
  (lo + n % (hi + 1 - lo), s)
/-- n free numbers from lo to hi. -/
def State.freeNats (s : State) (n lo hi : Nat) : List Nat × State :=
  ((List.range n).map fun i => lo + Config.freeNat (s.fresh + i) % (hi + 1 - lo), { s with fresh := s.fresh + n })
def State.freeBytes (s : State) (n : Nat) : List Byte × State :=
  ((List.range n).map fun i => Config.freeByte (s.fresh + i), { s with fresh := s.fresh + n })

/-- The cycle the cluster's program is in: DT, or handler cycles in handler mode (R344). -/
def Cluster.now (k : Cluster) : Nat := if k.handler.isSome then k.hc else k.dt
/-- DT as the 48-bit register shows it (R28). -/
def dtBits (n : Nat) : BitVec 48 := BitVec.ofNat 48 n

/-- The frozen state of R45: no cycle of the cluster's own time passes. -/
def Cluster.frozen (k : Cluster) : Bool :=
  k.halted || k.frozenPre || !k.holds.isEmpty || k.slip.isSome

/-! ### Registers and results in flight -/

def Cluster.sreg (k : Cluster) (i : BitVec 5) : Word := k.s.getD i.toNat 0#64
def Cluster.flag (k : Cluster) (i : BitVec 3) : Bool := k.b.getLsbD i.toNat

/-- Queue an S-slot result to land L cycles from now (R96, R124). -/
def Cluster.sLand (k : Cluster) (d : SDest) (v : BitVec 256) (lat : Nat) : Cluster :=
  { k with simg := k.simg ++ [⟨d, v, k.now + lat⟩] }
def Cluster.sWrite (k : Cluster) (i : BitVec 5) (v : Word) (lat : Nat) : Cluster := k.sLand (.s i) (v.setWidth 256) lat

/-- SLIPMAX as a write stores it: bits [20:0], values above 2^20 as 2^20 (Table 3-5). -/
def slipmaxOf (v : Word) : BitVec 21 :=
  let l := v.extractLsb' 0 21
  if l.toNat > 2 ^ 20 then 0x100000#21 else l

/-- Words of a core that a write gives new contents hold no error any more (R360). -/
def Core.heal (x : Core) (f : CoreWord → Bool) : Core := { x with hurt := x.hurt.filter fun w => !f w }
/-- A word of the sequencer is written. -/
def Cluster.heal (k : Cluster) (w : SeqWord) : Cluster := { k with hurt := k.hurt.filter (· ≠ w) }

/-- Write a landing S-slot result. -/
def Cluster.landS (k : Cluster) (x : SEntry) : Cluster :=
  let w := x.val.setWidth 64
  let k := match x.dest with
    | .link i | .s i => k.heal (.s i) | .b i => k.heal (.b i) | .e i => k.heal (.e i) | .lc i => k.heal (.lc i)
    | .cmsk | .rrbv | .rrbp | .gqctl | .slipmax | .traphnd | .errinj => k
  match x.dest with
  | .link i => { k with s := k.s.set i.toNat w, linkPend := some (i, k.handler.isSome) }
  | .s i => { k with s := k.s.set i.toNat w, linkPend := k.linkPend.filter fun l => l.1 != i }
  | .b i => { k with b := if w.getLsbD 0 then k.b ||| (1#8 <<< i.toNat) else k.b &&& ~~~(1#8 <<< i.toNat) }
  | .e i => { k with e := k.e.set i.toNat (w.setWidth 16) }
  | .lc i => { k with lc := k.lc.set i (w.setWidth 32) }
  | .cmsk => { k with cmsk := x.val }
  | .rrbv => { k with rrbv := w.setWidth 5 }
  | .rrbp => { k with rrbp := w.setWidth 3 }
  | .gqctl => { k with gqctl := w.getLsbD 0 }
  | .slipmax => { k with slipmax := slipmaxOf w }
  | .traphnd => { k with traphnd := (w.setWidth 57 &&& 0x1FFFFFFFFFFFFC0#57).setWidth 64 }
  | .errinj => { k with errinj := w &&& 0xFFFFFFFC00000000#64 }

/-- The tensor-map field f of map t: key 64 t + f (Table 13-1). -/
def Cluster.tmField (k : Cluster) (t : BitVec 4) (f : Nat) : Word := sget 0#64 (64 * t.toNat + f) k.tm
/-- Write a field of a map, which is then to be saved (R355). -/
def Cluster.putTm (k : Cluster) (key : Nat) (v : Word) : Cluster :=
  { k.heal (.tm key) with tm := sput 0#64 key v k.tm, tmDirty := k.tmDirty ||| (1#16 <<< (key / 64)) }
/-- All 53 fields of a map, as a command keeps them (R198). -/
def Cluster.tmImage (k : Cluster) (t : BitVec 4) : List Word := (List.range 53).map (k.tmField t)

/-- Bits of a tensor-map field (Table 13-1). -/
def tmWidth (f : Nat) : Nat :=
  if f = 0 ∨ f = 1 ∨ f = 44 ∨ f = 46 then 57
  else if f = 2 ∨ f = 3 ∨ f = 51 then 4
  else if f = 4 ∨ f = 6 ∨ f = 31 ∨ f = 33 then 3
  else if f = 5 ∨ f = 7 ∨ f = 40 ∨ f = 48 then 1
  else if f = 36 ∨ f = 39 ∨ f = 42 then 2
  else if f = 43 then 5
  else if (13 ≤ f ∧ f ≤ 16) ∨ f = 45 ∨ f = 47 then 40
  else if f = 17 ∨ f = 18 ∨ f = 30 then 16
  else if f = 19 ∨ f = 20 ∨ f = 22 then 19
  else if f = 21 then 18
  else if 26 ≤ f ∧ f ≤ 29 then 8
  else if f = 50 ∨ f = 52 then 26
  else 32

/-- The fields SHWI sign-extends (Table 13-1). -/
def tmSigned (f : Nat) : Bool := f == 32 || f == 34

/-- Physical number of an architectural vector register under a base (R90). -/
def physV (base : BitVec 5) (r : BitVec 6) : Nat :=
  if r.toNat < 32 then r.toNat else 32 + (r.toNat - 32 + base.toNat) % 32
/-- Physical number of an architectural predicate register under a base (R90). -/
def physP (base : BitVec 3) (r : BitVec 4) : Nat :=
  if r.toNat < 8 then r.toNat else 8 + (r.toNat - 8 + base.toNat) % 8

/-- A predicate register; p0 reads all ones (R20). -/
def Core.preg (x : Core) (phys : Nat) : BitVec 128 := if phys = 0 then BitVec.allOnes 128 else x.p.getD phys 0#128
def Core.vreg (x : Core) (phys : Nat) : BitVec 1024 := x.v.getD phys 0#1024
def Core.areg (x : Core) (i : BitVec 4) : BitVec 32 := x.a.getD i.toNat 0#32

/-- Mask a value's byte lanes into an old value: lanes with their bit set take the new bytes (R89). -/
def mergeLanes (n : Nat) {w : Nat} (old new : BitVec w) (mask : Nat) : BitVec w :=
  let full : Nat := (List.range n).foldl (fun m j => if mask.testBit j then m ||| (0xFF <<< (8 * j)) else m) 0
  let f := BitVec.ofNat w full
  (old &&& ~~~f) ||| (new &&& f)

/-- Mark a granule of the core written since the last save (R355). -/
def Core.touch (x : Core) (item idx : Nat) : Core :=
  if x.dirty.contains (item, idx) then x else { x with dirty := (item, idx) :: x.dirty }

/-- The count and tag words of a distribution register: bits [15:4] of each element's word are reserved and read zero (Table 17-1). -/
def dwClean (w : BitVec 128) : BitVec 128 := w &&& 0xFFFF000FFFFF000FFFFF000FFFFF000F#128

/-- The 64-bit words, of those that follow a number, that a mask of byte lanes covers whole (Table 25-1). -/
def wholeWords (first n : Nat) (mask : Nat) (i : Nat) : Bool := decide (first ≤ i ∧ i < first + n) && mask / 2 ^ (8 * (i - first)) % 256 == 255
/-- The words of a core that an entry writes whole (R360). -/
def landsOver (kind : PKind) (e : PEntry) : CoreWord → Bool
  | .v n => kind == .v && wholeWords (16 * e.dest + 4 * e.part) 4 e.mask.toNat n
  | .p n => kind == .p && n / 2 == e.dest && e.val.extractLsb' (128 + 64 * (n % 2)) 64 == BitVec.allOnes 64
  | .d n => (kind == .d && wholeWords (34 * e.dest + 4 * e.part) 4 e.mask.toNat n) || (kind == .dwords && wholeWords (34 * e.dest + 32) 2 e.mask.toNat n)
  | .a n => kind == .a && n == e.dest && e.mask.extractLsb' 0 4 == 0xF#4
  | .ft _ | .cell _ | .plane _ | .tag _ => false

/-- Land one register entry of the pipeline in its register (R96). -/
def Core.landReg (x : Core) (kind : PKind) (e : PEntry) : Core :=
  let x := x.heal (landsOver kind e)
  match kind with
  | .v =>
    let old := x.vreg e.dest
    let slice := mergeLanes 32 (old.extractLsb' (256 * e.part) 256) e.val e.mask.toNat
    let keep := old &&& ~~~((BitVec.allOnes 256).setWidth 1024 <<< (256 * e.part))
    ({ x with v := x.v.set e.dest (keep ||| (slice.setWidth 1024 <<< (256 * e.part))) }).touch 4 e.dest
  | .p =>
    if e.dest = 0 then x
    else
      -- a p entry holds the 128 predicate bits in VAL, and the bits written in the upper half
      let m := e.val.extractLsb' 128 128
      ({ x with p := x.p.set e.dest ((x.preg e.dest &&& ~~~m) ||| (e.val.setWidth 128 &&& m)) }).touch 6 e.dest
  | .d =>
    let old := x.dPts.getD e.dest 0#2048
    let keep := old &&& ~~~((BitVec.allOnes 256).setWidth 2048 <<< (256 * e.part))
    let slice := mergeLanes 32 (old.extractLsb' (256 * e.part) 256) e.val e.mask.toNat
    ({ x with dPts := x.dPts.set e.dest (keep ||| (slice.setWidth 2048 <<< (256 * e.part))) }).touch 5 e.dest
  | .dwords => ({ x with dWords := x.dWords.set e.dest (mergeLanes 16 (x.dWords.getD e.dest 0#128) (dwClean (e.val.setWidth 128)) e.mask.toNat) }).touch 5 e.dest
  | .a => { x with a := x.a.set e.dest (mergeLanes 4 (x.a.getD e.dest 0#32) (e.val.setWidth 32) e.mask.toNat) }
  | _ => x

/-- Byte lane j of a slice. -/
def laneByte (v : BitVec 256) (j : Nat) : Byte := v.extractLsb' (8 * j) 8

/-! ### Scratchpad and B-store bytes (R22) -/

/-- A byte at a cluster scratchpad address. -/
def Cluster.spByte (k : Cluster) (a : Nat) : Byte := rdByte (k.core (a / 2 ^ 18 % 256)).spm (a % 2 ^ 18)
def Cluster.spWrite (k : Cluster) (a : Nat) (b : Byte) : Cluster :=
  k.onCore (a / 2 ^ 18 % 256) fun x => ({ x with spm := wrByte x.spm (a % 2 ^ 18) b, bad := x.bad.filter (· ≠ a % 2 ^ 18) }).touch 0 (a % 2 ^ 18 / 4096)
def Cluster.spBytes (k : Cluster) (a n : Nat) : List Byte := (List.range n).map fun i => k.spByte (a + i)
def Cluster.spWord (k : Cluster) (a : Nat) : Word := BitVec.ofNat 64 (leNat (k.spBytes a 8))
/-- Bytes of one page of a scratchpad, from an address on. -/
def Cluster.spWriteRun (k : Cluster) (a : Nat) (bs : List Byte) : Cluster :=
  k.onCore (a / 2 ^ 18 % 256) fun x =>
    ({ x with spm := wrBytes x.spm (a % 2 ^ 18) bs, bad := x.bad.filter fun i => decide (i < a % 2 ^ 18 ∨ a % 2 ^ 18 + bs.length ≤ i) }).touch 0 (a % 2 ^ 18 / 4096)
/-- Writes in order as runs of consecutive bytes of one page each. -/
def runsOf : List (Nat × Byte) → List (Nat × List Byte)
  | [] => []
  | (a, b) :: t =>
    match runsOf t with
    | (i, bs) :: r => if i = a + 1 ∧ i % 4096 ≠ 0 then (a, b :: bs) :: r else (a, [b]) :: (i, bs) :: r
    | [] => [(a, [b])]
def Cluster.spWriteAll (k : Cluster) (ws : List (Nat × Byte)) : Cluster := (runsOf ws).foldl (fun (k : Cluster) (a, bs) => k.spWriteRun a bs) k
def Core.bsByte (x : Core) (a : Nat) : Byte := rdByte x.bst a
def Core.bsWrite (x : Core) (a : Nat) (b : Byte) : Core := ({ x with bst := wrByte x.bst a b, bad := x.bad.filter (· ≠ 2 ^ 18 + a) }).touch 1 (a / 4096)

/-! ### Pennants (R230, R231) -/

/-- Merge the arrivals and units of one cycle into a pennant word (R231). -/
def pennantMerge (w : Word) (a u : Nat) : Word :=
  if a = 0 ∧ u = 0 then w
  else
    let pa : Int := (w.extractLsb' 42 10).toNat - (a : Int)
    let pb : Int := (w.extractLsb' 0 21).toNat - (u : Int)
    let ovf := decide (pa < 0) || decide (pb < 0)
    let pa := if pa < 0 then 0 else pa.toNat
    let pb := if pb < 0 then 0 else pb.toNat
    let flip := pa == 0 && pb == 0
    let phase := w.getLsbD 63 != flip
    let pa := if flip then (w.extractLsb' 52 10).toNat else pa
    let pb := if flip then (w.extractLsb' 21 21).toNat else pb
    ofBit phase ++ ofBit (w.getLsbD 62 || ovf) ++ w.extractLsb' 52 10 ++ BitVec.ofNat 10 pa ++ w.extractLsb' 21 21 ++ BitVec.ofNat 21 pb

/-- The word PINI sets from its operand (R138, R230). -/
def pennantInit (v : Word) : Word :=
  let arr := v.extractLsb' 0 10
  let units : BitVec 21 := BitVec.ofNat 21 (((v.extractLsb' 10 24).toNat + 15) / 16)
  0#2 ++ arr ++ arr ++ units ++ units

/-! ### Physical memory (R24, R304) -/

/-- Targets of a physical address (Table 19-4). -/
inductive Target where
  | hbm (a : Nat)
  | window (c a : Nat)
  | penAlias (c a : Nat)
  | host (a : Nat)
  | peer (dev a : Nat)
deriving DecidableEq, Repr

/-- The unit a PA names; none where Table 19-4 lists nothing, or it lies on a die out of service (R367). -/
def State.target (s : State) (pa : Nat) : Option Target :=
  let top := pa / 2 ^ 50 % 4
  let lo := pa % 2 ^ 50
  if top = 0 then
    if lo < 2 ^ 39 then (if s.dieOut.getLsbD (lo / 2 ^ 37) then none else some (.hbm lo))
    else if lo < 2 ^ 39 + 2 ^ 31 then
      let o := lo - 2 ^ 39
      let c := o / 2 ^ 27
      let r := o % 2 ^ 27
      if s.dieOut.getLsbD (c / 4) then none
      else if r < 2 ^ 26 then some (.window c r) else some (.penAlias c (r - 2 ^ 26))
    else none
  else if top = 1 then some (.host lo)
  else some (.peer (pa / 2 ^ 39 % 4096) (pa % 2 ^ 39))

/-! Snapshot regions (R369, R370) -/

structure Snap where
  idx : Nat
  live : Nat
  shadow : Nat
  map0 : Nat
  map1 : Nat
  root : Nat
  pages : Nat
  ctx : BitVec 12
deriving DecidableEq, Repr

def snapOf (i : Nat) (d : BitVec 512) : Snap :=
  ⟨i, (d.extractLsb' 0 52).toNat, (d.extractLsb' 64 52).toNat, (d.extractLsb' 128 52).toNat, (d.extractLsb' 192 52).toNat,
   (d.extractLsb' 256 52).toNat, (d.extractLsb' 320 20).toNat + 1, d.extractLsb' 352 12⟩

def State.snaps (s : State) : List Snap := (s.snap.zipIdx.filter fun (d, _) => d.getLsbD 383).map fun (d, i) => snapOf i d

/-- Raw bytes of the stack, no redirection. -/
def State.raw (s : State) (a : Nat) : Byte := rdByte s.mem a
def State.rawWord (s : State) (a : Nat) : Word := BitVec.ofNat 64 (leNat (rdBytes s.mem a 8))

/-- Bit i of a snapshot map. -/
def State.mapBit (s : State) (base i : Nat) : Bool := (s.raw (base + i / 8)).getLsbD (i % 8)

def State.setMapBit (s : State) (base i : Nat) (v : Bool) : State :=
  let b := s.raw (base + i / 8)
  let m := 1#8 <<< (i % 8)
  { s with mem := wrByte s.mem (base + i / 8) (if v then b ||| m else b &&& ~~~m) }

/-- The snapshot region that holds an address of copy 0. -/
def State.snapAt (s : State) (a : Nat) : Option Snap :=
  s.snaps.find? fun r => decide (r.live ≤ a) && decide (a < r.live + 2 ^ 16 * r.pages)

/-- The address of copy c of the page of a live address. -/
def Snap.copyAddr (r : Snap) (a : Nat) (c : Bool) : Nat := if c then r.shadow + (a - r.live) else a

/-- Where a read of device memory goes (R370). -/
def State.readAddr (s : State) (a : Nat) : Nat :=
  match s.snapAt a with
  | none => a
  | some r =>
    let w := s.rawWord r.root
    let i := (a - r.live) / 2 ^ 16
    let m1 := w.getLsbD 0 != w.getLsbD 1   -- the committed map, or the other one while OPEN
    r.copyAddr a (s.mapBit (if m1 then r.map1 else r.map0) i)

/-- Copy n bytes, with the tag plane of their granules. -/
def State.copyRange (s : State) (src dst n : Nat) : State :=
  let s := { s with mem := wrBytes s.mem dst (rdBytes s.mem src n) }
  (List.range (n / 128)).foldl (fun s g =>
    { s with wtag := sput 0#24 (dst / 128 + g) (sget 0#24 (src / 128 + g) s.wtag) s.wtag,
             poison := sput false (dst / 128 + g) (sget false (src / 128 + g) s.poison) s.poison }) s

/-- Where a write of device memory goes, after the page copy it may cause (R370). -/
def State.writeAddr (s : State) (a : Nat) : State × Nat :=
  match s.snapAt a with
  | none => (s, a)
  | some r =>
    let w := s.rawWord r.root
    let i := (a - r.live) / 2 ^ 16
    let page := r.live + 2 ^ 16 * i
    let comMap := if w.getLsbD 0 then r.map1 else r.map0
    let workMap := if w.getLsbD 0 then r.map0 else r.map1
    let com := s.mapBit comMap i
    if !w.getLsbD 1 then (s, r.copyAddr a com)
    else if s.mapBit workMap i = com then
      let s := s.copyRange (r.copyAddr page com) (r.copyAddr page (!com)) (2 ^ 16)
      let s := s.setMapBit workMap i (!com)
      (s, r.copyAddr a (!com))
    else (s, r.copyAddr a (!com))

/-- A root word of an enabled region: only ATOM cas changes it (R371). -/
def State.isRoot (s : State) (a : Nat) : Bool := s.snaps.any fun r => decide (r.root ≤ a) && decide (a < r.root + 8)

/-! Update-only lines (R295, R296) -/

/-- Bytes of an update's element (Table 11-2). -/
def updBytes : UpdTy → Nat | .s64 | .n64 => 8 | _ => 4

/-- One update of an element (R145, R173): integers exactly, f32 adds by rne32, f32 extremes by R188 with any NaN canonical. -/
def updFold (op : UpdOp) (ty : UpdTy) (x y : Word) : Word :=
  let n := 8 * updBytes ty
  let sx := (x.toNat % 2 ^ n : Nat)
  let sy := (y.toNat % 2 ^ n : Nat)
  match ty with
  | .f32 =>
    let a := val32 (BitVec.ofNat 32 sx)
    let b := val32 (BitVec.ofNat 32 sy)
    match op with
    | .add => (code32 (Ext.add a b)).setWidth 64
    | .min => if a.isNan || b.isNan then canonNan32.setWidth 64 else BitVec.ofNat 64 (if rankBelow b a then sy else sx)
    | .max => if a.isNan || b.isNan then canonNan32.setWidth 64 else BitVec.ofNat 64 (if rankAbove b a then sy else sx)
    | _ => BitVec.ofNat 64 sx
  | _ =>
    let signed := ty == .s32 || ty == .s64
    let key (v : Nat) : Int := if signed ∧ v ≥ 2 ^ (n - 1) then (v : Int) - 2 ^ n else v
    match op with
    | .add => BitVec.ofNat 64 ((sx + sy) % 2 ^ n)
    | .min => BitVec.ofNat 64 (if key sy < key sx then sy else sx)
    | .max => BitVec.ofNat 64 (if key sy > key sx then sy else sx)
    | .and => BitVec.ofNat 64 (sx &&& sy)
    | .or => BitVec.ofNat 64 (sx ||| sy)
    | .xor => BitVec.ofNat 64 (sx ^^^ sy)

/-- Set the writer tag of a granule (R302). -/
def State.setTag (s : State) (a : Nat) (t : BitVec 24) : State := { s with wtag := sput 0#24 (a / 128) t s.wtag }

/-- Write raw bytes of device memory at the place R370 directs them to; bytes of a root word are discarded (R371). -/
def State.hbmPut (s : State) (a : Nat) : List Byte → State
  | [] => s
  | b :: bs =>
    let s := if s.isRoot a then s else
      let (s, p) := s.writeAddr a
      { s with mem := wrByte s.mem p b }
    State.hbmPut s (a + 1) bs

/-- Set the writer tag of the copy of a granule that a write goes to (R302, R370). -/
def State.tagAt (s : State) (a : Nat) (t : BitVec 24) : State := s.setTag (s.writeAddr a).2 t

/-! Links and ports (R13, R368, R382, R383) -/

/-- The ring links from a die to another: link i joins dies i and i + 1 mod 4; the opposite die is reached through the next one (R13), or the
other way round a die that went out of service at reset (R367). -/
def State.ringLinks (s : State) (d e : Nat) : List Nat :=
  if d = e then []
  else if (d + 1) % 4 = e then [d]
  else if (e + 1) % 4 = d then [e]
  else if s.dieOut.getLsbD ((d + 1) % 4) then [(d + 3) % 4, e] else [d, (d + 1) % 4]

/-- The links an access from a die to a target crosses: bits 0 to 3 the ring, bits 4 to 7 the links to Halyard, which is die 4 (R13, R368). -/
def State.linksTo (s : State) (die : Nat) (t : Target) : List Nat :=
  let dieOf : Option Nat := match t with
    | .hbm a => some (a / 2 ^ 37)
    | .window d _ | .penAlias d _ => some (d / 4)
    | .host _ | .peer _ _ => none
  match dieOf with
  | some e => if 4 ≤ die then [4 + e] else s.ringLinks die e
  | none => if 4 ≤ die then [] else [4 + die]

/-- An access depends on a link that failed beyond repair in service (R368). -/
def State.routeLost (s : State) (die : Nat) (t : Target) : Bool := (s.linksTo die t).any s.linkBad.getLsbD

/-- A port's IDE stream is keyed: link for CXL.cache and CXL.mem, the other for CXL.io and UIO (R383). -/
def State.ide (s : State) (port : Nat) (link : Bool) : Bool := s.ideKeys.any fun (k, _) => k == 2 * port + (if link then 1 else 0)
/-- A port that is up, with the stream keyed, carries requests (R382, R383). -/
def State.portOpen (s : State) (port : Nat) (link : Bool) : Bool := s.portUp.getLsbD port && s.ide port link
/-- Fabric ports that carry requests. -/
def State.fabricPorts (s : State) : List Nat := (List.range 8).filter fun p => p != 0 && s.portOpen p false

/-- An access that leaves the package finds no open port: to the host port 0; to a peer a fabric port, and where only some are open a free choice
says whether its route takes one of them (R382, R383). -/
def State.portLost (s : State) (t : Target) : Bool × State :=
  match t with
  | .host _ => (!s.portOpen 0 true, s)
  | .peer _ _ =>
    let n := s.fabricPorts.length
    if n = 0 then (true, s) else if n = 7 then (false, s) else (let (r, s) := s.free; (r % 2 == 1, s))
  | _ => (false, s)

/-- Landing slots of a context, by number, and after them its 64 signal words, that n bytes from an offset of device memory touch (R317). -/
def BzCtx.zone (b : BzCtx) (off n : Nat) : List Nat :=
  if b.peers.isEmpty then [] else
  let chsz := 2 ^ (12 + (b.dsc.extractLsb' 20 4).toNat)
  let slots := 2 * ((b.dsc.extractLsb' 24 12).toNat + 1)
  let lz := ((b.peers.getD (b.dsc.extractLsb' 0 10).toNat 0#64).extractLsb' 16 39).toNat
  let sigs := lz + slots * (chsz + 128)
  if n = 0 ∨ off + n ≤ lz ∨ sigs + 512 ≤ off then []
  else
    let at' (x : Nat) : Nat := if x < sigs then (x - lz) / (chsz + 128) else slots + (x - sigs) / 8
    let i := at' (max off lz)
    (List.range (at' (min (off + n - 1) (sigs + 511)) + 1 - i)).map (i + ·)

/-- A write that is no delivery leaves what a context receives there undefined (R317). -/
def State.markZone (s : State) (a n : Nat) : State :=
  if s.bz.all fun b => (b.zone a n).isEmpty then s
  else { s with bz := s.bz.map fun (b : BzCtx) => { b with lzBad := (b.zone a n ++ b.lzBad).eraseDups } }

/-- Elements of update-only lines are keyed by byte address of the element, kept per cluster: merge one cluster's partial
results of a line at the home (R296). An atomic write: tag (0, 0). -/
def State.mergeIn (s : State) (c line : Nat) : State :=
  let k := s.cl c
  let mine := k.upd.filter fun (a, _) => a / 128 == line
  if mine.isEmpty then s else
  let s := s.onCl c fun k => { k with upd := k.upd.filter fun (a, _) => a / 128 != line }
  -- a merge over a link that failed is dropped (R368)
  if s.routeLost (c / 4) (.hbm (128 * line)) then s else
  mine.foldl (fun s (a, u) =>
    let n := updBytes u.ty
    let old := BitVec.ofNat 64 (leNat ((List.range n).map fun i => s.raw (s.readAddr (a + i))))
    ((s.markZone a n).hbmPut a (leBytes n (updFold u.op u.ty old u.val).toNat)).tagAt a 0#24) s

/-- The home recalls a line from every far cache that holds partial results; the order is free (R296). -/
def State.recall (s : State) (line : Nat) : State :=
  if s.clusters.all fun k => !(k.upd.any fun (a, _) => a / 128 == line) then s else
  let (r, s) := s.free
  (List.range 16).foldl (fun s i => s.mergeIn ((r + i) % 16) line) s

/-- Merge a line of a cluster at its home. The merge writes the line, so the home first recalls it from the other far caches (R296). -/
def State.mergeLine (s : State) (c line : Nat) : State :=
  (((List.range 16).filter (· ≠ c)).foldl (fun s i => s.mergeIn i line) s).mergeIn c line

/-- Lines that n bytes from a touch. -/
def linesOf (a n : Nat) : List Nat := if n = 0 then [] else (List.range ((a + n - 1) / 128 - a / 128 + 1)).map (a / 128 + ·)

/-- Read device memory as an agent does: recall, then the copy R370 names. -/
def State.hbmRead (s : State) (a n : Nat) : List Byte × State :=
  let s := (linesOf a n).foldl State.recall s
  ((List.range n).map fun i => s.raw (s.readAddr (a + i)), s)

/-- A write of a whole granule clears the poison of the copy it goes to (R361, R370). -/
def State.unpoison (s : State) (a : Nat) : State := { s with poison := sput false ((s.writeAddr a).2 / 128) false s.poison }

/-- Write device memory: recall, page copy, bytes; a whole granule clears its poison (R361). -/
def State.hbmWrite (s : State) (a : Nat) (bs : List Byte) : State :=
  let s := (linesOf a bs.length).foldl State.recall (s.markZone a bs.length)
  let s := s.hbmPut a bs
  (linesOf a bs.length).foldl (fun s l =>
    if a ≤ 128 * l ∧ 128 * (l + 1) ≤ a + bs.length then s.unpoison (128 * l) else s) s

/-- Whether some byte of a range lies in a poisoned granule (R361). -/
def State.poisoned (s : State) (a n : Nat) : Bool := (linesOf a n).any fun l => sget false (s.readAddr (128 * l) / 128) s.poison

/-! Peer lines (R25, R286, R298) -/

/-- The PA of a peer byte. -/
def peerPa (d a : Nat) : Nat := 2 ^ 51 + d * 2 ^ 39 + a

/-- Peer lines a far cache and an RDC hold at most (R16). -/
def farLinesMax : Nat := 16384
def rdcLinesMax : Nat := 262144

/-- The bit of each byte lane of a list, and the lanes of a mask. -/
def laneBits (l : List Nat) : BitVec 128 := BitVec.ofNat 128 (l.foldl (fun m j => m ||| 2 ^ j) 0)
def lanesOf (m : BitVec 128) : List Nat := (List.range 128).filter m.getLsbD

/-- Lanes of a mask take the bytes of a value. -/
def PeerLine.take (l : PeerLine) (m : BitVec 128) (v : BitVec 1024) : PeerLine :=
  { l with data := mergeLanes 128 l.data v m.toNat, valid := l.valid ||| m }
def PeerLine.byte (l : PeerLine) (o : Nat) : Byte := l.data.extractLsb' (8 * o) 8

/-- The line of a list, and the list with a line put first. -/
def findLine (line : Nat) (l : List PeerLine) : Option PeerLine := l.find? fun x => x.line == line
def putLine (x : PeerLine) (l : List PeerLine) : List PeerLine := x :: l.filter fun y => y.line != x.line
def dropLine (line : Nat) (l : List PeerLine) : List PeerLine := l.filter fun x => x.line != line

def State.rdcOf (s : State) (die : Nat) : List PeerLine := s.rdc.getD die []
def State.setRdc (s : State) (die : Nat) (l : List PeerLine) : State := { s with rdc := s.rdc.set die l }
def State.onFar (s : State) (c : Nat) (f : List PeerLine → List PeerLine) : State := s.onCl c fun k => { k with far := f k.far }

/-- Some granule of a range of a peer's memory is poisoned there. -/
def State.peerPoisoned (s : State) (pa n : Nat) : Bool := (linesOf pa n).any fun l => sget false l s.poison

/-- Bytes written at a peer's home: they stand there, and the peer is told (R304); granules written whole are poisoned no more (R361). -/
def State.peerOut (s : State) (pa : Nat) (bs : List Byte) : State :=
  let o := pa - 2 ^ 51
  let whole := (linesOf pa bs.length).filter fun l => decide (pa ≤ 128 * l ∧ 128 * (l + 1) ≤ pa + bs.length)
  { s with outer := wrBytes s.outer pa bs, poison := whole.foldl (fun m l => sput false l false m) s.poison, outbox := s.outbox ++ [.peerWrite (BitVec.ofNat 12 (o / 2 ^ 39)) (o % 2 ^ 39) bs] }

/-- The dirty bytes of a line of a die go to their home (R298); over a link that failed, or with no port open, they are dropped (R368, R382, R383). -/
def State.writeBack (die : Nat) (s : State) (l : PeerLine) : State :=
  if s.routeLost die (.peer 0 0) || s.fabricPorts.isEmpty then s else
  (runsOf ((lanesOf l.dirty).map fun j => (128 * l.line + j, l.byte j))).foldl (fun s (a, bs) => s.peerOut a bs) s

/-- A die's RDC keeps a line; the one used longest ago gives way, its dirty bytes to their home (R16, R298). -/
def State.keepRdc (s : State) (die : Nat) (x : PeerLine) : State :=
  let l := putLine x (s.rdcOf die)
  ((l.drop rdcLinesMax).foldl (State.writeBack die) s).setRdc die (l.take rdcLinesMax)

/-- Dirty bytes of another context than the writer's go to their home before the line takes new ones. -/
def State.ownLine (s : State) (die : Nat) (x : PeerLine) (ctx : BitVec 12) : PeerLine × State :=
  if x.dirty ≠ 0#128 ∧ x.ctx ≠ ctx then ({ x with dirty := 0#128, ctx := ctx }, s.writeBack die x) else ({ x with ctx := ctx }, s)

/-- A far-cache line's dirty bytes go into its die's RDC, dirty there (Table 19-1, DIE). -/
def State.toRdc (die : Nat) (s : State) (l : PeerLine) : State :=
  if l.dirty = 0#128 then s else
  let (x, s) := s.ownLine die ((findLine l.line (s.rdcOf die)).getD ⟨l.line, 0#1024, 0#128, 0#128, l.ctx⟩) l.ctx
  s.keepRdc die { x.take l.dirty l.data with dirty := x.dirty ||| l.dirty }

/-- Lines a cluster's far cache holds: peer lines and update-only lines. -/
def Cluster.farLines (k : Cluster) : Nat := k.far.length + ((k.upd.map fun (a, _) => a / 128).eraseDups).length

/-- The far cache makes room for one more line: a peer line gives way, its dirty bytes to the RDC, or an update-only line merges (R16, R296). -/
def State.farRoom (s : State) (c : Nat) : State :=
  let k := s.cl c
  if k.farLines < farLinesMax then s
  else match k.far.getLast? with
    | some x => (s.toRdc (c / 4) x).onFar c (dropLine x.line)
    | none => match k.upd with
      | (a, _) :: _ => s.mergeLine c (a / 128)
      | [] => s

/-- A cluster's far cache keeps a line. -/
def State.keepFar (s : State) (c : Nat) (x : PeerLine) : State :=
  ((if (findLine x.line (s.cl c).far).isSome then s else s.farRoom c)).onFar c (putLine x)

/-- The byte lanes of a line that n bytes from an address take in. -/
def lineNeed (pa n line : Nat) : BitVec 128 :=
  laneBits ((List.range 128).filter fun j => decide (pa ≤ 128 * line + j ∧ 128 * line + j < pa + n))

/-- A line of a die's RDC that holds some lanes at least: where it lacks one, the bytes it lacks are read from their home. -/
def State.rdcFill (s : State) (die line : Nat) (need : BitVec 128) (ctx : BitVec 12) : PeerLine × State :=
  let x := (findLine line (s.rdcOf die)).getD ⟨line, 0#1024, 0#128, 0#128, ctx⟩
  let x := if need &&& ~~~x.valid = 0#128 then x else x.take (~~~x.valid) (BitVec.ofNat 1024 (leNat (rdBytes s.outer (128 * line) 128)))
  (x, s.keepRdc die x)

/-- A line of a cluster's far cache that holds some lanes at least: what it lacks of them is read through its die's RDC (R25). -/
def State.farFill (s : State) (c line : Nat) (need : BitVec 128) (ctx : BitVec 12) : PeerLine × State :=
  let x := (findLine line (s.cl c).far).getD ⟨line, 0#1024, 0#128, 0#128, ctx⟩
  if need &&& ~~~x.valid = 0#128 then (x, s.keepFar c x)
  else
    let (y, s) := s.rdcFill (c / 4) line (need &&& ~~~x.valid) ctx
    let x := x.take (y.valid &&& ~~~x.valid) y.data
    (x, s.keepFar c x)

/-- A cluster's read of peer bytes through its far cache (R25). -/
def State.farPeer (s : State) (c pa n : Nat) (ctx : BitVec 12) : List Byte × State :=
  let (ls, s) := (linesOf pa n).foldl (fun (l, s) i => let (x, s) := s.farFill c i (lineNeed pa n i) ctx; (l ++ [x], s)) (([] : List PeerLine), s)
  ((List.range n).map fun i => match findLine ((pa + i) / 128) ls with | some x => x.byte ((pa + i) % 128) | none => 0#8, s)

/-- A cluster's write of peer bytes performs in its far cache, dirty there (Table 19-1, CLUSTER). -/
def State.farPeerWrite (s : State) (c pa : Nat) (bs : List (Option Byte)) (ctx : BitVec 12) : State :=
  (linesOf pa bs.length).foldl (fun s line =>
    let mine := (List.range 128).filterMap fun j =>
      if pa ≤ 128 * line + j then (bs.getD (128 * line + j - pa) none).map fun b => (j, b) else none
    if mine.isEmpty then s else
    let m := laneBits (mine.map (·.1))
    let v := mine.foldl (fun (v : BitVec 1024) (j, b) => v ||| (b.setWidth 1024 <<< (8 * j))) 0#1024
    let (x, s) := s.ownLine (c / 4) ((findLine line (s.cl c).far).getD ⟨line, 0#1024, 0#128, 0#128, ctx⟩) ctx
    s.keepFar c { x.take m v with dirty := x.dirty ||| m }) s

/-- A die gives up its copies of a line, its dirty bytes to their home: before an access of the die that goes to the home itself. -/
def State.expel (s : State) (die line : Nat) : State :=
  if 4 ≤ die then s else
  let s := (match findLine line (s.rdcOf die) with | some x => s.writeBack die x | none => s).setRdc die (dropLine line (s.rdcOf die))
  ((List.range 4).map (4 * die + ·)).foldl (fun s c =>
    match findLine line (s.cl c).far with
    | some x => (s.writeBack die x).onFar c (dropLine line)
    | none => s) s

/-- The first step of an acquire at a scope: every copy that may be older than its point is discarded, in the far caches of the die, and beyond DIE
scope in its RDC too; bytes still dirty there go on to the next point first (R287, R298; log entry 65). -/
def State.dropPeer (s : State) (die : Nat) (sc : Scope) : State :=
  if sc = .cluster ∨ 4 ≤ die then s
  else
    let s := ((List.range 4).map (4 * die + ·)).foldl (fun s c => (((s.cl c).far.reverse.foldl (State.toRdc die) s)).onFar c fun _ => []) s
    if sc = .device ∨ sc = .fabric then ((s.rdcOf die).reverse.foldl (State.writeBack die) s).setRdc die [] else s

/-- A release's part for peer lines: at DIE scope the cluster's dirty bytes reach its die's RDC, at a wider one they and the RDC's reach their
homes (R287, R298, Table 19-1). -/
def State.flushPeer (s : State) (c : Nat) (sc : Scope) : State :=
  let clean (x : PeerLine) : PeerLine := { x with dirty := 0#128 }
  let s := ((s.cl c).far.reverse.foldl (State.toRdc (c / 4)) s).onFar c (·.map clean)
  if sc = .device ∨ sc = .fabric then
    ((s.rdcOf (c / 4)).reverse.foldl (State.writeBack (c / 4)) s).setRdc (c / 4) ((s.rdcOf (c / 4)).map clean)
  else s

/-- A kill discards the context's dirty peer bytes unwritten (R298). -/
def State.killPeer (s : State) (ctx : BitVec 12) : State :=
  let cut (l : List PeerLine) : List PeerLine :=
    (l.map fun x => if x.ctx = ctx then { x with valid := x.valid &&& ~~~x.dirty, dirty := 0#128 } else x).filter fun x => x.valid != 0#128
  { s with rdc := s.rdc.map cut, clusters := s.clusters.map fun (k : Cluster) => { k with far := cut k.far } }

/-! Accesses at a target -/

/-- Read at a physical target's home for an agent of a die; 4 is Halyard. A pennant alias reads zero (R230). -/
def State.paRead (s : State) (die : Nat) (t : Target) (n : Nat) : List Byte × State :=
  match t with
  | .hbm a => s.hbmRead a n
  | .window c a => ((s.cl c).spBytes a n, s)
  | .penAlias _ _ => (List.replicate n 0#8, s)
  | .host a => (rdBytes s.outer (2 ^ 50 + a) n, s)
  | .peer d a =>
    let s := (linesOf (peerPa d a) n).foldl (fun s l => s.expel die l) s
    (rdBytes s.outer (peerPa d a) n, s)

/-- Queue a copy's write from outside the timetable to perform from a CT on, and by another where its command's bound binds (R23, R289). -/
def State.windowWrite (s : State) (c a : Nat) (bs : List Byte) (at' : Nat) (src : Nat × Nat) (cap : Option Nat) : State :=
  s.onCl c fun k => { k with winW := k.winW ++ bs.zipIdx.map fun (b, i) => ⟨a + i, b, at', some src, cap⟩ }

/-- Write at a physical target's home. A scratchpad window performs at once (R289); what would meet the program's own access waits before it
comes here (R23); an alias discards anything but an ATOM add (R230). -/
def State.paWrite (s : State) (die : Nat) (t : Target) (bs : List Byte) : State :=
  match t with
  | .hbm a => s.hbmWrite a bs
  | .window c a => s.onCl c fun k => k.spWriteAll (bs.zipIdx.map fun (b, i) => (a + i, b))
  | .penAlias _ _ => s
  | .host a => { s with outer := wrBytes s.outer (2 ^ 50 + a) bs }
  | .peer d a => ((linesOf (peerPa d a) bs.length).foldl (fun s l => s.expel die l) s).peerOut (peerPa d a) bs

/-- Merge every update-only line of a cluster (R296). -/
def State.mergeAll (s : State) (c : Nat) : State :=
  ((s.cl c).upd.map fun (a, _) => a / 128).eraseDups.foldl (fun s l => s.mergeLine c l) s

/-! ### Translation (R305 to R309) -/

/-- Kinds of translated accesses. -/
inductive Acc where
  | read | write | fetch
deriving DecidableEq, Repr

/-- Check a leaf entry for an access (R306, Table 19-6). -/
def leafCheck (e : BitVec 64) (acc : Acc) : Option Nat :=
  match acc with
  | .read => none
  | .write => if !e.getLsbD 1 then some 1 else if !e.getLsbD 6 then some 3 else none
  | .fetch => if !e.getLsbD 2 then some 2 else none

/-- Reserved bits and the level rule of an entry at a level (R306). -/
def pteBad (lvl : Nat) (e : BitVec 64) : Bool :=
  e.extractLsb' 52 4 != 0#4 || e.extractLsb' 7 5 != 0#5 || (decide (lvl ≥ 1) && e.getLsbD 4) ||
  (lvl == 0 && !e.getLsbD 3) || (lvl == 3 && e.getLsbD 3) ||
  (lvl == 1 && e.getLsbD 3 && e.extractLsb' 12 9 != 0#9) || (lvl == 2 && e.getLsbD 3 && e.extractLsb' 12 18 != 0#18) ||
  (lvl == 0 && e.getLsbD 4 && e.extractLsb' 12 4 != 0#4)

/-- Bytes of the page a leaf maps, as a power of two. -/
def leafBits (lvl : Nat) (e : BitVec 64) : Nat := if lvl = 2 then 30 else if lvl = 1 then 21 else if e.getLsbD 4 then 16 else 12

/-- A table entry as the walker of a die reads it: a device-scope acquiring read at its home (R306). A table that a peer holds may be refused by its
windows, or have no open port to it (R304, R382, R383); one behind a failed link, or of a host with no open port, cannot be read (R368; log entry 64). -/
def State.walkRead (s : State) (die a : Nat) : Except Nat (BitVec 64) × State :=
  match s.target a with
  | none => (.error 5, s)
  | some t =>
    if s.routeLost die t then (.error 7, s)
    else
      let word (s : State) : Except Nat (BitVec 64) × State := let (bs, s) := s.paRead die t 8; (.ok (BitVec.ofNat 64 (leNat bs)), s)
      match t with
      | .hbm h => if s.poisoned h 8 then (.error 7, s) else word s
      | .peer _ _ =>
        match s.portLost t with
        | (true, s) => (.error 6, s)
        | (false, s) => let (r, s) := s.free; if r % 2 = 1 then (.error 6, s) else word s
      | _ =>
        match s.portLost t with
        | (true, s) => (.error 7, s)
        | (false, s) => word s

/-- Walk from a level's table for a die: the leaf entry and its page bits, or a subcause (R306). In a C64K group the entry used is a
free choice of the 16. -/
def walk (die va : Nat) (choice : Nat) : Nat → Nat → Nat → State → Except Nat (BitVec 64 × Nat) × State
  | 0, _, _, s => (.error 4, s)
  | fuel + 1, lvl, base, s =>
    let idx := if lvl = 3 then va / 2 ^ 39 % 2 ^ 18 else va / 2 ^ (12 + 9 * lvl) % 512
    match s.walkRead die (base + 8 * idx) with
    | (.error e, s) => (.error e, s)
    | (.ok e, s) =>
      if !e.getLsbD 0 then (.error 0, s)
      else if pteBad lvl e then (.error 4, s)
      else if e.getLsbD 3 then
        if lvl = 0 ∧ e.getLsbD 4 then
          match s.walkRead die (base + 8 * (idx / 16 * 16 + choice % 16)) with
          | (.error x, s) => (.error x, s)
          | (.ok e', s) => (if !e'.getLsbD 0 then .error 0 else if pteBad 0 e' then .error 4 else .ok (e', leafBits 0 e'), s)
        else (.ok (e, leafBits lvl e), s)
      else walk die va choice fuel (lvl - 1) ((e.extractLsb' 12 40).toNat * 4096) s

/-- The physical address of a leaf. -/
def leafPa (e : BitVec 64) (bits va : Nat) : Nat := (e.extractLsb' 12 40).toNat * 4096 / 2 ^ bits * 2 ^ bits + va % 2 ^ bits

/-- The root table of a context (R305). -/
def rootTable (desc : BitVec 64) : Nat := (desc.extractLsb' 21 31).toNat * 2 ^ 21

/-- What a leaf's rights and frame give for an access (R306, R308). -/
def State.leafTarget (s : State) (e : BitVec 64) (bits va : Nat) (acc : Acc) : Except Nat Target :=
  match leafCheck e acc with
  | some x => .error x
  | none => match s.target (leafPa e bits va) with
    | none => .error 5
    | some t => .ok t

/-- The entry a cluster's TLB, or its die's shared one, holds for an address (R307). -/
def State.tlbHit (s : State) (c : Option Nat) (ctx : BitVec 12) (va : Nat) : Option (BitVec 64 × Nat) :=
  let hit (l : List (BitVec 12 × Nat × BitVec 64 × Nat)) := (l.find? fun (x, vp, _, b) => x == ctx && va / 2 ^ b == vp).map (·.2.2)
  match hit (match c with | some c => (s.cl c).tlb | none => []) with
  | some x => some x
  | none => hit ((s.stlb.filter fun (d, _) => d == (match c with | some c => c / 4 | none => 4)).map (·.2))

/-- A walk's entry goes into the cluster's TLB and its die's shared one (R307). -/
def State.tlbFill (s : State) (c : Option Nat) (ctx : BitVec 12) (va : Nat) (e : BitVec 64) (b : Nat) : State :=
  match c with
  | some c =>
    let s := s.onCl c fun k => { k with tlb := ((ctx, va / 2 ^ b, e, b) :: k.tlb).take 2048 }
    { s with stlb := ((c / 4, ctx, va / 2 ^ b, e, b) :: s.stlb.filter (fun x => x.1 == c / 4)).take 32768 ++ s.stlb.filter fun x => x.1 != c / 4 }
  | none => s

/-- Translate a VA of a context for a cluster (none: Halyard or the launch unit), through TLB and STLB entries (R307). -/
def State.translate (s : State) (c : Option Nat) (ctx : BitVec 12) (desc : BitVec 64) (va : Nat) (acc : Acc) :
    Except Nat Target × State :=
  if !desc.getLsbD 63 then (.error 0, s)
  else
    match s.tlbHit c ctx va with
    | some x => (s.leafTarget x.1 x.2 va acc, s)
    | none =>
      match walk (match c with | some c => c / 4 | none => 4) va s.free.1 4 3 (rootTable desc) s.free.2 with
      | (.error x, s) => (.error x, s)
      | (.ok x, s) => ((s.tlbFill c ctx va x.1 x.2).leafTarget x.1 x.2 va acc, s.tlbFill c ctx va x.1 x.2)

/-- An address lies in a page that far caches and RDCs do not hold (R306, NC). -/
def State.ncAt (s : State) (c : Nat) (ctx : BitVec 12) (va : Nat) : Bool :=
  match s.tlbHit (some c) ctx va with
  | some (e, _) => e.getLsbD 5
  | none => false

/-- The descriptor of a context as the table holds it (R305). -/
def State.descOf (s : State) (ctx : BitVec 12) : BitVec 64 := sget 0#64 ctx.toNat s.ctxTab

/-! ### Race detection (R302) -/

def vcGet (v : List (BitVec 20)) (i : Nat) : BitVec 20 := v.getD i 0#20
def vcMax (a b : List (BitVec 20)) : List (BitVec 20) := List.zipWith (fun x y => if x.toNat < y.toNat then y else x) a b

/-- The conflicting tag an access of a cluster to a granule meets, where detection runs. -/
def State.raceAt (s : State) (c : Nat) (rde : Bool) (a : Nat) : Option (BitVec 24) :=
  let t := sget 0#24 (s.readAddr a / 128) s.wtag
  let w := (t.extractLsb' 20 4).toNat
  if rde ∧ w ≠ c ∧ (t.setWidth 20).toNat > (vcGet (s.cl c).vc w).toNat then some t else none

/-- The first of some granules with a conflict. -/
def State.raceIn (s : State) (c : Nat) (rde : Bool) (lines : List Nat) : Option (Nat × BitVec 24) :=
  lines.findSome? fun l => (s.raceAt c rde (128 * l)).map fun t => (128 * l, t)

/-- Tag the granules a plain write of a cluster touches (R302); (0, 0) while detection is off. -/
def State.tagWrite (s : State) (c : Nat) (rde : Bool) (clk : BitVec 20) (lines : List Nat) : State :=
  lines.foldl (fun s l => s.tagAt (128 * l) (if rde then BitVec.ofNat 4 c ++ clk else 0#24)) s

/-- A release steps its cluster's clock (R302). -/
def Cluster.vcStep (k : Cluster) (c : Nat) : Cluster :=
  { k with vc := k.vc.set c (if (vcGet k.vc c).toNat ≥ 2 ^ 20 - 1 then vcGet k.vc c else vcGet k.vc c + 1#20) }
def State.vcStep (s : State) (c : Nat) : State := s.onCl c fun k => k.vcStep c

/-- Two vectors of clocks, the empty one being all zeros. -/
def vcMerge (a b : List (BitVec 20)) : List (BitVec 20) := if a.isEmpty then b else if b.isEmpty then a else vcMax a b

/-- The bit of the scope a cluster releases at. -/
def scopeBit (c : Nat) (sc : Scope) : BitVec 8 := if sc = .die then 1#8 <<< (c / 4) else 1#8 <<< (4 + c / 4)
/-- Releases an acquire of a cluster at a scope meets: each scope must cover both agents (R287). -/
def scopeMeets (c : Nat) (sc : Scope) (rel : BitVec 8) : Bool :=
  match sc with
  | .cluster => false
  | .die => rel &&& (scopeBit c .die ||| scopeBit c .device) != 0#8
  | .device | .fabric => rel &&& (scopeBit c .die ||| 0xF0#8) != 0#8

/-- A release of a cluster at a location at DIE scope or wider: the sidecar takes its clocks, and its clock steps (R302). -/
def State.vcRelease (s : State) (c loc : Nat) (sc : Scope) : State :=
  State.vcStep { s with
    sidecar := sput [] loc (vcMerge (sget [] loc s.sidecar) (s.cl c).vc) s.sidecar
    sideScope := sput 0#8 loc (sget 0#8 loc s.sideScope ||| scopeBit c sc) s.sideScope } c

/-- A cluster's clocks take those of an acquire that synchronises (R302). -/
def State.vcTake (s : State) (c : Nat) (v : List (BitVec 20)) : State :=
  s.onCl c fun k => { k with vc := if v.isEmpty then k.vc else vcMax k.vc v }

/-- An acquire at a location merges its sidecar where it synchronises with a release there (R287, R302). -/
def State.vcAcquire (s : State) (c loc : Nat) (sc : Scope) : State :=
  if scopeMeets c sc (sget 0#8 loc s.sideScope) then s.vcTake c (sget [] loc s.sidecar) else s

/-- A release of the run at a scope: at DIE or wider every update-only line merges and dirty peer bytes reach the scope's point (R287, R296,
R298). -/
def State.release (s : State) (c : Nat) (sc : Scope) : State := if sc = .cluster then s else (s.mergeAll c).flushPeer c sc
/-- An acquire of the run at a scope (R287). -/
def State.acquire (s : State) (c : Nat) (sc : Scope) : State := s.dropPeer (c / 4) sc

/-! ### Traps (R336 to R346) -/

/-- Causes (Table 23-2). -/
def cILLBUN : BitVec 8 := 1#8
def cILLINS : BitVec 8 := 2#8
def cPRIV : BitVec 8 := 3#8
def cRANGE : BitVec 8 := 4#8
def cALIGN : BitVec 8 := 5#8
def cLOOPSTK : BitVec 8 := 6#8
def cLOOPCNT : BitVec 8 := 7#8
def cSCHED : BitVec 8 := 8#8
def cCOPYCMD : BitVec 8 := 9#8
def cSOFT : BitVec 8 := 10#8
def cABFTU : BitVec 8 := 11#8
def cBOUND : BitVec 8 := 12#8
def cMIRROR : BitVec 8 := 13#8
def cVCHK : BitVec 8 := 14#8
def cTRANS : BitVec 8 := 15#8
def cRACE : BitVec 8 := 16#8
def cCKSUM : BitVec 8 := 17#8
def cE2E : BitVec 8 := 18#8
def cSTALE : BitVec 8 := 19#8
def cMEMERR : BitVec 8 := 20#8
def cCHAIN : BitVec 8 := 21#8
def cCHUNK : BitVec 8 := 22#8
def cMACHINE : BitVec 8 := 23#8

/-- Layout B serves causes 15, 16 and 20 (R340). -/
def layoutB (c : BitVec 8) : Bool := c == cTRANS || c == cRACE || c == cMEMERR

/-- TRAPCAUSE of a trap, in its layout (Tables 23-1a, 23-1b); HM is read as the mode, so it is stored clear. -/
def causeWord (t : TrapInfo) (aq multi : Bool) : Word :=
  if layoutB t.cause then t.gva ++ t.sub.setWidth 6 ++ t.cause
  else t.info ++ t.sub ++ t.core.getD 0#8 ++ ofBit t.core.isSome ++ ofBit aq ++ ofBit t.pend ++ ofBit multi ++ t.slot ++ 0#1 ++ 0#16 ++ t.cause

/-- The causes a run's handler takes (Table 23-2). -/
def runHandled (c : BitVec 8) : Bool := !(c == cTRANS || c == cMACHINE)

/-- TRAPCAUSE as it reads: HM is 1 in handler mode, in layout A (Table 23-1a). -/
def Cluster.readCause (k : Cluster) : Word :=
  if k.handler.isSome ∧ !layoutB (k.trapcause.setWidth 8) then k.trapcause ||| 0x1000000#64 else k.trapcause

/-- The run's array work is quiet: no plane load, stream or drain is incomplete, what a handler's entry banked among them (R345). -/
def Cluster.arrayQuiet (k : Cluster) : Bool :=
  k.drains.isEmpty && k.cores.all (fun x => x.streams.isEmpty && x.loads.isEmpty) &&
    match k.handler with
    | some b => b.drains.isEmpty && b.streams.all (·.isEmpty) && b.loads.all (·.isEmpty)
    | none => true

/-- Bank the run and start the handler at TRAPHND (R343). -/
def Cluster.enterHandler (k : Cluster) (aq : Bool) (trapPc : BitVec 57) : Cluster :=
  let b : Banked := {
    pc := trapPc, cmsk := k.cmsk, loops := k.loops, lc := k.lc, rrbv := k.rrbv, rrbp := k.rrbp, gqctl := k.gqctl,
    simg := k.simg, tmw := k.tmw, ftw := k.ftw, pipes := k.cores.map (·.pipe), inits := k.inits, parrs := k.parrs,
    pend := k.pend, cps := k.cps, ports := k.ports, groups := k.groups, lastD := k.lastD, lastMchk := k.lastMchk,
    lastBf := k.lastBf, delay := k.delay, nopLeft := k.nopLeft, streams := k.cores.map (·.streams), loads := k.cores.map (·.loads),
    bankUpds := k.cores.map (·.bankUpds), drains := k.drains, lastStream := k.cores.map (·.lastStream),
    inputFree := k.cores.map (·.inputFree), diagFree := k.cores.map (·.diagFree), inEnd := k.ending, aq := aq }
  { k with
    handler := some b, hc := 0, pc := k.traphnd.setWidth 57, next := k.traphnd.setWidth 57, cmsk := BitVec.allOnes 256,
    loops := [], lc := List.replicate 6 0#32, rrbv := 0#5, rrbp := 0#3, gqctl := false, simg := [], tmw := [], ftw := [], inits := [],
    parrs := [], pend := [], cps := [], ports := [], groups := [], lastD := none, lastMchk := none, lastBf := none, delay := none,
    nopLeft := 0, drains := [], ending := false, rft := false, issued := false, holds := [], slip := none, holdFault := none, soft := none,
    cores := k.cores.map fun x => { x with pipe := [], streams := [], loads := [], bankUpds := [], lastStream := [], inputFree := 0, diagFree := 0 } }

/-- Restore a list of per-core parts. -/
def zipCores (cs : List Core) (b : Banked) : List Core :=
  cs.zipIdx.map fun (x, i) =>
    { x with pipe := b.pipes.getD i [], streams := b.streams.getD i [], loads := b.loads.getD i [], bankUpds := b.bankUpds.getD i [],
             lastStream := b.lastStream.getD i [], inputFree := b.inputFree.getD i 0, diagFree := b.diagFree.getD i 0 }

/-- RFT's return: the banked state and both images come back, and the bundle at TRAPPC is next (R346). -/
def Cluster.leaveHandler (k : Cluster) : Cluster :=
  match k.handler with
  | none => k
  | some b =>
    { k with
      handler := none, hc := 0, rft := false, issued := false, pc := k.trappc.setWidth 57, next := k.trappc.setWidth 57, cmsk := b.cmsk, loops := b.loops, lc := b.lc,
      rrbv := b.rrbv, rrbp := b.rrbp, gqctl := b.gqctl, simg := b.simg, tmw := b.tmw, ftw := b.ftw, inits := b.inits, parrs := b.parrs,
      pend := b.pend ++ k.pend, cps := b.cps, ports := b.ports, groups := b.groups, lastD := b.lastD, lastMchk := b.lastMchk,
      lastBf := b.lastBf, delay := b.delay, nopLeft := b.nopLeft, drains := b.drains, ending := b.inEnd, cores := zipCores k.cores b }

/-- A cluster with no run: its run's state dropped, its copies, results and posted accesses cancelled (R50, R59). -/
def Cluster.freed (k : Cluster) : Cluster :=
  { k with
    run := none, prevCtx := (match k.run with | some r => if r.priv then none else some r.ctx | none => k.prevCtx), holds := [], slip := none, handler := none,
    frozenPre := false, halted := false, dbg := .off, delay := none, linkPend := none, nopLeft := 0, simg := [], tmw := [], ftw := [], pend := [], cps := [], ports := [],
    groups := [], preReq := false, maint := .off, tts := none, buf := [], active := [], addrQ := [], unclaimed := 0, inits := [], parrs := [],
    posted := [], grpFault := [], relAfter := [], relFence := none, relaxed := [], penAcc := [], penVc := [], rft := false, issued := false, holdFault := none, soft := none, upd := [], drains := [], ending := false, fetches := [], fetchFault := [], win := [],
    cores := k.cores.map fun x => { x with pipe := [], streams := [], loads := [], bankUpds := [], gq := [] } }

/-- Change a task by its number. -/
def State.onTask (s : State) (id : Nat) (f : Task → Task) : State :=
  { s with tasks := s.tasks.map fun t => if t.id = id then f t else t }
def State.task (s : State) (id : Nat) : Option Task := s.tasks.find? fun t => t.id == id
def Task.onGang (t : Task) (g : Nat) (f : Gang → Gang) : Task :=
  { t with gangs := t.gangs.map fun x => if x.idx = g then f x else x }

/-- Drop a Bozoak or launch answer for a task that reached its final state: the mailbox, a window's ring, or none (R39, R385). -/
def State.finalStatus (s : State) (t : Task) (code : Nat) : State :=
  match t.src with
  | .window w tag =>
    { s with wins := s.wins.modify w.toNat fun x =>
        { x with cring := x.cring.set x.ctail.toNat (tag ++ BitVec.ofNat 32 code), ctail := x.ctail + 1#6 } }
  | .mailbox => { s with outbox := s.outbox ++ [.mailbox code] }
  | .forwarded _ | .lnch => s

/-- When no gang of a task is left to run or dispatch, its final status is written once (R60); a stopped task waits for its started runs alone
(R49, R53). -/
def State.checkFinal (s : State) (id : Nat) : State :=
  match s.task id with
  | none => s
  | some t =>
    let started := t.gangs.any fun g => g.st == .running || g.st == .frozen || !g.saved.isEmpty
    let waiting := t.stop.isNone && (decide (t.nextGang < t.total) || t.gangs.any fun g => g.st != .ended)
    if started || waiting then s
    else
      let s := s.finalStatus t (t.stop.getD 16)
      { s with tasks := s.tasks.filter fun t => t.id != id }

/-- A cluster leaves its run; a reservation takes it when one is held (R57). -/
def State.freeCluster (s : State) (c : Nat) : State :=
  let s := s.onCl c Cluster.freed
  -- its copies' writes and its drains' counts still on their way are cancelled
  let s := { s with
    clusters := s.clusters.map fun (k : Cluster) => { k with winW := k.winW.filter fun w => match w.src with | some (d, _) => d != c | none => true }
    inputs := s.inputs.filter fun (_, i) => match i with | .chunkCount d _ _ _ _ => d.toNat != c | _ => true }
  match s.reserve with
  | some (t, g, m) => { s with reserve := some (t, g, m ||| (1#16 <<< c)) }
  | none => s

/-- End a gang: every member's run ends as it stands (R53, R59, R357). -/
def State.endGang (s : State) (task gang : Nat) : State :=
  match (s.task task).bind fun t => t.gangs.find? fun g => g.idx == gang with
  | none => s
  | some g =>
    let s := (g.clusters.filter fun c => match (s.cl c).run with | some r => r.task == task && r.gang == gang | none => false).foldl
      State.freeCluster s
    s.onTask task fun t => { t with gangs := t.gangs.filter fun g => g.idx != gang }

/-- A task dispatches nothing more and ends with a code once its started runs have ended (R49, R53). -/
def State.stopTask (s : State) (id code : Nat) : State :=
  (s.onTask id fun t =>
    { t with stop := some (t.stop.getD code), gangs := t.gangs.filter fun g => g.st == .running || g.st == .frozen || !g.saved.isEmpty }).checkFinal id

/-- A run ends in a fault that no handler resolves: its gang is killed, the task dispatches nothing more and ends with FAULT
(R53). -/
def State.faultRun (s : State) (c : Nat) : State :=
  match (s.cl c).run with
  | none => s
  | some r =>
    let s := s.endGang r.task r.gang
    let s := s.freeCluster c
    s.stopTask r.task 17

/-- Take a trap at a cluster: the trap registers are written, and the run's handler is entered, or the supervisor is told and
the run ends (R336, R338, R339, R342, R343); a failing unit's syndrome is a free value. -/
def State.takeTrap (s : State) (c : Nat) (t : TrapInfo) (pc : BitVec 57) (dt : Nat) (opc : BitVec 57) (multi : Bool) : State :=
  let k := s.cl c
  let aq := k.arrayQuiet
  let k' := { k with
    trapcause := causeWord t aq multi, trappc := pc.setWidth 64, trapdt := (dtBits dt).setWidth 64,
    trapopc := ofBit aq ++ 0#6 ++ opc }
  if k.traphnd ≠ 0#64 ∧ runHandled t.cause ∧ k.handler.isNone then
    s.setCl c ((k'.enterHandler aq pc))
  else
    let s := s.setCl c k'
    let (ctx, leaf) := match k.run with | some r => (r.ctx, r.leaf) | none => (0#12, 0)
    let (y, s) := if t.cause = cMACHINE then s.free else (0, s)
    let s := { s with outbox := s.outbox ++ [OutMsg.report k'.readCause k'.trappc k'.trapdt k'.trapopc k'.traphnd ctx leaf s.ct t.wtag (BitVec.ofNat 56 y)] }
    match k.run with
    | some _ => s.faultRun c
    | none => s.onCl c fun k => { k with halted := true }

/-- An issue-time trap: taken at the bundle, which is also its origin (R336). -/
def State.issueTrap (s : State) (c : Nat) (t : TrapInfo) : State :=
  let k := s.cl c
  s.takeTrap c t k.pc k.dt k.pc false

/-- The time part of an origin: DT, or in handler mode the frozen DT and the handler cycle, marked as such. -/
def Cluster.stamp (k : Cluster) : Nat := if k.handler.isSome then 2 ^ 64 * (k.dt + 1) + k.hc else k.dt
def inHandler (o : Origin) : Bool := decide (2 ^ 64 ≤ o.dt)
/-- The order in which the bundles of origins issued: a handler's stand before the bundle at the frozen DT. -/
def issueOrder (o : Origin) : Nat := if inHandler o then o.dt - 2 ^ 64 else 2 ^ 64 * o.dt + (2 ^ 64 - 1)

/-- Add a pending fault of the run (R214, R336). -/
def Cluster.addPend (k : Cluster) (f : PendFault) : Cluster :=
  -- in handler mode, faults of operations that the run issued are held aside with the banked state (R343)
  match k.handler with
  | some b => if inHandler f.origin then { k with pend := k.pend ++ [f] }
              else { k with handler := some { b with pend := b.pend ++ [f] } }
  | none => { k with pend := k.pend ++ [f] }

/-- A VUPD none of whose elements is still under way leaves its one pending fault: its lowest failing element's, cores first (R173). -/
def Cluster.closeGroups (k : Cluster) : Cluster :=
  ((k.grpFault.map (·.1)).eraseDups.filter fun g => !k.posted.any fun p => p.grp == g).foldl (fun (k : Cluster) g =>
    let k' : Cluster := { k with grpFault := k.grpFault.filter fun x => x.1 != g }
    match sortBy (fun (x : Nat × Nat × PendFault) => x.2.1) (k.grpFault.filter fun x => x.1 == g) with
    | (_, _, f) :: _ => k'.addPend f
    | [] => k') k

/-- The run's descriptor bits. -/
def Cluster.rde (k : Cluster) : Bool := match k.run with | some r => r.desc.getLsbD 62 | none => false
def Cluster.rpl (k : Cluster) : Bool := match k.run with | some r => r.desc.getLsbD 61 | none => false
def Cluster.ctx (k : Cluster) : BitVec 12 := match k.run with | some r => r.ctx | none => 0#12
def Cluster.desc (k : Cluster) : BitVec 64 := match k.run with | some r => r.desc | none => 0#64
def Cluster.priv (k : Cluster) : Bool := match k.run with | some r => r.priv | none => false

/-- The trap of a translation fault (Table 23-1b). -/
def transTrap (va sub : Nat) (core : Option (BitVec 8)) : TrapInfo :=
  { cause := cTRANS, sub := BitVec.ofNat 8 sub, core := core, gva := BitVec.ofNat 50 (va / 128) }
/-- The trap of a race (Table 23-1b): write to read 0, write to write 1, and the writer. -/
def raceTrap (va : Nat) (ww : Bool) (tag : BitVec 24) : TrapInfo :=
  { cause := cRACE, sub := (if ww then 0x10#8 else 0#8) ||| (tag.extractLsb' 20 4).setWidth 8, gva := BitVec.ofNat 50 (va / 128), wtag := tag }
def memTrap (va : Nat) : TrapInfo := { cause := cMEMERR, gva := BitVec.ofNat 50 (va / 128) }

/-- Draws that 2^20 blocks give (R389). -/
def blockDraws : Nat := 2 ^ 24
/-- Draws of a generator: n draws from its counter on, those past 2^20 blocks of its key from the next one (R177, R389). -/
def genDraws (g : Gen) (n : Nat) : List (BitVec 32) :=
  (List.range n).map fun i => if g.draws + i < blockDraws then chachaDraw g.key (g.draws + i) else chachaDraw g.next (g.draws + i - blockDraws)

/-- Origin of an operation of the current bundle. -/
def Cluster.origin (k : Cluster) : Origin := ⟨k.pc, k.stamp⟩

end Sys2Proof.Machine
end

