-- ==== Sys2Proof/Machine/Flags.lean ====
section
/-!
DEFINITION. Conditions and flag computations: CMP and VCMP (Table 9-2), FOP (R129), the condition field of a transfer (R130) and
FCMP (R182).
-/
namespace Sys2Proof

/-- The truth of a condition of Table 9-2 between two words of one width. -/
def Cond.holds (c : Cond) {w : Nat} (a b : BitVec w) : Bool :=
  match c with
  | .eq => a == b
  | .ne => a != b
  | .lt => a.slt b
  | .ge => b.sle a
  | .le => a.sle b
  | .gt => b.slt a
  | .ltu => a.ult b
  | .geu => b.ule a
  | .leu => a.ule b
  | .gtu => b.ult a

/-- The value FOP writes (R129). -/
def FlagOp.apply : FlagOp → Bool → Bool → Bool
  | .and, a, b => a && b
  | .or, a, b => a || b
  | .xor, a, b => a != b
  | .not, a, _ => !a

/-- Whether a transfer with a condition field is taken, by the flags (R130). -/
def CF.taken (cf : CF) (flag : BitVec 3 → Bool) : Bool :=
  match cf with
  | .always => true
  | .ifSet k => flag k
  | .ifClear k => !flag k

/-- The truth of an FCMP condition; with a NaN operand only ne and un are true, and -0 equals +0 (R182). -/
def FCond.holds (c : FCond) (a b : Ext) : Bool :=
  let un := a.isNan || b.isNan
  match c with
  | .eq => Ext.eqv a b
  | .ne => !(Ext.eqv a b)
  | .lt => Ext.lt a b
  | .le => Ext.le a b
  | .gt => Ext.lt b a
  | .ge => Ext.le b a
  | .un => un
  | .ord => !un

end Sys2Proof
end

