-- ==== Sys2Proof/Machine/Operands.lean ====
section
/-!
DEFINITION. Operand forms: elements and predicates (R89), widths and segments (Table 7-5), rotation and queue mapping (R90, R91),
format-table entries (R79, R81), addresses of the L slot (R159, R167, R171), and the entries that results in flight take (R347).
-/
namespace Sys2Proof

/-- Bits of an integer size. -/
def ISz.bits : ISz → Nat | .w8 => 8 | .w16 => 16 | .w32 => 32 | .w64 => 64

/-- Bytes of a far access (R142). -/
def MSize.bytes : MSize → Nat | .b1 => 1 | .b2 => 2 | .b4 => 4 | .b8 => 8

/-- Lane groups of a range (Table 7-5). -/
def VRange.groups : VRange → List Nat
  | .w256 k => [k.toNat]
  | .w512 hi => if hi then [2, 3] else [0, 1]
  | .w1024 => [0, 1, 2, 3]

/-- The first byte lane of a range and the lane after its last. -/
def VRange.lo : VRange → Nat
  | .w256 k => 32 * k.toNat
  | .w512 hi => if hi then 64 else 0
  | .w1024 => 0
def VRange.hi : VRange → Nat
  | .w256 k => 32 * k.toNat + 32
  | .w512 hi => if hi then 128 else 64
  | .w1024 => 128

/-- Indices of the elements of w bits in a range, ascending (R89). -/
def VRange.elts (r : VRange) (w : Nat) : List Nat :=
  (List.range ((r.hi - r.lo) * 8 / w)).map (r.lo * 8 / w + ·)

/-- Lane groups an operation occupies, its mirrors among them (R94). -/
def VCtl.occupies (c : VCtl) : List Nat :=
  if c.mir then c.rng.groups ++ c.rng.groups.map fun g => (g + 2) % 4 else c.rng.groups

end Sys2Proof

namespace Sys2Proof.Machine

abbrev Res := Host.Outcome State Fault Refusal

/-- A write of the host to BAR 0, where the management mailbox, the launch windows and the supervisor pages lie: port 0 refuses it with completer abort
before its IDE stream is keyed (R383, R384). -/
def State.viaHost (s : State) (f : State → Res) : Res := if s.portOpen 0 false then f s else .next { s with outbox := s.outbox ++ [.refused] }

/-- An instruction whose own check fails raises its trap before issue; otherwise it has its effect (R100). -/
def State.guard (s : State) (t : Option TrapInfo) (f : State → State) : Res :=
  match t with
  | some x => .next (s.issueTrap s.cur.cl x)
  | none => .next (f s)

/-- A trap of the current slot. -/
def State.trapOf (s : State) (cause : BitVec 8) (core : Option Nat := none) (info : BitVec 16 := 0#16) : TrapInfo :=
  { cause := cause, info := info, core := core.map (BitVec.ofNat 8), slot := BitVec.ofNat 3 s.cur.slot.num }

/-- The first failing check. -/
def firstOf : List (Option TrapInfo) → Option TrapInfo
  | [] => none
  | some t :: _ => some t
  | none :: r => firstOf r

def failIf (b : Bool) (t : TrapInfo) : Option TrapInfo := if b then some t else none

/-! ### Elements -/

/-- Element i of w bits (R89). -/
def elt {n : Nat} (w : Nat) (v : BitVec n) (i : Nat) : Nat := (v.extractLsb' (w * i) w).toNat

/-- All elements of w bits of a vector register. -/
def elts (w : Nat) (v : BitVec 1024) : List Nat := (List.range (1024 / w)).map (elt w v)

/-- A register whose elements of w bits are those of a list, element 0 first. -/
def ofElts (w : Nat) (xs : List Nat) : BitVec 1024 :=
  BitVec.ofNat 1024 (xs.foldr (fun x acc => x % 2 ^ w + 2 ^ w * acc) 0)

/-- The bit of a predicate that governs element i of w bits (R89). -/
def pbit (w : Nat) (p : BitVec 128) (i : Nat) : Bool := p.getLsbD (w / 8 * i)

/-- Byte lanes of the elements of w bits that a predicate enables (R89). -/
def eltLanes (w : Nat) (p : BitVec 128) : BitVec 128 :=
  let b := w / 8
  BitVec.ofNat 128 ((List.range (128 / b)).foldl (fun m i => if pbit w p i then m ||| ((2 ^ b - 1) <<< (b * i)) else m) 0)

/-- Byte lanes of a range. -/
def rangeLanes (r : VRange) : BitVec 128 := BitVec.ofNat 128 (2 ^ r.hi - 2 ^ r.lo)

/-- The signed value of an element. -/
def sx (w n : Nat) : Int := if n % 2 ^ w ≥ 2 ^ (w - 1) then (n % 2 ^ w : Nat) - (2 ^ w : Nat) else (n % 2 ^ w : Nat)

/-- The w-bit two's-complement code of an integer. -/
def ux (w : Nat) (i : Int) : Nat := (i % (2 ^ w : Nat)).toNat

/-- Clamp to the signed or unsigned range of w bits. -/
def clampInt (w : Nat) (sgn : Bool) (i : Int) : Nat :=
  let lo : Int := if sgn then -(2 ^ (w - 1) : Nat) else 0
  let hi : Int := if sgn then (2 ^ (w - 1) : Nat) - 1 else (2 ^ w : Nat) - 1
  ux w (if i < lo then lo else if i > hi then hi else i)

/-! ### Register operands -/

/-- Physical vector and predicate registers of the bundle (R90). -/
def Cluster.vphys (k : Cluster) (r : BitVec 6) : Nat := physV k.rrbv r
def Cluster.pphys (k : Cluster) (p : BitVec 4) : Nat := physP k.rrbp p

/-- An operand that reads the gather data queue (R91). -/
def Cluster.mapped (k : Cluster) (r : BitVec 6) : Bool := k.gqctl && r == 31#6

/-- A vector operand at issue: the register, or the popped queue entry (R91); zero where the queue is still empty, which an address check alone can
meet, before the bundle holds for an entry (R100, R170; log entry 84). -/
def Cluster.vsrc (k : Cluster) (x : Core) (a : VSrc) : BitVec 1024 :=
  if k.mapped a.r then x.gq.headD 0#1024 else x.vreg (k.vphys a.r)

/-- A predicate operand. -/
def Cluster.psrc (k : Cluster) (x : Core) (p : BitVec 4) : BitVec 128 := x.preg (k.pphys p)

/-- Pop the queue once on a core where some operand reads it (R91). -/
def Cluster.popOn (k : Cluster) (ops : List VSrc) (x : Core) : Core :=
  if ops.any fun a => k.mapped a.r then { x with gq := x.gq.tail } else x

/-! ### Format-table entries (Table 5-5) -/

/-- The index an fs field names (R81). -/
def Cluster.fsIdx (k : Cluster) : FSel → Nat
  | .ft n => n.toNat
  | .lc j => (k.lc.getD j.val 0#32).toNat % 8

/-- The entry of a core that an operation reads at issue (R78). -/
def Cluster.fte (k : Cluster) (x : Core) (f : FSel) : BitVec 64 := x.ft.getD (k.fsIdx f) 0#64

def ftA (e : BitVec 64) : Nat := (e.extractLsb' 0 4).toNat
def ftB (e : BitVec 64) : Nat := (e.extractLsb' 4 4).toNat
def ftD (e : BitVec 64) : Nat := (e.extractLsb' 8 4).toNat
def ftAcc (e : BitVec 64) : Bool := e.getLsbD 12
def ftRm (e : BitVec 64) : Nat := (e.extractLsb' 13 3).toNat
def ftNsat (e : BitVec 64) : Bool := e.getLsbD 16
def ftN (e : BitVec 64) : Nat := (e.extractLsb' 17 4).toNat + 1
def ftTol (e : BitVec 64) : Nat := (e.extractLsb' 21 5).toNat
def ftSc (e : BitVec 64) : Nat := (e.extractLsb' 26 3).toNat

/-- The rounding an entry names (R71, R72). -/
def ftRnd (e : BitVec 64) : Rnd := ⟨rmAll.getD (ftRm e) .rne, ftNsat e, ftN e⟩

/-- A pairing of Table 5-6. -/
def ftPairOk (e : BitVec 64) : Bool :=
  let f8 (n : Nat) : Bool := n == 3 || n == 4 || n == 6 || n == 7
  (ftA e == 5 && ftB e == 5) || (f8 (ftA e) && f8 (ftB e)) || (ftA e == 1 && ftB e == 1)

/-- The entries an M operation accepts (R80). -/
def ftMOk (e : BitVec 64) : Bool :=
  ftPairOk e && decide (ftD e ≤ 7) && decide (ftRm e ≤ 4) && decide (ftSc e ≤ 1)

/-- Write one field of an entry (R157). -/
def ftPut (e : BitVec 64) (f : FtField) (v : Word) : BitVec 64 :=
  let put (lo w : Nat) : BitVec 64 :=
    let m : BitVec 64 := BitVec.ofNat 64 ((2 ^ w - 1) * 2 ^ lo)
    (e &&& ~~~m) ||| ((v <<< lo) &&& m)
  match f with
  | .afmt => put 0 4
  | .bfmt => put 4 4
  | .dfmt => put 8 4
  | .acc => put 12 1
  | .rm => put 13 3
  | .sm => put 16 1
  | .srb => put 17 4
  | .t => put 21 5
  | .scsrc => put 26 3

/-- Reserved bits of an entry are not kept (R79). -/
def ftClean (v : Word) : BitVec 64 := v &&& 0x1FFFFFFF#64

/-! ### Addresses of the L slot -/

/-- The scratchpad address of an LM access (R159). -/
def lmAddr (x : Core) (aa : BitVec 4) (off : BitVec 6) : Nat := (x.areg aa + (off.signExtend 32 <<< 7)).toNat

/-- The far address of VLDF, VSTF and VUPD (R171, R173). -/
def Cluster.farAddr (k : Cluster) (x : Core) (tm aa : BitVec 4) (off : BitVec 6) : Nat :=
  (((k.tmField tm 0).setWidth 57) + (x.areg aa).setWidth 57 + (off.signExtend 57 <<< 7)).toNat

/-- Every listed byte lies in the core's own scratchpad (R160). -/
def ownAll (core : Nat) (as : List Nat) : Bool := as.all fun a => a / 2 ^ 18 == core

/-! ### Entries of the pipeline image (R347) -/

/-- A result or store with the fields it does not use cleared. -/
def entryOf (kind dk : PKind) (slot : Slot) (dest part land issue : Nat) (val : BitVec 256) (mask : BitVec 32) (o : Origin) : PEntry :=
  { kind := kind, dk := dk, dest := dest, part := part, slot := slot, land := land, perf := 0, issue := issue, val := val, mask := mask,
    addrs := [], rep := none, fail := none, origin := o }

/-- The entries of a vector result: one for each lane group of its range (R347). -/
def Cluster.flyV (k : Cluster) (slot : Slot) (phys lat : Nat) (groups : List Nat) (res : BitVec 1024) (lanes : BitVec 128) : List PEntry :=
  groups.map fun g => entryOf .v .v slot phys g (k.now + lat) k.now (res.extractLsb' (256 * g) 256) (lanes.extractLsb' (32 * g) 32) k.origin

/-- The entry of a predicate result; the bits written stand in the upper half of VAL. -/
def Cluster.flyP (k : Cluster) (slot : Slot) (phys lat : Nat) (res bits : BitVec 128) : PEntry :=
  entryOf .p .p slot phys 0 (k.now + lat) k.now (bits ++ res) 0xFFFFFFFF#32 k.origin

/-- The entry of an address-register result. -/
def Cluster.flyA (k : Cluster) (ad : BitVec 4) (lat : Nat) (res : BitVec 32) : PEntry :=
  entryOf .a .a .a ad.toNat 0 (k.now + lat) k.now (res.setWidth 256) 0xF#32 k.origin

/-- The nine entries of a distribution result (R347). -/
def Cluster.flyD (k : Cluster) (slot : Slot) (d : BitVec 3) (lat : Nat) (pts : BitVec 2048) (words : BitVec 128) : List PEntry :=
  ((List.range 8).map fun g => entryOf .d .d slot d.toNat g (k.now + lat) k.now (pts.extractLsb' (256 * g) 256) 0xFFFFFFFF#32 k.origin) ++
    [entryOf .dwords .dwords slot d.toNat 0 (k.now + lat) k.now (words.setWidth 256) 0xFFFF#32 k.origin]

/-- Add entries to a core's pipeline. -/
def Core.fly (x : Core) (es : List PEntry) : Core := { x with pipe := x.pipe ++ es }

end Sys2Proof.Machine
end

