-- ==== Sys2Proof/Machine/Far.lean ====
section
/-!
DEFINITION. Far accesses: reads, writes and atomics at their homes with translation, poison and race detection (R142 to R147, R171
to R173, R290 to R309, R371), updates of pennants and update-only lines, and the holds that end in them (R45, R143).
-/
namespace Sys2Proof.Machine

/-- The word of little-endian bytes. -/
def leWord (bs : List Byte) : Word := BitVec.ofNat 64 (leNat bs)

/-- A target some bytes further on. -/
def Target.add : Target → Nat → Target
  | .hbm a, n => .hbm (a + n)
  | .window c a, n => .window c (a + n)
  | .penAlias c a, n => .penAlias c (a + n)
  | .host a, n => .host (a + n)
  | .peer d a, n => .peer d (a + n)

/-- The home stack of an address of device memory (R24). -/
def homeStack (a : Nat) : Nat := 2 * (a / 2 ^ 37) + a / 256 % 2

/-- Caches serve n bytes of a peer page without a request to the peer: a read's bytes stand in the cluster's far cache or its die's RDC, a write's line
in the far cache; an NC page is not held (R25, R306). An access that goes to the home anyway has n = 0. -/
def State.peerHeld (s : State) (c va : Nat) (acc : Acc) (pa n : Nat) : Bool :=
  decide (0 < n) && !s.ncAt c (s.cl c).ctx va && (linesOf pa n).all fun l =>
    let need := lineNeed pa n l
    let far := findLine l (s.cl c).far
    match acc with
    | .write => far.isSome
    | _ =>
      let v (x : Option PeerLine) : BitVec 128 := match x with | some x => x.valid | none => 0#128
      need &&& ~~~(v far ||| v (findLine l (s.rdcOf (c / 4)))) == 0#128

/-- Translate an access of n bytes of a cluster's run that caches may serve; a peer's windows may refuse it, which only the peer decides (R304). One
that finds no open port is refused like it, and as a memory error where it is the host's (log entry 64); a read of a granule poisoned there is a memory
error (R361). -/
def State.xlateN (s : State) (c va n : Nat) (acc : Acc) (core : Option (BitVec 8)) : Except TrapInfo Target × State :=
  let k := s.cl c
  match s.translate (some c) k.ctx k.desc va acc with
  | (.error x, s) => (.error (transTrap va x core), s)
  | (.ok t, s) =>
    if (match t with | .peer d a => s.peerHeld c va acc (peerPa d a) n | _ => false) then (.ok t, s)
    else if s.routeLost (c / 4) t then (.error { memTrap va with core := core }, s)
    else
      match s.portLost t, t with
      | (true, s), .peer _ _ => (.error (transTrap va 6 core), s)
      | (true, s), _ => (.error { memTrap va with core := core }, s)
      | (false, s), .peer d a =>
        let (r, s) := s.free
        if r % 2 = 1 then (.error (transTrap va 6 core), s)
        else if acc ≠ .write ∧ s.peerPoisoned (peerPa d a) (Nat.max n 1) then (.error { memTrap va with core := core }, s)
        else (.ok (.peer d a), s)
      | (false, s), t => (.ok t, s)

/-- Translate an access of a cluster's run that goes to its home. -/
def State.xlate (s : State) (c va : Nat) (acc : Acc) (core : Option (BitVec 8)) : Except TrapInfo Target × State := s.xlateN c va 0 acc core

/-- The device-memory lines that some lanes of an access touch. -/
def touched (a : Nat) (lanes : List Nat) : List Nat := (lanes.map fun i => (a + i) / 128).eraseDups

/-- A plain read of some lanes of n bytes by a run: translation, recall, poison, race, bytes. Peer bytes come through the far cache unless the
page is NC; race says whether detection applies (R25, R290, R298, R301, R302, R306, R361). -/
def State.farReadAt (s : State) (c va n : Nat) (core : Option (BitVec 8)) (lanes : List Nat) (race : Bool) : Except TrapInfo (List Byte) × State :=
  match s.xlateN c va n .read core with
  | (.error t, s) => (.error t, s)
  | (.ok (.hbm a), s) =>
    let ls := touched a lanes
    let s := ls.foldl State.recall s
    if ls.any fun l => s.poisoned (128 * l) 128 then (.error { memTrap va with core := core }, s)
    else match (if race then s.raceIn c (s.cl c).rde ls else none) with
      | some (_, tag) => (.error { raceTrap va false tag with core := core }, s)
      | none => ((.ok ((List.range n).map fun i => s.raw (s.readAddr (a + i)))), s)
  | (.ok (.peer d a), s) =>
    let (bs, s) := if s.ncAt c (s.cl c).ctx va then s.paRead (c / 4) (.peer d a) n else s.farPeer c (peerPa d a) n (s.cl c).ctx
    (.ok bs, s)
  | (.ok t, s) => let (bs, s) := s.paRead (c / 4) t n; (.ok bs, s)

/-- A plain read of n bytes by a run. -/
def State.farRead (s : State) (c va n : Nat) (core : Option (BitVec 8)) : Except TrapInfo (List Byte) × State :=
  s.farReadAt c va n core (List.range n) true

/-- Write bytes at a target's home; none leaves a byte as it is. -/
def State.putMasked (s : State) (die : Nat) (t : Target) (bs : List (Option Byte)) : State :=
  if bs.all Option.isSome then s.paWrite die t (bs.filterMap id)
  else bs.zipIdx.foldl (fun s (b, i) => match b with | some b => s.paWrite die (t.add i) [b] | none => s) s

/-- A plain write of a run; a granule no byte of which is written is not touched (R286, R290, R301, R302). -/
def State.farWrite (s : State) (c va : Nat) (bs : List (Option Byte)) (core : Option (BitVec 8)) : Except TrapInfo Unit × State :=
  match s.xlateN c va bs.length .write core with
  | (.error t, s) => (.error t, s)
  | (.ok (.hbm a), s) =>
    let ls := touched a ((List.range bs.length).filter fun i => (bs.getD i none).isSome)
    let s := ls.foldl State.recall s
    match s.raceIn c (s.cl c).rde ls with
    | some (_, tag) => (.error { raceTrap va true tag with core := core }, s)
    | none =>
      let s := s.putMasked (c / 4) (.hbm a) bs
      (.ok (), s.tagWrite c (s.cl c).rde (vcGet (s.cl c).vc c) ls)
  | (.ok (.peer d a), s) =>
    (.ok (), if s.ncAt c (s.cl c).ctx va then s.putMasked (c / 4) (.peer d a) bs else s.farPeerWrite c (peerPa d a) bs (s.cl c).ctx)
  | (.ok t, s) => (.ok (), s.putMasked (c / 4) t bs)

/-! ### Atomics -/

/-- The word an ATOM writes (R145). -/
def atomNew (op : AtomOp) (sgn w64 : Bool) (old opnd cmp : Word) : Word :=
  let n := if w64 then 64 else 32
  let o := old.toNat % 2 ^ n
  let x := opnd.toNat % 2 ^ n
  let less (a b : Nat) : Bool := if sgn then decide (sx n a < sx n b) else decide (a < b)
  match op with
  | .add => BitVec.ofNat 64 ((o + x) % 2 ^ n)
  | .min => BitVec.ofNat 64 (if less x o then x else o)
  | .max => BitVec.ofNat 64 (if less o x then x else o)
  | .and => BitVec.ofNat 64 (o &&& x)
  | .or => BitVec.ofNat 64 (o ||| x)
  | .xor => BitVec.ofNat 64 (o ^^^ x)
  | .swap => BitVec.ofNat 64 x
  | .cas => BitVec.ofNat 64 (if o = cmp.toNat % 2 ^ n then x else o)

/-- Queue an update of a pennant that lands at the end of a CT cycle, with the clocks of a credit from another cluster (R230, R231, R302). -/
def State.penUpdate (s : State) (c a : Nat) (operand : Word) (vc : List (BitVec 20)) : State :=
  s.onCl c fun k => { k with penUpds := k.penUpds ++ [⟨a, (operand.extractLsb' 0 10).toNat, (operand.extractLsb' 10 21).toNat, s.ct, vc⟩] }

/-- Copy map m0 to map m1 of a region, ⌈N/8⌉ bytes (R371). -/
def State.copyMap (s : State) (src dst pages : Nat) : State := { s with mem := wrBytes s.mem dst (rdBytes s.mem src ((pages + 7) / 8)) }

/-- A cas on the root word of a snapshot region (R371): the value returned and the state after. -/
def State.rootCas (s : State) (r : Snap) (ord : MOrder) (cmp new : Word) : Word × State :=
  let old := s.rawWord r.root
  -- a write by an atomic: the granule's tag becomes (0, 0) (R302)
  let put (s : State) : State := { s with mem := wrBytes s.mem r.root (leBytes 8 new.toNat) }.setTag r.root 0#24
  let mapAt (b : Bool) : Nat := if b then r.map1 else r.map0
  if cmp ≠ old then (old, s)
  else if new = old ||| 2#64 ∧ old.getLsbD 1 = false then
    (old, put (s.copyMap (mapAt (old.getLsbD 0)) (mapAt (!old.getLsbD 0)) r.pages))
  else if old.getLsbD 1 ∧ (ord = .rel ∨ ord = .ar) ∧ new.getLsbD 0 ≠ old.getLsbD 0 ∧
      new.extractLsb' 32 32 = old.extractLsb' 32 32 + 1#32 ∧ new.extractLsb' 2 30 = 0#30 then
    let s := put s
    (old, if new.getLsbD 1 then s.copyMap (mapAt (new.getLsbD 0)) (mapAt (!new.getLsbD 0)) r.pages else s)
  else (old ||| 4#64, s)

/-- An atomic of an agent of a die at a target's home: the old value and the state after. A pennant alias takes a 64-bit add as an update, and
any other access to it reads zero (R230); a root word takes a cas (R371); device memory is tagged (0, 0) (R302). -/
def State.atomTarget (s : State) (die : Nat) (t : Target) (op : AtomOp) (sgn w64 : Bool) (ord : MOrder) (opnd cmp : Word) (rtn : Bool)
    (vc : List (BitVec 20)) : Word × State :=
  let n := if w64 then 8 else 4
  match t with
  | .penAlias c a => (0#64, if op = .add ∧ w64 ∧ !rtn then s.penUpdate c a opnd vc else s)
  | .hbm a =>
    let (bs, s) := s.hbmRead a n
    match s.snaps.find? fun r => decide (r.root ≤ a) && decide (a < r.root + 8) with
    | some r =>
      if op = .cas ∧ w64 then s.rootCas r ord cmp opnd else (leWord bs, s)
    | none =>
      let s := s.hbmWrite a (leBytes n (atomNew op sgn w64 (leWord bs) opnd cmp).toNat)
      (leWord bs, s.tagAt a 0#24)
  | t =>
    let (bs, s) := s.paRead die t n
    (leWord bs, s.paWrite die t (leBytes n (atomNew op sgn w64 (leWord bs) opnd cmp).toNat))

/-- The location of a pennant in its cluster's scratchpad window (R302). -/
def penLoc (c a : Nat) : Nat := 2 ^ 39 + c * 2 ^ 27 + a

/-- Location of a synchronisation, by PA. The manual gives sidecars to device memory; the model keeps one at every location, so that no
synchronisation elsewhere leads to a report without a race (R301; log entry 63). -/
def Target.loc : Target → Nat
  | .hbm a => a
  | .window c a | .penAlias c a => penLoc c a
  | .host a => 2 ^ 50 + a
  | .peer d a => peerPa d a

/-- The clocks a credit to a pennant of another cluster carries (R302). -/
def State.creditVc (s : State) (c : Nat) (t : Target) : List (BitVec 20) :=
  match t with
  | .penAlias d _ => if d = c then [] else (s.cl c).vc
  | _ => []

/-- The release an operation performs before its write, with its clock (R287, R302). -/
def State.releaseAt (s : State) (c : Nat) (sc : Scope) (t : Target) : State :=
  let s := s.release c sc
  if sc = .cluster then s else s.vcRelease c t.loc sc

/-- The acquire an operation performs after its read (R287, R302). -/
def State.acquireAt (s : State) (c : Nat) (sc : Scope) (t : Target) : State := (s.acquire c sc).vcAcquire c t.loc sc

/-- A FENCE acquire: it discards the copies its scope asks for and completes the relaxed reads whose releases it meets (R147, R287, Table 19-2). -/
def State.fenceAcq (s : State) (c : Nat) (sc : Scope) : State :=
  let s := (s.cl c).relaxed.foldl (fun s (_, rel, v) => if scopeMeets c sc rel then s.vcTake c v else s) (s.acquire c sc)
  s.onCl c fun k => { k with relaxed := [] }

/-- Accesses a FENCE release orders later ones after: earlier posted accesses that have not performed (R147). -/
def Cluster.before (k : Cluster) (n : Nat) : Bool := k.posted.any fun q => decide (q.id < n)

/-- Before a far access performs, the FENCE releases before it do, and the acquires that belong to them (R147, R294): those whose next posted
number is at most n. -/
def State.settle (s : State) (c n : Nat) : State :=
  ((s.cl c).relAfter.filter fun f => decide (f.2.2 ≤ n)).foldl (fun s (f : Scope × Bool × Nat) =>
    let s := (s.release c f.1).onCl c fun k => { k with relAfter := k.relAfter.filter (· != f) }
    if f.2.1 then s.fenceAcq c f.1 else s) s

/-- The release that a FENCE put on an ATOM or BSET, at its word (Table 19-2). -/
def State.fenceAt (s : State) (c : Nat) (fence : Option Scope) (t : Target) : State :=
  match fence with
  | some sc => s.releaseAt c sc t
  | none => s

/-- A relaxed ATOM's read, kept with its location's sidecar for a later acquire (Table 19-2). -/
def State.noteRead (s : State) (c : Nat) (t : Target) : State :=
  let x := (sget 0#8 t.loc s.sideScope, sget [] t.loc s.sidecar)
  s.onCl c fun k => { k with relaxed := sput (0#8, []) t.loc x k.relaxed }

/-- An ATOM of a run, holding or posted, at a VA: its old value (R145, R293). -/
def State.atomAt (s : State) (c va : Nat) (op : AtomOp) (sgn w64 : Bool) (ord : MOrder) (sc : Scope) (opnd cmp : Word) (rtn : Bool)
    (fence : Option Scope) : Except TrapInfo Word × State :=
  match s.xlate c va .write none with
  | (.error t, s) => (.error t, s)
  | (.ok t, s) =>
    let n := if w64 then 8 else 4
    if (match t with | .hbm a => s.poisoned a n | _ => false) then (.error (memTrap va), s)
    else
      let vc := s.creditVc c t
      let s := s.fenceAt c fence t
      let s := if ord = .rel ∨ ord = .ar then s.releaseAt c sc t else s
      let (old, s) := s.atomTarget (c / 4) t op sgn w64 ord opnd cmp rtn vc
      (.ok old, if ord = .acq ∨ ord = .ar then s.acquireAt c sc t else s.noteRead c t)

/-- No partial result: a value no update leaves, so that an update by zero is one too. -/
def noUpd : UpdWord := ⟨.add, .s32, 0x8000000000000000#64⟩

/-- A commutative update that enters an update-only line, keyed by its element's address. A word that holds a partial result of
another operation or type merges its whole line first; a new line may push another out (R16, R295, R296). -/
def State.updAt (s : State) (c a : Nat) (op : UpdOp) (ty : UpdTy) (v : Word) : State :=
  let clash := (s.cl c).upd.any fun (b, u) => b / 8 == a / 8 && (u.op != op || u.ty != ty)
  let s := if clash then s.mergeLine c (a / 128) else s
  let s := if (s.cl c).upd.any fun (b, _) => b / 128 == a / 128 then s else s.farRoom c
  s.onCl c fun k =>
    let x := match k.upd.find? fun (b, _) => b == a with
      | some (_, u) => updFold op ty u.val v
      | none => BitVec.ofNat 64 (v.toNat % 2 ^ (8 * updBytes ty))
    { k with upd := sput noUpd a ⟨op, ty, x⟩ k.upd }

/-- A commutative update at a target's home. -/
def State.updHome (s : State) (c : Nat) (t : Target) (op : UpdOp) (ty : UpdTy) (v : Word) : State :=
  let n := updBytes ty
  let (bs, s) := s.paRead (c / 4) t n
  let s := s.paWrite (c / 4) t (leBytes n (updFold op ty (leWord bs) v).toNat)
  match t with | .hbm a => s.tagAt a 0#24 | _ => s

/-- A commutative update of a run: an update-only line for device memory unless the page is NC, the scratchpad itself for a window, a posted
atomic at the home otherwise (R146, R173, R295, R306). -/
def State.updTarget (s : State) (c : Nat) (t : Target) (nc : Bool) (op : UpdOp) (ty : UpdTy) (v : Word) : State :=
  match t with
  | .hbm a => if s.isRoot a then s else if nc then s.updHome c t op ty v else s.updAt c a op ty v
  | .penAlias d a => if op = .add ∧ updBytes ty = 8 then s.penUpdate d a v (s.creditVc c t) else s
  | t => s.updHome c t op ty v

/-! ### Meetings with the program in a scratchpad bank (R23) -/

/-- The order in which entries that meet in a register land: later issue last, and within a bundle the slot order of R97. -/
def PEntry.order (e : PEntry) : Nat := 8 * e.issue + e.slot.num

/-- The lanes an entry moves, with their addresses. -/
def PEntry.lanes (e : PEntry) : List (Nat × Nat) := e.addrs.zipIdx.filterMap fun (a, j) => if e.mask.getLsbD j then some (j, a) else none

/-- The bank of a cluster scratchpad address: its core and bits [10:7]. -/
def bankOf (a : Nat) : Nat := a / 2 ^ 18 * 16 + a / 128 % 16

/-- Stores that perform in the cycle, in the order the last one to a byte remains: by core, then by issue (R23, R97). -/
def Cluster.storesNow (k : Cluster) : List PEntry :=
  (k.cores.zipIdx.flatMap fun (x, _) => sortBy PEntry.order (x.pipe.filter fun e => e.kind = .store ∧ e.land ≤ k.now))

/-- Scratchpad bytes the program loads and stores in this cycle (R23). -/
def Cluster.loadedNow (k : Cluster) : List Nat :=
  k.cores.flatMap fun x => (x.pipe.filter fun e => e.kind = .load ∧ e.perf ≤ k.now).flatMap fun e => e.lanes.map (·.2)
def Cluster.storedNow (k : Cluster) : List Nat :=
  (k.storesNow.flatMap fun e => e.lanes.map (·.2)) ++
    ((k.inits.filter fun i => decide (i.perf ≤ k.now)).flatMap fun i => (List.range 8).map (i.addr + ·))

/-- Work of the cluster's program may perform in this cycle. -/
def Cluster.mayTick (k : Cluster) (ct : Nat) : Bool :=
  k.run.isSome && !k.halted && !k.frozenPre && k.slip.isNone && decide (k.throttle ≤ ct) && k.holds.all fun h => decide (h.due ≠ 0 ∧ h.due ≤ ct)

/-- An access of an address from outside the timetable would meet the program's in a bank of this cycle; a byte the program stores in the cycle
is written before it (R23). -/
def Cluster.bankBusy (k : Cluster) (ct a n : Nat) : Bool :=
  k.mayTick ct && ((k.loadedNow ++ k.storedNow).any fun b => bankOf b == bankOf a) && !((List.range n).all fun i => k.storedNow.contains (a + i))

/-- A part of a far access would meet the program's own access in a scratchpad window: it takes a later cycle (R23, R289). -/
def State.windowBusy (s : State) (c va n : Nat) (acc : Acc) : Bool :=
  match (s.translate (some c) (s.cl c).ctx (s.cl c).desc va acc).1 with
  | .ok (.window d a) => (s.cl d).bankBusy s.ct a n
  | _ => false

/-! ### Code lines (R18, R85, R87) -/

/-- Read a fetch line for the window: its bytes, or why it cannot be read. -/
def State.readLine (s : State) (c line : Nat) : Except TrapInfo (BitVec 512) × State :=
  match s.xlate c (64 * line) .fetch none with
  | (.error t, s) => (.error t, s)
  | (.ok (.hbm a), s) =>
    if s.poisoned a 64 then (.error (memTrap (64 * line)), s)
    else let (bs, s) := s.hbmRead a 64; (.ok (BitVec.ofNat 512 (leNat bs)), s)
  | (.ok t, s) => let (bs, s) := s.paRead (c / 4) t 64; (.ok (BitVec.ofNat 512 (leNat bs)), s)

/-- The bytes of a fetch line, from the code window or as a fetch reads them; none where it cannot be read. -/
def State.lineBytes (s : State) (c line : Nat) : Option (List Byte) × State :=
  match (s.cl c).win.find? fun (l, _) => l == line with
  | some (_, w) => (some ((List.range 64).map fun i => w.extractLsb' (8 * i) 8), s)
  | none => match s.readLine c line with
    | (.ok w, s) => (some ((List.range 64).map fun i => w.extractLsb' (8 * i) 8), s)
    | (.error _, s) => (none, s)

/-- The bundle at or after an address, padding skipped (R85), and whether its line can be read: where it cannot, the address is the first of that
line that may hold it. -/
def State.skipPad (c : Nat) : Nat → BitVec 57 → State → (BitVec 57 × Bool) × State
  | 0, a, s => ((a, true), s)
  | n + 1, a, s =>
    match s.lineBytes c (a.toNat / 64) with
    | (none, s) => ((a, false), s)
    | (some bs, s) => if bs.getD (a.toNat % 64) 1#8 = 0#8 then State.skipPad c n (BitVec.ofNat 57 ((a.toNat / 64 + 1) * 64)) s else ((a, true), s)

/-- The byte address that follows the bundle at or after an address. -/
def State.afterBundle (s : State) (c : Nat) (a : BitVec 57) : Option (BitVec 57) × State :=
  match State.skipPad c 512 a s with
  | ((_, false), s) => (none, s)
  | ((b, true), s) =>
    match s.lineBytes c (b.toNat / 64) with
    | (none, s) => (none, s)
    | (some bs, s) => (some (b + BitVec.ofNat 57 (bundleLen (bs.getD (b.toNat % 64) 0#8))), s)

/-! ### Holds (R45, R47) -/

/-- The posted accesses a hold waits for: every earlier one where it releases, otherwise those before the last FENCE release (R140, R147, R293). -/
def Cluster.waitsFor (k : Cluster) (kind : HoldKind) : List Nat :=
  let rel := match kind with
    | .far (.atom _ _ _ _ ord _ _ _ fence) _ => ord == MOrder.rel || ord == MOrder.ar || fence.isSome
    | .lnch _ _ => true
    | _ => false
  let n : Nat := if rel then k.nextPost else (k.relAfter.map fun f => f.2.2).foldl Nat.max 0
  (k.posted.filter fun q => decide (q.id < n)).map (·.id)

/-- Begin a hold of the current bundle, which ends at a CT or, where none is known, when its condition is met. -/
def State.beginHold (s : State) (kind : HoldKind) (due : Nat) : State :=
  s.onMe fun k => { k with holds := k.holds ++ [⟨kind, s.cur.slot, k.pc, s.ct + 1, due, false, k.waitsFor kind⟩] }

/-- Begin a far access that performs at a CT the memory system chooses, later than this cycle. -/
def State.beginFar (s : State) (k : FarKind) (parts : List FarPart) : State :=
  let (n, s) := s.free
  s.beginHold (.far k parts) (s.ct + 1 + n)

/-- Queue a posted access with a free cycle to perform at (R140, R146, R173). -/
def State.post (s : State) (grp : Nat) (k : PostKind) : State :=
  let (n, s) := s.free
  s.onMe fun c => { c with posted := c.posted ++ [⟨c.nextPost, grp, k, c.origin, s.ct + 1 + n, s.ct⟩], nextPost := c.nextPost + 1 }

/-- The range check of a far address: bits [63:57] zero (R143). -/
def farRange (a : Word) : Bool := a.extractLsb' 57 7 != 0#7

end Sys2Proof.Machine
end

