-- ==== Sys2Proof/Machine/SlotS.lean ====
section
/-!
DEFINITION. The integer, flag, control-transfer, loop and waiting instructions of the S slot (R124 to R141). Operands are read at
issue; results are queued to land at their latency (R124, Table 7-6).
-/
namespace Sys2Proof.Machine

/-- A result for an s register (R124). -/
def State.sOut (s : State) (sd : BitVec 5) (v : Word) (lat : Nat) : Res := .next (s.onMe fun k => k.sWrite sd v lat)

/-- An s register of the current cluster. -/
def State.sx (s : State) (i : BitVec 5) : Word := s.me.sreg i

/-- A result for a flag, landing at t + 1 (R128). -/
def State.bOut (s : State) (bd : BitVec 3) (v : Bool) : Res := .next (s.onMe fun k => k.sLand (.b bd) (if v then 1#256 else 0#256) 1)

def imm16s (i : BitVec 16) : Word := i.signExtend 64
def imm16z (i : BitVec 16) : Word := i.setWidth 64

/-- The upper 64 bits of a product (R125). -/
def mulHigh (sgn : Bool) (a b : Word) : Word :=
  if sgn then BitVec.ofInt 64 (a.toInt * b.toInt / (2 ^ 64 : Nat)) else BitVec.ofNat 64 (a.toNat * b.toNat / 2 ^ 64)
def lesser (sgn : Bool) (a b : Word) : Word := if sgn then (if b.slt a then b else a) else (if b.ult a then b else a)
def greater (sgn : Bool) (a b : Word) : Word := if sgn then (if a.slt b then b else a) else (if a.ult b then b else a)
/-- Shift counts: bits [5:0] of the second operand (R125). -/
def shCount (b : Word) : Nat := (b.setWidth 6).toNat

/-! ### Integer operations (R125, R126) -/

def execNop (s : State) : Res := .next s
def execAdd (sd sa sb : BitVec 5) (s : State) : Res := s.sOut sd (s.sx sa + s.sx sb) 1
def execSub (sd sa sb : BitVec 5) (s : State) : Res := s.sOut sd (s.sx sa - s.sx sb) 1
def execAnd (sd sa sb : BitVec 5) (s : State) : Res := s.sOut sd (s.sx sa &&& s.sx sb) 1
def execOr (sd sa sb : BitVec 5) (s : State) : Res := s.sOut sd (s.sx sa ||| s.sx sb) 1
def execXor (sd sa sb : BitVec 5) (s : State) : Res := s.sOut sd (s.sx sa ^^^ s.sx sb) 1
def execShl (sd sa sb : BitVec 5) (s : State) : Res := s.sOut sd (s.sx sa <<< shCount (s.sx sb)) 1
def execShr (sd sa sb : BitVec 5) (s : State) : Res := s.sOut sd (s.sx sa >>> shCount (s.sx sb)) 1
def execSra (sd sa sb : BitVec 5) (s : State) : Res := s.sOut sd ((s.sx sa).sshiftRight (shCount (s.sx sb))) 1
def execMul (sd sa sb : BitVec 5) (s : State) : Res := s.sOut sd (s.sx sa * s.sx sb) 3
def execMulh (sgn : Bool) (sd sa sb : BitVec 5) (s : State) : Res := s.sOut sd (mulHigh sgn (s.sx sa) (s.sx sb)) 3
def execMin (sgn : Bool) (sd sa sb : BitVec 5) (s : State) : Res := s.sOut sd (lesser sgn (s.sx sa) (s.sx sb)) 1
def execMax (sgn : Bool) (sd sa sb : BitVec 5) (s : State) : Res := s.sOut sd (greater sgn (s.sx sa) (s.sx sb)) 1
def execAddImm (sd sa : BitVec 5) (imm : BitVec 16) (s : State) : Res := s.sOut sd (s.sx sa + imm16s imm) 1
def execSubImm (sd sa : BitVec 5) (imm : BitVec 16) (s : State) : Res := s.sOut sd (s.sx sa - imm16s imm) 1
def execAndImm (sd sa : BitVec 5) (imm : BitVec 16) (s : State) : Res := s.sOut sd (s.sx sa &&& imm16z imm) 1
def execOrImm (sd sa : BitVec 5) (imm : BitVec 16) (s : State) : Res := s.sOut sd (s.sx sa ||| imm16z imm) 1
def execXorImm (sd sa : BitVec 5) (imm : BitVec 16) (s : State) : Res := s.sOut sd (s.sx sa ^^^ imm16z imm) 1
def execShlImm (sd sa : BitVec 5) (k : BitVec 6) (s : State) : Res := s.sOut sd (s.sx sa <<< k.toNat) 1
def execShrImm (sd sa : BitVec 5) (k : BitVec 6) (s : State) : Res := s.sOut sd (s.sx sa >>> k.toNat) 1
def execSraImm (sd sa : BitVec 5) (k : BitVec 6) (s : State) : Res := s.sOut sd ((s.sx sa).sshiftRight k.toNat) 1
def execMulImm (sd sa : BitVec 5) (imm : BitVec 16) (s : State) : Res := s.sOut sd (s.sx sa * imm16s imm) 3
def execMulhImm (sd sa : BitVec 5) (imm : BitVec 16) (s : State) : Res := s.sOut sd (mulHigh true (s.sx sa) (imm16s imm)) 3
def execMinImm (sd sa : BitVec 5) (imm : BitVec 16) (s : State) : Res := s.sOut sd (lesser true (s.sx sa) (imm16s imm)) 1
def execMaxImm (sd sa : BitVec 5) (imm : BitVec 16) (s : State) : Res := s.sOut sd (greater true (s.sx sa) (imm16s imm)) 1

/-! ### Flags and constants (R127 to R129) -/

def execCmp (c : Cond) (bd : BitVec 3) (sa sb : BitVec 5) (s : State) : Res := s.bOut bd (c.holds (s.sx sa) (s.sx sb))
def execCmpImm (c : Cond) (bd : BitVec 3) (sa : BitVec 5) (imm : BitVec 12) (s : State) : Res :=
  s.bOut bd (c.holds (s.sx sa) (imm.signExtend 64))
def execFop (op : FlagOp) (bd ba bb : BitVec 3) (s : State) : Res := s.bOut bd (op.apply (s.me.flag ba) (s.me.flag bb))
def execLdi (sd : BitVec 5) (imm : BitVec 21) (s : State) : Res := s.sOut sd (imm.signExtend 64) 1

/-- Put 16 bits at position h of a word (R127). -/
def putHalf (v : Word) (h : BitVec 2) (imm : BitVec 16) : Word :=
  (v &&& ~~~(0xFFFF#64 <<< (16 * h.toNat))) ||| (imm.setWidth 64 <<< (16 * h.toNat))
def execLdih (sd : BitVec 5) (h : BitVec 2) (imm : BitVec 16) (s : State) : Res := s.sOut sd (putHalf (s.sx sd) h imm) 1

/-! ### Control transfer (R130 to R132) -/

/-- A target at a byte displacement from the bundle, mod 2^57 (R130). -/
def Cluster.disp (k : Cluster) (d : BitVec 21) : BitVec 57 := k.pc + d.signExtend 57

/-- A taken transfer: two delay bundles, then the target (R131). -/
def State.transfer (s : State) (target : BitVec 57) : State := s.onMe fun k => { k with delay := some (target, 2) }

def execBr (cf : CF) (disp : BitVec 21) (s : State) : Res :=
  .next (if cf.taken s.me.flag then s.transfer (s.me.disp disp) else s)

/-- The address check of JMP and RET (R130). -/
def State.jumpCheck (s : State) (sa : BitVec 5) : Option TrapInfo := failIf (farRange (s.sx sa)) (s.trapOf cRANGE)
def execJmp (sa : BitVec 5) (s : State) : Res := s.guard (s.jumpCheck sa) fun s => s.transfer ((s.sx sa).setWidth 57)

/-- The byte address after the second delay bundle (R131); none where a line of the two cannot be read. -/
def State.linkOf (s : State) : Option (BitVec 57) × State :=
  match s.afterBundle s.cur.cl s.me.next with
  | (none, s) => (none, s)
  | (some a, s) => s.afterBundle s.cur.cl a

/-- The link value follows the second delay bundle (R131). Where that cannot be read yet, the register holds a free value until a delay bundle that
issues shows where the second one ends (log entry 72). -/
def execCall (sd : BitVec 5) (disp : BitVec 21) (s : State) : Res :=
  match s.linkOf with
  | (some link, s) => .next ((s.transfer (s.me.disp disp)).onMe fun k => k.sWrite sd (link.setWidth 64) 1)
  | (none, s) =>
    let (n, s) := s.free
    .next ((s.transfer (s.me.disp disp)).onMe fun k => k.sLand (.link sd) ((BitVec.ofNat 57 n).setWidth 256) 1)
/-- A delay bundle issues, the bundle at its next address to follow: a link value not known before is known once the second one's end is. -/
def State.linkNow (s : State) (c : Nat) (before : Option (BitVec 57 × Nat)) : State :=
  match (s.cl c).linkPend, before with
  | some (i, h), some (_, n) =>
    if h ≠ (s.cl c).handler.isSome then s
    else
      match (if n = 2 then s.afterBundle c (s.cl c).next else (some (s.cl c).next, s)) with
      | (some a, s) => s.onCl c fun k => { k with s := k.s.set i.toNat (a.setWidth 64), linkPend := none }
      | (none, s) => s
  | _, _ => s
def execRet (sa : BitVec 5) (s : State) : Res := s.guard (s.jumpCheck sa) fun s => s.transfer ((s.sx sa).setWidth 57)

/-! ### Loops (R133 to R135) -/

/-- The traps of LOOP (R133). -/
def State.loopCheck (s : State) (count : Word) : Option TrapInfo :=
  firstOf [failIf (s.me.loops.length == 6) (s.trapOf cLOOPSTK),
    failIf (count == 0#64 || decide (count.toNat ≥ 2 ^ 32)) (s.trapOf cLOOPCNT)]

/-- Start a loop level at an address (R133). -/
def Cluster.enterLoop (k : Cluster) (count : Word) (start : BitVec 57) : Cluster :=
  { (k.heal (.loop k.loops.length)).sLand (.lc k.loops.length) 0#256 1 with loops := ⟨count.setWidth 32, start, start.toNat / 64, false⟩ :: k.loops }
/-- Start a loop level: START is the address of the next bundle in sequential order, padding passed (R85, R133). -/
def State.startLoop (s : State) (count : Word) : State :=
  let (a, s) := State.skipPad s.cur.cl 512 s.me.next s
  s.onMe fun k => k.enterLoop count a.1
def execLoop (n : BitVec 16) (s : State) : Res := s.guard (s.loopCheck (imm16z n)) fun s => s.startLoop (imm16z n)
def execLoopReg (sa : BitVec 5) (s : State) : Res := s.guard (s.loopCheck (s.sx sa)) fun s => s.startLoop (s.sx sa)

/-- ENDL and LBRK with no active level (R134). -/
def State.noLoopCheck (s : State) : Option TrapInfo := failIf s.me.loops.isEmpty (s.trapOf cLOOPSTK)

/-- Close an iteration of the innermost level (R134): the bases are those of the next bundle, and no results in flight (R350). The level's pinned
lines end with this bundle's (R135). -/
def Cluster.endIteration (k : Cluster) : Cluster :=
  match k.loops with
  | [] => k
  | l :: rest =>
    let n := k.lc.getD rest.length 0#32 + 1#32
    let k := { k.sLand (.lc rest.length) (n.setWidth 256) 1 with rrbv := k.rrbv - 1#5, rrbp := k.rrbp - 1#3 }
    if n.ult l.tc then { k with next := l.start, loops := { l with last := k.pc.toNat / 64, closed := true } :: rest } else { k with loops := rest }
def execEndl (s : State) : Res := s.guard s.noLoopCheck fun s => s.onMe Cluster.endIteration
def execLbrk (cf : CF) (disp : BitVec 21) (s : State) : Res :=
  s.guard s.noLoopCheck fun s =>
    if cf.taken s.me.flag then s.onMe fun k => { k with loops := k.loops.tail, next := k.disp disp } else s

/-! ### Waiting (R136, R137) -/

def execNopn (n : BitVec 21) (s : State) : Res := .next (s.onMe fun k => { k with nopLeft := n.toNat - 1 })

/-- The timegroup size of the run. -/
def Cluster.tgSize (k : Cluster) : Nat := match k.run with | some r => r.tgSize | none => 1

/-- TTSYNC arrives and holds; alone in its timegroup it completes at once (R48). -/
def execTtsync (s : State) : Res :=
  .next (if s.me.tgSize ≤ 1 then s else (s.beginHold .ttsync 0).onMe fun k => { k with tts := some s.ct })

/-! ### Pennants and bunting (R138 to R141) -/

/-- The address check of PINI, PARR and PWAIT (R138). -/
def State.penCheck (s : State) (sa : BitVec 5) : Option TrapInfo :=
  firstOf [failIf ((s.sx sa).extractLsb' 26 38 != 0#38) (s.trapOf cRANGE),
    failIf ((s.sx sa).extractLsb' 0 3 != 0#3) (s.trapOf cALIGN)]

def execPini (sa sb : BitVec 5) (s : State) : Res :=
  s.guard (s.penCheck sa) fun s => s.onMe fun k =>
    { k with inits := k.inits ++ [⟨(k.sreg sa).toNat, pennantInit (k.sreg sb), k.now + 8, k.now⟩] }
def execParr (sa : BitVec 5) (s : State) : Res :=
  s.guard (s.penCheck sa) fun s => s.onMe fun k => { k with parrs := k.parrs ++ [⟨(k.sreg sa).toNat, 1, 0, k.now + 8, []⟩] }

/-- A pennant's overflow seen by a sample (R231). -/
def penOverflow (slot : Slot) : TrapInfo := { cause := cSCHED, info := 4#16, slot := BitVec.ofNat 3 slot.num }

/-- The sample of a PWAIT: overflow, a differing phase, or neither. -/
inductive PenSample where
  | overflow | differs | waits
deriving DecidableEq, Repr
def Cluster.penSample (k : Cluster) (a : Nat) (phase : Bool) : PenSample :=
  let w := k.spWord a
  if w.getLsbD 62 then .overflow else if w.getLsbD 63 != phase then .differs else .waits

/-- A fault a hold of the current bundle ended in, delivered at the end of its last hold (R336). -/
def Cluster.faultHold (k : Cluster) (t : TrapInfo) (o : Origin) : Cluster :=
  { k with holdFault := some (k.holdFault.getD ⟨o, t⟩) }

/-- A completing wait takes the clocks of the credits that the pennant's flips consumed (R302). -/
def Cluster.consume (k : Cluster) (a : Nat) : Cluster := { k with vc := match sget [] a k.penVc with | [] => k.vc | v => vcMax k.vc v }

/-- Wait for a pennant's phase to differ from an operand (R138); a completing wait merges the credits' clocks (R302). -/
def State.penWait (s : State) (a : Nat) (phase : Bool) : State :=
  match s.me.penSample a phase with
  | .differs => (s.onMe fun k => k.consume a).dropPeer (s.cur.cl / 4) .fabric
  | .overflow => s.onMe fun k => k.faultHold (penOverflow s.cur.slot) k.origin
  | .waits => s.beginHold (.pwait a phase) 0
def execPwait (sa sb : BitVec 5) (s : State) : Res :=
  s.guard (s.penCheck sa) fun s => s.penWait (s.sx sa).toNat ((s.sx sb).getLsbD 0)
def execPwaitImm (sa : BitVec 5) (ph : Bool) (s : State) : Res :=
  s.guard (s.penCheck sa) fun s => s.penWait (s.sx sa).toNat ph

/-- The word a BSET sets a bit in (R140). -/
def bsetAddr (a b : Word) : Nat := a.toNat + 8 * (b.toNat / 64)
def State.bsetCheck (s : State) (sa sb : BitVec 5) : Option TrapInfo :=
  firstOf [failIf (decide (bsetAddr (s.sx sa) (s.sx sb) ≥ 2 ^ 57)) (s.trapOf cRANGE),
    failIf ((s.sx sa).extractLsb' 0 3 != 0#3) (s.trapOf cALIGN)]
def execBset (sc : Scope) (sa sb : BitVec 5) (s : State) : Res :=
  s.guard (s.bsetCheck sa sb) fun s =>
    (s.post 0 (.bset (bsetAddr (s.sx sa) (s.sx sb)) ((s.sx sb).toNat % 64) sc (s.me.active.map fun x => x.cmd.id) s.me.relFence)).onMe fun k =>
      { k with relFence := none }

def State.bwaitCheck (s : State) (sa : BitVec 5) : Option TrapInfo :=
  firstOf [failIf (farRange (s.sx sa)) (s.trapOf cRANGE), failIf ((s.sx sa).extractLsb' 0 3 != 0#3) (s.trapOf cALIGN)]

/-- BWAIT holds; its first read comes at a free cycle, and each re-read within 1,024 CT cycles (R141). -/
def execBwait (sc : Scope) (sa sb : BitVec 5) (s : State) : Res :=
  s.guard (s.bwaitCheck sa) fun s =>
    let (n, s) := s.freeIn 1 1024
    s.beginHold (.bwait (s.sx sa).toNat (s.sx sb) sc) (s.ct + n)

end Sys2Proof.Machine
end

