-- ==== Sys2Proof/Machine/SlotSys.lean ====
section
/-!
DEFINITION. The memory, cross-core, system-register and run-control instructions of the S slot (R142 to R154), but for TRAP.
-/
namespace Sys2Proof.Machine

/-! ### Far accesses (R142 to R147) -/

/-- The address of LDF and STF (R142). -/
def State.farEa (s : State) (sa : BitVec 5) (off : BitVec 12) : Word := s.sx sa + off.signExtend 64

/-- Range, then alignment of a far access of n bytes (R143). -/
def State.farCheck (s : State) (a : Word) (n : Nat) : Option TrapInfo :=
  firstOf [failIf (farRange a) (s.trapOf cRANGE), failIf (a.toNat % n != 0) (s.trapOf cALIGN)]

/-- A part with no data. -/
def farPart (va : Word) (data : BitVec 1024) : List FarPart := [⟨0, va.toNat, 0#128, data⟩]

def execLdf (sgn : Bool) (sz : MSize) (sd sa : BitVec 5) (off : BitVec 12) (s : State) : Res :=
  s.guard (s.farCheck (s.farEa sa off) sz.bytes) fun s =>
    s.beginFar (.ldf sgn sz.bytes sd) (farPart (s.farEa sa off) 0#1024)
def execStf (sz : MSize) (sd sa : BitVec 5) (off : BitVec 12) (s : State) : Res :=
  s.guard (s.farCheck (s.farEa sa off) sz.bytes) fun s =>
    s.beginFar (.stf sz.bytes) (farPart (s.farEa sa off) ((s.sx sd).setWidth 1024))

/-- An ATOM that is posted (R146). -/
def atomPosted (op : AtomOp) (rtn : Bool) (ord : MOrder) : Bool := !rtn && ord == .none && op != .swap && op != .cas
def execAtom (op : AtomOp) (sgn w64 rtn : Bool) (ord : MOrder) (sc : Scope) (sd sa sb : BitVec 5) (s : State) : Res :=
  s.guard (s.farCheck (s.sx sa) (if w64 then 8 else 4)) fun s =>
    (if atomPosted op rtn ord then s.post 0 (.atom (s.sx sa).toNat op sgn w64 (s.sx sb) s.me.relFence)
    else s.beginFar (.atom op sgn w64 rtn ord sc sd (s.sx sd) s.me.relFence) (farPart (s.sx sa) ((s.sx sb).setWidth 1024))).onMe fun k =>
      { k with relFence := none }

/-- The wider of two scopes. -/
def joinScope (a b : Scope) : Scope :=
  match a, b with
  | .fabric, _ | _, .fabric => .fabric
  | .device, _ | _, .device => .device
  | .die, _ | _, .die => .die
  | .cluster, .cluster => .cluster

/-- FENCE never holds: its release is performed before the run's next far access performs, with its acquire where it has one, and it covers the
run's next ATOM or BSET (R147, Table 19-2). -/
def State.fenceRel (s : State) (acq : Bool) (sc : Scope) : State :=
  s.onMe fun k => { k with relAfter := k.relAfter ++ [(sc, acq, k.nextPost)], relFence := some (joinScope sc (k.relFence.getD .cluster)) }
def execFence (kind : FenceKind) (sc : Scope) (s : State) : Res :=
  .next (match kind with
    | .acq => s.fenceAcq s.cur.cl sc
    | .rel => s.fenceRel false sc
    | .ar => (s.fenceAcq s.cur.cl sc).fenceRel true sc)

/-! ### Cross-core operations and tags (R148 to R150) -/

/-- The identity of a CRED operation (Table 9-5). -/
def credId : RedOp → BitVec 32
  | .minS => 0x7FFFFFFF#32
  | .maxS => 0x80000000#32
  | .minN | .and => 0xFFFFFFFF#32
  | .fadd => 0x80000000#32
  | .fmax => 0xFF800000#32
  | .fmin => 0x7F800000#32
  | .add | .maxN | .or | .xor => 0#32

/-- One level of the tree of fadd: positions 2i and 2i + 1 combined by rne32 (R148). -/
def credLevel : List (BitVec 32) → List (BitVec 32)
  | a :: b :: r => code32 (Ext.add (val32 a) (val32 b)) :: credLevel r
  | l => l
def credTree : Nat → List (BitVec 32) → List (BitVec 32)
  | 0, l => l
  | n + 1, l => credTree n (credLevel l)

/-- An f32 extreme under the ranking of R188, a NaN canonical. -/
def fpick (above : Ext → Ext → Bool) (a b : BitVec 32) : BitVec 32 :=
  if (val32 a).isNan || (val32 b).isNan then canonNan32 else if above (val32 b) (val32 a) then b else a

/-- The value CRED returns for the 256 contributions (Table 9-5). -/
def credFold (op : RedOp) (xs : List (BitVec 32)) : Word :=
  let f (g : BitVec 32 → BitVec 32 → BitVec 32) : BitVec 32 := xs.foldl g (credId op)
  match op with
  | .add => xs.foldl (fun a x => a + x.signExtend 64) 0#64
  | .minS => (f fun a x => if x.slt a then x else a).signExtend 64
  | .maxS => (f fun a x => if a.slt x then x else a).signExtend 64
  | .minN => (f fun a x => if x.ult a then x else a).setWidth 64
  | .maxN => (f fun a x => if a.ult x then x else a).setWidth 64
  | .and => (f (· &&& ·)).setWidth 64
  | .or => (f (· ||| ·)).setWidth 64
  | .xor => (f (· ^^^ ·)).setWidth 64
  | .fadd => ((credTree 8 xs).headD 0#32).setWidth 64
  | .fmax => (f (fpick rankAbove)).setWidth 64
  | .fmin => (f (fpick rankBelow)).setWidth 64

/-- The contributions of all 256 cores: an inactive core gives the identity (R148). -/
def Cluster.credIn (k : Cluster) (op : RedOp) (aa : BitVec 4) : List (BitVec 32) :=
  (List.range 256).map fun i => if k.cmsk.getLsbD i then (k.core i).areg aa else credId op
def execCred (op : RedOp) (sd : BitVec 5) (aa : BitVec 4) (s : State) : Res := s.sOut sd (credFold op (s.me.credIn op aa)) 40

/-- A mask from a test of each core. -/
def maskOf (f : Nat → Bool) : BitVec 256 := BitVec.ofNat 256 ((List.range 256).foldl (fun m i => if f i then m ||| 2 ^ i else m) 0)

/-- The mask of a rectangle (R149). -/
def rectMask (v : Word) : BitVec 256 :=
  let f (lo : Nat) : Nat := (v.extractLsb' lo 4).toNat
  maskOf fun c => decide (f 0 ≤ c / 16 ∧ c / 16 ≤ f 4 ∧ f 8 ≤ c % 16 ∧ c % 16 ≤ f 12)

/-- The new mask of CMSK (R149). -/
def Cluster.newMask (k : Cluster) (m : CmskOp) : BitVec 256 :=
  match m with
  | .all => BitVec.allOnes 256
  | .rect sa => rectMask (k.sreg sa)
  | .and aa => k.cmsk &&& maskOf fun c => (k.core c).areg aa != 0#32
  | .set aa => maskOf fun c => (k.core c).areg aa != 0#32
  | .not => ~~~k.cmsk
def execCmsk (m : CmskOp) (s : State) : Res := .next (s.onMe fun k => k.sLand .cmsk (k.newMask m) 1)

def execTex (ek : BitVec 3) (imm : BitVec 16) (s : State) : Res := .next (s.onMe fun k => k.sLand (.e ek) (imm.setWidth 256) 1)
def execTexReg (ek : BitVec 3) (sa : BitVec 5) (imm : BitVec 16) (s : State) : Res :=
  .next (s.onMe fun k => k.sLand (.e ek) (((k.sreg sa).setWidth 16 + imm).setWidth 256) 1)

/-! ### System registers (R151, Table 9-6) -/

/-- ERRINJ is open to the context's runs (Table 9-6, Table 19-5). -/
def Cluster.injOk (k : Cluster) : Bool := k.desc.getLsbD 60 || k.priv

/-- A drain in flight folds some prefix of its blocks into AMAX before it is read (R232). -/
def foldAmax (v : Word) (xs : List (BitVec 32)) : Word := (xs.foldl (fun a x => fpick rankAbove a x) (v.setWidth 32)).setWidth 64
def State.foldUpTo (s : State) (c : Nat) (tm : BitVec 4) : State :=
  (List.range (s.cl c).drains.length).foldl (fun s i =>
    match (s.cl c).drains[i]? with
    | none => s
    | some d =>
      if d.kind1 ∨ d.tm ≠ tm then s
      else
        let (n, s) := s.freeIn 0 d.folds.length
        s.onCl c fun k => { k.putTm (64 * tm.toNat + 41) (foldAmax (k.tmField tm 41) (d.folds.take n)) with
          drains := k.drains.set i { d with folds := d.folds.drop n } }) s
def State.foldPrefix (s : State) (tm : BitVec 4) : State := s.foldUpTo s.cur.cl tm

/-- The value of a register whose read does not hold (Table 9-6). -/
def State.sysRead (s : State) (sel : BitVec 12) : Word :=
  let k := s.me
  let n := sel.toNat
  if n = 0 then (dtBits k.dt).setWidth 64
  else if n = 1 then BitVec.ofNat 64 s.ct
  else if n = 2 then k.slipmax.setWidth 64
  else if n = 3 then BitVec.ofNat 64 k.holdmax
  else if n = 4 then s.ageq.setWidth 64
  else if n = 5 then k.ctx.setWidth 64
  else if n = 6 then k.rrbv.setWidth 64
  else if n = 7 then k.rrbp.setWidth 64
  else if n = 8 then (if k.gqctl then 1#64 else 0#64)
  else if n = 0x10 then k.readCause
  else if n = 0x11 then k.trappc
  else if n = 0x12 then k.trapdt
  else if n = 0x13 then k.trapopc
  else if n = 0x14 then k.traphnd
  else if n = 0x18 then k.errinj
  else if 0x20 ≤ n ∧ n ≤ 0x27 then (k.lvlix.getD (n - 0x20) 0#20).setWidth 64
  else if 0x30 ≤ n ∧ n ≤ 0x35 then (k.lc.getD (n - 0x30) 0#32).setWidth 64
  else if 0x40 ≤ n ∧ n ≤ 0x5F then k.tmField (sel.setWidth 4) 41
  else 0#64

/-- A selector outside Table 9-6, then a register the run may not read or write (R151). -/
def State.srrCheck (s : State) (sel : BitVec 12) : Option TrapInfo :=
  firstOf [failIf (!selAssigned sel) (s.trapOf cILLINS),
    failIf ((sel == 4#12 && !s.me.priv) || (sel == 0x18#12 && !s.me.injOk)) (s.trapOf cPRIV)]
def State.srwCheck (s : State) (sel : BitVec 12) : Option TrapInfo :=
  let open' := sel == 2#12 || sel == 6#12 || sel == 7#12 || sel == 8#12 || sel == 0x14#12 ||
    (sel == 0x18#12 && s.me.injOk) || (sel == 4#12 && s.me.priv)
  firstOf [failIf (!selAssigned sel) (s.trapOf cILLINS), failIf (!open') (s.trapOf cPRIV)]

/-- An incomplete drain of the run that names a map (R151). -/
def Cluster.drainOn (k : Cluster) (tm : BitVec 4) : Bool := k.drains.any fun d => !d.kind1 && d.tm == tm

/-- SRR; AMAX folds in a prefix of the drains in flight, AMAXF holds for them (R151, R232). -/
def execSrr (sd : BitVec 5) (sel : BitVec 12) (s : State) : Res :=
  s.guard (s.srrCheck sel) fun s =>
    let tm : BitVec 4 := sel.setWidth 4
    if 0x50 ≤ sel.toNat ∧ sel.toNat ≤ 0x5F ∧ s.me.drainOn tm then s.beginHold (.amaxf sd tm) 0
    else
      let s := if 0x40 ≤ sel.toNat ∧ sel.toNat ≤ 0x4F then s.foldPrefix tm else s
      s.onMe fun k => k.sWrite sd (s.sysRead sel) 2

/-- What SRW changes; seen by the next bundle (R151). -/
def State.sysWrite (s : State) (sel : BitVec 12) (v : Word) : State :=
  let land (d : SDest) : State := s.onMe fun k => k.sLand d (v.setWidth 256) 1
  let n := sel.toNat
  if n = 2 then land .slipmax
  else if n = 4 then { s with ageq := v.setWidth 32 }
  else if n = 6 then land .rrbv
  else if n = 7 then land .rrbp
  else if n = 8 then land .gqctl
  else if n = 0x14 then land .traphnd
  else if n = 0x18 then land .errinj
  else s
def execSrw (sel : BitVec 12) (sa : BitVec 5) (s : State) : Res := s.guard (s.srwCheck sel) fun s => s.sysWrite sel (s.sx sa)

/-! ### Run control (R152 to R154) -/

/-- Nothing that the handler issued is in flight (R346). -/
def Cluster.quiet (k : Cluster) : Bool :=
  k.simg.isEmpty && k.tmw.isEmpty && k.ftw.isEmpty && k.inits.isEmpty && k.parrs.isEmpty && k.drains.isEmpty &&
    k.cores.all fun x => x.pipe.isEmpty && x.streams.isEmpty && x.loads.isEmpty && x.bankUpds.isEmpty

/-- RFT outside a handler is an illegal instruction; inside, it returns once the handler's work has landed (R153, R346). -/
def execRft (s : State) : Res :=
  s.guard (failIf s.me.handler.isNone (s.trapOf cILLINS)) fun s =>
    s.onMe fun k => if k.quiet then k.leaveHandler else { k with rft := true }

/-- END: the run enters its engine wait at this bundle (R50, R154). -/
def execEndRun (s : State) : Res :=
  .next ((s.beginHold .endWait 0).onMe fun k => { k with ending := true, next := k.pc })

def State.lnchCheck (s : State) (sa : BitVec 5) : Option TrapInfo := s.farCheck (s.sx sa) 128
/-- LNCH holds until the launch unit answers (R152). -/
def execLnch (sd sa : BitVec 5) (s : State) : Res :=
  s.guard (s.lnchCheck sa) fun s =>
    let (n, s) := s.free
    s.beginHold (.lnch sd (s.sx sa).toNat) (s.ct + 1 + n)

/-- YIELD: with a pre-emption request pending, the freeze begins at this bundle (R154). -/
def execYieldRun (s : State) : Res := .next (s.onMe fun k => if k.preReq then { k with frozenPre := true, freezeCt := s.ct } else k)

end Sys2Proof.Machine
end

