-- ==== Sys2Proof/Machine/SlotA.lean ====
section
/-!
DEFINITION. The A slot: address registers of each active core, and the writes of tensor maps and format tables (R155 to R157).
-/
namespace Sys2Proof.Machine

/-- A result of each active core for an address register, landing at t + 1 (R155). -/
def State.aOut (s : State) (ad : BitVec 4) (f : Nat → Core → BitVec 32) : Res :=
  .next (s.onMe fun k => k.onActive fun i x => x.fly [k.flyA ad 1 (f i x)])

def execAadd (ad aa ab : BitVec 4) (s : State) : Res := s.aOut ad fun _ x => x.areg aa + x.areg ab
def execAsub (ad aa ab : BitVec 4) (s : State) : Res := s.aOut ad fun _ x => x.areg aa - x.areg ab
def execAaddi (ad aa : BitVec 4) (imm : BitVec 18) (s : State) : Res := s.aOut ad fun _ x => x.areg aa + imm.signExtend 32
def execAshl (ad aa : BitVec 4) (n : BitVec 5) (s : State) : Res := s.aOut ad fun _ x => x.areg aa <<< n.toNat
def execAmov (ad aa : BitVec 4) (s : State) : Res := s.aOut ad fun _ x => x.areg aa
def execAldi (ad : BitVec 4) (imm : BitVec 18) (s : State) : Res := s.aOut ad fun _ _ => imm.signExtend 32

/-- What ACIX writes on core i of cluster c (Table 9-7, R16). -/
def cixOf (m : CixMode) (c i : Nat) : BitVec 32 :=
  BitVec.ofNat 32 (match m with
    | .ix => i
    | .row => i / 16
    | .col => i % 16
    | .tix => i % 16 * 16 + i / 16
    | .base => i * 2 ^ 18
    | .dev => 256 * c + i)
def execAcix (m : CixMode) (ad : BitVec 4) (s : State) : Res := s.aOut ad fun i _ => cixOf m s.cur.cl i
def execAfroms (ad : BitVec 4) (n : BitVec 5) (s : State) : Res := s.aOut ad fun _ _ => (s.sx n).setWidth 32

/-- A tensor-map field write, seen at t + 3, once whatever CMSK holds (R156); a value keeps the field's low bits. -/
def State.tmOut (s : State) (tm : BitVec 4) (fld : Fin 53) (v : Word) : Res :=
  .next (s.onMe fun k => { k with
    tmw := k.tmw ++ [⟨64 * tm.toNat + fld.val, BitVec.ofNat 64 (v.toNat % 2 ^ tmWidth fld.val), k.now + 3⟩] })
def execShw (tm : BitVec 4) (fld : Fin 53) (sm : BitVec 5) (s : State) : Res := s.tmOut tm fld (s.sx sm)
def execShwi (tm : BitVec 4) (fld : Fin 53) (imm : BitVec 11) (s : State) : Res :=
  s.tmOut tm fld (if tmSigned fld.val then imm.signExtend 64 else imm.setWidth 64)

/-- A format-table write on the active cores, seen at t + 1 (R157). -/
def State.ftOut (s : State) (ft : BitVec 3) (fld : Option FtField) (v : Word) : Res :=
  .next (s.onMe fun k => { k with ftw := k.ftw ++ [⟨ft, fld, v, k.cmsk, k.now + 1⟩] })
def execFtw (ft : BitVec 3) (sm : BitVec 5) (s : State) : Res := s.ftOut ft none (s.sx sm)
def execFtwField (ft : BitVec 3) (fld : FtField) (imm : BitVec 11) (s : State) : Res := s.ftOut ft (some fld) (imm.setWidth 64)

end Sys2Proof.Machine
end

