-- ==== Sys2Proof/Machine/SlotL.lean ====
section
/-!
DEFINITION. The L slot: scratchpad loads and stores, and far accesses of every core (R158 to R173).
-/
namespace Sys2Proof.Machine

/-- The bytes an L instruction moves on one core: for each lane its address, none where the predicate masks it; the bytes of one
aligned unit; and whether the image must stay within one core's scratchpad (R159, R161, R164 to R169). -/
structure LAccess where
  lanes : List (Option Nat)
  unit : Nat
  whole : Bool
deriving DecidableEq, Repr

def maskLanes (p : BitVec 128) (n : Nat) (f : Nat → Nat) (lead : Nat → Nat) : List (Option Nat) :=
  (List.range n).map fun j => if p.getLsbD (lead j) then some (f j) else none

/-- A run of n bytes from A on. -/
def accRun (p : BitVec 128) (a n unit : Nat) (whole : Bool) : LAccess := ⟨(List.range n).map fun j => if n ≠ 128 ∨ p.getLsbD j then some (a + j) else none, unit, whole⟩
/-- VLDB (R165). -/
def accBcast (p : BitVec 128) (a : Nat) : LAccess := ⟨maskLanes p 128 (fun j => a + j % 32) id, 32, false⟩
/-- VLDS (R166). -/
def accStride (p : BitVec 128) (a stride : Nat) : LAccess := ⟨maskLanes p 128 (fun j => a + 4 * stride * (j / 4) + j % 4) id, 4, false⟩
/-- VLDX and VSTX: w-bit elements at offsets (R167). -/
def accIndex (p : BitVec 128) (a : BitVec 32) (w : Nat) (idx : BitVec 1024) : LAccess :=
  let b := w / 8
  ⟨maskLanes p 128 (fun j => (a + BitVec.ofNat 32 (elt w idx (j / b))).toNat + j % b) (fun j => j / b * b), b, false⟩

/-- The bytes touched. -/
def LAccess.bytes (l : LAccess) : List Nat := l.lanes.filterMap id

/-- The range check of R159. -/
def LAccess.rangeBad (l : LAccess) : Bool :=
  l.bytes.any (fun a => decide (a ≥ 2 ^ 26)) ||
    (l.whole && l.bytes.head?.map (· / 2 ^ 18) != l.bytes.getLast?.map (· / 2 ^ 18))
/-- The alignment check of R159. -/
def LAccess.alignBad (l : LAccess) : Bool :=
  l.lanes.zipIdx.any fun (a, j) => match a with | some a => decide ((a + l.unit - j % l.unit) % l.unit ≠ 0) | none => false

/-- The first active core that fails a test. -/
def Cluster.firstBad (k : Cluster) (f : Nat → Core → Bool) : Option Nat := k.activeIdx.find? fun i => f i (k.core i)

/-- The checks of R159 over every active core: range before alignment. -/
def State.lCheck (s : State) (acc : Core → LAccess) : Option TrapInfo :=
  match s.me.firstBad fun _ x => (acc x).rangeBad with
  | some i => some (s.trapOf cRANGE (some i))
  | none =>
    match s.me.firstBad fun _ x => (acc x).alignBad with
    | some i => some (s.trapOf cALIGN (some i))
    | none => none

/-- Bytes of a group of lanes in one entry. -/
def laneGroup (l : List (Option Nat)) (g n : Nat) : List (Option Nat) := (l.drop (n * g)).take n
def laneMask (l : List (Option Nat)) : BitVec 32 :=
  BitVec.ofNat 32 (l.zipIdx.foldl (fun m (a, j) => if a.isSome then m + 2 ^ j else m) 0)

/-- The cycles of an access by where its bytes lie (R160): (own, other). -/
def pickLat (core : Nat) (l : LAccess) (own other : Nat) : Nat := if ownAll core l.bytes then own else other

/-- A load's entries: it samples at perf and lands at land (R160, R347). -/
def Cluster.loadEntry (k : Cluster) (dk : PKind) (dest part perf land : Nat) (l : List (Option Nat)) : PEntry :=
  { entryOf .load dk .l dest part (k.now + land) k.now 0#256 (laneMask l) k.origin with
    perf := k.now + perf, addrs := l.map fun a => a.getD 0 }

/-- A store's entry. -/
def Cluster.storeEntry (k : Cluster) (part perf : Nat) (l : List (Option Nat)) (data : BitVec 256) : PEntry :=
  { entryOf .store .store .l 0 part (k.now + perf) k.now data (laneMask l) k.origin with addrs := l.map fun a => a.getD 0 }

/-- A load into a vector register. -/
def State.loadV (s : State) (vt : BitVec 6) (ops : List VSrc) (acc : Core → LAccess) : Res :=
  s.guard (s.lCheck acc) fun s => s.onMe fun k => k.onActive fun i x =>
    let l := acc x
    (k.popOn ops x).fly ((List.range 4).map fun g =>
      k.loadEntry .v (k.vphys vt) g (pickLat i l 2 8) (pickLat i l 4 14) (laneGroup l.lanes g 32))

/-- A store of a vector operand. -/
def State.storeV (s : State) (ops : List VSrc) (vt : VSrc) (acc : Core → LAccess) : Res :=
  s.guard (s.lCheck acc) fun s => s.onMe fun k => k.onActive fun i x =>
    let l := acc x
    let v := k.vsrc x vt
    (k.popOn ops x).fly ((List.range 4).map fun g =>
      k.storeEntry g (pickLat i l 2 8) (laneGroup l.lanes g 32) (v.extractLsb' (256 * g) 256))

/-- Accesses by form; the cluster gives bases, flags and the mapped queue. -/
def Cluster.accVld (k : Cluster) (aa pd : BitVec 4) (off : BitVec 6) (x : Core) : LAccess := accRun (k.psrc x pd) (lmAddr x aa off) 128 128 false
def Cluster.accVldb (k : Cluster) (aa pd : BitVec 4) (off : BitVec 6) (x : Core) : LAccess := accBcast (k.psrc x pd) (lmAddr x aa off)
def Cluster.accVlds (k : Cluster) (aa pd : BitVec 4) (stride : BitVec 6) (x : Core) : LAccess := accStride (k.psrc x pd) (x.areg aa).toNat stride.toNat
def Cluster.accVldx (k : Cluster) (half : Bool) (aa pd : BitVec 4) (vi : VSrc) (x : Core) : LAccess :=
  accIndex (k.psrc x pd) (x.areg aa) (if half then 16 else 32) (k.vsrc x vi)
def accP (aa : BitVec 4) (off : BitVec 6) (x : Core) : LAccess := accRun 0#128 (lmAddr x aa off) 16 16 false
def accD (aa : BitVec 4) (off : BitVec 6) (x : Core) : LAccess := accRun 0#128 (lmAddr x aa off) 272 16 true

/-! The tag check of a load belongs to the issue of its bundle (R162), so `ck` plays no part below. -/

def execVld (vt : BitVec 6) (aa pd : BitVec 4) (_ck : Chk) (off : BitVec 6) (s : State) : Res := s.loadV vt [] (s.me.accVld aa pd off)
def execVst (vt : VSrc) (aa pd : BitVec 4) (off : BitVec 6) (s : State) : Res := s.storeV [vt] vt (s.me.accVld aa pd off)
def execVldb (vt : BitVec 6) (aa pd : BitVec 4) (_ck : Chk) (off : BitVec 6) (s : State) : Res := s.loadV vt [] (s.me.accVldb aa pd off)
def execVlds (vt : BitVec 6) (aa pd : BitVec 4) (_ck : Chk) (stride : BitVec 6) (s : State) : Res := s.loadV vt [] (s.me.accVlds aa pd stride)
def execVldx (half : Bool) (vt : BitVec 6) (aa pd : BitVec 4) (vi : VSrc) (s : State) : Res := s.loadV vt [vi] (s.me.accVldx half aa pd vi)
def execVstx (half : Bool) (vt : VSrc) (aa pd : BitVec 4) (vi : VSrc) (s : State) : Res := s.storeV [vi, vt] vt (s.me.accVldx half aa pd vi)

/-- PLD and PST move the 16 bytes of a predicate register (R168). -/
def execPld (pt aa : BitVec 4) (_ck : Chk) (off : BitVec 6) (s : State) : Res :=
  s.guard (s.lCheck (accP aa off)) fun s => s.onMe fun k => k.onActive fun i x =>
    let l := accP aa off x
    x.fly [k.loadEntry .p (k.pphys pt) 0 (pickLat i l 2 8) (pickLat i l 4 14) l.lanes]
def execPst (pt aa : BitVec 4) (off : BitVec 6) (s : State) : Res :=
  s.guard (s.lCheck (accP aa off)) fun s => s.onMe fun k => k.onActive fun i x =>
    let l := accP aa off x
    x.fly [k.storeEntry 0 (pickLat i l 2 8) l.lanes ((k.psrc x pt).setWidth 256)]

/-- DLD and DST move the 272-byte image of a distribution register (R169). -/
def execDld (dt : BitVec 3) (aa : BitVec 4) (_ck : Chk) (off : BitVec 6) (s : State) : Res :=
  s.guard (s.lCheck (accD aa off)) fun s => s.onMe fun k => k.onActive fun i x =>
    let l := accD aa off x
    x.fly (((List.range 8).map fun g => k.loadEntry .d dt.toNat g (pickLat i l 2 8) (pickLat i l 5 15) (laneGroup l.lanes g 32)) ++
      [k.loadEntry .dwords dt.toNat 0 (pickLat i l 2 8) (pickLat i l 5 15) (l.lanes.drop 256)])
def execDst (dt : BitVec 3) (aa : BitVec 4) (off : BitVec 6) (s : State) : Res :=
  s.guard (s.lCheck (accD aa off)) fun s => s.onMe fun k => k.onActive fun i x =>
    let l := accD aa off x
    let pts := x.dPts.getD dt.toNat 0#2048
    x.fly (((List.range 8).map fun g => k.storeEntry g (pickLat i l 3 9) (laneGroup l.lanes g 32) (pts.extractLsb' (256 * g) 256)) ++
      [k.storeEntry 8 (pickLat i l 3 9) (l.lanes.drop 256) ((dwClean (x.dWords.getD dt.toNat 0#128)).setWidth 256)])

/-! ### Far accesses (R171 to R173) -/

/-- A far address that is not a multiple of 128 on some active core (R171). -/
def State.vfarCheck (s : State) (tm aa : BitVec 4) (off : BitVec 6) : Option TrapInfo :=
  (s.me.firstBad fun _ x => decide (s.me.farAddr x tm aa off % 128 ≠ 0)).map fun i => s.trapOf cALIGN (some i)

/-- The parts of a far vector access, lowest core first. -/
def Cluster.farParts (k : Cluster) (tm aa pd : BitVec 4) (off : BitVec 6) (data : Core → BitVec 1024) : List FarPart :=
  k.activeIdx.map fun i => let x := k.core i; ⟨i, k.farAddr x tm aa off, k.psrc x pd, data x⟩

def execVldf (vt : BitVec 6) (tm aa pd : BitVec 4) (off : BitVec 6) (s : State) : Res :=
  s.guard (s.vfarCheck tm aa off) fun s => s.beginFar (.vldf (s.me.vphys vt)) (s.me.farParts tm aa pd off fun _ => 0#1024)
def execVstf (vt : VSrc) (tm aa pd : BitVec 4) (off : BitVec 6) (s : State) : Res :=
  s.guard (s.vfarCheck tm aa off) fun s =>
    (s.beginFar .vstf (s.me.farParts tm aa pd off fun x => s.me.vsrc x vt)).onMe fun k => k.onActive fun _ x => k.popOn [vt] x

/-- The updates a VUPD posts on a core: one for each unmasked element (R173). -/
def Cluster.vupds (k : Cluster) (op : UpdOp) (ty : UpdTy) (vt : VSrc) (tm aa pd : BitVec 4) (i : Nat) : List PostKind :=
  let x := k.core i
  let b := updBytes ty
  let a := k.farAddr x tm aa 0#6
  ((List.range (128 / b)).filter fun e => pbit (8 * b) (k.psrc x pd) e).map fun e =>
    .vupd i e ((a + b * e) % 2 ^ 57) op ty (BitVec.ofNat 64 (elt (8 * b) (k.vsrc x vt) e))

/-- VUPD posts its updates as one group, which leaves at most one pending fault (R173). -/
def execVupd (op : UpdOp) (ty : UpdTy) (vt : VSrc) (tm aa pd : BitVec 4) (s : State) : Res :=
  s.guard (s.vfarCheck tm aa 0#6) fun s =>
    let k := s.me
    ((k.activeIdx.flatMap (k.vupds op ty vt tm aa pd)).foldl (fun s p => s.post (k.nextPost + 1) p) s).onMe fun c =>
      c.onActive fun _ x => k.popOn [vt] x

end Sys2Proof.Machine
end

