-- ==== Sys2Proof/Machine/Vector.lean ====
section
/-!
DEFINITION. The V slots (R174 to R197): each active core applies an element function over the range of the instruction.
-/
namespace Sys2Proof.Machine

/-! ### The common frame (R174, R176, R177) -/

/-- n draws of a core's generator, in order, and the core after them (R177). -/
def Core.draw (x : Core) (n : Nat) : List Nat × Core :=
  ((genDraws x.gen n).map (·.toNat), { x with gen := { x.gen with draws := x.gen.draws + n } })

/-- The mismatch of a mirrored result: the lowest lane a soft error changed in the mirror copy, among the lanes it computes (R94). -/
def mirrorFail (x : Core) (c : VCtl) (slot : Slot) (core : Nat) (lanes : BitVec 128) : Option TrapInfo :=
  if c.mir then
    ((List.range 128).find? fun j => (x.upset &&& lanes).getLsbD j).map fun j =>
      { cause := cMIRROR, sub := BitVec.ofNat 8 j, core := some (BitVec.ofNat 8 core), slot := BitVec.ofNat 3 slot.num }
  else none

/-- The vector-checksum trap of a core (R197). -/
def vchkTrap (core : Nat) (slot : Slot) : TrapInfo :=
  { cause := cVCHK, core := some (BitVec.ofNat 8 core), slot := BitVec.ofNat 3 slot.num }

/-- The soft error has struck: a mirrored operation uses it up. -/
def Core.struck (x : Core) (c : VCtl) : Core := if c.mir then { x with upset := 0#128 } else x

/-- The state after a V operation with a vector result: nd draws are taken, and element i of w bits becomes f draws read pred i. With every, the
predicate selects operands or participants and every element of the range is written. -/
def State.vNext (s : State) (c : VCtl) (w lat : Nat) (vd : BitVec 6) (srcs : List VSrc) (every : Bool) (nd : Nat)
    (f : List Nat → (VSrc → BitVec 1024) → BitVec 128 → Nat → Nat) : State :=
  s.onMe fun k => k.onActive fun ci x =>
    let p := k.psrc x c.pred
    let (ds, x') := x.draw nd
    let res := ofElts w ((List.range (1024 / w)).map fun i => if c.rng.elts w |>.contains i then f ds (k.vsrc x) p i else 0)
    let lanes := rangeLanes c.rng &&& (if every then BitVec.allOnes 128 else eltLanes w p)
    let fail := mirrorFail x c s.cur.slot ci lanes
    (k.popOn srcs (x'.struck c)).fly ((k.flyV s.cur.slot (k.vphys vd) lat c.rng.groups res lanes).map fun e =>
      { e with fail := fail, flg := 0#2 ++ ofBit fail.isSome })
def State.vOp (s : State) (c : VCtl) (w lat : Nat) (vd : BitVec 6) (srcs : List VSrc) (every : Bool) (nd : Nat)
    (f : List Nat → (VSrc → BitVec 1024) → BitVec 128 → Nat → Nat) : Res := .next (s.vNext c w lat vd srcs every nd f)

/-- The state after a V operation with a predicate result: byte lane j of the range becomes f draws read pred j. A mirrored one compares the
predicate bits of its range (R176). The flags a check gives are bit 0 for its failure and bit 1 for TRP (Table 23-3). -/
def State.pNext (s : State) (c : VCtl) (w lat : Nat) (pd : BitVec 4) (srcs : List VSrc) (every : Bool)
    (chk : (VSrc → BitVec 1024) → BitVec 2) (f : Core → Cluster → (VSrc → BitVec 1024) → Nat → Bool) : State :=
  s.onMe fun k => k.onActive fun ci x =>
    let p := k.psrc x c.pred
    let b := w / 8
    let res := BitVec.ofNat 128 ((c.rng.elts w).foldl (fun m i => if f x k (k.vsrc x) i then m ||| ((2 ^ b - 1) <<< (b * i)) else m) 0)
    let lanes := rangeLanes c.rng &&& (if every then BitVec.allOnes 128 else eltLanes w p)
    let mir := mirrorFail x c s.cur.slot ci (rangeLanes c.rng)
    let flags := chk (k.vsrc x)
    let fail := match mir with
      | some t => some t
      | none => if flags = 3#2 then some (vchkTrap ci s.cur.slot) else none
    (k.popOn srcs (x.struck c)).fly [{ k.flyP s.cur.slot (k.pphys pd) lat res lanes with fail := fail, flg := flags ++ ofBit mir.isSome }]
def State.pOp (s : State) (c : VCtl) (w lat : Nat) (pd : BitVec 4) (srcs : List VSrc) (every : Bool)
    (chk : (VSrc → BitVec 1024) → BitVec 2) (f : Core → Cluster → (VSrc → BitVec 1024) → Nat → Bool) : Res :=
  .next (s.pNext c w lat pd srcs every chk f)

def noTrap (_ : VSrc → BitVec 1024) : BitVec 2 := 0#2

/-- Element-wise operations of one, two and three operands. -/
def State.vUn (s : State) (c : VCtl) (w lat : Nat) (vd : BitVec 6) (va : VSrc) (g : Nat → Nat) : Res :=
  s.vOp c w lat vd [va] false 0 fun _ rd _ i => g (elt w (rd va) i)
def State.vBin (s : State) (c : VCtl) (w lat : Nat) (vd : BitVec 6) (va vb : VSrc) (g : Nat → Nat → Nat) : Res :=
  s.vOp c w lat vd [va, vb] false 0 fun _ rd _ i => g (elt w (rd va) i) (elt w (rd vb) i)
def State.vTri (s : State) (c : VCtl) (w lat : Nat) (vd : BitVec 6) (va vb vc : VSrc) (g : Nat → Nat → Nat → Nat) : Res :=
  s.vOp c w lat vd [va, vb, vc] false 0 fun _ rd _ i => g (elt w (rd va) i) (elt w (rd vb) i) (elt w (rd vc) i)

/-! ### Integer operations (R179) -/

/-- The exact value of an element under a signedness. -/
def iv (w : Nat) (sgn : Bool) (n : Nat) : Int := if sgn then sx w n else (n : Int)
/-- A result saturated to a range, or wrapped. -/
def satOr (w : Nat) (sgn sat : Bool) (x : Int) : Nat := if sat then clampInt w sgn x else ux w x

def execVadd (c : VCtl) (sz : ISz) (sgn sat : Bool) (vd : BitVec 6) (va vb : VSrc) (s : State) : Res :=
  s.vBin c sz.bits 2 vd va vb fun a b => satOr sz.bits sgn sat (iv sz.bits sgn a + iv sz.bits sgn b)
def execVsub (c : VCtl) (sz : ISz) (sgn sat : Bool) (vd : BitVec 6) (va vb : VSrc) (s : State) : Res :=
  s.vBin c sz.bits 2 vd va vb fun a b => satOr sz.bits sgn sat (iv sz.bits sgn a - iv sz.bits sgn b)
def execVmul (c : VCtl) (sz : ISz) (vd : BitVec 6) (va vb : VSrc) (s : State) : Res :=
  s.vBin c sz.bits 2 vd va vb fun a b => a * b % 2 ^ sz.bits
def execVmulh (c : VCtl) (sz : ISz) (sgn : Bool) (vd : BitVec 6) (va vb : VSrc) (s : State) : Res :=
  s.vBin c sz.bits 2 vd va vb fun a b => ux sz.bits (iv sz.bits sgn a * iv sz.bits sgn b / (2 ^ sz.bits : Nat))
def execVmad (c : VCtl) (sz : ISz) (vd : BitVec 6) (va vb vc : VSrc) (s : State) : Res :=
  s.vTri c sz.bits 2 vd va vb vc fun a b e => (a * b + e) % 2 ^ sz.bits
def execVmin (c : VCtl) (sz : ISz) (sgn : Bool) (vd : BitVec 6) (va vb : VSrc) (s : State) : Res :=
  s.vBin c sz.bits 2 vd va vb fun a b => if iv sz.bits sgn b < iv sz.bits sgn a then b else a
def execVmax (c : VCtl) (sz : ISz) (sgn : Bool) (vd : BitVec 6) (va vb : VSrc) (s : State) : Res :=
  s.vBin c sz.bits 2 vd va vb fun a b => if iv sz.bits sgn b > iv sz.bits sgn a then b else a
def execVabs (c : VCtl) (sz : ISz) (sat : Bool) (vd : BitVec 6) (va : VSrc) (s : State) : Res :=
  s.vUn c sz.bits 2 vd va fun a => satOr sz.bits true sat (sx sz.bits a).natAbs
def execVneg (c : VCtl) (sz : ISz) (sat : Bool) (vd : BitVec 6) (va : VSrc) (s : State) : Res :=
  s.vUn c sz.bits 2 vd va fun a => satOr sz.bits true sat (-(sx sz.bits a))
def execVand (c : VCtl) (sz : ISz) (vd : BitVec 6) (va vb : VSrc) (s : State) : Res := s.vBin c sz.bits 2 vd va vb fun a b => a &&& b
def execVor (c : VCtl) (sz : ISz) (vd : BitVec 6) (va vb : VSrc) (s : State) : Res := s.vBin c sz.bits 2 vd va vb fun a b => a ||| b
def execVxor (c : VCtl) (sz : ISz) (vd : BitVec 6) (va vb : VSrc) (s : State) : Res := s.vBin c sz.bits 2 vd va vb fun a b => a ^^^ b
def execVnot (c : VCtl) (sz : ISz) (vd : BitVec 6) (va : VSrc) (s : State) : Res := s.vUn c sz.bits 2 vd va fun a => 2 ^ sz.bits - 1 - a
def execVshl (c : VCtl) (sz : ISz) (vd : BitVec 6) (va vb : VSrc) (s : State) : Res :=
  s.vBin c sz.bits 2 vd va vb fun a b => a * 2 ^ (b % sz.bits) % 2 ^ sz.bits
def execVshr (c : VCtl) (sz : ISz) (vd : BitVec 6) (va vb : VSrc) (s : State) : Res :=
  s.vBin c sz.bits 2 vd va vb fun a b => a / 2 ^ (b % sz.bits)
def execVsra (c : VCtl) (sz : ISz) (vd : BitVec 6) (va vb : VSrc) (s : State) : Res :=
  s.vBin c sz.bits 2 vd va vb fun a b => ux sz.bits (sx sz.bits a / (2 ^ (b % sz.bits) : Nat))
def execVclz (c : VCtl) (sz : ISz) (vd : BitVec 6) (va : VSrc) (s : State) : Res :=
  s.vUn c sz.bits 2 vd va fun a => if a = 0 then sz.bits else sz.bits - 1 - a.log2
def execVpopc (c : VCtl) (sz : ISz) (vd : BitVec 6) (va : VSrc) (s : State) : Res :=
  s.vUn c sz.bits 2 vd va fun a => ((List.range sz.bits).filter a.testBit).length

/-! ### Floating point (R180, R181) -/

/-- A result rounded once to the sub-type (R70). -/
def fr (ty : FTy) (x : Ext) : Nat := (fpOfTy ty).rne true x
def fd (ty : FTy) (c : Nat) : Ext := (fpOfTy ty).dec c
def fnan (ty : FTy) : Nat := (fpOfTy ty).nan.getD 0
def signBit (ty : FTy) : Nat := 2 ^ (ty.width - 1)

def execFadd (c : VCtl) (ty : FTy) (vd : BitVec 6) (va vb : VSrc) (s : State) : Res :=
  s.vBin c ty.width 4 vd va vb fun a b => fr ty (Ext.add (fd ty a) (fd ty b))
def execFsub (c : VCtl) (ty : FTy) (vd : BitVec 6) (va vb : VSrc) (s : State) : Res :=
  s.vBin c ty.width 4 vd va vb fun a b => fr ty (Ext.sub (fd ty a) (fd ty b))
def execFmul (c : VCtl) (ty : FTy) (vd : BitVec 6) (va vb : VSrc) (s : State) : Res :=
  s.vBin c ty.width 4 vd va vb fun a b => fr ty (Ext.mul (fd ty a) (fd ty b))
def execFfma (c : VCtl) (ty : FTy) (vd : BitVec 6) (va vb vc : VSrc) (s : State) : Res :=
  s.vTri c ty.width 4 vd va vb vc fun a b e => fr ty (Ext.add (Ext.mul (fd ty a) (fd ty b)) (fd ty e))
def execFfms (c : VCtl) (ty : FTy) (vd : BitVec 6) (va vb vc : VSrc) (s : State) : Res :=
  s.vTri c ty.width 4 vd va vb vc fun a b e => fr ty (Ext.sub (Ext.mul (fd ty a) (fd ty b)) (fd ty e))

/-- FMIN and FMAX: a canonical NaN, or an operand's bits with -0 below +0 (R180). -/
def fext (above : Ext → Ext → Bool) (ty : FTy) (a b : Nat) : Nat :=
  if (fd ty a).isNan || (fd ty b).isNan then fnan ty else if above (fd ty b) (fd ty a) then b else a
def execFmin (c : VCtl) (ty : FTy) (vd : BitVec 6) (va vb : VSrc) (s : State) : Res := s.vBin c ty.width 4 vd va vb (fext rankBelow ty)
def execFmax (c : VCtl) (ty : FTy) (vd : BitVec 6) (va vb : VSrc) (s : State) : Res := s.vBin c ty.width 4 vd va vb (fext rankAbove ty)
def execFabs (c : VCtl) (ty : FTy) (vd : BitVec 6) (va : VSrc) (s : State) : Res := s.vUn c ty.width 2 vd va fun a => a % signBit ty
def execFneg (c : VCtl) (ty : FTy) (vd : BitVec 6) (va : VSrc) (s : State) : Res := s.vUn c ty.width 2 vd va fun a => a ^^^ signBit ty
def execFcps (c : VCtl) (ty : FTy) (vd : BitVec 6) (va vb : VSrc) (s : State) : Res :=
  s.vBin c ty.width 2 vd va vb fun a b => a % signBit ty + b / signBit ty * signBit ty

/-- A special function of one operand (R181). -/
def State.vSpecial (s : State) (f : SpFn) (c : VCtl) (ty : FTy) (vd : BitVec 6) (va : VSrc) : Res :=
  s.vUn c ty.width 12 vd va (specialTy f ty)
def execFexp2 (c : VCtl) (ty : FTy) (vd : BitVec 6) (va : VSrc) (s : State) : Res := s.vSpecial .exp2 c ty vd va
def execFlog2 (c : VCtl) (ty : FTy) (vd : BitVec 6) (va : VSrc) (s : State) : Res := s.vSpecial .log2 c ty vd va
def execFrcp (c : VCtl) (ty : FTy) (vd : BitVec 6) (va : VSrc) (s : State) : Res := s.vSpecial .rcp c ty vd va
def execFrsq (c : VCtl) (ty : FTy) (vd : BitVec 6) (va : VSrc) (s : State) : Res := s.vSpecial .rsq c ty vd va
def execFsqrt (c : VCtl) (ty : FTy) (vd : BitVec 6) (va : VSrc) (s : State) : Res := s.vSpecial .sqrt c ty vd va
def execFtanh (c : VCtl) (ty : FTy) (vd : BitVec 6) (va : VSrc) (s : State) : Res := s.vSpecial .tanh c ty vd va
def execFsigm (c : VCtl) (ty : FTy) (vd : BitVec 6) (va : VSrc) (s : State) : Res := s.vSpecial .sigm c ty vd va
def execFsin (c : VCtl) (ty : FTy) (vd : BitVec 6) (va : VSrc) (s : State) : Res := s.vSpecial .sin c ty vd va
def execFcos (c : VCtl) (ty : FTy) (vd : BitVec 6) (va : VSrc) (s : State) : Res := s.vSpecial .cos c ty vd va

/-! ### Compare, select, classify (R182, R183) -/

def execVcmp (c : VCtl) (sz : ISz) (cond : Cond) (pd : BitVec 4) (va vb : VSrc) (s : State) : Res :=
  s.pOp c sz.bits 2 pd [va, vb] false noTrap fun _ _ rd i =>
    cond.holds (BitVec.ofNat sz.bits (elt sz.bits (rd va) i)) (BitVec.ofNat sz.bits (elt sz.bits (rd vb) i))
def execFcmp (c : VCtl) (ty : FTy) (cond : FCond) (pd : BitVec 4) (va vb : VSrc) (s : State) : Res :=
  s.pOp c ty.width 2 pd [va, vb] false noTrap fun _ _ rd i =>
    cond.holds (fd ty (elt ty.width (rd va) i)) (fd ty (elt ty.width (rd vb) i))
def execVsel (c : VCtl) (sz : ISz) (vd : BitVec 6) (va vb : VSrc) (s : State) : Res :=
  s.vOp c sz.bits 2 vd [va, vb] true 0 fun _ rd p i => if pbit sz.bits p i then elt sz.bits (rd va) i else elt sz.bits (rd vb) i

/-- The class bit of a code (R183). -/
def fclass (ty : FTy) (a : Nat) : Nat :=
  let sub := decide (a % signBit ty < 2 ^ (fpOfTy ty).mb)
  match fd ty a with
  | .nan => 8
  | .inf n => if n then 0 else 7
  | .zero n => if n then 3 else 4
  | .num q => if q < 0 then (if sub then 2 else 1) else if sub then 5 else 6
def execFcls (c : VCtl) (ty : FTy) (vd : BitVec 6) (va : VSrc) (s : State) : Res := s.vUn c ty.width 2 vd va fun a => 2 ^ fclass ty a

/-! ### Conversion (R184, R185) -/

/-- Bits and signedness of an integer kind. -/
def ikBits : IKind → Nat | .s8 | .n8 => 8 | .s16 | .n16 => 16 | .s32 | .n32 => 32 | .s64 | .n64 => 64
def ikSgn : IKind → Bool | .s8 | .s16 | .s32 | .s64 => true | .n8 | .n16 | .n32 | .n64 => false

/-- A real number rounded to an integer, by the grid rule with spacing 1 (R184). -/
def roundInt (rm : RMode) (rv : Nat) (q : Rat) : Int :=
  let a := if q < 0 then -q else q
  let lo := a.floor.toNat
  let k : Nat := if roundsUp rm 16 rv (decide (q < 0)) lo (a - (lo : Rat)) then lo + 1 else lo
  if q < 0 then -(k : Int) else k

/-- A float value converted to an integer kind; the saturation mode is ignored (R184). -/
def toInt (rm : RMode) (rv : Nat) (k : IKind) (x : Ext) : Nat :=
  match x with
  | .nan => 0
  | .inf n => clampInt (ikBits k) (ikSgn k) (if n then -(2 ^ 100 : Nat) else (2 ^ 100 : Nat))
  | .zero _ => 0
  | .num q => clampInt (ikBits k) (ikSgn k) (roundInt rm rv q)

def CvtKind.srcBits : CvtKind → Nat | .ff a _ => a.width | .fromInt a _ => ikBits a | .toInt a _ => a.width
def CvtKind.dstBits : CvtKind → Nat | .ff _ b => b.width | .fromInt _ b => b.width | .toInt _ b => ikBits b

end Sys2Proof.Machine
namespace Sys2Proof
/-- Slot width of a conversion (R184). -/
def CvtKind.slotBits (k : CvtKind) : Nat := Nat.max (Machine.CvtKind.srcBits k) (Machine.CvtKind.dstBits k)
end Sys2Proof
namespace Sys2Proof.Machine

/-- One converted slot from its low bits (R73, R184). -/
def cvtSlot (k : CvtKind) (rm : RMode) (nsat : Bool) (rv : Nat) (a : Nat) : Nat :=
  match k with
  | .ff x y => (fpOfS y).round rm nsat 16 rv ((fpOfS x).dec (a % 2 ^ x.width))
  | .fromInt x y => (fpOfS y).round rm nsat 16 rv (extOfRat ((iv (ikBits x) (ikSgn x) (a % 2 ^ ikBits x) : Int) : Rat))
  | .toInt x y => toInt rm rv y ((fpOfS x).dec (a % 2 ^ x.width))
def execVcvt (c : VCtl) (k : CvtKind) (rm : RMode) (nsat : Bool) (vd : BitVec 6) (va : VSrc) (s : State) : Res :=
  let w := k.slotBits
  let lo := c.rng.lo * 8 / w
  s.vOp c w 4 vd [va] false (if rm = .sr then (c.rng.elts w).length else 0) fun ds rd _ i =>
    cvtSlot k rm nsat (ds.getD (i - lo) 0 % 2 ^ 16) (elt w (rd va) i)

/-- A wide element narrowed to half its bits (R185). -/
def packElt (w : Nat) (sat : PackSat) (a : Nat) : Nat :=
  match sat with
  | .wrap => a % 2 ^ (w / 2)
  | .ssat => clampInt (w / 2) true (sx w a)
  | .usat => Nat.min a (2 ^ (w / 2) - 1)
def execVpack (sz : ISz) (sat : PackSat) (vd : BitVec 6) (va vb : VSrc) (s : State) : Res :=
  let w := sz.bits
  let n := 1024 / w
  -- the register is written whole: 16 elements of 64 bits made of the narrow ones
  s.vOp ⟨.w1024, false, 0#4⟩ 64 4 vd [va, vb] true 0 fun _ rd _ i =>
    let m := 128 / w
    (List.range m).foldl (fun acc j =>
      let e := m * i + j
      let src := if e < n then elt w (rd va) e else elt w (rd vb) (e - n)
      acc + packElt w sat src * 2 ^ (w / 2 * j)) 0
def execVunpk (sz : ISz) (sgn hi : Bool) (vd : BitVec 6) (va : VSrc) (s : State) : Res :=
  let w := sz.bits
  let n := 1024 / w
  s.vOp ⟨.w1024, false, 0#4⟩ w 4 vd [va] true 0 fun _ rd _ i =>
    let x := elt (w / 2) (rd va) ((if hi then n else 0) + i)
    if sgn then ux w (sx (w / 2) x) else x

/-! ### Quantisation (R186, R187) -/

/-- The first active core whose entry an operation may not use (R80). -/
def State.ftCheck (s : State) (f : FSel) (ok : BitVec 64 → Bool) : Option TrapInfo :=
  (s.me.firstBad fun _ x => !ok (s.me.fte x f)).map fun i => s.trapOf cILLINS (some i)
def qntOk (e : BitVec 64) : Bool := (ftD e == 5 || ftD e == 6 || ftD e == 7) && decide (ftRm e ≤ 4)
def dqtOk (e : BitVec 64) : Bool := ftA e == 5 || ftA e == 6 || ftA e == 7

/-- Nibbles or bytes of codes as bytes. -/
def nibbleBytes : List Nat → List Nat
  | a :: b :: r => (a + 16 * b) :: nibbleBytes r
  | [a] => [a]
  | [] => []

/-- The register VQNT writes (R186). -/
def qntReg (e : BitVec 64) (ds : List Nat) (v : BitVec 1024) : BitVec 1024 :=
  let xs := (List.range 32).map fun i => val32 (BitVec.ofNat 32 (elt 32 v i))
  let rv := ds.map (· % 2 ^ ftN e)
  if ftD e = 5 then
    let b0 := quantF4x (ftRnd e) rv (xs.take 16)
    let b1 := quantF4x (ftRnd e) (rv.drop 16) (xs.drop 16)
    ofElts 8 (nibbleBytes b0.codes ++ nibbleBytes b1.codes ++ [b0.s, b0.x, b1.s, b1.x])
  else
    let b := quantB32 (fmtElem (ftD e)) (ftRnd e) rv xs
    ofElts 8 (b.codes ++ [b.s])

/-- The register VDQT writes (R187). -/
def dqtReg (e : BitVec 64) (v : BitVec 1024) : BitVec 1024 :=
  let byte (i : Nat) : Nat := elt 8 v i
  ofElts 32 ((List.range 32).map fun i =>
    (code32 (if ftA e = 5 then decF4x (elt 4 v i) (byte (16 + 2 * (i / 16))) (byte (17 + 2 * (i / 16)))
      else decB32 (fmtElem (ftA e)) (byte i) (byte 32))).toNat)

def execVqnt (f : FSel) (vd : BitVec 6) (va : VSrc) (s : State) : Res :=
  s.guard (s.ftCheck f qntOk) fun s => s.onMe fun k => k.onActive fun _ x =>
    let e := k.fte x f
    let (ds, x') := x.draw (if ftRm e = 4 then 32 else 0)
    (k.popOn [va] x').fly (k.flyV s.cur.slot (k.vphys vd) 10 [0, 1, 2, 3] (qntReg e ds (k.vsrc x va)) (BitVec.allOnes 128))
def execVdqt (f : FSel) (vd : BitVec 6) (va : VSrc) (s : State) : Res :=
  s.guard (s.ftCheck f dqtOk) fun s => s.onMe fun k => k.onActive fun _ x =>
    (k.popOn [va] x).fly (k.flyV s.cur.slot (k.vphys vd) 4 [0, 1, 2, 3] (dqtReg (k.fte x f) (k.vsrc x va)) (BitVec.allOnes 128))

/-! ### Reductions (R188 to R191) -/

/-- The infinity code of a sub-type. -/
def finf (ty : FTy) (neg : Bool) : Nat := (fpOfTy ty).inf.getD 0 + (if neg then signBit ty else 0)

def redWidth : RedKind → Nat | .int _ sz => sz.bits | .fp _ ty => ty.width

/-- Identities of Table 11-5. -/
def redId (k : RedKind) : Nat :=
  let w := redWidth k
  match k with
  | .int .minS _ => 2 ^ (w - 1) - 1
  | .int .maxS _ => 2 ^ (w - 1)
  | .int .minN _ | .int .and _ => 2 ^ w - 1
  | .int _ _ => 0
  | .fp .fmax ty => finf ty true
  | .fp .fmin ty => finf ty false
  | .fp _ ty => signBit ty

/-- One step of a reduction: the first operand is kept where the two rank equal (R189, R191). -/
def redStep (k : RedKind) (a b : Nat) : Nat :=
  let w := redWidth k
  match k with
  | .int op _ =>
    match op with
    | .add => (a + b) % 2 ^ w
    | .minS => if sx w b < sx w a then b else a
    | .maxS => if sx w b > sx w a then b else a
    | .minN => if b < a then b else a
    | .maxN => if b > a then b else a
    | .and => a &&& b
    | .or => a ||| b
    | .xor => a ^^^ b
    | _ => a
  | .fp op ty =>
    match op with
    | .fmax => if rankAbove (fd ty b) (fd ty a) then b else a
    | .fmin => if rankBelow (fd ty b) (fd ty a) then b else a
    | _ => fr ty (Ext.add (fd ty a) (fd ty b))

/-- One level of the tree of fadd (R189). -/
def redLevel (k : RedKind) : List Nat → List Nat
  | a :: b :: r => redStep k a b :: redLevel k r
  | l => l
def redTree (k : RedKind) : Nat → List Nat → List Nat
  | 0, l => l
  | n + 1, l => redTree k n (redLevel k l)

/-- Elements of the range, masked ones as the identity. -/
def participants (k : RedKind) (rng : VRange) (v : BitVec 1024) (p : BitVec 128) : List Nat :=
  (rng.elts (redWidth k)).map fun i => if pbit (redWidth k) p i then elt (redWidth k) v i else redId k

/-- The value of a reduction: a fixed tree for fadd, a selection or an exact fold otherwise (R189). -/
def redValue (k : RedKind) (xs : List Nat) : Nat :=
  match k with
  | .fp .fadd _ => (redTree k 8 xs).headD 0
  | _ =>
    match xs with
    | [] => redId k
    | x :: r => r.foldl (redStep k) x
def execVred (c : VCtl) (k : RedKind) (vd : BitVec 6) (va : VSrc) (s : State) : Res :=
  let w := redWidth k
  s.vOp c w 8 vd [va] true 0 fun _ rd p i => if i = c.rng.lo * 8 / w then redValue k (participants k c.rng (rd va) p) else 0

/-- Selection among candidates (index, code) by a mode; the lowest index wins among equals (R188, R190). -/
def selBetter (m : SelMode) (a b : Ext) : Bool :=
  match m with
  | .max => rankAbove a b
  | .min => rankBelow a b
  | .maxm => rankAbove a.abs b.abs
  | .minm => rankBelow a.abs b.abs
def selBest (m : SelMode) (val : Nat → Ext) : List (Nat × Nat) → Option (Nat × Nat)
  | [] => none
  | x :: r => some (r.foldl (fun best y => if selBetter m (val y.2) (val best.2) then y else best) x)
def execVamax (c : VCtl) (ty : FTy) (m : SelMode) (vd : BitVec 6) (va : VSrc) (s : State) : Res :=
  let w := ty.width
  let lo := c.rng.lo * 8 / w
  s.vOp c w 8 vd [va] true 0 fun _ rd p i =>
    let cands := ((c.rng.elts w).filter fun j => pbit w p j).map fun j => (j, elt w (rd va) j)
    match selBest m (fd ty) cands with
    | some (j, code) => if i = lo then code else if i = lo + 1 then j else 0
    | none => if i = lo then fnan ty else if i = lo + 1 then 2 ^ w - 1 else 0

def execVscan (c : VCtl) (k : RedKind) (excl : Bool) (vd : BitVec 6) (va : VSrc) (s : State) : Res :=
  let w := redWidth k
  let lo := c.rng.lo * 8 / w
  s.vOp c w 8 vd [va] true 0 fun _ rd p i =>
    ((participants k c.rng (rd va) p).take (i - lo + (if excl then 0 else 1))).foldl (redStep k) (redId k)

/-! ### Movement (R192 to R194) -/

def execVperm (c : VCtl) (sz : ISz) (vd : BitVec 6) (va vb : VSrc) (s : State) : Res :=
  let w := sz.bits
  let n := (c.rng.elts w).length
  let lo := c.rng.lo * 8 / w
  s.vOp c w 3 vd [va, vb] false 0 fun _ rd _ i => elt w (rd va) (lo + elt w (rd vb) i % n)
def execVshuf (c : VCtl) (sz : ISz) (vd : BitVec 6) (va vb vc : VSrc) (s : State) : Res :=
  let w := sz.bits
  let n := (c.rng.elts w).length
  let lo := c.rng.lo * 8 / w
  s.vOp c w 3 vd [va, vb, vc] false 0 fun _ rd _ i =>
    let j := elt w (rd vc) i % (2 * n)
    if j < n then elt w (rd va) (lo + j) else elt w (rd vb) (lo + j - n)
def execVbcst (c : VCtl) (sz : ISz) (idx : BitVec 6) (vd : BitVec 6) (va : VSrc) (s : State) : Res :=
  let w := sz.bits
  let n := (c.rng.elts w).length
  let lo := c.rng.lo * 8 / w
  s.vOp c w 3 vd [va] false 0 fun _ rd _ _ => elt w (rd va) (lo + idx.toNat % n)
def execVsld (c : VCtl) (sz : ISz) (k : BitVec 6) (vd : BitVec 6) (va vb : VSrc) (s : State) : Res :=
  let w := sz.bits
  let n := (c.rng.elts w).length
  let lo := c.rng.lo * 8 / w
  s.vOp c w 3 vd [va, vb] false 0 fun _ rd _ i =>
    let j := i - lo + k.toNat
    if j < n then elt w (rd va) (lo + j) else if j < 2 * n then elt w (rd vb) (lo + j - n) else 0
def execVzip (c : VCtl) (sz : ISz) (hi : Bool) (vd : BitVec 6) (va vb : VSrc) (s : State) : Res :=
  let w := sz.bits
  let n := (c.rng.elts w).length
  let lo := c.rng.lo * 8 / w
  s.vOp c w 3 vd [va, vb] false 0 fun _ rd _ i =>
    let j := i - lo
    let src := lo + (if hi then n / 2 else 0) + j / 2
    if n = 1 then elt w (rd va) lo else if j % 2 = 0 then elt w (rd va) src else elt w (rd vb) src

/-- The next registers of a repetition: architectural numbers under the bases at issue (R193). -/
def repReg (r : BitVec 6) (j : Nat) : BitVec 6 := BitVec.ofNat 6 (r.toNat + j)

/-- The source of a repetition: a register, or the one popped value wherever it names the mapped v31 (R91, R193). -/
def repSrc (r : RepRec) (x : Core) (va : BitVec 6) (j : Nat) : BitVec 1024 :=
  match r.popped with
  | some q => if repReg va j = 31#6 then q else x.vreg (physV r.rrbv (repReg va j))
  | none => x.vreg (physV r.rrbv (repReg va j))

/-- The result of repetition j of a VMOV issued at t, which takes its source and its predicate as they stand at t + j and ranks by the VMOV's own
issue (R97, R193). -/
def vmovRep (slot : Slot) (t : Nat) (o : Origin) (ci : Nat) (r : RepRec) (c : VCtl) (w : Nat) (vd : BitVec 6) (va : VSrc) (j : Nat) (x : Core) : List PEntry :=
  let p := x.preg (physP r.rrbp c.pred)
  let lanes := rangeLanes c.rng &&& eltLanes w p
  let v := repSrc r x va.r j
  let fail := mirrorFail x c slot ci lanes
  c.rng.groups.map fun g =>
    { entryOf .v .v slot (physV r.rrbv (repReg vd j)) g (t + j + 2) t (v.extractLsb' (256 * g) 256) (lanes.extractLsb' (32 * g) 32) o with
      fail := fail, flg := 0#2 ++ ofBit fail.isSome }

/-- Whether any repetition names the mapped v31. -/
def Cluster.repMapped (k : Cluster) (va : BitVec 6) (rep : Nat) : Bool :=
  k.gqctl && decide (va.toNat ≤ 31 ∧ 31 ≤ va.toNat + rep)

/-- VMOV issues its first repetition; a REPEAT entry carries the others (R193, R347). -/
def execVmov (c : VCtl) (sz : ISz) (rep : BitVec 6) (vd : BitVec 6) (va : VSrc) (s : State) : Res :=
  s.guard (failIf (decide (vd.toNat + rep.toNat > 63 ∨ va.r.toNat + rep.toNat > 63)) (s.trapOf cILLINS)) fun s =>
    s.onMe fun k => k.onActive fun ci x =>
      let pop := k.repMapped va.r rep.toNat
      let r : RepRec := ⟨.vmov c sz rep vd va, k.rrbv, k.rrbp, if pop then some (x.gq.headD 0#1024) else none, 0#1024⟩
      let first := vmovRep s.cur.slot k.now k.origin ci r c sz.bits vd va 0 x
      let x := if pop then { x with gq := x.gq.tail } else x
      (x.struck c).fly (first ++ (if rep = 0#6 then [] else
        [{ entryOf .rep .v s.cur.slot (physV k.rrbv vd) 0 (k.now + rep.toNat) k.now 0#256 0#32 k.origin with perf := 1, rep := some r }]))

def execVmovi (c : VCtl) (sz : ISz) (imm : BitVec 18) (vd : BitVec 6) (s : State) : Res :=
  s.vOp c sz.bits 2 vd [] false 0 fun _ _ _ _ => ux sz.bits imm.toInt

/-! ### Predicates (R195) -/

/-- A bitwise predicate operation over the range. -/
def State.pBit (s : State) (c : VCtl) (pd pa pb : BitVec 4) (g : Bool → Bool → Bool) : Res :=
  s.pOp c 8 2 pd [] false noTrap fun x k _ i => g ((k.psrc x pa).getLsbD i) ((k.psrc x pb).getLsbD i)
def execPand (c : VCtl) (pd pa pb : BitVec 4) (s : State) : Res := s.pBit c pd pa pb (· && ·)
def execPor (c : VCtl) (pd pa pb : BitVec 4) (s : State) : Res := s.pBit c pd pa pb (· || ·)
def execPxor (c : VCtl) (pd pa pb : BitVec 4) (s : State) : Res := s.pBit c pd pa pb (· != ·)
def execPnot (c : VCtl) (pd pa : BitVec 4) (s : State) : Res := s.pBit c pd pa pa fun a _ => !a
/-- Elements of the range whose governing bit is set. -/
def setElts (c : VCtl) (w : Nat) (p : BitVec 128) : List Nat := (c.rng.elts w).filter fun i => pbit w p i
def execPcnt (c : VCtl) (sz : ISz) (pd pa : BitVec 4) (s : State) : Res :=
  s.pOp c sz.bits 2 pd [] false noTrap fun x k _ i =>
    decide (i - c.rng.lo * 8 / sz.bits < (setElts c sz.bits (k.psrc x pa)).length)
def execPfirst (c : VCtl) (sz : ISz) (pd pa : BitVec 4) (s : State) : Res :=
  s.pOp c sz.bits 2 pd [] false noTrap fun x k _ i => (setElts c sz.bits (k.psrc x pa)).head? == some i

/-! ### Random bits and vector checks (R196, R197) -/

def execVrnd (c : VCtl) (m : RndMode) (vd : BitVec 6) (s : State) : Res :=
  match m with
  | .bits sz =>
    let w := sz.bits
    let lo := c.rng.lo * 8 / w
    let per := if w = 64 then 2 else 1
    s.vOp c w 6 vd [] false (per * (c.rng.elts w).length) fun ds _ _ i =>
      if w = 64 then ds.getD (2 * (i - lo)) 0 + 2 ^ 32 * ds.getD (2 * (i - lo) + 1) 0 else ds.getD (i - lo) 0 % 2 ^ w
  | .unit =>
    let lo := c.rng.lo / 4
    s.vOp c 32 6 vd [] false (c.rng.elts 32).length fun ds _ _ i =>
      (code32 (extOfRat (((ds.getD (i - lo) 0 / 256 : Nat) : Rat) * pow2 (-24)))).toNat

/-- Tolerance exponents are taken between 8 and 22 (R197, R254). -/
def tolOf (t : Nat) : Nat := Nat.min (Nat.max t 8) 22

/-- The check of VCHK (R197). -/
def vchkPass (rng : VRange) (ty : FTy) (t : Nat) (a b : BitVec 1024) : Bool :=
  let xs := (rng.elts ty.width).map fun i => fd ty (elt ty.width a i)
  let cs := fd ty (elt ty.width b (rng.lo * 8 / ty.width))
  let fin := cs.finite && xs.all Ext.finite
  let sum := (xs.map Ext.rat).sum
  let mag := (xs.map fun x => x.abs.rat).sum + cs.abs.rat
  let d := cs.rat - sum
  fin && decide ((if d < 0 then -d else d) ≤ pow2 (-(tolOf t : Int)) * mag)
def execVchk (rng : VRange) (mir : Bool) (ty : FTy) (trp : Bool) (t : BitVec 5) (pd : BitVec 4) (va vb : VSrc) (s : State) : Res :=
  s.pOp ⟨rng, mir, 0#4⟩ 8 8 pd [va, vb] true
    (fun rd => ofBit trp ++ ofBit (!vchkPass rng ty t.toNat (rd va) (rd vb)))
    fun _ _ rd _ => vchkPass rng ty t.toNat (rd va) (rd vb)

end Sys2Proof.Machine
end

