-- ==== Sys2Proof/Machine/Matrix.lean ====
section
/-!
DEFINITION. The Tuzar array and the M slot (R233 to R264): planes, banks, streams and their column steps, bank changes, drains.
-/
namespace Sys2Proof.Machine

/-! ### Banks and decoding -/

/-- The key of a bank element in Core.m. -/
def mkey (b i j : Nat) : Nat := 4225 * b + 65 * i + j
def Core.cell (x : Core) (b i j : Nat) : BitVec 32 := sget 0#32 (mkey b i j) x.m
def Core.setCell (x : Core) (b i j : Nat) (v : BitVec 32) : Core := ({ x.heal (· == CoreWord.cell (mkey b i j)) with m := sput 0#32 (mkey b i j) v x.m }).touch 2 b
def Core.plane (x : Core) (pl : Bool) : Plane := if pl then x.plane1 else x.plane0
def Core.setPlane (x : Core) (pl : Bool) (p : Plane) : Core :=
  if pl then ({ x with plane1 := p }).touch 3 1 else ({ x with plane0 := p }).touch 3 0
def Plane.get (p : Plane) (n k : Nat) : Ext := sget (.zero false) (128 * n + k) p.b
/-- The checksum-column value of a k (R76). -/
def Plane.sum (p : Plane) (k : Nat) : Ext := val32 (sget 0#32 k p.bsum)

def setBit (v : BitVec 4) (b : BitVec 2) (x : Bool) : BitVec 4 := if x then v ||| (1#4 <<< b.toNat) else v &&& ~~~(1#4 <<< b.toNat)
def Core.linOf (x : Core) (b : BitVec 2) : Bool := x.lin.getLsbD b.toNat
def Core.staleOf (x : Core) (b : BitVec 2) : Bool := x.stale.getLsbD b.toNat
def Core.edgeOf (x : Core) (b k : Nat) : Ext := sget (.zero false) (128 * b + k) x.edge
def Core.setEdge (x : Core) (b k : Nat) (v : Ext) : Core := ({ x with edge := sput (.zero false) (128 * b + k) v x.edge }).touch 7 b
/-- EDGE := 0 for a bank. -/
def Core.clearEdge (x : Core) (b : BitVec 2) : Core := ({ x with edge := x.edge.filter fun (k, _) => k / 128 != b.toNat }).touch 7 b.toNat
/-- A bank after MZERO: +0, LIN 1, STALE 0, EDGE 0 (R247). -/
def Core.zeroBank (x : Core) (b : BitVec 2) : Core :=
  (({ x.heal (fun w => match w with | .cell n => n / 4225 == b.toNat | _ => false) with m := x.m.filter (fun (k, _) => k / 4225 != b.toNat), lin := setBit x.lin b true, stale := setBit x.stale b false }).clearEdge b).touch 2 b.toNat

/-- The k-extent of a format (R240, R246). -/
def planeK (f : Nat) : Nat := if f = 5 then 128 else 64
/-- The bytes of a plane image, from its base to the last byte read (Table 15-4). -/
def planeSpan (f : Nat) : Nat :=
  if f = 1 then 8192 else if f = 5 then 8192 + 16 * 63 + 16 else if f = 6 ∨ f = 7 then 8192 + 16 * 63 + 2 else 128 * 63 + 64
/-- Offsets of the bytes the table names for a format. -/
def planeOffs (f : Nat) : List Nat :=
  (List.range 64).flatMap (fun n => (List.range (if f = 1 then 128 else 64)).map (128 * n + ·)) ++
    (if f = 5 then (List.range 64).flatMap fun n => (List.range 16).map (8192 + 16 * n + ·)
     else if f = 6 ∨ f = 7 then (List.range 64).flatMap fun n => [8192 + 16 * n, 8192 + 16 * n + 1] else [])

/-- Element k of column n of an image (R62, R65, Table 15-4). -/
def planeElem (f : Nat) (by' : Nat → Nat) (n k : Nat) : Ext :=
  let c := 128 * n
  let h := 8192 + 16 * n
  if f = 1 then fpBf16.dec (by' (c + 2 * k) + 256 * by' (c + 2 * k + 1))
  else if f = 5 then decF4x (by' (c + k / 2) / 16 ^ (k % 2) % 16) (by' (h + 2 * (k / 16))) (by' (h + 2 * (k / 16) + 1))
  else if f = 6 ∨ f = 7 then decB32 (fmtElem f) (by' (c + k)) (by' (h + k / 32))
  else (fmtElem f).dec (by' (c + k))

/-- The sparse table of values at rising keys. -/
def sparse {α : Type} [DecidableEq α] (d : α) (xs : List (Nat × α)) : SMap α := xs.filter fun (_, v) => v ≠ d

/-- An f4x element before a scale of zero; none under another scale (R65, R75). -/
def unscaled (code s x : Nat) : Option Ext := if s % 256 = 0 then some (decF4x code 0x78 x) else none

/-- A plane from its elements: the checksum values are exact sums over the 64 columns, rounded once (R76, R240). -/
def planeOf (fmt : PFmt) (kk : Nat) (el : Nat → Nat → Ext) : Plane :=
  { fmt := fmt
    z := []
    b := sparse (.zero false) ((List.range 64).flatMap fun n => (List.range kk).map fun k => (128 * n + k, el n k))
    bsum := sparse 0#32 ((List.range kk).map fun k => (k, code32 (sumExt ((List.range 64).map fun n => el n k)))) }

/-- The plane an image decodes to. -/
def planeDecode (f : BitVec 4) (bytes : List Byte) : Plane :=
  let y (i : Nat) : Nat := (bytes.getD i 0#8).toNat
  { planeOf (.code f) (planeK f.toNat) (planeElem f.toNat y) with
    z := if f = 5#4 then sparse none ((List.range 64).flatMap fun n => (List.range 128).map fun k =>
        (128 * n + k, unscaled (y (128 * n + k / 2) / 16 ^ (k % 2) % 16) (y (8192 + 16 * n + 2 * (k / 16))) (y (8192 + 16 * n + 2 * (k / 16) + 1)))) else [] }

/-- The sign matrix of MBLDH (R241). -/
def hadElem (n k : Nat) : Ext := .num (if ((List.range 6).filter fun i => (n &&& k).testBit i).length % 2 = 0 then 1 else -1)
def hadPlane : Plane := planeOf .had 64 hadElem

/-- An A row decoded from its registers (R243, Table 15-5). -/
def rowDecode (f : Nat) (va vh : BitVec 1024) (hoff : Nat) : List Ext :=
  if f = 1 then (List.range 64).map fun k => fpBf16.dec (elt 16 va k)
  else if f = 5 then (List.range 128).map fun k => decF4x (elt 4 va k) (elt 8 vh (hoff + 2 * (k / 16))) (elt 8 vh (hoff + 2 * (k / 16) + 1))
  else if f = 6 ∨ f = 7 then (List.range 64).map fun k => decB32 (fmtElem f) (elt 8 va k) (elt 8 vh (hoff + k / 32))
  else (List.range 64).map fun k => (fmtElem f).dec (elt 8 va k)

/-- The elements of an f4x row before their scales of zero, by k (R75). -/
def rowZ (f : Nat) (va vh : BitVec 1024) (hoff : Nat) : SMap (Option Ext) :=
  if f = 5 then sparse none ((List.range 128).map fun k =>
    (k, unscaled (elt 4 va k) (elt 8 vh (hoff + 2 * (k / 16))) (elt 8 vh (hoff + 2 * (k / 16) + 1))))
  else []

/-! ### Cell steps (R75, R76, R245) -/

/-- The value a fresh start gives (R244). -/
def freshOf : CellOp → Ext | .cmx => .inf true | .cmn => .inf false | _ => .zero false

/-- One k-row step over its pairs of operands (R245). -/
def cellStep (op : CellOp) (s : Ext) (ps : List (Ext × Ext)) : Ext :=
  rne32 (match op with
    | .mac => match ps.map fun (a, b) => Ext.mul a b with
      | [] => s
      | p :: r => Ext.add s (r.foldl Ext.add p)
    | .abd => ps.foldl (fun t (a, b) => Ext.add t (Ext.sub a b).abs) s
    | .sqd => ps.foldl (fun t (a, b) => let d := Ext.sub a b; Ext.add t (Ext.mul d d)) s
    | .cmx => ps.foldl (fun t (a, b) => let y := Ext.add a b; if rankAbove y t then y else t) s
    | .cmn => ps.foldl (fun t (a, b) => let y := Ext.add a b; if rankBelow y t then y else t) s)

/-- The 64 steps of a column, in ascending k-row order. -/
def colSteps (op : CellOp) (f4 : Bool) (a : List Ext) (b : Nat → Ext) (s : Ext) : Ext :=
  (List.range 64).foldl (fun s kk =>
    cellStep op s (if f4 then [(a.getD (2 * kk) (.zero false), b (2 * kk)), (a.getD (2 * kk + 1) (.zero false), b (2 * kk + 1))]
      else [(a.getD kk (.zero false), b kk)])) s

/-- q of an f4x data cell: (a0 × b0 + a1 × b1) × S_a × S_b on element values as they stand before a scale of zero (R75); a and b are scaled by the
same scale in both terms, which changes neither sign nor zero where it is positive. -/
def f4Q (a b : Nat → Ext) (za zb : Nat → Option Ext) (kk : Nat) : Ext :=
  let p (k : Nat) : Ext := Ext.mul ((za k).getD (a k)) ((zb k).getD (b k))
  let q := Ext.add (p (2 * kk)) (p (2 * kk + 1))
  if (za (2 * kk)).isSome || (zb (2 * kk)).isSome then Ext.mul q (.zero false) else q

/-- The 64 steps of an f4x data column. -/
def f4Steps (a b : Nat → Ext) (za zb : Nat → Option Ext) (s : Ext) : Ext :=
  (List.range 64).foldl (fun s kk => rne32 (Ext.add s (f4Q a b za zb kk))) s

def Stream.op (st : Stream) : CellOp := match st.src with | .row op => op | _ => .mac

/-- Column n of a stream steps its bank element (R239, R244 to R246, R259). -/
def Core.stepCol (x : Core) (st : Stream) (n : Nat) : Core :=
  if n = 64 ∧ !st.chkCol then x
  else
    let p := x.plane st.plane
    let b (k : Nat) : Ext := if n = 64 then p.sum k else p.get n k
    let b := match st.src with | .rot _ _ => fun k => Ext.mul (b k) (.num (1 / 8)) | _ => b
    let s := if st.fresh then freshOf st.op else val32 (x.cell st.bank.toNat st.row n)
    let data : Bool := match st.src with | .row .mac => st.f4 && decide (n < 64) | _ => false
    x.setCell st.bank.toNat st.row n (code32 (if data then
      f4Steps (fun k => st.a.getD k (.zero false)) b (fun k => sget none k st.z) (fun k => sget none (128 * n + k) p.z) s
      else colSteps st.op st.f4 st.a b s))

/-- Operands a stream reads in this cycle: MROT's source row at its first column, the registers of MCHK.reg (R246, R259). -/
def Core.feed (x : Core) (now : Nat) (st : Stream) : Stream :=
  match st.src with
  | .rot b r =>
    if st.col = 0 ∧ st.start ≤ now then
      { st with a := (List.range 64).map (fun k => val32 (x.cell b.toNat r k)), opd := (List.range 64).flatMap fun k => leBytes 4 (x.cell b.toNat r k).toNat }
    else st
  | .chk (r :: rest) q =>
    if st.ord + st.a.length / 32 ≤ now then
      let v := match q with | some v => if r = 31 then v else x.vreg r | none => x.vreg r
      { st with a := st.a ++ (List.range 32).map (fun k => val32 (BitVec.ofNat 32 (elt 32 v k))), opd := st.opd ++ leBytes 128 v.toNat, src := .chk rest q }
    else st
  | _ => st

/-- The columns of a stream due by a cycle; none once column 64 has stepped. -/
def Core.stepStream (x : Core) (now : Nat) (st : Stream) : Core × Option Stream :=
  let st := x.feed now st
  let cols := (List.range 65).filter fun n => decide (st.col ≤ n ∧ st.start + n ≤ now)
  let x := cols.foldl (fun x n => x.stepCol st n) x
  let col := if cols.isEmpty then st.col else cols.getLastD 0 + 1
  (x, if col ≤ 64 then some { st with col := col } else none)

/-! ### Bank changes (R239, R247 to R249, R255, R262, R263) -/

/-- Perform a bank change; sampling a MACC source leaves the addition of the next cycle. -/
def Core.bankUpd (x : Core) (u : BankUpd) : Core × Option BankUpd :=
  match u.op with
  | .zero b => (x.zeroBank b, none)
  | .accSample d s =>
    let rel {α : Type} (w : Nat) (m : SMap α) : SMap α := (m.filter fun (k, _) => k / w == s.toNat).map fun (k, v) => (k % w, v)
    (x, some { u with at' := u.at' + 1, op := .accAdd d (rel 4225 x.m) (x.linOf s) (x.staleOf s) (rel 128 x.edge) })
  | .accAdd d vals lin stale edge =>
    -- every element is added: rne32(D + (+0)) is D itself but for a -0 and a NaN
    let x := (List.range 4225).foldl (fun x i =>
      x.setCell d.toNat (i / 65) (i % 65) (code32 (Ext.add (val32 (x.cell d.toNat (i / 65) (i % 65))) (val32 (sget 0#32 i vals))))) x
    let x := (List.range 128).foldl (fun x k => x.setEdge d.toNat k (Ext.add (x.edgeOf d.toNat k) (sget (.zero false) k edge))) x
    ((({ x with lin := setBit x.lin d (x.linOf d && lin), stale := setBit x.stale d (x.staleOf d || stale) }).touch 2 d.toNat).touch 7 d.toNat, none)
  | .write b cells => (cells.foldl (fun x (i, v) => x.setCell b.toNat (i / 65) (i % 65) v) x, none)
  | .fix b i j er ec =>
    let h := Ext.mul (Ext.add (val32 er) (val32 ec)) (.num (1 / 2))
    (x.setCell b.toNat i j (code32 (Ext.sub (val32 (x.cell b.toNat i j)) h)), none)
  | .unseen _ _ => (x, none)
  | .planesNone => ((x.setPlane false Plane.empty).setPlane true Plane.empty, none)
  | .retire row => ({ x with retired := if x.retired.contains row then x.retired else x.retired ++ [row] }, none)

/-- Work of the array in a cycle, in issue order: a stream or a bank change. -/
inductive ArrWork where
  | stream (st : Stream)
  | upd (u : BankUpd)
deriving DecidableEq, Repr

def ArrWork.ord : ArrWork → Nat | .stream st => st.ord | .upd u => u.ord

/-- A bank change is due in a cycle; what M operations of an MWR's cycle find instead lasts that cycle only. -/
def BankUpd.due (u : BankUpd) (now : Nat) : Bool :=
  match u.op with
  | .unseen _ _ => decide (u.at' < now)
  | _ => decide (u.at' ≤ now)

/-- Work of the array in a list, one item after the other. -/
def Core.arrayWork (x : Core) (now : Nat) (work : List ArrWork) : Core :=
  work.foldl (fun x w =>
    match w with
    | .stream st =>
      match x.stepStream now st with
      | (x, some st) => { x with streams := x.streams ++ [st] }
      | (x, none) => x
    | .upd u =>
      match x.bankUpd u with
      | (x, some u) => { x with bankUpds := x.bankUpds ++ [u] }
      | (x, none) => x) x

/-- One cycle of a core's array: every update due, in the order the instructions issued (R239). An MWR writes in its cycle t + 5; M operations that
issue in that cycle find its elements as the cycle's other work alone leaves them (R249, Table 7-6). -/
def Core.arrayCycle (x : Core) (now : Nat) : Core :=
  let due := x.bankUpds.filter (·.due now)
  let work := sortBy ArrWork.ord (x.streams.map .stream ++ due.map .upd)
  let x0 := { x with streams := [], bankUpds := x.bankUpds.filter fun u => !u.due now }
  let y := x0.arrayWork now work
  if due.all (fun u => match u.op with | .write _ _ => false | _ => true) then y
  else
    let z := x0.arrayWork now (work.filter fun w => match w with | .upd ⟨_, _, .write _ _⟩ => false | _ => true)
    { y with bankUpds := y.bankUpds ++ due.filterMap fun u =>
        match u.op with
        | .write b cells => some ⟨now, u.ord, .unseen b (cells.map fun (i, _) => (i, z.cell b.toNat (i / 65) (i % 65)))⟩
        | _ => none }

/-- A core's banks as an M operation that issues in this cycle finds them (R249). -/
def Core.seen (x : Core) : Core :=
  x.bankUpds.foldl (fun y u =>
    match u.op with
    | .unseen b cells => { y with m := cells.foldl (fun m (i, v) => sput 0#32 (4225 * b.toNat + i) v m) y.m }
    | _ => y) x

/-- A plane load samples its image at t + 2 and is ready at t + 12 (R240, R241). -/
def Core.planeCycle (x : Core) (now : Nat) : Core :=
  let x := { x with loads := x.loads.map fun (l : PlaneLoad) =>
    if l.samp ≤ now ∧ l.bytes.isNone then
      { l with bytes := some ((List.range (match l.fmt with | .code f => planeSpan f.toNat | _ => 0)).map fun i => x.bsByte (l.addr + i)) }
    else l }
  let ready := x.loads.filter fun (l : PlaneLoad) => decide (l.ready ≤ now)
  let x := ready.foldl (fun x l =>
    (x.heal (· == CoreWord.plane l.plane)).setPlane l.plane (match l.fmt with | .code f => planeDecode f (l.bytes.getD []) | .had => hadPlane | .none => Plane.empty)) x
  { x with loads := x.loads.filter fun (l : PlaneLoad) => !decide (l.ready ≤ now) }

/-! ### Checks of the M slot (R235, R237, R238, R240, R242, R243, R246, R254, R258) -/

/-- The first active core that fails a test raises a cause. -/
def State.coreCheck (s : State) (cause : BitVec 8) (info : BitVec 16) (bad : Nat → Core → Bool) : Option TrapInfo :=
  (s.me.firstBad bad).map fun i => s.trapOf cause (some i) info

/-- A blocked format: its rows have headers or scales. -/
def blockedFmt (f : Nat) : Bool := f == 5 || f == 6 || f == 7

/-- Header bytes of an A row. -/
def hdrBytes (f : Nat) : Nat := if f = 5 then 16 else 2

/-- Entries, formats and register numbers: the illegal-instruction trap. A handler entered with array work unfinished may use no
M instruction (R345). -/
def State.mEntry (s : State) (i : Instr) : Option TrapInfo :=
  let k := s.me
  let aq := failIf (match k.handler with | some b => !b.aq | none => false) (s.trapOf cILLINS)
  let fte (f : FSel) : Option TrapInfo := s.ftCheck f ftMOk
  let fmt (f : FSel) (pl : Bool) : Option TrapInfo :=
    s.coreCheck cILLINS 0#16 fun _ x => (x.plane pl).fmt != .code ((k.fte x f).extractLsb' 4 4)
  firstOf (aq :: match i with
    | .mbld f _ _ _ _ => [fte f]
    | .mrow _ _ f pl _ _ _ hoff vh =>
      [fte f, s.coreCheck cILLINS 0#16 fun _ x =>
        let a := ftA (k.fte x f)
        if blockedFmt a then decide (hoff.toNat + hdrBytes a > 128) else hoff != 0#7 || vh != ⟨0#6, 0#2⟩, fmt f pl]
    | .mchk _ f pl r _ =>
      [fte f, match r with
        | some v => s.coreCheck cILLINS 0#16 fun _ x => decide (v.r.toNat + planeK (ftA (k.fte x f)) / 32 - 1 > 63)
        | none => none, fmt f pl]
    | .mdrn _ f _ _ _ _ _ => [fte f]
    | .mdrnk _ f _ _ _ _ _ _ _ => [fte f]
    | .mrot _ _ pl _ => [s.coreCheck cILLINS 0#16 fun _ x => (x.plane pl).fmt != .had]
    | _ => [])

/-- MDIAG and MSPR are for the supervisor (R262). -/
def State.mPriv (s : State) (i : Instr) : Option TrapInfo :=
  match i with
  | .mdiag _ | .mspr _ _ _ => failIf (!s.me.priv) (s.trapOf cPRIV)
  | _ => none

/-- Drains of a core that are incomplete. -/
def Cluster.drainsOf (k : Cluster) (i : Nat) : Nat := (k.drains.filter fun d => d.cores.getLsbD i).length

/-- Occupancy of the array (R237). -/
def State.mOcc (s : State) (i : Instr) : Option TrapInfo :=
  let k := s.me
  firstOf [s.coreCheck cILLBUN 4#16 fun _ x => decide (k.now < x.diagFree),
    match i with
    | .mrow .. | .mchk .. | .mrot .. => s.coreCheck cILLBUN 4#16 fun _ x => decide (k.now < x.inputFree)
    | .mdrn .. | .mdrnk .. => s.coreCheck cILLBUN 4#16 fun ci _ => decide (k.drainsOf ci ≥ 4)
    | _ => none]

/-- Bytes of a drained row (R254). -/
def drainRowBytes (d : Nat) : Nat := 64 * fmtBits d / 8
/-- The plane stride of a blocked format and its header bytes for a row of 64 (R203). -/
def hdrDiv (d : Nat) : Nat := if d = 5 then 4 else 32
def hdrLen (d : Nat) : Nat := if d = 5 then 8 else 2

/-- The fields of a map that a drain reads. -/
def Cluster.tmN (k : Cluster) (tm : BitVec 4) (f : Nat) : Nat := (k.tmField tm f).toNat

/-- The scratchpad range rules of a drain's tile (R254). -/
def Cluster.drainRangeBad (k : Cluster) (x : Core) (f : FSel) (m : Nat) (ckw : Bool) (tm : BitVec 4) : Bool :=
  let d := ftD (k.fte x f)
  let off := k.tmN tm 19
  let pitch := k.tmN tm 20
  let ck := k.tmN tm 21
  let h := k.tmN tm 22
  decide (pitch < drainRowBytes d) || (blockedFmt d && h % 4 != 0) || (ckw && ck % 4 != 0) ||
    decide (off + (m - 1) * pitch + drainRowBytes d > 2 ^ 18) ||
    (blockedFmt d && decide (h + (m - 1) * pitch / hdrDiv d + hdrLen d > 2 ^ 18)) ||
    (ckw && decide (ck + 4 * (64 + m) > 2 ^ 18))

/-- The image address of MBLD (R240). -/
def mbldAddr (x : Core) (aa : BitVec 4) (off : BitVec 12) : Nat := (x.areg aa + (off.setWidth 32 <<< 7)).toNat

/-- Address ranges (R240, R254) and alignment (R240). -/
def State.mRange (s : State) (i : Instr) : Option TrapInfo :=
  let k := s.me
  match i with
  | .mbld f _ _ aa off => s.coreCheck cRANGE 0#16 fun _ x => decide (mbldAddr x aa off + planeSpan (ftB (k.fte x f)) > 2 ^ 19)
  | .mdrn _ f m _ ckw tm _ => s.coreCheck cRANGE 0#16 fun _ x => k.drainRangeBad x f (m.val + 1) ckw tm
  | _ => none
def State.mAlign (s : State) (i : Instr) : Option TrapInfo :=
  match i with
  | .mbld _ _ _ aa off => s.coreCheck cALIGN 0#16 fun _ x => decide (mbldAddr x aa off % 128 ≠ 0)
  | _ => none

/-- A bank last streamed into fewer than 136 cycles ago (R99, R238). -/
def Core.unflushed (x : Core) (now : Nat) (b : BitVec 2) : Bool :=
  let v := sget 0 b.toNat x.lastStream
  decide (v ≠ 0 ∧ now + 1 < v + 136)

/-- The banks an instruction reads under the array-flush rule. -/
def flushBanks : Instr → List (BitVec 2)
  | .mdrn b _ _ _ _ _ _ => [b]
  | .mdrnk b _ _ _ _ _ _ _ _ => [b]
  | .mrd b _ _ => [b]
  | .macc _ b => [b]
  | .mrot _ b _ _ => [b]
  | .mdiag _ => [0#2, 1#2, 2#2, 3#2]
  | .mspr _ _ _ => [0#2, 1#2, 2#2, 3#2]
  | _ => []

/-- The schedule fault of the array flush (R99, R238). -/
def State.mFlush (s : State) (i : Instr) : Option TrapInfo :=
  let k := s.me
  let busy : Bool := match i with | .mdiag _ | .mspr _ _ _ => true | _ => false
  s.coreCheck cSCHED 2#16 fun ci x => (flushBanks i).any (x.unflushed k.now) || (busy && decide (k.drainsOf ci > 0))

/-- Every check of an M instruction, in the order of R100. -/
def State.mCheck (s : State) (i : Instr) : Option TrapInfo :=
  firstOf [s.mEntry i, s.mPriv i, s.mOcc i, s.mRange i, s.mAlign i, s.mFlush i]

/-! ### Loads and streams -/

/-- Start a plane load on each active core. -/
def State.loadPlane (s : State) (pl : Bool) (fmt : Core → PFmt) (addr : Core → Nat) (bytes : Option (List Byte)) : State :=
  s.onMe fun k => k.onActive fun _ x =>
    { x with loads := x.loads ++ [{ plane := pl, samp := k.now + 2, ready := k.now + 12, fmt := fmt x, addr := addr x, bytes := bytes,
                                    issue := k.now, origin := k.origin }] }

def execMbld (fs : FSel) (pl : Bool) (ck : Chk) (aa : BitVec 4) (off : BitVec 12) (s : State) : Res :=
  s.guard (s.mCheck (.mbld fs pl ck aa off)) fun s =>
    s.loadPlane pl (fun x => .code ((s.me.fte x fs).extractLsb' 4 4)) (fun x => mbldAddr x aa off) none
def execMbldh (pl : Bool) (s : State) : Res :=
  s.guard (s.mCheck (.mbldh pl)) fun s => s.loadPlane pl (fun _ => .had) (fun _ => 0) (some [])

/-- Whether a stream starts afresh: its start mode, or the entry's ACC (R244). -/
def startFresh (st : StartMode) (e : BitVec 64) : Bool :=
  match st with | .entry => !ftAcc e | .zero => true | .acc => false

/-- A stream has issued into a bank: its flush time and the cycles of the row input it takes (R237, R238). -/
def Core.streamed (x : Core) (now : Nat) (b : BitVec 2) (cycles : Nat) : Core :=
  { x with lastStream := sput 0 b.toNat (now + 1) x.lastStream, inputFree := now + cycles }

/-- A row enters a bank on one core (R244). -/
def Cluster.rowIn (k : Cluster) (op : CellOp) (bk : BitVec 2) (fs : FSel) (pl : Bool) (va : VSrc) (m : BitVec 6) (st : StartMode)
    (hoff : BitVec 7) (vh : VSrc) (x : Core) : Core :=
  let e := k.fte x fs
  let f := ftA e
  let x0 := x
  let a := rowDecode f (k.vsrc x va) (k.vsrc x vh) hoff.toNat
  let x := k.popOn (if blockedFmt f then [va, vh] else [va]) x
  let x : Core := match op with
    | .mac => a.zipIdx.foldl (fun (x : Core) (v, j) => x.setEdge bk.toNat j (Ext.add (x.edgeOf bk.toNat j) v)) { x with stale := setBit x.stale bk true }
    | _ => { x with lin := setBit x.lin bk false }
  let stm : Stream := {
    start := k.now, col := 0, ord := k.now, bank := bk, row := m.toNat, plane := pl, fresh := startFresh st e, f4 := f == 5, chkCol := op == .mac
    a := a, z := rowZ f (k.vsrc x0 va) (k.vsrc x0 vh) hoff.toNat, src := .row op, instr := .mrow op bk fs pl va m st hoff vh
    opd := leBytes 128 (k.vsrc x0 va).toNat ++ (if blockedFmt f then leBytes 16 ((k.vsrc x0 vh).toNat / 2 ^ (8 * hoff.toNat)) else []) }
  ({ x with streams := x.streams ++ [stm] } : Core).streamed k.now bk (if f = 1 then 4 else 1)

/-- Column 0 of a row steps in the cycle of its issue (Table 15-3). -/
def Cluster.stepNow (k : Cluster) : Cluster := k.onActive fun _ x => x.arrayCycle k.now

def execMrow (op : CellOp) (bk : BitVec 2) (fs : FSel) (pl : Bool) (va : VSrc) (m : BitVec 6) (st : StartMode) (hoff : BitVec 7)
    (vh : VSrc) (s : State) : Res :=
  s.guard (s.mCheck (.mrow op bk fs pl va m st hoff vh)) fun s => s.onMe fun k =>
    let bf := k.activeIdx.any fun i => ftA (k.fte (k.core i) fs) == 1
    ({ k.onActive fun _ x => k.rowIn op bk fs pl va m st hoff vh x with lastBf := if bf then some k.now else k.lastBf }).stepNow

/-- The checksum row enters a bank on one core (R246). -/
def Cluster.chkIn (k : Cluster) (bk : BitVec 2) (fs : FSel) (pl : Bool) (reg : Option VSrc) (st : StartMode) (x : Core) : Core :=
  let e := k.fte x fs
  let kk := planeK (ftA e)
  let regs := match reg with | some v => (List.range (kk / 32)).map fun j => k.vphys (repReg v.r j) | none => []
  let pop := match reg with | some v => k.repMapped v.r (kk / 32 - 1) | none => false
  let a := match reg with | some _ => [] | none => (List.range kk).map fun j => rne32 (x.edgeOf bk.toNat j)
  let stm : Stream := {
    start := k.now + 3, col := 0, ord := k.now, bank := bk, row := 64, plane := pl, fresh := startFresh st e, f4 := ftA e == 5, chkCol := true
    a := a, z := [], src := .chk regs (if pop then some (x.gq.headD 0#1024) else none), instr := .mchk bk fs pl reg st
    opd := if reg.isNone then a.flatMap fun v => leBytes 4 (code32 v).toNat else [] }
  let x := if pop then { x with gq := x.gq.tail } else x
  -- STALE is saved with its bank (Table 23-4)
  let x := (({ x with stale := setBit x.stale bk false }).touch 2 bk.toNat).clearEdge bk
  ({ x with streams := x.streams ++ [x.feed k.now stm] }).streamed k.now bk 4

def execMchk (bk : BitVec 2) (fs : FSel) (pl : Bool) (reg : Option VSrc) (st : StartMode) (s : State) : Res :=
  s.guard (s.mCheck (.mchk bk fs pl reg st)) fun s => s.onMe fun k =>
    { k.onActive fun _ x => k.chkIn bk fs pl reg st x with lastMchk := some k.now }

/-- The rotation streams M rows and the checksum row of its source (R259). -/
def execMrot (bd bs : BitVec 2) (pl : Bool) (m : Fin 64) (s : State) : Res :=
  s.guard (s.mCheck (.mrot bd bs pl m)) fun s => s.onMe fun k =>
    (k.onActive fun _ x =>
      let n := m.val + 1
      let row (r src : Nat) : Stream := {
        start := k.now + r, col := 0, ord := k.now, bank := bd, row := src, plane := pl, fresh := true, f4 := false, chkCol := true, a := [], z := []
        src := .rot bs src, instr := .mrot bd bs pl m, opd := [] }
      let x := ({ x with lin := setBit x.lin bd (x.linOf bs), stale := setBit x.stale bd (x.staleOf bs) }).clearEdge bd
      ({ x with streams := x.streams ++ (List.range n).map (fun r => row r r) ++ [row n 64] }).streamed k.now bd (n + 1)).stepNow

/-! ### Bank operations -/

/-- Queue a bank change on each active core. -/
def Cluster.queueUpd (k : Cluster) (lat : Nat) (op : Core → BankOp) : Cluster :=
  k.onActive fun _ x => { x with bankUpds := x.bankUpds ++ [⟨k.now + lat, k.now, op x⟩] }

def allBanks : List (BitVec 2) := [0#2, 1#2, 2#2, 3#2]

def execMzero (bk : Option (BitVec 2)) (s : State) : Res :=
  s.guard (s.mCheck (.mzero bk)) fun s => s.onMe fun k =>
    (match bk with | some b => [b] | none => allBanks).foldl (fun k b => k.queueUpd 2 fun _ => .zero b) k
def execMacc (bd bs : BitVec 2) (s : State) : Res :=
  s.guard (s.mCheck (.macc bd bs)) fun s => s.onMe fun k => k.queueUpd 1 fun _ => .accSample bd bs

end Sys2Proof.Machine
namespace Sys2Proof
/-- The bank elements a part of a line names, in register order (R249). -/
def BankLine.cells (l : BankLine) : List Nat :=
  let at' (j : Nat) : Nat := if l.col then 65 * j + l.idx.val else 65 * l.idx.val + j
  if l.part.val = 2 then [at' 64] else (List.range 32).map fun j => at' (32 * l.part.val + j)
end Sys2Proof
namespace Sys2Proof.Machine

def execMrd (bk : BitVec 2) (va : BitVec 6) (ln : BankLine) (s : State) : Res :=
  s.guard (s.mCheck (.mrd bk va ln)) fun s => s.onMe fun k => k.onActive fun _ x =>
    x.fly (k.flyV .m (k.vphys va) 6 [0, 1, 2, 3] (ofElts 32 (ln.cells.map fun c => (sget 0#32 (4225 * bk.toNat + c) x.seen.m).toNat)) (BitVec.allOnes 128))
def execMwr (bk : BitVec 2) (va : VSrc) (ln : BankLine) (s : State) : Res :=
  s.guard (s.mCheck (.mwr bk va ln)) fun s => s.onMe fun k => k.onActive fun _ x =>
    let v := k.vsrc x va
    { k.popOn [va] x with bankUpds := x.bankUpds ++ [⟨k.now + 5, k.now, .write bk (ln.cells.zipIdx.map fun (c, j) => (c, BitVec.ofNat 32 (elt 32 v j)))⟩] }

/-! ### The drain (R250 to R258) -/

/-- Outcome of a check (R251). -/
structure ArrCheck where
  outc : Nat
  nonf : Bool
  rows : List Nat
  cols : List Nat
  /-- r, c and their tolerances at the lowest exceeding row and column. -/
  r : Ext
  c : Ext
  tr : Ext
  tc : Ext
  fix : Option (Nat × Nat × Ext × Ext)
deriving DecidableEq, Repr

/-- Residue and tolerance of a row or column, and whether it exceeds (R251). -/
def residue (t : Nat) (xs : List Ext) (ck : Ext) : Ext × Ext × Bool :=
  let r := rne32 (Ext.sub ck (sumExt xs))
  let tol := rne32 (Ext.mul (.num (pow2 (-(t : Int)))) (Ext.add (sumExt (xs.map Ext.abs)) ck.abs))
  (r, tol, !(xs.all Ext.finite && ck.finite) || Ext.lt tol r.abs)

def rowRes (t m : Nat) (X : Nat → Nat → Ext) (i : Nat) : Ext × Ext × Bool := let _ := m; residue t ((List.range 64).map (X i)) (X i 64)
def colRes (t m : Nat) (X : Nat → Nat → Ext) (j : Nat) : Ext × Ext × Bool := residue t ((List.range m).map fun i => X i j) (X 64 j)
def exRows (t m : Nat) (X : Nat → Nat → Ext) : List Nat := (List.range m ++ [64]).filter fun i => (rowRes t m X i).2.2
def exCols (t m : Nat) (X : Nat → Nat → Ext) : List Nat := (List.range 65).filter fun j => (colRes t m X j).2.2

/-- A snapshot with the correction of one element. -/
def fixedX (X : Nat → Nat → Ext) (f : Option (Nat × Nat × Ext × Ext)) (i j : Nat) : Ext :=
  match f with
  | some (a, b, er, ec) => if i = a ∧ j = b then rne32 (Ext.sub (X i j) (Ext.mul (Ext.add er ec) (.num (1 / 2)))) else X i j
  | none => X i j

/-- check(X) of R251. -/
def arrCheck (skip : Bool) (t m : Nat) (X : Nat → Nat → Ext) : ArrCheck :=
  let z : Ext := .zero false
  if skip then ⟨3, false, [], [], z, z, z, z, none⟩
  else
    let rows := exRows t m X
    let cols := exCols t m X
    let nonf := (List.range m ++ [64]).any fun i => (List.range 65).any fun j => !(X i j).finite
    let (r, tr, _) := match rows with | i :: _ => rowRes t m X i | [] => (z, z, false)
    let (c, tc, _) := match cols with | j :: _ => colRes t m X j | [] => (z, z, false)
    let mk (o : Nat) (f : Option (Nat × Nat × Ext × Ext)) : ArrCheck := ⟨o, nonf, rows, cols, r, c, tr, tc, f⟩
    match rows, cols with
    | [], [] => mk 0 none
    | [i], [j] =>
      let er := if j = 64 then r else Ext.neg r
      let ec := if i = 64 then c else Ext.neg c
      let f := some (i, j, er, ec)
      if Ext.le (Ext.sub er ec).abs (Ext.add tr tc) ∧ (exRows t m (fixedX X f)).isEmpty ∧ (exCols t m (fixedX X f)).isEmpty then mk 1 f
      else mk 2 none
    | _, _ => mk 2 none

/-- One bit per listed row or column. -/
def idxMap (l : List Nat) (lo : Nat) : Nat := l.foldl (fun m i => if lo ≤ i ∧ i < lo + 32 then m + 2 ^ (i - lo) else m) 0

/-- The status record of a drain without its counters (Table 15-6). -/
def statRec (c : ArrCheck) (kind bfl : Bool) (bank : BitVec 2) (dt : Nat) : BitVec 1024 :=
  let one := c.rows.length == 1 && c.cols.length == 1
  let b (x : Bool) (n : Nat) : Nat := if x then 2 ^ n else 0
  let e0 := (if one then c.cols.headD 0 else 0xFF) * 2 ^ 16 + (if one then c.rows.headD 0 else 0xFF) * 2 ^ 8 + 2 ^ 7 + b kind 6 + b c.nonf 5 + b bfl 4 +
    bank.toNat * 4 + c.outc
  let delta := match c.fix with | some (_, _, er, ec) => Ext.mul (Ext.add er ec) (.num (-1 / 2)) | none => .zero false
  let f (x : Ext) : Nat := (code32 x).toNat
  ofElts 32 [e0, c.cols.length * 256 + c.rows.length, f c.r, f c.c, f c.tr, f c.tc, f delta, dt % 2 ^ 32,
    idxMap c.rows 0, idxMap c.rows 32, idxMap c.rows 64, idxMap c.cols 0, idxMap c.cols 32, idxMap c.cols 64]

/-- A completed drain's record, its counter raised from the previous record's (Table 15-6). -/
def statNext (old new : BitVec 1024) : BitVec 1024 :=
  let outc := elt 32 new 0 % 4
  let cnt (e o : Nat) : Nat := let v := elt 32 old e; if outc = o ∧ v < 2 ^ 32 - 1 then v + 1 else v
  new ||| (BitVec.ofNat 1024 (cnt 16 1 + 2 ^ 32 * cnt 17 2 + 2 ^ 64 * cnt 18 3) <<< 512)

/-- The bound rule of R253: the value after it, and whether it was out of bounds. -/
def boundOf (bact : Nat) (blo bhi y : BitVec 32) : BitVec 32 × Bool :=
  if bact = 0 then (y, false)
  else
    let v := val32 y
    let bad := !(Ext.le (val32 blo) v && Ext.le v (val32 bhi))
    (if bact = 2 then (if Ext.lt v (val32 blo) then blo else if Ext.lt (val32 bhi) v then bhi else y) else y, bad)

/-- The largest magnitude of a block, ranked by R188, a NaN canonical (R232). -/
def blockMax (ys : List (BitVec 32)) : BitVec 32 :=
  (ys.map fun y => y &&& 0x7FFFFFFF#32).foldl (fun a y => fpick rankAbove a y) 0#32

/-- Lists of n elements. -/
def chunks {α : Type} (n : Nat) : Nat → List α → List (List α)
  | 0, _ => []
  | fuel + 1, l => if l.isEmpty then [] else l.take n :: chunks n fuel (l.drop n)

/-- A converted row: its bytes, its header or scale bytes, and the stored values decoded (R77, R253, R254). -/
def drainRow (e : BitVec 64) (scale : Ext) (ds : List Nat) (ys : List (BitVec 32)) : List Nat × List Nat × List Ext :=
  let d := ftD e
  let r := ftRnd e
  let rv := ds.map (· % 2 ^ r.n)
  let vs := ys.map fun y => if ftSc e = 1 then Ext.div (val32 y) scale else val32 y
  if d = 5 then
    let bs := (chunks 16 4 vs).zipIdx.map fun (b, i) => quantF4x r (rv.drop (16 * i)) b
    (bs.flatMap fun b => nibbleBytes b.codes, bs.flatMap fun b => [b.s, b.x], bs.flatMap fun b => b.codes.map fun c => decF4x c b.s b.x)
  else if d = 6 ∨ d = 7 then
    let bs := (chunks 32 2 vs).zipIdx.map fun (b, i) => quantB32 (fmtElem d) r (rv.drop (32 * i)) b
    (bs.flatMap (·.codes), bs.map (·.s), bs.flatMap fun b => b.codes.map fun c => decB32 (fmtElem d) c b.s)
  else
    let cs := vs.zipIdx.map fun (v, i) => (fmtElem d).round r.mode r.nsat r.n (rv.getD i 0) v
    (cs.flatMap fun c => (List.range (fmtBits d / 8)).map fun j => c / 256 ^ j % 256, [], cs.map (fmtElem d).dec)

/-- What a drain's check and correction leave on one core: the core with the injection made, the outcome, and X corrected. -/
def Cluster.drainCheck (k : Cluster) (bk : BitVec 2) (e : BitVec 64) (m : Nat) (nochk : Bool) (x : Core) : ArrCheck × (Nat → Nat → Ext) :=
  let X (i j : Nat) : Ext := val32 (x.cell bk.toNat i j)
  let _ := k
  let c := arrCheck (nochk || !x.linOf bk || x.staleOf bk) (tolOf (ftTol e)) m X
  (c, fixedX X c.fix)

/-- The armed error injection: it flips its bit at the next drain of its core and bank, and EN clears (R261). -/
def Cluster.inject (k : Cluster) (bk : BitVec 2) : Cluster :=
  let w := k.errinj
  let ci := (w.extractLsb' 55 8).toNat
  if w.getLsbD 63 ∧ w.extractLsb' 53 2 = bk ∧ k.cmsk.getLsbD ci then
    let row := (w.extractLsb' 46 7).toNat
    let col := (w.extractLsb' 39 7).toNat
    let k := { k with errinj := w &&& 0x7FFFFFFFFFFFFFFF#64 }
    if row > 64 ∨ col > 64 then k
    else
      let flip (v : BitVec 32) : BitVec 32 := v ^^^ (1#32 <<< (w.extractLsb' 34 5).toNat)
      k.onCore ci fun x =>
        let x := x.setCell bk.toNat row col (flip (x.cell bk.toNat row col))
        { x with bankUpds := x.bankUpds.map fun u =>
            match u.op with
            | .unseen b cells => { u with op := .unseen b (cells.map fun (i, v) => (i, if b = bk ∧ i = 65 * row + col then flip v else v)) }
            | _ => u }
  else k

/-- What one core's part of an MDRN comes to (R251 to R254). -/
structure DrainCore where
  core : Nat
  chk : ArrCheck
  oob : Bool
  folds : List (List (BitVec 32))
  bytes : List (Nat × Byte)

/-- Corrected data rows after the bounds, and whether any value was out of bounds. -/
def Cluster.boundRows (k : Cluster) (tm : BitVec 4) (m : Nat) (X : Nat → Nat → Ext) : List (List (BitVec 32)) × Bool :=
  let f (n : Nat) : BitVec 32 := (k.tmField tm n).setWidth 32
  let rows := (List.range m).map fun i => (List.range 64).map fun n => boundOf (k.tmN tm 39) (f 37) (f 38) (code32 (X i n))
  (rows.map fun r => r.map (·.1), rows.any fun r => r.any (·.2))

/-- Bytes of a tile at offsets in the core's scratchpad (R203, R254). -/
def Cluster.tileBytes (k : Cluster) (tm : BitVec 4) (e : BitVec 64) (ckw : Bool) (ds : List Nat) (rows : List (List (BitVec 32))) :
    List (Nat × Byte) :=
  let d := ftD e
  let off := k.tmN tm 19
  let pitch := k.tmN tm 20
  let scale := val32 ((k.tmField tm 35).setWidth 32)
  let cv := rows.zipIdx.map fun (ys, i) => drainRow e scale (ds.drop (64 * i)) ys
  let put (base : Nat) (bs : List Nat) : List (Nat × Byte) := bs.zipIdx.map fun (b, j) => (base + j, BitVec.ofNat 8 b)
  let data := cv.zipIdx.flatMap fun ((b, h, _), i) => put (off + i * pitch) b ++ put (k.tmN tm 22 + i * pitch / hdrDiv d) h
  let vals := cv.map fun (_, _, v) => v
  let sums := ((List.range 64).map fun n => sumExt (vals.map fun r => r.getD n (.zero false))) ++ vals.map sumExt
  data ++ (if ckw then put (k.tmN tm 21) (sums.flatMap fun v => (leBytes 4 (code32 v).toNat).map (·.toNat)) else [])

/-- Draws of a drain: one per drained value under SR (R72). -/
def drainDraws (e : BitVec 64) (m : Nat) : Nat := if ftRm e = 4 then 64 * m else 0

/-- The completion-point trap of a drain: ABFTU where any core is uncorrectable, BOUND under action 3 (R256). -/
def drainTrap (bk : BitVec 2) (bact : Nat) (cs : List (Nat × ArrCheck × Bool)) : Option TrapInfo :=
  let t (cause : BitVec 8) (c : Nat) : TrapInfo := { cause := cause, sub := bk.setWidth 8, core := some (BitVec.ofNat 8 c), slot := 5#3 }
  match cs.find? fun (_, c, _) => c.outc == 2 with
  | some (i, _) => some (t cABFTU i)
  | none => if bact = 3 then (cs.find? fun (_, _, o) => o).map fun (i, _) => t cBOUND i else none

/-- Queue corrections for t + 108, and the completion-point trap of a drain that fails (R255, R256, R258). -/
def Cluster.drainEnd (k : Cluster) (bk : BitVec 2) (due : Nat) (trap : Option TrapInfo) (chks : List (Nat × ArrCheck)) : Cluster :=
  match trap with
  | some t => { k with cps := k.cps ++ [⟨k.now + due, k.origin, t⟩] }
  | none => chks.foldl (fun k (ci, c) =>
      match c.fix with
      | some (i, j, er, ec) => k.onCore ci fun x => { x with bankUpds := x.bankUpds ++ [⟨k.now + 108, k.now, .fix bk i j (code32 er) (code32 ec)⟩] }
      | none => k) k

/-- The snapshots of a bank on the active cores (R250). -/
def Cluster.snapshot (k : Cluster) (bk : BitVec 2) : List (Nat × SMap (BitVec 32) × Bool × Bool) :=
  k.activeIdx.map fun i =>
    let x := k.core i
    (i, (x.seen.m.filter fun (j, _) => j / 4225 == bk.toNat).map (fun (j, v) => (j % 4225, v)), x.linOf bk, x.staleOf bk)

/-- MDRN on the active cores (R250 to R257). -/
def Cluster.mdrn (k : Cluster) (bk : BitVec 2) (fs : FSel) (m : Nat) (nochk ckw : Bool) (tm : BitVec 4)
    (col : Option (BitVec 4 × BitVec 16)) : Cluster :=
  let k := k.inject bk
  let cs : List DrainCore := k.activeIdx.map fun ci =>
    let x := (k.core ci).seen
    let e := k.fte x fs
    let (c, X) := k.drainCheck bk e m nochk x
    let (rows, oob) := k.boundRows tm m X
    ⟨ci, c, oob, rows.map fun r => (chunks 16 4 r).map blockMax,
      (k.tileBytes tm e ckw (x.draw (drainDraws e m)).1 rows).map fun (a, b) => (2 ^ 18 * ci + a, b)⟩
  let trap := drainTrap bk (k.tmN tm 39) (cs.map fun d => (d.core, d.chk, d.oob))
  let ok := trap.isNone
  let cor := ok && cs.any fun d => d.chk.outc == 1
  let d : Drain := {
    kind1 := false, bank := bk, issue := k.now, done := k.now + (if cor then 108 else 100), cores := k.cmsk, tm := tm,
    col := if ok then col else none, out := if ok then cs.flatMap (·.bytes) else [], regs := []
    instr := .mdrn bk fs (Fin.ofNat 64 (m - 1)) nochk ckw tm col, snap := k.snapshot bk
    folds := if ok then (List.range m).flatMap fun i => cs.flatMap fun d => d.folds.getD i [] else [],
    bflag := ok && k.tmN tm 39 == 1 && cs.any (·.oob), stat := cs.map fun d => (d.core, statRec d.chk false d.oob bk k.dt), origin := k.origin }
  let k := { k with drains := k.drains ++ [d] }
  let k := k.onActive fun _ x => (x.draw (drainDraws (k.fte x fs) m)).2
  k.drainEnd bk 100 trap (cs.map fun d => (d.core, d.chk))

def execMdrn (bk : BitVec 2) (fs : FSel) (m : Fin 64) (nochk ckw : Bool) (tm : BitVec 4) (col : Option (BitVec 4 × BitVec 16)) (s : State) : Res :=
  s.guard (s.mCheck (.mdrn bk fs m nochk ckw tm col)) fun s => s.onMe fun k => k.mdrn bk fs (m.val + 1) nochk ckw tm col

/-- The picks of a row, best first: k columns with their codes (R258). -/
def picks (mode : SelMode) : Nat → List (Nat × Nat) → List (Nat × Nat)
  | 0, _ => []
  | n + 1, l =>
    match selBest mode (fun c => val32 (BitVec.ofNat 32 c)) l with
    | none => []
    | some b => b :: picks mode n (l.filter fun y => y.1 != b.1)

/-- MDRNK on the active cores: it writes bit patterns as the bank holds them, a corrected element's excepted (R258). -/
def Cluster.mdrnk (k : Cluster) (bk : BitVec 2) (fs : FSel) (va : BitVec 6) (kn : Nat) (nochk : Bool) (mode : SelMode) (m nr rb : Nat) : Cluster :=
  let k := k.inject bk
  let cs := k.activeIdx.map fun ci =>
    let x := (k.core ci).seen
    let (c, X) := k.drainCheck bk (k.fte x fs) m nochk x
    let bits (i j : Nat) : BitVec 32 := if (match c.fix with | some (a, b, _, _) => i == a && j == b | none => false) then code32 (X i j) else x.cell bk.toNat i j
    let ps := (List.range nr).flatMap fun r => picks mode kn ((List.range 64).map fun n => (n, (bits (rb + r) n).toNat))
    ((ci, c, ps) : Nat × ArrCheck × List (Nat × Nat))
  let trap := drainTrap bk 0 (cs.map fun (i, c, _) => (i, c, false))
  let d : Drain := {
    kind1 := true, bank := bk, issue := k.now, done := k.now + 120, cores := k.cmsk, tm := 0#4, col := none, out := [],
    regs := if trap.isNone then cs.flatMap fun (i, _, ps) =>
      [(i, k.vphys va, ofElts 32 (ps.map (·.2))), (i, k.vphys (va + 1#6), ofElts 8 (ps.map (·.1)))] else []
    instr := .mdrnk bk fs va (BitVec.ofNat 4 (kn - 1)) nochk mode (Fin.ofNat 64 (m - 1)) (BitVec.ofNat 5 (nr - 1)) (BitVec.ofNat 6 rb)
    snap := k.snapshot bk
    folds := [], bflag := false, stat := cs.map fun (i, c, _) => (i, statRec c true false bk k.dt), origin := k.origin }
  ({ k with drains := k.drains ++ [d] } : Cluster).drainEnd bk 120 trap (cs.map fun x => (x.1, x.2.1))

def execMdrnk (bk : BitVec 2) (fs : FSel) (va : BitVec 6) (k : BitVec 4) (nochk : Bool) (mode : SelMode) (m : Fin 64) (nr : BitVec 5)
    (rb : BitVec 6) (s : State) : Res :=
  s.guard (s.mCheck (.mdrnk bk fs va k nochk mode m nr rb)) fun s => s.onMe fun c =>
    c.mdrnk bk fs va (k.toNat + 1) nochk mode (m.val + 1) (nr.toNat + 1) rb.toNat

/-- The array error record of a drain that corrected or failed (Table 25-2). -/
def errRecord (ct core : Nat) (st : BitVec 1024) : Option (BitVec 128) :=
  let e (i : Nat) : BitVec 32 := BitVec.ofNat 32 (elt 32 st i)
  let outc := (e 0).setWidth 2
  let low (i : Nat) : Nat := ((List.range 65).find? fun j => (e (i + j / 32)).getLsbD (j % 32)).getD 0
  if outc = 1#2 ∨ outc = 2#2 then
    some (BitVec.ofNat 64 ct ++ BitVec.ofNat 12 core ++ (e 0).extractLsb' 2 2 ++ outc ++ (e 1).extractLsb' 0 8 ++ (e 1).extractLsb' 8 8 ++
      BitVec.ofNat 8 (low 8) ++ BitVec.ofNat 8 (low 11) ++ 0#16)
  else none

/-- A record that is a column event, with the core and the column it names (R364). -/
def columnEvent (r : BitVec 128) : Option (Nat × Nat) :=
  if r.extractLsb' 48 2 = 2#2 ∧ r.extractLsb' 32 8 = 1#8 ∧ 2 ≤ (r.extractLsb' 40 8).toNat then
    some ((r.extractLsb' 52 12).toNat, (r.extractLsb' 16 8).toNat)
  else none

/-- A core has gathered COLTHR column events on one column within COLWIN, in seconds of 1.7 GHz chip time, which begins again at a reset (R364). -/
def State.columnFull (s : State) (e : Nat × Nat) : Bool :=
  decide (s.colthr.toNat ≤ (((s.errLog.drop s.logOld).filter fun r => columnEvent r == some e && decide (s.ct ≤ (r.extractLsb' 64 64).toNat + s.colwin.toNat * 1700000000)).length))

/-- The registers of drains due at a cycle, as results of the pipeline landing in it (R97, R258). -/
def Cluster.drainRegs (k : Cluster) : Cluster :=
  let now := k.now
  let due (d : Drain) : Bool := !d.regs.isEmpty && decide (d.done ≤ now)
  let k := (k.drains.filter due).foldl (fun (k : Cluster) d => d.regs.foldl (fun (k : Cluster) (i, r, v) => k.onCore i fun x =>
    x.fly ((List.range 4).map fun g => entryOf .v .v .m r g now d.issue (v.extractLsb' (256 * g) 256) 0xFFFFFFFF#32 d.origin)) k) k
  { k with drains := k.drains.map fun d => if due d then { d with regs := [] } else d }

/-- Complete a drain in a cluster: its flags, AMAX, status records, error log, and its chunk count after a release (R255 to R258, R363). -/
def State.finishDrain (s : State) (c : Nat) (d : Drain) : State :=
  let recs := d.stat.filterMap fun (i, st) => errRecord s.ct (256 * c + i) st
  let log := s.errLog ++ recs
  let s := { s with errLog := log.drop (log.length - 4096), logOld := s.logOld - (log.length - 4096) }
  let s := if (recs.filterMap columnEvent).any s.columnFull then { s with inputs := s.inputs ++ [(s.ct + 1, .maintenanceRun (BitVec.ofNat 4 c))] } else s
  let s := s.onCl c fun k =>
    let k := d.stat.foldl (fun k (i, st) => k.onCore i fun x => { x with dstat := statNext x.dstat st }) k
    let k := if d.bflag then k.putTm (64 * d.tm.toNat + 40) 1#64 else k
    let k := if d.folds.isEmpty then k else k.putTm (64 * d.tm.toNat + 41) (foldAmax (k.tmField d.tm 41) d.folds)
    { k with drains := k.drains.filter fun e => !(e.issue == d.issue && e.origin == d.origin) }
  match d.col with
  | none => s
  | some (kk, chunk) =>
    let s := s.release c .device
    let (n, s) := s.free
    { s with inputs := s.inputs ++ [(s.ct + 1 + n, .chunkCount (BitVec.ofNat 4 c) kk (chunk.setWidth 20)
        (BitVec.ofNat 16 ((List.range 256).filter d.cores.getLsbD).length) d.origin)] }

/-! ### Status and diagnostics (R260 to R263) -/

/-- The three counters of a record, elements 16 to 18. -/
def clearCounts (v : BitVec 1024) : BitVec 1024 := v &&& ~~~(0xFFFFFFFFFFFFFFFFFFFFFFFF#1024 <<< 512)
def execMstat (va : BitVec 6) (clr : Bool) (s : State) : Res :=
  s.guard (s.mCheck (.mstat va clr)) fun s => s.onMe fun k => k.onActive fun _ x =>
    ({ x with dstat := if clr then clearCounts x.dstat else x.dstat }).fly (k.flyV .m (k.vphys va) 2 [0, 1, 2, 3] x.dstat (BitVec.allOnes 128))

/-- MDIAG: which k-rows fail is the hardware's, a free value per core (R262). -/
def execMdiag (va : BitVec 6) (s : State) : Res :=
  s.guard (s.mCheck (.mdiag va)) fun s =>
    let n := s.fresh
    let s := s.onMe fun k => allBanks.foldl (fun k b => k.queueUpd 160 fun _ => .zero b)
      ((k.onActive fun i x => ({ x with diagFree := k.now + 160 }).fly (k.flyV .m (k.vphys va) 160 [0, 1, 2, 3]
        (BitVec.ofNat 1024 (Config.freeNat (n + i) % 2 ^ 66)) (BitVec.allOnes 128))).queueUpd 160 fun _ => .planesNone)
    { s with fresh := n + 256 }

/-- MSPR's status code (R263). -/
def sprCode (x : Core) (row : Nat) : Nat := if x.retired.contains row then 1 else if x.retired.length < 2 then 0 else 2

/-- A spare-map entry after a retirement, or OUT where no spare remains (R263, Table 15-8). -/
def spareNext (e : BitVec 32) (code row : Nat) : BitVec 32 :=
  let r := BitVec.ofNat 32 (row % 128)
  if code = 2 then e ||| 0x80000000#32
  else if code = 1 then e
  else if e.getLsbD 7 then (e &&& 0xFFFF00FF#32) ||| 0x8000#32 ||| (r <<< 8) else (e &&& 0xFFFFFF00#32) ||| 0x80#32 ||| r

/-- MSPR; the management core records a persistent retirement at once (R263). -/
def execMspr (va : BitVec 6) (persist : Bool) (row : Fin 66) (s : State) : Res :=
  s.guard (s.mCheck (.mspr va persist row)) fun s =>
    let c := s.cur.cl
    let k := s.me
    let s := if persist then k.activeIdx.foldl (fun s i =>
        let dev := 256 * c + i
        { s with spare := sput 0#32 dev (spareNext (sget 0#32 dev s.spare) (sprCode (k.core i) row.val) row.val) s.spare }) s else s
    s.onMe fun k => (k.onActive fun _ x =>
      let code := sprCode x row.val
      let ops : List BankOp := if code = 0 then [.retire row.val, .planesNone] else []
      let x := { x with bankUpds := x.bankUpds ++ ops.map (fun o => (⟨k.now + 64, k.now, o⟩ : BankUpd)), diagFree := k.now + 64 }
      x.fly (k.flyV .m (k.vphys va) 64 [0, 1, 2, 3] (BitVec.ofNat 1024 code) (BitVec.allOnes 128)))

end Sys2Proof.Machine
end

