-- ==== Sys2Proof/Machine/Distribution.lean ====
section
/-!
DEFINITION. Distribution registers and the D slot (R265 to R284): reading an element, condensing, pairing, maps, construction and
extraction.
-/
namespace Sys2Proof.Machine

/-! ### Elements (R265 to R267) -/

/-- An element of a distribution register: its 512 data bits, count and tag (Table 17-1). -/
structure DEl where
  pts : BitVec 512
  n : BitVec 4
  tag : BitVec 16
deriving DecidableEq, Repr

/-- Element e of a register (R265, R169). -/
def Core.del (x : Core) (d : BitVec 3) (e : Nat) : DEl :=
  let w := (x.dWords.getD d.toNat 0#128).extractLsb' (32 * e) 32
  ⟨(x.dPts.getD d.toNat 0#2048).extractLsb' (512 * e) 512, w.setWidth 4, w.extractLsb' 16 16⟩

/-- Value and weight codes of point j. -/
def DEl.val (x : DEl) (j : Nat) : BitVec 32 := x.pts.extractLsb' (64 * j) 32
def DEl.wt (x : DEl) (j : Nat) : BitVec 32 := x.pts.extractLsb' (64 * j + 32) 32

/-- A point: its value and its exact weight. -/
abbrev Point := Ext × Rat

/-- The NaN element with a tag (R266). -/
def nanEl (tag : BitVec 16) : DEl := ⟨0x3F8000007FC00000#512, 1#4, tag⟩

/-- take of R267; none for the NaN element. -/
def DEl.take (x : DEl) : Option (List Point) :=
  let n := x.n.toNat
  let ps := (List.range n).map fun j => (val32 (x.val j), val32 (x.wt j))
  if n = 0 ∨ n > 8 then none
  else if ps.any fun (v, w) => v.isNan || !w.finite || decide (w.rat < 0) then none
  else if ps.all fun (_, w) => decide (w.rat = 0) then none
  else some (ps.map fun (v, w) => (v, w.rat))

/-! ### Condensing (R268) -/

/-- Insert a point in ascending order; points of equal value merge, a zero being +0 unless every member is -0. -/
def insPt (p : Point) : List Point → List Point
  | [] => [p]
  | q :: r =>
    if Ext.eqv p.1 q.1 then ((if p.1.isZero then Ext.add p.1 q.1 else q.1), p.2 + q.2) :: r
    else if Ext.lt p.1 q.1 then p :: q :: r
    else q :: insPt p r
def sortPts (ps : List Point) : List Point := ps.foldl (fun acc p => insPt p acc) []

/-- Cumulative weights: each point with the weight before it and the weight up to it. -/
def cumul : Rat → List Point → List (Ext × Rat × Rat)
  | _, [] => []
  | c, (v, w) :: r => (v, c, c + w) :: cumul (c + w) r
def weightOf (ps : List Point) : Rat := (ps.map (·.2)).sum

/-- The mean of slice s of eight (R268); only points that overlap the slice take part. -/
def sliceMean (ps : List Point) (s : Nat) : Ext :=
  let w := weightOf ps
  let lo := (s : Rat) * w / 8
  let hi := ((s + 1 : Nat) : Rat) * w / 8
  let terms := (cumul 0 ps).filterMap fun (v, a, b) =>
    let share := (if b < hi then b else hi) - (if a < lo then lo else a)
    if share > 0 then some (Ext.mul (.num share) v) else none
  rne32 (Ext.div (sumExt terms) (extOfRat (w / 8)))

/-- An element with points in ascending order, unused points +0 and +0. -/
def elOf (tag : BitVec 16) (ps : List (BitVec 32 × BitVec 32)) : DEl :=
  ⟨BitVec.ofNat 512 (ps.foldr (fun (v, w) acc => v.toNat + 2 ^ 32 * w.toNat + 2 ^ 64 * acc) 0), BitVec.ofNat 4 ps.length, tag⟩

/-- condense (R268), with the tag the instruction's rule gives. -/
def condense (tag : BitVec 16) (ps : List Point) : DEl :=
  if ps.any fun p => p.1.isNan || decide (p.2 < 0) then nanEl tag
  else
    let ps := sortPts (ps.filter fun p => decide (p.2 ≠ 0))
    if ps.isEmpty then nanEl tag
    else
      let means := (List.range 8).map (sliceMean ps)
      if ps.length > 8 ∧ means.any Ext.isNan then nanEl tag
      else
        let ps := if ps.length > 8 then sortPts (means.map fun m => (m, 1)) else ps
        let w := weightOf ps
        elOf tag (ps.map fun p => (code32 p.1, code32 (extOfRat (p.2 / w))))

/-! ### Pairing (R270, R275) -/

/-- Weights relative to their total. -/
def relWeights (ps : List Point) : List Point := let w := weightOf ps; ps.map fun p => (p.1, p.2 / w)

def pairInd (f : Ext → Ext → Ext) (xs ys : List Point) : List Point :=
  (relWeights xs).flatMap fun x => (relWeights ys).map fun y => (rne32 (f x.1 y.1), x.2 * y.2)

/-- Insert a breakpoint into a rising list without repeats. -/
def insRat (b : Rat) : List Rat → List Rat
  | [] => [b]
  | c :: r => if b = c then c :: r else if b < c then b :: c :: r else c :: insRat b r

/-- The value of the point that a breakpoint falls in. -/
def atBreak (cs : List (Ext × Rat × Rat)) (b : Rat) : Ext := match cs.find? fun (_, _, hi) => b ≤ hi with | some (v, _, _) => v | none => .nan

/-- Weights of consecutive breakpoints. -/
def gaps : Rat → List Rat → List (Rat × Rat)
  | _, [] => []
  | a, b :: r => (b, b - a) :: gaps b r

/-- Comonotone pairing: each side is sorted and merged whole, points of no weight among the rest, and then only what has weight takes part (R270). -/
def pairCom (f : Ext → Ext → Ext) (xs ys : List Point) : List Point :=
  let side (ps : List Point) := cumul 0 ((sortPts (relWeights ps)).filter fun p => decide (p.2 ≠ 0))
  let cx := side xs
  let cy := side ys
  let bs := (cx ++ cy).foldl (fun acc (_, _, b) => insRat b acc) []
  (gaps 0 bs).map fun (b, w) => (rne32 (f (atBreak cx b) (atBreak cy b)), w)

def dMax (x y : Ext) : Ext := if rankAbove y x then y else x
def dMin (x y : Ext) : Ext := if rankBelow y x then y else x

/-- A binary operation on two elements (R270, R275). -/
def pairEl (m : PairMode) (f : Ext → Ext → Ext) (a b : DEl) : DEl :=
  let tag := a.tag ||| b.tag
  match a.take, b.take with
  | some xs, some ys =>
    let com := match m with | .tags => a.tag &&& b.tag != 0#16 | .ind => false | .com => true
    condense tag (if com then pairCom f xs ys else pairInd f xs ys)
  | _, _ => nanEl tag

/-! ### The common frame (R271, R273) -/

/-- The issue interval of the D slot (R99). -/
def State.dCheck (s : State) : Option TrapInfo :=
  failIf (match s.me.lastD with | some t => decide (s.me.now < t + 4) | none => false) (s.trapOf cILLBUN none 4#16)

/-- The data bits and element words of four elements (R169). -/
def packEls (el : Nat → DEl) : BitVec 2048 × BitVec 128 :=
  (BitVec.ofNat 2048 ((List.range 4).foldr (fun e acc => (el e).pts.toNat + 2 ^ 512 * acc) 0),
   BitVec.ofNat 128 ((List.range 4).foldr (fun e acc => (el e).n.toNat + 2 ^ 16 * (el e).tag.toNat + 2 ^ 32 * acc) 0))

/-- The state after a D instruction with a distribution result, which lands at t + 24. -/
def State.dNext (s : State) (dd : BitVec 3) (srcs : List VSrc) (f : Core → (VSrc → BitVec 1024) → Nat → DEl) : State :=
  s.onMe fun k =>
    { k.onActive fun _ x =>
        let (pts, words) := packEls (f x (k.vsrc x))
        (k.popOn srcs x).fly (k.flyD .d dd 24 pts words) with lastD := some k.now }
def State.dOut (s : State) (dd : BitVec 3) (srcs : List VSrc) (f : Core → (VSrc → BitVec 1024) → Nat → DEl) : Res :=
  s.guard s.dCheck fun s => s.dNext dd srcs f

/-- The state after a D instruction with a vector result. -/
def State.dVecNext (s : State) (va : BitVec 6) (srcs : List VSrc) (nd : Nat) (f : List Nat → Core → (VSrc → BitVec 1024) → Nat → BitVec 32) : State :=
  s.onMe fun k =>
    { k.onActive fun _ x =>
        let (ds, x') := x.draw nd
        let res := ofElts 32 ((List.range 32).map fun i => (f ds x (k.vsrc x) i).toNat)
        (k.popOn srcs x').fly (k.flyV .d (k.vphys va) 24 [0, 1, 2, 3] res (BitVec.allOnes 128)) with lastD := some k.now }
def State.dVec (s : State) (va : BitVec 6) (srcs : List VSrc) (nd : Nat) (f : List Nat → Core → (VSrc → BitVec 1024) → Nat → BitVec 32) : Res :=
  s.guard s.dCheck fun s => s.dVecNext va srcs nd f

/-- Lane i as f32. -/
def laneF (v : BitVec 1024) (i : Nat) : Ext := val32 (BitVec.ofNat 32 (elt 32 v i))

/-! ### Arithmetic and maps (R275 to R280) -/

def execDadd (m : PairMode) (dd da db : BitVec 3) (s : State) : Res := s.dOut dd [] fun x _ e => pairEl m Ext.add (x.del da e) (x.del db e)
def execDsub (m : PairMode) (dd da db : BitVec 3) (s : State) : Res := s.dOut dd [] fun x _ e => pairEl m Ext.sub (x.del da e) (x.del db e)
def execDmul (m : PairMode) (dd da db : BitVec 3) (s : State) : Res := s.dOut dd [] fun x _ e => pairEl m Ext.mul (x.del da e) (x.del db e)
def execDmax (m : PairMode) (dd da db : BitVec 3) (s : State) : Res := s.dOut dd [] fun x _ e => pairEl m dMax (x.del da e) (x.del db e)
def execDmin (m : PairMode) (dd da db : BitVec 3) (s : State) : Res := s.dOut dd [] fun x _ e => pairEl m dMin (x.del da e) (x.del db e)

/-- A map of every value, weights and tag kept. -/
def mapEl (f : Ext → Ext) (a : DEl) : DEl :=
  match a.take with
  | some ps => condense a.tag (ps.map fun p => (f p.1, p.2))
  | none => nanEl a.tag
def execDaff (dd da : BitVec 3) (va : VSrc) (s : State) : Res :=
  s.dOut dd [va] fun x rd e => mapEl (fun v => rne32 (Ext.add (Ext.mul (laneF (rd va) (2 * e)) v) (laneF (rd va) (2 * e + 1)))) (x.del da e)

/-- The functions of DMAP (R277). -/
def mapFn (f : MapFn) (v : Ext) : Ext :=
  match f with
  | .exp2 => val32 (special32 .exp2 v)
  | .log2 => val32 (special32 .log2 v)
  | .sqrt => val32 (special32 .sqrt v)
  | .tanh => val32 (special32 .tanh v)
  | .sigm => val32 (special32 .sigm v)
  | .rcp => val32 (special32 .rcp v)
  | .relu => if v.sgn then .zero false else v
def execDmap (f : MapFn) (dd da : BitVec 3) (s : State) : Res := s.dOut dd [] fun x _ e => mapEl (mapFn f) (x.del da e)

/-- A mixture of two elements (R278). -/
def mixEl (alpha : Ext) (a b : DEl) : DEl :=
  let tag := a.tag ||| b.tag
  match a.take, b.take with
  | some xs, some ys =>
    if alpha.isNan || Ext.lt alpha (.zero false) || Ext.lt (.num 1) alpha then nanEl tag
    else condense tag ((relWeights xs).map (fun p => (p.1, alpha.rat * p.2)) ++ (relWeights ys).map fun p => (p.1, (1 - alpha.rat) * p.2))
  | _, _ => nanEl tag
def execDmix (dd da db : BitVec 3) (va : VSrc) (s : State) : Res :=
  s.dOut dd [va] fun x rd e => mixEl (laneF (rd va) e) (x.del da e) (x.del db e)

/-- An element conditioned on an interval (R279). -/
def cndEl (lo hi : Ext) (a : DEl) : DEl :=
  match a.take with
  | some ps => condense a.tag (ps.filter fun p => Ext.le lo p.1 && Ext.le p.1 hi)
  | none => nanEl a.tag
def execDcnd (dd da : BitVec 3) (va : VSrc) (s : State) : Res :=
  s.dOut dd [va] fun x rd e => cndEl (laneF (rd va) (2 * e)) (laneF (rd va) (2 * e + 1)) (x.del da e)

def tagOf (op : TagOp) (g m : BitVec 16) : BitVec 16 := match op with | .set => g ||| m | .clr => g &&& ~~~m | .rep => m
def execDtag (op : TagOp) (dd da : BitVec 3) (va : VSrc) (s : State) : Res :=
  s.dOut dd [va] fun x rd e => let d := x.del da e; { d with tag := tagOf op d.tag (BitVec.ofNat 16 (elt 32 (rd va) e)) }
def execDmov (sel : BitVec 8) (dd da : BitVec 3) (s : State) : Res :=
  s.dOut dd [] fun x _ e => x.del da (sel.extractLsb' (2 * e) 2).toNat

/-! ### Construction (R281) -/

def execDfrs (dd : BitVec 3) (va : VSrc) (s : State) : Res :=
  s.dOut dd [va] fun _ rd e => condense 0#16 ((List.range 8).map fun j => (laneF (rd va) (8 * e + j), 1 / 8))
def execDpnt (dd : BitVec 3) (va : VSrc) (s : State) : Res := s.dOut dd [va] fun _ rd e => condense 0#16 [(laneF (rd va) e, 1)]

/-- Element e of DFRW from its two registers (R281). -/
def dfrwEl (vals wts : BitVec 1024) (e : Nat) : DEl :=
  let ps := (List.range 8).map fun j => (laneF vals (8 * e + j), laneF wts (8 * e + j))
  if ps.any fun (_, w) => !w.finite then nanEl 0#16 else condense 0#16 (ps.map fun (v, w) => (v, w.rat))

/-- DFRW reads v(va + 1) in the next cycle (R273): an entry carries the first read until then. -/
def execDfrw (dd : BitVec 3) (va : VSrc) (s : State) : Res :=
  s.guard (firstOf [failIf (va.r == 63#6) (s.trapOf cILLINS), s.dCheck]) fun s => s.onMe fun k =>
    { k.onActive fun _ x =>
        let pop := k.repMapped va.r 1
        let q := if pop then some (x.gq.headD 0#1024) else none
        let r : RepRec := ⟨.dfrw dd va, k.rrbv, k.rrbp, q, 0#1024⟩
        let r := { r with first := repSrc r x va.r 0 }
        let x := if pop then { x with gq := x.gq.tail } else x
        x.fly [{ entryOf .rep .d .d dd.toNat 0 (k.now + 24) k.now 0#256 0#32 k.origin with perf := 1, rep := some r }] with lastD := some k.now }

/-- The result of a DFRW once its second register is read: the nine entries of its register (R273, R347, R348). -/
def dfrwDone (x : Core) (e : PEntry) : List PEntry :=
  match e.rep with
  | none => []
  | some r =>
    match r.instr with
    | .dfrw _ va =>
      let (pts, words) := packEls (dfrwEl r.first (repSrc r x va.r 1))
      ((List.range 8).map fun g => { e with kind := .d, part := g, perf := 0, rep := none, val := pts.extractLsb' (256 * g) 256, mask := 0xFFFFFFFF#32 }) ++
        [{ e with kind := .dwords, dk := .dwords, part := 0, perf := 0, rep := none, val := words.setWidth 256, mask := 0xFFFF#32 }]
    | _ => []

/-! ### Extraction (R282 to R284) -/

/-- The lowest point whose cumulative weight satisfies a test. -/
def pickCum (ps : List Point) (f : Rat → Bool) : Ext :=
  match (cumul 0 (relWeights ps)).find? fun (_, _, b) => f b with | some (v, _, _) => v | none => (ps.getLast?.map (·.1)).getD .nan

/-- Eight samples of each element; every lane takes its draw (R282). -/
def execDsmp (va : BitVec 6) (da : BitVec 3) (s : State) : Res :=
  s.dVec va [] 32 fun ds x _ i =>
    match (x.del da (i / 8)).take with
    | none => canonNan32
    | some ps => let u := ((ds.getD i 0 / 256 : Nat) : Rat) * pow2 (-24); code32 (pickCum ps fun c => u < c)

/-- Moment j of a set: the mean, and the second to fourth central moments (R283). -/
def momentOf (ps : List Point) (j : Nat) : Ext :=
  let rs := relWeights ps
  let mu := sumExt (rs.map fun p => Ext.mul (extOfRat p.2) p.1)
  let infs := ps.filter fun p => p.1.isInf
  if infs.isEmpty then
    (if j = 0 then mu else sumExt (rs.map fun p => let d := Ext.sub p.1 mu; (List.range (j + 1)).foldl (fun t _ => Ext.mul t d) (extOfRat p.2)))
  else if j = 0 then sumExt (infs.map (·.1)) else .nan
def execDmom (va : BitVec 6) (da : BitVec 3) (s : State) : Res :=
  s.dVec va [] 0 fun _ x _ i =>
    if i ≥ 16 then 0#32
    else match (x.del da (i / 4)).take with
      | none => canonNan32
      | some ps => code32 (momentOf ps (i % 4))

/-- The interpolated quantile (R284): midpoints of the slices of a set. -/
def quantLin (ps : List Point) (p : Rat) : Ext :=
  let ms := (cumul 0 (relWeights ps)).map fun (v, a, b) => (v, b - (b - a) / 2)
  let rec go : List (Ext × Rat) → Ext
    | (v, c) :: (v', c') :: r =>
      if c ≤ p ∧ p < c' then rne32 (Ext.add v (Ext.div (Ext.mul (extOfRat (p - c)) (Ext.sub v' v)) (extOfRat (c' - c)))) else go ((v', c') :: r)
    | [(v, _)] => v
    | [] => .nan
  match ms with
  | [] => .nan
  | (v, c) :: _ => if p ≤ c then v else go ms
def execDqnt (lin : Bool) (da : BitVec 3) (va : VSrc) (s : State) : Res :=
  s.dVec va.r [va] 0 fun _ x rd i =>
    if i ≥ 4 then 0#32
    else
      let p := laneF (rd va) i
      match (x.del da i).take with
      | none => canonNan32
      | some ps =>
        if p.isNan || Ext.lt p (.zero false) || Ext.lt (.num 1) p then canonNan32
        else code32 (if lin then quantLin ps p.rat else pickCum ps fun c => p.rat ≤ c)

end Sys2Proof.Machine
end

