-- ==== Sys2Proof/Machine/CopyPlan.lean ====
section
/-!
DEFINITION. What a copy command reads and writes (R198 to R203, R216 to R229): maps, tiles, conversion, checked tiles and chains, as
functions of the bytes read.
-/
namespace Sys2Proof.Machine

/-! ### Maps (Table 13-1) -/

/-- Field f of a map image. -/
def fld (m : List Word) (f : Nat) : Nat := (m.getD f 0#64).toNat

/-- A signed 32-bit field. -/
def sfld (m : List Word) (f : Nat) : Int := ((m.getD f 0#64).setWidth 32).toInt

/-- A tensor map as a command uses it. -/
structure TM where
  base : Nat
  hbase : Nat
  fmt : Nat
  sp : Nat
  rank : Nat
  order : Bool
  rm : Nat
  nsat : Bool
  dim : List Nat
  /-- Byte strides of dimensions 1 to 4. -/
  str : List Nat
  ts0 : Nat
  ts1 : Nat
  off : Nat
  pitch : Nat
  ck : Nat
  hoff : Nat
  clip0 : Nat
  clip1 : Nat
  pad : BitVec 32
  rect : Nat
  rdim : Nat
  rstep : Int
  cdim : Nat
  cstep : Int
  scale : BitVec 32
  tsm : Nat
  ckm : Nat
  ckt : Nat
  ckbase : Nat
  ckstr : Nat
  twin : Nat
  tstr : Nat
  e2e : Bool
  tver : Nat
  pnb : Nat

/-- The map a field image stands for. -/
def tmOf (m : List Word) : TM where
  base := fld m 0
  hbase := fld m 1
  fmt := fld m 2
  sp := fld m 3
  rank := fld m 4
  order := fld m 5 == 1
  rm := fld m 6
  nsat := fld m 7 == 1
  dim := (List.range 5).map fun d => fld m (8 + d)
  str := (List.range 4).map fun d => fld m (13 + d)
  ts0 := fld m 17
  ts1 := fld m 18
  off := fld m 19
  pitch := fld m 20
  ck := fld m 21
  hoff := fld m 22
  clip0 := fld m 23
  clip1 := fld m 24
  pad := (m.getD 25 0#64).setWidth 32
  rect := fld m 30
  rdim := fld m 31
  rstep := sfld m 32
  cdim := fld m 33
  cstep := sfld m 34
  scale := (m.getD 35 0#64).setWidth 32
  tsm := fld m 36
  ckm := fld m 42
  ckt := fld m 43
  ckbase := fld m 44
  ckstr := fld m 45
  twin := fld m 46
  tstr := fld m 47
  e2e := fld m 48 == 1
  tver := fld m 49
  pnb := fld m 50

/-- A position in a tensor: five coordinates. -/
abbrev Pos := List Int

/-- Participating cores with their steps from the rectangle's lowest row and column, ascending (R199, R200). -/
def TM.cores (m : TM) : List (Nat × Nat × Nat) :=
  let f (lo : Nat) : Nat := m.rect / 2 ^ lo % 16
  (List.range 256).filterMap fun c =>
    if f 0 ≤ c / 16 ∧ c / 16 ≤ f 4 ∧ f 8 ≤ c % 16 ∧ c % 16 ≤ f 12 then some (c, c / 16 - f 0, c % 16 - f 8) else none

/-- A command's origin moved to a core's tile (R200). -/
def TM.originOf (m : TM) (o : Pos) (r c : Nat) : Pos :=
  o.zipIdx.map fun (x, d) => x + (if d = m.rdim then (r : Int) * m.rstep else 0) + (if d = m.cdim then (c : Int) * m.cstep else 0)

/-- A position inside the tensor (R201). -/
def TM.inside (m : TM) (x : Pos) : Bool :=
  (x.zipIdx.all fun (v, d) => if d < m.rank then decide (0 ≤ v ∧ v < (m.dim.getD d 0 : Nat)) else v == 0) &&
    (m.clip0 == 0 || decide (x.getD 0 0 < (m.clip0 : Nat))) && (m.clip1 == 0 || decide (x.getD 1 0 < (m.clip1 : Nat)))

/-- The sum of a position's strides above dimension 0. -/
def TM.strSum (m : TM) (x : Pos) : Nat :=
  (m.str.zipIdx.map fun (st, d) => (x.getD (d + 1) 0).toNat * st).sum

/-- A blocked or interchange format in memory. -/
def memBlocked (f : Nat) : Bool := decide (5 ≤ f)
/-- Nibble elements. -/
def nib (f : Nat) : Bool := f == 5 || f == 10
/-- Bytes of a byte-sized element. -/
def ebytes (f : Nat) : Nat := fmtBits f / 8

/-- The address of an element's byte or bytes (R201). -/
def TM.addr (m : TM) (x : Pos) : Nat :=
  let x0 := (x.getD 0 0).toNat
  m.base + (if nib m.fmt then x0 / 2 else x0 * ebytes m.fmt) + m.strSum x
/-- The address of an element's header or scale; the strides' sum is divided and rounded down, a choice of the model where a stride is no multiple of
the divisor (log entry 76). -/
def TM.haddr (m : TM) (x : Pos) : Nat :=
  let x0 := (x.getD 0 0).toNat
  m.hbase + (if m.fmt = 5 then 2 * (x0 / 16) + m.strSum x / 4 else if m.fmt = 10 then x0 / 32 + m.strSum x / 16 else x0 / 32 + m.strSum x / 32)
def hdrLenOf (f : Nat) : Nat := if f = 5 then 2 else if f ≤ 4 then 0 else 1

/-- The bytes of an element's code, and of its block's header. -/
def TM.elemAddrs (m : TM) (x : Pos) : List Nat := (List.range (if nib m.fmt then 1 else ebytes m.fmt)).map (m.addr x + ·)
def TM.hdrAddrs (m : TM) (x : Pos) : List Nat := (List.range (hdrLenOf m.fmt)).map (m.haddr x + ·)

/-! ### Codes -/

/-- The exact value of a code under its header (R65). -/
def decCode (f : Nat) (h : List Nat) (c : Nat) : Ext :=
  if f = 5 then decF4x c (h.getD 0 0) (h.getD 1 0)
  else if f = 6 ∨ f = 7 then decB32 (fmtElem f) c (h.getD 0 0)
  else if 8 ≤ f then (let s := decE8m0 (h.getD 0 0); if s.isNan then .nan else Ext.mul ((fmtElem f).dec c) s)
  else (fmtElem f).dec c

/-- Elements to be encoded together: codes carried over with their header, or values with the rounding they take. -/
inductive CUnit where
  | raw (codes hdr : List Nat)
  | vals (r : Rnd) (vs : List Ext)
deriving DecidableEq, Repr

/-- Rounding of MX requantisation (R67). -/
def rneSat : Rnd := ⟨.rne, false, 16⟩

/-- Encode a unit: its codes, its header, and the draws left; SR takes one draw per element (R72, R74, R216, R67). Values of any source become an
interchange format by the OCP rule, under RNE and SAT and without draws, a choice of the model (log entry 75). -/
def encUnit (f : Nat) (ds : List Nat) : CUnit → List Nat × List Nat × List Nat
  | .raw cs h => (cs, h, ds)
  | .vals r vs =>
    let rv := ds.map (· % 2 ^ r.n)
    let rest := if r.mode = .sr then ds.drop vs.length else ds
    if f ≤ 4 then ((vs.zipIdx.map fun (v, i) => (fmtElem f).round r.mode r.nsat r.n (rv.getD i 0) v), [], rest)
    else if f ≤ 7 then
      let b := quantBlock f r rv vs
      (b.codes, if f = 5 then [b.s, b.x] else [b.s], rest)
    else
      let b := mxEncode (fmtElem f) (if f = 8 then 8 else if f = 9 then 15 else 2) (f == 10) vs
      (b.codes, [b.s], ds)

/-- Draws a unit takes under SR. -/
def unitDraws : CUnit → Nat
  | .raw _ _ => 0
  | .vals r vs => if r.mode = .sr then vs.length else 0

def encUnits (f : Nat) : List Nat → List CUnit → List (List Nat × List Nat) × List Nat
  | ds, [] => ([], ds)
  | ds, u :: r =>
    let (cs, h, ds) := encUnit f ds u
    let (rest, ds) := encUnits f ds r
    ((cs, h) :: rest, ds)

/-- Scale code of an E8M0 scale, where ue5m3 has it (R67). -/
def mxScale (e : Nat) : Option Nat :=
  if e = 255 then some 0xFF
  else
    let k : Int := (e : Int) - 127
    if -17 ≤ k ∧ k < -14 then some (2 ^ (k + 17).toNat)
    else if -14 ≤ k ∧ k ≤ 16 then some ((k + 15).toNat * 8) else none

/-- The native blocked format that an interchange format turns into. -/
def mxNative (f : Nat) : Nat := if f = 8 then 6 else if f = 9 then 7 else if f = 10 then 5 else 99

/-- The exponent of a scale that is a power of two. -/
def scaleExp (s : Nat) : Option Nat :=
  match fpUe5m3.dec s with
  | .num q => if pow2 (ilog2 q) = q then some (ilog2 q + 127).toNat else none
  | _ => none

/-- The map's rounding (R216). -/
def TM.rnd (m : TM) : Rnd := ⟨rmAll.getD m.rm .rne, m.nsat, 16⟩

/-! ### Tiles (R203) -/

def TM.rows (m : TM) : Nat := if m.order then m.ts0 else m.ts1
def TM.len (m : TM) : Nat := if m.order then m.ts1 else m.ts0
/-- Bytes of n elements of a format in a tile row. -/
def rowBytesOf (f n : Nat) : Nat := n * fmtBits f / 8
/-- Header bytes of a row of n elements. -/
def rowHdr (f n : Nat) : Nat := n / fmtBlock f * hdrLenOf f

/-- Element k of tile row j: (i0, i1). -/
def TM.ij (m : TM) (j k : Nat) : Nat × Nat := if m.order then (j, k) else (k, j)
def addPos (o : Pos) (i0 i1 : Nat) : Pos := o.zipIdx.map fun (x, d) => x + (if d = 0 then (i0 : Int) else if d = 1 then (i1 : Int) else 0)

/-- Places of a tile: a scratchpad of a cluster, or a B-store. -/
inductive Place where
  | sp (cluster core : Nat)
  | bs (core : Nat)
deriving DecidableEq, Repr
def Place.at' : Place → Nat → CopyTarget
  | .sp c k, a => .sp c (2 ^ 18 * k + a)
  | .bs k, a => .bs k a

def TM.rowAddr (m : TM) (j : Nat) : Nat := m.off + j * m.pitch
def TM.rowHaddr (m : TM) (j : Nat) : Nat := m.hoff + j * m.pitch / (if m.sp = 5 then 4 else 32)

/-- Bytes of codes in index order. -/
def codeBytes (f : Nat) (cs : List Nat) : List Nat :=
  if nib f then nibbleBytes cs else cs.flatMap fun c => (List.range (ebytes f)).map fun i => c / 256 ^ i % 256

/-- Bytes read, as numbers. -/
abbrev Rd := CopyTarget → Byte
def Rd.n (rd : Rd) (t : CopyTarget) : Nat := (rd t).toNat

/-- The code and header of a tensor element. -/
def TM.code (m : TM) (rd : Rd) (x : Pos) : Nat :=
  if nib m.fmt then (rd (.mem (m.addr x))).toNat / 16 ^ ((x.getD 0 0).toNat % 2) % 16
  else (m.elemAddrs x).zipIdx.foldl (fun acc (a, i) => acc + (rd (.mem a)).toNat * 256 ^ i) 0
def TM.hdr (m : TM) (rd : Rd) (x : Pos) : List Nat := (m.hdrAddrs x).map fun a => (rd (.mem a)).toNat

/-- The source value of a tensor element, and of a position outside: PADV (R202, R218). -/
def TM.source (m : TM) (rd : Rd) : Option Pos → Ext
  | some x => decCode m.fmt (m.hdr rd x) (m.code rd x)
  | none => val32 m.pad
/-- A delivered value before its rounding: scaled, but for PADV (R216). -/
def TM.scaled (m : TM) (rd : Rd) (p : Option Pos) : Ext :=
  match p with
  | some _ => if m.tsm = 1 then Ext.mul (m.source rd p) (val32 m.scale) else m.source rd p
  | none => val32 m.pad

/-- The units of a delivered row, from the positions of its elements (R216, R66, R67). A block that straddles the tensor's edge keeps its
header where PADV is zero, its outside elements zero. -/
def TM.loadUnits (m : TM) (rd : Rd) (keepBlocks : Bool) (row : List (Option Pos)) : List CUnit :=
  let plain := m.tsm == 0
  if m.sp ≤ 4 then row.map fun p =>
    match p with
    | some x => if m.sp = m.fmt ∧ plain then .raw [m.code rd x] [] else .vals m.rnd [m.scaled rd p]
    | none => .vals m.rnd [val32 m.pad]
  else (chunks (fmtBlock m.sp) row.length row).map fun blk =>
    let vals (r : Rnd) : CUnit := .vals r (blk.map (m.scaled rd))
    let codes (f : Nat → Nat) : List Nat := blk.map fun p => match p with | some x => f (m.code rd x) | none => 0
    match blk.findSome? id with
    | none => vals m.rnd
    | some x =>
      if !(plain && keepBlocks) || (blk.any Option.isNone && !(val32 m.pad).isZero) then vals m.rnd
      else if m.fmt = m.sp then .raw (codes id) (m.hdr rd x)
      else if mxNative m.fmt = m.sp then
        match mxScale ((m.hdr rd x).getD 0 0) with
        | some sc => if m.sp = 5 then .raw (codes fun c => if c = 8 then 0 else c) [sc, 0] else .raw (codes id) [sc]
        | none => vals rneSat
      else vals m.rnd

/-- A tile delivered to a place from the positions of its elements: its bytes, the delivered values by row, and the draws left. -/
def TM.deliver (m : TM) (rd : Rd) (pl : Place) (keepBlocks : Bool) (rows : List (List (Option Pos))) (ds : List Nat) :
    List (CopyTarget × Byte) × List (List Ext) × List Nat :=
  rows.zipIdx.foldl (fun (outs, vals, ds) (row, j) =>
    let (enc, ds) := encUnits m.sp ds (m.loadUnits rd keepBlocks row)
    let put (a : Nat) (bs : List Nat) : List (CopyTarget × Byte) := bs.zipIdx.map fun (b, i) => (pl.at' (a + i), BitVec.ofNat 8 b)
    (outs ++ put (m.rowAddr j) (codeBytes m.sp (enc.flatMap (·.1))) ++ put (m.rowHaddr j) (enc.flatMap (·.2)),
     vals ++ [enc.flatMap fun (cs, h) => cs.map (decCode m.sp h)], ds)) ([], [], ds)

/-- Positions of a tile's rows. -/
def TM.tileRows (m : TM) (o : Pos) : List (List (Option Pos)) :=
  (List.range m.rows).map fun j => (List.range m.len).map fun k =>
    let (i0, i1) := m.ij j k
    let x := addPos o i0 i1
    if m.inside x then some x else none

/-- Positions of an implicit-convolution tile (R221): filter, strides, dilations and paddings from fields 26 to 29. -/
def winRows (w : List Word) (m : TM) (p0 q0 n : Int) : List (List (Option Pos)) :=
  let hi (f : Nat) : Int := ((fld w f / 16 : Nat) : Int)
  let lo (f : Nat) : Int := ((fld w f % 16 : Nat) : Int)
  let (fh, fw) := (hi 26 + 1, lo 26 + 1)
  let (sh, sw) := (hi 27 + 1, lo 27 + 1)
  let (dh, dw) := (hi 28 + 1, lo 28 + 1)
  let (pt, pl) := (hi 29, lo 29)
  let d (i : Nat) : Int := ((m.dim.getD i 0 : Nat) : Int)
  let ow := (d 1 + 2 * pl - dw * (fw - 1) - 1) / sw + 1
  let oh := (d 2 + 2 * pt - dh * (fh - 1) - 1) / sh + 1
  (List.range m.ts1).map fun (j : Nat) => (List.range m.ts0).map fun (i : Nat) =>
    let p := p0 + (j : Int)
    let q := q0 + (i : Int)
    if p < 0 ∨ oh ≤ 0 ∨ ow ≤ 0 ∨ p ≥ oh * ow ∨ q < 0 ∨ d 0 = 0 then none
    else
      let oy := p / ow
      let ox := p % ow
      let c := q % d 0
      let fx := q / d 0 % fw
      let fy := q / (d 0 * fw)
      let x : Pos := [c, ox * sw - pl + fx * dw, oy * sh - pt + fy * dh, n, 0]
      if fy < fh ∧ m.inside x then some x else none

/-! ### Checked tiles (R217 to R219) -/

/-- The sidecar of the tile at an origin. -/
def TM.sideLen (m : TM) : Nat := 64 * ((64 + 4 * (m.ts0 + m.ts1) + 63) / 64)
def TM.side (m : TM) (o : Pos) : Nat :=
  (((m.ckbase : Int) + o.getD 1 0 / (m.ts1 : Int) * (m.ckstr : Int) + o.getD 0 0 / (m.ts0 : Int) * (m.sideLen : Int)) % (2 ^ 64 : Int)).toNat
def TM.checked (m : TM) : Bool := m.ckm != 0 || m.e2e
/-- A load reads the header (R219). -/
def TM.readsHeader (m : TM) : Bool := m.ckm == 2 || m.ckm == 3 || m.e2e
def TM.nvec (m : TM) : Nat := m.ts0 + m.ts1

/-- Column sums, then row sums, in memory orientation (R218). -/
def TM.sums (m : TM) (v : Nat → Nat → Ext) : List Ext :=
  ((List.range m.ts0).map fun i0 => sumExt ((List.range m.ts1).map fun i1 => v i0 i1)) ++
    ((List.range m.ts1).map fun i1 => sumExt ((List.range m.ts0).map fun i0 => v i0 i1))
def TM.sumBytes (m : TM) (v : Nat → Nat → Ext) : List Nat := (m.sums v).flatMap fun s => (leBytes 4 (code32 s).toNat).map (·.toNat)

/-- The check of carried vectors (R218). -/
def TM.verify (m : TM) (v : Nat → Nat → Ext) (carried : List Ext) : Bool :=
  let one (c : Ext) (xs : List Ext) : Bool :=
    c.finite && xs.all Ext.finite &&
      (let sum := (xs.map Ext.rat).sum
       let mag := (xs.map fun x => x.abs.rat).sum + c.abs.rat
       let d := c.rat - sum
       decide ((if d < 0 then -d else d) ≤ pow2 (-(tolOf m.ckt : Int)) * mag))
  (List.range m.ts0).all (fun i0 => one (carried.getD i0 .nan) ((List.range m.ts1).map fun i1 => v i0 i1)) &&
    (List.range m.ts1).all fun i1 => one (carried.getD (m.ts0 + i1) .nan) ((List.range m.ts0).map fun i0 => v i0 i1)

/-- Little-endian f32 vectors from bytes. -/
def f32s (bs : List Nat) : List Ext := (chunks 4 bs.length bs).map fun b => val32 (BitVec.ofNat 32 (b.zipIdx.foldl (fun acc (x, i) => acc + x * 256 ^ i) 0))

/-- The bytes of a tile in memory in address order (R217). -/
def TM.dataAddrs (m : TM) (o : Pos) : List Nat :=
  let ps := (m.tileRows o).flatten.filterMap id
  sortBy id (dedup id (ps.flatMap fun x => m.elemAddrs x ++ m.hdrAddrs x))

def numBytes (l : List Nat) : List Byte := l.map (BitVec.ofNat 8)

/-- Failures of a command, with their codes of Table 13-5. -/
def fCKSUM : BitVec 3 := 2#3
def fE2E : BitVec 3 := 3#3
def fSTALE : BitVec 3 := 4#3
def fCHAIN : BitVec 3 := 6#3

/-- The acceptance of a checked tile by a load (R219): none, or the failure. -/
def TM.accept (m : TM) (rd : Rd) (o : Pos) : Option (BitVec 3) :=
  let b (i : Nat) : Nat := (rd (.mem (m.side o + i))).toNat
  let w (i : Nat) : Nat := b i + 256 * b (i + 1) + 65536 * b (i + 2) + 2 ^ 24 * b (i + 3)
  let verBad := m.tver != 0 && w 0 != m.tver
  let vecs := if m.ckm = 0 then [] else (List.range (4 * m.nvec)).map fun i => b (64 + i)
  let crcBad := m.e2e && (crc32c (numBytes ((m.dataAddrs o).map (fun a => (rd (.mem a)).toNat) ++ vecs))).toNat != w 4
  if b 12 % 2 ≠ 1 ∨ crcBad then some fE2E else if verBad then some fSTALE else none

/-- What a command comes to: bytes to write in order, draws taken, a failure. -/
structure Out where
  outs : List (CopyTarget × Byte)
  ds : List Nat
  fail : Option (BitVec 3)

/-- One core's load of a tile with its checksum handling (R216 to R220). A PAD position counts in the sums of delivered values as it is delivered, that
is as PADV after its conversion to SPFMT, a choice of the model (log entry 84). -/
def TM.loadCore (m : TM) (rd : Rd) (pl : Place) (c core : Nat) (o : Pos) (rows : List (List (Option Pos))) (keepBlocks : Bool) (r : Out) : Out :=
  let (bytes, vals, ds) := m.deliver rd pl keepBlocks rows r.ds
  let src (i0 i1 : Nat) : Ext := let x := addPos o i0 i1; m.source rd (if m.inside x then some x else none)
  let del (i0 i1 : Nat) : Ext := let (j, k) := if m.order then (i0, i1) else (i1, i0); (vals.getD j []).getD k (.zero false)
  let side := (List.range (4 * m.nvec)).map fun i => (rd (.mem (m.side o + 64 + i))).toNat
  let vec : List Nat := if m.ckm = 1 ∨ m.ckm = 3 then m.sumBytes del else if m.ckm = 2 then side else []
  let put := vec.zipIdx.map fun (b, i) => (CopyTarget.sp c (2 ^ 18 * core + m.ck + i), BitVec.ofNat 8 b)
  let f := if m.readsHeader then m.accept rd o else none
  let f := if f.isNone ∧ m.ckm = 3 ∧ !m.verify src (f32s side) then some fCKSUM else f
  ⟨r.outs ++ bytes ++ put, ds, if r.fail.isSome then r.fail else f⟩

/-! ### Stores (R220, R223, R228) -/

/-- The code and header of a tile element at a place. -/
def TM.spCode (m : TM) (rd : Rd) (pl : Place) (j k : Nat) : Nat :=
  if nib m.sp then (rd (pl.at' (m.rowAddr j + k / 2))).toNat / 16 ^ (k % 2) % 16
  else (List.range (ebytes m.sp)).foldl (fun acc i => acc + (rd (pl.at' (m.rowAddr j + k * ebytes m.sp + i))).toNat * 256 ^ i) 0
def TM.spHdrAddrs (m : TM) (j k : Nat) : List Nat :=
  (List.range (hdrLenOf m.sp)).map fun i => m.rowHaddr j + k / fmtBlock m.sp * hdrLenOf m.sp + i
def TM.spHdr (m : TM) (rd : Rd) (pl : Place) (j k : Nat) : List Nat := (m.spHdrAddrs j k).map fun a => (rd (pl.at' a)).toNat
def TM.spVal (m : TM) (rd : Rd) (pl : Place) (j k : Nat) : Ext := decCode m.sp (m.spHdr rd pl j k) (m.spCode rd pl j k)
/-- The bytes of a tile element at a place. -/
def TM.spAddrs (m : TM) (j k : Nat) : List Nat :=
  (if nib m.sp then [m.rowAddr j + k / 2] else (List.range (ebytes m.sp)).map fun i => m.rowAddr j + k * ebytes m.sp + i) ++ m.spHdrAddrs j k

/-- The bytes that encoded elements become in memory, each with the bits of it they hold; positions outside the tensor are left out (R202). -/
def TM.memBytes (m : TM) (ps : List (Option Pos)) (cs : List Nat) : List (CopyTarget × Byte × Byte) :=
  (ps.zip cs).flatMap fun (p, c) =>
    match p with
    | none => []
    | some x =>
      if nib m.fmt then
        if (x.getD 0 0).toNat % 2 = 0 then [(.mem (m.addr x), BitVec.ofNat 8 (c % 16), 0x0F#8)]
        else [(.mem (m.addr x), BitVec.ofNat 8 (16 * (c % 16)), 0xF0#8)]
      else (m.elemAddrs x).zipIdx.map fun (a, i) => (.mem a, BitVec.ofNat 8 (c / 256 ^ i), 0xFF#8)
/-- The header of the block that encoded elements form. -/
def TM.memHdr (m : TM) (ps : List (Option Pos)) (h : List Nat) : List (CopyTarget × Byte) :=
  match ps.findSome? id with | some x => ((m.hdrAddrs x).zip h).map fun (a, b) => (.mem a, BitVec.ofNat 8 b) | none => []

/-- Halves of one byte become one write; a half that no element of the tensor has keeps what it holds (R202). -/
def joinNibs (old : CopyTarget → Byte) : List (CopyTarget × Byte × Byte) → List (CopyTarget × Byte)
  | [] => []
  | [(t, b, k)] => [(t, b ||| (if k = 0xFF#8 then 0#8 else old t &&& ~~~k))]
  | (t, b, k) :: (t', b', k') :: r =>
    if k = 0x0F#8 ∧ k' = 0xF0#8 ∧ t = t' then (t, b ||| b') :: joinNibs old r
    else (t, b ||| (if k = 0xFF#8 then 0#8 else old t &&& ~~~k)) :: joinNibs old ((t', b', k') :: r)

/-- What a byte holds before a command's next writes: what the command itself has put there, or the memory. -/
def oldByte (rd : Rd) (outs : List (CopyTarget × Byte)) (t : CopyTarget) : Byte :=
  match outs.reverse.find? fun (u, _) => u == t with | some (_, b) => b | none => rd t

/-- Units of a memory row: positions with the value, code and header their source gives (R216, R66, R67). -/
def TM.storeUnits (m : TM) (plain : Bool) (srcFmt : Nat) (row : List (Option Pos × Ext × Nat × List Nat)) : List (List (Option Pos) × CUnit) :=
  (chunks (fmtBlock m.fmt) row.length row).filterMap fun blk =>
    let ps := blk.map (·.1)
    if ps.all Option.isNone then none
    else
      let vs := blk.map fun (p, v, _, _) => if p.isSome then v else .zero false
      let hs := (blk.findSome? fun (p, _, _, h) => if p.isSome then some h else none).getD []
      let codes := blk.map fun (_, _, c, _) => c
      -- a block that holds a NaN or only zeros has its own scale, whatever S is (R67)
      let fixed := vs.any Ext.isNan || maxAbs vs == 0
      let u : CUnit :=
        if plain ∧ srcFmt = m.fmt then .raw codes hs
        else if plain ∧ mxNative m.fmt = srcFmt ∧ srcFmt ≠ 5 ∧ !fixed then
          match scaleExp (hs.getD 0 0) with | some e => .raw codes [e] | none => .vals m.rnd vs
        else .vals m.rnd vs
      some (ps, u)

/-- Encode memory rows: bytes, stored values by position, draws left. -/
def TM.storeRows (m : TM) (old : CopyTarget → Byte) (plain : Bool) (srcFmt : Nat) (rows : List (List (Option Pos × Ext × Nat × List Nat)))
    (ds : List Nat) : List (CopyTarget × Byte) × List (Pos × Ext) × List Nat :=
  let (parts, ds) := (rows.flatMap (m.storeUnits plain srcFmt)).foldl (fun (acc, ds) (ps, u) =>
    let (cs, h, ds) := encUnit m.fmt ds u
    ((m.memBytes ps cs, m.memHdr ps h, (ps.zip cs).filterMap fun (p, c) => p.map fun x => (x, decCode m.fmt h c)) :: acc, ds))
    (([] : List (List (CopyTarget × Byte × Byte) × List (CopyTarget × Byte) × List (Pos × Ext))), ds)
  let parts := parts.reverse
  (joinNibs old (parts.flatMap (·.1)) ++ parts.flatMap (·.2.1), parts.flatMap (·.2.2), ds)

/-- The rows of a tile as memory holds them: along i0, for each i1. -/
def TM.tileSource (m : TM) (rd : Rd) (pl : Place) (o : Pos) : List (List (Option Pos × Ext × Nat × List Nat)) :=
  (List.range m.ts1).map fun i1 => (List.range m.ts0).map fun i0 =>
    let (j, k) := if m.order then (i0, i1) else (i1, i0)
    let x := addPos o i0 i1
    let v := m.spVal rd pl j k
    (if m.inside x then some x else none, if m.tsm = 1 then Ext.div v (val32 m.scale) else v, m.spCode rd pl j k, m.spHdr rd pl j k)

/-- Scratchpad bytes a store of a tile reads. -/
def TM.tileReads (m : TM) (pl : Place) (o : Pos) : List CopyTarget :=
  (List.range m.ts1).flatMap fun i1 => (List.range m.ts0).flatMap fun i0 =>
    let (j, k) := if m.order then (i0, i1) else (i1, i0)
    if m.inside (addPos o i0 i1) then (m.spAddrs j k).map pl.at' else []

/-- The sidecar header (Table 13-6). -/
def TM.sideHeader (m : TM) (crc : Nat) : List Nat :=
  let le (n v : Nat) : List Nat := (leBytes n v).map (·.toNat)
  le 4 m.tver ++ le 4 crc ++ le 2 m.ts0 ++ le 2 m.ts1 ++ [1] ++ List.replicate 51 0

/-- One core's store of a tile: data, then vectors, then the header (R218 to R220). The vectors at SPCK stand in the orientation of the map the program
gave, which is turned for an XPAIR's transposed copy. -/
def TM.storeCore (m : TM) (rd : Rd) (c core : Nat) (turned : Bool) (o : Pos) (r : Out) : Out :=
  let pl := Place.sp c core
  let (bytes, vals, ds) := m.storeRows (oldByte rd r.outs) (m.tsm == 0 && (!m.order || m.fmt ≤ 4)) m.sp (m.tileSource rd pl o) r.ds
  let stored (i0 i1 : Nat) : Ext := let x := addPos o i0 i1; match vals.find? fun (p, _) => p == x with | some (_, v) => v | none => val32 m.pad
  let spv (i0 i1 : Nat) : Ext :=
    let (j, k) := if m.order then (i0, i1) else (i1, i0)
    if m.inside (addPos o i0 i1) then m.spVal rd pl j k else val32 m.pad
  let at' := (List.range (4 * m.nvec)).map fun i => (rd (pl.at' (m.ck + i))).toNat
  let at' := if turned then at'.drop (4 * m.ts1) ++ at'.take (4 * m.ts1) else at'
  let vec : List Nat := if m.ckm = 1 ∨ m.ckm = 3 then m.sumBytes stored else if m.ckm = 2 then at' else []
  let f := if m.ckm = 3 ∧ !m.verify spv (f32s at') then some fCKSUM else none
  let put (a : Nat) (bs : List Nat) : List (CopyTarget × Byte) := bs.zipIdx.map fun (b, i) => (.mem (a + i), BitVec.ofNat 8 b)
  let byteAt (a : Nat) : Nat := match bytes.reverse.find? fun (t, _) => t == .mem a with | some (_, b) => b.toNat | none => 0
  let crc := if m.e2e then (crc32c (numBytes ((m.dataAddrs o).map byteAt ++ vec))).toNat else 0
  let side := if m.checked then put (m.side o + 64) vec ++ put (m.side o) (m.sideHeader crc) else []
  ⟨r.outs ++ bytes ++ side, ds, if r.fail.isSome then r.fail else f⟩

/-- The map of an XPAIR's transposed copy: dimensions 0 and 1 change places, its elements lie at TWIN with row stride TSTR (R223). Its header plane and
its sidecars lie from TWIN as HBASE and CKBASE do from BASE, a choice of the model (log entry 77). -/
def TM.twinMap (m : TM) : TM :=
  let move (a : Nat) : Nat := (((m.twin : Int) + (a : Int) - (m.base : Int)) % (2 ^ 64 : Int)).toNat
  { m with
    base := m.twin, hbase := move m.hbase, ckbase := move m.ckbase, str := m.tstr :: m.str.tail, order := !m.order, rank := max m.rank 2
    dim := (if m.rank < 2 then 1 else m.dim.getD 1 0) :: m.dim.getD 0 0 :: m.dim.drop 2
    clip0 := m.clip1, clip1 := m.clip0, ts0 := m.ts1, ts1 := m.ts0 }
def swapPos (o : Pos) : Pos := o.getD 1 0 :: o.getD 0 0 :: o.drop 2

/-- The transposed copy of a tile, written as the first is, its own header with it (R219, R223). The blocks of a blocked FMT are cut from the copy's
edge even where o1 and TS1 are not whole blocks, which no check of R215 asks: a choice of the model (log entry 84). -/
def TM.twinCore (m : TM) (rd : Rd) (c core : Nat) (o : Pos) (r : Out) : Out := m.twinMap.storeCore rd c core true (swapPos o) r

/-! ### Chains (R229, Table 13-7) -/

/-- A chain's op word, and whether it is legal. -/
def chainLegal (w : Nat) : Bool :=
  let op := w / 2 ^ 12
  let x := w % 2 ^ 12
  if op = 0 ∨ op = 6 ∨ op = 9 then x == 0
  else if op = 1 ∨ op = 2 ∨ op = 4 ∨ op = 5 then decide (x < 4)
  else if op = 3 ∨ op = 7 then decide (x < 16)
  else if op = 8 then decide (x < 256) && decide (1 ≤ x % 8 ∧ x % 8 ≤ 4) && x / 8 % 2 == 0 && decide (x / 16 % 8 ≤ 4)
  else false

/-- Ops of a descriptor up to END. -/
def chainOps : List Nat → List Nat
  | [] => []
  | w :: r => if w = 0 then [] else w :: chainOps r

/-- An f32 extreme of R180 on exact f32 values. -/
def fExt (above : Ext → Ext → Bool) (a b : Ext) : Ext := if a.isNan || b.isNan then .nan else if above b a then b else a

/-- One op; an SR conversion takes a draw. -/
def chainOp (k : Nat → Ext) (w : Nat) (st : Ext × List Nat) : Ext × List Nat :=
  let (x, ds) := st
  let o := w % 2 ^ 12
  match w / 2 ^ 12 with
  | 1 => (rne32 (Ext.add x (k (o % 4))), ds)
  | 2 => (rne32 (Ext.mul x (k (o % 4))), ds)
  | 3 => (rne32 (Ext.add (Ext.mul x (k (o / 4))) (k (o % 4))), ds)
  | 4 => (fExt rankAbove x (k (o % 4)), ds)
  | 5 => (fExt rankBelow x (k (o % 4)), ds)
  | 6 => (x.abs, ds)
  | 7 => (if x.isNan then .nan else fExt rankBelow (fExt rankAbove x (k (o / 4))) (k (o % 4)), ds)
  | 8 =>
    let rm := rmAll.getD (o / 16 % 8) .rne
    let f := fmtElem (o % 8)
    (f.dec (f.round rm (o / 128 == 1) 16 (ds.headD 0 % 2 ^ 16) x), if rm = .sr then ds.drop 1 else ds)
  | 9 => (val32 (special32 .exp2 x), ds)
  | _ => (x, ds)

end Sys2Proof.Machine
end

