-- ==== Sys2Proof/Machine/CopyIssue.lean ====
section
/-!
DEFINITION. Copy commands by name: what each reads, writes and comes to (R200, R220 to R229), the issue checks of R215, and the X
instructions, which enter the time-sorted buffer or act at issue (R205, R225, R226).
-/
namespace Sys2Proof.Machine

/-- The shared fields of a command that has them. -/
def xops : Instr → Option XOps
  | .xld o | .xldw o | .xst o | .xput o | .xb o | .xgth o | .xsct o | .xchn o | .xpair o | .xfil _ o | .xcol _ o | .xfen o => some o
  | _ => none

/-- The origin operands of a tile command (Table 13-3). -/
def xpos (a b : Word) : Pos :=
  [(a.setWidth 32).toInt, (a.extractLsb' 32 32).toInt, (b.extractLsb' 0 21).toInt, (b.extractLsb' 21 21).toInt, (b.extractLsb' 42 21).toInt]

/-- The coordinates (q, p, n) of an XLDW, unsigned (R221). -/
def xwin (a b : Word) : Pos := [(a.toNat / 2 ^ 32 : Nat), (a.toNat % 2 ^ 32 : Nat), (b.toNat % 2 ^ 21 : Nat), 0, 0]

/-- The parts of an XPUT: source, length, destination, cluster. -/
def xputOf (a b : Word) : Nat × Nat × Nat × Nat := (a.toNat % 2 ^ 26, a.toNat / 2 ^ 32 % 2 ^ 27, b.toNat % 2 ^ 26, b.toNat / 2 ^ 32 % 16)

/-- The indices an XGTH or XSCT pops. -/
def xcount (a : Word) : Nat := a.toNat % 512

/-! ### Parts of a command -/

/-- A part of a command, in the order its writes are made: the bytes it reads, and what it comes to. -/
structure CopyPart where
  reads : List CopyTarget
  form : Rd → Out → Out

def TM.loadReads (m : TM) (rows : List (List (Option Pos))) : List CopyTarget :=
  (rows.flatten.filterMap id).flatMap fun x => (m.elemAddrs x ++ m.hdrAddrs x).map .mem

/-- The sidecar bytes a load reads (R217 to R219). -/
def TM.sideReads (m : TM) (o : Pos) : List CopyTarget :=
  if m.readsHeader then (List.range (64 + if m.ckm = 0 then 0 else 4 * m.nvec)).map fun i => .mem (m.side o + i) else []

/-- The scratchpad vectors a store reads (R218). -/
def TM.vecReads (m : TM) (c core : Nat) : List CopyTarget :=
  if m.ckm = 2 ∨ m.ckm = 3 then (List.range (4 * m.nvec)).map fun i => .sp c (2 ^ 18 * core + m.ck + i) else []

/-- Rows whose blocks are blocks of memory; those of a transposed tile never count as such (R216). -/
def TM.keeps (m : TM) (rows : List (List (Option Pos))) : Bool :=
  let n := fmtBlock m.sp
  !m.order && rows.all fun row => (chunks n row.length row).all fun blk =>
    match blk.zipIdx.findSome? fun (p, i) => p.map fun x => x.getD 0 0 - (i : Int) with
    | none => true
    | some b => decide (b % (n : Int) = 0) && blk.zipIdx.all fun (p, i) =>
        match p, blk.findSome? id with | some x, some y => x.getD 0 0 == b + (i : Int) && x.tail == y.tail | _, _ => true

def TM.loadPart (m : TM) (pl : Place) (c core : Nat) (o : Pos) (rows : List (List (Option Pos))) : CopyPart :=
  ⟨m.loadReads rows ++ m.sideReads o, fun rd out => m.loadCore rd pl c core o rows (m.keeps rows) out⟩

/-- A map without its checks. -/
def TM.bare (m : TM) : TM := { m with ckm := 0, e2e := false }

/-- The row of elements a core moves for an index (R227, R228). -/
def TM.indexRow (m : TM) (o0 : Int) (r q x : Nat) : List (Option Pos) :=
  (List.range (1024 / fmtBits m.sp)).map fun (i : Nat) =>
    let p : Pos := [o0 + (r : Int) * m.rstep + (q : Int) * m.cstep + (i : Int), (x : Int), 0, 0, 0]
    if m.inside p then some p else none

/-- Encode memory rows of values. -/
def TM.putRows (m : TM) (rd : Rd) (plain : Bool) (src : Nat) (rows : List (List (Option Pos × Ext × Nat × List Nat))) (r : Out) : Out :=
  let (bytes, _, ds) := m.storeRows (oldByte rd r.outs) plain src rows r.ds
  ⟨r.outs ++ bytes, ds, r.fail⟩

/-- The rows of an XSCT on a core (R228). -/
def TM.scatterRows (m : TM) (rd : Rd) (pl : Place) (o0 : Int) (r q : Nat) (xs : List Nat) : List (List (Option Pos × Ext × Nat × List Nat)) :=
  xs.zipIdx.map fun (x, j) => (m.indexRow o0 r q x).zipIdx.map fun (p, k) =>
    let v := m.spVal rd pl j k
    (p, if m.tsm = 1 then Ext.div v (val32 m.scale) else v, m.spCode rd pl j k, m.spHdr rd pl j k)

/-- The words and constants of a chain descriptor (R229). -/
def descWords (d : List Nat) : List Nat := (List.range 8).map fun i => d.getD (2 * i) 0 + 256 * d.getD (2 * i + 1) 0
def descK (d : List Nat) (j : Nat) : Ext :=
  val32 (BitVec.ofNat 32 ((List.range 4).foldl (fun acc i => acc + d.getD (16 + 4 * j + i) 0 * 256 ^ i) 0))

/-- The destination map of an XCHN, with the source's tile. -/
def Cmd.dst (x : Cmd) : TM := let m := tmOf x.map; { tmOf x.dstMap with ts0 := m.ts0, ts1 := m.ts1 }

/-- The positions an XCHN reads, by row: inside both tensors. -/
def Cmd.chainRows (x : Cmd) : List (List (Option Pos)) :=
  let m := tmOf x.map
  (List.range m.ts1).map fun i1 => (List.range m.ts0).map fun i0 =>
    let p := addPos (xpos x.a x.b) i0 i1
    if m.inside p then some p else none

/-- What a chain comes to: the draws of its SR conversions come before those of the results' own conversion, a choice of the model (log
entry 78). -/
def Cmd.chainForm (x : Cmd) (desc : List Nat) (rd : Rd) (r : Out) : Out :=
  let m := tmOf x.map
  let ops := chainOps (descWords desc)
  if !ops.all chainLegal then { r with fail := r.fail <|> some fCHAIN }
  else
    let (rows, ds) := x.chainRows.foldl (fun (acc, ds) row =>
      let (l, ds) := row.foldl (fun (l, ds) p =>
        match p with
        | some y =>
          let (v, ds) := ops.foldl (fun st w => chainOp (descK desc) w st) (m.source rd (some y), ds)
          (l ++ [((if x.dst.inside y then some y else none), v, 0, [])], ds)
        | none => (l ++ [(none, .zero false, 0, [])], ds)) (([] : List (Option Pos × Ext × Nat × List Nat)), ds)
      (acc ++ [l], ds)) (([] : List (List (Option Pos × Ext × Nat × List Nat))), r.ds)
    x.dst.putRows rd false 99 rows { r with ds := ds }

/-- The address of XCHN's descriptor. -/
def Cmd.chd (x : Cmd) : Nat := fld x.map 52

/-- The parts of a command of cluster c, with the indices popped and the descriptor read. An XLDW has no tile in memory, so none of its parts reads or
checks a sidecar header, whatever E2E is, a choice of the model (log entry 84). -/
def Cmd.parts (x : Cmd) (c : Nat) (popped desc : List Nat) : List CopyPart :=
  let m := tmOf x.map
  let o := xpos x.a x.b
  let o0 : Int := (x.b.setWidth 32).toInt
  match x.instr with
  | .xld _ => m.cores.map fun (k, r, q) => let ok := m.originOf o r q; m.loadPart (.sp c k) c k ok (m.tileRows ok)
  | .xb _ => m.cores.map fun (k, r, q) => let ok := m.originOf o r q; m.loadPart (.bs k) c k ok (m.tileRows ok)
  | .xldw _ => m.cores.map fun (k, r, q) =>
      let w := m.originOf (xwin x.a x.b) r q
      m.bare.loadPart (.sp c k) c k [0, 0, 0, 0, 0] (winRows x.map m (w.getD 1 0) (w.getD 0 0) (w.getD 2 0))
  | .xst _ => m.cores.map fun (k, r, q) =>
      let ok := m.originOf o r q
      ⟨m.tileReads (.sp c k) ok ++ m.vecReads c k, fun rd out => m.storeCore rd c k false ok out⟩
  | .xpair _ => m.cores.map fun (k, r, q) =>
      let ok := m.originOf o r q
      ⟨m.tileReads (.sp c k) ok ++ m.vecReads c k, fun rd out => m.twinCore rd c k ok (m.storeCore rd c k false ok out)⟩
  | .xput _ =>
      let (src, len, dst, d) := xputOf x.a x.b
      [⟨(List.range len).map fun i => .sp c (src + i),
        fun rd out => { out with outs := out.outs ++ (List.range len).map fun i => (.sp d (dst + i), rd (.sp c (src + i))) }⟩]
  | .xfil sp _ => m.cores.map fun (k, r, q) =>
      let ok := m.originOf o r q
      if sp then ⟨[], fun rd out => m.bare.loadCore rd (.sp c k) c k ok ((m.tileRows ok).map fun row => row.map fun _ => none) false out⟩
      else ⟨[], fun rd out => m.putRows rd false 99 ((List.range m.ts1).map fun i1 => (List.range m.ts0).map fun i0 =>
        let y := addPos ok i0 i1
        (if m.inside y then some y else none, val32 m.pad, 0, [])) out⟩
  | .xgth _ => m.cores.map fun (_, r, q) => ⟨m.loadReads (popped.map (m.indexRow o0 r q)), fun _ out => out⟩
  | .xsct _ => m.cores.map fun (k, r, q) =>
      let pl := Place.sp c k
      ⟨(popped.map (m.indexRow o0 r q)).zipIdx.flatMap fun (row, j) => row.zipIdx.flatMap fun (p, i) =>
          if p.isSome then (m.spAddrs j i).map pl.at' else [],
        fun rd out => m.putRows rd (m.tsm == 0) m.sp (m.scatterRows rd pl o0 r q popped) out⟩
  | .xchn _ => [⟨m.loadReads x.chainRows ++ (List.range 32).map (fun i => .sp c (x.chd + i)), x.chainForm desc⟩]
  | _ => []

/-- The vectors an XGTH brings each core (R227), and the draws left. -/
def Cmd.gatherOf (x : Cmd) (popped : List Nat) (rd : Rd) (ds : List Nat) : List (Nat × List (BitVec 1024)) × List Nat :=
  let m := tmOf x.map
  let o0 : Int := (x.b.setWidth 32).toInt
  m.cores.foldl (fun (acc, ds) (k, r, q) =>
    let (vs, ds) := popped.foldl (fun (vs, ds) i =>
      let (enc, ds) := encUnits m.sp ds (m.loadUnits rd true (m.indexRow o0 r q i))
      (vs ++ [BitVec.ofNat 1024 (leNat (numBytes (codeBytes m.sp (enc.flatMap (·.1)))))], ds)) (([] : List (BitVec 1024)), ds)
    (acc ++ [(k, vs)], ds)) (([] : List (Nat × List (BitVec 1024))), ds)

/-- Everything the parts come to, in order. -/
def Cmd.form (x : Cmd) (c : Nat) (popped desc : List Nat) (rd : Rd) (ds : List Nat) : Out :=
  (x.parts c popped desc).foldl (fun out p => p.form rd out) ⟨[], ds, none⟩

/-- The bytes a command reads, part by part, and those it writes; a byte written more than once stands where it is last written. -/
def Cmd.reads (x : Cmd) (c : Nat) (popped desc : List Nat) : List (List CopyTarget) :=
  (x.parts c popped desc).map fun p => dedup CopyTarget.key p.reads
def Cmd.targets (x : Cmd) (c : Nat) (popped desc : List Nat) : List CopyTarget :=
  (x.form c popped (desc.map fun _ => 0) (fun _ => 0#8) []).outs.map (·.1)

/-- The draws a command may take: none unless some rounding is stochastic. -/
def Cmd.drawMax (x : Cmd) (popped desc : List Nat) : Nat :=
  let m := tmOf x.map
  let chain : Bool := match x.instr with | .xchn _ => x.dst.rm == 4 || (descWords desc).any (fun w => w / 4096 == 8 && w / 16 % 8 == 4) | _ => false
  -- CRECT plays no part in an XCHN (R229)
  let tiles := match x.instr with | .xchn _ => 1 | _ => m.cores.length
  if m.rm = 4 ∨ chain then 9 * (tiles * (2 * m.ts0 * m.ts1 + 128 * popped.length)) else 0

/-- The pennant a command credits: its cluster and address (R222, R230). -/
def Cmd.pen (x : Cmd) (c : Nat) : Option (Nat × Nat) :=
  match xops x.instr with
  | some o => if o.pen then some ((match x.instr with | .xput _ => (xputOf x.a x.b).2.2.2 | _ => c), fld x.map 50) else none
  | none => none

def gran : CopyTarget → Gran
  | .mem va => .va (va / 128)
  | .sp c a => .sp c (a / 128)
  | .bs k o => .bs k (o / 128)

/-- The footprint of a command (R207): granules read, and granules written, credited pennants among them. -/
def Cmd.footReads (x : Cmd) (c : Nat) (popped desc : List Nat) : List Gran := dedup Gran.key ((x.reads c popped desc).flatten.map gran)
def Cmd.footWrites (x : Cmd) (c : Nat) (popped desc : List Nat) : List Gran :=
  dedup Gran.key ((x.targets c popped desc).map gran ++ (match x.pen c with | some (d, a) => [.sp d (a / 128)] | none => []))

def Cmd.footOf (x : Cmd) (c : Nat) (popped desc : List Nat) : List Gran × List Gran :=
  match x.foot with
  | some f => f
  | none => (x.footReads c popped desc, x.footWrites c popped desc)
/-- The footprint of a command kept where its issue settles it. -/
def Cmd.settled (x : Cmd) (c : Nat) : Cmd :=
  match x.instr with
  | .xgth _ | .xsct _ | .xchn _ => x
  | _ => { x with foot := some (x.footReads c [] [], x.footWrites c [] []) }

/-- Two footprints overlap (R207). -/
def overlaps (r1 w1 r2 w2 : List Gran) : Bool := w1.any (fun g => r2.contains g || w2.contains g) || w2.any fun g => r1.contains g

/-- The page a written byte lies in: cluster, core, page, B-store pages from 64 on. -/
def pageOf (c : Nat) : CopyTarget → Option (Nat × Nat × Nat)
  | .sp d a => some (d, a / 2 ^ 18, a % 2 ^ 18 / 4096)
  | .bs k o => some (c, k, 64 + o / 4096)
  | .mem _ => none

/-! ### Issue (R204, R205, R215) -/

/-- The command a bundle would enter: its map, operands, and issue time s[st] + toff as a DT plus 2^48, compared by R28. -/
def Cluster.mkCmd (k : Cluster) (i : Instr) (o : XOps) : Cmd :=
  let it : BitVec 48 := (k.sreg o.st).setWidth 48 + o.toff.setWidth 48
  let d : Int := (it - dtBits k.dt).toInt
  { id := k.nextCmd, instr := i, time := ((k.dt : Int) + d + 2 ^ 48).toNat, map := k.tmImage o.tm
    dstMap := k.tmImage (BitVec.ofNat 4 (k.tmField o.tm 51).toNat), a := k.sreg o.sa, b := k.sreg o.sb, bundle := k.origin, foot := none }

/-- The row length and rows of a tile command's tile. -/
def Cmd.shape (x : Cmd) : Nat × Nat :=
  let m := tmOf x.map
  match x.instr with
  | .xldw _ => (m.ts0, m.ts1)
  | .xsct _ => (1024 / fmtBits m.sp, xcount x.a)
  | _ => (m.len, m.rows)

/-- A map without a format, rank, rounding, scale or step code that R215 admits. -/
def TM.codesBad (m : TM) (stepMax : Nat) : Bool :=
  decide (m.rank = 0 ∨ 5 < m.rank ∨ 10 < m.fmt ∨ 7 < m.sp ∨ 4 < m.rm ∨ 1 < m.tsm ∨ stepMax < m.rdim ∨ stepMax < m.cdim)

/-- A tile whose rows, header plane or vectors do not fit their pitch or the store they lie in (R215). -/
def Cmd.placeBad (x : Cmd) (bound : Nat) : Bool :=
  let m := tmOf x.map
  let (len, rows) := x.shape
  let rb := rowBytesOf m.sp len
  decide (m.pitch < rb) || decide (bound < m.rowAddr (rows - 1) + rb) ||
    (blockedFmt m.sp && (decide (len % fmtBlock m.sp ≠ 0) || decide (bound < m.rowHaddr (rows - 1) + rowHdr m.sp len))) ||
    (m.ckm != 0 && decide (2 ^ 18 < m.ck + 4 * m.nvec))

/-- A blocked memory format with an origin or extent that is not whole blocks. -/
def TM.blocksBad (m : TM) (o0s : List Int) : Bool :=
  memBlocked m.fmt && (decide (m.ts0 % fmtBlock m.fmt ≠ 0) || o0s.any fun o => decide (o % (fmtBlock m.fmt : Int) ≠ 0))

/-- A checked tile off the grid of R217. -/
def TM.gridBad (m : TM) (os : List Pos) : Bool :=
  m.checked && (decide (2 < m.rank) || os.any fun o =>
    decide (o.getD 0 0 % (m.ts0 : Int) ≠ 0) || decide (o.getD 1 0 % (m.ts1 : Int) ≠ 0))

/-- A virtual address at or above 2^57. -/
def vaBad (ts : List CopyTarget) : Bool := ts.any fun t => match t with | .mem va => decide (2 ^ 57 ≤ va) | _ => false

/-- A command that breaks a check of R215. The map of an XPUT, XCOL or XFEN serves PNB alone, and the model checks no other field of it (log entry
79). -/
def Cmd.bad (x : Cmd) (c : Nat) (unclaimed : Int) : Bool :=
  let m := tmOf x.map
  let o := xpos x.a x.b
  let os := m.cores.map fun (_, r, q) => m.originOf o r q
  let o0s := os.map (·.getD 0 0)
  let penBad := (x.pen c).isSome && decide (m.pnb % 8 ≠ 0)
  let idx0s : List Int := m.cores.map fun (_, r, q) => (x.b.setWidth 32).toInt + (r : Int) * m.rstep + (q : Int) * m.cstep
  let idxs : List Pos := idx0s.map fun o => [o, 0, 0, 0, 0]
  let wins := m.cores.map fun (_, r, q) => m.originOf (xwin x.a x.b) r q
  let tile := decide (m.ts0 = 0 ∨ m.ts1 = 0)
  let vas (_ : Unit) : Bool := vaBad ((x.reads c [] []).flatten ++ x.targets c [] [])
  penBad || (match x.instr with
  | .xld _ | .xst _ | .xpair _ | .xfil _ _ =>
    m.codesBad 4 || tile || x.placeBad (2 ^ 18) || m.blocksBad o0s || m.gridBad os || vas ()
  | .xb _ => m.codesBad 4 || tile || x.placeBad (2 ^ 19) || m.blocksBad o0s || m.gridBad os || m.ckm == 1 || m.ckm == 2 || vas ()
  | .xldw _ => m.codesBad 2 || tile || m.order || m.ckm != 0 || m.gridBad wins || x.placeBad (2 ^ 18) || m.blocksBad (wins.map (·.getD 0 0)) || vas ()
  | .xchn _ => m.codesBad 4 || tile || m.blocksBad [o.getD 0 0] || m.gridBad [o] || x.dst.codesBad 4 || x.dst.blocksBad [o.getD 0 0] ||
      decide (x.chd % 32 ≠ 0) || vas ()
  | .xput _ =>
    let (src, len, dst, _) := xputOf x.a x.b
    decide (len = 0 ∨ 2 ^ 26 < len ∨ len % 128 ≠ 0 ∨ src % 128 ≠ 0 ∨ dst % 128 ≠ 0 ∨ 2 ^ 26 < src + len ∨ 2 ^ 26 < dst + len)
  | .xgth _ => m.codesBad 4 || tile || decide (5 ≤ m.sp ∨ 2 < m.rank) || m.order || m.ckm != 0 || m.gridBad idxs || m.blocksBad idx0s ||
      decide (xcount x.a = 0 ∨ 256 < xcount x.a ∨ unclaimed < (xcount x.a : Int))
  | .xsct _ => m.codesBad 4 || tile || m.gridBad idxs || x.placeBad (2 ^ 18) || m.blocksBad idx0s ||
      decide (xcount x.a = 0 ∨ 256 < xcount x.a ∨ unclaimed < (xcount x.a : Int))
  | _ => false)

/-- The X slot's check at step 4 of R100: a command against its map and operands (R215). -/
def State.xMapCheck (s : State) (i : Instr) : Option TrapInfo :=
  match xops i with
  | some o => failIf ((s.me.mkCmd i o).bad s.cur.cl s.me.unclaimed) { s.trapOf cCOPYCMD with slot := BitVec.ofNat 3 Slot.x.num }
  | none => none

/-- A push that overflows the address queue, at step 5 (R226). -/
def State.xPushCheck (s : State) (i : Instr) : Option TrapInfo :=
  match i with
  | .xpsh one _ _ => failIf (decide (256 < s.me.addrQ.length + (if one then 1 else 2))) { s.trapOf cSCHED none 3#16 with slot := BitVec.ofNat 3 Slot.x.num }
  | _ => none

/-- The checks of an X word, the handler's among them (R344). -/
def State.xCheck (s : State) (i : Instr) : Option TrapInfo :=
  firstOf [failIf s.me.handler.isSome (s.trapOf cILLINS), s.xMapCheck i, s.xPushCheck i]

/-- A command enters the buffer (R205); an XGTH or XSCT claims its entries (R226). -/
def Cluster.enqueue (k : Cluster) (c : Nat) (i : Instr) (o : XOps) : Cluster :=
  let x := (k.mkCmd i o).settled c
  { k with
    buf := k.buf ++ [x], nextCmd := k.nextCmd + 1
    unclaimed := k.unclaimed - (match i with | .xgth _ | .xsct _ => (xcount x.a : Int) | _ => 0) }

/-- A command at its issue; a full buffer holds the bundle, which issues again when an entry has left (R205). -/
def State.xIssue (i : Instr) (o : XOps) (s : State) : Res :=
  s.guard (s.xCheck i) fun s =>
    if s.me.buf.length ≥ 64 then s.beginHold .fullBuffer 0 else s.onMe fun k => k.enqueue s.cur.cl i o

def execXld (o : XOps) (s : State) : Res := s.xIssue (.xld o) o
def execXldw (o : XOps) (s : State) : Res := s.xIssue (.xldw o) o
def execXst (o : XOps) (s : State) : Res := s.xIssue (.xst o) o
def execXput (o : XOps) (s : State) : Res := s.xIssue (.xput o) o
def execXb (o : XOps) (s : State) : Res := s.xIssue (.xb o) o
def execXgth (o : XOps) (s : State) : Res := s.xIssue (.xgth o) o
def execXsct (o : XOps) (s : State) : Res := s.xIssue (.xsct o) o
def execXchn (o : XOps) (s : State) : Res := s.xIssue (.xchn o) o
def execXpair (o : XOps) (s : State) : Res := s.xIssue (.xpair o) o
def execXfil (sp : Bool) (o : XOps) (s : State) : Res := s.xIssue (.xfil sp o) o
def execXcol (k : BitVec 4) (o : XOps) (s : State) : Res := s.xIssue (.xcol k o) o
def execXfen (o : XOps) (s : State) : Res := s.xIssue (.xfen o) o

/-- XPSH pushes one index or two (R226). -/
def execXpsh (one : Bool) (sa sb : BitVec 5) (s : State) : Res :=
  s.guard (s.xCheck (.xpsh one sa sb)) fun s => s.onMe fun k =>
    let q : List (BitVec 32) := if one then [(k.sreg sa).setWidth 32] else [(k.sreg sa).setWidth 32, (k.sreg sb).setWidth 32]
    { k with addrQ := k.addrQ ++ q, unclaimed := k.unclaimed + q.length }

/-- XCAN removes waiting commands of a sequence number, or all of them (R225). -/
def execXcan (all : Bool) (sq : BitVec 12) (s : State) : Res :=
  s.guard (s.xCheck (.xcan all sq)) fun s => s.onMe fun k =>
    { k with buf := k.buf.filter fun x => !(all || (match xops x.instr with | some o => o.sq == sq | none => false)) }

end Sys2Proof.Machine
end

