-- ==== Sys2Proof/Machine/CopyEngine.lean ====
section
/-!
DEFINITION. The copy engine at work (R206 to R214, R219 to R231): the start of due commands, their reads and writes byte by byte, their
completion with tags, poison, release, credits and counts, and the posted operations of a run (R140, R146, R173).
-/
namespace Sys2Proof.Machine

/-! ### Starting (R206 to R211) -/

/-- The order of issue times, by their 48-bit difference, then of the program (R28, R206). -/
def timeBefore (t i u j : Nat) : Bool := (dtBits t - dtBits u).slt 0#48 || (dtBits t == dtBits u && decide (i < j))
def Cmd.before (x y : Cmd) : Bool := timeBefore x.time x.id y.time y.id

/-- A command's issue time, plus 2^48, by its 48-bit difference from the current DT; inside END's engine wait it is read as END's DT (R28, R50). -/
def Cluster.timeOf (k : Cluster) (x : Cmd) : Nat :=
  if k.ending then (if k.issued then k.dt else k.dt - 1) + 2 ^ 48 else ((k.dt : Int) + (dtBits x.time - dtBits k.dt).toInt + 2 ^ 48).toNat

/-- A command whose issue time is due: by the current DT, or every one inside END's engine wait (R28, R50). -/
def Cluster.due (k : Cluster) (x : Cmd) : Bool := (dtBits x.time - dtBits k.dt).sle 0#48 || k.ending

/-- The indices each waiting command would pop if earlier ones popped first (R226), with the commands. -/
def Cluster.claims (k : Cluster) : List (Cmd × List Nat) :=
  ((sortBy (fun (x : Cmd) => (dtBits x.time - dtBits k.dt + 0x800000000000#48).toNat * 2 ^ 64 + x.id) k.buf).foldl (fun (acc, (q : List (BitVec 32))) x =>
    match x.instr with
    | .xgth _ | .xsct _ => (acc ++ [(x, (q.take (xcount x.a)).map BitVec.toNat)], q.drop (xcount x.a))
    | _ => (acc ++ [(x, [])], q)) (([] : List (Cmd × List Nat)), k.addrQ)).1

/-- The descriptor of an XCHN as the scratchpad holds it. -/
def Cluster.descAt (k : Cluster) (x : Cmd) : List Nat :=
  match x.instr with | .xchn _ => (k.spBytes (x.chd % 2 ^ 26) 32).map (·.toNat) | _ => []

def isFence : Instr → Bool | .xfen _ => true | _ => false

/-- An earlier command, waiting or started, keeps another from starting: its footprint overlaps, or it is an XFEN (R206, R225). -/
def Cluster.blocked (k : Cluster) (c : Nat) (x : Cmd) (popped : List Nat) : Bool :=
  let d := k.descAt x
  let (r, w) := x.footOf c popped d
  k.active.any (fun a => a.cmd.before x && (isFence a.cmd.instr || overlaps r w a.reads a.writes)) ||
    k.claims.any fun (y, p) => y.before x && (isFence y.instr || (let f := y.footOf c p (k.descAt y); overlaps r w f.1 f.2))

/-- The command that starts next: the first due one that nothing earlier keeps (R206). -/
def Cluster.starter (k : Cluster) (c : Nat) : Option Cmd :=
  (k.claims.find? fun (x, _) =>
    k.due x && !k.blocked c x (match x.instr with | .xgth _ | .xsct _ => (k.addrQ.take (xcount x.a)).map BitVec.toNat | _ => [])).map (·.1)

/-- Bytes streamed: the larger of those read and those written (R209). -/
def Cmd.streamOf (x : Cmd) (c : Nat) (popped desc : List Nat) : Nat :=
  let m := tmOf x.map
  let rb := ((x.reads c popped desc).map (·.length)).sum
  let wb := match x.instr with | .xgth _ => 128 * popped.length * m.cores.length | _ => (x.targets c popped desc).length
  let n := ((if rb < wb then wb else rb) + 1023) / 1024
  match x.instr with
  | .xchn _ => let e := (m.ts0 * m.ts1 + 15) / 16; if n < e then e else n
  | _ => n

/-- The base of a memory target for a cluster (Table 13-4). A scratchpad window, which the table names only where both sides lie on one die, has the
base of HBM of its die, a choice of the model (log entry 84). -/
def baseOf (c : Nat) : Target → Nat
  | .hbm a => if a / 2 ^ 37 = c / 4 then 420 else 540
  | .host _ => 1700
  | .peer _ _ => 1300
  | .window d _ | .penAlias d _ => if d / 4 = c / 4 then 420 else 540

/-- The base of a command: its slowest memory side, or its scratchpad sides (Table 13-4). -/
def State.copyBase (s : State) (c : Nat) (x : Cmd) (vas : List Nat) : Nat :=
  let k := s.cl c
  match x.instr with
  | .xfen _ => 0
  | .xcol _ _ => 200
  | .xput _ => if (xputOf x.a x.b).2.2.2 / 4 = c / 4 then 180 else 300
  | .xfil true _ => 180
  | i =>
    let ts := vas.map fun va => (s.translate (some c) k.ctx k.desc va .read).1
    let near (t : Except Nat Target) : Option Nat := match t with | .ok (.window d _) => some (d / 4) | _ => none
    let one := match ts with | t :: r => (near t).isSome && r.all fun u => near u == near t | [] => false
    if vas.isEmpty then 1700
    else if one && (match i with | .xchn _ => true | _ => false) then 180
    else (ts.map fun t => match t with | .ok t => baseOf c t | .error _ => 1700).foldl max 0

/-- The extra terms of Table 13-4. An XCHN converts where a side of it, or an op, has another format than f32; an XFIL where what it writes has. -/
def Cmd.extra (x : Cmd) (desc : List Nat) : Nat :=
  let m := tmOf x.map
  let tile := match x.instr with | .xput _ | .xcol _ _ | .xfen _ => false | _ => true
  if !tile then 0
  else
    let conv : Bool := m.tsm == 1 || match x.instr with
      | .xchn _ => m.fmt != 0 || x.dst.fmt != 0 || (descWords desc).any fun w => w / 4096 == 8
      | .xfil sp _ => (if sp then m.sp else m.fmt) != 0
      | _ => m.fmt != m.sp
    let turn : Bool := match x.instr with | .xpair _ => true | _ => m.order
    (if conv then 8 else 0) + (if turn then 64 else 0) +
    (if m.ckm = 1 ∨ m.ckm = 3 ∨ m.e2e then 16 else 0) + (match x.instr with | .xldw _ => 16 | _ => 0)

/-- The VAs of memory that a footprint's granules name. -/
def granVas (gs : List Gran) : List Nat := gs.filterMap fun g => match g with | .va a => some (128 * a) | _ => none

/-- The VAs a cluster's traffic is for: its started copies, its far accesses, posted operations and code fetches (R211). -/
def Cluster.traffic (k : Cluster) : List Nat :=
  (k.active.flatMap fun a => granVas (a.reads ++ a.writes)) ++
  (k.holds.flatMap fun h => match h.kind with | .far _ ps => ps.map (·.va) | .bwait a _ _ => [a] | .lnch _ a => [a] | _ => []) ++
  (k.posted.map fun p => match p.kind with | .bset va _ _ _ _ => va | .atom va _ _ _ _ _ => va | .vupd _ _ va _ _ _ => va) ++
  k.fetches.map fun (l, _) => 64 * l

/-- The stacks, links and ports that a cluster's access of a target uses: stacks from 0, ring links from 8, links to Halyard from 12, ports from 16
(R13, R24). -/
def State.pathOf (s : State) (c : Nat) (t : Target) : List Nat :=
  ((s.linksTo (c / 4) t).map (8 + ·)) ++ match t with
    | .hbm a => [homeStack a]
    | .host _ => [16]
    | .peer _ _ => [17]
    | .window _ _ | .penAlias _ _ => []
def State.pathVas (s : State) (c : Nat) (vas : List Nat) : List Nat :=
  (vas.flatMap fun va => match (s.translate (some c) (s.cl c).ctx (s.cl c).desc va .read).1 with | .ok t => s.pathOf c t | .error _ => []).eraseDups

/-- Links that a command crosses besides those of its VAs: an XPUT's to the other cluster's die, an XCOL's to Halyard (R13, R211). -/
def State.cmdLinks (s : State) (c : Nat) (x : Cmd) : List Nat :=
  match x.instr with
  | .xput _ => (s.linksTo (c / 4) (.window (xputOf x.a x.b).2.2.2 0)).map (8 + ·)
  | .xcol _ _ => [12 + c / 4]
  | _ => []

/-- Nothing may delay a command of the cluster beyond its bound (R211): its pages are in the TLB, and no other cluster has traffic to a stack,
link or port of its own. -/
def State.undisturbed (s : State) (c : Nat) (x : Cmd) (vas : List Nat) : Bool :=
  let k := s.cl c
  vas.all (fun va => k.tlb.any fun (x, vp, _, b) => x == k.ctx && va / 2 ^ b == vp) &&
    (let mine := s.pathVas c vas ++ s.cmdLinks c x
     s.clusters.zipIdx.all fun (q, i) => i == c ||
       (s.pathVas i q.traffic ++ q.active.flatMap fun a => s.cmdLinks i a.cmd).all fun p => !mine.contains p)

/-- The header bytes a checked load reads, before its data and after it (R219). -/
def Cmd.headers (x : Cmd) : List CopyTarget :=
  let m := tmOf x.map
  match x.instr with
  | .xld _ | .xb _ =>
    if m.readsHeader then m.cores.flatMap fun (_, r, q) => (List.range 64).map fun i => .mem (m.side (m.originOf (xpos x.a x.b) r q) + i) else []
  | _ => []

/-- The CT each byte of a command is read at, from lo on, all by mid or, of a checked tile, by its second header read (R219, R220): a checked tile's data
and vectors are read at one time, its header once before and once after. -/
def State.readTimes (s : State) (hdr ts : List CopyTarget) (lo hi : Nat) : List (CopyTarget × Nat) × Nat × State :=
  let (mid, s) := s.freeIn lo hi
  if hdr.isEmpty then
    (ts.zipIdx.map (fun (t, i) => (t, lo + Config.freeNat (s.fresh + i) % (mid + 1 - lo))), mid, { s with fresh := s.fresh + ts.length })
  else
    let (h, s) := s.freeIn lo mid
    let (h', s) := s.freeIn mid hi
    (hdr.map (fun t => (t, h)) ++ (ts.filter fun t => !hdr.contains t).map (fun t => (t, mid)) ++ hdr.map fun t => (t, h'), mid, s)

/-- A command starts: it leaves the buffer, pops its indices, acquires, and its accesses are given free cycles between its start and its
completion, which comes by C where nothing disturbs it (R206, R210, R211, R220). -/
def State.startCmd (s : State) (c : Nat) (x : Cmd) : State :=
  let k := s.cl c
  let n := match x.instr with | .xgth _ | .xsct _ => xcount x.a | _ => 0
  let popped := k.addrQ.take n
  let idx := popped.map BitVec.toNat
  let desc := k.descAt x
  let (reads, writes) := x.footOf c idx desc
  let targets := x.targets c idx desc
  let vas := granVas (reads ++ writes)
  let stream := x.streamOf c idx desc
  let hazard := ((k.doneCmds.filter fun d => timeBefore d.time d.id x.time x.id &&
    overlaps reads writes d.reads d.writes).map (·.bound)).foldl max 0
  let sb := max (k.timeOf x) (max k.lastStart hazard)
  let pend := match x.instr with | .xfen _ | .xcol _ _ => (k.active.map (·.bound)).foldl max 0 | _ => 0
  let bound := max sb pend + s.copyBase c x vas + stream + x.extra desc
  let quick := s.undisturbed c x vas
  let acq := match xops x.instr with | some o => o.acq | none => false
  let sc := match xops x.instr with | some o => o.scope | none => .cluster
  let s := if acq then s.acquire c sc else s
  let room := bound - (k.dt + 2 ^ 48)
  let lo := stream + 3
  let (len, s) := if quick ∧ lo ≤ room then s.freeIn lo room else (let (f, s) := s.free; (lo + f, s))
  let (rd, mid, s) := s.readTimes x.headers (dedup CopyTarget.key (x.reads c idx desc).flatten) (s.ct + 1) (s.ct + len - 2)
  let a : Active := {
    cmd := x, startCt := s.ct, reads := reads, writes := writes, bound := bound, clk := vcGet k.vc c
    rd := rd, got := [], mid := mid, due := s.ct + len, formed := false, outs := []
    nbytes := targets.length, whole := []
    pages := (targets.filterMap (pageOf c)).eraseDups, fail := none, replay := false, loose := !quick, second := false
    waits := (match x.instr with | .xfen _ | .xcol _ _ => k.active.map (·.cmd.id) | _ => [])
    gather := [], popped := popped, desc := desc.map (BitVec.ofNat 8) }
  s.onCl c fun k =>
    { k with buf := k.buf.filter (·.id != x.id), active := k.active ++ [a], addrQ := k.addrQ.drop n, lastStart := sb + stream
             lastStream := k.ticks + stream
             -- a BSET of this very cycle waits for it (R140)
             posted := k.posted.map fun p =>
               match p.kind with
               | .bset va bit sc cmds f => if p.since = s.ct then { p with kind := .bset va bit sc (cmds ++ [x.id]) f } else p
               | _ => p }

/-- The engine may start commands: its cluster is not frozen, a cycle of own time passes in which a hold begins only after issue, or it is held
by the full buffer or in END's engine wait (R30, R205); and it does not run a handler (R344) or stand throttled (R45, R386). -/
def Cluster.engineRuns (k : Cluster) (ct : Nat) : Bool :=
  k.handler.isNone && decide (k.throttle ≤ ct) && (k.issued || (!k.halted && !k.frozenPre && k.slip.isNone &&
    k.holds.any fun h => match h.kind with | .fullBuffer | .endWait => true | _ => false))

/-- The engine starts the next command that R206 lets start. -/
def execCopyCommandStart (c : BitVec 4) (s : State) : Res :=
  let k := s.cl c.toNat
  .next (if !k.engineRuns s.ct || decide (k.ticks < k.lastStream) then s
    else match k.starter c.toNat with | some x => s.startCmd c.toNat x | none => s)

/-! ### Reads and writes -/

def State.setAct (s : State) (c : Nat) (a : Active) : State :=
  s.onCl c fun k => { k with active := k.active.map fun b => if b.cmd.id = a.cmd.id then a else b }

/-- The page CAUSE of a trap cause (Tables 13-5, 23-2). -/
def pageCause (c : BitVec 8) : BitVec 3 :=
  if c = cRACE then 1#3 else if c = cCKSUM then 2#3 else if c = cE2E then 3#3 else if c = cSTALE then 4#3
  else if c = cMEMERR then 5#3 else if c = cCHAIN then 6#3 else 0#3

/-- The trap of a failure found in the data (R218, R219, R229). -/
def failTrap (f : BitVec 3) : TrapInfo :=
  { cause := if f = fCKSUM then cCKSUM else if f = fE2E then cE2E else if f = fSTALE then cSTALE else cCHAIN }

/-- Whether a fault stalls a command while its mapping is repaired (R214, R309). -/
def Cluster.replays (k : Cluster) (t : TrapInfo) : Bool := k.rpl && t.cause == cTRANS && t.sub != 6#8 && t.sub != 7#8

/-- A byte of memory that a command reads: as a run's plain read, but for peer bytes, which come from the cluster's far cache or the die's RDC where
they hold them and are not kept (R25, R286, R298; log entry 65). -/
def State.copyRead (s : State) (c va : Nat) : Except TrapInfo (List Byte) × State :=
  match s.xlateN c va 1 .read none with
  | (.ok (.peer d a), s) =>
    let pa := peerPa d a
    let held (l : List PeerLine) : Option Byte := (findLine (pa / 128) l).bind fun x => if x.valid.getLsbD (pa % 128) then some (x.byte (pa % 128)) else none
    let kept := if s.ncAt c (s.cl c).ctx va then none else held (s.cl c).far <|> held (s.rdcOf (c / 4))
    (.ok [kept.getD (rdByte s.outer pa)], s)
  | (.ok _, s) => s.farRead c va 1 none
  | (.error e, s) => (.error e, s)

/-- One byte a command reads: none while it must be read again after a repair. -/
def State.copyByte (s : State) (c : Nat) (t : CopyTarget) : Except TrapInfo (Option Byte) × State :=
  match t with
  | .mem va =>
    if 2 ^ 57 ≤ va then (.error (transTrap va 0 none), s)
    else match s.copyRead c va with
      | (.ok bs, s) => (.ok bs.head?, s)
      | (.error e, s) => if (s.cl c).replays e then (.ok none, s) else (.error e, s)
  | .sp d a =>
    let x := (s.cl d).core (a / 2 ^ 18)
    if x.bad.contains (a % 2 ^ 18) then (.error { cause := cMEMERR }, s) else (.ok (some ((s.cl d).spByte a)), s)
  | .bs k o =>
    let x := (s.cl c).core k
    if x.bad.contains (2 ^ 18 + o) then (.error { cause := cMEMERR }, s) else (.ok (some (x.bsByte o)), s)

/-- The reads of a command that fall due; rd comes to hold the rest. -/
def State.copyReads (s : State) (c : Nat) (a : Active) : State × Active :=
  let (s, a) := a.rd.foldl (fun (s, a) (t, at') =>
    if a.replay ∨ s.ct < at' then (s, { a with rd := (t, at') :: a.rd })
    else match s.copyByte c t with
      | (.ok (some b), s) => (s, { a with got := (t, b) :: a.got })
      | (.ok none, s) => (s, { a with rd := (t, at') :: a.rd, replay := true })
      | (.error e, s) =>
        let (bs, s) := s.freeBytes 1
        (s, { a with got := (t, bs.headD 0#8) :: a.got, fail := a.fail <|> some (pageCause e.cause, e) })) (s, { a with rd := [] })
  (s, { a with rd := a.rd.reverse })

/-- Keep the last write to each byte. -/
def lastWrites (l : List (CopyTarget × Byte)) : List (CopyTarget × Byte) := (dedup (fun x => x.1.key) l.reverse).reverse

/-- The CT of a command's C, where it binds (R210, R211). -/
def State.capOf (s : State) (c : Nat) (a : Active) : Option Nat := if a.loose then none else some (s.ct + (a.bound - ((s.cl c).dt + 2 ^ 48)))

/-- Lay out the writes of a formed command: memory and B-store bytes each at a free cycle, a checked tile's in one; scratchpad bytes through
the target's write window (R219, R289). A failed command writes each byte of its pages or leaves it, and no memory (R212). -/
def State.layOut (s : State) (c : Nat) (a : Active) (outs : List (CopyTarget × Byte)) : State × Active :=
  let outs := if a.fail.isSome then outs.filter fun (t, _) => match t with | .mem _ => false | _ => true else outs
  let m := tmOf a.cmd.map
  let whole := match a.cmd.instr with | .xst _ | .xpair _ => m.checked | _ => false
  let lo := s.ct + 1
  let span := if lo < a.due then a.due - lo else 1
  let (s, l) := outs.foldl (fun (s, l) (t, b) =>
    let (f, s) := s.free
    let (drop, s) := if a.fail.isSome then (let (g, s) := s.free; (g % 2 == 1, s)) else (false, s)
    if drop then (s, l) else (s, (t, b, if whole then a.due - 1 else lo + f % span) :: l)) (s, ([] : List (CopyTarget × Byte × Nat)))
  let l := l.reverse
  let into (d : Nat) : List WinWrite := l.filterMap fun (t, b, at') => match t with | .sp e p => if e = d then some ⟨p, b, at', some (c, a.cmd.id), s.capOf c a⟩ else none | _ => none
  let s : State := { s with clusters := s.clusters.zipIdx.map fun ((k : Cluster), d) => { k with winW := k.winW ++ into d } }
  let outs := l.filter fun (t, _, _) => match t with | .sp _ _ => false | _ => true
  let gs := outs.filterMap fun (t, _, _) => match t with | .mem va => some (va / 128) | _ => none
  (s, { a with outs := a.outs ++ outs, whole := gs.eraseDups.filter fun g => gs.count g == 128 })

/-- A byte of memory as a store that leaves half of it finds it. -/
def State.peek (s : State) (c : Nat) (t : CopyTarget) : Byte :=
  match t with
  | .mem va =>
    match (s.translate (some c) (s.cl c).ctx (s.cl c).desc va .write).1 with
    | .ok (.hbm p) => s.raw (s.readAddr p)
    | .ok u => (s.paRead (c / 4) u 1).1.headD 0#8
    | .error _ => 0#8
  | _ => 0#8

/-- A command's writes into another cluster's scratchpad need the links to it (R368). -/
def State.putLost (s : State) (c : Nat) (a : Active) : Bool := a.pages.any fun (d, _, _) => d != c && s.routeLost (c / 4) (.window d 0)

/-- A command whose reads are done forms what it writes (R216 to R229); a checked tile that is not accepted, the two reads of its header among the
tests, is read once more (R219). -/
def State.formCmd (s : State) (c : Nat) (a : Active) : State × Active :=
  let idx := a.popped.map BitVec.toNat
  let desc := a.desc.map BitVec.toNat
  -- bytes it leaves half of are found with every update merged (R296)
  let s := (granVas a.writes).foldl (fun s va =>
    match (s.translate (some c) (s.cl c).ctx (s.cl c).desc va .write).1 with
    | .ok (.hbm p) => s.recall (p / 128)
    | _ => s) s
  let g := (s.cl c).egen
  let n := a.cmd.drawMax idx desc
  let ds := (genDraws g n).map BitVec.toNat
  let bytes : Std.TreeMap Nat Byte := a.got.foldr (fun x m => m.insert x.1.key x.2) ∅
  let rd : Rd := fun t => bytes.getD t.key (s.peek c t)
  let hdr := a.cmd.headers
  let out := a.cmd.form c idx desc rd ds
  let out := if hdr.isEmpty || a.got.all (fun (t, b) => bytes.getD t.key 0#8 == b) then out else { out with fail := some fE2E }
  let (gather, left) := match a.cmd.instr with
    | .xgth _ => a.cmd.gatherOf idx rd ds
    | _ => ([], out.ds)
  if !a.second && a.fail.isNone && (out.fail == some fE2E || out.fail == some fSTALE) then
    let (f, s) := s.free
    let (rd, mid, s) := s.readTimes hdr (dedup CopyTarget.key (a.got.reverse.map (·.1))) (s.ct + 1) (s.ct + 1 + f)
    (s, { a with second := true, got := [], rd := rd, mid := mid, due := mid + 2 + f + (a.due - a.mid) })
  else
    let s := s.onCl c fun k => { k with egen := { k.egen with draws := k.egen.draws + (n - left.length) } }
    let lost : Option (BitVec 3 × TrapInfo) := if s.putLost c a then some (5#3, { cause := cMEMERR }) else none
    let a := { a with formed := true, fail := a.fail <|> (out.fail.map fun f => (f, failTrap f)) <|> lost }
    let a := { a with gather := if a.fail.isSome then [] else gather }
    s.layOut c a (lastWrites out.outs)

/-- One byte a command writes to memory or a B-store (R290, R302, R303). -/
def State.copyPut (s : State) (c : Nat) (a : Active) (t : CopyTarget) (b : Byte) : Except TrapInfo Unit × State :=
  match t with
  | .mem va =>
    if 2 ^ 57 ≤ va then (.error (transTrap va 0 none), s)
    else match s.xlate c va .write none with
      | (.error e, s) => (.error e, s)
      | (.ok (.hbm p), s) =>
        let s := s.recall (p / 128)
        match s.raceAt c (s.cl c).rde p with
        | some tag => (.error (raceTrap va true tag), s)
        | none => (.ok (), (s.hbmWrite p [b]).tagWrite c (s.cl c).rde a.clk [p / 128])
      | (.ok (.window d p), s) => (.ok (), s.windowWrite d p [b] (s.ct + 1) (c, a.cmd.id) (s.capOf c a))
      | (.ok t, s) => (.ok (), s.paWrite (c / 4) t [b])
  | .sp d p => (.ok (), s.onCl d fun k => k.spWrite p b)
  | .bs k o => (.ok (), s.onCl c fun q => q.onCore k fun x => x.bsWrite o b)

/-- The writes of a command that fall due; outs comes to hold the rest. -/
def State.copyWrites (s : State) (c : Nat) (a : Active) : State × Active :=
  let (s, a) := a.outs.foldl (fun (s, a) (t, b, at') =>
    if a.replay ∨ s.ct < at' then (s, { a with outs := (t, b, at') :: a.outs })
    else match s.copyPut c a t b with
      | (.ok (), s) => (s, a)
      | (.error e, s) =>
        if (s.cl c).replays e then (s, { a with outs := (t, b, at') :: a.outs, replay := true })
        else (s, { a with fail := a.fail <|> some (pageCause e.cause, e) })) (s, { a with outs := [] })
  let a := { a with outs := a.outs.reverse }
  -- granules all of whose bytes the command has now written lose their poison (R361)
  let done := a.whole.filter fun g => !(a.outs.any fun (t, _, _) => match t with | .mem va => va / 128 == g | _ => false)
  let s := if a.fail.isSome then s else done.foldl (fun s g =>
    match s.xlate c (128 * g) .write none with
    | (.ok (.hbm p), s) => s.unpoison p
    | (_, s) => s) s
  (s, { a with whole := a.whole.filter fun g => !done.contains g })

/-! ### Completion (R212 to R214, R224, R225, R230) -/

/-- Set the tag of a page (Table 13-5), and the fault a poisoned page stands for. -/
def State.pageTag (s : State) (p : Nat × Nat × Nat) (tag : BitVec 16) (org : Option PendFault) : State :=
  let (c, k, n) := p
  s.onCl c fun q => q.onCore k fun x =>
    let x := { x.heal (· == CoreWord.tag n) with poisonOrg := sput none n org x.poisonOrg }
    if n < 64 then { x with spTag := sput 0#16 n tag x.spTag } else { x with bstTag := sput 0#16 (n - 64) tag x.bstTag }

def Cmd.sq (x : Cmd) : BitVec 12 := match xops x.instr with | some o => o.sq | none => 0#12

/-- Add an increment to a chunk count where it is accepted (R318). -/
def State.countChunk (s : State) (c : Nat) (k : BitVec 4) (chunk inc : Nat) : Option State :=
  let b := s.bz.getD k.toNat BzCtx.reset
  if b.bind.getLsbD 63 && b.bind.setWidth 12 == (s.cl c).ctx && (s.cl c).run.isSome && decide (chunk < 4096) then
    let n := sget 0 chunk b.counts + inc
    some { s with bz := s.bz.set k.toNat { b with counts := sput 0 chunk (if 2 ^ 32 ≤ n then 2 ^ 32 - 1 else n) b.counts } }
  else none

/-- The fault of a refused count (R318, Table 23-2). -/
def chunkTrap (chunk : Nat) (slot : BitVec 3) : TrapInfo := { cause := cCHUNK, info := BitVec.ofNat 16 chunk, slot := slot, pend := true }

/-- Credit the pennant of a completed command in the next cycle (R230); a credit to another cluster carries the run's clocks (R302). One that
depends on a failed link is dropped (R368). -/
def State.creditPen (s : State) (c : Nat) (x : Cmd) (arr units : Nat) (vc : List (BitVec 20)) : State :=
  match x.pen c with
  | none => s
  | some (d, a) =>
    if s.routeLost (c / 4) (.penAlias d a) then s
    else s.onCl d fun k => { k with penUpds := k.penUpds ++ [⟨a, arr, units, s.ct + 1, if d = c then [] else vc⟩] }

/-- The release a command carries (R299), which steps the clock at every scope (R302); it synchronises through the pennant's credit, which carries
the clocks from before the step (Table 19-2). -/
def State.copyRelease (s : State) (c : Nat) (x : Cmd) : State :=
  match xops x.instr with
  | some o =>
    if o.rel then
      (s.release c o.scope).vcStep c
    else s
  | none => s

/-- A command leaves the engine; those that wait for it wait no more. -/
def State.retire (s : State) (c : Nat) (a : Active) : State :=
  s.onCl c fun k => { k with
    active := (k.active.filter (·.cmd.id != a.cmd.id)).map fun b => { b with waits := b.waits.filter (· != a.cmd.id) }
    doneCmds := k.doneCmds ++ [⟨a.cmd.id, a.cmd.time, a.reads, a.writes, a.bound⟩] }

/-- A failed command: its pages are poisoned, and where it has none, or they are another cluster's, or a race was found, a pending fault is
left (R212, R214, R303). -/
def State.failCmd (s : State) (c : Nat) (a : Active) (code : BitVec 3) (t : TrapInfo) : State :=
  let t := { t with slot := BitVec.ofNat 3 Slot.x.num, pend := true }
  let f : PendFault := ⟨a.cmd.bundle, t⟩
  let s := a.pages.foldl (fun s p => s.pageTag p (1#1 ++ code ++ a.cmd.sq) (some f)) s
  let s := if a.pages.isEmpty || a.pages.any (fun p => p.1 != c) || t.cause == cRACE then s.onCl c fun k => k.addPend f else s
  s.retire c a

/-- A command that has written every byte completes (R163, R212, R224, R225, R230, R299). -/
def State.endCmd (s : State) (c : Nat) (a : Active) : State :=
  match a.fail with
  | some (code, t) => s.failCmd c a code t
  | none =>
    let vc := (s.cl c).vc
    match a.cmd.instr with
    | .xcol k _ =>
      let s := (s.release c .device).vcStep c
      let chunk := a.cmd.a.toNat % 2 ^ 20
      match s.countChunk c k chunk (a.cmd.b.toNat % 2 ^ 16) with
      | some s => ((s.copyRelease c a.cmd).creditPen c a.cmd 1 0 vc).retire c a
      | none => s.failCmd c a 0#3 (chunkTrap chunk (BitVec.ofNat 3 Slot.x.num))
    | .xfen _ => ((s.copyRelease c a.cmd).creditPen c a.cmd 1 0 vc).retire c a
    | i =>
      let n := match i with | .xgth _ => 128 * a.popped.length * (tmOf a.cmd.map).cores.length | _ => a.nbytes
      let s := s.copyRelease c a.cmd
      let s := a.pages.foldl (fun s p => s.pageTag p (a.cmd.sq.setWidth 16) none) s
      (s.creditPen c a.cmd 0 ((n + 15) / 16) vc).retire c a

/-- What may delay a started command has come up after its start: it completes a free time later than its bound (R211). -/
def State.loosen (s : State) (c : Nat) (a : Active) : State × Active :=
  if a.loose || s.undisturbed c a.cmd (granVas (a.reads ++ a.writes)) then (s, a)
  else let (n, s) := s.free; (s, { a with loose := true, due := a.due + n })

/-- Every byte of a formed command has performed, and its stream has ended (R209). -/
def State.copyDone (s : State) (c : Nat) (a : Active) : Bool :=
  a.formed && (decide ((s.cl c).lastStream ≤ (s.cl c).ticks) || (s.cl c).active.any fun b => decide (a.startCt < b.startCt)) && a.rd.isEmpty && a.outs.isEmpty && a.waits.isEmpty && !a.replay && decide (a.due ≤ s.ct) && a.gather.all (fun (_, vs) => vs.isEmpty) &&
    s.clusters.all fun k => k.winW.all fun w => w.src != some (c, a.cmd.id)

/-- One cycle of a started command. -/
def State.copyStep (s : State) (c id : Nat) : State :=
  match (s.cl c).active.find? fun a => a.cmd.id == id with
  | none => s
  | some a =>
    if !a.waits.isEmpty then s
    else
      match a.cmd.instr with
      | .xcol _ _ | .xfen _ =>
        if a.formed then (if a.due ≤ s.ct then s.endCmd c a else s)
        else
          -- the wait has ended: XFEN completes at once, XCOL within 200 cycles (Table 13-4)
          let (n, s) := s.freeIn 1 200
          match a.cmd.instr with
          | .xcol _ _ => s.setAct c { a with formed := true, due := s.ct + n }
          | _ => s.endCmd c a
      | _ =>
        let (s, a) := s.loosen c a
        let (s, a) := s.copyReads c a
        let (s, a) := if a.rd.isEmpty && !a.formed && decide (a.mid ≤ s.ct) then s.formCmd c a else (s, a)
        let (s, a) := if a.formed then s.copyWrites c a else (s, a)
        if s.copyDone c a then s.endCmd c a else s.setAct c a

/-- The started commands of a cluster advance a cycle; those whose last byte has performed complete. -/
def execCopyCommandComplete (c : BitVec 4) (s : State) : Res :=
  .next (((s.cl c.toNat).active.map (·.cmd.id)).foldl (fun s id => s.copyStep c.toNat id) s)

/-- A vector of each gather enters each core's data queue that has room; where several gathers are under way, a core takes those of the one that
popped its indices first (R227). -/
def execGatherEntryArrival (c : BitVec 4) (s : State) : Res :=
  .next (s.onCl c.toNat fun k =>
    (k.active.map (·.cmd.id)).foldl (fun (k : Cluster) id =>
      match k.active.find? fun a => a.cmd.id == id with
      | none => k
      | some a =>
        let earlier := k.active.takeWhile (·.cmd.id != id)
        let turn (i : Nat) : Bool := earlier.all fun b => match b.cmd.instr with
          | .xgth _ => b.formed && b.gather.all fun (j, vs) => j != i || vs.isEmpty
          | _ => true
        let (k, g) := a.gather.foldl (fun ((k : Cluster), acc) (i, vs) =>
          match vs with
          | v :: r =>
            if turn i && decide ((k.core i).gq.length < 16) then (k.onCore i fun x => { x with gq := x.gq ++ [v] }, acc ++ [(i, r)]) else (k, acc ++ [(i, vs)])
          | [] => (k, acc ++ [(i, [])])) (k, ([] : List (Nat × List (BitVec 1024))))
        { k with active := k.active.map fun b => if b.cmd.id = id then { b with gather := g } else b }) k)

/-! ### Posted operations (R140, R146, R173) -/

def State.dropPosted (s : State) (c id : Nat) : State :=
  s.onCl c fun k => ({ k with posted := k.posted.filter (·.id != id) } : Cluster).closeGroups

/-- A pending fault of a posted operation (R140); of an element of a VUPD it is kept until the others have performed or failed (R173). -/
def State.postFault (s : State) (c : Nat) (p : Posted) (t : TrapInfo) (slot : Slot) : State :=
  let f : PendFault := ⟨p.origin, { t with slot := BitVec.ofNat 3 slot.num, pend := true }⟩
  s.onCl c fun k => if p.grp = 0 then (k.addPend f : Cluster) else { k with grpFault := k.grpFault ++ [(p.grp, p.id, f)] }

/-- What a posted operation must wait for: a BSET, every ATOM and VUPD posted before it and the copies it covers (R140); all, the accesses
before a FENCE release that came before them (R147). -/
def Cluster.postReady (k : Cluster) (p : Posted) : Bool :=
  (k.relAfter.all fun f => decide (p.id < f.2.2) || !k.before f.2.2) &&
  match p.kind with
  | .bset _ _ _ cmds _ =>
    k.posted.all (fun q => decide (p.id ≤ q.id) || match q.kind with | .bset .. => true | _ => false) &&
      cmds.all fun id => !(k.active.any fun a => a.cmd.id == id)
  | _ => true

/-- BSET's release and set (R140, R287, R302); a fault of the set is deferred. -/
def State.setBitAt (s : State) (c : Nat) (p : Posted) (va bit : Nat) (sc : Scope) (fence : Option Scope) : State :=
  match s.xlate c va .write none with
  | (.error e, s) => (s.postFault c p e .s).dropPosted c p.id
  | (.ok t, s) =>
    if (match t with | .hbm a => s.poisoned a 8 | _ => false) then (s.postFault c p (memTrap va) .s).dropPosted c p.id
    else
      let vc := s.creditVc c t
      let s := (((s.settle c p.id).fenceAt c fence t).releaseAt c sc t)
      let (_, s) := s.atomTarget (c / 4) t .or false true .none (1#64 <<< bit) 0#64 false vc
      s.dropPosted c p.id

/-- The due BSETs of a cluster perform (R140). -/
def execBsetPerform (c : BitVec 4) (s : State) : Res :=
  let c := c.toNat
  .next ((s.cl c).posted.foldl (fun s p =>
    match p.kind with
    | .bset va bit sc _ fence =>
      if p.due ≤ s.ct ∧ (s.cl c).postReady p ∧ !s.windowBusy c va 8 .write then s.setBitAt c p va bit sc fence else s
    | _ => s) s)

/-- Posted updates of a run to one scratchpad window perform in issue order (R146). -/
def State.postFirst (s : State) (c : Nat) (t : Target) (p : Posted) : Bool :=
  let dest (va : Nat) : Option Nat :=
    match (s.translate (some c) (s.cl c).ctx (s.cl c).desc va .write).1 with
    | .ok (.window d _) | .ok (.penAlias d _) => some d
    | .ok (.peer d _) => some (16 + d)
    | _ => none
  let mine := match t with | .window d _ | .penAlias d _ => some d | .peer d _ => some (16 + d) | _ => none
  mine.isNone || (s.cl c).posted.all fun q =>
    decide (p.id ≤ q.id) || (match q.kind with | .atom va _ _ _ _ _ | .vupd _ _ va _ _ _ => dest va != mine | _ => true)

/-- Where a posted update goes, or the failure it meets. -/
def State.postTarget (s : State) (c va n : Nat) (core : Option (BitVec 8)) : Except TrapInfo Target × State :=
  match s.xlate c va .write core with
  | (.error e, s) => (.error e, s)
  | (.ok t, s) => if (match t with | .hbm a => s.poisoned a n | _ => false) then (.error { memTrap va with core := core }, s) else (.ok t, s)

/-- A posted ATOM or an element of a VUPD performs at its home or enters an update-only line, after the FENCE releases before it; its fault is
deferred (R146, R147, R173, R295). -/
def State.postPerform (s : State) (c : Nat) (p : Posted) (va : Nat) (op : UpdOp) (ty : UpdTy) (v : Word) (slot : Slot) (core : Option (BitVec 8))
    (fence : Option Scope) : State :=
  match s.postTarget c va (updBytes ty) core with
  | (.error e, s) => (s.postFault c p e slot).dropPosted c p.id
  | (.ok t, s) =>
    if s.postFirst c t p then
      let s := (s.settle c p.id).fenceAt c fence t
      let s := s.updTarget c t (s.ncAt c (s.cl c).ctx va) op ty v
      (if slot = .s then s.noteRead c t else s).dropPosted c p.id
    else s

/-- The update an ATOM's operation is. -/
def atomUpd : AtomOp → UpdOp
  | .min => .min | .max => .max | .and => .and | .or => .or | .xor => .xor | .add | .swap | .cas => .add
def atomTy (sgn w64 : Bool) : UpdTy := if w64 then (if sgn then .s64 else .n64) else if sgn then .s32 else .n32

/-- The due posted ATOMs and VUPD updates of a cluster perform. -/
def execPostedAtomPerform (c : BitVec 4) (s : State) : Res :=
  let c := c.toNat
  .next (((s.cl c).posted.map (·.id)).foldl (fun s id =>
    match (s.cl c).posted.find? fun p => p.id == id with
    | none => s
    | some p =>
      if p.due ≤ s.ct ∧ (s.cl c).postReady p then
        match p.kind with
        | .atom va op sgn w64 v fence =>
          if s.windowBusy c va (if w64 then 8 else 4) .write then s else s.postPerform c p va (atomUpd op) (atomTy sgn w64) v .s none fence
        | .vupd i _ va op ty v =>
          if s.windowBusy c va (updBytes ty) .write then s else s.postPerform c p va op ty v .l (some (BitVec.ofNat 8 i)) none
        | .bset _ _ _ _ _ => s
      else s) s)

/-- An update-only line leaves its far cache and merges at its home (R296). -/
def execUpdateLineMerge (c : BitVec 4) (line : Nat) (s : State) : Res := .next (s.mergeLine c.toNat line)

/-- An update of a pennant from outside the cluster (R230). -/
def execRemotePennantUpdate (c : BitVec 4) (addr : BitVec 26) (operand : BitVec 64) (s : State) : Res :=
  .next (s.penUpdate c.toNat addr.toNat operand [])

end Sys2Proof.Machine
end

