-- ==== Sys2Proof/Machine/Cycle.lean ====
section
/-!
DEFINITION. A cycle of a cluster's own time: results landing (R96, R97, R349), planes and array columns, drains completing (R255), loads and
stores performing (R9, R23, R160), writes from outside (R289), pennant merges (R231), and what runs on in END's wait (R30).
-/
namespace Sys2Proof.Machine

/-! ### Results landing (R96, R97) -/

def isReg : PKind → Bool | .v | .p | .d | .dwords | .a => true | .load | .store | .rep => false

/-- The second read of a DFRW, a cycle after its issue (R273, R348). -/
def Core.secondReads (x : Core) (now : Nat) : Core :=
  { x with pipe := x.pipe.flatMap fun e =>
      match e.rep with
      | some ⟨.dfrw _ _, _, _, _, _⟩ => if e.issue < now then dfrwDone x e else [e]
      | _ => [e] }

/-- Register results due at a cycle land; failing ones do not (R96, R337). -/
def Core.landAll (x : Core) (now : Nat) : Core :=
  let due := sortBy PEntry.order (x.pipe.filter fun e => isReg e.kind && decide (e.land ≤ now))
  let x := { x with pipe := x.pipe.filter fun e => !(isReg e.kind && decide (e.land ≤ now)) }
  (due.foldl (fun x e => if e.fail.isSome then x else x.landReg e.kind e) x).secondReads now

/-- The failures a result carries; a mirrored check whose copies differ and whose own sum fails has both (R94, R176, R197). -/
def PEntry.fails (e : PEntry) : List TrapInfo :=
  match e.fail with
  | none => []
  | some t => t :: if e.flg = 7#3 then [vchkTrap (t.core.getD 0#8).toNat e.slot] else []

/-- Failures of results due at a cycle: one for each operation, on its lowest core (R94, R197, R336, R360). -/
def Cluster.landFails (k : Cluster) : List CpTrap :=
  (k.cores.flatMap fun x => (x.pipe.filter fun e => isReg e.kind && decide (e.land ≤ k.now)).flatMap fun e =>
    e.fails.map fun t => (⟨k.now, e.origin, t⟩ : CpTrap)).foldl (fun acc f =>
      if acc.any fun g => g.origin == f.origin && g.trap.cause == f.trap.cause && g.trap.slot == f.trap.slot then acc else acc ++ [f]) []

/-- Table writes due land (R156, R157). -/
def Cluster.landTables (k : Cluster) : Cluster :=
  let now := k.now
  let k := (k.tmw.filter fun w => decide (w.land ≤ now)).foldl (fun (k : Cluster) w => k.putTm w.key w.val) k
  let k := (k.ftw.filter fun w => decide (w.land ≤ now)).foldl (fun (k : Cluster) w =>
    k.onCores w.cores fun _ x =>
      let x := if w.fld.isNone then x.heal (· == CoreWord.ft w.ft.toNat) else x
      let old := x.ft.getD w.ft.toNat 0#64
      { x with ft := x.ft.set w.ft.toNat (ftClean (match w.fld with | none => w.val | some f => ftPut old f w.val)) }) k
  { k with tmw := k.tmw.filter (fun w => !decide (w.land ≤ now)), ftw := k.ftw.filter fun w => !decide (w.land ≤ now) }

/-- The image of a core at a bundle boundary: a DFRW whose second read is due has made it, on the registers as the results due have landed
(R348). -/
def Core.capture (x : Core) (now : Nat) : Core :=
  let due := sortBy PEntry.order (x.pipe.filter fun e => isReg e.kind && decide (e.land ≤ now))
  let y := due.foldl (fun y e => if e.fail.isSome then y else y.landReg e.kind e) x
  { x with pipe := x.pipe.flatMap fun e =>
      match e.rep with
      | some ⟨.dfrw _ _, _, _, _, _⟩ => if e.issue < now then dfrwDone y e else [e]
      | _ => [e] }
/-- The images of a cluster's cores at a bundle boundary, the registers of drains due at it among the results (R258, R348). -/
def Cluster.capture (k : Cluster) : Cluster := let k := k.drainRegs; { k with cores := k.cores.map fun x => x.capture k.now }

/-- Everything due at the cluster's cycle lands. -/
def Cluster.landing (k : Cluster) : Cluster :=
  let now := k.now
  let fails := k.landFails
  let k := (k.simg.filter fun x => decide (x.land ≤ now)).foldl Cluster.landS { k with simg := k.simg.filter fun x => !decide (x.land ≤ now) }
  let k := k.landTables
  { k.onBusy (fun x => !x.pipe.isEmpty) (fun x => x.landAll now) with cps := k.cps ++ fails }

/-- Pre-translation of the VAs from one address to another into a cluster's TLB; faults are not reported (R198, R307, R309). -/
def State.preXlate (c : Nat) : Nat → Nat → Nat → State → State
  | 0, _, _, s => s
  | n + 1, va, e, s =>
    if e ≤ va then s
    else
      let s := (s.translate (some c) (s.cl c).ctx (s.cl c).desc va .read).2
      let b := match s.tlbHit (some c) (s.cl c).ctx va with | some (_, b) => b | none => 12
      State.preXlate c n ((va / 2 ^ b + 1) * 2 ^ b) e s

/-- The results of a cluster's cycle land: before a write of AMAX the drains in flight fold what they have so far (log entry 73), and a write
of BASE pre-translates the first 8 MiB behind it (R198). -/
def State.landingNow (s : State) (c : Nat) : State :=
  let k := s.cl c
  let due := k.tmw.filter fun w => decide (w.land ≤ k.now)
  let s := (due.filter fun w => w.key % 64 == 41).foldl (fun s w => s.foldUpTo c (BitVec.ofNat 4 (w.key / 64))) s
  let s := s.onCl c fun k => k.drainRegs.landing
  (due.filter fun w => w.key % 64 == 0).foldl (fun s w => State.preXlate c 2049 (w.val.toNat % 2 ^ 57) (w.val.toNat % 2 ^ 57 + 2 ^ 23) s) s
def execResultLanding (c : BitVec 4) (s : State) : Res := .next (s.landingNow c.toNat)

/-! ### Array work -/

/-- The plane loads that sample a B-store word with an uncorrectable error leave a pending MEMERR, one for each (R360). -/
def Cluster.badPlanes (k : Cluster) : List PendFault :=
  let due (l : PlaneLoad) : Bool := decide (l.samp ≤ k.now) && l.bytes.isNone
  let span (l : PlaneLoad) : Nat := match l.fmt with | .code f => planeSpan f.toNat | _ => 0
  ((k.cores.flatMap fun x => (x.loads.filter fun l => due l && x.bad.any fun b => decide (2 ^ 18 + l.addr ≤ b ∧ b < 2 ^ 18 + l.addr + span l)).map
    fun l => l.origin).eraseDups).map fun o => ⟨o, { cause := cMEMERR, slot := BitVec.ofNat 3 Slot.m.num, pend := true }⟩
def Cluster.planesNow (k : Cluster) : Cluster :=
  k.badPlanes.foldl Cluster.addPend (k.onBusy (fun x => !x.loads.isEmpty) fun x => x.planeCycle k.now)
def execPlaneReady (c : BitVec 4) (s : State) : Res := .next (s.onCl c.toNat Cluster.planesNow)
def Cluster.columnsNow (k : Cluster) : Cluster := k.onBusy (fun x => !(x.streams.isEmpty && x.bankUpds.isEmpty)) fun x => x.arrayCycle k.now
def execArrayColumnStep (c : BitVec 4) (s : State) : Res := .next (s.onCl c.toNat Cluster.columnsNow)

/-- The tile of a completed drain as stores of its cores issued with it, performing in this cycle (R255). -/
def Cluster.tileStores (k : Cluster) (d : Drain) : Cluster :=
  { k with cores := k.cores.zipIdx.map fun (x, i) =>
      x.fly ((chunks 32 d.out.length (d.out.filter fun (a, _) => a / 2 ^ 18 == i)).zipIdx.map fun (l, g) =>
        { entryOf .store .store .m 0 (g % 8) k.now d.issue (BitVec.ofNat 256 (leNat (l.map (·.2)))) (BitVec.ofNat 32 (2 ^ l.length - 1)) d.origin with
          addrs := l.map (·.1) }) }

/-- Complete the drains of a test that are due. -/
def State.completeDrains (s : State) (c : Nat) (sel : Drain → Bool) : State :=
  let k := s.cl c
  (k.drains.filter fun d => sel d && decide (d.done ≤ k.now)).foldl (fun s d => (s.finishDrain c d).onCl c fun k => k.tileStores d) s

def execDrainComplete (c : BitVec 4) (s : State) : Res := .next (s.completeDrains c.toNat fun _ => true)

/-- The array's work of a cycle, before its bundle issues. -/
def State.arrayNow (s : State) (c : Nat) : State := ((s.onCl c Cluster.planesNow).onCl c Cluster.columnsNow).completeDrains c fun _ => true

/-! ### Loads, stores and pennants -/

/-- A load samples its bytes (R9, R349); an uncorrectable word of a scratchpad is a machine error (R360). -/
def Cluster.sample (k : Cluster) (e : PEntry) : PEntry :=
  let v := e.lanes.foldl (fun (v : BitVec 256) (j, a) => v ||| ((k.spByte a).setWidth 256 <<< (8 * j))) 0#256
  let v := match e.dk with
    | .p => BitVec.allOnes 128 ++ v.setWidth 128
    | .dwords => (dwClean (v.setWidth 128)).setWidth 256
    | _ => v
  let bad := e.lanes.find? fun (_, a) => (k.core (a / 2 ^ 18)).bad.contains (a % 2 ^ 18)
  { e with kind := e.dk, val := v, perf := 0, addrs := []
           fail := bad.map fun (_, a) => { cause := cMACHINE, core := some (BitVec.ofNat 8 (a / 2 ^ 18)), slot := BitVec.ofNat 3 e.slot.num } }

/-- Loads that perform in the cycle sample the scratchpads as the cycle found them. -/
def Cluster.loadsNow (k : Cluster) : Cluster :=
  k.onBusy (fun x => !x.pipe.isEmpty) fun x => { x with pipe := x.pipe.map fun e => if e.kind = .load ∧ e.perf ≤ k.now then k.sample e else e }

/-- Stores and PINIs of the cycle write; a PINI that issued after every store to its word stands (R231). -/
def Cluster.writesNow (k : Cluster) : Cluster :=
  let now := k.now
  let sts := k.storesNow
  let ins := sortBy PenInit.issue (k.inits.filter fun i => decide (i.perf ≤ now))
  let put (k : Cluster) (i : PenInit) : Cluster := k.spWriteAll ((leBytes 8 i.word.toNat).zipIdx.map fun (b, j) => (i.addr + j, b))
  let late (i : PenInit) : Bool := sts.all fun e => decide (e.issue < i.issue) || e.lanes.all fun (_, a) => a / 8 != i.addr / 8
  let k := ({ k with inits := k.inits.filter (fun i => !decide (i.perf ≤ now)) } : Cluster).onBusy (fun x => !x.pipe.isEmpty) fun x =>
    { x with pipe := x.pipe.filter fun e => !(e.kind = .store ∧ e.land ≤ now) }
  let k := ins.foldl put k
  let k := sts.foldl (fun (k : Cluster) e => k.spWriteAll (e.lanes.map fun (j, a) => (a, laneByte e.val j))) k
  (ins.filter late).foldl put k

/-- The updates of one cycle merge into each pennant (R231). -/
def Cluster.mergePens (k : Cluster) (us : List PenUpd) : Cluster :=
  ((us.map (·.addr)).eraseDups).foldl (fun (k : Cluster) a =>
    let mine := us.filter fun u => u.addr == a
    let w := pennantMerge (k.spWord a) (mine.map (·.arr)).sum (mine.map (·.units)).sum
    let acc := mine.foldl (fun v u => vcMerge v u.vc) (sget [] a k.penAcc)
    let k : Cluster := if w.getLsbD 63 = (k.spWord a).getLsbD 63 then { k with penAcc := sput [] a acc k.penAcc }
      else { k with penAcc := sput [] a [] k.penAcc, penVc := sput [] a (vcMerge (sget [] a k.penVc) acc) k.penVc }
    k.spWriteAll ((leBytes 8 w.toNat).zipIdx.map fun (b, j) => (a + j, b))) k

/-- Arrivals of the program and updates from outside that land in this cycle. -/
def Cluster.pensNow (k : Cluster) (ct : Nat) (own : Bool) : Cluster :=
  let (mine, rest) := if own then k.parrs.partition fun u => decide (u.at' ≤ k.now) else ([], k.parrs)
  let (ext, wait) := k.penUpds.partition fun u => decide (u.at' ≤ ct)
  { k with parrs := rest, penUpds := wait }.mergePens (mine ++ ext)

/-- Repetitions of the cycle issue (R193, R349): each reads its sources as they stand. -/
def Cluster.repsNow (k : Cluster) : Cluster :=
  if k.cores.all fun x => x.pipe.all (·.rep.isNone) then k
  else { k with cores := k.cores.zipIdx.map fun (x, i) =>
      x.pipe.foldl (fun y e =>
        match e.rep with
        | some r =>
          match r.instr with
          | .vmov c sz rep vd va =>
            let j := k.now - e.issue
            if j = 0 then { y with pipe := y.pipe ++ [e] }
            else
              let y := { y with pipe := y.pipe ++ vmovRep e.slot e.issue e.origin i r c sz.bits vd va j x }
              if j < rep.toNat then { y with pipe := y.pipe ++ [{ e with perf := j + 1 }] } else y
          | _ => { y with pipe := y.pipe ++ [e] }
        | none => { y with pipe := y.pipe ++ [e] }) { x with pipe := [] } }

/-- What a cycle of the cluster's own time performs: loads sample, then stores and pennant updates (R9, R23, R231). -/
def Cluster.performNow (k : Cluster) (ct : Nat) : Cluster :=
  ((k.repsNow.loadsNow).writesNow).pensNow ct true

def execScratchpadPerform (c : BitVec 4) (s : State) : Res :=
  .next (s.onCl c.toNat fun k => if k.issued then k.performNow s.ct else k.pensNow s.ct false)

/-! ### Writes from outside the timetable (R23, R289) -/

/-- The writes due at the cluster perform, each in its cycle, before the program's accesses to the bytes given; one whose bank the program
accesses in the cycle takes a later cycle, within its command's bound, unless the program stores to that very byte, which it then precedes (R23). -/
def Cluster.outsideWrites (k : Cluster) (ct : Nat) (ld st : List Nat) : Cluster :=
  if k.winW.isEmpty then k
  else
    let banks := ((ld ++ st).map bankOf).eraseDups
    let now (w : WinWrite) : Bool := decide (w.at' ≤ ct) && (st.contains w.addr || !banks.contains (bankOf w.addr) ||
      match w.by' with | some t => decide (t ≤ ct + 1) | none => false)
    let wait := (k.winW.filter fun w => !now w).map fun (w : WinWrite) => if w.at' ≤ ct then { w with at' := ct + 1 } else w
    ({ k with winW := wait } : Cluster).spWriteAll ((k.winW.filter now).map fun w => (w.addr, w.byte))

def execWindowWrite (c : BitVec 4) (s : State) : Res :=
  .next (s.onCl c.toNat fun k => if k.issued then k.outsideWrites s.ct k.loadedNow k.storedNow else k.outsideWrites s.ct [] [])

/-! ### Work that runs on in a hold (R30) -/

/-- The bank updates and completion points of a drain come a cycle nearer. -/
def Cluster.nearer (k : Cluster) (d : Drain) : Cluster :=
  { k with cps := k.cps.map (fun t => if t.origin == d.origin then { t with due := t.due - 1 } else t)
           cores := k.cores.map fun x => { x with bankUpds := x.bankUpds.map fun u =>
             match u.op with
             | .fix b _ _ _ _ => if b = d.bank ∧ u.ord = d.issue then { u with at' := u.at' - 1 } else u
             | _ => u } }

/-- Corrections due at the frozen cycle are written back. -/
def Core.fixesNow (x : Core) (now : Nat) : Core :=
  x.bankUpds.foldl (fun y u =>
    match u.op with
    | .fix _ _ _ _ _ => if u.at' ≤ now then (y.bankUpd u).1 else { y with bankUpds := y.bankUpds ++ [u] }
    | _ => { y with bankUpds := y.bankUpds ++ [u] }) { x with bankUpds := [] }

/-- A frozen cycle in which the drains of a test run on: those due complete, with their tiles, and the rest come a cycle nearer. Stores of a
test perform with the tiles, after the writes from outside of the cycle (R23). -/
def State.runOn (s : State) (c : Nat) (sel : Drain → Bool) (sts : Cluster → PEntry → Bool) (pini : Bool) : State :=
  let now := (s.cl c).now
  let s := s.completeDrains c sel
  s.onCl c fun k =>
    let k : Cluster := { k with cores := k.cores.map fun x => x.fixesNow now }
    let mine (e : PEntry) : Bool := e.kind = .store && (e.slot = .m || sts k e)
    let es := k.cores.flatMap fun x => sortBy PEntry.order (x.pipe.filter mine)
    let st := (es.flatMap fun e => e.lanes.map (·.2)) ++
      if pini then (k.inits.filter fun i => decide (i.perf ≤ k.now)).flatMap fun i => (List.range 8).map (i.addr + ·) else []
    let k := k.outsideWrites s.ct [] st
    let k : Cluster := if pini then k.writesNow else
      es.foldl (fun (k : Cluster) e => k.spWriteAll (e.lanes.map fun (j, a) => (a, laneByte e.val j)))
        { k with cores := k.cores.map fun x => { x with pipe := x.pipe.filter fun e => !mine e } }
    let k := (k.drains.filter sel).foldl Cluster.nearer k
    { k with drains := k.drains.map fun d => if sel d then { d with done := d.done - 1 } else d }

/-- A frozen cycle of END's engine wait: drains, stores, PINIs and PARRs in flight run on (R30, R50). -/
def State.endCycle (s : State) (c : Nat) : State :=
  let s := s.runOn c (fun _ => true) (fun k e => decide (e.land ≤ k.now)) true
  s.onCl c fun k =>
    let k := k.pensNow s.ct true
    { k with inits := k.inits.map (fun i => { i with perf := i.perf - 1 }), parrs := k.parrs.map (fun u => { u with at' := u.at' - 1 })
             cores := k.cores.map fun x => { x with pipe := x.pipe.map fun e => if e.kind = .store then { e with land := e.land - 1 } else e } }

/-! ### Software traps (R153) -/

/-- The software trap at the bundle a run goes on with: TRAPPC and TRAPDT name it, TRAPOPC the TRAP. A fault that a hold of the TRAP's bundle
ended in is taken there after it. -/
def State.takeSoft (s : State) (c : Nat) (code : BitVec 16) (opc : BitVec 57) : State :=
  let k := s.cl c
  (s.onCl c fun k => { k with soft := none, cps := k.cps ++ k.holdFault.toList.map fun f => ⟨k.now, f.origin, f.trap⟩ }).takeTrap c
    { cause := cSOFT, info := code } k.pc k.dt opc false

/-- TRAP after its bundle: the cycle of the bundle performs, DT advances, and the trap is taken at the next sequential bundle, padding passed
(R85), with the results in flight captured (R348); a bundle that still holds takes it when the hold ends. -/
def State.softTrap (s : State) (code : BitVec 16) : State :=
  let c := s.cur.cl
  let k := s.me
  if !k.holds.isEmpty then s.onMe fun k => { k with soft := some (code, k.pc) }
  else
    let s := s.onMe fun k => (k.outsideWrites s.ct k.loadedNow k.storedNow).performNow s.ct
    let (pc, s) := State.skipPad c 512 k.next s
    let s := s.onMe fun k => { k with pc := pc.1, dt := if k.handler.isSome then k.dt else k.dt + 1 }
    (s.onMe Cluster.capture).takeSoft c code k.pc
def execTrap (code : BitVec 16) (s : State) : Res := .next (s.softTrap code)

end Sys2Proof.Machine
end

