-- ==== Sys2Proof/Machine/Holds.lean ====
section
/-!
DEFINITION. The ends of holds (R45 to R48, R138 to R145, R151, R171, R172, R309), hold timeouts and slip limits (R46, R47), fetched lines
(R18, R87) and repairs of translations (R309).
-/
namespace Sys2Proof.Machine

/-- What a holding access comes to. -/
inductive HoldEnd where
  | done
  | fault (t : TrapInfo)
  | again
deriving DecidableEq, Repr

/-- Sign- or zero-extend n bytes to a word. -/
def extWord (sgn : Bool) (n : Nat) (v : Word) : Word :=
  if sgn then BitVec.ofInt 64 (sx (8 * n) v.toNat) else BitVec.ofNat 64 (v.toNat % 2 ^ (8 * n))

/-- A register result of a holding access: it lands at the next bundle, behind the results of earlier bundles that land there (R97). -/
def State.holdWrite (s : State) (c : Nat) (sd : BitVec 5) (v : Word) : State :=
  s.onCl c fun k => k.sWrite sd v 0

/-- The end a failed access has: it is repaired and reissued in replayable mode (R143, R309). -/
def State.failEnd (s : State) (c : Nat) (t : TrapInfo) : HoldEnd := if (s.cl c).replays t then .again else .fault t

/-- The bytes of a part a far store writes. -/
def FarPart.bytes (p : FarPart) : List (Option Byte) :=
  (List.range 128).map fun j => if p.mask.getLsbD j then some (p.data.extractLsb' (8 * j) 8) else none

/-- The origin of a hold: its bundle issued in the cycle before. -/
def Cluster.holdOrigin (k : Cluster) (h : Hold) : Origin := ⟨h.pc, k.stamp - 1⟩

/-- The loaded lanes of a VLDF on a core land at the next bundle, as a result of its own bundle (R97). -/
def Cluster.putLanes (k : Cluster) (phys : Nat) (o : Origin) (p : FarPart) (bs : List Byte) : Cluster :=
  let v := BitVec.ofNat 1024 (leNat bs)
  k.onCore p.core fun x => x.fly (((List.range 4).filter fun g => p.mask.extractLsb' (32 * g) 32 != 0#32).map fun g =>
    entryOf .v .v .l phys g k.now (k.now - 1) (v.extractLsb' (256 * g) 256) (p.mask.extractLsb' (32 * g) 32) o)

/-- The lanes a part moves. -/
def FarPart.lanes (p : FarPart) : List Nat := (List.range 128).filter p.mask.getLsbD

/-- Read every part of a VLDF: its bytes, or the failure of its lowest core (R172); masked lanes read nothing (R171). -/
def State.readParts (s : State) (c : Nat) : List FarPart → Except TrapInfo (List (FarPart × List Byte)) × State
  | [] => (.ok [], s)
  | p :: r =>
    match s.farReadAt c p.va 128 (some (BitVec.ofNat 8 p.core)) p.lanes true with
    | (.error t, s) => (.error t, s)
    | (.ok bs, s) =>
      match s.readParts c r with
      | (.error t, s) => (.error t, s)
      | (.ok l, s) => (.ok ((p, bs) :: l), s)

/-- Write every part of a VSTF: those without a fault perform, always, where R172 says that they may have (log entry 84); the failure of the
lowest core (R172). -/
def State.writeParts (s : State) (c : Nat) (ps : List FarPart) : Option TrapInfo × State :=
  ps.foldl (fun (f, s) p =>
    match s.farWrite c p.va p.bytes (some (BitVec.ofNat 8 p.core)) with
    | (.ok (), s) => (f, s)
    | (.error t, s) => (f <|> some t, s)) (none, s)

/-- A part whose translation is to be repaired before the access is reissued (R172). -/
def State.partsReplay (s : State) (c : Nat) (acc : Acc) (ps : List FarPart) : Bool :=
  ps.any fun p => match (s.xlate c p.va acc none).1 with | .error t => (s.cl c).replays t | .ok _ => false

/-- A holding access performs, after the FENCE releases before it (R142, R143, R145, R147, R171). -/
def State.farPerform (s : State) (c : Nat) (o : Origin) (k : FarKind) (ps : List FarPart) : HoldEnd × State :=
  let s := s.settle c (s.cl c).nextPost
  let p := ps.headD ⟨0, 0, 0#128, 0#1024⟩
  match k with
  | .ldf sgn n sd =>
    match s.farRead c p.va n none with
    | (.ok bs, s) => (.done, s.holdWrite c sd (extWord sgn n (leWord bs)))
    | (.error t, s) => (s.failEnd c t, s)
  | .stf n =>
    match s.farWrite c p.va ((leBytes n p.data.toNat).map some) none with
    | (.ok (), s) => (.done, s)
    | (.error t, s) => (s.failEnd c t, s)
  | .atom op sgn w64 rtn ord sc sd cmp fence =>
    match s.atomAt c p.va op sgn w64 ord sc (p.data.setWidth 64) cmp rtn fence with
    | (.ok old, s) => (.done, if rtn then s.holdWrite c sd (extWord sgn (if w64 then 8 else 4) old) else s)
    | (.error t, s) => (s.failEnd c t, s)
  | .vldf phys =>
    if s.partsReplay c .read ps then (.again, s)
    else match s.readParts c ps with
      | (.ok l, s) => (.done, s.onCl c fun k => l.foldl (fun k (p, bs) => k.putLanes phys o p bs) k)
      | (.error t, s) => (.fault t, s)
  | .vstf =>
    if s.partsReplay c .write ps then (.again, s)
    else match s.writeParts c ps with
      | (none, s) => (.done, s)
      | (some t, s) => (.fault t, s)

def State.dropHold (s : State) (c : Nat) (h : Hold) : State := s.onCl c fun k => { k with holds := k.holds.filter (· ≠ h) }
def State.setHold (s : State) (c : Nat) (h h' : Hold) : State := s.onCl c fun k => { k with holds := k.holds.map fun x => if x = h then h' else x }

/-- A hold ends in a fault, delivered when the bundle's last hold ends (R336). -/
def State.holdFails (s : State) (c : Nat) (h : Hold) (t : TrapInfo) : State :=
  (s.dropHold c h).onCl c fun k => k.faultHold { t with slot := BitVec.ofNat 3 h.slot.num } (k.holdOrigin h)

/-- Holds of a cluster that may end now: their CT has come, and what a FENCE makes them wait for has performed (R147). -/
def State.dueHolds (s : State) (c : Nat) : List Hold :=
  let k := s.cl c
  k.holds.filter fun h => decide (h.due ≤ s.ct) && !h.replay && h.after.all fun id => !(k.posted.any fun p => p.id == id)

def State.farBusy (s : State) (c : Nat) (k : FarKind) (ps : List FarPart) : Bool :=
  ps.any fun p =>
    match k with
    | .ldf _ n _ => s.windowBusy c p.va n .read
    | .stf n => s.windowBusy c p.va n .write
    | .atom _ _ w64 _ _ _ _ _ _ => s.windowBusy c p.va (if w64 then 8 else 4) .write
    | .vldf _ => s.windowBusy c p.va 128 .read
    | .vstf => s.windowBusy c p.va 128 .write

/-- The far accesses of a cluster that are due perform, and their holds end (R143). -/
def execFarAccessHoldEnd (c : BitVec 4) (s : State) : Res :=
  let c := c.toNat
  .next ((s.dueHolds c).foldl (fun s h =>
    match h.kind with
    | .far k ps =>
      if s.farBusy c k ps then s else
      match s.farPerform c ((s.cl c).holdOrigin h) k ps with
      | (.done, s) => s.dropHold c h
      | (.again, s) => s.setHold c h { h with replay := true }
      | (.fault t, s) => s.holdFails c h t
    | _ => s) s)

/-- A PWAIT's turn in a hold: it samples its pennant, and the first sample that differs, or finds an overflow, ends the hold in the next cycle, as
that sample found it (R138, R231). -/
def State.penTurn (s : State) (c : Nat) (h : Hold) : State :=
  match h.kind with
  | .pwait a ph =>
    match (s.cl c).penSample a ph with
    | .differs => s.setHold c h { h with kind := .pflip a false, due := s.ct + 1 }
    | .overflow => s.setHold c h { h with kind := .pflip a true, due := s.ct + 1 }
    | .waits => s
  | .pflip a ovf =>
    if s.ct < h.due then s
    else if ovf then s.holdFails c h (penOverflow h.slot)
    else ((s.dropHold c h).onCl c fun k => k.consume a).dropPeer (c / 4) .fabric
  | _ => s
/-- The PWAITs that hold a cluster, each in its turn (R138). -/
def execPwaitResume (c : BitVec 4) (s : State) : Res := .next ((s.cl c.toNat).holds.foldl (fun s h => s.penTurn c.toNat h) s)

/-- A read of a BWAIT: with every bit of its mask set it acquires and the hold ends; otherwise the word is read again within 1,024 cycles
(R141). -/
def execBwaitComplete (c : BitVec 4) (s : State) : Res :=
  let c := c.toNat
  .next ((s.dueHolds c).foldl (fun s h =>
    match h.kind with
    | .bwait a mask sc =>
      match s.xlate c a .read none with
      | (.error t, s) => if (s.cl c).replays t then s.setHold c h { h with replay := true } else s.holdFails c h t
      | (.ok t, s) =>
        if (match t with | .hbm p => s.poisoned p 8 | _ => false) then s.holdFails c h (memTrap a)
        else
          let (bs, s) := s.paRead (c / 4) t 8
          if leWord bs &&& mask = mask then (s.dropHold c h).acquireAt c sc t
          else
            let (n, s) := s.freeIn 1 1024
            s.setHold c h { h with due := s.ct + n }
    | _ => s) s)

/-! ### Timegroups (R48) -/

/-- The clusters of a run's timegroup. -/
def State.timegroup (s : State) (c : Nat) : List Nat :=
  match (s.cl c).run with
  | none => []
  | some r => (List.range 16).filter fun i =>
      match (s.cl i).run with
      | some q => q.task == r.task && q.gang == r.gang && q.member / r.tgSize == r.member / r.tgSize
      | none => false

/-- Every member of the timegroup has arrived, 32 cycles ago or more. -/
def State.ttReady (s : State) (c : Nat) : Bool :=
  let ms := s.timegroup c
  match (s.cl c).run with
  | none => false
  | some r => ms.length == r.tgSize && ms.all fun i => match (s.cl i).tts with | some t => decide (t + 32 ≤ s.ct) | none => false

/-- A member of a timegroup is released: its next bundle issues in this CT cycle, whatever the pace of its clock (R48). -/
def Cluster.ttRelease (k : Cluster) : Cluster :=
  { k with tts := none, clockAcc := 1700 - k.clock, holds := k.holds.filter fun h => h.kind != .ttsync }
/-- All members of a complete timegroup are released in one CT cycle (R48). -/
def execTtsyncRelease (c : BitVec 4) (s : State) : Res :=
  .next (if s.ttReady c.toNat then (s.timegroup c.toNat).foldl (fun s i => s.onCl i Cluster.ttRelease) s else s)

/-- AMAXF's hold ends when no drain of its map is left (R151, R232). -/
def execAmaxfComplete (c : BitVec 4) (s : State) : Res :=
  let c := c.toNat
  .next ((s.cl c).holds.foldl (fun s h =>
    match h.kind with
    | .amaxf sd tm => if (s.cl c).drainOn tm then s else (s.dropHold c h).onCl c fun k => k.sWrite sd (k.tmField tm 41) 1
    | _ => s) s)

/-! ### Limits (R46, R47) -/

/-- Holds that begin before issue. -/
def preIssue : HoldKind → Bool | .lateFetch _ | .emptyQueue | .fullBuffer => true | _ => false

def schedTrap (info : BitVec 16) (slot : Slot) : TrapInfo := { cause := cSCHED, info := info, slot := BitVec.ofNat 3 slot.num }

/-- The abandoned operation of a hold that times out: an access may still perform (Table 3-5a); a record that LNCH has not had answered is not
accepted (log entry 70). -/
def State.abandon (s : State) (c : Nat) (h : Hold) : State :=
  match h.kind with
  | .far (.stf n) ps =>
    let (r, s) := s.free
    if r % 2 = 1 then (s.farPerform c ((s.cl c).holdOrigin h) (.stf n) ps).2 else s
  | .far .vstf ps =>
    ps.foldl (fun s p =>
      let (r, s) := s.free
      if r % 2 = 1 then (s.farPerform c ((s.cl c).holdOrigin h) .vstf [p]).2 else s) s
  | .far (.atom op sgn w64 _ ord sc sd cmp fence) ps =>
    let (r, s) := s.free
    if r % 2 = 1 then (s.farPerform c ((s.cl c).holdOrigin h) (.atom op sgn w64 false ord sc sd cmp fence) ps).2 else s
  | .ttsync => s.onCl c fun k => { k with tts := none }
  | _ => s

/-- A hold longer than HOLDMAX ends in a schedule fault: at the held bundle, or when its bundle's other holds end (R47). -/
def execHoldTimeout (c : BitVec 4) (s : State) : Res :=
  let c := c.toNat
  .next ((s.cl c).holds.foldl (fun s h =>
    if s.ct - h.start ≤ (s.cl c).holdmax ∨ !(s.cl c).holds.contains h then s
    else if preIssue h.kind then (s.dropHold c h).issueTrap c (schedTrap 1#16 h.slot)
    else (s.abandon c h).holdFails c h (schedTrap 1#16 h.slot)) s)

/-- A slip longer than SLIPMAX ends in a schedule fault before its bundle issues (R46). -/
def execSlipLimit (c : BitVec 4) (s : State) : Res :=
  let c := c.toNat
  let k := s.cl c
  .next (match k.slip with
    | some t => if s.ct - t ≤ k.slipmax.toNat then s else (s.onCl c fun k => { k with slip := none }).issueTrap c (schedTrap 0#16 .l)
    | none => s)

/-- A throttle hold of the arbiter ends (R386). -/
def execThrottleHoldEnd (c : BitVec 4) (s : State) : Res := .next (s.onCl c.toNat fun k => { k with throttle := 0 })

/-! ### Code fetch (R18, R87, R309) -/

/-- The distance of two lines. -/
def lineDist (a b : Nat) : Nat := if a < b then b - a else a - b

/-- An active level pins a line: from its START to the line of its ENDL, or, while no ENDL of it has issued, to the furthest line reached (R135; log
entry 71). -/
def LoopLv.pins (l : LoopLv) (line : Nat) : Bool := decide (l.start.toNat / 64 ≤ line ∧ line ≤ l.last)

/-- How many lines of the levels lie in a range of lines, those of several counted once; the levels in order of their START. -/
def pinnedIn (lo hi : Nat) : List LoopLv → Nat
  | [] => 0
  | l :: r =>
    let a := max lo (l.start.toNat / 64)
    (min hi (l.last + 1) - a) + pinnedIn (max lo (l.last + 1)) hi r
/-- A line of the levels is among the 448 nearest the innermost START, the lower of two at one distance first (R135). -/
def nearPin (levels : List LoopLv) (inner line : Nat) : Bool :=
  let d := lineDist line inner
  let ls := sortBy (fun l => l.start.toNat) levels
  levels.any (fun l => l.pins line) &&
    decide (pinnedIn (if line ≤ inner then line + 1 else inner - d) (if line ≤ inner then inner + d else line) ls < 448)
/-- Lines out of the window leave it unless an active loop pins them: of the lines of all levels, from each START to the line of its ENDL, the 448
nearest the innermost START are pinned, and the window holds 512 in all (R16, R18, R135). -/
def Cluster.trimWin (k : Cluster) : Cluster :=
  let line := k.pc.toNat / 64
  let loops := k.loops.map fun l => if l.closed then l else { l with last := max l.last line }
  let levels := loops ++ match k.handler with | some b => b.loops | none => []
  let inner := match levels with | l :: _ => l.start.toNat / 64 | [] => line
  let pinned := k.win.filter fun (n, _) => nearPin levels inner n
  let ahead := k.win.filter fun (n, _) => decide (line ≤ n ∧ n < line + 512) && !pinned.any fun (m, _) => m == n
  { k with loops := loops, win := pinned ++ (sortBy (fun (x : Nat × BitVec 512) => x.1) ahead).take (512 - pinned.length) }

/-- A line arrives in the window; a fault of its fetch is kept for the bundle that holds for it, and a fetch-ahead's is not reported (R309). -/
def State.lineIn (s : State) (c line : Nat) : State :=
  match s.readLine c line with
  | (.ok w, s) => s.onCl c fun k => { k with win := (k.win.filter fun (l, _) => l != line) ++ [(line, w)] }
  | (.error t, s) => s.onCl c fun k => if !k.holds.any (fun h => h.kind == .lateFetch line) then k else { k with fetchFault := (k.fetchFault.filter fun (l, _) => l != line) ++ [(line, t)] }

/-- Fetched lines that are due arrive; a bundle that holds for one of them goes on. -/
def execCodeFetchArrival (c : BitVec 4) (s : State) : Res :=
  let c := c.toNat
  let due := (s.cl c).fetches.filter fun (_, t) => decide (t ≤ s.ct)
  let s := s.onCl c fun k => { k with fetches := k.fetches.filter fun (_, t) => !decide (t ≤ s.ct) }
  let s := due.foldl (fun s (l, _) => s.lineIn c l) s
  .next (s.onCl c fun k => { k with holds := k.holds.filter fun h =>
    match h.kind with | .lateFetch l => !(due.any fun (m, _) => m == l) | _ => true })

/-- System software has repaired the mappings a cluster's accesses wait for: they are reissued (R309). -/
def execTranslationReplay (c : BitVec 4) (s : State) : Res :=
  let c := c.toNat
  let s := s.onCl c fun k => { k with
    holds := k.holds.map fun h => if h.replay then { h with replay := false, due := s.ct + 1 } else h
    active := k.active.map fun a => { a with replay := false }
    fetchFault := [] }
  .next ((s.cl c).holds.foldl (fun s h =>
    match h.kind with
    | .lateFetch l =>
      let (n, s) := s.free
      s.onCl c fun k => { k with fetches := (k.fetches.filter fun (m, _) => m != l) ++ [(l, s.ct + 1 + n)] }
    | _ => s) s)

end Sys2Proof.Machine
end

