-- ==== Sys2Proof/Machine/Issue.lean ====
section
/-!
DEFINITION. The checks of a bundle before it issues, in the order of R100: read ports (R92), lane groups (R95), intervals (R99), the in-flight
limit (R351), addresses, loops, pending faults (R336), tag checks and slips (R46, R162, R213), and the holds before issue (R91, R205).
-/
namespace Sys2Proof

/-- The vector operands a word names, but for those of repetitions (R92). -/
def Instr.srcs : Instr → List VSrc
  | .vst vt _ _ _ => [vt]
  | .vldx _ _ _ _ vi => [vi]
  | .vstx _ vt _ _ vi => [vt, vi]
  | .vstf vt _ _ _ _ => [vt]
  | .vupd _ _ vt _ _ _ => [vt]
  | .vadd _ _ _ _ _ a b | .vsub _ _ _ _ _ a b => [a, b]
  | .vmul _ _ _ a b | .vand _ _ _ a b | .vor _ _ _ a b | .vxor _ _ _ a b | .vshl _ _ _ a b | .vshr _ _ _ a b | .vsra _ _ _ a b
  | .vsel _ _ _ a b | .vperm _ _ _ a b => [a, b]
  | .vmulh _ _ _ _ a b | .vmin _ _ _ _ a b | .vmax _ _ _ _ a b => [a, b]
  | .vmad _ _ _ a b c | .vshuf _ _ _ a b c => [a, b, c]
  | .vabs _ _ _ _ a | .vneg _ _ _ _ a => [a]
  | .vnot _ _ _ a | .vclz _ _ _ a | .vpopc _ _ _ a => [a]
  | .fadd _ _ _ a b | .fsub _ _ _ a b | .fmul _ _ _ a b | .fmin _ _ _ a b | .fmax _ _ _ a b | .fcps _ _ _ a b => [a, b]
  | .ffma _ _ _ a b c | .ffms _ _ _ a b c => [a, b, c]
  | .fabs _ _ _ a | .fneg _ _ _ a | .fexp2 _ _ _ a | .flog2 _ _ _ a | .frcp _ _ _ a | .frsq _ _ _ a | .fsqrt _ _ _ a | .ftanh _ _ _ a
  | .fsigm _ _ _ a | .fsin _ _ _ a | .fcos _ _ _ a | .fcls _ _ _ a => [a]
  | .vcmp _ _ _ _ a b | .fcmp _ _ _ _ a b => [a, b]
  | .vcvt _ _ _ _ _ a => [a]
  | .vpack _ _ _ a b => [a, b]
  | .vunpk _ _ _ _ a => [a]
  | .vqnt _ _ a | .vdqt _ _ a => [a]
  | .vred _ _ _ a => [a]
  | .vamax _ _ _ _ a | .vscan _ _ _ _ a => [a]
  | .vbcst _ _ _ _ a => [a]
  | .vsld _ _ _ _ a b | .vzip _ _ _ _ a b => [a, b]
  | .vchk _ _ _ _ _ _ a b => [a, b]
  | .mrow _ _ _ _ a _ _ _ _ => [a]
  | .mwr _ a _ => [a]
  | .daff _ _ a | .dmix _ _ _ a | .dfrs _ a | .dpnt _ a | .dqnt _ _ a | .dtag _ _ _ a | .dcnd _ _ a => [a]
  | _ => []

/-- Range, mirror and predicate of a V operation; those without the fields act on the whole register. -/
def Instr.ctl : Instr → Option VCtl
  | .vadd c .. | .vsub c .. | .vmul c .. | .vmulh c .. | .vmad c .. | .vmin c .. | .vmax c .. | .vabs c .. | .vneg c .. | .vand c .. | .vor c ..
  | .vxor c .. | .vnot c .. | .vshl c .. | .vshr c .. | .vsra c .. | .vclz c .. | .vpopc c .. | .fadd c .. | .fsub c .. | .fmul c .. | .ffma c ..
  | .ffms c .. | .fmin c .. | .fmax c .. | .fabs c .. | .fneg c .. | .fcps c .. | .fexp2 c .. | .flog2 c .. | .frcp c .. | .frsq c .. | .fsqrt c ..
  | .ftanh c .. | .fsigm c .. | .fsin c .. | .fcos c .. | .vcmp c .. | .fcmp c .. | .vsel c .. | .fcls c .. | .vcvt c .. | .vred c .. | .vamax c ..
  | .vscan c .. | .vperm c .. | .vshuf c .. | .vbcst c .. | .vsld c .. | .vzip c .. | .vmov c .. | .vmovi c .. | .pand c .. | .por c .. | .pxor c ..
  | .pnot c .. | .pcnt c .. | .pfirst c .. | .vrnd c .. => some c
  | .vchk r m .. => some ⟨r, m, 0#4⟩
  | .vpack .. | .vunpk .. | .vqnt .. | .vdqt .. => some fullCtl
  | _ => none

/-- The lane groups a V operation occupies, mirrors included, and the cycles it does so (R95). -/
def Instr.lanes (i : Instr) : List Nat × Nat :=
  match i.ctl with
  | none => ([], 0)
  | some c => (c.occupies, match i with | .vmov _ _ rep _ _ => rep.toNat + 1 | _ => 1)

/-- The latency of a V result (Table 7-6). -/
def Instr.vlat : Instr → Nat
  | .fadd .. | .fsub .. | .fmul .. | .ffma .. | .ffms .. | .fmin .. | .fmax .. | .vcvt .. | .vpack .. | .vunpk .. | .vdqt .. => 4
  | .vperm .. | .vshuf .. | .vbcst .. | .vsld .. | .vzip .. => 3
  | .vred .. | .vamax .. | .vscan .. | .vchk .. => 8
  | .vqnt .. => 10
  | .fexp2 .. | .flog2 .. | .frcp .. | .frsq .. | .fsqrt .. | .ftanh .. | .fsigm .. | .fsin .. | .fcos .. => 12
  | .vrnd .. => 6
  | _ => 2

/-- Operations with a predicate result, one entry (R347). -/
def Instr.toPred : Instr → Bool
  | .vcmp .. | .fcmp .. | .vchk .. | .pand .. | .por .. | .pxor .. | .pnot .. | .pcnt .. | .pfirst .. => true
  | _ => false

/-- The control class (R132). -/
def Instr.control : Instr → Bool
  | .br .. | .jmp .. | .call .. | .ret .. | .loop .. | .loopReg .. | .endl | .lbrk .. | .trap .. | .rft | .endRun => true
  | _ => false

end Sys2Proof

namespace Sys2Proof.Machine

/-- The slots of a bundle with what each word decodes to. -/
abbrev Slots := List (Slot × Dec)

/-- The decoded slots, once every one is legal. -/
def legal (b : Slots) : List (Slot × Instr) := b.filterMap fun (p, d) => match d with | .ok i => some (p, i) | .error _ => none

/-- The state with the current slot set. -/
def State.at' (s : State) (p : Slot) : State := { s with cur := { s.cur with slot := p } }

/-- The first slot, in slot order, at which a check fails. -/
def State.slotCheck (s : State) (b : List (Slot × Instr)) (f : State → Slot → Instr → Option TrapInfo) : Option TrapInfo :=
  b.findSome? fun (p, i) => f (s.at' p) p i

/-! ### Read ports and lane groups (R92, R95) -/

/-- Port reads of an instruction: the cycle after its issue, the port, and the register, bit 6 set where the mapped v31 is read. Which
registers MROW and MCHK read hangs on the format-table entry (R243, R246). -/
def Cluster.portReads (k : Cluster) (i : Instr) : List (Nat × BitVec 2 × BitVec 7) :=
  let rd (j : Nat) (q : BitVec 2) (r : BitVec 6) : Nat × BitVec 2 × BitVec 7 := (j, q, ofBit (k.mapped r) ++ r)
  let run (v : VSrc) (n : Nat) := (List.range n).map fun j => rd j v.q (repReg v.r j)
  (i.srcs.map fun v => rd 0 v.q v.r) ++
  match i with
  | .vmov _ _ rep _ va => run va (rep.toNat + 1)
  | .dfrw _ va => run va 2
  | .mrow _ _ fs _ _ _ _ _ vh =>
    if k.activeIdx.any fun c => blockedFmt (ftA (k.fte (k.core c) fs)) then [rd 0 vh.q vh.r] else []
  | .mchk _ fs _ (some v) _ =>
    run v ((k.activeIdx.map fun c => planeK (ftA (k.fte (k.core c) fs)) / 32).foldl Nat.max 0)
  | _ => []

/-- Two reads one port cannot deliver in one cycle: two registers, or the mapped v31 for two instructions. -/
def clash (same : Bool) (x y : Nat × BitVec 2 × BitVec 7) : Bool :=
  x.1 == y.1 && x.2.1 == y.2.1 && (x.2.2.setWidth 6 != y.2.2.setWidth 6 || (!same && (x.2.2.getLsbD 6 || y.2.2.getLsbD 6)))

/-- The port reads and lane groups of a bundle, in absolute cycles, by slot. -/
def Cluster.absReads (k : Cluster) (i : Instr) : List (Nat × BitVec 2 × BitVec 7) := (k.portReads i).map fun (j, r) => (k.now + j, r)
def Cluster.absLanes (k : Cluster) (i : Instr) : List (Nat × BitVec 4) :=
  let (g, n) := i.lanes
  (List.range n).map fun j => (k.now + j, BitVec.ofNat 4 (g.eraseDups.map (2 ^ ·)).sum)

/-- A slot's port reads meet those before it in the bundle or of repetitions under way (R92). -/
def Cluster.portBad (k : Cluster) (before : List (Slot × Instr)) (i : Instr) : Bool :=
  let mine := k.absReads i
  let others := k.ports ++ before.flatMap fun (_, j) => k.absReads j
  mine.any fun x => mine.any (clash true x) || others.any (clash false x)
/-- A slot's lane groups meet those before it in the bundle or of repetitions under way (R94, R95). -/
def Cluster.laneBad (k : Cluster) (before : List (Slot × Instr)) (i : Instr) : Bool :=
  let ol := k.groups ++ before.flatMap fun (_, j) => k.absLanes j
  (k.absLanes i).any fun (t, g) => ol.any fun (u, h) => t == u && g &&& h != 0#4

/-! ### The in-flight limit (R347, R351) -/

/-- Entries a slot's instruction puts in a core's image, with the cycles until they leave it. -/
def Cluster.flight (k : Cluster) (p : Slot) (i : Instr) (c : Nat) (x : Core) : List (Nat × Nat) :=
  let mv (n : Nat) (l : LAccess) (own other : Nat) : List (Nat × Nat) := [(n, pickLat c l own other)]
  match p, i with
  | .a, .shw .. | .a, .shwi .. | .a, .ftw .. | .a, .ftwField .. => []
  | .a, _ => [(1, 1)]
  | .l, .vld _ aa pd _ off => mv 4 (k.accVld aa pd off x) 4 14
  | .l, .vldb _ aa pd _ off => mv 4 (k.accVldb aa pd off x) 4 14
  | .l, .vlds _ aa pd _ st => mv 4 (k.accVlds aa pd st x) 4 14
  | .l, .vldx h _ aa pd vi => mv 4 (k.accVldx h aa pd vi x) 4 14
  | .l, .vst _ aa pd off => mv 4 (k.accVld aa pd off x) 2 8
  | .l, .vstx h _ aa pd vi => mv 4 (k.accVldx h aa pd vi x) 2 8
  | .l, .pld _ aa _ off => mv 1 (accP aa off x) 4 14
  | .l, .pst _ aa off => mv 1 (accP aa off x) 2 8
  | .l, .dld _ aa _ off => mv 9 (accD aa off x) 5 15
  | .l, .dst _ aa off => mv 9 (accD aa off x) 3 9
  | .v0, .vmov .. | .v1, .vmov .. => []
  | .v0, i | .v1, i => [(if i.toPred then 1 else match i.ctl with | some v => v.rng.groups.length | none => 0, i.vlat)]
  | .m, .mrd .. => [(4, 6)]
  | .m, .mstat .. => [(4, 2)]
  | .m, .mdiag .. => [(4, 160)]
  | .m, .mspr .. => [(4, 64)]
  | .d, .dsmp .. | .d, .dmom .. | .d, .dqnt .. => [(4, 24)]
  | .d, _ => [(9, 24)]
  | _, _ => []

/-- Entries in flight d cycles after the bundle: what an instruction adds. -/
def flightAt (l : List (Nat × Nat)) (d : Nat) : Nat := ((l.filter fun (_, n) => decide (d < n)).map (·.1)).sum

/-- Entries of a VMOV whose first repetition to count issues next, d cycles on: repetitions in flight, and one REPEAT entry while some are
still to issue. -/
def vmovAt (groups rep age next d : Nat) : Nat :=
  groups * ((List.range (rep + 1)).filter fun j => decide (next ≤ j ∧ j ≤ age + d ∧ age + d < j + 2)).length + (if age + d < rep then 1 else 0)

/-- Entries of a core's image d cycles after the current bundle issues. -/
def Core.imageAt (x : Core) (now d : Nat) : Nat :=
  (x.pipe.map fun e =>
    match e.rep with
    | some ⟨.vmov c _ rep _ _, _, _, _, _⟩ => vmovAt c.rng.groups.length rep.toNat (now - e.issue) e.perf d
    | some _ => if now + d < e.land then 9 else 0
    | none => if now + d < e.land then 1 else 0).sum

/-- Entries the bundle adds on a core, d cycles on. -/
def Cluster.addsAt (k : Cluster) (b : List (Slot × Instr)) (c d : Nat) : Nat :=
  (b.map fun (p, i) =>
    match i with
    | .vmov v _ rep _ _ => vmovAt v.rng.groups.length rep.toNat 0 0 d
    | i => flightAt (k.flight p i c (k.core c)) d).sum

/-- The first active core with more than 96 entries in some cycle to come. -/
def Cluster.overfull (k : Cluster) (b : List (Slot × Instr)) : Option Nat :=
  k.activeIdx.find? fun c =>
    let x := k.core c
    (List.range (if x.pipe.any (fun e => e.rep.isSome) || b.any (fun (_, i) => match i with | .vmov .. => true | _ => false) then 66 else 1)).any
      fun d => decide (96 < x.imageAt k.now d + k.addsAt b c d)

/-! ### The checks (R100) -/

/-- An illegal instruction by its operands, its format-table entries or its mode, at step 2 (R80, R193, R281, R344, R345). -/
def State.entryCheck (s : State) (p : Slot) (i : Instr) : Option TrapInfo :=
  match p, i with
  | .x, _ => failIf s.me.handler.isSome (s.trapOf cILLINS)
  | .m, i => s.mEntry i
  | _, .rft => failIf s.me.handler.isNone (s.trapOf cILLINS)
  | _, .vqnt fs _ _ => s.ftCheck fs qntOk
  | _, .vdqt fs _ _ => s.ftCheck fs dqtOk
  | _, .vmov _ _ rep vd va => failIf (decide (vd.toNat + rep.toNat > 63 ∨ va.r.toNat + rep.toNat > 63)) (s.trapOf cILLINS)
  | _, .dfrw _ va => failIf (va.r == 63#6) (s.trapOf cILLINS)
  | _, .srr _ sel => failIf (!selAssigned sel) (s.trapOf cILLINS)
  | _, .srw sel _ => failIf (!selAssigned sel) (s.trapOf cILLINS)
  | _, _ => none

/-- The privilege trap, at step 3. -/
def State.privCheck (s : State) (p : Slot) (i : Instr) : Option TrapInfo :=
  match p, i with
  | .m, i => s.mPriv i
  | _, .srr _ sel => s.srrCheck sel
  | _, .srw sel _ => s.srwCheck sel
  | _, _ => none

/-- The in-flight limit: the first slot that brings a core above it. -/
def State.limitCheck (s : State) (b : List (Slot × Instr)) : Option TrapInfo :=
  (List.range b.length).findSome? fun n =>
    (s.me.overfull (b.take (n + 1))).map fun c => (s.at' ((b.map (·.1)).getD n .s)).trapOf cILLBUN (some c) 4#16

/-- Issue intervals of the D slot, of MCHK and of bf16 rows (R99). -/
def State.intervalCheck (s : State) (p : Slot) (i : Instr) : Option TrapInfo :=
  let k := s.me
  let soon (x : Option Nat) : Bool := match x with | some u => decide (k.now < u + 4) | none => false
  firstOf [
    (match p with | .d => s.dCheck | _ => none),
    failIf (match i with
      | .mchk .. => soon k.lastMchk
      | .mrow _ _ fs _ _ _ _ _ _ => k.activeIdx.any (fun c => ftA (k.fte (k.core c) fs) == 1) && soon k.lastBf
      | _ => false) (s.trapOf cILLBUN none 4#16)]

/-- The illegal-bundle checks of step 4, each over every slot before the next: read ports, lane groups, intervals, control-class instructions in delay
bundles, the in-flight limit, array occupancy, lone RFT (R92, R94, R95, R99, R132, R237, R346, R351). -/
def State.stepFour (s : State) (b : List (Slot × Instr)) : Option TrapInfo :=
  let before (p : Slot) : List (Slot × Instr) := b.takeWhile fun (q, _) => q != p
  let ill (s : State) : TrapInfo := s.trapOf cILLBUN none 4#16
  firstOf [
    s.slotCheck b fun s p i => failIf (s.me.portBad (before p) i) (ill s),
    s.slotCheck b fun s p i => failIf (s.me.laneBad (before p) i) (ill s),
    s.slotCheck b State.intervalCheck,
    s.slotCheck b fun s _ i => failIf (i.control && s.me.delay.isSome) (ill s),
    s.limitCheck b,
    s.slotCheck b fun s p i => match p with | .m => s.mOcc i | _ => none,
    s.slotCheck b fun s _ i => failIf (match i with | .rft => decide (b.length > 1) | _ => false) (ill s)]

/-- The address checks of a slot: range, else alignment. -/
def State.addrCheck (s : State) (p : Slot) (i : Instr) : Option TrapInfo :=
  let k := s.me
  match p, i with
  | .m, i => firstOf [s.mRange i, s.mAlign i]
  | _, .jmp sa | _, .ret sa => s.jumpCheck sa
  | _, .pini sa _ | _, .parr sa | _, .pwait sa _ | _, .pwaitImm sa _ => s.penCheck sa
  | _, .bset _ sa sb => s.bsetCheck sa sb
  | _, .bwait _ sa _ => s.bwaitCheck sa
  | _, .ldf _ sz _ sa off | _, .stf sz _ sa off => s.farCheck (s.farEa sa off) sz.bytes
  | _, .atom _ _ w64 _ _ _ _ sa _ => s.farCheck (s.sx sa) (if w64 then 8 else 4)
  | _, .lnch _ sa => s.lnchCheck sa
  | _, .vld _ aa pd _ off | _, .vst _ aa pd off => s.lCheck (k.accVld aa pd off)
  | _, .vldb _ aa pd _ off => s.lCheck (k.accVldb aa pd off)
  | _, .vlds _ aa pd _ st => s.lCheck (k.accVlds aa pd st)
  | _, .vldx h _ aa pd vi | _, .vstx h _ aa pd vi => s.lCheck (k.accVldx h aa pd vi)
  | _, .pld _ aa _ off | _, .pst _ aa off => s.lCheck (accP aa off)
  | _, .dld _ aa _ off | _, .dst _ aa off => s.lCheck (accD aa off)
  | _, .vldf _ tm aa _ off | _, .vstf _ tm aa _ off => s.vfarCheck tm aa off
  | _, .vupd _ _ _ tm aa _ => s.vfarCheck tm aa 0#6
  | _, _ => none

/-- Any address-range failure before any misalignment (R100). -/
def State.addrChecks (s : State) (b : List (Slot × Instr)) : Option TrapInfo :=
  let ts := b.filterMap fun (p, i) => (s.at' p).addrCheck p i
  (ts.find? fun t => t.cause == cRANGE) <|> ts.head?

/-- The loop traps, at step 6 (R133, R134). -/
def State.loopChecks (s : State) (i : Instr) : Option TrapInfo :=
  match i with
  | .loop n => s.loopCheck (imm16z n)
  | .loopReg sa => s.loopCheck (s.sx sa)
  | .endl | .lbrk .. => s.noLoopCheck
  | _ => none

/-- Steps 2 to 6 of R100 for an arrived bundle. -/
def State.bundleCheck (s : State) (b : Slots) : Option TrapInfo :=
  let l := legal b
  firstOf [
    b.findSome? fun (p, d) => match d with
      | .error _ => some ((s.at' p).trapOf cILLINS)
      | .ok i => (s.at' p).entryCheck p i,
    s.slotCheck l State.privCheck,
    s.stepFour l,
    s.slotCheck l fun s _ i => s.xMapCheck i,
    s.addrChecks l,
    s.slotCheck l fun s p i => match p with | .m => s.mFlush i | .x => s.xPushCheck i | _ => none,
    s.slotCheck l fun s _ i => s.loopChecks i]

/-! ### Pending faults (R336) -/

/-- A bundle that is a delivery point; RFT waits for the handler's work, so it counts in handler mode. -/
def deliveryPoint (i : Instr) : Bool :=
  match i with
  | .fence .. | .endRun | .ldf .. | .stf .. | .vldf .. | .vstf .. | .pwait .. | .pwaitImm .. | .bwait .. | .ttsync | .lnch .. | .rft => true
  | .atom op _ _ rtn ord _ _ _ _ => !atomPosted op rtn ord
  | .srr _ sel => decide (0x50 ≤ sel.toNat ∧ sel.toNat ≤ 0x5F)
  | _ => false

/-- The pending fault whose origin bundle issued first. -/
def firstPend : List PendFault → Option PendFault
  | [] => none
  | f :: r => match firstPend r with
    | none => some f
    | some g => if issueOrder g.origin < issueOrder f.origin then some g else some f

/-! ### Tag checks (R46, R162, R213) -/

/-- The pages a checked operand touches on a core, with the tag register: scratchpad pages by core, B-store pages from 64 on. -/
def Cluster.chkPages (k : Cluster) (i : Instr) (c : Nat) : List (Nat × Nat × BitVec 3) :=
  let x := k.core c
  let l (acc : LAccess) (e : BitVec 3) := (acc.bytes.map fun a => (a / 2 ^ 18, a % 2 ^ 18 / 4096, e)).eraseDups
  match i with
  | .vld _ aa pd (some e) off => l (k.accVld aa pd off x) e
  | .vldb _ aa pd (some e) off => l (k.accVldb aa pd off x) e
  | .vlds _ aa pd (some e) st => l (k.accVlds aa pd st x) e
  | .pld _ aa (some e) off => l (accP aa off x) e
  | .dld _ aa (some e) off => l (accD aa off x) e
  | .mbld fs _ (some e) aa off =>
    let a := mbldAddr x aa off
    let f := ftB (k.fte x fs)
    let named := (List.range 64).flatMap fun n => [a + 128 * n, a + 128 * n + (if f = 1 then 127 else 63)] ++
      (if blockedFmt f then [a + 8192 + 16 * n, a + 8192 + 16 * n + (hdrBytes f - 1)] else [])
    ((named.map fun b => (c, 64 + b / 4096, e)).eraseDups)
  | _ => []

/-- The tag of a page. -/
def Cluster.pageTag (k : Cluster) (c n : Nat) : BitVec 16 :=
  if n < 64 then sget 0#16 n (k.core c).spTag else sget 0#16 (n - 64) (k.core c).bstTag

/-- The causes that CAUSE of a poisoned tag names (Table 23-2). -/
def tagCause (t : BitVec 16) : BitVec 8 :=
  [cTRANS, cRACE, cCKSUM, cE2E, cSTALE, cMEMERR, cCHAIN, cCHAIN].getD (t.extractLsb' 12 3).toNat cCHAIN

/-- What the tag checks of a bundle come to. -/
inductive TagOut where
  | matched
  | late
  | poison (core : Nat) (f : PendFault)
deriving DecidableEq, Repr

/-- Every active core's checks: any poison at once, else any lateness. -/
def Cluster.tagOut (k : Cluster) (b : List (Slot × Instr)) : TagOut :=
  let all := k.activeIdx.flatMap fun c => (b.flatMap fun (_, i) => k.chkPages i c).map fun (d, n, e) => (c, d, n, e)
  match all.find? fun (_, d, n, _) => (k.pageTag d n).getLsbD 15 with
  | some (c, d, n, _) =>
    .poison c ((sget none n (k.core d).poisonOrg).getD ⟨⟨k.pc, k.dt⟩, { cause := tagCause (k.pageTag d n), slot := 6#3, pend := true }⟩)
  | none =>
    if all.any fun (_, d, n, e) => (k.pageTag d n).setWidth 12 != (k.e.getD e.toNat 0#16).setWidth 12 then .late else .matched

/-- A race is taken once: the pages that its fault poisoned are no longer poisoned (R303). -/
def Cluster.forget (k : Cluster) (f : PendFault) : Cluster :=
  if f.trap.cause ≠ cRACE then k
  else { k with cores := k.cores.map fun x =>
      (x.poisonOrg.filter fun (_, o) => o == some f).foldl (fun (x : Core) (n, _) =>
        let x := { x with poisonOrg := sput none n none x.poisonOrg }
        if n < 64 then { x with spTag := sput 0#16 n (sget 0#16 n x.spTag &&& 0xFFF#16) x.spTag }
        else { x with bstTag := sput 0#16 (n - 64) (sget 0#16 (n - 64) x.bstTag &&& 0xFFF#16) x.bstTag }) x }

/-- The fault a poisoned page names is taken, once: it is no longer pending (R213, R303). -/
def State.poisonTrap (s : State) (c core : Nat) (f : PendFault) : State :=
  let s := s.onCl c fun k => ({ k with slip := none, pend := k.pend.filter (· ≠ f) } : Cluster).forget f
  let k := s.cl c
  s.takeTrap c { f.trap with core := some (BitVec.ofNat 8 core) } k.pc k.dt f.origin.pc false

/-! ### Holds before issue (R91, R205) -/

/-- Whether an instruction pops a core's gather data queue. -/
def Cluster.popsOn (k : Cluster) (i : Instr) (x : Core) : Bool :=
  match i with
  | .mrow _ _ fs _ _ _ _ _ vh => i.srcs.any (fun v => k.mapped v.r) || (blockedFmt (ftA (k.fte x fs)) && k.mapped vh.r)
  | .mchk _ fs _ (some v) _ => k.repMapped v.r (planeK (ftA (k.fte x fs)) / 32 - 1)
  | .vmov _ _ rep _ va => k.repMapped va.r rep.toNat
  | .dfrw _ va => k.repMapped va.r 1
  | i => i.srcs.any fun v => k.mapped v.r

/-- Some active core's queue holds fewer entries than the bundle pops. -/
def Cluster.queueShort (k : Cluster) (b : List (Slot × Instr)) : Bool :=
  k.gqctl && k.activeIdx.any fun c => decide ((k.core c).gq.length < (b.filter fun (_, i) => k.popsOn i (k.core c)).length)

/-- The bundle carries a command that finds the buffer full. -/
def Cluster.bufferFull (k : Cluster) (b : List (Slot × Instr)) : Bool := decide (64 ≤ k.buf.length) && b.any fun (_, i) => (xops i).isSome

/-! ### Words with uncorrectable errors (R360) -/

end Sys2Proof.Machine

namespace Sys2Proof

/-- The s registers an instruction reads. -/
def Instr.sRegs (i : Instr) : List (BitVec 5) :=
  match i with
  | .add _ a b | .sub _ a b | .and _ a b | .or _ a b | .xor _ a b | .shl _ a b | .shr _ a b | .sra _ a b | .mul _ a b | .mulh _ _ a b | .min _ _ a b
  | .max _ _ a b | .cmp _ _ a b | .pini a b | .pwait a b | .bset _ a b | .bwait _ a b => [a, b]
  | .addImm _ a _ | .subImm _ a _ | .andImm _ a _ | .orImm _ a _ | .xorImm _ a _ | .shlImm _ a _ | .shrImm _ a _ | .sraImm _ a _ | .mulImm _ a _
  | .mulhImm _ a _ | .minImm _ a _ | .maxImm _ a _ | .cmpImm _ _ a _ | .jmp a | .ret a | .loopReg a | .parr a | .pwaitImm a _ | .ldf _ _ _ a _
  | .texReg _ a _ | .srw _ a | .lnch _ a | .cmsk (.rect a) | .afroms _ a | .shw _ _ a | .ftw _ a => [a]
  | .ldih d _ _ => [d]
  | .stf _ d a _ => [d, a]
  | .atom op _ _ _ _ _ d a b => if op = .cas then [d, a, b] else [a, b]
  | .xpsh one a b => if one then [a] else [a, b]
  | i => match Machine.xops i with | some o => [o.st, o.sa, o.sb] | none => []

/-- The flags, the tag register, the format selector and the tensor maps of an instruction. -/
def Instr.flagsRead (i : Instr) : List (BitVec 3) :=
  match i with
  | .fop _ _ a b => [a, b]
  | .br (.ifSet j) _ | .br (.ifClear j) _ | .lbrk (.ifSet j) _ | .lbrk (.ifClear j) _ => [j]
  | _ => []
def Instr.chkReg (i : Instr) : Option (BitVec 3) :=
  match i with
  | .vld _ _ _ e _ | .vldb _ _ _ e _ | .vlds _ _ _ e _ | .pld _ _ e _ | .dld _ _ e _ | .mbld _ _ e _ _ => e
  | _ => none
def Instr.fsel (i : Instr) : Option FSel :=
  match i with
  | .vqnt f _ _ | .vdqt f _ _ | .mbld f _ _ _ _ | .mrow _ _ f _ _ _ _ _ _ | .mchk _ f _ _ _ | .mdrn _ f _ _ _ _ _ | .mdrnk _ f _ _ _ _ _ _ _ => some f
  | _ => none
def Instr.mapOf (i : Instr) : Option (BitVec 4) :=
  match i with
  | .vldf _ t _ _ _ | .vstf _ t _ _ _ | .vupd _ _ _ t _ _ | .mdrn _ _ _ _ _ t _ => some t
  | i => (Machine.xops i).map (·.tm)

/-- The predicates but those of a V operation, the a and d registers, the banks and the plane that an instruction reads. -/
def Instr.predsRead (i : Instr) : List (BitVec 4) :=
  match i with
  | .pand _ _ a b | .por _ _ a b | .pxor _ _ a b => [a, b]
  | .pnot _ _ a | .pcnt _ _ _ a | .pfirst _ _ _ a => [a]
  | .vld _ _ p _ _ | .vst _ _ p _ | .vldb _ _ p _ _ | .vlds _ _ p _ _ | .vldx _ _ _ p _ | .vstx _ _ _ p _ | .pst p _ _ | .vldf _ _ _ p _
  | .vstf _ _ _ p _ | .vupd _ _ _ _ _ p => [p]
  | _ => []
def Instr.aRegs (i : Instr) : List (BitVec 4) :=
  match i with
  | .aadd _ a b | .asub _ a b => [a, b]
  | .aaddi _ a _ | .ashl _ a _ | .amov _ a | .cred _ _ a | .cmsk (.and a) | .cmsk (.set a) | .vld _ a _ _ _ | .vst _ a _ _ | .vldb _ a _ _ _
  | .vlds _ a _ _ _ | .vldx _ _ a _ _ | .vstx _ _ a _ _ | .pld _ a _ _ | .pst _ a _ | .dld _ a _ _ | .dst _ a _ | .vldf _ _ a _ _ | .vstf _ _ a _ _
  | .vupd _ _ _ _ a _ | .mbld _ _ _ a _ => [a]
  | _ => []
def Instr.dRegs (i : Instr) : List (BitVec 3) :=
  match i with
  | .dadd _ _ a b | .dsub _ _ a b | .dmul _ _ a b | .dmax _ _ a b | .dmin _ _ a b | .dmix _ a b _ | .dmov _ a b => [a, b]
  | .daff _ a _ | .dmap _ _ a | .dsmp _ a | .dmom _ a | .dqnt _ a _ | .dtag _ _ a _ | .dcnd _ a _ | .dst a _ _ => [a]
  | _ => []
def Instr.banksRead (i : Instr) : List (BitVec 2) :=
  match i with
  | .mdrn b _ _ _ _ _ _ | .mdrnk b _ _ _ _ _ _ _ _ | .mrow _ b _ _ _ _ .acc _ _ | .mchk b _ _ _ .acc => [b]
  | .macc d s | .mrot d s _ _ => [d, s]
  | _ => []
def Instr.planeRead (i : Instr) : Option Bool :=
  match i with
  | .mrow _ _ _ p _ _ _ _ _ | .mchk _ _ p _ _ | .mrot _ _ p _ => some p
  | _ => none

end Sys2Proof

namespace Sys2Proof.Machine

/-- The words of the sequencer and of the tensor maps that an instruction uses. -/
def Cluster.seqUses (k : Cluster) (i : Instr) : List SeqWord :=
  (i.sRegs.map SeqWord.s) ++ (i.flagsRead.map SeqWord.b) ++ (i.chkReg.toList.map SeqWord.e) ++
    (match i.fsel with | some (.lc j) => [.lc j.val] | _ => []) ++
    (match i.mapOf with | some t => (List.range 53).map fun f => .tm (64 * t.toNat + f) | none => []) ++
    match i with
    | .endl => [.loop (k.loops.length - 1)]
    | .srr _ sel =>
      if 0x30 ≤ sel.toNat ∧ sel.toNat ≤ 0x35 then [.lc (sel.toNat - 0x30)] else if 0x40 ≤ sel.toNat ∧ sel.toNat ≤ 0x5F then [.tm (64 * (sel.toNat % 16) + 41)] else []
    | _ => []

/-- An instruction uses a word of a core. -/
def Cluster.uses (k : Cluster) (i : Instr) (w : CoreWord) : Bool :=
  match w with
  | .v n => (k.portReads i).any fun (_, _, r) => !r.getLsbD 6 && k.vphys (r.setWidth 6) == n / 16
  | .p n => ((i.ctl.toList.map (·.pred)) ++ i.predsRead).any fun p => k.pphys p == n / 2
  | .d n => i.dRegs.any fun d => d.toNat == n / 34
  | .a n => i.aRegs.any fun a => a.toNat == n
  | .ft n => match i with | .ftwField f _ _ => f.toNat == n | _ => (match i.fsel with | some f => k.fsIdx f == n | none => false)
  | .cell n => (i.banksRead.any fun b => b.toNat == n / 4225) || (match i with | .mrd b _ l => b.toNat == n / 4225 && l.cells.contains (n % 4225) | _ => false)
  | .plane p => i.planeRead == some p
  | .tag _ => false

/-- The slot's instruction uses a word with an uncorrectable error: one of the sequencer, or, on a core, one of its own or a tag it checks. -/
def Cluster.seqHurt (k : Cluster) (i : Instr) : Bool := !k.hurt.isEmpty && (k.seqUses i).any k.hurt.contains
def Cluster.coreHurt (k : Cluster) (i : Instr) (c : Nat) : Bool :=
  ((k.core c).hurt.any fun w => k.uses i w) ||
    (k.cores.any (fun x => !x.hurt.isEmpty) && (k.chkPages i c).any fun (d, n, _) => (k.core d).hurt.contains (.tag n))

/-- Cycles after issue at which an instruction's result becomes visible (Table 7-6). -/
def Cluster.seenAfter (k : Cluster) (p : Slot) (i : Instr) (c : Nat) : Nat :=
  match p, i with
  | _, .mul .. | _, .mulh .. | _, .mulImm .. | _, .mulhImm .. | _, .shw .. => 3
  | _, .srr .. | _, .macc .. => 2
  | _, .cred .. => 40
  | _, .pini .. | _, .parr .. => 8
  | _, .mbld .. | _, .mbldh .. => 12
  | _, .mrow .. | _, .mchk .. | _, .mrot .. => 136
  | _, .mdrn .. => 100
  | _, .mdrnk .. => 120
  | _, .mwr .. => 6
  | .v0, i | .v1, i => i.vlat
  | p, i => ((k.flight p i c (k.core c)).map (·.2)).foldl Nat.max 1

/-- A slot's use of such a word is a machine error at the bundle where its result would have become visible (Table 25-1, R336). -/
def Cluster.wordTrap (k : Cluster) (p : Slot) (i : Instr) (core : Option Nat) : Cluster :=
  { k with cps := k.cps ++ [⟨k.now + k.seenAfter p i (core.getD 0), k.origin,
      { cause := cMACHINE, core := core.map (BitVec.ofNat 8), slot := BitVec.ofNat 3 p.num }⟩] }

/-! ### The bundle at a run's PC -/

/-- The slots of the bundle at PC, where its line has arrived and it lies within it. -/
def Cluster.bundleNow (k : Cluster) : Option Slots :=
  match k.win.find? fun (l, _) => l == k.pc.toNat / 64 with
  | none => none
  | some (_, w) =>
    match decodeBundle ((List.range 64).map fun i => w.extractLsb' (8 * i) 8) (k.pc.toNat % 64) with
    | .ok (.bundle _ b) => some b
    | _ => none

/-- A slip ends when every tag of its bundle matches, or one is poisoned; the bundle then goes on from its checks (R46). -/
def execSlipEnd (c : BitVec 4) (s : State) : Res :=
  .next (s.onCl c.toNat fun k =>
    match k.bundleNow with
    | some b => if k.tagOut (legal b) = .late then k else { k with slip := none }
    | none => { k with slip := none })

/-- Holds before issue end when what they wait for has come (R91, R205). -/
def Cluster.wake (k : Cluster) : Cluster :=
  let b := legal (k.bundleNow.getD [])
  { k with holds := k.holds.filter fun h =>
      match h.kind with
      | .emptyQueue => k.queueShort b
      | .fullBuffer => k.bufferFull b
      | _ => true }

end Sys2Proof.Machine
end

