-- ==== Sys2Proof/Machine/Bozoak.lean ====
section
/-!
DEFINITION. Halyard's Bozoak engine: contexts and their registers (R310 to R312), the communicator (R313 to R318), the 19 words (R319 to R335),
chunk counts, deliveries and signals.
-/
namespace Sys2Proof.Machine

/-! ### Contexts -/

def State.bzc (s : State) (k : Nat) : BzCtx := s.bz.getD k BzCtx.reset
def State.onBz (s : State) (k : Nat) (f : BzCtx → BzCtx) : State := { s with bz := s.bz.set k (f (s.bzc k)) }
/-- The context whose word the current turn executes. -/
def State.bzMe (s : State) : BzCtx := s.bzc s.cur.bz

def BzCtx.ctx (b : BzCtx) : BitVec 12 := b.bind.setWidth 12
def BzCtx.bound (b : BzCtx) : Bool := b.bind.getLsbD 63

/-- Fault causes (Table 21-7). -/
def bzILLOP : BitVec 8 := 1#8
def bzRSVD : BitVec 8 := 2#8
def bzBADDESC : BitVec 8 := 3#8
def bzTRANS : BitVec 8 := 4#8
def bzBADPEER : BitVec 8 := 5#8
def bzLOOP : BitVec 8 := 6#8
def bzCKSUM : BitVec 8 := 7#8
def bzE2E : BitVec 8 := 8#8
def bzOVERRUN : BitVec 8 := 9#8
def bzLEN : BitVec 8 := 10#8
def bzLINK : BitVec 8 := 11#8

/-- A context faults at the word it stands at (R321, R324). -/
def BzCtx.fault (b : BzCtx) (cause : BitVec 8) : BzCtx := { b with st := .fault, cause := cause, sigDue := none, arrived := false, overrun := b.overrun && cause != bzOVERRUN, stopping := false }
/-- The word has completed: the next one is current. -/
def BzCtx.advance (b : BzCtx) : BzCtx := { b with pc := b.pc + 8#57, sigDue := none, arrived := false }

def State.bzFault (s : State) (cause : BitVec 8) : Res := .next (s.onBz s.cur.bz (·.fault cause))
def State.bzDone (s : State) : Res := .next (s.onBz s.cur.bz BzCtx.advance)
/-- A word whose condition is not met waits; it blocks only its own context (R310). -/
def State.bzWait (s : State) : Res := .next s

/-! ### The communicator (Table 21-2, R314 to R317) -/

def BzCtx.rank (b : BzCtx) : Nat := (b.dsc.extractLsb' 0 10).toNat
def BzCtx.size (b : BzCtx) : Nat := (b.dsc.extractLsb' 10 10).toNat + 1
def BzCtx.chsz (b : BzCtx) : Nat := 2 ^ (12 + (b.dsc.extractLsb' 20 4).toNat)
def BzCtx.nchk (b : BzCtx) : Nat := (b.dsc.extractLsb' 24 12).toNat + 1
def BzCtx.fmt (b : BzCtx) : Nat := (b.dsc.extractLsb' 36 4).toNat
def BzCtx.ckv (b : BzCtx) : Bool := b.dsc.getLsbD 40
def BzCtx.tc (b : BzCtx) : Nat := (b.dsc.extractLsb' 41 5).toNat
def BzCtx.nsat (b : BzCtx) : Bool := b.dsc.getLsbD 46
def BzCtx.rows (b : BzCtx) : Nat := (b.dsc.extractLsb' 47 6).toNat + 1
def BzCtx.ptab (b : BzCtx) : Nat := (b.dsc.extractLsb' 71 57).toNat
def BzCtx.ctab (b : BzCtx) : Nat := (b.dsc.extractLsb' 135 57).toNat
def BzCtx.prog (b : BzCtx) : BitVec 57 := b.dsc.extractLsb' 199 57
def BzCtx.dbase (b : BzCtx) : Nat := (b.dsc.extractLsb' 263 57).toNat
def BzCtx.obase (b : BzCtx) : Nat := (b.dsc.extractLsb' 327 57).toNat
def BzCtx.bmap (b : BzCtx) : Nat := (b.dsc.extractLsb' 391 57).toNat

/-- Reserved fields, alignments and codes of a descriptor (R313). -/
def BzCtx.descOk (b : BzCtx) : Bool :=
  b.dsc.extractLsb' 448 64 == 0#64 && b.dsc.extractLsb' 384 7 == 0#7 && b.dsc.extractLsb' 320 7 == 0#7 && b.dsc.extractLsb' 256 7 == 0#7 &&
    b.dsc.extractLsb' 192 7 == 0#7 && b.dsc.extractLsb' 128 7 == 0#7 && b.dsc.extractLsb' 64 7 == 0#7 && b.dsc.extractLsb' 53 11 == 0#11 &&
    b.bmap % 8 == 0 && b.obase % 128 == 0 && b.dbase % 128 == 0 && b.prog.toNat % 8 == 0 && b.ctab % 8 == 0 && b.ptab % 8 == 0 &&
    decide (b.rank < b.size) && decide ((b.dsc.extractLsb' 20 4).toNat ≤ 8) && (b.fmt == 0 || b.fmt == 1 || b.fmt == 3)

/-- A rank's device and landing-zone offset (R314). -/
def BzCtx.dev (b : BzCtx) (r : Nat) : BitVec 12 := (b.peers.getD r 0#64).setWidth 12
def BzCtx.lz (b : BzCtx) (r : Nat) : Nat := ((b.peers.getD r 0#64).extractLsb' 16 39).toNat
/-- Bytes and target of a chunk (R315). -/
def BzCtx.len (b : BzCtx) (c : Nat) : Nat := ((b.chunks.getD c 0#64).extractLsb' 0 21).toNat
def BzCtx.target (b : BzCtx) (c : Nat) : Nat := ((b.chunks.getD c 0#64).extractLsb' 32 16).toNat
def BzCtx.esize (b : BzCtx) : Nat := if b.fmt = 0 then 4 else if b.fmt = 1 then 2 else 1

/-- The LEN rules of R316. -/
def BzCtx.lenOk (b : BzCtx) (c : Nat) : Bool :=
  decide (1 ≤ b.len c ∧ b.len c ≤ b.chsz) &&
    (if b.ckv then b.len c == 64 * b.rows * b.esize + 4 * (64 + b.rows) else b.len c % b.esize == 0)

/-- A landing slot of a rank, and its signal word (R317). -/
def BzCtx.slot (b : BzCtx) (r c : Nat) (par : Bool) : Nat := b.lz r + (2 * c + (if par then 1 else 0)) * (b.chsz + 128)
def BzCtx.sigWord (b : BzCtx) (r i : Nat) : Nat := b.lz r + 2 * b.nchk * (b.chsz + 128) + 8 * i

/-! ### Expressions (R320) -/

def BzCtx.gi (b : BzCtx) (i : BitVec 3) : Int := (b.g.getD i.toNat 0#32).toInt
def BzCtx.setG (b : BzCtx) (i : BitVec 3) (v : BitVec 32) : BzCtx := { b with g := b.g.set i.toNat v }

def BzCtx.chunk (b : BzCtx) (c : ChunkEx) : Nat :=
  let cr : Int := match c.cr with | .none => 0 | .plus => 1 | .minus => -1
  (((c.cb.toNat : Int) + cr * b.rank + c.ck.toInt * b.gi c.cg) % (b.nchk : Int)).toNat
def BzCtx.peerAt (b : BzCtx) (p : PeerEx) : Nat := (((b.rank : Int) + p.ps.toInt * b.gi p.pg + p.po.toInt) % (b.size : Int)).toNat
/-- A peer taken from a register is checked. -/
def BzCtx.peerOf (b : BzCtx) (ind : Bool) (p : PeerEx) : Option Nat :=
  if ind then (if 0 ≤ b.gi p.pg ∧ b.gi p.pg < (b.size : Int) then some (b.gi p.pg).toNat else none) else some (b.peerAt p)

/-! ### Memory as Halyard reads and writes it (R313, R316, R361) -/

/-- A range cut at 4 KiB boundaries. -/
def pageParts : Nat → Nat → Nat → List (Nat × Nat)
  | 0, _, _ => []
  | f + 1, va, n => if n = 0 then [] else
    let m := Nat.min n (4096 - va % 4096)
    (va, m) :: pageParts f (va + m) (n - m)
def partsOf (va n : Nat) : List (Nat × Nat) := pageParts (n / 4096 + 2) va n

/-- Halyard's translation of a VA in a context under a descriptor. An access that depends on a failed link or finds no open port is dropped or
refused (R368, R383); a peer may refuse it, which only it decides. -/
def State.hXlateD (s : State) (ctx : BitVec 12) (desc : BitVec 64) (va : Nat) (acc : Acc) : Option Target × State :=
  if 2 ^ 57 ≤ va then (none, s)
  else match s.translate none ctx desc va acc with
    | (.error _, s) => (none, s)
    | (.ok t, s) =>
      if s.routeLost 4 t then (none, s)
      else match s.portLost t, t with
        | (true, s), _ => (none, s)
        | (false, s), .peer d a => let (r, s) := s.free; (if r % 2 = 1 then none else some (.peer d a), s)
        | (false, s), t => (some t, s)

/-- As the context table now describes the context (R305). -/
def State.hXlate (s : State) (ctx : BitVec 12) (va : Nat) (acc : Acc) : Option Target × State := s.hXlateD ctx (s.descOf ctx) va acc

/-- Bytes at a target as Halyard reads them: those of a poisoned granule are undefined. -/
def State.hBytes (s : State) (t : Target) (n : Nat) : List Byte × State :=
  match t with
  | .hbm a => if s.poisoned a n then s.freeBytes n else s.hbmRead a n
  | .peer d a => if s.peerPoisoned (peerPa d a) n then s.freeBytes n else s.paRead 4 t n
  | t => s.paRead 4 t n

/-- Read a range of a context under a descriptor; none on a translation fault. -/
def State.hReadD (s : State) (ctx : BitVec 12) (desc : BitVec 64) (va n : Nat) : Option (List Byte) × State :=
  (partsOf va n).foldl (fun (acc, s) (a, m) =>
    match acc with
    | none => (none, s)
    | some bs =>
      match s.hXlateD ctx desc a .read with
      | (none, s) => (none, s)
      | (some t, s) => let (b, s) := s.hBytes t m; (some (bs ++ b), s)) (some [], s)
def State.hRead (s : State) (ctx : BitVec 12) (va n : Nat) : Option (List Byte) × State := s.hReadD ctx (s.descOf ctx) va n
def State.hWord (s : State) (ctx : BitVec 12) (va : Nat) : Option Word × State :=
  match s.hRead ctx va 8 with
  | (some bs, s) => (some (leWord bs), s)
  | (none, s) => (none, s)
def State.hWords (s : State) (ctx : BitVec 12) (va n : Nat) : Option (List Word) × State :=
  match s.hRead ctx va (8 * n) with
  | (some bs, s) => (some ((chunks 8 bs.length bs).map leWord), s)
  | (none, s) => (none, s)

/-- Halyard's writes set the writer tag (0, 0) (R302); the bytes are not the host's any more. -/
def State.hPut (s : State) (t : Target) (bs : List Byte) : State :=
  let s := s.paWrite 4 t bs
  match t with
  | .hbm a => { s.tagWrite 0 false 0#20 (linesOf a bs.length) with hostPut := sputs none a (List.replicate bs.length none) s.hostPut }
  | _ => s

/-- Halyard's own writes of a landing zone, which leave nothing in it undefined but what update-only lines merge there before them. -/
def State.hPutZone (s : State) (off : Nat) (bs : List Byte) : State :=
  let s := (linesOf off bs.length).foldl State.recall s
  { s.hPut (.hbm off) bs with bz := s.bz }
/-- Halyard's way to n bytes of device memory takes a link that has failed: what depends on it is dropped (R368). -/
def State.zoneLost (s : State) (off n : Nat) : Bool := s.routeLost 4 (.hbm off) || s.routeLost 4 (.hbm (off + n - 1))

/-- Write a range of a context, whole or, where some part does not translate, not at all (R324). -/
def State.hWriteD (s : State) (ctx : BitVec 12) (desc : BitVec 64) (va : Nat) (bs : List Byte) : Bool × State :=
  let (ts, s) := (partsOf va bs.length).foldl (fun (acc, s) (a, m) =>
    match acc with
    | none => (none, s)
    | some l =>
      match s.hXlateD ctx desc a .write with
      | (none, s) => (none, s)
      | (some t, s) => (some (l ++ [(t, a - va, m)]), s)) ((some [] : Option (List (Target × Nat × Nat))), s)
  match ts with
  | none => (false, s)
  | some l => (true, l.foldl (fun s (t, o, m) => s.hPut t ((bs.drop o).take m)) s)
def State.hWrite (s : State) (ctx : BitVec 12) (va : Nat) (bs : List Byte) : Bool × State := s.hWriteD ctx (s.descOf ctx) va bs

/-! ### Commands (R311, R312) -/

/-- Whether an access to a context's registers takes effect: through a window only when it is bound to the context's CTXID (R311). -/
def State.reaches (s : State) (via : Via) (k : Nat) : Bool :=
  match via with
  | .supervisor => true
  | .window w =>
    match (s.wins.getD w.toNat LaunchWin.reset).bound with
    | some c => (s.bzc k).bound && (s.bzc k).ctx == c
    | none => false

/-- START's reads: the descriptor, the whole peer table and the whole chunk table (R313). -/
def State.bzRead (s : State) (k : Nat) : Option BzCtx × State :=
  let b := s.bzc k
  let va := (b.desc.setWidth 57).toNat
  let s := s.dropPeer 4 .device
  if va % 64 ≠ 0 then (none, s)
  else match s.hRead b.ctx va 64 with
    | (none, s) => (none, s)
    | (some bs, s) =>
      let b : BzCtx := { b with dsc := BitVec.ofNat 512 (leNat bs) }
      if !b.descOk then (none, s)
      else match s.hWords b.ctx b.ptab b.size with
        | (none, s) => (none, s)
        | (some ps, s) =>
          match s.hWords b.ctx b.ctab b.nchk with
          | (none, s) => (none, s)
          | (some cs, s) =>
            let b : BzCtx := { b with peers := ps, chunks := cs }
            let resv := ps.any (fun p => p.extractLsb' 55 9 != 0#9 || p.extractLsb' 12 4 != 0#4 || (p.extractLsb' 16 39).toNat % 128 != 0) ||
              cs.any fun c => c.extractLsb' 48 16 != 0#16 || c.extractLsb' 21 11 != 0#11
            if resv || b.dev b.rank != Config.deviceId then (none, s) else (some b, s)

/-- The other members of a communicator. -/
def BzCtx.others (b : BzCtx) : List Nat := (List.range b.size).filter (· ≠ b.rank)
/-- Where a member's arrivals stand for a rank. -/
def BzCtx.barKey (b : BzCtx) (r src : Nat) : Nat := 1024 * b.lz r + src

/-- The BARs of a context's program no longer count: it has been stopped, or starts afresh (R332). -/
def State.barForget (s : State) (k : Nat) : State :=
  let b := s.bzc k
  { s with barIn := (b.others.filter fun r => b.dev r = Config.deviceId).foldl (fun m r => sput 0 (b.barKey r b.rank) 0 m) s.barIn }
/-- The BARs that a member of a context's communicator has started, where this device runs it: the generation count of its context. -/
def State.barOf (s : State) (b : BzCtx) (r : Nat) : Nat :=
  match s.bz.find? fun m => m.st == .running && m.rank == r && m.dev m.rank == b.dev r && m.lz m.rank == b.lz r with
  | some m => m.barGen
  | none => 0

/-- START (R312). Its program has started no BAR, and knows those of the members that run; a landing zone that was another's, or lay elsewhere, has
nothing undefined in it (R317; log entry 84). -/
def State.bzStart (s : State) (k : Nat) : State :=
  match s.bzRead k with
  | (none, s) => s.onBz k (·.fault bzBADDESC)
  | (some b, s) =>
    let old := s.bzc k
    let same := old.lz old.rank == b.lz b.rank && old.chsz == b.chsz && old.nchk == b.nchk
    let s := (s.barForget k).onBz k fun _ => { b with
      pc := b.prog, g := List.replicate 8 0#32, loops := [], sig := [], barGen := 0, cause := 0#8, st := .running, stopping := false
      arrived := false, sigDue := none, lzBad := if same then old.lzBad else [] }
    let s := s.barForget k
    { s with barIn := b.others.foldl (fun m r => sput 0 (b.barKey b.rank r) (if b.dev r = Config.deviceId then s.barOf b r else 0) m) s.barIn }
def execBzcmdStart (via : Via) (k : BitVec 4) (s : State) : Res :=
  s.viaHost fun s => .next (if s.reaches via k.toNat && ((s.bzc k.toNat).st == .idle || (s.bzc k.toNat).st == .stopped || (s.bzc k.toNat).st == .fault) then
    s.bzStart k.toNat else s)

/-- Deliveries of a context in flight. -/
def State.inFlight (s : State) (k : Nat) : Bool := s.deliveries.any fun d => d.k.toNat == k

/-- Once a stopping context's deliveries are acknowledged it is stopped, or unbound where its binding was cleared (R311, R312). -/
def State.bzSettle (s : State) (k : Nat) : State :=
  let b := s.bzc k
  if b.stopping && !s.inFlight k then s.onBz k fun b => { b with stopping := false, st := if b.bound then .stopped else .unbound } else s

/-- STOP abandons the current word (R312). -/
def State.bzStop (s : State) (k : Nat) : State :=
  if (s.bzc k).st == .running then ((s.barForget k).onBz k fun b => { b with stopping := true, sigDue := none, arrived := false }).bzSettle k else s
def execBzcmdStop (via : Via) (k : BitVec 4) (s : State) : Res :=
  s.viaHost fun s => .next (if s.reaches via k.toNat then s.bzStop k.toNat else s)

def execBzcmdClrcnt (via : Via) (k : BitVec 4) (s : State) : Res :=
  s.viaHost fun s => .next (if s.reaches via k.toNat && ((s.bzc k.toNat).st == .idle || (s.bzc k.toNat).st == .stopped || (s.bzc k.toNat).st == .fault) then
    s.onBz k.toNat fun b => { b with counts := [] } else s)

/-- BZBIND as the supervisor writes it: binding makes a context IDLE with cleared counts, unbinding stops it; what an earlier program received in
error is forgotten (R311). -/
def State.bzBind (s : State) (k : Nat) (v : BitVec 64) : State :=
  let v := v &&& 0x8000000000000FFF#64
  let b := s.bzc k
  let s1 := s.onBz k fun b => { b with bind := v }
  if v.getLsbD 63 then
    (if b.bound then s1
     else (s1.barForget k).onBz k fun b =>
      { b with st := .idle, counts := [], cause := 0#8, stopping := false, sigDue := none, arrived := false, overrun := false, lzBad := [] })
  else
    let s2 := s1.onBz k fun b => { b with overrun := false, lzBad := [] }
    if b.st == .running then s2.bzStop k else (s2.barForget k).onBz k fun b => { b with st := .unbound }
def execBzbindWrite (k : BitVec 4) (v : BitVec 64) (s : State) : Res := s.viaHost fun s => .next (s.bzBind k.toNat v)

/-! ### Chunk data (R316, R325, R326) -/

def BzCtx.fp (b : BzCtx) : FP := if b.fmt = 0 then fpF32 else if b.fmt = 1 then fpBf16 else fpE4m3

/-- The element codes of a chunk, and the f32 codes of its vectors: 64 column sums, then the row sums. -/
def BzCtx.elems (b : BzCtx) (bs : List Byte) : List Nat :=
  let n := if b.ckv then 64 * b.rows * b.esize else bs.length
  (Machine.chunks b.esize n (bs.take n)).map leNat
def BzCtx.vecs (b : BzCtx) (bs : List Byte) : List Nat :=
  if b.ckv then (Machine.chunks 4 bs.length (bs.drop (64 * b.rows * b.esize))).map leNat else []

/-- The rows and columns that the vectors sum, in their order. -/
def BzCtx.lines (b : BzCtx) (xs : List Ext) : List (List Ext) :=
  ((List.range 64).map fun j => (List.range b.rows).map fun i => xs.getD (64 * i + j) .nan) ++
    (List.range b.rows).map fun i => (List.range 64).map fun j => xs.getD (64 * i + j) .nan

/-- The tolerance exponent (R326). -/
def BzCtx.tol (b : BzCtx) : Nat := if b.tc = 0 then (if b.fmt = 0 then 18 else if b.fmt = 1 then 7 else 3) else Nat.min (Nat.max b.tc 2) 22

/-- A chunk agrees with its vectors (R326). -/
def BzCtx.verify (b : BzCtx) (bs : List Byte) : Bool :=
  let xs := (b.elems bs).map b.fp.dec
  (List.zip ((b.vecs bs).map fpF32.dec) (b.lines xs)).all fun (c, vs) =>
    c.finite && vs.all Ext.finite &&
      (let d := c.rat - (vs.map Ext.rat).sum
       let mag := (vs.map fun v => v.abs.rat).sum + c.abs.rat
       decide ((if d < 0 then -d else d) ≤ pow2 (-(b.tol : Int)) * mag))

/-- One element: a the local value, b the received one (R325). -/
def BzCtx.reduce1 (b : BzCtx) (rop : BzRop) (x y : Nat) : Nat :=
  let f := b.fp
  let p := f.dec x
  let q := f.dec y
  let pick (above : Ext → Ext → Bool) : Nat :=
    if p.isNan && q.isNan then f.nan.getD 0 else if p.isNan then x else if q.isNan then y else if above q p then y else x
  match rop with
  | .add => f.rne (b.fmt == 0 || b.nsat) (Ext.add p q)
  | .max => pick rankAbove
  | .min => pick rankBelow

/-- The reduced chunk with its vectors (R325). -/
def BzCtx.reduce (b : BzCtx) (rop : BzRop) (loc rcv : List Byte) : List Byte :=
  let out := List.zipWith (b.reduce1 rop) (b.elems loc) (b.elems rcv)
  let vec : List Nat := match rop with
    | .add => List.zipWith (fun x y => fpF32.rne true (Ext.add (fpF32.dec x) (fpF32.dec y))) (b.vecs loc) (b.vecs rcv)
    | _ => (b.lines (out.map b.fp.dec)).map fun l => fpF32.rne true (sumExt l)
  out.flatMap (leBytes b.esize) ++ (if b.ckv then vec.flatMap (leBytes 4) else [])

/-! ### Deliveries (R323, R333) -/

/-- The header of a slot (R317). -/
def BzCtx.header (b : BzCtx) (bs : List Byte) : List Byte :=
  leBytes 4 (crc32c bs).toNat ++ leBytes 4 bs.length ++ leBytes 2 b.rank ++ [0#8, 0#8, 1#8] ++ List.replicate 115 0#8

/-- Start a delivery of chunk bytes to a peer; its completion comes at a free time. -/
def State.deliver (s : State) (k r c : Nat) (par : Bool) (bs : List Byte) : State :=
  let b := s.bzc k
  let (n, s) := s.free
  { s with deliveries := s.deliveries ++ [⟨s.nextDelivery, BitVec.ofNat 4 k, b.ctx, b.dev r, b.slot r c par, bs, b.header bs, s.ct + 1 + n⟩]
           nextDelivery := s.nextDelivery + 1 }

/-- The full slot of a bound context's landing zone that a range of device memory touches (R333). -/
def State.fullSlot (s : State) (off n : Nat) : Option (Nat × Nat) :=
  (List.range 16).findSome? fun k =>
    let b := s.bzc k
    if !b.bound then none else
    (b.zone off n).findSome? fun i =>
      let at' := b.lz b.rank + i * (b.chsz + 128)
      if i < 2 * b.nchk ∧ s.raw (s.readAddr (at' + 12)) = 1#8 then some (k, at') else none

/-- A delivery's bytes in a slot leave nothing there undefined any more. -/
def State.cleanZone (s : State) (off n : Nat) : State :=
  { s with bz := s.bz.map fun (b : BzCtx) => { b with lzBad := b.lzBad.filter fun i => decide (2 * b.nchk ≤ i) || !(b.zone off n).contains i } }

/-- A write that reaches this device's memory as a delivery does: it overruns a slot that is full, which stays so with its other bytes undefined, and
its context faults at its next word (R333). -/
def State.land (s : State) (off : Nat) (bs : List Byte) : State :=
  match s.fullSlot off bs.length with
  | some (k, at') =>
    let b := s.bzc k
    let (fs, s) := s.freeBytes (b.chsz + 128)
    (s.hPutZone at' (fs.take 12 ++ [1#8] ++ fs.drop 13)).onBz k fun b => { b with overrun := true }
  | none => (s.hPutZone off bs).cleanZone off bs.length

/-- An inbound window admits a request of a peer (R392). -/
def winAdmits (w : BitVec 128) (src : BitVec 12) (k : AccKind) (off n : Nat) : Bool :=
  let mask := w.extractLsb' 88 12
  w.getLsbD 102 && src &&& mask == w.extractLsb' 76 12 &&& mask &&
    decide ((w.extractLsb' 23 23).toNat * 2 ^ 16 ≤ off ∧ off + n ≤ (w.extractLsb' 46 23).toNat * 2 ^ 16) &&
    (match k with | .read => w.getLsbD 100 | _ => w.getLsbD 101)

/-- The data of a delivery as the requests that carry it, a granule each (R323, R392; log entry 84). -/
def Delivery.parts (d : Delivery) : List (Nat × List Byte) :=
  (chunks 128 d.bytes.length d.bytes).zipIdx.map fun (bs, i) => (d.slotOff + 128 * (i + 1), bs)

/-- This device, where it is the receiver, takes a request of a delivery: its memory is there and can be reached, and a window admits it (R314, R367,
R368, R392). -/
def State.takesOwn (s : State) (off n : Nat) : Bool :=
  (match s.target off with | some (.hbm _) => true | _ => false) && !s.zoneLost off n && s.inWin.any fun w => winAdmits w Config.deviceId .write off n
/-- It takes every request of one, the header's among them. -/
def State.admitsOwn (s : State) (d : Delivery) : Bool := s.takesOwn d.slotOff 128 && d.parts.all fun (a, bs) => s.takesOwn a bs.length

/-- A delivery that fails may have landed in part: here the data that is taken, elsewhere what the peer chose to take; its header is not written
(R323, R392). -/
def State.landPart (s : State) (d : Delivery) : State :=
  if d.dev = Config.deviceId then (d.parts.filter fun (a, bs) => s.takesOwn a bs.length).foldl (fun s (a, bs) => s.land a bs) s
  else d.parts.foldl (fun (s : State) (a, bs) =>
    let (r, s) := s.free
    if r % 2 = 1 then s.peerOut (peerPa d.dev.toNat a) bs else s) s

/-- A delivery's bytes land, then its header (R323). -/
def execDeliveryComplete (id : Nat) (s : State) : Res :=
  .next (match s.deliveries.find? fun d => d.id == id with
    | none => s
    | some d =>
      let s := { s with deliveries := s.deliveries.filter fun e => e.id != id }
      let s := if d.dev = Config.deviceId then (match s.fullSlot d.slotOff 128 with
          | some _ => s.land (d.slotOff + 128) d.bytes
          | none => ((s.hPutZone (d.slotOff + 128) d.bytes).hPutZone d.slotOff d.header).cleanZone d.slotOff 128)
        else (s.peerOut (peerPa d.dev.toNat (d.slotOff + 128)) d.bytes).peerOut (peerPa d.dev.toNat d.slotOff) d.header
      s.bzSettle d.k.toNat)

/-- A delivery that failed or was refused faults its context at the word it stands at (R323), unless its binding has been cleared (R311). -/
def execDeliveryFailure (id : Nat) (s : State) : Res :=
  .next (match s.deliveries.find? fun d => d.id == id with
    | none => s
    | some d =>
      let s := ({ s with deliveries := s.deliveries.filter fun e => e.id != id } : State).landPart d
      let b := s.bzc d.k.toNat
      if b.st = .running ∧ b.bound then s.onBz d.k.toNat (·.fault bzLINK) else s.bzSettle d.k.toNat)

/-! ### Words that move chunks (R323 to R328) -/

/-- The chunk's working copy. -/
def BzCtx.work (b : BzCtx) (c : Nat) : Nat := b.dbase + c * b.chsz

def execSend (pt ind : Bool) (c : ChunkEx) (p : PeerEx) (s : State) : Res :=
  let b := s.bzMe
  let c := b.chunk c
  match b.peerOf ind p with
  | none => s.bzFault bzBADPEER
  | some r =>
    if !b.lenOk c then s.bzFault bzLEN
    else match s.hRead b.ctx (b.work c) (b.len c) with
      | (none, s) => s.bzFault bzTRANS
      | (some bs, s) => (s.deliver s.cur.bz r c pt bs).bzDone

/-- A chunk's result is written to the work buffer, its slot is freed, and it may go on to another rank (R321). -/
def State.bzUsed (s : State) (b : BzCtx) (c at' : Nat) (on : Option (Nat × Bool)) (out : List Byte) : Res :=
  match s.hWrite b.ctx (b.work c) out with
  | (false, s) => s.bzFault bzTRANS
  | (true, s) =>
    let s := s.hPutZone (at' + 12) [0#8]
    match on with
    | some (r, pt) => (s.deliver s.cur.bz r c pt out).bzDone
    | none => s.bzDone

/-- The header and the bytes of a slot as the receiver reads them: undefined where something other than a delivery has written the slot (R317). -/
def State.zoneHead (s : State) (b : BzCtx) (at' : Nat) : List Byte × State :=
  if (b.zone at' 1).any b.lzBad.contains then s.freeBytes 128 else s.hBytes (.hbm at') 128
def State.zoneBytes (s : State) (b : BzCtx) (at' n : Nat) : List Byte × State :=
  if (b.zone at' 1).any b.lzBad.contains then s.freeBytes n else s.hBytes (.hbm (at' + 128)) n

/-- A received slot is used: checked, reduced where an operation is given, written and freed, and sent on where a peer is given (R324). -/
def State.bzUse (s : State) (c : Nat) (pr : Bool) (rop : Option BzRop) (on : Option (Nat × Bool)) : Res :=
  let b := s.bzMe
  let at' := b.slot b.rank c pr
  if !b.lenOk c then s.bzFault bzLEN
  else if s.raw (s.readAddr (at' + 12)) ≠ 1#8 ∨ s.zoneLost at' (128 + b.len c) then s.bzWait
  else
    let (hd, s) := if b.lzBad.isEmpty then s.hBytes (.hbm at') 128 else s.zoneHead b at'
    let n := b.len c
    if leNat ((hd.drop 4).take 4) ≠ n then s.bzFault bzLEN
    else
      let (rcv, s) := if b.lzBad.isEmpty then s.hBytes (.hbm (at' + 128)) n else s.zoneBytes b at' n
      if leNat (hd.take 4) ≠ (crc32c rcv).toNat then s.bzFault bzE2E
      else if b.ckv && !b.verify rcv then s.bzFault bzCKSUM
      else
        match rop with
        | none => s.bzUsed b c at' on rcv
        | some op =>
          match s.hRead b.ctx (b.work c) n with
          | (none, s) => s.bzFault bzTRANS
          | (some loc, s) =>
            if b.ckv && !b.verify loc then s.bzFault bzCKSUM
            else
              let out := b.reduce op loc rcv
              if b.ckv && !b.verify out then s.bzFault bzCKSUM else s.bzUsed b c at' on out

def execRecv (pr : Bool) (c : ChunkEx) (s : State) : Res := s.bzUse (s.bzMe.chunk c) pr none none
def execRrd (rop : BzRop) (pr : Bool) (c : ChunkEx) (s : State) : Res := s.bzUse (s.bzMe.chunk c) pr (some rop) none
def execRrs (rop : BzRop) (pr pt ind : Bool) (c : ChunkEx) (p : PeerEx) (s : State) : Res :=
  match s.bzMe.peerOf ind p with
  | none => s.bzFault bzBADPEER
  | some r => s.bzUse (s.bzMe.chunk c) pr (some rop) (some (r, pt))

/-- COPY to the output area (R328). -/
def execCopy (c : ChunkEx) (s : State) : Res :=
  let b := s.bzMe
  let c := b.chunk c
  if b.obase = 0 then s.bzFault bzBADDESC
  else if !b.lenOk c then s.bzFault bzLEN
  else match s.hRead b.ctx (b.work c) (b.len c) with
    | (none, s) => s.bzFault bzTRANS
    | (some bs, s) =>
      match s.hWrite b.ctx (b.obase + c * b.chsz) bs with
      | (false, s) => s.bzFault bzTRANS
      | (true, s) => s.bzDone

/-! ### Waits, signals and ordering (R329, R330) -/

def execWaitc (c : ChunkEx) (s : State) : Res :=
  let b := s.bzMe
  let c := b.chunk c
  let n := sget 0 c b.counts
  if n < b.target c then s.bzWait
  else ((s.dropPeer 4 .device).onBz s.cur.bz fun b => { b with counts := sput 0 c (n - b.target c) b.counts }).bzDone

/-- A signal word of device memory takes an add of 1. -/
def State.addWord (s : State) (off : Nat) : State :=
  let (bs, s) := s.hbmRead off 8
  s.hPutZone off (leBytes 8 (leWord bs + 1#64).toNat)

/-- The engine folds a signal word into its counter: the word is emptied, and nothing in it is undefined any more (R317, R330). -/
def State.foldSig (s : State) (k i : Nat) : State :=
  let b := s.bzc k
  let off := b.sigWord b.rank i
  let bad := b.lzBad.contains (2 * b.nchk + i)
  if s.zoneLost off 8 then s else
  let (bs, s) := if bad then s.freeBytes 8 else s.hbmRead off 8
  if !bad && leWord bs = 0#64 then s
  else (s.hPutZone off (List.replicate 8 0#8)).onBz k fun b =>
    { b with sig := sput 0#32 i (sget 0#32 i b.sig + (leWord bs).setWidth 32) b.sig, lzBad := b.lzBad.filter (· ≠ 2 * b.nchk + i) }

/-- An add of 1 to a signal word of a rank: here or at the peer; none where a link has failed, no port is open or the route takes one that is not
(R330, R368, R382, R383). -/
def State.sendSig (s : State) (b : BzCtx) (r i : Nat) : Bool × State :=
  let off := b.sigWord r i
  if b.dev r = Config.deviceId then (if s.zoneLost off 8 then (false, s) else (true, s.addWord off))
  else
    match s.portLost (.peer 0 0) with
    | (true, s) => (false, s)
    | (false, s) =>
      let pa := peerPa (b.dev r).toNat off
      (true, { s with outer := wrBytes s.outer pa (leBytes 8 (leWord (rdBytes s.outer pa 8) + 1#64).toNat), outbox := s.outbox ++ [.peerAdd (b.dev r) off] })

/-- SIG releases once the context's deliveries are acknowledged, then adds at the peer; it completes when the add is acknowledged. An add that cannot
leave is not acknowledged, so the word waits and tries again (log entry 84). -/
def execSig (ind : Bool) (idx : BitVec 6) (p : PeerEx) (s : State) : Res :=
  let b := s.bzMe
  match b.peerOf ind p with
  | none => s.bzFault bzBADPEER
  | some r =>
    match b.sigDue with
    | none =>
      if s.inFlight s.cur.bz then s.bzWait
      else
        let (n, s) := s.free
        match s.sendSig b r idx.toNat with
        | (false, s) => s.bzWait
        | (true, s) => .next (s.onBz s.cur.bz fun b => { b with sigDue := some (s.ct + 1 + n) })
    | some t => if s.ct < t then s.bzWait else s.bzDone

/-- SIG.bit sets a bit of the bitmap with a DEVICE release, as BSET does. -/
def execSigBit (i : BitVec 12) (s : State) : Res :=
  let b := s.bzMe
  match s.hXlate b.ctx (b.bmap + 8 * (i.toNat / 64)) .write with
  | (none, s) => s.bzFault bzTRANS
  | (some t, s) => ((s.atomTarget 4 t .or false true .none (1#64 <<< (i.toNat % 64)) 0#64 false []).2).bzDone

def execWaits (idx : BitVec 6) (n : BitVec 16) (s : State) : Res :=
  let s := s.foldSig s.cur.bz idx.toNat
  let v := sget 0#32 idx.toNat s.bzMe.sig
  if v.toNat < n.toNat then s.bzWait
  else ((s.dropPeer 4 .fabric).onBz s.cur.bz fun b => { b with sig := sput 0#32 idx.toNat (v - n.setWidth 32) b.sig }).bzDone

/-- Another device's member of a communicator, chosen freely: the sender of a signal that does not name it. -/
def State.someMember (s : State) (b : BzCtx) : BitVec 12 × State :=
  let far := (b.others.map b.dev).filter (· ≠ Config.deviceId)
  let (r, s) := s.free
  (far.getD (r % far.length) Config.deviceId, s)
/-- An add of a member on another device arrives through an open fabric port at a signal word of a context's landing zone. It is an inbound request as
any other: a handover or no window for it refuses it (R373, R383, R392). A running engine folds the word (R330). -/
def execSignalArrival (k : BitVec 4) (idx : BitVec 6) (s : State) : Res :=
  let b := s.bzc k.toNat
  if b.peers.isEmpty || s.fabricPorts.isEmpty then .next s
  else
    let (src, s) := s.someMember b
    let off := b.sigWord b.rank idx.toNat
    if s.hand.isSome || s.zoneLost off 8 || !(s.inWin.any fun w => winAdmits w src .atomicAdd off 8) then .next { s with outbox := s.outbox ++ [.abort src] }
    else
      let s := s.addWord off
      .next (if b.st = .running then s.foldSig k.toNat idx.toNat else s)

/-! ### Registers and loops (R331) -/

def State.setG (s : State) (gd : BitVec 3) (v : BitVec 32) : Res := (s.onBz s.cur.bz fun b => b.setG gd v).bzDone
def execSetv (gd : BitVec 3) (imm : BitVec 32) (s : State) : Res := s.setG gd imm
def execAddv (gd ga : BitVec 3) (imm : BitVec 32) (s : State) : Res := s.setG gd (s.bzMe.g.getD ga.toNat 0#32 + imm)
def execPeer (gd : BitVec 3) (p : PeerEx) (s : State) : Res := s.setG gd (BitVec.ofNat 32 (s.bzMe.peerAt p))
def execPeerInd (gd pg : BitVec 3) (s : State) : Res :=
  match s.bzMe.peerOf true ⟨0#12, 0#12, pg⟩ with
  | none => s.bzFault bzBADPEER
  | some r => s.setG gd (BitVec.ofNat 32 r)
def execPeerXor (gd pg : BitVec 3) (s : State) : Res := s.setG gd (BitVec.ofNat 32 s.bzMe.rank ^^^ s.bzMe.g.getD pg.toNat 0#32)

def execBzLoop (gd : BitVec 3) (n : BitVec 32) (s : State) : Res :=
  if s.bzMe.loops.length = 2 ∨ n = 0#32 ∨ n.getLsbD 31 then s.bzFault bzLOOP
  else (s.onBz s.cur.bz fun b => { b.setG gd 0#32 with loops := (gd, n, b.pc + 8#57) :: b.loops }).bzDone
def execBzEndl (s : State) : Res :=
  match s.bzMe.loops with
  | [] => s.bzFault bzLOOP
  | (gd, n, start) :: rest =>
    let v := s.bzMe.g.getD gd.toNat 0#32 + 1#32
    if v.slt n then .next (s.onBz s.cur.bz fun b => { b.setG gd v with pc := start })
    else (s.onBz s.cur.bz fun b => { b.setG gd v with loops := rest }).bzDone

/-! ### BAR, END and NOP (R300, R332) -/

/-- A member's m-th arrival: recorded for the members on this device, told to the devices of the others. -/
def State.barArrive (s : State) (k : Nat) : State :=
  let b := s.bzc k
  let s := b.others.foldl (fun (s : State) r =>
    if b.dev r = Config.deviceId then { s with barIn := sput 0 (b.barKey r b.rank) (b.barGen + 1) s.barIn }
    else { s with outbox := s.outbox ++ [OutMsg.barArrive (b.dev r) (BitVec.ofNat 4 k) (b.barGen + 1)] }) s
  s.onBz k fun b => { b with arrived := true, barGen := b.barGen + 1 }

/-- The arrivals of members on other devices come in through a fabric port when those devices make them: a free choice for each that has not made the
one waited for. -/
def State.barHear (s : State) (b : BzCtx) : State :=
  if s.fabricPorts.isEmpty then s else
  (b.others.filter fun r => b.dev r != Config.deviceId && decide (sget 0 (b.barKey b.rank r) s.barIn < b.barGen)).foldl (fun (s : State) r =>
    let (f, s) := s.free
    if f % 2 = 1 then { s with barIn := sput 0 (b.barKey b.rank r) b.barGen s.barIn } else s) s

/-- BAR tells the other members first, those of other devices through a port that is open (R383; log entry 84); a context's m-th completes when every
member has started its m-th (R332). -/
def execBar (acq rel : Bool) (s : State) : Res :=
  let k := s.cur.bz
  let b := s.bzMe
  if !b.arrived then
    (if (rel && s.inFlight k) || (s.fabricPorts.isEmpty && b.others.any fun r => b.dev r != Config.deviceId) then s.bzWait else .next (s.barArrive k))
  else
    let s := s.barHear b
    if b.others.all fun r => decide (b.barGen ≤ sget 0 (b.barKey b.rank r) s.barIn) then
      (if acq then (List.range 4).foldl (fun s d => s.dropPeer d .fabric) s else s).bzDone
    else .next s
def execBzEnd (s : State) : Res := if s.inFlight s.cur.bz then s.bzWait else .next (s.onBz s.cur.bz fun b => { b with st := .idle })
def execBzNop (s : State) : Res := s.bzDone

/-! ### Turns and counts (R310, R318) -/

/-- The engine serves the running contexts round-robin: each has its turn for the word it stands at. -/
def execBozoakContextTurn (s : State) : Res :=
  let order := (List.range 16).map fun i => (s.bzTurn + i) % 16
  let s := order.foldl State.bzSettle s
  let live := order.filter fun k => (s.bzc k).st == .running && !(s.bzc k).stopping
  .next { s with agenda := live.map Turn.bzFetch ++ s.agenda, bzTurn := (s.bzTurn + 1) % 16 }

/-- Stores of a drain's tile that have not performed, of a bundle. -/
def Cluster.tilePending (k : Cluster) (o : Origin) : Bool :=
  let st (l : List PEntry) : Bool := l.any fun e => e.kind == .store && e.slot == .m && e.origin == o
  k.cores.any (fun x => st x.pipe) || (match k.handler with | some b => b.pipes.any st | none => false)

/-- The count of a drain arrives once its tiles have performed and the release that covers them is done (R257, R318); refused, it leaves a
pending fault. -/
def execChunkCount (c : BitVec 4) (k : BitVec 4) (chunk : BitVec 20) (inc : BitVec 16) (o : Origin) (s : State) : Res :=
  let c' := c.toNat
  if (s.cl c').tilePending o then .next { s with inputs := s.inputs ++ [(s.ct + 1, .chunkCount c k chunk inc o)] }
  else
    let s := (s.release c' .device).vcStep c'
    .next (match s.countChunk c' k chunk.toNat inc.toNat with
      | some s => s
      | none => if (s.cl c').run.isSome then s.onCl c' fun q => q.addPend ⟨o, chunkTrap chunk.toNat (BitVec.ofNat 3 Slot.m.num)⟩ else s)

end Sys2Proof.Machine
end

