-- ==== Sys2Proof/Machine/Launch.lean ====
section
/-!
DEFINITION. The launch unit: launch records and their checks (R32 to R42, R393), launch windows (R385), bunting (R49), placement and
reservation (R55 to R57), the start of a gang (R40, R43) with its generators (R389, R390), and dispatch (R60).
-/
namespace Sys2Proof.Machine

/-! ### The launch record (Tables 3-1 to 3-3) -/

/-- A level descriptor (Table 3-2); domains and scopes as their codes. -/
structure Level where
  ext : Nat
  dom : Nat
  queue : Bool
  scope : Nat
deriving DecidableEq, Repr

def rcdVer (r : BitVec 1024) : BitVec 8 := r.extractLsb' 0 8
def rcdCtx (r : BitVec 1024) : BitVec 12 := r.extractLsb' 8 12
def rcdPrio (r : BitVec 1024) : Nat := (r.extractLsb' 20 3).toNat
def rcdClass (r : BitVec 1024) : Nat := (r.extractLsb' 23 2).toNat
def rcdNlvl (r : BitVec 1024) : Nat := (r.extractLsb' 25 3).toNat + 1
def rcdRngm (r : BitVec 1024) : BitVec 2 := r.extractLsb' 28 2
def rcdCeil (r : BitVec 1024) : Nat := (r.extractLsb' 30 3).toNat
def rcdTg (r : BitVec 1024) : Nat := (r.extractLsb' 33 4).toNat + 1
def rcdCode (r : BitVec 1024) : BitVec 57 := r.extractLsb' 64 57
def rcdArgs (r : BitVec 1024) : Nat := (r.extractLsb' 128 57).toNat
def rcdBunt (r : BitVec 1024) : Nat := (r.extractLsb' 192 57).toNat
def rcdCkpt (r : BitVec 1024) : Nat := (r.extractLsb' 256 57).toNat
def rcdFtab (r : BitVec 1024) : Nat := (r.extractLsb' 320 57).toNat
def rcdLvl (r : BitVec 1024) (j : Nat) : BitVec 32 := r.extractLsb' (384 + 32 * j) 32
def rcdWin (r : BitVec 1024) (w : Nat) : BitVec 96 := r.extractLsb' (640 + 96 * w) 96

def levelOf (d : BitVec 32) : Level := ⟨(d.extractLsb' 0 20).toNat + 1, (d.extractLsb' 20 2).toNat, d.getLsbD 22, (d.extractLsb' 23 2).toNat⟩
/-- The levels of a record, outermost first. -/
def rcdLevels (r : BitVec 1024) : List Level := (List.range (rcdNlvl r)).map fun j => levelOf (rcdLvl r j)

/-- The product of some levels' extents. -/
def extents (l : List Level) : Nat := l.foldl (fun n x => n * x.ext) 1
/-- The size of a gang on a device, and the gangs of a task there (R36). -/
def gangSize (ls : List Level) : Nat := extents (ls.filter fun l => !l.queue && l.dom != 3)
def gangCount (ls : List Level) : Nat := extents (ls.filter fun l => l.queue && l.dom != 3)

/-- The index at each level of a member of a gang: QUEUE indices count gangs, SPREAD indices members, the innermost fastest (R33, R36). -/
def indices (ls : List Level) (fab gang member : Nat) : List Nat :=
  (ls.reverse.foldl (fun (acc, g, m) l =>
    if l.dom = 3 then (fab :: acc, g, m)
    else if l.queue then (g % l.ext :: acc, g / l.ext, m)
    else (m % l.ext :: acc, g, m / l.ext)) (([] : List Nat), gang, member)).1
/-- The flat leaf index, innermost level fastest (R43). -/
def flatIndex (ls : List Level) (ix : List Nat) : Nat := (List.zip ls ix).foldl (fun n (l, i) => n * l.ext + i) 0

def scopeOf (n : Nat) : Scope := if n = 0 then .cluster else if n = 1 then .die else if n = 2 then .device else .fabric

/-- Runs of a shard of level j (R33). -/
def shardRuns (ls : List Level) (j : Nat) : Nat := extents (ls.drop (j + 1))
/-- Every run of the shard of level j that a leaf belongs to has ended (R40). -/
def shardDone (ls : List Level) (done : SMap Bool) (leaf j : Nat) : Bool :=
  (done.filter fun (i, _) => i / shardRuns ls j == leaf / shardRuns ls j).length == shardRuns ls j

/-- The scope of a run's start acquire: the widest of its leaf level and of every level whose shard begins with it (R40). -/
def startScope (ls : List Level) (ix : List Nat) : Scope :=
  scopeOf ((List.range ls.length).foldl (fun w j =>
    if (ix.drop (j + 1)).all (· == 0) then Nat.max w ((ls.map (·.scope)).getD j 0) else w) 0)

/-! ### Checks (R35 to R39) -/

/-- Reserved fields zero and no reserved code (R38). -/
def rcdClean (r : BitVec 1024) : Bool :=
  rcdVer r == 1#8 && r.extractLsb' 37 27 == 0#27 && rcdClass r != 3 && rcdRngm r != 3#2 &&
    ([121, 185, 249, 313, 377].all fun b => r.extractLsb' b 7 == 0#7) && (List.range 8).all fun j => (rcdLvl r j).extractLsb' 25 7 == 0#7

def rcdAligned (r : BitVec 1024) : Bool :=
  (rcdCode r).toNat % 64 == 0 && rcdArgs r % 64 == 0 && rcdBunt r % 8 == 0 && rcdCkpt r % 4096 == 0 && rcdFtab r % 64 == 0

/-- Levels of a kind never widen inwards. -/
def narrows (f : Level → Nat) : List Level → Bool
  | a :: b :: r => decide (f b ≤ f a) && narrows f (b :: r)
  | _ => true

/-- R35. -/
def levelsOk (r : BitVec 1024) : Bool :=
  let ls := rcdLevels r
  let inner := ls.filter fun l => l.dom != 3
  (List.range 8).all (fun j => decide (j < rcdNlvl r) || rcdLvl r j == 0#32) && narrows Level.dom ls && narrows Level.scope ls &&
    (ls.drop 1).all (fun l => l.dom != 3) && ls.all (fun l => l.dom != 3 || (!l.queue && decide (l.ext ≤ 256))) &&
    (inner.dropWhile (·.queue)).all (fun l => !l.queue) && ls.all fun l => l.queue || l.dom != 0 || l.ext == 1

/-- A cluster that is in service and that no spare-map entry bars (R36, R366). -/
def State.available (s : State) (c : Nat) : Bool :=
  (s.cl c).inService && (List.range 256).all fun i => !(sget 0#32 (256 * c + i) s.spare).getLsbD 31

/-- Every DIE-domain SPREAD level fits one die with the levels inside it (R36). -/
def dieFits (m : Nat) : List Level → Bool
  | [] => true
  | l :: r => (l.dom != 1 || l.queue || decide (extents (l :: r) ≤ m)) && dieFits m r

/-- R36: a gang fits the available clusters of the device and of a die. -/
def State.gangFits (s : State) (ls : List Level) : Bool :=
  let av := (List.range 16).filter s.available
  let die := (List.range 4).foldl (fun m d => Nat.max m (av.filter fun c => c / 4 == d).length) 0
  decide (gangSize ls ≤ av.length) && dieFits die ls

/-- Every window lies within the levels, or is all zero (Table 3-3). -/
def windowsOk (r : BitVec 1024) : Bool :=
  (List.range 4).all fun w =>
    let v := rcdWin r w
    if v.getLsbD 95 then decide ((v.extractLsb' 92 3).toNat < rcdNlvl r) else v == 0#96

/-- The peer list of a FABRIC level, where it is as R42 demands. -/
def State.peerList (s : State) (r : BitVec 1024) : Option (List (BitVec 12)) × State :=
  match rcdLevels r with
  | l :: _ =>
    if l.dom ≠ 3 then (some [], s)
    else match s.hRead (rcdCtx r) (rcdArgs r) (2 * l.ext) with
      | (none, s) => (none, s)
      | (some bs, s) =>
        let es := (chunks 2 bs.length bs).map leNat
        let ids := es.map (BitVec.ofNat 12)
        (if es.all (fun e => decide (e < 4096)) && ids.contains Config.deviceId && ids.eraseDups.length == ids.length then some ids else none, s)
  | [] => (some [], s)

/-- The way a record reaches the launch unit (R39, R42, R152, R393). -/
inductive SubmitBy where
  | window (w : BitVec 4) (tag : BitVec 32)
  | mailbox
  | lnch (c : Nat)
  | peer (dev ctx : BitVec 12) (pos : Nat)
deriving DecidableEq, Repr

/-- Gangs of a task still to be dispatched, or to be dispatched again (R55). -/
def Task.pending (t : Task) : Bool := decide (t.nextGang < t.total) || t.gangs.any fun g => g.st != .running && !g.saving
/-- Records in a queue (R55). -/
def State.queued (s : State) (q : Nat) : Nat := (s.tasks.filter fun t => t.queue == q && t.stop.isNone && t.pending).length

/-- Accepted tasks of a window with no consumed completion word (R385). -/
def State.ringUse (s : State) (w : BitVec 4) : Nat :=
  let x := s.wins.getD w.toNat LaunchWin.reset
  (s.tasks.filter fun t => match t.src with | .window v _ => v == w | _ => false).length + (x.ctail - x.chead).toNat

/-- The status of a record: the lowest code that applies (Table 3-4). -/
def State.recordCode (s : State) (r : BitVec 1024) (by' : SubmitBy) : Nat × State :=
  let ls := rcdLevels r
  let ctx := match by' with | .peer _ c _ => c | _ => rcdCtx r
  let otherCtx : Bool := match by' with
    | .window w _ => (s.wins.getD w.toNat LaunchWin.reset).bound != some (rcdCtx r)
    | .lnch c => (s.cl c).ctx != rcdCtx r
    | _ => false
  let high : Bool := match by' with
    | .window _ _ => rcdPrio r == 7 || rcdCeil r == 7
    | .lnch c => rcdPrio r == 7 || rcdCeil r == 7 || decide (((s.cl c).run.elim 0 fun q => q.prio.toNat) < rcdPrio r)
    | _ => false
  let ckpt := rcdClass r == 1 || rcdRngm r == 1#2 || rcdRngm r == 2#2
  let tests : List (Bool × Nat) := [
    (!s.killing.isEmpty || !s.ready || s.hand.isSome || s.failed, 1),
    (decide (256 ≤ s.queued (rcdPrio r)), 2), (!rcdClean r, 3), (otherCtx || !(s.descOf ctx).getLsbD 63, 4), (high, 5), (!rcdAligned r, 6),
    (!levelsOk r, 7), (!s.gangFits ls, 8), (gangSize ls % rcdTg r != 0, 9), (!windowsOk r, 10), (rcdCkpt r == 0 && ckpt, 11)]
  match tests.find? (·.1) with
  | some (_, n) => (n, s)
  | none =>
    match by' with
    | .peer _ _ _ => (0, s)
    | _ =>
      match s.peerList r with
      | (none, s) => (12, s)
      | (some _, s) => (match by' with | .window w _ => if 63 < s.ringUse w + 1 then 13 else 0 | _ => 0, s)

/-- Queue an accepted record; its submitter forwards it to the other devices of a FABRIC level (R42). Where no port takes it there, those devices have
refused it (R382, R383; log entry 64). -/
def State.accept (s : State) (r : BitVec 1024) (by' : SubmitBy) : State :=
  let (ids, s) := match by' with | .peer _ _ _ => (some [], s) | _ => s.peerList r
  let ids := ids.getD []
  let ls := rcdLevels r
  let t : Task := {
    id := s.nextTask, rcd := r, src := (match by' with | .window w tag => .window w tag | .mailbox => .mailbox | .lnch _ => .lnch | .peer d _ _ => .forwarded d)
    ctx := (match by' with | .peer _ c _ => c | _ => rcdCtx r), fabricPos := (match by' with | .peer _ _ p => p | _ => ids.idxOf Config.deviceId)
    queue := rcdPrio r, arrival := (match by' with | .window w _ => (s.wins.getD w.toNat LaunchWin.reset).doorSeq | _ => s.nextTask)
    waited := (match by' with | .window w _ => (s.wins.getD w.toNat LaunchWin.reset).doorCt | _ => s.ct)
    born := (match by' with | .window w _ => (s.wins.getD w.toNat LaunchWin.reset).doorSeq | _ => s.nextTask), nextGang := 0, total := gangCount ls, gangs := [], dieHome := [], clHome := []
    returning := false, stop := none, reread := 0, done := [], bad := false }
  let others := ids.zipIdx.filter fun (d, _) => d != Config.deviceId
  let s := { s with tasks := s.tasks ++ [t], nextTask := s.nextTask + 1 }
  if others.isEmpty then s
  else match s.portLost (.peer 0 0) with
    | (true, s) => s.stopTask t.id 17
    | (false, s) => { s with outbox := s.outbox ++ others.map fun (d, i) => OutMsg.forward d r i }

/-- Check a record and queue it where it is accepted. -/
def State.submit (s : State) (r : BitVec 1024) (by' : SubmitBy) : Nat × State :=
  match s.recordCode r by' with
  | (0, s) => (0, s.accept r by')
  | (n, s) => (n, s)

/-! ### Launch windows and the mailbox (R385, R393) -/

def State.onWin (s : State) (w : BitVec 4) (f : LaunchWin → LaunchWin) : State := { s with wins := s.wins.modify w.toNat f }

/-- A DOOR write of a bound window with BUSY clear submits its buffer; the unit takes it up in its next turn, and the record has arrived in this
cycle (R44, R385). -/
def execHostLaunchDoorbell (w : BitVec 4) (tag : BitVec 32) (s : State) : Res :=
  s.viaHost fun s => .next { s.onWin w fun x => if x.bound.isNone || x.busy then x
    else { x with busy := true, tag := tag, substTag := tag, code := 0#8, doorCt := s.ct, doorSeq := s.nextTask } with nextTask := s.nextTask + 1 }

def execCompletionHeadWrite (w : BitVec 4) (v : BitVec 64) (s : State) : Res :=
  s.viaHost fun s => .next (s.onWin w fun x => if x.bound.isNone then x else { x with chead := v.setWidth 6 })

def execLaunchWindowBind (w : BitVec 4) (bound : Bool) (ctx : BitVec 12) (s : State) : Res :=
  s.viaHost fun s => .next (s.onWin w fun x => { x with bound := if bound then some ctx else none })

/-- The supervisor writes a record to the management mailbox (R393). -/
def execSupervisorRecord (rcd : BitVec 1024) (s : State) : Res :=
  s.viaHost fun s =>
    let (n, s) := s.submit rcd .mailbox
    .next { s with outbox := s.outbox ++ [.mailbox n] }

/-- The supervisor's binding of a sender's CTXID. How it makes one is its own affair, so where none is known a free choice says whether one stands,
and to which context; it then stays (R42; log entry 67). -/
def State.bindFab (s : State) (sender ctx : BitVec 12) : State :=
  if s.fabBind.any fun (d, c, _) => d == sender && c == ctx then s
  else
    let (r, s) := s.free
    if r % 2 = 0 then s else { s with fabBind := s.fabBind ++ [(sender, ctx, BitVec.ofNat 12 (r / 2))] }

/-- The status of a record whose sender's CTXID is bound to none here: BADCTX, or a lower code that applies too (Table 3-4). -/
def State.unboundCode (s : State) (r : BitVec 1024) : Nat :=
  if !s.killing.isEmpty || !s.ready || s.hand.isSome || s.failed then 1 else if 256 ≤ s.queued (rcdPrio r) then 2 else if !rcdClean r then 3 else 4
/-- A record forwarded by another device through an open fabric port runs under the context bound to the sender's CTXID, or is refused (R42,
R383). -/
def execForwardedFabricRecord (sender : BitVec 12) (rcd : BitVec 1024) (pos : BitVec 8) (s : State) : Res :=
  if s.fabricPorts.isEmpty then .next { s with outbox := s.outbox ++ [.abort sender] } else
  let s := s.bindFab sender (rcdCtx rcd)
  .next (match s.fabBind.find? fun (d, c, _) => d == sender && c == rcdCtx rcd with
    | none => { s with outbox := s.outbox ++ [.refuse sender (s.unboundCode rcd)] }
    | some (_, _, ctx) =>
      match s.submit rcd (.peer sender ctx pos.toNat) with
      | (0, s) => s
      | (n, s) => { s with outbox := s.outbox ++ [.refuse sender n] })

/-- Another device refused its instance of a task (R42). -/
def execForwardedRecordRefusal (task : Nat) (s : State) : Res := .next (s.stopTask task 17)

/-- The records of busy windows are checked in the order of their DOOR writes, and SUBST written. -/
def State.doorbells (s : State) : State :=
  (sortBy (fun w => (s.wins.getD w LaunchWin.reset).doorSeq) (List.range 16)).foldl (fun s w =>
    let x := s.wins.getD w LaunchWin.reset
    if x.busy then
      let w := BitVec.ofNat 4 w
      let (n, s) := s.submit x.rcd (.window w x.tag)
      s.onWin w fun x => { x with busy := false, code := BitVec.ofNat 8 n }
    else s) s

/-! ### Bunting windows (R49) -/

/-- The bits a gang's windows watch: the VA of their word and the bit in it. -/
def windowBits (r : BitVec 1024) (fab gang : Nat) : List (Nat × Nat) :=
  let ls := rcdLevels r
  ((List.range 4).flatMap fun w =>
    let v := rcdWin r w
    if !v.getLsbD 95 then []
    else (List.range (gangSize ls)).flatMap fun m =>
      let i := (indices ls fab gang m).getD (v.extractLsb' 92 3).toNat 0
      (List.range ((v.extractLsb' 86 6).toNat + 1)).map fun j =>
        let b := (v.extractLsb' 54 20).toNat + i * (v.extractLsb' 74 12).toNat + j
        (8 * (v.extractLsb' 0 54).toNat + 8 * (b / 64), b % 64)).eraseDups

/-- A page of a context is homed off the device. -/
def State.offDevice (s : State) (ctx : BitVec 12) (va : Nat) : Bool :=
  match (s.hXlate ctx va .read).1 with | some (.peer _ _) | some (.host _) => true | _ => false
/-- An acquire of the launch unit, on every die, as the run that it dispatches may start on any (R49). -/
def State.acquireAll (s : State) (sc : Scope) : State := (List.range 4).foldl (fun s d => s.dropPeer d sc) s

/-- Read a gang's windows with an acquire, at device scope, or at fabric scope where the bitmap is homed off the device: whether every bit is set, or
none where a translation fails (R49). -/
def State.windowsSet (s : State) (t : Task) (gang : Nat) : Option Bool × State :=
  let bits := windowBits t.rcd t.fabricPos gang
  let s := if bits.isEmpty then s else s.acquireAll (if bits.any fun (va, _) => s.offDevice t.ctx va then .fabric else .device)
  ((bits.map (·.1)).eraseDups).foldl (fun (ok, s) va =>
    match ok, s.hWord t.ctx va with
    | none, _ => (none, s)
    | _, (none, s) => (none, s)
    | some b, (some w, s) => (some (b && (bits.filter fun x => x.1 == va).all fun x => w.getLsbD x.2), s)) (some true, s)

/-- The hold limit of a context (R305, Table 3-5). -/
def holdmaxOf (desc : BitVec 64) : Nat :=
  let n := (desc.extractLsb' 0 21).toNat
  if n = 0 then 2 ^ 32 else 4096 * Nat.max n 16

/-! ### Gangs -/

def Task.putGang (t : Task) (g : Gang) : Task :=
  { t with gangs := if t.gangs.any fun x => x.idx == g.idx then t.gangs.map fun x => if x.idx = g.idx then g else x else t.gangs ++ [g] }
def State.putGang (s : State) (t : Task) (g : Gang) : State := s.onTask t.id fun t => t.putGang g

/-- The gang a task reaches next in order: one that waits to start or resume, else the next not yet reached (R52, R58). -/
def Task.candidate (t : Task) : Option Gang :=
  match (sortBy Gang.idx (t.gangs.filter fun g => g.st != .running && !g.saving && (t.stop.isNone || !g.saved.isEmpty))).head? with
  | some g => some g
  | none => if t.stop.isNone ∧ t.nextGang < t.total then some ⟨t.nextGang, .queued, [], 0, 0, [], false⟩ else none

/-! ### Placement (R34, R56) -/

/-- Members of a gang that are to be placed: all, or those whose runs were saved. -/
def Gang.toPlace (g : Gang) (ls : List Level) : List Nat :=
  if g.saved.isEmpty then List.range (gangSize ls) else g.saved.filterMap fun x => x.cluster.run.map (·.member)

/-- The levels from the outermost one of a domain or narrower on. -/
def fromDom (d : Nat) (ls : List Level) : List Level := ls.dropWhile fun l => decide (d < l.dom)

/-- The instance of the outermost level of a domain or narrower, where that level is QUEUE: its number among its like (R34). -/
def homeKey (d : Nat) (ls : List Level) (gang : Nat) : Option Nat :=
  match fromDom d ls with
  | l :: r => if l.queue then some (gang / gangCount (l :: r)) else none
  | [] => none

/-- Clusters in service order that a gang may use at all: those of its instance's die or cluster, once one is chosen. -/
def Task.allowed (t : Task) (ls : List Level) (gang c : Nat) : Bool :=
  (match homeKey 1 ls gang with | some i => (let h := sget 0 i t.dieHome; h == 0 || h == c / 4 + 1) | none => true) &&
    (match homeKey 0 ls gang with | some i => (let h := sget 0 i t.clHome; h == 0 || h == c + 1) | none => true)

/-- Members that must share a die: the block of each. -/
def blockSize (ls : List Level) : Nat :=
  if ls.any fun l => l.dom == 1 then extents ((fromDom 1 ls).filter fun l => !l.queue) else 1

/-- Dies by the free clusters they hold, most first, and the lowest number among equals. -/
def dieOrder (free : List Nat) : List Nat := sortBy (fun d => 16 - (free.filter fun c => c / 4 == d).length) (List.range 4)

/-- Place blocks of members on free clusters, each on the first die in order with room that leaves the blocks after it a placement (R56). -/
def placeBlocks (order : List Nat) : List (List Nat) → List Nat → Option (List (Nat × Nat))
  | [], _ => some []
  | b :: bs, free =>
    -- blocks of one size fit on the first die with room, or not at all
    let dies := order.filter fun d => decide (b.length ≤ (free.filter fun c => c / 4 == d).length)
    (if bs.all fun x => x.length == b.length then dies.take 1 else dies).findSome? fun d =>
      let mine := (free.filter fun c => c / 4 == d).take b.length
      (placeBlocks order bs (free.filter fun c => !mine.contains c)).map fun r => List.zip b mine ++ r

/-- A placement of a gang on some of the clusters: pairs of member and cluster. -/
def State.place (s : State) (t : Task) (g : Gang) (clusters : List Nat) : Option (List (Nat × Nat)) :=
  let ls := rcdLevels t.rcd
  let p := blockSize ls
  let ms := g.toPlace ls
  let blocks := ((ms.map (· / p)).eraseDups).map fun b => ms.filter fun m => m / p == b
  let free := clusters.filter fun c => s.available c && t.allowed ls g.idx c
  placeBlocks (dieOrder free) blocks free

/-- A maintenance run waits for a cluster, or is about to be asked for. -/
def State.awaited (s : State) (c : Nat) : Bool := s.maintWait.getLsbD c || s.inputs.any fun (_, i) => i == .maintenanceRun (BitVec.ofNat 4 c)
/-- Clusters with no run, which no maintenance run waits for. -/
def State.freeOnes (s : State) : List Nat :=
  (List.range 16).filter fun c => (s.cl c).run.isNone && !(s.cl c).halted && s.available c && !s.awaited c

/-- Clusters of the reservation that a gang may not take: those another task's gang of its PRIO or above holds (R57). -/
def State.barredTo (s : State) (t : Task) (c : Nat) : Bool :=
  match s.reserve with
  | none => false
  | some (id, _, m) =>
    m.getLsbD c && id != t.id && (match s.task id with | some h => decide (rcdPrio t.rcd ≤ rcdPrio h.rcd) | none => false)

def State.usable (s : State) (t : Task) : List Nat := s.freeOnes.filter fun c => !s.barredTo t c

/-! ### Generators (R389, R390) -/

/-- Units of a cluster: cores 0 to 255, and 256 for the copy engine. -/
def Cluster.unit (k : Cluster) (u : Nat) : Gen := if u < 256 then (k.core u).gen else k.egen
def Cluster.setUnit (k : Cluster) (u : Nat) (g : Gen) : Cluster := if u < 256 then k.onCore u fun x => { x with gen := g } else { k with egen := g }

/-- The log of a run's area. -/
def RunId.log (r : RunId) : Nat := r.ckpt + r.leaf * 2 ^ 29 + 2 ^ 28 + 0x8000
/-- Records a log holds at most. -/
def logMax : Nat := 4193792

/-- The key of record n, from 0, of a unit in a log; none where the log has run out. A record whose key is zero ends it. -/
def State.logKey (s : State) (ctx : BitVec 12) (desc : BitVec 64) (base unit : Nat) : Nat → Nat → Nat → Option (BitVec 256) × State
  | 0, _, _ => (none, s)
  | fuel + 1, i, n =>
    match s.hReadD ctx desc (base + 64 * i) 64 with
    | (none, s) => (none, s)
    | (some bs, s) =>
      let key := BitVec.ofNat 256 (leNat ((bs.drop 8).take 32))
      if key = 0#256 then (none, s)
      else if leNat ((bs.drop 6).take 2) = unit then (if n = 0 then (some key, s) else State.logKey s ctx desc base unit fuel (i + 1) (n - 1))
      else State.logKey s ctx desc base unit fuel (i + 1) n

/-- A unit of a cluster takes a key. -/
def State.newKey (s : State) (c unit : Nat) (g : Gen) : State := s.onCl c fun k => k.setUnit unit g
/-- The log of a cluster's run can no longer give or take keys. -/
def State.logGone (s : State) (c : Nat) : State := s.onCl c fun k => { k with run := k.run.map fun r => { r with logFlag := true } }

/-- Append a key to a run's log; a fault on the area is answered false. -/
def State.logAppend (s : State) (c : Nat) (r : RunId) (unit : Nat) (key : BitVec 256) : Bool × State :=
  if logMax ≤ r.logged then (true, s.logGone c)
  else
    let (ok, s) := s.hWriteD r.ctx r.desc (r.log + 64 * r.logged)
      (leBytes 6 ((s.cl c).dt % 2 ^ 48) ++ leBytes 2 unit ++ leBytes 32 key.toNat ++ List.replicate 24 0#8)
    (ok, s.onCl c fun k => { k with run := k.run.map fun r => { r with logged := r.logged + 1 } })

/-- A generator that reseeds: one that has used its 2^20 blocks goes on with the key that was to come, and with the draws it has taken of it; another takes
the fresh key (R389). -/
def Gen.keyNow (g : Gen) (fresh : BitVec 256) : BitVec 256 := if blockDraws ≤ g.draws then g.next else fresh
def Gen.reseed (g : Gen) (fresh coming : BitVec 256) : Gen := ⟨g.keyNow fresh, g.draws - blockDraws, g.seeds + 1, coming⟩

/-- A unit takes the keys its run's log records, of so many records at most; fresh ones where it has none left, which the run is then marked for (R390). -/
def State.replay (s : State) (c unit : Nat) (g : Gen) (r : RunId) (fresh coming : BitVec 256) (recs : Nat) : State :=
  let (now, s) := s.logKey r.ctx r.desc r.log unit recs 0 g.seeds
  let (later, s) := s.logKey r.ctx r.desc r.log unit recs 0 (g.seeds + 1)
  let s := s.newKey c unit (g.reseed (now.getD fresh) (later.getD coming))
  if now.isSome then s else s.logGone c

/-- A unit reseeds where two fresh keys are at hand, for now and for after 2^20 blocks; false where the run's area faults (R389, R390). -/
def State.reseedFrom (s : State) (c unit : Nat) (g : Gen) (fresh coming : BitVec 256) : Bool × State :=
  match (s.cl c).run with
  | none => (true, s.newKey c unit (g.reseed fresh coming))
  | some r =>
    if r.rngm = 1#2 then ((s.logAppend c r unit (g.keyNow fresh)).1, (s.logAppend c r unit (g.keyNow fresh)).2.newKey c unit (g.reseed fresh coming))
    else if r.rngm = 2#2 then
      (true, s.replay c unit g r fresh coming logMax)
    else (true, s.newKey c unit (g.reseed fresh coming))

/-- A unit of a cluster reseeds; false where the run's area faults. -/
def State.reseed (s : State) (c unit : Nat) : Bool × State :=
  State.reseedFrom { s with fresh := s.fresh + 2 } c unit ((s.cl c).unit unit) (Config.freeKey s.fresh) (Config.freeKey (s.fresh + 1))

/-- Every unit of a cluster reseeds. -/
def State.reseedAll (s : State) (c : Nat) : Bool × State :=
  (List.range 257).foldl (fun (ok, s) u => let (b, s) := s.reseed c u; (ok && b, s)) (true, s)

/-- A unit that has used 2^20 blocks reseeds; a fault on the log ends the task. -/
def execGeneratorReseed (c : BitVec 4) (unit : BitVec 9) (s : State) : Res :=
  if unit.toNat ≤ 256 then
    .next (match s.reseed c.toNat unit.toNat with
      | (true, s) => s
      | (false, s) => s.faultRun c.toNat)
  else .next s

/-! ### Run start (R40, R43) -/

/-- A core as a run finds it: the array and the memories stay where the previous run was of the same context. -/
def Core.start (x : Core) (same : Bool) (ft : List (BitVec 64)) : Core :=
  let y : Core := { Core.reset with ft := ft, retired := x.retired }
  let hurt := x.hurt.filter fun w => match w with | .cell _ | .plane _ => true | _ => false
  if same then
    { y with m := x.m, lin := x.lin, stale := x.stale, edge := x.edge, plane0 := x.plane0, plane1 := x.plane1, spm := x.spm, bst := x.bst, bad := x.bad, hurt := hurt }
  else y

/-- A cluster at DT 0 of a run. It keeps the clock and the throttle hold of its window (R386, R388). B-store page tags are cleared like the
scratchpad's (log entry 68). -/
def Cluster.start (k : Cluster) (run : RunId) (r : BitVec 1024) (ix : List Nat) (cvec : List (BitVec 20)) (ft : List (BitVec 64)) : Cluster :=
  let sregs : List Word := [BitVec.ofNat 64 (rcdArgs r), BitVec.ofNat 64 (rcdBunt r), BitVec.ofNat 64 run.leaf, BitVec.ofNat 64 run.member]
  { Cluster.reset with
    pc := rcdCode r, next := rcdCode r, s := sregs ++ List.replicate 28 0#64, holdmax := holdmaxOf run.desc
    clock := k.clock, clockAcc := k.clockAcc, throttle := k.throttle
    lvlix := (List.range 8).map fun j => BitVec.ofNat 20 (ix.getD j 0), run := some run, prevCtx := k.prevCtx, inService := k.inService, tlb := k.tlb, vc := vcMax k.vc cvec, winW := k.winW
    penUpds := k.penUpds, penAcc := k.penAcc, penVc := k.penVc, far := k.far, cores := k.cores.map fun x => x.start (k.prevCtx == some run.ctx) ft }

/-- The sidecars of the bitmap words a gang waited on join the clocks of its runs (R302). -/
def State.windowVc (s : State) (t : Task) (gang c : Nat) : State :=
  (((windowBits t.rcd t.fabricPos gang).map (·.1)).eraseDups).foldl (fun s va =>
    match s.hXlate t.ctx va .read with
    | (some t, s) => s.vcAcquire c t.loc (match t with | .peer _ _ | .host _ => .fabric | _ => .device)
    | (none, s) => s) s

/-- The initial format tables of a task: its image, or the reset table (Table 3-1). -/
def State.ftImage (s : State) (t : Task) : Option (List (BitVec 64)) × State :=
  if !(s.descOf t.ctx).getLsbD 63 then (none, s)
  else if rcdFtab t.rcd = 0 then (some resetFt, s)
  else match s.hWords t.ctx (rcdFtab t.rcd) 8 with
    | (some ws, s) => (some (ws.map ftClean), s)
    | (none, s) => (none, s)

/-- A gang about to start or resume on some clusters: for the rest of the window all run at the lowest clock among them and take the longest of their
throttle holds, so that their bundles issue in the same CT cycles (R52, R386, R388; log entry 50). -/
def State.pace (s : State) (cs : List Nat) : State :=
  let clock := (cs.map fun c => (s.cl c).clock).foldl Nat.min 1700
  let hold := (cs.map fun c => (s.cl c).throttle).foldl Nat.max 0
  let used := (cs.map fun c => s.droopUsed.getD c 0).foldl Nat.max 0
  cs.foldl (fun (s : State) c => { s with droopUsed := s.droopUsed.set c used }.onCl c fun k =>
    { k with clock := clock, throttle := hold, clockAcc := 1700 - clock }) s

/-- A task's shard is dispatched: its record goes back to the queue of its PRIO, at once where that has a slot, and to that queue's tail, as an aged one
goes to its new queue's (R55; log entry 84). -/
def State.dispatched (s : State) (t : Task) (g : Gang) (pl : List (Nat × Nat)) : State :=
  let ls := rcdLevels t.rcd
  let p := rcdPrio t.rcd
  let room := t.queue == p || decide (s.queued p < 256)
  let c0 := (pl.map (·.2)).headD 0
  s.onTask t.id fun t =>
    let t := t.putGang { g with st := .running, clusters := pl.map (·.2), startCt := s.ct, saved := [] }
    { t with nextGang := Nat.max t.nextGang (g.idx + 1), waited := s.ct, queue := if room then p else t.queue
             arrival := if room ∧ t.queue ≠ p then s.nextTask else t.arrival, returning := !room
             dieHome := (match homeKey 1 ls g.idx with | some i => sput 0 i (c0 / 4 + 1) t.dieHome | none => t.dieHome)
             clHome := (match homeKey 0 ls g.idx with | some i => sput 0 i (c0 + 1) t.clHome | none => t.clHome) }

/-- A gang starts: every member at DT 0 in this CT cycle, or the task ends where its start faults (R40, R43, R52, R305). -/
def State.startGang (s : State) (t : Task) (g : Gang) (pl : List (Nat × Nat)) : State :=
  match s.ftImage t with
  | (none, s) => s.stopTask t.id 17
  | (some ft, s) =>
    let ls := rcdLevels t.rcd
    let s := s.dispatched t g pl
    let s := ({ s with nextTask := s.nextTask + 1 } : State).pace (pl.map (·.2))
    let (ok, s) := pl.foldl (fun (ok, s) (m, c) =>
      let ix := indices ls t.fabricPos g.idx m
      let run : RunId := {
        task := t.id, gang := g.idx, member := m, leaf := flatIndex ls ix, ctx := t.ctx, desc := s.descOf t.ctx, prio := BitVec.ofNat 3 (rcdPrio t.rcd)
        rngm := rcdRngm t.rcd, ckpt := rcdCkpt t.rcd, tgSize := rcdTg t.rcd, startCt := s.ct, priv := false, logged := 0, logFlag := false }
      let s := s.onTask t.id fun t => { t with done := sput false run.leaf false t.done }
      let s := s.onCl c fun k => k.start run t.rcd ix (sget (List.replicate 16 0#20) t.ctx.toNat s.cvec) ft
      let s := (s.windowVc t g.idx c).acquire c (startScope ls ix)
      let (b, s) := s.reseedAll c
      (ok && b, s.lineIn c ((rcdCode t.rcd).toNat / 64))) (true, s)
    if ok then s else (s.endGang t.id g.idx).stopTask t.id 17

/-! ### Reservation and pre-emption (R57, R58) -/

/-- A record returns to the head of the queue of its PRIO (R58), also where that queue is full (log entry 69): every other place, and those still to be
given, move up by one. Of several victims of one queue the one evicted last stands first (log entry 84). -/
def State.requeue (s : State) (id : Nat) : State :=
  { s with
    nextTask := s.nextTask + 1, wins := s.wins.map fun w => { w with doorSeq := w.doorSeq + 1 }
    tasks := s.tasks.map fun t =>
      if t.id = id then { t with queue := rcdPrio t.rcd, arrival := 0, returning := false, waited := s.ct } else { t with arrival := t.arrival + 1 } }

/-- Running gangs a claimant may pre-empt: of lower PRIO and of a class other than NONE, or of any class for priority 7; in ascending PRIO and,
within one, youngest start first; those that would not help are left out. -/
def State.victims (s : State) (t : Task) (g : Gang) : List (Task × Gang) :=
  let ls := rcdLevels t.rcd
  let ok (c : Nat) : Bool := s.available c && t.allowed ls g.idx c &&
    decide (Nat.min (blockSize ls) (g.toPlace ls).length ≤ ((List.range 16).filter fun d => d / 4 == c / 4 && s.available d).length)
  let all := s.tasks.flatMap fun v => (v.gangs.filter fun h => h.st == .running && decide (rcdPrio v.rcd < rcdPrio t.rcd) &&
    (rcdClass v.rcd != 0 || rcdPrio t.rcd == 7) && h.clusters.any ok).map fun h => (v, h)
  sortBy (fun (v, h) => rcdPrio v.rcd * 2 ^ 128 + (2 ^ 127 - h.startCt)) all

/-- The first victims, in order, whose clusters allow a placement with those at hand, less the ones that the placement spares. -/
def State.choose (s : State) (t : Task) (g : Gang) (hand : List Nat) : List (Task × Gang) → List (Task × Gang) → Option (List (Task × Gang))
  | _, [] => none
  | taken, v :: rest =>
    let taken := taken ++ [v]
    match s.place t g ((List.range 16).filter fun c => hand.contains c || taken.any fun (_, h) => h.clusters.contains c) with
    | some pl => some (taken.filter fun (_, h) => h.clusters.any fun c => pl.any fun (_, d) => d == c)
    | none => State.choose s t g hand taken rest

/-- A victim is frozen, killed and requeued, or killed (R58). -/
def State.evict (s : State) (v : Task × Gang) : State :=
  let (t, g) := v
  if rcdClass t.rcd = 1 then
    let s := (s.putGang t { g with st := .frozen, saving := true }).requeue t.id
    g.clusters.foldl (fun s c => s.onCl c fun k => { k with preReq := true }) s
  else if rcdClass t.rcd = 2 then
    let s := s.endGang t.id g.idx
    (s.putGang t { g with st := .queued, clusters := [] }).requeue t.id
  else (s.endGang t.id g.idx).stopTask t.id 18

def maskOfList (l : List Nat) : BitVec 16 := BitVec.ofNat 16 (l.eraseDups.map (2 ^ ·)).sum

/-- A gang may hold the reservation: it holds it, no gang does, or the holder is of lower PRIO, or, having chosen no victims, of the same and
younger (R57). -/
def State.outranks (s : State) (t : Task) : Bool :=
  match s.reserve with
  | none => true
  | some (id, _, _) => id == t.id || match s.task id with
    | some h => decide (rcdPrio h.rcd < rcdPrio t.rcd) || (!s.reservePre && decide (rcdPrio h.rcd = rcdPrio t.rcd ∧ t.born < h.born))
    | none => true

/-- Clusters that victims chosen before are about to free. -/
def State.freeing (s : State) : List Nat := s.tasks.flatMap fun v => v.gangs.flatMap fun h => if h.saving then h.clusters else []

/-- A gang that cannot be placed reserves every free cluster, where it may hold the reservation. It pre-empts where the clusters it may take, with
those that earlier victims are about to free, do not allow its placement, and holds the reservation from then on (R57, R58). -/
def State.claim (s : State) (t : Task) (g : Gang) : State :=
  let s := s.putGang t { g with st := .reserving }
  let mine := s.outranks t
  let hand := (if mine then s.freeOnes else s.usable t) ++ s.freeing
  let holds : Bool := match s.reserve with | some (id, i, _) => id == t.id && i == g.idx | none => false
  let held (s : State) (pre : Bool) : State := { s with reserve := some (t.id, g.idx, maskOfList s.freeOnes), reservePre := pre }
  let s := if mine then held s (holds && s.reservePre) else s
  if (s.place t g hand).isSome then s
  else match s.choose t g hand [] (s.victims t g) with
    | some vs => vs.foldl State.evict (held s true)
    | none => s

/-! ### Dispatch (R55, R60) -/

/-- A reservation lapses when its gang no longer waits for clusters. -/
def State.lapse (s : State) : State :=
  match s.reserve with
  | none => s
  | some (id, g, _) =>
    let waits : Bool := match s.task id with
      | some t => t.gangs.any fun h => h.idx == g && h.st != .running && (t.stop.isNone || !h.saved.isEmpty)
      | none => false
    if waits then s else { s with reserve := none, reservePre := false }

/-- Place a gang that is ready, and start or resume it; whether it was dispatched. A saved gang is resumed by a turn of its own. -/
def State.tryPlace (s : State) (t : Task) (g : Gang) : Bool × State :=
  match s.place t g (s.usable t) with
  | none => (false, s.claim t g)
  | some pl =>
    if !g.saved.isEmpty then (true, { s with agenda := .event (.gangResume t.id g.idx) :: s.agenda })
    else
      let lost : Bool := match s.reserve with | some (id, i, m) => (id == t.id && i == g.idx) || pl.any fun (_, c) => m.getLsbD c | none => false
      (true, ({ s with reserve := if lost then none else s.reserve } : State).startGang t g pl)

/-- Consider the gang a task has reached (Table 3-6). HOLDMAX counts from the decision that first finds its windows incomplete, whether or not
clusters are free then: the model's reading of 'dispatchable in every other respect' (R49; log entry 84). -/
def State.consider (s : State) (id : Nat) : Bool × State :=
  match s.task id with
  | none => (false, s)
  | some t =>
    match t.candidate with
    | none => (false, s)
    | some g =>
      if t.bad ∨ (g.saved.isEmpty ∧ !s.gangFits (rcdLevels t.rcd)) then (false, s.stopTask id 17)
      else match g.st with
        | .queued =>
          match s.windowsSet t g.idx with
          | (none, s) => (false, s.stopTask id 17)
          | (some true, s) => s.tryPlace t g
          | (some false, s) =>
            let (n, s) := s.freeIn 1 1024
            (false, s.onTask id fun t => { t.putGang { g with st := .blocked, blockedAt := s.ct } with reread := s.ct + n })
        | .blocked => (false, s)
        | _ => s.tryPlace t g

/-- The order records are considered in: queue priority, then arrival (R55). -/
def State.dispatchOrder (s : State) : List Nat := (sortBy (fun t => (7 - t.queue) * 2 ^ 64 + t.arrival) s.tasks).map (·.id)

/-- A turn of the launch unit: doorbells are answered, and one dispatch decision is taken. -/
def execLaunchDispatch (s : State) : Res :=
  let s := s.doorbells.lapse
  .next (if s.failed then s else (s.dispatchOrder.foldl (fun (done, s) id => if done then (done, s) else s.consider id) (false, s)).2)

/-- The windows of a blocked gang are read again (R49). -/
def execBuntingWindowReread (task : Nat) (s : State) : Res :=
  .next (match (s.task task).bind fun t => t.candidate.map fun g => (t, g) with
    | none => s
    | some (t, g) =>
      if g.st ≠ .blocked then s
      else match s.windowsSet t g.idx with
        | (none, s) => s.stopTask task 17
        | (some true, s) => s.putGang t { g with st := .ready }
        | (some false, s) => (let (n, s) := s.freeIn 1 1024; s.onTask task fun t => { t with reread := s.ct + n }))

/-- Windows still incomplete after HOLDMAX end the dispatch of the task (R49). -/
def execWindowTimeout (task : Nat) (s : State) : Res :=
  .next (match (s.task task).bind fun t => t.candidate.map fun g => (t, g) with
    | none => s
    | some (t, g) => if g.st = .blocked ∧ holdmaxOf (s.descOf t.ctx) < s.ct - g.blockedAt then s.stopTask task 19 else s)

/-- An AGEQ boundary: a record that waited a period rises a queue, and one bound for its PRIO comes down one, where there is a slot (R55). -/
def State.age (s : State) (id : Nat) : State :=
  match s.task id with
  | none => s
  | some t =>
    let p := rcdPrio t.rcd
    let move (s : State) (q : Nat) : State :=
      if s.queued q < 256 then
        { s.onTask id fun t => { t with queue := q, arrival := s.nextTask, returning := t.returning && q != p } with nextTask := s.nextTask + 1 }
      else s
    if t.stop.isSome || !t.pending then s
    else if t.returning then move s (t.queue - 1)
    else if s.ageq.toNat * 1700 ≤ s.ct - t.waited ∧ t.queue < Nat.max p (rcdCeil t.rcd) then move s (t.queue + 1)
    else s
def execAgeingPeriod (s : State) : Res := .next (s.dispatchOrder.foldl State.age s)

end Sys2Proof.Machine
end

