-- ==== Sys2Proof/Machine/Area.lean ====
section
/-!
DEFINITION. The checkpoint area of a run (R355, Tables 23-3 and 23-4): the bytes of each item, and the state that edited bytes stand for (R356).
-/
namespace Sys2Proof.Machine

/-! ### The checkpoint area (R355, Tables 23-3, 23-4; log entry 45) -/

/-- Codes of the kinds of image entries (Table 23-3). -/
def PKind.num : PKind → Nat
  | .v => 0 | .p => 1 | .d => 2 | .dwords => 3 | .a => 4 | .load => 5 | .store => 6 | .rep => 7

/-- The word of an instruction as a number. -/
def wordOf (i : Instr) : Nat :=
  match encode i with
  | some (.s w) | some (.a w) | some (.l w) | some (.d w) => w.toNat
  | some (.v w) => w.toNat
  | some (.m w) | some (.x w) | some (.bz w) => w.toNat
  | none => 0

/-- VAL of an entry: its slice, or for REPEAT the V word. -/
def PEntry.imageVal (e : PEntry) : Nat :=
  match e.rep with
  | some r => wordOf r.instr
  | none => e.val.toNat

/-- The scratchpad address of an entry's slice: where its lane 0 lies, read off the first lane it moves, whether or not lane 0 itself is masked. -/
def PEntry.baseAddr (e : PEntry) : Nat := match e.lanes.head? with | some (j, a) => (a + 2 ^ 26 - j) % 2 ^ 26 | none => 0

/-- An entry's 64 bytes at a freeze point, the next cycle of its time being now (Table 23-3). -/
def PEntry.image (e : PEntry) (now : Nat) : List Byte :=
  let ord := BitVec.ofInt 32 (((e.issue : Int) + 1 - now) * 8 + e.slot.num)
  leBytes 32 e.imageVal ++ leBytes 4 e.mask.toNat ++ leBytes 4 e.baseAddr ++ leBytes 1 e.kind.num ++ leBytes 1 e.dest ++
    leBytes 1 e.part ++ leBytes 1 e.slot.num ++ leBytes 2 (e.land + 1 - now) ++
    leBytes 2 (match e.kind with | .load => e.perf + 1 - now | .rep => e.perf | _ => 0) ++ leBytes 4 ord.toNat ++ leBytes 1 e.flg.toNat ++ List.replicate 11 0#8

/-- f32 codes as bytes, and numbers as words of 8 bytes. -/
def f32Bytes (l : List (BitVec 32)) : List Byte := l.flatMap fun v => leBytes 4 v.toNat
def words8 (l : List Nat) : List Byte := l.flatMap (leBytes 8)

/-- The code of a plane's format: that of Table 5-1, 0xFE for H, 0xFF for none. -/
def PFmt.num : PFmt → Nat | .none => 0xFF | .had => 0xFE | .code f => f.toNat

/-- The record of a stream: M word, age and the operands read. -/
def Stream.record (m : Stream) (now : Nat) : List Byte := words8 [wordOf m.instr, now - 1 - m.ord] ++ m.opd.take 240
/-- The record of a drain on a core: M word, age, snapshot, and as flags LIN and STALE as of its issue. -/
def Drain.record (d : Drain) (core now : Nat) : List Byte :=
  let (m, lin, stale) := match d.snap.find? fun (j, _) => j == core with | some (_, v) => v | none => ([], true, false)
  words8 [wordOf d.instr, now - 1 - d.issue] ++ f32Bytes ((List.range 4225).map fun j => sget 0#32 j m) ++ leBytes 1 (lin.toNat + 2 * stale.toNat)

/-- Array records of a core: those of the time it is in, and of a run whose handler runs. -/
def Cluster.streamRecords (k : Cluster) (i : Nat) : List (List Byte) :=
  (k.core i).streams.map (fun m => m.record k.now) ++
    match k.handler with | some b => (b.streams.getD i []).map fun m => m.record k.dt | none => []
def Cluster.drainRecords (k : Cluster) (i : Nat) : List (List Byte) :=
  (k.drains.filter fun d => d.cores.getLsbD i).map (fun d => d.record i k.now) ++
    match k.handler with | some b => (b.drains.filter fun d => d.cores.getLsbD i).map fun d => d.record i k.dt | none => []

/-- The image of a run whose handler runs, as its entry captured it (R354). -/
def Cluster.banked (k : Cluster) (i : Nat) : List PEntry := match k.handler with | some b => b.pipes.getD i [] | none => []

/-- The items of a core's slot that are saved wherever their granule is dirty, as offsets and bytes; all of them where asked (Table 23-4). -/
def Core.granules (x : Core) (all : Bool) : List (Nat × List Byte) :=
  let dirty (i j : Nat) : Bool := all || x.dirtyAll || x.dirty.contains (i, j)
  let each (i n : Nat) (f : Nat → Nat × List Byte) : List (Nat × List Byte) := ((List.range n).filter (dirty i)).map f
  each 0 64 (fun p => (4096 * p, rdBytes x.spm (4096 * p) 4096)) ++
  each 1 128 (fun p => (0x40000 + 4096 * p, rdBytes x.bst (4096 * p) 4096)) ++
  each 2 4 (fun b => (0xC0000 + 0x4400 * b, f32Bytes ((List.range 4225).map fun i => sget 0#32 (4225 * b + i) x.m) ++
    leBytes 1 (x.lin.getLsbD b).toNat ++ leBytes 1 (x.stale.getLsbD b).toNat)) ++
  each 3 2 (fun i =>
    let p := if i = 0 then x.plane0 else x.plane1
    (0xD1000 + 0x8400 * i, f32Bytes ((List.range 8192).map fun j => code32 (p.get (j % 64) (j / 64))) ++
      f32Bytes ((List.range 128).map fun j => sget 0#32 j p.bsum) ++ leBytes 1 p.fmt.num)) ++
  each 4 64 (fun r => (0xF8800 + 128 * r, leBytes 128 (x.vreg r).toNat)) ++
  each 5 8 (fun r => (0xFA800 + 272 * r, leBytes 256 (x.dPts.getD r 0#2048).toNat ++ leBytes 16 (x.dWords.getD r 0#128).toNat)) ++
  each 6 16 (fun r => (0xFB100 + 16 * r, leBytes 16 (x.preg r).toNat)) ++
  each 7 4 fun b => (0xFB300 + 512 * b, f32Bytes ((List.range 128).map fun j => code32 (x.edgeOf b j)))

/-- The items of a core's slot that every save writes. -/
def Cluster.coreAlways (k : Cluster) (i : Nat) : List (Nat × List Byte) :=
  let x := k.core i
  (k.drainRecords i).zipIdx.map (fun (bs, j) => (0xE1800 + 0x4400 * j, bs)) ++
  (k.streamRecords i).zipIdx.map (fun (bs, j) => (0xF2800 + 256 * j, bs)) ++
  [(0xF7000, x.pipe.flatMap fun e => e.image k.now),
   (0xFB200, f32Bytes x.a ++ words8 (x.ft.map (·.toNat)) ++ leBytes 1 (k.cmsk.getLsbD i).toNat),
   (0xFBB00, leBytes 128 x.dstat.toNat),
   (0xFBC00, x.gq.flatMap fun v => leBytes 128 v.toNat),
   (0xFF000, (List.range 64).flatMap (fun p => leBytes 2 (sget 0#16 p x.spTag).toNat) ++ (List.range 128).flatMap (fun p => leBytes 2 (sget 0#16 p x.bstTag).toNat) ++
     words8 [x.pipe.length, x.gq.length, (k.streamRecords i).length, (k.drainRecords i).length, (k.banked i).length])] ++
  if k.handler.isSome then [(0xFC800, (k.banked i).flatMap fun e => e.image k.dt)] else []

/-- Kind and index of an S-slot result (R350). -/
def SDest.num : SDest → Nat × Nat
  | .link i => (0, i.toNat)
  | .s i => (0, i.toNat) | .b i => (1, i.toNat) | .e i => (2, i.toNat) | .lc i => (3, i) | .cmsk => (4, 0) | .rrbv => (5, 0)
  | .rrbp => (6, 0) | .gqctl => (7, 0) | .slipmax => (8, 0) | .traphnd => (9, 0) | .errinj => (10, 0)
/-- The 16-byte entries of an S-slot result: one, and for CMSK one for each 64 bits (R350). -/
def SEntry.image (e : SEntry) (now : Nat) : List Byte :=
  (List.range (if e.dest = .cmsk then 4 else 1)).flatMap fun (j : Nat) =>
    leBytes 8 (e.val.toNat / 2 ^ (64 * j)) ++ leBytes 1 e.dest.num.1 ++ leBytes 1 (e.dest.num.2 + j) ++ leBytes 2 (e.land + 1 - now) ++ List.replicate 4 0#8

/-- A loop stack of six levels, outermost first, as TC and START, with its depth before it. -/
def loopWords (l : List LoopLv) : List Nat := l.length :: (l.reverse.flatMap fun v => [v.tc.toNat, v.start.toNat]) ++ List.replicate (12 - 2 * l.length) 0
/-- What a holding access of the frozen bundle came to, where it was a fault: a mark, the cause and the bundle (R352). -/
def Cluster.outcome (k : Cluster) : List Nat := match k.holdFault with | some f => [1, f.trap.cause.toNat, f.origin.pc.toNat] | none => [0, 0, 0]

/-- DT f of the freeze point, or where the handler runs the frozen DT (R347, R354). -/
def Cluster.frozenDt (k : Cluster) : Int := if k.handler.isSome then k.dt else (k.dt : Int) - 1
/-- A buffered command: its X word, and its issue time as an offset from DT f (R353). -/
def Cluster.bufWords (k : Cluster) (c : Cmd) : List Nat := [wordOf c.instr, (BitVec.ofInt 64 ((c.time : Int) - 2 ^ 48 - k.frozenDt)).toNat]
/-- The gathers the data queues hold back: a mark, the X word, the engine's remaining indices with their number before them, and by core how many
of them it is still to receive (R353). -/
def Cluster.gatherRecord (k : Cluster) : List Byte :=
  k.active.flatMap fun a =>
    let left := (a.gather.map fun (_, vs) => vs.length).foldl max 0
    words8 [1, wordOf a.cmd.instr, left] ++ (a.popped.drop (a.popped.length - left)).flatMap (fun x => leBytes 4 x.toNat) ++
      a.gather.flatMap fun (_, vs) => leBytes 2 vs.length

/-- The handler section (R354). -/
def Cluster.handlerItem (k : Cluster) : List (Nat × List Byte) :=
  match k.handler with
  | none => []
  | some b =>
    [(0x6000, words8 [1, k.hc - 1, b.pc.toNat] ++ leBytes 32 b.cmsk.toNat ++ words8 (loopWords b.loops) ++ words8 (b.lc.map (·.toNat)) ++
      words8 [b.rrbv.toNat, b.rrbp.toNat, b.gqctl.toNat, b.simg.length] ++ b.simg.flatMap (fun e => e.image k.dt) ++
      words8 [k.trapcause.toNat, k.trappc.toNat, k.trapdt.toNat, k.trapopc.toNat, k.traphnd.toNat])]

/-- The items of the cluster section, of the tensor maps those written since the last save, or all of them (Table 23-4). -/
def Cluster.sectionItems (k : Cluster) (r : RunId) (all : Bool) : List (Nat × List Byte) :=
  [(0, words8 [1, r.ctx.toNat, r.leaf, r.member, (BitVec.ofInt 48 k.frozenDt).toNat, k.freezeCt, r.logFlag.toNat]),
   (0x1000, words8 [k.pc.toNat] ++ words8 (k.s.map (·.toNat)) ++ words8 [k.b.toNat] ++ words8 (k.e.map (·.toNat)) ++ words8 (k.lc.map (·.toNat)) ++
     words8 (loopWords k.loops) ++ words8 [k.rrbv.toNat, k.rrbp.toNat, k.gqctl.toNat, k.slipmax.toNat, k.simg.length] ++
     k.simg.flatMap (fun e => e.image k.now) ++ words8 k.outcome)] ++
  ((List.range 16).filter fun (t : Nat) => all || k.tmDirty.getLsbD t).map (fun t =>
    (0x2000 + 512 * t, words8 ((k.tmImage (BitVec.ofNat 4 t)).map (·.toNat)) ++ List.replicate 88 0#8)) ++
  [(0x4000, words8 (k.buf.flatMap k.bufWords)),
   (0x4400, words8 [k.buf.length, k.addrQ.length, (BitVec.ofInt 64 k.unclaimed).toNat] ++ k.addrQ.flatMap (fun x => leBytes 4 x.toNat) ++ k.gatherRecord),
   (0x5000, words8 (k.vc.map (·.toNat)))] ++ k.handlerItem

/-- A run's area is the checkpoint area's part of its leaf. -/
def RunId.area (r : RunId) : Nat := r.ckpt + r.leaf * 2 ^ 29
/-- The cluster section of an area follows its cores' sections. -/
def clusterPart (area : Nat) : Nat := area + 2 ^ 28

/-- The items of a frozen run's area, by address: those to be written, or all of them. -/
def Cluster.areaItems (k : Cluster) (r : RunId) (all : Bool) : List (Nat × List Byte) :=
  ((List.range 256).flatMap fun i => ((k.core i).granules all ++ k.coreAlways i).map fun (o, bs) => (r.area + i * 2 ^ 20 + o, bs)) ++
    (k.sectionItems r all).map fun (o, bs) => (clusterPart r.area + o, bs)

/-- Write a frozen run's area, translated as the run's own accesses are (R305, R353); false where it faults. -/
def State.saveArea (s : State) (c : Nat) (r : RunId) : Bool × State :=
  ((s.cl c).areaItems r false).foldl (fun (ok, s) (a, bs) => if ok then s.hWriteD r.ctx r.desc a bs else (false, s)) (true, s)

/-! ### Values by their codes -/

/-- A weight of a plane written by its code; it stands for itself, whatever scale it was decoded with. -/
def Plane.put (p : Plane) (n k : Nat) (v : Ext) : Plane :=
  { p with b := sput (.zero false) (128 * n + k) v p.b, z := p.z.filter fun (j, _) => j != 128 * n + k }

/-- A drain status record with its reserved bits zero (Table 15-6). -/
def dstatClean (v : BitVec 1024) : BitVec 1024 :=
  ofElts 32 ((List.range 19).map fun i => if i = 0 then elt 32 v 0 % 2 ^ 24 else if i = 1 then elt 32 v 1 % 2 ^ 16 else if i = 10 ∨ i = 13 then elt 32 v i % 2 else if i = 14 ∨ i = 15 then 0 else elt 32 v i)
/-- A plane's format by its code in the checkpoint area. -/
def PFmt.ofNum (n : Nat) : PFmt := if n = 0xFE then .had else if n < 11 then .code (BitVec.ofNat 4 n) else .none

/-! ### Reading an area (R356)

An item that system software has rewritten is taken as its bytes read: what Tables 15-6, 23-3, 23-4 and R350 lay out. Array records, buffered commands,
the header and the counts have no layout of the spec's own, so that an edit of one leaves the resumed state free, as a write by a program does (R355;
log entry 45). -/

/-- A number of so many bytes of an item, and the words of 4 and of 8 bytes that it holds. -/
def numAt (bs : List Byte) (o n : Nat) : Nat := leNat ((bs.drop o).take n)
def codes4 (bs : List Byte) : List (BitVec 32) := (chunks 4 bs.length bs).map fun w => BitVec.ofNat 32 (leNat w)
def codes8 (bs : List Byte) : List Word := (chunks 8 bs.length bs).map leWord

/-- An image entry that reads otherwise than it was saved; its kind, its slot and the failures it carries are not the reader's to change. -/
def PEntry.put (e : PEntry) (now : Nat) (bs : List Byte) : Option PEntry :=
  if bs == e.image now then some e
  else
    let ord := (BitVec.ofNat 32 (numAt bs 48 4)).toInt
    let flg := BitVec.ofNat 3 (numAt bs 52 1)
    let addr := numAt bs 36 4 % 2 ^ 26
    if numAt bs 40 1 ≠ e.kind.num ∨ numAt bs 43 1 ≠ e.slot.num ∨ ord % 8 ≠ e.slot.num ∨ (flg ≠ 0#3 ∧ flg ≠ e.flg) ∨ numAt bs 44 2 = 0 then none
    else
      let q : PEntry := { e with
        dest := numAt bs 41 1, part := numAt bs 42 1, mask := BitVec.ofNat 32 (numAt bs 32 4), land := now + numAt bs 44 2 - 1
        issue := (ord / 8 + now - 1).toNat, flg := flg, fail := if flg = 0#3 then none else e.fail
        perf := (match e.kind with | .load => now + numAt bs 46 2 - 1 | .rep => numAt bs 46 2 | _ => e.perf)
        addrs := if addr = e.baseAddr then e.addrs else e.addrs.map fun a => (a + addr + 2 ^ 26 - e.baseAddr) % 2 ^ 26 }
      match e.kind, e.rep with
      | .load, _ => some q
      | _, none => some { q with val := BitVec.ofNat 256 (numAt bs 0 32) }
      | _, some r =>
        match decodeWord (.v (BitVec.ofNat _ (numAt bs 0 6))) with
        | .ok (.vmov c sz rep vd va) => some { q with rep := some { r with instr := .vmov c sz rep vd va } }
        | _ => none

/-- The results of an image, each read by a function from its bytes; none where one has no meaning. -/
def putAll {α : Type} (f : α → List Byte → Option α) : List α → List (List Byte) → Option (List α)
  | a :: as, b :: bs => match f a b, putAll f as bs with | some x, some xs => some (x :: xs) | _, _ => none
  | [], [] => some []
  | _, _ => none

/-- A sequencer result that reads otherwise: its value and when it lands (R350). -/
def SEntry.put (e : SEntry) (now : Nat) (bs : List Byte) : Option SEntry :=
  let n : Nat := if e.dest = .cmsk then 4 else 1
  let val : Nat := (List.range n).foldl (fun v j => v + numAt bs (16 * j) 8 * 2 ^ (64 * j)) 0
  let q : SEntry := { e with val := BitVec.ofNat 256 val, land := now + numAt bs 10 2 - 1 }
  if numAt bs 10 2 ≠ 0 ∧ q.image now = bs then some q else none

/-- The bytes of a sequencer image, cut by its results. -/
def simgParts : List SEntry → List Byte → List (List Byte)
  | [], bs => if bs.isEmpty then [] else [bs]
  | e :: es, bs => let n := if e.dest = .cmsk then 64 else 16; bs.take n :: simgParts es (bs.drop n)

/-- A loop stack from its words; a level that reads as it was keeps the code its iterations span, another has seen its first line only (R135). -/
def loopsOf (old : List LoopLv) (ws : List Word) : List LoopLv :=
  let d := Nat.min (ws.headD 0#64).toNat 6
  ((List.range d).map fun j =>
    let start : BitVec 57 := (ws.getD (2 + 2 * j) 0#64).setWidth 57
    let tc : BitVec 32 := (ws.getD (1 + 2 * j) 0#64).setWidth 32
    match old.reverse[j]? with
    | some v => if v.start = start then { v with tc := tc } else ⟨tc, start, start.toNat / 64, false⟩
    | none => ⟨tc, start, start.toNat / 64, false⟩).reverse

/-- A core's item rewritten: the offset in its slot, and the bytes read. -/
def Core.itemPut (x : Core) (now o : Nat) (bs : List Byte) : Option Core :=
  if o < 0x40000 then some { x with spm := wrBytes x.spm o bs }
  else if o < 0xC0000 then some { x with bst := wrBytes x.bst (o - 0x40000) bs }
  else if o < 0xD1000 then
    let b := (o - 0xC0000) / 0x4400
    some { x with
      m := sputs 0#32 (4225 * b) (codes4 (bs.take 16900)) x.m
      lin := setBit x.lin (BitVec.ofNat 2 b) (numAt bs 16900 1 % 2 == 1)
      stale := setBit x.stale (BitVec.ofNat 2 b) (numAt bs 16901 1 % 2 == 1) }
  else if o < 0xE1800 then
    let pl := decide (o ≠ 0xD1000)
    let p := if pl then x.plane1 else x.plane0
    let cs := codes4 (bs.take 32768)
    let b := sputs (.zero false) 0 ((List.range 8192).map fun j => val32 (cs.getD (64 * (j % 128) + j / 128) 0#32)) []
    some (x.setPlane pl { p with
      b := b, bsum := sputs 0#32 0 (codes4 ((bs.drop 32768).take 512)) [], fmt := .ofNum (numAt bs 33280 1)
      z := p.z.filter fun (j, _) => sget (.zero false) j b == sget (.zero false) j p.b })
  else if o = 0xF7000 then
    (putAll (fun e => e.put now) x.pipe (chunks 64 bs.length bs)).map fun es => { x with pipe := es }
  else if o < 0xF8800 then none
  else if o < 0xFA800 then some { x with v := x.v.set ((o - 0xF8800) / 128) (BitVec.ofNat 1024 (leNat bs)) }
  else if o < 0xFB100 then
    let r := (o - 0xFA800) / 272
    some { x with dPts := x.dPts.set r (BitVec.ofNat 2048 (leNat (bs.take 256))), dWords := x.dWords.set r (dwClean (BitVec.ofNat 128 (leNat (bs.drop 256)))) }
  else if o < 0xFB200 then
    let r := (o - 0xFB100) / 16
    some (if r = 0 then x else { x with p := x.p.set r (BitVec.ofNat 128 (leNat bs)) })
  else if o < 0xFB300 then some { x with a := codes4 (bs.take 64), ft := (codes8 ((bs.drop 64).take 64)).map ftClean }
  else if o < 0xFBB00 then
    some { x with edge := sputs (.zero false) (128 * ((o - 0xFB300) / 512)) ((codes4 bs).map val32) x.edge }
  else if o < 0xFBC00 then some { x with dstat := dstatClean (BitVec.ofNat 1024 (leNat bs)) }
  else if o < 0xFC800 then some { x with gq := (chunks 128 bs.length bs).map fun v => BitVec.ofNat 1024 (leNat v) }
  else if o = 0xFF000 then
    -- the page tags; the counts that follow them are not to be changed
    let t (o n : Nat) : SMap (BitVec 16) := sputs 0#16 0 ((List.range n).map fun p => BitVec.ofNat 16 (numAt bs (o + 2 * p) 2)) []
    some { x with spTag := t 0 64, bstTag := t 128 128 }
  else none

/-- The sequencer item rewritten. -/
def Cluster.seqPut (k : Cluster) (bs : List Byte) : Option Cluster :=
  let ws := codes8 bs
  let w (j : Nat) : Word := ws.getD j 0#64
  if (w 65).toNat ≠ k.simg.length ∨ bs.drop (bs.length - 24) ≠ words8 k.outcome then none
  else
    (putAll (fun e => e.put k.now) k.simg (simgParts k.simg ((bs.drop 528).take (bs.length - 552)))).map fun im =>
      { k with
        pc := (w 0).setWidth 57, next := if w 0 = k.pc.setWidth 64 then k.next else (w 0).setWidth 57
        s := (List.range 32).map fun r => w (1 + r)
        b := (w 33).setWidth 8
        e := (List.range 8).map fun r => (w (34 + r)).setWidth 16
        lc := (List.range 6).map fun r => (w (42 + r)).setWidth 32
        loops := loopsOf k.loops ((ws.drop 48).take 13)
        rrbv := (w 61).setWidth 5, rrbp := (w 62).setWidth 3, gqctl := (w 63).getLsbD 0, slipmax := slipmaxOf (w 64), simg := im }

/-- The handler section rewritten: the banked run state and the trap registers (R354). -/
def Cluster.handlerPut (k : Cluster) (bs : List Byte) : Option Cluster :=
  match k.handler with
  | none => none
  | some b =>
    let ws := codes8 bs
    let w (j : Nat) : Word := ws.getD j 0#64
    let e := bs.length - 40
    if w 0 ≠ 1#64 ∨ (w 1).toNat ≠ k.hc - 1 ∨ (w 29).toNat ≠ b.simg.length then none
    else
      (putAll (fun e => e.put k.dt) b.simg (simgParts b.simg ((bs.drop 240).take (e - 240)))).map fun im =>
        let t (j : Nat) : Word := BitVec.ofNat 64 (numAt bs (e + 8 * j) 8)
        { k with
          handler := some { b with
            pc := (w 2).setWidth 57, cmsk := BitVec.ofNat 256 (numAt bs 24 32), loops := loopsOf b.loops ((ws.drop 7).take 13)
            lc := (List.range 6).map fun r => (w (20 + r)).setWidth 32
            rrbv := (w 26).setWidth 5, rrbp := (w 27).setWidth 3, gqctl := (w 28).getLsbD 0, simg := im }
          trapcause := t 0, trappc := t 1 &&& 0x01FFFFFFFFFFFFFF#64, trapdt := t 2 &&& 0x0000FFFFFFFFFFFF#64
          trapopc := t 3 &&& 0x81FFFFFFFFFFFFFF#64, traphnd := t 4 &&& 0x01FFFFFFFFFFFFC0#64 }

/-- An item of an area rewritten: its address and the bytes read, of the length it was saved with. -/
def Cluster.itemPut (k : Cluster) (r : RunId) (a : Nat) (bs : List Byte) : Option Cluster :=
  if a < clusterPart r.area then
    let i := (a - r.area) / 2 ^ 20
    let o := (a - r.area) % 2 ^ 20
    if o = 0xFF000 ∧ bs.drop 384 ≠ words8 [(k.core i).pipe.length, (k.core i).gq.length, (k.streamRecords i).length, (k.drainRecords i).length, (k.banked i).length] then none
    else
      ((k.core i).itemPut k.now o bs).map fun x =>
        let k := k.onCore i fun _ => x
        if o = 0xFB200 then
          let bit : BitVec 256 := 1#256 <<< i
          { k with cmsk := if numAt bs 128 1 % 2 = 1 then k.cmsk ||| bit else k.cmsk &&& ~~~bit }
        else k
  else
    let o := a - clusterPart r.area
    if o = 0x1000 then k.seqPut bs
    else if 0x2000 ≤ o ∧ o < 0x4000 then
      let t := (o - 0x2000) / 512
      some { k with tm := sputs 0#64 (64 * t) ((codes8 (bs.take 424)).zipIdx.map fun (v, f) => BitVec.ofNat 64 (v.toNat % 2 ^ tmWidth f)) k.tm }
    else if o = 0x5000 then some { k with vc := (List.range 16).map fun j => BitVec.ofNat 20 (numAt bs (8 * j) 8) }
    else if o = 0x6000 then k.handlerPut bs
    else none

/-- Every byte at a target that reads otherwise than it was saved is as the host last wrote it. -/
def State.hostIs (s : State) (t : Option Target) (old now : List Byte) : Bool :=
  match t with
  | some (.hbm p) => (List.zip old now).zipIdx.all fun ((a, b), j) => a == b || sget none (p + j) s.hostPut == some b
  | _ => false
/-- What an item reads otherwise than it was saved is system software's edit, and no program's (R355). -/
def State.hostMade (s : State) (r : RunId) (a : Nat) (old now : List Byte) : Bool × State :=
  (partsOf a old.length).foldl (fun (ok, s) (va, n) =>
    let (t, s) := s.hXlateD r.ctx r.desc va .read
    (ok && s.hostIs t ((old.drop (va - a)).take n) ((now.drop (va - a)).take n), s)) (true, s)

/-- A run with an item's bytes read: as saved, as system software has edited it, or no longer defined. -/
def Cluster.taken (q : Cluster) (r : RunId) (a : Nat) (now : List Byte) (ok mine : Bool) : Bool × Cluster :=
  match mine, q.itemPut r a now with
  | true, some q => (ok, q)
  | _, _ => (false, q)
/-- Read an item. -/
def State.readItem (s : State) (r : RunId) (a : Nat) (bs : List Byte) (ok : Bool) (q : Cluster) : Option (Bool × Cluster) × State :=
  match s.hReadD r.ctx r.desc a bs.length with
  | (none, s) => (none, s)
  | (some now, s) =>
    if now == bs then (some (ok, q), s)
    else (some (q.taken r a now ok (s.hostMade r a bs now).1), (s.hostMade r a bs now).2)
/-- Read every item of an area (R356): none where it faults, else whether the run's state is defined, and the run as the bytes give it. -/
def State.readArea (s : State) (k : Cluster) (r : RunId) : Option (Bool × Cluster) × State :=
  (k.areaItems r true).foldl (fun (got, s) (a, bs) =>
    match got with
    | none => (none, s)
    | some (ok, q) => s.readItem r a bs ok q) (some (true, k), s)

end Sys2Proof.Machine
end

