-- ==== Sys2Proof/Machine/Preempt.lean ====
section
/-!
DEFINITION. Pre-emption: freezing, saving and resuming a gang (R352 to R356), with the images of the checkpoint area (R347, Tables 23-3 and
23-4); the end of a run (R50), LNCH's answer (R152), kills (R59, R335, R357), and maintenance runs (R364, R365).
-/
namespace Sys2Proof.Machine

/-! ### Freezing (R352, R354) -/

/-- A requested freeze takes effect at a bundle boundary: slips and holds before issue are withdrawn, and so is a barrier arrival; a wait or an
access of a bundle that issued stays. Each cycle of a NOPN ends at a boundary, as the bound of R52 needs; the cycles left are filled after resume.
A freeze that YIELD began has its images captured in the same way. -/
def Cluster.freezeNow (k : Cluster) (ct : Nat) : Cluster :=
  if k.preReq then
    { k with frozenPre := true, freezeCt := if k.frozenPre then k.freezeCt else ct, slip := none, tts := none, holds := k.holds.filter fun h => !preIssue h.kind }.capture
  else k

def execPreemptionFreeze (task gang : Nat) (s : State) : Res :=
  .next { s with clusters := s.clusters.map fun k =>
    match k.run with
    | some r => if r.task = task ∧ r.gang = gang then k.freezeNow s.ct else k
    | none => k }

/-! ### Saving (R353) -/

/-- A gather that the full queues hold back: its engine index and queues are saved as they stand (R353). -/
def Cluster.gatherStalled (k : Cluster) (a : Active) : Bool :=
  a.formed && a.rd.isEmpty && a.outs.isEmpty && a.gather.any fun (i, vs) => !vs.isEmpty && decide (16 ≤ (k.core i).gq.length)

/-- Writes from a cluster's copies still on their way, and counts of its drains. -/
def State.outgoing (s : State) (c : Nat) : Bool :=
  s.clusters.any (fun k => k.winW.any fun w => match w.src with | some (d, _) => d == c | none => false) ||
    s.inputs.any fun (_, i) => match i with | .chunkCount d _ _ _ _ => d.toNat == c | _ => false

/-- A frozen cluster may be saved: its started copies are done, its accesses and posted operations have performed. -/
def State.saveReady (s : State) (c : Nat) : Bool :=
  let k := s.cl c
  k.frozenPre && !k.halted && k.active.all k.gatherStalled && k.posted.isEmpty && k.penUpds.isEmpty && k.winW.isEmpty && !s.outgoing c &&
    k.holds.all fun h => match h.kind with | .far _ _ | .lnch _ _ => false | _ => true

/-- Save one cluster's run and free the cluster; a fault on the area ends the task. -/
def State.saveOne (s : State) (r : RunId) (c : Nat) : State :=
  let s := s.release c .fabric
  match s.saveArea c r with
  | (false, s) => (s.endGang r.task r.gang).stopTask r.task 17
  | (true, s) =>
    let k := s.cl c
    let k : Cluster := { k with preReq := false, tmDirty := 0#16, cores := k.cores.map fun x => { x with dirty := [], dirtyAll := false } }
    ((s.vcStep c).freeCluster c).onTask r.task fun t => t.onGang r.gang fun g =>
      let left := g.clusters.filter (· != c)
      { g with saved := g.saved ++ [⟨k, r.leaf⟩], clusters := left, saving := !left.isEmpty }

/-- The save of a gang goes on: every cluster that is ready is saved. -/
def execCheckpointSave (task gang : Nat) (s : State) : Res :=
  .next ((List.range 16).foldl (fun s c =>
    match (s.cl c).run with
    | some r => if r.task = task ∧ r.gang = gang ∧ s.saveReady c then s.saveOne r c else s
    | none => s) s)

/-! ### Resuming (R356) -/

/-- A saved run on a cluster: what belongs to the cluster stays the cluster's, its clock and throttle hold among it (R386); waits are taken up again and
counted afresh. -/
def Cluster.resume (k : Cluster) (old : Cluster) (ct : Nat) : Cluster :=
  { old with
    frozenPre := false, preReq := false, halted := false, prevCtx := k.prevCtx, clock := k.clock, clockAcc := k.clockAcc, throttle := k.throttle, ticks := k.ticks
    inService := k.inService, tlb := k.tlb, far := k.far, vc := vcMax k.vc old.vc, winW := k.winW, penUpds := k.penUpds, win := [], fetches := [], fetchFault := []
    holds := old.holds.map fun h => { h with start := ct, due := (match h.kind with | .bwait _ _ _ => ct + 1 | .pwait _ _ => 0 | .pflip _ _ => ct + 1 | _ => h.due) }
    tts := if old.holds.any (fun h => h.kind == .ttsync) then some ct else none
    lastStream := k.ticks, issued := false, tmDirty := 0#16
    cores := (List.zip old.cores k.cores).map fun (x, y) => { x with retired := y.retired, dirty := [], dirtyAll := false } }

/-- A core of a run whose area something else has written: its registers, array and memories are undefined (R355). -/
def Core.undefined (x : Core) (f : Nat → Nat) : Core :=
  { x with
    v := (List.range 64).map fun r => BitVec.ofNat 1024 (f r)
    p := (List.range 16).map fun r => BitVec.ofNat 128 (f (64 + r))
    a := (List.range 16).map fun r => BitVec.ofNat 32 (f (80 + r))
    dPts := (List.range 8).map fun r => BitVec.ofNat 2048 (f (96 + r))
    dWords := (List.range 8).map fun r => dwClean (BitVec.ofNat 128 (f (104 + r)))
    ft := (List.range 8).map fun r => ftClean (BitVec.ofNat 64 (f (112 + r)))
    m := sputs 0#32 0 ((List.range 16900).map fun j => BitVec.ofNat 32 (f (120 + j))) []
    spm := wrBytes [] 0 (leBytes 262144 (f 17020))
    bst := wrBytes [] 0 (leBytes 524288 (f 17021))
    pipe := x.pipe.zipIdx.map fun (e, j) => if e.kind = .load ∨ e.rep.isSome then e else { e with val := BitVec.ofNat 256 (f (17022 + j)) } }

/-- A resumed run whose area something else has written: its state is undefined (R355). -/
def State.undefinedRun (s : State) (c : Nat) : State :=
  let n := s.fresh
  let f (i : Nat) : Nat := Config.freeNat (n + i)
  ({ s with fresh := n + 2 ^ 25 } : State).onCl c fun k =>
    { k with
      pc := BitVec.ofNat 57 (f 0), next := BitVec.ofNat 57 (f 0), b := BitVec.ofNat 8 (f 1), rrbv := BitVec.ofNat 5 (f 2), rrbp := BitVec.ofNat 3 (f 3)
      gqctl := f 4 % 2 == 1, slipmax := slipmaxOf (BitVec.ofNat 64 (f 5)), cmsk := BitVec.ofNat 256 (f 6)
      s := (List.range 32).map fun r => BitVec.ofNat 64 (f (16 + r))
      e := (List.range 8).map fun r => BitVec.ofNat 16 (f (48 + r))
      lc := (List.range 6).map fun r => BitVec.ofNat 32 (f (56 + r))
      simg := k.simg.zipIdx.map fun (e, j) => { e with val := BitVec.ofNat 256 (f (64 + j)) }
      tm := sputs 0#64 0 ((List.range 1024).map fun j => if j % 64 < 53 then BitVec.ofNat 64 (f (1024 + j) % 2 ^ tmWidth (j % 64)) else 0#64) []
      cores := k.cores.zipIdx.map fun (x, i) => Core.undefined x fun j => f (2 ^ 16 * (i + 1) + j) }

/-- A frozen gang that has been placed resumes whole, its generators reseeded: each cluster reads its area, acquires, and goes on from the state at the
freeze (R356, R389). -/
def State.resumeGang (s : State) (t : Task) (g : Gang) (pl : List (Nat × Nat)) : State :=
  let s := s.dispatched t g pl
  let s := ({ s with nextTask := s.nextTask + 1 } : State).pace (pl.map (·.2))
  let s := s.onTask t.id fun t => t.onGang g.idx fun h => { h with startCt := g.startCt }
  let (ok, s) := g.saved.foldl (fun (ok, s) v =>
    match pl.find? fun (m, _) => v.cluster.run.map (·.member) == some m with
    | none => (ok, s)
    | some (_, c) =>
      let (got, s) := match v.cluster.run with | some r => s.readArea v.cluster r | none => (some (true, v.cluster), s)
      let (same, old) := got.getD (true, v.cluster)
      let s := s.onCl c fun k => k.resume old s.ct
      let s := (if same then s else s.undefinedRun c).acquire c .fabric
      let (b, s) := s.reseedAll c
      (ok && b && got.isSome, s.lineIn c ((s.cl c).pc.toNat / 64))) (true, s)
  if ok then s else (s.endGang t.id g.idx).stopTask t.id 17

def execGangResume (task gang : Nat) (s : State) : Res :=
  .next (match (s.task task).bind fun t => (t.gangs.find? fun g => g.idx == gang).map fun g => (t, g) with
    | none => s
    | some (t, g) =>
      if g.saving || g.saved.isEmpty then s
      else match s.place t g (s.usable t) with
        | none => s.claim t g
        | some pl =>
          let lost : Bool := match s.reserve with | some (id, i, m) => (id == task && i == gang) || pl.any fun (_, c) => m.getLsbD c | none => false
          ({ s with reserve := if lost then none else s.reserve } : State).resumeGang t g pl)

/-! ### The end of a run (R50) -/

/-- A member of a gang has ended; with the last one the gang ends, and with the last gang the task. -/
def State.memberDone (s : State) (r : RunId) (c : Nat) : State :=
  (s.onTask r.task fun t =>
    { t with gangs := t.gangs.filterMap fun g =>
        if g.idx ≠ r.gang then some g
        else
          let left := g.clusters.filter (· != c)
          if left.isEmpty && g.saved.isEmpty then none else some { g with clusters := left, saving := g.saving && !left.isEmpty } }).checkFinal r.task

/-- What END waits for is done, and the other holds of its bundle have ended (R45, R50). -/
def State.endReady (s : State) (c : Nat) : Bool :=
  let k := s.cl c
  !k.frozenPre && !k.halted && !k.holds.isEmpty && k.holds.all (fun h => h.kind == .endWait) && k.buf.isEmpty && k.active.isEmpty && k.drains.isEmpty && k.inits.isEmpty &&
    k.parrs.isEmpty && k.penUpds.isEmpty && k.posted.isEmpty && !s.outgoing c && k.cores.all fun x => x.pipe.all fun e => e.kind != .store

/-- A run counts as ended in its shards: the widest scope of its leaf and of the levels whose shards end with it (R40). -/
def State.endScope (s : State) (r : RunId) : Nat × State :=
  match s.task r.task with
  | none => (0, s)
  | some t =>
    let ls := rcdLevels t.rcd
    let done := sput false r.leaf true t.done
    let w := (List.range ls.length).foldl (fun w j =>
      if shardDone ls done r.leaf j then Nat.max w ((ls.map (·.scope)).getD j 0) else w) ((ls.map (·.scope)).getLastD 0)
    (w, s.onTask r.task fun t => { t with done := done })

/-- The end release of a run at its leaf's scope, and the launch unit's for the shards that end, which covers the writes of all their runs: whatever
the clusters and dies still hold of them goes where the scope asks (R40, R287). END merges update-only lines at any scope (R296). -/
def State.endRelease (s : State) (c : Nat) (r : RunId) : State :=
  let s := s.mergeAll c
  let (w, s) := s.endScope r
  let zero : List (BitVec 20) := List.replicate 16 0#20
  let s := { s with cvec := sput zero r.ctx.toNat (vcMax (sget zero r.ctx.toNat s.cvec) (s.cl c).vc) s.cvec }
  if w = 0 then s
  else ((List.range 16).foldl (fun s d => s.flushPeer d (scopeOf w)) s).vcStep c

/-- The run's end: a completion-point failure of a drain, or the fault of another hold of END's bundle, is taken first; else the end release is
performed and the cluster freed. -/
def execRunEnd (c : BitVec 4) (s : State) : Res :=
  let c := c.toNat
  .next (match (s.cl c).run with
    | none => s
    | some r =>
      if !s.endReady c then s
      else if !(s.cl c).cps.isEmpty || (s.cl c).holdFault.isSome then s.onCl c fun k => { k with holds := k.holds.filter fun h => h.kind != .endWait }
      else
        ((s.endRelease c r).freeCluster c).memberDone r c)

/-! ### LNCH (R152) -/

def execLnchAnswer (c : BitVec 4) (s : State) : Res :=
  let c := c.toNat
  .next ((s.dueHolds c).foldl (fun s h =>
    match h.kind with
    | .lnch sd va =>
      let s := (((s.settle c (s.cl c).nextPost).release c .device)).vcStep c
      match s.farReadAt c va 128 none (List.range 128) false with
      | (.ok bs, s) =>
        let (n, s) := s.submit (BitVec.ofNat 1024 (leNat bs)) (.lnch c)
        (s.dropHold c h).holdWrite c sd (BitVec.ofNat 64 n)
      | (.error t, s) => if (s.cl c).replays t then s.setHold c h { h with replay := true } else s.holdFails c h t
    | _ => s) s)

/-! ### Kill (R59, R335, R357) -/

/-- A task ends KILLED as it stands. -/
def State.killTask (s : State) (t : Task) : State :=
  ((t.gangs.foldl (fun s g => s.endGang t.id g.idx) s).onTask t.id fun t => { t with stop := none }).stopTask t.id 18
/-- Every task of a context ends KILLED; the management core's own runs are of none. -/
def State.killTasks (s : State) (ctx : BitVec 12) : State := (s.tasks.filter fun t => t.ctx == ctx && rcdVer t.rcd != 0#8).foldl State.killTask s

/-- Bozoak contexts bound to a context stop, and their counts are cleared. -/
def State.killBozoak (s : State) (ctx : BitVec 12) : State :=
  let s := ((List.range 16).filter fun k => (s.bzc k).bound && (s.bzc k).ctx == ctx).foldl State.barForget s
  { s with bz := s.bz.map fun b => if b.bound && b.ctx == ctx && b.st != .unbound then { b with st := .stopped, counts := [], stopping := false, sigDue := none, arrived := false } else b }

/-- Deliveries in flight of Bozoak contexts bound to a context, and pennant credits of before the last kill that have not performed. -/
def State.ctxInFlight (s : State) (ctx : BitVec 12) : Bool :=
  (s.deliveries.any fun d => d.ctx == ctx) || s.clusters.any fun k => k.penUpds.any fun u => decide (u.at' ≤ s.killCt + 1)

def execKill (ctx : BitVec 12) (s : State) : Res :=
  let s := ((s.killTasks ctx).killBozoak ctx).killPeer ctx
  .next { s with killing := (if s.killing.contains ctx then s.killing else s.killing ++ [ctx]), killCt := s.ct }

/-- KILLDONE once every request of the context has been acknowledged or dropped. -/
def execKilldone (ctx : BitVec 12) (s : State) : Res :=
  .next (if s.killing.contains ctx && !s.ctxInFlight ctx then
    { s with killing := s.killing.filter (· != ctx), outbox := s.outbox ++ [.killdone ctx] }
  else s)

/-! ### Maintenance runs (R364, R365) -/

/-- The occupant of a cluster is pre-empted for priority 7, unless it is being so already. -/
def State.vacate (s : State) (c : Nat) : State :=
  match (s.cl c).run with
  | none => s
  | some r =>
    match (s.task r.task).bind fun t => (t.gangs.find? fun g => g.idx == r.gang).map fun g => (t, g) with
    | none => s.freeCluster c
    | some (t, g) => if g.saving then s else s.evict (t, g)

/-- The record a maintenance run stands under: PRIO 7, of version 0, as no submitted record is. -/
def maintRcd : BitVec 1024 := 0x700000#1024

/-- The maintenance run on a free cluster: a task of priority 7 that the management core submits, with supervisor privilege; its sequencer issues MDIAG
and MSPR.persist (R262, R263, R365). It finds nothing of an earlier run, and leaves nothing to a later one. -/
def State.maintRun (s : State) (c : Nat) : State :=
  let r : RunId := {
    task := s.nextTask, gang := 0, member := 0, leaf := 0, ctx := 0#12, desc := 0#64, prio := 7#3, rngm := 0#2, ckpt := 0, tgSize := 1
    startCt := s.ct, priv := true, logged := 0, logFlag := false }
  let g : Gang := { idx := 0, st := .running, clusters := [c], startCt := s.ct, blockedAt := s.ct, saved := [], saving := false }
  let t : Task := {
    id := s.nextTask, rcd := maintRcd, src := .mailbox, ctx := 0#12, fabricPos := 0, queue := 7, arrival := s.nextTask, waited := s.ct, born := s.nextTask
    nextGang := 1, total := 1, gangs := [g], dieHome := [], clHome := [], returning := false, stop := none, reread := 0, done := [], bad := false }
  (({ s with tasks := s.tasks ++ [t], nextTask := s.nextTask + 1 }.onCl c fun k =>
    { ({ k with prevCtx := none } : Cluster).start r maintRcd [] (List.replicate 16 0#20) resetFt with maint := .start }).reseedAll c).2

/-- A maintenance run asked for on a cluster, a supervisor record: refused with KILLING during a kill or a handover, or accepted, with that status in the
mailbox; accepted, it is placed where the cluster is free, else once its occupant has been pre-empted (R365, R393). -/
def execMaintenanceRun (c : BitVec 4) (s : State) : Res :=
  let i := c.toNat
  .next (if !s.maintWait.getLsbD i && (!s.killing.isEmpty || s.hand.isSome || s.failed) then { s with outbox := s.outbox ++ [.mailbox 1] }
    else
      let s := if s.maintWait.getLsbD i then s else { s with maintWait := s.maintWait ||| (1#16 <<< i), outbox := s.outbox ++ [.mailbox 0] }
      match (s.cl i).run with
      | none => { s with maintWait := s.maintWait &&& ~~~(1#16 <<< i) }.maintRun i
      | some r =>
        let s := if r.priv then s else s.vacate i
        { s with inputs := s.inputs ++ [(s.ct + 1, .maintenanceRun c)] })

end Sys2Proof.Machine
end

