-- ==== Sys2Proof/Machine/Debug.lean ====
section
/-!
DEFINITION. The debug operations of Table 23-5 (R358, R359): halting, stepping and resuming a cluster, its registers and tables, and its images.
-/
namespace Sys2Proof.Machine

/-! ### HALT, STEP, RESUME -/

/-- A halt at a bundle boundary: slips and holds before issue are withdrawn, and a barrier arrival, as for a pre-emption (R352, R358). -/
def Cluster.haltNow (k : Cluster) (ct : Nat) : Cluster :=
  { k with halted := true, freezeCt := ct, dbg := .off, slip := none, tts := none, holds := k.holds.filter fun h => !preIssue h.kind }.capture

/-- Debug requests at a boundary: a HALT takes effect, and a STEP whose bundle has run to its end halts again. -/
def Cluster.debugNow (k : Cluster) (ct : Nat) : Cluster :=
  if k.dbg == .halt then k.haltNow ct
  else if k.dbg == .stepped && k.nopLeft == 0 && k.holds.isEmpty && k.slip.isNone then k.haltNow ct
  else k

def execHalt (c : BitVec 4) (s : State) : Res :=
  .next (s.onCl c.toNat fun k => if k.halted then k else ({ k with dbg := .halt } : Cluster).debugNow s.ct)

/-- The halt is released: waits are taken up again, and counted afresh (R47, R358). -/
def Cluster.release (k : Cluster) (ct : Nat) : Cluster :=
  { k with halted := false, holds := k.holds.map (fun h => { h with start := ct })
           tts := if !k.frozenPre && k.holds.any (fun h => h.kind == .ttsync) then some ct else k.tts }

def execResume (c : BitVec 4) (s : State) : Res :=
  .next (s.onCl c.toNat fun k => if k.halted then { k.release s.ct with dbg := .off } else { k with dbg := .off })
def execStep (c : BitVec 4) (s : State) : Res :=
  .next (s.onCl c.toNat fun k => if k.halted then { k.release s.ct with dbg := .step } else k)

/-! ### Registers -/

/-- The value RDREG reads in a CT cycle; a loop level that is not active reads zero. -/
def Cluster.dbgRead (k : Cluster) (ct : Nat) (ageq : BitVec 32) (r : DbgReg) : BitVec 2048 :=
  let n {w : Nat} (v : BitVec w) : BitVec 2048 := v.setWidth 2048
  let x (c : BitVec 8) : Core := k.core c.toNat
  match r with
  | .pc => n k.pc
  | .s i => n (k.sreg i)
  | .b i => n (ofBit (k.flag i))
  | .e i => n (k.e.getD i.toNat 0#16)
  | .lc i => n (k.lc.getD i.val 0#32)
  | .loop l st => match k.loops.reverse[l.val]? with | some v => if st then n v.start else n v.tc | none => 0#2048
  | .dtnow => n (dtBits k.dt)
  | .ctnow => n (BitVec.ofNat 64 ct)
  | .holdmax => n (BitVec.ofNat 64 k.holdmax)
  | .ageq => n ageq
  | .ctxid => n k.ctx
  | .rrbv => n k.rrbv
  | .rrbp => n k.rrbp
  | .gqctl => n (ofBit k.gqctl)
  | .slipmax => n k.slipmax
  | .cmsk => n k.cmsk
  | .traphnd => n k.traphnd
  | .errinj => n k.errinj
  | .trapcause => n k.readCause
  | .trappc => n k.trappc
  | .trapdt => n k.trapdt
  | .trapopc => n k.trapopc
  | .lvlix i => n (k.lvlix.getD i.toNat 0#20)
  | .v c i => n ((x c).vreg i.toNat)
  | .p c i => n ((x c).preg i.toNat)
  | .a c i => n ((x c).areg i)
  | .dPts c i => n ((x c).dPts.getD i.toNat 0#2048)
  | .dWords c i => n ((x c).dWords.getD i.toNat 0#128)
  | .ft c i => n ((x c).ft.getD i.toNat 0#64)
  | .tm i f => n (k.tmField i f.val)
  | .bank c m row col => n (sget 0#32 (4225 * m.toNat + 65 * row.val + col.val) (x c).m)
  | .edge c m i => n (code32 ((x c).edgeOf m.toNat i.toNat))
  | .dstat c => n (x c).dstat
  | .plane c pl kk col => n (code32 ((if pl then (x c).plane1 else (x c).plane0).get col.toNat kk.toNat))
  | .spm c off => n (rdByte (x c).spm off.toNat)
  | .bst c off => n ((x c).bsByte off.toNat)
  | .spTag c p => n (sget 0#16 p.toNat (x c).spTag)
  | .bstTag c p => n (sget 0#16 p.toNat (x c).bstTag)
  | .lin c m => n (ofBit ((x c).linOf m))
  | .stale c m => n (ofBit ((x c).staleOf m))
  | .bsum c pl kk => n (sget 0#32 kk.toNat (if pl then (x c).plane1 else (x c).plane0).bsum)
  | .planeFmt c pl => n (BitVec.ofNat 8 (if pl then (x c).plane1 else (x c).plane0).fmt.num)

/-- What WRREG changes, and the granule it marks written (R355, R358); reserved bits are dropped as the register's own writes drop them. The chip's
time, the run's DT and its context stay (log entry 80). -/
def Cluster.dbgWrite (k : Cluster) (r : DbgReg) (v : BitVec 2048) : Cluster :=
  let w : Word := v.setWidth 64
  let on (c : BitVec 8) (f : Core → Core) : Cluster := k.onCore c.toNat f
  match r with
  | .pc => { k with pc := v.setWidth 57, next := v.setWidth 57 }
  | .s i => k.landS ⟨.s i, w.setWidth 256, 0⟩
  | .b i => k.landS ⟨.b i, w.setWidth 256, 0⟩
  | .e i => k.landS ⟨.e i, w.setWidth 256, 0⟩
  | .lc i => k.landS ⟨.lc i.val, w.setWidth 256, 0⟩
  | .loop l st =>
    let j := k.loops.length - 1 - l.val
    if l.val < k.loops.length then
      { k with loops := k.loops.modify j fun x => if st then { x with start := v.setWidth 57 } else { x with tc := v.setWidth 32 } }
    else k
  | .dtnow | .ctnow | .ctxid | .ageq => k
  | .holdmax => { k with holdmax := w.toNat }
  | .rrbv => k.landS ⟨.rrbv, w.setWidth 256, 0⟩
  | .rrbp => k.landS ⟨.rrbp, w.setWidth 256, 0⟩
  | .gqctl => k.landS ⟨.gqctl, w.setWidth 256, 0⟩
  | .slipmax => k.landS ⟨.slipmax, w.setWidth 256, 0⟩
  | .cmsk => { k with cmsk := v.setWidth 256 }
  | .traphnd => k.landS ⟨.traphnd, w.setWidth 256, 0⟩
  | .errinj => k.landS ⟨.errinj, w.setWidth 256, 0⟩
  | .trapcause => { k with trapcause := if (w.setWidth 8) = cTRANS ∨ (w.setWidth 8) = cRACE ∨ (w.setWidth 8) = cMEMERR then w else w &&& 0xFFFFFFFFFE0000FF#64 }
  | .trappc => { k with trappc := w &&& 0x01FFFFFFFFFFFFFF#64 }
  | .trapdt => { k with trapdt := w &&& 0x0000FFFFFFFFFFFF#64 }
  | .trapopc => { k with trapopc := w &&& 0x81FFFFFFFFFFFFFF#64 }
  | .lvlix i => { k with lvlix := k.lvlix.set i.toNat (v.setWidth 20) }
  | .v c i => on c fun x => ({ x with v := x.v.set i.toNat (v.setWidth 1024) }).touch 4 i.toNat
  | .p c i => on c fun x => if i = 0#4 then x else ({ x with p := x.p.set i.toNat (v.setWidth 128) }).touch 6 i.toNat
  | .a c i => on c fun x => { x with a := x.a.set i.toNat (v.setWidth 32) }
  | .dPts c i => on c fun x => ({ x with dPts := x.dPts.set i.toNat v }).touch 5 i.toNat
  | .dWords c i => on c fun x => ({ x with dWords := x.dWords.set i.toNat (dwClean (v.setWidth 128)) }).touch 5 i.toNat
  | .ft c i => on c fun x => { x with ft := x.ft.set i.toNat (ftClean w) }
  | .tm i f => k.putTm (64 * i.toNat + f.val) (BitVec.ofNat 64 (w.toNat % 2 ^ tmWidth f.val))
  | .bank c m row col => on c fun x => x.setCell m.toNat row.val col.val (v.setWidth 32)
  | .edge c m i => on c fun x => x.setEdge m.toNat i.toNat (val32 (v.setWidth 32))
  | .dstat c => on c fun x => { x with dstat := dstatClean (v.setWidth 1024) }
  | .plane c pl kk col => on c fun x => x.setPlane pl ((x.plane pl).put col.toNat kk.toNat (val32 (v.setWidth 32)))
  | .bsum c pl kk => on c fun x => x.setPlane pl { x.plane pl with bsum := sput 0#32 kk.toNat (v.setWidth 32) (x.plane pl).bsum }
  | .planeFmt c pl => on c fun x => x.setPlane pl { x.plane pl with fmt := .ofNum (v.toNat % 256) }
  | .lin c m => on c fun x => ({ x with lin := setBit x.lin m (v.getLsbD 0) }).touch 2 m.toNat
  | .stale c m => on c fun x => ({ x with stale := setBit x.stale m (v.getLsbD 0) }).touch 2 m.toNat
  | .spm c off => k.spWrite (2 ^ 18 * c.toNat + off.toNat) (v.setWidth 8)
  | .bst c off => on c fun x => x.bsWrite off.toNat (v.setWidth 8)
  | .spTag c p => on c fun x => { x with spTag := sput 0#16 p.toNat (v.setWidth 16) x.spTag }
  | .bstTag c p => on c fun x => { x with bstTag := sput 0#16 p.toNat (v.setWidth 16) x.bstTag }

def execRdreg (c : BitVec 4) (r : DbgReg) (s : State) : Res := .next { s with outbox := s.outbox ++ [.dbg ((s.cl c.toNat).dbgRead s.ct s.ageq r)] }
end Sys2Proof.Machine

namespace Sys2Proof

/-- The words of a core that a write of the register gives new contents (R360). -/
def DbgReg.mends : DbgReg → Machine.CoreWord → Bool
  | .v _ i, .v n => n / 16 == i.toNat
  | .p _ i, .p n => n / 2 == i.toNat
  | .a _ i, .a n => n == i.toNat
  | .dPts _ i, .d n => n / 34 == i.toNat && decide (n % 34 < 32)
  | .dWords _ i, .d n => n / 34 == i.toNat && decide (32 ≤ n % 34)
  | .ft _ i, .ft n => n == i.toNat
  | .spTag _ i, .tag n => n == i.toNat
  | .bstTag _ i, .tag n => n == 64 + i.toNat
  | _, _ => false
/-- The core whose register it is. -/
def DbgReg.core : DbgReg → Option (BitVec 8)
  | .v c _ | .p c _ | .a c _ | .dPts c _ | .dWords c _ | .ft c _ | .spTag c _ | .bstTag c _ => some c
  | _ => none

end Sys2Proof

namespace Sys2Proof.Machine

/-- WRREG; a write of a map's BASE pre-translates the first 8 MiB behind it (R198), and AGEQ is the device's (Table 3-5). -/
def execWrreg (c : BitVec 4) (r : DbgReg) (v : BitVec 2048) (s : State) : Res :=
  let t := s.onCl c.toNat fun k =>
    let k := k.dbgWrite r v
    match r, r.core with
    | .loop l _, _ => k.heal (.loop l.val)
    | r, some i => k.onCore i.toNat (·.heal r.mends)
    | _, none => k
  .next (match r with
    | .tm _ f => if f.val = 0 then State.preXlate c.toNat 2049 (v.toNat % 2 ^ 57) (v.toNat % 2 ^ 57 + 2 ^ 23) t else t
    | .ageq => { t with ageq := v.setWidth 32 }
    | _ => t)

/-! ### Images -/

/-- RDIMG reads one core's pipeline image, or the sequencer image, in entries of 64 or 16 bytes (R347, R350). -/
def execRdimg (c : BitVec 4) (core : Option (BitVec 8)) (s : State) : Res :=
  let k := s.cl c.toNat
  .next { s with outbox := s.outbox ++ [.image (match core with
    | some i => (k.capture.core i.toNat).pipe.flatMap fun e => e.image k.now
    | none => k.simg.flatMap fun e => e.image k.now)] }

/-- The entries that EDIMG edits together with an entry: those of one load that has not performed, with its DEST and ORD, or the entry alone. -/
def sameUnit (e f : PEntry) : Bool := e.kind == .load && f.kind == .load && e.dest == f.dest && e.issue == f.issue && e.slot == f.slot

/-- An entry's value slice replaced; a predicate's written bits stay. -/
def PEntry.putVal (e : PEntry) (v : BitVec 256) : Option PEntry :=
  match e.kind, e.rep with
  | .load, _ => none
  | .p, _ => some { e with val := e.val.extractLsb' 128 128 ++ v.setWidth 128 }
  | .rep, some r =>
    -- the V word of a REPEAT; its destination may not change
    match decodeWord (.v (v.setWidth _)), r.instr with
    | .ok (.vmov c sz rep vd va), .vmov _ _ _ old _ => if vd = old then some { e with rep := some { r with instr := .vmov c sz rep vd va } } else none
    | _, _ => none
  | _, _ => some { e with val := v }

/-- An entry's byte lanes replaced; a predicate's are kept as its written bits. -/
def PEntry.putMask (e : PEntry) (m : BitVec 32) : Option PEntry :=
  match e.kind with
  | .load => none
  | .p =>
    let bits : Nat := (List.range 16).foldl (fun n j => if m.getLsbD j then n + 255 * 2 ^ (8 * j) else n) 0
    some { e with val := BitVec.ofNat 128 bits ++ e.val.setWidth 128 }
  | _ => some { e with mask := m }

/-- An edit of the image of a core at a freeze, or none where EDIMG refuses it (R358). -/
def Core.edit (x : Core) (now i : Nat) (ed : ImgEdit) : Option Core :=
  match x.pipe[i]? with
  | none => none
  | some e =>
    match ed with
    | .val v => (e.putVal v).map fun f => { x with pipe := x.pipe.set i f }
    | .mask m => (e.putMask m).map fun f => { x with pipe := x.pipe.set i f }
    | .land n =>
      let l := now + n - 1
      if n = 0 ∨ 65535 < n ∨ (e.kind = .load ∧ l ≤ e.perf) then none
      else some { x with pipe := x.pipe.zipIdx.map fun (f, j) => if j = i ∨ sameUnit e f then { f with land := l } else f }
    | .delete => some { x with pipe := (x.pipe.zipIdx.filter fun (f, j) => !(j == i || sameUnit e f)).map (·.1) }

def execEdimg (c : BitVec 4) (core : BitVec 8) (entry : Nat) (e : ImgEdit) (s : State) : Res :=
  let k := s.cl c.toNat
  .next (match (k.capture.core core.toNat).edit k.now entry e with
    | some x => s.onCl c.toNat fun k => k.onCore core.toNat fun _ => x
    | none => { s with outbox := s.outbox ++ [.refused] })

end Sys2Proof.Machine
end

