-- ==== Sys2Proof/Machine/Platform.lean ====
section
/-!
DEFINITION. The platform: the context table (R305) and TLB invalidation (R308), snapshot regions (R369, R372), peers and the host (R297, R304,
R383 to R385, R392), power and monitors (R386 to R388), scrubbing and links (R362, R367, R368), and the resets (R391).
-/
namespace Sys2Proof.Machine

/-! ### The context table (R302, R305) -/

/-- A context is bound: every clock starts afresh, its context vector with them, and tags and sidecars are cleared (R302). -/
def State.bindClocks (s : State) (ctx : BitVec 12) : State :=
  { s with clusters := s.clusters.zipIdx.map fun (k, c) => { k with vc := (List.replicate 16 0#20).set c 1#20, penAcc := [], penVc := [], relaxed := [] }
           wtag := [], sidecar := [], sideScope := []
           cvec := sput (List.replicate 16 0#20) ctx.toNat (List.replicate 16 0#20) s.cvec }
def execContextDescriptorWrite (ctx : BitVec 12) (v : BitVec 64) (s : State) : Res :=
  let v := v &&& 0xF00FFFFFFFFFFFFF#64
  let bind := v.getLsbD 63 && !(s.descOf ctx).getLsbD 63
  let s := { s with ctxTab := sput 0#64 ctx.toNat v s.ctxTab }
  .next (if bind then s.bindClocks ctx else s)

/-! ### TLB invalidation (R308) -/

/-- Drop the TLB and STLB entries of a context that meet a VA range. -/
def State.dropTlb (s : State) (ctx : BitVec 12) (lo hi : BitVec 57) : State :=
  let meets (x : BitVec 12) (vp b : Nat) : Bool := x == ctx && decide (vp * 2 ^ b ≤ hi.toNat) && decide (lo.toNat < (vp + 1) * 2 ^ b)
  { s with clusters := s.clusters.map (fun k => { k with tlb := k.tlb.filter fun (x, vp, _, b) => !meets x vp b })
           stlb := s.stlb.filter fun (_, x, vp, _, b) => !meets x vp b }
def execTlbInvalidation (ctx : BitVec 12) (lo hi : BitVec 57) (s : State) : Res :=
  let (n, s) := (s.dropTlb ctx lo hi).free
  .next { s with tlbInv := s.tlbInv ++ [(ctx, lo, hi)], inputs := s.inputs ++ [(s.ct + 1 + n, .tlbInvalidationComplete ctx lo hi)] }

/-- The invalidation completes: no entry of the range is left. Accesses translate when they perform, so none with an old one is outstanding. -/
def execTlbInvalidationComplete (ctx : BitVec 12) (lo hi : BitVec 57) (s : State) : Res :=
  let s := s.dropTlb ctx lo hi
  .next (if s.tlbInv.contains (ctx, lo, hi) then { s with tlbInv := s.tlbInv.erase (ctx, lo, hi), outbox := s.outbox ++ [.tlbDone ctx lo hi] } else s)

/-! ### Snapshot regions (R369, R372) -/

/-- A range of bytes lies in the HBM of an in-service die; its die. -/
def State.homeDie (s : State) (a n : Nat) : Option Nat :=
  if 0 < n ∧ a + n ≤ 2 ^ 39 ∧ a / 2 ^ 37 = (a + n - 1) / 2 ^ 37 ∧ !s.dieOut.getLsbD (a / 2 ^ 37) then some (a / 2 ^ 37) else none

/-- What EN demands: every part homed on one die, none overlapping, aligned, and the root word not OPEN (R369). -/
def State.snapOk (s : State) (r : Snap) : Bool :=
  let m := (r.pages + 7) / 8
  let parts := [(r.live, 2 ^ 16 * r.pages), (r.shadow, 2 ^ 16 * r.pages), (r.map0, m), (r.map1, m), (r.root, 8)]
  let apart (p q : Nat × Nat) : Bool := decide (p.1 + p.2 ≤ q.1) || decide (q.1 + q.2 ≤ p.1)
  parts.all (fun (a, n) => (s.homeDie a n).isSome && s.homeDie a n == s.homeDie r.live 1) &&
    (List.range 5).all (fun i => (List.range i).all fun j => apart (parts.getD i (0, 0)) (parts.getD j (0, 0))) &&
    r.live % 2 ^ 16 == 0 && r.shadow % 2 ^ 16 == 0 && r.map0 % 64 == 0 && r.map1 % 64 == 0 && r.root % 8 == 0 && !(s.rawWord r.root).getLsbD 1

/-- The fields of a descriptor; reserved bits are dropped (Table 25-3). -/
def snapClean (v : BitVec 512) : BitVec 512 :=
  (List.range 512).foldl (fun w i =>
    if i = 383 ∨ (352 ≤ i ∧ i < 364) ∨ (320 ≤ i ∧ i < 340) ∨ (i < 320 ∧ i % 64 < 52) then w else w &&& ~~~(1#512 <<< i)) v
def execSnapshotDescriptorWrite (i : BitVec 4) (v : BitVec 512) (s : State) : Res :=
  let v := snapClean v
  .next (if v.getLsbD 383 && !s.snapOk (snapOf i.toNat v) then { s with outbox := s.outbox ++ [.refused] }
    else { s with snap := s.snap.set i.toNat v })

/-- A run of a context is running, frozen or being saved (R372). -/
def State.ctxLive (s : State) (ctx : BitVec 12) : Bool :=
  s.clusters.any (fun k => match k.run with | some r => r.ctx == ctx | none => false) ||
    s.tasks.any fun t => t.ctx == ctx && t.gangs.any fun g => g.st == .running || g.st == .frozen || !g.saved.isEmpty

def execSnaproll (i : BitVec 4) (s : State) : Res :=
  .next (match s.snaps.find? fun r => r.idx == i.toNat with
    | none => s
    | some r =>
      if s.ctxLive r.ctx then { s with outbox := s.outbox ++ [.busy] }
      else
        let w := s.rawWord r.root &&& ~~~2#64
        { s with mem := wrBytes s.mem r.root (leBytes 8 w.toNat)
                 clusters := s.clusters.map fun k => { k with upd := k.upd.filter fun (a, _) => !(decide (r.live ≤ a) && decide (a < r.live + 2 ^ 16 * r.pages)) } })

/-! ### Peers and the host (R297, R304, R383 to R385, R392) -/

def execPeerWindowWrite (i : BitVec 4) (v : BitVec 128) (s : State) : Res :=
  s.viaHost fun s => .next { s with inWin := s.inWin.set i.toNat (v &&& 0x0000007FFFFFF01FFFFFFFFFFF800000#128) }

/-- Some fabric port carries requests (R383). -/
def State.fabricIde (s : State) : Bool := !s.fabricPorts.isEmpty

/-- Bytes that an access from outside touches. -/
def AccKind.size (k : AccKind) (n : Nat) : Nat := match k with | .atomic .cas _ => n / 2 | _ => n

/-- An access from outside to this device's memory: a read answers its bytes, of the length of the data given, an atomic its old value; a write,
an atomic or an update tags (0, 0) (R302). Of the accesses to a landing zone, a peer's writes are deliveries and its adds are signals (R317). -/
def State.outsideAccess (s : State) (peer : Bool) (k : AccKind) (a : Nat) (data : List Byte) : State :=
  match k with
  | .read => (let (bs, s) := s.hBytes (.hbm a) data.length; { s with outbox := s.outbox ++ [.data bs] })
  | .write => if peer then s.land a data else s.hPut (.hbm a) data
  | .atomicAdd =>
    let s := (linesOf a data.length).foldl State.recall s
    let t := (s.atomTarget 4 (.hbm a) .add false (data.length == 8) .none (leWord data) 0#64 false []).2
    if peer then { t with bz := s.bz } else t
  | .atomic op sgn =>
    let n := AccKind.size k data.length
    let (old, s) := s.atomTarget 4 (.hbm a) op sgn (n == 8) .none (leWord (data.take n)) (leWord (data.drop n)) true []
    { s with outbox := s.outbox ++ [.data (leBytes n old.toNat)] }
  | .update op ty =>
    let (bs, s) := s.hbmRead a (updBytes ty)
    (s.hbmWrite a (leBytes (updBytes ty) (updFold op ty (leWord bs) (leWord data)).toNat)).tagAt a 0#24

/-- What the host has written to device memory is noted as it stands. -/
def State.noteHost (s : State) (a n : Nat) : State :=
  { s with hostPut := sputs none a ((List.range n).map fun i => some (s.raw (s.readAddr (a + i)))) s.hostPut }

/-- The home of an access from outside is in service and can be reached, and an atomic's operand is a whole word (R145, R367, R368). -/
def State.outsideOk (s : State) (k : AccKind) (a : Nat) (data : List Byte) : Bool :=
  let n := AccKind.size k data.length
  (match s.target a with | some t => !s.routeLost 4 t | none => false) &&
    match k with
    | .read | .write => true
    | .atomicAdd => n == 8
    | .atomic op _ => (n == 4 || n == 8) && a % n == 0 && data.length == (if op = .cas then 2 * n else n)
    | .update _ ty => n == updBytes ty && a % n == 0

def execPeerInboundRequest (src : BitVec 12) (k : AccKind) (off : BitVec 39) (data : List Byte) (s : State) : Res :=
  let a := off.toNat
  .next (if s.hand.isNone && s.fabricIde && s.inWin.any (fun w => winAdmits w src k a (AccKind.size k data.length)) && s.outsideOk k a data then
      s.outsideAccess true k a data
    else { s with outbox := s.outbox ++ [.abort src] })

/-- The host's accesses to the device's memory over CXL.mem are coherent with the device's own (R297). -/
def execHostHdmAccess (k : AccKind) (addr : BitVec 39) (data : List Byte) (s : State) : Res :=
  .next (if s.portOpen 0 true && s.outsideOk k addr.toNat data && decide (addr.toNat + data.length ≤ 2 ^ 39) then
      let s := s.outsideAccess false k addr.toNat data
      if k = .read then s else s.noteHost addr.toNat (AccKind.size k data.length)
    else { s with outbox := s.outbox ++ [.refused] })

/-- A write to one of a context's Bozoak registers (Table 21-1, R311, R312). -/
def State.bzRegWrite (s : State) (via : Via) (k : BitVec 4) (off : Nat) (v : BitVec 64) : Res :=
  if off = 8 then .next (if s.reaches via k.toNat then s.onBz k.toNat fun b => { b with desc := v &&& 0x01FFFFFFFFFFFFFF#64 } else s)
  else if off = 16 then
    if v.setWidth 2 = 1#2 then execBzcmdStart via k s
    else if v.setWidth 2 = 2#2 then execBzcmdStop via k s
    else if v.setWidth 2 = 3#2 then execBzcmdClrcnt via k s
    else .next s
  else if off = 0 ∧ via = .supervisor then execBzbindWrite k v s
  else .next s

/-- Eight bytes of a window's record buffer, while BUSY is clear. -/
def LaunchWin.putRec (x : LaunchWin) (off : Nat) (v : BitVec 64) : LaunchWin :=
  if x.bound.isNone || x.busy then x
  else { x with rcd := (x.rcd &&& ~~~((0xFFFFFFFFFFFFFFFF#1024) <<< (8 * off))) ||| (v.setWidth 1024 <<< (8 * off)) }

/-- A 64-bit write of the host to BAR 0 (R384, Table 27-1); unassigned offsets and read-only fields ignore it. -/
def execRegisterWrite (off : BitVec 22) (v : BitVec 64) (s : State) : Res :=
  let o := off.toNat
  let w := BitVec.ofNat 4 (o / 0x1000)
  let r := o % 0x1000
  if !s.portOpen 0 false then .next { s with outbox := s.outbox ++ [.refused] }
  else if o % 8 ≠ 0 then .next s
  else if 0x10000 ≤ o ∧ o < 0x20000 then
    if r < 0x80 then .next (s.onWin w fun x => x.putRec r v)
    else if r = 0x80 then execHostLaunchDoorbell w (v.setWidth 32) s
    else if r = 0x90 then execCompletionHeadWrite w v s
    else if 0x800 ≤ r ∧ r < 0xC00 then s.bzRegWrite (.window w) (BitVec.ofNat 4 ((r - 0x800) / 0x40)) (r % 0x40) v
    else .next s
  else if 0x100000 ≤ o ∧ o < 0x110000 then s.bzRegWrite .supervisor w r v
  else .next s

/-- STATE of BZSTAT (Table 21-1). -/
def BzState.code : BzState → Nat
  | .unbound => 0 | .idle => 1 | .running => 2 | .stopped => 3 | .fault => 4

/-- What a read of a context's Bozoak register answers (Table 21-1): BZCMD is write-only and reads zero. -/
def State.bzRegRead (s : State) (via : Via) (k : BitVec 4) (off : Nat) : BitVec 64 :=
  let b := s.bzc k.toNat
  if !s.reaches via k.toNat then 0#64
  else if off = 0 then b.bind
  else if off = 8 then b.desc
  else if off = 24 then b.cause.setWidth 64 <<< 8 ||| BitVec.ofNat 64 b.st.code
  else if off = 32 then b.pc.setWidth 64
  else 0#64

/-- What a read of a launch window's register answers (Table 27-1); an unbound window reads zero. -/
def LaunchWin.read (x : LaunchWin) (off : Nat) : BitVec 64 :=
  match x.bound with
  | none => 0#64
  | some ctx =>
    if off = 0x88 then x.substTag ++ ofBit x.busy ++ 0#23 ++ x.code
    else if off = 0x90 then x.chead.setWidth 64
    else if off = 0x98 then x.ctail.setWidth 64
    else if off = 0xA0 then 0#51 ++ 1#1 ++ ctx
    else if 0x100 ≤ off ∧ off < 0x300 ∧ off % 8 = 0 then x.cring.getD ((off - 0x100) / 8) 0#64
    else 0#64

/-- What a 64-bit read of the host from BAR 0 answers (R384), none where the port refuses it (R382, R383); it changes nothing. -/
def State.regRead (s : State) (off : BitVec 22) : Option (BitVec 64) :=
  let o := off.toNat
  let w := BitVec.ofNat 4 (o / 0x1000)
  let r := o % 0x1000
  if !s.portOpen 0 false then none
  else if o % 8 ≠ 0 then some 0#64
  else if 0x10000 ≤ o ∧ o < 0x20000 then
    some (if 0x800 ≤ r ∧ r < 0xC00 then s.bzRegRead (.window w) (BitVec.ofNat 4 ((r - 0x800) / 0x40)) (r % 0x40) else (s.wins.getD w.toNat LaunchWin.reset).read r)
  else if 0x100000 ≤ o ∧ o < 0x110000 then some (s.bzRegRead .supervisor w r)
  else some 0#64

/-! ### Power and monitors (R386 to R388) -/

/-- PCAP from 400 W; a larger value than 2,600 W stores that, and for a smaller one than 400 W the manual states none. -/
def execPcapWrite (watts : BitVec 32) (s : State) : Res :=
  s.viaHost fun s =>
  if 2600 < watts.toNat then .next { s with pcap := 2600#32 }
  else if watts.toNat < 400 then
    let (n, s) := s.freeIn 400 2600
    .next { s with pcap := BitVec.ofNat 32 n }
  else .next { s with pcap := watts }

/-- TWARN and TCRIT, from 70 to 115 degrees with TWARN not above TCRIT; other values are not taken. -/
def execTemperatureLimitWrite (warn crit : BitVec 16) (s : State) : Res :=
  .next (if 70 ≤ warn.toNat ∧ warn.toNat ≤ crit.toNat ∧ crit.toNat ≤ 115 then { s with twarn := warn, tcrit := crit } else s)

/-- COLTHR from 1 to 255 and COLWIN from 1 s to 3,600 s; other values are not taken. -/
def execColumnEventLimitWrite (thr seconds : BitVec 32) (s : State) : Res :=
  .next (if 1 ≤ thr.toNat ∧ thr.toNat ≤ 255 ∧ 1 ≤ seconds.toNat ∧ seconds.toNat ≤ 3600 then { s with colthr := thr, colwin := seconds } else s)

/-- The gang a cluster's run belongs to. -/
def Cluster.gangOf (k : Cluster) : Option (Nat × Nat) := k.run.map fun r => (r.task, r.gang)

/-- The clusters of a cluster's gang; the cluster alone where it runs none. -/
def State.gangMates (s : State) (c : Nat) : List Nat :=
  (List.range 16).filter fun d => d == c || ((s.cl c).gangOf.isSome && (s.cl d).gangOf == (s.cl c).gangOf)

/-- The hottest sensor of a die (R388). -/
def State.hottest (s : State) (die : Nat) : Nat := ((s.sensors.drop (64 * die)).take 64).foldl Nat.max 0

/-- The arbiter's grants of a window: what each cluster, stack and port gets is free, and all together stay under PCAP (R386); the clusters of a die
above TWARN get half (R388). -/
def State.allot (s : State) : State :=
  let (l, _, s) := (List.range 32).foldl (fun (l, left, (s : State)) _ =>
    let (n, s) := s.freeIn 0 left
    (l ++ [n], left - n, s)) (([] : List Nat), s.pcap.toNat, s)
  { s with grants := l.zipIdx.map fun (n, i) => if i < 16 ∧ s.twarn.toNat < s.hottest (i / 4) then n / 2 else n }

/-- Grants for a cluster and its gang: a clock from the lowest up and a throttle hold; the lowest clock and 850 cycles where one of their dies is
above TCRIT; after too many droops the clock falls (R386 to R388). -/
def State.grant (s : State) (c : Nat) : Nat × Nat × State :=
  let low := Nat.min 1700 (Nat.max 1 Config.lowestClock)
  let (f, s) := s.free
  let (t, s) := s.freeIn 0 850
  if (s.gangMates c).any fun d => decide (s.tcrit.toNat < s.hottest (d / 4)) then (low, 850, s)
  else
    let top := Nat.max low (if (s.gangMates c).any fun d => s.droopUsed.getD d 0 == 851 then (s.cl c).clock - 1 else 1700)
    (low + f % (top + 1 - low), t, s)

/-- A power window begins: power is granted under the cap, and every cluster gets its clock and throttle hold, those of one gang the same; a droop hold
under way runs to its end, and counts in the window (R386, R387). A cluster that runs nothing waits at full clock with no hold of the arbiter's, but on a
die above TCRIT (R44, R388; log entry 50). -/
def execPowerWindow (s : State) : Res :=
  .next ((List.range 16).foldl (fun s c =>
    let mate := (List.range c).find? fun d => (s.cl c).gangOf.isSome && (s.cl d).gangOf == (s.cl c).gangOf
    let left := ((s.gangMates c).map fun d => (s.cl d).throttle - s.ct).foldl Nat.max 0
    let (clock, hold, s) := match mate with
      | some d => ((s.cl d).clock, (s.cl d).throttle - s.ct, s)
      | none =>
        let (clock, hold, s) := s.grant c
        if (s.cl c).run.isNone && decide (s.hottest (c / 4) ≤ s.tcrit.toNat) then (1700, left, s) else (clock, Nat.max hold left, s)
    { s with droopUsed := s.droopUsed.set c hold }.onCl c fun k => { k with clock := clock, throttle := s.ct + hold }) s.allot)

/-- A droop: a throttle hold of 32 cycles, or, beyond 850 cycles in the window, a lower clock from the next (R387); all clusters of the gang take the same
(R386). -/
def execDroopDetect (c : BitVec 4) (s : State) : Res :=
  let mates := s.gangMates c.toNat
  let used := (mates.map fun d => s.droopUsed.getD d 0).foldl Nat.max 0
  let till := Nat.max ((mates.map fun d => (s.cl d).throttle).foldl Nat.max 0) (s.ct + 32)
  .next (mates.foldl (fun (s : State) d =>
    if used + 32 ≤ 850 then { s with droopUsed := s.droopUsed.set d (used + 32) }.onCl d fun k => { k with throttle := till }
    else { s with droopUsed := s.droopUsed.set d 851 }) s)

/-! ### Resets (R366, R367, R391) -/

/-- Clusters barred by the spare map or on a die out of service (R264, R367). -/
def State.serves (s : State) (c : Nat) : Bool :=
  !s.dieOut.getLsbD (c / 4) && (List.range 256).all fun i => !(sget 0#32 (256 * c + i) s.spare).getLsbD 31
/-- The k-rows a spare-map entry retires (Table 15-8). -/
def spareRows (e : BitVec 32) : List Nat :=
  (if e.getLsbD 7 then [(e.extractLsb' 0 7).toNat] else []) ++ if e.getLsbD 15 then [(e.extractLsb' 8 7).toNat] else []

/-- The entries of the spare map in order of core, and the digests that slots 5 and 6 measure (R264, R377). -/
def State.spareEntries (s : State) : List (BitVec 32) := (List.range 4096).map fun i => sget 0#32 i s.spare
def State.serviceNow (s : State) : BitVec 256 := Config.serviceDigest s.spareEntries s.svcOut s.svcHot
def State.securityNow (s : State) : BitVec 256 := Config.securityDigest ((s.ctxTab.filter fun (_, d) => d.getLsbD 60).map (·.1))

/-- The die a link takes out of service (R367), and the dies that a set of links takes out. -/
def linkDie (l : Nat) : Nat := if l < 3 then l + 1 else if l = 3 then 3 else l - 4
def linkDies (bad : BitVec 8) : BitVec 4 := (List.range 8).foldl (fun b i => if bad.getLsbD i then b ||| (1#4 <<< linkDie i) else b) 0#4

/-- At a reset links and ports train: which links cannot, or have no repair lane left, and which ports reach 64 GT/s and x16, is the hardware's; a link
that failed before stays out (R14, R367, R382). -/
def State.train (s : State) : State :=
  let (l, s) := s.free
  let (p, s) := s.free
  { s with linkBad := s.linkBad ||| BitVec.ofNat 8 l, portUp := BitVec.ofNat 8 p }

/-- Work of the device's own that stands among the inputs, and that a reset ends (R391). -/
def ownWork : Instr → Bool
  | .chunkCount _ _ _ _ _ | .maintenanceRun _ | .tlbInvalidationComplete _ _ _ => true
  | _ => false

/-- On-package state as boot leaves it, links and ports trained and the spare map applied; the dies of bad links and those recorded in the service record
are out (R14, R367, R368, R374, R377, R391). -/
def State.boot (s : State) : State :=
  let s := s.train
  let s1 : State := { State.reset with
    mem := s.mem, wtag := s.wtag, poison := s.poison, outer := s.outer, spare := s.spare, svcOut := s.svcOut, svcHot := s.svcHot, errLog := s.errLog
    logOld := s.errLog.length, dieOut := s.svcOut ||| linkDies s.linkBad, linkBad := s.linkBad, portUp := s.portUp, stackBad := s.stackBad, fabBind := []
    inputs := s.inputs.filter (fun (_, i) => !ownWork i), outbox := s.outbox, fresh := s.fresh, sourceFail := s.sourceFail, report := s.report, meas := bootMeas s.serviceNow (Config.securityDigest []) }
  let s1 := { s1 with clusters := s1.clusters.zipIdx.map fun (k, c) =>
    { k with inService := s1.serves c, cores := k.cores.zipIdx.map fun (x, i) => { x with retired := spareRows (sget 0#32 (256 * c + i) s.spare) } } }
  if (List.range 5).all Config.imageOk then s1 else { s1 with ready := false, failed := true }

def execWarmReset (s : State) : Res := .next s.boot
/-- A cold reset also sweeps HBM and its tag planes (R391). -/
def execColdReset (s : State) : Res := .next { s with mem := [], wtag := [], poison := [] }.boot

/-- The aggregator samples its monitors: the thermal sensors, the droop detectors' voltages in mV and the ring oscillators' process codes (R15,
R388). -/
def State.sampleMonitors (s : State) : State :=
  let (ts, s) := s.freeNats 272 0 200
  let (vs, s) := s.freeNats 64 0 1000
  let (ps, s) := s.freeNats 64 0 65535
  { s with sensors := ts, volts := vs, procs := ps }

/-- A sample; above 125 degrees the device resets, with the event in the service record (R388). -/
def execMonitorSample (s : State) : Res :=
  let s := s.sampleMonitors
  if s.sensors.any fun t => 125 < t then
    let (r, s) := s.free
    let s := { s with svcHot := s.svcHot + 1 }
    .next (if r % 2 = 0 then s.boot else { s with mem := [], wtag := [], poison := [] }.boot)
  else .next s

/-- The 64 bytes of a supervisor delivery's report: TRAPCAUSE, TRAPPC, TRAPDT, TRAPOPC, TRAPHND, CT, CTXID, leaf index, writer tag and syndrome (R342; log
entry 53). -/
def OutMsg.reportBytes : OutMsg → List Byte
  | .report cause pc dt opc hnd ctx leaf ct wtag syn =>
    [cause, pc, dt, opc, hnd].flatMap (fun w => leBytes 8 w.toNat) ++ leBytes 8 ct ++ leBytes 2 ctx.toNat ++ leBytes 4 leaf ++ leBytes 3 wtag.toNat ++ leBytes 7 syn.toNat
  | _ => []

/-! ### Scrubbing, links and sources (R360, R362, R368, R389) -/

/-- A word of a scratchpad or B-store of a core goes bad: its 8 bytes hold an uncorrectable error until they are written (Table 25-1). -/
def Core.spoil (x : Core) (n : Nat) : Core := { x with bad := (x.bad ++ (List.range 8).map fun j => 8 * (n % 98304) + j).eraseDups }
/-- Words by number: of a core, and of a sequencer and its tensor maps. -/
def coreWordOf (n : Nat) : CoreWord :=
  let m := n / 8
  match n % 8 with
  | 0 => .v (m % 1024) | 1 => .p (2 + m % 30) | 2 => .d (m % 272) | 3 => .a (m % 16) | 4 => .ft (m % 8) | 5 => .cell (m % 16900) | 6 => .plane (m % 2 == 1)
  | _ => .tag (m % 192)
def seqWordOf (n : Nat) : SeqWord :=
  let m := n / 6
  match n % 6 with
  | 0 => .s (BitVec.ofNat 5 m) | 1 => .b (BitVec.ofNat 3 m) | 2 => .e (BitVec.ofNat 3 m) | 3 => .lc (m % 6) | 4 => .loop (m % 6)
  | _ => .tm (64 * (m % 16) + m / 16 % 53)
/-- An entry of a list is discarded, to be fetched, walked or read again (Table 25-1). -/
def dropAt {α : Type} (n : Nat) (l : List α) : List α := l.eraseIdx (n % Nat.max 1 l.length)
/-- A line of peer memory is discarded: one with bytes that its home has not got leaves its granule poisoned there (Table 25-1). -/
def State.spoilPeer (s : State) (l : Option PeerLine) : State :=
  match l with
  | some x => if x.dirty = 0#128 then s else { s with poison := sput false x.line true s.poison }
  | none => s

/-- What an error of a store of Table 25-1 does where it is found: which store, and where, is the hardware's choice, given as numbers. -/
def State.storeError (s : State) (kind a b : Nat) : State :=
  let c := a % 16
  let i := b % 256
  match kind with
  | 0 => { s with poison := sput false (b % 2 ^ 32) true s.poison }
  | 1 => { s with unitErrs := sput 0 a (sget 0 a s.unitErrs + 1) s.unitErrs }
  | 2 => s.onCl c fun k => k.onCore i fun x => x.spoil (b / 256)
  | 3 => s.onCl c fun k => { k with win := dropAt b k.win }
  | 4 => s.onCl c fun k => { k with tlb := dropAt b k.tlb }
  | 5 => { s with stlb := dropAt b s.stlb }
  | 6 =>
    let l := (s.cl c).far
    (s.spoilPeer l[b % Nat.max 1 l.length]?).onCl c fun k => { k with far := dropAt b k.far }
  | 7 =>
    let l := s.rdcOf (a % 4)
    (s.spoilPeer l[b % Nat.max 1 l.length]?).setRdc (a % 4) (dropAt b l)
  | 8 =>
    -- an update-only line is dirty: its granule is poisoned at the home
    match (s.cl c).upd[b % Nat.max 1 (s.cl c).upd.length]? with
    | some (k, _) => { s.onCl c fun x => { x with upd := x.upd.filter fun (j, _) => j / 128 != k / 128 } with poison := sput false (k / 128) true s.poison }
    | none => s
  | 9 =>
    -- a record of the launch queue, which the launch unit finds when it next reads it
    { s with tasks := s.tasks.modify (b % Nat.max 1 s.tasks.length) fun t => { t with bad := true } }
  | 10 => { s with deliveries := s.deliveries.modify (b % Nat.max 1 s.deliveries.length) fun d => { d with bytes := d.bytes.modify 0 (· ^^^ 0xFF#8) } }
  | 11 => s.onCl c fun k => k.onCore i fun x => { x with hurt := (coreWordOf (b / 256) :: x.hurt).eraseDups }
  | _ => s.onCl c fun k => { k with hurt := (seqWordOf b :: k.hurt).eraseDups }

/-- The unit and the number in it that a report of a bad word gives (log entry 43). -/
def CoreWord.place : CoreWord → Nat × Nat
  | .v n => (2, n) | .p n => (3, n) | .d n => (4, n) | .a n => (5, n) | .ft n => (6, n) | .cell n => (7, n) | .plane pl => (8, pl.toNat) | .tag n => (9, n)
def SeqWord.place : SeqWord → Nat × Nat
  | .s i => (10, i.toNat) | .b i => (11, i.toNat) | .e i => (12, i.toNat) | .lc i => (13, i) | .loop l => (14, l) | .tm n => (15, n)
/-- The bad words of on-package SRAM, reported to the management core: unit 0 a scratchpad, 1 a B-store, 2 to 9 a core's other words, 10 to 15 a cluster's,
16 the launch queue. -/
def State.badWords (s : State) : List OutMsg :=
  (s.clusters.zipIdx.flatMap fun (k, c) =>
    (k.hurt.map fun w => OutMsg.sramError w.place.1 c w.place.2) ++
    k.cores.zipIdx.flatMap fun (x, i) =>
      (((x.bad.map (· / 8)).eraseDups).map fun w => .sramError (if w < 32768 then 0 else 1) c (2 ^ 20 * i + 8 * w)) ++
        x.hurt.map fun w => .sramError w.place.1 c (2 ^ 20 * i + w.place.2)) ++
    (s.tasks.filter (·.bad)).map fun t => .sramError 16 0 t.id

/-- The scrubber reads on: it finds errors of stores that Table 25-1 names, and reports the words of SRAM that it cannot correct (R360, R362). -/
def execPatrolScrub (s : State) : Res :=
  let (r, s) := s.free
  let (a, s) := s.free
  let (b, s) := s.free
  let s := if r % 2 = 1 then s.storeError (r / 2 % 13) a b else s
  .next { s with outbox := s.outbox ++ s.badWords, errCount := s.errCount + s.badWords.length }

/-- A link fails beyond repair in service; its die is recorded and leaves service at the next reset (R368). -/
def execLinkFailure (link : BitVec 3) (s : State) : Res :=
  .next { s with linkBad := s.linkBad ||| (1#8 <<< link.toNat), svcOut := s.svcOut ||| (1#4 <<< linkDie link.toNat) }

/-- A noise source fails: the next cluster's stands in, and the failure is logged (R389). -/
def execNoiseSourceFailure (c : BitVec 4) (s : State) : Res := .next { s with sourceFail := s.sourceFail.set c.toNat true }

end Sys2Proof.Machine
end

