-- ==== Sys2Proof/Machine/Security.lean ====
section
/-!
DEFINITION. Tenant handover (R373 to R381), the root of trust and its measurement slots (R377), and the SPDM responder of the host port with IDE
keys (R378, R383).
-/
namespace Sys2Proof.Machine

/-! ### Handover (R373 to R376, R379 to R381) -/

/-- CT cycles of a step's bound (Table 25-5). -/
def stepBound (n : Nat) : Nat :=
  1700000 * (if n = 1 then 50 else if n = 2 then 2 else if n = 3 then 32 else if n = 4 then 1 else if n = 5 then 900 else if n = 7 then 1500 else 100)

/-- A step begins: its own work is done at a free cycle within its bound. -/
def State.beginStep (s : State) (h : Handover) (n : Nat) : State :=
  let (d, s) := s.freeIn 1 (stepBound n)
  { s with hand := some { h with step := n, begun := s.ct, stepCt := s.ct + d } }

/-- Step 1: every run is killed, every Bozoak context stopped and unbound, the context table cleared. -/
def State.handKill (s : State) : State :=
  let s := s.tasks.foldl State.killTask s
  { s with bz := s.bz.map (fun b => { b with bind := 0#64, st := .unbound, stopping := false, arrived := false, sigDue := none }), ctxTab := [] }

/-- A core as step 2 leaves it: format tables and the drain status record zero too. -/
def Core.zeroed (x : Core) : Core := { Core.reset with ft := List.replicate 8 0#64, dstat := 0#1024, retired := x.retired }

/-- Step 2: on-package state is zeroed or invalidated without write-back, once the lines the host holds are back-invalidated (R374). -/
def State.handZero (s : State) : State :=
  { s with
    clusters := s.clusters.map fun k => { Cluster.reset with
      inService := k.inService, clock := k.clock, clockAcc := k.clockAcc, throttle := k.throttle, ticks := k.ticks, cores := k.cores.map Core.zeroed }
    rdc := List.replicate 4 [], stlb := [], snap := List.replicate 16 0#512, sidecar := [], sideScope := [], cvec := [], inWin := List.replicate 16 0#128
    bz := List.replicate 16 BzCtx.reset, deliveries := [], barIn := []
    outbox := s.outbox ++ [.backInvalidate] }

/-- Step 3: HBM is swept with its tag planes. Which stacks have a granule that cannot be written is the hardware's; its bytes are what they will, and
the fault is kept for the health test (R375). -/
def State.handSweep (s : State) (h : Handover) : Handover × State :=
  let (f, s) := s.free
  let s : State := { s with mem := [], wtag := [], poison := [] }
  ({ h with bad := BitVec.ofNat 8 f },
    ((List.range 8).filter f.testBit).foldl (fun (s : State) i =>
      let (g, s) := s.freeIn 0 (2 ^ 29 - 1)
      let (bs, s) := s.freeBytes 128
      { s with mem := wrBytes s.mem (2 ^ 37 * (i / 2) + 512 * (g / 2) + 256 * (i % 2) + 128 * (g % 2)) bs }) s)
/-- Step 4: keys are erased (R376). -/
def State.handKeys (s : State) : State := { s with ideKeys := [], sessions := [] }

/-- Clusters out of service, one bit for each. -/
def State.outMask (s : State) : BitVec 16 := maskOfList ((List.range 16).filter fun c => !s.serves c)

/-- The health test begins: the management core submits a maintenance run on every in-service cluster (R379, R393). -/
def State.healthRuns (s : State) : State := ((List.range 16).filter fun c => (s.cl c).inService && (s.cl c).run.isNone).foldl State.maintRun s
/-- A maintenance run of it is still there. -/
def State.healthBusy (s : State) : Bool := s.clusters.any fun k => k.priv

/-- Codes of eight units: 2 where one was lost before, else the hardware's; at least 1 where a fault is known. -/
def State.unitCodes (s : State) (old fault : BitVec 8) : List Nat × State :=
  (List.range 8).foldl (fun (l, s) i =>
    let (f, s) := s.freeIn (if fault.getLsbD i then 1 else 0) 2
    (l ++ [if old.getLsbD i then 2 else f], s)) (([] : List Nat), s)
/-- The units with code 2. -/
def lostOf (l : List Nat) : BitVec 8 := (List.range 8).foldl (fun b i => if l.getD i 0 = 2 then b ||| (1#8 <<< i) else b) 0#8
/-- The stacks of a set of dies. -/
def stacksOf (d : BitVec 4) : BitVec 8 := (List.range 8).foldl (fun b i => if d.getLsbD (i / 2) then b ||| (1#8 <<< i) else b) 0#8

/-- The health test ends: what each stack, link and port comes to is the hardware's, a stack the sweep could not write not passing; whether any of them
or a cluster is newly lost, and the three code lists (R375, R379). -/
def State.handHealth (s : State) (h : Handover) : Bool × List Nat × List Nat × List Nat × State :=
  let old := s.stackBad ||| stacksOf s.dieOut
  let (links0, ports0) := (s.linkBad, s.portUp)
  let (hbm, s) := s.unitCodes old h.bad
  let (links, s) := s.unitCodes links0 0#8
  let (ports, s) := s.unitCodes (~~~ports0) 0#8
  let s := { s with stackBad := s.stackBad ||| (lostOf hbm &&& ~~~old), linkBad := lostOf links, svcOut := s.svcOut ||| linkDies (lostOf links &&& ~~~links0)
                    portUp := ~~~(lostOf ports) }
  (lostOf hbm != old || lostOf links != links0 || lostOf ports != ~~~ports0 || s.outMask != h.out, hbm, links, ports, s)

/-- Bytes 0 to 639 of the report (Table 25-7). -/
def State.reportBody (s : State) (h : Handover) (result : Nat) (hbm links ports : List Nat) : List Byte :=
  let entries := s.spareEntries
  let map : Nat := ((List.range 16).filter fun c => (s.cl c).inService).foldl (fun n c => n + 2 ^ c) 0
  leBytes 4 1 ++ leBytes 4 result ++ digestBytes h.nonce ++ leBytes 8 h.ctStart ++ leBytes 8 s.ct ++ s.meas.flatMap digestBytes ++ leBytes 2 map ++
    [0#8, 0#8] ++ leBytes 4 (entries.map fun e => (spareRows e).length).sum ++ (hbm ++ links ++ ports).map (BitVec.ofNat 8) ++
    digestBytes (sha256 (entries.flatMap fun e => leBytes 4 e.toNat)) ++ List.replicate 8 0#8

/-- Publish the report, signed over its first 640 bytes or not (R380, R381). -/
def State.publish (s : State) (body : List Byte) (signed : Bool) : State :=
  let sig : BitVec 3072 := if signed then Config.sign (sha256 body) else 0#3072
  { s with report := sig ++ BitVec.ofNat 5120 (leNat body) }

/-- The codes of stacks, links and ports that a report of a failed handover gives: those of the health test where it has ended, else 2 for what is known
to be out, and for the rest what the hardware says (R380; log entry 84). -/
def State.failCodes (s : State) (h : Handover) : List Nat × List Nat × List Nat × State :=
  if h.step = 8 then
    let b (i : Nat) : List Nat := ((h.body.drop i).take 8).map (·.toNat)
    (b 576, b 584, b 592, s)
  else
    let (hbm, s) := s.unitCodes (s.stackBad ||| stacksOf s.dieOut) h.bad
    let (links, s) := s.unitCodes s.linkBad 0#8
    let (ports, s) := s.unitCodes (~~~s.portUp) 0#8
    (hbm, links, ports, s)
/-- A step fails: the device serves no launch; the report carries RESULT 2, signed where step 5 has passed (R381). -/
def State.handFail (s : State) (h : Handover) : State :=
  let (hbm, links, ports, s) := s.failCodes h
  { s.publish (s.reportBody h 2 hbm links ports) (decide (5 < h.step)) with failed := true, ready := false, hand := some { h with failed := true } }

/-- The current step's work is done: its effect, and the next step begins (Table 25-5). -/
def State.handStep (s : State) (h : Handover) : State :=
  match h.step with
  | 1 => s.beginStep h 2
  | 2 => s.handZero.beginStep h 3
  | 3 => let (h, s) := s.handSweep h; s.beginStep h 4
  | 4 => s.handKeys.beginStep h 5
  | 5 =>
    if (List.range 5).all Config.imageOk then
      let s := { s with meas := bootMeas s.serviceNow s.securityNow }
      s.healthRuns.beginStep { h with out := s.outMask } 7
    else s.handFail h
  | 7 =>
    let (lost, hbm, links, ports, s) := s.handHealth h
    s.beginStep { h with body := s.reportBody h (if lost then 1 else 0) hbm links ports } 8
  | _ =>
    -- the report is completed with CTEND and signed
    { s.publish (h.body.take 48 ++ leBytes 8 s.ct ++ h.body.drop 56) true with hand := none }

/-- What a step still waits for beside its own work: the kill for its deliveries, the health test for its maintenance runs (R335, R379). -/
def State.handWaits (s : State) (h : Handover) : Bool := (h.step == 1 && !s.deliveries.isEmpty) || (h.step == 7 && s.healthBusy)

/-- A handover under way goes on when its step's cycle has come and it waits for nothing; a step past its bound has failed (R381). -/
def State.handTurn (s : State) : State :=
  match s.hand with
  | none => s
  | some h =>
    if h.failed then s
    else if decide (h.begun + stepBound h.step < s.ct) then s.handFail h
    else if decide (s.ct < h.stepCt) || s.handWaits h then s
    else s.handStep h

/-- The supervisor starts a handover with a nonce (R373). -/
def execHandover (nonce : BitVec 256) (s : State) : Res :=
  s.viaHost fun s => .next (if s.hand.isSome then s
    else s.handKill.beginStep { nonce := nonce, step := 1, ctStart := s.ct, begun := s.ct, stepCt := s.ct, failed := false, bad := 0#8, out := 0#16, body := [] } 1)

/-- A step overruns its bound, or a kill cannot complete (R381). -/
def execHandoverStepOverrun (s : State) : Res :=
  .next (match s.hand with
    | none => s
    | some h => if h.failed then s else s.handFail h)

/-! ### Measurement (R377) -/

/-- Supervisor commands extend slots 7 to 15. -/
def execMeasurementSlotExtend (slot : BitVec 4) (digest : BitVec 256) (s : State) : Res :=
  .next (if slot.toNat < 7 then { s with outbox := s.outbox ++ [.refused] }
    else { s with meas := s.meas.set slot.toNat (sha256 (digestBytes (s.meas.getD slot.toNat 0#256) ++ digestBytes digest)) })

/-! ### SPDM (R378) -/

/-- SPDM is served over the host port where that is up (R382), but between the start of a handover and the end of its re-boot, and after a failure there
(Table 25-5, R381). -/
def State.spdmUp (s : State) : Bool := s.portUp.getLsbD 0 && match s.hand with | some h => decide (5 < h.step) | none => true

/-- An answer of the responder, where it is served; the number is the request's place in the list of R378. -/
def State.answer (s : State) (n : Nat) (bs : List Byte) : State :=
  if s.spdmUp then { s with outbox := s.outbox ++ [.spdm n bs] } else s
def State.spdmRefuse (s : State) : State := if s.spdmUp then { s with outbox := s.outbox ++ [.refused] } else s

/-- Bytes with the identity key's signature. -/
def signed (bs : List Byte) : List Byte := bs ++ leBytes 384 (Config.sign (sha256 bs)).toNat

def execGetVersion (s : State) : Res := .next (s.answer 0 (Config.spdmBody 0 []))
def execGetCapabilities (s : State) : Res := .next (s.answer 1 (Config.spdmBody 1 []))
def execNegotiateAlgorithms (offer : List Byte) (s : State) : Res := .next (s.answer 2 (Config.spdmBody 2 offer))
/-- The digest of the one chain that slot 0 holds. -/
def execGetDigests (s : State) : Res := .next (s.answer 3 (digestBytes (sha256 Config.certificate)))
def execGetCertificate (slot : BitVec 8) (off len : BitVec 16) (s : State) : Res :=
  .next (if slot = 0#8 then s.answer 4 ((Config.certificate.drop off.toNat).take len.toNat) else s.spdmRefuse)
def execChallenge (slot : BitVec 8) (nonce : BitVec 256) (s : State) : Res :=
  .next (if slot = 0#8 then s.answer 5 (signed (Config.spdmBody 5 (digestBytes nonce))) else s.spdmRefuse)

/-- Measurement block i: slot i - 1, or the digest of the latest handover report. -/
def State.measBlock (s : State) (i : Nat) : List Byte :=
  leBytes 1 i ++ digestBytes (if i = 17 then sha256 (leBytes 1024 s.report.toNat) else s.meas.getD (i - 1) 0#256)
/-- Index 0 asks for the number of blocks and 255 for all of them. -/
def execGetMeasurements (index : BitVec 8) (sign : Bool) (nonce : BitVec 256) (s : State) : Res :=
  let i := index.toNat
  let body : Option (List Byte) :=
    if i = 0 then some (leBytes 1 17)
    else if i = 255 then some ((List.range 17).flatMap fun j => s.measBlock (j + 1))
    else if i ≤ 17 then some (s.measBlock i)
    else none
  .next (match body with
    | none => s.spdmRefuse
    | some bs => s.answer 6 (if sign then signed (bs ++ digestBytes nonce) else bs))

/-- KEY_EXCHANGE opens a session that FINISH confirms. -/
def execKeyExchange (exch : List Byte) (s : State) : Res :=
  .next (if s.spdmUp then
    let (pub, secret) := Config.exchange s.nextSession exch
    ({ s with sessions := s.sessions ++ [⟨s.nextSession, secret, false⟩], nextSession := s.nextSession + 1 } : State).answer 7 (signed (leBytes 96 pub.toNat))
  else s)
def execFinish (session : Nat) (mac : List Byte) (s : State) : Res :=
  .next (match s.sessions.find? fun x => x.id == session with
    | none => s.spdmRefuse
    | some x =>
      if !s.spdmUp then s
      else if mac = digestBytes (Config.finishMac x.secret) then
        ({ s with sessions := s.sessions.map fun y => if y.id = session then { y with live := true } else y } : State).answer 8 []
      else ({ s with sessions := s.sessions.filter fun y => y.id != session } : State).spdmRefuse)
def execEndSession (session : Nat) (s : State) : Res :=
  .next (if s.spdmUp && s.sessions.any (fun x => x.id == session) then
    ({ s with sessions := s.sessions.filter fun x => x.id != session } : State).answer 9 []
  else s.spdmRefuse)

/-- IDE_KM programs a port's key over a session (R383). -/
def execIdeKm (session : Nat) (port : BitVec 3) (link : Bool) (key : BitVec 256) (s : State) : Res :=
  let id := 2 * port.toNat + (if link then 1 else 0)
  .next (if s.spdmUp && s.sessions.any (fun x => x.id == session && x.live) then
    { s with ideKeys := (s.ideKeys.filter fun (i, _) => i != id) ++ [(id, key)] }
  else s.spdmRefuse)

end Sys2Proof.Machine
end

