-- ==== Sys2Proof/Machine/Dispatch.lean ====
section
/-!
DEFINITION. One arm for each constructor of Instr: a direct call of its meaning.
-/
namespace Sys2Proof.Machine
open Sys2Proof

/-- The effect of an instruction word, or of an event, on the state. -/
def exec (i : Instr) (s : State) : Host.Outcome State Fault Refusal :=
  match i with
  | .add sd sa sb => Sys2Proof.Machine.execAdd sd sa sb s
  | .sub sd sa sb => Sys2Proof.Machine.execSub sd sa sb s
  | .and sd sa sb => Sys2Proof.Machine.execAnd sd sa sb s
  | .or sd sa sb => Sys2Proof.Machine.execOr sd sa sb s
  | .xor sd sa sb => Sys2Proof.Machine.execXor sd sa sb s
  | .shl sd sa sb => Sys2Proof.Machine.execShl sd sa sb s
  | .shr sd sa sb => Sys2Proof.Machine.execShr sd sa sb s
  | .sra sd sa sb => Sys2Proof.Machine.execSra sd sa sb s
  | .mul sd sa sb => Sys2Proof.Machine.execMul sd sa sb s
  | .mulh sgn sd sa sb => Sys2Proof.Machine.execMulh sgn sd sa sb s
  | .min sgn sd sa sb => Sys2Proof.Machine.execMin sgn sd sa sb s
  | .max sgn sd sa sb => Sys2Proof.Machine.execMax sgn sd sa sb s
  | .addImm sd sa imm => Sys2Proof.Machine.execAddImm sd sa imm s
  | .subImm sd sa imm => Sys2Proof.Machine.execSubImm sd sa imm s
  | .andImm sd sa imm => Sys2Proof.Machine.execAndImm sd sa imm s
  | .orImm sd sa imm => Sys2Proof.Machine.execOrImm sd sa imm s
  | .xorImm sd sa imm => Sys2Proof.Machine.execXorImm sd sa imm s
  | .shlImm sd sa k => Sys2Proof.Machine.execShlImm sd sa k s
  | .shrImm sd sa k => Sys2Proof.Machine.execShrImm sd sa k s
  | .sraImm sd sa k => Sys2Proof.Machine.execSraImm sd sa k s
  | .mulImm sd sa imm => Sys2Proof.Machine.execMulImm sd sa imm s
  | .mulhImm sd sa imm => Sys2Proof.Machine.execMulhImm sd sa imm s
  | .minImm sd sa imm => Sys2Proof.Machine.execMinImm sd sa imm s
  | .maxImm sd sa imm => Sys2Proof.Machine.execMaxImm sd sa imm s
  | .cmp c bd sa sb => Sys2Proof.Machine.execCmp c bd sa sb s
  | .cmpImm c bd sa imm => Sys2Proof.Machine.execCmpImm c bd sa imm s
  | .fop op bd ba bb => Sys2Proof.Machine.execFop op bd ba bb s
  | .nopn n => Sys2Proof.Machine.execNopn n s
  | .ldi sd imm => Sys2Proof.Machine.execLdi sd imm s
  | .ldih sd h imm => Sys2Proof.Machine.execLdih sd h imm s
  | .br cf disp => Sys2Proof.Machine.execBr cf disp s
  | .jmp sa => Sys2Proof.Machine.execJmp sa s
  | .call sd disp => Sys2Proof.Machine.execCall sd disp s
  | .ret sa => Sys2Proof.Machine.execRet sa s
  | .loop n => Sys2Proof.Machine.execLoop n s
  | .loopReg sa => Sys2Proof.Machine.execLoopReg sa s
  | .lbrk cf disp => Sys2Proof.Machine.execLbrk cf disp s
  | .pini sa sb => Sys2Proof.Machine.execPini sa sb s
  | .parr sa => Sys2Proof.Machine.execParr sa s
  | .pwait sa sb => Sys2Proof.Machine.execPwait sa sb s
  | .pwaitImm sa ph => Sys2Proof.Machine.execPwaitImm sa ph s
  | .bset sc sa sb => Sys2Proof.Machine.execBset sc sa sb s
  | .bwait sc sa sb => Sys2Proof.Machine.execBwait sc sa sb s
  | .ldf sgn sz sd sa off => Sys2Proof.Machine.execLdf sgn sz sd sa off s
  | .stf sz sd sa off => Sys2Proof.Machine.execStf sz sd sa off s
  | .atom op sgn w64 ret ord sc sd sa sb => Sys2Proof.Machine.execAtom op sgn w64 ret ord sc sd sa sb s
  | .fence kind sc => Sys2Proof.Machine.execFence kind sc s
  | .cred op sd aa => Sys2Proof.Machine.execCred op sd aa s
  | .cmsk m => Sys2Proof.Machine.execCmsk m s
  | .tex ek imm => Sys2Proof.Machine.execTex ek imm s
  | .texReg ek sa imm => Sys2Proof.Machine.execTexReg ek sa imm s
  | .srr sd sel => Sys2Proof.Machine.execSrr sd sel s
  | .srw sel sa => Sys2Proof.Machine.execSrw sel sa s
  | .trap code => Sys2Proof.Machine.execTrap code s
  | .lnch sd sa => Sys2Proof.Machine.execLnch sd sa s
  | .aadd ad aa ab => Sys2Proof.Machine.execAadd ad aa ab s
  | .asub ad aa ab => Sys2Proof.Machine.execAsub ad aa ab s
  | .aaddi ad aa imm => Sys2Proof.Machine.execAaddi ad aa imm s
  | .ashl ad aa n => Sys2Proof.Machine.execAshl ad aa n s
  | .amov ad aa => Sys2Proof.Machine.execAmov ad aa s
  | .aldi ad imm => Sys2Proof.Machine.execAldi ad imm s
  | .acix m ad => Sys2Proof.Machine.execAcix m ad s
  | .afroms ad n => Sys2Proof.Machine.execAfroms ad n s
  | .shw tm fld sm => Sys2Proof.Machine.execShw tm fld sm s
  | .shwi tm fld imm => Sys2Proof.Machine.execShwi tm fld imm s
  | .ftw ft sm => Sys2Proof.Machine.execFtw ft sm s
  | .ftwField ft fld imm => Sys2Proof.Machine.execFtwField ft fld imm s
  | .vld vt aa pd ck off => Sys2Proof.Machine.execVld vt aa pd ck off s
  | .vst vt aa pd off => Sys2Proof.Machine.execVst vt aa pd off s
  | .vldb vt aa pd ck off => Sys2Proof.Machine.execVldb vt aa pd ck off s
  | .vlds vt aa pd ck stride => Sys2Proof.Machine.execVlds vt aa pd ck stride s
  | .vldx half vt aa pd vi => Sys2Proof.Machine.execVldx half vt aa pd vi s
  | .vstx half vt aa pd vi => Sys2Proof.Machine.execVstx half vt aa pd vi s
  | .pld pt aa ck off => Sys2Proof.Machine.execPld pt aa ck off s
  | .pst pt aa off => Sys2Proof.Machine.execPst pt aa off s
  | .dld dt aa ck off => Sys2Proof.Machine.execDld dt aa ck off s
  | .dst dt aa off => Sys2Proof.Machine.execDst dt aa off s
  | .vldf vt tm aa pd off => Sys2Proof.Machine.execVldf vt tm aa pd off s
  | .vstf vt tm aa pd off => Sys2Proof.Machine.execVstf vt tm aa pd off s
  | .vupd op ty vt tm aa pd => Sys2Proof.Machine.execVupd op ty vt tm aa pd s
  | .vadd c sz sgn sat vd va vb => Sys2Proof.Machine.execVadd c sz sgn sat vd va vb s
  | .vsub c sz sgn sat vd va vb => Sys2Proof.Machine.execVsub c sz sgn sat vd va vb s
  | .vmul c sz vd va vb => Sys2Proof.Machine.execVmul c sz vd va vb s
  | .vmulh c sz sgn vd va vb => Sys2Proof.Machine.execVmulh c sz sgn vd va vb s
  | .vmad c sz vd va vb vc => Sys2Proof.Machine.execVmad c sz vd va vb vc s
  | .vmin c sz sgn vd va vb => Sys2Proof.Machine.execVmin c sz sgn vd va vb s
  | .vmax c sz sgn vd va vb => Sys2Proof.Machine.execVmax c sz sgn vd va vb s
  | .vabs c sz sat vd va => Sys2Proof.Machine.execVabs c sz sat vd va s
  | .vneg c sz sat vd va => Sys2Proof.Machine.execVneg c sz sat vd va s
  | .vand c sz vd va vb => Sys2Proof.Machine.execVand c sz vd va vb s
  | .vor c sz vd va vb => Sys2Proof.Machine.execVor c sz vd va vb s
  | .vxor c sz vd va vb => Sys2Proof.Machine.execVxor c sz vd va vb s
  | .vnot c sz vd va => Sys2Proof.Machine.execVnot c sz vd va s
  | .vshl c sz vd va vb => Sys2Proof.Machine.execVshl c sz vd va vb s
  | .vshr c sz vd va vb => Sys2Proof.Machine.execVshr c sz vd va vb s
  | .vsra c sz vd va vb => Sys2Proof.Machine.execVsra c sz vd va vb s
  | .vclz c sz vd va => Sys2Proof.Machine.execVclz c sz vd va s
  | .vpopc c sz vd va => Sys2Proof.Machine.execVpopc c sz vd va s
  | .fadd c ty vd va vb => Sys2Proof.Machine.execFadd c ty vd va vb s
  | .fsub c ty vd va vb => Sys2Proof.Machine.execFsub c ty vd va vb s
  | .fmul c ty vd va vb => Sys2Proof.Machine.execFmul c ty vd va vb s
  | .ffma c ty vd va vb vc => Sys2Proof.Machine.execFfma c ty vd va vb vc s
  | .ffms c ty vd va vb vc => Sys2Proof.Machine.execFfms c ty vd va vb vc s
  | .fmin c ty vd va vb => Sys2Proof.Machine.execFmin c ty vd va vb s
  | .fmax c ty vd va vb => Sys2Proof.Machine.execFmax c ty vd va vb s
  | .fabs c ty vd va => Sys2Proof.Machine.execFabs c ty vd va s
  | .fneg c ty vd va => Sys2Proof.Machine.execFneg c ty vd va s
  | .fcps c ty vd va vb => Sys2Proof.Machine.execFcps c ty vd va vb s
  | .fexp2 c ty vd va => Sys2Proof.Machine.execFexp2 c ty vd va s
  | .flog2 c ty vd va => Sys2Proof.Machine.execFlog2 c ty vd va s
  | .frcp c ty vd va => Sys2Proof.Machine.execFrcp c ty vd va s
  | .frsq c ty vd va => Sys2Proof.Machine.execFrsq c ty vd va s
  | .fsqrt c ty vd va => Sys2Proof.Machine.execFsqrt c ty vd va s
  | .ftanh c ty vd va => Sys2Proof.Machine.execFtanh c ty vd va s
  | .fsigm c ty vd va => Sys2Proof.Machine.execFsigm c ty vd va s
  | .fsin c ty vd va => Sys2Proof.Machine.execFsin c ty vd va s
  | .fcos c ty vd va => Sys2Proof.Machine.execFcos c ty vd va s
  | .vcmp c sz cond pd va vb => Sys2Proof.Machine.execVcmp c sz cond pd va vb s
  | .fcmp c ty cond pd va vb => Sys2Proof.Machine.execFcmp c ty cond pd va vb s
  | .vsel c sz vd va vb => Sys2Proof.Machine.execVsel c sz vd va vb s
  | .fcls c ty vd va => Sys2Proof.Machine.execFcls c ty vd va s
  | .vcvt c k rm nsat vd va => Sys2Proof.Machine.execVcvt c k rm nsat vd va s
  | .vpack sz sat vd va vb => Sys2Proof.Machine.execVpack sz sat vd va vb s
  | .vunpk sz sgn hi vd va => Sys2Proof.Machine.execVunpk sz sgn hi vd va s
  | .vqnt fs vd va => Sys2Proof.Machine.execVqnt fs vd va s
  | .vdqt fs vd va => Sys2Proof.Machine.execVdqt fs vd va s
  | .vred c k vd va => Sys2Proof.Machine.execVred c k vd va s
  | .vamax c ty m vd va => Sys2Proof.Machine.execVamax c ty m vd va s
  | .vscan c k excl vd va => Sys2Proof.Machine.execVscan c k excl vd va s
  | .vperm c sz vd va vb => Sys2Proof.Machine.execVperm c sz vd va vb s
  | .vshuf c sz vd va vb vc => Sys2Proof.Machine.execVshuf c sz vd va vb vc s
  | .vbcst c sz idx vd va => Sys2Proof.Machine.execVbcst c sz idx vd va s
  | .vsld c sz k vd va vb => Sys2Proof.Machine.execVsld c sz k vd va vb s
  | .vzip c sz hi vd va vb => Sys2Proof.Machine.execVzip c sz hi vd va vb s
  | .vmov c sz rep vd va => Sys2Proof.Machine.execVmov c sz rep vd va s
  | .vmovi c sz imm vd => Sys2Proof.Machine.execVmovi c sz imm vd s
  | .pand c pd pa pb => Sys2Proof.Machine.execPand c pd pa pb s
  | .por c pd pa pb => Sys2Proof.Machine.execPor c pd pa pb s
  | .pxor c pd pa pb => Sys2Proof.Machine.execPxor c pd pa pb s
  | .pnot c pd pa => Sys2Proof.Machine.execPnot c pd pa s
  | .pcnt c sz pd pa => Sys2Proof.Machine.execPcnt c sz pd pa s
  | .pfirst c sz pd pa => Sys2Proof.Machine.execPfirst c sz pd pa s
  | .vrnd c m vd => Sys2Proof.Machine.execVrnd c m vd s
  | .vchk rng mir ty trp t pd va vb => Sys2Proof.Machine.execVchk rng mir ty trp t pd va vb s
  | .mbld fs pl ck aa off => Sys2Proof.Machine.execMbld fs pl ck aa off s
  | .mbldh pl => Sys2Proof.Machine.execMbldh pl s
  | .mrow op bk fs pl va m st hoff vh => Sys2Proof.Machine.execMrow op bk fs pl va m st hoff vh s
  | .mchk bk fs pl reg st => Sys2Proof.Machine.execMchk bk fs pl reg st s
  | .mzero bk => Sys2Proof.Machine.execMzero bk s
  | .macc bd bs => Sys2Proof.Machine.execMacc bd bs s
  | .mdrn bk fs m nochk ckw tm col => Sys2Proof.Machine.execMdrn bk fs m nochk ckw tm col s
  | .mdrnk bk fs va k nochk mode m nr rb => Sys2Proof.Machine.execMdrnk bk fs va k nochk mode m nr rb s
  | .mstat va clr => Sys2Proof.Machine.execMstat va clr s
  | .mrd bk va ln => Sys2Proof.Machine.execMrd bk va ln s
  | .mwr bk va ln => Sys2Proof.Machine.execMwr bk va ln s
  | .mrot bd bs pl m => Sys2Proof.Machine.execMrot bd bs pl m s
  | .mdiag va => Sys2Proof.Machine.execMdiag va s
  | .mspr va persist row => Sys2Proof.Machine.execMspr va persist row s
  | .xld o => Sys2Proof.Machine.execXld o s
  | .xldw o => Sys2Proof.Machine.execXldw o s
  | .xst o => Sys2Proof.Machine.execXst o s
  | .xput o => Sys2Proof.Machine.execXput o s
  | .xb o => Sys2Proof.Machine.execXb o s
  | .xpsh one sa sb => Sys2Proof.Machine.execXpsh one sa sb s
  | .xgth o => Sys2Proof.Machine.execXgth o s
  | .xsct o => Sys2Proof.Machine.execXsct o s
  | .xchn o => Sys2Proof.Machine.execXchn o s
  | .xpair o => Sys2Proof.Machine.execXpair o s
  | .xfil sp o => Sys2Proof.Machine.execXfil sp o s
  | .xcol k o => Sys2Proof.Machine.execXcol k o s
  | .xfen o => Sys2Proof.Machine.execXfen o s
  | .xcan all sq => Sys2Proof.Machine.execXcan all sq s
  | .dadd m dd da db => Sys2Proof.Machine.execDadd m dd da db s
  | .dsub m dd da db => Sys2Proof.Machine.execDsub m dd da db s
  | .dmul m dd da db => Sys2Proof.Machine.execDmul m dd da db s
  | .dmax m dd da db => Sys2Proof.Machine.execDmax m dd da db s
  | .dmin m dd da db => Sys2Proof.Machine.execDmin m dd da db s
  | .daff dd da va => Sys2Proof.Machine.execDaff dd da va s
  | .dmap f dd da => Sys2Proof.Machine.execDmap f dd da s
  | .dmix dd da db va => Sys2Proof.Machine.execDmix dd da db va s
  | .dfrs dd va => Sys2Proof.Machine.execDfrs dd va s
  | .dfrw dd va => Sys2Proof.Machine.execDfrw dd va s
  | .dpnt dd va => Sys2Proof.Machine.execDpnt dd va s
  | .dsmp va da => Sys2Proof.Machine.execDsmp va da s
  | .dmom va da => Sys2Proof.Machine.execDmom va da s
  | .dqnt lin da va => Sys2Proof.Machine.execDqnt lin da va s
  | .dtag op dd da va => Sys2Proof.Machine.execDtag op dd da va s
  | .dmov sel dd da => Sys2Proof.Machine.execDmov sel dd da s
  | .dcnd dd da va => Sys2Proof.Machine.execDcnd dd da va s
  | .send pt ind c p => Sys2Proof.Machine.execSend pt ind c p s
  | .recv pr c => Sys2Proof.Machine.execRecv pr c s
  | .rrs rop pr pt ind c p => Sys2Proof.Machine.execRrs rop pr pt ind c p s
  | .rrd rop pr c => Sys2Proof.Machine.execRrd rop pr c s
  | .copy c => Sys2Proof.Machine.execCopy c s
  | .waitc c => Sys2Proof.Machine.execWaitc c s
  | .sig ind idx p => Sys2Proof.Machine.execSig ind idx p s
  | .sigBit b => Sys2Proof.Machine.execSigBit b s
  | .waits idx n => Sys2Proof.Machine.execWaits idx n s
  | .bzLoop gd n => Sys2Proof.Machine.execBzLoop gd n s
  | .setv gd imm => Sys2Proof.Machine.execSetv gd imm s
  | .addv gd ga imm => Sys2Proof.Machine.execAddv gd ga imm s
  | .peer gd p => Sys2Proof.Machine.execPeer gd p s
  | .peerInd gd pg => Sys2Proof.Machine.execPeerInd gd pg s
  | .peerXor gd pg => Sys2Proof.Machine.execPeerXor gd pg s
  | .bar acq rel => Sys2Proof.Machine.execBar acq rel s
  | .chunkCount c k chunk inc o => Sys2Proof.Machine.execChunkCount c k chunk inc o s
  | .deliveryComplete id => Sys2Proof.Machine.execDeliveryComplete id s
  | .deliveryFailure id => Sys2Proof.Machine.execDeliveryFailure id s
  | .buntingWindowReread task => Sys2Proof.Machine.execBuntingWindowReread task s
  | .windowTimeout task => Sys2Proof.Machine.execWindowTimeout task s
  | .preemptionFreeze task gang => Sys2Proof.Machine.execPreemptionFreeze task gang s
  | .checkpointSave task gang => Sys2Proof.Machine.execCheckpointSave task gang s
  | .gangResume task gang => Sys2Proof.Machine.execGangResume task gang s
  | .killdone ctx => Sys2Proof.Machine.execKilldone ctx s
  | .runEnd c => Sys2Proof.Machine.execRunEnd c s
  | .farAccessHoldEnd c => Sys2Proof.Machine.execFarAccessHoldEnd c s
  | .pwaitResume c => Sys2Proof.Machine.execPwaitResume c s
  | .bwaitComplete c => Sys2Proof.Machine.execBwaitComplete c s
  | .ttsyncRelease c => Sys2Proof.Machine.execTtsyncRelease c s
  | .lnchAnswer c => Sys2Proof.Machine.execLnchAnswer c s
  | .amaxfComplete c => Sys2Proof.Machine.execAmaxfComplete c s
  | .holdTimeout c => Sys2Proof.Machine.execHoldTimeout c s
  | .slipLimit c => Sys2Proof.Machine.execSlipLimit c s
  | .slipEnd c => Sys2Proof.Machine.execSlipEnd c s
  | .codeFetchArrival c => Sys2Proof.Machine.execCodeFetchArrival c s
  | .gatherEntryArrival c => Sys2Proof.Machine.execGatherEntryArrival c s
  | .copyCommandStart c => Sys2Proof.Machine.execCopyCommandStart c s
  | .copyCommandComplete c => Sys2Proof.Machine.execCopyCommandComplete c s
  | .bsetPerform c => Sys2Proof.Machine.execBsetPerform c s
  | .postedAtomPerform c => Sys2Proof.Machine.execPostedAtomPerform c s
  | .updateLineMerge c line => Sys2Proof.Machine.execUpdateLineMerge c line s
  | .windowWrite c => Sys2Proof.Machine.execWindowWrite c s
  | .resultLanding c => Sys2Proof.Machine.execResultLanding c s
  | .scratchpadPerform c => Sys2Proof.Machine.execScratchpadPerform c s
  | .planeReady c => Sys2Proof.Machine.execPlaneReady c s
  | .arrayColumnStep c => Sys2Proof.Machine.execArrayColumnStep c s
  | .drainComplete c => Sys2Proof.Machine.execDrainComplete c s
  | .maintenanceRun c => Sys2Proof.Machine.execMaintenanceRun c s
  | .tlbInvalidationComplete ctx lo hi => Sys2Proof.Machine.execTlbInvalidationComplete ctx lo hi s
  | .throttleHoldEnd c => Sys2Proof.Machine.execThrottleHoldEnd c s
  | .generatorReseed c unit => Sys2Proof.Machine.execGeneratorReseed c unit s
  | .translationReplay c => Sys2Proof.Machine.execTranslationReplay c s
  | .kill ctx => Sys2Proof.Machine.execKill ctx s
  | .droopDetect c => Sys2Proof.Machine.execDroopDetect c s
  | .bozoakContextTurn => Sys2Proof.Machine.execBozoakContextTurn s
  | .bzcmdStart via k => Sys2Proof.Machine.execBzcmdStart via k s
  | .bzcmdStop via k => Sys2Proof.Machine.execBzcmdStop via k s
  | .bzcmdClrcnt via k => Sys2Proof.Machine.execBzcmdClrcnt via k s
  | .bzbindWrite k v => Sys2Proof.Machine.execBzbindWrite k v s
  | .signalArrival k idx => Sys2Proof.Machine.execSignalArrival k idx s
  | .hostLaunchDoorbell w tag => Sys2Proof.Machine.execHostLaunchDoorbell w tag s
  | .completionHeadWrite w v => Sys2Proof.Machine.execCompletionHeadWrite w v s
  | .supervisorRecord rcd => Sys2Proof.Machine.execSupervisorRecord rcd s
  | .forwardedFabricRecord sender rcd pos => Sys2Proof.Machine.execForwardedFabricRecord sender rcd pos s
  | .launchDispatch => Sys2Proof.Machine.execLaunchDispatch s
  | .ageingPeriod => Sys2Proof.Machine.execAgeingPeriod s
  | .remotePennantUpdate c addr operand => Sys2Proof.Machine.execRemotePennantUpdate c addr operand s
  | .launchWindowBind w bound ctx => Sys2Proof.Machine.execLaunchWindowBind w bound ctx s
  | .contextDescriptorWrite ctx v => Sys2Proof.Machine.execContextDescriptorWrite ctx v s
  | .peerWindowWrite x0 v => Sys2Proof.Machine.execPeerWindowWrite x0 v s
  | .peerInboundRequest src k off data => Sys2Proof.Machine.execPeerInboundRequest src k off data s
  | .snapshotDescriptorWrite x0 v => Sys2Proof.Machine.execSnapshotDescriptorWrite x0 v s
  | .snaproll x0 => Sys2Proof.Machine.execSnaproll x0 s
  | .tlbInvalidation ctx lo hi => Sys2Proof.Machine.execTlbInvalidation ctx lo hi s
  | .pcapWrite watts => Sys2Proof.Machine.execPcapWrite watts s
  | .temperatureLimitWrite warn crit => Sys2Proof.Machine.execTemperatureLimitWrite warn crit s
  | .columnEventLimitWrite thr seconds => Sys2Proof.Machine.execColumnEventLimitWrite thr seconds s
  | .halt c => Sys2Proof.Machine.execHalt c s
  | .step c => Sys2Proof.Machine.execStep c s
  | .resume c => Sys2Proof.Machine.execResume c s
  | .rdreg c r => Sys2Proof.Machine.execRdreg c r s
  | .wrreg c r v => Sys2Proof.Machine.execWrreg c r v s
  | .rdimg c core => Sys2Proof.Machine.execRdimg c core s
  | .edimg c core entry e => Sys2Proof.Machine.execEdimg c core entry e s
  | .handover nonce => Sys2Proof.Machine.execHandover nonce s
  | .handoverStepOverrun => Sys2Proof.Machine.execHandoverStepOverrun s
  | .getVersion => Sys2Proof.Machine.execGetVersion s
  | .getCapabilities => Sys2Proof.Machine.execGetCapabilities s
  | .negotiateAlgorithms offer => Sys2Proof.Machine.execNegotiateAlgorithms offer s
  | .getDigests => Sys2Proof.Machine.execGetDigests s
  | .getCertificate slot off len => Sys2Proof.Machine.execGetCertificate slot off len s
  | .challenge slot nonce => Sys2Proof.Machine.execChallenge slot nonce s
  | .getMeasurements index sign nonce => Sys2Proof.Machine.execGetMeasurements index sign nonce s
  | .keyExchange exch => Sys2Proof.Machine.execKeyExchange exch s
  | .finish session mac => Sys2Proof.Machine.execFinish session mac s
  | .endSession session => Sys2Proof.Machine.execEndSession session s
  | .ideKm session port link key => Sys2Proof.Machine.execIdeKm session port link key s
  | .powerWindow => Sys2Proof.Machine.execPowerWindow s
  | .monitorSample => Sys2Proof.Machine.execMonitorSample s
  | .patrolScrub => Sys2Proof.Machine.execPatrolScrub s
  | .linkFailure link => Sys2Proof.Machine.execLinkFailure link s
  | .coldReset => Sys2Proof.Machine.execColdReset s
  | .warmReset => Sys2Proof.Machine.execWarmReset s
  | .registerWrite off v => Sys2Proof.Machine.execRegisterWrite off v s
  | .noiseSourceFailure c => Sys2Proof.Machine.execNoiseSourceFailure c s
  | .measurementSlotExtend slot digest => Sys2Proof.Machine.execMeasurementSlotExtend slot digest s
  | .hostHdmAccess k addr data => Sys2Proof.Machine.execHostHdmAccess k addr data s
  | .forwardedRecordRefusal task => Sys2Proof.Machine.execForwardedRecordRefusal task s
  | .nop => Sys2Proof.Machine.execNop s
  | .endl => Sys2Proof.Machine.execEndl s
  | .ttsync => Sys2Proof.Machine.execTtsync s
  | .rft => Sys2Proof.Machine.execRft s
  | .endRun => Sys2Proof.Machine.execEndRun s
  | .yieldRun => Sys2Proof.Machine.execYieldRun s
  | .bzEndl => Sys2Proof.Machine.execBzEndl s
  | .bzEnd => Sys2Proof.Machine.execBzEnd s
  | .bzNop => Sys2Proof.Machine.execBzNop s

end Sys2Proof.Machine
end

