-- ==== Sys2Proof/Machine/Turns.lean ====
section
/-!
DEFINITION. The turns of a CT cycle: the bundle at a cluster's PC (R84 to R87, R100, R130 to R136, R336), a Bozoak word (R310, R319), the holds of
a cluster, its cycle of own time (R27, R30), its copy engine, Halyard's part, and the layout of the next CT cycle.
-/
namespace Sys2Proof.Machine

/-- One step after another, while each gives a next state. -/
def andThen (r : Res) (f : State → Res) : Res :=
  match r with
  | .next s => f s
  | .fault e => .fault e
  | .refused e => .refused e

/-! ### The bundle at PC -/

/-- The next cycle's reads and lane groups of the repetitions a bundle starts; those of cycles gone by are dropped. -/
def Cluster.reservePorts (k : Cluster) (l : List (Slot × Instr)) : Cluster :=
  { k with
    ports := (k.ports.filter fun (t, _) => decide (k.now < t)) ++ (l.flatMap fun (_, i) => k.absReads i).filter fun (t, _) => decide (k.now < t)
    groups := (k.groups.filter fun (t, _) => decide (k.now < t)) ++ (l.flatMap fun (_, i) => k.absLanes i).filter fun (t, _) => decide (k.now < t) }

/-- The slots of a bundle execute: each reads its operands before any result lands; the S slot last, as it says where PC goes. -/
def runSlots (l : List (Slot × Instr)) (s : State) : Res :=
  l.foldl (fun r (p, i) => andThen r fun s => exec i (s.at' p)) (.next s)

/-- A bundle of which some slot may use a word with an uncorrectable error: the result of one that does is not written, on the cores where it does, or
where it is of the sequencer at all (R360). -/
def runHurt (c : Nat) (l : List (Slot × Instr)) (s : State) : Res :=
  let k := s.cl c
  l.foldl (fun r (p, i) => andThen r fun s =>
    let cs := k.activeIdx.filter (k.coreHurt i)
    if cs.isEmpty && !k.seqHurt i then exec i (s.at' p)
    else if k.seqHurt i || p = .s || p = .x then .next (s.onCl c fun q => q.wordTrap p i cs.head?)
    else
      andThen (exec i ((s.onCl c fun q => { q with cmsk := q.cmsk &&& ~~~(maskOf fun c => cs.contains c) }).at' p)) fun s =>
        .next (s.onCl c fun q => ({ q with cmsk := k.cmsk } : Cluster).wordTrap p i cs.head?)) (.next s)

/-- The slots of a bundle execute. -/
def runBundle (c : Nat) (l : List (Slot × Instr)) (s : State) : Res :=
  if (s.cl c).hurt.isEmpty && (s.cl c).cores.all (·.hurt.isEmpty) then runSlots l s else runHurt c l s

/-- The order the slots are run in. -/
def slotOrder (l : List (Slot × Instr)) : List (Slot × Instr) := (l.filter fun (p, _) => p != .s) ++ l.filter fun (p, _) => p == .s

/-- PC after a bundle: the next address, or the target of a transfer whose delay bundles have issued (R131). -/
def Cluster.goOn (k : Cluster) (before : Option (BitVec 57 × Nat)) : Cluster :=
  let k : Cluster := { k with issued := true, dbg := if k.dbg == .step then .stepped else k.dbg }
  match before with
  | some (t, 0) | some (t, 1) => { k with pc := t, next := t, delay := none }
  | some (t, n + 1) => { k with pc := k.next, delay := some (t, n) }
  | none => { k with pc := k.next }

/-- The bundle at PC issues: its slots execute and PC goes on, unless it left the run itself: a trap taken, a return, END. -/
def State.issueBundle (s : State) (c : Nat) (l : List (Slot × Instr)) (len : Nat) : Res :=
  let before := (s.cl c).delay
  let s := (s.onCl c fun k => { k.reservePorts l with next := k.pc + BitVec.ofNat 57 len }).linkNow c before
  let has (f : Instr → Bool) : Bool := l.any fun (_, i) => f i
  andThen (runBundle c (slotOrder l) s) fun s =>
    let k := s.cl c
    .next (if has (fun i => match i with | .trap _ => true | _ => false) && k.soft.isNone then s.onCl c fun k => { k with dbg := if k.dbg == .step then .stepped else k.dbg }
      else if has (· == .rft) then
        (if k.rft then s.onCl c fun k => { k with issued := true } else s.onCl c fun k => { k with dbg := if k.dbg == .step then .stepped else k.dbg })
      else s.onCl c fun k => k.goOn before)

/-- The issue-time path of an arrived bundle whose slots are known: steps 2 to 8 of R100, the holds before issue, and issue. -/
def State.tryBundle (s : State) (c : Nat) (b : Slots) (len : Nat) : Res :=
  match s.bundleCheck b with
  | some t => .next (s.issueTrap c t)
  | none =>
    let k := s.cl c
    let l := legal b
    match (if l.any fun (_, i) => deliveryPoint i then firstPend k.pend else none) with
    | some f => .next ((s.onCl c fun k => ({ k with pend := k.pend.erase f } : Cluster).forget f).takeTrap c f.trap k.pc k.dt f.origin.pc false)
    | none =>
      match k.tagOut l with
      | .poison core f => .next (s.poisonTrap c core f)
      | .late => .next (s.onCl c fun k => { k with slip := some s.ct })
      | .matched =>
        if k.queueShort l || k.bufferFull l then
          let s := if k.queueShort l then s.beginHold .emptyQueue 0 else s
          let s := if k.bufferFull l then s.beginHold .fullBuffer 0 else s
          .next (s.onCl c fun k => { k with holds := k.holds.map fun h => if preIssue h.kind then { h with start := s.ct } else h })
        else s.issueBundle c l len

/-! ### Fetch (R18, R85 to R87) -/

/-- A line not in the window holds the bundle until it arrives; where its fetch met a fault, the bundle takes it. -/
def State.awaitLine (s : State) (c line : Nat) : State :=
  let k := s.cl c
  let hold (s : State) : State := s.onCl c fun k => { k with holds := k.holds ++ [⟨.lateFetch line, .s, k.pc, s.ct, 0, false, []⟩] }
  match k.fetchFault.find? fun (l, _) => l == line with
  | some (_, t) =>
    if k.replays t then hold s
    else (s.onCl c fun k => { k with fetchFault := k.fetchFault.filter fun (l, _) => l != line }).issueTrap c t
  | none =>
    if k.fetches.any fun (l, _) => l == line then hold s
    else
      let (n, s) := s.free
      hold (s.onCl c fun k => { k with fetches := k.fetches ++ [(line, s.ct + 1 + n)] })

/-- The fetch unit may ask for a line ahead of PC, within the window. -/
def State.prefetch (s : State) (c : Nat) : State :=
  let (r, s) := s.free
  let k := s.cl c
  let line := (k.pc.toNat / 64 + 1 + r / 2 % 511) % 2 ^ 51
  if r % 2 = 0 || k.win.any (fun (l, _) => l == line) || k.fetches.any (fun (l, _) => l == line) then s
  else
    let (n, s) := s.free
    s.onCl c fun k => { k with fetches := k.fetches ++ [(line, s.ct + 1 + n)] }

/-- The completion-point failures due are taken together, the lowest cause named, with the lowest core it arose on (R337, R340); SLOT, INFO and
TRAPOPC are of the earliest failure of that cause on that core (log entry 84). -/
def State.takePoints (s : State) (c : Nat) (due : List CpTrap) : State :=
  let k := s.cl c
  match sortBy (fun (x : CpTrap) => 512 * x.trap.cause.toNat + (match x.trap.core with | some i => i.toNat | none => 256)) due with
  | [] => s
  | f :: r =>
    (s.onCl c fun k => { k with cps := k.cps.filter fun x => !due.contains x }).takeTrap c f.trap k.pc (if k.ending then k.dt - 1 else k.dt) f.origin.pc
      (!r.isEmpty)

/-- What is taken at the bundle at PC before any check of it: a software trap, a hold's fault, completion points (R100, R336, R337). -/
def State.dueTrap (s : State) (c : Nat) : Option State :=
  let k := s.cl c
  match k.soft, k.holdFault, k.cps.filter (fun t => decide (t.due ≤ k.now)) with
  | some (code, opc), _, _ => some (s.takeSoft c code opc)
  | none, some f, _ =>
    some ((s.onCl c fun k => { k with holdFault := none }).takeTrap c f.trap k.pc (if k.ending then k.dt - 1 else k.dt) f.origin.pc false)
  | none, none, f :: r => some (s.takePoints c (f :: r))
  | none, none, [] => none

/-- Traps that are taken although the line at PC is not there: those of the bundle before, at once, past what padding can be seen; a completion point,
once the fetch of the line has failed (R18, R100, R143, R153, R336). -/
def State.dueBlind (s : State) (c line : Nat) : Option State :=
  let k := s.cl c
  if k.soft.isSome || k.holdFault.isSome || k.fetchFault.any (fun (l, t) => l == line && !k.replays t) then
    let (a, s) := State.skipPad c 512 k.pc s
    (s.onCl c fun k => { k with pc := a.1, next := a.1 }).dueTrap c
  else none

/-- PC moves past the padding header that it stands at, and with it the START of a level that begins there (R85, R133). -/
def Cluster.passPad (k : Cluster) : Cluster :=
  let a := BitVec.ofNat 57 (64 * (k.pc.toNat / 64 + 1))
  { k with pc := a, next := a, loops := k.loops.map fun l => if l.start = k.pc then { l with start := a } else l }

/-- The bundle at PC, past the padding of its lines; fuel counts the lines passed. -/
def State.atPc (s : State) (c : Nat) : Nat → Res
  | 0 => .next s
  | fuel + 1 =>
    let k := s.cl c
    let line := k.pc.toNat / 64
    match k.win.find? fun (l, _) => l == line with
    | none => .next ((s.dueBlind c line).getD (s.awaitLine c line))
    | some (_, w) =>
      match decodeBundle ((List.range 64).map fun i => w.extractLsb' (8 * i) 8) (k.pc.toNat % 64) with
      | .ok .padding => (s.onCl c Cluster.passPad).atPc c fuel
      | .ok (.bundle len b) => match s.dueTrap c with | some t => .next t | none => s.tryBundle c b len
      | .error _ => match s.dueTrap c with | some t => .next t | none => .next (s.issueTrap c { cause := cILLBUN, info := 1#16 })

/-- An M word of a maintenance run issues with a mask of cores (R365). -/
def State.maintIssue (s : State) (c : Nat) (m : BitVec 256) (i : Instr) (then' : MaintSt) : Res :=
  andThen (exec i ((s.onCl c fun k => { k with cmsk := m }).at' .m)) fun s => .next (s.onCl c fun k => { k with maint := then', issued := true })

/-- Failed k-rows that a core's MDIAG result names, by the cores they failed on (R262). -/
def Cluster.failedRows (k : Cluster) : List (Nat × BitVec 256) :=
  ((List.range 66).map fun r => (r, maskOf fun c => ((k.core c).vreg 0).getLsbD r && !(k.core c).retired.contains r)).filter fun (_, m) => m != 0#256

/-- The sequencer of a maintenance run: MDIAG on every core, its result awaited, then MSPR.persist of each failed row on the cores it failed on, then
the run's end (R365). -/
def State.maintTurn (s : State) (c : Nat) : Res :=
  let k := s.cl c
  let busy := k.cores.any fun x => decide (k.now < x.diagFree)
  match k.maint with
  | .off => .next s
  | .start => s.maintIssue c (BitVec.allOnes 256) (.mdiag 0#6) .diag
  | .diag => .next (s.onCl c fun k => if busy then { k with issued := true } else { k with maint := .rows k.failedRows })
  | .rows [] => if busy then .next (s.onCl c fun k => { k with issued := true }) else .next (s.onCl c fun k => { k with maint := .off, ending := true })
  | .rows ((r, m) :: rest) => if busy then .next (s.onCl c fun k => { k with issued := true }) else s.maintIssue c m (.mspr 0#6 true (Fin.ofNat 66 r)) (.rows rest)

/-- The turn of a cluster's sequencer, in a cycle of its own time: the bundle at PC, with what stands before it. -/
def State.issueTurn (s : State) (c : Nat) : Res :=
  let s : State := { s with cur := ⟨c, .s, s.cur.bz⟩ }
  let k := s.cl c
  if k.run.isNone || k.frozen || decide (s.ct < k.throttle) then .next s
  else if k.nopLeft ≠ 0 then .next (s.onCl c fun k => { k with nopLeft := k.nopLeft - 1, issued := true })
  else if k.rft || k.ending then
    match s.dueTrap c with
    | some t => .next t
    | none =>
      if k.rft then .next (s.onCl c fun k =>
        if k.quiet then { k.leaveHandler with dbg := if k.dbg == .step then .stepped else k.dbg } else { k with issued := true })
      else .next (s.beginHold .endWait 0)
  else if k.maint ≠ .off then s.maintTurn c
  else (s.onCl c Cluster.trimWin).atPc c 512

/-- The turn found that its bundle cannot issue in this cycle. -/
def Cluster.stalled (k : Cluster) : Bool := k.run.isSome && (k.slip.isSome || k.holds.any fun h => preIssue h.kind)

/-- Events that a cycle in which the cluster stands still has: writes and pennant updates from outside. -/
def Cluster.outer (k : Cluster) (c : Nat) : List Turn :=
  (if k.winW.isEmpty then [] else [.event (.windowWrite (BitVec.ofNat 4 c))]) ++
    if k.penUpds.isEmpty then [] else [.event (.scratchpadPerform (BitVec.ofNat 4 c))]

/-- Before the array works in a cycle it is seen whether the bundle issues: where it slips or holds, the array stands still with the sequencer (R30). -/
def State.probeTurn (s : State) (c : Nat) : State :=
  let c4 := BitVec.ofNat 4 c
  let go (s : State) : State :=
    { s with agenda := [Turn.event (.planeReady c4), .event (.arrayColumnStep c4), .event (.drainComplete c4), .issue c, .event (.windowWrite c4),
        .event (.scratchpadPerform c4)] ++ s.agenda }
  match (s.arrayNow c).issueTurn c with
  | .next t =>
    let q := t.cl c
    if q.stalled then
      let s := ({ s with fresh := t.fresh } : State).onCl c fun k =>
        { k with pc := q.pc, next := q.next, holds := q.holds, slip := q.slip, fetches := q.fetches, win := q.win, loops := q.loops, fetchFault := q.fetchFault }
      { s with agenda := (s.cl c).outer c ++ s.agenda }
    else go s
  | _ => go s

/-! ### A Bozoak word (R319) -/

def State.bozoakWord (s : State) (k : Nat) : Res :=
  let s : State := { s with cur := { s.cur with bz := k } }
  let b := s.bzc k
  if b.st ≠ .running ∨ b.stopping then .next s
  else if b.overrun then s.bzFault bzOVERRUN
  else match s.hWord b.ctx b.pc.toNat with
    | (none, s) => s.bzFault bzTRANS
    | (some w, s) =>
      match decodeWord (.bz w) with
      | .ok i => exec i s
      | .error .reserved => s.bzFault bzRSVD
      | .error _ => s.bzFault bzILLOP

/-! ### Holds of a cluster -/

/-- Events of a cluster's holds, freezes, slips and fetches that may come about in this cycle. A frozen or halted run's accesses go on. -/
def State.holdEvents (s : State) (c : Nat) : List Instr :=
  let k := s.cl c
  let c4 := BitVec.ofNat 4 c
  let stopped := k.frozenPre || k.halted
  let held (f : HoldKind → Bool) : Bool := k.holds.any fun h => f h.kind
  let freeze : List Instr := match k.run with
    | some r => (if k.preReq then [Instr.preemptionFreeze r.task r.gang] else []) ++
        if k.preReq && k.frozenPre then [Instr.checkpointSave r.task r.gang] else []
    | none => []
  let far := (if held (fun x => match x with | .far _ _ => true | _ => false) then [Instr.farAccessHoldEnd c4] else []) ++
    if held (fun x => match x with | .lnch _ _ => true | _ => false) then [Instr.lnchAnswer c4] else []
  let waits := (if held (fun x => match x with | .pwait _ _ | .pflip _ _ => true | _ => false) then [Instr.pwaitResume c4] else []) ++
    (if held (fun x => match x with | .bwait _ _ _ => true | _ => false) then [Instr.bwaitComplete c4] else []) ++
    (if held (· == .ttsync) then [Instr.ttsyncRelease c4] else []) ++
    (if held (fun x => match x with | .amaxf _ _ => true | _ => false) then [Instr.amaxfComplete c4] else []) ++
    (if !k.holds.isEmpty then [Instr.holdTimeout c4] else []) ++
    (if k.slip.isSome then [Instr.slipEnd c4, Instr.slipLimit c4] else []) ++
    if held (· == .endWait) then [Instr.runEnd c4] else []
  let fetch := if k.fetches.any fun (_, t) => decide (t ≤ s.ct) then [Instr.codeFetchArrival c4] else []
  freeze ++ far ++ (if stopped then [] else waits) ++ fetch

def State.holdsTurn (s : State) (c : Nat) : State :=
  let s := s.onCl c fun k => k.wake.debugNow s.ct
  { s with agenda := (s.holdEvents c).map Turn.event ++ s.agenda }

/-! ### A cycle of a cluster -/

/-- A cluster's cycle: at its clock's pace, and unless it is frozen or throttled, results land, the array steps, the next bundle issues, and the
memories perform; in a freeze, the writes from outside and what R30 lets run on. -/
def State.cycleTurn (s : State) (c : Nat) : State :=
  let k := s.cl c
  let c4 := BitVec.ofNat 4 c
  if k.run.isNone then { s with agenda := k.outer c ++ s.agenda }
  else
    let acc := k.clockAcc + k.clock
    let tick := decide (1700 ≤ acc)
    let s := s.onCl c fun k => if tick then { k with clockAcc := acc - 1700, ticks := k.ticks + 1 } else { k with clockAcc := acc }
    if tick && !k.frozen && !decide (s.ct < k.throttle) then { s with agenda := [Turn.event (.resultLanding c4), .probe c] ++ s.agenda }
    else
      if k.halted || k.frozenPre then { s with agenda := k.outer c ++ s.agenda }
      else if k.holds.any (fun h => h.kind == .endWait) then { s with agenda := .event (.scratchpadPerform c4) :: s.agenda }.endCycle c
      else
        let tms := k.holds.filterMap fun h => match h.kind with | .amaxf _ tm => some tm | _ => none
        { (if tms.isEmpty then s else s.runOn c (fun d => !d.kind1 && tms.contains d.tm) (fun _ _ => false) false) with agenda := k.outer c ++ s.agenda }

/-! ### The part of the copy engine, the far cache and the fetch unit -/

/-- Units of a cluster that have used 2^20 blocks of 16 draws (R389). -/
def Cluster.spent (k : Cluster) : List Nat :=
  (k.cores.zipIdx.filter fun (x, _) => decide (blockDraws ≤ x.gen.draws)).map (·.2) ++ if blockDraws ≤ k.egen.draws then [256] else []

def State.engineTurn (s : State) (c : Nat) : State :=
  let k := s.cl c
  let c4 := BitVec.ofNat 4 c
  if k.run.isNone then s
  else
    let s := s.prefetch c
    let posted := if k.posted.isEmpty then [] else [Instr.bsetPerform c4, .postedAtomPerform c4]
    let copies := (if k.active.isEmpty then [] else [Instr.copyCommandComplete c4, .gatherEntryArrival c4]) ++ if k.buf.isEmpty then [] else [Instr.copyCommandStart c4]
    let (r, s) := if k.upd.isEmpty then (0, s) else s.free
    -- a far cache may give a line up at any time
    let merge := match k.upd[r / 8 % k.upd.length]? with | some (a, _) => if r % 8 = 1 then [Instr.updateLineMerge c4 (a / 128)] else [] | none => []
    let seeds := k.spent.map fun u => Instr.generatorReseed c4 (BitVec.ofNat 9 u)
    { s with agenda := (posted ++ copies ++ merge ++ seeds).map Turn.event ++ s.agenda }

/-! ### Halyard's part -/

/-- Deliveries that are due; one to another device may fail, which is for its ports to say. -/
def State.deliveryEvents (s : State) : List Instr × State :=
  (s.deliveries.filter fun d => decide (d.due ≤ s.ct)).foldl (fun (l, s) d =>
    if d.dev = Config.deviceId then (l ++ [if s.admitsOwn d then Instr.deliveryComplete d.id else .deliveryFailure d.id], s)
    else if s.fabricPorts.isEmpty then (l ++ [Instr.deliveryFailure d.id], s)
    else (let (r, s) := s.free; (l ++ [if r % 2 = 1 then Instr.deliveryFailure d.id else .deliveryComplete d.id], s))) ([], s)

/-- Windows to be read again, and those that have waited too long. -/
def State.windowEvents (s : State) : List Instr :=
  s.tasks.flatMap fun t =>
    match t.candidate with
    | some g => if g.st = .blocked then (if t.reread ≤ s.ct then [Instr.buntingWindowReread t.id] else []) ++ [.windowTimeout t.id] else []
    | none => []

/-- The launch unit has something to do, in a cycle it chooses, every 64th at the latest. -/
def State.launchEvents (s : State) : List Instr × State :=
  if s.tasks.any (fun t => t.candidate.isSome) || s.wins.any (·.busy) then
    let (r, s) := s.free
    (if r % 4 = 0 ∨ s.ct % 64 = 0 then [.launchDispatch] else [], s)
  else ([], s)

def State.halyardTurn (s : State) : State :=
  let s := s.handTurn
  let (dels, s) := s.deliveryEvents
  let (lnch, s) := s.launchEvents
  let bz := if s.bz.any fun b => b.st == .running || b.stopping then [Instr.bozoakContextTurn] else []
  { s with agenda := (bz ++ dels ++ s.windowEvents ++ lnch ++ s.killing.map Instr.killdone).map Turn.event ++ s.agenda }

/-! ### The next CT cycle -/

/-- Own time goes on where a cycle of it has passed: DT, or handler cycles (R27, R344). -/
def Cluster.tick (k : Cluster) : Cluster :=
  if !k.issued then k
  else if k.handler.isSome then { k with hc := k.hc + 1, issued := false }
  else { k with dt := k.dt + 1, issued := false }

/-- Events that fall on a CT cycle: inputs due, windows of the arbiter, samples, ageing boundaries, throttle ends. -/
def State.timed (s : State) : List Instr :=
  ((s.inputs.filter fun (t, _) => decide (t ≤ s.ct)).map (·.2)) ++ (if s.ct % 1700 = 0 then [.powerWindow] else []) ++
    (if s.ct % 17000 = 0 then [.monitorSample] else []) ++
    (if s.ageq ≠ 0#32 ∧ s.ct % (s.ageq.toNat * 1700) = 0 then [.ageingPeriod] else []) ++
    ((List.range 16).filter fun c => decide ((s.cl c).throttle ≠ 0 ∧ (s.cl c).throttle ≤ s.ct)).map fun c => .throttleHoldEnd (BitVec.ofNat 4 c)

/-- Chip time advances, and the turns of the cycle are laid out. -/
def State.newCycle (s : State) : State :=
  let s := { s with ct := s.ct + 1, clusters := s.clusters.map Cluster.tick }
  let ev := s.timed
  { s with
    inputs := s.inputs.filter fun (t, _) => !decide (t ≤ s.ct)
    agenda := ev.map Turn.event ++ [.halyard] ++ (List.range 16).map Turn.holds ++ (List.range 16).map Turn.cycle ++ (List.range 16).map Turn.engine }

/-- One turn. -/
def turn (t : Turn) (s : State) : Res :=
  match t with
  | .event i => exec i s
  | .holds c => if c < 16 then .next (s.holdsTurn c) else .fault .noUnit
  | .cycle c => if c < 16 then .next (s.cycleTurn c) else .fault .noUnit
  | .issue c => if c < 16 then s.issueTurn c else .fault .noUnit
  | .probe c => if c < 16 then .next (s.probeTurn c) else .fault .noUnit
  | .engine c => if c < 16 then .next (s.engineTurn c) else .fault .noUnit
  | .halyard => .next s.halyardTurn
  | .bzFetch k => if k < 16 then s.bozoakWord k else .fault .noUnit

/-- The turn at the head of the agenda; an empty agenda ends the CT cycle. -/
def State.advance (s : State) : Res :=
  match s.agenda with
  | [] => .next s.newCycle
  | t :: r => turn t { s with agenda := r }

end Sys2Proof.Machine
end

