-- ==== Sys2Proof/Machine/Step.lean ====
section
/-!
DEFINITION. One step of the device: the turn at the head of its agenda; and the placing of one instruction where the next step fetches it.
-/
namespace Sys2Proof.Machine

/-- One step. -/
def step (s : State) : Host.Outcome State Fault Refusal := s.advance

/-- The state with an instruction placed where the next step fetches it. A bundle stands at address 0 of a run of cluster 0, its line in the
code window, and the cluster's sequencer has the turn; a Bozoak word (64 bits) stands at PC of context 0, whose context is mapped one to one (log
entry 9). -/
def State.withFetchWord (s : State) (nbits w : Nat) : State :=
  if nbits = 64 then
    { s with
      agenda := [.bzFetch 0], mem := wrBytes (wrBytes (wrBytes s.mem 0x200000 (leBytes 8 0x600001)) 0x600000 (leBytes 8 0x4B)) 0x1000 (leBytes 8 w)
      ctxTab := sput 0#64 0 0x8000000000200000#64 s.ctxTab
      bz := s.bz.set 0 { s.bzc 0 with bind := 0x8000000000000000#64, st := .running, pc := 0x1000#57 } }
  else
    let line := BitVec.ofNat 512 w
    let run : RunId := {
      task := 0, gang := 0, member := 0, leaf := 0, ctx := 0#12, desc := 0x8000000000200000#64, prio := 0#3, rngm := 0#2, ckpt := 0, tgSize := 1
      startCt := 0, priv := false, logged := 0, logFlag := false }
    { s.onCl 0 fun k => { k with pc := 0#57, win := [(0, line)], run := some run } with agenda := [.issue 0] }

end Sys2Proof.Machine
end

