-- ==== Sys2Proof/Safety.lean ====
section
/-!
DEFINITION. What a sound state is, and the words the statements use: results under way, work that is added to the active cores, the state
a bundle is ready to issue from.
-/
namespace Sys2Proof.Machine

/-- The limits that software sets stay in the ranges the platform takes (R364, R386, R388). -/
def State.limitsOk (s : State) : Prop :=
  (400 ≤ s.pcap.toNat ∧ s.pcap.toNat ≤ 2600) ∧ (70 ≤ s.twarn.toNat ∧ s.twarn.toNat ≤ s.tcrit.toNat ∧ s.tcrit.toNat ≤ 115) ∧
    (1 ≤ s.colthr.toNat ∧ s.colthr.toNat ≤ 255) ∧ (1 ≤ s.colwin.toNat ∧ s.colwin.toNat ≤ 3600)

/-- The units of the device (R17, R310, R385). -/
def State.unitsOk (s : State) : Prop := s.clusters.length = 16 ∧ s.bz.length = 16 ∧ s.wins.length = 16

/-- Soundness: device memory and the memory outside are in canonical form, the device has its units, and its limits are in range. -/
def State.Inv (s : State) : Prop := (Memory.wf s.mem = true ∧ Memory.wf s.outer = true) ∧ s.unitsOk ∧ s.limitsOk

/-- An S-slot result is under way: it lands in lat cycles of the cluster's own time, and nothing else has changed (R96). -/
def State.under (s : State) (d : SDest) (v : BitVec 256) (lat : Nat) : State :=
  s.onMe fun k => { k with simg := k.simg ++ [⟨d, v, k.now + lat⟩] }
/-- A 64-bit result for an s register. -/
def State.sResult (s : State) (sd : BitVec 5) (v : Word) (lat : Nat) : State := s.under (.s sd) (v.setWidth 256) lat
/-- A flag. -/
def State.bResult (s : State) (bd : BitVec 3) (v : Bool) : State := s.under (.b bd) (if v then 1#256 else 0#256) 1

/-- Every active core takes work on; the others and the sequencer are as they were (R19). -/
def State.onActive (s : State) (f : Nat → Core → Core) : State := s.onMe fun k => k.onActive f

/-- A cluster's sequencer may look at the bundle at PC in this cycle: it runs, no hold, freeze or throttle stands, no NOPN fills the cycle, and no
trap, return or end is due; and no maintenance run occupies it, whose turn issues a sequence of its own (R365). -/
def State.mayIssue (s : State) (c : Nat) : Prop :=
  (s.cl c).run.isSome = true ∧ (s.cl c).frozen = false ∧ (s.cl c).throttle ≤ s.ct ∧ (s.cl c).nopLeft = 0 ∧ (s.cl c).soft = none ∧
    (s.cl c).holdFault = none ∧ ((s.cl c).cps.filter fun t => decide (t.due ≤ (s.cl c).now)) = [] ∧ (s.cl c).rft = false ∧ (s.cl c).ending = false ∧
    (s.cl c).maint = .off

/-- The bundle at PC lies in the code window and decodes to the slots given (R83 to R85, R87). -/
def Cluster.fetches1 (k : Cluster) (len : Nat) (b : Slots) : Prop :=
  ∃ line w, k.win.find? (fun x => x.1 == k.pc.toNat / 64) = some (line, w) ∧
    decodeBundle ((List.range 64).map fun i => w.extractLsb' (8 * i) 8) (k.pc.toNat % 64) = .ok (.bundle len b)

/-- No check of R100 fails for a bundle, no pending fault is due at it, its tags match, and nothing makes it hold before issue. -/
def State.clear (s : State) (c : Nat) (b : Slots) : Prop :=
  s.bundleCheck b = none ∧ (((legal b).any fun x => deliveryPoint x.2) = false ∨ firstPend (s.cl c).pend = none) ∧ (s.cl c).tagOut (legal b) = .matched ∧
    (s.cl c).queueShort (legal b) = false ∧ (s.cl c).bufferFull (legal b) = false

/-- No word of a cluster's registers, banks or tags has an uncorrectable error (R360). -/
def Cluster.whole (k : Cluster) : Prop := k.hurt = [] ∧ ∀ x, x ∈ k.cores → x.hurt = []

/-- A run of a cluster reaches device memory at p by the entry its TLB holds for va, whose rights allow the access, over links that work (R304, R306,
R307, R368). -/
def State.seesAt (s : State) (c va : Nat) (acc : Acc) (p : Nat) : Prop :=
  (s.cl c).desc.getLsbD 63 = true ∧
    (∃ e bits, s.tlbHit (some c) (s.cl c).ctx va = some (e, bits) ∧ leafCheck e acc = none ∧ s.target (leafPa e bits va) = some (.hbm p)) ∧
    s.routeLost (c / 4) (.hbm p) = false

/-- No far cache holds partial results that a read would recall (R296). -/
def State.noPartials (s : State) : Prop := ∀ k, k ∈ s.clusters → k.upd = []

/-- n bytes of device memory as its agents read them, through the snapshot maps (R290, R370). -/
def State.bytesAt (s : State) (p n : Nat) : List Byte := (List.range n).map fun i => s.raw (s.readAddr (p + i))

/-! ### What an instruction leaves as it was -/

/-- Nothing but the current cluster has changed: memory, the other clusters and everything Halyard and the platform hold are as they were. -/
def State.onlyMe (s t : State) : Prop :=
  t = { s with clusters := t.clusters } ∧ t.clusters.length = s.clusters.length ∧ ∀ d, d ≠ s.cur.cl → t.cl d = s.cl d

/-- Of the current cluster, only results under way on the sequencer have changed. -/
def State.onlyResults (s t : State) : Prop := s.onlyMe t ∧ t.me = { s.me with simg := t.me.simg }

/-- Of the current cluster, only cores have changed, the inactive ones not at all (R19). -/
def State.onlyCores (s t : State) : Prop :=
  s.onlyMe t ∧ t.me = { s.me with cores := t.me.cores, lastD := t.me.lastD } ∧ t.me.cores.length = s.me.cores.length ∧
    ∀ i, i < 256 → s.me.cmsk.getLsbD i = false → t.me.core i = s.me.core i

/-- Of a core, only its pipeline, its gather queue and its generator have changed: every register, scratchpad and B-store byte is as it was. -/
def Core.onlyPipe (x y : Core) : Prop := y = { x with pipe := y.pipe, gq := y.gq, gen := y.gen, upset := y.upset }

/-- The registers and memories of a core are as they were: v, p, a, d, ft, scratchpad and B-store. -/
def Core.sameRegs (x y : Core) : Prop :=
  y.v = x.v ∧ y.p = x.p ∧ y.a = x.a ∧ y.dPts = x.dPts ∧ y.dWords = x.dWords ∧ y.ft = x.ft ∧ y.spm = x.spm ∧ y.bst = x.bst

/-- Memory and what lies beyond it are as they were, byte for byte. -/
def State.sameMem (s t : State) : Prop := t.mem = s.mem ∧ t.outer = s.outer

/-- The instruction's own trap was taken in its place. -/
def State.trapped (s t : State) : Prop := ∃ x, t = s.issueTrap s.cur.cl x

end Sys2Proof.Machine

namespace Sys2Proof

/-- Words of the eight slots of a bundle. -/
def Instr.inBundle (i : Instr) : Bool := match encode i with | some (.bz _) => false | some _ => true | none => false
/-- Words of a slot, by the slot's form of word. -/
def Instr.inA (i : Instr) : Bool := match encode i with | some (.a _) => true | _ => false
def Instr.inL (i : Instr) : Bool := match encode i with | some (.l _) => true | _ => false
def Instr.inV (i : Instr) : Bool := match encode i with | some (.v _) => true | _ => false
def Instr.inM (i : Instr) : Bool := match encode i with | some (.m _) => true | _ => false
def Instr.inX (i : Instr) : Bool := match encode i with | some (.x _) => true | _ => false
def Instr.inD (i : Instr) : Bool := match encode i with | some (.d _) => true | _ => false
def Instr.inBz (i : Instr) : Bool := match encode i with | some (.bz _) => true | _ => false

/-- The S instructions whose effect is one result of the sequencer. -/
def Instr.isResult : Instr → Bool
  | .add .. | .sub .. | .and .. | .or .. | .xor .. | .shl .. | .shr .. | .sra .. | .mul .. | .mulh .. | .min .. | .max .. | .addImm .. | .subImm ..
  | .andImm .. | .orImm .. | .xorImm .. | .shlImm .. | .shrImm .. | .sraImm .. | .mulImm .. | .mulhImm .. | .minImm .. | .maxImm .. | .cmp ..
  | .cmpImm .. | .fop .. | .ldi .. | .ldih .. | .cred .. | .cmsk .. | .tex .. | .texReg .. => true
  | _ => false

end Sys2Proof
end

