-- ==== Sys2Proof/Certificates/Slice0/Obligations.lean ====
section
/-!
DEFINITION. The statements for the provers: decoding, what a step does, what each instruction and event comes to, the frames, soundness, traps
and reset.
-/

open Sys2Proof Sys2Proof.Machine

/-! ### Decoding -/

/-- Every well-formed instruction that has a word is read back from its word, with every operand (R83, R111, and the encoding tables). -/
def Obligations.EncodedInstructionDecodes : Prop :=
  ∀ i : Instr, i.wf = true → i.isEvent = false → ∃ w, encode i = some w ∧ decodeWord w = .ok i

/-- Words written out from the encoding tables decode to what they stand for, for each slot and for Bozoak. -/
def Obligations.SampleWordsDecode : Prop :=
  decodeWord (.s 0x04853000#32) = .ok (.add 4#5 5#5 6#5) ∧
  decodeWord (.a 0x0C440080#32) = .ok (.aaddi 1#4 1#4 128#18) ∧
  decodeWord (.l 0x047202C2#32) = .ok (.vld 7#6 2#4 0#4 (some 3#3) 2#6) ∧
  decodeWord (.v 0x414041810010#48) = .ok (.fadd ⟨.w1024, false, 0#4⟩ .f32 40#6 ⟨2#6, 0#2⟩ ⟨3#6, 1#2⟩) ∧
  decodeWord (.m 0x1C30004000200000#64) = .ok (.mdrn 0#2 (.ft 3#3) 63 false false 2#4 none) ∧
  decodeWord (.x 0x04E8019000A84840#64) = .ok (.xld ⟨3#4, 20#5, 200#16, 5#12, 8#5, 9#5, false, false, .cluster, true⟩) ∧
  decodeWord (.d 0x05020000#32) = .ok (.dadd .tags 2#3 0#3 1#3) ∧
  decodeWord (.bz 0x1800000011000000#64) = .ok (.waitc ⟨0#12, .none, 1#4, 1#3⟩)

/-- A bundle's header names its slots and its length; a header of 0 pads; a bundle that would leave its line has none (R83 to R85). -/
def Obligations.BundleFraming : Prop :=
  ∀ (line : List Byte) (o : Nat),
    let h := line.getD o 0#8
    (h = 0#8 → decodeBundle line o = .ok .padding) ∧
    (h ≠ 0#8 → 64 < o + bundleLen h → decodeBundle line o = .error .crossing) ∧
    (h ≠ 0#8 → o + bundleLen h ≤ 64 → ∃ b, decodeBundle line o = .ok (.bundle (bundleLen h) b) ∧ b.map (·.1) = headerSlots h) ∧
    1 ≤ bundleLen h ∧ bundleLen h ≤ 45

/-! ### A step -/

/-- A step with an event at the head of the agenda is the event. It rests also on choices of the model: log entries 7, 16. -/
def Obligations.StepRunsEvent : Prop :=
  ∀ (s : State) (i : Instr) (r : List Turn), s.agenda = .event i :: r → step s = exec i { s with agenda := r }

/-- A step at a sequencer's turn whose bundle decodes, passes every check and need not wait runs its slots: each instruction is executed in the state
the slots before it left, with its slot named, the S slot last; PC then goes on (R84 to R87, R100, R131, R134), but for a TRAP taken and an RFT that
returned, which have said themselves where PC goes, and an RFT that waits, at which it stays (R153). Where some word of the cluster has an
uncorrectable error, the slots run as R360 has it. It rests also on choices of the model: log entries 7, 16, 43, 72. -/
def Obligations.StepRunsBundle : Prop :=
  ∀ (s : State) (c len : Nat) (b : Slots) (r : List Turn), c < 16 → s.agenda = .issue c :: r →
    let s0 : State := { s with agenda := r, cur := ⟨c, .s, s.cur.bz⟩ }
    let s1 := s0.onCl c Cluster.trimWin
    let s2 := (s1.onCl c fun k => { k.reservePorts (legal b) with next := k.pc + BitVec.ofNat 57 len }).linkNow c (s1.cl c).delay
    let after (t : State) : Res := .next (t.onCl c fun k =>
      let left : Cluster := { k with dbg := if k.dbg == .step then .stepped else k.dbg }
      if (legal b).any (fun x => match x.2 with | .trap _ => true | _ => false) && k.soft.isNone then left
      else if (legal b).any (fun x => x.2 == .rft) then if k.rft then { k with issued := true } else left
      else k.goOn (s1.cl c).delay)
    s0.mayIssue c → (s1.cl c).fetches1 len b → s1.clear c b →
    step s = andThen (runBundle c (slotOrder (legal b)) s2) after ∧
    ((s2.cl c).whole → step s = andThen ((slotOrder (legal b)).foldl (fun q x => andThen q fun t => exec x.2 (t.at' x.1)) (.next s2)) after) ∧
    ((s1.cl c).linkPend = none → s2 = s1.onCl c fun k => { k.reservePorts (legal b) with next := k.pc + BitVec.ofNat 57 len })

/-- A step whose bundle is one slot that decodes to an instruction is exec of that instruction, and PC goes on, but for a TRAP taken, which has said
where, and for RFT, which goes back or waits (R84, R131, R153). An instruction that uses a word of the sequencer with an uncorrectable error leaves
its result unwritten, and its machine error is due where the result would have become visible (R360). It rests also on choices of the model: log
entries 7, 16, 43, 72. It rests also on choices of the model: log entries 7, 16. -/
def Obligations.StepRunsOneSlot : Prop :=
  ∀ (s : State) (c len : Nat) (p : Slot) (i : Instr) (r : List Turn), c < 16 → s.agenda = .issue c :: r →
    let s0 : State := { s with agenda := r, cur := ⟨c, .s, s.cur.bz⟩ }
    let s1 := s0.onCl c Cluster.trimWin
    let s2 := (s1.onCl c fun k => { k.reservePorts [(p, i)] with next := k.pc + BitVec.ofNat 57 len }).linkNow c (s1.cl c).delay
    s0.mayIssue c → (s1.cl c).fetches1 len [(p, .ok i)] → s1.clear c [(p, .ok i)] →
    ((s2.cl c).whole → ∀ t, exec i (s2.at' p) = .next t →
      step s = .next (t.onCl c fun k =>
        let left : Cluster := { k with dbg := if k.dbg == .step then .stepped else k.dbg }
        match i with
        | .trap _ => if k.soft.isNone then left else k.goOn (s1.cl c).delay
        | .rft => if k.rft then { k with issued := true } else left
        | _ => k.goOn (s1.cl c).delay)) ∧
    ((s2.cl c).seqHurt i = true → step s = .next ((s2.onCl c fun k =>
      k.wordTrap p i ((s2.cl c).activeIdx.filter ((s2.cl c).coreHurt i)).head?).onCl c fun k => k.goOn (s1.cl c).delay))

/-- A step at a Bozoak context's turn is exec of the word at its PC, decoded (R310, R319). It rests also on choices of the model: log entries 7, 33.
-/
def Obligations.StepRunsBozoakWord : Prop :=
  ∀ (s t : State) (k : Nat) (w : BitVec 64) (i : Instr) (r : List Turn), k < 16 → s.agenda = .bzFetch k :: r →
    let s0 : State := { s with agenda := r, cur := { s.cur with bz := k } }
    (s0.bzc k).st = .running → (s0.bzc k).stopping = false → (s0.bzc k).overrun = false →
    s0.hWord (s0.bzc k).ctx (s0.bzc k).pc.toNat = (some w, t) → decodeWord (.bz w) = .ok i → step s = exec i t

/-- With the cycle's agenda done, CT advances by one; DT advances by one on each cluster that issued outside handler mode, and on no other (R26, R27,
R344). It rests also on choices of the model: log entries 7, 17. -/
def Obligations.StepAdvancesTime : Prop :=
  ∀ s : State, s.agenda = [] → ∃ t, step s = .next t ∧ t.ct = s.ct + 1 ∧ t.mem = s.mem ∧ t.outer = s.outer ∧
    t.clusters.length = s.clusters.length ∧
    ∀ c, c < s.clusters.length →
      (t.cl c).dt = (s.cl c).dt + (if (s.cl c).issued && (s.cl c).handler.isNone then 1 else 0) ∧
      (t.cl c).hc = (s.cl c).hc + (if (s.cl c).issued && (s.cl c).handler.isSome then 1 else 0) ∧
      t.cl c = { s.cl c with dt := (t.cl c).dt, hc := (t.cl c).hc, issued := false }

/-- Every instruction and event, in every state, answers a next state: the model refuses and faults on none. -/
def Obligations.ExecAnswersNext : Prop := ∀ (i : Instr) (s : State), ∃ t, exec i s = .next t

/-! ### Soundness and reset -/

/-- The device right after reset is sound. It rests also on choices of the model: log entries 5, 61. -/
def Obligations.ResetIsSound : Prop := State.reset.Inv

/-- Every step keeps soundness: memory in canonical form, the units of the device, the limits in range. It rests also on choices of the model: log
entries 5, 50. It rests also on choices of the model: log entries 5, 50. -/
def Obligations.StepKeepsSoundness : Prop := ∀ s t : State, s.Inv → step s = .next t → t.Inv

/-- Reset leaves the values the manual gives: time 0, no run on any cluster, memory zero and its tag planes clear, every context and snapshot
unbound, Bozoak contexts unbound, temperature and column limits at their defaults (R26, R305, R310, R370, R374, R388, Table 26-4). PCAP at 2,600
is the model's own reading (log entry 5). -/
def Obligations.ResetValues : Prop :=
  State.reset.ct = 0 ∧ (∀ c, c < 16 → (State.reset.cl c).run = none ∧ (State.reset.cl c).handler = none ∧ (State.reset.cl c).dt = 0) ∧
    (∀ a, rdByte State.reset.mem a = 0#8) ∧ State.reset.wtag = [] ∧ State.reset.poison = [] ∧
    (∀ x : BitVec 12, (State.reset.descOf x).getLsbD 63 = false) ∧ State.reset.snaps = [] ∧ (∀ k, k < 16 → (State.reset.bzc k).st = .unbound) ∧
    State.reset.twarn = 95#16 ∧ State.reset.tcrit = 110#16 ∧ State.reset.colthr = 3#32 ∧ State.reset.colwin = 60#32 ∧
    State.reset.pcap = 2600#32 ∧ State.reset.tasks = [] ∧ State.reset.agenda = []

/-! ### The S slot -/

/-- The integer operations and constants: the operands are read at issue, and the one result lands at its latency: 3 cycles for a product, 1 for
the others (R124 to R127). MULH keeps bits 127 to 64 of the product; shift counts are taken modulo 64. -/
def Sys2Proof.Claims.IntegerResults : Prop :=
  ∀ (s : State) (sd sa sb : BitVec 5) (sgn : Bool) (imm : BitVec 16) (k : BitVec 6) (c21 : BitVec 21) (h : BitVec 2),
    let a := s.sx sa
    let b := s.sx sb
    exec (.add sd sa sb) s = .next (s.sResult sd (a + b) 1) ∧
    exec (.sub sd sa sb) s = .next (s.sResult sd (a - b) 1) ∧
    exec (.and sd sa sb) s = .next (s.sResult sd (a &&& b) 1) ∧
    exec (.or sd sa sb) s = .next (s.sResult sd (a ||| b) 1) ∧
    exec (.xor sd sa sb) s = .next (s.sResult sd (a ^^^ b) 1) ∧
    exec (.shl sd sa sb) s = .next (s.sResult sd (a <<< (b.toNat % 64)) 1) ∧
    exec (.shr sd sa sb) s = .next (s.sResult sd (a >>> (b.toNat % 64)) 1) ∧
    exec (.sra sd sa sb) s = .next (s.sResult sd (a.sshiftRight (b.toNat % 64)) 1) ∧
    exec (.mul sd sa sb) s = .next (s.sResult sd (a * b) 3) ∧
    exec (.mulh sgn sd sa sb) s = .next (s.sResult sd
      (if sgn then BitVec.ofInt 64 (a.toInt * b.toInt / 2 ^ 64) else BitVec.ofNat 64 (a.toNat * b.toNat / 2 ^ 64)) 3) ∧
    exec (.min sgn sd sa sb) s = .next (s.sResult sd (if (if sgn then b.slt a else b.ult a) then b else a) 1) ∧
    exec (.max sgn sd sa sb) s = .next (s.sResult sd (if (if sgn then a.slt b else a.ult b) then b else a) 1) ∧
    exec (.addImm sd sa imm) s = .next (s.sResult sd (a + imm.signExtend 64) 1) ∧
    exec (.subImm sd sa imm) s = .next (s.sResult sd (a - imm.signExtend 64) 1) ∧
    exec (.andImm sd sa imm) s = .next (s.sResult sd (a &&& imm.setWidth 64) 1) ∧
    exec (.orImm sd sa imm) s = .next (s.sResult sd (a ||| imm.setWidth 64) 1) ∧
    exec (.xorImm sd sa imm) s = .next (s.sResult sd (a ^^^ imm.setWidth 64) 1) ∧
    exec (.shlImm sd sa k) s = .next (s.sResult sd (a <<< k.toNat) 1) ∧
    exec (.shrImm sd sa k) s = .next (s.sResult sd (a >>> k.toNat) 1) ∧
    exec (.sraImm sd sa k) s = .next (s.sResult sd (a.sshiftRight k.toNat) 1) ∧
    exec (.mulImm sd sa imm) s = .next (s.sResult sd (a * imm.signExtend 64) 3) ∧
    exec (.mulhImm sd sa imm) s = .next (s.sResult sd (BitVec.ofInt 64 (a.toInt * (imm.signExtend 64).toInt / 2 ^ 64)) 3) ∧
    exec (.minImm sd sa imm) s = .next (s.sResult sd (if (imm.signExtend 64).slt a then imm.signExtend 64 else a) 1) ∧
    exec (.maxImm sd sa imm) s = .next (s.sResult sd (if a.slt (imm.signExtend 64) then imm.signExtend 64 else a) 1) ∧
    exec (.ldi sd c21) s = .next (s.sResult sd (c21.signExtend 64) 1) ∧
    exec (.ldih sd h imm) s = .next (s.sResult sd
      ((s.sx sd &&& ~~~(0xFFFF#64 <<< (16 * h.toNat))) ||| (imm.setWidth 64 <<< (16 * h.toNat))) 1)

/-- CMP sets a flag from a comparison, of a register or an immediate, a cycle later (R128). -/
def Sys2Proof.Claims.CompareSetsFlag : Prop :=
  ∀ (s : State) (bd : BitVec 3) (sa sb : BitVec 5) (imm : BitVec 12) (c : Cond),
    exec (.cmp c bd sa sb) s = .next (s.bResult bd (c.holds (s.sx sa) (s.sx sb))) ∧
    exec (.cmpImm c bd sa imm) s = .next (s.bResult bd (c.holds (s.sx sa) (imm.signExtend 64)))

/-- FOP of every operation writes one flag at t + 1: b[ba] op b[bb], or the complement of b[ba]; a word of FOP.not with a nonzero bb is no instruction
(R129). Says that these complete: fop. -/
def Obligations.FlagOperations : Prop :=
  (∀ (s : State) (op : FlagOp) (bd ba bb : BitVec 3), ∃ t, exec (.fop op bd ba bb) s = .next t ∧
    t = s.bResult bd (match op with
      | .and => s.me.flag ba && s.me.flag bb
      | .or => s.me.flag ba || s.me.flag bb
      | .xor => s.me.flag ba != s.me.flag bb
      | .not => !s.me.flag ba)) ∧
  (∀ (s : State) (bd ba bb : BitVec 3),
    exec (.fop .and bd ba bb) s = .next (s.bResult bd (s.me.flag ba && s.me.flag bb)) ∧
    exec (.fop .or bd ba bb) s = .next (s.bResult bd (s.me.flag ba || s.me.flag bb)) ∧
    exec (.fop .xor bd ba bb) s = .next (s.bResult bd (s.me.flag ba != s.me.flag bb)) ∧
    exec (.fop .not bd ba bb) s = .next (s.bResult bd (!s.me.flag ba))) ∧
  ∀ (bd ba bb : BitVec 3), bb ≠ 0#3 → Instr.wf (.fop .not bd ba bb) = false

/-- A taken transfer leaves two delay bundles before its target; BR not taken changes nothing; CALL also links the address after the second
delay bundle. Where a line of the two cannot be read yet, the register holds a free value until a delay bundle that issues shows where the second one
ends: at the second one, or at the first where the second can be seen by then (R130, R131). -/
def Sys2Proof.Claims.Transfers : Prop :=
  ∀ (s : State) (cf : CF) (disp : BitVec 21) (sa sd : BitVec 5) (c : Nat) (tgt : BitVec 57),
    let called (u : State) (link : BitVec 57) : State :=
      (u.onMe fun k => { k with delay := some (u.me.pc + disp.signExtend 57, 2) }).onMe fun k => k.sWrite sd (link.setWidth 64) 1
    (cf.taken s.me.flag = true → exec (.br cf disp) s = .next (s.onMe fun k => { k with delay := some (s.me.pc + disp.signExtend 57, 2) })) ∧
    (cf.taken s.me.flag = false → exec (.br cf disp) s = .next s) ∧
    (farRange (s.sx sa) = false → exec (.jmp sa) s = .next (s.onMe fun k => { k with delay := some ((s.sx sa).setWidth 57, 2) })) ∧
    (farRange (s.sx sa) = false → exec (.ret sa) s = .next (s.onMe fun k => { k with delay := some ((s.sx sa).setWidth 57, 2) })) ∧
    (match s.linkOf with
     | (some link, u) => exec (.call sd disp) s = .next (called u link)
     | (none, u) => exec (.call sd disp) s = .next
        ((u.free.2.onMe fun k => { k with delay := some (u.me.pc + disp.signExtend 57, 2) }).onMe fun k =>
          k.sLand (.link sd) ((BitVec.ofNat 57 u.free.1).setWidth 256) 1)) ∧
    (∀ a b t u, s.afterBundle s.cur.cl s.me.next = (some a, t) → t.afterBundle t.cur.cl a = (some b, u) →
      exec (.call sd disp) s = .next (called u b)) ∧
    ((s.cl c).linkPend = some (sd, (s.cl c).handler.isSome) →
      s.linkNow c (some (tgt, 1)) = s.onCl c (fun k => { k with s := k.s.set sd.toNat ((s.cl c).next.setWidth 64), linkPend := none }) ∧
      ∀ a t, s.afterBundle c (s.cl c).next = (some a, t) →
        s.linkNow c (some (tgt, 2)) = t.onCl c fun k => { k with s := k.s.set sd.toNat (a.setWidth 64), linkPend := none })

/-- LOOP starts a level with its count, its start at the next bundle, past any padding, and clears its lc; ENDL counts, rotates both bases for the next bundle and goes back to the start while the
count is below the trip count, or pops; LBRK pops and goes to its target, or does nothing (R85, R133, R134). -/
def Sys2Proof.Claims.Loops : Prop :=
  ∀ (s : State) (n : BitVec 16) (sa : BitVec 5) (cf : CF) (disp : BitVec 21) (l : LoopLv) (r : List LoopLv),
    let started (count : BitVec 32) : Res :=
      let u := State.skipPad s.cur.cl 512 s.me.next s
      .next (u.2.onMe fun k => { (k.heal (.loop k.loops.length)).sLand (.lc k.loops.length) 0#256 1 with
        loops := ⟨count, u.1.1, u.1.1.toNat / 64, false⟩ :: k.loops })
    (s.me.loops.length ≠ 6 → n ≠ 0#16 → exec (.loop n) s = started (n.setWidth 32)) ∧
    (s.me.loops.length ≠ 6 → s.sx sa ≠ 0#64 → (s.sx sa).toNat < 2 ^ 32 → exec (.loopReg sa) s = started ((s.sx sa).setWidth 32)) ∧
    (s.me.loops = l :: r →
      let v := s.me.lc.getD r.length 0#32 + 1#32
      let counted (k : Cluster) : Cluster := { k.sLand (.lc r.length) (v.setWidth 256) 1 with rrbv := k.rrbv - 1#5, rrbp := k.rrbp - 1#3 }
      exec .endl s = .next (s.onMe fun k => if v.ult l.tc then
        { counted k with next := l.start, loops := { l with last := k.pc.toNat / 64, closed := true } :: r } else { counted k with loops := r })) ∧
    (s.me.loops = l :: r → cf.taken s.me.flag = true → exec (.lbrk cf disp) s = .next (s.onMe fun k =>
      { k with loops := r, next := s.me.pc + disp.signExtend 57 })) ∧
    (s.me.loops = l :: r → cf.taken s.me.flag = false → exec (.lbrk cf disp) s = .next s)

/-- Transfers and loops. It rests also on choices of the model: log entries 71, 72. Says that these complete: br, jmp, ret, call, loop, loopReg, endl,
lbrk. -/
def Obligations.TransfersAndLoops : Prop :=
  Claims.Transfers ∧ Claims.Loops

/-- LOOP with a full stack or a bad count, and ENDL and LBRK with none, take the loop traps instead (R133, R134). -/
def Sys2Proof.Claims.LoopTraps : Prop :=
  ∀ (s : State) (n : BitVec 16) (sa : BitVec 5) (cf : CF) (disp : BitVec 21),
    (s.me.loops.length = 6 → exec (.loop n) s = .next (s.issueTrap s.cur.cl (s.trapOf cLOOPSTK)) ∧
      exec (.loopReg sa) s = .next (s.issueTrap s.cur.cl (s.trapOf cLOOPSTK))) ∧
    (s.me.loops.length ≠ 6 → (s.sx sa = 0#64 ∨ 2 ^ 32 ≤ (s.sx sa).toNat) → exec (.loopReg sa) s = .next (s.issueTrap s.cur.cl (s.trapOf cLOOPCNT))) ∧
    (s.me.loops = [] → exec .endl s = .next (s.issueTrap s.cur.cl (s.trapOf cLOOPSTK)) ∧
      exec (.lbrk cf disp) s = .next (s.issueTrap s.cur.cl (s.trapOf cLOOPSTK)))

/-- NOP does nothing; NOPN fills n cycles, the bundle's own among them; TTSYNC alone in its timegroup completes at once, and else holds, its
arrival noted (R48, R136, R137). -/
def Sys2Proof.Claims.Waits : Prop :=
  ∀ (s : State) (n : BitVec 21),
    exec .nop s = .next s ∧
    exec (.nopn n) s = .next (s.onMe fun k => { k with nopLeft := n.toNat - 1 }) ∧
    (s.me.tgSize ≤ 1 → exec .ttsync s = .next s) ∧
    (1 < s.me.tgSize → exec .ttsync s = .next ((s.beginHold .ttsync 0).onMe fun k => { k with tts := some s.ct }))

/-- PINI and PARR perform 8 cycles on; PWAIT goes on where the phase differs, with the clocks of the credits it consumes, holds where it does
not, and ends in a schedule fault where OVF stands; BSET is posted, with the release of a FENCE before it, and BWAIT holds (R138 to R141, R231). -/
def Sys2Proof.Claims.PennantsAndBunting : Prop :=
  ∀ (s : State) (sa sb : BitVec 5) (ph : Bool) (sc : Scope),
    let a := (s.sx sa).toNat
    (a < 2 ^ 26 → a % 8 = 0 →
      exec (.pini sa sb) s = .next (s.onMe fun k => { k with inits := k.inits ++ [⟨a, pennantInit (s.sx sb), k.now + 8, k.now⟩] }) ∧
      exec (.parr sa) s = .next (s.onMe fun k => { k with parrs := k.parrs ++ [⟨a, 1, 0, k.now + 8, []⟩] }) ∧
      (s.me.penSample a ph = .differs → exec (.pwaitImm sa ph) s = .next ((s.onMe fun k => k.consume a).dropPeer (s.cur.cl / 4) .fabric)) ∧
      (s.me.penSample a ph = .overflow → exec (.pwaitImm sa ph) s = .next (s.onMe fun k => k.faultHold (penOverflow s.cur.slot) k.origin)) ∧
      (s.me.penSample a ph = .waits → exec (.pwaitImm sa ph) s = .next (s.beginHold (.pwait a ph) 0)) ∧
      (s.me.penSample a ((s.sx sb).getLsbD 0) = .differs → exec (.pwait sa sb) s =
        .next ((s.onMe fun k => k.consume a).dropPeer (s.cur.cl / 4) .fabric)) ∧
      (s.me.penSample a ((s.sx sb).getLsbD 0) = .overflow → exec (.pwait sa sb) s =
        .next (s.onMe fun k => k.faultHold (penOverflow s.cur.slot) k.origin)) ∧
      (s.me.penSample a ((s.sx sb).getLsbD 0) = .waits → exec (.pwait sa sb) s = .next (s.beginHold (.pwait a ((s.sx sb).getLsbD 0)) 0))) ∧
    (a + 8 * ((s.sx sb).toNat / 64) < 2 ^ 57 → a % 8 = 0 → exec (.bset sc sa sb) s = .next
      ((s.post 0 (.bset (a + 8 * ((s.sx sb).toNat / 64)) ((s.sx sb).toNat % 64) sc (s.me.active.map fun x => x.cmd.id) s.me.relFence)).onMe fun k =>
        { k with relFence := none })) ∧
    (a < 2 ^ 57 → a % 8 = 0 → exec (.bwait sc sa sb) s = .next
      ((s.freeIn 1 1024).2.beginHold (.bwait a (s.sx sb) sc) (s.ct + (s.freeIn 1 1024).1)))

/-- Waits, pennants and bunting. It rests also on choices of the model: log entry 10. Says that these complete: nop, nopn, ttsync, pini, parr,
pwaitImm, pwait, bset, bwait. -/
def Obligations.WaitsAndPennants : Prop :=
  Claims.Waits ∧ Claims.PennantsAndBunting

/-- LDF, STF and an ATOM that is not posted hold for an access that carries its operands; a posted ATOM is queued; either takes the release of a FENCE
before it. LNCH holds for the launch unit's answer. FENCE never holds: its acquire acts at once, its release stands before the run's next far accesses
and over its next ATOM or BSET (R142 to R147, R152). It rests also on choices of the model: log entries 10, 63, 64, 66, 82. Says that these complete:
ldf, stf, atom, lnch, fence. -/
def Obligations.FarAccesses : Prop :=
  ∀ (s : State) (sgn w64 rtn : Bool) (sz : MSize) (op : AtomOp) (ord : MOrder) (sc : Scope) (sd sa sb : BitVec 5) (off : BitVec 12),
    let ea := s.sx sa + off.signExtend 64
    (ea.toNat < 2 ^ 57 → ea.toNat % sz.bytes = 0 →
      exec (.ldf sgn sz sd sa off) s = .next (s.beginFar (.ldf sgn sz.bytes sd) [⟨0, ea.toNat, 0#128, 0#1024⟩]) ∧
      exec (.stf sz sd sa off) s = .next (s.beginFar (.stf sz.bytes) [⟨0, ea.toNat, 0#128, (s.sx sd).setWidth 1024⟩])) ∧
    ((s.sx sa).toNat < 2 ^ 57 → (s.sx sa).toNat % (if w64 then 8 else 4) = 0 →
      exec (.atom op sgn w64 rtn ord sc sd sa sb) s = .next
        ((if atomPosted op rtn ord then s.post 0 (.atom (s.sx sa).toNat op sgn w64 (s.sx sb) s.me.relFence)
         else s.beginFar (.atom op sgn w64 rtn ord sc sd (s.sx sd) s.me.relFence) [⟨0, (s.sx sa).toNat, 0#128, (s.sx sb).setWidth 1024⟩]).onMe fun k =>
          { k with relFence := none })) ∧
    ((s.sx sa).toNat < 2 ^ 57 → (s.sx sa).toNat % 128 = 0 →
      exec (.lnch sd sa) s = .next (s.free.2.beginHold (.lnch sd (s.sx sa).toNat) (s.ct + 1 + s.free.1))) ∧
    (let rel (acq : Bool) (u : State) : State := u.onMe fun k =>
      { k with relAfter := k.relAfter ++ [(sc, acq, k.nextPost)], relFence := some (joinScope sc (k.relFence.getD .cluster)) }
     exec (.fence .acq sc) s = .next (s.fenceAcq s.cur.cl sc) ∧ exec (.fence .rel sc) s = .next (rel false s) ∧
     exec (.fence .ar sc) s = .next (rel true (s.fenceAcq s.cur.cl sc)))

/-- An address of a transfer, a pennant, a bitmap word or a far access that is out of range takes the address-range trap, and a misaligned one within it the
misaligned-address trap (R130, R138 to R141, R143, R145, R152, R171). For LNCH the first is the model's reading (log entry 82). -/
def Sys2Proof.Claims.FarAddressTraps : Prop :=
  ∀ (s : State) (sgn w64 rtn ph : Bool) (sz : MSize) (op : AtomOp) (ord : MOrder) (sc : Scope) (sd sa sb : BitVec 5) (off : BitVec 12)
    (tm aa pd : BitVec 4) (vt : BitVec 6) (vs : VSrc) (uo : UpdOp) (uy : UpdTy) (o6 : BitVec 6) (c : Nat),
    let ea := s.sx sa + off.signExtend 64
    let a := (s.sx sa).toNat
    let w := a + 8 * ((s.sx sb).toNat / 64)
    let traps (x : BitVec 8) (i : Instr) : Prop := exec i s = .next (s.issueTrap s.cur.cl (s.trapOf x))
    (2 ^ 57 ≤ a → traps cRANGE (.jmp sa) ∧ traps cRANGE (.ret sa) ∧ traps cRANGE (.bwait sc sa sb) ∧ traps cRANGE (.lnch sd sa) ∧
      traps cRANGE (.atom op sgn w64 rtn ord sc sd sa sb)) ∧
    (a < 2 ^ 57 → a % 8 ≠ 0 → traps cALIGN (.bwait sc sa sb)) ∧ (a < 2 ^ 57 → a % 128 ≠ 0 → traps cALIGN (.lnch sd sa)) ∧
    (a < 2 ^ 57 → a % (if w64 then 8 else 4) ≠ 0 → traps cALIGN (.atom op sgn w64 rtn ord sc sd sa sb)) ∧
    (2 ^ 57 ≤ w → traps cRANGE (.bset sc sa sb)) ∧ (w < 2 ^ 57 → a % 8 ≠ 0 → traps cALIGN (.bset sc sa sb)) ∧
    (2 ^ 26 ≤ a → traps cRANGE (.pini sa sb) ∧ traps cRANGE (.parr sa) ∧ traps cRANGE (.pwait sa sb) ∧ traps cRANGE (.pwaitImm sa ph)) ∧
    (a < 2 ^ 26 → a % 8 ≠ 0 → traps cALIGN (.pini sa sb) ∧ traps cALIGN (.parr sa) ∧ traps cALIGN (.pwait sa sb) ∧ traps cALIGN (.pwaitImm sa ph)) ∧
    (2 ^ 57 ≤ ea.toNat → exec (.ldf sgn sz sd sa off) s = .next (s.issueTrap s.cur.cl (s.trapOf cRANGE)) ∧
      exec (.stf sz sd sa off) s = .next (s.issueTrap s.cur.cl (s.trapOf cRANGE))) ∧
    (ea.toNat < 2 ^ 57 → ea.toNat % sz.bytes ≠ 0 → exec (.ldf sgn sz sd sa off) s = .next (s.issueTrap s.cur.cl (s.trapOf cALIGN)) ∧
      exec (.stf sz sd sa off) s = .next (s.issueTrap s.cur.cl (s.trapOf cALIGN))) ∧
    ((s.me.firstBad fun _ x => decide (s.me.farAddr x tm aa o6 % 128 ≠ 0)) = some c →
      exec (.vldf vt tm aa pd o6) s = .next (s.issueTrap s.cur.cl (s.trapOf cALIGN (some c))) ∧
      exec (.vstf vs tm aa pd o6) s = .next (s.issueTrap s.cur.cl (s.trapOf cALIGN (some c)))) ∧
    ((s.me.firstBad fun _ x => decide (s.me.farAddr x tm aa 0#6 % 128 ≠ 0)) = some c →
      exec (.vupd uo uy vs tm aa pd) s = .next (s.issueTrap s.cur.cl (s.trapOf cALIGN (some c))))

/-- CRED combines the active cores' registers, an inactive core giving the identity, and lands at t + 40; CMSK and TEX land at t + 1
(R148 to R150). -/
def Sys2Proof.Claims.CrossCoreResults : Prop :=
  ∀ (s : State) (op : RedOp) (sd sa : BitVec 5) (aa : BitVec 4) (m : CmskOp) (ek : BitVec 3) (imm : BitVec 16),
    exec (.cred op sd aa) s = .next (s.sResult sd
      (credFold op ((List.range 256).map fun i => if s.me.cmsk.getLsbD i then (s.me.core i).areg aa else credId op)) 40) ∧
    exec (.cmsk m) s = .next (s.under .cmsk (s.me.newMask m) 1) ∧
    exec (.tex ek imm) s = .next (s.under (.e ek) (imm.setWidth 256) 1) ∧
    exec (.texReg ek sa imm) s = .next (s.under (.e ek) (((s.sx sa).setWidth 16 + imm).setWidth 256) 1)

/-- The results of the sequencer: integers, comparisons, values drawn from the cores. Says that these complete: add, sub, and, or, xor, shl, shr, sra,
mul, mulh, min, max, addImm, subImm, andImm, orImm, xorImm, shlImm, shrImm, sraImm, mulImm, mulhImm, minImm, maxImm, ldi, ldih, cmp, cmpImm, cred,
cmsk, tex, texReg. -/
def Obligations.ScalarResults : Prop :=
  Claims.IntegerResults ∧ Claims.CompareSetsFlag ∧ Claims.CrossCoreResults

/-- SRR of a register that does not hold lands its value at t + 2, AMAX once the drains in flight have folded what they have; AMAXF holds while a drain
of its map is incomplete; SRW of a register the run
may write lands at t + 1, AGEQ at once (R151). -/
def Sys2Proof.Claims.SystemRegisters : Prop :=
  ∀ (s : State) (sd sa : BitVec 5) (sel : BitVec 12),
    (selAssigned sel = true → (sel = 4#12 → s.me.priv = true) → (sel = 0x18#12 → s.me.injOk = true) → ¬(0x40 ≤ sel.toNat ∧ sel.toNat ≤ 0x5F) →
      exec (.srr sd sel) s = .next (s.sResult sd (s.sysRead sel) 2)) ∧
    (0x40 ≤ sel.toNat → sel.toNat ≤ 0x4F → exec (.srr sd sel) s =
      (let u := s.foldPrefix (sel.setWidth 4)
       .next (u.sResult sd (u.sysRead sel) 2))) ∧
    (0x50 ≤ sel.toNat → sel.toNat ≤ 0x5F → s.me.drainOn (sel.setWidth 4) = false → exec (.srr sd sel) s = .next (s.sResult sd (s.sysRead sel) 2)) ∧
    (0x50 ≤ sel.toNat → sel.toNat ≤ 0x5F → s.me.drainOn (sel.setWidth 4) = true →
      exec (.srr sd sel) s = .next (s.beginHold (.amaxf sd (sel.setWidth 4)) 0)) ∧
    exec (.srw 2#12 sa) s = .next (s.under .slipmax ((s.sx sa).setWidth 256) 1) ∧
    exec (.srw 6#12 sa) s = .next (s.under .rrbv ((s.sx sa).setWidth 256) 1) ∧
    exec (.srw 7#12 sa) s = .next (s.under .rrbp ((s.sx sa).setWidth 256) 1) ∧
    exec (.srw 8#12 sa) s = .next (s.under .gqctl ((s.sx sa).setWidth 256) 1) ∧
    exec (.srw 0x14#12 sa) s = .next (s.under .traphnd ((s.sx sa).setWidth 256) 1) ∧
    (s.me.injOk = true → exec (.srw 0x18#12 sa) s = .next (s.under .errinj ((s.sx sa).setWidth 256) 1)) ∧
    (s.me.priv = true → exec (.srw 4#12 sa) s = .next { s with ageq := (s.sx sa).setWidth 32 })

/-- An unassigned selector is an illegal instruction; a register the run may not read or write takes the privilege trap: every assigned one but SLIPMAX,
the bases, GQCTL and TRAPHND, AGEQ for the supervisor and ERRINJ where the context may inject, can only be read. MDIAG and MSPR take it outside the
supervisor (R151, R262, Table 9-6). -/
def Sys2Proof.Claims.PrivilegeTraps : Prop :=
  ∀ (s : State) (sd sa : BitVec 5) (sel : BitVec 12) (va : BitVec 6) (per : Bool) (row : Fin 66),
    (selAssigned sel = false → exec (.srr sd sel) s = .next (s.issueTrap s.cur.cl (s.trapOf cILLINS)) ∧
      exec (.srw sel sa) s = .next (s.issueTrap s.cur.cl (s.trapOf cILLINS))) ∧
    (s.me.priv = false → exec (.srr sd 4#12) s = .next (s.issueTrap s.cur.cl (s.trapOf cPRIV)) ∧
      exec (.srw 4#12 sa) s = .next (s.issueTrap s.cur.cl (s.trapOf cPRIV)) ∧
      (s.mEntry (.mdiag va) = none → exec (.mdiag va) s = .next (s.issueTrap s.cur.cl (s.trapOf cPRIV))) ∧
      (s.mEntry (.mspr va per row) = none → exec (.mspr va per row) s = .next (s.issueTrap s.cur.cl (s.trapOf cPRIV)))) ∧
    (s.me.injOk = false → exec (.srr sd 0x18#12) s = .next (s.issueTrap s.cur.cl (s.trapOf cPRIV)) ∧
      exec (.srw 0x18#12 sa) s = .next (s.issueTrap s.cur.cl (s.trapOf cPRIV))) ∧
    (selAssigned sel = true → sel ∉ [2#12, 4#12, 6#12, 7#12, 8#12, 0x14#12, 0x18#12] →
      exec (.srw sel sa) s = .next (s.issueTrap s.cur.cl (s.trapOf cPRIV)))

/-- Operands an S instruction or a far vector access does not take, and instructions a run may not use, take their traps. It rests also on choices of
the model: log entry 82. -/
def Obligations.ScalarTraps : Prop :=
  Claims.LoopTraps ∧ Claims.FarAddressTraps ∧ Claims.PrivilegeTraps

/-- TRAP takes the software trap after its bundle's cycle; RFT returns once the handler's work has landed and waits until then, and outside a
handler is illegal; END begins the engine wait; YIELD lets a pending pre-emption freeze at this bundle (R50, R153, R154, R346). -/
def Sys2Proof.Claims.RunControl : Prop :=
  ∀ (s : State) (code : BitVec 16),
    exec (.trap code) s = .next (s.softTrap code) ∧
    (s.me.handler.isSome = true → s.me.quiet = true → exec .rft s = .next (s.onMe Cluster.leaveHandler)) ∧
    (s.me.handler.isSome = true → s.me.quiet = false → exec .rft s = .next (s.onMe fun k => { k with rft := true })) ∧
    (s.me.handler = none → exec .rft s = .next (s.issueTrap s.cur.cl (s.trapOf cILLINS))) ∧
    exec .endRun s = .next ((s.beginHold .endWait 0).onMe fun k => { k with ending := true, next := k.pc }) ∧
    exec .yieldRun s = .next (s.onMe fun k => if k.preReq then { k with frozenPre := true, freezeCt := s.ct } else k)

/-- System registers, traps by instruction, returns and the end of a run. It rests also on choices of the model: log entries 17, 25, 73, 74. Says that
these complete: srr, srw, trap, rft, endRun, yieldRun. -/
def Obligations.SystemAndRunControl : Prop :=
  Claims.SystemRegisters ∧ Claims.RunControl

/-! ### The A slot -/

/-- Each active core computes its address result from its own registers, the results landing at t + 1: wrapping sums and differences, a
shift, a copy, a constant, a core index, a value of the sequencer (R155, Table 9-7). -/
def Sys2Proof.Claims.AddressResults : Prop :=
  ∀ (s : State) (ad aa ab : BitVec 4) (imm : BitVec 18) (n sn : BitVec 5),
    let out (f : Nat → Core → BitVec 32) : Res := .next (s.onActive fun i x => x.fly [s.me.flyA ad 1 (f i x)])
    exec (.aadd ad aa ab) s = out (fun _ x => x.areg aa + x.areg ab) ∧
    exec (.asub ad aa ab) s = out (fun _ x => x.areg aa - x.areg ab) ∧
    exec (.aaddi ad aa imm) s = out (fun _ x => x.areg aa + imm.signExtend 32) ∧
    exec (.ashl ad aa n) s = out (fun _ x => x.areg aa <<< n.toNat) ∧
    exec (.amov ad aa) s = out (fun _ x => x.areg aa) ∧
    exec (.aldi ad imm) s = out (fun _ _ => imm.signExtend 32) ∧
    exec (.acix .ix ad) s = out (fun i _ => BitVec.ofNat 32 i) ∧
    exec (.acix .row ad) s = out (fun i _ => BitVec.ofNat 32 (i / 16)) ∧
    exec (.acix .col ad) s = out (fun i _ => BitVec.ofNat 32 (i % 16)) ∧
    exec (.acix .tix ad) s = out (fun i _ => BitVec.ofNat 32 (i % 16 * 16 + i / 16)) ∧
    exec (.acix .base ad) s = out (fun i _ => BitVec.ofNat 32 (i * 2 ^ 18)) ∧
    exec (.acix .dev ad) s = out (fun i _ => BitVec.ofNat 32 (256 * s.cur.cl + i)) ∧
    exec (.afroms ad sn) s = out (fun _ _ => (s.sx sn).setWidth 32)

/-- SHW and SHWI write a tensor-map field's low bits once, whatever the mask holds, seen at t + 3; SHWI sign-extends where the field is signed.
FTW writes an entry, or one field, of the active cores' tables, seen at t + 1 (R156, R157). -/
def Sys2Proof.Claims.MapAndTableWrites : Prop :=
  ∀ (s : State) (tm : BitVec 4) (fld : Fin 53) (sm : BitVec 5) (imm : BitVec 11) (ft : BitVec 3) (f : FtField),
    let field (v : Word) : Res := .next (s.onMe fun k => { k with
      tmw := k.tmw ++ [⟨64 * tm.toNat + fld.val, BitVec.ofNat 64 (v.toNat % 2 ^ tmWidth fld.val), k.now + 3⟩] })
    exec (.shw tm fld sm) s = field (s.sx sm) ∧
    (tmSigned fld.val = true → exec (.shwi tm fld imm) s = field (imm.signExtend 64)) ∧
    (tmSigned fld.val = false → exec (.shwi tm fld imm) s = field (imm.setWidth 64)) ∧
    exec (.ftw ft sm) s = .next (s.onMe fun k => { k with ftw := k.ftw ++ [⟨ft, none, s.sx sm, k.cmsk, k.now + 1⟩] }) ∧
    exec (.ftwField ft f imm) s = .next (s.onMe fun k => { k with ftw := k.ftw ++ [⟨ft, some f, imm.setWidth 64, k.cmsk, k.now + 1⟩] })

/-- The A slot. Says that these complete: aadd, asub, aaddi, ashl, amov, aldi, acix, afroms, shw, shwi, ftw, ftwField. -/
def Obligations.AddressSlot : Prop :=
  Claims.AddressResults ∧ Claims.MapAndTableWrites

/-! ### The L slot -/

/-- Where no active core's address check fails, each active core's load puts its lanes under way, to sample at t + 2 and land at t + 4 in its own
scratchpad, at t + 8 and t + 14 elsewhere; a store performs at t + 2 or t + 8; a distribution image takes a cycle more (R158 to R169). Says that these
complete: vld, vst, vldb, vlds, vldx, vstx, pld, pst, dld, dst. -/
def Obligations.NearAccesses : Prop :=
  ∀ (s : State) (v : BitVec 6) (vs vi : VSrc) (aa pd p : BitVec 4) (ck : Chk) (off : BitVec 6) (half : Bool) (d : BitVec 3),
    let k := s.me
    let load (ops : List VSrc) (acc : Core → LAccess) : Res := .next (s.onActive fun i x => (k.popOn ops x).fly ((List.range 4).map fun g =>
      k.loadEntry .v (k.vphys v) g (pickLat i (acc x) 2 8) (pickLat i (acc x) 4 14) (laneGroup (acc x).lanes g 32)))
    let store (ops : List VSrc) (acc : Core → LAccess) : Res := .next (s.onActive fun i x => (k.popOn ops x).fly ((List.range 4).map fun g =>
      k.storeEntry g (pickLat i (acc x) 2 8) (laneGroup (acc x).lanes g 32) ((k.vsrc x vs).extractLsb' (256 * g) 256)))
    (s.lCheck (k.accVld aa pd off) = none → exec (.vld v aa pd ck off) s = load [] (k.accVld aa pd off) ∧
      exec (.vst vs aa pd off) s = store [vs] (k.accVld aa pd off)) ∧
    (s.lCheck (k.accVldb aa pd off) = none → exec (.vldb v aa pd ck off) s = load [] (k.accVldb aa pd off)) ∧
    (s.lCheck (k.accVlds aa pd off) = none → exec (.vlds v aa pd ck off) s = load [] (k.accVlds aa pd off)) ∧
    (s.lCheck (k.accVldx half aa pd vi) = none → exec (.vldx half v aa pd vi) s = load [vi] (k.accVldx half aa pd vi) ∧
      exec (.vstx half vs aa pd vi) s = store [vi, vs] (k.accVldx half aa pd vi)) ∧
    (s.lCheck (accP aa off) = none → exec (.pld p aa ck off) s = .next (s.onActive fun i x =>
        x.fly [k.loadEntry .p (k.pphys p) 0 (pickLat i (accP aa off x) 2 8) (pickLat i (accP aa off x) 4 14) (accP aa off x).lanes]) ∧
      exec (.pst p aa off) s = .next (s.onActive fun i x =>
        x.fly [k.storeEntry 0 (pickLat i (accP aa off x) 2 8) (accP aa off x).lanes ((k.psrc x p).setWidth 256)])) ∧
    (s.lCheck (accD aa off) = none → exec (.dld d aa ck off) s = .next (s.onActive fun i x =>
        let l := accD aa off x
        x.fly (((List.range 8).map fun g => k.loadEntry .d d.toNat g (pickLat i l 2 8) (pickLat i l 5 15) (laneGroup l.lanes g 32)) ++
          [k.loadEntry .dwords d.toNat 0 (pickLat i l 2 8) (pickLat i l 5 15) (l.lanes.drop 256)])) ∧
      exec (.dst d aa off) s = .next (s.onActive fun i x =>
        let l := accD aa off x
        x.fly (((List.range 8).map fun g => k.storeEntry g (pickLat i l 3 9) (laneGroup l.lanes g 32)
            ((x.dPts.getD d.toNat 0#2048).extractLsb' (256 * g) 256)) ++
          [k.storeEntry 8 (pickLat i l 3 9) (l.lanes.drop 256) ((dwClean (x.dWords.getD d.toNat 0#128)).setWidth 256)])))

/-- The lowest active core whose bytes leave the scratchpads takes the address-range trap; where none does, the lowest with a misaligned byte the
misaligned-address trap; and the access passes where neither is the case (R100, R159). -/
def Obligations.NearAccessChecks : Prop :=
  ∀ (s : State) (acc : Core → LAccess) (i : Nat), i < 256 →
    let bad (f : LAccess → Bool) (j : Nat) : Bool := s.me.cmsk.getLsbD j && f (acc (s.me.core j))
    ((bad LAccess.rangeBad i = true ∧ ∀ j, j < i → bad LAccess.rangeBad j = false) → s.lCheck acc = some (s.trapOf cRANGE (some i))) ∧
    (((∀ j, j < 256 → bad LAccess.rangeBad j = false) ∧ bad LAccess.alignBad i = true ∧ ∀ j, j < i → bad LAccess.alignBad j = false) →
      s.lCheck acc = some (s.trapOf cALIGN (some i))) ∧
    ((∀ j, j < 256 → bad LAccess.rangeBad j = false ∧ bad LAccess.alignBad j = false) → s.lCheck acc = none)

/-- An aligned VLDF or VSTF holds for an access of every active core, lowest first, each at its map's base plus its address register; VUPD posts each
active core's unmasked elements as one group of updates and goes on (R171 to R173). It rests also on choices of the model: log entries 10, 28, 66, 83.
Says that these complete: vldf, vstf, vupd. -/
def Obligations.FarVectorAccesses : Prop :=
  ∀ (s : State) (v off : BitVec 6) (vs : VSrc) (tm aa pd : BitVec 4) (op : UpdOp) (ty : UpdTy),
    let k := s.me
    (s.vfarCheck tm aa off = none →
      exec (.vldf v tm aa pd off) s = .next (s.beginFar (.vldf (k.vphys v))
        (k.activeIdx.map fun i => ⟨i, k.farAddr (k.core i) tm aa off, k.psrc (k.core i) pd, 0#1024⟩)) ∧
      exec (.vstf vs tm aa pd off) s = .next ((s.beginFar .vstf
        (k.activeIdx.map fun i => ⟨i, k.farAddr (k.core i) tm aa off, k.psrc (k.core i) pd, k.vsrc (k.core i) vs⟩)).onMe fun k =>
          k.onActive fun _ x => k.popOn [vs] x)) ∧
    (s.vfarCheck tm aa 0#6 = none → exec (.vupd op ty vs tm aa pd) s =
      .next (((k.activeIdx.flatMap (k.vupds op ty vs tm aa pd)).foldl (fun s p => s.post (k.nextPost + 1) p) s).onMe fun c =>
        c.onActive fun _ x => k.popOn [vs] x))

/-! ### The V slots -/

/-- The integer operations of two cycles: sums and differences wrapped or saturated, products, selections, logic, shifts modulo the width, counts,
each on the elements of the range (R174, R179). Says that these complete: vadd, vsub, vmul, vmulh, vmad, vmin, vmax, vabs, vneg, vand, vor, vxor,
vnot, vshl, vshr, vsra, vclz, vpopc. -/
def Obligations.VectorIntegers : Prop :=
  ∀ (s : State) (c : VCtl) (sz : ISz) (sgn sat : Bool) (vd : BitVec 6) (va vb vc : VSrc),
    let w := sz.bits
    let un (g : Nat → Nat) : Res := .next (s.vNext c w 2 vd [va] false 0 fun _ rd _ i => g (elt w (rd va) i))
    let bin (g : Nat → Nat → Nat) : Res := .next (s.vNext c w 2 vd [va, vb] false 0 fun _ rd _ i => g (elt w (rd va) i) (elt w (rd vb) i))
    exec (.vadd c sz sgn sat vd va vb) s = bin (fun a b => satOr w sgn sat (iv w sgn a + iv w sgn b)) ∧
    exec (.vsub c sz sgn sat vd va vb) s = bin (fun a b => satOr w sgn sat (iv w sgn a - iv w sgn b)) ∧
    exec (.vmul c sz vd va vb) s = bin (fun a b => a * b % 2 ^ w) ∧
    exec (.vmulh c sz sgn vd va vb) s = bin (fun a b => ux w (iv w sgn a * iv w sgn b / (2 ^ w : Nat))) ∧
    exec (.vmad c sz vd va vb vc) s = .next (s.vNext c w 2 vd [va, vb, vc] false 0 fun _ rd _ i =>
      (elt w (rd va) i * elt w (rd vb) i + elt w (rd vc) i) % 2 ^ w) ∧
    exec (.vmin c sz sgn vd va vb) s = bin (fun a b => if iv w sgn b < iv w sgn a then b else a) ∧
    exec (.vmax c sz sgn vd va vb) s = bin (fun a b => if iv w sgn b > iv w sgn a then b else a) ∧
    exec (.vabs c sz sat vd va) s = un (fun a => satOr w true sat (sx w a).natAbs) ∧
    exec (.vneg c sz sat vd va) s = un (fun a => satOr w true sat (-(sx w a))) ∧
    exec (.vand c sz vd va vb) s = bin (fun a b => a &&& b) ∧ exec (.vor c sz vd va vb) s = bin (fun a b => a ||| b) ∧
    exec (.vxor c sz vd va vb) s = bin (fun a b => a ^^^ b) ∧ exec (.vnot c sz vd va) s = un (fun a => 2 ^ w - 1 - a) ∧
    exec (.vshl c sz vd va vb) s = bin (fun a b => a * 2 ^ (b % w) % 2 ^ w) ∧ exec (.vshr c sz vd va vb) s = bin (fun a b => a / 2 ^ (b % w)) ∧
    exec (.vsra c sz vd va vb) s = bin (fun a b => ux w (sx w a / (2 ^ (b % w) : Nat))) ∧
    exec (.vclz c sz vd va) s = un (fun a => if a = 0 then w else w - 1 - a.log2) ∧
    exec (.vpopc c sz vd va) s = un (fun a => ((List.range w).filter a.testBit).length)

/-- The arithmetic of four cycles rounds the exact result once to nearest even; FMIN and FMAX give an operand's bits or a canonical NaN; FABS, FNEG
and FCPS change signs alone in two cycles; the special functions take twelve (R180, R181). It rests also on choices of the model: log entry 13. Says
that these complete: fadd, fsub, fmul, ffma, ffms, fmin, fmax, fabs, fneg, fcps, fexp2, flog2, frcp, frsq, fsqrt, ftanh, fsigm, fsin, fcos. -/
def Obligations.VectorFloats : Prop :=
  ∀ (s : State) (c : VCtl) (ty : FTy) (vd : BitVec 6) (va vb vc : VSrc),
    let w := ty.width
    let d (x : Nat) : Ext := (fpOfTy ty).dec x
    let r (x : Ext) : Nat := (fpOfTy ty).rne true x
    let un (lat : Nat) (g : Nat → Nat) : Res := .next (s.vNext c w lat vd [va] false 0 fun _ rd _ i => g (elt w (rd va) i))
    let bin (lat : Nat) (g : Nat → Nat → Nat) : Res := .next (s.vNext c w lat vd [va, vb] false 0 fun _ rd _ i => g (elt w (rd va) i) (elt w (rd vb) i))
    let tri (g : Nat → Nat → Nat → Nat) : Res := .next (s.vNext c w 4 vd [va, vb, vc] false 0 fun _ rd _ i =>
      g (elt w (rd va) i) (elt w (rd vb) i) (elt w (rd vc) i))
    exec (.fadd c ty vd va vb) s = bin 4 (fun a b => r (Ext.add (d a) (d b))) ∧
    exec (.fsub c ty vd va vb) s = bin 4 (fun a b => r (Ext.sub (d a) (d b))) ∧
    exec (.fmul c ty vd va vb) s = bin 4 (fun a b => r (Ext.mul (d a) (d b))) ∧
    exec (.ffma c ty vd va vb vc) s = tri (fun a b e => r (Ext.add (Ext.mul (d a) (d b)) (d e))) ∧
    exec (.ffms c ty vd va vb vc) s = tri (fun a b e => r (Ext.sub (Ext.mul (d a) (d b)) (d e))) ∧
    exec (.fmin c ty vd va vb) s = bin 4 (fun a b => if (d a).isNan || (d b).isNan then fnan ty else if rankBelow (d b) (d a) then b else a) ∧
    exec (.fmax c ty vd va vb) s = bin 4 (fun a b => if (d a).isNan || (d b).isNan then fnan ty else if rankAbove (d b) (d a) then b else a) ∧
    exec (.fabs c ty vd va) s = un 2 (fun a => a % signBit ty) ∧ exec (.fneg c ty vd va) s = un 2 (fun a => a ^^^ signBit ty) ∧
    exec (.fcps c ty vd va vb) s = bin 2 (fun a b => a % signBit ty + b / signBit ty * signBit ty) ∧
    exec (.fexp2 c ty vd va) s = un 12 (specialTy .exp2 ty) ∧ exec (.flog2 c ty vd va) s = un 12 (specialTy .log2 ty) ∧
    exec (.frcp c ty vd va) s = un 12 (specialTy .rcp ty) ∧ exec (.frsq c ty vd va) s = un 12 (specialTy .rsq ty) ∧
    exec (.fsqrt c ty vd va) s = un 12 (specialTy .sqrt ty) ∧ exec (.ftanh c ty vd va) s = un 12 (specialTy .tanh ty) ∧
    exec (.fsigm c ty vd va) s = un 12 (specialTy .sigm ty) ∧ exec (.fsin c ty vd va) s = un 12 (specialTy .sin ty) ∧
    exec (.fcos c ty vd va) s = un 12 (specialTy .cos ty)

/-- Comparisons and the operations on predicates give every byte lane of an element its answer in two cycles; VSEL takes an operand by the predicate;
FCLS gives a class bit; VCHK its check in eight (R182, R183, R195, R197). Says that these complete: vcmp, fcmp, vsel, fcls, pand, por, pxor, pnot,
pcnt, pfirst, vchk. -/
def Obligations.VectorChoices : Prop :=
  ∀ (s : State) (c : VCtl) (sz : ISz) (ty : FTy) (cond : Cond) (fc : FCond) (vd : BitVec 6) (pd pa pb : BitVec 4) (va vb : VSrc) (trp : Bool)
    (t : BitVec 5),
    let w := sz.bits
    let bits (g : Bool → Bool → Bool) (q : BitVec 4) : Res := .next (s.pNext c 8 2 pd [] false noTrap fun x k _ i =>
      g ((k.psrc x pa).getLsbD i) ((k.psrc x q).getLsbD i))
    exec (.vcmp c sz cond pd va vb) s = .next (s.pNext c w 2 pd [va, vb] false noTrap fun _ _ rd i =>
      cond.holds (BitVec.ofNat w (elt w (rd va) i)) (BitVec.ofNat w (elt w (rd vb) i))) ∧
    exec (.fcmp c ty fc pd va vb) s = .next (s.pNext c ty.width 2 pd [va, vb] false noTrap fun _ _ rd i =>
      fc.holds ((fpOfTy ty).dec (elt ty.width (rd va) i)) ((fpOfTy ty).dec (elt ty.width (rd vb) i))) ∧
    exec (.vsel c sz vd va vb) s = .next (s.vNext c w 2 vd [va, vb] true 0 fun _ rd p i =>
      if pbit w p i then elt w (rd va) i else elt w (rd vb) i) ∧
    exec (.fcls c ty vd va) s = .next (s.vNext c ty.width 2 vd [va] false 0 fun _ rd _ i => 2 ^ fclass ty (elt ty.width (rd va) i)) ∧
    exec (.pand c pd pa pb) s = bits (fun a b => a && b) pb ∧ exec (.por c pd pa pb) s = bits (fun a b => a || b) pb ∧
    exec (.pxor c pd pa pb) s = bits (fun a b => a != b) pb ∧ exec (.pnot c pd pa) s = bits (fun a _ => !a) pa ∧
    exec (.pcnt c sz pd pa) s = .next (s.pNext c w 2 pd [] false noTrap fun x k _ i =>
      decide (i - c.rng.lo * 8 / w < ((c.rng.elts w).filter fun j => pbit w (k.psrc x pa) j).length)) ∧
    exec (.pfirst c sz pd pa) s = .next (s.pNext c w 2 pd [] false noTrap fun x k _ i =>
      ((c.rng.elts w).filter fun j => pbit w (k.psrc x pa) j).head? == some i) ∧
    exec (.vchk c.rng c.mir ty trp t pd va vb) s = .next (s.pNext ⟨c.rng, c.mir, 0#4⟩ 8 8 pd [va, vb] true
      (fun rd => ofBit trp ++ ofBit (!vchkPass c.rng ty t.toNat (rd va) (rd vb)))
      fun _ _ rd _ => vchkPass c.rng ty t.toNat (rd va) (rd vb))

/-- VCVT converts each slot with its own draw under stochastic rounding; VPACK halves and VUNPK doubles widths; VQNT and VDQT quantise and decode
a register under the core's format-table entry, where every active core's entry allows it; where one does not, the lowest such core is named in an
illegal-instruction trap (R80, R184 to R187). -/
def Sys2Proof.Claims.VectorConversions : Prop :=
  ∀ (s : State) (j : Nat) (c : VCtl) (ck : CvtKind) (rm : RMode) (nsat : Bool) (sz : ISz) (sat : PackSat) (sgn hi : Bool) (f : FSel) (vd : BitVec 6) (va vb : VSrc),
    let full : VCtl := ⟨.w1024, false, 0#4⟩
    let w := ck.slotBits
    let n := 1024 / sz.bits
    exec (.vcvt c ck rm nsat vd va) s = .next (s.vNext c w 4 vd [va] false (if rm = .sr then (c.rng.elts w).length else 0) fun ds rd _ i =>
      cvtSlot ck rm nsat (ds.getD (i - c.rng.lo * 8 / w) 0 % 2 ^ 16) (elt w (rd va) i)) ∧
    exec (.vpack sz sat vd va vb) s = .next (s.vNext full 64 4 vd [va, vb] true 0 fun _ rd _ i =>
      (List.range (128 / sz.bits)).foldl (fun acc j =>
        let e := 128 / sz.bits * i + j
        acc + packElt sz.bits sat (if e < n then elt sz.bits (rd va) e else elt sz.bits (rd vb) (e - n)) * 2 ^ (sz.bits / 2 * j)) 0) ∧
    exec (.vunpk sz sgn hi vd va) s = .next (s.vNext full sz.bits 4 vd [va] true 0 fun _ rd _ i =>
      let x := elt (sz.bits / 2) (rd va) ((if hi then n else 0) + i)
      if sgn then ux sz.bits (sx (sz.bits / 2) x) else x) ∧
    ((s.me.firstBad fun _ x => !qntOk (s.me.fte x f)) = some j → exec (.vqnt f vd va) s = .next (s.issueTrap s.cur.cl (s.trapOf cILLINS (some j)))) ∧
    ((s.me.firstBad fun _ x => !dqtOk (s.me.fte x f)) = some j → exec (.vdqt f vd va) s = .next (s.issueTrap s.cur.cl (s.trapOf cILLINS (some j)))) ∧
    (s.ftCheck f qntOk = none → exec (.vqnt f vd va) s = .next (s.onActive fun _ x =>
      let e := s.me.fte x f
      let dr := x.draw (if ftRm e = 4 then 32 else 0)
      (s.me.popOn [va] dr.2).fly (s.me.flyV s.cur.slot (s.me.vphys vd) 10 [0, 1, 2, 3] (qntReg e dr.1 (s.me.vsrc x va)) (BitVec.allOnes 128)))) ∧
    (s.ftCheck f dqtOk = none → exec (.vdqt f vd va) s = .next (s.onActive fun _ x =>
      (s.me.popOn [va] x).fly (s.me.flyV s.cur.slot (s.me.vphys vd) 4 [0, 1, 2, 3] (dqtReg (s.me.fte x f) (s.me.vsrc x va)) (BitVec.allOnes 128))))

/-- VRED leaves its value in element 0 of the range and zero in the others; VAMAX leaves the best candidate's code and index; VSCAN leaves each
prefix, the element itself left out where it is exclusive (R188 to R191). -/
def Sys2Proof.Claims.VectorReductions : Prop :=
  ∀ (s : State) (c : VCtl) (k : RedKind) (ty : FTy) (m : SelMode) (excl : Bool) (vd : BitVec 6) (va : VSrc),
    let w := redWidth k
    let part (rd : VSrc → BitVec 1024) (p : BitVec 128) : List Nat :=
      (c.rng.elts w).map fun j => if pbit w p j then elt w (rd va) j else redId k
    exec (.vred c k vd va) s = .next (s.vNext c w 8 vd [va] true 0 fun _ rd p i =>
      if i = c.rng.lo * 8 / w then redValue k (part rd p) else 0) ∧
    exec (.vscan c k excl vd va) s = .next (s.vNext c w 8 vd [va] true 0 fun _ rd p i =>
      ((part rd p).take (i - c.rng.lo * 8 / w + (if excl then 0 else 1))).foldl (redStep k) (redId k)) ∧
    exec (.vamax c ty m vd va) s = .next (s.vNext c ty.width 8 vd [va] true 0 fun _ rd p i =>
      let lo := c.rng.lo * 8 / ty.width
      match selBest m (fpOfTy ty).dec (((c.rng.elts ty.width).filter fun j => pbit ty.width p j).map fun j => (j, elt ty.width (rd va) j)) with
      | some (j, code) => if i = lo then code else if i = lo + 1 then j else 0
      | none => if i = lo then fnan ty else if i = lo + 1 then 2 ^ ty.width - 1 else 0)

/-- Conversions and reductions of the V slots. Says that these complete: vcvt, vpack, vunpk, vqnt, vdqt, vred, vscan, vamax. -/
def Obligations.VectorConversionsAndReductions : Prop :=
  Claims.VectorConversions ∧ Claims.VectorReductions

/-- The movements of three cycles take elements of the range by an index, modulo its length; VMOVI repeats a constant; VRND gives raw bits or the
uniform numbers of the draws in order (R192, R194, R196). -/
def Sys2Proof.Claims.VectorMoves : Prop :=
  ∀ (s : State) (c : VCtl) (sz : ISz) (hi : Bool) (j6 vd : BitVec 6) (imm : BitVec 18) (va vb vc : VSrc),
    let w := sz.bits
    let n := (c.rng.elts w).length
    let lo := c.rng.lo * 8 / w
    let out (lat : Nat) (srcs : List VSrc) (f : (VSrc → BitVec 1024) → Nat → Nat) : Res := .next (s.vNext c w lat vd srcs false 0 fun _ rd _ i => f rd i)
    exec (.vperm c sz vd va vb) s = out 3 [va, vb] (fun rd i => elt w (rd va) (lo + elt w (rd vb) i % n)) ∧
    exec (.vshuf c sz vd va vb vc) s = out 3 [va, vb, vc] (fun rd i =>
      let j := elt w (rd vc) i % (2 * n)
      if j < n then elt w (rd va) (lo + j) else elt w (rd vb) (lo + j - n)) ∧
    exec (.vbcst c sz j6 vd va) s = out 3 [va] (fun rd _ => elt w (rd va) (lo + j6.toNat % n)) ∧
    exec (.vsld c sz j6 vd va vb) s = out 3 [va, vb] (fun rd i =>
      let j := i - lo + j6.toNat
      if j < n then elt w (rd va) (lo + j) else if j < 2 * n then elt w (rd vb) (lo + j - n) else 0) ∧
    exec (.vzip c sz hi vd va vb) s = out 3 [va, vb] (fun rd i =>
      let src := lo + (if hi then n / 2 else 0) + (i - lo) / 2
      if n = 1 then elt w (rd va) lo else if (i - lo) % 2 = 0 then elt w (rd va) src else elt w (rd vb) src) ∧
    exec (.vmovi c sz imm vd) s = out 2 [] (fun _ _ => ux w imm.toInt) ∧
    exec (.vrnd c .unit vd) s = .next (s.vNext c 32 6 vd [] false (c.rng.elts 32).length fun ds _ _ i =>
      (code32 (extOfRat (((ds.getD (i - c.rng.lo / 4) 0 / 256 : Nat) : Rat) * pow2 (-24)))).toNat) ∧
    (sz ≠ .w64 → exec (.vrnd c (.bits sz) vd) s = .next (s.vNext c w 6 vd [] false n fun ds _ _ i => ds.getD (i - lo) 0 % 2 ^ w)) ∧
    exec (.vrnd c (.bits .w64) vd) s = .next (s.vNext c 64 6 vd [] false (2 * (c.rng.elts 64).length) fun ds _ _ i =>
      ds.getD (2 * (i - c.rng.lo * 8 / 64)) 0 + 2 ^ 32 * ds.getD (2 * (i - c.rng.lo * 8 / 64) + 1) 0)

/-- VMOV puts its first repetition under way at once; where it repeats, an entry on each active core issues the others a cycle apart, with the
bases and the popped value of this one; a run of registers past 63 is an illegal instruction (R193, R347). -/
def Sys2Proof.Claims.RepeatedMoves : Prop :=
  ∀ (s : State) (c : VCtl) (sz : ISz) (rep vd : BitVec 6) (va : VSrc),
    (vd.toNat + rep.toNat ≤ 63 → va.r.toNat + rep.toNat ≤ 63 → exec (.vmov c sz rep vd va) s = .next (s.onActive fun ci x =>
      let k := s.me
      let pop := k.repMapped va.r rep.toNat
      let r : RepRec := ⟨.vmov c sz rep vd va, k.rrbv, k.rrbp, if pop then some (x.gq.headD 0#1024) else none, 0#1024⟩
      let first := vmovRep s.cur.slot k.now k.origin ci r c sz.bits vd va 0 x
      ((if pop then { x with gq := x.gq.tail } else x).struck c).fly (first ++ (if rep = 0#6 then [] else
        [{ entryOf .rep .v s.cur.slot vd.toNat 0 (k.now + rep.toNat) k.now 0#256 0#32 k.origin with perf := 1, rep := some r }])))) ∧
    (63 < vd.toNat + rep.toNat ∨ 63 < va.r.toNat + rep.toNat →
      exec (.vmov c sz rep vd va) s = .next (s.issueTrap s.cur.cl (s.trapOf cILLINS)))

/-- Movements of the V slots. Says that these complete: vperm, vshuf, vbcst, vsld, vzip, vmovi, vrnd, vmov. -/
def Obligations.VectorMovements : Prop :=
  Claims.VectorMoves ∧ Claims.RepeatedMoves

/-! ### The M slot -/

/-- A plane load samples its image at t + 2 and is ready at t + 12; a row or checksum row starts a stream of 65 column steps, the row's first one at
once; a rotation starts a stream for each row of its source and for the checksum row (R238, R240, R241, R243 to R246, R259). It rests also on choices
of the model: log entries 22, 25. Says that these complete: mbld, mbldh, mrow, mchk, mrot. -/
def Obligations.ArrayStreams : Prop :=
  ∀ (s : State) (f : FSel) (pl : Bool) (ck : Chk) (aa : BitVec 4) (off : BitVec 12) (op : CellOp) (bk bs : BitVec 2) (va vh : VSrc) (m : BitVec 6)
    (st : StartMode) (ho : BitVec 7) (r : Option VSrc) (n : Fin 64),
    let k := s.me
    let load (fmt : Core → PFmt) (at' : Core → Nat) (b : Option (List Byte)) : Res := .next (s.onActive fun _ x =>
      { x with loads := x.loads ++ [⟨pl, k.now + 2, k.now + 12, fmt x, at' x, b, k.now, k.origin⟩] })
    (s.mCheck (.mbld f pl ck aa off) = none → exec (.mbld f pl ck aa off) s =
      load (fun x => .code ((k.fte x f).extractLsb' 4 4)) (fun x => (x.areg aa + (off.setWidth 32 <<< 7)).toNat) none) ∧
    (s.mCheck (.mbldh pl) = none → exec (.mbldh pl) s = load (fun _ => .had) (fun _ => 0) (some [])) ∧
    (s.mCheck (.mrow op bk f pl va m st ho vh) = none → exec (.mrow op bk f pl va m st ho vh) s = .next (s.onMe fun k =>
      let bf := k.activeIdx.any fun i => ftA (k.fte (k.core i) f) == 1
      ({ k.onActive fun _ x => k.rowIn op bk f pl va m st ho vh x with lastBf := if bf then some k.now else k.lastBf } : Cluster).onActive fun _ x =>
        x.arrayCycle k.now)) ∧
    (s.mCheck (.mchk bk f pl r st) = none → exec (.mchk bk f pl r st) s = .next (s.onMe fun k =>
      { k.onActive fun _ x => k.chkIn bk f pl r st x with lastMchk := some k.now })) ∧
    (s.mCheck (.mrot bk bs pl n) = none → exec (.mrot bk bs pl n) s = .next (s.onMe fun k =>
      (k.onActive fun _ x =>
        let row (i src : Nat) : Stream := ⟨k.now + i, 0, k.now, bk, src, pl, true, false, true, [], [], .rot bs src, .mrot bk bs pl n, []⟩
        let y := ({ x with lin := setBit x.lin bk (x.linOf bs), stale := setBit x.stale bk (x.staleOf bs) } : Core).clearEdge bk
        ({ y with streams := y.streams ++ (List.range (n.val + 1)).map (fun i => row i i) ++ [row (n.val + 1) 64] } : Core).streamed k.now bk
          (n.val + 2)).onActive fun _ x => x.arrayCycle k.now))

/-- MZERO clears a bank, or all four, at t + 2; MACC samples its source at t + 1; MRD reads a line of a bank into a register at t + 6, as the bank is seen
in its cycle, and MWR writes one at t + 5; MSTAT reads the status record at t + 2, clearing its counts where it says so (R247 to R249, R260). -/
def Sys2Proof.Claims.ArrayBanks : Prop :=
  ∀ (s : State) (bk bs : BitVec 2) (v : BitVec 6) (vs : VSrc) (ln : BankLine) (clr : Bool),
    let k := s.me
    let full (lat : Nat) (res : BitVec 1024) : List PEntry := k.flyV .m (k.vphys v) lat [0, 1, 2, 3] res (BitVec.allOnes 128)
    (s.mCheck (.mzero (some bk)) = none → exec (.mzero (some bk)) s = .next (s.onActive fun _ x =>
      { x with bankUpds := x.bankUpds ++ [⟨k.now + 2, k.now, .zero bk⟩] })) ∧
    (s.mCheck (.mzero none) = none → exec (.mzero none) s = .next (s.onMe fun k => [0#2, 1#2, 2#2, 3#2].foldl (fun k b =>
      k.onActive fun _ x => { x with bankUpds := x.bankUpds ++ [⟨k.now + 2, k.now, .zero b⟩] }) k)) ∧
    (s.mCheck (.macc bk bs) = none → exec (.macc bk bs) s = .next (s.onActive fun _ x =>
      { x with bankUpds := x.bankUpds ++ [⟨k.now + 1, k.now, .accSample bk bs⟩] })) ∧
    (s.mCheck (.mrd bk v ln) = none → exec (.mrd bk v ln) s = .next (s.onActive fun _ x =>
      x.fly (full 6 (ofElts 32 (ln.cells.map fun c => (sget 0#32 (4225 * bk.toNat + c) x.seen.m).toNat))))) ∧
    (s.mCheck (.mwr bk vs ln) = none → exec (.mwr bk vs ln) s = .next (s.onActive fun _ x =>
      { k.popOn [vs] x with bankUpds := x.bankUpds ++
          [⟨k.now + 5, k.now, .write bk (ln.cells.zipIdx.map fun (c, j) => (c, BitVec.ofNat 32 (elt 32 (k.vsrc x vs) j)))⟩] })) ∧
    (s.mCheck (.mstat v clr) = none → exec (.mstat v clr) s = .next (s.onActive fun _ x =>
      ({ x with dstat := if clr then clearCounts x.dstat else x.dstat } : Core).fly (full 2 x.dstat)))

/-- MDRN and MDRNK begin a drain of a bank on the active cores: the snapshot is checked and corrected, and its results come at completion; MDIAG
and MSPR keep the array 160 and 64 cycles and answer in a register then: MDIAG 66 bits, MSPR its code (R250 to R258, R262, R263). -/
def Sys2Proof.Claims.ArrayDrains : Prop :=
  ∀ (s : State) (bk : BitVec 2) (f : FSel) (m : Fin 64) (nochk ckw : Bool) (tm : BitVec 4) (col : Option (BitVec 4 × BitVec 16)) (v : BitVec 6)
    (kk : BitVec 4) (mode : SelMode) (nr : BitVec 5) (rb : BitVec 6) (row : Fin 66), s.cur.cl < s.clusters.length → s.me.cores.length = 256 →
    (s.mCheck (.mdrn bk f m nochk ckw tm col) = none → ∃ t, exec (.mdrn bk f m nochk ckw tm col) s = .next t ∧
      t = s.onMe (fun k => k.mdrn bk f (m.val + 1) nochk ckw tm col) ∧ t.me.drains.length = s.me.drains.length + 1) ∧
    (s.mCheck (.mdrnk bk f v kk nochk mode m nr rb) = none → ∃ t, exec (.mdrnk bk f v kk nochk mode m nr rb) s = .next t ∧
      t = s.onMe (fun k => k.mdrnk bk f v (kk.toNat + 1) nochk mode (m.val + 1) (nr.toNat + 1) rb.toNat) ∧
      t.me.drains.length = s.me.drains.length + 1) ∧
    let answers (t : State) (i lat : Nat) (q : BitVec 1024) : Prop :=
      (t.me.core i).pipe = (s.me.core i).pipe ++ s.me.flyV .m (s.me.vphys v) lat [0, 1, 2, 3] q (BitVec.allOnes 128)
    (s.mCheck (.mdiag v) = none → ∃ t, exec (.mdiag v) s = .next t ∧ s.sameMem t ∧ ∀ i, i < 256 → s.me.cmsk.getLsbD i = true →
      (t.me.core i).diagFree = s.me.now + 160 ∧ ∃ q : BitVec 1024, q.toNat < 2 ^ 66 ∧ answers t i 160 q) ∧
    (s.mCheck (.mspr v false row) = none → ∃ t, exec (.mspr v false row) s = .next t ∧ s.sameMem t ∧ t.spare = s.spare ∧
      ∀ i, i < 256 → s.me.cmsk.getLsbD i = true → (t.me.core i).diagFree = s.me.now + 64 ∧
        answers t i 64 (BitVec.ofNat 1024 (sprCode (s.me.core i) row.val))) ∧
    (s.mCheck (.mspr v true row) = none → ∃ t, exec (.mspr v true row) s = .next t ∧ s.sameMem t ∧
      ∀ i, i < 256 → s.me.cmsk.getLsbD i = true → (t.me.core i).diagFree = s.me.now + 64 ∧
        answers t i 64 (BitVec.ofNat 1024 (sprCode (s.me.core i) row.val)))

/-- M instructions whose checks fail take the trap of the first that does, on the lowest active core: in a handler entered with array work unfinished,
or under a format-table entry or a plane that the instruction may not use, an illegal instruction; while the array, its row input or its four drains
are taken, an illegal bundle with INFO 4; an image out of the B-store or misaligned, the address traps; a bank that has not been flushed, a schedule
fault with INFO 2 (R80, R99, R235, R237, R238, R240, R242, R259, R345). -/
def Sys2Proof.Claims.ArrayTraps : Prop :=
  ∀ (s : State) (i : Instr) (j : Nat) (b : Banked) (f : FSel), i.inM = true →
    let k := s.me
    let traps (x : TrapInfo) : Prop := exec i s = .next (s.issueTrap s.cur.cl x)
    let first (bad : Nat → Core → Bool) : Prop := k.firstBad bad = some j
    (k.handler = some b → b.aq = false → traps (s.trapOf cILLINS)) ∧
    (k.handler = none → i.fsel = some f → (first fun _ x => !ftMOk (k.fte x f)) → traps (s.trapOf cILLINS (some j))) ∧
    (k.handler = none → ∀ bd bs pl n, i = .mrot bd bs pl n → (first fun _ x => (x.plane pl).fmt != .had) → traps (s.trapOf cILLINS (some j))) ∧
    (s.mEntry i = none → s.mPriv i = none →
      ((first fun _ x => decide (k.now < x.diagFree)) → traps (s.trapOf cILLBUN (some j) 4#16)) ∧
      ((k.firstBad fun _ x => decide (k.now < x.diagFree)) = none →
        ((match i with | .mrow .. | .mchk .. | .mrot .. => True | _ => False) → (first fun _ x => decide (k.now < x.inputFree)) →
          traps (s.trapOf cILLBUN (some j) 4#16)) ∧
        ((match i with | .mdrn .. | .mdrnk .. => True | _ => False) → (first fun n _ => decide (4 ≤ (k.drains.filter fun d => d.cores.getLsbD n).length)) →
          traps (s.trapOf cILLBUN (some j) 4#16))) ∧
      (s.mOcc i = none → ∀ fs pl ck aa off, i = .mbld fs pl ck aa off →
        let at' (x : Core) : Nat := (x.areg aa + (off.setWidth 32 <<< 7)).toNat
        let out (_ : Nat) (x : Core) : Bool := decide (at' x + planeSpan (ftB (k.fte x fs)) > 2 ^ 19)
        (first out → traps (s.trapOf cRANGE (some j))) ∧
        (k.firstBad out = none → (first fun _ x => decide (at' x % 128 ≠ 0)) → traps (s.trapOf cALIGN (some j)))) ∧
      (s.mOcc i = none → s.mRange i = none → s.mAlign i = none → (first fun n x => (flushBanks i).any (x.unflushed k.now) ||
          (match i with | .mdiag _ | .mspr _ _ _ => decide (k.drainsOf n > 0) | _ => false)) → traps (s.trapOf cSCHED (some j) 2#16)))

/-- A column step of a stream writes the one element of its row and column, with the sum that R245 builds over the row's operands and that column of the
plane, or its checksum column, from the element's own value or afresh. A completed drain puts its status record into its core, raises the map's bound flag
where a value was out of bounds, and folds the blocks' magnitudes into its AMAX; each byte of its tile is a store of its core that performs in the cycle
of completion, and the bytes of a row and of its headers lie where the map places them (R75, R203, R232, R239, R244, R245, R253 to R255, R259, R260). -/
def Sys2Proof.Claims.ArrayContents : Prop :=
  ∀ (s : State) (c : Nat) (x : Core) (st : Stream) (n r q : Nat) (bk : BitVec 2) (d : Drain) (k : Cluster) (w : BitVec 1024) (tm : BitVec 4) (e : BitVec 64)
    (ckw : Bool) (ds : List Nat) (rows : List (List (BitVec 32))) (a : Nat) (v : Byte),
    (swfFrom 0#32 0 x.m = true → st.row ≤ 64 → r ≤ 64 → q ≤ 64 → n ≤ 64 → (n = 64 → st.chkCol = true) →
      let col (kk : Nat) : Ext := if n = 64 then (x.plane st.plane).sum kk else (x.plane st.plane).get n kk
      let b (kk : Nat) : Ext := match st.src with | .rot _ _ => Ext.mul (col kk) (.num (1 / 8)) | _ => col kk
      let start : Ext := if st.fresh then freshOf st.op else val32 (x.cell st.bank.toNat st.row n)
      (x.stepCol st n).cell bk.toNat r q = if bk = st.bank ∧ r = st.row ∧ q = n then
        code32 (if st.src = .row .mac ∧ st.f4 = true ∧ n < 64 then
          f4Steps (fun kk => st.a.getD kk (.zero false)) b (fun kk => sget none kk st.z) (fun kk => sget none (128 * n + kk) (x.plane st.plane).z) start
        else (List.range 64).foldl (fun acc kk => cellStep st.op acc
          (if st.f4 then [(st.a.getD (2 * kk) (.zero false), b (2 * kk)), (st.a.getD (2 * kk + 1) (.zero false), b (2 * kk + 1))]
            else [(st.a.getD kk (.zero false), b kk)])) start)
        else x.cell bk.toNat r q) ∧
    (d.col = none → d.stat = [(n, w)] → c < s.clusters.length → n < (s.cl c).cores.length → swfFrom 0#64 0 (s.cl c).tm = true →
      let t := s.finishDrain c d
      ((t.cl c).core n).dstat = statNext ((s.cl c).core n).dstat w ∧ (∀ m, m ≠ n → (t.cl c).core m = (s.cl c).core m) ∧
        (d.bflag = true → (t.cl c).tmField d.tm 40 = 1#64) ∧
        (d.folds ≠ [] → (t.cl c).tmField d.tm 41 = foldAmax ((s.cl c).tmField d.tm 41) d.folds)) ∧
    ((a, v) ∈ d.out → a / 2 ^ 18 < k.cores.length → ∃ y, y ∈ ((k.tileStores d).core (a / 2 ^ 18)).pipe ∧ y.kind = .store ∧ y.land = k.now ∧
      y.issue = d.issue ∧ ∃ j, (j, a) ∈ y.lanes ∧ laneByte y.val j = v) ∧
    (∀ i ys, rows[i]? = some ys →
      let out := drainRow e (val32 ((k.tmField tm 35).setWidth 32)) (ds.drop (64 * i)) ys
      (∀ j b, out.1[j]? = some b → (k.tmN tm 19 + i * k.tmN tm 20 + j, BitVec.ofNat 8 b) ∈ k.tileBytes tm e ckw ds rows) ∧
      ∀ j b, out.2.1[j]? = some b → (k.tmN tm 22 + i * k.tmN tm 20 / hdrDiv (ftD e) + j, BitVec.ofNat 8 b) ∈ k.tileBytes tm e ckw ds rows)

/-- Bank operations and drains of the M slot. It rests also on choices of the model: log entries 24, 81. Says that these complete: mzero, macc, mrd,
mwr, mstat, mdrn, mdrnk, mdiag, mspr. -/
def Obligations.ArrayBanksAndDrains : Prop :=
  Claims.ArrayBanks ∧ Claims.ArrayDrains ∧ Claims.ArrayTraps ∧ Claims.ArrayContents

/-! ### The X slot -/

/-- A copy command that passes its checks enters the buffer with its map, its operands and its issue time, where there is room (R198, R204,
R205, R226). -/
def Sys2Proof.Claims.CopyCommandsEnter : Prop :=
  ∀ (s : State) (o : XOps) (sp : Bool) (kk : BitVec 4) (i : Instr),
    i ∈ [.xld o, .xldw o, .xst o, .xput o, .xb o, .xgth o, .xsct o, .xchn o, .xpair o, .xfil sp o, .xcol kk o, .xfen o] →
    s.xCheck i = none → s.me.buf.length < 64 →
    exec i s = .next (s.onMe fun k => { k with
      buf := k.buf ++ [(k.mkCmd i o).settled s.cur.cl], nextCmd := k.nextCmd + 1
      unclaimed := k.unclaimed - (match i with | .xgth _ | .xsct _ => (((k.sreg o.sa).toNat % 512 : Nat) : Int) | _ => 0) })

/-- XPSH appends one index or two to the address queue; XCAN takes the waiting commands of a sequence number, or all, out of the buffer; both act at
issue (R225, R226). -/
def Sys2Proof.Claims.IndexQueueAndCancel : Prop :=
  ∀ (s : State) (sa sb : BitVec 5) (all : Bool) (sq : BitVec 12),
    (s.me.handler = none → s.me.addrQ.length < 256 → exec (.xpsh true sa sb) s = .next (s.onMe fun k => { k with
      addrQ := k.addrQ ++ [(k.sreg sa).setWidth 32], unclaimed := k.unclaimed + 1 })) ∧
    (s.me.handler = none → s.me.addrQ.length < 255 → exec (.xpsh false sa sb) s = .next (s.onMe fun k => { k with
      addrQ := k.addrQ ++ [(k.sreg sa).setWidth 32, (k.sreg sb).setWidth 32], unclaimed := k.unclaimed + 2 })) ∧
    (s.me.handler = none → exec (.xcan all sq) s = .next (s.onMe fun k => { k with
      buf := k.buf.filter fun x => !(all || (match xops x.instr with | some o => o.sq == sq | none => false)) }))

/-- In handler mode every X instruction is an illegal instruction (R345). Outside it a command that breaks a check of its map or operands takes the
copy-command trap, a push that would overflow the address queue a schedule fault with INFO 3, and a command that finds the buffer full holds before issue
(R205, R215, R226). -/
def Sys2Proof.Claims.CopyTraps : Prop :=
  ∀ (s : State) (i : Instr) (o : XOps) (sp one : Bool) (kk : BitVec 4) (sa sb : BitVec 5),
    let commands := [.xld o, .xldw o, .xst o, .xput o, .xb o, .xgth o, .xsct o, .xchn o, .xpair o, .xfil sp o, .xcol kk o, .xfen o]
    (i.inX = true → s.me.handler.isSome = true → exec i s = .next (s.issueTrap s.cur.cl (s.trapOf cILLINS))) ∧
    (i ∈ commands → s.me.handler = none → (s.me.mkCmd i o).bad s.cur.cl s.me.unclaimed = true →
      exec i s = .next (s.issueTrap s.cur.cl { s.trapOf cCOPYCMD with slot := 6#3 })) ∧
    (s.me.handler = none → 256 < s.me.addrQ.length + (if one then 1 else 2) →
      exec (.xpsh one sa sb) s = .next (s.issueTrap s.cur.cl { s.trapOf cSCHED none 3#16 with slot := 6#3 })) ∧
    (i ∈ commands → s.xCheck i = none → 64 ≤ s.me.buf.length → exec i s = .next (s.beginHold .fullBuffer 0))

/-- The X slot. It rests also on choices of the model: log entries 77 to 79. Says that these complete: xld, xldw, xst, xput, xb, xgth, xsct, xchn,
xpair, xfil, xcol, xfen, xpsh, xcan. -/
def Obligations.CopySlot : Prop :=
  Claims.CopyCommandsEnter ∧ Claims.IndexQueueAndCancel ∧ Claims.CopyTraps

/-! ### The D slot -/

/-- Four cycles after the last D instruction or later, each active core forms the four elements of its result, which land at t + 24: sums,
differences, products and extremes of pairs, maps, mixtures, conditioning, tags, moves, construction (R271 to R281). -/
def Sys2Proof.Claims.DistributionResults : Prop :=
  ∀ (s : State) (pm : PairMode) (dd da db : BitVec 3) (va : VSrc) (mf : MapFn) (tg : TagOp) (sel : BitVec 8),
    let out (srcs : List VSrc) (f : Core → (VSrc → BitVec 1024) → Nat → DEl) : Res := .next (s.onMe fun k =>
      { k.onActive fun _ x => (k.popOn srcs x).fly (k.flyD .d dd 24 (packEls (f x (k.vsrc x))).1 (packEls (f x (k.vsrc x))).2) with
        lastD := some k.now })
    s.dCheck = none →
    exec (.dadd pm dd da db) s = out [] (fun x _ e => pairEl pm Ext.add (x.del da e) (x.del db e)) ∧
    exec (.dsub pm dd da db) s = out [] (fun x _ e => pairEl pm Ext.sub (x.del da e) (x.del db e)) ∧
    exec (.dmul pm dd da db) s = out [] (fun x _ e => pairEl pm Ext.mul (x.del da e) (x.del db e)) ∧
    exec (.dmax pm dd da db) s = out [] (fun x _ e => pairEl pm dMax (x.del da e) (x.del db e)) ∧
    exec (.dmin pm dd da db) s = out [] (fun x _ e => pairEl pm dMin (x.del da e) (x.del db e)) ∧
    exec (.daff dd da va) s = out [va] (fun x rd e =>
      mapEl (fun v => rne32 (Ext.add (Ext.mul (laneF (rd va) (2 * e)) v) (laneF (rd va) (2 * e + 1)))) (x.del da e)) ∧
    exec (.dmap mf dd da) s = out [] (fun x _ e => mapEl (mapFn mf) (x.del da e)) ∧
    exec (.dmix dd da db va) s = out [va] (fun x rd e => mixEl (laneF (rd va) e) (x.del da e) (x.del db e)) ∧
    exec (.dcnd dd da va) s = out [va] (fun x rd e => cndEl (laneF (rd va) (2 * e)) (laneF (rd va) (2 * e + 1)) (x.del da e)) ∧
    exec (.dtag tg dd da va) s = out [va] (fun x rd e =>
      { x.del da e with tag := tagOf tg (x.del da e).tag (BitVec.ofNat 16 (elt 32 (rd va) e)) }) ∧
    exec (.dmov sel dd da) s = out [] (fun x _ e => x.del da (sel.extractLsb' (2 * e) 2).toNat) ∧
    exec (.dfrs dd va) s = out [va] (fun _ rd e => condense 0#16 ((List.range 8).map fun j => (laneF (rd va) (8 * e + j), 1 / 8))) ∧
    exec (.dpnt dd va) s = out [va] (fun _ rd e => condense 0#16 [(laneF (rd va) e, 1)])

/-- DSMP, DMOM and DQNT leave samples, moments and quantiles in a vector register at t + 24; DFRW reads its first register now and carries it in an
entry that reads the next one a cycle on (R273, R281 to R284). -/
def Sys2Proof.Claims.DistributionReadings : Prop :=
  ∀ (s : State) (dd da : BitVec 3) (v : BitVec 6) (va : VSrc) (lin : Bool), s.dCheck = none →
    exec (.dsmp v da) s = .next (s.dVecNext v [] 32 fun ds x _ i => match (x.del da (i / 8)).take with
      | none => canonNan32
      | some ps => code32 (pickCum ps fun c => decide (((ds.getD i 0 / 256 : Nat) : Rat) * pow2 (-24) < c))) ∧
    exec (.dmom v da) s = .next (s.dVecNext v [] 0 fun _ x _ i => if i ≥ 16 then 0#32 else match (x.del da (i / 4)).take with
      | none => canonNan32
      | some ps => code32 (momentOf ps (i % 4))) ∧
    exec (.dqnt lin da va) s = .next (s.dVecNext va.r [va] 0 fun _ x rd i => if i ≥ 4 then 0#32 else match (x.del da i).take with
      | none => canonNan32
      | some ps =>
        let p := laneF (rd va) i
        if p.isNan || Ext.lt p (.zero false) || Ext.lt (.num 1) p then canonNan32
        else code32 (if lin then quantLin ps p.rat else pickCum ps fun c => decide (p.rat ≤ c))) ∧
    (va.r ≠ 63#6 → exec (.dfrw dd va) s = .next (s.onMe fun k =>
      { k.onActive fun _ x =>
          let pop := k.repMapped va.r 1
          let r : RepRec := ⟨.dfrw dd va, k.rrbv, k.rrbp, if pop then some (x.gq.headD 0#1024) else none, 0#1024⟩
          (if pop then { x with gq := x.gq.tail } else x).fly
            [{ entryOf .rep .d .d dd.toNat 0 (k.now + 24) k.now 0#256 0#32 k.origin with perf := 1, rep := some { r with first := repSrc r x va.r 0 } }]
        with lastD := some k.now }))

/-- A D instruction fewer than four cycles after the last one, in a bundle that is not legal for it, is an illegal bundle with INFO 4; DFRW of v63, whose
second register does not exist, is an illegal instruction (R99, R273). -/
def Sys2Proof.Claims.DistributionTraps : Prop :=
  ∀ (s : State) (i : Instr) (dd : BitVec 3) (va : VSrc) (t : Nat),
    (i.inD = true → (∀ d v, i = .dfrw d v → v.r ≠ 63#6) → s.me.lastD = some t → s.me.now < t + 4 →
      exec i s = .next (s.issueTrap s.cur.cl (s.trapOf cILLBUN none 4#16))) ∧
    (va.r = 63#6 → exec (.dfrw dd va) s = .next (s.issueTrap s.cur.cl (s.trapOf cILLINS)))

/-- The D slot. It rests also on choices of the model: log entry 23. Says that these complete: dadd, dsub, dmul, dmax, dmin, daff, dmap, dmix, dcnd,
dtag, dmov, dfrs, dpnt, dsmp, dmom, dqnt, dfrw. -/
def Obligations.DistributionSlot : Prop :=
  Claims.DistributionResults ∧ Claims.DistributionReadings ∧ Claims.DistributionTraps

/-! ### Bozoak words -/

/-- SETV, ADDV and the PEER forms write a register and the word completes: PC goes on by 8. LOOP pushes a level and clears its register, ENDL counts
and goes back or pops; NOP only completes; END ends the program once no delivery is in flight (R320, R331, R332). It rests also on choices of the
model: log entry 33. Says that these complete: setv, addv, peer, peerInd, peerXor, bzLoop, bzEndl, bzNop, bzEnd. -/
def Obligations.BozoakRegisters : Prop :=
  ∀ (s : State) (gd ga : BitVec 3) (imm : BitVec 32) (p : PeerEx) (l : BitVec 3 × BitVec 32 × BitVec 57) (ls : List (BitVec 3 × BitVec 32 × BitVec 57)),
    let b := s.bzMe
    let wr (v : BitVec 32) : Res := .next ((s.onBz s.cur.bz fun b => b.setG gd v).onBz s.cur.bz BzCtx.advance)
    exec (.setv gd imm) s = wr imm ∧ exec (.addv gd ga imm) s = wr (b.g.getD ga.toNat 0#32 + imm) ∧
    exec (.peer gd p) s = wr (BitVec.ofNat 32 (((b.rank : Int) + p.ps.toInt * b.gi p.pg + p.po.toInt) % (b.size : Int)).toNat) ∧
    (0 ≤ b.gi ga → b.gi ga < (b.size : Int) → exec (.peerInd gd ga) s = wr (BitVec.ofNat 32 (b.gi ga).toNat)) ∧
    exec (.peerXor gd ga) s = wr (BitVec.ofNat 32 b.rank ^^^ b.g.getD ga.toNat 0#32) ∧
    (b.loops.length ≠ 2 → imm ≠ 0#32 → imm.getLsbD 31 = false → exec (.bzLoop gd imm) s =
      .next ((s.onBz s.cur.bz fun b => { b.setG gd 0#32 with loops := (gd, imm, b.pc + 8#57) :: b.loops }).onBz s.cur.bz BzCtx.advance)) ∧
    (b.loops = l :: ls →
      let v := b.g.getD l.1.toNat 0#32 + 1#32
      (v.slt l.2.1 = true → exec .bzEndl s = .next (s.onBz s.cur.bz fun b => { b.setG l.1 v with pc := l.2.2 })) ∧
      (v.slt l.2.1 = false → exec .bzEndl s =
        .next ((s.onBz s.cur.bz fun b => { b.setG l.1 v with loops := ls }).onBz s.cur.bz BzCtx.advance))) ∧
    exec .bzNop s = .next (s.onBz s.cur.bz BzCtx.advance) ∧
    (s.inFlight s.cur.bz = false → exec .bzEnd s = .next (s.onBz s.cur.bz fun b => { b with st := .idle }))

/-- A word that breaks its rules faults its context with the cause of its kind: an unassigned opcode; a field or flag that the word does not use, or an
unassigned chunk or reduction code; a loop of three levels, or of no count or one from 2^31, and an ENDL outside one; a peer out of the communicator; a
length that breaks R316; a COPY with no output area. PC stays and memory is as it was (R316, R320, R321, R328, R331). -/
def Sys2Proof.Claims.BozoakWordFaults : Prop :=
  ∀ (s : State) (gd ga : BitVec 3) (imm : BitVec 32) (c : ChunkEx) (p : PeerEx) (pr pt : Bool) (rop : BzRop) (idx : BitVec 6) (w : BitVec 64), s.cur.bz < s.bz.length →
    let b := s.bzMe
    let stops (cause : BitVec 8) (i : Instr) : Prop := ∃ t, exec i s = .next t ∧ (t.bzc s.cur.bz).st = .fault ∧ (t.bzc s.cur.bz).cause = cause ∧
      (t.bzc s.cur.bz).pc = b.pc ∧ t.mem = s.mem
    ((b.loops.length = 2 ∨ imm = 0#32 ∨ imm.getLsbD 31 = true) → stops bzLOOP (.bzLoop gd imm)) ∧ (b.loops = [] → stops bzLOOP .bzEndl) ∧
    ((b.gi ga < 0 ∨ (b.size : Int) ≤ b.gi ga) → stops bzBADPEER (.peerInd gd ga)) ∧
    ((b.gi p.pg < 0 ∨ (b.size : Int) ≤ b.gi p.pg) → stops bzBADPEER (.send pt true c p) ∧ stops bzBADPEER (.rrs rop pr pt true c p) ∧
      stops bzBADPEER (.sig true idx p)) ∧
    (b.lenOk (b.chunk c) = false → stops bzLEN (.send pt false c p) ∧ stops bzLEN (.recv pr c) ∧ stops bzLEN (.rrd rop pr c) ∧
      stops bzLEN (.rrs rop pr pt false c p) ∧ (b.obase ≠ 0 → stops bzLEN (.copy c))) ∧
    (b.obase = 0 → stops bzBADDESC (.copy c)) ∧
    (let op := (w.extractLsb' 58 6).toNat
     let read (e : DecErr) : Prop := decodeWord (.bz w) = .error e
     (16 ≤ op → read .opcode) ∧ ((op = 0 ∨ op = 10 ∨ op = 15) → w.extractLsb' 0 58 ≠ 0#58 → read .reserved) ∧
       (1 ≤ op → op ≤ 6 → w.extractLsb' 22 2 = 3#2 → read .reserved) ∧ ((op = 3 ∨ op = 4) → w.extractLsb' 8 2 = 3#2 → read .reserved) ∧
       ((op = 1 ∨ op = 2 ∨ op = 5 ∨ op = 6) → w.getLsbD 0 = true → read .reserved)) ∧
    (∀ t e, b.st = .running → b.stopping = false → b.overrun = false → s.hWord b.ctx b.pc.toNat = (some w, t) → decodeWord (.bz w) = .error e →
      s.bozoakWord s.cur.bz = .next (t.onBz t.cur.bz (·.fault (if e = .reserved then bzRSVD else bzILLOP))))

/-- A received slot whose header names another length, whose bytes do not give its checksum, or whose vectors disagree faults the word that would use
it, and the slot stays as it is (R316, R324, R327). -/
def Sys2Proof.Claims.BozoakSlotFaults : Prop :=
  ∀ (s t1 t2 u3 : State) (rop : BzRop) (pr pt : Bool) (c : ChunkEx) (p : PeerEx) (hd rcv loc : List Byte),
    let b := s.bzMe
    let ch := b.chunk c
    let slot := b.slot b.rank ch pr
    let reducing (t : State) (cause : BitVec 8) : Prop := exec (.rrd rop pr c) s = .next (t.onBz t.cur.bz (·.fault cause)) ∧
      exec (.rrs rop pr pt false c p) s = .next (t.onBz t.cur.bz (·.fault cause))
    let all (t : State) (cause : BitVec 8) : Prop := exec (.recv pr c) s = .next (t.onBz t.cur.bz (·.fault cause)) ∧ reducing t cause
    b.lzBad = [] → b.lenOk ch = true → s.raw (s.readAddr (slot + 12)) = 1#8 → s.zoneLost slot (128 + b.len ch) = false →
    s.hBytes (.hbm slot) 128 = (hd, t1) →
      (leNat ((hd.drop 4).take 4) ≠ b.len ch → all t1 bzLEN) ∧
      (leNat ((hd.drop 4).take 4) = b.len ch → t1.hBytes (.hbm (slot + 128)) (b.len ch) = (rcv, t2) →
        (leNat (hd.take 4) ≠ (crc32c rcv).toNat → all t2 bzE2E) ∧
        (leNat (hd.take 4) = (crc32c rcv).toNat → b.ckv = true →
          (b.verify rcv = false → all t2 bzCKSUM) ∧
          (b.verify rcv = true → t2.hRead b.ctx (b.dbase + ch * b.chsz) (b.len ch) = (some loc, u3) →
            b.verify loc = false ∨ b.verify (b.reduce rop loc rcv) = false → reducing u3 bzCKSUM)))

/-- Bozoak words that fault. It rests also on choices of the model: log entries 33, 84. -/
def Obligations.BozoakFaults : Prop :=
  Claims.BozoakWordFaults ∧ Claims.BozoakSlotFaults

/-- SEND reads the chunk's working copy and starts a delivery to the peer's landing slot; COPY writes it to the output area (R322, R323, R328). -/
def Sys2Proof.Claims.BozoakSends : Prop :=
  ∀ (s t : State) (pt : Bool) (c : ChunkEx) (p : PeerEx) (bs : List Byte),
    let b := s.bzMe
    let ch := b.chunk c
    let done (u : State) : Res := .next (u.onBz u.cur.bz BzCtx.advance)
    b.lenOk ch = true → s.hRead b.ctx (b.dbase + ch * b.chsz) (b.len ch) = (some bs, t) →
      (exec (.send pt false c p) s = done (t.deliver t.cur.bz (b.peerAt p) ch pt bs) ∧
        (0 ≤ b.gi p.pg → b.gi p.pg < (b.size : Int) →
          exec (.send pt true c p) s = done (t.deliver t.cur.bz (b.gi p.pg).toNat ch pt bs))) ∧
      (b.obase ≠ 0 → ∀ u, t.hWrite b.ctx (b.obase + ch * b.chsz) bs = (true, u) → exec (.copy c) s = done u)

/-- A full slot that nothing but a delivery has written, whose length, checksum and vectors agree, is written to the work buffer, as it is by RECV and reduced with the local copy by RRD and
RRS; the slot is freed, RRS sends the result on, and the word completes (R322, R324 to R327). -/
def Sys2Proof.Claims.BozoakReceives : Prop :=
  ∀ (s t1 t2 t3 u3 u4 : State) (rop : BzRop) (pr pt : Bool) (c : ChunkEx) (p : PeerEx) (hd rcv loc : List Byte),
    let b := s.bzMe
    let ch := b.chunk c
    let done (u : State) : Res := .next (u.onBz u.cur.bz BzCtx.advance)
    let slot := b.slot b.rank ch pr
    let next (u : State) : State := u.hPutZone (slot + 12) [0#8]
    b.lzBad = [] → b.lenOk ch = true → s.raw (s.readAddr (slot + 12)) = 1#8 → s.zoneLost slot (128 + b.len ch) = false → s.hBytes (.hbm slot) 128 = (hd, t1) → leNat ((hd.drop 4).take 4) = b.len ch →
    t1.hBytes (.hbm (slot + 128)) (b.len ch) = (rcv, t2) → leNat (hd.take 4) = (crc32c rcv).toNat → (b.ckv = true → b.verify rcv = true) →
      (t2.hWrite b.ctx (b.dbase + ch * b.chsz) rcv = (true, t3) → exec (.recv pr c) s = done (next t3)) ∧
      (t2.hRead b.ctx (b.dbase + ch * b.chsz) (b.len ch) = (some loc, u3) → (b.ckv = true → b.verify loc = true ∧ b.verify (b.reduce rop loc rcv) = true) →
        u3.hWrite b.ctx (b.dbase + ch * b.chsz) (b.reduce rop loc rcv) = (true, u4) →
        exec (.rrd rop pr c) s = done (next u4) ∧
        exec (.rrs rop pr pt false c p) s =
          done ((next u4).deliver (next u4).cur.bz (b.peerAt p) ch pt (b.reduce rop loc rcv)))

/-- The Bozoak words that move chunks. It rests also on choices of the model: log entries 10, 33. Says that these complete: send, copy, recv, rrd,
rrs. -/
def Obligations.BozoakChunks : Prop :=
  Claims.BozoakSends ∧ Claims.BozoakReceives

/-- WAITC completes and takes its target off once the chunk's count has reached it, WAITS once its signal's count has; SIG adds at the peer, in flight
until acknowledged, where a port takes it there, and SIG.bit sets its bit; BAR announces itself to the other members, and a context's m-th completes
once each of them has started its m-th, or waits (R329, R330, R332, R382, R383). It rests also on choices of the model: log entries 33, 34, 64, 84.
Says that these complete: waitc, waits, sig, sigBit, bar. -/
def Obligations.BozoakSynchronises : Prop :=
  ∀ (s t : State) (c : ChunkEx) (idx : BitVec 6) (n : BitVec 16) (i : BitVec 12) (p : PeerEx) (acq rel : Bool) (tg : Target),
    let b := s.bzMe
    let ch := b.chunk c
    let done (u : State) : Res := .next (u.onBz u.cur.bz BzCtx.advance)
    (b.target ch ≤ sget 0 ch b.counts → exec (.waitc c) s =
      done ((s.dropPeer 4 .device).onBz s.cur.bz fun b => { b with counts := sput 0 ch (sget 0 ch s.bzMe.counts - b.target ch) b.counts })) ∧
    (sget 0 ch b.counts < b.target ch → exec (.waitc c) s = .next s) ∧
    (let f := s.foldSig s.cur.bz idx.toNat
     let v := sget 0#32 idx.toNat f.bzMe.sig
     (n.toNat ≤ v.toNat → exec (.waits idx n) s =
       done ((f.dropPeer 4 .fabric).onBz f.cur.bz fun b => { b with sig := sput 0#32 idx.toNat (v - n.setWidth 32) b.sig })) ∧
     (v.toNat < n.toNat → exec (.waits idx n) s = .next f)) ∧
    (b.sigDue = none → s.inFlight s.cur.bz = false → b.dev (b.peerAt p) ≠ Config.deviceId →
      let off := b.sigWord (b.peerAt p) idx.toNat
      let pa := peerPa (b.dev (b.peerAt p)).toNat off
      (s.fabricPorts.length = 7 → exec (.sig false idx p) s = .next (({ s.free.2 with
        outer := wrBytes s.outer pa (leBytes 8 (leWord (rdBytes s.outer pa 8) + 1#64).toNat)
        outbox := s.outbox ++ [.peerAdd (b.dev (b.peerAt p)) off] } : State).onBz s.cur.bz fun b => { b with sigDue := some (s.ct + 1 + s.free.1) })) ∧
      (s.fabricPorts = [] → exec (.sig false idx p) s = .next s.free.2)) ∧
    (b.sigDue = none → s.inFlight s.cur.bz = false → b.dev (b.peerAt p) = Config.deviceId →
      s.zoneLost (b.sigWord (b.peerAt p) idx.toNat) 8 = false → exec (.sig false idx p) s =
      (let u := s.free.2.addWord (b.sigWord (b.peerAt p) idx.toNat)
       .next (u.onBz u.cur.bz fun b => { b with sigDue := some (u.ct + 1 + s.free.1) }))) ∧
    (b.sigDue = some s.ct → exec (.sig false idx p) s = done s) ∧
    (s.hXlate b.ctx (b.bmap + 8 * (i.toNat / 64)) .write = (some tg, t) → exec (.sigBit i) s =
      done (t.atomTarget 4 tg .or false true .none (1#64 <<< (i.toNat % 64)) 0#64 false []).2) ∧
    (b.arrived = false → (rel = false ∨ s.inFlight s.cur.bz = false) → (s.fabricPorts ≠ [] ∨ ∀ r, r ∈ b.others → b.dev r = Config.deviceId) →
      exec (.bar acq rel) s = .next (s.barArrive s.cur.bz)) ∧
    (b.arrived = false → (rel = true ∧ s.inFlight s.cur.bz = true ∨ s.fabricPorts = [] ∧ ∃ r, r ∈ b.others ∧ b.dev r ≠ Config.deviceId) →
      exec (.bar acq rel) s = .next s) ∧
    (b.arrived = true → (∀ r, r ∈ b.others → b.barGen ≤ sget 0 (b.barKey b.rank r) s.barIn) → exec (.bar acq rel) s =
      done (if acq then (List.range 4).foldl (fun s d => s.dropPeer d .fabric) s else s)) ∧
    (∀ r, b.arrived = true → r ∈ b.others → b.dev r = Config.deviceId → sget 0 (b.barKey b.rank r) s.barIn < b.barGen →
      ∃ t, exec (.bar acq rel) s = .next t ∧ t.bz = s.bz ∧ t.mem = s.mem)

/-! ### Holds and their ends -/

/-- An LDF or STF of device memory, due, with no FENCE before it, whose page the TLB holds and whose bytes no error, race or partial result stands over,
completes: LDF's word lands extended, and STF's bytes are written. In general a far access that is due and meets no access of the program in a bank performs and its hold ends; one that fails ends it in its fault, or waits for a repair in replayable mode. LNCH's answer
follows its release and the read of its record: the record that stands in device memory is submitted, and the code lands; one that cannot be read
ends the hold in its fault (R23, R143, R144, R152, R309). -/
def Sys2Proof.Claims.AccessHoldsEnd : Prop :=
  ∀ (s t : State) (c : BitVec 4) (h : Hold), s.dueHolds c.toNat = [h] →
    (∀ sgn n sd q p, h.kind = .far (.ldf sgn n sd) [q] → (s.cl c.toNat).relAfter = [] → s.noPartials → (s.cl c.toNat).rde = false →
      s.seesAt c.toNat q.va .read p → (∀ j, j < n → s.poisoned (128 * ((p + j) / 128)) 128 = false) →
      exec (.farAccessHoldEnd c) s = .next ((s.holdWrite c.toNat sd (extWord sgn n (leWord (s.bytesAt p n)))).dropHold c.toNat h)) ∧
    (∀ n q p, h.kind = .far (.stf n) [q] → (s.cl c.toNat).relAfter = [] → s.noPartials → (s.cl c.toNat).rde = false → s.seesAt c.toNat q.va .write p →
      exec (.farAccessHoldEnd c) s = .next (((s.hbmWrite p (leBytes n q.data.toNat)).tagWrite c.toNat false 0#20 (touched p (List.range n))).dropHold
        c.toNat h)) ∧
    (∀ sd va p, h.kind = .lnch sd va → (s.cl c.toNat).relAfter = [] → s.noPartials → (s.cl c.toNat).far = [] → s.rdcOf (c.toNat / 4) = [] →
      s.seesAt c.toNat va .read p → (∀ j, j < 128 → s.poisoned (128 * ((p + j) / 128)) 128 = false) →
      let u := (s.release c.toNat .device).vcStep c.toNat
      let v := u.submit (BitVec.ofNat 1024 (leNat (s.bytesAt p 128))) (.lnch c.toNat)
      exec (.lnchAnswer c) s = .next ((v.2.dropHold c.toNat h).holdWrite c.toNat sd (BitVec.ofNat 64 v.1))) ∧
    (∀ k ps, h.kind = .far k ps → s.farBusy c.toNat k ps = false →
      let o := (s.cl c.toNat).holdOrigin h
      (s.farPerform c.toNat o k ps = (.done, t) → exec (.farAccessHoldEnd c) s = .next (t.dropHold c.toNat h)) ∧
      (s.farPerform c.toNat o k ps = (.again, t) → exec (.farAccessHoldEnd c) s = .next (t.setHold c.toNat h { h with replay := true })) ∧
      (∀ x, s.farPerform c.toNat o k ps = (.fault x, t) → exec (.farAccessHoldEnd c) s = .next (t.holdFails c.toNat h x))) ∧
    (∀ sd va, h.kind = .lnch sd va →
      let u := ((s.settle c.toNat (s.cl c.toNat).nextPost).release c.toNat .device).vcStep c.toNat
      (∀ bs, u.farReadAt c.toNat va 128 none (List.range 128) false = (.ok bs, t) → exec (.lnchAnswer c) s =
        .next (((t.submit (BitVec.ofNat 1024 (leNat bs)) (.lnch c.toNat)).2.dropHold c.toNat h).holdWrite c.toNat sd
          (BitVec.ofNat 64 (t.submit (BitVec.ofNat 1024 (leNat bs)) (.lnch c.toNat)).1))) ∧
      (∀ x, u.farReadAt c.toNat va 128 none (List.range 128) false = (.error x, t) → (t.cl c.toNat).replays x = false →
        exec (.lnchAnswer c) s = .next (t.holdFails c.toNat h x)))

/-- A PWAIT's first sample that differs, or finds an overflow, decides it: the hold ends the cycle after, in a fault where that sample found the
overflow, and else with the clocks of the credits it consumed and an acquire; it goes on waiting otherwise, and no later sample changes the outcome (R138,
R231, R302). -/
def Sys2Proof.Claims.PennantWaitEnds : Prop :=
  ∀ (s : State) (c : BitVec 4) (h : Hold) (a : Nat) (ph : Bool), (s.cl c.toNat).holds = [h] →
    (h.kind = .pwait a ph →
      let p := (s.cl c.toNat).penSample a ph
      (p = .differs → exec (.pwaitResume c) s = .next (s.setHold c.toNat h { h with kind := .pflip a false, due := s.ct + 1 })) ∧
      (p = .overflow → exec (.pwaitResume c) s = .next (s.setHold c.toNat h { h with kind := .pflip a true, due := s.ct + 1 })) ∧
      (p = .waits → exec (.pwaitResume c) s = .next s)) ∧
    ((h.kind = .pflip a true ∨ h.kind = .pflip a false) → s.ct < h.due → exec (.pwaitResume c) s = .next s) ∧
    (h.kind = .pflip a true → h.due ≤ s.ct → exec (.pwaitResume c) s = .next (s.holdFails c.toNat h (penOverflow h.slot))) ∧
    (h.kind = .pflip a false → h.due ≤ s.ct → exec (.pwaitResume c) s =
      .next (((s.dropHold c.toNat h).onCl c.toNat fun k => k.consume a).dropPeer (c.toNat / 4) .fabric))

/-- A due read of a BWAIT whose page the TLB holds and whose word no error or partial result stands over acquires and ends the hold where every bit of
its mask is set, and comes again within 1,024 cycles where one is not (R141). -/
def Sys2Proof.Claims.BuntingWaitEnds : Prop :=
  ∀ (s : State) (c : BitVec 4) (h : Hold) (a p : Nat) (mask : Word) (sc : Scope),
    s.dueHolds c.toNat = [h] → h.kind = .bwait a mask sc → s.seesAt c.toNat a .read p → s.poisoned p 8 = false → s.noPartials →
    let w := leWord (s.bytesAt p 8)
    (w &&& mask = mask → exec (.bwaitComplete c) s = .next ((s.dropHold c.toNat h).acquireAt c.toNat sc (.hbm p))) ∧
    (w &&& mask ≠ mask → ∃ n, 1 ≤ n ∧ n ≤ 1024 ∧ exec (.bwaitComplete c) s = .next (s.free.2.setHold c.toNat h { h with due := s.ct + n }))

/-- Holds that wait for an access, a pennant or a bitmap word end as these tell. It rests also on choices of the model: log entries 10, 38, 63 to 66.
Says that these complete: farAccessHoldEnd, lnchAnswer, pwaitResume, bwaitComplete. -/
def Obligations.HoldsEnd : Prop :=
  Claims.AccessHoldsEnd ∧ Claims.PennantWaitEnds ∧ Claims.BuntingWaitEnds

/-- A timegroup whose members have all arrived 32 cycles ago is released in one cycle, in which each issues whatever the pace of its clock, and not before; AMAXF's hold ends with the last drain of its
map; a throttle hold ends; fetched lines arrive and end the wait of their bundle; a repaired access is reissued (R48, R87, R151, R309, R386). -/
def Sys2Proof.Claims.OtherHoldsEnd : Prop :=
  ∀ (s : State) (c : BitVec 4) (h : Hold) (sd : BitVec 5) (tm : BitVec 4) (l f : Nat),
    (s.ttReady c.toNat = true → exec (.ttsyncRelease c) s = .next ((s.timegroup c.toNat).foldl
      (fun s i => s.onCl i fun k => { k with tts := none, clockAcc := 1700 - k.clock, holds := k.holds.filter fun h => h.kind != .ttsync }) s)) ∧
    (s.ttReady c.toNat = false → exec (.ttsyncRelease c) s = .next s) ∧
    ((s.cl c.toNat).holds = [h] → h.kind = .amaxf sd tm →
      ((s.cl c.toNat).drainOn tm = false → exec (.amaxfComplete c) s =
        .next ((s.dropHold c.toNat h).onCl c.toNat fun k => k.sWrite sd (k.tmField tm 41) 1)) ∧
      ((s.cl c.toNat).drainOn tm = true → exec (.amaxfComplete c) s = .next s)) ∧
    exec (.throttleHoldEnd c) s = .next (s.onCl c.toNat fun k => { k with throttle := 0 }) ∧
    ((s.cl c.toNat).fetches = [(l, f)] → f ≤ s.ct → exec (.codeFetchArrival c) s =
      .next (((s.onCl c.toNat fun k => { k with fetches := [] }).lineIn c.toNat l).onCl c.toNat fun k => { k with holds := k.holds.filter fun h =>
        match h.kind with | .lateFetch m => !(m == l) | _ => true })) ∧
    ((s.cl c.toNat).holds = [h] → (∃ k ps, h.kind = .far k ps) → h.replay = true → c.toNat < s.clusters.length →
      ∃ t, exec (.translationReplay c) s = .next t ∧ (t.cl c.toNat).holds = [{ h with replay := false, due := s.ct + 1 }])

/-- A hold longer than HOLDMAX ends in a schedule fault: before issue at the bundle itself, else as its hold's fault; a slip ends when its tags
match, and in a schedule fault beyond SLIPMAX (R46, R47). -/
def Sys2Proof.Claims.LimitsOfHolds : Prop :=
  ∀ (s : State) (c : BitVec 4) (h : Hold) (t : Nat) (b : Slots),
    let k := s.cl c.toNat
    (k.holds = [h] →
      (s.ct - h.start ≤ k.holdmax → exec (.holdTimeout c) s = .next s) ∧
      (k.holdmax < s.ct - h.start → preIssue h.kind = true → exec (.holdTimeout c) s =
        .next ((s.dropHold c.toNat h).issueTrap c.toNat { cause := cSCHED, info := 1#16, slot := BitVec.ofNat 3 h.slot.num })) ∧
      (k.holdmax < s.ct - h.start → preIssue h.kind = false → exec (.holdTimeout c) s =
        .next ((s.abandon c.toNat h).holdFails c.toNat h { cause := cSCHED, info := 1#16, slot := BitVec.ofNat 3 h.slot.num }))) ∧
    (k.slip = some t →
      (s.ct - t ≤ k.slipmax.toNat → exec (.slipLimit c) s = .next s) ∧
      (k.slipmax.toNat < s.ct - t → exec (.slipLimit c) s =
        .next ((s.onCl c.toNat fun k => { k with slip := none }).issueTrap c.toNat { cause := cSCHED, info := 0#16, slot := BitVec.ofNat 3 Slot.l.num }))) ∧
    (k.bundleNow = some b → k.tagOut (legal b) ≠ .late → exec (.slipEnd c) s = .next (s.onCl c.toNat fun k => { k with slip := none }))

/-- The other holds end, and those past their limits fail. It rests also on choices of the model: log entries 10, 58, 70. Says that these complete:
ttsyncRelease, amaxfComplete, throttleHoldEnd, codeFetchArrival, translationReplay, holdTimeout, slipLimit, slipEnd. -/
def Obligations.OtherHoldsAndLimits : Prop :=
  Claims.OtherHoldsEnd ∧ Claims.LimitsOfHolds

/-! ### A cluster's cycle and its copies -/

/-- What a cycle of a cluster's own time does, by event: results due land, those of due drains among them, planes and columns step, due drains complete,
memories perform, writes from outside come in around the program's accesses; in a freeze only updates and writes from outside land (R9, R23, R30, R96,
R97, R198, R239, R255, R289). -/
def Sys2Proof.Claims.CycleEvents : Prop :=
  ∀ (s : State) (c : BitVec 4) (a : BitVec 26) (v : BitVec 64),
    let i := c.toNat
    exec (.resultLanding c) s = .next (s.landingNow i) ∧
    ((s.cl i).tmw = [] → exec (.resultLanding c) s = .next (s.onCl i fun k => k.drainRegs.landing)) ∧
    exec (.planeReady c) s = .next (s.onCl i fun k =>
      k.badPlanes.foldl Cluster.addPend (k.onBusy (fun x => !x.loads.isEmpty) fun x => x.planeCycle k.now)) ∧
    exec (.arrayColumnStep c) s = .next (s.onCl i fun k => k.onBusy (fun x => !(x.streams.isEmpty && x.bankUpds.isEmpty)) fun x => x.arrayCycle k.now) ∧
    exec (.drainComplete c) s = .next (((s.cl i).drains.filter fun d => decide (d.done ≤ (s.cl i).now)).foldl
      (fun s d => (s.finishDrain i d).onCl i fun k => k.tileStores d) s) ∧
    ((s.cl i).issued = true → exec (.scratchpadPerform c) s =
      .next (s.onCl i fun k => (((k.repsNow).loadsNow).writesNow).pensNow s.ct true)) ∧
    ((s.cl i).issued = false → exec (.scratchpadPerform c) s = .next (s.onCl i fun k => k.pensNow s.ct false)) ∧
    ((s.cl i).issued = true → exec (.windowWrite c) s = .next (s.onCl i fun k => k.outsideWrites s.ct k.loadedNow k.storedNow)) ∧
    ((s.cl i).issued = false → exec (.windowWrite c) s = .next (s.onCl i fun k => k.outsideWrites s.ct [] [])) ∧
    exec (.remotePennantUpdate c a v) s = .next (s.onCl i fun k => { k with
      penUpds := k.penUpds ++ [⟨a.toNat, (v.extractLsb' 0 10).toNat, (v.extractLsb' 10 21).toNat, s.ct, []⟩] })

/-- The engine starts the first command that may start, in a cycle its cluster runs, and none otherwise; a BSET of that very cycle waits for the
command too; started commands advance; each gather brings
each core with room a vector; posted operations that are ready perform; a line leaves the far cache by merging (R140, R146, R206, R211, R227,
R296). -/
def Sys2Proof.Claims.CopyEvents : Prop :=
  ∀ (s : State) (c : BitVec 4) (x : Cmd) (p : Posted) (line : Nat),
    let i := c.toNat
    let k := s.cl i
    (k.engineRuns s.ct = true → k.lastStream ≤ k.ticks → k.starter i = some x → exec (.copyCommandStart c) s = .next (s.startCmd i x)) ∧
    (∀ p va b sc cmds f, s.clusters.length = 16 → p ∈ k.posted → p.kind = .bset va b sc cmds f → p.since = s.ct →
      { p with kind := .bset va b sc (cmds ++ [x.id]) f } ∈ ((s.startCmd i x).cl i).posted) ∧
    (k.engineRuns s.ct = false ∨ k.ticks < k.lastStream ∨ k.starter i = none → exec (.copyCommandStart c) s = .next s) ∧
    exec (.copyCommandComplete c) s = .next ((k.active.map (·.cmd.id)).foldl (fun s id => s.copyStep i id) s) ∧
    (∀ a v r j, k.active = [a] → a.gather = [(j, v :: r)] → (k.core j).gq.length < 16 → exec (.gatherEntryArrival c) s =
      .next (s.onCl i fun k => { k.onCore j fun x => { x with gq := x.gq ++ [v] } with active := [{ a with gather := [(j, r)] }] })) ∧
    (∀ va b sc cmds f, k.posted = [p] → p.kind = .bset va b sc cmds f → p.due ≤ s.ct → k.postReady p = true → s.windowBusy i va 8 .write = false →
      exec (.bsetPerform c) s = .next (s.setBitAt i p va b sc f)) ∧
    (∀ va op sgn w64 v f, k.posted = [p] → p.kind = .atom va op sgn w64 v f → p.due ≤ s.ct → k.postReady p = true →
      s.windowBusy i va (if w64 then 8 else 4) .write = false →
      exec (.postedAtomPerform c) s = .next (s.postPerform i p va (atomUpd op) (atomTy sgn w64) v .s none f)) ∧
    (∀ j e va op ty v, k.posted = [p] → p.kind = .vupd j e va op ty v → p.due ≤ s.ct → k.postReady p = true →
      s.windowBusy i va (updBytes ty) .write = false →
      exec (.postedAtomPerform c) s = .next (s.postPerform i p va op ty v .l (some (BitVec.ofNat 8 j)) none)) ∧
    exec (.updateLineMerge c line) s = .next (s.mergeLine i line)

/-- What a copy leaves behind it. A byte to memory is a write at its home, tagged with the clock of the command's issue where races are looked for; a byte
to a B-store is in it; a byte to a scratchpad performs there once it is due, where the program's banks allow. A load that has written every byte releases,
sets the tags of its pages to its SQ, credits its pennant with the 16-byte units it wrote and leaves the engine; one that failed leaves its pages poisoned
with its code (R203, R212, R213, R224, R230, R289, R290, R302). -/
def Sys2Proof.Claims.CopyContents : Prop :=
  ∀ (s u : State) (c : BitVec 4) (a : Active) (t : CopyTarget) (b : Byte) (at' va p n m o : Nat) (x : XOps) (k : Cluster) (w : WinWrite) (ct : Nat)
    (ld st : List Nat) (tag : BitVec 16) (code : BitVec 3) (e : TrapInfo),
    let i := c.toNat
    (va < 2 ^ 57 → s.noPartials → s.seesAt i va .write p → (s.cl i).rde = false → s.copyPut i a (.mem va) b =
      (.ok (), (s.hbmWrite p [b]).tagWrite i false a.clk [p / 128])) ∧
    (s.clusters.length = 16 → n < (s.cl i).cores.length → Memory.wf ((s.cl i).core n).bst = true →
      (s.copyPut i a (.bs n o) b).1.isOk = true ∧ ∀ o', (((s.copyPut i a (.bs n o) b).2.cl i).core n).bsByte o' =
        if o' = o then b else ((s.cl i).core n).bsByte o') ∧
    (a.outs = [(t, b, at')] → a.whole = [] → a.replay = false →
      (at' ≤ s.ct → s.copyPut i a t b = (.ok (), u) → s.copyWrites i a = (u, { a with outs := [] })) ∧
      (s.ct < at' → s.copyWrites i a = (s, a))) ∧
    (k.winW = [w] → w.at' ≤ ct →
      ((w.addr ∈ st ∨ ∀ y, y ∈ ld ++ st → bankOf y ≠ bankOf w.addr) → k.cores.length = 256 → (∀ x, x ∈ k.cores → Memory.wf x.spm = true) →
        w.addr < 2 ^ 26 → (k.outsideWrites ct ld st).winW = [] ∧
          ∀ o', o' < 2 ^ 26 → (k.outsideWrites ct ld st).spByte o' = if o' = w.addr then w.byte else k.spByte o') ∧
      (w.addr ∉ st → (∃ y, y ∈ ld ++ st ∧ bankOf y = bankOf w.addr) → w.by' = none →
        k.outsideWrites ct ld st = { k with winW := [{ w with at' := ct + 1 }] })) ∧
    ((s.cl i).active = [a] → a.cmd.instr = .xld x → a.waits = [] → a.loose = true → a.formed = true → a.replay = false → a.rd = [] → a.outs = [] →
      a.whole = [] → a.gather = [] → a.due ≤ s.ct → (s.cl i).lastStream ≤ (s.cl i).ticks →
      (∀ k, k ∈ s.clusters → ∀ w, w ∈ k.winW → w.src ≠ some (i, a.cmd.id)) →
      (a.fail = none → exec (.copyCommandComplete c) s = .next (((a.pages.foldl (fun s p => s.pageTag p (x.sq.setWidth 16) none)
        (s.copyRelease i a.cmd)).creditPen i a.cmd 0 ((a.nbytes + 15) / 16) (s.cl i).vc).retire i a)) ∧
      (a.fail = some (code, e) → exec (.copyCommandComplete c) s = .next (s.failCmd i a code e))) ∧
    (m < 16 → s.clusters.length = 16 → n < (s.cl m).cores.length → swfFrom 0#16 0 ((s.cl m).core n).spTag = true → o < 64 →
      ∀ o', sget 0#16 o' (((s.pageTag (m, n, o) tag none).cl m).core n).spTag = if o' = o then tag else sget 0#16 o' ((s.cl m).core n).spTag) ∧
    (∀ y, a.pages = [y] → y.1 = i → y.2.2 < 64 → y.2.1 < (s.cl i).cores.length → s.clusters.length = 16 →
      swfFrom 0#16 0 ((s.cl i).core y.2.1).spTag = true →
      sget 0#16 y.2.2 (((s.failCmd i a code e).cl i).core y.2.1).spTag = 1#1 ++ code ++ a.cmd.sq)

/-- A unit of a run that logs no keys reseeds with a fresh key, or after its 2^20 blocks with the key it already draws from, its draws counted from the
start of that key; where the run logs its keys the area takes the key first, and a fault on it ends the task (R389, R390). -/
def Sys2Proof.Claims.GeneratorsReseed : Prop :=
  ∀ (s t : State) (c : BitVec 4) (u : BitVec 9) (r : RunId), u.toNat ≤ 256 → (s.cl c.toNat).run = some r →
    let g := (s.cl c.toNat).unit u.toNat
    let fresh := Config.freeKey s.fresh
    let coming := Config.freeKey (s.fresh + 1)
    -- a unit that has used 2^20 blocks takes the key that was to come, with the draws it took of it already
    let key := if 2 ^ 24 ≤ g.draws then g.next else fresh
    let g' : Gen := ⟨key, g.draws - 2 ^ 24, g.seeds + 1, coming⟩
    let s' : State := { s with fresh := s.fresh + 2 }
    (r.rngm = 0#2 → exec (.generatorReseed c u) s = .next (s'.onCl c.toNat fun k => k.setUnit u.toNat g')) ∧
    (r.rngm = 1#2 → s'.logAppend c.toNat r u.toNat key = (true, t) →
      exec (.generatorReseed c u) s = .next (t.onCl c.toNat fun k => k.setUnit u.toNat g')) ∧
    (r.rngm = 1#2 → s'.logAppend c.toNat r u.toNat key = (false, t) →
      exec (.generatorReseed c u) s = .next ((t.onCl c.toNat fun k => k.setUnit u.toNat g').faultRun c.toNat))

/-- The events of a cluster and its copy engine. It rests also on choices of the model: log entries 18, 27, 37, 44, 65, 66, 73 to 78. Says that these
complete: resultLanding, planeReady, arrayColumnStep, drainComplete, scratchpadPerform, windowWrite, remotePennantUpdate, copyCommandStart,
copyCommandComplete, gatherEntryArrival, bsetPerform, postedAtomPerform, updateLineMerge, generatorReseed. -/
def Obligations.ClusterEvents : Prop :=
  Claims.CycleEvents ∧ Claims.CopyEvents ∧ Claims.CopyContents ∧ Claims.GeneratorsReseed

/-! ### Halyard -/

/-- Bozoak commands and bindings, where port 0 takes the host's writes: START of a context that is not running reads its communicator and begins, with no
BAR started, or faults with BADDESC; STOP abandons the word; CLRCNT clears the counts; the supervisor's binding makes a context idle or unbound, and a
new one has no overrun. Where port 0 has no stream, each is refused (R311 to R313, R332, R383). -/
def Sys2Proof.Claims.BozoakCommands : Prop :=
  ∀ (s t : State) (via : Via) (k : BitVec 4) (b : BzCtx) (v : BitVec 64),
    let x := s.bzc k.toNat
    let refused : Res := .next { s with outbox := s.outbox ++ [.refused] }
    (s.portOpen 0 false = false → exec (.bzcmdStart via k) s = refused ∧ exec (.bzcmdStop via k) s = refused ∧
      exec (.bzcmdClrcnt via k) s = refused ∧ exec (.bzbindWrite k v) s = refused) ∧
    (s.portOpen 0 false = true →
    (s.reaches via k.toNat = true → x.st = .idle ∨ x.st = .stopped ∨ x.st = .fault →
      (s.bzRead k.toNat = (some b, t) → ∃ m,
        let same := x.lz x.rank = b.lz b.rank ∧ x.chsz = b.chsz ∧ x.nchk = b.nchk
        let u := t.onBz k.toNat fun _ => { b with
          pc := b.prog, g := List.replicate 8 0#32, loops := [], sig := [], barGen := 0, cause := 0#8, st := .running, stopping := false
          arrived := false, sigDue := none, lzBad := if same then (t.bzc k.toNat).lzBad else [] }
        exec (.bzcmdStart via k) s = .next { u with barIn := m } ∧
          (swfFrom 0 0 t.barIn = true → ∀ r, r ∈ b.others → b.dev r ≠ Config.deviceId → sget 0 (b.barKey b.rank r) m = 0)) ∧
      (s.bzRead k.toNat = (none, t) → exec (.bzcmdStart via k) s = .next (t.onBz k.toNat (·.fault bzBADDESC))) ∧
      exec (.bzcmdClrcnt via k) s = .next (s.onBz k.toNat fun b => { b with counts := [] })) ∧
    (s.reaches via k.toNat = true → x.st = .running → s.inFlight k.toNat = false → x.bound = true → k.toNat < s.bz.length →
      ∃ u, exec (.bzcmdStop via k) s = .next u ∧ (u.bzc k.toNat).st = .stopped ∧ (u.bzc k.toNat).pc = x.pc ∧ (u.bzc k.toNat).g = x.g) ∧
    (s.reaches via k.toNat = false → exec (.bzcmdStart via k) s = .next s ∧ exec (.bzcmdStop via k) s = .next s ∧
      exec (.bzcmdClrcnt via k) s = .next s) ∧
    (v.getLsbD 63 = true → x.bound = false → k.toNat < s.bz.length → ∃ u, exec (.bzbindWrite k v) s = .next u ∧
      (u.bzc k.toNat).st = .idle ∧ (u.bzc k.toNat).counts = [] ∧ (u.bzc k.toNat).ctx = v.setWidth 12 ∧ (u.bzc k.toNat).overrun = false) ∧
    (v.getLsbD 63 = false → x.st ≠ .running → k.toNat < s.bz.length → ∃ u, exec (.bzbindWrite k v) s = .next u ∧
      (u.bzc k.toNat).st = .unbound ∧ (u.bzc k.toNat).bound = false))

/-- A context turn gives every running context its word, round-robin; a delivery lands its bytes and then its header, in this device's memory or in the
peer's, and one that fails or is refused lands in part at most and faults its context, where it runs under a binding; a signal that an inbound window
admits adds 1 to its word, and another is aborted; a drain's count, once its tiles have performed, adds to the context its run may reach (R257, R310, R318, R323,
R330, R392). -/
def Sys2Proof.Claims.BozoakEvents : Prop :=
  ∀ (s : State) (d : Delivery) (k c : BitVec 4) (idx : BitVec 6) (chunk : BitVec 20) (inc : BitVec 16) (o : Origin),
    (s.bz.all (fun b => !b.stopping) = true → s.bz.length = 16 → ∃ t, exec .bozoakContextTurn s = .next t ∧ t.bzTurn = (s.bzTurn + 1) % 16 ∧
      t.agenda = (((List.range 16).map fun i => (s.bzTurn + i) % 16).filter fun k => (s.bzc k).st == .running).map Turn.bzFetch ++ s.agenda ∧
      t.bz = s.bz ∧ t.mem = s.mem) ∧
    (s.deliveries = [d] → d.dev ≠ Config.deviceId → exec (.deliveryComplete d.id) s =
      .next (((({ s with deliveries := [] } : State).peerOut (peerPa d.dev.toNat (d.slotOff + 128)) d.bytes).peerOut (peerPa d.dev.toNat d.slotOff)
        d.header).bzSettle d.k.toNat)) ∧
    (s.deliveries = [d] → d.dev = Config.deviceId → s.fullSlot d.slotOff 128 = none → exec (.deliveryComplete d.id) s =
      .next ((((({ s with deliveries := [] } : State).hPutZone (d.slotOff + 128) d.bytes).hPutZone d.slotOff d.header).cleanZone d.slotOff 128).bzSettle
        d.k.toNat)) ∧
    (s.deliveries = [d] →
      let t := ({ s with deliveries := [] } : State).landPart d
      ((t.bzc d.k.toNat).st = .running → (t.bzc d.k.toNat).bound = true → exec (.deliveryFailure d.id) s = .next (t.onBz d.k.toNat (·.fault bzLINK))) ∧
      ((t.bzc d.k.toNat).st ≠ .running ∨ (t.bzc d.k.toNat).bound = false → exec (.deliveryFailure d.id) s = .next (t.bzSettle d.k.toNat))) ∧
    ((s.bzc k.toNat).peers ≠ [] → s.fabricPorts ≠ [] →
      let b := s.bzc k.toNat
      let off := b.sigWord b.rank idx.toNat
      let src := (s.someMember b).1
      let u : State := { s with fresh := s.fresh + 1 }
      (s.hand = none → s.zoneLost off 8 = false → (∃ w, w ∈ s.inWin ∧ winAdmits w src .atomicAdd off 8 = true) →
        (b.st ≠ .running → exec (.signalArrival k idx) s = .next (u.addWord off)) ∧
        (b.st = .running → exec (.signalArrival k idx) s = .next ((u.addWord off).foldSig k.toNat idx.toNat))) ∧
      ((s.hand.isSome = true ∨ ∀ w, w ∈ s.inWin → winAdmits w src .atomicAdd off 8 = false) →
        exec (.signalArrival k idx) s = .next { u with outbox := u.outbox ++ [.abort src] })) ∧
    ((s.cl c.toNat).tilePending o = true → exec (.chunkCount c k chunk inc o) s = .next { s with
      inputs := s.inputs ++ [(s.ct + 1, .chunkCount c k chunk inc o)] }) ∧
    (∀ t, (s.cl c.toNat).tilePending o = false →
      ((s.release c.toNat .device).vcStep c.toNat).countChunk c.toNat k chunk.toNat inc.toNat = some t →
      exec (.chunkCount c k chunk inc o) s = .next t)

/-- What reaches the Bozoak engine from outside its words. It rests also on choices of the model: log entries 34, 35, 38, 84. Says that these
complete: bzcmdStart, bzcmdClrcnt, bzcmdStop, bzbindWrite, bozoakContextTurn, deliveryComplete, deliveryFailure, signalArrival, chunkCount. -/
def Obligations.BozoakHostEvents : Prop :=
  Claims.BozoakCommands ∧ Claims.BozoakEvents

/-- The launch unit's events: a bound window's doorbell submits its buffer once, as of its cycle; a consumed completion frees its place; a record of the
supervisor is answered with its code and, accepted, queued; where port 0 has no stream, these writes of the host are refused. A forwarded record runs
under the context bound to its sender's, or is refused where none is, with the lowest code that applies; a refusal ends the task with code 17 (R39, R42, R383, R385, R393). -/
def Sys2Proof.Claims.LaunchRecords : Prop :=
  ∀ (s : State) (w : BitVec 4) (tag : BitVec 32) (v : BitVec 64) (b : Bool) (ctx sender : BitVec 12) (r : BitVec 1024) (pos : BitVec 8) (id : Nat),
    let x := s.wins.getD w.toNat LaunchWin.reset
    let refused : Res := .next { s with outbox := s.outbox ++ [.refused] }
    (s.portOpen 0 false = false → exec (.hostLaunchDoorbell w tag) s = refused ∧ exec (.completionHeadWrite w v) s = refused ∧
      exec (.launchWindowBind w b ctx) s = refused ∧ exec (.supervisorRecord r) s = refused) ∧
    (s.portOpen 0 false = true → w.toNat < s.wins.length → x.bound.isSome = true → x.busy = false → exec (.hostLaunchDoorbell w tag) s =
      .next { s with
        nextTask := s.nextTask + 1
        wins := s.wins.set w.toNat { x with busy := true, tag := tag, substTag := tag, code := 0#8, doorCt := s.ct, doorSeq := s.nextTask } }) ∧
    (s.portOpen 0 false = true → w.toNat < s.wins.length → x.bound.isSome = true → exec (.completionHeadWrite w v) s =
      .next { s with wins := s.wins.set w.toNat { x with chead := v.setWidth 6 } }) ∧
    (s.portOpen 0 false = true → w.toNat < s.wins.length → exec (.launchWindowBind w b ctx) s =
      .next { s with wins := s.wins.set w.toNat { x with bound := if b then some ctx else none } }) ∧
    (s.portOpen 0 false = true → exec (.supervisorRecord r) s =
      .next { (s.submit r .mailbox).2 with outbox := (s.submit r .mailbox).2.outbox ++ [.mailbox (s.submit r .mailbox).1] }) ∧
    (s.fabricPorts = [] → exec (.forwardedFabricRecord sender r pos) s = .next { s with outbox := s.outbox ++ [.abort sender] }) ∧
    (s.fabricPorts ≠ [] → s.fabBind.find? (fun q => q.1 == sender && q.2.1 == rcdCtx r) = none →
      let u := s.bindFab sender (rcdCtx r)
      let ran (ctx : BitVec 12) : State := match u.submit r (.peer sender ctx pos.toNat) with
        | (0, t) => t
        | (n, t) => { t with outbox := t.outbox ++ [.refuse sender n] }
      exec (.forwardedFabricRecord sender r pos) s = .next { u with outbox := s.outbox ++ [.refuse sender (u.unboundCode r)] } ∨
        ∃ ctx, exec (.forwardedFabricRecord sender r pos) s = .next (ran ctx)) ∧
    (∀ t, s.fabricPorts ≠ [] → s.fabBind.find? (fun q => q.1 == sender && q.2.1 == rcdCtx r) = some (sender, rcdCtx r, ctx) →
      s.submit r (.peer sender ctx pos.toNat) = (0, t) → exec (.forwardedFabricRecord sender r pos) s = .next t) ∧
    exec (.forwardedRecordRefusal id) s = .next (s.stopTask id 17)

/-- A turn of the launch unit answers the doorbells and takes its decision on the records in their order, and on a failed device none; a blocked gang is
ready once its windows are set, and a task whose gang waited longer than HOLDMAX ends with code 19; each ageing boundary looks at every record (R49,
R55, R60, R381). -/
def Sys2Proof.Claims.LaunchDecisions : Prop :=
  ∀ (s u : State) (t : Task) (g : Gang),
    (s.doorbells.lapse.failed = true → exec .launchDispatch s = .next s.doorbells.lapse) ∧
    (s.doorbells.lapse.failed = false → s.doorbells.lapse.tasks = [t] → exec .launchDispatch s = .next (s.doorbells.lapse.consider t.id).2) ∧
    (s.task t.id = some t → t.candidate = some g → g.st = .blocked →
      (s.windowsSet t g.idx = (some true, u) → exec (.buntingWindowReread t.id) s = .next (u.putGang t { g with st := .ready })) ∧
      (s.windowsSet t g.idx = (some false, u) → ∃ n, 1 ≤ n ∧ n ≤ 1024 ∧
        exec (.buntingWindowReread t.id) s = .next (u.free.2.onTask t.id fun t => { t with reread := u.ct + n })) ∧
      (s.windowsSet t g.idx = (none, u) → exec (.buntingWindowReread t.id) s = .next (u.stopTask t.id 17)) ∧
      (holdmaxOf (s.descOf t.ctx) < s.ct - g.blockedAt → exec (.windowTimeout t.id) s = .next (s.stopTask t.id 19)) ∧
      (s.ct - g.blockedAt ≤ holdmaxOf (s.descOf t.ctx) → exec (.windowTimeout t.id) s = .next s)) ∧
    exec .ageingPeriod s = .next (s.dispatchOrder.foldl State.age s)

/-- The launch unit. It rests also on choices of the model: log entries 36, 42, 64, 67, 69, 84. Says that these complete: hostLaunchDoorbell,
completionHeadWrite, launchWindowBind, supervisorRecord, forwardedFabricRecord, forwardedRecordRefusal, launchDispatch, buntingWindowReread,
windowTimeout, ageingPeriod. -/
def Obligations.LaunchUnit : Prop :=
  Claims.LaunchRecords ∧ Claims.LaunchDecisions

/-- Pre-emption of a gang: its requested clusters freeze at a bundle boundary; those ready are saved; placed again, it resumes whole on the clusters found
for it; a run's end performs its end release and frees its cluster once what END waits for is done and no fault is left to take (R40, R50, R352 to
R356). -/
def Sys2Proof.Claims.PreemptionEvents : Prop :=
  ∀ (s : State) (c : BitVec 4) (r : RunId) (id : Nat) (t : Task) (g : Gang) (pl : List (Nat × Nat)),
    exec (.preemptionFreeze id g.idx) s = .next { s with clusters := s.clusters.map fun k => match k.run with
      | some q => if q.task = id ∧ q.gang = g.idx then k.freezeNow s.ct else k
      | none => k } ∧
    exec (.checkpointSave id g.idx) s = .next ((List.range 16).foldl (fun s c => match (s.cl c).run with
      | some q => if q.task = id ∧ q.gang = g.idx ∧ s.saveReady c then s.saveOne q c else s
      | none => s) s) ∧
    (s.task id = some t → t.gangs.find? (fun x => x.idx == g.idx) = some g → g.saving = false → g.saved ≠ [] →
      s.place t g (s.usable t) = some pl → s.reserve = none → exec (.gangResume id g.idx) s = .next (s.resumeGang t g pl)) ∧
    ((s.cl c.toNat).run = some r → s.endReady c.toNat = true → (s.cl c.toNat).cps = [] → (s.cl c.toNat).holdFault = none →
      exec (.runEnd c) s = .next (((s.endRelease c.toNat r).freeCluster c.toNat).memberDone r c.toNat)) ∧
    ((s.cl c.toNat).run = some r → s.endReady c.toNat = false → exec (.runEnd c) s = .next s)

/-- A kill leaves no task of its context and none of their runs on its cluster; each of them ends with code 18, in the mailbox or in the ring of the
window it came by. A Bozoak context bound to the context is stopped with its counts cleared, and no other changes. -/
def Sys2Proof.Claims.KillEnds : Prop :=
  ∀ (s : State) (ctx : BitVec 12) (t : Task), ∃ u, exec (.kill ctx) s = .next u ∧ ctx ∈ u.killing ∧
    ((s.tasks.map (·.id)).Nodup →
      (∀ x, x ∈ u.tasks → x.ctx = ctx → rcdVer x.rcd = 0#8) ∧
      (∀ x, x ∈ s.tasks → x.ctx ≠ ctx → x ∈ u.tasks) ∧
      (t ∈ s.tasks → t.ctx = ctx → rcdVer t.rcd ≠ 0#8 → (t.gangs.map (·.idx)).Nodup → ∀ g c r, g ∈ t.gangs → c ∈ g.clusters → (s.cl c).run = some r →
        r.task = t.id → r.gang = g.idx → (u.cl c).run = none)) ∧
    (s.tasks = [t] → t.ctx = ctx → rcdVer t.rcd ≠ 0#8 →
      (t.src = .mailbox → u.outbox = s.outbox ++ [.mailbox 18]) ∧
      (∀ w tag, t.src = .window w tag → u.wins = s.wins.modify w.toNat fun x =>
        { x with cring := x.cring.set x.ctail.toNat (tag ++ 18#32), ctail := x.ctail + 1#6 })) ∧
    ∀ k, let b := s.bzc k
      (b.bound = true ∧ b.ctx = ctx ∧ b.st ≠ .unbound → (u.bzc k).st = .stopped ∧ (u.bzc k).counts = [] ∧ (u.bzc k).pc = b.pc ∧ (u.bzc k).g = b.g) ∧
      (¬(b.bound = true ∧ b.ctx = ctx ∧ b.st ≠ .unbound) → u.bzc k = b)

/-- A kill does the above; KILLDONE follows once nothing of the context is in flight. A maintenance run is accepted, with status 0 in the mailbox, and
takes a free cluster as a run of priority 7 with supervisor privilege, or pre-empts its occupant and waits for the cluster; during a kill or a handover
a new one is refused with KILLING (R59, R335, R357, R364, R365, R393). -/
def Sys2Proof.Claims.KillAndMaintenance : Prop :=
  Claims.KillEnds ∧ ∀ (s : State) (ctx : BitVec 12) (c : BitVec 4),
    (ctx ∈ s.killing → s.ctxInFlight ctx = false → exec (.killdone ctx) s = .next { s with
      killing := s.killing.filter fun x => decide (x ≠ ctx), outbox := s.outbox ++ [.killdone ctx] }) ∧
    (s.ctxInFlight ctx = true → exec (.killdone ctx) s = .next s) ∧
    (let waits := s.maintWait.getLsbD c.toNat
     let barred := s.killing ≠ [] ∨ s.hand.isSome = true ∨ s.failed = true
     let u : State := if waits then s else { s with maintWait := s.maintWait ||| (1#16 <<< c.toNat), outbox := s.outbox ++ [.mailbox 0] }
     (waits = true ∨ ¬barred →
      ((s.cl c.toNat).run = none → c.toNat < s.clusters.length → ∃ t r, exec (.maintenanceRun c) s = .next t ∧ t.outbox = u.outbox ∧
        t.maintWait.getLsbD c.toNat = false ∧ (t.cl c.toNat).run = some r ∧ r.priv = true ∧ r.prio = 7#3 ∧ (t.cl c.toNat).maint = .start) ∧
      (∀ r, (s.cl c.toNat).run = some r → r.priv = false → exec (.maintenanceRun c) s = .next { u.vacate c.toNat with
        inputs := (u.vacate c.toNat).inputs ++ [((u.vacate c.toNat).ct + 1, .maintenanceRun c)] }) ∧
      (∀ r, (s.cl c.toNat).run = some r → r.priv = true → exec (.maintenanceRun c) s = .next { u with inputs := u.inputs ++ [(u.ct + 1, .maintenanceRun c)] })) ∧
     (waits = false → barred → exec (.maintenanceRun c) s = .next { s with outbox := s.outbox ++ [.mailbox 1] }))

/-- Pre-emption, the end of a run, kills and maintenance. It rests also on choices of the model: log entries 39, 40, 45, 68, 69. Says that these
complete: preemptionFreeze, checkpointSave, gangResume, runEnd, kill, killdone, maintenanceRun. -/
def Obligations.GangsAndKills : Prop :=
  Claims.PreemptionEvents ∧ Claims.KillAndMaintenance

/-! ### The platform -/

/-- The context table keeps the bits its descriptors have and binding starts clocks afresh; an invalidation drops every TLB entry of its range at once and
completes with none left (R302, R305, R308). -/
def Sys2Proof.Claims.TranslationTables : Prop :=
  ∀ (s : State) (ctx : BitVec 12) (v : BitVec 64) (lo hi : BitVec 57),
    (∃ t, exec (.contextDescriptorWrite ctx v) s = .next t ∧ t.ctxTab = sput 0#64 ctx.toNat (v &&& 0xF00FFFFFFFFFFFFF#64) s.ctxTab ∧ t.mem = s.mem ∧
      (v.getLsbD 63 = true → (s.descOf ctx).getLsbD 63 = false → t.wtag = [] ∧ t.sidecar = [])) ∧
    (∃ t, exec (.tlbInvalidation ctx lo hi) s = .next t ∧ t.tlbInv = s.tlbInv ++ [(ctx, lo, hi)] ∧ t.mem = s.mem ∧
      (∀ e, e ∈ t.stlb → e.2.1 = ctx → hi.toNat < e.2.2.1 * 2 ^ e.2.2.2.2 ∨ (e.2.2.1 + 1) * 2 ^ e.2.2.2.2 ≤ lo.toNat) ∧
      ∀ k, k ∈ t.clusters → ∀ e, e ∈ k.tlb → e.1 = ctx → hi.toNat < e.2.1 * 2 ^ e.2.2.2 ∨ (e.2.1 + 1) * 2 ^ e.2.2.2 ≤ lo.toNat) ∧
    ((ctx, lo, hi) ∈ s.tlbInv → ∃ t, exec (.tlbInvalidationComplete ctx lo hi) s = .next t ∧ t.tlbInv = s.tlbInv.erase (ctx, lo, hi) ∧
      t.outbox = s.outbox ++ [.tlbDone ctx lo hi])

/-- Snapshot descriptors are taken where EN's demands hold; SNAPROLL of an enabled region whose context has no run clears OPEN in its root word and
answers BUSY otherwise (R369, R372). -/
def Sys2Proof.Claims.SnapshotRegisters : Prop :=
  ∀ (s : State) (i : BitVec 4) (v : BitVec 512) (r : Snap),
    let d := snapClean v
    (d.getLsbD 383 = false ∨ s.snapOk (snapOf i.toNat d) = true → exec (.snapshotDescriptorWrite i v) s = .next { s with snap := s.snap.set i.toNat d }) ∧
    (d.getLsbD 383 = true → s.snapOk (snapOf i.toNat d) = false → exec (.snapshotDescriptorWrite i v) s = .next { s with outbox := s.outbox ++ [.refused] }) ∧
    (s.snaps.find? (fun q => q.idx == i.toNat) = some r →
      (s.ctxLive r.ctx = true → exec (.snaproll i) s = .next { s with outbox := s.outbox ++ [.busy] }) ∧
      (s.ctxLive r.ctx = false → ∃ t, exec (.snaproll i) s = .next t ∧ t.mem = wrBytes s.mem r.root (leBytes 8 (s.rawWord r.root &&& ~~~2#64).toNat)))

/-- The tables of translation and the snapshot regions. It rests also on choices of the model: log entries 20, 47, 48. Says that these complete:
contextDescriptorWrite, tlbInvalidation, tlbInvalidationComplete, snapshotDescriptorWrite, snaproll. -/
def Obligations.TablesAndSnapshots : Prop :=
  Claims.TranslationTables ∧ Claims.SnapshotRegisters

/-- Peers reach device memory only through an inbound window that admits them, over a fabric port that is up and keyed, and the host over its own; a
read answers its bytes and a write is made, by a peer as a delivery where it meets a landing zone, and what the host wrote is noted; the window
registers keep the bits they have; a register write needs the host's port open (R297, R304, R317, R382 to R384, R392). It rests also on choices of the
model: log entries 4, 35, 45, 60, 64. Says that these complete: peerWindowWrite, peerInboundRequest, hostHdmAccess, registerWrite. -/
def Obligations.OutsideAccesses : Prop :=
  ∀ (s : State) (i : BitVec 4) (w : BitVec 128) (src : BitVec 12) (a : BitVec 39) (k : AccKind) (d : List Byte) (off : BitVec 22) (v : BitVec 64),
    (s.portOpen 0 false = true → exec (.peerWindowWrite i w) s =
      .next { s with inWin := s.inWin.set i.toNat (w &&& 0x0000007FFFFFF01FFFFFFFFFFF800000#128) }) ∧
    (s.portOpen 0 false = false → exec (.peerWindowWrite i w) s = .next { s with outbox := s.outbox ++ [.refused] }) ∧
    (let admitted := s.inWin.any fun w => winAdmits w src k a.toNat (AccKind.size k d.length)
     (s.hand = none → s.fabricIde = true → admitted = true → s.outsideOk k a.toNat d = true →
       exec (.peerInboundRequest src k a d) s = .next (s.outsideAccess true k a.toNat d)) ∧
     ((s.hand.isSome = true ∨ s.fabricIde = false ∨ admitted = false) → exec (.peerInboundRequest src k a d) s =
       .next { s with outbox := s.outbox ++ [.abort src] })) ∧
    (s.portOpen 0 true = true → s.outsideOk k a.toNat d = true → a.toNat + d.length ≤ 2 ^ 39 →
      (k = .read → exec (.hostHdmAccess k a d) s = .next (s.outsideAccess false k a.toNat d)) ∧
      (k ≠ .read → exec (.hostHdmAccess k a d) s = .next ((s.outsideAccess false k a.toNat d).noteHost a.toNat (AccKind.size k d.length)))) ∧
    (s.portOpen 0 true = false → exec (.hostHdmAccess k a d) s = .next { s with outbox := s.outbox ++ [.refused] }) ∧
    (s.portOpen 0 false = false → exec (.registerWrite off v) s = .next { s with outbox := s.outbox ++ [.refused] }) ∧
    (s.portOpen 0 false = true → 0x10000 ≤ off.toNat → off.toNat < 0x20000 → off.toNat % 8 = 0 → off.toNat % 0x1000 < 0x80 →
      exec (.registerWrite off v) s = .next (s.onWin (BitVec.ofNat 4 (off.toNat / 0x1000)) fun x => x.putRec (off.toNat % 0x1000) v)) ∧
    (s.portOpen 0 false = true → 0x100000 ≤ off.toNat → off.toNat < 0x110000 → off.toNat % 0x1000 = 8 → exec (.registerWrite off v) s =
      .next (s.onBz (BitVec.ofNat 4 (off.toNat / 0x1000)).toNat fun b => { b with desc := v &&& 0x01FFFFFFFFFFFFFF#64 }))

/-- The platform's limits take the values their ranges allow; a power window keeps its grants under the cap and gives every
cluster of a gang one clock and one hold, which a die above TCRIT makes 850 cycles, and which passes 850 only where a droop's hold under way asks for
it; a droop is a hold of 32 cycles of the whole gang up to its share; the scrubber leaves memory's bytes as they are and the links and sources leave their marks (R360, R362, R364, R368, R386 to R389). What becomes of a PCAP below 400 is a free value of the model. -/
def Sys2Proof.Claims.PlatformLimits : Prop :=
  ∀ (s : State) (w thr sec : BitVec 32) (a b : BitVec 16) (c : BitVec 4) (l : BitVec 3),
    (s.portOpen 0 false = true → 400 ≤ w.toNat → exec (.pcapWrite w) s = .next { s with pcap := if 2600 < w.toNat then 2600#32 else w }) ∧
    (70 ≤ a.toNat → a.toNat ≤ b.toNat → b.toNat ≤ 115 → exec (.temperatureLimitWrite a b) s = .next { s with twarn := a, tcrit := b }) ∧
    (1 ≤ thr.toNat → thr.toNat ≤ 255 → 1 ≤ sec.toNat → sec.toNat ≤ 3600 → exec (.columnEventLimitWrite thr sec) s =
      .next { s with colthr := thr, colwin := sec }) ∧
    (s.clusters.length = 16 → s.droopUsed.length = 16 → ∃ t, exec (.droopDetect c) s = .next t ∧ t.mem = s.mem ∧
      (∀ d, d ∉ s.gangMates c.toNat → t.cl d = s.cl d ∧ t.droopUsed.getD d 0 = s.droopUsed.getD d 0) ∧
      ∀ d, d ∈ s.gangMates c.toNat → ∃ u v, (∀ e, e ∈ s.gangMates c.toNat → s.droopUsed.getD e 0 ≤ u ∧ (s.cl e).throttle ≤ v) ∧
        (u = 0 ∨ ∃ e, e ∈ s.gangMates c.toNat ∧ u = s.droopUsed.getD e 0) ∧ (v = s.ct + 32 ∨ ∃ e, e ∈ s.gangMates c.toNat ∧ v = (s.cl e).throttle) ∧
        s.ct + 32 ≤ v ∧
        (u ≤ 818 → t.droopUsed.getD d 0 = u + 32 ∧ t.cl d = { s.cl d with throttle := v }) ∧
        (818 < u → t.droopUsed.getD d 0 = 851 ∧ t.cl d = s.cl d)) ∧
    (s.clusters.length = 16 → ∃ t, exec .powerWindow s = .next t ∧ t.mem = s.mem ∧ t.clusters.length = 16 ∧ t.grants.foldl Nat.add 0 ≤ s.pcap.toNat ∧
      (∀ c n, c < 16 → (∀ d, d ∈ s.gangMates c → (s.cl d).throttle ≤ s.ct + n) → (t.cl c).throttle ≤ s.ct + Nat.max 850 n) ∧
      (∀ c, c < 16 → (s.tcrit.toNat < s.hottest (c / 4) → s.ct + 850 ≤ (t.cl c).throttle) ∧
        ∀ d, d ∈ s.gangMates c → (s.cl d).throttle ≤ (t.cl c).throttle) ∧
      ∀ c d, c < 16 → d < 16 → (s.cl c).gangOf.isSome = true → (s.cl c).gangOf = (s.cl d).gangOf →
        (t.cl c).clock = (t.cl d).clock ∧ (t.cl c).throttle = (t.cl d).throttle) ∧
    (∃ t, exec .patrolScrub s = .next t ∧ t.mem = s.mem ∧ t.outer = s.outer ∧ t.clusters.length = s.clusters.length ∧ s.errCount ≤ t.errCount) ∧
    exec (.linkFailure l) s = .next { s with linkBad := s.linkBad ||| (1#8 <<< l.toNat), svcOut := s.svcOut ||| (1#4 <<< linkDie l.toNat) } ∧
    exec (.noiseSourceFailure c) s = .next { s with sourceFail := s.sourceFail.set c.toNat true }

/-- A warm reset leaves HBM as it is and restarts everything else, with none of the device's own work left to come; a cold one sweeps it too. The monitors' sample resets the device only above 125 degrees
(R388, R391). -/
def Sys2Proof.Claims.Resets : Prop :=
  ∀ s : State,
    (∃ t, exec .warmReset s = .next t ∧ t.mem = s.mem ∧ t.poison = s.poison ∧ t.spare = s.spare ∧ t.errLog = s.errLog ∧ t.ct = 0 ∧ t.tasks = [] ∧
      t.agenda = [] ∧ (∀ e, e ∈ t.inputs → ownWork e.2 = false) ∧ ∀ c, c < 16 → (t.cl c).run = none) ∧
    (∃ t, exec .coldReset s = .next t ∧ t.mem = [] ∧ t.wtag = [] ∧ t.poison = [] ∧ t.spare = s.spare ∧ t.ct = 0 ∧ t.tasks = [] ∧
      ∀ c, c < 16 → (t.cl c).run = none) ∧
    (∃ t, exec .monitorSample s = .next t ∧ t.outer = s.outer ∧
      ((s.sampleMonitors.sensors.any fun x => decide (125 < x)) = false → t = s.sampleMonitors ∧ t.mem = s.mem ∧ t.ct = s.ct) ∧
      ((s.sampleMonitors.sensors.any fun x => decide (125 < x)) = true → t.svcHot = s.svcHot + 1 ∧ t.ct = 0 ∧ t.tasks = []))

/-- Limits, monitors, scrubbing, links and resets. It rests also on choices of the model: log entries 5, 6, 43, 50 to 53. Says that these complete:
pcapWrite, temperatureLimitWrite, columnEventLimitWrite, droopDetect, powerWindow, patrolScrub, linkFailure, noiseSourceFailure, warmReset, coldReset,
monitorSample. -/
def Obligations.PlatformAndResets : Prop :=
  Claims.PlatformLimits ∧ Claims.Resets

/-! ### Debug and security -/

/-- HALT is noted and takes effect at a boundary, RESUME and STEP release it; the registers are read and written, a bad word that is written is good
again, and a map's BASE so written has its pages translated; an image is read, in its entries, and edited where the edit is allowed (R198, R347, R350,
R358, R360). It rests also on choices of the model: log entries 43, 56, 80. Says that these complete: halt, step, resume, rdreg, wrreg, rdimg, edimg.
-/
def Obligations.DebugEvents : Prop :=
  ∀ (s : State) (c : BitVec 4) (r : DbgReg) (v : BitVec 2048) (core : BitVec 8) (n : Nat) (e : ImgEdit) (x : Core),
    let k := s.cl c.toNat
    (k.halted = false → exec (.halt c) s = .next (s.onCl c.toNat fun k => ({ k with dbg := .halt } : Cluster).haltNow s.ct)) ∧
    (k.halted = true → exec (.step c) s = .next (s.onCl c.toNat fun k => { k.release s.ct with dbg := .step }) ∧
      exec (.resume c) s = .next (s.onCl c.toNat fun k => { k.release s.ct with dbg := .off })) ∧
    exec (.rdreg c r) s = .next { s with outbox := s.outbox ++ [.dbg (k.dbgRead s.ct s.ageq r)] } ∧
    (∀ i, r.core = some i → exec (.wrreg c r v) s = .next (s.onCl c.toNat fun k => (k.dbgWrite r v).onCore i.toNat (·.heal r.mends))) ∧
    (∀ l st, r = .loop l st → exec (.wrreg c r v) s = .next (s.onCl c.toNat fun k => (k.dbgWrite r v).heal (.loop l.val))) ∧
    (∀ m f, r = .tm m f → f.val = 0 → exec (.wrreg c r v) s = .next (State.preXlate c.toNat 2049 (v.toNat % 2 ^ 57) (v.toNat % 2 ^ 57 + 2 ^ 23)
      (s.onCl c.toNat fun k => k.dbgWrite r v))) ∧
    (r = .ageq → exec (.wrreg c r v) s = .next { s with ageq := v.setWidth 32 }) ∧
    (r.core = none → r ≠ .ageq → (∀ l st, r ≠ .loop l st) → (∀ m f, r = .tm m f → f.val ≠ 0) →
      exec (.wrreg c r v) s = .next (s.onCl c.toNat fun k => k.dbgWrite r v)) ∧
    exec (.rdimg c (some core)) s = .next { s with outbox := s.outbox ++ [.image ((k.capture.core core.toNat).pipe.flatMap fun e => e.image k.now)] } ∧
    exec (.rdimg c none) s = .next { s with outbox := s.outbox ++ [.image (k.simg.flatMap fun e => e.image k.now)] } ∧
    ((k.capture.core core.toNat).edit k.now n e = some x → exec (.edimg c core n e) s = .next (s.onCl c.toNat fun k => k.onCore core.toNat fun _ => x)) ∧
    ((k.capture.core core.toNat).edit k.now n e = none → exec (.edimg c core n e) s = .next { s with outbox := s.outbox ++ [.refused] })

/-- A handover, which comes over port 0, kills every task and its runs, unbinds every Bozoak context and clears the context table at once; an overrun step
fails it; supervisors extend slots 7 to 15 by the hash of the old
value and theirs, and no other (R373, R377, R381). -/
def Sys2Proof.Claims.HandoverAndMeasurement : Prop :=
  ∀ (s : State) (nonce dg : BitVec 256) (slot : BitVec 4) (h : Handover),
    (s.portOpen 0 false = true → s.hand = none → ∃ t, exec (.handover nonce) s = .next t ∧ t.ctxTab = [] ∧ t.mem = s.mem ∧
      (∃ n, s.ct < n ∧ n ≤ s.ct + stepBound 1 ∧ t.hand = some ⟨nonce, 1, s.ct, s.ct, n, false, 0#8, 0#16, []⟩) ∧
      (∀ k, (t.bzc k).bound = false ∧ (t.bzc k).st = .unbound) ∧
      ((s.tasks.map (·.id)).Nodup → t.tasks = [] ∧ ∀ x g c r, x ∈ s.tasks → (x.gangs.map (·.idx)).Nodup → g ∈ x.gangs → c ∈ g.clusters →
        (s.cl c).run = some r → r.task = x.id → r.gang = g.idx → (t.cl c).run = none)) ∧
    (s.portOpen 0 false = false → exec (.handover nonce) s = .next { s with outbox := s.outbox ++ [.refused] }) ∧
    (s.portOpen 0 false = true → s.hand.isSome = true → exec (.handover nonce) s = .next s) ∧
    (s.hand = some h → h.failed = false → ∃ t, exec .handoverStepOverrun s = .next t ∧ t.failed = true ∧ t.ready = false ∧
      t.hand = some { h with failed := true }) ∧
    (7 ≤ slot.toNat → exec (.measurementSlotExtend slot dg) s = .next { s with
      meas := s.meas.set slot.toNat (sha256 (digestBytes (s.meas.getD slot.toNat 0#256) ++ digestBytes dg)) }) ∧
    (slot.toNat < 7 → exec (.measurementSlotExtend slot dg) s = .next { s with outbox := s.outbox ++ [.refused] })

/-- The SPDM responder answers each request, where it is served: certificates and signatures of slot 0, measurements by index, sessions that a right MAC
makes live, and IDE keys over live sessions alone (R378, R383). The numbers of the answers are the model's own. -/
def Sys2Proof.Claims.SpdmAnswers : Prop :=
  ∀ (s : State) (b : List Byte) (off len : BitVec 16) (nonce key : BitVec 256) (i : BitVec 8) (x : Session) (port : BitVec 3) (link : Bool),
    s.spdmUp = true →
    let said (n : Nat) (a : List Byte) : Res := .next { s with outbox := s.outbox ++ [.spdm n a] }
    let refused : Res := .next { s with outbox := s.outbox ++ [.refused] }
    exec .getVersion s = said 0 (Config.spdmBody 0 []) ∧ exec .getCapabilities s = said 1 (Config.spdmBody 1 []) ∧
    exec (.negotiateAlgorithms b) s = said 2 (Config.spdmBody 2 b) ∧ exec .getDigests s = said 3 (digestBytes (sha256 Config.certificate)) ∧
    exec (.getCertificate 0#8 off len) s = said 4 ((Config.certificate.drop off.toNat).take len.toNat) ∧
    (i ≠ 0#8 → exec (.getCertificate i off len) s = refused ∧ exec (.challenge i nonce) s = refused) ∧
    exec (.challenge 0#8 nonce) s = said 5 (signed (Config.spdmBody 5 (digestBytes nonce))) ∧
    (1 ≤ i.toNat → i.toNat ≤ 16 → exec (.getMeasurements i false nonce) s = said 6 (leBytes 1 i.toNat ++ digestBytes (s.meas.getD (i.toNat - 1) 0#256))) ∧
    (1 ≤ i.toNat → i.toNat ≤ 17 → exec (.getMeasurements i true nonce) s = said 6 (signed (s.measBlock i.toNat ++ digestBytes nonce))) ∧
    exec (.keyExchange b) s = .next { s with
      sessions := s.sessions ++ [⟨s.nextSession, (Config.exchange s.nextSession b).2, false⟩], nextSession := s.nextSession + 1
      outbox := s.outbox ++ [.spdm 7 (signed (leBytes 96 (Config.exchange s.nextSession b).1.toNat))] } ∧
    (s.sessions = [x] →
      exec (.finish x.id (digestBytes (Config.finishMac x.secret))) s = .next { s with
        sessions := [{ x with live := true }], outbox := s.outbox ++ [.spdm 8 []] } ∧
      exec (.endSession x.id) s = .next { s with sessions := [], outbox := s.outbox ++ [.spdm 9 []] } ∧
      (x.live = true → exec (.ideKm x.id port link key) s = .next { s with
        ideKeys := (s.ideKeys.filter fun q => q.1 != 2 * port.toNat + (if link then 1 else 0)) ++ [(2 * port.toNat + (if link then 1 else 0), key)] }) ∧
      (x.live = false → exec (.ideKm x.id port link key) s = refused))

/-- Handover, measurement and SPDM. It rests also on choices of the model: log entries 15, 54, 55. Says that these complete: handover,
handoverStepOverrun, measurementSlotExtend, getVersion, getCapabilities, negotiateAlgorithms, getDigests, getCertificate, challenge, getMeasurements,
keyExchange, finish, endSession, ideKm. -/
def Obligations.SecurityEvents : Prop :=
  Claims.HandoverAndMeasurement ∧ Claims.SpdmAnswers

/-! ### What an instruction leaves as it was -/

/-- An S instruction with one result leaves everything but its result under way: registers, flags, special registers, PC, the cores, memory and every
other cluster (R96, R124). -/
def Obligations.FrameOfResults : Prop := ∀ (i : Instr) (s t : State), i.isResult = true → exec i s = .next t → s.onlyResults t

/-- An A, V, near L or D instruction either takes its trap or leaves every core's registers, scratchpad and B-store as they were, the inactive cores whole,
and everything outside its cluster; its results and stores are only under way. The writes of tensor maps and format tables and the far accesses have their
own forms (R19, R96, R160). -/
def Obligations.FrameOfCoreWork : Prop :=
  ∀ (i : Instr) (s t : State), (i.inA || i.inV || i.inL || i.inD) = true →
    (match i with | .shw .. | .shwi .. | .ftw .. | .ftwField .. | .vldf .. | .vstf .. | .vupd .. => False | _ => True) →
    exec i s = .next t → s.trapped t ∨ s.onlyCores t ∧ ∀ j, j < 256 → Core.onlyPipe (s.me.core j) (t.me.core j)

/-- An M instruction either takes its trap or leaves every register, scratchpad and B-store byte of every core as it was; the registers of the run's
sequencer, its loops, bases, masks and trap registers among them, device memory, and the other clusters too (R233, R239). Error injection may clear its own enable (R261), and MSPR.persist records its row in the
spare map (R263). -/
def Obligations.FrameOfArray : Prop :=
  ∀ (i : Instr) (s t : State), i.inM = true → exec i s = .next t → s.trapped t ∨
    (s.sameMem t ∧ (∀ d, d ≠ s.cur.cl → t.cl d = s.cl d) ∧ t.me.s = s.me.s ∧ t.me.b = s.me.b ∧ t.me.e = s.me.e ∧ t.me.pc = s.me.pc ∧ t.me.tm = s.me.tm ∧
      (t.me.lc = s.me.lc ∧ t.me.loops = s.me.loops ∧ t.me.rrbv = s.me.rrbv ∧ t.me.rrbp = s.me.rrbp ∧ t.me.cmsk = s.me.cmsk ∧ t.me.gqctl = s.me.gqctl ∧
        t.me.slipmax = s.me.slipmax ∧ t.me.holdmax = s.me.holdmax ∧ t.me.lvlix = s.me.lvlix ∧ t.me.delay = s.me.delay ∧ t.me.simg = s.me.simg) ∧
      (t.me.traphnd = s.me.traphnd ∧ t.me.trapcause = s.me.trapcause ∧ t.me.trappc = s.me.trappc ∧ t.me.trapdt = s.me.trapdt ∧
        t.me.trapopc = s.me.trapopc ∧ t.me.handler = s.me.handler) ∧
      ∀ j, j < 256 → Core.sameRegs (s.me.core j) (t.me.core j))

/-- No word of a bundle writes device memory or what lies beyond it in the cycle it issues: its stores are under way, and a FENCE's release is still to
come. CALL, LOOP and TRAP look at the lines that follow them, and leave memory as the reading of those lines leaves it (R85, R147, R160, R290). -/
def Obligations.FrameOfMemory : Prop :=
  ∀ (i : Instr) (s t : State), i.inBundle = true → exec i s = .next t →
    match i with
    | .call _ _ => s.linkOf.2.sameMem t
    | .loop _ | .loopReg _ => s.sameMem t ∨ (State.skipPad s.cur.cl 512 s.me.next s).2.sameMem t
    | .trap _ =>
      (s.me.holds ≠ [] → s.sameMem t) ∧
        (s.me.holds = [] → (State.skipPad s.cur.cl 512 s.me.next (s.onMe fun k =>
          (k.outsideWrites s.ct k.loadedNow k.storedNow).performNow s.ct)).2.sameMem t)
    | _ => s.sameMem t

/-! ### Results landing and stores performing -/

/-- A landing result of the sequencer changes its own register and no other; a link not known yet lands in its register too (R96, R124, R131, R151). -/
def Obligations.ResultLandsInItsRegister : Prop :=
  ∀ (k : Cluster) (x : SEntry),
    (∀ i, x.dest = .s i ∨ x.dest = .link i → k.s.length = 32 → (k.landS x).sreg i = x.val.setWidth 64 ∧ (∀ j, j ≠ i → (k.landS x).sreg j = k.sreg j)) ∧
    (∀ i, x.dest = .b i → (k.landS x).flag i = x.val.getLsbD 0 ∧ ∀ j, j ≠ i → (k.landS x).flag j = k.flag j) ∧
    ((∀ i, x.dest ≠ .s i ∧ x.dest ≠ .link i) → (k.landS x).s = k.s) ∧ ((∀ i, x.dest ≠ .b i) → (k.landS x).b = k.b) ∧ (x.dest ≠ .cmsk → (k.landS x).cmsk = k.cmsk) ∧
    (x.dest ≠ .rrbv → (k.landS x).rrbv = k.rrbv) ∧ (x.dest ≠ .rrbp → (k.landS x).rrbp = k.rrbp) ∧ (x.dest ≠ .gqctl → (k.landS x).gqctl = k.gqctl) ∧
    (x.dest ≠ .slipmax → (k.landS x).slipmax = k.slipmax) ∧ (x.dest ≠ .traphnd → (k.landS x).traphnd = k.traphnd) ∧
    (x.dest ≠ .errinj → (k.landS x).errinj = k.errinj) ∧ ((∀ i, x.dest ≠ .e i) → (k.landS x).e = k.e) ∧ ((∀ i, x.dest ≠ .lc i) → (k.landS x).lc = k.lc) ∧
    (k.landS x).pc = k.pc ∧ (k.landS x).cores = k.cores ∧ (k.landS x).tm = k.tm

/-- A slice of a vector result writes the byte lanes of its mask in its lane group, and every other lane of every register keeps its value: masked
elements keep their old destination values (R89, R96). -/
def Sys2Proof.Claims.VectorLanesLand : Prop :=
  ∀ (x : Core) (e : PEntry) (r j : Nat), e.kind = .v → e.dest < x.v.length → e.part < 4 → r < x.v.length → j < 128 →
    ((x.landReg .v e).vreg r).extractLsb' (8 * j) 8 =
      if r = e.dest ∧ j / 32 = e.part ∧ e.mask.getLsbD (j % 32) = true then e.val.extractLsb' (8 * (j % 32)) 8 else (x.vreg r).extractLsb' (8 * j) 8

/-- So it is with the other results of a core: of a predicate the bits written, and p0 never; of a distribution register's points the lanes of a slice, and
of its words the lanes of the mask, their reserved bits dropped; of an address register the lanes of the mask (R90, R96, R268). -/
def Sys2Proof.Claims.OtherLanesLand : Prop :=
  ∀ (x : Core) (e : PEntry) (r j : Nat),
    (e.dest < x.p.length → j < 128 → ((x.landReg .p e).preg r).getLsbD j =
      if r = e.dest ∧ r ≠ 0 ∧ e.val.getLsbD (128 + j) = true then e.val.getLsbD j else (x.preg r).getLsbD j) ∧
    (e.dest < x.dPts.length → e.part < 8 → j < 256 → ((x.landReg .d e).dPts.getD r 0#2048).extractLsb' (8 * j) 8 =
      if r = e.dest ∧ j / 32 = e.part ∧ e.mask.getLsbD (j % 32) = true then e.val.extractLsb' (8 * (j % 32)) 8
      else (x.dPts.getD r 0#2048).extractLsb' (8 * j) 8) ∧
    (e.dest < x.dWords.length → j < 16 → ((x.landReg .dwords e).dWords.getD r 0#128).extractLsb' (8 * j) 8 =
      if r = e.dest ∧ e.mask.getLsbD j = true then (dwClean (e.val.setWidth 128)).extractLsb' (8 * j) 8
      else (x.dWords.getD r 0#128).extractLsb' (8 * j) 8) ∧
    (e.dest < x.a.length → j < 4 → ((x.landReg .a e).a.getD r 0#32).extractLsb' (8 * j) 8 =
      if r = e.dest ∧ e.mask.getLsbD j = true then e.val.extractLsb' (8 * j) 8 else (x.a.getD r 0#32).extractLsb' (8 * j) 8) ∧
    ∀ kd, kd ∈ [PKind.v, .p, .d, .dwords, .a] →
      (kd ≠ .v → (x.landReg kd e).v = x.v) ∧ (kd ≠ .p → (x.landReg kd e).p = x.p) ∧ (kd ≠ .d → (x.landReg kd e).dPts = x.dPts) ∧
        (kd ≠ .dwords → (x.landReg kd e).dWords = x.dWords) ∧ (kd ≠ .a → (x.landReg kd e).a = x.a) ∧ (x.landReg kd e).ft = x.ft ∧
        (x.landReg kd e).spm = x.spm ∧ (x.landReg kd e).bst = x.bst ∧ (x.landReg kd e).m = x.m

/-- A write of a tensor map's field that is due changes that field and no other; a write of a format table that is due changes its entry on the cores it was
issued for, whole or the one field of it, with the reserved bits zero; one that is not due changes nothing (R79, R157, R198). -/
def Sys2Proof.Claims.TableWritesLand : Prop :=
  ∀ (k : Cluster) (w : TmWrite) (f : FtWrite) (m : BitVec 4) (fld i t : Nat), fld < 53 →
    (k.tmw = [w] → k.ftw = [] → w.land ≤ k.now → swfFrom 0#64 0 k.tm = true →
      k.landTables.tmField m fld = (if 64 * m.toNat + fld = w.key then w.val else k.tmField m fld) ∧ k.landTables.tmw = [] ∧ k.landTables.cores = k.cores) ∧
    (k.tmw = [] → k.ftw = [f] → f.land ≤ k.now → i < k.cores.length → (k.core i).ft.length = 8 → t < 8 →
      (k.landTables.core i).ft.getD t 0#64 = (if f.cores.getLsbD i = true ∧ t = f.ft.toNat then
          ftClean (match f.fld with | none => f.val | some x => ftPut ((k.core i).ft.getD t 0#64) x f.val)
        else (k.core i).ft.getD t 0#64) ∧ k.landTables.ftw = [] ∧ k.landTables.tm = k.tm) ∧
    ((∀ w, w ∈ k.tmw → k.now < w.land) → (∀ f, f ∈ k.ftw → k.now < f.land) → k.landTables = k)

/-- Vector lanes, the other registers of a core, and the tables of the sequencer, as results land in them. -/
def Obligations.LanesLand : Prop :=
  Claims.VectorLanesLand ∧ Claims.OtherLanesLand ∧ Claims.TableWritesLand

/-- The rotating registers are renamed one to one: of the 32 upper vector registers each has its own, whatever the base, and the 8 upper predicates too; the
lower ones are not renamed (R90). -/
def Obligations.RotationIsOneToOne : Prop :=
  ∀ (v : BitVec 5) (a b : BitVec 6) (p : BitVec 3) (c d : BitVec 4),
    (physV v a = physV v b → a = b) ∧ physV v a < 64 ∧ (a.toNat < 32 → physV v a = a.toNat) ∧ (32 ≤ a.toNat → physV (v - 1#5) a = physV v (32#6 ||| (a - 1#6))) ∧
    (physP p c = physP p d → c = d) ∧ physP p c < 16 ∧ (c.toNat < 8 → physP p c = c.toNat) ∧ (8 ≤ c.toNat → physP (p - 1#3) c = physP p (8#4 ||| (c - 1#4)))

/-- A store writes the bytes it names and no other: bytes of a scratchpad by their cluster addresses, and, where no snapshot region and no update-only line
stands, bytes of device memory (R22, R290). -/
def Obligations.StoresWriteTheirBytes : Prop :=
  (∀ (k : Cluster) (a : Nat) (v : Byte) (b : Nat), k.cores.length = 256 → (∀ x, x ∈ k.cores → Memory.wf x.spm = true) → a < 2 ^ 26 → b < 2 ^ 26 →
    (k.spWrite a v).spByte b = if b = a then v else k.spByte b) ∧
  ∀ (s : State) (a : Nat) (bs : List Byte) (b : Nat), Memory.wf s.mem = true → s.snaps = [] → (∀ k, k ∈ s.clusters → k.upd = []) →
    rdByte (s.hbmWrite a bs).mem b = if a ≤ b ∧ b < a + bs.length then bs.getD (b - a) 0#8 else rdByte s.mem b

/-- One cycle's arrivals A and units U bring a pennant's pending counts down, a shortfall clamps them and sets OVF, and where both reach zero the phase
flips, once, and the counts start again; with neither the word stays (R231). -/
def Obligations.PennantMerges : Prop :=
  ∀ (w : Word) (a u : Nat),
    let arr (x : Word) : Nat := (x.extractLsb' 42 10).toNat
    let units (x : Word) : Nat := (x.extractLsb' 0 21).toNat
    let p := pennantMerge w a u
    (a = 0 → u = 0 → p = w) ∧ ((a ≠ 0 ∨ u ≠ 0) →
      p.extractLsb' 52 10 = w.extractLsb' 52 10 ∧ p.extractLsb' 21 21 = w.extractLsb' 21 21 ∧
      (p.getLsbD 62 = true ↔ (w.getLsbD 62 = true ∨ arr w < a ∨ units w < u)) ∧
      ((arr w ≤ a ∧ units w ≤ u) → p.getLsbD 63 = !w.getLsbD 63 ∧ arr p = (w.extractLsb' 52 10).toNat ∧ units p = (w.extractLsb' 21 21).toNat) ∧
      (¬(arr w ≤ a ∧ units w ≤ u) → p.getLsbD 63 = w.getLsbD 63 ∧ arr p = arr w - a ∧ units p = units w - u))

/-! ### Traps -/

/-- A bundle whose length would leave its line takes the illegal-bundle trap at its PC, before it issues: the step is that trap (R84). -/
def Obligations.CrossingBundleTraps : Prop :=
  ∀ (s : State) (c : Nat) (r : List Turn) (line : Nat) (w : BitVec 512), c < 16 → s.agenda = .issue c :: r →
    let s0 : State := { s with agenda := r, cur := ⟨c, .s, s.cur.bz⟩ }
    let s1 := s0.onCl c Cluster.trimWin
    let o := (s1.cl c).pc.toNat % 64
    let h := w.extractLsb' (8 * o) 8
    s0.mayIssue c → (s1.cl c).win.find? (fun x => x.1 == (s1.cl c).pc.toNat / 64) = some (line, w) → h ≠ 0#8 → 64 < o + bundleLen h →
      step s = .next (s1.issueTrap c { cause := cILLBUN, info := 1#16 })

/-- A trap goes to the run's handler when TRAPHND is not zero, the cause is marked for runs and the run is not in handler mode; otherwise to the
supervisor: the report is written, with the cause as the run's TRAPCAUSE reads, and the run ends (R338, R342). What the report holds besides, its layout and
a machine error's syndrome, which is a free value, are the model's reading (log entry 53). -/
def Obligations.TrapDelivery : Prop :=
  ∀ (s : State) (c : Nat) (x : TrapInfo) (pc opc : BitVec 57) (dt : Nat) (multi : Bool) (r : RunId), c < s.clusters.length → (s.cl c).run = some r →
    let k := s.cl c
    let t := s.takeTrap c x pc dt opc multi
    let mine : Prop := k.traphnd ≠ 0#64 ∧ runHandled x.cause = true ∧ k.handler = none
    (mine → (t.cl c).handler.isSome = true ∧ (t.cl c).run = some r ∧ t.outbox = s.outbox) ∧
    (¬mine → (t.cl c).run = none ∧ (t.cl c).handler = none ∧ ∃ syn, (x.cause ≠ cMACHINE → syn = 0#56) ∧
      OutMsg.report ({ k with trapcause := causeWord x k.arrayQuiet multi } : Cluster).readCause (pc.setWidth 64) ((dtBits dt).setWidth 64) (ofBit k.arrayQuiet ++ 0#6 ++ opc) k.traphnd r.ctx
        r.leaf s.ct x.wtag syn ∈ t.outbox)

/-- Entering the handler writes the trap registers, banks PC, CMSK, the loops, the bases and the queue mapping, starts at TRAPHND with all cores
active, and shares everything else: s, b, e, the maps, and each core's registers and memories; DT stands (R336, R341, R343). It rests also on choices
of the model: log entry 74. -/
def Obligations.HandlerEntry : Prop :=
  ∀ (s : State) (c : Nat) (x : TrapInfo) (pc opc : BitVec 57) (dt : Nat) (multi : Bool), c < s.clusters.length →
    (s.cl c).traphnd ≠ 0#64 → runHandled x.cause = true → (s.cl c).handler = none →
    let k := s.cl c
    let t := s.takeTrap c x pc dt opc multi
    let u := t.cl c
    (u.trapcause = causeWord x k.arrayQuiet multi ∧ u.trappc = pc.setWidth 64 ∧ u.trapdt = (dtBits dt).setWidth 64 ∧
      u.trapopc = ofBit k.arrayQuiet ++ 0#6 ++ opc) ∧
    (u.pc = k.traphnd.setWidth 57 ∧ u.cmsk = BitVec.allOnes 256 ∧ u.loops = [] ∧ u.lc = List.replicate 6 0#32 ∧ u.rrbv = 0#5 ∧ u.rrbp = 0#3 ∧
      u.gqctl = false ∧ u.hc = 0) ∧
    (∃ b, u.handler = some b ∧ b.cmsk = k.cmsk ∧ b.loops = k.loops ∧ b.lc = k.lc ∧ b.rrbv = k.rrbv ∧ b.rrbp = k.rrbp ∧ b.gqctl = k.gqctl ∧
      b.simg = k.simg ∧ b.pend = k.pend ∧ b.pipes = k.cores.map (·.pipe) ∧ b.aq = k.arrayQuiet) ∧
    (u.s = k.s ∧ u.b = k.b ∧ u.e = k.e ∧ u.tm = k.tm ∧ u.dt = k.dt ∧ u.cores.length = k.cores.length ∧
      ∀ i, i < k.cores.length → Core.sameRegs (k.core i) (u.core i) ∧ (u.core i).m = (k.core i).m) ∧
    s.sameMem t ∧ t.outbox = s.outbox ∧ ∀ d, d ≠ c → t.cl d = s.cl d

/-- RFT brings back what its handler's entry banked: both images, the mask, loops and bases, and the PC at TRAPPC as the handler leaves it; the faults the run
had pending are pending again, with those the handler leaves. What the handler did to the registers and memories it shares with the run stays: s, b and e,
the maps, and each core's registers, scratchpad, B-store and banks. A handler that did nothing leaves the cluster's cores as they were (R343, R346). -/
def Obligations.ReturnUndoesEntry : Prop :=
  ∀ (k : Cluster) (aq : Bool) (pc : BitVec 57), k.handler = none →
    let u := ({ k with trappc := pc.setWidth 64 } : Cluster).enterHandler aq pc
    (∀ w : Cluster, w.handler = u.handler → w.cores.length = k.cores.length →
      let v := w.leaveHandler
      (v.handler = none ∧ v.pc = w.trappc.setWidth 57 ∧ v.next = w.trappc.setWidth 57 ∧ v.cmsk = k.cmsk ∧ v.loops = k.loops ∧ v.lc = k.lc ∧
        v.rrbv = k.rrbv ∧ v.rrbp = k.rrbp ∧ v.gqctl = k.gqctl ∧ v.simg = k.simg ∧ v.tmw = k.tmw ∧ v.ftw = k.ftw ∧ v.pend = k.pend ++ w.pend ∧
        v.cps = k.cps ∧ v.delay = k.delay ∧ v.drains = k.drains ∧ v.inits = k.inits ∧ v.parrs = k.parrs ∧ v.nopLeft = k.nopLeft) ∧
      (v.s = w.s ∧ v.b = w.b ∧ v.e = w.e ∧ v.tm = w.tm ∧ v.dt = w.dt ∧ v.buf = w.buf ∧ v.posted = w.posted ∧ v.slipmax = w.slipmax ∧
        v.traphnd = w.traphnd ∧ v.trapcause = w.trapcause) ∧
      ∀ i, i < k.cores.length → Core.sameRegs (w.core i) (v.core i) ∧ (v.core i).m = (w.core i).m ∧ (v.core i).pipe = (k.core i).pipe ∧
        (v.core i).streams = (k.core i).streams ∧ (v.core i).loads = (k.core i).loads ∧ (v.core i).bankUpds = (k.core i).bankUpds) ∧
    u.handler.isSome = true ∧ u.leaveHandler.pc = pc ∧ u.leaveHandler.cores = k.cores ∧ u.leaveHandler.pend = k.pend
end

