-- ==== Sys2Proof/Laws/Exec.lean ====
section
/-!
SUPPORT. Each constructor's arm of exec as a rewrite, and a guarded meaning whose check passes or fails.
-/
namespace Sys2Proof.Machine
open Sys2Proof

theorem State.guard_pass {s : State} {t : Option TrapInfo} {f : State → State} (h : t = none) : s.guard t f = .next (f s) := by subst h; rfl
theorem State.guard_trap {s : State} {t : Option TrapInfo} {f : State → State} {x : TrapInfo} (h : t = some x) :
    s.guard t f = .next (s.issueTrap s.cur.cl x) := by subst h; rfl

@[simp] theorem exec_add (sd : BitVec 5) (sa : BitVec 5) (sb : BitVec 5) (s : State) : exec (.add sd sa sb) s = execAdd sd sa sb s := rfl
@[simp] theorem exec_sub (sd : BitVec 5) (sa : BitVec 5) (sb : BitVec 5) (s : State) : exec (.sub sd sa sb) s = execSub sd sa sb s := rfl
@[simp] theorem exec_and (sd : BitVec 5) (sa : BitVec 5) (sb : BitVec 5) (s : State) : exec (.and sd sa sb) s = execAnd sd sa sb s := rfl
@[simp] theorem exec_or (sd : BitVec 5) (sa : BitVec 5) (sb : BitVec 5) (s : State) : exec (.or sd sa sb) s = execOr sd sa sb s := rfl
@[simp] theorem exec_xor (sd : BitVec 5) (sa : BitVec 5) (sb : BitVec 5) (s : State) : exec (.xor sd sa sb) s = execXor sd sa sb s := rfl
@[simp] theorem exec_shl (sd : BitVec 5) (sa : BitVec 5) (sb : BitVec 5) (s : State) : exec (.shl sd sa sb) s = execShl sd sa sb s := rfl
@[simp] theorem exec_shr (sd : BitVec 5) (sa : BitVec 5) (sb : BitVec 5) (s : State) : exec (.shr sd sa sb) s = execShr sd sa sb s := rfl
@[simp] theorem exec_sra (sd : BitVec 5) (sa : BitVec 5) (sb : BitVec 5) (s : State) : exec (.sra sd sa sb) s = execSra sd sa sb s := rfl
@[simp] theorem exec_mul (sd : BitVec 5) (sa : BitVec 5) (sb : BitVec 5) (s : State) : exec (.mul sd sa sb) s = execMul sd sa sb s := rfl
@[simp] theorem exec_mulh (sgn : Bool) (sd : BitVec 5) (sa : BitVec 5) (sb : BitVec 5) (s : State) : exec (.mulh sgn sd sa sb) s = execMulh sgn sd sa sb s := rfl
@[simp] theorem exec_min (sgn : Bool) (sd : BitVec 5) (sa : BitVec 5) (sb : BitVec 5) (s : State) : exec (.min sgn sd sa sb) s = execMin sgn sd sa sb s := rfl
@[simp] theorem exec_max (sgn : Bool) (sd : BitVec 5) (sa : BitVec 5) (sb : BitVec 5) (s : State) : exec (.max sgn sd sa sb) s = execMax sgn sd sa sb s := rfl
@[simp] theorem exec_addImm (sd : BitVec 5) (sa : BitVec 5) (imm : BitVec 16) (s : State) : exec (.addImm sd sa imm) s = execAddImm sd sa imm s := rfl
@[simp] theorem exec_subImm (sd : BitVec 5) (sa : BitVec 5) (imm : BitVec 16) (s : State) : exec (.subImm sd sa imm) s = execSubImm sd sa imm s := rfl
@[simp] theorem exec_andImm (sd : BitVec 5) (sa : BitVec 5) (imm : BitVec 16) (s : State) : exec (.andImm sd sa imm) s = execAndImm sd sa imm s := rfl
@[simp] theorem exec_orImm (sd : BitVec 5) (sa : BitVec 5) (imm : BitVec 16) (s : State) : exec (.orImm sd sa imm) s = execOrImm sd sa imm s := rfl
@[simp] theorem exec_xorImm (sd : BitVec 5) (sa : BitVec 5) (imm : BitVec 16) (s : State) : exec (.xorImm sd sa imm) s = execXorImm sd sa imm s := rfl
@[simp] theorem exec_shlImm (sd : BitVec 5) (sa : BitVec 5) (k : BitVec 6) (s : State) : exec (.shlImm sd sa k) s = execShlImm sd sa k s := rfl
@[simp] theorem exec_shrImm (sd : BitVec 5) (sa : BitVec 5) (k : BitVec 6) (s : State) : exec (.shrImm sd sa k) s = execShrImm sd sa k s := rfl
@[simp] theorem exec_sraImm (sd : BitVec 5) (sa : BitVec 5) (k : BitVec 6) (s : State) : exec (.sraImm sd sa k) s = execSraImm sd sa k s := rfl
@[simp] theorem exec_mulImm (sd : BitVec 5) (sa : BitVec 5) (imm : BitVec 16) (s : State) : exec (.mulImm sd sa imm) s = execMulImm sd sa imm s := rfl
@[simp] theorem exec_mulhImm (sd : BitVec 5) (sa : BitVec 5) (imm : BitVec 16) (s : State) : exec (.mulhImm sd sa imm) s = execMulhImm sd sa imm s := rfl
@[simp] theorem exec_minImm (sd : BitVec 5) (sa : BitVec 5) (imm : BitVec 16) (s : State) : exec (.minImm sd sa imm) s = execMinImm sd sa imm s := rfl
@[simp] theorem exec_maxImm (sd : BitVec 5) (sa : BitVec 5) (imm : BitVec 16) (s : State) : exec (.maxImm sd sa imm) s = execMaxImm sd sa imm s := rfl
@[simp] theorem exec_cmp (c : Cond) (bd : BitVec 3) (sa : BitVec 5) (sb : BitVec 5) (s : State) : exec (.cmp c bd sa sb) s = execCmp c bd sa sb s := rfl
@[simp] theorem exec_cmpImm (c : Cond) (bd : BitVec 3) (sa : BitVec 5) (imm : BitVec 12) (s : State) : exec (.cmpImm c bd sa imm) s = execCmpImm c bd sa imm s := rfl
@[simp] theorem exec_fop (op : FlagOp) (bd : BitVec 3) (ba : BitVec 3) (bb : BitVec 3) (s : State) : exec (.fop op bd ba bb) s = execFop op bd ba bb s := rfl
@[simp] theorem exec_nopn (n : BitVec 21) (s : State) : exec (.nopn n) s = execNopn n s := rfl
@[simp] theorem exec_ldi (sd : BitVec 5) (imm : BitVec 21) (s : State) : exec (.ldi sd imm) s = execLdi sd imm s := rfl
@[simp] theorem exec_ldih (sd : BitVec 5) (h : BitVec 2) (imm : BitVec 16) (s : State) : exec (.ldih sd h imm) s = execLdih sd h imm s := rfl
@[simp] theorem exec_br (cf : CF) (disp : BitVec 21) (s : State) : exec (.br cf disp) s = execBr cf disp s := rfl
@[simp] theorem exec_jmp (sa : BitVec 5) (s : State) : exec (.jmp sa) s = execJmp sa s := rfl
@[simp] theorem exec_call (sd : BitVec 5) (disp : BitVec 21) (s : State) : exec (.call sd disp) s = execCall sd disp s := rfl
@[simp] theorem exec_ret (sa : BitVec 5) (s : State) : exec (.ret sa) s = execRet sa s := rfl
@[simp] theorem exec_loop (n : BitVec 16) (s : State) : exec (.loop n) s = execLoop n s := rfl
@[simp] theorem exec_loopReg (sa : BitVec 5) (s : State) : exec (.loopReg sa) s = execLoopReg sa s := rfl
@[simp] theorem exec_lbrk (cf : CF) (disp : BitVec 21) (s : State) : exec (.lbrk cf disp) s = execLbrk cf disp s := rfl
@[simp] theorem exec_pini (sa : BitVec 5) (sb : BitVec 5) (s : State) : exec (.pini sa sb) s = execPini sa sb s := rfl
@[simp] theorem exec_parr (sa : BitVec 5) (s : State) : exec (.parr sa) s = execParr sa s := rfl
@[simp] theorem exec_pwait (sa : BitVec 5) (sb : BitVec 5) (s : State) : exec (.pwait sa sb) s = execPwait sa sb s := rfl
@[simp] theorem exec_pwaitImm (sa : BitVec 5) (ph : Bool) (s : State) : exec (.pwaitImm sa ph) s = execPwaitImm sa ph s := rfl
@[simp] theorem exec_bset (sc : Scope) (sa : BitVec 5) (sb : BitVec 5) (s : State) : exec (.bset sc sa sb) s = execBset sc sa sb s := rfl
@[simp] theorem exec_bwait (sc : Scope) (sa : BitVec 5) (sb : BitVec 5) (s : State) : exec (.bwait sc sa sb) s = execBwait sc sa sb s := rfl
@[simp] theorem exec_ldf (sgn : Bool) (sz : MSize) (sd : BitVec 5) (sa : BitVec 5) (off : BitVec 12) (s : State) : exec (.ldf sgn sz sd sa off) s = execLdf sgn sz sd sa off s := rfl
@[simp] theorem exec_stf (sz : MSize) (sd : BitVec 5) (sa : BitVec 5) (off : BitVec 12) (s : State) : exec (.stf sz sd sa off) s = execStf sz sd sa off s := rfl
@[simp] theorem exec_atom (op : AtomOp) (sgn : Bool) (w64 : Bool) (ret : Bool) (ord : MOrder) (sc : Scope) (sd : BitVec 5) (sa : BitVec 5) (sb : BitVec 5) (s : State) : exec (.atom op sgn w64 ret ord sc sd sa sb) s = execAtom op sgn w64 ret ord sc sd sa sb s := rfl
@[simp] theorem exec_fence (kind : FenceKind) (sc : Scope) (s : State) : exec (.fence kind sc) s = execFence kind sc s := rfl
@[simp] theorem exec_cred (op : RedOp) (sd : BitVec 5) (aa : BitVec 4) (s : State) : exec (.cred op sd aa) s = execCred op sd aa s := rfl
@[simp] theorem exec_cmsk (m : CmskOp) (s : State) : exec (.cmsk m) s = execCmsk m s := rfl
@[simp] theorem exec_tex (ek : BitVec 3) (imm : BitVec 16) (s : State) : exec (.tex ek imm) s = execTex ek imm s := rfl
@[simp] theorem exec_texReg (ek : BitVec 3) (sa : BitVec 5) (imm : BitVec 16) (s : State) : exec (.texReg ek sa imm) s = execTexReg ek sa imm s := rfl
@[simp] theorem exec_srr (sd : BitVec 5) (sel : BitVec 12) (s : State) : exec (.srr sd sel) s = execSrr sd sel s := rfl
@[simp] theorem exec_srw (sel : BitVec 12) (sa : BitVec 5) (s : State) : exec (.srw sel sa) s = execSrw sel sa s := rfl
@[simp] theorem exec_trap (code : BitVec 16) (s : State) : exec (.trap code) s = execTrap code s := rfl
@[simp] theorem exec_lnch (sd : BitVec 5) (sa : BitVec 5) (s : State) : exec (.lnch sd sa) s = execLnch sd sa s := rfl
@[simp] theorem exec_aadd (ad : BitVec 4) (aa : BitVec 4) (ab : BitVec 4) (s : State) : exec (.aadd ad aa ab) s = execAadd ad aa ab s := rfl
@[simp] theorem exec_asub (ad : BitVec 4) (aa : BitVec 4) (ab : BitVec 4) (s : State) : exec (.asub ad aa ab) s = execAsub ad aa ab s := rfl
@[simp] theorem exec_aaddi (ad : BitVec 4) (aa : BitVec 4) (imm : BitVec 18) (s : State) : exec (.aaddi ad aa imm) s = execAaddi ad aa imm s := rfl
@[simp] theorem exec_ashl (ad : BitVec 4) (aa : BitVec 4) (n : BitVec 5) (s : State) : exec (.ashl ad aa n) s = execAshl ad aa n s := rfl
@[simp] theorem exec_amov (ad : BitVec 4) (aa : BitVec 4) (s : State) : exec (.amov ad aa) s = execAmov ad aa s := rfl
@[simp] theorem exec_aldi (ad : BitVec 4) (imm : BitVec 18) (s : State) : exec (.aldi ad imm) s = execAldi ad imm s := rfl
@[simp] theorem exec_acix (m : CixMode) (ad : BitVec 4) (s : State) : exec (.acix m ad) s = execAcix m ad s := rfl
@[simp] theorem exec_afroms (ad : BitVec 4) (n : BitVec 5) (s : State) : exec (.afroms ad n) s = execAfroms ad n s := rfl
@[simp] theorem exec_shw (tm : BitVec 4) (fld : Fin 53) (sm : BitVec 5) (s : State) : exec (.shw tm fld sm) s = execShw tm fld sm s := rfl
@[simp] theorem exec_shwi (tm : BitVec 4) (fld : Fin 53) (imm : BitVec 11) (s : State) : exec (.shwi tm fld imm) s = execShwi tm fld imm s := rfl
@[simp] theorem exec_ftw (ft : BitVec 3) (sm : BitVec 5) (s : State) : exec (.ftw ft sm) s = execFtw ft sm s := rfl
@[simp] theorem exec_ftwField (ft : BitVec 3) (fld : FtField) (imm : BitVec 11) (s : State) : exec (.ftwField ft fld imm) s = execFtwField ft fld imm s := rfl
@[simp] theorem exec_vld (vt : BitVec 6) (aa : BitVec 4) (pd : BitVec 4) (ck : Chk) (off : BitVec 6) (s : State) : exec (.vld vt aa pd ck off) s = execVld vt aa pd ck off s := rfl
@[simp] theorem exec_vst (vt : VSrc) (aa : BitVec 4) (pd : BitVec 4) (off : BitVec 6) (s : State) : exec (.vst vt aa pd off) s = execVst vt aa pd off s := rfl
@[simp] theorem exec_vldb (vt : BitVec 6) (aa : BitVec 4) (pd : BitVec 4) (ck : Chk) (off : BitVec 6) (s : State) : exec (.vldb vt aa pd ck off) s = execVldb vt aa pd ck off s := rfl
@[simp] theorem exec_vlds (vt : BitVec 6) (aa : BitVec 4) (pd : BitVec 4) (ck : Chk) (stride : BitVec 6) (s : State) : exec (.vlds vt aa pd ck stride) s = execVlds vt aa pd ck stride s := rfl
@[simp] theorem exec_vldx (half : Bool) (vt : BitVec 6) (aa : BitVec 4) (pd : BitVec 4) (vi : VSrc) (s : State) : exec (.vldx half vt aa pd vi) s = execVldx half vt aa pd vi s := rfl
@[simp] theorem exec_vstx (half : Bool) (vt : VSrc) (aa : BitVec 4) (pd : BitVec 4) (vi : VSrc) (s : State) : exec (.vstx half vt aa pd vi) s = execVstx half vt aa pd vi s := rfl
@[simp] theorem exec_pld (pt : BitVec 4) (aa : BitVec 4) (ck : Chk) (off : BitVec 6) (s : State) : exec (.pld pt aa ck off) s = execPld pt aa ck off s := rfl
@[simp] theorem exec_pst (pt : BitVec 4) (aa : BitVec 4) (off : BitVec 6) (s : State) : exec (.pst pt aa off) s = execPst pt aa off s := rfl
@[simp] theorem exec_dld (dt : BitVec 3) (aa : BitVec 4) (ck : Chk) (off : BitVec 6) (s : State) : exec (.dld dt aa ck off) s = execDld dt aa ck off s := rfl
@[simp] theorem exec_dst (dt : BitVec 3) (aa : BitVec 4) (off : BitVec 6) (s : State) : exec (.dst dt aa off) s = execDst dt aa off s := rfl
@[simp] theorem exec_vldf (vt : BitVec 6) (tm : BitVec 4) (aa : BitVec 4) (pd : BitVec 4) (off : BitVec 6) (s : State) : exec (.vldf vt tm aa pd off) s = execVldf vt tm aa pd off s := rfl
@[simp] theorem exec_vstf (vt : VSrc) (tm : BitVec 4) (aa : BitVec 4) (pd : BitVec 4) (off : BitVec 6) (s : State) : exec (.vstf vt tm aa pd off) s = execVstf vt tm aa pd off s := rfl
@[simp] theorem exec_vupd (op : UpdOp) (ty : UpdTy) (vt : VSrc) (tm : BitVec 4) (aa : BitVec 4) (pd : BitVec 4) (s : State) : exec (.vupd op ty vt tm aa pd) s = execVupd op ty vt tm aa pd s := rfl
@[simp] theorem exec_vadd (c : VCtl) (sz : ISz) (sgn : Bool) (sat : Bool) (vd : BitVec 6) (va : VSrc) (vb : VSrc) (s : State) : exec (.vadd c sz sgn sat vd va vb) s = execVadd c sz sgn sat vd va vb s := rfl
@[simp] theorem exec_vsub (c : VCtl) (sz : ISz) (sgn : Bool) (sat : Bool) (vd : BitVec 6) (va : VSrc) (vb : VSrc) (s : State) : exec (.vsub c sz sgn sat vd va vb) s = execVsub c sz sgn sat vd va vb s := rfl
@[simp] theorem exec_vmul (c : VCtl) (sz : ISz) (vd : BitVec 6) (va : VSrc) (vb : VSrc) (s : State) : exec (.vmul c sz vd va vb) s = execVmul c sz vd va vb s := rfl
@[simp] theorem exec_vmulh (c : VCtl) (sz : ISz) (sgn : Bool) (vd : BitVec 6) (va : VSrc) (vb : VSrc) (s : State) : exec (.vmulh c sz sgn vd va vb) s = execVmulh c sz sgn vd va vb s := rfl
@[simp] theorem exec_vmad (c : VCtl) (sz : ISz) (vd : BitVec 6) (va : VSrc) (vb : VSrc) (vc : VSrc) (s : State) : exec (.vmad c sz vd va vb vc) s = execVmad c sz vd va vb vc s := rfl
@[simp] theorem exec_vmin (c : VCtl) (sz : ISz) (sgn : Bool) (vd : BitVec 6) (va : VSrc) (vb : VSrc) (s : State) : exec (.vmin c sz sgn vd va vb) s = execVmin c sz sgn vd va vb s := rfl
@[simp] theorem exec_vmax (c : VCtl) (sz : ISz) (sgn : Bool) (vd : BitVec 6) (va : VSrc) (vb : VSrc) (s : State) : exec (.vmax c sz sgn vd va vb) s = execVmax c sz sgn vd va vb s := rfl
@[simp] theorem exec_vabs (c : VCtl) (sz : ISz) (sat : Bool) (vd : BitVec 6) (va : VSrc) (s : State) : exec (.vabs c sz sat vd va) s = execVabs c sz sat vd va s := rfl
@[simp] theorem exec_vneg (c : VCtl) (sz : ISz) (sat : Bool) (vd : BitVec 6) (va : VSrc) (s : State) : exec (.vneg c sz sat vd va) s = execVneg c sz sat vd va s := rfl
@[simp] theorem exec_vand (c : VCtl) (sz : ISz) (vd : BitVec 6) (va : VSrc) (vb : VSrc) (s : State) : exec (.vand c sz vd va vb) s = execVand c sz vd va vb s := rfl
@[simp] theorem exec_vor (c : VCtl) (sz : ISz) (vd : BitVec 6) (va : VSrc) (vb : VSrc) (s : State) : exec (.vor c sz vd va vb) s = execVor c sz vd va vb s := rfl
@[simp] theorem exec_vxor (c : VCtl) (sz : ISz) (vd : BitVec 6) (va : VSrc) (vb : VSrc) (s : State) : exec (.vxor c sz vd va vb) s = execVxor c sz vd va vb s := rfl
@[simp] theorem exec_vnot (c : VCtl) (sz : ISz) (vd : BitVec 6) (va : VSrc) (s : State) : exec (.vnot c sz vd va) s = execVnot c sz vd va s := rfl
@[simp] theorem exec_vshl (c : VCtl) (sz : ISz) (vd : BitVec 6) (va : VSrc) (vb : VSrc) (s : State) : exec (.vshl c sz vd va vb) s = execVshl c sz vd va vb s := rfl
@[simp] theorem exec_vshr (c : VCtl) (sz : ISz) (vd : BitVec 6) (va : VSrc) (vb : VSrc) (s : State) : exec (.vshr c sz vd va vb) s = execVshr c sz vd va vb s := rfl
@[simp] theorem exec_vsra (c : VCtl) (sz : ISz) (vd : BitVec 6) (va : VSrc) (vb : VSrc) (s : State) : exec (.vsra c sz vd va vb) s = execVsra c sz vd va vb s := rfl
@[simp] theorem exec_vclz (c : VCtl) (sz : ISz) (vd : BitVec 6) (va : VSrc) (s : State) : exec (.vclz c sz vd va) s = execVclz c sz vd va s := rfl
@[simp] theorem exec_vpopc (c : VCtl) (sz : ISz) (vd : BitVec 6) (va : VSrc) (s : State) : exec (.vpopc c sz vd va) s = execVpopc c sz vd va s := rfl
@[simp] theorem exec_fadd (c : VCtl) (ty : FTy) (vd : BitVec 6) (va : VSrc) (vb : VSrc) (s : State) : exec (.fadd c ty vd va vb) s = execFadd c ty vd va vb s := rfl
@[simp] theorem exec_fsub (c : VCtl) (ty : FTy) (vd : BitVec 6) (va : VSrc) (vb : VSrc) (s : State) : exec (.fsub c ty vd va vb) s = execFsub c ty vd va vb s := rfl
@[simp] theorem exec_fmul (c : VCtl) (ty : FTy) (vd : BitVec 6) (va : VSrc) (vb : VSrc) (s : State) : exec (.fmul c ty vd va vb) s = execFmul c ty vd va vb s := rfl
@[simp] theorem exec_ffma (c : VCtl) (ty : FTy) (vd : BitVec 6) (va : VSrc) (vb : VSrc) (vc : VSrc) (s : State) : exec (.ffma c ty vd va vb vc) s = execFfma c ty vd va vb vc s := rfl
@[simp] theorem exec_ffms (c : VCtl) (ty : FTy) (vd : BitVec 6) (va : VSrc) (vb : VSrc) (vc : VSrc) (s : State) : exec (.ffms c ty vd va vb vc) s = execFfms c ty vd va vb vc s := rfl
@[simp] theorem exec_fmin (c : VCtl) (ty : FTy) (vd : BitVec 6) (va : VSrc) (vb : VSrc) (s : State) : exec (.fmin c ty vd va vb) s = execFmin c ty vd va vb s := rfl
@[simp] theorem exec_fmax (c : VCtl) (ty : FTy) (vd : BitVec 6) (va : VSrc) (vb : VSrc) (s : State) : exec (.fmax c ty vd va vb) s = execFmax c ty vd va vb s := rfl
@[simp] theorem exec_fabs (c : VCtl) (ty : FTy) (vd : BitVec 6) (va : VSrc) (s : State) : exec (.fabs c ty vd va) s = execFabs c ty vd va s := rfl
@[simp] theorem exec_fneg (c : VCtl) (ty : FTy) (vd : BitVec 6) (va : VSrc) (s : State) : exec (.fneg c ty vd va) s = execFneg c ty vd va s := rfl
@[simp] theorem exec_fcps (c : VCtl) (ty : FTy) (vd : BitVec 6) (va : VSrc) (vb : VSrc) (s : State) : exec (.fcps c ty vd va vb) s = execFcps c ty vd va vb s := rfl
@[simp] theorem exec_fexp2 (c : VCtl) (ty : FTy) (vd : BitVec 6) (va : VSrc) (s : State) : exec (.fexp2 c ty vd va) s = execFexp2 c ty vd va s := rfl
@[simp] theorem exec_flog2 (c : VCtl) (ty : FTy) (vd : BitVec 6) (va : VSrc) (s : State) : exec (.flog2 c ty vd va) s = execFlog2 c ty vd va s := rfl
@[simp] theorem exec_frcp (c : VCtl) (ty : FTy) (vd : BitVec 6) (va : VSrc) (s : State) : exec (.frcp c ty vd va) s = execFrcp c ty vd va s := rfl
@[simp] theorem exec_frsq (c : VCtl) (ty : FTy) (vd : BitVec 6) (va : VSrc) (s : State) : exec (.frsq c ty vd va) s = execFrsq c ty vd va s := rfl
@[simp] theorem exec_fsqrt (c : VCtl) (ty : FTy) (vd : BitVec 6) (va : VSrc) (s : State) : exec (.fsqrt c ty vd va) s = execFsqrt c ty vd va s := rfl
@[simp] theorem exec_ftanh (c : VCtl) (ty : FTy) (vd : BitVec 6) (va : VSrc) (s : State) : exec (.ftanh c ty vd va) s = execFtanh c ty vd va s := rfl
@[simp] theorem exec_fsigm (c : VCtl) (ty : FTy) (vd : BitVec 6) (va : VSrc) (s : State) : exec (.fsigm c ty vd va) s = execFsigm c ty vd va s := rfl
@[simp] theorem exec_fsin (c : VCtl) (ty : FTy) (vd : BitVec 6) (va : VSrc) (s : State) : exec (.fsin c ty vd va) s = execFsin c ty vd va s := rfl
@[simp] theorem exec_fcos (c : VCtl) (ty : FTy) (vd : BitVec 6) (va : VSrc) (s : State) : exec (.fcos c ty vd va) s = execFcos c ty vd va s := rfl
@[simp] theorem exec_vcmp (c : VCtl) (sz : ISz) (cond : Cond) (pd : BitVec 4) (va : VSrc) (vb : VSrc) (s : State) : exec (.vcmp c sz cond pd va vb) s = execVcmp c sz cond pd va vb s := rfl
@[simp] theorem exec_fcmp (c : VCtl) (ty : FTy) (cond : FCond) (pd : BitVec 4) (va : VSrc) (vb : VSrc) (s : State) : exec (.fcmp c ty cond pd va vb) s = execFcmp c ty cond pd va vb s := rfl
@[simp] theorem exec_vsel (c : VCtl) (sz : ISz) (vd : BitVec 6) (va : VSrc) (vb : VSrc) (s : State) : exec (.vsel c sz vd va vb) s = execVsel c sz vd va vb s := rfl
@[simp] theorem exec_fcls (c : VCtl) (ty : FTy) (vd : BitVec 6) (va : VSrc) (s : State) : exec (.fcls c ty vd va) s = execFcls c ty vd va s := rfl
@[simp] theorem exec_vcvt (c : VCtl) (k : CvtKind) (rm : RMode) (nsat : Bool) (vd : BitVec 6) (va : VSrc) (s : State) : exec (.vcvt c k rm nsat vd va) s = execVcvt c k rm nsat vd va s := rfl
@[simp] theorem exec_vpack (sz : ISz) (sat : PackSat) (vd : BitVec 6) (va : VSrc) (vb : VSrc) (s : State) : exec (.vpack sz sat vd va vb) s = execVpack sz sat vd va vb s := rfl
@[simp] theorem exec_vunpk (sz : ISz) (sgn : Bool) (hi : Bool) (vd : BitVec 6) (va : VSrc) (s : State) : exec (.vunpk sz sgn hi vd va) s = execVunpk sz sgn hi vd va s := rfl
@[simp] theorem exec_vqnt (fs : FSel) (vd : BitVec 6) (va : VSrc) (s : State) : exec (.vqnt fs vd va) s = execVqnt fs vd va s := rfl
@[simp] theorem exec_vdqt (fs : FSel) (vd : BitVec 6) (va : VSrc) (s : State) : exec (.vdqt fs vd va) s = execVdqt fs vd va s := rfl
@[simp] theorem exec_vred (c : VCtl) (k : RedKind) (vd : BitVec 6) (va : VSrc) (s : State) : exec (.vred c k vd va) s = execVred c k vd va s := rfl
@[simp] theorem exec_vamax (c : VCtl) (ty : FTy) (m : SelMode) (vd : BitVec 6) (va : VSrc) (s : State) : exec (.vamax c ty m vd va) s = execVamax c ty m vd va s := rfl
@[simp] theorem exec_vscan (c : VCtl) (k : RedKind) (excl : Bool) (vd : BitVec 6) (va : VSrc) (s : State) : exec (.vscan c k excl vd va) s = execVscan c k excl vd va s := rfl
@[simp] theorem exec_vperm (c : VCtl) (sz : ISz) (vd : BitVec 6) (va : VSrc) (vb : VSrc) (s : State) : exec (.vperm c sz vd va vb) s = execVperm c sz vd va vb s := rfl
@[simp] theorem exec_vshuf (c : VCtl) (sz : ISz) (vd : BitVec 6) (va : VSrc) (vb : VSrc) (vc : VSrc) (s : State) : exec (.vshuf c sz vd va vb vc) s = execVshuf c sz vd va vb vc s := rfl
@[simp] theorem exec_vbcst (c : VCtl) (sz : ISz) (idx : BitVec 6) (vd : BitVec 6) (va : VSrc) (s : State) : exec (.vbcst c sz idx vd va) s = execVbcst c sz idx vd va s := rfl
@[simp] theorem exec_vsld (c : VCtl) (sz : ISz) (k : BitVec 6) (vd : BitVec 6) (va : VSrc) (vb : VSrc) (s : State) : exec (.vsld c sz k vd va vb) s = execVsld c sz k vd va vb s := rfl
@[simp] theorem exec_vzip (c : VCtl) (sz : ISz) (hi : Bool) (vd : BitVec 6) (va : VSrc) (vb : VSrc) (s : State) : exec (.vzip c sz hi vd va vb) s = execVzip c sz hi vd va vb s := rfl
@[simp] theorem exec_vmov (c : VCtl) (sz : ISz) (rep : BitVec 6) (vd : BitVec 6) (va : VSrc) (s : State) : exec (.vmov c sz rep vd va) s = execVmov c sz rep vd va s := rfl
@[simp] theorem exec_vmovi (c : VCtl) (sz : ISz) (imm : BitVec 18) (vd : BitVec 6) (s : State) : exec (.vmovi c sz imm vd) s = execVmovi c sz imm vd s := rfl
@[simp] theorem exec_pand (c : VCtl) (pd : BitVec 4) (pa : BitVec 4) (pb : BitVec 4) (s : State) : exec (.pand c pd pa pb) s = execPand c pd pa pb s := rfl
@[simp] theorem exec_por (c : VCtl) (pd : BitVec 4) (pa : BitVec 4) (pb : BitVec 4) (s : State) : exec (.por c pd pa pb) s = execPor c pd pa pb s := rfl
@[simp] theorem exec_pxor (c : VCtl) (pd : BitVec 4) (pa : BitVec 4) (pb : BitVec 4) (s : State) : exec (.pxor c pd pa pb) s = execPxor c pd pa pb s := rfl
@[simp] theorem exec_pnot (c : VCtl) (pd : BitVec 4) (pa : BitVec 4) (s : State) : exec (.pnot c pd pa) s = execPnot c pd pa s := rfl
@[simp] theorem exec_pcnt (c : VCtl) (sz : ISz) (pd : BitVec 4) (pa : BitVec 4) (s : State) : exec (.pcnt c sz pd pa) s = execPcnt c sz pd pa s := rfl
@[simp] theorem exec_pfirst (c : VCtl) (sz : ISz) (pd : BitVec 4) (pa : BitVec 4) (s : State) : exec (.pfirst c sz pd pa) s = execPfirst c sz pd pa s := rfl
@[simp] theorem exec_vrnd (c : VCtl) (m : RndMode) (vd : BitVec 6) (s : State) : exec (.vrnd c m vd) s = execVrnd c m vd s := rfl
@[simp] theorem exec_vchk (rng : VRange) (mir : Bool) (ty : FTy) (trp : Bool) (t : BitVec 5) (pd : BitVec 4) (va : VSrc) (vb : VSrc) (s : State) : exec (.vchk rng mir ty trp t pd va vb) s = execVchk rng mir ty trp t pd va vb s := rfl
@[simp] theorem exec_mbld (fs : FSel) (pl : Bool) (ck : Chk) (aa : BitVec 4) (off : BitVec 12) (s : State) : exec (.mbld fs pl ck aa off) s = execMbld fs pl ck aa off s := rfl
@[simp] theorem exec_mbldh (pl : Bool) (s : State) : exec (.mbldh pl) s = execMbldh pl s := rfl
@[simp] theorem exec_mrow (op : CellOp) (bk : BitVec 2) (fs : FSel) (pl : Bool) (va : VSrc) (m : BitVec 6) (st : StartMode) (hoff : BitVec 7) (vh : VSrc) (s : State) : exec (.mrow op bk fs pl va m st hoff vh) s = execMrow op bk fs pl va m st hoff vh s := rfl
@[simp] theorem exec_mchk (bk : BitVec 2) (fs : FSel) (pl : Bool) (reg : Option VSrc) (st : StartMode) (s : State) : exec (.mchk bk fs pl reg st) s = execMchk bk fs pl reg st s := rfl
@[simp] theorem exec_mzero (bk : Option (BitVec 2)) (s : State) : exec (.mzero bk) s = execMzero bk s := rfl
@[simp] theorem exec_macc (bd : BitVec 2) (bs : BitVec 2) (s : State) : exec (.macc bd bs) s = execMacc bd bs s := rfl
@[simp] theorem exec_mdrn (bk : BitVec 2) (fs : FSel) (m : Fin 64) (nochk : Bool) (ckw : Bool) (tm : BitVec 4) (col : Option (BitVec 4 × BitVec 16)) (s : State) : exec (.mdrn bk fs m nochk ckw tm col) s = execMdrn bk fs m nochk ckw tm col s := rfl
@[simp] theorem exec_mdrnk (bk : BitVec 2) (fs : FSel) (va : BitVec 6) (k : BitVec 4) (nochk : Bool) (mode : SelMode) (m : Fin 64) (nr : BitVec 5) (rb : BitVec 6) (s : State) : exec (.mdrnk bk fs va k nochk mode m nr rb) s = execMdrnk bk fs va k nochk mode m nr rb s := rfl
@[simp] theorem exec_mstat (va : BitVec 6) (clr : Bool) (s : State) : exec (.mstat va clr) s = execMstat va clr s := rfl
@[simp] theorem exec_mrd (bk : BitVec 2) (va : BitVec 6) (ln : BankLine) (s : State) : exec (.mrd bk va ln) s = execMrd bk va ln s := rfl
@[simp] theorem exec_mwr (bk : BitVec 2) (va : VSrc) (ln : BankLine) (s : State) : exec (.mwr bk va ln) s = execMwr bk va ln s := rfl
@[simp] theorem exec_mrot (bd : BitVec 2) (bs : BitVec 2) (pl : Bool) (m : Fin 64) (s : State) : exec (.mrot bd bs pl m) s = execMrot bd bs pl m s := rfl
@[simp] theorem exec_mdiag (va : BitVec 6) (s : State) : exec (.mdiag va) s = execMdiag va s := rfl
@[simp] theorem exec_mspr (va : BitVec 6) (persist : Bool) (row : Fin 66) (s : State) : exec (.mspr va persist row) s = execMspr va persist row s := rfl
@[simp] theorem exec_xld (o : XOps) (s : State) : exec (.xld o) s = execXld o s := rfl
@[simp] theorem exec_xldw (o : XOps) (s : State) : exec (.xldw o) s = execXldw o s := rfl
@[simp] theorem exec_xst (o : XOps) (s : State) : exec (.xst o) s = execXst o s := rfl
@[simp] theorem exec_xput (o : XOps) (s : State) : exec (.xput o) s = execXput o s := rfl
@[simp] theorem exec_xb (o : XOps) (s : State) : exec (.xb o) s = execXb o s := rfl
@[simp] theorem exec_xpsh (one : Bool) (sa : BitVec 5) (sb : BitVec 5) (s : State) : exec (.xpsh one sa sb) s = execXpsh one sa sb s := rfl
@[simp] theorem exec_xgth (o : XOps) (s : State) : exec (.xgth o) s = execXgth o s := rfl
@[simp] theorem exec_xsct (o : XOps) (s : State) : exec (.xsct o) s = execXsct o s := rfl
@[simp] theorem exec_xchn (o : XOps) (s : State) : exec (.xchn o) s = execXchn o s := rfl
@[simp] theorem exec_xpair (o : XOps) (s : State) : exec (.xpair o) s = execXpair o s := rfl
@[simp] theorem exec_xfil (sp : Bool) (o : XOps) (s : State) : exec (.xfil sp o) s = execXfil sp o s := rfl
@[simp] theorem exec_xcol (k : BitVec 4) (o : XOps) (s : State) : exec (.xcol k o) s = execXcol k o s := rfl
@[simp] theorem exec_xfen (o : XOps) (s : State) : exec (.xfen o) s = execXfen o s := rfl
@[simp] theorem exec_xcan (all : Bool) (sq : BitVec 12) (s : State) : exec (.xcan all sq) s = execXcan all sq s := rfl
@[simp] theorem exec_dadd (m : PairMode) (dd : BitVec 3) (da : BitVec 3) (db : BitVec 3) (s : State) : exec (.dadd m dd da db) s = execDadd m dd da db s := rfl
@[simp] theorem exec_dsub (m : PairMode) (dd : BitVec 3) (da : BitVec 3) (db : BitVec 3) (s : State) : exec (.dsub m dd da db) s = execDsub m dd da db s := rfl
@[simp] theorem exec_dmul (m : PairMode) (dd : BitVec 3) (da : BitVec 3) (db : BitVec 3) (s : State) : exec (.dmul m dd da db) s = execDmul m dd da db s := rfl
@[simp] theorem exec_dmax (m : PairMode) (dd : BitVec 3) (da : BitVec 3) (db : BitVec 3) (s : State) : exec (.dmax m dd da db) s = execDmax m dd da db s := rfl
@[simp] theorem exec_dmin (m : PairMode) (dd : BitVec 3) (da : BitVec 3) (db : BitVec 3) (s : State) : exec (.dmin m dd da db) s = execDmin m dd da db s := rfl
@[simp] theorem exec_daff (dd : BitVec 3) (da : BitVec 3) (va : VSrc) (s : State) : exec (.daff dd da va) s = execDaff dd da va s := rfl
@[simp] theorem exec_dmap (f : MapFn) (dd : BitVec 3) (da : BitVec 3) (s : State) : exec (.dmap f dd da) s = execDmap f dd da s := rfl
@[simp] theorem exec_dmix (dd : BitVec 3) (da : BitVec 3) (db : BitVec 3) (va : VSrc) (s : State) : exec (.dmix dd da db va) s = execDmix dd da db va s := rfl
@[simp] theorem exec_dfrs (dd : BitVec 3) (va : VSrc) (s : State) : exec (.dfrs dd va) s = execDfrs dd va s := rfl
@[simp] theorem exec_dfrw (dd : BitVec 3) (va : VSrc) (s : State) : exec (.dfrw dd va) s = execDfrw dd va s := rfl
@[simp] theorem exec_dpnt (dd : BitVec 3) (va : VSrc) (s : State) : exec (.dpnt dd va) s = execDpnt dd va s := rfl
@[simp] theorem exec_dsmp (va : BitVec 6) (da : BitVec 3) (s : State) : exec (.dsmp va da) s = execDsmp va da s := rfl
@[simp] theorem exec_dmom (va : BitVec 6) (da : BitVec 3) (s : State) : exec (.dmom va da) s = execDmom va da s := rfl
@[simp] theorem exec_dqnt (lin : Bool) (da : BitVec 3) (va : VSrc) (s : State) : exec (.dqnt lin da va) s = execDqnt lin da va s := rfl
@[simp] theorem exec_dtag (op : TagOp) (dd : BitVec 3) (da : BitVec 3) (va : VSrc) (s : State) : exec (.dtag op dd da va) s = execDtag op dd da va s := rfl
@[simp] theorem exec_dmov (sel : BitVec 8) (dd : BitVec 3) (da : BitVec 3) (s : State) : exec (.dmov sel dd da) s = execDmov sel dd da s := rfl
@[simp] theorem exec_dcnd (dd : BitVec 3) (da : BitVec 3) (va : VSrc) (s : State) : exec (.dcnd dd da va) s = execDcnd dd da va s := rfl
@[simp] theorem exec_send (pt : Bool) (ind : Bool) (c : ChunkEx) (p : PeerEx) (s : State) : exec (.send pt ind c p) s = execSend pt ind c p s := rfl
@[simp] theorem exec_recv (pr : Bool) (c : ChunkEx) (s : State) : exec (.recv pr c) s = execRecv pr c s := rfl
@[simp] theorem exec_rrs (rop : BzRop) (pr : Bool) (pt : Bool) (ind : Bool) (c : ChunkEx) (p : PeerEx) (s : State) : exec (.rrs rop pr pt ind c p) s = execRrs rop pr pt ind c p s := rfl
@[simp] theorem exec_rrd (rop : BzRop) (pr : Bool) (c : ChunkEx) (s : State) : exec (.rrd rop pr c) s = execRrd rop pr c s := rfl
@[simp] theorem exec_copy (c : ChunkEx) (s : State) : exec (.copy c) s = execCopy c s := rfl
@[simp] theorem exec_waitc (c : ChunkEx) (s : State) : exec (.waitc c) s = execWaitc c s := rfl
@[simp] theorem exec_sig (ind : Bool) (idx : BitVec 6) (p : PeerEx) (s : State) : exec (.sig ind idx p) s = execSig ind idx p s := rfl
@[simp] theorem exec_sigBit (b : BitVec 12) (s : State) : exec (.sigBit b) s = execSigBit b s := rfl
@[simp] theorem exec_waits (idx : BitVec 6) (n : BitVec 16) (s : State) : exec (.waits idx n) s = execWaits idx n s := rfl
@[simp] theorem exec_bzLoop (gd : BitVec 3) (n : BitVec 32) (s : State) : exec (.bzLoop gd n) s = execBzLoop gd n s := rfl
@[simp] theorem exec_setv (gd : BitVec 3) (imm : BitVec 32) (s : State) : exec (.setv gd imm) s = execSetv gd imm s := rfl
@[simp] theorem exec_addv (gd : BitVec 3) (ga : BitVec 3) (imm : BitVec 32) (s : State) : exec (.addv gd ga imm) s = execAddv gd ga imm s := rfl
@[simp] theorem exec_peer (gd : BitVec 3) (p : PeerEx) (s : State) : exec (.peer gd p) s = execPeer gd p s := rfl
@[simp] theorem exec_peerInd (gd : BitVec 3) (pg : BitVec 3) (s : State) : exec (.peerInd gd pg) s = execPeerInd gd pg s := rfl
@[simp] theorem exec_peerXor (gd : BitVec 3) (pg : BitVec 3) (s : State) : exec (.peerXor gd pg) s = execPeerXor gd pg s := rfl
@[simp] theorem exec_bar (acq : Bool) (rel : Bool) (s : State) : exec (.bar acq rel) s = execBar acq rel s := rfl
@[simp] theorem exec_chunkCount (c : BitVec 4) (k : BitVec 4) (chunk : BitVec 20) (inc : BitVec 16) (o : Origin) (s : State) : exec (.chunkCount c k chunk inc o) s = execChunkCount c k chunk inc o s := rfl
@[simp] theorem exec_deliveryComplete (id : Nat) (s : State) : exec (.deliveryComplete id) s = execDeliveryComplete id s := rfl
@[simp] theorem exec_deliveryFailure (id : Nat) (s : State) : exec (.deliveryFailure id) s = execDeliveryFailure id s := rfl
@[simp] theorem exec_buntingWindowReread (task : Nat) (s : State) : exec (.buntingWindowReread task) s = execBuntingWindowReread task s := rfl
@[simp] theorem exec_windowTimeout (task : Nat) (s : State) : exec (.windowTimeout task) s = execWindowTimeout task s := rfl
@[simp] theorem exec_preemptionFreeze (task : Nat) (gang : Nat) (s : State) : exec (.preemptionFreeze task gang) s = execPreemptionFreeze task gang s := rfl
@[simp] theorem exec_checkpointSave (task : Nat) (gang : Nat) (s : State) : exec (.checkpointSave task gang) s = execCheckpointSave task gang s := rfl
@[simp] theorem exec_gangResume (task : Nat) (gang : Nat) (s : State) : exec (.gangResume task gang) s = execGangResume task gang s := rfl
@[simp] theorem exec_killdone (ctx : BitVec 12) (s : State) : exec (.killdone ctx) s = execKilldone ctx s := rfl
@[simp] theorem exec_runEnd (c : BitVec 4) (s : State) : exec (.runEnd c) s = execRunEnd c s := rfl
@[simp] theorem exec_farAccessHoldEnd (c : BitVec 4) (s : State) : exec (.farAccessHoldEnd c) s = execFarAccessHoldEnd c s := rfl
@[simp] theorem exec_pwaitResume (c : BitVec 4) (s : State) : exec (.pwaitResume c) s = execPwaitResume c s := rfl
@[simp] theorem exec_bwaitComplete (c : BitVec 4) (s : State) : exec (.bwaitComplete c) s = execBwaitComplete c s := rfl
@[simp] theorem exec_ttsyncRelease (c : BitVec 4) (s : State) : exec (.ttsyncRelease c) s = execTtsyncRelease c s := rfl
@[simp] theorem exec_lnchAnswer (c : BitVec 4) (s : State) : exec (.lnchAnswer c) s = execLnchAnswer c s := rfl
@[simp] theorem exec_amaxfComplete (c : BitVec 4) (s : State) : exec (.amaxfComplete c) s = execAmaxfComplete c s := rfl
@[simp] theorem exec_holdTimeout (c : BitVec 4) (s : State) : exec (.holdTimeout c) s = execHoldTimeout c s := rfl
@[simp] theorem exec_slipLimit (c : BitVec 4) (s : State) : exec (.slipLimit c) s = execSlipLimit c s := rfl
@[simp] theorem exec_slipEnd (c : BitVec 4) (s : State) : exec (.slipEnd c) s = execSlipEnd c s := rfl
@[simp] theorem exec_codeFetchArrival (c : BitVec 4) (s : State) : exec (.codeFetchArrival c) s = execCodeFetchArrival c s := rfl
@[simp] theorem exec_gatherEntryArrival (c : BitVec 4) (s : State) : exec (.gatherEntryArrival c) s = execGatherEntryArrival c s := rfl
@[simp] theorem exec_copyCommandStart (c : BitVec 4) (s : State) : exec (.copyCommandStart c) s = execCopyCommandStart c s := rfl
@[simp] theorem exec_copyCommandComplete (c : BitVec 4) (s : State) : exec (.copyCommandComplete c) s = execCopyCommandComplete c s := rfl
@[simp] theorem exec_bsetPerform (c : BitVec 4) (s : State) : exec (.bsetPerform c) s = execBsetPerform c s := rfl
@[simp] theorem exec_postedAtomPerform (c : BitVec 4) (s : State) : exec (.postedAtomPerform c) s = execPostedAtomPerform c s := rfl
@[simp] theorem exec_updateLineMerge (c : BitVec 4) (line : Nat) (s : State) : exec (.updateLineMerge c line) s = execUpdateLineMerge c line s := rfl
@[simp] theorem exec_windowWrite (c : BitVec 4) (s : State) : exec (.windowWrite c) s = execWindowWrite c s := rfl
@[simp] theorem exec_resultLanding (c : BitVec 4) (s : State) : exec (.resultLanding c) s = execResultLanding c s := rfl
@[simp] theorem exec_scratchpadPerform (c : BitVec 4) (s : State) : exec (.scratchpadPerform c) s = execScratchpadPerform c s := rfl
@[simp] theorem exec_planeReady (c : BitVec 4) (s : State) : exec (.planeReady c) s = execPlaneReady c s := rfl
@[simp] theorem exec_arrayColumnStep (c : BitVec 4) (s : State) : exec (.arrayColumnStep c) s = execArrayColumnStep c s := rfl
@[simp] theorem exec_drainComplete (c : BitVec 4) (s : State) : exec (.drainComplete c) s = execDrainComplete c s := rfl
@[simp] theorem exec_maintenanceRun (c : BitVec 4) (s : State) : exec (.maintenanceRun c) s = execMaintenanceRun c s := rfl
@[simp] theorem exec_tlbInvalidationComplete (ctx : BitVec 12) (lo : BitVec 57) (hi : BitVec 57) (s : State) : exec (.tlbInvalidationComplete ctx lo hi) s = execTlbInvalidationComplete ctx lo hi s := rfl
@[simp] theorem exec_throttleHoldEnd (c : BitVec 4) (s : State) : exec (.throttleHoldEnd c) s = execThrottleHoldEnd c s := rfl
@[simp] theorem exec_generatorReseed (c : BitVec 4) (unit : BitVec 9) (s : State) : exec (.generatorReseed c unit) s = execGeneratorReseed c unit s := rfl
@[simp] theorem exec_translationReplay (c : BitVec 4) (s : State) : exec (.translationReplay c) s = execTranslationReplay c s := rfl
@[simp] theorem exec_kill (ctx : BitVec 12) (s : State) : exec (.kill ctx) s = execKill ctx s := rfl
@[simp] theorem exec_droopDetect (c : BitVec 4) (s : State) : exec (.droopDetect c) s = execDroopDetect c s := rfl
@[simp] theorem exec_bozoakContextTurn (s : State) : exec (.bozoakContextTurn) s = execBozoakContextTurn s := rfl
@[simp] theorem exec_bzcmdStart (via : Via) (k : BitVec 4) (s : State) : exec (.bzcmdStart via k) s = execBzcmdStart via k s := rfl
@[simp] theorem exec_bzcmdStop (via : Via) (k : BitVec 4) (s : State) : exec (.bzcmdStop via k) s = execBzcmdStop via k s := rfl
@[simp] theorem exec_bzcmdClrcnt (via : Via) (k : BitVec 4) (s : State) : exec (.bzcmdClrcnt via k) s = execBzcmdClrcnt via k s := rfl
@[simp] theorem exec_bzbindWrite (k : BitVec 4) (v : BitVec 64) (s : State) : exec (.bzbindWrite k v) s = execBzbindWrite k v s := rfl
@[simp] theorem exec_signalArrival (k : BitVec 4) (idx : BitVec 6) (s : State) : exec (.signalArrival k idx) s = execSignalArrival k idx s := rfl
@[simp] theorem exec_hostLaunchDoorbell (w : BitVec 4) (tag : BitVec 32) (s : State) : exec (.hostLaunchDoorbell w tag) s = execHostLaunchDoorbell w tag s := rfl
@[simp] theorem exec_completionHeadWrite (w : BitVec 4) (v : BitVec 64) (s : State) : exec (.completionHeadWrite w v) s = execCompletionHeadWrite w v s := rfl
@[simp] theorem exec_supervisorRecord (rcd : BitVec 1024) (s : State) : exec (.supervisorRecord rcd) s = execSupervisorRecord rcd s := rfl
@[simp] theorem exec_forwardedFabricRecord (sender : BitVec 12) (rcd : BitVec 1024) (pos : BitVec 8) (s : State) : exec (.forwardedFabricRecord sender rcd pos) s = execForwardedFabricRecord sender rcd pos s := rfl
@[simp] theorem exec_launchDispatch (s : State) : exec (.launchDispatch) s = execLaunchDispatch s := rfl
@[simp] theorem exec_ageingPeriod (s : State) : exec (.ageingPeriod) s = execAgeingPeriod s := rfl
@[simp] theorem exec_remotePennantUpdate (c : BitVec 4) (addr : BitVec 26) (operand : BitVec 64) (s : State) : exec (.remotePennantUpdate c addr operand) s = execRemotePennantUpdate c addr operand s := rfl
@[simp] theorem exec_launchWindowBind (w : BitVec 4) (bound : Bool) (ctx : BitVec 12) (s : State) : exec (.launchWindowBind w bound ctx) s = execLaunchWindowBind w bound ctx s := rfl
@[simp] theorem exec_contextDescriptorWrite (ctx : BitVec 12) (v : BitVec 64) (s : State) : exec (.contextDescriptorWrite ctx v) s = execContextDescriptorWrite ctx v s := rfl
@[simp] theorem exec_peerWindowWrite (x0 : BitVec 4) (v : BitVec 128) (s : State) : exec (.peerWindowWrite x0 v) s = execPeerWindowWrite x0 v s := rfl
@[simp] theorem exec_peerInboundRequest (src : BitVec 12) (k : AccKind) (off : BitVec 39) (data : List Byte) (s : State) : exec (.peerInboundRequest src k off data) s = execPeerInboundRequest src k off data s := rfl
@[simp] theorem exec_snapshotDescriptorWrite (x0 : BitVec 4) (v : BitVec 512) (s : State) : exec (.snapshotDescriptorWrite x0 v) s = execSnapshotDescriptorWrite x0 v s := rfl
@[simp] theorem exec_snaproll (x0 : BitVec 4) (s : State) : exec (.snaproll x0) s = execSnaproll x0 s := rfl
@[simp] theorem exec_tlbInvalidation (ctx : BitVec 12) (lo : BitVec 57) (hi : BitVec 57) (s : State) : exec (.tlbInvalidation ctx lo hi) s = execTlbInvalidation ctx lo hi s := rfl
@[simp] theorem exec_pcapWrite (watts : BitVec 32) (s : State) : exec (.pcapWrite watts) s = execPcapWrite watts s := rfl
@[simp] theorem exec_temperatureLimitWrite (warn : BitVec 16) (crit : BitVec 16) (s : State) : exec (.temperatureLimitWrite warn crit) s = execTemperatureLimitWrite warn crit s := rfl
@[simp] theorem exec_columnEventLimitWrite (thr : BitVec 32) (seconds : BitVec 32) (s : State) : exec (.columnEventLimitWrite thr seconds) s = execColumnEventLimitWrite thr seconds s := rfl
@[simp] theorem exec_halt (c : BitVec 4) (s : State) : exec (.halt c) s = execHalt c s := rfl
@[simp] theorem exec_step (c : BitVec 4) (s : State) : exec (.step c) s = execStep c s := rfl
@[simp] theorem exec_resume (c : BitVec 4) (s : State) : exec (.resume c) s = execResume c s := rfl
@[simp] theorem exec_rdreg (c : BitVec 4) (r : DbgReg) (s : State) : exec (.rdreg c r) s = execRdreg c r s := rfl
@[simp] theorem exec_wrreg (c : BitVec 4) (r : DbgReg) (v : BitVec 2048) (s : State) : exec (.wrreg c r v) s = execWrreg c r v s := rfl
@[simp] theorem exec_rdimg (c : BitVec 4) (core : Option (BitVec 8)) (s : State) : exec (.rdimg c core) s = execRdimg c core s := rfl
@[simp] theorem exec_edimg (c : BitVec 4) (core : BitVec 8) (entry : Nat) (e : ImgEdit) (s : State) : exec (.edimg c core entry e) s = execEdimg c core entry e s := rfl
@[simp] theorem exec_handover (nonce : BitVec 256) (s : State) : exec (.handover nonce) s = execHandover nonce s := rfl
@[simp] theorem exec_handoverStepOverrun (s : State) : exec (.handoverStepOverrun) s = execHandoverStepOverrun s := rfl
@[simp] theorem exec_getVersion (s : State) : exec (.getVersion) s = execGetVersion s := rfl
@[simp] theorem exec_getCapabilities (s : State) : exec (.getCapabilities) s = execGetCapabilities s := rfl
@[simp] theorem exec_negotiateAlgorithms (offer : List Byte) (s : State) : exec (.negotiateAlgorithms offer) s = execNegotiateAlgorithms offer s := rfl
@[simp] theorem exec_getDigests (s : State) : exec (.getDigests) s = execGetDigests s := rfl
@[simp] theorem exec_getCertificate (slot : BitVec 8) (off : BitVec 16) (len : BitVec 16) (s : State) : exec (.getCertificate slot off len) s = execGetCertificate slot off len s := rfl
@[simp] theorem exec_challenge (slot : BitVec 8) (nonce : BitVec 256) (s : State) : exec (.challenge slot nonce) s = execChallenge slot nonce s := rfl
@[simp] theorem exec_getMeasurements (index : BitVec 8) (sign : Bool) (nonce : BitVec 256) (s : State) : exec (.getMeasurements index sign nonce) s = execGetMeasurements index sign nonce s := rfl
@[simp] theorem exec_keyExchange (exch : List Byte) (s : State) : exec (.keyExchange exch) s = execKeyExchange exch s := rfl
@[simp] theorem exec_finish (session : Nat) (mac : List Byte) (s : State) : exec (.finish session mac) s = execFinish session mac s := rfl
@[simp] theorem exec_endSession (session : Nat) (s : State) : exec (.endSession session) s = execEndSession session s := rfl
@[simp] theorem exec_ideKm (session : Nat) (port : BitVec 3) (link : Bool) (key : BitVec 256) (s : State) : exec (.ideKm session port link key) s = execIdeKm session port link key s := rfl
@[simp] theorem exec_powerWindow (s : State) : exec (.powerWindow) s = execPowerWindow s := rfl
@[simp] theorem exec_monitorSample (s : State) : exec (.monitorSample) s = execMonitorSample s := rfl
@[simp] theorem exec_patrolScrub (s : State) : exec (.patrolScrub) s = execPatrolScrub s := rfl
@[simp] theorem exec_linkFailure (link : BitVec 3) (s : State) : exec (.linkFailure link) s = execLinkFailure link s := rfl
@[simp] theorem exec_coldReset (s : State) : exec (.coldReset) s = execColdReset s := rfl
@[simp] theorem exec_warmReset (s : State) : exec (.warmReset) s = execWarmReset s := rfl
@[simp] theorem exec_registerWrite (off : BitVec 22) (v : BitVec 64) (s : State) : exec (.registerWrite off v) s = execRegisterWrite off v s := rfl
@[simp] theorem exec_noiseSourceFailure (c : BitVec 4) (s : State) : exec (.noiseSourceFailure c) s = execNoiseSourceFailure c s := rfl
@[simp] theorem exec_measurementSlotExtend (slot : BitVec 4) (digest : BitVec 256) (s : State) : exec (.measurementSlotExtend slot digest) s = execMeasurementSlotExtend slot digest s := rfl
@[simp] theorem exec_hostHdmAccess (k : AccKind) (addr : BitVec 39) (data : List Byte) (s : State) : exec (.hostHdmAccess k addr data) s = execHostHdmAccess k addr data s := rfl
@[simp] theorem exec_forwardedRecordRefusal (task : Nat) (s : State) : exec (.forwardedRecordRefusal task) s = execForwardedRecordRefusal task s := rfl
@[simp] theorem exec_nop (s : State) : exec (.nop) s = execNop s := rfl
@[simp] theorem exec_endl (s : State) : exec (.endl) s = execEndl s := rfl
@[simp] theorem exec_ttsync (s : State) : exec (.ttsync) s = execTtsync s := rfl
@[simp] theorem exec_rft (s : State) : exec (.rft) s = execRft s := rfl
@[simp] theorem exec_endRun (s : State) : exec (.endRun) s = execEndRun s := rfl
@[simp] theorem exec_yieldRun (s : State) : exec (.yieldRun) s = execYieldRun s := rfl
@[simp] theorem exec_bzEndl (s : State) : exec (.bzEndl) s = execBzEndl s := rfl
@[simp] theorem exec_bzEnd (s : State) : exec (.bzEnd) s = execBzEnd s := rfl
@[simp] theorem exec_bzNop (s : State) : exec (.bzNop) s = execBzNop s := rfl

end Sys2Proof.Machine
end

