-- ==== Sys2Proof/Laws/Memory.lean ====
section
/-!
SUPPORT. Sparse tables and memories: what a read gives after a write, and that every write keeps the canonical form.
-/
namespace Sys2Proof.Machine

variable {α : Type} [DecidableEq α] {d x : α}

theorem swfFrom_mono {lo lo' : Nat} {m : SMap α} (h : swfFrom d lo m = true) (hl : lo' ≤ lo) : swfFrom d lo' m = true := by
  cases m with
  | nil => rfl
  | cons e t =>
    simp only [swfFrom, Bool.and_eq_true, decide_eq_true_eq] at h ⊢
    exact ⟨⟨by omega, h.1.2⟩, h.2⟩

/-- A key below every listed one reads as the default. -/
theorem sget_low {lo a : Nat} {m : SMap α} (h : swfFrom d lo m = true) (ha : a < lo) : sget d a m = d := by
  cases m with
  | nil => rfl
  | cons e t =>
    simp only [swfFrom, Bool.and_eq_true, decide_eq_true_eq] at h
    have : a < e.1 := by omega
    simp [sget, this]

/-- Setting a key keeps the canonical form. -/
theorem sput_wfFrom {lo k : Nat} {m : SMap α} (h : swfFrom d lo m = true) (hk : lo ≤ k) : swfFrom d lo (sput d k x m) = true := by
  induction m generalizing lo with
  | nil => unfold sput; split <;> simp_all [swfFrom]
  | cons e t ih =>
    obtain ⟨i, y⟩ := e
    have h' := h
    simp only [swfFrom, Bool.and_eq_true, decide_eq_true_eq] at h
    unfold sput
    split
    · split
      · exact h'
      · simp only [swfFrom, Bool.and_eq_true, decide_eq_true_eq]
        exact ⟨⟨hk, by assumption⟩, ⟨by omega, h.1.2⟩, h.2⟩
    · split
      · split
        · exact swfFrom_mono h.2 (by omega)
        · simp only [swfFrom, Bool.and_eq_true, decide_eq_true_eq]
          exact ⟨⟨hk, by assumption⟩, swfFrom_mono h.2 (by omega)⟩
      · simp only [swfFrom, Bool.and_eq_true, decide_eq_true_eq]
        exact ⟨h.1, ih h.2 (by omega)⟩

theorem sput_wf (k : Nat) {m : SMap α} (h : swf d m = true) : swf d (sput d k x m) = true := sput_wfFrom h (Nat.zero_le k)

/-- A read after a write: the value at the key, and every other key as before. -/
theorem sget_sput_from {lo k a : Nat} {m : SMap α} (h : swfFrom d lo m = true) : sget d a (sput d k x m) = if a = k then x else sget d a m := by
  induction m generalizing lo with
  | nil =>
    unfold sput
    rcases Nat.lt_trichotomy a k with hk | hk | hk
    · have h1 : ¬ a = k := by omega
      split <;> simp [sget, hk, h1]
    · subst hk; split <;> simp_all [sget]
    · have h1 : ¬ a = k := by omega
      have h2 : ¬ a < k := by omega
      split <;> simp [sget, h1, h2]
  | cons e t ih =>
    obtain ⟨i, y⟩ := e
    simp only [swfFrom, Bool.and_eq_true, decide_eq_true_eq] at h
    have ih := ih h.2
    have low : ∀ b, b ≤ i → sget d b t = d := fun b hb => sget_low h.2 (by omega)
    unfold sput
    rcases Nat.lt_trichotomy a k with hk | hk | hk
    · have h1 : ¬ a = k := by omega
      have h2 : ¬ k < a := by omega
      simp only [h1, if_false] at ih ⊢
      rcases Nat.lt_trichotomy a i with hi | hi | hi
      · split
        · split <;> simp [sget, hk, hi]
        · split
          · split
            · simp only [sget, hi, if_true]; exact low a (by omega)
            · simp [sget, hk, hi]
          · simp [sget, hi]
      · subst hi
        have h3 : ¬ k < a := by omega
        have h4 : ¬ k = a := by omega
        simp [sget, h3, h4]
      · have h3 : ¬ k < i := by omega
        have h4 : ¬ k = i := by omega
        simp only [h3, h4, if_false, sget, ih]
    · subst hk
      rcases Nat.lt_trichotomy a i with hi | hi | hi
      · simp only [hi, if_true]
        split <;> simp_all [sget]
      · subst hi
        simp only [Nat.lt_irrefl, if_false, if_true]
        split
        · rename_i hx; rw [low a (Nat.le_refl a), hx]
        · simp [sget]
      · have h3 : ¬ a < i := by omega
        have h4 : ¬ a = i := by omega
        simp only [h3, h4, if_false, sget, ih]
    · have h1 : ¬ a = k := by omega
      have h2 : ¬ a < k := by omega
      simp only [h1, if_false] at ih ⊢
      split
      · split <;> simp [sget, h1, h2]
      · split
        · rename_i _ hki
          subst hki
          split <;> simp [sget, h1, h2]
        · simp only [sget, ih]
theorem sget_sput {k a : Nat} {m : SMap α} (h : swf d m = true) : sget d a (sput d k x m) = if a = k then x else sget d a m :=
  sget_sput_from h

/-- A table without the entry at its lowest possible key. -/
def restOf (k : Nat) : SMap α → SMap α
  | (i, y) :: t => if i = k then t else (i, y) :: t
  | [] => []
theorem soverlay_cons (k : Nat) (xs : List α) (m : SMap α) :
    soverlay d k (x :: xs) m = if x = d then soverlay d (k + 1) xs (restOf k m) else (k, x) :: soverlay d (k + 1) xs (restOf k m) := by
  cases m <;> rfl

theorem rest_of {k : Nat} {m : SMap α} (h : swfFrom d k m = true) :
    swfFrom d (k + 1) (restOf k m) = true ∧ ∀ a, k < a → sget d a (restOf k m) = sget d a m := by
  cases m with
  | nil => exact ⟨rfl, fun _ _ => rfl⟩
  | cons e t =>
    obtain ⟨i, y⟩ := e
    simp only [swfFrom, Bool.and_eq_true, decide_eq_true_eq] at h
    by_cases hi : i = k
    · subst hi
      simp only [restOf, if_true]
      refine ⟨swfFrom_mono h.2 (by omega), fun a ha => ?_⟩
      have h1 : ¬ a < i := by omega
      have h2 : ¬ a = i := by omega
      simp [sget, h1, h2]
    · simp only [restOf, hi, if_false]
      exact ⟨by simp only [swfFrom, Bool.and_eq_true, decide_eq_true_eq]; exact ⟨⟨by omega, h.1.2⟩, h.2⟩, fun _ _ => trivial⟩

/-- A run of values keeps the canonical form. -/
theorem soverlay_wfFrom {k : Nat} (xs : List α) {m : SMap α} (h : swfFrom d k m = true) : swfFrom d k (soverlay d k xs m) = true := by
  induction xs generalizing k m with
  | nil => simpa [soverlay] using h
  | cons x xs ih =>
    rw [soverlay_cons]
    split
    · exact swfFrom_mono (ih (rest_of h).1) (by omega)
    · simp only [swfFrom, Bool.and_eq_true, decide_eq_true_eq]
      exact ⟨⟨Nat.le_refl k, by assumption⟩, ih (rest_of h).1⟩

theorem sputs_wfFrom {lo k : Nat} (xs : List α) {m : SMap α} (h : swfFrom d lo m = true) (hk : lo ≤ k) : swfFrom d lo (sputs d k xs m) = true := by
  induction m generalizing lo with
  | nil => unfold sputs; exact swfFrom_mono (soverlay_wfFrom xs rfl) hk
  | cons e t ih =>
    obtain ⟨i, y⟩ := e
    unfold sputs
    simp only [swfFrom, Bool.and_eq_true, decide_eq_true_eq] at h
    split
    · simp only [swfFrom, Bool.and_eq_true, decide_eq_true_eq]
      exact ⟨h.1, ih h.2 (by omega)⟩
    · exact swfFrom_mono (soverlay_wfFrom xs (by simp only [swfFrom, Bool.and_eq_true, decide_eq_true_eq]; exact ⟨⟨by omega, h.1.2⟩, h.2⟩)) hk

theorem sputs_wf (k : Nat) (xs : List α) {m : SMap α} (h : swf d m = true) : swf d (sputs d k xs m) = true := sputs_wfFrom xs h (Nat.zero_le k)

/-- What an overlay reads. -/
theorem sget_soverlay {k a : Nat} (xs : List α) {m : SMap α} (h : swfFrom d k m = true) :
    sget d a (soverlay d k xs m) = if a < k then d else (xs[a - k]?).getD (sget d a m) := by
  induction xs generalizing k m with
  | nil =>
    simp only [soverlay, List.getElem?_nil, Option.getD_none]
    split
    · exact sget_low h (by omega)
    · rfl
  | cons x xs ih =>
    have hr := rest_of h
    rw [soverlay_cons]
    have ih := ih hr.1
    rcases Nat.lt_trichotomy a k with h1 | h1 | h1
    · split
      · rw [ih]; simp [h1, show a < k + 1 by omega]
      · simp [sget, h1]
    · subst h1
      split
      · rw [ih]; simp_all
      · simp [sget]
    · have h2 : ¬ a < k := by omega
      have h3 : ¬ a = k := by omega
      have h4 : ¬ a < k + 1 := by omega
      have h5 : a - k = a - (k + 1) + 1 := by omega
      rw [hr.2 a h1] at ih
      simp only [h4, if_false] at ih
      split
      · simp only [ih, h2, if_false, h5, List.getElem?_cons_succ]
      · simp only [sget, ih, h2, h3, if_false, h5, List.getElem?_cons_succ]

/-- A read after a run of writes. -/
theorem sget_sputs_from {lo k a : Nat} (xs : List α) {m : SMap α} (h : swfFrom d lo m = true) :
    sget d a (sputs d k xs m) = if a < k then sget d a m else (xs[a - k]?).getD (sget d a m) := by
  induction m generalizing lo with
  | nil =>
    unfold sputs
    rw [sget_soverlay (m := []) xs rfl]
    rfl
  | cons e t ih =>
    obtain ⟨i, y⟩ := e
    have h' := h
    simp only [swfFrom, Bool.and_eq_true, decide_eq_true_eq] at h
    unfold sputs
    split
    · simp only [sget]
      rw [ih h.2]
      split
      · have : a < k := by omega
        simp [this]
      · split
        · have : a < k := by omega
          simp [this]
        · rfl
    · rw [sget_soverlay xs (swfFrom_mono (lo := i) (by simp only [swfFrom, Bool.and_eq_true, decide_eq_true_eq]; exact ⟨⟨Nat.le_refl i, h.1.2⟩, h.2⟩) (by omega))]
      split
      · have : a < i := by omega
        simp [sget, this]
      · rfl
theorem sget_sputs {k a : Nat} (xs : List α) {m : SMap α} (h : swf d m = true) :
    sget d a (sputs d k xs m) = if a < k then sget d a m else (xs[a - k]?).getD (sget d a m) := sget_sputs_from xs h

/-! ### Bytes -/

variable {m : List Host.Cell}

theorem wrByte_wf (a : Nat) (b : Byte) (h : Memory.wf m = true) : Memory.wf (wrByte m a b) = true := sput_wf a h
theorem wrBytes_wf (a : Nat) (bs : List Byte) (h : Memory.wf m = true) : Memory.wf (wrBytes m a bs) = true := sputs_wf a bs h
theorem rdByte_wrByte (a i : Nat) (b : Byte) (h : Memory.wf m = true) : rdByte (wrByte m a b) i = if i = a then b else rdByte m i := sget_sput h
theorem rdByte_wrBytes (a i : Nat) (bs : List Byte) (h : Memory.wf m = true) :
    rdByte (wrBytes m a bs) i = if i < a then rdByte m i else (bs[i - a]?).getD (rdByte m i) := sget_sputs bs h

end Sys2Proof.Machine
end

