-- ==== Sys2Proof/Laws/Inv.lean ====
section
/-!
SUPPORT. Soundness is kept: one lemma for every operation over the state and every meaning.
-/
set_option linter.all false
namespace Sys2Proof.Machine

/-- The state a step answers, where it answers one, is sound. -/
def ResInv (r : Res) : Prop := match r with | .next t => t.Inv | _ => True


/-- The state a write leaves is sound. -/
def OkInv (p : Bool × State) : Prop := p.2.Inv

/-- Soundness by the parts of a state it looks at. -/
def KeyOk (m o : List Host.Cell) (c b w : Nat) (pcap : BitVec 32) (twarn tcrit : BitVec 16) (colthr colwin : BitVec 32) : Prop :=
  (Memory.wf m = true ∧ Memory.wf o = true) ∧ (c = 16 ∧ b = 16 ∧ w = 16) ∧
    ((400 ≤ pcap.toNat ∧ pcap.toNat ≤ 2600) ∧ (70 ≤ twarn.toNat ∧ twarn.toNat ≤ tcrit.toNat ∧ tcrit.toNat ≤ 115) ∧
      (1 ≤ colthr.toNat ∧ colthr.toNat ≤ 255) ∧ (1 ≤ colwin.toNat ∧ colwin.toNat ≤ 3600))

theorem inv_lit {x_ct : Nat} {x_clusters : List Cluster} {x_mem : List Host.Cell} {x_wtag : SMap (BitVec 24)} {x_poison : SMap Bool} {x_outer : List Host.Cell} {x_hostPut : SMap (Option Byte)} {x_rdc : List (List PeerLine)} {x_sidecar : SMap (List (BitVec 20))} {x_sideScope : SMap (BitVec 8)} {x_cvec : SMap (List (BitVec 20))} {x_ctxTab : SMap Word} {x_inWin : List (BitVec 128)} {x_snap : List (BitVec 512)} {x_stlb : List (Nat × BitVec 12 × Nat × BitVec 64 × Nat)} {x_tlbInv : List (BitVec 12 × BitVec 57 × BitVec 57)} {x_ageq : BitVec 32} {x_tasks : List Task} {x_nextTask : Nat} {x_reserve : Option (Nat × Nat × BitVec 16)} {x_reservePre : Bool} {x_maintWait : BitVec 16} {x_killing : List (BitVec 12)} {x_killCt : Nat} {x_wins : List LaunchWin} {x_fabBind : List (BitVec 12 × BitVec 12 × BitVec 12)} {x_bz : List BzCtx} {x_bzTurn : Nat} {x_barIn : SMap Nat} {x_deliveries : List Delivery} {x_nextDelivery : Nat} {x_pcap : BitVec 32} {x_grants : List Nat} {x_droopUsed : List Nat} {x_twarn : BitVec 16} {x_tcrit : BitVec 16} {x_sensors : List Nat} {x_volts : List Nat} {x_procs : List Nat} {x_sourceFail : List Bool} {x_errLog : List (BitVec 128)} {x_logOld : Nat} {x_colthr : BitVec 32} {x_colwin : BitVec 32} {x_spare : SMap (BitVec 32)} {x_svcOut : BitVec 4} {x_svcHot : Nat} {x_dieOut : BitVec 4} {x_linkBad : BitVec 8} {x_portUp : BitVec 8} {x_stackBad : BitVec 8} {x_errCount : Nat} {x_unitErrs : SMap Nat} {x_hand : Option Handover} {x_report : BitVec 8192} {x_meas : List (BitVec 256)} {x_ideKeys : List (Nat × BitVec 256)} {x_sessions : List Session} {x_nextSession : Nat} {x_ready : Bool} {x_failed : Bool} {x_inputs : List (Nat × Instr)} {x_outbox : List OutMsg} {x_agenda : List Turn} {x_cur : Cur} {x_fresh : Nat} :
    State.Inv ⟨x_ct, x_clusters, x_mem, x_wtag, x_poison, x_outer, x_hostPut, x_rdc, x_sidecar, x_sideScope, x_cvec, x_ctxTab, x_inWin, x_snap, x_stlb, x_tlbInv, x_ageq, x_tasks, x_nextTask, x_reserve, x_reservePre, x_maintWait, x_killing, x_killCt, x_wins, x_fabBind, x_bz, x_bzTurn, x_barIn, x_deliveries, x_nextDelivery, x_pcap, x_grants, x_droopUsed, x_twarn, x_tcrit, x_sensors, x_volts, x_procs, x_sourceFail, x_errLog, x_logOld, x_colthr, x_colwin, x_spare, x_svcOut, x_svcHot, x_dieOut, x_linkBad, x_portUp, x_stackBad, x_errCount, x_unitErrs, x_hand, x_report, x_meas, x_ideKeys, x_sessions, x_nextSession, x_ready, x_failed, x_inputs, x_outbox, x_agenda, x_cur, x_fresh⟩ = KeyOk x_mem x_outer x_clusters.length x_bz.length x_wins.length x_pcap x_twarn x_tcrit x_colthr x_colwin := rfl

theorem keyOk_mk {s : State} {m o : List Host.Cell} {c b w : Nat} (h : s.Inv) (hm : Memory.wf m = true) (ho : Memory.wf o = true)
    (hc : c = s.clusters.length) (hb : b = s.bz.length) (hw : w = s.wins.length) : KeyOk m o c b w s.pcap s.twarn s.tcrit s.colthr s.colwin :=
  ⟨⟨hm, ho⟩, ⟨hc.trans h.2.1.1, hb.trans h.2.1.2.1, hw.trans h.2.1.2.2⟩, h.2.2⟩
theorem inv_mem {s : State} (h : s.Inv) : Memory.wf s.mem = true := h.1.1
theorem inv_outer {s : State} (h : s.Inv) : Memory.wf s.outer = true := h.1.2

theorem inv_snd {α : Type} {p : α × State} {a : α} {s : State} (e : p = (a, s)) (h : p.2.Inv) : s.Inv := by subst e; exact h
theorem inv_fst {α : Type} {p : State × α} {a : α} {s : State} (e : p = (s, a)) (h : p.1.Inv) : s.Inv := by subst e; exact h
theorem ite_inv {p : Prop} [Decidable p] {a b : Res} (ha : ResInv a) (hb : ResInv b) : ResInv (if p then a else b) := by
  split
  · exact ha
  · exact hb
theorem next_inv {s : State} (h : s.Inv) : ResInv (.next s) := h
theorem foldl_inv {α : Type} {f : State → α → State} {l : List α} {s : State} (hf : ∀ s x, s.Inv → (f s x).Inv) (h : s.Inv) : (l.foldl f s).Inv := by
  induction l generalizing s with
  | nil => exact h
  | cons x l ih => exact ih (hf s x h)
theorem foldl_inv2 {α β : Type} {f : β × State → α → β × State} {l : List α} {a : β} {s : State}
    (hf : ∀ a s x, s.Inv → (f (a, s) x).2.Inv) (h : s.Inv) : (l.foldl f (a, s)).2.Inv := by
  induction l generalizing a s with
  | nil => exact h
  | cons x l ih => exact ih (hf a s x h)
theorem foldl_inv1 {α β : Type} {f : State × β → α → State × β} {l : List α} {a : β} {s : State}
    (hf : ∀ s a x, s.Inv → (f (s, a) x).1.Inv) (h : s.Inv) : (l.foldl f (s, a)).1.Inv := by
  induction l generalizing a s with
  | nil => exact h
  | cons x l ih => exact ih (hf s a x h)
theorem memWf_nil : Memory.wf [] = true := rfl
theorem guard_inv {s : State} {t : Option TrapInfo} {f : State → State} (hf : ∀ s, s.Inv → (f s).Inv) (h : s.Inv)
    (ht : ∀ x, (s.issueTrap s.cur.cl x).Inv) : ResInv (s.guard t f) := by
  unfold State.guard
  split
  · exact ht _
  · exact hf s h
theorem setCl_inv {s : State} (c : Nat) (k : Cluster) (h : s.Inv) : (s.setCl c k).Inv :=
  ⟨h.1, ⟨by simpa [State.setCl] using h.2.1.1, h.2.1.2⟩, h.2.2⟩
theorem onCl_inv {s : State} (c : Nat) (f : Cluster → Cluster) (h : s.Inv) : (s.onCl c f).Inv := setCl_inv _ _ h
theorem onMe_inv {s : State} (f : Cluster → Cluster) (h : s.Inv) : (s.onMe f).Inv := setCl_inv _ _ h

/-! ### Ops -/

theorem State.free_inv (s : State) (hI : s.Inv) : (State.free s).2.Inv := by
  unfold State.free
  try dsimp only
  repeat' (first | (with_reducible assumption) | (with_reducible rfl) | (with_reducible apply next_inv) | (with_reducible refine inv_snd (by assumption) ?_) | (with_reducible refine inv_fst (by assumption) ?_) | (with_reducible apply foldl_inv; intros) | (with_reducible apply foldl_inv2; intros) | (with_reducible apply foldl_inv1; intros) | (simp only [inv_lit]; with_reducible apply keyOk_mk) | (with_reducible apply wrByte_wf) | (with_reducible apply wrBytes_wf) | (with_reducible apply inv_mem) | (with_reducible apply inv_outer) | (exact memWf_nil) | (intro _) | (with_reducible refine (id ?_ : List.length _ = List.length _); simp; done) | split | dsimp only)

theorem State.freeIn_inv (s : State) (lo hi : Nat) (hI : s.Inv) : (s.freeIn lo hi).2.Inv := hI
theorem State.freeIn_range (s : State) (lo hi : Nat) (h : lo ≤ hi) : lo ≤ (s.freeIn lo hi).1 ∧ (s.freeIn lo hi).1 ≤ hi := by
  have := Nat.mod_lt s.free.1 (show 0 < hi + 1 - lo by omega)
  show lo ≤ lo + s.free.1 % (hi + 1 - lo) ∧ lo + s.free.1 % (hi + 1 - lo) ≤ hi
  omega

theorem State.freeNats_inv (s : State) (n lo hi : Nat) (hI : s.Inv) : (State.freeNats s n lo hi).2.Inv := by
  unfold State.freeNats
  try dsimp only
  repeat' (first | (with_reducible assumption) | (with_reducible rfl) | (with_reducible apply next_inv) | (with_reducible refine inv_snd (by assumption) ?_) | (with_reducible refine inv_fst (by assumption) ?_) | (with_reducible apply foldl_inv; intros) | (with_reducible apply foldl_inv2; intros) | (with_reducible apply foldl_inv1; intros) | (simp only [inv_lit]; with_reducible apply keyOk_mk) | (with_reducible apply wrByte_wf) | (with_reducible apply wrBytes_wf) | (with_reducible apply inv_mem) | (with_reducible apply inv_outer) | (exact memWf_nil) | (intro _) | (with_reducible refine (id ?_ : List.length _ = List.length _); simp; done) | split | dsimp only)

theorem State.freeBytes_inv (s : State) (n : Nat) (hI : s.Inv) : (State.freeBytes s n).2.Inv := by
  unfold State.freeBytes
  try dsimp only
  repeat' (first | (with_reducible assumption) | (with_reducible rfl) | (with_reducible apply next_inv) | (with_reducible refine inv_snd (by assumption) ?_) | (with_reducible refine inv_fst (by assumption) ?_) | (with_reducible apply foldl_inv; intros) | (with_reducible apply foldl_inv2; intros) | (with_reducible apply foldl_inv1; intros) | (simp only [inv_lit]; with_reducible apply keyOk_mk) | (with_reducible apply wrByte_wf) | (with_reducible apply wrBytes_wf) | (with_reducible apply inv_mem) | (with_reducible apply inv_outer) | (exact memWf_nil) | (intro _) | (with_reducible refine (id ?_ : List.length _ = List.length _); simp; done) | split | dsimp only)

theorem State.setMapBit_inv (s : State) (base i : Nat) (v : Bool) (hI : s.Inv) : (State.setMapBit s base i v).Inv := by
  unfold State.setMapBit
  try dsimp only
  repeat' (first | (with_reducible assumption) | (with_reducible rfl) | (with_reducible apply next_inv) | (with_reducible refine inv_snd (by assumption) ?_) | (with_reducible refine inv_fst (by assumption) ?_) | (with_reducible apply foldl_inv; intros) | (with_reducible apply foldl_inv2; intros) | (with_reducible apply foldl_inv1; intros) | (simp only [inv_lit]; with_reducible apply keyOk_mk) | (with_reducible apply wrByte_wf) | (with_reducible apply wrBytes_wf) | (with_reducible apply inv_mem) | (with_reducible apply inv_outer) | (exact memWf_nil) | (intro _) | (with_reducible refine (id ?_ : List.length _ = List.length _); simp; done) | split | dsimp only)

theorem State.copyRange_inv (s : State) (src dst n : Nat) (hI : s.Inv) : (State.copyRange s src dst n).Inv := by
  unfold State.copyRange
  try dsimp only
  repeat' (first | (with_reducible assumption) | (with_reducible rfl) | (with_reducible apply next_inv) | (with_reducible refine inv_snd (by assumption) ?_) | (with_reducible refine inv_fst (by assumption) ?_) | (with_reducible apply foldl_inv; intros) | (with_reducible apply foldl_inv2; intros) | (with_reducible apply foldl_inv1; intros) | (simp only [inv_lit]; with_reducible apply keyOk_mk) | (with_reducible apply wrByte_wf) | (with_reducible apply wrBytes_wf) | (with_reducible apply inv_mem) | (with_reducible apply inv_outer) | (exact memWf_nil) | (intro _) | (with_reducible refine (id ?_ : List.length _ = List.length _); simp; done) | split | dsimp only)

theorem State.writeAddr_inv (s : State) (a : Nat) (hI : s.Inv) : (State.writeAddr s a).1.Inv := by
  unfold State.writeAddr
  try dsimp only
  repeat' (first | (with_reducible assumption) | (with_reducible rfl) | (with_reducible apply next_inv) | (with_reducible refine inv_snd (by assumption) ?_) | (with_reducible refine inv_fst (by assumption) ?_) | (with_reducible apply foldl_inv; intros) | (with_reducible apply foldl_inv2; intros) | (with_reducible apply foldl_inv1; intros) | (simp only [inv_lit]; with_reducible apply keyOk_mk) | (with_reducible apply wrByte_wf) | (with_reducible apply wrBytes_wf) | (with_reducible apply inv_mem) | (with_reducible apply inv_outer) | (exact memWf_nil) | (with_reducible apply State.copyRange_inv) | (with_reducible apply State.setMapBit_inv) | (intro _) | (with_reducible refine (id ?_ : List.length _ = List.length _); simp; done) | split | dsimp only)

theorem State.setTag_inv (s : State) (a : Nat) (t : BitVec 24) (hI : s.Inv) : (State.setTag s a t).Inv := by
  unfold State.setTag
  try dsimp only
  repeat' (first | (with_reducible assumption) | (with_reducible rfl) | (with_reducible apply next_inv) | (with_reducible refine inv_snd (by assumption) ?_) | (with_reducible refine inv_fst (by assumption) ?_) | (with_reducible apply foldl_inv; intros) | (with_reducible apply foldl_inv2; intros) | (with_reducible apply foldl_inv1; intros) | (simp only [inv_lit]; with_reducible apply keyOk_mk) | (with_reducible apply wrByte_wf) | (with_reducible apply wrBytes_wf) | (with_reducible apply inv_mem) | (with_reducible apply inv_outer) | (exact memWf_nil) | (intro _) | (with_reducible refine (id ?_ : List.length _ = List.length _); simp; done) | split | dsimp only)

theorem State.hbmPut_inv (s : State) (a : Nat) (l : List Byte) (h : s.Inv) : (s.hbmPut a l).Inv := by
  induction l generalizing s a with
  | nil => exact h
  | cons b bs ih =>
    unfold State.hbmPut
    refine ih _ _ ?_
    split
    · exact h
    · exact ⟨⟨wrByte_wf _ _ (State.writeAddr_inv s a h).1.1, (State.writeAddr_inv s a h).1.2⟩, (State.writeAddr_inv s a h).2⟩

theorem State.tagAt_inv (s : State) (a : Nat) (t : BitVec 24) (hI : s.Inv) : (State.tagAt s a t).Inv := by
  unfold State.tagAt
  try dsimp only
  repeat' (first | (with_reducible assumption) | (with_reducible rfl) | (with_reducible apply next_inv) | (with_reducible refine inv_snd (by assumption) ?_) | (with_reducible refine inv_fst (by assumption) ?_) | (with_reducible apply foldl_inv; intros) | (with_reducible apply foldl_inv2; intros) | (with_reducible apply foldl_inv1; intros) | (simp only [inv_lit]; with_reducible apply keyOk_mk) | (with_reducible apply wrByte_wf) | (with_reducible apply wrBytes_wf) | (with_reducible apply inv_mem) | (with_reducible apply inv_outer) | (exact memWf_nil) | (with_reducible apply State.setTag_inv) | (with_reducible apply State.writeAddr_inv) | (intro _) | (with_reducible refine (id ?_ : List.length _ = List.length _); simp; done) | split | dsimp only)

theorem State.portLost_inv (s : State) (t : Target) (hI : s.Inv) : (State.portLost s t).2.Inv := by
  unfold State.portLost
  try dsimp only
  repeat' (first | (with_reducible assumption) | (with_reducible rfl) | (with_reducible apply next_inv) | (with_reducible refine inv_snd (by assumption) ?_) | (with_reducible refine inv_fst (by assumption) ?_) | (with_reducible apply foldl_inv; intros) | (with_reducible apply foldl_inv2; intros) | (with_reducible apply foldl_inv1; intros) | (simp only [inv_lit]; with_reducible apply keyOk_mk) | (with_reducible apply wrByte_wf) | (with_reducible apply wrBytes_wf) | (with_reducible apply inv_mem) | (with_reducible apply inv_outer) | (exact memWf_nil) | (with_reducible apply State.free_inv) | (intro _) | (with_reducible refine (id ?_ : List.length _ = List.length _); simp; done) | split | dsimp only)

theorem State.markZone_inv (s : State) (a n : Nat) (hI : s.Inv) : (State.markZone s a n).Inv := by
  unfold State.markZone
  try dsimp only
  repeat' (first | (with_reducible assumption) | (with_reducible rfl) | (with_reducible apply next_inv) | (with_reducible refine inv_snd (by assumption) ?_) | (with_reducible refine inv_fst (by assumption) ?_) | (with_reducible apply foldl_inv; intros) | (with_reducible apply foldl_inv2; intros) | (with_reducible apply foldl_inv1; intros) | (simp only [inv_lit]; with_reducible apply keyOk_mk) | (with_reducible apply wrByte_wf) | (with_reducible apply wrBytes_wf) | (with_reducible apply inv_mem) | (with_reducible apply inv_outer) | (exact memWf_nil) | (intro _) | (with_reducible refine (id ?_ : List.length _ = List.length _); simp; done) | split | dsimp only)

theorem State.mergeIn_inv (s : State) (c line : Nat) (hI : s.Inv) : (State.mergeIn s c line).Inv := by
  unfold State.mergeIn
  try dsimp only
  repeat' (first | (with_reducible assumption) | (with_reducible rfl) | (with_reducible apply next_inv) | (with_reducible refine inv_snd (by assumption) ?_) | (with_reducible refine inv_fst (by assumption) ?_) | (with_reducible apply foldl_inv; intros) | (with_reducible apply foldl_inv2; intros) | (with_reducible apply foldl_inv1; intros) | (simp only [inv_lit]; with_reducible apply keyOk_mk) | (with_reducible apply wrByte_wf) | (with_reducible apply wrBytes_wf) | (with_reducible apply inv_mem) | (with_reducible apply inv_outer) | (exact memWf_nil) | (with_reducible apply onCl_inv) | (with_reducible apply State.markZone_inv) | (with_reducible apply State.hbmPut_inv) | (with_reducible apply State.tagAt_inv) | (with_reducible apply State.free_inv) | (intro _) | (with_reducible refine (id ?_ : List.length _ = List.length _); simp; done) | split | dsimp only)

theorem State.recall_inv (s : State) (line : Nat) (hI : s.Inv) : (State.recall s line).Inv := by
  unfold State.recall
  try dsimp only
  repeat' (first | (with_reducible assumption) | (with_reducible rfl) | (with_reducible apply next_inv) | (with_reducible refine inv_snd (by assumption) ?_) | (with_reducible refine inv_fst (by assumption) ?_) | (with_reducible apply foldl_inv; intros) | (with_reducible apply foldl_inv2; intros) | (with_reducible apply foldl_inv1; intros) | (simp only [inv_lit]; with_reducible apply keyOk_mk) | (with_reducible apply wrByte_wf) | (with_reducible apply wrBytes_wf) | (with_reducible apply inv_mem) | (with_reducible apply inv_outer) | (exact memWf_nil) | (with_reducible apply State.free_inv) | (with_reducible apply State.mergeIn_inv) | (intro _) | (with_reducible refine (id ?_ : List.length _ = List.length _); simp; done) | split | dsimp only)

theorem State.mergeLine_inv (s : State) (c line : Nat) (hI : s.Inv) : (State.mergeLine s c line).Inv := by
  unfold State.mergeLine
  try dsimp only
  repeat' (first | (with_reducible assumption) | (with_reducible rfl) | (with_reducible apply next_inv) | (with_reducible refine inv_snd (by assumption) ?_) | (with_reducible refine inv_fst (by assumption) ?_) | (with_reducible apply foldl_inv; intros) | (with_reducible apply foldl_inv2; intros) | (with_reducible apply foldl_inv1; intros) | (simp only [inv_lit]; with_reducible apply keyOk_mk) | (with_reducible apply wrByte_wf) | (with_reducible apply wrBytes_wf) | (with_reducible apply inv_mem) | (with_reducible apply inv_outer) | (exact memWf_nil) | (with_reducible apply State.mergeIn_inv) | (intro _) | (with_reducible refine (id ?_ : List.length _ = List.length _); simp; done) | split | dsimp only)

theorem State.hbmRead_inv (s : State) (a n : Nat) (hI : s.Inv) : (State.hbmRead s a n).2.Inv := by
  unfold State.hbmRead
  try dsimp only
  repeat' (first | (with_reducible assumption) | (with_reducible rfl) | (with_reducible apply next_inv) | (with_reducible refine inv_snd (by assumption) ?_) | (with_reducible refine inv_fst (by assumption) ?_) | (with_reducible apply foldl_inv; intros) | (with_reducible apply foldl_inv2; intros) | (with_reducible apply foldl_inv1; intros) | (simp only [inv_lit]; with_reducible apply keyOk_mk) | (with_reducible apply wrByte_wf) | (with_reducible apply wrBytes_wf) | (with_reducible apply inv_mem) | (with_reducible apply inv_outer) | (exact memWf_nil) | (with_reducible apply State.recall_inv) | (intro _) | (with_reducible refine (id ?_ : List.length _ = List.length _); simp; done) | split | dsimp only)

theorem State.unpoison_inv (s : State) (a : Nat) (hI : s.Inv) : (State.unpoison s a).Inv := by
  unfold State.unpoison
  try dsimp only
  repeat' (first | (with_reducible assumption) | (with_reducible rfl) | (with_reducible apply next_inv) | (with_reducible refine inv_snd (by assumption) ?_) | (with_reducible refine inv_fst (by assumption) ?_) | (with_reducible apply foldl_inv; intros) | (with_reducible apply foldl_inv2; intros) | (with_reducible apply foldl_inv1; intros) | (simp only [inv_lit]; with_reducible apply keyOk_mk) | (with_reducible apply wrByte_wf) | (with_reducible apply wrBytes_wf) | (with_reducible apply inv_mem) | (with_reducible apply inv_outer) | (exact memWf_nil) | (with_reducible apply State.writeAddr_inv) | (with_reducible apply State.recall_inv) | (intro _) | (with_reducible refine (id ?_ : List.length _ = List.length _); simp; done) | split | dsimp only)

theorem State.hbmWrite_inv (s : State) (a : Nat) (bs : List Byte) (hI : s.Inv) : (State.hbmWrite s a bs).Inv := by
  unfold State.hbmWrite
  try dsimp only
  repeat' (first | (with_reducible assumption) | (with_reducible rfl) | (with_reducible apply next_inv) | (with_reducible refine inv_snd (by assumption) ?_) | (with_reducible refine inv_fst (by assumption) ?_) | (with_reducible apply foldl_inv; intros) | (with_reducible apply foldl_inv2; intros) | (with_reducible apply foldl_inv1; intros) | (simp only [inv_lit]; with_reducible apply keyOk_mk) | (with_reducible apply wrByte_wf) | (with_reducible apply wrBytes_wf) | (with_reducible apply inv_mem) | (with_reducible apply inv_outer) | (exact memWf_nil) | (with_reducible apply State.recall_inv) | (with_reducible apply State.markZone_inv) | (with_reducible apply State.hbmPut_inv) | (with_reducible apply State.unpoison_inv) | (intro _) | (with_reducible refine (id ?_ : List.length _ = List.length _); simp; done) | split | dsimp only)

theorem State.setRdc_inv (s : State) (die : Nat) (l : List PeerLine) (hI : s.Inv) : (State.setRdc s die l).Inv := by
  unfold State.setRdc
  try dsimp only
  repeat' (first | (with_reducible assumption) | (with_reducible rfl) | (with_reducible apply next_inv) | (with_reducible refine inv_snd (by assumption) ?_) | (with_reducible refine inv_fst (by assumption) ?_) | (with_reducible apply foldl_inv; intros) | (with_reducible apply foldl_inv2; intros) | (with_reducible apply foldl_inv1; intros) | (simp only [inv_lit]; with_reducible apply keyOk_mk) | (with_reducible apply wrByte_wf) | (with_reducible apply wrBytes_wf) | (with_reducible apply inv_mem) | (with_reducible apply inv_outer) | (exact memWf_nil) | (intro _) | (with_reducible refine (id ?_ : List.length _ = List.length _); simp; done) | split | dsimp only)

theorem State.onFar_inv (s : State) (c : Nat) (f : List PeerLine → List PeerLine) (hI : s.Inv) : (State.onFar s c f).Inv := by
  unfold State.onFar
  try dsimp only
  repeat' (first | (with_reducible assumption) | (with_reducible rfl) | (with_reducible apply next_inv) | (with_reducible refine inv_snd (by assumption) ?_) | (with_reducible refine inv_fst (by assumption) ?_) | (with_reducible apply foldl_inv; intros) | (with_reducible apply foldl_inv2; intros) | (with_reducible apply foldl_inv1; intros) | (simp only [inv_lit]; with_reducible apply keyOk_mk) | (with_reducible apply wrByte_wf) | (with_reducible apply wrBytes_wf) | (with_reducible apply inv_mem) | (with_reducible apply inv_outer) | (exact memWf_nil) | (with_reducible apply onCl_inv) | (intro _) | (with_reducible refine (id ?_ : List.length _ = List.length _); simp; done) | split | dsimp only)

theorem State.peerOut_inv (s : State) (pa : Nat) (bs : List Byte) (hI : s.Inv) : (State.peerOut s pa bs).Inv := by
  unfold State.peerOut
  try dsimp only
  repeat' (first | (with_reducible assumption) | (with_reducible rfl) | (with_reducible apply next_inv) | (with_reducible refine inv_snd (by assumption) ?_) | (with_reducible refine inv_fst (by assumption) ?_) | (with_reducible apply foldl_inv; intros) | (with_reducible apply foldl_inv2; intros) | (with_reducible apply foldl_inv1; intros) | (simp only [inv_lit]; with_reducible apply keyOk_mk) | (with_reducible apply wrByte_wf) | (with_reducible apply wrBytes_wf) | (with_reducible apply inv_mem) | (with_reducible apply inv_outer) | (exact memWf_nil) | (intro _) | (with_reducible refine (id ?_ : List.length _ = List.length _); simp; done) | split | dsimp only)

theorem State.writeBack_inv (die : Nat) (s : State) (l : PeerLine) (hI : s.Inv) : (State.writeBack die s l).Inv := by
  unfold State.writeBack
  try dsimp only
  repeat' (first | (with_reducible assumption) | (with_reducible rfl) | (with_reducible apply next_inv) | (with_reducible refine inv_snd (by assumption) ?_) | (with_reducible refine inv_fst (by assumption) ?_) | (with_reducible apply foldl_inv; intros) | (with_reducible apply foldl_inv2; intros) | (with_reducible apply foldl_inv1; intros) | (simp only [inv_lit]; with_reducible apply keyOk_mk) | (with_reducible apply wrByte_wf) | (with_reducible apply wrBytes_wf) | (with_reducible apply inv_mem) | (with_reducible apply inv_outer) | (exact memWf_nil) | (with_reducible apply State.peerOut_inv) | (intro _) | (with_reducible refine (id ?_ : List.length _ = List.length _); simp; done) | split | dsimp only)

theorem State.keepRdc_inv (s : State) (die : Nat) (x : PeerLine) (hI : s.Inv) : (State.keepRdc s die x).Inv := by
  unfold State.keepRdc
  try dsimp only
  repeat' (first | (with_reducible assumption) | (with_reducible rfl) | (with_reducible apply next_inv) | (with_reducible refine inv_snd (by assumption) ?_) | (with_reducible refine inv_fst (by assumption) ?_) | (with_reducible apply foldl_inv; intros) | (with_reducible apply foldl_inv2; intros) | (with_reducible apply foldl_inv1; intros) | (simp only [inv_lit]; with_reducible apply keyOk_mk) | (with_reducible apply wrByte_wf) | (with_reducible apply wrBytes_wf) | (with_reducible apply inv_mem) | (with_reducible apply inv_outer) | (exact memWf_nil) | (with_reducible apply State.writeBack_inv) | (with_reducible apply State.setRdc_inv) | (intro _) | (with_reducible refine (id ?_ : List.length _ = List.length _); simp; done) | split | dsimp only)

theorem State.ownLine_inv (s : State) (die : Nat) (x : PeerLine) (ctx : BitVec 12) (hI : s.Inv) : (State.ownLine s die x ctx).2.Inv := by
  unfold State.ownLine
  try dsimp only
  repeat' (first | (with_reducible assumption) | (with_reducible rfl) | (with_reducible apply next_inv) | (with_reducible refine inv_snd (by assumption) ?_) | (with_reducible refine inv_fst (by assumption) ?_) | (with_reducible apply foldl_inv; intros) | (with_reducible apply foldl_inv2; intros) | (with_reducible apply foldl_inv1; intros) | (simp only [inv_lit]; with_reducible apply keyOk_mk) | (with_reducible apply wrByte_wf) | (with_reducible apply wrBytes_wf) | (with_reducible apply inv_mem) | (with_reducible apply inv_outer) | (exact memWf_nil) | (with_reducible apply State.writeBack_inv) | (intro _) | (with_reducible refine (id ?_ : List.length _ = List.length _); simp; done) | split | dsimp only)

theorem State.toRdc_inv (die : Nat) (s : State) (l : PeerLine) (hI : s.Inv) : (State.toRdc die s l).Inv := by
  unfold State.toRdc
  try dsimp only
  repeat' (first | (with_reducible assumption) | (with_reducible rfl) | (with_reducible apply next_inv) | (with_reducible refine inv_snd (by assumption) ?_) | (with_reducible refine inv_fst (by assumption) ?_) | (with_reducible apply foldl_inv; intros) | (with_reducible apply foldl_inv2; intros) | (with_reducible apply foldl_inv1; intros) | (simp only [inv_lit]; with_reducible apply keyOk_mk) | (with_reducible apply wrByte_wf) | (with_reducible apply wrBytes_wf) | (with_reducible apply inv_mem) | (with_reducible apply inv_outer) | (exact memWf_nil) | (with_reducible apply State.ownLine_inv) | (with_reducible apply State.keepRdc_inv) | (intro _) | (with_reducible refine (id ?_ : List.length _ = List.length _); simp; done) | split | dsimp only)

theorem State.farRoom_inv (s : State) (c : Nat) (hI : s.Inv) : (State.farRoom s c).Inv := by
  unfold State.farRoom
  try dsimp only
  repeat' (first | (with_reducible assumption) | (with_reducible rfl) | (with_reducible apply next_inv) | (with_reducible refine inv_snd (by assumption) ?_) | (with_reducible refine inv_fst (by assumption) ?_) | (with_reducible apply foldl_inv; intros) | (with_reducible apply foldl_inv2; intros) | (with_reducible apply foldl_inv1; intros) | (simp only [inv_lit]; with_reducible apply keyOk_mk) | (with_reducible apply wrByte_wf) | (with_reducible apply wrBytes_wf) | (with_reducible apply inv_mem) | (with_reducible apply inv_outer) | (exact memWf_nil) | (with_reducible apply State.toRdc_inv) | (with_reducible apply State.onFar_inv) | (with_reducible apply State.mergeLine_inv) | (intro _) | (with_reducible refine (id ?_ : List.length _ = List.length _); simp; done) | split | dsimp only)

theorem State.keepFar_inv (s : State) (c : Nat) (x : PeerLine) (hI : s.Inv) : (State.keepFar s c x).Inv := by
  unfold State.keepFar
  try dsimp only
  repeat' (first | (with_reducible assumption) | (with_reducible rfl) | (with_reducible apply next_inv) | (with_reducible refine inv_snd (by assumption) ?_) | (with_reducible refine inv_fst (by assumption) ?_) | (with_reducible apply foldl_inv; intros) | (with_reducible apply foldl_inv2; intros) | (with_reducible apply foldl_inv1; intros) | (simp only [inv_lit]; with_reducible apply keyOk_mk) | (with_reducible apply wrByte_wf) | (with_reducible apply wrBytes_wf) | (with_reducible apply inv_mem) | (with_reducible apply inv_outer) | (exact memWf_nil) | (with_reducible apply State.farRoom_inv) | (with_reducible apply State.onFar_inv) | (intro _) | (with_reducible refine (id ?_ : List.length _ = List.length _); simp; done) | split | dsimp only)

theorem State.rdcFill_inv (s : State) (die line : Nat) (need : BitVec 128) (ctx : BitVec 12) (hI : s.Inv) : (State.rdcFill s die line need ctx).2.Inv := by
  unfold State.rdcFill
  try dsimp only
  repeat' (first | (with_reducible assumption) | (with_reducible rfl) | (with_reducible apply next_inv) | (with_reducible refine inv_snd (by assumption) ?_) | (with_reducible refine inv_fst (by assumption) ?_) | (with_reducible apply foldl_inv; intros) | (with_reducible apply foldl_inv2; intros) | (with_reducible apply foldl_inv1; intros) | (simp only [inv_lit]; with_reducible apply keyOk_mk) | (with_reducible apply wrByte_wf) | (with_reducible apply wrBytes_wf) | (with_reducible apply inv_mem) | (with_reducible apply inv_outer) | (exact memWf_nil) | (with_reducible apply State.keepRdc_inv) | (intro _) | (with_reducible refine (id ?_ : List.length _ = List.length _); simp; done) | split | dsimp only)

theorem State.farFill_inv (s : State) (c line : Nat) (need : BitVec 128) (ctx : BitVec 12) (hI : s.Inv) : (State.farFill s c line need ctx).2.Inv := by
  unfold State.farFill
  try dsimp only
  repeat' (first | (with_reducible assumption) | (with_reducible rfl) | (with_reducible apply next_inv) | (with_reducible refine inv_snd (by assumption) ?_) | (with_reducible refine inv_fst (by assumption) ?_) | (with_reducible apply foldl_inv; intros) | (with_reducible apply foldl_inv2; intros) | (with_reducible apply foldl_inv1; intros) | (simp only [inv_lit]; with_reducible apply keyOk_mk) | (with_reducible apply wrByte_wf) | (with_reducible apply wrBytes_wf) | (with_reducible apply inv_mem) | (with_reducible apply inv_outer) | (exact memWf_nil) | (with_reducible apply State.keepFar_inv) | (with_reducible apply State.rdcFill_inv) | (intro _) | (with_reducible refine (id ?_ : List.length _ = List.length _); simp; done) | split | dsimp only)

theorem State.farPeer_inv (s : State) (c pa n : Nat) (ctx : BitVec 12) (hI : s.Inv) : (State.farPeer s c pa n ctx).2.Inv := by
  unfold State.farPeer
  try dsimp only
  repeat' (first | (with_reducible assumption) | (with_reducible rfl) | (with_reducible apply next_inv) | (with_reducible refine inv_snd (by assumption) ?_) | (with_reducible refine inv_fst (by assumption) ?_) | (with_reducible apply foldl_inv; intros) | (with_reducible apply foldl_inv2; intros) | (with_reducible apply foldl_inv1; intros) | (simp only [inv_lit]; with_reducible apply keyOk_mk) | (with_reducible apply wrByte_wf) | (with_reducible apply wrBytes_wf) | (with_reducible apply inv_mem) | (with_reducible apply inv_outer) | (exact memWf_nil) | (with_reducible apply State.farFill_inv) | (intro _) | (with_reducible refine (id ?_ : List.length _ = List.length _); simp; done) | split | dsimp only)

theorem State.farPeerWrite_inv (s : State) (c pa : Nat) (bs : List (Option Byte)) (ctx : BitVec 12) (hI : s.Inv) : (State.farPeerWrite s c pa bs ctx).Inv := by
  unfold State.farPeerWrite
  try dsimp only
  repeat' (first | (with_reducible assumption) | (with_reducible rfl) | (with_reducible apply next_inv) | (with_reducible refine inv_snd (by assumption) ?_) | (with_reducible refine inv_fst (by assumption) ?_) | (with_reducible apply foldl_inv; intros) | (with_reducible apply foldl_inv2; intros) | (with_reducible apply foldl_inv1; intros) | (simp only [inv_lit]; with_reducible apply keyOk_mk) | (with_reducible apply wrByte_wf) | (with_reducible apply wrBytes_wf) | (with_reducible apply inv_mem) | (with_reducible apply inv_outer) | (exact memWf_nil) | (with_reducible apply State.ownLine_inv) | (with_reducible apply State.keepFar_inv) | (intro _) | (with_reducible refine (id ?_ : List.length _ = List.length _); simp; done) | split | dsimp only)

theorem State.expel_inv (s : State) (die line : Nat) (hI : s.Inv) : (State.expel s die line).Inv := by
  unfold State.expel
  try dsimp only
  repeat' (first | (with_reducible assumption) | (with_reducible rfl) | (with_reducible apply next_inv) | (with_reducible refine inv_snd (by assumption) ?_) | (with_reducible refine inv_fst (by assumption) ?_) | (with_reducible apply foldl_inv; intros) | (with_reducible apply foldl_inv2; intros) | (with_reducible apply foldl_inv1; intros) | (simp only [inv_lit]; with_reducible apply keyOk_mk) | (with_reducible apply wrByte_wf) | (with_reducible apply wrBytes_wf) | (with_reducible apply inv_mem) | (with_reducible apply inv_outer) | (exact memWf_nil) | (with_reducible apply State.writeBack_inv) | (with_reducible apply State.setRdc_inv) | (with_reducible apply State.onFar_inv) | (intro _) | (with_reducible refine (id ?_ : List.length _ = List.length _); simp; done) | split | dsimp only)

theorem State.dropPeer_inv (s : State) (die : Nat) (sc : Scope) (hI : s.Inv) : (State.dropPeer s die sc).Inv := by
  unfold State.dropPeer
  try dsimp only
  repeat' (first | (with_reducible assumption) | (with_reducible rfl) | (with_reducible apply next_inv) | (with_reducible refine inv_snd (by assumption) ?_) | (with_reducible refine inv_fst (by assumption) ?_) | (with_reducible apply foldl_inv; intros) | (with_reducible apply foldl_inv2; intros) | (with_reducible apply foldl_inv1; intros) | (simp only [inv_lit]; with_reducible apply keyOk_mk) | (with_reducible apply wrByte_wf) | (with_reducible apply wrBytes_wf) | (with_reducible apply inv_mem) | (with_reducible apply inv_outer) | (exact memWf_nil) | (with_reducible apply State.toRdc_inv) | (with_reducible apply State.onFar_inv) | (with_reducible apply State.writeBack_inv) | (with_reducible apply State.setRdc_inv) | (intro _) | (with_reducible refine (id ?_ : List.length _ = List.length _); simp; done) | split | dsimp only)

theorem State.flushPeer_inv (s : State) (c : Nat) (sc : Scope) (hI : s.Inv) : (State.flushPeer s c sc).Inv := by
  unfold State.flushPeer
  try dsimp only
  repeat' (first | (with_reducible assumption) | (with_reducible rfl) | (with_reducible apply next_inv) | (with_reducible refine inv_snd (by assumption) ?_) | (with_reducible refine inv_fst (by assumption) ?_) | (with_reducible apply foldl_inv; intros) | (with_reducible apply foldl_inv2; intros) | (with_reducible apply foldl_inv1; intros) | (simp only [inv_lit]; with_reducible apply keyOk_mk) | (with_reducible apply wrByte_wf) | (with_reducible apply wrBytes_wf) | (with_reducible apply inv_mem) | (with_reducible apply inv_outer) | (exact memWf_nil) | (with_reducible apply State.toRdc_inv) | (with_reducible apply State.onFar_inv) | (with_reducible apply State.writeBack_inv) | (with_reducible apply State.setRdc_inv) | (intro _) | (with_reducible refine (id ?_ : List.length _ = List.length _); simp; done) | split | dsimp only)

theorem State.killPeer_inv (s : State) (ctx : BitVec 12) (hI : s.Inv) : (State.killPeer s ctx).Inv := by
  unfold State.killPeer
  try dsimp only
  repeat' (first | (with_reducible assumption) | (with_reducible rfl) | (with_reducible apply next_inv) | (with_reducible refine inv_snd (by assumption) ?_) | (with_reducible refine inv_fst (by assumption) ?_) | (with_reducible apply foldl_inv; intros) | (with_reducible apply foldl_inv2; intros) | (with_reducible apply foldl_inv1; intros) | (simp only [inv_lit]; with_reducible apply keyOk_mk) | (with_reducible apply wrByte_wf) | (with_reducible apply wrBytes_wf) | (with_reducible apply inv_mem) | (with_reducible apply inv_outer) | (exact memWf_nil) | (intro _) | (with_reducible refine (id ?_ : List.length _ = List.length _); simp; done) | split | dsimp only)

theorem State.paRead_inv (s : State) (die : Nat) (t : Target) (n : Nat) (hI : s.Inv) : (State.paRead s die t n).2.Inv := by
  unfold State.paRead
  try dsimp only
  repeat' (first | (with_reducible assumption) | (with_reducible rfl) | (with_reducible apply next_inv) | (with_reducible refine inv_snd (by assumption) ?_) | (with_reducible refine inv_fst (by assumption) ?_) | (with_reducible apply foldl_inv; intros) | (with_reducible apply foldl_inv2; intros) | (with_reducible apply foldl_inv1; intros) | (simp only [inv_lit]; with_reducible apply keyOk_mk) | (with_reducible apply wrByte_wf) | (with_reducible apply wrBytes_wf) | (with_reducible apply inv_mem) | (with_reducible apply inv_outer) | (exact memWf_nil) | (with_reducible apply State.hbmRead_inv) | (with_reducible apply State.expel_inv) | (intro _) | (with_reducible refine (id ?_ : List.length _ = List.length _); simp; done) | split | dsimp only)

theorem State.windowWrite_inv (s : State) (c a : Nat) (bs : List Byte) (at' : Nat) (src : Nat × Nat) (cap : Option Nat) (hI : s.Inv) : (State.windowWrite s c a bs at' src cap).Inv := by
  unfold State.windowWrite
  try dsimp only
  repeat' (first | (with_reducible assumption) | (with_reducible rfl) | (with_reducible apply next_inv) | (with_reducible refine inv_snd (by assumption) ?_) | (with_reducible refine inv_fst (by assumption) ?_) | (with_reducible apply foldl_inv; intros) | (with_reducible apply foldl_inv2; intros) | (with_reducible apply foldl_inv1; intros) | (simp only [inv_lit]; with_reducible apply keyOk_mk) | (with_reducible apply wrByte_wf) | (with_reducible apply wrBytes_wf) | (with_reducible apply inv_mem) | (with_reducible apply inv_outer) | (exact memWf_nil) | (with_reducible apply onCl_inv) | (intro _) | (with_reducible refine (id ?_ : List.length _ = List.length _); simp; done) | split | dsimp only)

theorem State.paWrite_inv (s : State) (die : Nat) (t : Target) (bs : List Byte) (hI : s.Inv) : (State.paWrite s die t bs).Inv := by
  unfold State.paWrite
  try dsimp only
  repeat' (first | (with_reducible assumption) | (with_reducible rfl) | (with_reducible apply next_inv) | (with_reducible refine inv_snd (by assumption) ?_) | (with_reducible refine inv_fst (by assumption) ?_) | (with_reducible apply foldl_inv; intros) | (with_reducible apply foldl_inv2; intros) | (with_reducible apply foldl_inv1; intros) | (simp only [inv_lit]; with_reducible apply keyOk_mk) | (with_reducible apply wrByte_wf) | (with_reducible apply wrBytes_wf) | (with_reducible apply inv_mem) | (with_reducible apply inv_outer) | (exact memWf_nil) | (with_reducible apply State.hbmWrite_inv) | (with_reducible apply onCl_inv) | (with_reducible apply State.expel_inv) | (with_reducible apply State.peerOut_inv) | (intro _) | (with_reducible refine (id ?_ : List.length _ = List.length _); simp; done) | split | dsimp only)

theorem State.mergeAll_inv (s : State) (c : Nat) (hI : s.Inv) : (State.mergeAll s c).Inv := by
  unfold State.mergeAll
  try dsimp only
  repeat' (first | (with_reducible assumption) | (with_reducible rfl) | (with_reducible apply next_inv) | (with_reducible refine inv_snd (by assumption) ?_) | (with_reducible refine inv_fst (by assumption) ?_) | (with_reducible apply foldl_inv; intros) | (with_reducible apply foldl_inv2; intros) | (with_reducible apply foldl_inv1; intros) | (simp only [inv_lit]; with_reducible apply keyOk_mk) | (with_reducible apply wrByte_wf) | (with_reducible apply wrBytes_wf) | (with_reducible apply inv_mem) | (with_reducible apply inv_outer) | (exact memWf_nil) | (with_reducible apply State.mergeLine_inv) | (intro _) | (with_reducible refine (id ?_ : List.length _ = List.length _); simp; done) | split | dsimp only)

theorem State.walkRead_inv (s : State) (die a : Nat) (hI : s.Inv) : (State.walkRead s die a).2.Inv := by
  unfold State.walkRead
  try dsimp only
  repeat' (first | (with_reducible assumption) | (with_reducible rfl) | (with_reducible apply next_inv) | (with_reducible refine inv_snd (by assumption) ?_) | (with_reducible refine inv_fst (by assumption) ?_) | (with_reducible apply foldl_inv; intros) | (with_reducible apply foldl_inv2; intros) | (with_reducible apply foldl_inv1; intros) | (simp only [inv_lit]; with_reducible apply keyOk_mk) | (with_reducible apply wrByte_wf) | (with_reducible apply wrBytes_wf) | (with_reducible apply inv_mem) | (with_reducible apply inv_outer) | (exact memWf_nil) | (with_reducible apply State.paRead_inv) | (with_reducible apply State.portLost_inv) | (with_reducible apply State.free_inv) | (intro _) | (with_reducible refine (id ?_ : List.length _ = List.length _); simp; done) | split | dsimp only)

theorem walk_inv (die va choice fuel lvl base : Nat) (s : State) (hI : s.Inv) : (walk die va choice fuel lvl base s).2.Inv := by
  induction fuel generalizing lvl base s with
  | zero => exact hI
  | succ n ih =>
    unfold walk
    dsimp only
    generalize (if lvl = 3 then va / 2 ^ 39 % 2 ^ 18 else va / 2 ^ (12 + 9 * lvl) % 512) = idx
    have h1 := State.walkRead_inv s die (base + 8 * idx) hI
    revert h1
    generalize s.walkRead die (base + 8 * idx) = q
    obtain ⟨q | q, t⟩ := q
    · exact fun h => h
    · intro h1
      dsimp only
      split
      · exact h1
      · split
        · exact h1
        · split
          · split
            · have h2 := State.walkRead_inv t die (base + 8 * (idx / 16 * 16 + choice % 16)) h1
              revert h2
              generalize t.walkRead die (base + 8 * (idx / 16 * 16 + choice % 16)) = r
              obtain ⟨r | r, u⟩ := r <;> exact fun h => h
            · exact h1
          · exact ih _ _ _ h1

theorem State.tlbFill_inv (s : State) (c : Option Nat) (ctx : BitVec 12) (va : Nat) (e : BitVec 64) (b : Nat) (hI : s.Inv) : (State.tlbFill s c ctx va e b).Inv := by
  unfold State.tlbFill
  try dsimp only
  repeat' (first | (with_reducible assumption) | (with_reducible rfl) | (with_reducible apply next_inv) | (with_reducible refine inv_snd (by assumption) ?_) | (with_reducible refine inv_fst (by assumption) ?_) | (with_reducible apply foldl_inv; intros) | (with_reducible apply foldl_inv2; intros) | (with_reducible apply foldl_inv1; intros) | (simp only [inv_lit]; with_reducible apply keyOk_mk) | (with_reducible apply wrByte_wf) | (with_reducible apply wrBytes_wf) | (with_reducible apply inv_mem) | (with_reducible apply inv_outer) | (exact memWf_nil) | (with_reducible apply onCl_inv) | (intro _) | (with_reducible refine (id ?_ : List.length _ = List.length _); simp; done) | split | dsimp only)

theorem State.translate_inv (s : State) (c : Option Nat) (ctx : BitVec 12) (desc : BitVec 64) (va : Nat) (acc : Acc) (h : s.Inv) : (State.translate s c ctx desc va acc).2.Inv := by
  unfold State.translate
  generalize e : walk _ _ _ _ _ _ _ = q
  have hq : q.2.Inv := e ▸ walk_inv _ _ _ _ _ _ _ (State.free_inv s h)
  clear e
  split
  · exact h
  · cases s.tlbHit c ctx va with
    | some x => exact h
    | none =>
      obtain ⟨q | q, t⟩ := q
      · exact hq
      · exact State.tlbFill_inv _ _ _ _ _ _ hq

theorem State.tagWrite_inv (s : State) (c : Nat) (rde : Bool) (clk : BitVec 20) (lines : List Nat) (hI : s.Inv) : (State.tagWrite s c rde clk lines).Inv := by
  unfold State.tagWrite
  try dsimp only
  repeat' (first | (with_reducible assumption) | (with_reducible rfl) | (with_reducible apply next_inv) | (with_reducible refine inv_snd (by assumption) ?_) | (with_reducible refine inv_fst (by assumption) ?_) | (with_reducible apply foldl_inv; intros) | (with_reducible apply foldl_inv2; intros) | (with_reducible apply foldl_inv1; intros) | (simp only [inv_lit]; with_reducible apply keyOk_mk) | (with_reducible apply wrByte_wf) | (with_reducible apply wrBytes_wf) | (with_reducible apply inv_mem) | (with_reducible apply inv_outer) | (exact memWf_nil) | (with_reducible apply State.tagAt_inv) | (intro _) | (with_reducible refine (id ?_ : List.length _ = List.length _); simp; done) | split | dsimp only)

theorem State.vcStep_inv (s : State) (c : Nat) (hI : s.Inv) : (State.vcStep s c).Inv := by
  unfold State.vcStep
  try dsimp only
  repeat' (first | (with_reducible assumption) | (with_reducible rfl) | (with_reducible apply next_inv) | (with_reducible refine inv_snd (by assumption) ?_) | (with_reducible refine inv_fst (by assumption) ?_) | (with_reducible apply foldl_inv; intros) | (with_reducible apply foldl_inv2; intros) | (with_reducible apply foldl_inv1; intros) | (simp only [inv_lit]; with_reducible apply keyOk_mk) | (with_reducible apply wrByte_wf) | (with_reducible apply wrBytes_wf) | (with_reducible apply inv_mem) | (with_reducible apply inv_outer) | (exact memWf_nil) | (with_reducible apply onCl_inv) | (intro _) | (with_reducible refine (id ?_ : List.length _ = List.length _); simp; done) | split | dsimp only)

theorem State.vcRelease_inv (s : State) (c loc : Nat) (sc : Scope) (hI : s.Inv) : (State.vcRelease s c loc sc).Inv := by
  unfold State.vcRelease
  try dsimp only
  repeat' (first | (with_reducible assumption) | (with_reducible rfl) | (with_reducible apply next_inv) | (with_reducible refine inv_snd (by assumption) ?_) | (with_reducible refine inv_fst (by assumption) ?_) | (with_reducible apply foldl_inv; intros) | (with_reducible apply foldl_inv2; intros) | (with_reducible apply foldl_inv1; intros) | (simp only [inv_lit]; with_reducible apply keyOk_mk) | (with_reducible apply wrByte_wf) | (with_reducible apply wrBytes_wf) | (with_reducible apply inv_mem) | (with_reducible apply inv_outer) | (exact memWf_nil) | (with_reducible apply State.vcStep_inv) | (intro _) | (with_reducible refine (id ?_ : List.length _ = List.length _); simp; done) | split | dsimp only)

theorem State.vcTake_inv (s : State) (c : Nat) (v : List (BitVec 20)) (hI : s.Inv) : (State.vcTake s c v).Inv := by
  unfold State.vcTake
  try dsimp only
  repeat' (first | (with_reducible assumption) | (with_reducible rfl) | (with_reducible apply next_inv) | (with_reducible refine inv_snd (by assumption) ?_) | (with_reducible refine inv_fst (by assumption) ?_) | (with_reducible apply foldl_inv; intros) | (with_reducible apply foldl_inv2; intros) | (with_reducible apply foldl_inv1; intros) | (simp only [inv_lit]; with_reducible apply keyOk_mk) | (with_reducible apply wrByte_wf) | (with_reducible apply wrBytes_wf) | (with_reducible apply inv_mem) | (with_reducible apply inv_outer) | (exact memWf_nil) | (with_reducible apply onCl_inv) | (intro _) | (with_reducible refine (id ?_ : List.length _ = List.length _); simp; done) | split | dsimp only)

theorem State.vcAcquire_inv (s : State) (c loc : Nat) (sc : Scope) (hI : s.Inv) : (State.vcAcquire s c loc sc).Inv := by
  unfold State.vcAcquire
  try dsimp only
  repeat' (first | (with_reducible assumption) | (with_reducible rfl) | (with_reducible apply next_inv) | (with_reducible refine inv_snd (by assumption) ?_) | (with_reducible refine inv_fst (by assumption) ?_) | (with_reducible apply foldl_inv; intros) | (with_reducible apply foldl_inv2; intros) | (with_reducible apply foldl_inv1; intros) | (simp only [inv_lit]; with_reducible apply keyOk_mk) | (with_reducible apply wrByte_wf) | (with_reducible apply wrBytes_wf) | (with_reducible apply inv_mem) | (with_reducible apply inv_outer) | (exact memWf_nil) | (with_reducible apply State.vcTake_inv) | (intro _) | (with_reducible refine (id ?_ : List.length _ = List.length _); simp; done) | split | dsimp only)

theorem State.release_inv (s : State) (c : Nat) (sc : Scope) (hI : s.Inv) : (State.release s c sc).Inv := by
  unfold State.release
  try dsimp only
  repeat' (first | (with_reducible assumption) | (with_reducible rfl) | (with_reducible apply next_inv) | (with_reducible refine inv_snd (by assumption) ?_) | (with_reducible refine inv_fst (by assumption) ?_) | (with_reducible apply foldl_inv; intros) | (with_reducible apply foldl_inv2; intros) | (with_reducible apply foldl_inv1; intros) | (simp only [inv_lit]; with_reducible apply keyOk_mk) | (with_reducible apply wrByte_wf) | (with_reducible apply wrBytes_wf) | (with_reducible apply inv_mem) | (with_reducible apply inv_outer) | (exact memWf_nil) | (with_reducible apply State.mergeAll_inv) | (with_reducible apply State.flushPeer_inv) | (intro _) | (with_reducible refine (id ?_ : List.length _ = List.length _); simp; done) | split | dsimp only)

theorem State.acquire_inv (s : State) (c : Nat) (sc : Scope) (hI : s.Inv) : (State.acquire s c sc).Inv := by
  unfold State.acquire
  try dsimp only
  repeat' (first | (with_reducible assumption) | (with_reducible rfl) | (with_reducible apply next_inv) | (with_reducible refine inv_snd (by assumption) ?_) | (with_reducible refine inv_fst (by assumption) ?_) | (with_reducible apply foldl_inv; intros) | (with_reducible apply foldl_inv2; intros) | (with_reducible apply foldl_inv1; intros) | (simp only [inv_lit]; with_reducible apply keyOk_mk) | (with_reducible apply wrByte_wf) | (with_reducible apply wrBytes_wf) | (with_reducible apply inv_mem) | (with_reducible apply inv_outer) | (exact memWf_nil) | (with_reducible apply State.dropPeer_inv) | (intro _) | (with_reducible refine (id ?_ : List.length _ = List.length _); simp; done) | split | dsimp only)

theorem State.onTask_inv (s : State) (id : Nat) (f : Task → Task) (hI : s.Inv) : (State.onTask s id f).Inv := by
  unfold State.onTask
  try dsimp only
  repeat' (first | (with_reducible assumption) | (with_reducible rfl) | (with_reducible apply next_inv) | (with_reducible refine inv_snd (by assumption) ?_) | (with_reducible refine inv_fst (by assumption) ?_) | (with_reducible apply foldl_inv; intros) | (with_reducible apply foldl_inv2; intros) | (with_reducible apply foldl_inv1; intros) | (simp only [inv_lit]; with_reducible apply keyOk_mk) | (with_reducible apply wrByte_wf) | (with_reducible apply wrBytes_wf) | (with_reducible apply inv_mem) | (with_reducible apply inv_outer) | (exact memWf_nil) | (intro _) | (with_reducible refine (id ?_ : List.length _ = List.length _); simp; done) | split | dsimp only)

theorem State.finalStatus_inv (s : State) (t : Task) (code : Nat) (hI : s.Inv) : (State.finalStatus s t code).Inv := by
  unfold State.finalStatus
  try dsimp only
  repeat' (first | (with_reducible assumption) | (with_reducible rfl) | (with_reducible apply next_inv) | (with_reducible refine inv_snd (by assumption) ?_) | (with_reducible refine inv_fst (by assumption) ?_) | (with_reducible apply foldl_inv; intros) | (with_reducible apply foldl_inv2; intros) | (with_reducible apply foldl_inv1; intros) | (simp only [inv_lit]; with_reducible apply keyOk_mk) | (with_reducible apply wrByte_wf) | (with_reducible apply wrBytes_wf) | (with_reducible apply inv_mem) | (with_reducible apply inv_outer) | (exact memWf_nil) | (intro _) | (with_reducible refine (id ?_ : List.length _ = List.length _); simp; done) | split | dsimp only)

theorem State.checkFinal_inv (s : State) (id : Nat) (hI : s.Inv) : (State.checkFinal s id).Inv := by
  unfold State.checkFinal
  try dsimp only
  repeat' (first | (with_reducible assumption) | (with_reducible rfl) | (with_reducible apply next_inv) | (with_reducible refine inv_snd (by assumption) ?_) | (with_reducible refine inv_fst (by assumption) ?_) | (with_reducible apply foldl_inv; intros) | (with_reducible apply foldl_inv2; intros) | (with_reducible apply foldl_inv1; intros) | (simp only [inv_lit]; with_reducible apply keyOk_mk) | (with_reducible apply wrByte_wf) | (with_reducible apply wrBytes_wf) | (with_reducible apply inv_mem) | (with_reducible apply inv_outer) | (exact memWf_nil) | (with_reducible apply State.finalStatus_inv) | (intro _) | (with_reducible refine (id ?_ : List.length _ = List.length _); simp; done) | split | dsimp only)

theorem State.freeCluster_inv (s : State) (c : Nat) (hI : s.Inv) : (State.freeCluster s c).Inv := by
  unfold State.freeCluster
  try dsimp only
  repeat' (first | (with_reducible assumption) | (with_reducible rfl) | (with_reducible apply next_inv) | (with_reducible refine inv_snd (by assumption) ?_) | (with_reducible refine inv_fst (by assumption) ?_) | (with_reducible apply foldl_inv; intros) | (with_reducible apply foldl_inv2; intros) | (with_reducible apply foldl_inv1; intros) | (simp only [inv_lit]; with_reducible apply keyOk_mk) | (with_reducible apply wrByte_wf) | (with_reducible apply wrBytes_wf) | (with_reducible apply inv_mem) | (with_reducible apply inv_outer) | (exact memWf_nil) | (with_reducible apply onCl_inv) | (intro _) | (with_reducible refine (id ?_ : List.length _ = List.length _); simp; done) | split | dsimp only)

theorem State.endGang_inv (s : State) (task gang : Nat) (hI : s.Inv) : (State.endGang s task gang).Inv := by
  unfold State.endGang
  try dsimp only
  repeat' (first | (with_reducible assumption) | (with_reducible rfl) | (with_reducible apply next_inv) | (with_reducible refine inv_snd (by assumption) ?_) | (with_reducible refine inv_fst (by assumption) ?_) | (with_reducible apply foldl_inv; intros) | (with_reducible apply foldl_inv2; intros) | (with_reducible apply foldl_inv1; intros) | (simp only [inv_lit]; with_reducible apply keyOk_mk) | (with_reducible apply wrByte_wf) | (with_reducible apply wrBytes_wf) | (with_reducible apply inv_mem) | (with_reducible apply inv_outer) | (exact memWf_nil) | (with_reducible apply State.freeCluster_inv) | (with_reducible apply State.onTask_inv) | (intro _) | (with_reducible refine (id ?_ : List.length _ = List.length _); simp; done) | split | dsimp only)

theorem State.stopTask_inv (s : State) (id code : Nat) (hI : s.Inv) : (State.stopTask s id code).Inv := by
  unfold State.stopTask
  try dsimp only
  repeat' (first | (with_reducible assumption) | (with_reducible rfl) | (with_reducible apply next_inv) | (with_reducible refine inv_snd (by assumption) ?_) | (with_reducible refine inv_fst (by assumption) ?_) | (with_reducible apply foldl_inv; intros) | (with_reducible apply foldl_inv2; intros) | (with_reducible apply foldl_inv1; intros) | (simp only [inv_lit]; with_reducible apply keyOk_mk) | (with_reducible apply wrByte_wf) | (with_reducible apply wrBytes_wf) | (with_reducible apply inv_mem) | (with_reducible apply inv_outer) | (exact memWf_nil) | (with_reducible apply State.onTask_inv) | (with_reducible apply State.checkFinal_inv) | (intro _) | (with_reducible refine (id ?_ : List.length _ = List.length _); simp; done) | split | dsimp only)

theorem State.faultRun_inv (s : State) (c : Nat) (hI : s.Inv) : (State.faultRun s c).Inv := by
  unfold State.faultRun
  try dsimp only
  repeat' (first | (with_reducible assumption) | (with_reducible rfl) | (with_reducible apply next_inv) | (with_reducible refine inv_snd (by assumption) ?_) | (with_reducible refine inv_fst (by assumption) ?_) | (with_reducible apply foldl_inv; intros) | (with_reducible apply foldl_inv2; intros) | (with_reducible apply foldl_inv1; intros) | (simp only [inv_lit]; with_reducible apply keyOk_mk) | (with_reducible apply wrByte_wf) | (with_reducible apply wrBytes_wf) | (with_reducible apply inv_mem) | (with_reducible apply inv_outer) | (exact memWf_nil) | (with_reducible apply State.endGang_inv) | (with_reducible apply State.freeCluster_inv) | (with_reducible apply State.stopTask_inv) | (with_reducible apply State.free_inv) | (intro _) | (with_reducible refine (id ?_ : List.length _ = List.length _); simp; done) | split | dsimp only)

theorem State.takeTrap_inv (s : State) (c : Nat) (t : TrapInfo) (pc : BitVec 57) (dt : Nat) (opc : BitVec 57) (multi : Bool) (hI : s.Inv) : (State.takeTrap s c t pc dt opc multi).Inv := by
  unfold State.takeTrap
  try dsimp only
  repeat' (first | (with_reducible assumption) | (with_reducible rfl) | (with_reducible apply next_inv) | (with_reducible refine inv_snd (by assumption) ?_) | (with_reducible refine inv_fst (by assumption) ?_) | (with_reducible apply foldl_inv; intros) | (with_reducible apply foldl_inv2; intros) | (with_reducible apply foldl_inv1; intros) | (simp only [inv_lit]; with_reducible apply keyOk_mk) | (with_reducible apply wrByte_wf) | (with_reducible apply wrBytes_wf) | (with_reducible apply inv_mem) | (with_reducible apply inv_outer) | (exact memWf_nil) | (with_reducible apply setCl_inv) | (with_reducible apply State.free_inv) | (with_reducible apply State.faultRun_inv) | (with_reducible apply onCl_inv) | (intro _) | (with_reducible refine (id ?_ : List.length _ = List.length _); simp; done) | split | dsimp only)

theorem State.issueTrap_inv (s : State) (c : Nat) (t : TrapInfo) (hI : s.Inv) : (State.issueTrap s c t).Inv := by
  unfold State.issueTrap
  try dsimp only
  repeat' (first | (with_reducible assumption) | (with_reducible rfl) | (with_reducible apply next_inv) | (with_reducible refine inv_snd (by assumption) ?_) | (with_reducible refine inv_fst (by assumption) ?_) | (with_reducible apply foldl_inv; intros) | (with_reducible apply foldl_inv2; intros) | (with_reducible apply foldl_inv1; intros) | (simp only [inv_lit]; with_reducible apply keyOk_mk) | (with_reducible apply wrByte_wf) | (with_reducible apply wrBytes_wf) | (with_reducible apply inv_mem) | (with_reducible apply inv_outer) | (exact memWf_nil) | (with_reducible apply State.takeTrap_inv) | (intro _) | (with_reducible refine (id ?_ : List.length _ = List.length _); simp; done) | split | dsimp only)

/-! ### Operands -/

theorem State.viaHost_inv (s : State) (f : State → Res) (hf : ResInv (f s)) (hI : s.Inv) : ResInv (s.viaHost f) := ite_inv hf hI

/-! ### Far -/

theorem State.xlateN_inv (s : State) (c va n : Nat) (acc : Acc) (core : Option (BitVec 8)) (hI : s.Inv) : (State.xlateN s c va n acc core).2.Inv := by
  unfold State.xlateN
  try dsimp only
  repeat' (first | (with_reducible assumption) | (with_reducible rfl) | (with_reducible apply next_inv) | (with_reducible refine inv_snd (by assumption) ?_) | (with_reducible refine inv_fst (by assumption) ?_) | (with_reducible apply foldl_inv; intros) | (with_reducible apply foldl_inv2; intros) | (with_reducible apply foldl_inv1; intros) | (simp only [inv_lit]; with_reducible apply keyOk_mk) | (with_reducible apply wrByte_wf) | (with_reducible apply wrBytes_wf) | (with_reducible apply inv_mem) | (with_reducible apply inv_outer) | (exact memWf_nil) | (with_reducible apply State.translate_inv) | (with_reducible apply State.portLost_inv) | (with_reducible apply State.free_inv) | (intro _) | (with_reducible refine (id ?_ : List.length _ = List.length _); simp; done) | split | dsimp only)

theorem State.xlate_inv (s : State) (c va : Nat) (acc : Acc) (core : Option (BitVec 8)) (hI : s.Inv) : (State.xlate s c va acc core).2.Inv := by
  unfold State.xlate
  try dsimp only
  repeat' (first | (with_reducible assumption) | (with_reducible rfl) | (with_reducible apply next_inv) | (with_reducible refine inv_snd (by assumption) ?_) | (with_reducible refine inv_fst (by assumption) ?_) | (with_reducible apply foldl_inv; intros) | (with_reducible apply foldl_inv2; intros) | (with_reducible apply foldl_inv1; intros) | (simp only [inv_lit]; with_reducible apply keyOk_mk) | (with_reducible apply wrByte_wf) | (with_reducible apply wrBytes_wf) | (with_reducible apply inv_mem) | (with_reducible apply inv_outer) | (exact memWf_nil) | (with_reducible apply State.xlateN_inv) | (intro _) | (with_reducible refine (id ?_ : List.length _ = List.length _); simp; done) | split | dsimp only)

theorem State.farReadAt_inv (s : State) (c va n : Nat) (core : Option (BitVec 8)) (lanes : List Nat) (race : Bool) (hI : s.Inv) : (State.farReadAt s c va n core lanes race).2.Inv := by
  unfold State.farReadAt
  try dsimp only
  repeat' (first | (with_reducible assumption) | (with_reducible rfl) | (with_reducible apply next_inv) | (with_reducible refine inv_snd (by assumption) ?_) | (with_reducible refine inv_fst (by assumption) ?_) | (with_reducible apply foldl_inv; intros) | (with_reducible apply foldl_inv2; intros) | (with_reducible apply foldl_inv1; intros) | (simp only [inv_lit]; with_reducible apply keyOk_mk) | (with_reducible apply wrByte_wf) | (with_reducible apply wrBytes_wf) | (with_reducible apply inv_mem) | (with_reducible apply inv_outer) | (exact memWf_nil) | (with_reducible apply State.xlateN_inv) | (with_reducible apply State.recall_inv) | (with_reducible apply State.paRead_inv) | (with_reducible apply State.farPeer_inv) | (intro _) | (with_reducible refine (id ?_ : List.length _ = List.length _); simp; done) | split | dsimp only)

theorem State.farRead_inv (s : State) (c va n : Nat) (core : Option (BitVec 8)) (hI : s.Inv) : (State.farRead s c va n core).2.Inv := by
  unfold State.farRead
  try dsimp only
  repeat' (first | (with_reducible assumption) | (with_reducible rfl) | (with_reducible apply next_inv) | (with_reducible refine inv_snd (by assumption) ?_) | (with_reducible refine inv_fst (by assumption) ?_) | (with_reducible apply foldl_inv; intros) | (with_reducible apply foldl_inv2; intros) | (with_reducible apply foldl_inv1; intros) | (simp only [inv_lit]; with_reducible apply keyOk_mk) | (with_reducible apply wrByte_wf) | (with_reducible apply wrBytes_wf) | (with_reducible apply inv_mem) | (with_reducible apply inv_outer) | (exact memWf_nil) | (with_reducible apply State.farReadAt_inv) | (intro _) | (with_reducible refine (id ?_ : List.length _ = List.length _); simp; done) | split | dsimp only)

theorem State.putMasked_inv (s : State) (die : Nat) (t : Target) (bs : List (Option Byte)) (hI : s.Inv) : (State.putMasked s die t bs).Inv := by
  unfold State.putMasked
  try dsimp only
  repeat' (first | (with_reducible assumption) | (with_reducible rfl) | (with_reducible apply next_inv) | (with_reducible refine inv_snd (by assumption) ?_) | (with_reducible refine inv_fst (by assumption) ?_) | (with_reducible apply foldl_inv; intros) | (with_reducible apply foldl_inv2; intros) | (with_reducible apply foldl_inv1; intros) | (simp only [inv_lit]; with_reducible apply keyOk_mk) | (with_reducible apply wrByte_wf) | (with_reducible apply wrBytes_wf) | (with_reducible apply inv_mem) | (with_reducible apply inv_outer) | (exact memWf_nil) | (with_reducible apply State.paWrite_inv) | (intro _) | (with_reducible refine (id ?_ : List.length _ = List.length _); simp; done) | split | dsimp only)

theorem State.farWrite_inv (s : State) (c va : Nat) (bs : List (Option Byte)) (core : Option (BitVec 8)) (hI : s.Inv) : (State.farWrite s c va bs core).2.Inv := by
  unfold State.farWrite
  try dsimp only
  repeat' (first | (with_reducible assumption) | (with_reducible rfl) | (with_reducible apply next_inv) | (with_reducible refine inv_snd (by assumption) ?_) | (with_reducible refine inv_fst (by assumption) ?_) | (with_reducible apply foldl_inv; intros) | (with_reducible apply foldl_inv2; intros) | (with_reducible apply foldl_inv1; intros) | (simp only [inv_lit]; with_reducible apply keyOk_mk) | (with_reducible apply wrByte_wf) | (with_reducible apply wrBytes_wf) | (with_reducible apply inv_mem) | (with_reducible apply inv_outer) | (exact memWf_nil) | (with_reducible apply State.xlateN_inv) | (with_reducible apply State.recall_inv) | (with_reducible apply State.putMasked_inv) | (with_reducible apply State.tagWrite_inv) | (with_reducible apply State.farPeerWrite_inv) | (intro _) | (with_reducible refine (id ?_ : List.length _ = List.length _); simp; done) | split | dsimp only)

theorem State.penUpdate_inv (s : State) (c a : Nat) (operand : Word) (vc : List (BitVec 20)) (hI : s.Inv) : (State.penUpdate s c a operand vc).Inv := by
  unfold State.penUpdate
  try dsimp only
  repeat' (first | (with_reducible assumption) | (with_reducible rfl) | (with_reducible apply next_inv) | (with_reducible refine inv_snd (by assumption) ?_) | (with_reducible refine inv_fst (by assumption) ?_) | (with_reducible apply foldl_inv; intros) | (with_reducible apply foldl_inv2; intros) | (with_reducible apply foldl_inv1; intros) | (simp only [inv_lit]; with_reducible apply keyOk_mk) | (with_reducible apply wrByte_wf) | (with_reducible apply wrBytes_wf) | (with_reducible apply inv_mem) | (with_reducible apply inv_outer) | (exact memWf_nil) | (with_reducible apply onCl_inv) | (intro _) | (with_reducible refine (id ?_ : List.length _ = List.length _); simp; done) | split | dsimp only)

theorem State.copyMap_inv (s : State) (src dst pages : Nat) (hI : s.Inv) : (State.copyMap s src dst pages).Inv := by
  unfold State.copyMap
  try dsimp only
  repeat' (first | (with_reducible assumption) | (with_reducible rfl) | (with_reducible apply next_inv) | (with_reducible refine inv_snd (by assumption) ?_) | (with_reducible refine inv_fst (by assumption) ?_) | (with_reducible apply foldl_inv; intros) | (with_reducible apply foldl_inv2; intros) | (with_reducible apply foldl_inv1; intros) | (simp only [inv_lit]; with_reducible apply keyOk_mk) | (with_reducible apply wrByte_wf) | (with_reducible apply wrBytes_wf) | (with_reducible apply inv_mem) | (with_reducible apply inv_outer) | (exact memWf_nil) | (intro _) | (with_reducible refine (id ?_ : List.length _ = List.length _); simp; done) | split | dsimp only)

theorem State.rootCas_inv (s : State) (r : Snap) (ord : MOrder) (cmp new : Word) (hI : s.Inv) : (State.rootCas s r ord cmp new).2.Inv := by
  unfold State.rootCas
  try dsimp only
  repeat' (first | (with_reducible assumption) | (with_reducible rfl) | (with_reducible apply next_inv) | (with_reducible refine inv_snd (by assumption) ?_) | (with_reducible refine inv_fst (by assumption) ?_) | (with_reducible apply foldl_inv; intros) | (with_reducible apply foldl_inv2; intros) | (with_reducible apply foldl_inv1; intros) | (simp only [inv_lit]; with_reducible apply keyOk_mk) | (with_reducible apply wrByte_wf) | (with_reducible apply wrBytes_wf) | (with_reducible apply inv_mem) | (with_reducible apply inv_outer) | (exact memWf_nil) | (with_reducible apply State.setTag_inv) | (with_reducible apply State.copyMap_inv) | (intro _) | (with_reducible refine (id ?_ : List.length _ = List.length _); simp; done) | split | dsimp only)

theorem State.atomTarget_inv (s : State) (die : Nat) (t : Target) (op : AtomOp) (sgn w64 : Bool) (ord : MOrder) (opnd cmp : Word) (rtn : Bool)
    (vc : List (BitVec 20)) (hI : s.Inv) : (State.atomTarget s die t op sgn w64 ord opnd cmp rtn vc).2.Inv := by
  unfold State.atomTarget
  try dsimp only
  repeat' (first | (with_reducible assumption) | (with_reducible rfl) | (with_reducible apply next_inv) | (with_reducible refine inv_snd (by assumption) ?_) | (with_reducible refine inv_fst (by assumption) ?_) | (with_reducible apply foldl_inv; intros) | (with_reducible apply foldl_inv2; intros) | (with_reducible apply foldl_inv1; intros) | (simp only [inv_lit]; with_reducible apply keyOk_mk) | (with_reducible apply wrByte_wf) | (with_reducible apply wrBytes_wf) | (with_reducible apply inv_mem) | (with_reducible apply inv_outer) | (exact memWf_nil) | (with_reducible apply State.penUpdate_inv) | (with_reducible apply State.hbmRead_inv) | (with_reducible apply State.rootCas_inv) | (with_reducible apply State.hbmWrite_inv) | (with_reducible apply State.tagAt_inv) | (with_reducible apply State.paRead_inv) | (with_reducible apply State.paWrite_inv) | (intro _) | (with_reducible refine (id ?_ : List.length _ = List.length _); simp; done) | split | dsimp only)

theorem State.releaseAt_inv (s : State) (c : Nat) (sc : Scope) (t : Target) (hI : s.Inv) : (State.releaseAt s c sc t).Inv := by
  unfold State.releaseAt
  try dsimp only
  repeat' (first | (with_reducible assumption) | (with_reducible rfl) | (with_reducible apply next_inv) | (with_reducible refine inv_snd (by assumption) ?_) | (with_reducible refine inv_fst (by assumption) ?_) | (with_reducible apply foldl_inv; intros) | (with_reducible apply foldl_inv2; intros) | (with_reducible apply foldl_inv1; intros) | (simp only [inv_lit]; with_reducible apply keyOk_mk) | (with_reducible apply wrByte_wf) | (with_reducible apply wrBytes_wf) | (with_reducible apply inv_mem) | (with_reducible apply inv_outer) | (exact memWf_nil) | (with_reducible apply State.release_inv) | (with_reducible apply State.vcRelease_inv) | (with_reducible apply State.acquire_inv) | (intro _) | (with_reducible refine (id ?_ : List.length _ = List.length _); simp; done) | split | dsimp only)

theorem State.acquireAt_inv (s : State) (c : Nat) (sc : Scope) (t : Target) (hI : s.Inv) : (State.acquireAt s c sc t).Inv := by
  unfold State.acquireAt
  try dsimp only
  repeat' (first | (with_reducible assumption) | (with_reducible rfl) | (with_reducible apply next_inv) | (with_reducible refine inv_snd (by assumption) ?_) | (with_reducible refine inv_fst (by assumption) ?_) | (with_reducible apply foldl_inv; intros) | (with_reducible apply foldl_inv2; intros) | (with_reducible apply foldl_inv1; intros) | (simp only [inv_lit]; with_reducible apply keyOk_mk) | (with_reducible apply wrByte_wf) | (with_reducible apply wrBytes_wf) | (with_reducible apply inv_mem) | (with_reducible apply inv_outer) | (exact memWf_nil) | (with_reducible apply State.acquire_inv) | (with_reducible apply State.vcAcquire_inv) | (intro _) | (with_reducible refine (id ?_ : List.length _ = List.length _); simp; done) | split | dsimp only)

theorem State.fenceAcq_inv (s : State) (c : Nat) (sc : Scope) (hI : s.Inv) : (State.fenceAcq s c sc).Inv := by
  unfold State.fenceAcq
  try dsimp only
  repeat' (first | (with_reducible assumption) | (with_reducible rfl) | (with_reducible apply next_inv) | (with_reducible refine inv_snd (by assumption) ?_) | (with_reducible refine inv_fst (by assumption) ?_) | (with_reducible apply foldl_inv; intros) | (with_reducible apply foldl_inv2; intros) | (with_reducible apply foldl_inv1; intros) | (simp only [inv_lit]; with_reducible apply keyOk_mk) | (with_reducible apply wrByte_wf) | (with_reducible apply wrBytes_wf) | (with_reducible apply inv_mem) | (with_reducible apply inv_outer) | (exact memWf_nil) | (with_reducible apply State.vcTake_inv) | (with_reducible apply State.acquire_inv) | (with_reducible apply onCl_inv) | (with_reducible apply State.release_inv) | (intro _) | (with_reducible refine (id ?_ : List.length _ = List.length _); simp; done) | split | dsimp only)

theorem State.settle_inv (s : State) (c n : Nat) (hI : s.Inv) : (State.settle s c n).Inv := by
  unfold State.settle
  try dsimp only
  repeat' (first | (with_reducible assumption) | (with_reducible rfl) | (with_reducible apply next_inv) | (with_reducible refine inv_snd (by assumption) ?_) | (with_reducible refine inv_fst (by assumption) ?_) | (with_reducible apply foldl_inv; intros) | (with_reducible apply foldl_inv2; intros) | (with_reducible apply foldl_inv1; intros) | (simp only [inv_lit]; with_reducible apply keyOk_mk) | (with_reducible apply wrByte_wf) | (with_reducible apply wrBytes_wf) | (with_reducible apply inv_mem) | (with_reducible apply inv_outer) | (exact memWf_nil) | (with_reducible apply State.release_inv) | (with_reducible apply onCl_inv) | (with_reducible apply State.fenceAcq_inv) | (intro _) | (with_reducible refine (id ?_ : List.length _ = List.length _); simp; done) | split | dsimp only)

theorem State.fenceAt_inv (s : State) (c : Nat) (fence : Option Scope) (t : Target) (hI : s.Inv) : (State.fenceAt s c fence t).Inv := by
  unfold State.fenceAt
  try dsimp only
  repeat' (first | (with_reducible assumption) | (with_reducible rfl) | (with_reducible apply next_inv) | (with_reducible refine inv_snd (by assumption) ?_) | (with_reducible refine inv_fst (by assumption) ?_) | (with_reducible apply foldl_inv; intros) | (with_reducible apply foldl_inv2; intros) | (with_reducible apply foldl_inv1; intros) | (simp only [inv_lit]; with_reducible apply keyOk_mk) | (with_reducible apply wrByte_wf) | (with_reducible apply wrBytes_wf) | (with_reducible apply inv_mem) | (with_reducible apply inv_outer) | (exact memWf_nil) | (with_reducible apply State.releaseAt_inv) | (with_reducible apply State.acquire_inv) | (intro _) | (with_reducible refine (id ?_ : List.length _ = List.length _); simp; done) | split | dsimp only)

theorem State.noteRead_inv (s : State) (c : Nat) (t : Target) (hI : s.Inv) : (State.noteRead s c t).Inv := by
  unfold State.noteRead
  try dsimp only
  repeat' (first | (with_reducible assumption) | (with_reducible rfl) | (with_reducible apply next_inv) | (with_reducible refine inv_snd (by assumption) ?_) | (with_reducible refine inv_fst (by assumption) ?_) | (with_reducible apply foldl_inv; intros) | (with_reducible apply foldl_inv2; intros) | (with_reducible apply foldl_inv1; intros) | (simp only [inv_lit]; with_reducible apply keyOk_mk) | (with_reducible apply wrByte_wf) | (with_reducible apply wrBytes_wf) | (with_reducible apply inv_mem) | (with_reducible apply inv_outer) | (exact memWf_nil) | (with_reducible apply onCl_inv) | (intro _) | (with_reducible refine (id ?_ : List.length _ = List.length _); simp; done) | split | dsimp only)

theorem State.atomAt_inv (s : State) (c va : Nat) (op : AtomOp) (sgn w64 : Bool) (ord : MOrder) (sc : Scope) (opnd cmp : Word) (rtn : Bool)
    (fence : Option Scope) (hI : s.Inv) : (State.atomAt s c va op sgn w64 ord sc opnd cmp rtn fence).2.Inv := by
  unfold State.atomAt
  try dsimp only
  repeat' (first | (with_reducible assumption) | (with_reducible rfl) | (with_reducible apply next_inv) | (with_reducible refine inv_snd (by assumption) ?_) | (with_reducible refine inv_fst (by assumption) ?_) | (with_reducible apply foldl_inv; intros) | (with_reducible apply foldl_inv2; intros) | (with_reducible apply foldl_inv1; intros) | (simp only [inv_lit]; with_reducible apply keyOk_mk) | (with_reducible apply wrByte_wf) | (with_reducible apply wrBytes_wf) | (with_reducible apply inv_mem) | (with_reducible apply inv_outer) | (exact memWf_nil) | (with_reducible apply State.xlate_inv) | (with_reducible apply State.fenceAt_inv) | (with_reducible apply State.releaseAt_inv) | (with_reducible apply State.atomTarget_inv) | (with_reducible apply State.acquireAt_inv) | (with_reducible apply State.noteRead_inv) | (intro _) | (with_reducible refine (id ?_ : List.length _ = List.length _); simp; done) | split | dsimp only)

theorem State.updAt_inv (s : State) (c a : Nat) (op : UpdOp) (ty : UpdTy) (v : Word) (hI : s.Inv) : (State.updAt s c a op ty v).Inv := by
  unfold State.updAt
  try dsimp only
  repeat' (first | (with_reducible assumption) | (with_reducible rfl) | (with_reducible apply next_inv) | (with_reducible refine inv_snd (by assumption) ?_) | (with_reducible refine inv_fst (by assumption) ?_) | (with_reducible apply foldl_inv; intros) | (with_reducible apply foldl_inv2; intros) | (with_reducible apply foldl_inv1; intros) | (simp only [inv_lit]; with_reducible apply keyOk_mk) | (with_reducible apply wrByte_wf) | (with_reducible apply wrBytes_wf) | (with_reducible apply inv_mem) | (with_reducible apply inv_outer) | (exact memWf_nil) | (with_reducible apply State.mergeLine_inv) | (with_reducible apply State.farRoom_inv) | (with_reducible apply onCl_inv) | (intro _) | (with_reducible refine (id ?_ : List.length _ = List.length _); simp; done) | split | dsimp only)

theorem State.updHome_inv (s : State) (c : Nat) (t : Target) (op : UpdOp) (ty : UpdTy) (v : Word) (hI : s.Inv) : (State.updHome s c t op ty v).Inv := by
  unfold State.updHome
  try dsimp only
  repeat' (first | (with_reducible assumption) | (with_reducible rfl) | (with_reducible apply next_inv) | (with_reducible refine inv_snd (by assumption) ?_) | (with_reducible refine inv_fst (by assumption) ?_) | (with_reducible apply foldl_inv; intros) | (with_reducible apply foldl_inv2; intros) | (with_reducible apply foldl_inv1; intros) | (simp only [inv_lit]; with_reducible apply keyOk_mk) | (with_reducible apply wrByte_wf) | (with_reducible apply wrBytes_wf) | (with_reducible apply inv_mem) | (with_reducible apply inv_outer) | (exact memWf_nil) | (with_reducible apply State.paRead_inv) | (with_reducible apply State.paWrite_inv) | (with_reducible apply State.tagAt_inv) | (intro _) | (with_reducible refine (id ?_ : List.length _ = List.length _); simp; done) | split | dsimp only)

theorem State.updTarget_inv (s : State) (c : Nat) (t : Target) (nc : Bool) (op : UpdOp) (ty : UpdTy) (v : Word) (hI : s.Inv) : (State.updTarget s c t nc op ty v).Inv := by
  unfold State.updTarget
  try dsimp only
  repeat' (first | (with_reducible assumption) | (with_reducible rfl) | (with_reducible apply next_inv) | (with_reducible refine inv_snd (by assumption) ?_) | (with_reducible refine inv_fst (by assumption) ?_) | (with_reducible apply foldl_inv; intros) | (with_reducible apply foldl_inv2; intros) | (with_reducible apply foldl_inv1; intros) | (simp only [inv_lit]; with_reducible apply keyOk_mk) | (with_reducible apply wrByte_wf) | (with_reducible apply wrBytes_wf) | (with_reducible apply inv_mem) | (with_reducible apply inv_outer) | (exact memWf_nil) | (with_reducible apply State.updHome_inv) | (with_reducible apply State.updAt_inv) | (with_reducible apply State.penUpdate_inv) | (intro _) | (with_reducible refine (id ?_ : List.length _ = List.length _); simp; done) | split | dsimp only)

theorem State.readLine_inv (s : State) (c line : Nat) (hI : s.Inv) : (State.readLine s c line).2.Inv := by
  unfold State.readLine
  try dsimp only
  repeat' (first | (with_reducible assumption) | (with_reducible rfl) | (with_reducible apply next_inv) | (with_reducible refine inv_snd (by assumption) ?_) | (with_reducible refine inv_fst (by assumption) ?_) | (with_reducible apply foldl_inv; intros) | (with_reducible apply foldl_inv2; intros) | (with_reducible apply foldl_inv1; intros) | (simp only [inv_lit]; with_reducible apply keyOk_mk) | (with_reducible apply wrByte_wf) | (with_reducible apply wrBytes_wf) | (with_reducible apply inv_mem) | (with_reducible apply inv_outer) | (exact memWf_nil) | (with_reducible apply State.xlate_inv) | (with_reducible apply State.hbmRead_inv) | (with_reducible apply State.paRead_inv) | (intro _) | (with_reducible refine (id ?_ : List.length _ = List.length _); simp; done) | split | dsimp only)

theorem State.lineBytes_inv (s : State) (c line : Nat) (hI : s.Inv) : (State.lineBytes s c line).2.Inv := by
  unfold State.lineBytes
  try dsimp only
  repeat' (first | (with_reducible assumption) | (with_reducible rfl) | (with_reducible apply next_inv) | (with_reducible refine inv_snd (by assumption) ?_) | (with_reducible refine inv_fst (by assumption) ?_) | (with_reducible apply foldl_inv; intros) | (with_reducible apply foldl_inv2; intros) | (with_reducible apply foldl_inv1; intros) | (simp only [inv_lit]; with_reducible apply keyOk_mk) | (with_reducible apply wrByte_wf) | (with_reducible apply wrBytes_wf) | (with_reducible apply inv_mem) | (with_reducible apply inv_outer) | (exact memWf_nil) | (with_reducible apply State.readLine_inv) | (intro _) | (with_reducible refine (id ?_ : List.length _ = List.length _); simp; done) | split | dsimp only)

theorem State.skipPad_inv (c n : Nat) (a : BitVec 57) (s : State) (hI : s.Inv) : (State.skipPad c n a s).2.Inv := by
  induction n generalizing a s with
  | zero => exact hI
  | succ n ih =>
    unfold State.skipPad
    have h1 := State.lineBytes_inv s c (a.toNat / 64) hI
    revert h1
    generalize s.lineBytes c (a.toNat / 64) = q
    obtain ⟨_ | q, t⟩ := q
    · exact fun h => h
    · intro h1
      dsimp only
      split
      · exact ih _ _ h1
      · exact h1

theorem State.afterBundle_inv (s : State) (c : Nat) (a : BitVec 57) (hI : s.Inv) : (State.afterBundle s c a).2.Inv := by
  unfold State.afterBundle
  try dsimp only
  repeat' (first | (with_reducible assumption) | (with_reducible rfl) | (with_reducible apply next_inv) | (with_reducible refine inv_snd (by assumption) ?_) | (with_reducible refine inv_fst (by assumption) ?_) | (with_reducible apply foldl_inv; intros) | (with_reducible apply foldl_inv2; intros) | (with_reducible apply foldl_inv1; intros) | (simp only [inv_lit]; with_reducible apply keyOk_mk) | (with_reducible apply wrByte_wf) | (with_reducible apply wrBytes_wf) | (with_reducible apply inv_mem) | (with_reducible apply inv_outer) | (exact memWf_nil) | (with_reducible apply State.skipPad_inv) | (with_reducible apply State.lineBytes_inv) | (with_reducible apply State.release_inv) | (intro _) | (with_reducible refine (id ?_ : List.length _ = List.length _); simp; done) | split | dsimp only)

theorem State.beginHold_inv (s : State) (kind : HoldKind) (due : Nat) (hI : s.Inv) : (State.beginHold s kind due).Inv := by
  unfold State.beginHold
  try dsimp only
  repeat' (first | (with_reducible assumption) | (with_reducible rfl) | (with_reducible apply next_inv) | (with_reducible refine inv_snd (by assumption) ?_) | (with_reducible refine inv_fst (by assumption) ?_) | (with_reducible apply foldl_inv; intros) | (with_reducible apply foldl_inv2; intros) | (with_reducible apply foldl_inv1; intros) | (simp only [inv_lit]; with_reducible apply keyOk_mk) | (with_reducible apply wrByte_wf) | (with_reducible apply wrBytes_wf) | (with_reducible apply inv_mem) | (with_reducible apply inv_outer) | (exact memWf_nil) | (with_reducible apply onMe_inv) | (intro _) | (with_reducible refine (id ?_ : List.length _ = List.length _); simp; done) | split | dsimp only)

theorem State.beginFar_inv (s : State) (k : FarKind) (parts : List FarPart) (hI : s.Inv) : (State.beginFar s k parts).Inv := by
  unfold State.beginFar
  try dsimp only
  repeat' (first | (with_reducible assumption) | (with_reducible rfl) | (with_reducible apply next_inv) | (with_reducible refine inv_snd (by assumption) ?_) | (with_reducible refine inv_fst (by assumption) ?_) | (with_reducible apply foldl_inv; intros) | (with_reducible apply foldl_inv2; intros) | (with_reducible apply foldl_inv1; intros) | (simp only [inv_lit]; with_reducible apply keyOk_mk) | (with_reducible apply wrByte_wf) | (with_reducible apply wrBytes_wf) | (with_reducible apply inv_mem) | (with_reducible apply inv_outer) | (exact memWf_nil) | (with_reducible apply State.free_inv) | (with_reducible apply State.beginHold_inv) | (intro _) | (with_reducible refine (id ?_ : List.length _ = List.length _); simp; done) | split | dsimp only)

theorem State.post_inv (s : State) (grp : Nat) (k : PostKind) (hI : s.Inv) : (State.post s grp k).Inv := by
  unfold State.post
  try dsimp only
  repeat' (first | (with_reducible assumption) | (with_reducible rfl) | (with_reducible apply next_inv) | (with_reducible refine inv_snd (by assumption) ?_) | (with_reducible refine inv_fst (by assumption) ?_) | (with_reducible apply foldl_inv; intros) | (with_reducible apply foldl_inv2; intros) | (with_reducible apply foldl_inv1; intros) | (simp only [inv_lit]; with_reducible apply keyOk_mk) | (with_reducible apply wrByte_wf) | (with_reducible apply wrBytes_wf) | (with_reducible apply inv_mem) | (with_reducible apply inv_outer) | (exact memWf_nil) | (with_reducible apply State.free_inv) | (with_reducible apply onMe_inv) | (intro _) | (with_reducible refine (id ?_ : List.length _ = List.length _); simp; done) | split | dsimp only)

/-! ### SlotS -/

theorem State.sOut_inv (s : State) (sd : BitVec 5) (v : Word) (lat : Nat) (hI : s.Inv) : ResInv (State.sOut s sd v lat) := by
  unfold State.sOut
  try dsimp only
  repeat' (first | (with_reducible assumption) | (with_reducible rfl) | (with_reducible apply next_inv) | (with_reducible refine inv_snd (by assumption) ?_) | (with_reducible refine inv_fst (by assumption) ?_) | (with_reducible apply foldl_inv; intros) | (with_reducible apply foldl_inv2; intros) | (with_reducible apply foldl_inv1; intros) | (simp only [inv_lit]; with_reducible apply keyOk_mk) | (with_reducible apply wrByte_wf) | (with_reducible apply wrBytes_wf) | (with_reducible apply inv_mem) | (with_reducible apply inv_outer) | (exact memWf_nil) | (with_reducible apply onMe_inv) | (intro _) | (with_reducible refine (id ?_ : List.length _ = List.length _); simp; done) | split | dsimp only)

theorem State.bOut_inv (s : State) (bd : BitVec 3) (v : Bool) (hI : s.Inv) : ResInv (State.bOut s bd v) := by
  unfold State.bOut
  try dsimp only
  repeat' (first | (with_reducible assumption) | (with_reducible rfl) | (with_reducible apply next_inv) | (with_reducible refine inv_snd (by assumption) ?_) | (with_reducible refine inv_fst (by assumption) ?_) | (with_reducible apply foldl_inv; intros) | (with_reducible apply foldl_inv2; intros) | (with_reducible apply foldl_inv1; intros) | (simp only [inv_lit]; with_reducible apply keyOk_mk) | (with_reducible apply wrByte_wf) | (with_reducible apply wrBytes_wf) | (with_reducible apply inv_mem) | (with_reducible apply inv_outer) | (exact memWf_nil) | (with_reducible apply onMe_inv) | (intro _) | (with_reducible refine (id ?_ : List.length _ = List.length _); simp; done) | split | dsimp only)

theorem execNop_inv (s : State) (hI : s.Inv) : ResInv (execNop s) := by
  unfold execNop
  try dsimp only
  repeat' (first | (with_reducible assumption) | (with_reducible rfl) | (with_reducible apply next_inv) | (with_reducible refine inv_snd (by assumption) ?_) | (with_reducible refine inv_fst (by assumption) ?_) | (with_reducible apply foldl_inv; intros) | (with_reducible apply foldl_inv2; intros) | (with_reducible apply foldl_inv1; intros) | (simp only [inv_lit]; with_reducible apply keyOk_mk) | (with_reducible apply wrByte_wf) | (with_reducible apply wrBytes_wf) | (with_reducible apply inv_mem) | (with_reducible apply inv_outer) | (exact memWf_nil) | (intro _) | (with_reducible refine (id ?_ : List.length _ = List.length _); simp; done) | split | dsimp only)

theorem execAdd_inv (sd sa sb : BitVec 5) (s : State) (hI : s.Inv) : ResInv (execAdd sd sa sb s) := by
  unfold execAdd
  try dsimp only
  repeat' (first | (with_reducible assumption) | (with_reducible rfl) | (with_reducible apply next_inv) | (with_reducible refine inv_snd (by assumption) ?_) | (with_reducible refine inv_fst (by assumption) ?_) | (with_reducible apply foldl_inv; intros) | (with_reducible apply foldl_inv2; intros) | (with_reducible apply foldl_inv1; intros) | (simp only [inv_lit]; with_reducible apply keyOk_mk) | (with_reducible apply wrByte_wf) | (with_reducible apply wrBytes_wf) | (with_reducible apply inv_mem) | (with_reducible apply inv_outer) | (exact memWf_nil) | (with_reducible apply State.sOut_inv) | (intro _) | (with_reducible refine (id ?_ : List.length _ = List.length _); simp; done) | split | dsimp only)

theorem execSub_inv (sd sa sb : BitVec 5) (s : State) (hI : s.Inv) : ResInv (execSub sd sa sb s) := by
  unfold execSub
  try dsimp only
  repeat' (first | (with_reducible assumption) | (with_reducible rfl) | (with_reducible apply next_inv) | (with_reducible refine inv_snd (by assumption) ?_) | (with_reducible refine inv_fst (by assumption) ?_) | (with_reducible apply foldl_inv; intros) | (with_reducible apply foldl_inv2; intros) | (with_reducible apply foldl_inv1; intros) | (simp only [inv_lit]; with_reducible apply keyOk_mk) | (with_reducible apply wrByte_wf) | (with_reducible apply wrBytes_wf) | (with_reducible apply inv_mem) | (with_reducible apply inv_outer) | (exact memWf_nil) | (with_reducible apply State.sOut_inv) | (intro _) | (with_reducible refine (id ?_ : List.length _ = List.length _); simp; done) | split | dsimp only)

theorem execAnd_inv (sd sa sb : BitVec 5) (s : State) (hI : s.Inv) : ResInv (execAnd sd sa sb s) := by
  unfold execAnd
  try dsimp only
  repeat' (first | (with_reducible assumption) | (with_reducible rfl) | (with_reducible apply next_inv) | (with_reducible refine inv_snd (by assumption) ?_) | (with_reducible refine inv_fst (by assumption) ?_) | (with_reducible apply foldl_inv; intros) | (with_reducible apply foldl_inv2; intros) | (with_reducible apply foldl_inv1; intros) | (simp only [inv_lit]; with_reducible apply keyOk_mk) | (with_reducible apply wrByte_wf) | (with_reducible apply wrBytes_wf) | (with_reducible apply inv_mem) | (with_reducible apply inv_outer) | (exact memWf_nil) | (with_reducible apply State.sOut_inv) | (intro _) | (with_reducible refine (id ?_ : List.length _ = List.length _); simp; done) | split | dsimp only)

theorem execOr_inv (sd sa sb : BitVec 5) (s : State) (hI : s.Inv) : ResInv (execOr sd sa sb s) := by
  unfold execOr
  try dsimp only
  repeat' (first | (with_reducible assumption) | (with_reducible rfl) | (with_reducible apply next_inv) | (with_reducible refine inv_snd (by assumption) ?_) | (with_reducible refine inv_fst (by assumption) ?_) | (with_reducible apply foldl_inv; intros) | (with_reducible apply foldl_inv2; intros) | (with_reducible apply foldl_inv1; intros) | (simp only [inv_lit]; with_reducible apply keyOk_mk) | (with_reducible apply wrByte_wf) | (with_reducible apply wrBytes_wf) | (with_reducible apply inv_mem) | (with_reducible apply inv_outer) | (exact memWf_nil) | (with_reducible apply State.sOut_inv) | (intro _) | (with_reducible refine (id ?_ : List.length _ = List.length _); simp; done) | split | dsimp only)

theorem execXor_inv (sd sa sb : BitVec 5) (s : State) (hI : s.Inv) : ResInv (execXor sd sa sb s) := by
  unfold execXor
  try dsimp only
  repeat' (first | (with_reducible assumption) | (with_reducible rfl) | (with_reducible apply next_inv) | (with_reducible refine inv_snd (by assumption) ?_) | (with_reducible refine inv_fst (by assumption) ?_) | (with_reducible apply foldl_inv; intros) | (with_reducible apply foldl_inv2; intros) | (with_reducible apply foldl_inv1; intros) | (simp only [inv_lit]; with_reducible apply keyOk_mk) | (with_reducible apply wrByte_wf) | (with_reducible apply wrBytes_wf) | (with_reducible apply inv_mem) | (with_reducible apply inv_outer) | (exact memWf_nil) | (with_reducible apply State.sOut_inv) | (intro _) | (with_reducible refine (id ?_ : List.length _ = List.length _); simp; done) | split | dsimp only)

theorem execShl_inv (sd sa sb : BitVec 5) (s : State) (hI : s.Inv) : ResInv (execShl sd sa sb s) := by
  unfold execShl
  try dsimp only
  repeat' (first | (with_reducible assumption) | (with_reducible rfl) | (with_reducible apply next_inv) | (with_reducible refine inv_snd (by assumption) ?_) | (with_reducible refine inv_fst (by assumption) ?_) | (with_reducible apply foldl_inv; intros) | (with_reducible apply foldl_inv2; intros) | (with_reducible apply foldl_inv1; intros) | (simp only [inv_lit]; with_reducible apply keyOk_mk) | (with_reducible apply wrByte_wf) | (with_reducible apply wrBytes_wf) | (with_reducible apply inv_mem) | (with_reducible apply inv_outer) | (exact memWf_nil) | (with_reducible apply State.sOut_inv) | (intro _) | (with_reducible refine (id ?_ : List.length _ = List.length _); simp; done) | split | dsimp only)

theorem execShr_inv (sd sa sb : BitVec 5) (s : State) (hI : s.Inv) : ResInv (execShr sd sa sb s) := by
  unfold execShr
  try dsimp only
  repeat' (first | (with_reducible assumption) | (with_reducible rfl) | (with_reducible apply next_inv) | (with_reducible refine inv_snd (by assumption) ?_) | (with_reducible refine inv_fst (by assumption) ?_) | (with_reducible apply foldl_inv; intros) | (with_reducible apply foldl_inv2; intros) | (with_reducible apply foldl_inv1; intros) | (simp only [inv_lit]; with_reducible apply keyOk_mk) | (with_reducible apply wrByte_wf) | (with_reducible apply wrBytes_wf) | (with_reducible apply inv_mem) | (with_reducible apply inv_outer) | (exact memWf_nil) | (with_reducible apply State.sOut_inv) | (intro _) | (with_reducible refine (id ?_ : List.length _ = List.length _); simp; done) | split | dsimp only)

theorem execSra_inv (sd sa sb : BitVec 5) (s : State) (hI : s.Inv) : ResInv (execSra sd sa sb s) := by
  unfold execSra
  try dsimp only
  repeat' (first | (with_reducible assumption) | (with_reducible rfl) | (with_reducible apply next_inv) | (with_reducible refine inv_snd (by assumption) ?_) | (with_reducible refine inv_fst (by assumption) ?_) | (with_reducible apply foldl_inv; intros) | (with_reducible apply foldl_inv2; intros) | (with_reducible apply foldl_inv1; intros) | (simp only [inv_lit]; with_reducible apply keyOk_mk) | (with_reducible apply wrByte_wf) | (with_reducible apply wrBytes_wf) | (with_reducible apply inv_mem) | (with_reducible apply inv_outer) | (exact memWf_nil) | (with_reducible apply State.sOut_inv) | (intro _) | (with_reducible refine (id ?_ : List.length _ = List.length _); simp; done) | split | dsimp only)

theorem execMul_inv (sd sa sb : BitVec 5) (s : State) (hI : s.Inv) : ResInv (execMul sd sa sb s) := by
  unfold execMul
  try dsimp only
  repeat' (first | (with_reducible assumption) | (with_reducible rfl) | (with_reducible apply next_inv) | (with_reducible refine inv_snd (by assumption) ?_) | (with_reducible refine inv_fst (by assumption) ?_) | (with_reducible apply foldl_inv; intros) | (with_reducible apply foldl_inv2; intros) | (with_reducible apply foldl_inv1; intros) | (simp only [inv_lit]; with_reducible apply keyOk_mk) | (with_reducible apply wrByte_wf) | (with_reducible apply wrBytes_wf) | (with_reducible apply inv_mem) | (with_reducible apply inv_outer) | (exact memWf_nil) | (with_reducible apply State.sOut_inv) | (intro _) | (with_reducible refine (id ?_ : List.length _ = List.length _); simp; done) | split | dsimp only)

theorem execMulh_inv (sgn : Bool) (sd sa sb : BitVec 5) (s : State) (hI : s.Inv) : ResInv (execMulh sgn sd sa sb s) := by
  unfold execMulh
  try dsimp only
  repeat' (first | (with_reducible assumption) | (with_reducible rfl) | (with_reducible apply next_inv) | (with_reducible refine inv_snd (by assumption) ?_) | (with_reducible refine inv_fst (by assumption) ?_) | (with_reducible apply foldl_inv; intros) | (with_reducible apply foldl_inv2; intros) | (with_reducible apply foldl_inv1; intros) | (simp only [inv_lit]; with_reducible apply keyOk_mk) | (with_reducible apply wrByte_wf) | (with_reducible apply wrBytes_wf) | (with_reducible apply inv_mem) | (with_reducible apply inv_outer) | (exact memWf_nil) | (with_reducible apply State.sOut_inv) | (intro _) | (with_reducible refine (id ?_ : List.length _ = List.length _); simp; done) | split | dsimp only)

theorem execMin_inv (sgn : Bool) (sd sa sb : BitVec 5) (s : State) (hI : s.Inv) : ResInv (execMin sgn sd sa sb s) := by
  unfold execMin
  try dsimp only
  repeat' (first | (with_reducible assumption) | (with_reducible rfl) | (with_reducible apply next_inv) | (with_reducible refine inv_snd (by assumption) ?_) | (with_reducible refine inv_fst (by assumption) ?_) | (with_reducible apply foldl_inv; intros) | (with_reducible apply foldl_inv2; intros) | (with_reducible apply foldl_inv1; intros) | (simp only [inv_lit]; with_reducible apply keyOk_mk) | (with_reducible apply wrByte_wf) | (with_reducible apply wrBytes_wf) | (with_reducible apply inv_mem) | (with_reducible apply inv_outer) | (exact memWf_nil) | (with_reducible apply State.sOut_inv) | (intro _) | (with_reducible refine (id ?_ : List.length _ = List.length _); simp; done) | split | dsimp only)

theorem execMax_inv (sgn : Bool) (sd sa sb : BitVec 5) (s : State) (hI : s.Inv) : ResInv (execMax sgn sd sa sb s) := by
  unfold execMax
  try dsimp only
  repeat' (first | (with_reducible assumption) | (with_reducible rfl) | (with_reducible apply next_inv) | (with_reducible refine inv_snd (by assumption) ?_) | (with_reducible refine inv_fst (by assumption) ?_) | (with_reducible apply foldl_inv; intros) | (with_reducible apply foldl_inv2; intros) | (with_reducible apply foldl_inv1; intros) | (simp only [inv_lit]; with_reducible apply keyOk_mk) | (with_reducible apply wrByte_wf) | (with_reducible apply wrBytes_wf) | (with_reducible apply inv_mem) | (with_reducible apply inv_outer) | (exact memWf_nil) | (with_reducible apply State.sOut_inv) | (intro _) | (with_reducible refine (id ?_ : List.length _ = List.length _); simp; done) | split | dsimp only)

theorem execAddImm_inv (sd sa : BitVec 5) (imm : BitVec 16) (s : State) (hI : s.Inv) : ResInv (execAddImm sd sa imm s) := by
  unfold execAddImm
  try dsimp only
  repeat' (first | (with_reducible assumption) | (with_reducible rfl) | (with_reducible apply next_inv) | (with_reducible refine inv_snd (by assumption) ?_) | (with_reducible refine inv_fst (by assumption) ?_) | (with_reducible apply foldl_inv; intros) | (with_reducible apply foldl_inv2; intros) | (with_reducible apply foldl_inv1; intros) | (simp only [inv_lit]; with_reducible apply keyOk_mk) | (with_reducible apply wrByte_wf) | (with_reducible apply wrBytes_wf) | (with_reducible apply inv_mem) | (with_reducible apply inv_outer) | (exact memWf_nil) | (with_reducible apply State.sOut_inv) | (intro _) | (with_reducible refine (id ?_ : List.length _ = List.length _); simp; done) | split | dsimp only)

theorem execSubImm_inv (sd sa : BitVec 5) (imm : BitVec 16) (s : State) (hI : s.Inv) : ResInv (execSubImm sd sa imm s) := by
  unfold execSubImm
  try dsimp only
  repeat' (first | (with_reducible assumption) | (with_reducible rfl) | (with_reducible apply next_inv) | (with_reducible refine inv_snd (by assumption) ?_) | (with_reducible refine inv_fst (by assumption) ?_) | (with_reducible apply foldl_inv; intros) | (with_reducible apply foldl_inv2; intros) | (with_reducible apply foldl_inv1; intros) | (simp only [inv_lit]; with_reducible apply keyOk_mk) | (with_reducible apply wrByte_wf) | (with_reducible apply wrBytes_wf) | (with_reducible apply inv_mem) | (with_reducible apply inv_outer) | (exact memWf_nil) | (with_reducible apply State.sOut_inv) | (intro _) | (with_reducible refine (id ?_ : List.length _ = List.length _); simp; done) | split | dsimp only)

theorem execAndImm_inv (sd sa : BitVec 5) (imm : BitVec 16) (s : State) (hI : s.Inv) : ResInv (execAndImm sd sa imm s) := by
  unfold execAndImm
  try dsimp only
  repeat' (first | (with_reducible assumption) | (with_reducible rfl) | (with_reducible apply next_inv) | (with_reducible refine inv_snd (by assumption) ?_) | (with_reducible refine inv_fst (by assumption) ?_) | (with_reducible apply foldl_inv; intros) | (with_reducible apply foldl_inv2; intros) | (with_reducible apply foldl_inv1; intros) | (simp only [inv_lit]; with_reducible apply keyOk_mk) | (with_reducible apply wrByte_wf) | (with_reducible apply wrBytes_wf) | (with_reducible apply inv_mem) | (with_reducible apply inv_outer) | (exact memWf_nil) | (with_reducible apply State.sOut_inv) | (intro _) | (with_reducible refine (id ?_ : List.length _ = List.length _); simp; done) | split | dsimp only)

theorem execOrImm_inv (sd sa : BitVec 5) (imm : BitVec 16) (s : State) (hI : s.Inv) : ResInv (execOrImm sd sa imm s) := by
  unfold execOrImm
  try dsimp only
  repeat' (first | (with_reducible assumption) | (with_reducible rfl) | (with_reducible apply next_inv) | (with_reducible refine inv_snd (by assumption) ?_) | (with_reducible refine inv_fst (by assumption) ?_) | (with_reducible apply foldl_inv; intros) | (with_reducible apply foldl_inv2; intros) | (with_reducible apply foldl_inv1; intros) | (simp only [inv_lit]; with_reducible apply keyOk_mk) | (with_reducible apply wrByte_wf) | (with_reducible apply wrBytes_wf) | (with_reducible apply inv_mem) | (with_reducible apply inv_outer) | (exact memWf_nil) | (with_reducible apply State.sOut_inv) | (intro _) | (with_reducible refine (id ?_ : List.length _ = List.length _); simp; done) | split | dsimp only)

theorem execXorImm_inv (sd sa : BitVec 5) (imm : BitVec 16) (s : State) (hI : s.Inv) : ResInv (execXorImm sd sa imm s) := by
  unfold execXorImm
  try dsimp only
  repeat' (first | (with_reducible assumption) | (with_reducible rfl) | (with_reducible apply next_inv) | (with_reducible refine inv_snd (by assumption) ?_) | (with_reducible refine inv_fst (by assumption) ?_) | (with_reducible apply foldl_inv; intros) | (with_reducible apply foldl_inv2; intros) | (with_reducible apply foldl_inv1; intros) | (simp only [inv_lit]; with_reducible apply keyOk_mk) | (with_reducible apply wrByte_wf) | (with_reducible apply wrBytes_wf) | (with_reducible apply inv_mem) | (with_reducible apply inv_outer) | (exact memWf_nil) | (with_reducible apply State.sOut_inv) | (intro _) | (with_reducible refine (id ?_ : List.length _ = List.length _); simp; done) | split | dsimp only)

theorem execShlImm_inv (sd sa : BitVec 5) (k : BitVec 6) (s : State) (hI : s.Inv) : ResInv (execShlImm sd sa k s) := by
  unfold execShlImm
  try dsimp only
  repeat' (first | (with_reducible assumption) | (with_reducible rfl) | (with_reducible apply next_inv) | (with_reducible refine inv_snd (by assumption) ?_) | (with_reducible refine inv_fst (by assumption) ?_) | (with_reducible apply foldl_inv; intros) | (with_reducible apply foldl_inv2; intros) | (with_reducible apply foldl_inv1; intros) | (simp only [inv_lit]; with_reducible apply keyOk_mk) | (with_reducible apply wrByte_wf) | (with_reducible apply wrBytes_wf) | (with_reducible apply inv_mem) | (with_reducible apply inv_outer) | (exact memWf_nil) | (with_reducible apply State.sOut_inv) | (intro _) | (with_reducible refine (id ?_ : List.length _ = List.length _); simp; done) | split | dsimp only)

theorem execShrImm_inv (sd sa : BitVec 5) (k : BitVec 6) (s : State) (hI : s.Inv) : ResInv (execShrImm sd sa k s) := by
  unfold execShrImm
  try dsimp only
  repeat' (first | (with_reducible assumption) | (with_reducible rfl) | (with_reducible apply next_inv) | (with_reducible refine inv_snd (by assumption) ?_) | (with_reducible refine inv_fst (by assumption) ?_) | (with_reducible apply foldl_inv; intros) | (with_reducible apply foldl_inv2; intros) | (with_reducible apply foldl_inv1; intros) | (simp only [inv_lit]; with_reducible apply keyOk_mk) | (with_reducible apply wrByte_wf) | (with_reducible apply wrBytes_wf) | (with_reducible apply inv_mem) | (with_reducible apply inv_outer) | (exact memWf_nil) | (with_reducible apply State.sOut_inv) | (intro _) | (with_reducible refine (id ?_ : List.length _ = List.length _); simp; done) | split | dsimp only)

theorem execSraImm_inv (sd sa : BitVec 5) (k : BitVec 6) (s : State) (hI : s.Inv) : ResInv (execSraImm sd sa k s) := by
  unfold execSraImm
  try dsimp only
  repeat' (first | (with_reducible assumption) | (with_reducible rfl) | (with_reducible apply next_inv) | (with_reducible refine inv_snd (by assumption) ?_) | (with_reducible refine inv_fst (by assumption) ?_) | (with_reducible apply foldl_inv; intros) | (with_reducible apply foldl_inv2; intros) | (with_reducible apply foldl_inv1; intros) | (simp only [inv_lit]; with_reducible apply keyOk_mk) | (with_reducible apply wrByte_wf) | (with_reducible apply wrBytes_wf) | (with_reducible apply inv_mem) | (with_reducible apply inv_outer) | (exact memWf_nil) | (with_reducible apply State.sOut_inv) | (intro _) | (with_reducible refine (id ?_ : List.length _ = List.length _); simp; done) | split | dsimp only)

theorem execMulImm_inv (sd sa : BitVec 5) (imm : BitVec 16) (s : State) (hI : s.Inv) : ResInv (execMulImm sd sa imm s) := by
  unfold execMulImm
  try dsimp only
  repeat' (first | (with_reducible assumption) | (with_reducible rfl) | (with_reducible apply next_inv) | (with_reducible refine inv_snd (by assumption) ?_) | (with_reducible refine inv_fst (by assumption) ?_) | (with_reducible apply foldl_inv; intros) | (with_reducible apply foldl_inv2; intros) | (with_reducible apply foldl_inv1; intros) | (simp only [inv_lit]; with_reducible apply keyOk_mk) | (with_reducible apply wrByte_wf) | (with_reducible apply wrBytes_wf) | (with_reducible apply inv_mem) | (with_reducible apply inv_outer) | (exact memWf_nil) | (with_reducible apply State.sOut_inv) | (intro _) | (with_reducible refine (id ?_ : List.length _ = List.length _); simp; done) | split | dsimp only)

theorem execMulhImm_inv (sd sa : BitVec 5) (imm : BitVec 16) (s : State) (hI : s.Inv) : ResInv (execMulhImm sd sa imm s) := by
  unfold execMulhImm
  try dsimp only
  repeat' (first | (with_reducible assumption) | (with_reducible rfl) | (with_reducible apply next_inv) | (with_reducible refine inv_snd (by assumption) ?_) | (with_reducible refine inv_fst (by assumption) ?_) | (with_reducible apply foldl_inv; intros) | (with_reducible apply foldl_inv2; intros) | (with_reducible apply foldl_inv1; intros) | (simp only [inv_lit]; with_reducible apply keyOk_mk) | (with_reducible apply wrByte_wf) | (with_reducible apply wrBytes_wf) | (with_reducible apply inv_mem) | (with_reducible apply inv_outer) | (exact memWf_nil) | (with_reducible apply State.sOut_inv) | (intro _) | (with_reducible refine (id ?_ : List.length _ = List.length _); simp; done) | split | dsimp only)

theorem execMinImm_inv (sd sa : BitVec 5) (imm : BitVec 16) (s : State) (hI : s.Inv) : ResInv (execMinImm sd sa imm s) := by
  unfold execMinImm
  try dsimp only
  repeat' (first | (with_reducible assumption) | (with_reducible rfl) | (with_reducible apply next_inv) | (with_reducible refine inv_snd (by assumption) ?_) | (with_reducible refine inv_fst (by assumption) ?_) | (with_reducible apply foldl_inv; intros) | (with_reducible apply foldl_inv2; intros) | (with_reducible apply foldl_inv1; intros) | (simp only [inv_lit]; with_reducible apply keyOk_mk) | (with_reducible apply wrByte_wf) | (with_reducible apply wrBytes_wf) | (with_reducible apply inv_mem) | (with_reducible apply inv_outer) | (exact memWf_nil) | (with_reducible apply State.sOut_inv) | (intro _) | (with_reducible refine (id ?_ : List.length _ = List.length _); simp; done) | split | dsimp only)

theorem execMaxImm_inv (sd sa : BitVec 5) (imm : BitVec 16) (s : State) (hI : s.Inv) : ResInv (execMaxImm sd sa imm s) := by
  unfold execMaxImm
  try dsimp only
  repeat' (first | (with_reducible assumption) | (with_reducible rfl) | (with_reducible apply next_inv) | (with_reducible refine inv_snd (by assumption) ?_) | (with_reducible refine inv_fst (by assumption) ?_) | (with_reducible apply foldl_inv; intros) | (with_reducible apply foldl_inv2; intros) | (with_reducible apply foldl_inv1; intros) | (simp only [inv_lit]; with_reducible apply keyOk_mk) | (with_reducible apply wrByte_wf) | (with_reducible apply wrBytes_wf) | (with_reducible apply inv_mem) | (with_reducible apply inv_outer) | (exact memWf_nil) | (with_reducible apply State.sOut_inv) | (intro _) | (with_reducible refine (id ?_ : List.length _ = List.length _); simp; done) | split | dsimp only)

theorem execCmp_inv (c : Cond) (bd : BitVec 3) (sa sb : BitVec 5) (s : State) (hI : s.Inv) : ResInv (execCmp c bd sa sb s) := by
  unfold execCmp
  try dsimp only
  repeat' (first | (with_reducible assumption) | (with_reducible rfl) | (with_reducible apply next_inv) | (with_reducible refine inv_snd (by assumption) ?_) | (with_reducible refine inv_fst (by assumption) ?_) | (with_reducible apply foldl_inv; intros) | (with_reducible apply foldl_inv2; intros) | (with_reducible apply foldl_inv1; intros) | (simp only [inv_lit]; with_reducible apply keyOk_mk) | (with_reducible apply wrByte_wf) | (with_reducible apply wrBytes_wf) | (with_reducible apply inv_mem) | (with_reducible apply inv_outer) | (exact memWf_nil) | (with_reducible apply State.bOut_inv) | (intro _) | (with_reducible refine (id ?_ : List.length _ = List.length _); simp; done) | split | dsimp only)

theorem execCmpImm_inv (c : Cond) (bd : BitVec 3) (sa : BitVec 5) (imm : BitVec 12) (s : State) (hI : s.Inv) : ResInv (execCmpImm c bd sa imm s) := by
  unfold execCmpImm
  try dsimp only
  repeat' (first | (with_reducible assumption) | (with_reducible rfl) | (with_reducible apply next_inv) | (with_reducible refine inv_snd (by assumption) ?_) | (with_reducible refine inv_fst (by assumption) ?_) | (with_reducible apply foldl_inv; intros) | (with_reducible apply foldl_inv2; intros) | (with_reducible apply foldl_inv1; intros) | (simp only [inv_lit]; with_reducible apply keyOk_mk) | (with_reducible apply wrByte_wf) | (with_reducible apply wrBytes_wf) | (with_reducible apply inv_mem) | (with_reducible apply inv_outer) | (exact memWf_nil) | (with_reducible apply State.bOut_inv) | (intro _) | (with_reducible refine (id ?_ : List.length _ = List.length _); simp; done) | split | dsimp only)

theorem execFop_inv (op : FlagOp) (bd ba bb : BitVec 3) (s : State) (hI : s.Inv) : ResInv (execFop op bd ba bb s) := by
  unfold execFop
  try dsimp only
  repeat' (first | (with_reducible assumption) | (with_reducible rfl) | (with_reducible apply next_inv) | (with_reducible refine inv_snd (by assumption) ?_) | (with_reducible refine inv_fst (by assumption) ?_) | (with_reducible apply foldl_inv; intros) | (with_reducible apply foldl_inv2; intros) | (with_reducible apply foldl_inv1; intros) | (simp only [inv_lit]; with_reducible apply keyOk_mk) | (with_reducible apply wrByte_wf) | (with_reducible apply wrBytes_wf) | (with_reducible apply inv_mem) | (with_reducible apply inv_outer) | (exact memWf_nil) | (with_reducible apply State.bOut_inv) | (intro _) | (with_reducible refine (id ?_ : List.length _ = List.length _); simp; done) | split | dsimp only)

theorem execLdi_inv (sd : BitVec 5) (imm : BitVec 21) (s : State) (hI : s.Inv) : ResInv (execLdi sd imm s) := by
  unfold execLdi
  try dsimp only
  repeat' (first | (with_reducible assumption) | (with_reducible rfl) | (with_reducible apply next_inv) | (with_reducible refine inv_snd (by assumption) ?_) | (with_reducible refine inv_fst (by assumption) ?_) | (with_reducible apply foldl_inv; intros) | (with_reducible apply foldl_inv2; intros) | (with_reducible apply foldl_inv1; intros) | (simp only [inv_lit]; with_reducible apply keyOk_mk) | (with_reducible apply wrByte_wf) | (with_reducible apply wrBytes_wf) | (with_reducible apply inv_mem) | (with_reducible apply inv_outer) | (exact memWf_nil) | (with_reducible apply State.sOut_inv) | (intro _) | (with_reducible refine (id ?_ : List.length _ = List.length _); simp; done) | split | dsimp only)

theorem execLdih_inv (sd : BitVec 5) (h : BitVec 2) (imm : BitVec 16) (s : State) (hI : s.Inv) : ResInv (execLdih sd h imm s) := by
  unfold execLdih
  try dsimp only
  repeat' (first | (with_reducible assumption) | (with_reducible rfl) | (with_reducible apply next_inv) | (with_reducible refine inv_snd (by assumption) ?_) | (with_reducible refine inv_fst (by assumption) ?_) | (with_reducible apply foldl_inv; intros) | (with_reducible apply foldl_inv2; intros) | (with_reducible apply foldl_inv1; intros) | (simp only [inv_lit]; with_reducible apply keyOk_mk) | (with_reducible apply wrByte_wf) | (with_reducible apply wrBytes_wf) | (with_reducible apply inv_mem) | (with_reducible apply inv_outer) | (exact memWf_nil) | (with_reducible apply State.sOut_inv) | (intro _) | (with_reducible refine (id ?_ : List.length _ = List.length _); simp; done) | split | dsimp only)

theorem State.transfer_inv (s : State) (target : BitVec 57) (hI : s.Inv) : (State.transfer s target).Inv := by
  unfold State.transfer
  try dsimp only
  repeat' (first | (with_reducible assumption) | (with_reducible rfl) | (with_reducible apply next_inv) | (with_reducible refine inv_snd (by assumption) ?_) | (with_reducible refine inv_fst (by assumption) ?_) | (with_reducible apply foldl_inv; intros) | (with_reducible apply foldl_inv2; intros) | (with_reducible apply foldl_inv1; intros) | (simp only [inv_lit]; with_reducible apply keyOk_mk) | (with_reducible apply wrByte_wf) | (with_reducible apply wrBytes_wf) | (with_reducible apply inv_mem) | (with_reducible apply inv_outer) | (exact memWf_nil) | (with_reducible apply onMe_inv) | (intro _) | (with_reducible refine (id ?_ : List.length _ = List.length _); simp; done) | split | dsimp only)

theorem execBr_inv (cf : CF) (disp : BitVec 21) (s : State) (hI : s.Inv) : ResInv (execBr cf disp s) := by
  unfold execBr
  try dsimp only
  repeat' (first | (with_reducible assumption) | (with_reducible rfl) | (with_reducible apply next_inv) | (with_reducible refine inv_snd (by assumption) ?_) | (with_reducible refine inv_fst (by assumption) ?_) | (with_reducible apply foldl_inv; intros) | (with_reducible apply foldl_inv2; intros) | (with_reducible apply foldl_inv1; intros) | (simp only [inv_lit]; with_reducible apply keyOk_mk) | (with_reducible apply wrByte_wf) | (with_reducible apply wrBytes_wf) | (with_reducible apply inv_mem) | (with_reducible apply inv_outer) | (exact memWf_nil) | (with_reducible apply State.transfer_inv) | (intro _) | (with_reducible refine (id ?_ : List.length _ = List.length _); simp; done) | split | dsimp only)

theorem execJmp_inv (sa : BitVec 5) (s : State) (hI : s.Inv) : ResInv (execJmp sa s) := by
  unfold execJmp
  try dsimp only
  repeat' (first | (with_reducible assumption) | (with_reducible rfl) | (with_reducible apply next_inv) | (with_reducible refine inv_snd (by assumption) ?_) | (with_reducible refine inv_fst (by assumption) ?_) | (with_reducible apply foldl_inv; intros) | (with_reducible apply foldl_inv2; intros) | (with_reducible apply foldl_inv1; intros) | (simp only [inv_lit]; with_reducible apply keyOk_mk) | (with_reducible apply wrByte_wf) | (with_reducible apply wrBytes_wf) | (with_reducible apply inv_mem) | (with_reducible apply inv_outer) | (exact memWf_nil) | (with_reducible apply guard_inv) | (with_reducible apply State.transfer_inv) | (with_reducible apply State.issueTrap_inv) | (intro _) | (with_reducible refine (id ?_ : List.length _ = List.length _); simp; done) | split | dsimp only)

theorem State.linkOf_inv (s : State) (hI : s.Inv) : (State.linkOf s).2.Inv := by
  unfold State.linkOf
  try dsimp only
  repeat' (first | (with_reducible assumption) | (with_reducible rfl) | (with_reducible apply next_inv) | (with_reducible refine inv_snd (by assumption) ?_) | (with_reducible refine inv_fst (by assumption) ?_) | (with_reducible apply foldl_inv; intros) | (with_reducible apply foldl_inv2; intros) | (with_reducible apply foldl_inv1; intros) | (simp only [inv_lit]; with_reducible apply keyOk_mk) | (with_reducible apply wrByte_wf) | (with_reducible apply wrBytes_wf) | (with_reducible apply inv_mem) | (with_reducible apply inv_outer) | (exact memWf_nil) | (with_reducible apply State.afterBundle_inv) | (with_reducible apply State.free_inv) | (intro _) | (with_reducible refine (id ?_ : List.length _ = List.length _); simp; done) | split | dsimp only)

theorem execCall_inv (sd : BitVec 5) (disp : BitVec 21) (s : State) (hI : s.Inv) : ResInv (execCall sd disp s) := by
  unfold execCall
  try dsimp only
  repeat' (first | (with_reducible assumption) | (with_reducible rfl) | (with_reducible apply next_inv) | (with_reducible refine inv_snd (by assumption) ?_) | (with_reducible refine inv_fst (by assumption) ?_) | (with_reducible apply foldl_inv; intros) | (with_reducible apply foldl_inv2; intros) | (with_reducible apply foldl_inv1; intros) | (simp only [inv_lit]; with_reducible apply keyOk_mk) | (with_reducible apply wrByte_wf) | (with_reducible apply wrBytes_wf) | (with_reducible apply inv_mem) | (with_reducible apply inv_outer) | (exact memWf_nil) | (with_reducible apply State.linkOf_inv) | (with_reducible apply State.transfer_inv) | (with_reducible apply onMe_inv) | (with_reducible apply State.free_inv) | (intro _) | (with_reducible refine (id ?_ : List.length _ = List.length _); simp; done) | split | dsimp only)

theorem State.linkNow_inv (s : State) (c : Nat) (before : Option (BitVec 57 × Nat)) (hI : s.Inv) : (State.linkNow s c before).Inv := by
  unfold State.linkNow
  try dsimp only
  repeat' (first | (with_reducible assumption) | (with_reducible rfl) | (with_reducible apply next_inv) | (with_reducible refine inv_snd (by assumption) ?_) | (with_reducible refine inv_fst (by assumption) ?_) | (with_reducible apply foldl_inv; intros) | (with_reducible apply foldl_inv2; intros) | (with_reducible apply foldl_inv1; intros) | (simp only [inv_lit]; with_reducible apply keyOk_mk) | (with_reducible apply wrByte_wf) | (with_reducible apply wrBytes_wf) | (with_reducible apply inv_mem) | (with_reducible apply inv_outer) | (exact memWf_nil) | (with_reducible apply State.afterBundle_inv) | (with_reducible apply onCl_inv) | (intro _) | (with_reducible refine (id ?_ : List.length _ = List.length _); simp; done) | split | dsimp only)

theorem execRet_inv (sa : BitVec 5) (s : State) (hI : s.Inv) : ResInv (execRet sa s) := by
  unfold execRet
  try dsimp only
  repeat' (first | (with_reducible assumption) | (with_reducible rfl) | (with_reducible apply next_inv) | (with_reducible refine inv_snd (by assumption) ?_) | (with_reducible refine inv_fst (by assumption) ?_) | (with_reducible apply foldl_inv; intros) | (with_reducible apply foldl_inv2; intros) | (with_reducible apply foldl_inv1; intros) | (simp only [inv_lit]; with_reducible apply keyOk_mk) | (with_reducible apply wrByte_wf) | (with_reducible apply wrBytes_wf) | (with_reducible apply inv_mem) | (with_reducible apply inv_outer) | (exact memWf_nil) | (with_reducible apply guard_inv) | (with_reducible apply State.transfer_inv) | (with_reducible apply State.issueTrap_inv) | (intro _) | (with_reducible refine (id ?_ : List.length _ = List.length _); simp; done) | split | dsimp only)

theorem State.startLoop_inv (s : State) (count : Word) (hI : s.Inv) : (State.startLoop s count).Inv := by
  unfold State.startLoop
  try dsimp only
  repeat' (first | (with_reducible assumption) | (with_reducible rfl) | (with_reducible apply next_inv) | (with_reducible refine inv_snd (by assumption) ?_) | (with_reducible refine inv_fst (by assumption) ?_) | (with_reducible apply foldl_inv; intros) | (with_reducible apply foldl_inv2; intros) | (with_reducible apply foldl_inv1; intros) | (simp only [inv_lit]; with_reducible apply keyOk_mk) | (with_reducible apply wrByte_wf) | (with_reducible apply wrBytes_wf) | (with_reducible apply inv_mem) | (with_reducible apply inv_outer) | (exact memWf_nil) | (with_reducible apply State.skipPad_inv) | (with_reducible apply onMe_inv) | (intro _) | (with_reducible refine (id ?_ : List.length _ = List.length _); simp; done) | split | dsimp only)

theorem execLoop_inv (n : BitVec 16) (s : State) (hI : s.Inv) : ResInv (execLoop n s) := by
  unfold execLoop
  try dsimp only
  repeat' (first | (with_reducible assumption) | (with_reducible rfl) | (with_reducible apply next_inv) | (with_reducible refine inv_snd (by assumption) ?_) | (with_reducible refine inv_fst (by assumption) ?_) | (with_reducible apply foldl_inv; intros) | (with_reducible apply foldl_inv2; intros) | (with_reducible apply foldl_inv1; intros) | (simp only [inv_lit]; with_reducible apply keyOk_mk) | (with_reducible apply wrByte_wf) | (with_reducible apply wrBytes_wf) | (with_reducible apply inv_mem) | (with_reducible apply inv_outer) | (exact memWf_nil) | (with_reducible apply guard_inv) | (with_reducible apply State.startLoop_inv) | (with_reducible apply State.issueTrap_inv) | (intro _) | (with_reducible refine (id ?_ : List.length _ = List.length _); simp; done) | split | dsimp only)

theorem execLoopReg_inv (sa : BitVec 5) (s : State) (hI : s.Inv) : ResInv (execLoopReg sa s) := by
  unfold execLoopReg
  try dsimp only
  repeat' (first | (with_reducible assumption) | (with_reducible rfl) | (with_reducible apply next_inv) | (with_reducible refine inv_snd (by assumption) ?_) | (with_reducible refine inv_fst (by assumption) ?_) | (with_reducible apply foldl_inv; intros) | (with_reducible apply foldl_inv2; intros) | (with_reducible apply foldl_inv1; intros) | (simp only [inv_lit]; with_reducible apply keyOk_mk) | (with_reducible apply wrByte_wf) | (with_reducible apply wrBytes_wf) | (with_reducible apply inv_mem) | (with_reducible apply inv_outer) | (exact memWf_nil) | (with_reducible apply guard_inv) | (with_reducible apply State.startLoop_inv) | (with_reducible apply State.issueTrap_inv) | (intro _) | (with_reducible refine (id ?_ : List.length _ = List.length _); simp; done) | split | dsimp only)

theorem execEndl_inv (s : State) (hI : s.Inv) : ResInv (execEndl s) := by
  unfold execEndl
  try dsimp only
  repeat' (first | (with_reducible assumption) | (with_reducible rfl) | (with_reducible apply next_inv) | (with_reducible refine inv_snd (by assumption) ?_) | (with_reducible refine inv_fst (by assumption) ?_) | (with_reducible apply foldl_inv; intros) | (with_reducible apply foldl_inv2; intros) | (with_reducible apply foldl_inv1; intros) | (simp only [inv_lit]; with_reducible apply keyOk_mk) | (with_reducible apply wrByte_wf) | (with_reducible apply wrBytes_wf) | (with_reducible apply inv_mem) | (with_reducible apply inv_outer) | (exact memWf_nil) | (with_reducible apply guard_inv) | (with_reducible apply onMe_inv) | (with_reducible apply State.issueTrap_inv) | (intro _) | (with_reducible refine (id ?_ : List.length _ = List.length _); simp; done) | split | dsimp only)

theorem execLbrk_inv (cf : CF) (disp : BitVec 21) (s : State) (hI : s.Inv) : ResInv (execLbrk cf disp s) := by
  unfold execLbrk
  try dsimp only
  repeat' (first | (with_reducible assumption) | (with_reducible rfl) | (with_reducible apply next_inv) | (with_reducible refine inv_snd (by assumption) ?_) | (with_reducible refine inv_fst (by assumption) ?_) | (with_reducible apply foldl_inv; intros) | (with_reducible apply foldl_inv2; intros) | (with_reducible apply foldl_inv1; intros) | (simp only [inv_lit]; with_reducible apply keyOk_mk) | (with_reducible apply wrByte_wf) | (with_reducible apply wrBytes_wf) | (with_reducible apply inv_mem) | (with_reducible apply inv_outer) | (exact memWf_nil) | (with_reducible apply guard_inv) | (with_reducible apply onMe_inv) | (with_reducible apply State.issueTrap_inv) | (intro _) | (with_reducible refine (id ?_ : List.length _ = List.length _); simp; done) | split | dsimp only)

theorem execNopn_inv (n : BitVec 21) (s : State) (hI : s.Inv) : ResInv (execNopn n s) := by
  unfold execNopn
  try dsimp only
  repeat' (first | (with_reducible assumption) | (with_reducible rfl) | (with_reducible apply next_inv) | (with_reducible refine inv_snd (by assumption) ?_) | (with_reducible refine inv_fst (by assumption) ?_) | (with_reducible apply foldl_inv; intros) | (with_reducible apply foldl_inv2; intros) | (with_reducible apply foldl_inv1; intros) | (simp only [inv_lit]; with_reducible apply keyOk_mk) | (with_reducible apply wrByte_wf) | (with_reducible apply wrBytes_wf) | (with_reducible apply inv_mem) | (with_reducible apply inv_outer) | (exact memWf_nil) | (with_reducible apply onMe_inv) | (intro _) | (with_reducible refine (id ?_ : List.length _ = List.length _); simp; done) | split | dsimp only)

theorem execTtsync_inv (s : State) (hI : s.Inv) : ResInv (execTtsync s) := by
  unfold execTtsync
  try dsimp only
  repeat' (first | (with_reducible assumption) | (with_reducible rfl) | (with_reducible apply next_inv) | (with_reducible refine inv_snd (by assumption) ?_) | (with_reducible refine inv_fst (by assumption) ?_) | (with_reducible apply foldl_inv; intros) | (with_reducible apply foldl_inv2; intros) | (with_reducible apply foldl_inv1; intros) | (simp only [inv_lit]; with_reducible apply keyOk_mk) | (with_reducible apply wrByte_wf) | (with_reducible apply wrBytes_wf) | (with_reducible apply inv_mem) | (with_reducible apply inv_outer) | (exact memWf_nil) | (with_reducible apply State.beginHold_inv) | (with_reducible apply onMe_inv) | (intro _) | (with_reducible refine (id ?_ : List.length _ = List.length _); simp; done) | split | dsimp only)

theorem execPini_inv (sa sb : BitVec 5) (s : State) (hI : s.Inv) : ResInv (execPini sa sb s) := by
  unfold execPini
  try dsimp only
  repeat' (first | (with_reducible assumption) | (with_reducible rfl) | (with_reducible apply next_inv) | (with_reducible refine inv_snd (by assumption) ?_) | (with_reducible refine inv_fst (by assumption) ?_) | (with_reducible apply foldl_inv; intros) | (with_reducible apply foldl_inv2; intros) | (with_reducible apply foldl_inv1; intros) | (simp only [inv_lit]; with_reducible apply keyOk_mk) | (with_reducible apply wrByte_wf) | (with_reducible apply wrBytes_wf) | (with_reducible apply inv_mem) | (with_reducible apply inv_outer) | (exact memWf_nil) | (with_reducible apply guard_inv) | (with_reducible apply onMe_inv) | (with_reducible apply State.issueTrap_inv) | (intro _) | (with_reducible refine (id ?_ : List.length _ = List.length _); simp; done) | split | dsimp only)

theorem execParr_inv (sa : BitVec 5) (s : State) (hI : s.Inv) : ResInv (execParr sa s) := by
  unfold execParr
  try dsimp only
  repeat' (first | (with_reducible assumption) | (with_reducible rfl) | (with_reducible apply next_inv) | (with_reducible refine inv_snd (by assumption) ?_) | (with_reducible refine inv_fst (by assumption) ?_) | (with_reducible apply foldl_inv; intros) | (with_reducible apply foldl_inv2; intros) | (with_reducible apply foldl_inv1; intros) | (simp only [inv_lit]; with_reducible apply keyOk_mk) | (with_reducible apply wrByte_wf) | (with_reducible apply wrBytes_wf) | (with_reducible apply inv_mem) | (with_reducible apply inv_outer) | (exact memWf_nil) | (with_reducible apply guard_inv) | (with_reducible apply onMe_inv) | (with_reducible apply State.issueTrap_inv) | (intro _) | (with_reducible refine (id ?_ : List.length _ = List.length _); simp; done) | split | dsimp only)

theorem State.penWait_inv (s : State) (a : Nat) (phase : Bool) (hI : s.Inv) : (State.penWait s a phase).Inv := by
  unfold State.penWait
  try dsimp only
  repeat' (first | (with_reducible assumption) | (with_reducible rfl) | (with_reducible apply next_inv) | (with_reducible refine inv_snd (by assumption) ?_) | (with_reducible refine inv_fst (by assumption) ?_) | (with_reducible apply foldl_inv; intros) | (with_reducible apply foldl_inv2; intros) | (with_reducible apply foldl_inv1; intros) | (simp only [inv_lit]; with_reducible apply keyOk_mk) | (with_reducible apply wrByte_wf) | (with_reducible apply wrBytes_wf) | (with_reducible apply inv_mem) | (with_reducible apply inv_outer) | (exact memWf_nil) | (with_reducible apply onMe_inv) | (with_reducible apply State.dropPeer_inv) | (with_reducible apply State.beginHold_inv) | (intro _) | (with_reducible refine (id ?_ : List.length _ = List.length _); simp; done) | split | dsimp only)

theorem execPwait_inv (sa sb : BitVec 5) (s : State) (hI : s.Inv) : ResInv (execPwait sa sb s) := by
  unfold execPwait
  try dsimp only
  repeat' (first | (with_reducible assumption) | (with_reducible rfl) | (with_reducible apply next_inv) | (with_reducible refine inv_snd (by assumption) ?_) | (with_reducible refine inv_fst (by assumption) ?_) | (with_reducible apply foldl_inv; intros) | (with_reducible apply foldl_inv2; intros) | (with_reducible apply foldl_inv1; intros) | (simp only [inv_lit]; with_reducible apply keyOk_mk) | (with_reducible apply wrByte_wf) | (with_reducible apply wrBytes_wf) | (with_reducible apply inv_mem) | (with_reducible apply inv_outer) | (exact memWf_nil) | (with_reducible apply guard_inv) | (with_reducible apply State.penWait_inv) | (with_reducible apply State.issueTrap_inv) | (intro _) | (with_reducible refine (id ?_ : List.length _ = List.length _); simp; done) | split | dsimp only)

theorem execPwaitImm_inv (sa : BitVec 5) (ph : Bool) (s : State) (hI : s.Inv) : ResInv (execPwaitImm sa ph s) := by
  unfold execPwaitImm
  try dsimp only
  repeat' (first | (with_reducible assumption) | (with_reducible rfl) | (with_reducible apply next_inv) | (with_reducible refine inv_snd (by assumption) ?_) | (with_reducible refine inv_fst (by assumption) ?_) | (with_reducible apply foldl_inv; intros) | (with_reducible apply foldl_inv2; intros) | (with_reducible apply foldl_inv1; intros) | (simp only [inv_lit]; with_reducible apply keyOk_mk) | (with_reducible apply wrByte_wf) | (with_reducible apply wrBytes_wf) | (with_reducible apply inv_mem) | (with_reducible apply inv_outer) | (exact memWf_nil) | (with_reducible apply guard_inv) | (with_reducible apply State.penWait_inv) | (with_reducible apply State.issueTrap_inv) | (intro _) | (with_reducible refine (id ?_ : List.length _ = List.length _); simp; done) | split | dsimp only)

theorem execBset_inv (sc : Scope) (sa sb : BitVec 5) (s : State) (hI : s.Inv) : ResInv (execBset sc sa sb s) := by
  unfold execBset
  try dsimp only
  repeat' (first | (with_reducible assumption) | (with_reducible rfl) | (with_reducible apply next_inv) | (with_reducible refine inv_snd (by assumption) ?_) | (with_reducible refine inv_fst (by assumption) ?_) | (with_reducible apply foldl_inv; intros) | (with_reducible apply foldl_inv2; intros) | (with_reducible apply foldl_inv1; intros) | (simp only [inv_lit]; with_reducible apply keyOk_mk) | (with_reducible apply wrByte_wf) | (with_reducible apply wrBytes_wf) | (with_reducible apply inv_mem) | (with_reducible apply inv_outer) | (exact memWf_nil) | (with_reducible apply guard_inv) | (with_reducible apply State.post_inv) | (with_reducible apply onMe_inv) | (with_reducible apply State.issueTrap_inv) | (intro _) | (with_reducible refine (id ?_ : List.length _ = List.length _); simp; done) | split | dsimp only)

theorem execBwait_inv (sc : Scope) (sa sb : BitVec 5) (s : State) (hI : s.Inv) : ResInv (execBwait sc sa sb s) := by
  unfold execBwait
  try dsimp only
  repeat' (first | (with_reducible assumption) | (with_reducible rfl) | (with_reducible apply next_inv) | (with_reducible refine inv_snd (by assumption) ?_) | (with_reducible refine inv_fst (by assumption) ?_) | (with_reducible apply foldl_inv; intros) | (with_reducible apply foldl_inv2; intros) | (with_reducible apply foldl_inv1; intros) | (simp only [inv_lit]; with_reducible apply keyOk_mk) | (with_reducible apply wrByte_wf) | (with_reducible apply wrBytes_wf) | (with_reducible apply inv_mem) | (with_reducible apply inv_outer) | (exact memWf_nil) | (with_reducible apply guard_inv) | (with_reducible apply State.freeIn_inv) | (with_reducible apply State.beginHold_inv) | (with_reducible apply State.issueTrap_inv) | (intro _) | (with_reducible refine (id ?_ : List.length _ = List.length _); simp; done) | split | dsimp only)

/-! ### SlotSys -/

theorem execLdf_inv (sgn : Bool) (sz : MSize) (sd sa : BitVec 5) (off : BitVec 12) (s : State) (hI : s.Inv) : ResInv (execLdf sgn sz sd sa off s) := by
  unfold execLdf
  try dsimp only
  repeat' (first | (with_reducible assumption) | (with_reducible rfl) | (with_reducible apply next_inv) | (with_reducible refine inv_snd (by assumption) ?_) | (with_reducible refine inv_fst (by assumption) ?_) | (with_reducible apply foldl_inv; intros) | (with_reducible apply foldl_inv2; intros) | (with_reducible apply foldl_inv1; intros) | (simp only [inv_lit]; with_reducible apply keyOk_mk) | (with_reducible apply wrByte_wf) | (with_reducible apply wrBytes_wf) | (with_reducible apply inv_mem) | (with_reducible apply inv_outer) | (exact memWf_nil) | (with_reducible apply guard_inv) | (with_reducible apply State.beginFar_inv) | (with_reducible apply State.issueTrap_inv) | (intro _) | (with_reducible refine (id ?_ : List.length _ = List.length _); simp; done) | split | dsimp only)

theorem execStf_inv (sz : MSize) (sd sa : BitVec 5) (off : BitVec 12) (s : State) (hI : s.Inv) : ResInv (execStf sz sd sa off s) := by
  unfold execStf
  try dsimp only
  repeat' (first | (with_reducible assumption) | (with_reducible rfl) | (with_reducible apply next_inv) | (with_reducible refine inv_snd (by assumption) ?_) | (with_reducible refine inv_fst (by assumption) ?_) | (with_reducible apply foldl_inv; intros) | (with_reducible apply foldl_inv2; intros) | (with_reducible apply foldl_inv1; intros) | (simp only [inv_lit]; with_reducible apply keyOk_mk) | (with_reducible apply wrByte_wf) | (with_reducible apply wrBytes_wf) | (with_reducible apply inv_mem) | (with_reducible apply inv_outer) | (exact memWf_nil) | (with_reducible apply guard_inv) | (with_reducible apply State.beginFar_inv) | (with_reducible apply State.issueTrap_inv) | (intro _) | (with_reducible refine (id ?_ : List.length _ = List.length _); simp; done) | split | dsimp only)

theorem execAtom_inv (op : AtomOp) (sgn w64 rtn : Bool) (ord : MOrder) (sc : Scope) (sd sa sb : BitVec 5) (s : State) (hI : s.Inv) : ResInv (execAtom op sgn w64 rtn ord sc sd sa sb s) := by
  unfold execAtom
  try dsimp only
  repeat' (first | (with_reducible assumption) | (with_reducible rfl) | (with_reducible apply next_inv) | (with_reducible refine inv_snd (by assumption) ?_) | (with_reducible refine inv_fst (by assumption) ?_) | (with_reducible apply foldl_inv; intros) | (with_reducible apply foldl_inv2; intros) | (with_reducible apply foldl_inv1; intros) | (simp only [inv_lit]; with_reducible apply keyOk_mk) | (with_reducible apply wrByte_wf) | (with_reducible apply wrBytes_wf) | (with_reducible apply inv_mem) | (with_reducible apply inv_outer) | (exact memWf_nil) | (with_reducible apply guard_inv) | (with_reducible apply State.post_inv) | (with_reducible apply State.beginFar_inv) | (with_reducible apply onMe_inv) | (with_reducible apply State.issueTrap_inv) | (intro _) | (with_reducible refine (id ?_ : List.length _ = List.length _); simp; done) | split | dsimp only)

theorem State.fenceRel_inv (s : State) (acq : Bool) (sc : Scope) (hI : s.Inv) : (State.fenceRel s acq sc).Inv := by
  unfold State.fenceRel
  try dsimp only
  repeat' (first | (with_reducible assumption) | (with_reducible rfl) | (with_reducible apply next_inv) | (with_reducible refine inv_snd (by assumption) ?_) | (with_reducible refine inv_fst (by assumption) ?_) | (with_reducible apply foldl_inv; intros) | (with_reducible apply foldl_inv2; intros) | (with_reducible apply foldl_inv1; intros) | (simp only [inv_lit]; with_reducible apply keyOk_mk) | (with_reducible apply wrByte_wf) | (with_reducible apply wrBytes_wf) | (with_reducible apply inv_mem) | (with_reducible apply inv_outer) | (exact memWf_nil) | (with_reducible apply onMe_inv) | (intro _) | (with_reducible refine (id ?_ : List.length _ = List.length _); simp; done) | split | dsimp only)

theorem execFence_inv (kind : FenceKind) (sc : Scope) (s : State) (hI : s.Inv) : ResInv (execFence kind sc s) := by
  unfold execFence
  try dsimp only
  repeat' (first | (with_reducible assumption) | (with_reducible rfl) | (with_reducible apply next_inv) | (with_reducible refine inv_snd (by assumption) ?_) | (with_reducible refine inv_fst (by assumption) ?_) | (with_reducible apply foldl_inv; intros) | (with_reducible apply foldl_inv2; intros) | (with_reducible apply foldl_inv1; intros) | (simp only [inv_lit]; with_reducible apply keyOk_mk) | (with_reducible apply wrByte_wf) | (with_reducible apply wrBytes_wf) | (with_reducible apply inv_mem) | (with_reducible apply inv_outer) | (exact memWf_nil) | (with_reducible apply State.fenceAcq_inv) | (with_reducible apply State.fenceRel_inv) | (intro _) | (with_reducible refine (id ?_ : List.length _ = List.length _); simp; done) | split | dsimp only)

theorem execCred_inv (op : RedOp) (sd : BitVec 5) (aa : BitVec 4) (s : State) (hI : s.Inv) : ResInv (execCred op sd aa s) := by
  unfold execCred
  try dsimp only
  repeat' (first | (with_reducible assumption) | (with_reducible rfl) | (with_reducible apply next_inv) | (with_reducible refine inv_snd (by assumption) ?_) | (with_reducible refine inv_fst (by assumption) ?_) | (with_reducible apply foldl_inv; intros) | (with_reducible apply foldl_inv2; intros) | (with_reducible apply foldl_inv1; intros) | (simp only [inv_lit]; with_reducible apply keyOk_mk) | (with_reducible apply wrByte_wf) | (with_reducible apply wrBytes_wf) | (with_reducible apply inv_mem) | (with_reducible apply inv_outer) | (exact memWf_nil) | (with_reducible apply State.sOut_inv) | (intro _) | (with_reducible refine (id ?_ : List.length _ = List.length _); simp; done) | split | dsimp only)

theorem execCmsk_inv (m : CmskOp) (s : State) (hI : s.Inv) : ResInv (execCmsk m s) := by
  unfold execCmsk
  try dsimp only
  repeat' (first | (with_reducible assumption) | (with_reducible rfl) | (with_reducible apply next_inv) | (with_reducible refine inv_snd (by assumption) ?_) | (with_reducible refine inv_fst (by assumption) ?_) | (with_reducible apply foldl_inv; intros) | (with_reducible apply foldl_inv2; intros) | (with_reducible apply foldl_inv1; intros) | (simp only [inv_lit]; with_reducible apply keyOk_mk) | (with_reducible apply wrByte_wf) | (with_reducible apply wrBytes_wf) | (with_reducible apply inv_mem) | (with_reducible apply inv_outer) | (exact memWf_nil) | (with_reducible apply onMe_inv) | (intro _) | (with_reducible refine (id ?_ : List.length _ = List.length _); simp; done) | split | dsimp only)

theorem execTex_inv (ek : BitVec 3) (imm : BitVec 16) (s : State) (hI : s.Inv) : ResInv (execTex ek imm s) := by
  unfold execTex
  try dsimp only
  repeat' (first | (with_reducible assumption) | (with_reducible rfl) | (with_reducible apply next_inv) | (with_reducible refine inv_snd (by assumption) ?_) | (with_reducible refine inv_fst (by assumption) ?_) | (with_reducible apply foldl_inv; intros) | (with_reducible apply foldl_inv2; intros) | (with_reducible apply foldl_inv1; intros) | (simp only [inv_lit]; with_reducible apply keyOk_mk) | (with_reducible apply wrByte_wf) | (with_reducible apply wrBytes_wf) | (with_reducible apply inv_mem) | (with_reducible apply inv_outer) | (exact memWf_nil) | (with_reducible apply onMe_inv) | (intro _) | (with_reducible refine (id ?_ : List.length _ = List.length _); simp; done) | split | dsimp only)

theorem execTexReg_inv (ek : BitVec 3) (sa : BitVec 5) (imm : BitVec 16) (s : State) (hI : s.Inv) : ResInv (execTexReg ek sa imm s) := by
  unfold execTexReg
  try dsimp only
  repeat' (first | (with_reducible assumption) | (with_reducible rfl) | (with_reducible apply next_inv) | (with_reducible refine inv_snd (by assumption) ?_) | (with_reducible refine inv_fst (by assumption) ?_) | (with_reducible apply foldl_inv; intros) | (with_reducible apply foldl_inv2; intros) | (with_reducible apply foldl_inv1; intros) | (simp only [inv_lit]; with_reducible apply keyOk_mk) | (with_reducible apply wrByte_wf) | (with_reducible apply wrBytes_wf) | (with_reducible apply inv_mem) | (with_reducible apply inv_outer) | (exact memWf_nil) | (with_reducible apply onMe_inv) | (intro _) | (with_reducible refine (id ?_ : List.length _ = List.length _); simp; done) | split | dsimp only)

theorem State.foldUpTo_inv (s : State) (c : Nat) (tm : BitVec 4) (hI : s.Inv) : (State.foldUpTo s c tm).Inv := by
  unfold State.foldUpTo
  try dsimp only
  repeat' (first | (with_reducible assumption) | (with_reducible rfl) | (with_reducible apply next_inv) | (with_reducible refine inv_snd (by assumption) ?_) | (with_reducible refine inv_fst (by assumption) ?_) | (with_reducible apply foldl_inv; intros) | (with_reducible apply foldl_inv2; intros) | (with_reducible apply foldl_inv1; intros) | (simp only [inv_lit]; with_reducible apply keyOk_mk) | (with_reducible apply wrByte_wf) | (with_reducible apply wrBytes_wf) | (with_reducible apply inv_mem) | (with_reducible apply inv_outer) | (exact memWf_nil) | (with_reducible apply State.freeIn_inv) | (with_reducible apply onCl_inv) | (intro _) | (with_reducible refine (id ?_ : List.length _ = List.length _); simp; done) | split | dsimp only)

theorem State.foldPrefix_inv (s : State) (tm : BitVec 4) (hI : s.Inv) : (State.foldPrefix s tm).Inv := by
  unfold State.foldPrefix
  try dsimp only
  repeat' (first | (with_reducible assumption) | (with_reducible rfl) | (with_reducible apply next_inv) | (with_reducible refine inv_snd (by assumption) ?_) | (with_reducible refine inv_fst (by assumption) ?_) | (with_reducible apply foldl_inv; intros) | (with_reducible apply foldl_inv2; intros) | (with_reducible apply foldl_inv1; intros) | (simp only [inv_lit]; with_reducible apply keyOk_mk) | (with_reducible apply wrByte_wf) | (with_reducible apply wrBytes_wf) | (with_reducible apply inv_mem) | (with_reducible apply inv_outer) | (exact memWf_nil) | (with_reducible apply State.foldUpTo_inv) | (intro _) | (with_reducible refine (id ?_ : List.length _ = List.length _); simp; done) | split | dsimp only)

theorem execSrr_inv (sd : BitVec 5) (sel : BitVec 12) (s : State) (hI : s.Inv) : ResInv (execSrr sd sel s) := by
  unfold execSrr
  try dsimp only
  repeat' (first | (with_reducible assumption) | (with_reducible rfl) | (with_reducible apply next_inv) | (with_reducible refine inv_snd (by assumption) ?_) | (with_reducible refine inv_fst (by assumption) ?_) | (with_reducible apply foldl_inv; intros) | (with_reducible apply foldl_inv2; intros) | (with_reducible apply foldl_inv1; intros) | (simp only [inv_lit]; with_reducible apply keyOk_mk) | (with_reducible apply wrByte_wf) | (with_reducible apply wrBytes_wf) | (with_reducible apply inv_mem) | (with_reducible apply inv_outer) | (exact memWf_nil) | (with_reducible apply guard_inv) | (with_reducible apply State.beginHold_inv) | (with_reducible apply State.foldPrefix_inv) | (with_reducible apply onMe_inv) | (with_reducible apply State.issueTrap_inv) | (intro _) | (with_reducible refine (id ?_ : List.length _ = List.length _); simp; done) | split | dsimp only)

theorem State.sysWrite_inv (s : State) (sel : BitVec 12) (v : Word) (hI : s.Inv) : (State.sysWrite s sel v).Inv := by
  unfold State.sysWrite
  try dsimp only
  repeat' (first | (with_reducible assumption) | (with_reducible rfl) | (with_reducible apply next_inv) | (with_reducible refine inv_snd (by assumption) ?_) | (with_reducible refine inv_fst (by assumption) ?_) | (with_reducible apply foldl_inv; intros) | (with_reducible apply foldl_inv2; intros) | (with_reducible apply foldl_inv1; intros) | (simp only [inv_lit]; with_reducible apply keyOk_mk) | (with_reducible apply wrByte_wf) | (with_reducible apply wrBytes_wf) | (with_reducible apply inv_mem) | (with_reducible apply inv_outer) | (exact memWf_nil) | (with_reducible apply onMe_inv) | (intro _) | (with_reducible refine (id ?_ : List.length _ = List.length _); simp; done) | split | dsimp only)

theorem execSrw_inv (sel : BitVec 12) (sa : BitVec 5) (s : State) (hI : s.Inv) : ResInv (execSrw sel sa s) := by
  unfold execSrw
  try dsimp only
  repeat' (first | (with_reducible assumption) | (with_reducible rfl) | (with_reducible apply next_inv) | (with_reducible refine inv_snd (by assumption) ?_) | (with_reducible refine inv_fst (by assumption) ?_) | (with_reducible apply foldl_inv; intros) | (with_reducible apply foldl_inv2; intros) | (with_reducible apply foldl_inv1; intros) | (simp only [inv_lit]; with_reducible apply keyOk_mk) | (with_reducible apply wrByte_wf) | (with_reducible apply wrBytes_wf) | (with_reducible apply inv_mem) | (with_reducible apply inv_outer) | (exact memWf_nil) | (with_reducible apply guard_inv) | (with_reducible apply State.sysWrite_inv) | (with_reducible apply State.issueTrap_inv) | (intro _) | (with_reducible refine (id ?_ : List.length _ = List.length _); simp; done) | split | dsimp only)

theorem execRft_inv (s : State) (hI : s.Inv) : ResInv (execRft s) := by
  unfold execRft
  try dsimp only
  repeat' (first | (with_reducible assumption) | (with_reducible rfl) | (with_reducible apply next_inv) | (with_reducible refine inv_snd (by assumption) ?_) | (with_reducible refine inv_fst (by assumption) ?_) | (with_reducible apply foldl_inv; intros) | (with_reducible apply foldl_inv2; intros) | (with_reducible apply foldl_inv1; intros) | (simp only [inv_lit]; with_reducible apply keyOk_mk) | (with_reducible apply wrByte_wf) | (with_reducible apply wrBytes_wf) | (with_reducible apply inv_mem) | (with_reducible apply inv_outer) | (exact memWf_nil) | (with_reducible apply guard_inv) | (with_reducible apply onMe_inv) | (with_reducible apply State.issueTrap_inv) | (intro _) | (with_reducible refine (id ?_ : List.length _ = List.length _); simp; done) | split | dsimp only)

theorem execEndRun_inv (s : State) (hI : s.Inv) : ResInv (execEndRun s) := by
  unfold execEndRun
  try dsimp only
  repeat' (first | (with_reducible assumption) | (with_reducible rfl) | (with_reducible apply next_inv) | (with_reducible refine inv_snd (by assumption) ?_) | (with_reducible refine inv_fst (by assumption) ?_) | (with_reducible apply foldl_inv; intros) | (with_reducible apply foldl_inv2; intros) | (with_reducible apply foldl_inv1; intros) | (simp only [inv_lit]; with_reducible apply keyOk_mk) | (with_reducible apply wrByte_wf) | (with_reducible apply wrBytes_wf) | (with_reducible apply inv_mem) | (with_reducible apply inv_outer) | (exact memWf_nil) | (with_reducible apply State.beginHold_inv) | (with_reducible apply onMe_inv) | (intro _) | (with_reducible refine (id ?_ : List.length _ = List.length _); simp; done) | split | dsimp only)

theorem execLnch_inv (sd sa : BitVec 5) (s : State) (hI : s.Inv) : ResInv (execLnch sd sa s) := by
  unfold execLnch
  try dsimp only
  repeat' (first | (with_reducible assumption) | (with_reducible rfl) | (with_reducible apply next_inv) | (with_reducible refine inv_snd (by assumption) ?_) | (with_reducible refine inv_fst (by assumption) ?_) | (with_reducible apply foldl_inv; intros) | (with_reducible apply foldl_inv2; intros) | (with_reducible apply foldl_inv1; intros) | (simp only [inv_lit]; with_reducible apply keyOk_mk) | (with_reducible apply wrByte_wf) | (with_reducible apply wrBytes_wf) | (with_reducible apply inv_mem) | (with_reducible apply inv_outer) | (exact memWf_nil) | (with_reducible apply guard_inv) | (with_reducible apply State.free_inv) | (with_reducible apply State.beginHold_inv) | (with_reducible apply State.issueTrap_inv) | (intro _) | (with_reducible refine (id ?_ : List.length _ = List.length _); simp; done) | split | dsimp only)

theorem execYieldRun_inv (s : State) (hI : s.Inv) : ResInv (execYieldRun s) := by
  unfold execYieldRun
  try dsimp only
  repeat' (first | (with_reducible assumption) | (with_reducible rfl) | (with_reducible apply next_inv) | (with_reducible refine inv_snd (by assumption) ?_) | (with_reducible refine inv_fst (by assumption) ?_) | (with_reducible apply foldl_inv; intros) | (with_reducible apply foldl_inv2; intros) | (with_reducible apply foldl_inv1; intros) | (simp only [inv_lit]; with_reducible apply keyOk_mk) | (with_reducible apply wrByte_wf) | (with_reducible apply wrBytes_wf) | (with_reducible apply inv_mem) | (with_reducible apply inv_outer) | (exact memWf_nil) | (with_reducible apply onMe_inv) | (intro _) | (with_reducible refine (id ?_ : List.length _ = List.length _); simp; done) | split | dsimp only)

/-! ### SlotA -/

theorem State.aOut_inv (s : State) (ad : BitVec 4) (f : Nat → Core → BitVec 32) (hI : s.Inv) : ResInv (State.aOut s ad f) := by
  unfold State.aOut
  try dsimp only
  repeat' (first | (with_reducible assumption) | (with_reducible rfl) | (with_reducible apply next_inv) | (with_reducible refine inv_snd (by assumption) ?_) | (with_reducible refine inv_fst (by assumption) ?_) | (with_reducible apply foldl_inv; intros) | (with_reducible apply foldl_inv2; intros) | (with_reducible apply foldl_inv1; intros) | (simp only [inv_lit]; with_reducible apply keyOk_mk) | (with_reducible apply wrByte_wf) | (with_reducible apply wrBytes_wf) | (with_reducible apply inv_mem) | (with_reducible apply inv_outer) | (exact memWf_nil) | (with_reducible apply onMe_inv) | (intro _) | (with_reducible refine (id ?_ : List.length _ = List.length _); simp; done) | split | dsimp only)

theorem execAadd_inv (ad aa ab : BitVec 4) (s : State) (hI : s.Inv) : ResInv (execAadd ad aa ab s) := by
  unfold execAadd
  try dsimp only
  repeat' (first | (with_reducible assumption) | (with_reducible rfl) | (with_reducible apply next_inv) | (with_reducible refine inv_snd (by assumption) ?_) | (with_reducible refine inv_fst (by assumption) ?_) | (with_reducible apply foldl_inv; intros) | (with_reducible apply foldl_inv2; intros) | (with_reducible apply foldl_inv1; intros) | (simp only [inv_lit]; with_reducible apply keyOk_mk) | (with_reducible apply wrByte_wf) | (with_reducible apply wrBytes_wf) | (with_reducible apply inv_mem) | (with_reducible apply inv_outer) | (exact memWf_nil) | (with_reducible apply State.aOut_inv) | (intro _) | (with_reducible refine (id ?_ : List.length _ = List.length _); simp; done) | split | dsimp only)

theorem execAsub_inv (ad aa ab : BitVec 4) (s : State) (hI : s.Inv) : ResInv (execAsub ad aa ab s) := by
  unfold execAsub
  try dsimp only
  repeat' (first | (with_reducible assumption) | (with_reducible rfl) | (with_reducible apply next_inv) | (with_reducible refine inv_snd (by assumption) ?_) | (with_reducible refine inv_fst (by assumption) ?_) | (with_reducible apply foldl_inv; intros) | (with_reducible apply foldl_inv2; intros) | (with_reducible apply foldl_inv1; intros) | (simp only [inv_lit]; with_reducible apply keyOk_mk) | (with_reducible apply wrByte_wf) | (with_reducible apply wrBytes_wf) | (with_reducible apply inv_mem) | (with_reducible apply inv_outer) | (exact memWf_nil) | (with_reducible apply State.aOut_inv) | (intro _) | (with_reducible refine (id ?_ : List.length _ = List.length _); simp; done) | split | dsimp only)

theorem execAaddi_inv (ad aa : BitVec 4) (imm : BitVec 18) (s : State) (hI : s.Inv) : ResInv (execAaddi ad aa imm s) := by
  unfold execAaddi
  try dsimp only
  repeat' (first | (with_reducible assumption) | (with_reducible rfl) | (with_reducible apply next_inv) | (with_reducible refine inv_snd (by assumption) ?_) | (with_reducible refine inv_fst (by assumption) ?_) | (with_reducible apply foldl_inv; intros) | (with_reducible apply foldl_inv2; intros) | (with_reducible apply foldl_inv1; intros) | (simp only [inv_lit]; with_reducible apply keyOk_mk) | (with_reducible apply wrByte_wf) | (with_reducible apply wrBytes_wf) | (with_reducible apply inv_mem) | (with_reducible apply inv_outer) | (exact memWf_nil) | (with_reducible apply State.aOut_inv) | (intro _) | (with_reducible refine (id ?_ : List.length _ = List.length _); simp; done) | split | dsimp only)

theorem execAshl_inv (ad aa : BitVec 4) (n : BitVec 5) (s : State) (hI : s.Inv) : ResInv (execAshl ad aa n s) := by
  unfold execAshl
  try dsimp only
  repeat' (first | (with_reducible assumption) | (with_reducible rfl) | (with_reducible apply next_inv) | (with_reducible refine inv_snd (by assumption) ?_) | (with_reducible refine inv_fst (by assumption) ?_) | (with_reducible apply foldl_inv; intros) | (with_reducible apply foldl_inv2; intros) | (with_reducible apply foldl_inv1; intros) | (simp only [inv_lit]; with_reducible apply keyOk_mk) | (with_reducible apply wrByte_wf) | (with_reducible apply wrBytes_wf) | (with_reducible apply inv_mem) | (with_reducible apply inv_outer) | (exact memWf_nil) | (with_reducible apply State.aOut_inv) | (intro _) | (with_reducible refine (id ?_ : List.length _ = List.length _); simp; done) | split | dsimp only)

theorem execAmov_inv (ad aa : BitVec 4) (s : State) (hI : s.Inv) : ResInv (execAmov ad aa s) := by
  unfold execAmov
  try dsimp only
  repeat' (first | (with_reducible assumption) | (with_reducible rfl) | (with_reducible apply next_inv) | (with_reducible refine inv_snd (by assumption) ?_) | (with_reducible refine inv_fst (by assumption) ?_) | (with_reducible apply foldl_inv; intros) | (with_reducible apply foldl_inv2; intros) | (with_reducible apply foldl_inv1; intros) | (simp only [inv_lit]; with_reducible apply keyOk_mk) | (with_reducible apply wrByte_wf) | (with_reducible apply wrBytes_wf) | (with_reducible apply inv_mem) | (with_reducible apply inv_outer) | (exact memWf_nil) | (with_reducible apply State.aOut_inv) | (intro _) | (with_reducible refine (id ?_ : List.length _ = List.length _); simp; done) | split | dsimp only)

theorem execAldi_inv (ad : BitVec 4) (imm : BitVec 18) (s : State) (hI : s.Inv) : ResInv (execAldi ad imm s) := by
  unfold execAldi
  try dsimp only
  repeat' (first | (with_reducible assumption) | (with_reducible rfl) | (with_reducible apply next_inv) | (with_reducible refine inv_snd (by assumption) ?_) | (with_reducible refine inv_fst (by assumption) ?_) | (with_reducible apply foldl_inv; intros) | (with_reducible apply foldl_inv2; intros) | (with_reducible apply foldl_inv1; intros) | (simp only [inv_lit]; with_reducible apply keyOk_mk) | (with_reducible apply wrByte_wf) | (with_reducible apply wrBytes_wf) | (with_reducible apply inv_mem) | (with_reducible apply inv_outer) | (exact memWf_nil) | (with_reducible apply State.aOut_inv) | (intro _) | (with_reducible refine (id ?_ : List.length _ = List.length _); simp; done) | split | dsimp only)

theorem execAcix_inv (m : CixMode) (ad : BitVec 4) (s : State) (hI : s.Inv) : ResInv (execAcix m ad s) := by
  unfold execAcix
  try dsimp only
  repeat' (first | (with_reducible assumption) | (with_reducible rfl) | (with_reducible apply next_inv) | (with_reducible refine inv_snd (by assumption) ?_) | (with_reducible refine inv_fst (by assumption) ?_) | (with_reducible apply foldl_inv; intros) | (with_reducible apply foldl_inv2; intros) | (with_reducible apply foldl_inv1; intros) | (simp only [inv_lit]; with_reducible apply keyOk_mk) | (with_reducible apply wrByte_wf) | (with_reducible apply wrBytes_wf) | (with_reducible apply inv_mem) | (with_reducible apply inv_outer) | (exact memWf_nil) | (with_reducible apply State.aOut_inv) | (intro _) | (with_reducible refine (id ?_ : List.length _ = List.length _); simp; done) | split | dsimp only)

theorem execAfroms_inv (ad : BitVec 4) (n : BitVec 5) (s : State) (hI : s.Inv) : ResInv (execAfroms ad n s) := by
  unfold execAfroms
  try dsimp only
  repeat' (first | (with_reducible assumption) | (with_reducible rfl) | (with_reducible apply next_inv) | (with_reducible refine inv_snd (by assumption) ?_) | (with_reducible refine inv_fst (by assumption) ?_) | (with_reducible apply foldl_inv; intros) | (with_reducible apply foldl_inv2; intros) | (with_reducible apply foldl_inv1; intros) | (simp only [inv_lit]; with_reducible apply keyOk_mk) | (with_reducible apply wrByte_wf) | (with_reducible apply wrBytes_wf) | (with_reducible apply inv_mem) | (with_reducible apply inv_outer) | (exact memWf_nil) | (with_reducible apply State.aOut_inv) | (intro _) | (with_reducible refine (id ?_ : List.length _ = List.length _); simp; done) | split | dsimp only)

theorem State.tmOut_inv (s : State) (tm : BitVec 4) (fld : Fin 53) (v : Word) (hI : s.Inv) : ResInv (State.tmOut s tm fld v) := by
  unfold State.tmOut
  try dsimp only
  repeat' (first | (with_reducible assumption) | (with_reducible rfl) | (with_reducible apply next_inv) | (with_reducible refine inv_snd (by assumption) ?_) | (with_reducible refine inv_fst (by assumption) ?_) | (with_reducible apply foldl_inv; intros) | (with_reducible apply foldl_inv2; intros) | (with_reducible apply foldl_inv1; intros) | (simp only [inv_lit]; with_reducible apply keyOk_mk) | (with_reducible apply wrByte_wf) | (with_reducible apply wrBytes_wf) | (with_reducible apply inv_mem) | (with_reducible apply inv_outer) | (exact memWf_nil) | (with_reducible apply onMe_inv) | (intro _) | (with_reducible refine (id ?_ : List.length _ = List.length _); simp; done) | split | dsimp only)

theorem execShw_inv (tm : BitVec 4) (fld : Fin 53) (sm : BitVec 5) (s : State) (hI : s.Inv) : ResInv (execShw tm fld sm s) := by
  unfold execShw
  try dsimp only
  repeat' (first | (with_reducible assumption) | (with_reducible rfl) | (with_reducible apply next_inv) | (with_reducible refine inv_snd (by assumption) ?_) | (with_reducible refine inv_fst (by assumption) ?_) | (with_reducible apply foldl_inv; intros) | (with_reducible apply foldl_inv2; intros) | (with_reducible apply foldl_inv1; intros) | (simp only [inv_lit]; with_reducible apply keyOk_mk) | (with_reducible apply wrByte_wf) | (with_reducible apply wrBytes_wf) | (with_reducible apply inv_mem) | (with_reducible apply inv_outer) | (exact memWf_nil) | (with_reducible apply State.tmOut_inv) | (intro _) | (with_reducible refine (id ?_ : List.length _ = List.length _); simp; done) | split | dsimp only)

theorem execShwi_inv (tm : BitVec 4) (fld : Fin 53) (imm : BitVec 11) (s : State) (hI : s.Inv) : ResInv (execShwi tm fld imm s) := by
  unfold execShwi
  try dsimp only
  repeat' (first | (with_reducible assumption) | (with_reducible rfl) | (with_reducible apply next_inv) | (with_reducible refine inv_snd (by assumption) ?_) | (with_reducible refine inv_fst (by assumption) ?_) | (with_reducible apply foldl_inv; intros) | (with_reducible apply foldl_inv2; intros) | (with_reducible apply foldl_inv1; intros) | (simp only [inv_lit]; with_reducible apply keyOk_mk) | (with_reducible apply wrByte_wf) | (with_reducible apply wrBytes_wf) | (with_reducible apply inv_mem) | (with_reducible apply inv_outer) | (exact memWf_nil) | (with_reducible apply State.tmOut_inv) | (intro _) | (with_reducible refine (id ?_ : List.length _ = List.length _); simp; done) | split | dsimp only)

theorem State.ftOut_inv (s : State) (ft : BitVec 3) (fld : Option FtField) (v : Word) (hI : s.Inv) : ResInv (State.ftOut s ft fld v) := by
  unfold State.ftOut
  try dsimp only
  repeat' (first | (with_reducible assumption) | (with_reducible rfl) | (with_reducible apply next_inv) | (with_reducible refine inv_snd (by assumption) ?_) | (with_reducible refine inv_fst (by assumption) ?_) | (with_reducible apply foldl_inv; intros) | (with_reducible apply foldl_inv2; intros) | (with_reducible apply foldl_inv1; intros) | (simp only [inv_lit]; with_reducible apply keyOk_mk) | (with_reducible apply wrByte_wf) | (with_reducible apply wrBytes_wf) | (with_reducible apply inv_mem) | (with_reducible apply inv_outer) | (exact memWf_nil) | (with_reducible apply onMe_inv) | (intro _) | (with_reducible refine (id ?_ : List.length _ = List.length _); simp; done) | split | dsimp only)

theorem execFtw_inv (ft : BitVec 3) (sm : BitVec 5) (s : State) (hI : s.Inv) : ResInv (execFtw ft sm s) := by
  unfold execFtw
  try dsimp only
  repeat' (first | (with_reducible assumption) | (with_reducible rfl) | (with_reducible apply next_inv) | (with_reducible refine inv_snd (by assumption) ?_) | (with_reducible refine inv_fst (by assumption) ?_) | (with_reducible apply foldl_inv; intros) | (with_reducible apply foldl_inv2; intros) | (with_reducible apply foldl_inv1; intros) | (simp only [inv_lit]; with_reducible apply keyOk_mk) | (with_reducible apply wrByte_wf) | (with_reducible apply wrBytes_wf) | (with_reducible apply inv_mem) | (with_reducible apply inv_outer) | (exact memWf_nil) | (with_reducible apply State.ftOut_inv) | (intro _) | (with_reducible refine (id ?_ : List.length _ = List.length _); simp; done) | split | dsimp only)

theorem execFtwField_inv (ft : BitVec 3) (fld : FtField) (imm : BitVec 11) (s : State) (hI : s.Inv) : ResInv (execFtwField ft fld imm s) := by
  unfold execFtwField
  try dsimp only
  repeat' (first | (with_reducible assumption) | (with_reducible rfl) | (with_reducible apply next_inv) | (with_reducible refine inv_snd (by assumption) ?_) | (with_reducible refine inv_fst (by assumption) ?_) | (with_reducible apply foldl_inv; intros) | (with_reducible apply foldl_inv2; intros) | (with_reducible apply foldl_inv1; intros) | (simp only [inv_lit]; with_reducible apply keyOk_mk) | (with_reducible apply wrByte_wf) | (with_reducible apply wrBytes_wf) | (with_reducible apply inv_mem) | (with_reducible apply inv_outer) | (exact memWf_nil) | (with_reducible apply State.ftOut_inv) | (intro _) | (with_reducible refine (id ?_ : List.length _ = List.length _); simp; done) | split | dsimp only)

/-! ### SlotL -/

theorem State.loadV_inv (s : State) (vt : BitVec 6) (ops : List VSrc) (acc : Core → LAccess) (hI : s.Inv) : ResInv (State.loadV s vt ops acc) := by
  unfold State.loadV
  try dsimp only
  repeat' (first | (with_reducible assumption) | (with_reducible rfl) | (with_reducible apply next_inv) | (with_reducible refine inv_snd (by assumption) ?_) | (with_reducible refine inv_fst (by assumption) ?_) | (with_reducible apply foldl_inv; intros) | (with_reducible apply foldl_inv2; intros) | (with_reducible apply foldl_inv1; intros) | (simp only [inv_lit]; with_reducible apply keyOk_mk) | (with_reducible apply wrByte_wf) | (with_reducible apply wrBytes_wf) | (with_reducible apply inv_mem) | (with_reducible apply inv_outer) | (exact memWf_nil) | (with_reducible apply guard_inv) | (with_reducible apply onMe_inv) | (with_reducible apply State.issueTrap_inv) | (intro _) | (with_reducible refine (id ?_ : List.length _ = List.length _); simp; done) | split | dsimp only)

theorem State.storeV_inv (s : State) (ops : List VSrc) (vt : VSrc) (acc : Core → LAccess) (hI : s.Inv) : ResInv (State.storeV s ops vt acc) := by
  unfold State.storeV
  try dsimp only
  repeat' (first | (with_reducible assumption) | (with_reducible rfl) | (with_reducible apply next_inv) | (with_reducible refine inv_snd (by assumption) ?_) | (with_reducible refine inv_fst (by assumption) ?_) | (with_reducible apply foldl_inv; intros) | (with_reducible apply foldl_inv2; intros) | (with_reducible apply foldl_inv1; intros) | (simp only [inv_lit]; with_reducible apply keyOk_mk) | (with_reducible apply wrByte_wf) | (with_reducible apply wrBytes_wf) | (with_reducible apply inv_mem) | (with_reducible apply inv_outer) | (exact memWf_nil) | (with_reducible apply guard_inv) | (with_reducible apply onMe_inv) | (with_reducible apply State.issueTrap_inv) | (intro _) | (with_reducible refine (id ?_ : List.length _ = List.length _); simp; done) | split | dsimp only)

theorem execVld_inv (vt : BitVec 6) (aa pd : BitVec 4) (_ck : Chk) (off : BitVec 6) (s : State) (hI : s.Inv) : ResInv (execVld vt aa pd _ck off s) := by
  unfold execVld
  try dsimp only
  repeat' (first | (with_reducible assumption) | (with_reducible rfl) | (with_reducible apply next_inv) | (with_reducible refine inv_snd (by assumption) ?_) | (with_reducible refine inv_fst (by assumption) ?_) | (with_reducible apply foldl_inv; intros) | (with_reducible apply foldl_inv2; intros) | (with_reducible apply foldl_inv1; intros) | (simp only [inv_lit]; with_reducible apply keyOk_mk) | (with_reducible apply wrByte_wf) | (with_reducible apply wrBytes_wf) | (with_reducible apply inv_mem) | (with_reducible apply inv_outer) | (exact memWf_nil) | (with_reducible apply State.loadV_inv) | (intro _) | (with_reducible refine (id ?_ : List.length _ = List.length _); simp; done) | split | dsimp only)

theorem execVst_inv (vt : VSrc) (aa pd : BitVec 4) (off : BitVec 6) (s : State) (hI : s.Inv) : ResInv (execVst vt aa pd off s) := by
  unfold execVst
  try dsimp only
  repeat' (first | (with_reducible assumption) | (with_reducible rfl) | (with_reducible apply next_inv) | (with_reducible refine inv_snd (by assumption) ?_) | (with_reducible refine inv_fst (by assumption) ?_) | (with_reducible apply foldl_inv; intros) | (with_reducible apply foldl_inv2; intros) | (with_reducible apply foldl_inv1; intros) | (simp only [inv_lit]; with_reducible apply keyOk_mk) | (with_reducible apply wrByte_wf) | (with_reducible apply wrBytes_wf) | (with_reducible apply inv_mem) | (with_reducible apply inv_outer) | (exact memWf_nil) | (with_reducible apply State.storeV_inv) | (intro _) | (with_reducible refine (id ?_ : List.length _ = List.length _); simp; done) | split | dsimp only)

theorem execVldb_inv (vt : BitVec 6) (aa pd : BitVec 4) (_ck : Chk) (off : BitVec 6) (s : State) (hI : s.Inv) : ResInv (execVldb vt aa pd _ck off s) := by
  unfold execVldb
  try dsimp only
  repeat' (first | (with_reducible assumption) | (with_reducible rfl) | (with_reducible apply next_inv) | (with_reducible refine inv_snd (by assumption) ?_) | (with_reducible refine inv_fst (by assumption) ?_) | (with_reducible apply foldl_inv; intros) | (with_reducible apply foldl_inv2; intros) | (with_reducible apply foldl_inv1; intros) | (simp only [inv_lit]; with_reducible apply keyOk_mk) | (with_reducible apply wrByte_wf) | (with_reducible apply wrBytes_wf) | (with_reducible apply inv_mem) | (with_reducible apply inv_outer) | (exact memWf_nil) | (with_reducible apply State.loadV_inv) | (intro _) | (with_reducible refine (id ?_ : List.length _ = List.length _); simp; done) | split | dsimp only)

theorem execVlds_inv (vt : BitVec 6) (aa pd : BitVec 4) (_ck : Chk) (stride : BitVec 6) (s : State) (hI : s.Inv) : ResInv (execVlds vt aa pd _ck stride s) := by
  unfold execVlds
  try dsimp only
  repeat' (first | (with_reducible assumption) | (with_reducible rfl) | (with_reducible apply next_inv) | (with_reducible refine inv_snd (by assumption) ?_) | (with_reducible refine inv_fst (by assumption) ?_) | (with_reducible apply foldl_inv; intros) | (with_reducible apply foldl_inv2; intros) | (with_reducible apply foldl_inv1; intros) | (simp only [inv_lit]; with_reducible apply keyOk_mk) | (with_reducible apply wrByte_wf) | (with_reducible apply wrBytes_wf) | (with_reducible apply inv_mem) | (with_reducible apply inv_outer) | (exact memWf_nil) | (with_reducible apply State.loadV_inv) | (intro _) | (with_reducible refine (id ?_ : List.length _ = List.length _); simp; done) | split | dsimp only)

theorem execVldx_inv (half : Bool) (vt : BitVec 6) (aa pd : BitVec 4) (vi : VSrc) (s : State) (hI : s.Inv) : ResInv (execVldx half vt aa pd vi s) := by
  unfold execVldx
  try dsimp only
  repeat' (first | (with_reducible assumption) | (with_reducible rfl) | (with_reducible apply next_inv) | (with_reducible refine inv_snd (by assumption) ?_) | (with_reducible refine inv_fst (by assumption) ?_) | (with_reducible apply foldl_inv; intros) | (with_reducible apply foldl_inv2; intros) | (with_reducible apply foldl_inv1; intros) | (simp only [inv_lit]; with_reducible apply keyOk_mk) | (with_reducible apply wrByte_wf) | (with_reducible apply wrBytes_wf) | (with_reducible apply inv_mem) | (with_reducible apply inv_outer) | (exact memWf_nil) | (with_reducible apply State.loadV_inv) | (intro _) | (with_reducible refine (id ?_ : List.length _ = List.length _); simp; done) | split | dsimp only)

theorem execVstx_inv (half : Bool) (vt : VSrc) (aa pd : BitVec 4) (vi : VSrc) (s : State) (hI : s.Inv) : ResInv (execVstx half vt aa pd vi s) := by
  unfold execVstx
  try dsimp only
  repeat' (first | (with_reducible assumption) | (with_reducible rfl) | (with_reducible apply next_inv) | (with_reducible refine inv_snd (by assumption) ?_) | (with_reducible refine inv_fst (by assumption) ?_) | (with_reducible apply foldl_inv; intros) | (with_reducible apply foldl_inv2; intros) | (with_reducible apply foldl_inv1; intros) | (simp only [inv_lit]; with_reducible apply keyOk_mk) | (with_reducible apply wrByte_wf) | (with_reducible apply wrBytes_wf) | (with_reducible apply inv_mem) | (with_reducible apply inv_outer) | (exact memWf_nil) | (with_reducible apply State.storeV_inv) | (intro _) | (with_reducible refine (id ?_ : List.length _ = List.length _); simp; done) | split | dsimp only)

theorem execPld_inv (pt aa : BitVec 4) (_ck : Chk) (off : BitVec 6) (s : State) (hI : s.Inv) : ResInv (execPld pt aa _ck off s) := by
  unfold execPld
  try dsimp only
  repeat' (first | (with_reducible assumption) | (with_reducible rfl) | (with_reducible apply next_inv) | (with_reducible refine inv_snd (by assumption) ?_) | (with_reducible refine inv_fst (by assumption) ?_) | (with_reducible apply foldl_inv; intros) | (with_reducible apply foldl_inv2; intros) | (with_reducible apply foldl_inv1; intros) | (simp only [inv_lit]; with_reducible apply keyOk_mk) | (with_reducible apply wrByte_wf) | (with_reducible apply wrBytes_wf) | (with_reducible apply inv_mem) | (with_reducible apply inv_outer) | (exact memWf_nil) | (with_reducible apply guard_inv) | (with_reducible apply onMe_inv) | (with_reducible apply State.issueTrap_inv) | (intro _) | (with_reducible refine (id ?_ : List.length _ = List.length _); simp; done) | split | dsimp only)

theorem execPst_inv (pt aa : BitVec 4) (off : BitVec 6) (s : State) (hI : s.Inv) : ResInv (execPst pt aa off s) := by
  unfold execPst
  try dsimp only
  repeat' (first | (with_reducible assumption) | (with_reducible rfl) | (with_reducible apply next_inv) | (with_reducible refine inv_snd (by assumption) ?_) | (with_reducible refine inv_fst (by assumption) ?_) | (with_reducible apply foldl_inv; intros) | (with_reducible apply foldl_inv2; intros) | (with_reducible apply foldl_inv1; intros) | (simp only [inv_lit]; with_reducible apply keyOk_mk) | (with_reducible apply wrByte_wf) | (with_reducible apply wrBytes_wf) | (with_reducible apply inv_mem) | (with_reducible apply inv_outer) | (exact memWf_nil) | (with_reducible apply guard_inv) | (with_reducible apply onMe_inv) | (with_reducible apply State.issueTrap_inv) | (intro _) | (with_reducible refine (id ?_ : List.length _ = List.length _); simp; done) | split | dsimp only)

theorem execDld_inv (dt : BitVec 3) (aa : BitVec 4) (_ck : Chk) (off : BitVec 6) (s : State) (hI : s.Inv) : ResInv (execDld dt aa _ck off s) := by
  unfold execDld
  try dsimp only
  repeat' (first | (with_reducible assumption) | (with_reducible rfl) | (with_reducible apply next_inv) | (with_reducible refine inv_snd (by assumption) ?_) | (with_reducible refine inv_fst (by assumption) ?_) | (with_reducible apply foldl_inv; intros) | (with_reducible apply foldl_inv2; intros) | (with_reducible apply foldl_inv1; intros) | (simp only [inv_lit]; with_reducible apply keyOk_mk) | (with_reducible apply wrByte_wf) | (with_reducible apply wrBytes_wf) | (with_reducible apply inv_mem) | (with_reducible apply inv_outer) | (exact memWf_nil) | (with_reducible apply guard_inv) | (with_reducible apply onMe_inv) | (with_reducible apply State.issueTrap_inv) | (intro _) | (with_reducible refine (id ?_ : List.length _ = List.length _); simp; done) | split | dsimp only)

theorem execDst_inv (dt : BitVec 3) (aa : BitVec 4) (off : BitVec 6) (s : State) (hI : s.Inv) : ResInv (execDst dt aa off s) := by
  unfold execDst
  try dsimp only
  repeat' (first | (with_reducible assumption) | (with_reducible rfl) | (with_reducible apply next_inv) | (with_reducible refine inv_snd (by assumption) ?_) | (with_reducible refine inv_fst (by assumption) ?_) | (with_reducible apply foldl_inv; intros) | (with_reducible apply foldl_inv2; intros) | (with_reducible apply foldl_inv1; intros) | (simp only [inv_lit]; with_reducible apply keyOk_mk) | (with_reducible apply wrByte_wf) | (with_reducible apply wrBytes_wf) | (with_reducible apply inv_mem) | (with_reducible apply inv_outer) | (exact memWf_nil) | (with_reducible apply guard_inv) | (with_reducible apply onMe_inv) | (with_reducible apply State.issueTrap_inv) | (intro _) | (with_reducible refine (id ?_ : List.length _ = List.length _); simp; done) | split | dsimp only)

theorem execVldf_inv (vt : BitVec 6) (tm aa pd : BitVec 4) (off : BitVec 6) (s : State) (hI : s.Inv) : ResInv (execVldf vt tm aa pd off s) := by
  unfold execVldf
  try dsimp only
  repeat' (first | (with_reducible assumption) | (with_reducible rfl) | (with_reducible apply next_inv) | (with_reducible refine inv_snd (by assumption) ?_) | (with_reducible refine inv_fst (by assumption) ?_) | (with_reducible apply foldl_inv; intros) | (with_reducible apply foldl_inv2; intros) | (with_reducible apply foldl_inv1; intros) | (simp only [inv_lit]; with_reducible apply keyOk_mk) | (with_reducible apply wrByte_wf) | (with_reducible apply wrBytes_wf) | (with_reducible apply inv_mem) | (with_reducible apply inv_outer) | (exact memWf_nil) | (with_reducible apply guard_inv) | (with_reducible apply State.beginFar_inv) | (with_reducible apply State.issueTrap_inv) | (intro _) | (with_reducible refine (id ?_ : List.length _ = List.length _); simp; done) | split | dsimp only)

theorem execVstf_inv (vt : VSrc) (tm aa pd : BitVec 4) (off : BitVec 6) (s : State) (hI : s.Inv) : ResInv (execVstf vt tm aa pd off s) := by
  unfold execVstf
  try dsimp only
  repeat' (first | (with_reducible assumption) | (with_reducible rfl) | (with_reducible apply next_inv) | (with_reducible refine inv_snd (by assumption) ?_) | (with_reducible refine inv_fst (by assumption) ?_) | (with_reducible apply foldl_inv; intros) | (with_reducible apply foldl_inv2; intros) | (with_reducible apply foldl_inv1; intros) | (simp only [inv_lit]; with_reducible apply keyOk_mk) | (with_reducible apply wrByte_wf) | (with_reducible apply wrBytes_wf) | (with_reducible apply inv_mem) | (with_reducible apply inv_outer) | (exact memWf_nil) | (with_reducible apply guard_inv) | (with_reducible apply State.beginFar_inv) | (with_reducible apply onMe_inv) | (with_reducible apply State.issueTrap_inv) | (intro _) | (with_reducible refine (id ?_ : List.length _ = List.length _); simp; done) | split | dsimp only)

theorem execVupd_inv (op : UpdOp) (ty : UpdTy) (vt : VSrc) (tm aa pd : BitVec 4) (s : State) (hI : s.Inv) : ResInv (execVupd op ty vt tm aa pd s) := by
  unfold execVupd
  try dsimp only
  repeat' (first | (with_reducible assumption) | (with_reducible rfl) | (with_reducible apply next_inv) | (with_reducible refine inv_snd (by assumption) ?_) | (with_reducible refine inv_fst (by assumption) ?_) | (with_reducible apply foldl_inv; intros) | (with_reducible apply foldl_inv2; intros) | (with_reducible apply foldl_inv1; intros) | (simp only [inv_lit]; with_reducible apply keyOk_mk) | (with_reducible apply wrByte_wf) | (with_reducible apply wrBytes_wf) | (with_reducible apply inv_mem) | (with_reducible apply inv_outer) | (exact memWf_nil) | (with_reducible apply guard_inv) | (with_reducible apply State.post_inv) | (with_reducible apply onMe_inv) | (with_reducible apply State.issueTrap_inv) | (intro _) | (with_reducible refine (id ?_ : List.length _ = List.length _); simp; done) | split | dsimp only)

/-! ### Vector -/

theorem State.vNext_inv (s : State) (c : VCtl) (w lat : Nat) (vd : BitVec 6) (srcs : List VSrc) (every : Bool) (nd : Nat)
    (f : List Nat → (VSrc → BitVec 1024) → BitVec 128 → Nat → Nat) (hI : s.Inv) : (State.vNext s c w lat vd srcs every nd f).Inv := by
  unfold State.vNext
  try dsimp only
  repeat' (first | (with_reducible assumption) | (with_reducible rfl) | (with_reducible apply next_inv) | (with_reducible refine inv_snd (by assumption) ?_) | (with_reducible refine inv_fst (by assumption) ?_) | (with_reducible apply foldl_inv; intros) | (with_reducible apply foldl_inv2; intros) | (with_reducible apply foldl_inv1; intros) | (simp only [inv_lit]; with_reducible apply keyOk_mk) | (with_reducible apply wrByte_wf) | (with_reducible apply wrBytes_wf) | (with_reducible apply inv_mem) | (with_reducible apply inv_outer) | (exact memWf_nil) | (with_reducible apply onMe_inv) | (intro _) | (with_reducible refine (id ?_ : List.length _ = List.length _); simp; done) | split | dsimp only)

theorem State.vOp_inv (s : State) (c : VCtl) (w lat : Nat) (vd : BitVec 6) (srcs : List VSrc) (every : Bool) (nd : Nat)
    (f : List Nat → (VSrc → BitVec 1024) → BitVec 128 → Nat → Nat) (hI : s.Inv) : ResInv (State.vOp s c w lat vd srcs every nd f) := by
  unfold State.vOp
  try dsimp only
  repeat' (first | (with_reducible assumption) | (with_reducible rfl) | (with_reducible apply next_inv) | (with_reducible refine inv_snd (by assumption) ?_) | (with_reducible refine inv_fst (by assumption) ?_) | (with_reducible apply foldl_inv; intros) | (with_reducible apply foldl_inv2; intros) | (with_reducible apply foldl_inv1; intros) | (simp only [inv_lit]; with_reducible apply keyOk_mk) | (with_reducible apply wrByte_wf) | (with_reducible apply wrBytes_wf) | (with_reducible apply inv_mem) | (with_reducible apply inv_outer) | (exact memWf_nil) | (with_reducible apply State.vNext_inv) | (intro _) | (with_reducible refine (id ?_ : List.length _ = List.length _); simp; done) | split | dsimp only)

theorem State.pNext_inv (s : State) (c : VCtl) (w lat : Nat) (pd : BitVec 4) (srcs : List VSrc) (every : Bool)
    (chk : (VSrc → BitVec 1024) → BitVec 2) (f : Core → Cluster → (VSrc → BitVec 1024) → Nat → Bool) (hI : s.Inv) : (State.pNext s c w lat pd srcs every chk f).Inv := by
  unfold State.pNext
  try dsimp only
  repeat' (first | (with_reducible assumption) | (with_reducible rfl) | (with_reducible apply next_inv) | (with_reducible refine inv_snd (by assumption) ?_) | (with_reducible refine inv_fst (by assumption) ?_) | (with_reducible apply foldl_inv; intros) | (with_reducible apply foldl_inv2; intros) | (with_reducible apply foldl_inv1; intros) | (simp only [inv_lit]; with_reducible apply keyOk_mk) | (with_reducible apply wrByte_wf) | (with_reducible apply wrBytes_wf) | (with_reducible apply inv_mem) | (with_reducible apply inv_outer) | (exact memWf_nil) | (with_reducible apply onMe_inv) | (intro _) | (with_reducible refine (id ?_ : List.length _ = List.length _); simp; done) | split | dsimp only)

theorem State.pOp_inv (s : State) (c : VCtl) (w lat : Nat) (pd : BitVec 4) (srcs : List VSrc) (every : Bool)
    (chk : (VSrc → BitVec 1024) → BitVec 2) (f : Core → Cluster → (VSrc → BitVec 1024) → Nat → Bool) (hI : s.Inv) : ResInv (State.pOp s c w lat pd srcs every chk f) := by
  unfold State.pOp
  try dsimp only
  repeat' (first | (with_reducible assumption) | (with_reducible rfl) | (with_reducible apply next_inv) | (with_reducible refine inv_snd (by assumption) ?_) | (with_reducible refine inv_fst (by assumption) ?_) | (with_reducible apply foldl_inv; intros) | (with_reducible apply foldl_inv2; intros) | (with_reducible apply foldl_inv1; intros) | (simp only [inv_lit]; with_reducible apply keyOk_mk) | (with_reducible apply wrByte_wf) | (with_reducible apply wrBytes_wf) | (with_reducible apply inv_mem) | (with_reducible apply inv_outer) | (exact memWf_nil) | (with_reducible apply State.pNext_inv) | (intro _) | (with_reducible refine (id ?_ : List.length _ = List.length _); simp; done) | split | dsimp only)

theorem State.vUn_inv (s : State) (c : VCtl) (w lat : Nat) (vd : BitVec 6) (va : VSrc) (g : Nat → Nat) (hI : s.Inv) : ResInv (State.vUn s c w lat vd va g) := by
  unfold State.vUn
  try dsimp only
  repeat' (first | (with_reducible assumption) | (with_reducible rfl) | (with_reducible apply next_inv) | (with_reducible refine inv_snd (by assumption) ?_) | (with_reducible refine inv_fst (by assumption) ?_) | (with_reducible apply foldl_inv; intros) | (with_reducible apply foldl_inv2; intros) | (with_reducible apply foldl_inv1; intros) | (simp only [inv_lit]; with_reducible apply keyOk_mk) | (with_reducible apply wrByte_wf) | (with_reducible apply wrBytes_wf) | (with_reducible apply inv_mem) | (with_reducible apply inv_outer) | (exact memWf_nil) | (with_reducible apply State.vOp_inv) | (intro _) | (with_reducible refine (id ?_ : List.length _ = List.length _); simp; done) | split | dsimp only)

theorem State.vBin_inv (s : State) (c : VCtl) (w lat : Nat) (vd : BitVec 6) (va vb : VSrc) (g : Nat → Nat → Nat) (hI : s.Inv) : ResInv (State.vBin s c w lat vd va vb g) := by
  unfold State.vBin
  try dsimp only
  repeat' (first | (with_reducible assumption) | (with_reducible rfl) | (with_reducible apply next_inv) | (with_reducible refine inv_snd (by assumption) ?_) | (with_reducible refine inv_fst (by assumption) ?_) | (with_reducible apply foldl_inv; intros) | (with_reducible apply foldl_inv2; intros) | (with_reducible apply foldl_inv1; intros) | (simp only [inv_lit]; with_reducible apply keyOk_mk) | (with_reducible apply wrByte_wf) | (with_reducible apply wrBytes_wf) | (with_reducible apply inv_mem) | (with_reducible apply inv_outer) | (exact memWf_nil) | (with_reducible apply State.vOp_inv) | (intro _) | (with_reducible refine (id ?_ : List.length _ = List.length _); simp; done) | split | dsimp only)

theorem State.vTri_inv (s : State) (c : VCtl) (w lat : Nat) (vd : BitVec 6) (va vb vc : VSrc) (g : Nat → Nat → Nat → Nat) (hI : s.Inv) : ResInv (State.vTri s c w lat vd va vb vc g) := by
  unfold State.vTri
  try dsimp only
  repeat' (first | (with_reducible assumption) | (with_reducible rfl) | (with_reducible apply next_inv) | (with_reducible refine inv_snd (by assumption) ?_) | (with_reducible refine inv_fst (by assumption) ?_) | (with_reducible apply foldl_inv; intros) | (with_reducible apply foldl_inv2; intros) | (with_reducible apply foldl_inv1; intros) | (simp only [inv_lit]; with_reducible apply keyOk_mk) | (with_reducible apply wrByte_wf) | (with_reducible apply wrBytes_wf) | (with_reducible apply inv_mem) | (with_reducible apply inv_outer) | (exact memWf_nil) | (with_reducible apply State.vOp_inv) | (intro _) | (with_reducible refine (id ?_ : List.length _ = List.length _); simp; done) | split | dsimp only)

theorem execVadd_inv (c : VCtl) (sz : ISz) (sgn sat : Bool) (vd : BitVec 6) (va vb : VSrc) (s : State) (hI : s.Inv) : ResInv (execVadd c sz sgn sat vd va vb s) := by
  unfold execVadd
  try dsimp only
  repeat' (first | (with_reducible assumption) | (with_reducible rfl) | (with_reducible apply next_inv) | (with_reducible refine inv_snd (by assumption) ?_) | (with_reducible refine inv_fst (by assumption) ?_) | (with_reducible apply foldl_inv; intros) | (with_reducible apply foldl_inv2; intros) | (with_reducible apply foldl_inv1; intros) | (simp only [inv_lit]; with_reducible apply keyOk_mk) | (with_reducible apply wrByte_wf) | (with_reducible apply wrBytes_wf) | (with_reducible apply inv_mem) | (with_reducible apply inv_outer) | (exact memWf_nil) | (with_reducible apply State.vBin_inv) | (intro _) | (with_reducible refine (id ?_ : List.length _ = List.length _); simp; done) | split | dsimp only)

theorem execVsub_inv (c : VCtl) (sz : ISz) (sgn sat : Bool) (vd : BitVec 6) (va vb : VSrc) (s : State) (hI : s.Inv) : ResInv (execVsub c sz sgn sat vd va vb s) := by
  unfold execVsub
  try dsimp only
  repeat' (first | (with_reducible assumption) | (with_reducible rfl) | (with_reducible apply next_inv) | (with_reducible refine inv_snd (by assumption) ?_) | (with_reducible refine inv_fst (by assumption) ?_) | (with_reducible apply foldl_inv; intros) | (with_reducible apply foldl_inv2; intros) | (with_reducible apply foldl_inv1; intros) | (simp only [inv_lit]; with_reducible apply keyOk_mk) | (with_reducible apply wrByte_wf) | (with_reducible apply wrBytes_wf) | (with_reducible apply inv_mem) | (with_reducible apply inv_outer) | (exact memWf_nil) | (with_reducible apply State.vBin_inv) | (intro _) | (with_reducible refine (id ?_ : List.length _ = List.length _); simp; done) | split | dsimp only)

theorem execVmul_inv (c : VCtl) (sz : ISz) (vd : BitVec 6) (va vb : VSrc) (s : State) (hI : s.Inv) : ResInv (execVmul c sz vd va vb s) := by
  unfold execVmul
  try dsimp only
  repeat' (first | (with_reducible assumption) | (with_reducible rfl) | (with_reducible apply next_inv) | (with_reducible refine inv_snd (by assumption) ?_) | (with_reducible refine inv_fst (by assumption) ?_) | (with_reducible apply foldl_inv; intros) | (with_reducible apply foldl_inv2; intros) | (with_reducible apply foldl_inv1; intros) | (simp only [inv_lit]; with_reducible apply keyOk_mk) | (with_reducible apply wrByte_wf) | (with_reducible apply wrBytes_wf) | (with_reducible apply inv_mem) | (with_reducible apply inv_outer) | (exact memWf_nil) | (with_reducible apply State.vBin_inv) | (intro _) | (with_reducible refine (id ?_ : List.length _ = List.length _); simp; done) | split | dsimp only)

theorem execVmulh_inv (c : VCtl) (sz : ISz) (sgn : Bool) (vd : BitVec 6) (va vb : VSrc) (s : State) (hI : s.Inv) : ResInv (execVmulh c sz sgn vd va vb s) := by
  unfold execVmulh
  try dsimp only
  repeat' (first | (with_reducible assumption) | (with_reducible rfl) | (with_reducible apply next_inv) | (with_reducible refine inv_snd (by assumption) ?_) | (with_reducible refine inv_fst (by assumption) ?_) | (with_reducible apply foldl_inv; intros) | (with_reducible apply foldl_inv2; intros) | (with_reducible apply foldl_inv1; intros) | (simp only [inv_lit]; with_reducible apply keyOk_mk) | (with_reducible apply wrByte_wf) | (with_reducible apply wrBytes_wf) | (with_reducible apply inv_mem) | (with_reducible apply inv_outer) | (exact memWf_nil) | (with_reducible apply State.vBin_inv) | (intro _) | (with_reducible refine (id ?_ : List.length _ = List.length _); simp; done) | split | dsimp only)

theorem execVmad_inv (c : VCtl) (sz : ISz) (vd : BitVec 6) (va vb vc : VSrc) (s : State) (hI : s.Inv) : ResInv (execVmad c sz vd va vb vc s) := by
  unfold execVmad
  try dsimp only
  repeat' (first | (with_reducible assumption) | (with_reducible rfl) | (with_reducible apply next_inv) | (with_reducible refine inv_snd (by assumption) ?_) | (with_reducible refine inv_fst (by assumption) ?_) | (with_reducible apply foldl_inv; intros) | (with_reducible apply foldl_inv2; intros) | (with_reducible apply foldl_inv1; intros) | (simp only [inv_lit]; with_reducible apply keyOk_mk) | (with_reducible apply wrByte_wf) | (with_reducible apply wrBytes_wf) | (with_reducible apply inv_mem) | (with_reducible apply inv_outer) | (exact memWf_nil) | (with_reducible apply State.vTri_inv) | (intro _) | (with_reducible refine (id ?_ : List.length _ = List.length _); simp; done) | split | dsimp only)

theorem execVmin_inv (c : VCtl) (sz : ISz) (sgn : Bool) (vd : BitVec 6) (va vb : VSrc) (s : State) (hI : s.Inv) : ResInv (execVmin c sz sgn vd va vb s) := by
  unfold execVmin
  try dsimp only
  repeat' (first | (with_reducible assumption) | (with_reducible rfl) | (with_reducible apply next_inv) | (with_reducible refine inv_snd (by assumption) ?_) | (with_reducible refine inv_fst (by assumption) ?_) | (with_reducible apply foldl_inv; intros) | (with_reducible apply foldl_inv2; intros) | (with_reducible apply foldl_inv1; intros) | (simp only [inv_lit]; with_reducible apply keyOk_mk) | (with_reducible apply wrByte_wf) | (with_reducible apply wrBytes_wf) | (with_reducible apply inv_mem) | (with_reducible apply inv_outer) | (exact memWf_nil) | (with_reducible apply State.vBin_inv) | (intro _) | (with_reducible refine (id ?_ : List.length _ = List.length _); simp; done) | split | dsimp only)

theorem execVmax_inv (c : VCtl) (sz : ISz) (sgn : Bool) (vd : BitVec 6) (va vb : VSrc) (s : State) (hI : s.Inv) : ResInv (execVmax c sz sgn vd va vb s) := by
  unfold execVmax
  try dsimp only
  repeat' (first | (with_reducible assumption) | (with_reducible rfl) | (with_reducible apply next_inv) | (with_reducible refine inv_snd (by assumption) ?_) | (with_reducible refine inv_fst (by assumption) ?_) | (with_reducible apply foldl_inv; intros) | (with_reducible apply foldl_inv2; intros) | (with_reducible apply foldl_inv1; intros) | (simp only [inv_lit]; with_reducible apply keyOk_mk) | (with_reducible apply wrByte_wf) | (with_reducible apply wrBytes_wf) | (with_reducible apply inv_mem) | (with_reducible apply inv_outer) | (exact memWf_nil) | (with_reducible apply State.vBin_inv) | (intro _) | (with_reducible refine (id ?_ : List.length _ = List.length _); simp; done) | split | dsimp only)

theorem execVabs_inv (c : VCtl) (sz : ISz) (sat : Bool) (vd : BitVec 6) (va : VSrc) (s : State) (hI : s.Inv) : ResInv (execVabs c sz sat vd va s) := by
  unfold execVabs
  try dsimp only
  repeat' (first | (with_reducible assumption) | (with_reducible rfl) | (with_reducible apply next_inv) | (with_reducible refine inv_snd (by assumption) ?_) | (with_reducible refine inv_fst (by assumption) ?_) | (with_reducible apply foldl_inv; intros) | (with_reducible apply foldl_inv2; intros) | (with_reducible apply foldl_inv1; intros) | (simp only [inv_lit]; with_reducible apply keyOk_mk) | (with_reducible apply wrByte_wf) | (with_reducible apply wrBytes_wf) | (with_reducible apply inv_mem) | (with_reducible apply inv_outer) | (exact memWf_nil) | (with_reducible apply State.vUn_inv) | (intro _) | (with_reducible refine (id ?_ : List.length _ = List.length _); simp; done) | split | dsimp only)

theorem execVneg_inv (c : VCtl) (sz : ISz) (sat : Bool) (vd : BitVec 6) (va : VSrc) (s : State) (hI : s.Inv) : ResInv (execVneg c sz sat vd va s) := by
  unfold execVneg
  try dsimp only
  repeat' (first | (with_reducible assumption) | (with_reducible rfl) | (with_reducible apply next_inv) | (with_reducible refine inv_snd (by assumption) ?_) | (with_reducible refine inv_fst (by assumption) ?_) | (with_reducible apply foldl_inv; intros) | (with_reducible apply foldl_inv2; intros) | (with_reducible apply foldl_inv1; intros) | (simp only [inv_lit]; with_reducible apply keyOk_mk) | (with_reducible apply wrByte_wf) | (with_reducible apply wrBytes_wf) | (with_reducible apply inv_mem) | (with_reducible apply inv_outer) | (exact memWf_nil) | (with_reducible apply State.vUn_inv) | (intro _) | (with_reducible refine (id ?_ : List.length _ = List.length _); simp; done) | split | dsimp only)

theorem execVand_inv (c : VCtl) (sz : ISz) (vd : BitVec 6) (va vb : VSrc) (s : State) (hI : s.Inv) : ResInv (execVand c sz vd va vb s) := by
  unfold execVand
  try dsimp only
  repeat' (first | (with_reducible assumption) | (with_reducible rfl) | (with_reducible apply next_inv) | (with_reducible refine inv_snd (by assumption) ?_) | (with_reducible refine inv_fst (by assumption) ?_) | (with_reducible apply foldl_inv; intros) | (with_reducible apply foldl_inv2; intros) | (with_reducible apply foldl_inv1; intros) | (simp only [inv_lit]; with_reducible apply keyOk_mk) | (with_reducible apply wrByte_wf) | (with_reducible apply wrBytes_wf) | (with_reducible apply inv_mem) | (with_reducible apply inv_outer) | (exact memWf_nil) | (with_reducible apply State.vBin_inv) | (intro _) | (with_reducible refine (id ?_ : List.length _ = List.length _); simp; done) | split | dsimp only)

theorem execVor_inv (c : VCtl) (sz : ISz) (vd : BitVec 6) (va vb : VSrc) (s : State) (hI : s.Inv) : ResInv (execVor c sz vd va vb s) := by
  unfold execVor
  try dsimp only
  repeat' (first | (with_reducible assumption) | (with_reducible rfl) | (with_reducible apply next_inv) | (with_reducible refine inv_snd (by assumption) ?_) | (with_reducible refine inv_fst (by assumption) ?_) | (with_reducible apply foldl_inv; intros) | (with_reducible apply foldl_inv2; intros) | (with_reducible apply foldl_inv1; intros) | (simp only [inv_lit]; with_reducible apply keyOk_mk) | (with_reducible apply wrByte_wf) | (with_reducible apply wrBytes_wf) | (with_reducible apply inv_mem) | (with_reducible apply inv_outer) | (exact memWf_nil) | (with_reducible apply State.vBin_inv) | (intro _) | (with_reducible refine (id ?_ : List.length _ = List.length _); simp; done) | split | dsimp only)

theorem execVxor_inv (c : VCtl) (sz : ISz) (vd : BitVec 6) (va vb : VSrc) (s : State) (hI : s.Inv) : ResInv (execVxor c sz vd va vb s) := by
  unfold execVxor
  try dsimp only
  repeat' (first | (with_reducible assumption) | (with_reducible rfl) | (with_reducible apply next_inv) | (with_reducible refine inv_snd (by assumption) ?_) | (with_reducible refine inv_fst (by assumption) ?_) | (with_reducible apply foldl_inv; intros) | (with_reducible apply foldl_inv2; intros) | (with_reducible apply foldl_inv1; intros) | (simp only [inv_lit]; with_reducible apply keyOk_mk) | (with_reducible apply wrByte_wf) | (with_reducible apply wrBytes_wf) | (with_reducible apply inv_mem) | (with_reducible apply inv_outer) | (exact memWf_nil) | (with_reducible apply State.vBin_inv) | (intro _) | (with_reducible refine (id ?_ : List.length _ = List.length _); simp; done) | split | dsimp only)

theorem execVnot_inv (c : VCtl) (sz : ISz) (vd : BitVec 6) (va : VSrc) (s : State) (hI : s.Inv) : ResInv (execVnot c sz vd va s) := by
  unfold execVnot
  try dsimp only
  repeat' (first | (with_reducible assumption) | (with_reducible rfl) | (with_reducible apply next_inv) | (with_reducible refine inv_snd (by assumption) ?_) | (with_reducible refine inv_fst (by assumption) ?_) | (with_reducible apply foldl_inv; intros) | (with_reducible apply foldl_inv2; intros) | (with_reducible apply foldl_inv1; intros) | (simp only [inv_lit]; with_reducible apply keyOk_mk) | (with_reducible apply wrByte_wf) | (with_reducible apply wrBytes_wf) | (with_reducible apply inv_mem) | (with_reducible apply inv_outer) | (exact memWf_nil) | (with_reducible apply State.vUn_inv) | (intro _) | (with_reducible refine (id ?_ : List.length _ = List.length _); simp; done) | split | dsimp only)

theorem execVshl_inv (c : VCtl) (sz : ISz) (vd : BitVec 6) (va vb : VSrc) (s : State) (hI : s.Inv) : ResInv (execVshl c sz vd va vb s) := by
  unfold execVshl
  try dsimp only
  repeat' (first | (with_reducible assumption) | (with_reducible rfl) | (with_reducible apply next_inv) | (with_reducible refine inv_snd (by assumption) ?_) | (with_reducible refine inv_fst (by assumption) ?_) | (with_reducible apply foldl_inv; intros) | (with_reducible apply foldl_inv2; intros) | (with_reducible apply foldl_inv1; intros) | (simp only [inv_lit]; with_reducible apply keyOk_mk) | (with_reducible apply wrByte_wf) | (with_reducible apply wrBytes_wf) | (with_reducible apply inv_mem) | (with_reducible apply inv_outer) | (exact memWf_nil) | (with_reducible apply State.vBin_inv) | (intro _) | (with_reducible refine (id ?_ : List.length _ = List.length _); simp; done) | split | dsimp only)

theorem execVshr_inv (c : VCtl) (sz : ISz) (vd : BitVec 6) (va vb : VSrc) (s : State) (hI : s.Inv) : ResInv (execVshr c sz vd va vb s) := by
  unfold execVshr
  try dsimp only
  repeat' (first | (with_reducible assumption) | (with_reducible rfl) | (with_reducible apply next_inv) | (with_reducible refine inv_snd (by assumption) ?_) | (with_reducible refine inv_fst (by assumption) ?_) | (with_reducible apply foldl_inv; intros) | (with_reducible apply foldl_inv2; intros) | (with_reducible apply foldl_inv1; intros) | (simp only [inv_lit]; with_reducible apply keyOk_mk) | (with_reducible apply wrByte_wf) | (with_reducible apply wrBytes_wf) | (with_reducible apply inv_mem) | (with_reducible apply inv_outer) | (exact memWf_nil) | (with_reducible apply State.vBin_inv) | (intro _) | (with_reducible refine (id ?_ : List.length _ = List.length _); simp; done) | split | dsimp only)

theorem execVsra_inv (c : VCtl) (sz : ISz) (vd : BitVec 6) (va vb : VSrc) (s : State) (hI : s.Inv) : ResInv (execVsra c sz vd va vb s) := by
  unfold execVsra
  try dsimp only
  repeat' (first | (with_reducible assumption) | (with_reducible rfl) | (with_reducible apply next_inv) | (with_reducible refine inv_snd (by assumption) ?_) | (with_reducible refine inv_fst (by assumption) ?_) | (with_reducible apply foldl_inv; intros) | (with_reducible apply foldl_inv2; intros) | (with_reducible apply foldl_inv1; intros) | (simp only [inv_lit]; with_reducible apply keyOk_mk) | (with_reducible apply wrByte_wf) | (with_reducible apply wrBytes_wf) | (with_reducible apply inv_mem) | (with_reducible apply inv_outer) | (exact memWf_nil) | (with_reducible apply State.vBin_inv) | (intro _) | (with_reducible refine (id ?_ : List.length _ = List.length _); simp; done) | split | dsimp only)

theorem execVclz_inv (c : VCtl) (sz : ISz) (vd : BitVec 6) (va : VSrc) (s : State) (hI : s.Inv) : ResInv (execVclz c sz vd va s) := by
  unfold execVclz
  try dsimp only
  repeat' (first | (with_reducible assumption) | (with_reducible rfl) | (with_reducible apply next_inv) | (with_reducible refine inv_snd (by assumption) ?_) | (with_reducible refine inv_fst (by assumption) ?_) | (with_reducible apply foldl_inv; intros) | (with_reducible apply foldl_inv2; intros) | (with_reducible apply foldl_inv1; intros) | (simp only [inv_lit]; with_reducible apply keyOk_mk) | (with_reducible apply wrByte_wf) | (with_reducible apply wrBytes_wf) | (with_reducible apply inv_mem) | (with_reducible apply inv_outer) | (exact memWf_nil) | (with_reducible apply State.vUn_inv) | (intro _) | (with_reducible refine (id ?_ : List.length _ = List.length _); simp; done) | split | dsimp only)

theorem execVpopc_inv (c : VCtl) (sz : ISz) (vd : BitVec 6) (va : VSrc) (s : State) (hI : s.Inv) : ResInv (execVpopc c sz vd va s) := by
  unfold execVpopc
  try dsimp only
  repeat' (first | (with_reducible assumption) | (with_reducible rfl) | (with_reducible apply next_inv) | (with_reducible refine inv_snd (by assumption) ?_) | (with_reducible refine inv_fst (by assumption) ?_) | (with_reducible apply foldl_inv; intros) | (with_reducible apply foldl_inv2; intros) | (with_reducible apply foldl_inv1; intros) | (simp only [inv_lit]; with_reducible apply keyOk_mk) | (with_reducible apply wrByte_wf) | (with_reducible apply wrBytes_wf) | (with_reducible apply inv_mem) | (with_reducible apply inv_outer) | (exact memWf_nil) | (with_reducible apply State.vUn_inv) | (intro _) | (with_reducible refine (id ?_ : List.length _ = List.length _); simp; done) | split | dsimp only)

theorem execFadd_inv (c : VCtl) (ty : FTy) (vd : BitVec 6) (va vb : VSrc) (s : State) (hI : s.Inv) : ResInv (execFadd c ty vd va vb s) := by
  unfold execFadd
  try dsimp only
  repeat' (first | (with_reducible assumption) | (with_reducible rfl) | (with_reducible apply next_inv) | (with_reducible refine inv_snd (by assumption) ?_) | (with_reducible refine inv_fst (by assumption) ?_) | (with_reducible apply foldl_inv; intros) | (with_reducible apply foldl_inv2; intros) | (with_reducible apply foldl_inv1; intros) | (simp only [inv_lit]; with_reducible apply keyOk_mk) | (with_reducible apply wrByte_wf) | (with_reducible apply wrBytes_wf) | (with_reducible apply inv_mem) | (with_reducible apply inv_outer) | (exact memWf_nil) | (with_reducible apply State.vBin_inv) | (intro _) | (with_reducible refine (id ?_ : List.length _ = List.length _); simp; done) | split | dsimp only)

theorem execFsub_inv (c : VCtl) (ty : FTy) (vd : BitVec 6) (va vb : VSrc) (s : State) (hI : s.Inv) : ResInv (execFsub c ty vd va vb s) := by
  unfold execFsub
  try dsimp only
  repeat' (first | (with_reducible assumption) | (with_reducible rfl) | (with_reducible apply next_inv) | (with_reducible refine inv_snd (by assumption) ?_) | (with_reducible refine inv_fst (by assumption) ?_) | (with_reducible apply foldl_inv; intros) | (with_reducible apply foldl_inv2; intros) | (with_reducible apply foldl_inv1; intros) | (simp only [inv_lit]; with_reducible apply keyOk_mk) | (with_reducible apply wrByte_wf) | (with_reducible apply wrBytes_wf) | (with_reducible apply inv_mem) | (with_reducible apply inv_outer) | (exact memWf_nil) | (with_reducible apply State.vBin_inv) | (intro _) | (with_reducible refine (id ?_ : List.length _ = List.length _); simp; done) | split | dsimp only)

theorem execFmul_inv (c : VCtl) (ty : FTy) (vd : BitVec 6) (va vb : VSrc) (s : State) (hI : s.Inv) : ResInv (execFmul c ty vd va vb s) := by
  unfold execFmul
  try dsimp only
  repeat' (first | (with_reducible assumption) | (with_reducible rfl) | (with_reducible apply next_inv) | (with_reducible refine inv_snd (by assumption) ?_) | (with_reducible refine inv_fst (by assumption) ?_) | (with_reducible apply foldl_inv; intros) | (with_reducible apply foldl_inv2; intros) | (with_reducible apply foldl_inv1; intros) | (simp only [inv_lit]; with_reducible apply keyOk_mk) | (with_reducible apply wrByte_wf) | (with_reducible apply wrBytes_wf) | (with_reducible apply inv_mem) | (with_reducible apply inv_outer) | (exact memWf_nil) | (with_reducible apply State.vBin_inv) | (intro _) | (with_reducible refine (id ?_ : List.length _ = List.length _); simp; done) | split | dsimp only)

theorem execFfma_inv (c : VCtl) (ty : FTy) (vd : BitVec 6) (va vb vc : VSrc) (s : State) (hI : s.Inv) : ResInv (execFfma c ty vd va vb vc s) := by
  unfold execFfma
  try dsimp only
  repeat' (first | (with_reducible assumption) | (with_reducible rfl) | (with_reducible apply next_inv) | (with_reducible refine inv_snd (by assumption) ?_) | (with_reducible refine inv_fst (by assumption) ?_) | (with_reducible apply foldl_inv; intros) | (with_reducible apply foldl_inv2; intros) | (with_reducible apply foldl_inv1; intros) | (simp only [inv_lit]; with_reducible apply keyOk_mk) | (with_reducible apply wrByte_wf) | (with_reducible apply wrBytes_wf) | (with_reducible apply inv_mem) | (with_reducible apply inv_outer) | (exact memWf_nil) | (with_reducible apply State.vTri_inv) | (intro _) | (with_reducible refine (id ?_ : List.length _ = List.length _); simp; done) | split | dsimp only)

theorem execFfms_inv (c : VCtl) (ty : FTy) (vd : BitVec 6) (va vb vc : VSrc) (s : State) (hI : s.Inv) : ResInv (execFfms c ty vd va vb vc s) := by
  unfold execFfms
  try dsimp only
  repeat' (first | (with_reducible assumption) | (with_reducible rfl) | (with_reducible apply next_inv) | (with_reducible refine inv_snd (by assumption) ?_) | (with_reducible refine inv_fst (by assumption) ?_) | (with_reducible apply foldl_inv; intros) | (with_reducible apply foldl_inv2; intros) | (with_reducible apply foldl_inv1; intros) | (simp only [inv_lit]; with_reducible apply keyOk_mk) | (with_reducible apply wrByte_wf) | (with_reducible apply wrBytes_wf) | (with_reducible apply inv_mem) | (with_reducible apply inv_outer) | (exact memWf_nil) | (with_reducible apply State.vTri_inv) | (intro _) | (with_reducible refine (id ?_ : List.length _ = List.length _); simp; done) | split | dsimp only)

theorem execFmin_inv (c : VCtl) (ty : FTy) (vd : BitVec 6) (va vb : VSrc) (s : State) (hI : s.Inv) : ResInv (execFmin c ty vd va vb s) := by
  unfold execFmin
  try dsimp only
  repeat' (first | (with_reducible assumption) | (with_reducible rfl) | (with_reducible apply next_inv) | (with_reducible refine inv_snd (by assumption) ?_) | (with_reducible refine inv_fst (by assumption) ?_) | (with_reducible apply foldl_inv; intros) | (with_reducible apply foldl_inv2; intros) | (with_reducible apply foldl_inv1; intros) | (simp only [inv_lit]; with_reducible apply keyOk_mk) | (with_reducible apply wrByte_wf) | (with_reducible apply wrBytes_wf) | (with_reducible apply inv_mem) | (with_reducible apply inv_outer) | (exact memWf_nil) | (with_reducible apply State.vBin_inv) | (intro _) | (with_reducible refine (id ?_ : List.length _ = List.length _); simp; done) | split | dsimp only)

theorem execFmax_inv (c : VCtl) (ty : FTy) (vd : BitVec 6) (va vb : VSrc) (s : State) (hI : s.Inv) : ResInv (execFmax c ty vd va vb s) := by
  unfold execFmax
  try dsimp only
  repeat' (first | (with_reducible assumption) | (with_reducible rfl) | (with_reducible apply next_inv) | (with_reducible refine inv_snd (by assumption) ?_) | (with_reducible refine inv_fst (by assumption) ?_) | (with_reducible apply foldl_inv; intros) | (with_reducible apply foldl_inv2; intros) | (with_reducible apply foldl_inv1; intros) | (simp only [inv_lit]; with_reducible apply keyOk_mk) | (with_reducible apply wrByte_wf) | (with_reducible apply wrBytes_wf) | (with_reducible apply inv_mem) | (with_reducible apply inv_outer) | (exact memWf_nil) | (with_reducible apply State.vBin_inv) | (intro _) | (with_reducible refine (id ?_ : List.length _ = List.length _); simp; done) | split | dsimp only)

theorem execFabs_inv (c : VCtl) (ty : FTy) (vd : BitVec 6) (va : VSrc) (s : State) (hI : s.Inv) : ResInv (execFabs c ty vd va s) := by
  unfold execFabs
  try dsimp only
  repeat' (first | (with_reducible assumption) | (with_reducible rfl) | (with_reducible apply next_inv) | (with_reducible refine inv_snd (by assumption) ?_) | (with_reducible refine inv_fst (by assumption) ?_) | (with_reducible apply foldl_inv; intros) | (with_reducible apply foldl_inv2; intros) | (with_reducible apply foldl_inv1; intros) | (simp only [inv_lit]; with_reducible apply keyOk_mk) | (with_reducible apply wrByte_wf) | (with_reducible apply wrBytes_wf) | (with_reducible apply inv_mem) | (with_reducible apply inv_outer) | (exact memWf_nil) | (with_reducible apply State.vUn_inv) | (intro _) | (with_reducible refine (id ?_ : List.length _ = List.length _); simp; done) | split | dsimp only)

theorem execFneg_inv (c : VCtl) (ty : FTy) (vd : BitVec 6) (va : VSrc) (s : State) (hI : s.Inv) : ResInv (execFneg c ty vd va s) := by
  unfold execFneg
  try dsimp only
  repeat' (first | (with_reducible assumption) | (with_reducible rfl) | (with_reducible apply next_inv) | (with_reducible refine inv_snd (by assumption) ?_) | (with_reducible refine inv_fst (by assumption) ?_) | (with_reducible apply foldl_inv; intros) | (with_reducible apply foldl_inv2; intros) | (with_reducible apply foldl_inv1; intros) | (simp only [inv_lit]; with_reducible apply keyOk_mk) | (with_reducible apply wrByte_wf) | (with_reducible apply wrBytes_wf) | (with_reducible apply inv_mem) | (with_reducible apply inv_outer) | (exact memWf_nil) | (with_reducible apply State.vUn_inv) | (intro _) | (with_reducible refine (id ?_ : List.length _ = List.length _); simp; done) | split | dsimp only)

theorem execFcps_inv (c : VCtl) (ty : FTy) (vd : BitVec 6) (va vb : VSrc) (s : State) (hI : s.Inv) : ResInv (execFcps c ty vd va vb s) := by
  unfold execFcps
  try dsimp only
  repeat' (first | (with_reducible assumption) | (with_reducible rfl) | (with_reducible apply next_inv) | (with_reducible refine inv_snd (by assumption) ?_) | (with_reducible refine inv_fst (by assumption) ?_) | (with_reducible apply foldl_inv; intros) | (with_reducible apply foldl_inv2; intros) | (with_reducible apply foldl_inv1; intros) | (simp only [inv_lit]; with_reducible apply keyOk_mk) | (with_reducible apply wrByte_wf) | (with_reducible apply wrBytes_wf) | (with_reducible apply inv_mem) | (with_reducible apply inv_outer) | (exact memWf_nil) | (with_reducible apply State.vBin_inv) | (intro _) | (with_reducible refine (id ?_ : List.length _ = List.length _); simp; done) | split | dsimp only)

theorem State.vSpecial_inv (s : State) (f : SpFn) (c : VCtl) (ty : FTy) (vd : BitVec 6) (va : VSrc) (hI : s.Inv) : ResInv (State.vSpecial s f c ty vd va) := by
  unfold State.vSpecial
  try dsimp only
  repeat' (first | (with_reducible assumption) | (with_reducible rfl) | (with_reducible apply next_inv) | (with_reducible refine inv_snd (by assumption) ?_) | (with_reducible refine inv_fst (by assumption) ?_) | (with_reducible apply foldl_inv; intros) | (with_reducible apply foldl_inv2; intros) | (with_reducible apply foldl_inv1; intros) | (simp only [inv_lit]; with_reducible apply keyOk_mk) | (with_reducible apply wrByte_wf) | (with_reducible apply wrBytes_wf) | (with_reducible apply inv_mem) | (with_reducible apply inv_outer) | (exact memWf_nil) | (with_reducible apply State.vUn_inv) | (intro _) | (with_reducible refine (id ?_ : List.length _ = List.length _); simp; done) | split | dsimp only)

theorem execFexp2_inv (c : VCtl) (ty : FTy) (vd : BitVec 6) (va : VSrc) (s : State) (hI : s.Inv) : ResInv (execFexp2 c ty vd va s) := by
  unfold execFexp2
  try dsimp only
  repeat' (first | (with_reducible assumption) | (with_reducible rfl) | (with_reducible apply next_inv) | (with_reducible refine inv_snd (by assumption) ?_) | (with_reducible refine inv_fst (by assumption) ?_) | (with_reducible apply foldl_inv; intros) | (with_reducible apply foldl_inv2; intros) | (with_reducible apply foldl_inv1; intros) | (simp only [inv_lit]; with_reducible apply keyOk_mk) | (with_reducible apply wrByte_wf) | (with_reducible apply wrBytes_wf) | (with_reducible apply inv_mem) | (with_reducible apply inv_outer) | (exact memWf_nil) | (with_reducible apply State.vSpecial_inv) | (intro _) | (with_reducible refine (id ?_ : List.length _ = List.length _); simp; done) | split | dsimp only)

theorem execFlog2_inv (c : VCtl) (ty : FTy) (vd : BitVec 6) (va : VSrc) (s : State) (hI : s.Inv) : ResInv (execFlog2 c ty vd va s) := by
  unfold execFlog2
  try dsimp only
  repeat' (first | (with_reducible assumption) | (with_reducible rfl) | (with_reducible apply next_inv) | (with_reducible refine inv_snd (by assumption) ?_) | (with_reducible refine inv_fst (by assumption) ?_) | (with_reducible apply foldl_inv; intros) | (with_reducible apply foldl_inv2; intros) | (with_reducible apply foldl_inv1; intros) | (simp only [inv_lit]; with_reducible apply keyOk_mk) | (with_reducible apply wrByte_wf) | (with_reducible apply wrBytes_wf) | (with_reducible apply inv_mem) | (with_reducible apply inv_outer) | (exact memWf_nil) | (with_reducible apply State.vSpecial_inv) | (intro _) | (with_reducible refine (id ?_ : List.length _ = List.length _); simp; done) | split | dsimp only)

theorem execFrcp_inv (c : VCtl) (ty : FTy) (vd : BitVec 6) (va : VSrc) (s : State) (hI : s.Inv) : ResInv (execFrcp c ty vd va s) := by
  unfold execFrcp
  try dsimp only
  repeat' (first | (with_reducible assumption) | (with_reducible rfl) | (with_reducible apply next_inv) | (with_reducible refine inv_snd (by assumption) ?_) | (with_reducible refine inv_fst (by assumption) ?_) | (with_reducible apply foldl_inv; intros) | (with_reducible apply foldl_inv2; intros) | (with_reducible apply foldl_inv1; intros) | (simp only [inv_lit]; with_reducible apply keyOk_mk) | (with_reducible apply wrByte_wf) | (with_reducible apply wrBytes_wf) | (with_reducible apply inv_mem) | (with_reducible apply inv_outer) | (exact memWf_nil) | (with_reducible apply State.vSpecial_inv) | (intro _) | (with_reducible refine (id ?_ : List.length _ = List.length _); simp; done) | split | dsimp only)

theorem execFrsq_inv (c : VCtl) (ty : FTy) (vd : BitVec 6) (va : VSrc) (s : State) (hI : s.Inv) : ResInv (execFrsq c ty vd va s) := by
  unfold execFrsq
  try dsimp only
  repeat' (first | (with_reducible assumption) | (with_reducible rfl) | (with_reducible apply next_inv) | (with_reducible refine inv_snd (by assumption) ?_) | (with_reducible refine inv_fst (by assumption) ?_) | (with_reducible apply foldl_inv; intros) | (with_reducible apply foldl_inv2; intros) | (with_reducible apply foldl_inv1; intros) | (simp only [inv_lit]; with_reducible apply keyOk_mk) | (with_reducible apply wrByte_wf) | (with_reducible apply wrBytes_wf) | (with_reducible apply inv_mem) | (with_reducible apply inv_outer) | (exact memWf_nil) | (with_reducible apply State.vSpecial_inv) | (intro _) | (with_reducible refine (id ?_ : List.length _ = List.length _); simp; done) | split | dsimp only)

theorem execFsqrt_inv (c : VCtl) (ty : FTy) (vd : BitVec 6) (va : VSrc) (s : State) (hI : s.Inv) : ResInv (execFsqrt c ty vd va s) := by
  unfold execFsqrt
  try dsimp only
  repeat' (first | (with_reducible assumption) | (with_reducible rfl) | (with_reducible apply next_inv) | (with_reducible refine inv_snd (by assumption) ?_) | (with_reducible refine inv_fst (by assumption) ?_) | (with_reducible apply foldl_inv; intros) | (with_reducible apply foldl_inv2; intros) | (with_reducible apply foldl_inv1; intros) | (simp only [inv_lit]; with_reducible apply keyOk_mk) | (with_reducible apply wrByte_wf) | (with_reducible apply wrBytes_wf) | (with_reducible apply inv_mem) | (with_reducible apply inv_outer) | (exact memWf_nil) | (with_reducible apply State.vSpecial_inv) | (intro _) | (with_reducible refine (id ?_ : List.length _ = List.length _); simp; done) | split | dsimp only)

theorem execFtanh_inv (c : VCtl) (ty : FTy) (vd : BitVec 6) (va : VSrc) (s : State) (hI : s.Inv) : ResInv (execFtanh c ty vd va s) := by
  unfold execFtanh
  try dsimp only
  repeat' (first | (with_reducible assumption) | (with_reducible rfl) | (with_reducible apply next_inv) | (with_reducible refine inv_snd (by assumption) ?_) | (with_reducible refine inv_fst (by assumption) ?_) | (with_reducible apply foldl_inv; intros) | (with_reducible apply foldl_inv2; intros) | (with_reducible apply foldl_inv1; intros) | (simp only [inv_lit]; with_reducible apply keyOk_mk) | (with_reducible apply wrByte_wf) | (with_reducible apply wrBytes_wf) | (with_reducible apply inv_mem) | (with_reducible apply inv_outer) | (exact memWf_nil) | (with_reducible apply State.vSpecial_inv) | (intro _) | (with_reducible refine (id ?_ : List.length _ = List.length _); simp; done) | split | dsimp only)

theorem execFsigm_inv (c : VCtl) (ty : FTy) (vd : BitVec 6) (va : VSrc) (s : State) (hI : s.Inv) : ResInv (execFsigm c ty vd va s) := by
  unfold execFsigm
  try dsimp only
  repeat' (first | (with_reducible assumption) | (with_reducible rfl) | (with_reducible apply next_inv) | (with_reducible refine inv_snd (by assumption) ?_) | (with_reducible refine inv_fst (by assumption) ?_) | (with_reducible apply foldl_inv; intros) | (with_reducible apply foldl_inv2; intros) | (with_reducible apply foldl_inv1; intros) | (simp only [inv_lit]; with_reducible apply keyOk_mk) | (with_reducible apply wrByte_wf) | (with_reducible apply wrBytes_wf) | (with_reducible apply inv_mem) | (with_reducible apply inv_outer) | (exact memWf_nil) | (with_reducible apply State.vSpecial_inv) | (intro _) | (with_reducible refine (id ?_ : List.length _ = List.length _); simp; done) | split | dsimp only)

theorem execFsin_inv (c : VCtl) (ty : FTy) (vd : BitVec 6) (va : VSrc) (s : State) (hI : s.Inv) : ResInv (execFsin c ty vd va s) := by
  unfold execFsin
  try dsimp only
  repeat' (first | (with_reducible assumption) | (with_reducible rfl) | (with_reducible apply next_inv) | (with_reducible refine inv_snd (by assumption) ?_) | (with_reducible refine inv_fst (by assumption) ?_) | (with_reducible apply foldl_inv; intros) | (with_reducible apply foldl_inv2; intros) | (with_reducible apply foldl_inv1; intros) | (simp only [inv_lit]; with_reducible apply keyOk_mk) | (with_reducible apply wrByte_wf) | (with_reducible apply wrBytes_wf) | (with_reducible apply inv_mem) | (with_reducible apply inv_outer) | (exact memWf_nil) | (with_reducible apply State.vSpecial_inv) | (intro _) | (with_reducible refine (id ?_ : List.length _ = List.length _); simp; done) | split | dsimp only)

theorem execFcos_inv (c : VCtl) (ty : FTy) (vd : BitVec 6) (va : VSrc) (s : State) (hI : s.Inv) : ResInv (execFcos c ty vd va s) := by
  unfold execFcos
  try dsimp only
  repeat' (first | (with_reducible assumption) | (with_reducible rfl) | (with_reducible apply next_inv) | (with_reducible refine inv_snd (by assumption) ?_) | (with_reducible refine inv_fst (by assumption) ?_) | (with_reducible apply foldl_inv; intros) | (with_reducible apply foldl_inv2; intros) | (with_reducible apply foldl_inv1; intros) | (simp only [inv_lit]; with_reducible apply keyOk_mk) | (with_reducible apply wrByte_wf) | (with_reducible apply wrBytes_wf) | (with_reducible apply inv_mem) | (with_reducible apply inv_outer) | (exact memWf_nil) | (with_reducible apply State.vSpecial_inv) | (intro _) | (with_reducible refine (id ?_ : List.length _ = List.length _); simp; done) | split | dsimp only)

theorem execVcmp_inv (c : VCtl) (sz : ISz) (cond : Cond) (pd : BitVec 4) (va vb : VSrc) (s : State) (hI : s.Inv) : ResInv (execVcmp c sz cond pd va vb s) := by
  unfold execVcmp
  try dsimp only
  repeat' (first | (with_reducible assumption) | (with_reducible rfl) | (with_reducible apply next_inv) | (with_reducible refine inv_snd (by assumption) ?_) | (with_reducible refine inv_fst (by assumption) ?_) | (with_reducible apply foldl_inv; intros) | (with_reducible apply foldl_inv2; intros) | (with_reducible apply foldl_inv1; intros) | (simp only [inv_lit]; with_reducible apply keyOk_mk) | (with_reducible apply wrByte_wf) | (with_reducible apply wrBytes_wf) | (with_reducible apply inv_mem) | (with_reducible apply inv_outer) | (exact memWf_nil) | (with_reducible apply State.pOp_inv) | (intro _) | (with_reducible refine (id ?_ : List.length _ = List.length _); simp; done) | split | dsimp only)

theorem execFcmp_inv (c : VCtl) (ty : FTy) (cond : FCond) (pd : BitVec 4) (va vb : VSrc) (s : State) (hI : s.Inv) : ResInv (execFcmp c ty cond pd va vb s) := by
  unfold execFcmp
  try dsimp only
  repeat' (first | (with_reducible assumption) | (with_reducible rfl) | (with_reducible apply next_inv) | (with_reducible refine inv_snd (by assumption) ?_) | (with_reducible refine inv_fst (by assumption) ?_) | (with_reducible apply foldl_inv; intros) | (with_reducible apply foldl_inv2; intros) | (with_reducible apply foldl_inv1; intros) | (simp only [inv_lit]; with_reducible apply keyOk_mk) | (with_reducible apply wrByte_wf) | (with_reducible apply wrBytes_wf) | (with_reducible apply inv_mem) | (with_reducible apply inv_outer) | (exact memWf_nil) | (with_reducible apply State.pOp_inv) | (intro _) | (with_reducible refine (id ?_ : List.length _ = List.length _); simp; done) | split | dsimp only)

theorem execVsel_inv (c : VCtl) (sz : ISz) (vd : BitVec 6) (va vb : VSrc) (s : State) (hI : s.Inv) : ResInv (execVsel c sz vd va vb s) := by
  unfold execVsel
  try dsimp only
  repeat' (first | (with_reducible assumption) | (with_reducible rfl) | (with_reducible apply next_inv) | (with_reducible refine inv_snd (by assumption) ?_) | (with_reducible refine inv_fst (by assumption) ?_) | (with_reducible apply foldl_inv; intros) | (with_reducible apply foldl_inv2; intros) | (with_reducible apply foldl_inv1; intros) | (simp only [inv_lit]; with_reducible apply keyOk_mk) | (with_reducible apply wrByte_wf) | (with_reducible apply wrBytes_wf) | (with_reducible apply inv_mem) | (with_reducible apply inv_outer) | (exact memWf_nil) | (with_reducible apply State.vOp_inv) | (intro _) | (with_reducible refine (id ?_ : List.length _ = List.length _); simp; done) | split | dsimp only)

theorem execFcls_inv (c : VCtl) (ty : FTy) (vd : BitVec 6) (va : VSrc) (s : State) (hI : s.Inv) : ResInv (execFcls c ty vd va s) := by
  unfold execFcls
  try dsimp only
  repeat' (first | (with_reducible assumption) | (with_reducible rfl) | (with_reducible apply next_inv) | (with_reducible refine inv_snd (by assumption) ?_) | (with_reducible refine inv_fst (by assumption) ?_) | (with_reducible apply foldl_inv; intros) | (with_reducible apply foldl_inv2; intros) | (with_reducible apply foldl_inv1; intros) | (simp only [inv_lit]; with_reducible apply keyOk_mk) | (with_reducible apply wrByte_wf) | (with_reducible apply wrBytes_wf) | (with_reducible apply inv_mem) | (with_reducible apply inv_outer) | (exact memWf_nil) | (with_reducible apply State.vUn_inv) | (intro _) | (with_reducible refine (id ?_ : List.length _ = List.length _); simp; done) | split | dsimp only)

theorem execVcvt_inv (c : VCtl) (k : CvtKind) (rm : RMode) (nsat : Bool) (vd : BitVec 6) (va : VSrc) (s : State) (hI : s.Inv) : ResInv (execVcvt c k rm nsat vd va s) := by
  unfold execVcvt
  try dsimp only
  repeat' (first | (with_reducible assumption) | (with_reducible rfl) | (with_reducible apply next_inv) | (with_reducible refine inv_snd (by assumption) ?_) | (with_reducible refine inv_fst (by assumption) ?_) | (with_reducible apply foldl_inv; intros) | (with_reducible apply foldl_inv2; intros) | (with_reducible apply foldl_inv1; intros) | (simp only [inv_lit]; with_reducible apply keyOk_mk) | (with_reducible apply wrByte_wf) | (with_reducible apply wrBytes_wf) | (with_reducible apply inv_mem) | (with_reducible apply inv_outer) | (exact memWf_nil) | (with_reducible apply State.vOp_inv) | (intro _) | (with_reducible refine (id ?_ : List.length _ = List.length _); simp; done) | split | dsimp only)

theorem execVpack_inv (sz : ISz) (sat : PackSat) (vd : BitVec 6) (va vb : VSrc) (s : State) (hI : s.Inv) : ResInv (execVpack sz sat vd va vb s) := by
  unfold execVpack
  try dsimp only
  repeat' (first | (with_reducible assumption) | (with_reducible rfl) | (with_reducible apply next_inv) | (with_reducible refine inv_snd (by assumption) ?_) | (with_reducible refine inv_fst (by assumption) ?_) | (with_reducible apply foldl_inv; intros) | (with_reducible apply foldl_inv2; intros) | (with_reducible apply foldl_inv1; intros) | (simp only [inv_lit]; with_reducible apply keyOk_mk) | (with_reducible apply wrByte_wf) | (with_reducible apply wrBytes_wf) | (with_reducible apply inv_mem) | (with_reducible apply inv_outer) | (exact memWf_nil) | (with_reducible apply State.vOp_inv) | (intro _) | (with_reducible refine (id ?_ : List.length _ = List.length _); simp; done) | split | dsimp only)

theorem execVunpk_inv (sz : ISz) (sgn hi : Bool) (vd : BitVec 6) (va : VSrc) (s : State) (hI : s.Inv) : ResInv (execVunpk sz sgn hi vd va s) := by
  unfold execVunpk
  try dsimp only
  repeat' (first | (with_reducible assumption) | (with_reducible rfl) | (with_reducible apply next_inv) | (with_reducible refine inv_snd (by assumption) ?_) | (with_reducible refine inv_fst (by assumption) ?_) | (with_reducible apply foldl_inv; intros) | (with_reducible apply foldl_inv2; intros) | (with_reducible apply foldl_inv1; intros) | (simp only [inv_lit]; with_reducible apply keyOk_mk) | (with_reducible apply wrByte_wf) | (with_reducible apply wrBytes_wf) | (with_reducible apply inv_mem) | (with_reducible apply inv_outer) | (exact memWf_nil) | (with_reducible apply State.vOp_inv) | (intro _) | (with_reducible refine (id ?_ : List.length _ = List.length _); simp; done) | split | dsimp only)

theorem execVqnt_inv (f : FSel) (vd : BitVec 6) (va : VSrc) (s : State) (hI : s.Inv) : ResInv (execVqnt f vd va s) := by
  unfold execVqnt
  try dsimp only
  repeat' (first | (with_reducible assumption) | (with_reducible rfl) | (with_reducible apply next_inv) | (with_reducible refine inv_snd (by assumption) ?_) | (with_reducible refine inv_fst (by assumption) ?_) | (with_reducible apply foldl_inv; intros) | (with_reducible apply foldl_inv2; intros) | (with_reducible apply foldl_inv1; intros) | (simp only [inv_lit]; with_reducible apply keyOk_mk) | (with_reducible apply wrByte_wf) | (with_reducible apply wrBytes_wf) | (with_reducible apply inv_mem) | (with_reducible apply inv_outer) | (exact memWf_nil) | (with_reducible apply guard_inv) | (with_reducible apply onMe_inv) | (with_reducible apply State.issueTrap_inv) | (intro _) | (with_reducible refine (id ?_ : List.length _ = List.length _); simp; done) | split | dsimp only)

theorem execVdqt_inv (f : FSel) (vd : BitVec 6) (va : VSrc) (s : State) (hI : s.Inv) : ResInv (execVdqt f vd va s) := by
  unfold execVdqt
  try dsimp only
  repeat' (first | (with_reducible assumption) | (with_reducible rfl) | (with_reducible apply next_inv) | (with_reducible refine inv_snd (by assumption) ?_) | (with_reducible refine inv_fst (by assumption) ?_) | (with_reducible apply foldl_inv; intros) | (with_reducible apply foldl_inv2; intros) | (with_reducible apply foldl_inv1; intros) | (simp only [inv_lit]; with_reducible apply keyOk_mk) | (with_reducible apply wrByte_wf) | (with_reducible apply wrBytes_wf) | (with_reducible apply inv_mem) | (with_reducible apply inv_outer) | (exact memWf_nil) | (with_reducible apply guard_inv) | (with_reducible apply onMe_inv) | (with_reducible apply State.issueTrap_inv) | (intro _) | (with_reducible refine (id ?_ : List.length _ = List.length _); simp; done) | split | dsimp only)

theorem execVred_inv (c : VCtl) (k : RedKind) (vd : BitVec 6) (va : VSrc) (s : State) (hI : s.Inv) : ResInv (execVred c k vd va s) := by
  unfold execVred
  try dsimp only
  repeat' (first | (with_reducible assumption) | (with_reducible rfl) | (with_reducible apply next_inv) | (with_reducible refine inv_snd (by assumption) ?_) | (with_reducible refine inv_fst (by assumption) ?_) | (with_reducible apply foldl_inv; intros) | (with_reducible apply foldl_inv2; intros) | (with_reducible apply foldl_inv1; intros) | (simp only [inv_lit]; with_reducible apply keyOk_mk) | (with_reducible apply wrByte_wf) | (with_reducible apply wrBytes_wf) | (with_reducible apply inv_mem) | (with_reducible apply inv_outer) | (exact memWf_nil) | (with_reducible apply State.vOp_inv) | (intro _) | (with_reducible refine (id ?_ : List.length _ = List.length _); simp; done) | split | dsimp only)

theorem execVamax_inv (c : VCtl) (ty : FTy) (m : SelMode) (vd : BitVec 6) (va : VSrc) (s : State) (hI : s.Inv) : ResInv (execVamax c ty m vd va s) := by
  unfold execVamax
  try dsimp only
  repeat' (first | (with_reducible assumption) | (with_reducible rfl) | (with_reducible apply next_inv) | (with_reducible refine inv_snd (by assumption) ?_) | (with_reducible refine inv_fst (by assumption) ?_) | (with_reducible apply foldl_inv; intros) | (with_reducible apply foldl_inv2; intros) | (with_reducible apply foldl_inv1; intros) | (simp only [inv_lit]; with_reducible apply keyOk_mk) | (with_reducible apply wrByte_wf) | (with_reducible apply wrBytes_wf) | (with_reducible apply inv_mem) | (with_reducible apply inv_outer) | (exact memWf_nil) | (with_reducible apply State.vOp_inv) | (intro _) | (with_reducible refine (id ?_ : List.length _ = List.length _); simp; done) | split | dsimp only)

theorem execVscan_inv (c : VCtl) (k : RedKind) (excl : Bool) (vd : BitVec 6) (va : VSrc) (s : State) (hI : s.Inv) : ResInv (execVscan c k excl vd va s) := by
  unfold execVscan
  try dsimp only
  repeat' (first | (with_reducible assumption) | (with_reducible rfl) | (with_reducible apply next_inv) | (with_reducible refine inv_snd (by assumption) ?_) | (with_reducible refine inv_fst (by assumption) ?_) | (with_reducible apply foldl_inv; intros) | (with_reducible apply foldl_inv2; intros) | (with_reducible apply foldl_inv1; intros) | (simp only [inv_lit]; with_reducible apply keyOk_mk) | (with_reducible apply wrByte_wf) | (with_reducible apply wrBytes_wf) | (with_reducible apply inv_mem) | (with_reducible apply inv_outer) | (exact memWf_nil) | (with_reducible apply State.vOp_inv) | (intro _) | (with_reducible refine (id ?_ : List.length _ = List.length _); simp; done) | split | dsimp only)

theorem execVperm_inv (c : VCtl) (sz : ISz) (vd : BitVec 6) (va vb : VSrc) (s : State) (hI : s.Inv) : ResInv (execVperm c sz vd va vb s) := by
  unfold execVperm
  try dsimp only
  repeat' (first | (with_reducible assumption) | (with_reducible rfl) | (with_reducible apply next_inv) | (with_reducible refine inv_snd (by assumption) ?_) | (with_reducible refine inv_fst (by assumption) ?_) | (with_reducible apply foldl_inv; intros) | (with_reducible apply foldl_inv2; intros) | (with_reducible apply foldl_inv1; intros) | (simp only [inv_lit]; with_reducible apply keyOk_mk) | (with_reducible apply wrByte_wf) | (with_reducible apply wrBytes_wf) | (with_reducible apply inv_mem) | (with_reducible apply inv_outer) | (exact memWf_nil) | (with_reducible apply State.vOp_inv) | (intro _) | (with_reducible refine (id ?_ : List.length _ = List.length _); simp; done) | split | dsimp only)

theorem execVshuf_inv (c : VCtl) (sz : ISz) (vd : BitVec 6) (va vb vc : VSrc) (s : State) (hI : s.Inv) : ResInv (execVshuf c sz vd va vb vc s) := by
  unfold execVshuf
  try dsimp only
  repeat' (first | (with_reducible assumption) | (with_reducible rfl) | (with_reducible apply next_inv) | (with_reducible refine inv_snd (by assumption) ?_) | (with_reducible refine inv_fst (by assumption) ?_) | (with_reducible apply foldl_inv; intros) | (with_reducible apply foldl_inv2; intros) | (with_reducible apply foldl_inv1; intros) | (simp only [inv_lit]; with_reducible apply keyOk_mk) | (with_reducible apply wrByte_wf) | (with_reducible apply wrBytes_wf) | (with_reducible apply inv_mem) | (with_reducible apply inv_outer) | (exact memWf_nil) | (with_reducible apply State.vOp_inv) | (intro _) | (with_reducible refine (id ?_ : List.length _ = List.length _); simp; done) | split | dsimp only)

theorem execVbcst_inv (c : VCtl) (sz : ISz) (idx : BitVec 6) (vd : BitVec 6) (va : VSrc) (s : State) (hI : s.Inv) : ResInv (execVbcst c sz idx vd va s) := by
  unfold execVbcst
  try dsimp only
  repeat' (first | (with_reducible assumption) | (with_reducible rfl) | (with_reducible apply next_inv) | (with_reducible refine inv_snd (by assumption) ?_) | (with_reducible refine inv_fst (by assumption) ?_) | (with_reducible apply foldl_inv; intros) | (with_reducible apply foldl_inv2; intros) | (with_reducible apply foldl_inv1; intros) | (simp only [inv_lit]; with_reducible apply keyOk_mk) | (with_reducible apply wrByte_wf) | (with_reducible apply wrBytes_wf) | (with_reducible apply inv_mem) | (with_reducible apply inv_outer) | (exact memWf_nil) | (with_reducible apply State.vOp_inv) | (intro _) | (with_reducible refine (id ?_ : List.length _ = List.length _); simp; done) | split | dsimp only)

theorem execVsld_inv (c : VCtl) (sz : ISz) (k : BitVec 6) (vd : BitVec 6) (va vb : VSrc) (s : State) (hI : s.Inv) : ResInv (execVsld c sz k vd va vb s) := by
  unfold execVsld
  try dsimp only
  repeat' (first | (with_reducible assumption) | (with_reducible rfl) | (with_reducible apply next_inv) | (with_reducible refine inv_snd (by assumption) ?_) | (with_reducible refine inv_fst (by assumption) ?_) | (with_reducible apply foldl_inv; intros) | (with_reducible apply foldl_inv2; intros) | (with_reducible apply foldl_inv1; intros) | (simp only [inv_lit]; with_reducible apply keyOk_mk) | (with_reducible apply wrByte_wf) | (with_reducible apply wrBytes_wf) | (with_reducible apply inv_mem) | (with_reducible apply inv_outer) | (exact memWf_nil) | (with_reducible apply State.vOp_inv) | (intro _) | (with_reducible refine (id ?_ : List.length _ = List.length _); simp; done) | split | dsimp only)

theorem execVzip_inv (c : VCtl) (sz : ISz) (hi : Bool) (vd : BitVec 6) (va vb : VSrc) (s : State) (hI : s.Inv) : ResInv (execVzip c sz hi vd va vb s) := by
  unfold execVzip
  try dsimp only
  repeat' (first | (with_reducible assumption) | (with_reducible rfl) | (with_reducible apply next_inv) | (with_reducible refine inv_snd (by assumption) ?_) | (with_reducible refine inv_fst (by assumption) ?_) | (with_reducible apply foldl_inv; intros) | (with_reducible apply foldl_inv2; intros) | (with_reducible apply foldl_inv1; intros) | (simp only [inv_lit]; with_reducible apply keyOk_mk) | (with_reducible apply wrByte_wf) | (with_reducible apply wrBytes_wf) | (with_reducible apply inv_mem) | (with_reducible apply inv_outer) | (exact memWf_nil) | (with_reducible apply State.vOp_inv) | (intro _) | (with_reducible refine (id ?_ : List.length _ = List.length _); simp; done) | split | dsimp only)

theorem execVmov_inv (c : VCtl) (sz : ISz) (rep : BitVec 6) (vd : BitVec 6) (va : VSrc) (s : State) (hI : s.Inv) : ResInv (execVmov c sz rep vd va s) := by
  unfold execVmov
  try dsimp only
  repeat' (first | (with_reducible assumption) | (with_reducible rfl) | (with_reducible apply next_inv) | (with_reducible refine inv_snd (by assumption) ?_) | (with_reducible refine inv_fst (by assumption) ?_) | (with_reducible apply foldl_inv; intros) | (with_reducible apply foldl_inv2; intros) | (with_reducible apply foldl_inv1; intros) | (simp only [inv_lit]; with_reducible apply keyOk_mk) | (with_reducible apply wrByte_wf) | (with_reducible apply wrBytes_wf) | (with_reducible apply inv_mem) | (with_reducible apply inv_outer) | (exact memWf_nil) | (with_reducible apply guard_inv) | (with_reducible apply onMe_inv) | (with_reducible apply State.issueTrap_inv) | (intro _) | (with_reducible refine (id ?_ : List.length _ = List.length _); simp; done) | split | dsimp only)

theorem execVmovi_inv (c : VCtl) (sz : ISz) (imm : BitVec 18) (vd : BitVec 6) (s : State) (hI : s.Inv) : ResInv (execVmovi c sz imm vd s) := by
  unfold execVmovi
  try dsimp only
  repeat' (first | (with_reducible assumption) | (with_reducible rfl) | (with_reducible apply next_inv) | (with_reducible refine inv_snd (by assumption) ?_) | (with_reducible refine inv_fst (by assumption) ?_) | (with_reducible apply foldl_inv; intros) | (with_reducible apply foldl_inv2; intros) | (with_reducible apply foldl_inv1; intros) | (simp only [inv_lit]; with_reducible apply keyOk_mk) | (with_reducible apply wrByte_wf) | (with_reducible apply wrBytes_wf) | (with_reducible apply inv_mem) | (with_reducible apply inv_outer) | (exact memWf_nil) | (with_reducible apply State.vOp_inv) | (intro _) | (with_reducible refine (id ?_ : List.length _ = List.length _); simp; done) | split | dsimp only)

theorem State.pBit_inv (s : State) (c : VCtl) (pd pa pb : BitVec 4) (g : Bool → Bool → Bool) (hI : s.Inv) : ResInv (State.pBit s c pd pa pb g) := by
  unfold State.pBit
  try dsimp only
  repeat' (first | (with_reducible assumption) | (with_reducible rfl) | (with_reducible apply next_inv) | (with_reducible refine inv_snd (by assumption) ?_) | (with_reducible refine inv_fst (by assumption) ?_) | (with_reducible apply foldl_inv; intros) | (with_reducible apply foldl_inv2; intros) | (with_reducible apply foldl_inv1; intros) | (simp only [inv_lit]; with_reducible apply keyOk_mk) | (with_reducible apply wrByte_wf) | (with_reducible apply wrBytes_wf) | (with_reducible apply inv_mem) | (with_reducible apply inv_outer) | (exact memWf_nil) | (with_reducible apply State.pOp_inv) | (intro _) | (with_reducible refine (id ?_ : List.length _ = List.length _); simp; done) | split | dsimp only)

theorem execPand_inv (c : VCtl) (pd pa pb : BitVec 4) (s : State) (hI : s.Inv) : ResInv (execPand c pd pa pb s) := by
  unfold execPand
  try dsimp only
  repeat' (first | (with_reducible assumption) | (with_reducible rfl) | (with_reducible apply next_inv) | (with_reducible refine inv_snd (by assumption) ?_) | (with_reducible refine inv_fst (by assumption) ?_) | (with_reducible apply foldl_inv; intros) | (with_reducible apply foldl_inv2; intros) | (with_reducible apply foldl_inv1; intros) | (simp only [inv_lit]; with_reducible apply keyOk_mk) | (with_reducible apply wrByte_wf) | (with_reducible apply wrBytes_wf) | (with_reducible apply inv_mem) | (with_reducible apply inv_outer) | (exact memWf_nil) | (with_reducible apply State.pBit_inv) | (intro _) | (with_reducible refine (id ?_ : List.length _ = List.length _); simp; done) | split | dsimp only)

theorem execPor_inv (c : VCtl) (pd pa pb : BitVec 4) (s : State) (hI : s.Inv) : ResInv (execPor c pd pa pb s) := by
  unfold execPor
  try dsimp only
  repeat' (first | (with_reducible assumption) | (with_reducible rfl) | (with_reducible apply next_inv) | (with_reducible refine inv_snd (by assumption) ?_) | (with_reducible refine inv_fst (by assumption) ?_) | (with_reducible apply foldl_inv; intros) | (with_reducible apply foldl_inv2; intros) | (with_reducible apply foldl_inv1; intros) | (simp only [inv_lit]; with_reducible apply keyOk_mk) | (with_reducible apply wrByte_wf) | (with_reducible apply wrBytes_wf) | (with_reducible apply inv_mem) | (with_reducible apply inv_outer) | (exact memWf_nil) | (with_reducible apply State.pBit_inv) | (intro _) | (with_reducible refine (id ?_ : List.length _ = List.length _); simp; done) | split | dsimp only)

theorem execPxor_inv (c : VCtl) (pd pa pb : BitVec 4) (s : State) (hI : s.Inv) : ResInv (execPxor c pd pa pb s) := by
  unfold execPxor
  try dsimp only
  repeat' (first | (with_reducible assumption) | (with_reducible rfl) | (with_reducible apply next_inv) | (with_reducible refine inv_snd (by assumption) ?_) | (with_reducible refine inv_fst (by assumption) ?_) | (with_reducible apply foldl_inv; intros) | (with_reducible apply foldl_inv2; intros) | (with_reducible apply foldl_inv1; intros) | (simp only [inv_lit]; with_reducible apply keyOk_mk) | (with_reducible apply wrByte_wf) | (with_reducible apply wrBytes_wf) | (with_reducible apply inv_mem) | (with_reducible apply inv_outer) | (exact memWf_nil) | (with_reducible apply State.pBit_inv) | (intro _) | (with_reducible refine (id ?_ : List.length _ = List.length _); simp; done) | split | dsimp only)

theorem execPnot_inv (c : VCtl) (pd pa : BitVec 4) (s : State) (hI : s.Inv) : ResInv (execPnot c pd pa s) := by
  unfold execPnot
  try dsimp only
  repeat' (first | (with_reducible assumption) | (with_reducible rfl) | (with_reducible apply next_inv) | (with_reducible refine inv_snd (by assumption) ?_) | (with_reducible refine inv_fst (by assumption) ?_) | (with_reducible apply foldl_inv; intros) | (with_reducible apply foldl_inv2; intros) | (with_reducible apply foldl_inv1; intros) | (simp only [inv_lit]; with_reducible apply keyOk_mk) | (with_reducible apply wrByte_wf) | (with_reducible apply wrBytes_wf) | (with_reducible apply inv_mem) | (with_reducible apply inv_outer) | (exact memWf_nil) | (with_reducible apply State.pBit_inv) | (intro _) | (with_reducible refine (id ?_ : List.length _ = List.length _); simp; done) | split | dsimp only)

theorem execPcnt_inv (c : VCtl) (sz : ISz) (pd pa : BitVec 4) (s : State) (hI : s.Inv) : ResInv (execPcnt c sz pd pa s) := by
  unfold execPcnt
  try dsimp only
  repeat' (first | (with_reducible assumption) | (with_reducible rfl) | (with_reducible apply next_inv) | (with_reducible refine inv_snd (by assumption) ?_) | (with_reducible refine inv_fst (by assumption) ?_) | (with_reducible apply foldl_inv; intros) | (with_reducible apply foldl_inv2; intros) | (with_reducible apply foldl_inv1; intros) | (simp only [inv_lit]; with_reducible apply keyOk_mk) | (with_reducible apply wrByte_wf) | (with_reducible apply wrBytes_wf) | (with_reducible apply inv_mem) | (with_reducible apply inv_outer) | (exact memWf_nil) | (with_reducible apply State.pOp_inv) | (intro _) | (with_reducible refine (id ?_ : List.length _ = List.length _); simp; done) | split | dsimp only)

theorem execPfirst_inv (c : VCtl) (sz : ISz) (pd pa : BitVec 4) (s : State) (hI : s.Inv) : ResInv (execPfirst c sz pd pa s) := by
  unfold execPfirst
  try dsimp only
  repeat' (first | (with_reducible assumption) | (with_reducible rfl) | (with_reducible apply next_inv) | (with_reducible refine inv_snd (by assumption) ?_) | (with_reducible refine inv_fst (by assumption) ?_) | (with_reducible apply foldl_inv; intros) | (with_reducible apply foldl_inv2; intros) | (with_reducible apply foldl_inv1; intros) | (simp only [inv_lit]; with_reducible apply keyOk_mk) | (with_reducible apply wrByte_wf) | (with_reducible apply wrBytes_wf) | (with_reducible apply inv_mem) | (with_reducible apply inv_outer) | (exact memWf_nil) | (with_reducible apply State.pOp_inv) | (intro _) | (with_reducible refine (id ?_ : List.length _ = List.length _); simp; done) | split | dsimp only)

theorem execVrnd_inv (c : VCtl) (m : RndMode) (vd : BitVec 6) (s : State) (hI : s.Inv) : ResInv (execVrnd c m vd s) := by
  unfold execVrnd
  try dsimp only
  repeat' (first | (with_reducible assumption) | (with_reducible rfl) | (with_reducible apply next_inv) | (with_reducible refine inv_snd (by assumption) ?_) | (with_reducible refine inv_fst (by assumption) ?_) | (with_reducible apply foldl_inv; intros) | (with_reducible apply foldl_inv2; intros) | (with_reducible apply foldl_inv1; intros) | (simp only [inv_lit]; with_reducible apply keyOk_mk) | (with_reducible apply wrByte_wf) | (with_reducible apply wrBytes_wf) | (with_reducible apply inv_mem) | (with_reducible apply inv_outer) | (exact memWf_nil) | (with_reducible apply State.vOp_inv) | (intro _) | (with_reducible refine (id ?_ : List.length _ = List.length _); simp; done) | split | dsimp only)

theorem execVchk_inv (rng : VRange) (mir : Bool) (ty : FTy) (trp : Bool) (t : BitVec 5) (pd : BitVec 4) (va vb : VSrc) (s : State) (hI : s.Inv) : ResInv (execVchk rng mir ty trp t pd va vb s) := by
  unfold execVchk
  try dsimp only
  repeat' (first | (with_reducible assumption) | (with_reducible rfl) | (with_reducible apply next_inv) | (with_reducible refine inv_snd (by assumption) ?_) | (with_reducible refine inv_fst (by assumption) ?_) | (with_reducible apply foldl_inv; intros) | (with_reducible apply foldl_inv2; intros) | (with_reducible apply foldl_inv1; intros) | (simp only [inv_lit]; with_reducible apply keyOk_mk) | (with_reducible apply wrByte_wf) | (with_reducible apply wrBytes_wf) | (with_reducible apply inv_mem) | (with_reducible apply inv_outer) | (exact memWf_nil) | (with_reducible apply State.pOp_inv) | (intro _) | (with_reducible refine (id ?_ : List.length _ = List.length _); simp; done) | split | dsimp only)

/-! ### Matrix -/

theorem State.loadPlane_inv (s : State) (pl : Bool) (fmt : Core → PFmt) (addr : Core → Nat) (bytes : Option (List Byte)) (hI : s.Inv) : (State.loadPlane s pl fmt addr bytes).Inv := by
  unfold State.loadPlane
  try dsimp only
  repeat' (first | (with_reducible assumption) | (with_reducible rfl) | (with_reducible apply next_inv) | (with_reducible refine inv_snd (by assumption) ?_) | (with_reducible refine inv_fst (by assumption) ?_) | (with_reducible apply foldl_inv; intros) | (with_reducible apply foldl_inv2; intros) | (with_reducible apply foldl_inv1; intros) | (simp only [inv_lit]; with_reducible apply keyOk_mk) | (with_reducible apply wrByte_wf) | (with_reducible apply wrBytes_wf) | (with_reducible apply inv_mem) | (with_reducible apply inv_outer) | (exact memWf_nil) | (with_reducible apply onMe_inv) | (intro _) | (with_reducible refine (id ?_ : List.length _ = List.length _); simp; done) | split | dsimp only)

theorem execMbld_inv (fs : FSel) (pl : Bool) (ck : Chk) (aa : BitVec 4) (off : BitVec 12) (s : State) (hI : s.Inv) : ResInv (execMbld fs pl ck aa off s) := by
  unfold execMbld
  try dsimp only
  repeat' (first | (with_reducible assumption) | (with_reducible rfl) | (with_reducible apply next_inv) | (with_reducible refine inv_snd (by assumption) ?_) | (with_reducible refine inv_fst (by assumption) ?_) | (with_reducible apply foldl_inv; intros) | (with_reducible apply foldl_inv2; intros) | (with_reducible apply foldl_inv1; intros) | (simp only [inv_lit]; with_reducible apply keyOk_mk) | (with_reducible apply wrByte_wf) | (with_reducible apply wrBytes_wf) | (with_reducible apply inv_mem) | (with_reducible apply inv_outer) | (exact memWf_nil) | (with_reducible apply guard_inv) | (with_reducible apply State.loadPlane_inv) | (with_reducible apply State.issueTrap_inv) | (intro _) | (with_reducible refine (id ?_ : List.length _ = List.length _); simp; done) | split | dsimp only)

theorem execMbldh_inv (pl : Bool) (s : State) (hI : s.Inv) : ResInv (execMbldh pl s) := by
  unfold execMbldh
  try dsimp only
  repeat' (first | (with_reducible assumption) | (with_reducible rfl) | (with_reducible apply next_inv) | (with_reducible refine inv_snd (by assumption) ?_) | (with_reducible refine inv_fst (by assumption) ?_) | (with_reducible apply foldl_inv; intros) | (with_reducible apply foldl_inv2; intros) | (with_reducible apply foldl_inv1; intros) | (simp only [inv_lit]; with_reducible apply keyOk_mk) | (with_reducible apply wrByte_wf) | (with_reducible apply wrBytes_wf) | (with_reducible apply inv_mem) | (with_reducible apply inv_outer) | (exact memWf_nil) | (with_reducible apply guard_inv) | (with_reducible apply State.loadPlane_inv) | (with_reducible apply State.issueTrap_inv) | (intro _) | (with_reducible refine (id ?_ : List.length _ = List.length _); simp; done) | split | dsimp only)

theorem execMrow_inv (op : CellOp) (bk : BitVec 2) (fs : FSel) (pl : Bool) (va : VSrc) (m : BitVec 6) (st : StartMode) (hoff : BitVec 7)
    (vh : VSrc) (s : State) (hI : s.Inv) : ResInv (execMrow op bk fs pl va m st hoff vh s) := by
  unfold execMrow
  try dsimp only
  repeat' (first | (with_reducible assumption) | (with_reducible rfl) | (with_reducible apply next_inv) | (with_reducible refine inv_snd (by assumption) ?_) | (with_reducible refine inv_fst (by assumption) ?_) | (with_reducible apply foldl_inv; intros) | (with_reducible apply foldl_inv2; intros) | (with_reducible apply foldl_inv1; intros) | (simp only [inv_lit]; with_reducible apply keyOk_mk) | (with_reducible apply wrByte_wf) | (with_reducible apply wrBytes_wf) | (with_reducible apply inv_mem) | (with_reducible apply inv_outer) | (exact memWf_nil) | (with_reducible apply guard_inv) | (with_reducible apply onMe_inv) | (with_reducible apply State.issueTrap_inv) | (intro _) | (with_reducible refine (id ?_ : List.length _ = List.length _); simp; done) | split | dsimp only)

theorem execMchk_inv (bk : BitVec 2) (fs : FSel) (pl : Bool) (reg : Option VSrc) (st : StartMode) (s : State) (hI : s.Inv) : ResInv (execMchk bk fs pl reg st s) := by
  unfold execMchk
  try dsimp only
  repeat' (first | (with_reducible assumption) | (with_reducible rfl) | (with_reducible apply next_inv) | (with_reducible refine inv_snd (by assumption) ?_) | (with_reducible refine inv_fst (by assumption) ?_) | (with_reducible apply foldl_inv; intros) | (with_reducible apply foldl_inv2; intros) | (with_reducible apply foldl_inv1; intros) | (simp only [inv_lit]; with_reducible apply keyOk_mk) | (with_reducible apply wrByte_wf) | (with_reducible apply wrBytes_wf) | (with_reducible apply inv_mem) | (with_reducible apply inv_outer) | (exact memWf_nil) | (with_reducible apply guard_inv) | (with_reducible apply onMe_inv) | (with_reducible apply State.issueTrap_inv) | (intro _) | (with_reducible refine (id ?_ : List.length _ = List.length _); simp; done) | split | dsimp only)

theorem execMrot_inv (bd bs : BitVec 2) (pl : Bool) (m : Fin 64) (s : State) (hI : s.Inv) : ResInv (execMrot bd bs pl m s) := by
  unfold execMrot
  try dsimp only
  repeat' (first | (with_reducible assumption) | (with_reducible rfl) | (with_reducible apply next_inv) | (with_reducible refine inv_snd (by assumption) ?_) | (with_reducible refine inv_fst (by assumption) ?_) | (with_reducible apply foldl_inv; intros) | (with_reducible apply foldl_inv2; intros) | (with_reducible apply foldl_inv1; intros) | (simp only [inv_lit]; with_reducible apply keyOk_mk) | (with_reducible apply wrByte_wf) | (with_reducible apply wrBytes_wf) | (with_reducible apply inv_mem) | (with_reducible apply inv_outer) | (exact memWf_nil) | (with_reducible apply guard_inv) | (with_reducible apply onMe_inv) | (with_reducible apply State.issueTrap_inv) | (intro _) | (with_reducible refine (id ?_ : List.length _ = List.length _); simp; done) | split | dsimp only)

theorem execMzero_inv (bk : Option (BitVec 2)) (s : State) (hI : s.Inv) : ResInv (execMzero bk s) := by
  unfold execMzero
  try dsimp only
  repeat' (first | (with_reducible assumption) | (with_reducible rfl) | (with_reducible apply next_inv) | (with_reducible refine inv_snd (by assumption) ?_) | (with_reducible refine inv_fst (by assumption) ?_) | (with_reducible apply foldl_inv; intros) | (with_reducible apply foldl_inv2; intros) | (with_reducible apply foldl_inv1; intros) | (simp only [inv_lit]; with_reducible apply keyOk_mk) | (with_reducible apply wrByte_wf) | (with_reducible apply wrBytes_wf) | (with_reducible apply inv_mem) | (with_reducible apply inv_outer) | (exact memWf_nil) | (with_reducible apply guard_inv) | (with_reducible apply onMe_inv) | (with_reducible apply State.issueTrap_inv) | (intro _) | (with_reducible refine (id ?_ : List.length _ = List.length _); simp; done) | split | dsimp only)

theorem execMacc_inv (bd bs : BitVec 2) (s : State) (hI : s.Inv) : ResInv (execMacc bd bs s) := by
  unfold execMacc
  try dsimp only
  repeat' (first | (with_reducible assumption) | (with_reducible rfl) | (with_reducible apply next_inv) | (with_reducible refine inv_snd (by assumption) ?_) | (with_reducible refine inv_fst (by assumption) ?_) | (with_reducible apply foldl_inv; intros) | (with_reducible apply foldl_inv2; intros) | (with_reducible apply foldl_inv1; intros) | (simp only [inv_lit]; with_reducible apply keyOk_mk) | (with_reducible apply wrByte_wf) | (with_reducible apply wrBytes_wf) | (with_reducible apply inv_mem) | (with_reducible apply inv_outer) | (exact memWf_nil) | (with_reducible apply guard_inv) | (with_reducible apply onMe_inv) | (with_reducible apply State.issueTrap_inv) | (intro _) | (with_reducible refine (id ?_ : List.length _ = List.length _); simp; done) | split | dsimp only)

theorem execMrd_inv (bk : BitVec 2) (va : BitVec 6) (ln : BankLine) (s : State) (hI : s.Inv) : ResInv (execMrd bk va ln s) := by
  unfold execMrd
  try dsimp only
  repeat' (first | (with_reducible assumption) | (with_reducible rfl) | (with_reducible apply next_inv) | (with_reducible refine inv_snd (by assumption) ?_) | (with_reducible refine inv_fst (by assumption) ?_) | (with_reducible apply foldl_inv; intros) | (with_reducible apply foldl_inv2; intros) | (with_reducible apply foldl_inv1; intros) | (simp only [inv_lit]; with_reducible apply keyOk_mk) | (with_reducible apply wrByte_wf) | (with_reducible apply wrBytes_wf) | (with_reducible apply inv_mem) | (with_reducible apply inv_outer) | (exact memWf_nil) | (with_reducible apply guard_inv) | (with_reducible apply onMe_inv) | (with_reducible apply State.issueTrap_inv) | (intro _) | (with_reducible refine (id ?_ : List.length _ = List.length _); simp; done) | split | dsimp only)

theorem execMwr_inv (bk : BitVec 2) (va : VSrc) (ln : BankLine) (s : State) (hI : s.Inv) : ResInv (execMwr bk va ln s) := by
  unfold execMwr
  try dsimp only
  repeat' (first | (with_reducible assumption) | (with_reducible rfl) | (with_reducible apply next_inv) | (with_reducible refine inv_snd (by assumption) ?_) | (with_reducible refine inv_fst (by assumption) ?_) | (with_reducible apply foldl_inv; intros) | (with_reducible apply foldl_inv2; intros) | (with_reducible apply foldl_inv1; intros) | (simp only [inv_lit]; with_reducible apply keyOk_mk) | (with_reducible apply wrByte_wf) | (with_reducible apply wrBytes_wf) | (with_reducible apply inv_mem) | (with_reducible apply inv_outer) | (exact memWf_nil) | (with_reducible apply guard_inv) | (with_reducible apply onMe_inv) | (with_reducible apply State.issueTrap_inv) | (intro _) | (with_reducible refine (id ?_ : List.length _ = List.length _); simp; done) | split | dsimp only)

theorem execMdrn_inv (bk : BitVec 2) (fs : FSel) (m : Fin 64) (nochk ckw : Bool) (tm : BitVec 4) (col : Option (BitVec 4 × BitVec 16)) (s : State) (hI : s.Inv) : ResInv (execMdrn bk fs m nochk ckw tm col s) := by
  unfold execMdrn
  try dsimp only
  repeat' (first | (with_reducible assumption) | (with_reducible rfl) | (with_reducible apply next_inv) | (with_reducible refine inv_snd (by assumption) ?_) | (with_reducible refine inv_fst (by assumption) ?_) | (with_reducible apply foldl_inv; intros) | (with_reducible apply foldl_inv2; intros) | (with_reducible apply foldl_inv1; intros) | (simp only [inv_lit]; with_reducible apply keyOk_mk) | (with_reducible apply wrByte_wf) | (with_reducible apply wrBytes_wf) | (with_reducible apply inv_mem) | (with_reducible apply inv_outer) | (exact memWf_nil) | (with_reducible apply guard_inv) | (with_reducible apply onMe_inv) | (with_reducible apply State.issueTrap_inv) | (intro _) | (with_reducible refine (id ?_ : List.length _ = List.length _); simp; done) | split | dsimp only)

theorem execMdrnk_inv (bk : BitVec 2) (fs : FSel) (va : BitVec 6) (k : BitVec 4) (nochk : Bool) (mode : SelMode) (m : Fin 64) (nr : BitVec 5)
    (rb : BitVec 6) (s : State) (hI : s.Inv) : ResInv (execMdrnk bk fs va k nochk mode m nr rb s) := by
  unfold execMdrnk
  try dsimp only
  repeat' (first | (with_reducible assumption) | (with_reducible rfl) | (with_reducible apply next_inv) | (with_reducible refine inv_snd (by assumption) ?_) | (with_reducible refine inv_fst (by assumption) ?_) | (with_reducible apply foldl_inv; intros) | (with_reducible apply foldl_inv2; intros) | (with_reducible apply foldl_inv1; intros) | (simp only [inv_lit]; with_reducible apply keyOk_mk) | (with_reducible apply wrByte_wf) | (with_reducible apply wrBytes_wf) | (with_reducible apply inv_mem) | (with_reducible apply inv_outer) | (exact memWf_nil) | (with_reducible apply guard_inv) | (with_reducible apply onMe_inv) | (with_reducible apply State.issueTrap_inv) | (intro _) | (with_reducible refine (id ?_ : List.length _ = List.length _); simp; done) | split | dsimp only)

theorem State.finishDrain_inv (s : State) (c : Nat) (d : Drain) (hI : s.Inv) : (State.finishDrain s c d).Inv := by
  unfold State.finishDrain
  try dsimp only
  repeat' (first | (with_reducible assumption) | (with_reducible rfl) | (with_reducible apply next_inv) | (with_reducible refine inv_snd (by assumption) ?_) | (with_reducible refine inv_fst (by assumption) ?_) | (with_reducible apply foldl_inv; intros) | (with_reducible apply foldl_inv2; intros) | (with_reducible apply foldl_inv1; intros) | (simp only [inv_lit]; with_reducible apply keyOk_mk) | (with_reducible apply wrByte_wf) | (with_reducible apply wrBytes_wf) | (with_reducible apply inv_mem) | (with_reducible apply inv_outer) | (exact memWf_nil) | (with_reducible apply onCl_inv) | (with_reducible apply State.release_inv) | (with_reducible apply State.free_inv) | (intro _) | (with_reducible refine (id ?_ : List.length _ = List.length _); simp; done) | split | dsimp only)

theorem execMstat_inv (va : BitVec 6) (clr : Bool) (s : State) (hI : s.Inv) : ResInv (execMstat va clr s) := by
  unfold execMstat
  try dsimp only
  repeat' (first | (with_reducible assumption) | (with_reducible rfl) | (with_reducible apply next_inv) | (with_reducible refine inv_snd (by assumption) ?_) | (with_reducible refine inv_fst (by assumption) ?_) | (with_reducible apply foldl_inv; intros) | (with_reducible apply foldl_inv2; intros) | (with_reducible apply foldl_inv1; intros) | (simp only [inv_lit]; with_reducible apply keyOk_mk) | (with_reducible apply wrByte_wf) | (with_reducible apply wrBytes_wf) | (with_reducible apply inv_mem) | (with_reducible apply inv_outer) | (exact memWf_nil) | (with_reducible apply guard_inv) | (with_reducible apply onMe_inv) | (with_reducible apply State.free_inv) | (with_reducible apply State.issueTrap_inv) | (intro _) | (with_reducible refine (id ?_ : List.length _ = List.length _); simp; done) | split | dsimp only)

theorem execMdiag_inv (va : BitVec 6) (s : State) (hI : s.Inv) : ResInv (execMdiag va s) := by
  unfold execMdiag
  try dsimp only
  repeat' (first | (with_reducible assumption) | (with_reducible rfl) | (with_reducible apply next_inv) | (with_reducible refine inv_snd (by assumption) ?_) | (with_reducible refine inv_fst (by assumption) ?_) | (with_reducible apply foldl_inv; intros) | (with_reducible apply foldl_inv2; intros) | (with_reducible apply foldl_inv1; intros) | (simp only [inv_lit]; with_reducible apply keyOk_mk) | (with_reducible apply wrByte_wf) | (with_reducible apply wrBytes_wf) | (with_reducible apply inv_mem) | (with_reducible apply inv_outer) | (exact memWf_nil) | (with_reducible apply guard_inv) | (with_reducible apply onMe_inv) | (with_reducible apply State.issueTrap_inv) | (intro _) | (with_reducible refine (id ?_ : List.length _ = List.length _); simp; done) | split | dsimp only)

theorem execMspr_inv (va : BitVec 6) (persist : Bool) (row : Fin 66) (s : State) (hI : s.Inv) : ResInv (execMspr va persist row s) := by
  unfold execMspr
  try dsimp only
  repeat' (first | (with_reducible assumption) | (with_reducible rfl) | (with_reducible apply next_inv) | (with_reducible refine inv_snd (by assumption) ?_) | (with_reducible refine inv_fst (by assumption) ?_) | (with_reducible apply foldl_inv; intros) | (with_reducible apply foldl_inv2; intros) | (with_reducible apply foldl_inv1; intros) | (simp only [inv_lit]; with_reducible apply keyOk_mk) | (with_reducible apply wrByte_wf) | (with_reducible apply wrBytes_wf) | (with_reducible apply inv_mem) | (with_reducible apply inv_outer) | (exact memWf_nil) | (with_reducible apply guard_inv) | (with_reducible apply onMe_inv) | (with_reducible apply State.issueTrap_inv) | (intro _) | (with_reducible refine (id ?_ : List.length _ = List.length _); simp; done) | split | dsimp only)

/-! ### Distribution -/

theorem State.dNext_inv (s : State) (dd : BitVec 3) (srcs : List VSrc) (f : Core → (VSrc → BitVec 1024) → Nat → DEl) (hI : s.Inv) : (State.dNext s dd srcs f).Inv := by
  unfold State.dNext
  try dsimp only
  repeat' (first | (with_reducible assumption) | (with_reducible rfl) | (with_reducible apply next_inv) | (with_reducible refine inv_snd (by assumption) ?_) | (with_reducible refine inv_fst (by assumption) ?_) | (with_reducible apply foldl_inv; intros) | (with_reducible apply foldl_inv2; intros) | (with_reducible apply foldl_inv1; intros) | (simp only [inv_lit]; with_reducible apply keyOk_mk) | (with_reducible apply wrByte_wf) | (with_reducible apply wrBytes_wf) | (with_reducible apply inv_mem) | (with_reducible apply inv_outer) | (exact memWf_nil) | (with_reducible apply onMe_inv) | (intro _) | (with_reducible refine (id ?_ : List.length _ = List.length _); simp; done) | split | dsimp only)

theorem State.dOut_inv (s : State) (dd : BitVec 3) (srcs : List VSrc) (f : Core → (VSrc → BitVec 1024) → Nat → DEl) (hI : s.Inv) : ResInv (State.dOut s dd srcs f) := by
  unfold State.dOut
  try dsimp only
  repeat' (first | (with_reducible assumption) | (with_reducible rfl) | (with_reducible apply next_inv) | (with_reducible refine inv_snd (by assumption) ?_) | (with_reducible refine inv_fst (by assumption) ?_) | (with_reducible apply foldl_inv; intros) | (with_reducible apply foldl_inv2; intros) | (with_reducible apply foldl_inv1; intros) | (simp only [inv_lit]; with_reducible apply keyOk_mk) | (with_reducible apply wrByte_wf) | (with_reducible apply wrBytes_wf) | (with_reducible apply inv_mem) | (with_reducible apply inv_outer) | (exact memWf_nil) | (with_reducible apply guard_inv) | (with_reducible apply State.dNext_inv) | (with_reducible apply State.issueTrap_inv) | (intro _) | (with_reducible refine (id ?_ : List.length _ = List.length _); simp; done) | split | dsimp only)

theorem State.dVecNext_inv (s : State) (va : BitVec 6) (srcs : List VSrc) (nd : Nat) (f : List Nat → Core → (VSrc → BitVec 1024) → Nat → BitVec 32) (hI : s.Inv) : (State.dVecNext s va srcs nd f).Inv := by
  unfold State.dVecNext
  try dsimp only
  repeat' (first | (with_reducible assumption) | (with_reducible rfl) | (with_reducible apply next_inv) | (with_reducible refine inv_snd (by assumption) ?_) | (with_reducible refine inv_fst (by assumption) ?_) | (with_reducible apply foldl_inv; intros) | (with_reducible apply foldl_inv2; intros) | (with_reducible apply foldl_inv1; intros) | (simp only [inv_lit]; with_reducible apply keyOk_mk) | (with_reducible apply wrByte_wf) | (with_reducible apply wrBytes_wf) | (with_reducible apply inv_mem) | (with_reducible apply inv_outer) | (exact memWf_nil) | (with_reducible apply onMe_inv) | (intro _) | (with_reducible refine (id ?_ : List.length _ = List.length _); simp; done) | split | dsimp only)

theorem State.dVec_inv (s : State) (va : BitVec 6) (srcs : List VSrc) (nd : Nat) (f : List Nat → Core → (VSrc → BitVec 1024) → Nat → BitVec 32) (hI : s.Inv) : ResInv (State.dVec s va srcs nd f) := by
  unfold State.dVec
  try dsimp only
  repeat' (first | (with_reducible assumption) | (with_reducible rfl) | (with_reducible apply next_inv) | (with_reducible refine inv_snd (by assumption) ?_) | (with_reducible refine inv_fst (by assumption) ?_) | (with_reducible apply foldl_inv; intros) | (with_reducible apply foldl_inv2; intros) | (with_reducible apply foldl_inv1; intros) | (simp only [inv_lit]; with_reducible apply keyOk_mk) | (with_reducible apply wrByte_wf) | (with_reducible apply wrBytes_wf) | (with_reducible apply inv_mem) | (with_reducible apply inv_outer) | (exact memWf_nil) | (with_reducible apply guard_inv) | (with_reducible apply State.dVecNext_inv) | (with_reducible apply State.issueTrap_inv) | (intro _) | (with_reducible refine (id ?_ : List.length _ = List.length _); simp; done) | split | dsimp only)

theorem execDadd_inv (m : PairMode) (dd da db : BitVec 3) (s : State) (hI : s.Inv) : ResInv (execDadd m dd da db s) := by
  unfold execDadd
  try dsimp only
  repeat' (first | (with_reducible assumption) | (with_reducible rfl) | (with_reducible apply next_inv) | (with_reducible refine inv_snd (by assumption) ?_) | (with_reducible refine inv_fst (by assumption) ?_) | (with_reducible apply foldl_inv; intros) | (with_reducible apply foldl_inv2; intros) | (with_reducible apply foldl_inv1; intros) | (simp only [inv_lit]; with_reducible apply keyOk_mk) | (with_reducible apply wrByte_wf) | (with_reducible apply wrBytes_wf) | (with_reducible apply inv_mem) | (with_reducible apply inv_outer) | (exact memWf_nil) | (with_reducible apply State.dOut_inv) | (intro _) | (with_reducible refine (id ?_ : List.length _ = List.length _); simp; done) | split | dsimp only)

theorem execDsub_inv (m : PairMode) (dd da db : BitVec 3) (s : State) (hI : s.Inv) : ResInv (execDsub m dd da db s) := by
  unfold execDsub
  try dsimp only
  repeat' (first | (with_reducible assumption) | (with_reducible rfl) | (with_reducible apply next_inv) | (with_reducible refine inv_snd (by assumption) ?_) | (with_reducible refine inv_fst (by assumption) ?_) | (with_reducible apply foldl_inv; intros) | (with_reducible apply foldl_inv2; intros) | (with_reducible apply foldl_inv1; intros) | (simp only [inv_lit]; with_reducible apply keyOk_mk) | (with_reducible apply wrByte_wf) | (with_reducible apply wrBytes_wf) | (with_reducible apply inv_mem) | (with_reducible apply inv_outer) | (exact memWf_nil) | (with_reducible apply State.dOut_inv) | (intro _) | (with_reducible refine (id ?_ : List.length _ = List.length _); simp; done) | split | dsimp only)

theorem execDmul_inv (m : PairMode) (dd da db : BitVec 3) (s : State) (hI : s.Inv) : ResInv (execDmul m dd da db s) := by
  unfold execDmul
  try dsimp only
  repeat' (first | (with_reducible assumption) | (with_reducible rfl) | (with_reducible apply next_inv) | (with_reducible refine inv_snd (by assumption) ?_) | (with_reducible refine inv_fst (by assumption) ?_) | (with_reducible apply foldl_inv; intros) | (with_reducible apply foldl_inv2; intros) | (with_reducible apply foldl_inv1; intros) | (simp only [inv_lit]; with_reducible apply keyOk_mk) | (with_reducible apply wrByte_wf) | (with_reducible apply wrBytes_wf) | (with_reducible apply inv_mem) | (with_reducible apply inv_outer) | (exact memWf_nil) | (with_reducible apply State.dOut_inv) | (intro _) | (with_reducible refine (id ?_ : List.length _ = List.length _); simp; done) | split | dsimp only)

theorem execDmax_inv (m : PairMode) (dd da db : BitVec 3) (s : State) (hI : s.Inv) : ResInv (execDmax m dd da db s) := by
  unfold execDmax
  try dsimp only
  repeat' (first | (with_reducible assumption) | (with_reducible rfl) | (with_reducible apply next_inv) | (with_reducible refine inv_snd (by assumption) ?_) | (with_reducible refine inv_fst (by assumption) ?_) | (with_reducible apply foldl_inv; intros) | (with_reducible apply foldl_inv2; intros) | (with_reducible apply foldl_inv1; intros) | (simp only [inv_lit]; with_reducible apply keyOk_mk) | (with_reducible apply wrByte_wf) | (with_reducible apply wrBytes_wf) | (with_reducible apply inv_mem) | (with_reducible apply inv_outer) | (exact memWf_nil) | (with_reducible apply State.dOut_inv) | (intro _) | (with_reducible refine (id ?_ : List.length _ = List.length _); simp; done) | split | dsimp only)

theorem execDmin_inv (m : PairMode) (dd da db : BitVec 3) (s : State) (hI : s.Inv) : ResInv (execDmin m dd da db s) := by
  unfold execDmin
  try dsimp only
  repeat' (first | (with_reducible assumption) | (with_reducible rfl) | (with_reducible apply next_inv) | (with_reducible refine inv_snd (by assumption) ?_) | (with_reducible refine inv_fst (by assumption) ?_) | (with_reducible apply foldl_inv; intros) | (with_reducible apply foldl_inv2; intros) | (with_reducible apply foldl_inv1; intros) | (simp only [inv_lit]; with_reducible apply keyOk_mk) | (with_reducible apply wrByte_wf) | (with_reducible apply wrBytes_wf) | (with_reducible apply inv_mem) | (with_reducible apply inv_outer) | (exact memWf_nil) | (with_reducible apply State.dOut_inv) | (intro _) | (with_reducible refine (id ?_ : List.length _ = List.length _); simp; done) | split | dsimp only)

theorem execDaff_inv (dd da : BitVec 3) (va : VSrc) (s : State) (hI : s.Inv) : ResInv (execDaff dd da va s) := by
  unfold execDaff
  try dsimp only
  repeat' (first | (with_reducible assumption) | (with_reducible rfl) | (with_reducible apply next_inv) | (with_reducible refine inv_snd (by assumption) ?_) | (with_reducible refine inv_fst (by assumption) ?_) | (with_reducible apply foldl_inv; intros) | (with_reducible apply foldl_inv2; intros) | (with_reducible apply foldl_inv1; intros) | (simp only [inv_lit]; with_reducible apply keyOk_mk) | (with_reducible apply wrByte_wf) | (with_reducible apply wrBytes_wf) | (with_reducible apply inv_mem) | (with_reducible apply inv_outer) | (exact memWf_nil) | (with_reducible apply State.dOut_inv) | (intro _) | (with_reducible refine (id ?_ : List.length _ = List.length _); simp; done) | split | dsimp only)

theorem execDmap_inv (f : MapFn) (dd da : BitVec 3) (s : State) (hI : s.Inv) : ResInv (execDmap f dd da s) := by
  unfold execDmap
  try dsimp only
  repeat' (first | (with_reducible assumption) | (with_reducible rfl) | (with_reducible apply next_inv) | (with_reducible refine inv_snd (by assumption) ?_) | (with_reducible refine inv_fst (by assumption) ?_) | (with_reducible apply foldl_inv; intros) | (with_reducible apply foldl_inv2; intros) | (with_reducible apply foldl_inv1; intros) | (simp only [inv_lit]; with_reducible apply keyOk_mk) | (with_reducible apply wrByte_wf) | (with_reducible apply wrBytes_wf) | (with_reducible apply inv_mem) | (with_reducible apply inv_outer) | (exact memWf_nil) | (with_reducible apply State.dOut_inv) | (intro _) | (with_reducible refine (id ?_ : List.length _ = List.length _); simp; done) | split | dsimp only)

theorem execDmix_inv (dd da db : BitVec 3) (va : VSrc) (s : State) (hI : s.Inv) : ResInv (execDmix dd da db va s) := by
  unfold execDmix
  try dsimp only
  repeat' (first | (with_reducible assumption) | (with_reducible rfl) | (with_reducible apply next_inv) | (with_reducible refine inv_snd (by assumption) ?_) | (with_reducible refine inv_fst (by assumption) ?_) | (with_reducible apply foldl_inv; intros) | (with_reducible apply foldl_inv2; intros) | (with_reducible apply foldl_inv1; intros) | (simp only [inv_lit]; with_reducible apply keyOk_mk) | (with_reducible apply wrByte_wf) | (with_reducible apply wrBytes_wf) | (with_reducible apply inv_mem) | (with_reducible apply inv_outer) | (exact memWf_nil) | (with_reducible apply State.dOut_inv) | (intro _) | (with_reducible refine (id ?_ : List.length _ = List.length _); simp; done) | split | dsimp only)

theorem execDcnd_inv (dd da : BitVec 3) (va : VSrc) (s : State) (hI : s.Inv) : ResInv (execDcnd dd da va s) := by
  unfold execDcnd
  try dsimp only
  repeat' (first | (with_reducible assumption) | (with_reducible rfl) | (with_reducible apply next_inv) | (with_reducible refine inv_snd (by assumption) ?_) | (with_reducible refine inv_fst (by assumption) ?_) | (with_reducible apply foldl_inv; intros) | (with_reducible apply foldl_inv2; intros) | (with_reducible apply foldl_inv1; intros) | (simp only [inv_lit]; with_reducible apply keyOk_mk) | (with_reducible apply wrByte_wf) | (with_reducible apply wrBytes_wf) | (with_reducible apply inv_mem) | (with_reducible apply inv_outer) | (exact memWf_nil) | (with_reducible apply State.dOut_inv) | (intro _) | (with_reducible refine (id ?_ : List.length _ = List.length _); simp; done) | split | dsimp only)

theorem execDtag_inv (op : TagOp) (dd da : BitVec 3) (va : VSrc) (s : State) (hI : s.Inv) : ResInv (execDtag op dd da va s) := by
  unfold execDtag
  try dsimp only
  repeat' (first | (with_reducible assumption) | (with_reducible rfl) | (with_reducible apply next_inv) | (with_reducible refine inv_snd (by assumption) ?_) | (with_reducible refine inv_fst (by assumption) ?_) | (with_reducible apply foldl_inv; intros) | (with_reducible apply foldl_inv2; intros) | (with_reducible apply foldl_inv1; intros) | (simp only [inv_lit]; with_reducible apply keyOk_mk) | (with_reducible apply wrByte_wf) | (with_reducible apply wrBytes_wf) | (with_reducible apply inv_mem) | (with_reducible apply inv_outer) | (exact memWf_nil) | (with_reducible apply State.dOut_inv) | (intro _) | (with_reducible refine (id ?_ : List.length _ = List.length _); simp; done) | split | dsimp only)

theorem execDmov_inv (sel : BitVec 8) (dd da : BitVec 3) (s : State) (hI : s.Inv) : ResInv (execDmov sel dd da s) := by
  unfold execDmov
  try dsimp only
  repeat' (first | (with_reducible assumption) | (with_reducible rfl) | (with_reducible apply next_inv) | (with_reducible refine inv_snd (by assumption) ?_) | (with_reducible refine inv_fst (by assumption) ?_) | (with_reducible apply foldl_inv; intros) | (with_reducible apply foldl_inv2; intros) | (with_reducible apply foldl_inv1; intros) | (simp only [inv_lit]; with_reducible apply keyOk_mk) | (with_reducible apply wrByte_wf) | (with_reducible apply wrBytes_wf) | (with_reducible apply inv_mem) | (with_reducible apply inv_outer) | (exact memWf_nil) | (with_reducible apply State.dOut_inv) | (intro _) | (with_reducible refine (id ?_ : List.length _ = List.length _); simp; done) | split | dsimp only)

theorem execDfrs_inv (dd : BitVec 3) (va : VSrc) (s : State) (hI : s.Inv) : ResInv (execDfrs dd va s) := by
  unfold execDfrs
  try dsimp only
  repeat' (first | (with_reducible assumption) | (with_reducible rfl) | (with_reducible apply next_inv) | (with_reducible refine inv_snd (by assumption) ?_) | (with_reducible refine inv_fst (by assumption) ?_) | (with_reducible apply foldl_inv; intros) | (with_reducible apply foldl_inv2; intros) | (with_reducible apply foldl_inv1; intros) | (simp only [inv_lit]; with_reducible apply keyOk_mk) | (with_reducible apply wrByte_wf) | (with_reducible apply wrBytes_wf) | (with_reducible apply inv_mem) | (with_reducible apply inv_outer) | (exact memWf_nil) | (with_reducible apply State.dOut_inv) | (intro _) | (with_reducible refine (id ?_ : List.length _ = List.length _); simp; done) | split | dsimp only)

theorem execDpnt_inv (dd : BitVec 3) (va : VSrc) (s : State) (hI : s.Inv) : ResInv (execDpnt dd va s) := by
  unfold execDpnt
  try dsimp only
  repeat' (first | (with_reducible assumption) | (with_reducible rfl) | (with_reducible apply next_inv) | (with_reducible refine inv_snd (by assumption) ?_) | (with_reducible refine inv_fst (by assumption) ?_) | (with_reducible apply foldl_inv; intros) | (with_reducible apply foldl_inv2; intros) | (with_reducible apply foldl_inv1; intros) | (simp only [inv_lit]; with_reducible apply keyOk_mk) | (with_reducible apply wrByte_wf) | (with_reducible apply wrBytes_wf) | (with_reducible apply inv_mem) | (with_reducible apply inv_outer) | (exact memWf_nil) | (with_reducible apply State.dOut_inv) | (intro _) | (with_reducible refine (id ?_ : List.length _ = List.length _); simp; done) | split | dsimp only)

theorem execDfrw_inv (dd : BitVec 3) (va : VSrc) (s : State) (hI : s.Inv) : ResInv (execDfrw dd va s) := by
  unfold execDfrw
  try dsimp only
  repeat' (first | (with_reducible assumption) | (with_reducible rfl) | (with_reducible apply next_inv) | (with_reducible refine inv_snd (by assumption) ?_) | (with_reducible refine inv_fst (by assumption) ?_) | (with_reducible apply foldl_inv; intros) | (with_reducible apply foldl_inv2; intros) | (with_reducible apply foldl_inv1; intros) | (simp only [inv_lit]; with_reducible apply keyOk_mk) | (with_reducible apply wrByte_wf) | (with_reducible apply wrBytes_wf) | (with_reducible apply inv_mem) | (with_reducible apply inv_outer) | (exact memWf_nil) | (with_reducible apply guard_inv) | (with_reducible apply onMe_inv) | (with_reducible apply State.issueTrap_inv) | (intro _) | (with_reducible refine (id ?_ : List.length _ = List.length _); simp; done) | split | dsimp only)

theorem execDsmp_inv (va : BitVec 6) (da : BitVec 3) (s : State) (hI : s.Inv) : ResInv (execDsmp va da s) := by
  unfold execDsmp
  try dsimp only
  repeat' (first | (with_reducible assumption) | (with_reducible rfl) | (with_reducible apply next_inv) | (with_reducible refine inv_snd (by assumption) ?_) | (with_reducible refine inv_fst (by assumption) ?_) | (with_reducible apply foldl_inv; intros) | (with_reducible apply foldl_inv2; intros) | (with_reducible apply foldl_inv1; intros) | (simp only [inv_lit]; with_reducible apply keyOk_mk) | (with_reducible apply wrByte_wf) | (with_reducible apply wrBytes_wf) | (with_reducible apply inv_mem) | (with_reducible apply inv_outer) | (exact memWf_nil) | (with_reducible apply State.dVec_inv) | (intro _) | (with_reducible refine (id ?_ : List.length _ = List.length _); simp; done) | split | dsimp only)

theorem execDmom_inv (va : BitVec 6) (da : BitVec 3) (s : State) (hI : s.Inv) : ResInv (execDmom va da s) := by
  unfold execDmom
  try dsimp only
  repeat' (first | (with_reducible assumption) | (with_reducible rfl) | (with_reducible apply next_inv) | (with_reducible refine inv_snd (by assumption) ?_) | (with_reducible refine inv_fst (by assumption) ?_) | (with_reducible apply foldl_inv; intros) | (with_reducible apply foldl_inv2; intros) | (with_reducible apply foldl_inv1; intros) | (simp only [inv_lit]; with_reducible apply keyOk_mk) | (with_reducible apply wrByte_wf) | (with_reducible apply wrBytes_wf) | (with_reducible apply inv_mem) | (with_reducible apply inv_outer) | (exact memWf_nil) | (with_reducible apply State.dVec_inv) | (intro _) | (with_reducible refine (id ?_ : List.length _ = List.length _); simp; done) | split | dsimp only)

theorem execDqnt_inv (lin : Bool) (da : BitVec 3) (va : VSrc) (s : State) (hI : s.Inv) : ResInv (execDqnt lin da va s) := by
  unfold execDqnt
  try dsimp only
  repeat' (first | (with_reducible assumption) | (with_reducible rfl) | (with_reducible apply next_inv) | (with_reducible refine inv_snd (by assumption) ?_) | (with_reducible refine inv_fst (by assumption) ?_) | (with_reducible apply foldl_inv; intros) | (with_reducible apply foldl_inv2; intros) | (with_reducible apply foldl_inv1; intros) | (simp only [inv_lit]; with_reducible apply keyOk_mk) | (with_reducible apply wrByte_wf) | (with_reducible apply wrBytes_wf) | (with_reducible apply inv_mem) | (with_reducible apply inv_outer) | (exact memWf_nil) | (with_reducible apply State.dVec_inv) | (intro _) | (with_reducible refine (id ?_ : List.length _ = List.length _); simp; done) | split | dsimp only)

/-! ### CopyIssue -/

theorem State.xIssue_inv (i : Instr) (o : XOps) (s : State) (hI : s.Inv) : ResInv (State.xIssue i o s) := by
  unfold State.xIssue
  try dsimp only
  repeat' (first | (with_reducible assumption) | (with_reducible rfl) | (with_reducible apply next_inv) | (with_reducible refine inv_snd (by assumption) ?_) | (with_reducible refine inv_fst (by assumption) ?_) | (with_reducible apply foldl_inv; intros) | (with_reducible apply foldl_inv2; intros) | (with_reducible apply foldl_inv1; intros) | (simp only [inv_lit]; with_reducible apply keyOk_mk) | (with_reducible apply wrByte_wf) | (with_reducible apply wrBytes_wf) | (with_reducible apply inv_mem) | (with_reducible apply inv_outer) | (exact memWf_nil) | (with_reducible apply guard_inv) | (with_reducible apply State.beginHold_inv) | (with_reducible apply onMe_inv) | (with_reducible apply State.issueTrap_inv) | (intro _) | (with_reducible refine (id ?_ : List.length _ = List.length _); simp; done) | split | dsimp only)

theorem execXld_inv (o : XOps) (s : State) (hI : s.Inv) : ResInv (execXld o s) := by
  unfold execXld
  try dsimp only
  repeat' (first | (with_reducible assumption) | (with_reducible rfl) | (with_reducible apply next_inv) | (with_reducible refine inv_snd (by assumption) ?_) | (with_reducible refine inv_fst (by assumption) ?_) | (with_reducible apply foldl_inv; intros) | (with_reducible apply foldl_inv2; intros) | (with_reducible apply foldl_inv1; intros) | (simp only [inv_lit]; with_reducible apply keyOk_mk) | (with_reducible apply wrByte_wf) | (with_reducible apply wrBytes_wf) | (with_reducible apply inv_mem) | (with_reducible apply inv_outer) | (exact memWf_nil) | (with_reducible apply State.xIssue_inv) | (intro _) | (with_reducible refine (id ?_ : List.length _ = List.length _); simp; done) | split | dsimp only)

theorem execXldw_inv (o : XOps) (s : State) (hI : s.Inv) : ResInv (execXldw o s) := by
  unfold execXldw
  try dsimp only
  repeat' (first | (with_reducible assumption) | (with_reducible rfl) | (with_reducible apply next_inv) | (with_reducible refine inv_snd (by assumption) ?_) | (with_reducible refine inv_fst (by assumption) ?_) | (with_reducible apply foldl_inv; intros) | (with_reducible apply foldl_inv2; intros) | (with_reducible apply foldl_inv1; intros) | (simp only [inv_lit]; with_reducible apply keyOk_mk) | (with_reducible apply wrByte_wf) | (with_reducible apply wrBytes_wf) | (with_reducible apply inv_mem) | (with_reducible apply inv_outer) | (exact memWf_nil) | (with_reducible apply State.xIssue_inv) | (intro _) | (with_reducible refine (id ?_ : List.length _ = List.length _); simp; done) | split | dsimp only)

theorem execXst_inv (o : XOps) (s : State) (hI : s.Inv) : ResInv (execXst o s) := by
  unfold execXst
  try dsimp only
  repeat' (first | (with_reducible assumption) | (with_reducible rfl) | (with_reducible apply next_inv) | (with_reducible refine inv_snd (by assumption) ?_) | (with_reducible refine inv_fst (by assumption) ?_) | (with_reducible apply foldl_inv; intros) | (with_reducible apply foldl_inv2; intros) | (with_reducible apply foldl_inv1; intros) | (simp only [inv_lit]; with_reducible apply keyOk_mk) | (with_reducible apply wrByte_wf) | (with_reducible apply wrBytes_wf) | (with_reducible apply inv_mem) | (with_reducible apply inv_outer) | (exact memWf_nil) | (with_reducible apply State.xIssue_inv) | (intro _) | (with_reducible refine (id ?_ : List.length _ = List.length _); simp; done) | split | dsimp only)

theorem execXput_inv (o : XOps) (s : State) (hI : s.Inv) : ResInv (execXput o s) := by
  unfold execXput
  try dsimp only
  repeat' (first | (with_reducible assumption) | (with_reducible rfl) | (with_reducible apply next_inv) | (with_reducible refine inv_snd (by assumption) ?_) | (with_reducible refine inv_fst (by assumption) ?_) | (with_reducible apply foldl_inv; intros) | (with_reducible apply foldl_inv2; intros) | (with_reducible apply foldl_inv1; intros) | (simp only [inv_lit]; with_reducible apply keyOk_mk) | (with_reducible apply wrByte_wf) | (with_reducible apply wrBytes_wf) | (with_reducible apply inv_mem) | (with_reducible apply inv_outer) | (exact memWf_nil) | (with_reducible apply State.xIssue_inv) | (intro _) | (with_reducible refine (id ?_ : List.length _ = List.length _); simp; done) | split | dsimp only)

theorem execXb_inv (o : XOps) (s : State) (hI : s.Inv) : ResInv (execXb o s) := by
  unfold execXb
  try dsimp only
  repeat' (first | (with_reducible assumption) | (with_reducible rfl) | (with_reducible apply next_inv) | (with_reducible refine inv_snd (by assumption) ?_) | (with_reducible refine inv_fst (by assumption) ?_) | (with_reducible apply foldl_inv; intros) | (with_reducible apply foldl_inv2; intros) | (with_reducible apply foldl_inv1; intros) | (simp only [inv_lit]; with_reducible apply keyOk_mk) | (with_reducible apply wrByte_wf) | (with_reducible apply wrBytes_wf) | (with_reducible apply inv_mem) | (with_reducible apply inv_outer) | (exact memWf_nil) | (with_reducible apply State.xIssue_inv) | (intro _) | (with_reducible refine (id ?_ : List.length _ = List.length _); simp; done) | split | dsimp only)

theorem execXgth_inv (o : XOps) (s : State) (hI : s.Inv) : ResInv (execXgth o s) := by
  unfold execXgth
  try dsimp only
  repeat' (first | (with_reducible assumption) | (with_reducible rfl) | (with_reducible apply next_inv) | (with_reducible refine inv_snd (by assumption) ?_) | (with_reducible refine inv_fst (by assumption) ?_) | (with_reducible apply foldl_inv; intros) | (with_reducible apply foldl_inv2; intros) | (with_reducible apply foldl_inv1; intros) | (simp only [inv_lit]; with_reducible apply keyOk_mk) | (with_reducible apply wrByte_wf) | (with_reducible apply wrBytes_wf) | (with_reducible apply inv_mem) | (with_reducible apply inv_outer) | (exact memWf_nil) | (with_reducible apply State.xIssue_inv) | (intro _) | (with_reducible refine (id ?_ : List.length _ = List.length _); simp; done) | split | dsimp only)

theorem execXsct_inv (o : XOps) (s : State) (hI : s.Inv) : ResInv (execXsct o s) := by
  unfold execXsct
  try dsimp only
  repeat' (first | (with_reducible assumption) | (with_reducible rfl) | (with_reducible apply next_inv) | (with_reducible refine inv_snd (by assumption) ?_) | (with_reducible refine inv_fst (by assumption) ?_) | (with_reducible apply foldl_inv; intros) | (with_reducible apply foldl_inv2; intros) | (with_reducible apply foldl_inv1; intros) | (simp only [inv_lit]; with_reducible apply keyOk_mk) | (with_reducible apply wrByte_wf) | (with_reducible apply wrBytes_wf) | (with_reducible apply inv_mem) | (with_reducible apply inv_outer) | (exact memWf_nil) | (with_reducible apply State.xIssue_inv) | (intro _) | (with_reducible refine (id ?_ : List.length _ = List.length _); simp; done) | split | dsimp only)

theorem execXchn_inv (o : XOps) (s : State) (hI : s.Inv) : ResInv (execXchn o s) := by
  unfold execXchn
  try dsimp only
  repeat' (first | (with_reducible assumption) | (with_reducible rfl) | (with_reducible apply next_inv) | (with_reducible refine inv_snd (by assumption) ?_) | (with_reducible refine inv_fst (by assumption) ?_) | (with_reducible apply foldl_inv; intros) | (with_reducible apply foldl_inv2; intros) | (with_reducible apply foldl_inv1; intros) | (simp only [inv_lit]; with_reducible apply keyOk_mk) | (with_reducible apply wrByte_wf) | (with_reducible apply wrBytes_wf) | (with_reducible apply inv_mem) | (with_reducible apply inv_outer) | (exact memWf_nil) | (with_reducible apply State.xIssue_inv) | (intro _) | (with_reducible refine (id ?_ : List.length _ = List.length _); simp; done) | split | dsimp only)

theorem execXpair_inv (o : XOps) (s : State) (hI : s.Inv) : ResInv (execXpair o s) := by
  unfold execXpair
  try dsimp only
  repeat' (first | (with_reducible assumption) | (with_reducible rfl) | (with_reducible apply next_inv) | (with_reducible refine inv_snd (by assumption) ?_) | (with_reducible refine inv_fst (by assumption) ?_) | (with_reducible apply foldl_inv; intros) | (with_reducible apply foldl_inv2; intros) | (with_reducible apply foldl_inv1; intros) | (simp only [inv_lit]; with_reducible apply keyOk_mk) | (with_reducible apply wrByte_wf) | (with_reducible apply wrBytes_wf) | (with_reducible apply inv_mem) | (with_reducible apply inv_outer) | (exact memWf_nil) | (with_reducible apply State.xIssue_inv) | (intro _) | (with_reducible refine (id ?_ : List.length _ = List.length _); simp; done) | split | dsimp only)

theorem execXfil_inv (sp : Bool) (o : XOps) (s : State) (hI : s.Inv) : ResInv (execXfil sp o s) := by
  unfold execXfil
  try dsimp only
  repeat' (first | (with_reducible assumption) | (with_reducible rfl) | (with_reducible apply next_inv) | (with_reducible refine inv_snd (by assumption) ?_) | (with_reducible refine inv_fst (by assumption) ?_) | (with_reducible apply foldl_inv; intros) | (with_reducible apply foldl_inv2; intros) | (with_reducible apply foldl_inv1; intros) | (simp only [inv_lit]; with_reducible apply keyOk_mk) | (with_reducible apply wrByte_wf) | (with_reducible apply wrBytes_wf) | (with_reducible apply inv_mem) | (with_reducible apply inv_outer) | (exact memWf_nil) | (with_reducible apply State.xIssue_inv) | (intro _) | (with_reducible refine (id ?_ : List.length _ = List.length _); simp; done) | split | dsimp only)

theorem execXcol_inv (k : BitVec 4) (o : XOps) (s : State) (hI : s.Inv) : ResInv (execXcol k o s) := by
  unfold execXcol
  try dsimp only
  repeat' (first | (with_reducible assumption) | (with_reducible rfl) | (with_reducible apply next_inv) | (with_reducible refine inv_snd (by assumption) ?_) | (with_reducible refine inv_fst (by assumption) ?_) | (with_reducible apply foldl_inv; intros) | (with_reducible apply foldl_inv2; intros) | (with_reducible apply foldl_inv1; intros) | (simp only [inv_lit]; with_reducible apply keyOk_mk) | (with_reducible apply wrByte_wf) | (with_reducible apply wrBytes_wf) | (with_reducible apply inv_mem) | (with_reducible apply inv_outer) | (exact memWf_nil) | (with_reducible apply State.xIssue_inv) | (intro _) | (with_reducible refine (id ?_ : List.length _ = List.length _); simp; done) | split | dsimp only)

theorem execXfen_inv (o : XOps) (s : State) (hI : s.Inv) : ResInv (execXfen o s) := by
  unfold execXfen
  try dsimp only
  repeat' (first | (with_reducible assumption) | (with_reducible rfl) | (with_reducible apply next_inv) | (with_reducible refine inv_snd (by assumption) ?_) | (with_reducible refine inv_fst (by assumption) ?_) | (with_reducible apply foldl_inv; intros) | (with_reducible apply foldl_inv2; intros) | (with_reducible apply foldl_inv1; intros) | (simp only [inv_lit]; with_reducible apply keyOk_mk) | (with_reducible apply wrByte_wf) | (with_reducible apply wrBytes_wf) | (with_reducible apply inv_mem) | (with_reducible apply inv_outer) | (exact memWf_nil) | (with_reducible apply State.xIssue_inv) | (intro _) | (with_reducible refine (id ?_ : List.length _ = List.length _); simp; done) | split | dsimp only)

theorem execXpsh_inv (one : Bool) (sa sb : BitVec 5) (s : State) (hI : s.Inv) : ResInv (execXpsh one sa sb s) := by
  unfold execXpsh
  try dsimp only
  repeat' (first | (with_reducible assumption) | (with_reducible rfl) | (with_reducible apply next_inv) | (with_reducible refine inv_snd (by assumption) ?_) | (with_reducible refine inv_fst (by assumption) ?_) | (with_reducible apply foldl_inv; intros) | (with_reducible apply foldl_inv2; intros) | (with_reducible apply foldl_inv1; intros) | (simp only [inv_lit]; with_reducible apply keyOk_mk) | (with_reducible apply wrByte_wf) | (with_reducible apply wrBytes_wf) | (with_reducible apply inv_mem) | (with_reducible apply inv_outer) | (exact memWf_nil) | (with_reducible apply guard_inv) | (with_reducible apply onMe_inv) | (with_reducible apply State.issueTrap_inv) | (intro _) | (with_reducible refine (id ?_ : List.length _ = List.length _); simp; done) | split | dsimp only)

theorem execXcan_inv (all : Bool) (sq : BitVec 12) (s : State) (hI : s.Inv) : ResInv (execXcan all sq s) := by
  unfold execXcan
  try dsimp only
  repeat' (first | (with_reducible assumption) | (with_reducible rfl) | (with_reducible apply next_inv) | (with_reducible refine inv_snd (by assumption) ?_) | (with_reducible refine inv_fst (by assumption) ?_) | (with_reducible apply foldl_inv; intros) | (with_reducible apply foldl_inv2; intros) | (with_reducible apply foldl_inv1; intros) | (simp only [inv_lit]; with_reducible apply keyOk_mk) | (with_reducible apply wrByte_wf) | (with_reducible apply wrBytes_wf) | (with_reducible apply inv_mem) | (with_reducible apply inv_outer) | (exact memWf_nil) | (with_reducible apply guard_inv) | (with_reducible apply onMe_inv) | (with_reducible apply State.issueTrap_inv) | (intro _) | (with_reducible refine (id ?_ : List.length _ = List.length _); simp; done) | split | dsimp only)

/-! ### CopyEngine -/

theorem State.readTimes_inv (s : State) (hdr ts : List CopyTarget) (lo hi : Nat) (hI : s.Inv) : (State.readTimes s hdr ts lo hi).2.2.Inv := by
  unfold State.readTimes
  try dsimp only
  repeat' (first | (with_reducible assumption) | (with_reducible rfl) | (with_reducible apply next_inv) | (with_reducible refine inv_snd (by assumption) ?_) | (with_reducible refine inv_fst (by assumption) ?_) | (with_reducible apply foldl_inv; intros) | (with_reducible apply foldl_inv2; intros) | (with_reducible apply foldl_inv1; intros) | (simp only [inv_lit]; with_reducible apply keyOk_mk) | (with_reducible apply wrByte_wf) | (with_reducible apply wrBytes_wf) | (with_reducible apply inv_mem) | (with_reducible apply inv_outer) | (exact memWf_nil) | (with_reducible apply State.freeIn_inv) | (with_reducible apply State.free_inv) | (intro _) | (with_reducible refine (id ?_ : List.length _ = List.length _); simp; done) | split | dsimp only)

theorem State.startCmd_inv (s : State) (c : Nat) (x : Cmd) (hI : s.Inv) : (State.startCmd s c x).Inv := by
  unfold State.startCmd
  try dsimp only
  repeat' (first | (with_reducible assumption) | (with_reducible rfl) | (with_reducible apply next_inv) | (with_reducible refine inv_snd (by assumption) ?_) | (with_reducible refine inv_fst (by assumption) ?_) | (with_reducible apply foldl_inv; intros) | (with_reducible apply foldl_inv2; intros) | (with_reducible apply foldl_inv1; intros) | (simp only [inv_lit]; with_reducible apply keyOk_mk) | (with_reducible apply wrByte_wf) | (with_reducible apply wrBytes_wf) | (with_reducible apply inv_mem) | (with_reducible apply inv_outer) | (exact memWf_nil) | (with_reducible apply State.acquire_inv) | (with_reducible apply State.freeIn_inv) | (with_reducible apply State.free_inv) | (with_reducible apply State.readTimes_inv) | (with_reducible apply onCl_inv) | (intro _) | (with_reducible refine (id ?_ : List.length _ = List.length _); simp; done) | split | dsimp only)

theorem execCopyCommandStart_inv (c : BitVec 4) (s : State) (hI : s.Inv) : ResInv (execCopyCommandStart c s) := by
  unfold execCopyCommandStart
  try dsimp only
  repeat' (first | (with_reducible assumption) | (with_reducible rfl) | (with_reducible apply next_inv) | (with_reducible refine inv_snd (by assumption) ?_) | (with_reducible refine inv_fst (by assumption) ?_) | (with_reducible apply foldl_inv; intros) | (with_reducible apply foldl_inv2; intros) | (with_reducible apply foldl_inv1; intros) | (simp only [inv_lit]; with_reducible apply keyOk_mk) | (with_reducible apply wrByte_wf) | (with_reducible apply wrBytes_wf) | (with_reducible apply inv_mem) | (with_reducible apply inv_outer) | (exact memWf_nil) | (with_reducible apply State.startCmd_inv) | (intro _) | (with_reducible refine (id ?_ : List.length _ = List.length _); simp; done) | split | dsimp only)

theorem State.setAct_inv (s : State) (c : Nat) (a : Active) (hI : s.Inv) : (State.setAct s c a).Inv := by
  unfold State.setAct
  try dsimp only
  repeat' (first | (with_reducible assumption) | (with_reducible rfl) | (with_reducible apply next_inv) | (with_reducible refine inv_snd (by assumption) ?_) | (with_reducible refine inv_fst (by assumption) ?_) | (with_reducible apply foldl_inv; intros) | (with_reducible apply foldl_inv2; intros) | (with_reducible apply foldl_inv1; intros) | (simp only [inv_lit]; with_reducible apply keyOk_mk) | (with_reducible apply wrByte_wf) | (with_reducible apply wrBytes_wf) | (with_reducible apply inv_mem) | (with_reducible apply inv_outer) | (exact memWf_nil) | (with_reducible apply onCl_inv) | (intro _) | (with_reducible refine (id ?_ : List.length _ = List.length _); simp; done) | split | dsimp only)

theorem State.copyRead_inv (s : State) (c va : Nat) (hI : s.Inv) : (State.copyRead s c va).2.Inv := by
  unfold State.copyRead
  try dsimp only
  repeat' (first | (with_reducible assumption) | (with_reducible rfl) | (with_reducible apply next_inv) | (with_reducible refine inv_snd (by assumption) ?_) | (with_reducible refine inv_fst (by assumption) ?_) | (with_reducible apply foldl_inv; intros) | (with_reducible apply foldl_inv2; intros) | (with_reducible apply foldl_inv1; intros) | (simp only [inv_lit]; with_reducible apply keyOk_mk) | (with_reducible apply wrByte_wf) | (with_reducible apply wrBytes_wf) | (with_reducible apply inv_mem) | (with_reducible apply inv_outer) | (exact memWf_nil) | (with_reducible apply State.xlateN_inv) | (with_reducible apply State.farRead_inv) | (intro _) | (with_reducible refine (id ?_ : List.length _ = List.length _); simp; done) | split | dsimp only)

theorem State.copyByte_inv (s : State) (c : Nat) (t : CopyTarget) (hI : s.Inv) : (State.copyByte s c t).2.Inv := by
  unfold State.copyByte
  try dsimp only
  repeat' (first | (with_reducible assumption) | (with_reducible rfl) | (with_reducible apply next_inv) | (with_reducible refine inv_snd (by assumption) ?_) | (with_reducible refine inv_fst (by assumption) ?_) | (with_reducible apply foldl_inv; intros) | (with_reducible apply foldl_inv2; intros) | (with_reducible apply foldl_inv1; intros) | (simp only [inv_lit]; with_reducible apply keyOk_mk) | (with_reducible apply wrByte_wf) | (with_reducible apply wrBytes_wf) | (with_reducible apply inv_mem) | (with_reducible apply inv_outer) | (exact memWf_nil) | (with_reducible apply State.copyRead_inv) | (intro _) | (with_reducible refine (id ?_ : List.length _ = List.length _); simp; done) | split | dsimp only)

theorem State.copyReads_inv (s : State) (c : Nat) (a : Active) (hI : s.Inv) : (State.copyReads s c a).1.Inv := by
  unfold State.copyReads
  try dsimp only
  repeat' (first | (with_reducible assumption) | (with_reducible rfl) | (with_reducible apply next_inv) | (with_reducible refine inv_snd (by assumption) ?_) | (with_reducible refine inv_fst (by assumption) ?_) | (with_reducible apply foldl_inv; intros) | (with_reducible apply foldl_inv2; intros) | (with_reducible apply foldl_inv1; intros) | (simp only [inv_lit]; with_reducible apply keyOk_mk) | (with_reducible apply wrByte_wf) | (with_reducible apply wrBytes_wf) | (with_reducible apply inv_mem) | (with_reducible apply inv_outer) | (exact memWf_nil) | (with_reducible apply State.copyByte_inv) | (with_reducible apply State.freeBytes_inv) | (intro _) | (with_reducible refine (id ?_ : List.length _ = List.length _); simp; done) | split | dsimp only)

theorem State.layOut_inv (s : State) (c : Nat) (a : Active) (outs : List (CopyTarget × Byte)) (hI : s.Inv) : (State.layOut s c a outs).1.Inv := by
  unfold State.layOut
  try dsimp only
  repeat' (first | (with_reducible assumption) | (with_reducible rfl) | (with_reducible apply next_inv) | (with_reducible refine inv_snd (by assumption) ?_) | (with_reducible refine inv_fst (by assumption) ?_) | (with_reducible apply foldl_inv; intros) | (with_reducible apply foldl_inv2; intros) | (with_reducible apply foldl_inv1; intros) | (simp only [inv_lit]; with_reducible apply keyOk_mk) | (with_reducible apply wrByte_wf) | (with_reducible apply wrBytes_wf) | (with_reducible apply inv_mem) | (with_reducible apply inv_outer) | (exact memWf_nil) | (with_reducible apply State.free_inv) | (intro _) | (with_reducible refine (id ?_ : List.length _ = List.length _); simp; done) | split | dsimp only)

theorem State.formCmd_inv (s : State) (c : Nat) (a : Active) (hI : s.Inv) : (State.formCmd s c a).1.Inv := by
  unfold State.formCmd
  try dsimp only
  repeat' (first | (with_reducible assumption) | (with_reducible rfl) | (with_reducible apply next_inv) | (with_reducible refine inv_snd (by assumption) ?_) | (with_reducible refine inv_fst (by assumption) ?_) | (with_reducible apply foldl_inv; intros) | (with_reducible apply foldl_inv2; intros) | (with_reducible apply foldl_inv1; intros) | (simp only [inv_lit]; with_reducible apply keyOk_mk) | (with_reducible apply wrByte_wf) | (with_reducible apply wrBytes_wf) | (with_reducible apply inv_mem) | (with_reducible apply inv_outer) | (exact memWf_nil) | (with_reducible apply State.translate_inv) | (with_reducible apply State.recall_inv) | (with_reducible apply State.free_inv) | (with_reducible apply State.readTimes_inv) | (with_reducible apply onCl_inv) | (with_reducible apply State.layOut_inv) | (intro _) | (with_reducible refine (id ?_ : List.length _ = List.length _); simp; done) | split | dsimp only)

theorem State.copyPut_inv (s : State) (c : Nat) (a : Active) (t : CopyTarget) (b : Byte) (hI : s.Inv) : (State.copyPut s c a t b).2.Inv := by
  unfold State.copyPut
  try dsimp only
  repeat' (first | (with_reducible assumption) | (with_reducible rfl) | (with_reducible apply next_inv) | (with_reducible refine inv_snd (by assumption) ?_) | (with_reducible refine inv_fst (by assumption) ?_) | (with_reducible apply foldl_inv; intros) | (with_reducible apply foldl_inv2; intros) | (with_reducible apply foldl_inv1; intros) | (simp only [inv_lit]; with_reducible apply keyOk_mk) | (with_reducible apply wrByte_wf) | (with_reducible apply wrBytes_wf) | (with_reducible apply inv_mem) | (with_reducible apply inv_outer) | (exact memWf_nil) | (with_reducible apply State.xlate_inv) | (with_reducible apply State.recall_inv) | (with_reducible apply State.hbmWrite_inv) | (with_reducible apply State.tagWrite_inv) | (with_reducible apply State.windowWrite_inv) | (with_reducible apply State.paWrite_inv) | (with_reducible apply onCl_inv) | (intro _) | (with_reducible refine (id ?_ : List.length _ = List.length _); simp; done) | split | dsimp only)

theorem State.copyWrites_inv (s : State) (c : Nat) (a : Active) (hI : s.Inv) : (State.copyWrites s c a).1.Inv := by
  unfold State.copyWrites
  try dsimp only
  repeat' (first | (with_reducible assumption) | (with_reducible rfl) | (with_reducible apply next_inv) | (with_reducible refine inv_snd (by assumption) ?_) | (with_reducible refine inv_fst (by assumption) ?_) | (with_reducible apply foldl_inv; intros) | (with_reducible apply foldl_inv2; intros) | (with_reducible apply foldl_inv1; intros) | (simp only [inv_lit]; with_reducible apply keyOk_mk) | (with_reducible apply wrByte_wf) | (with_reducible apply wrBytes_wf) | (with_reducible apply inv_mem) | (with_reducible apply inv_outer) | (exact memWf_nil) | (with_reducible apply State.copyPut_inv) | (with_reducible apply State.xlate_inv) | (with_reducible apply State.unpoison_inv) | (intro _) | (with_reducible refine (id ?_ : List.length _ = List.length _); simp; done) | split | dsimp only)

theorem State.pageTag_inv (s : State) (p : Nat × Nat × Nat) (tag : BitVec 16) (org : Option PendFault) (hI : s.Inv) : (State.pageTag s p tag org).Inv := by
  unfold State.pageTag
  try dsimp only
  repeat' (first | (with_reducible assumption) | (with_reducible rfl) | (with_reducible apply next_inv) | (with_reducible refine inv_snd (by assumption) ?_) | (with_reducible refine inv_fst (by assumption) ?_) | (with_reducible apply foldl_inv; intros) | (with_reducible apply foldl_inv2; intros) | (with_reducible apply foldl_inv1; intros) | (simp only [inv_lit]; with_reducible apply keyOk_mk) | (with_reducible apply wrByte_wf) | (with_reducible apply wrBytes_wf) | (with_reducible apply inv_mem) | (with_reducible apply inv_outer) | (exact memWf_nil) | (with_reducible apply onCl_inv) | (intro _) | (with_reducible refine (id ?_ : List.length _ = List.length _); simp; done) | split | dsimp only)

theorem State.countChunk_inv {s t : State} {c : Nat} {k : BitVec 4} {chunk inc : Nat} (e : s.countChunk c k chunk inc = some t) (hI : s.Inv) : t.Inv := by
  unfold State.countChunk at e
  dsimp only at e
  split at e
  · cases e
    simp only [inv_lit]; exact keyOk_mk hI (inv_mem hI) (inv_outer hI) rfl (by simp) rfl
  · cases e

theorem State.creditPen_inv (s : State) (c : Nat) (x : Cmd) (arr units : Nat) (vc : List (BitVec 20)) (hI : s.Inv) : (State.creditPen s c x arr units vc).Inv := by
  unfold State.creditPen
  try dsimp only
  repeat' (first | (with_reducible assumption) | (with_reducible rfl) | (with_reducible apply next_inv) | (with_reducible refine inv_snd (by assumption) ?_) | (with_reducible refine inv_fst (by assumption) ?_) | (with_reducible apply foldl_inv; intros) | (with_reducible apply foldl_inv2; intros) | (with_reducible apply foldl_inv1; intros) | (simp only [inv_lit]; with_reducible apply keyOk_mk) | (with_reducible apply wrByte_wf) | (with_reducible apply wrBytes_wf) | (with_reducible apply inv_mem) | (with_reducible apply inv_outer) | (exact memWf_nil) | (with_reducible apply onCl_inv) | (with_reducible apply State.release_inv) | (intro _) | (with_reducible refine (id ?_ : List.length _ = List.length _); simp; done) | split | dsimp only)

theorem State.copyRelease_inv (s : State) (c : Nat) (x : Cmd) (hI : s.Inv) : (State.copyRelease s c x).Inv := by
  unfold State.copyRelease
  try dsimp only
  repeat' (first | (with_reducible assumption) | (with_reducible rfl) | (with_reducible apply next_inv) | (with_reducible refine inv_snd (by assumption) ?_) | (with_reducible refine inv_fst (by assumption) ?_) | (with_reducible apply foldl_inv; intros) | (with_reducible apply foldl_inv2; intros) | (with_reducible apply foldl_inv1; intros) | (simp only [inv_lit]; with_reducible apply keyOk_mk) | (with_reducible apply wrByte_wf) | (with_reducible apply wrBytes_wf) | (with_reducible apply inv_mem) | (with_reducible apply inv_outer) | (exact memWf_nil) | (with_reducible apply State.release_inv) | (with_reducible apply State.vcStep_inv) | (intro _) | (with_reducible refine (id ?_ : List.length _ = List.length _); simp; done) | split | dsimp only)

theorem State.retire_inv (s : State) (c : Nat) (a : Active) (hI : s.Inv) : (State.retire s c a).Inv := by
  unfold State.retire
  try dsimp only
  repeat' (first | (with_reducible assumption) | (with_reducible rfl) | (with_reducible apply next_inv) | (with_reducible refine inv_snd (by assumption) ?_) | (with_reducible refine inv_fst (by assumption) ?_) | (with_reducible apply foldl_inv; intros) | (with_reducible apply foldl_inv2; intros) | (with_reducible apply foldl_inv1; intros) | (simp only [inv_lit]; with_reducible apply keyOk_mk) | (with_reducible apply wrByte_wf) | (with_reducible apply wrBytes_wf) | (with_reducible apply inv_mem) | (with_reducible apply inv_outer) | (exact memWf_nil) | (with_reducible apply onCl_inv) | (intro _) | (with_reducible refine (id ?_ : List.length _ = List.length _); simp; done) | split | dsimp only)

theorem State.failCmd_inv (s : State) (c : Nat) (a : Active) (code : BitVec 3) (t : TrapInfo) (hI : s.Inv) : (State.failCmd s c a code t).Inv := by
  unfold State.failCmd
  try dsimp only
  repeat' (first | (with_reducible assumption) | (with_reducible rfl) | (with_reducible apply next_inv) | (with_reducible refine inv_snd (by assumption) ?_) | (with_reducible refine inv_fst (by assumption) ?_) | (with_reducible apply foldl_inv; intros) | (with_reducible apply foldl_inv2; intros) | (with_reducible apply foldl_inv1; intros) | (simp only [inv_lit]; with_reducible apply keyOk_mk) | (with_reducible apply wrByte_wf) | (with_reducible apply wrBytes_wf) | (with_reducible apply inv_mem) | (with_reducible apply inv_outer) | (exact memWf_nil) | (with_reducible apply State.pageTag_inv) | (with_reducible apply onCl_inv) | (with_reducible apply State.retire_inv) | (intro _) | (with_reducible refine (id ?_ : List.length _ = List.length _); simp; done) | split | dsimp only)

theorem State.endCmd_inv (s : State) (c : Nat) (a : Active) (hI : s.Inv) : (State.endCmd s c a).Inv := by
  unfold State.endCmd
  try dsimp only
  repeat' (first | (with_reducible assumption) | (with_reducible rfl) | (with_reducible apply next_inv) | (with_reducible refine inv_snd (by assumption) ?_) | (with_reducible refine inv_fst (by assumption) ?_) | (with_reducible apply foldl_inv; intros) | (with_reducible apply foldl_inv2; intros) | (with_reducible apply foldl_inv1; intros) | (simp only [inv_lit]; with_reducible apply keyOk_mk) | (with_reducible apply wrByte_wf) | (with_reducible apply wrBytes_wf) | (with_reducible apply inv_mem) | (with_reducible apply inv_outer) | (exact memWf_nil) | (with_reducible apply State.failCmd_inv) | (with_reducible apply State.release_inv) | (with_reducible apply State.vcStep_inv) | (with_reducible refine State.countChunk_inv (by assumption) ?_) | (with_reducible apply State.copyRelease_inv) | (with_reducible apply State.creditPen_inv) | (with_reducible apply State.retire_inv) | (with_reducible apply State.pageTag_inv) | (with_reducible apply State.free_inv) | (intro _) | (with_reducible refine (id ?_ : List.length _ = List.length _); simp; done) | split | dsimp only)

theorem State.loosen_inv (s : State) (c : Nat) (a : Active) (hI : s.Inv) : (State.loosen s c a).1.Inv := by
  unfold State.loosen
  try dsimp only
  repeat' (first | (with_reducible assumption) | (with_reducible rfl) | (with_reducible apply next_inv) | (with_reducible refine inv_snd (by assumption) ?_) | (with_reducible refine inv_fst (by assumption) ?_) | (with_reducible apply foldl_inv; intros) | (with_reducible apply foldl_inv2; intros) | (with_reducible apply foldl_inv1; intros) | (simp only [inv_lit]; with_reducible apply keyOk_mk) | (with_reducible apply wrByte_wf) | (with_reducible apply wrBytes_wf) | (with_reducible apply inv_mem) | (with_reducible apply inv_outer) | (exact memWf_nil) | (with_reducible apply State.free_inv) | (intro _) | (with_reducible refine (id ?_ : List.length _ = List.length _); simp; done) | split | dsimp only)

theorem State.copyStep_inv (s : State) (c id : Nat) (hI : s.Inv) : (State.copyStep s c id).Inv := by
  unfold State.copyStep
  try dsimp only
  repeat' (first | (with_reducible assumption) | (with_reducible rfl) | (with_reducible apply next_inv) | (with_reducible refine inv_snd (by assumption) ?_) | (with_reducible refine inv_fst (by assumption) ?_) | (with_reducible apply foldl_inv; intros) | (with_reducible apply foldl_inv2; intros) | (with_reducible apply foldl_inv1; intros) | (simp only [inv_lit]; with_reducible apply keyOk_mk) | (with_reducible apply wrByte_wf) | (with_reducible apply wrBytes_wf) | (with_reducible apply inv_mem) | (with_reducible apply inv_outer) | (exact memWf_nil) | (with_reducible apply State.endCmd_inv) | (with_reducible apply State.freeIn_inv) | (with_reducible apply State.setAct_inv) | (with_reducible apply State.loosen_inv) | (with_reducible apply State.copyReads_inv) | (with_reducible apply State.formCmd_inv) | (with_reducible apply State.copyWrites_inv) | (intro _) | (with_reducible refine (id ?_ : List.length _ = List.length _); simp; done) | split | dsimp only)

theorem execCopyCommandComplete_inv (c : BitVec 4) (s : State) (hI : s.Inv) : ResInv (execCopyCommandComplete c s) := by
  unfold execCopyCommandComplete
  try dsimp only
  repeat' (first | (with_reducible assumption) | (with_reducible rfl) | (with_reducible apply next_inv) | (with_reducible refine inv_snd (by assumption) ?_) | (with_reducible refine inv_fst (by assumption) ?_) | (with_reducible apply foldl_inv; intros) | (with_reducible apply foldl_inv2; intros) | (with_reducible apply foldl_inv1; intros) | (simp only [inv_lit]; with_reducible apply keyOk_mk) | (with_reducible apply wrByte_wf) | (with_reducible apply wrBytes_wf) | (with_reducible apply inv_mem) | (with_reducible apply inv_outer) | (exact memWf_nil) | (with_reducible apply State.copyStep_inv) | (intro _) | (with_reducible refine (id ?_ : List.length _ = List.length _); simp; done) | split | dsimp only)

theorem execGatherEntryArrival_inv (c : BitVec 4) (s : State) (hI : s.Inv) : ResInv (execGatherEntryArrival c s) := by
  unfold execGatherEntryArrival
  try dsimp only
  repeat' (first | (with_reducible assumption) | (with_reducible rfl) | (with_reducible apply next_inv) | (with_reducible refine inv_snd (by assumption) ?_) | (with_reducible refine inv_fst (by assumption) ?_) | (with_reducible apply foldl_inv; intros) | (with_reducible apply foldl_inv2; intros) | (with_reducible apply foldl_inv1; intros) | (simp only [inv_lit]; with_reducible apply keyOk_mk) | (with_reducible apply wrByte_wf) | (with_reducible apply wrBytes_wf) | (with_reducible apply inv_mem) | (with_reducible apply inv_outer) | (exact memWf_nil) | (with_reducible apply onCl_inv) | (intro _) | (with_reducible refine (id ?_ : List.length _ = List.length _); simp; done) | split | dsimp only)

theorem State.dropPosted_inv (s : State) (c id : Nat) (hI : s.Inv) : (State.dropPosted s c id).Inv := by
  unfold State.dropPosted
  try dsimp only
  repeat' (first | (with_reducible assumption) | (with_reducible rfl) | (with_reducible apply next_inv) | (with_reducible refine inv_snd (by assumption) ?_) | (with_reducible refine inv_fst (by assumption) ?_) | (with_reducible apply foldl_inv; intros) | (with_reducible apply foldl_inv2; intros) | (with_reducible apply foldl_inv1; intros) | (simp only [inv_lit]; with_reducible apply keyOk_mk) | (with_reducible apply wrByte_wf) | (with_reducible apply wrBytes_wf) | (with_reducible apply inv_mem) | (with_reducible apply inv_outer) | (exact memWf_nil) | (with_reducible apply onCl_inv) | (intro _) | (with_reducible refine (id ?_ : List.length _ = List.length _); simp; done) | split | dsimp only)

theorem State.postFault_inv (s : State) (c : Nat) (p : Posted) (t : TrapInfo) (slot : Slot) (hI : s.Inv) : (State.postFault s c p t slot).Inv := by
  unfold State.postFault
  try dsimp only
  repeat' (first | (with_reducible assumption) | (with_reducible rfl) | (with_reducible apply next_inv) | (with_reducible refine inv_snd (by assumption) ?_) | (with_reducible refine inv_fst (by assumption) ?_) | (with_reducible apply foldl_inv; intros) | (with_reducible apply foldl_inv2; intros) | (with_reducible apply foldl_inv1; intros) | (simp only [inv_lit]; with_reducible apply keyOk_mk) | (with_reducible apply wrByte_wf) | (with_reducible apply wrBytes_wf) | (with_reducible apply inv_mem) | (with_reducible apply inv_outer) | (exact memWf_nil) | (with_reducible apply onCl_inv) | (with_reducible apply State.release_inv) | (intro _) | (with_reducible refine (id ?_ : List.length _ = List.length _); simp; done) | split | dsimp only)

theorem State.setBitAt_inv (s : State) (c : Nat) (p : Posted) (va bit : Nat) (sc : Scope) (fence : Option Scope) (hI : s.Inv) : (State.setBitAt s c p va bit sc fence).Inv := by
  unfold State.setBitAt
  try dsimp only
  repeat' (first | (with_reducible assumption) | (with_reducible rfl) | (with_reducible apply next_inv) | (with_reducible refine inv_snd (by assumption) ?_) | (with_reducible refine inv_fst (by assumption) ?_) | (with_reducible apply foldl_inv; intros) | (with_reducible apply foldl_inv2; intros) | (with_reducible apply foldl_inv1; intros) | (simp only [inv_lit]; with_reducible apply keyOk_mk) | (with_reducible apply wrByte_wf) | (with_reducible apply wrBytes_wf) | (with_reducible apply inv_mem) | (with_reducible apply inv_outer) | (exact memWf_nil) | (with_reducible apply State.xlate_inv) | (with_reducible apply State.postFault_inv) | (with_reducible apply State.dropPosted_inv) | (with_reducible apply State.settle_inv) | (with_reducible apply State.fenceAt_inv) | (with_reducible apply State.releaseAt_inv) | (with_reducible apply State.atomTarget_inv) | (intro _) | (with_reducible refine (id ?_ : List.length _ = List.length _); simp; done) | split | dsimp only)

theorem execBsetPerform_inv (c : BitVec 4) (s : State) (hI : s.Inv) : ResInv (execBsetPerform c s) := by
  unfold execBsetPerform
  try dsimp only
  repeat' (first | (with_reducible assumption) | (with_reducible rfl) | (with_reducible apply next_inv) | (with_reducible refine inv_snd (by assumption) ?_) | (with_reducible refine inv_fst (by assumption) ?_) | (with_reducible apply foldl_inv; intros) | (with_reducible apply foldl_inv2; intros) | (with_reducible apply foldl_inv1; intros) | (simp only [inv_lit]; with_reducible apply keyOk_mk) | (with_reducible apply wrByte_wf) | (with_reducible apply wrBytes_wf) | (with_reducible apply inv_mem) | (with_reducible apply inv_outer) | (exact memWf_nil) | (with_reducible apply State.setBitAt_inv) | (intro _) | (with_reducible refine (id ?_ : List.length _ = List.length _); simp; done) | split | dsimp only)

theorem State.postTarget_inv (s : State) (c va n : Nat) (core : Option (BitVec 8)) (hI : s.Inv) : (State.postTarget s c va n core).2.Inv := by
  unfold State.postTarget
  try dsimp only
  repeat' (first | (with_reducible assumption) | (with_reducible rfl) | (with_reducible apply next_inv) | (with_reducible refine inv_snd (by assumption) ?_) | (with_reducible refine inv_fst (by assumption) ?_) | (with_reducible apply foldl_inv; intros) | (with_reducible apply foldl_inv2; intros) | (with_reducible apply foldl_inv1; intros) | (simp only [inv_lit]; with_reducible apply keyOk_mk) | (with_reducible apply wrByte_wf) | (with_reducible apply wrBytes_wf) | (with_reducible apply inv_mem) | (with_reducible apply inv_outer) | (exact memWf_nil) | (with_reducible apply State.xlate_inv) | (intro _) | (with_reducible refine (id ?_ : List.length _ = List.length _); simp; done) | split | dsimp only)

theorem State.postPerform_inv (s : State) (c : Nat) (p : Posted) (va : Nat) (op : UpdOp) (ty : UpdTy) (v : Word) (slot : Slot) (core : Option (BitVec 8))
    (fence : Option Scope) (hI : s.Inv) : (State.postPerform s c p va op ty v slot core fence).Inv := by
  unfold State.postPerform
  try dsimp only
  repeat' (first | (with_reducible assumption) | (with_reducible rfl) | (with_reducible apply next_inv) | (with_reducible refine inv_snd (by assumption) ?_) | (with_reducible refine inv_fst (by assumption) ?_) | (with_reducible apply foldl_inv; intros) | (with_reducible apply foldl_inv2; intros) | (with_reducible apply foldl_inv1; intros) | (simp only [inv_lit]; with_reducible apply keyOk_mk) | (with_reducible apply wrByte_wf) | (with_reducible apply wrBytes_wf) | (with_reducible apply inv_mem) | (with_reducible apply inv_outer) | (exact memWf_nil) | (with_reducible apply State.postTarget_inv) | (with_reducible apply State.postFault_inv) | (with_reducible apply State.dropPosted_inv) | (with_reducible apply State.settle_inv) | (with_reducible apply State.fenceAt_inv) | (with_reducible apply State.updTarget_inv) | (with_reducible apply State.noteRead_inv) | (intro _) | (with_reducible refine (id ?_ : List.length _ = List.length _); simp; done) | split | dsimp only)

theorem execPostedAtomPerform_inv (c : BitVec 4) (s : State) (hI : s.Inv) : ResInv (execPostedAtomPerform c s) := by
  unfold execPostedAtomPerform
  try dsimp only
  repeat' (first | (with_reducible assumption) | (with_reducible rfl) | (with_reducible apply next_inv) | (with_reducible refine inv_snd (by assumption) ?_) | (with_reducible refine inv_fst (by assumption) ?_) | (with_reducible apply foldl_inv; intros) | (with_reducible apply foldl_inv2; intros) | (with_reducible apply foldl_inv1; intros) | (simp only [inv_lit]; with_reducible apply keyOk_mk) | (with_reducible apply wrByte_wf) | (with_reducible apply wrBytes_wf) | (with_reducible apply inv_mem) | (with_reducible apply inv_outer) | (exact memWf_nil) | (with_reducible apply State.postPerform_inv) | (intro _) | (with_reducible refine (id ?_ : List.length _ = List.length _); simp; done) | split | dsimp only)

theorem execUpdateLineMerge_inv (c : BitVec 4) (line : Nat) (s : State) (hI : s.Inv) : ResInv (execUpdateLineMerge c line s) := by
  unfold execUpdateLineMerge
  try dsimp only
  repeat' (first | (with_reducible assumption) | (with_reducible rfl) | (with_reducible apply next_inv) | (with_reducible refine inv_snd (by assumption) ?_) | (with_reducible refine inv_fst (by assumption) ?_) | (with_reducible apply foldl_inv; intros) | (with_reducible apply foldl_inv2; intros) | (with_reducible apply foldl_inv1; intros) | (simp only [inv_lit]; with_reducible apply keyOk_mk) | (with_reducible apply wrByte_wf) | (with_reducible apply wrBytes_wf) | (with_reducible apply inv_mem) | (with_reducible apply inv_outer) | (exact memWf_nil) | (with_reducible apply State.mergeLine_inv) | (intro _) | (with_reducible refine (id ?_ : List.length _ = List.length _); simp; done) | split | dsimp only)

theorem execRemotePennantUpdate_inv (c : BitVec 4) (addr : BitVec 26) (operand : BitVec 64) (s : State) (hI : s.Inv) : ResInv (execRemotePennantUpdate c addr operand s) := by
  unfold execRemotePennantUpdate
  try dsimp only
  repeat' (first | (with_reducible assumption) | (with_reducible rfl) | (with_reducible apply next_inv) | (with_reducible refine inv_snd (by assumption) ?_) | (with_reducible refine inv_fst (by assumption) ?_) | (with_reducible apply foldl_inv; intros) | (with_reducible apply foldl_inv2; intros) | (with_reducible apply foldl_inv1; intros) | (simp only [inv_lit]; with_reducible apply keyOk_mk) | (with_reducible apply wrByte_wf) | (with_reducible apply wrBytes_wf) | (with_reducible apply inv_mem) | (with_reducible apply inv_outer) | (exact memWf_nil) | (with_reducible apply State.penUpdate_inv) | (intro _) | (with_reducible refine (id ?_ : List.length _ = List.length _); simp; done) | split | dsimp only)

/-! ### Cycle -/

theorem State.preXlate_inv (c n va e : Nat) (s : State) (hI : s.Inv) : (State.preXlate c n va e s).Inv := by
  induction n generalizing va s with
  | zero => exact hI
  | succ n ih =>
    unfold State.preXlate
    split
    · exact hI
    · exact ih _ _ (State.translate_inv _ _ _ _ _ _ hI)

theorem State.landingNow_inv (s : State) (c : Nat) (hI : s.Inv) : (State.landingNow s c).Inv := by
  unfold State.landingNow
  try dsimp only
  repeat' (first | (with_reducible assumption) | (with_reducible rfl) | (with_reducible apply next_inv) | (with_reducible refine inv_snd (by assumption) ?_) | (with_reducible refine inv_fst (by assumption) ?_) | (with_reducible apply foldl_inv; intros) | (with_reducible apply foldl_inv2; intros) | (with_reducible apply foldl_inv1; intros) | (simp only [inv_lit]; with_reducible apply keyOk_mk) | (with_reducible apply wrByte_wf) | (with_reducible apply wrBytes_wf) | (with_reducible apply inv_mem) | (with_reducible apply inv_outer) | (exact memWf_nil) | (with_reducible apply State.foldUpTo_inv) | (with_reducible apply onCl_inv) | (with_reducible apply State.preXlate_inv) | (intro _) | (with_reducible refine (id ?_ : List.length _ = List.length _); simp; done) | split | dsimp only)

theorem execResultLanding_inv (c : BitVec 4) (s : State) (hI : s.Inv) : ResInv (execResultLanding c s) := by
  unfold execResultLanding
  try dsimp only
  repeat' (first | (with_reducible assumption) | (with_reducible rfl) | (with_reducible apply next_inv) | (with_reducible refine inv_snd (by assumption) ?_) | (with_reducible refine inv_fst (by assumption) ?_) | (with_reducible apply foldl_inv; intros) | (with_reducible apply foldl_inv2; intros) | (with_reducible apply foldl_inv1; intros) | (simp only [inv_lit]; with_reducible apply keyOk_mk) | (with_reducible apply wrByte_wf) | (with_reducible apply wrBytes_wf) | (with_reducible apply inv_mem) | (with_reducible apply inv_outer) | (exact memWf_nil) | (with_reducible apply State.landingNow_inv) | (intro _) | (with_reducible refine (id ?_ : List.length _ = List.length _); simp; done) | split | dsimp only)

theorem execPlaneReady_inv (c : BitVec 4) (s : State) (hI : s.Inv) : ResInv (execPlaneReady c s) := by
  unfold execPlaneReady
  try dsimp only
  repeat' (first | (with_reducible assumption) | (with_reducible rfl) | (with_reducible apply next_inv) | (with_reducible refine inv_snd (by assumption) ?_) | (with_reducible refine inv_fst (by assumption) ?_) | (with_reducible apply foldl_inv; intros) | (with_reducible apply foldl_inv2; intros) | (with_reducible apply foldl_inv1; intros) | (simp only [inv_lit]; with_reducible apply keyOk_mk) | (with_reducible apply wrByte_wf) | (with_reducible apply wrBytes_wf) | (with_reducible apply inv_mem) | (with_reducible apply inv_outer) | (exact memWf_nil) | (with_reducible apply onCl_inv) | (intro _) | (with_reducible refine (id ?_ : List.length _ = List.length _); simp; done) | split | dsimp only)

theorem execArrayColumnStep_inv (c : BitVec 4) (s : State) (hI : s.Inv) : ResInv (execArrayColumnStep c s) := by
  unfold execArrayColumnStep
  try dsimp only
  repeat' (first | (with_reducible assumption) | (with_reducible rfl) | (with_reducible apply next_inv) | (with_reducible refine inv_snd (by assumption) ?_) | (with_reducible refine inv_fst (by assumption) ?_) | (with_reducible apply foldl_inv; intros) | (with_reducible apply foldl_inv2; intros) | (with_reducible apply foldl_inv1; intros) | (simp only [inv_lit]; with_reducible apply keyOk_mk) | (with_reducible apply wrByte_wf) | (with_reducible apply wrBytes_wf) | (with_reducible apply inv_mem) | (with_reducible apply inv_outer) | (exact memWf_nil) | (with_reducible apply onCl_inv) | (intro _) | (with_reducible refine (id ?_ : List.length _ = List.length _); simp; done) | split | dsimp only)

theorem State.completeDrains_inv (s : State) (c : Nat) (sel : Drain → Bool) (hI : s.Inv) : (State.completeDrains s c sel).Inv := by
  unfold State.completeDrains
  try dsimp only
  repeat' (first | (with_reducible assumption) | (with_reducible rfl) | (with_reducible apply next_inv) | (with_reducible refine inv_snd (by assumption) ?_) | (with_reducible refine inv_fst (by assumption) ?_) | (with_reducible apply foldl_inv; intros) | (with_reducible apply foldl_inv2; intros) | (with_reducible apply foldl_inv1; intros) | (simp only [inv_lit]; with_reducible apply keyOk_mk) | (with_reducible apply wrByte_wf) | (with_reducible apply wrBytes_wf) | (with_reducible apply inv_mem) | (with_reducible apply inv_outer) | (exact memWf_nil) | (with_reducible apply State.finishDrain_inv) | (with_reducible apply onCl_inv) | (intro _) | (with_reducible refine (id ?_ : List.length _ = List.length _); simp; done) | split | dsimp only)

theorem execDrainComplete_inv (c : BitVec 4) (s : State) (hI : s.Inv) : ResInv (execDrainComplete c s) := by
  unfold execDrainComplete
  try dsimp only
  repeat' (first | (with_reducible assumption) | (with_reducible rfl) | (with_reducible apply next_inv) | (with_reducible refine inv_snd (by assumption) ?_) | (with_reducible refine inv_fst (by assumption) ?_) | (with_reducible apply foldl_inv; intros) | (with_reducible apply foldl_inv2; intros) | (with_reducible apply foldl_inv1; intros) | (simp only [inv_lit]; with_reducible apply keyOk_mk) | (with_reducible apply wrByte_wf) | (with_reducible apply wrBytes_wf) | (with_reducible apply inv_mem) | (with_reducible apply inv_outer) | (exact memWf_nil) | (with_reducible apply State.completeDrains_inv) | (intro _) | (with_reducible refine (id ?_ : List.length _ = List.length _); simp; done) | split | dsimp only)

theorem State.arrayNow_inv (s : State) (c : Nat) (hI : s.Inv) : (State.arrayNow s c).Inv := by
  unfold State.arrayNow
  try dsimp only
  repeat' (first | (with_reducible assumption) | (with_reducible rfl) | (with_reducible apply next_inv) | (with_reducible refine inv_snd (by assumption) ?_) | (with_reducible refine inv_fst (by assumption) ?_) | (with_reducible apply foldl_inv; intros) | (with_reducible apply foldl_inv2; intros) | (with_reducible apply foldl_inv1; intros) | (simp only [inv_lit]; with_reducible apply keyOk_mk) | (with_reducible apply wrByte_wf) | (with_reducible apply wrBytes_wf) | (with_reducible apply inv_mem) | (with_reducible apply inv_outer) | (exact memWf_nil) | (with_reducible apply onCl_inv) | (with_reducible apply State.completeDrains_inv) | (intro _) | (with_reducible refine (id ?_ : List.length _ = List.length _); simp; done) | split | dsimp only)

theorem execScratchpadPerform_inv (c : BitVec 4) (s : State) (hI : s.Inv) : ResInv (execScratchpadPerform c s) := by
  unfold execScratchpadPerform
  try dsimp only
  repeat' (first | (with_reducible assumption) | (with_reducible rfl) | (with_reducible apply next_inv) | (with_reducible refine inv_snd (by assumption) ?_) | (with_reducible refine inv_fst (by assumption) ?_) | (with_reducible apply foldl_inv; intros) | (with_reducible apply foldl_inv2; intros) | (with_reducible apply foldl_inv1; intros) | (simp only [inv_lit]; with_reducible apply keyOk_mk) | (with_reducible apply wrByte_wf) | (with_reducible apply wrBytes_wf) | (with_reducible apply inv_mem) | (with_reducible apply inv_outer) | (exact memWf_nil) | (with_reducible apply onCl_inv) | (intro _) | (with_reducible refine (id ?_ : List.length _ = List.length _); simp; done) | split | dsimp only)

theorem execWindowWrite_inv (c : BitVec 4) (s : State) (hI : s.Inv) : ResInv (execWindowWrite c s) := by
  unfold execWindowWrite
  try dsimp only
  repeat' (first | (with_reducible assumption) | (with_reducible rfl) | (with_reducible apply next_inv) | (with_reducible refine inv_snd (by assumption) ?_) | (with_reducible refine inv_fst (by assumption) ?_) | (with_reducible apply foldl_inv; intros) | (with_reducible apply foldl_inv2; intros) | (with_reducible apply foldl_inv1; intros) | (simp only [inv_lit]; with_reducible apply keyOk_mk) | (with_reducible apply wrByte_wf) | (with_reducible apply wrBytes_wf) | (with_reducible apply inv_mem) | (with_reducible apply inv_outer) | (exact memWf_nil) | (with_reducible apply onCl_inv) | (intro _) | (with_reducible refine (id ?_ : List.length _ = List.length _); simp; done) | split | dsimp only)

theorem State.runOn_inv (s : State) (c : Nat) (sel : Drain → Bool) (sts : Cluster → PEntry → Bool) (pini : Bool) (hI : s.Inv) : (State.runOn s c sel sts pini).Inv := by
  unfold State.runOn
  try dsimp only
  repeat' (first | (with_reducible assumption) | (with_reducible rfl) | (with_reducible apply next_inv) | (with_reducible refine inv_snd (by assumption) ?_) | (with_reducible refine inv_fst (by assumption) ?_) | (with_reducible apply foldl_inv; intros) | (with_reducible apply foldl_inv2; intros) | (with_reducible apply foldl_inv1; intros) | (simp only [inv_lit]; with_reducible apply keyOk_mk) | (with_reducible apply wrByte_wf) | (with_reducible apply wrBytes_wf) | (with_reducible apply inv_mem) | (with_reducible apply inv_outer) | (exact memWf_nil) | (with_reducible apply State.completeDrains_inv) | (with_reducible apply onCl_inv) | (intro _) | (with_reducible refine (id ?_ : List.length _ = List.length _); simp; done) | split | dsimp only)

theorem State.endCycle_inv (s : State) (c : Nat) (hI : s.Inv) : (State.endCycle s c).Inv := by
  unfold State.endCycle
  try dsimp only
  repeat' (first | (with_reducible assumption) | (with_reducible rfl) | (with_reducible apply next_inv) | (with_reducible refine inv_snd (by assumption) ?_) | (with_reducible refine inv_fst (by assumption) ?_) | (with_reducible apply foldl_inv; intros) | (with_reducible apply foldl_inv2; intros) | (with_reducible apply foldl_inv1; intros) | (simp only [inv_lit]; with_reducible apply keyOk_mk) | (with_reducible apply wrByte_wf) | (with_reducible apply wrBytes_wf) | (with_reducible apply inv_mem) | (with_reducible apply inv_outer) | (exact memWf_nil) | (with_reducible apply State.runOn_inv) | (with_reducible apply onCl_inv) | (intro _) | (with_reducible refine (id ?_ : List.length _ = List.length _); simp; done) | split | dsimp only)

theorem State.takeSoft_inv (s : State) (c : Nat) (code : BitVec 16) (opc : BitVec 57) (hI : s.Inv) : (State.takeSoft s c code opc).Inv := by
  unfold State.takeSoft
  try dsimp only
  repeat' (first | (with_reducible assumption) | (with_reducible rfl) | (with_reducible apply next_inv) | (with_reducible refine inv_snd (by assumption) ?_) | (with_reducible refine inv_fst (by assumption) ?_) | (with_reducible apply foldl_inv; intros) | (with_reducible apply foldl_inv2; intros) | (with_reducible apply foldl_inv1; intros) | (simp only [inv_lit]; with_reducible apply keyOk_mk) | (with_reducible apply wrByte_wf) | (with_reducible apply wrBytes_wf) | (with_reducible apply inv_mem) | (with_reducible apply inv_outer) | (exact memWf_nil) | (with_reducible apply onCl_inv) | (with_reducible apply State.takeTrap_inv) | (intro _) | (with_reducible refine (id ?_ : List.length _ = List.length _); simp; done) | split | dsimp only)

theorem State.softTrap_inv (s : State) (code : BitVec 16) (hI : s.Inv) : (State.softTrap s code).Inv := by
  unfold State.softTrap
  try dsimp only
  repeat' (first | (with_reducible assumption) | (with_reducible rfl) | (with_reducible apply next_inv) | (with_reducible refine inv_snd (by assumption) ?_) | (with_reducible refine inv_fst (by assumption) ?_) | (with_reducible apply foldl_inv; intros) | (with_reducible apply foldl_inv2; intros) | (with_reducible apply foldl_inv1; intros) | (simp only [inv_lit]; with_reducible apply keyOk_mk) | (with_reducible apply wrByte_wf) | (with_reducible apply wrBytes_wf) | (with_reducible apply inv_mem) | (with_reducible apply inv_outer) | (exact memWf_nil) | (with_reducible apply onMe_inv) | (with_reducible apply State.skipPad_inv) | (with_reducible apply State.takeSoft_inv) | (intro _) | (with_reducible refine (id ?_ : List.length _ = List.length _); simp; done) | split | dsimp only)

theorem execTrap_inv (code : BitVec 16) (s : State) (hI : s.Inv) : ResInv (execTrap code s) := by
  unfold execTrap
  try dsimp only
  repeat' (first | (with_reducible assumption) | (with_reducible rfl) | (with_reducible apply next_inv) | (with_reducible refine inv_snd (by assumption) ?_) | (with_reducible refine inv_fst (by assumption) ?_) | (with_reducible apply foldl_inv; intros) | (with_reducible apply foldl_inv2; intros) | (with_reducible apply foldl_inv1; intros) | (simp only [inv_lit]; with_reducible apply keyOk_mk) | (with_reducible apply wrByte_wf) | (with_reducible apply wrBytes_wf) | (with_reducible apply inv_mem) | (with_reducible apply inv_outer) | (exact memWf_nil) | (with_reducible apply State.softTrap_inv) | (intro _) | (with_reducible refine (id ?_ : List.length _ = List.length _); simp; done) | split | dsimp only)

/-! ### Holds -/

theorem State.holdWrite_inv (s : State) (c : Nat) (sd : BitVec 5) (v : Word) (hI : s.Inv) : (State.holdWrite s c sd v).Inv := by
  unfold State.holdWrite
  try dsimp only
  repeat' (first | (with_reducible assumption) | (with_reducible rfl) | (with_reducible apply next_inv) | (with_reducible refine inv_snd (by assumption) ?_) | (with_reducible refine inv_fst (by assumption) ?_) | (with_reducible apply foldl_inv; intros) | (with_reducible apply foldl_inv2; intros) | (with_reducible apply foldl_inv1; intros) | (simp only [inv_lit]; with_reducible apply keyOk_mk) | (with_reducible apply wrByte_wf) | (with_reducible apply wrBytes_wf) | (with_reducible apply inv_mem) | (with_reducible apply inv_outer) | (exact memWf_nil) | (with_reducible apply onCl_inv) | (intro _) | (with_reducible refine (id ?_ : List.length _ = List.length _); simp; done) | split | dsimp only)

theorem State.readParts_inv (s : State) (c : Nat) (l : List FarPart) (hI : s.Inv) : (s.readParts c l).2.Inv := by
  induction l generalizing s with
  | nil => exact hI
  | cons p r ih =>
    unfold State.readParts
    have h1 := State.farReadAt_inv s c p.va 128 (some (BitVec.ofNat 8 p.core)) p.lanes true hI
    revert h1
    generalize s.farReadAt c p.va 128 (some (BitVec.ofNat 8 p.core)) p.lanes true = q
    obtain ⟨q | q, t⟩ := q
    · exact fun h => h
    · intro h1
      have h2 := ih t h1
      revert h2
      dsimp only
      generalize t.readParts c r = q
      obtain ⟨q | q, t⟩ := q <;> exact fun h => h

theorem State.writeParts_inv (s : State) (c : Nat) (ps : List FarPart) (hI : s.Inv) : (State.writeParts s c ps).2.Inv := by
  unfold State.writeParts
  try dsimp only
  repeat' (first | (with_reducible assumption) | (with_reducible rfl) | (with_reducible apply next_inv) | (with_reducible refine inv_snd (by assumption) ?_) | (with_reducible refine inv_fst (by assumption) ?_) | (with_reducible apply foldl_inv; intros) | (with_reducible apply foldl_inv2; intros) | (with_reducible apply foldl_inv1; intros) | (simp only [inv_lit]; with_reducible apply keyOk_mk) | (with_reducible apply wrByte_wf) | (with_reducible apply wrBytes_wf) | (with_reducible apply inv_mem) | (with_reducible apply inv_outer) | (exact memWf_nil) | (with_reducible apply State.farWrite_inv) | (intro _) | (with_reducible refine (id ?_ : List.length _ = List.length _); simp; done) | split | dsimp only)

theorem State.farPerform_inv (s : State) (c : Nat) (o : Origin) (k : FarKind) (ps : List FarPart) (hI : s.Inv) : (State.farPerform s c o k ps).2.Inv := by
  unfold State.farPerform
  try dsimp only
  repeat' (first | (with_reducible assumption) | (with_reducible rfl) | (with_reducible apply next_inv) | (with_reducible refine inv_snd (by assumption) ?_) | (with_reducible refine inv_fst (by assumption) ?_) | (with_reducible apply foldl_inv; intros) | (with_reducible apply foldl_inv2; intros) | (with_reducible apply foldl_inv1; intros) | (simp only [inv_lit]; with_reducible apply keyOk_mk) | (with_reducible apply wrByte_wf) | (with_reducible apply wrBytes_wf) | (with_reducible apply inv_mem) | (with_reducible apply inv_outer) | (exact memWf_nil) | (with_reducible apply State.settle_inv) | (with_reducible apply State.farRead_inv) | (with_reducible apply State.holdWrite_inv) | (with_reducible apply State.farWrite_inv) | (with_reducible apply State.atomAt_inv) | (with_reducible apply State.readParts_inv) | (with_reducible apply onCl_inv) | (with_reducible apply State.writeParts_inv) | (intro _) | (with_reducible refine (id ?_ : List.length _ = List.length _); simp; done) | split | dsimp only)

theorem State.dropHold_inv (s : State) (c : Nat) (h : Hold) (hI : s.Inv) : (State.dropHold s c h).Inv := by
  unfold State.dropHold
  try dsimp only
  repeat' (first | (with_reducible assumption) | (with_reducible rfl) | (with_reducible apply next_inv) | (with_reducible refine inv_snd (by assumption) ?_) | (with_reducible refine inv_fst (by assumption) ?_) | (with_reducible apply foldl_inv; intros) | (with_reducible apply foldl_inv2; intros) | (with_reducible apply foldl_inv1; intros) | (simp only [inv_lit]; with_reducible apply keyOk_mk) | (with_reducible apply wrByte_wf) | (with_reducible apply wrBytes_wf) | (with_reducible apply inv_mem) | (with_reducible apply inv_outer) | (exact memWf_nil) | (with_reducible apply onCl_inv) | (intro _) | (with_reducible refine (id ?_ : List.length _ = List.length _); simp; done) | split | dsimp only)

theorem State.setHold_inv (s : State) (c : Nat) (h h' : Hold) (hI : s.Inv) : (State.setHold s c h h').Inv := by
  unfold State.setHold
  try dsimp only
  repeat' (first | (with_reducible assumption) | (with_reducible rfl) | (with_reducible apply next_inv) | (with_reducible refine inv_snd (by assumption) ?_) | (with_reducible refine inv_fst (by assumption) ?_) | (with_reducible apply foldl_inv; intros) | (with_reducible apply foldl_inv2; intros) | (with_reducible apply foldl_inv1; intros) | (simp only [inv_lit]; with_reducible apply keyOk_mk) | (with_reducible apply wrByte_wf) | (with_reducible apply wrBytes_wf) | (with_reducible apply inv_mem) | (with_reducible apply inv_outer) | (exact memWf_nil) | (with_reducible apply onCl_inv) | (intro _) | (with_reducible refine (id ?_ : List.length _ = List.length _); simp; done) | split | dsimp only)

theorem State.holdFails_inv (s : State) (c : Nat) (h : Hold) (t : TrapInfo) (hI : s.Inv) : (State.holdFails s c h t).Inv := by
  unfold State.holdFails
  try dsimp only
  repeat' (first | (with_reducible assumption) | (with_reducible rfl) | (with_reducible apply next_inv) | (with_reducible refine inv_snd (by assumption) ?_) | (with_reducible refine inv_fst (by assumption) ?_) | (with_reducible apply foldl_inv; intros) | (with_reducible apply foldl_inv2; intros) | (with_reducible apply foldl_inv1; intros) | (simp only [inv_lit]; with_reducible apply keyOk_mk) | (with_reducible apply wrByte_wf) | (with_reducible apply wrBytes_wf) | (with_reducible apply inv_mem) | (with_reducible apply inv_outer) | (exact memWf_nil) | (with_reducible apply State.dropHold_inv) | (with_reducible apply onCl_inv) | (intro _) | (with_reducible refine (id ?_ : List.length _ = List.length _); simp; done) | split | dsimp only)

theorem execFarAccessHoldEnd_inv (c : BitVec 4) (s : State) (hI : s.Inv) : ResInv (execFarAccessHoldEnd c s) := by
  unfold execFarAccessHoldEnd
  try dsimp only
  repeat' (first | (with_reducible assumption) | (with_reducible rfl) | (with_reducible apply next_inv) | (with_reducible refine inv_snd (by assumption) ?_) | (with_reducible refine inv_fst (by assumption) ?_) | (with_reducible apply foldl_inv; intros) | (with_reducible apply foldl_inv2; intros) | (with_reducible apply foldl_inv1; intros) | (simp only [inv_lit]; with_reducible apply keyOk_mk) | (with_reducible apply wrByte_wf) | (with_reducible apply wrBytes_wf) | (with_reducible apply inv_mem) | (with_reducible apply inv_outer) | (exact memWf_nil) | (with_reducible apply State.farPerform_inv) | (with_reducible apply State.dropHold_inv) | (with_reducible apply State.setHold_inv) | (with_reducible apply State.holdFails_inv) | (intro _) | (with_reducible refine (id ?_ : List.length _ = List.length _); simp; done) | split | dsimp only)

theorem State.penTurn_inv (s : State) (c : Nat) (h : Hold) (hI : s.Inv) : (State.penTurn s c h).Inv := by
  unfold State.penTurn
  try dsimp only
  repeat' (first | (with_reducible assumption) | (with_reducible rfl) | (with_reducible apply next_inv) | (with_reducible refine inv_snd (by assumption) ?_) | (with_reducible refine inv_fst (by assumption) ?_) | (with_reducible apply foldl_inv; intros) | (with_reducible apply foldl_inv2; intros) | (with_reducible apply foldl_inv1; intros) | (simp only [inv_lit]; with_reducible apply keyOk_mk) | (with_reducible apply wrByte_wf) | (with_reducible apply wrBytes_wf) | (with_reducible apply inv_mem) | (with_reducible apply inv_outer) | (exact memWf_nil) | (with_reducible apply State.setHold_inv) | (with_reducible apply State.holdFails_inv) | (with_reducible apply State.dropHold_inv) | (with_reducible apply onCl_inv) | (with_reducible apply State.dropPeer_inv) | (intro _) | (with_reducible refine (id ?_ : List.length _ = List.length _); simp; done) | split | dsimp only)

theorem execPwaitResume_inv (c : BitVec 4) (s : State) (hI : s.Inv) : ResInv (execPwaitResume c s) := by
  unfold execPwaitResume
  try dsimp only
  repeat' (first | (with_reducible assumption) | (with_reducible rfl) | (with_reducible apply next_inv) | (with_reducible refine inv_snd (by assumption) ?_) | (with_reducible refine inv_fst (by assumption) ?_) | (with_reducible apply foldl_inv; intros) | (with_reducible apply foldl_inv2; intros) | (with_reducible apply foldl_inv1; intros) | (simp only [inv_lit]; with_reducible apply keyOk_mk) | (with_reducible apply wrByte_wf) | (with_reducible apply wrBytes_wf) | (with_reducible apply inv_mem) | (with_reducible apply inv_outer) | (exact memWf_nil) | (with_reducible apply State.penTurn_inv) | (intro _) | (with_reducible refine (id ?_ : List.length _ = List.length _); simp; done) | split | dsimp only)

theorem execBwaitComplete_inv (c : BitVec 4) (s : State) (hI : s.Inv) : ResInv (execBwaitComplete c s) := by
  unfold execBwaitComplete
  try dsimp only
  repeat' (first | (with_reducible assumption) | (with_reducible rfl) | (with_reducible apply next_inv) | (with_reducible refine inv_snd (by assumption) ?_) | (with_reducible refine inv_fst (by assumption) ?_) | (with_reducible apply foldl_inv; intros) | (with_reducible apply foldl_inv2; intros) | (with_reducible apply foldl_inv1; intros) | (simp only [inv_lit]; with_reducible apply keyOk_mk) | (with_reducible apply wrByte_wf) | (with_reducible apply wrBytes_wf) | (with_reducible apply inv_mem) | (with_reducible apply inv_outer) | (exact memWf_nil) | (with_reducible apply State.xlate_inv) | (with_reducible apply State.setHold_inv) | (with_reducible apply State.holdFails_inv) | (with_reducible apply State.paRead_inv) | (with_reducible apply State.dropHold_inv) | (with_reducible apply State.acquireAt_inv) | (with_reducible apply State.freeIn_inv) | (intro _) | (with_reducible refine (id ?_ : List.length _ = List.length _); simp; done) | split | dsimp only)

theorem execTtsyncRelease_inv (c : BitVec 4) (s : State) (hI : s.Inv) : ResInv (execTtsyncRelease c s) := by
  unfold execTtsyncRelease
  try dsimp only
  repeat' (first | (with_reducible assumption) | (with_reducible rfl) | (with_reducible apply next_inv) | (with_reducible refine inv_snd (by assumption) ?_) | (with_reducible refine inv_fst (by assumption) ?_) | (with_reducible apply foldl_inv; intros) | (with_reducible apply foldl_inv2; intros) | (with_reducible apply foldl_inv1; intros) | (simp only [inv_lit]; with_reducible apply keyOk_mk) | (with_reducible apply wrByte_wf) | (with_reducible apply wrBytes_wf) | (with_reducible apply inv_mem) | (with_reducible apply inv_outer) | (exact memWf_nil) | (with_reducible apply onCl_inv) | (intro _) | (with_reducible refine (id ?_ : List.length _ = List.length _); simp; done) | split | dsimp only)

theorem execAmaxfComplete_inv (c : BitVec 4) (s : State) (hI : s.Inv) : ResInv (execAmaxfComplete c s) := by
  unfold execAmaxfComplete
  try dsimp only
  repeat' (first | (with_reducible assumption) | (with_reducible rfl) | (with_reducible apply next_inv) | (with_reducible refine inv_snd (by assumption) ?_) | (with_reducible refine inv_fst (by assumption) ?_) | (with_reducible apply foldl_inv; intros) | (with_reducible apply foldl_inv2; intros) | (with_reducible apply foldl_inv1; intros) | (simp only [inv_lit]; with_reducible apply keyOk_mk) | (with_reducible apply wrByte_wf) | (with_reducible apply wrBytes_wf) | (with_reducible apply inv_mem) | (with_reducible apply inv_outer) | (exact memWf_nil) | (with_reducible apply State.dropHold_inv) | (with_reducible apply onCl_inv) | (intro _) | (with_reducible refine (id ?_ : List.length _ = List.length _); simp; done) | split | dsimp only)

theorem State.abandon_inv (s : State) (c : Nat) (h : Hold) (hI : s.Inv) : (State.abandon s c h).Inv := by
  unfold State.abandon
  try dsimp only
  repeat' (first | (with_reducible assumption) | (with_reducible rfl) | (with_reducible apply next_inv) | (with_reducible refine inv_snd (by assumption) ?_) | (with_reducible refine inv_fst (by assumption) ?_) | (with_reducible apply foldl_inv; intros) | (with_reducible apply foldl_inv2; intros) | (with_reducible apply foldl_inv1; intros) | (simp only [inv_lit]; with_reducible apply keyOk_mk) | (with_reducible apply wrByte_wf) | (with_reducible apply wrBytes_wf) | (with_reducible apply inv_mem) | (with_reducible apply inv_outer) | (exact memWf_nil) | (with_reducible apply State.free_inv) | (with_reducible apply State.farPerform_inv) | (with_reducible apply onCl_inv) | (intro _) | (with_reducible refine (id ?_ : List.length _ = List.length _); simp; done) | split | dsimp only)

theorem execHoldTimeout_inv (c : BitVec 4) (s : State) (hI : s.Inv) : ResInv (execHoldTimeout c s) := by
  unfold execHoldTimeout
  try dsimp only
  repeat' (first | (with_reducible assumption) | (with_reducible rfl) | (with_reducible apply next_inv) | (with_reducible refine inv_snd (by assumption) ?_) | (with_reducible refine inv_fst (by assumption) ?_) | (with_reducible apply foldl_inv; intros) | (with_reducible apply foldl_inv2; intros) | (with_reducible apply foldl_inv1; intros) | (simp only [inv_lit]; with_reducible apply keyOk_mk) | (with_reducible apply wrByte_wf) | (with_reducible apply wrBytes_wf) | (with_reducible apply inv_mem) | (with_reducible apply inv_outer) | (exact memWf_nil) | (with_reducible apply State.dropHold_inv) | (with_reducible apply State.issueTrap_inv) | (with_reducible apply State.abandon_inv) | (with_reducible apply State.holdFails_inv) | (intro _) | (with_reducible refine (id ?_ : List.length _ = List.length _); simp; done) | split | dsimp only)

theorem execSlipLimit_inv (c : BitVec 4) (s : State) (hI : s.Inv) : ResInv (execSlipLimit c s) := by
  unfold execSlipLimit
  try dsimp only
  repeat' (first | (with_reducible assumption) | (with_reducible rfl) | (with_reducible apply next_inv) | (with_reducible refine inv_snd (by assumption) ?_) | (with_reducible refine inv_fst (by assumption) ?_) | (with_reducible apply foldl_inv; intros) | (with_reducible apply foldl_inv2; intros) | (with_reducible apply foldl_inv1; intros) | (simp only [inv_lit]; with_reducible apply keyOk_mk) | (with_reducible apply wrByte_wf) | (with_reducible apply wrBytes_wf) | (with_reducible apply inv_mem) | (with_reducible apply inv_outer) | (exact memWf_nil) | (with_reducible apply onCl_inv) | (with_reducible apply State.issueTrap_inv) | (intro _) | (with_reducible refine (id ?_ : List.length _ = List.length _); simp; done) | split | dsimp only)

theorem execThrottleHoldEnd_inv (c : BitVec 4) (s : State) (hI : s.Inv) : ResInv (execThrottleHoldEnd c s) := by
  unfold execThrottleHoldEnd
  try dsimp only
  repeat' (first | (with_reducible assumption) | (with_reducible rfl) | (with_reducible apply next_inv) | (with_reducible refine inv_snd (by assumption) ?_) | (with_reducible refine inv_fst (by assumption) ?_) | (with_reducible apply foldl_inv; intros) | (with_reducible apply foldl_inv2; intros) | (with_reducible apply foldl_inv1; intros) | (simp only [inv_lit]; with_reducible apply keyOk_mk) | (with_reducible apply wrByte_wf) | (with_reducible apply wrBytes_wf) | (with_reducible apply inv_mem) | (with_reducible apply inv_outer) | (exact memWf_nil) | (with_reducible apply onCl_inv) | (intro _) | (with_reducible refine (id ?_ : List.length _ = List.length _); simp; done) | split | dsimp only)

theorem State.lineIn_inv (s : State) (c line : Nat) (hI : s.Inv) : (State.lineIn s c line).Inv := by
  unfold State.lineIn
  try dsimp only
  repeat' (first | (with_reducible assumption) | (with_reducible rfl) | (with_reducible apply next_inv) | (with_reducible refine inv_snd (by assumption) ?_) | (with_reducible refine inv_fst (by assumption) ?_) | (with_reducible apply foldl_inv; intros) | (with_reducible apply foldl_inv2; intros) | (with_reducible apply foldl_inv1; intros) | (simp only [inv_lit]; with_reducible apply keyOk_mk) | (with_reducible apply wrByte_wf) | (with_reducible apply wrBytes_wf) | (with_reducible apply inv_mem) | (with_reducible apply inv_outer) | (exact memWf_nil) | (with_reducible apply State.readLine_inv) | (with_reducible apply onCl_inv) | (intro _) | (with_reducible refine (id ?_ : List.length _ = List.length _); simp; done) | split | dsimp only)

theorem execCodeFetchArrival_inv (c : BitVec 4) (s : State) (hI : s.Inv) : ResInv (execCodeFetchArrival c s) := by
  unfold execCodeFetchArrival
  try dsimp only
  repeat' (first | (with_reducible assumption) | (with_reducible rfl) | (with_reducible apply next_inv) | (with_reducible refine inv_snd (by assumption) ?_) | (with_reducible refine inv_fst (by assumption) ?_) | (with_reducible apply foldl_inv; intros) | (with_reducible apply foldl_inv2; intros) | (with_reducible apply foldl_inv1; intros) | (simp only [inv_lit]; with_reducible apply keyOk_mk) | (with_reducible apply wrByte_wf) | (with_reducible apply wrBytes_wf) | (with_reducible apply inv_mem) | (with_reducible apply inv_outer) | (exact memWf_nil) | (with_reducible apply onCl_inv) | (with_reducible apply State.lineIn_inv) | (intro _) | (with_reducible refine (id ?_ : List.length _ = List.length _); simp; done) | split | dsimp only)

theorem execTranslationReplay_inv (c : BitVec 4) (s : State) (hI : s.Inv) : ResInv (execTranslationReplay c s) := by
  unfold execTranslationReplay
  try dsimp only
  repeat' (first | (with_reducible assumption) | (with_reducible rfl) | (with_reducible apply next_inv) | (with_reducible refine inv_snd (by assumption) ?_) | (with_reducible refine inv_fst (by assumption) ?_) | (with_reducible apply foldl_inv; intros) | (with_reducible apply foldl_inv2; intros) | (with_reducible apply foldl_inv1; intros) | (simp only [inv_lit]; with_reducible apply keyOk_mk) | (with_reducible apply wrByte_wf) | (with_reducible apply wrBytes_wf) | (with_reducible apply inv_mem) | (with_reducible apply inv_outer) | (exact memWf_nil) | (with_reducible apply onCl_inv) | (with_reducible apply State.free_inv) | (intro _) | (with_reducible refine (id ?_ : List.length _ = List.length _); simp; done) | split | dsimp only)

/-! ### Issue -/

theorem State.at'_inv (s : State) (p : Slot) (hI : s.Inv) : (s.at' p).Inv := hI

theorem State.poisonTrap_inv (s : State) (c core : Nat) (f : PendFault) (hI : s.Inv) : (State.poisonTrap s c core f).Inv := by
  unfold State.poisonTrap
  try dsimp only
  repeat' (first | (with_reducible assumption) | (with_reducible rfl) | (with_reducible apply next_inv) | (with_reducible refine inv_snd (by assumption) ?_) | (with_reducible refine inv_fst (by assumption) ?_) | (with_reducible apply foldl_inv; intros) | (with_reducible apply foldl_inv2; intros) | (with_reducible apply foldl_inv1; intros) | (simp only [inv_lit]; with_reducible apply keyOk_mk) | (with_reducible apply wrByte_wf) | (with_reducible apply wrBytes_wf) | (with_reducible apply inv_mem) | (with_reducible apply inv_outer) | (exact memWf_nil) | (with_reducible apply onCl_inv) | (with_reducible apply State.takeTrap_inv) | (intro _) | (with_reducible refine (id ?_ : List.length _ = List.length _); simp; done) | split | dsimp only)

theorem execSlipEnd_inv (c : BitVec 4) (s : State) (hI : s.Inv) : ResInv (execSlipEnd c s) := by
  unfold execSlipEnd
  try dsimp only
  repeat' (first | (with_reducible assumption) | (with_reducible rfl) | (with_reducible apply next_inv) | (with_reducible refine inv_snd (by assumption) ?_) | (with_reducible refine inv_fst (by assumption) ?_) | (with_reducible apply foldl_inv; intros) | (with_reducible apply foldl_inv2; intros) | (with_reducible apply foldl_inv1; intros) | (simp only [inv_lit]; with_reducible apply keyOk_mk) | (with_reducible apply wrByte_wf) | (with_reducible apply wrBytes_wf) | (with_reducible apply inv_mem) | (with_reducible apply inv_outer) | (exact memWf_nil) | (with_reducible apply onCl_inv) | (intro _) | (with_reducible refine (id ?_ : List.length _ = List.length _); simp; done) | split | dsimp only)

/-! ### Bozoak -/

theorem State.onBz_inv (s : State) (k : Nat) (f : BzCtx → BzCtx) (hI : s.Inv) : (State.onBz s k f).Inv := by
  unfold State.onBz
  try dsimp only
  repeat' (first | (with_reducible assumption) | (with_reducible rfl) | (with_reducible apply next_inv) | (with_reducible refine inv_snd (by assumption) ?_) | (with_reducible refine inv_fst (by assumption) ?_) | (with_reducible apply foldl_inv; intros) | (with_reducible apply foldl_inv2; intros) | (with_reducible apply foldl_inv1; intros) | (simp only [inv_lit]; with_reducible apply keyOk_mk) | (with_reducible apply wrByte_wf) | (with_reducible apply wrBytes_wf) | (with_reducible apply inv_mem) | (with_reducible apply inv_outer) | (exact memWf_nil) | (intro _) | (with_reducible refine (id ?_ : List.length _ = List.length _); simp; done) | split | dsimp only)

theorem State.bzFault_inv (s : State) (cause : BitVec 8) (hI : s.Inv) : ResInv (State.bzFault s cause) := by
  unfold State.bzFault
  try dsimp only
  repeat' (first | (with_reducible assumption) | (with_reducible rfl) | (with_reducible apply next_inv) | (with_reducible refine inv_snd (by assumption) ?_) | (with_reducible refine inv_fst (by assumption) ?_) | (with_reducible apply foldl_inv; intros) | (with_reducible apply foldl_inv2; intros) | (with_reducible apply foldl_inv1; intros) | (simp only [inv_lit]; with_reducible apply keyOk_mk) | (with_reducible apply wrByte_wf) | (with_reducible apply wrBytes_wf) | (with_reducible apply inv_mem) | (with_reducible apply inv_outer) | (exact memWf_nil) | (with_reducible apply State.onBz_inv) | (intro _) | (with_reducible refine (id ?_ : List.length _ = List.length _); simp; done) | split | dsimp only)

theorem State.bzDone_inv (s : State) (hI : s.Inv) : ResInv (State.bzDone s) := by
  unfold State.bzDone
  try dsimp only
  repeat' (first | (with_reducible assumption) | (with_reducible rfl) | (with_reducible apply next_inv) | (with_reducible refine inv_snd (by assumption) ?_) | (with_reducible refine inv_fst (by assumption) ?_) | (with_reducible apply foldl_inv; intros) | (with_reducible apply foldl_inv2; intros) | (with_reducible apply foldl_inv1; intros) | (simp only [inv_lit]; with_reducible apply keyOk_mk) | (with_reducible apply wrByte_wf) | (with_reducible apply wrBytes_wf) | (with_reducible apply inv_mem) | (with_reducible apply inv_outer) | (exact memWf_nil) | (with_reducible apply State.onBz_inv) | (intro _) | (with_reducible refine (id ?_ : List.length _ = List.length _); simp; done) | split | dsimp only)

theorem State.bzWait_inv (s : State) (hI : s.Inv) : ResInv (State.bzWait s) := by
  unfold State.bzWait
  try dsimp only
  repeat' (first | (with_reducible assumption) | (with_reducible rfl) | (with_reducible apply next_inv) | (with_reducible refine inv_snd (by assumption) ?_) | (with_reducible refine inv_fst (by assumption) ?_) | (with_reducible apply foldl_inv; intros) | (with_reducible apply foldl_inv2; intros) | (with_reducible apply foldl_inv1; intros) | (simp only [inv_lit]; with_reducible apply keyOk_mk) | (with_reducible apply wrByte_wf) | (with_reducible apply wrBytes_wf) | (with_reducible apply inv_mem) | (with_reducible apply inv_outer) | (exact memWf_nil) | (intro _) | (with_reducible refine (id ?_ : List.length _ = List.length _); simp; done) | split | dsimp only)

theorem State.hXlateD_inv (s : State) (ctx : BitVec 12) (desc : BitVec 64) (va : Nat) (acc : Acc) (hI : s.Inv) : (State.hXlateD s ctx desc va acc).2.Inv := by
  unfold State.hXlateD
  try dsimp only
  repeat' (first | (with_reducible assumption) | (with_reducible rfl) | (with_reducible apply next_inv) | (with_reducible refine inv_snd (by assumption) ?_) | (with_reducible refine inv_fst (by assumption) ?_) | (with_reducible apply foldl_inv; intros) | (with_reducible apply foldl_inv2; intros) | (with_reducible apply foldl_inv1; intros) | (simp only [inv_lit]; with_reducible apply keyOk_mk) | (with_reducible apply wrByte_wf) | (with_reducible apply wrBytes_wf) | (with_reducible apply inv_mem) | (with_reducible apply inv_outer) | (exact memWf_nil) | (with_reducible apply State.translate_inv) | (with_reducible apply State.portLost_inv) | (with_reducible apply State.free_inv) | (intro _) | (with_reducible refine (id ?_ : List.length _ = List.length _); simp; done) | split | dsimp only)

theorem State.hXlate_inv (s : State) (ctx : BitVec 12) (va : Nat) (acc : Acc) (hI : s.Inv) : (State.hXlate s ctx va acc).2.Inv := by
  unfold State.hXlate
  try dsimp only
  repeat' (first | (with_reducible assumption) | (with_reducible rfl) | (with_reducible apply next_inv) | (with_reducible refine inv_snd (by assumption) ?_) | (with_reducible refine inv_fst (by assumption) ?_) | (with_reducible apply foldl_inv; intros) | (with_reducible apply foldl_inv2; intros) | (with_reducible apply foldl_inv1; intros) | (simp only [inv_lit]; with_reducible apply keyOk_mk) | (with_reducible apply wrByte_wf) | (with_reducible apply wrBytes_wf) | (with_reducible apply inv_mem) | (with_reducible apply inv_outer) | (exact memWf_nil) | (with_reducible apply State.hXlateD_inv) | (intro _) | (with_reducible refine (id ?_ : List.length _ = List.length _); simp; done) | split | dsimp only)

theorem State.hBytes_inv (s : State) (t : Target) (n : Nat) (hI : s.Inv) : (State.hBytes s t n).2.Inv := by
  unfold State.hBytes
  try dsimp only
  repeat' (first | (with_reducible assumption) | (with_reducible rfl) | (with_reducible apply next_inv) | (with_reducible refine inv_snd (by assumption) ?_) | (with_reducible refine inv_fst (by assumption) ?_) | (with_reducible apply foldl_inv; intros) | (with_reducible apply foldl_inv2; intros) | (with_reducible apply foldl_inv1; intros) | (simp only [inv_lit]; with_reducible apply keyOk_mk) | (with_reducible apply wrByte_wf) | (with_reducible apply wrBytes_wf) | (with_reducible apply inv_mem) | (with_reducible apply inv_outer) | (exact memWf_nil) | (with_reducible apply State.freeBytes_inv) | (with_reducible apply State.hbmRead_inv) | (with_reducible apply State.paRead_inv) | (intro _) | (with_reducible refine (id ?_ : List.length _ = List.length _); simp; done) | split | dsimp only)

theorem State.hReadD_inv (s : State) (ctx : BitVec 12) (desc : BitVec 64) (va n : Nat) (hI : s.Inv) : (State.hReadD s ctx desc va n).2.Inv := by
  unfold State.hReadD
  try dsimp only
  repeat' (first | (with_reducible assumption) | (with_reducible rfl) | (with_reducible apply next_inv) | (with_reducible refine inv_snd (by assumption) ?_) | (with_reducible refine inv_fst (by assumption) ?_) | (with_reducible apply foldl_inv; intros) | (with_reducible apply foldl_inv2; intros) | (with_reducible apply foldl_inv1; intros) | (simp only [inv_lit]; with_reducible apply keyOk_mk) | (with_reducible apply wrByte_wf) | (with_reducible apply wrBytes_wf) | (with_reducible apply inv_mem) | (with_reducible apply inv_outer) | (exact memWf_nil) | (with_reducible apply State.hXlateD_inv) | (with_reducible apply State.hBytes_inv) | (intro _) | (with_reducible refine (id ?_ : List.length _ = List.length _); simp; done) | split | dsimp only)

theorem State.hRead_inv (s : State) (ctx : BitVec 12) (va n : Nat) (hI : s.Inv) : (State.hRead s ctx va n).2.Inv := by
  unfold State.hRead
  try dsimp only
  repeat' (first | (with_reducible assumption) | (with_reducible rfl) | (with_reducible apply next_inv) | (with_reducible refine inv_snd (by assumption) ?_) | (with_reducible refine inv_fst (by assumption) ?_) | (with_reducible apply foldl_inv; intros) | (with_reducible apply foldl_inv2; intros) | (with_reducible apply foldl_inv1; intros) | (simp only [inv_lit]; with_reducible apply keyOk_mk) | (with_reducible apply wrByte_wf) | (with_reducible apply wrBytes_wf) | (with_reducible apply inv_mem) | (with_reducible apply inv_outer) | (exact memWf_nil) | (with_reducible apply State.hReadD_inv) | (intro _) | (with_reducible refine (id ?_ : List.length _ = List.length _); simp; done) | split | dsimp only)

theorem State.hWord_inv (s : State) (ctx : BitVec 12) (va : Nat) (hI : s.Inv) : (State.hWord s ctx va).2.Inv := by
  unfold State.hWord
  try dsimp only
  repeat' (first | (with_reducible assumption) | (with_reducible rfl) | (with_reducible apply next_inv) | (with_reducible refine inv_snd (by assumption) ?_) | (with_reducible refine inv_fst (by assumption) ?_) | (with_reducible apply foldl_inv; intros) | (with_reducible apply foldl_inv2; intros) | (with_reducible apply foldl_inv1; intros) | (simp only [inv_lit]; with_reducible apply keyOk_mk) | (with_reducible apply wrByte_wf) | (with_reducible apply wrBytes_wf) | (with_reducible apply inv_mem) | (with_reducible apply inv_outer) | (exact memWf_nil) | (with_reducible apply State.hRead_inv) | (intro _) | (with_reducible refine (id ?_ : List.length _ = List.length _); simp; done) | split | dsimp only)

theorem State.hWords_inv (s : State) (ctx : BitVec 12) (va n : Nat) (hI : s.Inv) : (State.hWords s ctx va n).2.Inv := by
  unfold State.hWords
  try dsimp only
  repeat' (first | (with_reducible assumption) | (with_reducible rfl) | (with_reducible apply next_inv) | (with_reducible refine inv_snd (by assumption) ?_) | (with_reducible refine inv_fst (by assumption) ?_) | (with_reducible apply foldl_inv; intros) | (with_reducible apply foldl_inv2; intros) | (with_reducible apply foldl_inv1; intros) | (simp only [inv_lit]; with_reducible apply keyOk_mk) | (with_reducible apply wrByte_wf) | (with_reducible apply wrBytes_wf) | (with_reducible apply inv_mem) | (with_reducible apply inv_outer) | (exact memWf_nil) | (with_reducible apply State.hRead_inv) | (intro _) | (with_reducible refine (id ?_ : List.length _ = List.length _); simp; done) | split | dsimp only)

theorem State.hPut_inv (s : State) (t : Target) (bs : List Byte) (hI : s.Inv) : (State.hPut s t bs).Inv := by
  unfold State.hPut
  try dsimp only
  repeat' (first | (with_reducible assumption) | (with_reducible rfl) | (with_reducible apply next_inv) | (with_reducible refine inv_snd (by assumption) ?_) | (with_reducible refine inv_fst (by assumption) ?_) | (with_reducible apply foldl_inv; intros) | (with_reducible apply foldl_inv2; intros) | (with_reducible apply foldl_inv1; intros) | (simp only [inv_lit]; with_reducible apply keyOk_mk) | (with_reducible apply wrByte_wf) | (with_reducible apply wrBytes_wf) | (with_reducible apply inv_mem) | (with_reducible apply inv_outer) | (exact memWf_nil) | (with_reducible apply State.paWrite_inv) | (with_reducible apply State.tagWrite_inv) | (intro _) | (with_reducible refine (id ?_ : List.length _ = List.length _); simp; done) | split | dsimp only)

theorem State.hPutZone_inv (s : State) (off : Nat) (bs : List Byte) (hI : s.Inv) : (State.hPutZone s off bs).Inv := by
  unfold State.hPutZone
  have h0 : ((linesOf off bs.length).foldl State.recall s).Inv := foldl_inv (fun s x h => State.recall_inv s x h) hI
  have h := State.hPut_inv _ (.hbm off) bs h0
  exact ⟨h.1, ⟨h.2.1.1, h0.2.1.2.1, h.2.1.2.2⟩, h.2.2⟩

theorem State.hWriteD_inv (s : State) (ctx : BitVec 12) (desc : BitVec 64) (va : Nat) (bs : List Byte) (hI : s.Inv) : (State.hWriteD s ctx desc va bs).2.Inv := by
  unfold State.hWriteD
  try dsimp only
  repeat' (first | (with_reducible assumption) | (with_reducible rfl) | (with_reducible apply next_inv) | (with_reducible refine inv_snd (by assumption) ?_) | (with_reducible refine inv_fst (by assumption) ?_) | (with_reducible apply foldl_inv; intros) | (with_reducible apply foldl_inv2; intros) | (with_reducible apply foldl_inv1; intros) | (simp only [inv_lit]; with_reducible apply keyOk_mk) | (with_reducible apply wrByte_wf) | (with_reducible apply wrBytes_wf) | (with_reducible apply inv_mem) | (with_reducible apply inv_outer) | (exact memWf_nil) | (with_reducible apply State.hXlateD_inv) | (with_reducible apply State.hPut_inv) | (intro _) | (with_reducible refine (id ?_ : List.length _ = List.length _); simp; done) | split | dsimp only)

theorem State.hWrite_inv (s : State) (ctx : BitVec 12) (va : Nat) (bs : List Byte) (hI : s.Inv) : (State.hWrite s ctx va bs).2.Inv := by
  unfold State.hWrite
  try dsimp only
  repeat' (first | (with_reducible assumption) | (with_reducible rfl) | (with_reducible apply next_inv) | (with_reducible refine inv_snd (by assumption) ?_) | (with_reducible refine inv_fst (by assumption) ?_) | (with_reducible apply foldl_inv; intros) | (with_reducible apply foldl_inv2; intros) | (with_reducible apply foldl_inv1; intros) | (simp only [inv_lit]; with_reducible apply keyOk_mk) | (with_reducible apply wrByte_wf) | (with_reducible apply wrBytes_wf) | (with_reducible apply inv_mem) | (with_reducible apply inv_outer) | (exact memWf_nil) | (with_reducible apply State.hWriteD_inv) | (intro _) | (with_reducible refine (id ?_ : List.length _ = List.length _); simp; done) | split | dsimp only)

theorem State.bzRead_inv (s : State) (k : Nat) (hI : s.Inv) : (State.bzRead s k).2.Inv := by
  unfold State.bzRead
  try dsimp only
  repeat' (first | (with_reducible assumption) | (with_reducible rfl) | (with_reducible apply next_inv) | (with_reducible refine inv_snd (by assumption) ?_) | (with_reducible refine inv_fst (by assumption) ?_) | (with_reducible apply foldl_inv; intros) | (with_reducible apply foldl_inv2; intros) | (with_reducible apply foldl_inv1; intros) | (simp only [inv_lit]; with_reducible apply keyOk_mk) | (with_reducible apply wrByte_wf) | (with_reducible apply wrBytes_wf) | (with_reducible apply inv_mem) | (with_reducible apply inv_outer) | (exact memWf_nil) | (with_reducible apply State.dropPeer_inv) | (with_reducible apply State.hRead_inv) | (with_reducible apply State.hWords_inv) | (intro _) | (with_reducible refine (id ?_ : List.length _ = List.length _); simp; done) | split | dsimp only)

theorem State.barForget_inv (s : State) (k : Nat) (hI : s.Inv) : (State.barForget s k).Inv := by
  unfold State.barForget
  try dsimp only
  repeat' (first | (with_reducible assumption) | (with_reducible rfl) | (with_reducible apply next_inv) | (with_reducible refine inv_snd (by assumption) ?_) | (with_reducible refine inv_fst (by assumption) ?_) | (with_reducible apply foldl_inv; intros) | (with_reducible apply foldl_inv2; intros) | (with_reducible apply foldl_inv1; intros) | (simp only [inv_lit]; with_reducible apply keyOk_mk) | (with_reducible apply wrByte_wf) | (with_reducible apply wrBytes_wf) | (with_reducible apply inv_mem) | (with_reducible apply inv_outer) | (exact memWf_nil) | (intro _) | (with_reducible refine (id ?_ : List.length _ = List.length _); simp; done) | split | dsimp only)

theorem State.bzStart_inv (s : State) (k : Nat) (hI : s.Inv) : (State.bzStart s k).Inv := by
  unfold State.bzStart
  try dsimp only
  repeat' (first | (with_reducible assumption) | (with_reducible rfl) | (with_reducible apply next_inv) | (with_reducible refine inv_snd (by assumption) ?_) | (with_reducible refine inv_fst (by assumption) ?_) | (with_reducible apply foldl_inv; intros) | (with_reducible apply foldl_inv2; intros) | (with_reducible apply foldl_inv1; intros) | (simp only [inv_lit]; with_reducible apply keyOk_mk) | (with_reducible apply wrByte_wf) | (with_reducible apply wrBytes_wf) | (with_reducible apply inv_mem) | (with_reducible apply inv_outer) | (exact memWf_nil) | (with_reducible apply State.bzRead_inv) | (with_reducible apply State.onBz_inv) | (with_reducible apply State.barForget_inv) | (intro _) | (with_reducible refine (id ?_ : List.length _ = List.length _); simp; done) | split | dsimp only)

theorem execBzcmdStart_inv (via : Via) (k : BitVec 4) (s : State) (hI : s.Inv) : ResInv (execBzcmdStart via k s) := by
  unfold execBzcmdStart
  try dsimp only
  repeat' (first | (with_reducible assumption) | (with_reducible rfl) | (with_reducible apply next_inv) | (with_reducible refine inv_snd (by assumption) ?_) | (with_reducible refine inv_fst (by assumption) ?_) | (with_reducible apply foldl_inv; intros) | (with_reducible apply foldl_inv2; intros) | (with_reducible apply foldl_inv1; intros) | (simp only [inv_lit]; with_reducible apply keyOk_mk) | (with_reducible apply wrByte_wf) | (with_reducible apply wrBytes_wf) | (with_reducible apply inv_mem) | (with_reducible apply inv_outer) | (exact memWf_nil) | (refine State.viaHost_inv _ _ ?_ (by assumption); try dsimp only) | (with_reducible apply State.bzStart_inv) | (intro _) | (with_reducible refine (id ?_ : List.length _ = List.length _); simp; done) | split | dsimp only)

theorem State.bzSettle_inv (s : State) (k : Nat) (hI : s.Inv) : (State.bzSettle s k).Inv := by
  unfold State.bzSettle
  try dsimp only
  repeat' (first | (with_reducible assumption) | (with_reducible rfl) | (with_reducible apply next_inv) | (with_reducible refine inv_snd (by assumption) ?_) | (with_reducible refine inv_fst (by assumption) ?_) | (with_reducible apply foldl_inv; intros) | (with_reducible apply foldl_inv2; intros) | (with_reducible apply foldl_inv1; intros) | (simp only [inv_lit]; with_reducible apply keyOk_mk) | (with_reducible apply wrByte_wf) | (with_reducible apply wrBytes_wf) | (with_reducible apply inv_mem) | (with_reducible apply inv_outer) | (exact memWf_nil) | (with_reducible apply State.onBz_inv) | (intro _) | (with_reducible refine (id ?_ : List.length _ = List.length _); simp; done) | split | dsimp only)

theorem State.bzStop_inv (s : State) (k : Nat) (hI : s.Inv) : (State.bzStop s k).Inv := by
  unfold State.bzStop
  try dsimp only
  repeat' (first | (with_reducible assumption) | (with_reducible rfl) | (with_reducible apply next_inv) | (with_reducible refine inv_snd (by assumption) ?_) | (with_reducible refine inv_fst (by assumption) ?_) | (with_reducible apply foldl_inv; intros) | (with_reducible apply foldl_inv2; intros) | (with_reducible apply foldl_inv1; intros) | (simp only [inv_lit]; with_reducible apply keyOk_mk) | (with_reducible apply wrByte_wf) | (with_reducible apply wrBytes_wf) | (with_reducible apply inv_mem) | (with_reducible apply inv_outer) | (exact memWf_nil) | (with_reducible apply State.barForget_inv) | (with_reducible apply State.onBz_inv) | (with_reducible apply State.bzSettle_inv) | (intro _) | (with_reducible refine (id ?_ : List.length _ = List.length _); simp; done) | split | dsimp only)

theorem execBzcmdStop_inv (via : Via) (k : BitVec 4) (s : State) (hI : s.Inv) : ResInv (execBzcmdStop via k s) := by
  unfold execBzcmdStop
  try dsimp only
  repeat' (first | (with_reducible assumption) | (with_reducible rfl) | (with_reducible apply next_inv) | (with_reducible refine inv_snd (by assumption) ?_) | (with_reducible refine inv_fst (by assumption) ?_) | (with_reducible apply foldl_inv; intros) | (with_reducible apply foldl_inv2; intros) | (with_reducible apply foldl_inv1; intros) | (simp only [inv_lit]; with_reducible apply keyOk_mk) | (with_reducible apply wrByte_wf) | (with_reducible apply wrBytes_wf) | (with_reducible apply inv_mem) | (with_reducible apply inv_outer) | (exact memWf_nil) | (refine State.viaHost_inv _ _ ?_ (by assumption); try dsimp only) | (with_reducible apply State.bzStop_inv) | (intro _) | (with_reducible refine (id ?_ : List.length _ = List.length _); simp; done) | split | dsimp only)

theorem execBzcmdClrcnt_inv (via : Via) (k : BitVec 4) (s : State) (hI : s.Inv) : ResInv (execBzcmdClrcnt via k s) := by
  unfold execBzcmdClrcnt
  try dsimp only
  repeat' (first | (with_reducible assumption) | (with_reducible rfl) | (with_reducible apply next_inv) | (with_reducible refine inv_snd (by assumption) ?_) | (with_reducible refine inv_fst (by assumption) ?_) | (with_reducible apply foldl_inv; intros) | (with_reducible apply foldl_inv2; intros) | (with_reducible apply foldl_inv1; intros) | (simp only [inv_lit]; with_reducible apply keyOk_mk) | (with_reducible apply wrByte_wf) | (with_reducible apply wrBytes_wf) | (with_reducible apply inv_mem) | (with_reducible apply inv_outer) | (exact memWf_nil) | (refine State.viaHost_inv _ _ ?_ (by assumption); try dsimp only) | (with_reducible apply State.onBz_inv) | (intro _) | (with_reducible refine (id ?_ : List.length _ = List.length _); simp; done) | split | dsimp only)

theorem State.bzBind_inv (s : State) (k : Nat) (v : BitVec 64) (hI : s.Inv) : (State.bzBind s k v).Inv := by
  unfold State.bzBind
  try dsimp only
  repeat' (first | (with_reducible assumption) | (with_reducible rfl) | (with_reducible apply next_inv) | (with_reducible refine inv_snd (by assumption) ?_) | (with_reducible refine inv_fst (by assumption) ?_) | (with_reducible apply foldl_inv; intros) | (with_reducible apply foldl_inv2; intros) | (with_reducible apply foldl_inv1; intros) | (simp only [inv_lit]; with_reducible apply keyOk_mk) | (with_reducible apply wrByte_wf) | (with_reducible apply wrBytes_wf) | (with_reducible apply inv_mem) | (with_reducible apply inv_outer) | (exact memWf_nil) | (with_reducible apply State.onBz_inv) | (with_reducible apply State.barForget_inv) | (with_reducible apply State.bzStop_inv) | (intro _) | (with_reducible refine (id ?_ : List.length _ = List.length _); simp; done) | split | dsimp only)

theorem execBzbindWrite_inv (k : BitVec 4) (v : BitVec 64) (s : State) (hI : s.Inv) : ResInv (execBzbindWrite k v s) := by
  unfold execBzbindWrite
  try dsimp only
  repeat' (first | (with_reducible assumption) | (with_reducible rfl) | (with_reducible apply next_inv) | (with_reducible refine inv_snd (by assumption) ?_) | (with_reducible refine inv_fst (by assumption) ?_) | (with_reducible apply foldl_inv; intros) | (with_reducible apply foldl_inv2; intros) | (with_reducible apply foldl_inv1; intros) | (simp only [inv_lit]; with_reducible apply keyOk_mk) | (with_reducible apply wrByte_wf) | (with_reducible apply wrBytes_wf) | (with_reducible apply inv_mem) | (with_reducible apply inv_outer) | (exact memWf_nil) | (refine State.viaHost_inv _ _ ?_ (by assumption); try dsimp only) | (with_reducible apply State.bzBind_inv) | (intro _) | (with_reducible refine (id ?_ : List.length _ = List.length _); simp; done) | split | dsimp only)

theorem State.deliver_inv (s : State) (k r c : Nat) (par : Bool) (bs : List Byte) (hI : s.Inv) : (State.deliver s k r c par bs).Inv := by
  unfold State.deliver
  try dsimp only
  repeat' (first | (with_reducible assumption) | (with_reducible rfl) | (with_reducible apply next_inv) | (with_reducible refine inv_snd (by assumption) ?_) | (with_reducible refine inv_fst (by assumption) ?_) | (with_reducible apply foldl_inv; intros) | (with_reducible apply foldl_inv2; intros) | (with_reducible apply foldl_inv1; intros) | (simp only [inv_lit]; with_reducible apply keyOk_mk) | (with_reducible apply wrByte_wf) | (with_reducible apply wrBytes_wf) | (with_reducible apply inv_mem) | (with_reducible apply inv_outer) | (exact memWf_nil) | (with_reducible apply State.free_inv) | (intro _) | (with_reducible refine (id ?_ : List.length _ = List.length _); simp; done) | split | dsimp only)

theorem State.cleanZone_inv (s : State) (off n : Nat) (hI : s.Inv) : (State.cleanZone s off n).Inv := by
  unfold State.cleanZone
  try dsimp only
  repeat' (first | (with_reducible assumption) | (with_reducible rfl) | (with_reducible apply next_inv) | (with_reducible refine inv_snd (by assumption) ?_) | (with_reducible refine inv_fst (by assumption) ?_) | (with_reducible apply foldl_inv; intros) | (with_reducible apply foldl_inv2; intros) | (with_reducible apply foldl_inv1; intros) | (simp only [inv_lit]; with_reducible apply keyOk_mk) | (with_reducible apply wrByte_wf) | (with_reducible apply wrBytes_wf) | (with_reducible apply inv_mem) | (with_reducible apply inv_outer) | (exact memWf_nil) | (intro _) | (with_reducible refine (id ?_ : List.length _ = List.length _); simp; done) | split | dsimp only)

theorem State.land_inv (s : State) (off : Nat) (bs : List Byte) (hI : s.Inv) : (State.land s off bs).Inv := by
  unfold State.land
  try dsimp only
  repeat' (first | (with_reducible assumption) | (with_reducible rfl) | (with_reducible apply next_inv) | (with_reducible refine inv_snd (by assumption) ?_) | (with_reducible refine inv_fst (by assumption) ?_) | (with_reducible apply foldl_inv; intros) | (with_reducible apply foldl_inv2; intros) | (with_reducible apply foldl_inv1; intros) | (simp only [inv_lit]; with_reducible apply keyOk_mk) | (with_reducible apply wrByte_wf) | (with_reducible apply wrBytes_wf) | (with_reducible apply inv_mem) | (with_reducible apply inv_outer) | (exact memWf_nil) | (with_reducible apply State.at'_inv) | (with_reducible apply State.freeBytes_inv) | (with_reducible apply State.hPutZone_inv) | (with_reducible apply State.onBz_inv) | (with_reducible apply State.cleanZone_inv) | (intro _) | (with_reducible refine (id ?_ : List.length _ = List.length _); simp; done) | split | dsimp only)

theorem State.landPart_inv (s : State) (d : Delivery) (hI : s.Inv) : (State.landPart s d).Inv := by
  unfold State.landPart
  try dsimp only
  repeat' (first | (with_reducible assumption) | (with_reducible rfl) | (with_reducible apply next_inv) | (with_reducible refine inv_snd (by assumption) ?_) | (with_reducible refine inv_fst (by assumption) ?_) | (with_reducible apply foldl_inv; intros) | (with_reducible apply foldl_inv2; intros) | (with_reducible apply foldl_inv1; intros) | (simp only [inv_lit]; with_reducible apply keyOk_mk) | (with_reducible apply wrByte_wf) | (with_reducible apply wrBytes_wf) | (with_reducible apply inv_mem) | (with_reducible apply inv_outer) | (exact memWf_nil) | (with_reducible apply State.land_inv) | (with_reducible apply State.free_inv) | (with_reducible apply State.peerOut_inv) | (intro _) | (with_reducible refine (id ?_ : List.length _ = List.length _); simp; done) | split | dsimp only)

theorem execDeliveryComplete_inv (id : Nat) (s : State) (hI : s.Inv) : ResInv (execDeliveryComplete id s) := by
  unfold execDeliveryComplete
  try dsimp only
  repeat' (first | (with_reducible assumption) | (with_reducible rfl) | (with_reducible apply next_inv) | (with_reducible refine inv_snd (by assumption) ?_) | (with_reducible refine inv_fst (by assumption) ?_) | (with_reducible apply foldl_inv; intros) | (with_reducible apply foldl_inv2; intros) | (with_reducible apply foldl_inv1; intros) | (simp only [inv_lit]; with_reducible apply keyOk_mk) | (with_reducible apply wrByte_wf) | (with_reducible apply wrBytes_wf) | (with_reducible apply inv_mem) | (with_reducible apply inv_outer) | (exact memWf_nil) | (with_reducible apply State.land_inv) | (with_reducible apply State.hPutZone_inv) | (with_reducible apply State.cleanZone_inv) | (with_reducible apply State.peerOut_inv) | (with_reducible apply State.bzSettle_inv) | (intro _) | (with_reducible refine (id ?_ : List.length _ = List.length _); simp; done) | split | dsimp only)

theorem execDeliveryFailure_inv (id : Nat) (s : State) (hI : s.Inv) : ResInv (execDeliveryFailure id s) := by
  unfold execDeliveryFailure
  try dsimp only
  repeat' (first | (with_reducible assumption) | (with_reducible rfl) | (with_reducible apply next_inv) | (with_reducible refine inv_snd (by assumption) ?_) | (with_reducible refine inv_fst (by assumption) ?_) | (with_reducible apply foldl_inv; intros) | (with_reducible apply foldl_inv2; intros) | (with_reducible apply foldl_inv1; intros) | (simp only [inv_lit]; with_reducible apply keyOk_mk) | (with_reducible apply wrByte_wf) | (with_reducible apply wrBytes_wf) | (with_reducible apply inv_mem) | (with_reducible apply inv_outer) | (exact memWf_nil) | (with_reducible apply State.landPart_inv) | (with_reducible apply State.onBz_inv) | (with_reducible apply State.bzSettle_inv) | (intro _) | (with_reducible refine (id ?_ : List.length _ = List.length _); simp; done) | split | dsimp only)

theorem execSend_inv (pt ind : Bool) (c : ChunkEx) (p : PeerEx) (s : State) (hI : s.Inv) : ResInv (execSend pt ind c p s) := by
  unfold execSend
  try dsimp only
  repeat' (first | (with_reducible assumption) | (with_reducible rfl) | (with_reducible apply next_inv) | (with_reducible refine inv_snd (by assumption) ?_) | (with_reducible refine inv_fst (by assumption) ?_) | (with_reducible apply foldl_inv; intros) | (with_reducible apply foldl_inv2; intros) | (with_reducible apply foldl_inv1; intros) | (simp only [inv_lit]; with_reducible apply keyOk_mk) | (with_reducible apply wrByte_wf) | (with_reducible apply wrBytes_wf) | (with_reducible apply inv_mem) | (with_reducible apply inv_outer) | (exact memWf_nil) | (with_reducible apply State.bzFault_inv) | (with_reducible apply State.hRead_inv) | (with_reducible apply State.deliver_inv) | (with_reducible apply State.bzDone_inv) | (intro _) | (with_reducible refine (id ?_ : List.length _ = List.length _); simp; done) | split | dsimp only)

theorem State.bzUsed_inv (s : State) (b : BzCtx) (c at' : Nat) (on : Option (Nat × Bool)) (out : List Byte) (hI : s.Inv) : ResInv (s.bzUsed b c at' on out) := by
  unfold State.bzUsed
  have h := State.hWrite_inv s b.ctx (b.work c) out hI
  revert h
  generalize s.hWrite b.ctx (b.work c) out = q
  obtain ⟨_ | _, t⟩ := q <;> intro h
  · exact State.bzFault_inv _ _ h
  · dsimp only
    have h2 := State.hPutZone_inv t (at' + 12) [0#8] h
    split
    · exact State.bzDone_inv _ (State.deliver_inv _ _ _ _ _ _ h2)
    · exact State.bzDone_inv _ h2

theorem State.zoneHead_inv (s : State) (b : BzCtx) (at' : Nat) (hI : s.Inv) : (State.zoneHead s b at').2.Inv := by
  unfold State.zoneHead
  try dsimp only
  repeat' (first | (with_reducible assumption) | (with_reducible rfl) | (with_reducible apply next_inv) | (with_reducible refine inv_snd (by assumption) ?_) | (with_reducible refine inv_fst (by assumption) ?_) | (with_reducible apply foldl_inv; intros) | (with_reducible apply foldl_inv2; intros) | (with_reducible apply foldl_inv1; intros) | (simp only [inv_lit]; with_reducible apply keyOk_mk) | (with_reducible apply wrByte_wf) | (with_reducible apply wrBytes_wf) | (with_reducible apply inv_mem) | (with_reducible apply inv_outer) | (exact memWf_nil) | (with_reducible apply State.at'_inv) | (with_reducible apply State.freeBytes_inv) | (with_reducible apply State.hBytes_inv) | (intro _) | (with_reducible refine (id ?_ : List.length _ = List.length _); simp; done) | split | dsimp only)

theorem State.zoneBytes_inv (s : State) (b : BzCtx) (at' n : Nat) (hI : s.Inv) : (State.zoneBytes s b at' n).2.Inv := by
  unfold State.zoneBytes
  try dsimp only
  repeat' (first | (with_reducible assumption) | (with_reducible rfl) | (with_reducible apply next_inv) | (with_reducible refine inv_snd (by assumption) ?_) | (with_reducible refine inv_fst (by assumption) ?_) | (with_reducible apply foldl_inv; intros) | (with_reducible apply foldl_inv2; intros) | (with_reducible apply foldl_inv1; intros) | (simp only [inv_lit]; with_reducible apply keyOk_mk) | (with_reducible apply wrByte_wf) | (with_reducible apply wrBytes_wf) | (with_reducible apply inv_mem) | (with_reducible apply inv_outer) | (exact memWf_nil) | (with_reducible apply State.at'_inv) | (with_reducible apply State.freeBytes_inv) | (with_reducible apply State.hBytes_inv) | (intro _) | (with_reducible refine (id ?_ : List.length _ = List.length _); simp; done) | split | dsimp only)

theorem State.bzUse_inv (s : State) (c : Nat) (pr : Bool) (rop : Option BzRop) (on : Option (Nat × Bool)) (hI : s.Inv) : ResInv (s.bzUse c pr rop on) := by
  unfold State.bzUse
  extract_lets b at'
  clear_value b at'
  refine ite_inv (State.bzFault_inv _ _ hI) (ite_inv (State.bzWait_inv _ hI) ?_)
  have h1 : (if b.lzBad.isEmpty = true then s.hBytes (.hbm at') 128 else s.zoneHead b at').2.Inv := by
    split
    · exact State.hBytes_inv _ _ _ hI
    · exact State.zoneHead_inv _ _ _ hI
  revert h1
  generalize (if b.lzBad.isEmpty = true then s.hBytes (.hbm at') 128 else s.zoneHead b at') = q
  obtain ⟨hd, t⟩ := q
  intro h1
  show ResInv (if _ then _ else _)
  refine ite_inv (State.bzFault_inv _ _ h1) ?_
  have h2 : (if b.lzBad.isEmpty = true then t.hBytes (.hbm (at' + 128)) (b.len c) else t.zoneBytes b at' (b.len c)).2.Inv := by
    split
    · exact State.hBytes_inv _ _ _ h1
    · exact State.zoneBytes_inv _ _ _ _ h1
  revert h2
  generalize (if b.lzBad.isEmpty = true then t.hBytes (.hbm (at' + 128)) (b.len c) else t.zoneBytes b at' (b.len c)) = q
  obtain ⟨rcv, u⟩ := q
  intro h2
  show ResInv (if _ then _ else _)
  refine ite_inv (State.bzFault_inv _ _ h2) (ite_inv (State.bzFault_inv _ _ h2) ?_)
  cases rop with
  | none => exact State.bzUsed_inv _ _ _ _ _ _ h2
  | some op =>
    dsimp only
    have h3 := State.hRead_inv u b.ctx (b.work c) (b.len c) h2
    revert h3
    generalize u.hRead b.ctx (b.work c) (b.len c) = q
    obtain ⟨_ | loc, v⟩ := q
    · exact fun h => State.bzFault_inv _ _ h
    · exact fun h => ite_inv (State.bzFault_inv _ _ h) (ite_inv (State.bzFault_inv _ _ h) (State.bzUsed_inv _ _ _ _ _ _ h))

theorem execRecv_inv (pr : Bool) (c : ChunkEx) (s : State) (hI : s.Inv) : ResInv (execRecv pr c s) := by
  unfold execRecv
  try dsimp only
  repeat' (first | (with_reducible assumption) | (with_reducible rfl) | (with_reducible apply next_inv) | (with_reducible refine inv_snd (by assumption) ?_) | (with_reducible refine inv_fst (by assumption) ?_) | (with_reducible apply foldl_inv; intros) | (with_reducible apply foldl_inv2; intros) | (with_reducible apply foldl_inv1; intros) | (simp only [inv_lit]; with_reducible apply keyOk_mk) | (with_reducible apply wrByte_wf) | (with_reducible apply wrBytes_wf) | (with_reducible apply inv_mem) | (with_reducible apply inv_outer) | (exact memWf_nil) | (with_reducible apply State.bzUse_inv) | (intro _) | (with_reducible refine (id ?_ : List.length _ = List.length _); simp; done) | split | dsimp only)

theorem execRrd_inv (rop : BzRop) (pr : Bool) (c : ChunkEx) (s : State) (hI : s.Inv) : ResInv (execRrd rop pr c s) := by
  unfold execRrd
  try dsimp only
  repeat' (first | (with_reducible assumption) | (with_reducible rfl) | (with_reducible apply next_inv) | (with_reducible refine inv_snd (by assumption) ?_) | (with_reducible refine inv_fst (by assumption) ?_) | (with_reducible apply foldl_inv; intros) | (with_reducible apply foldl_inv2; intros) | (with_reducible apply foldl_inv1; intros) | (simp only [inv_lit]; with_reducible apply keyOk_mk) | (with_reducible apply wrByte_wf) | (with_reducible apply wrBytes_wf) | (with_reducible apply inv_mem) | (with_reducible apply inv_outer) | (exact memWf_nil) | (with_reducible apply State.bzUse_inv) | (intro _) | (with_reducible refine (id ?_ : List.length _ = List.length _); simp; done) | split | dsimp only)

theorem execRrs_inv (rop : BzRop) (pr pt ind : Bool) (c : ChunkEx) (p : PeerEx) (s : State) (hI : s.Inv) : ResInv (execRrs rop pr pt ind c p s) := by
  unfold execRrs
  try dsimp only
  repeat' (first | (with_reducible assumption) | (with_reducible rfl) | (with_reducible apply next_inv) | (with_reducible refine inv_snd (by assumption) ?_) | (with_reducible refine inv_fst (by assumption) ?_) | (with_reducible apply foldl_inv; intros) | (with_reducible apply foldl_inv2; intros) | (with_reducible apply foldl_inv1; intros) | (simp only [inv_lit]; with_reducible apply keyOk_mk) | (with_reducible apply wrByte_wf) | (with_reducible apply wrBytes_wf) | (with_reducible apply inv_mem) | (with_reducible apply inv_outer) | (exact memWf_nil) | (with_reducible apply State.bzFault_inv) | (with_reducible apply State.bzUse_inv) | (intro _) | (with_reducible refine (id ?_ : List.length _ = List.length _); simp; done) | split | dsimp only)

theorem execCopy_inv (c : ChunkEx) (s : State) (hI : s.Inv) : ResInv (execCopy c s) := by
  unfold execCopy
  try dsimp only
  repeat' (first | (with_reducible assumption) | (with_reducible rfl) | (with_reducible apply next_inv) | (with_reducible refine inv_snd (by assumption) ?_) | (with_reducible refine inv_fst (by assumption) ?_) | (with_reducible apply foldl_inv; intros) | (with_reducible apply foldl_inv2; intros) | (with_reducible apply foldl_inv1; intros) | (simp only [inv_lit]; with_reducible apply keyOk_mk) | (with_reducible apply wrByte_wf) | (with_reducible apply wrBytes_wf) | (with_reducible apply inv_mem) | (with_reducible apply inv_outer) | (exact memWf_nil) | (with_reducible apply State.bzFault_inv) | (with_reducible apply State.hRead_inv) | (with_reducible apply State.hWrite_inv) | (with_reducible apply State.bzDone_inv) | (intro _) | (with_reducible refine (id ?_ : List.length _ = List.length _); simp; done) | split | dsimp only)

theorem execWaitc_inv (c : ChunkEx) (s : State) (hI : s.Inv) : ResInv (execWaitc c s) := by
  unfold execWaitc
  try dsimp only
  repeat' (first | (with_reducible assumption) | (with_reducible rfl) | (with_reducible apply next_inv) | (with_reducible refine inv_snd (by assumption) ?_) | (with_reducible refine inv_fst (by assumption) ?_) | (with_reducible apply foldl_inv; intros) | (with_reducible apply foldl_inv2; intros) | (with_reducible apply foldl_inv1; intros) | (simp only [inv_lit]; with_reducible apply keyOk_mk) | (with_reducible apply wrByte_wf) | (with_reducible apply wrBytes_wf) | (with_reducible apply inv_mem) | (with_reducible apply inv_outer) | (exact memWf_nil) | (with_reducible apply State.bzWait_inv) | (with_reducible apply State.dropPeer_inv) | (with_reducible apply State.onBz_inv) | (with_reducible apply State.bzDone_inv) | (intro _) | (with_reducible refine (id ?_ : List.length _ = List.length _); simp; done) | split | dsimp only)

theorem State.addWord_inv (s : State) (off : Nat) (hI : s.Inv) : (State.addWord s off).Inv := by
  unfold State.addWord
  try dsimp only
  repeat' (first | (with_reducible assumption) | (with_reducible rfl) | (with_reducible apply next_inv) | (with_reducible refine inv_snd (by assumption) ?_) | (with_reducible refine inv_fst (by assumption) ?_) | (with_reducible apply foldl_inv; intros) | (with_reducible apply foldl_inv2; intros) | (with_reducible apply foldl_inv1; intros) | (simp only [inv_lit]; with_reducible apply keyOk_mk) | (with_reducible apply wrByte_wf) | (with_reducible apply wrBytes_wf) | (with_reducible apply inv_mem) | (with_reducible apply inv_outer) | (exact memWf_nil) | (with_reducible apply State.hbmRead_inv) | (with_reducible apply State.hPutZone_inv) | (intro _) | (with_reducible refine (id ?_ : List.length _ = List.length _); simp; done) | split | dsimp only)

theorem State.foldSig_inv (s : State) (k i : Nat) (hI : s.Inv) : (State.foldSig s k i).Inv := by
  unfold State.foldSig
  try dsimp only
  repeat' (first | (with_reducible assumption) | (with_reducible rfl) | (with_reducible apply next_inv) | (with_reducible refine inv_snd (by assumption) ?_) | (with_reducible refine inv_fst (by assumption) ?_) | (with_reducible apply foldl_inv; intros) | (with_reducible apply foldl_inv2; intros) | (with_reducible apply foldl_inv1; intros) | (simp only [inv_lit]; with_reducible apply keyOk_mk) | (with_reducible apply wrByte_wf) | (with_reducible apply wrBytes_wf) | (with_reducible apply inv_mem) | (with_reducible apply inv_outer) | (exact memWf_nil) | (with_reducible apply State.freeBytes_inv) | (with_reducible apply State.hbmRead_inv) | (with_reducible apply State.hPutZone_inv) | (with_reducible apply State.onBz_inv) | (intro _) | (with_reducible refine (id ?_ : List.length _ = List.length _); simp; done) | split | dsimp only)

theorem State.sendSig_inv (s : State) (b : BzCtx) (r i : Nat) (hI : s.Inv) : (State.sendSig s b r i).2.Inv := by
  unfold State.sendSig
  try dsimp only
  repeat' (first | (with_reducible assumption) | (with_reducible rfl) | (with_reducible apply next_inv) | (with_reducible refine inv_snd (by assumption) ?_) | (with_reducible refine inv_fst (by assumption) ?_) | (with_reducible apply foldl_inv; intros) | (with_reducible apply foldl_inv2; intros) | (with_reducible apply foldl_inv1; intros) | (simp only [inv_lit]; with_reducible apply keyOk_mk) | (with_reducible apply wrByte_wf) | (with_reducible apply wrBytes_wf) | (with_reducible apply inv_mem) | (with_reducible apply inv_outer) | (exact memWf_nil) | (with_reducible apply State.addWord_inv) | (with_reducible apply State.portLost_inv) | (intro _) | (with_reducible refine (id ?_ : List.length _ = List.length _); simp; done) | split | dsimp only)

theorem execSig_inv (ind : Bool) (idx : BitVec 6) (p : PeerEx) (s : State) (hI : s.Inv) : ResInv (execSig ind idx p s) := by
  unfold execSig
  try dsimp only
  repeat' (first | (with_reducible assumption) | (with_reducible rfl) | (with_reducible apply next_inv) | (with_reducible refine inv_snd (by assumption) ?_) | (with_reducible refine inv_fst (by assumption) ?_) | (with_reducible apply foldl_inv; intros) | (with_reducible apply foldl_inv2; intros) | (with_reducible apply foldl_inv1; intros) | (simp only [inv_lit]; with_reducible apply keyOk_mk) | (with_reducible apply wrByte_wf) | (with_reducible apply wrBytes_wf) | (with_reducible apply inv_mem) | (with_reducible apply inv_outer) | (exact memWf_nil) | (with_reducible apply State.bzFault_inv) | (with_reducible apply State.bzWait_inv) | (with_reducible apply State.free_inv) | (with_reducible apply State.sendSig_inv) | (with_reducible apply State.onBz_inv) | (with_reducible apply State.bzDone_inv) | (with_reducible apply State.release_inv) | (intro _) | (with_reducible refine (id ?_ : List.length _ = List.length _); simp; done) | split | dsimp only)

theorem execSigBit_inv (i : BitVec 12) (s : State) (hI : s.Inv) : ResInv (execSigBit i s) := by
  unfold execSigBit
  try dsimp only
  repeat' (first | (with_reducible assumption) | (with_reducible rfl) | (with_reducible apply next_inv) | (with_reducible refine inv_snd (by assumption) ?_) | (with_reducible refine inv_fst (by assumption) ?_) | (with_reducible apply foldl_inv; intros) | (with_reducible apply foldl_inv2; intros) | (with_reducible apply foldl_inv1; intros) | (simp only [inv_lit]; with_reducible apply keyOk_mk) | (with_reducible apply wrByte_wf) | (with_reducible apply wrBytes_wf) | (with_reducible apply inv_mem) | (with_reducible apply inv_outer) | (exact memWf_nil) | (with_reducible apply State.hXlate_inv) | (with_reducible apply State.bzFault_inv) | (with_reducible apply State.atomTarget_inv) | (with_reducible apply State.bzDone_inv) | (intro _) | (with_reducible refine (id ?_ : List.length _ = List.length _); simp; done) | split | dsimp only)

theorem execWaits_inv (idx : BitVec 6) (n : BitVec 16) (s : State) (hI : s.Inv) : ResInv (execWaits idx n s) := by
  unfold execWaits
  try dsimp only
  repeat' (first | (with_reducible assumption) | (with_reducible rfl) | (with_reducible apply next_inv) | (with_reducible refine inv_snd (by assumption) ?_) | (with_reducible refine inv_fst (by assumption) ?_) | (with_reducible apply foldl_inv; intros) | (with_reducible apply foldl_inv2; intros) | (with_reducible apply foldl_inv1; intros) | (simp only [inv_lit]; with_reducible apply keyOk_mk) | (with_reducible apply wrByte_wf) | (with_reducible apply wrBytes_wf) | (with_reducible apply inv_mem) | (with_reducible apply inv_outer) | (exact memWf_nil) | (with_reducible apply State.foldSig_inv) | (with_reducible apply State.bzWait_inv) | (with_reducible apply State.dropPeer_inv) | (with_reducible apply State.onBz_inv) | (with_reducible apply State.bzDone_inv) | (intro _) | (with_reducible refine (id ?_ : List.length _ = List.length _); simp; done) | split | dsimp only)

theorem State.someMember_inv (s : State) (b : BzCtx) (hI : s.Inv) : (State.someMember s b).2.Inv := by
  unfold State.someMember
  try dsimp only
  repeat' (first | (with_reducible assumption) | (with_reducible rfl) | (with_reducible apply next_inv) | (with_reducible refine inv_snd (by assumption) ?_) | (with_reducible refine inv_fst (by assumption) ?_) | (with_reducible apply foldl_inv; intros) | (with_reducible apply foldl_inv2; intros) | (with_reducible apply foldl_inv1; intros) | (simp only [inv_lit]; with_reducible apply keyOk_mk) | (with_reducible apply wrByte_wf) | (with_reducible apply wrBytes_wf) | (with_reducible apply inv_mem) | (with_reducible apply inv_outer) | (exact memWf_nil) | (with_reducible apply State.free_inv) | (intro _) | (with_reducible refine (id ?_ : List.length _ = List.length _); simp; done) | split | dsimp only)

theorem execSignalArrival_inv (k : BitVec 4) (idx : BitVec 6) (s : State) (hI : s.Inv) : ResInv (execSignalArrival k idx s) := by
  unfold execSignalArrival
  try dsimp only
  repeat' (first | (with_reducible assumption) | (with_reducible rfl) | (with_reducible apply next_inv) | (with_reducible refine inv_snd (by assumption) ?_) | (with_reducible refine inv_fst (by assumption) ?_) | (with_reducible apply foldl_inv; intros) | (with_reducible apply foldl_inv2; intros) | (with_reducible apply foldl_inv1; intros) | (simp only [inv_lit]; with_reducible apply keyOk_mk) | (with_reducible apply wrByte_wf) | (with_reducible apply wrBytes_wf) | (with_reducible apply inv_mem) | (with_reducible apply inv_outer) | (exact memWf_nil) | (with_reducible apply State.someMember_inv) | (with_reducible apply State.addWord_inv) | (with_reducible apply State.foldSig_inv) | (intro _) | (with_reducible refine (id ?_ : List.length _ = List.length _); simp; done) | split | dsimp only)

theorem State.setG_inv (s : State) (gd : BitVec 3) (v : BitVec 32) (hI : s.Inv) : ResInv (State.setG s gd v) := by
  unfold State.setG
  try dsimp only
  repeat' (first | (with_reducible assumption) | (with_reducible rfl) | (with_reducible apply next_inv) | (with_reducible refine inv_snd (by assumption) ?_) | (with_reducible refine inv_fst (by assumption) ?_) | (with_reducible apply foldl_inv; intros) | (with_reducible apply foldl_inv2; intros) | (with_reducible apply foldl_inv1; intros) | (simp only [inv_lit]; with_reducible apply keyOk_mk) | (with_reducible apply wrByte_wf) | (with_reducible apply wrBytes_wf) | (with_reducible apply inv_mem) | (with_reducible apply inv_outer) | (exact memWf_nil) | (with_reducible apply State.onBz_inv) | (with_reducible apply State.bzDone_inv) | (intro _) | (with_reducible refine (id ?_ : List.length _ = List.length _); simp; done) | split | dsimp only)

theorem execSetv_inv (gd : BitVec 3) (imm : BitVec 32) (s : State) (hI : s.Inv) : ResInv (execSetv gd imm s) := by
  unfold execSetv
  try dsimp only
  repeat' (first | (with_reducible assumption) | (with_reducible rfl) | (with_reducible apply next_inv) | (with_reducible refine inv_snd (by assumption) ?_) | (with_reducible refine inv_fst (by assumption) ?_) | (with_reducible apply foldl_inv; intros) | (with_reducible apply foldl_inv2; intros) | (with_reducible apply foldl_inv1; intros) | (simp only [inv_lit]; with_reducible apply keyOk_mk) | (with_reducible apply wrByte_wf) | (with_reducible apply wrBytes_wf) | (with_reducible apply inv_mem) | (with_reducible apply inv_outer) | (exact memWf_nil) | (with_reducible apply State.setG_inv) | (intro _) | (with_reducible refine (id ?_ : List.length _ = List.length _); simp; done) | split | dsimp only)

theorem execAddv_inv (gd ga : BitVec 3) (imm : BitVec 32) (s : State) (hI : s.Inv) : ResInv (execAddv gd ga imm s) := by
  unfold execAddv
  try dsimp only
  repeat' (first | (with_reducible assumption) | (with_reducible rfl) | (with_reducible apply next_inv) | (with_reducible refine inv_snd (by assumption) ?_) | (with_reducible refine inv_fst (by assumption) ?_) | (with_reducible apply foldl_inv; intros) | (with_reducible apply foldl_inv2; intros) | (with_reducible apply foldl_inv1; intros) | (simp only [inv_lit]; with_reducible apply keyOk_mk) | (with_reducible apply wrByte_wf) | (with_reducible apply wrBytes_wf) | (with_reducible apply inv_mem) | (with_reducible apply inv_outer) | (exact memWf_nil) | (with_reducible apply State.setG_inv) | (intro _) | (with_reducible refine (id ?_ : List.length _ = List.length _); simp; done) | split | dsimp only)

theorem execPeer_inv (gd : BitVec 3) (p : PeerEx) (s : State) (hI : s.Inv) : ResInv (execPeer gd p s) := by
  unfold execPeer
  try dsimp only
  repeat' (first | (with_reducible assumption) | (with_reducible rfl) | (with_reducible apply next_inv) | (with_reducible refine inv_snd (by assumption) ?_) | (with_reducible refine inv_fst (by assumption) ?_) | (with_reducible apply foldl_inv; intros) | (with_reducible apply foldl_inv2; intros) | (with_reducible apply foldl_inv1; intros) | (simp only [inv_lit]; with_reducible apply keyOk_mk) | (with_reducible apply wrByte_wf) | (with_reducible apply wrBytes_wf) | (with_reducible apply inv_mem) | (with_reducible apply inv_outer) | (exact memWf_nil) | (with_reducible apply State.setG_inv) | (intro _) | (with_reducible refine (id ?_ : List.length _ = List.length _); simp; done) | split | dsimp only)

theorem execPeerInd_inv (gd pg : BitVec 3) (s : State) (hI : s.Inv) : ResInv (execPeerInd gd pg s) := by
  unfold execPeerInd
  try dsimp only
  repeat' (first | (with_reducible assumption) | (with_reducible rfl) | (with_reducible apply next_inv) | (with_reducible refine inv_snd (by assumption) ?_) | (with_reducible refine inv_fst (by assumption) ?_) | (with_reducible apply foldl_inv; intros) | (with_reducible apply foldl_inv2; intros) | (with_reducible apply foldl_inv1; intros) | (simp only [inv_lit]; with_reducible apply keyOk_mk) | (with_reducible apply wrByte_wf) | (with_reducible apply wrBytes_wf) | (with_reducible apply inv_mem) | (with_reducible apply inv_outer) | (exact memWf_nil) | (with_reducible apply State.bzFault_inv) | (with_reducible apply State.setG_inv) | (intro _) | (with_reducible refine (id ?_ : List.length _ = List.length _); simp; done) | split | dsimp only)

theorem execPeerXor_inv (gd pg : BitVec 3) (s : State) (hI : s.Inv) : ResInv (execPeerXor gd pg s) := by
  unfold execPeerXor
  try dsimp only
  repeat' (first | (with_reducible assumption) | (with_reducible rfl) | (with_reducible apply next_inv) | (with_reducible refine inv_snd (by assumption) ?_) | (with_reducible refine inv_fst (by assumption) ?_) | (with_reducible apply foldl_inv; intros) | (with_reducible apply foldl_inv2; intros) | (with_reducible apply foldl_inv1; intros) | (simp only [inv_lit]; with_reducible apply keyOk_mk) | (with_reducible apply wrByte_wf) | (with_reducible apply wrBytes_wf) | (with_reducible apply inv_mem) | (with_reducible apply inv_outer) | (exact memWf_nil) | (with_reducible apply State.setG_inv) | (intro _) | (with_reducible refine (id ?_ : List.length _ = List.length _); simp; done) | split | dsimp only)

theorem execBzLoop_inv (gd : BitVec 3) (n : BitVec 32) (s : State) (hI : s.Inv) : ResInv (execBzLoop gd n s) := by
  unfold execBzLoop
  try dsimp only
  repeat' (first | (with_reducible assumption) | (with_reducible rfl) | (with_reducible apply next_inv) | (with_reducible refine inv_snd (by assumption) ?_) | (with_reducible refine inv_fst (by assumption) ?_) | (with_reducible apply foldl_inv; intros) | (with_reducible apply foldl_inv2; intros) | (with_reducible apply foldl_inv1; intros) | (simp only [inv_lit]; with_reducible apply keyOk_mk) | (with_reducible apply wrByte_wf) | (with_reducible apply wrBytes_wf) | (with_reducible apply inv_mem) | (with_reducible apply inv_outer) | (exact memWf_nil) | (with_reducible apply State.bzFault_inv) | (with_reducible apply State.onBz_inv) | (with_reducible apply State.setG_inv) | (with_reducible apply State.bzDone_inv) | (intro _) | (with_reducible refine (id ?_ : List.length _ = List.length _); simp; done) | split | dsimp only)

theorem execBzEndl_inv (s : State) (hI : s.Inv) : ResInv (execBzEndl s) := by
  unfold execBzEndl
  try dsimp only
  repeat' (first | (with_reducible assumption) | (with_reducible rfl) | (with_reducible apply next_inv) | (with_reducible refine inv_snd (by assumption) ?_) | (with_reducible refine inv_fst (by assumption) ?_) | (with_reducible apply foldl_inv; intros) | (with_reducible apply foldl_inv2; intros) | (with_reducible apply foldl_inv1; intros) | (simp only [inv_lit]; with_reducible apply keyOk_mk) | (with_reducible apply wrByte_wf) | (with_reducible apply wrBytes_wf) | (with_reducible apply inv_mem) | (with_reducible apply inv_outer) | (exact memWf_nil) | (with_reducible apply State.bzFault_inv) | (with_reducible apply State.onBz_inv) | (with_reducible apply State.setG_inv) | (with_reducible apply State.bzDone_inv) | (intro _) | (with_reducible refine (id ?_ : List.length _ = List.length _); simp; done) | split | dsimp only)

theorem State.barArrive_inv (s : State) (k : Nat) (hI : s.Inv) : (State.barArrive s k).Inv := by
  unfold State.barArrive
  try dsimp only
  repeat' (first | (with_reducible assumption) | (with_reducible rfl) | (with_reducible apply next_inv) | (with_reducible refine inv_snd (by assumption) ?_) | (with_reducible refine inv_fst (by assumption) ?_) | (with_reducible apply foldl_inv; intros) | (with_reducible apply foldl_inv2; intros) | (with_reducible apply foldl_inv1; intros) | (simp only [inv_lit]; with_reducible apply keyOk_mk) | (with_reducible apply wrByte_wf) | (with_reducible apply wrBytes_wf) | (with_reducible apply inv_mem) | (with_reducible apply inv_outer) | (exact memWf_nil) | (with_reducible apply State.onBz_inv) | (with_reducible apply State.free_inv) | (intro _) | (with_reducible refine (id ?_ : List.length _ = List.length _); simp; done) | split | dsimp only)

theorem State.barHear_inv (s : State) (b : BzCtx) (hI : s.Inv) : (State.barHear s b).Inv := by
  unfold State.barHear
  try dsimp only
  repeat' (first | (with_reducible assumption) | (with_reducible rfl) | (with_reducible apply next_inv) | (with_reducible refine inv_snd (by assumption) ?_) | (with_reducible refine inv_fst (by assumption) ?_) | (with_reducible apply foldl_inv; intros) | (with_reducible apply foldl_inv2; intros) | (with_reducible apply foldl_inv1; intros) | (simp only [inv_lit]; with_reducible apply keyOk_mk) | (with_reducible apply wrByte_wf) | (with_reducible apply wrBytes_wf) | (with_reducible apply inv_mem) | (with_reducible apply inv_outer) | (exact memWf_nil) | (with_reducible apply State.free_inv) | (intro _) | (with_reducible refine (id ?_ : List.length _ = List.length _); simp; done) | split | dsimp only)

theorem execBar_inv (acq rel : Bool) (s : State) (hI : s.Inv) : ResInv (execBar acq rel s) := by
  unfold execBar
  try dsimp only
  repeat' (first | (with_reducible assumption) | (with_reducible rfl) | (with_reducible apply next_inv) | (with_reducible refine inv_snd (by assumption) ?_) | (with_reducible refine inv_fst (by assumption) ?_) | (with_reducible apply foldl_inv; intros) | (with_reducible apply foldl_inv2; intros) | (with_reducible apply foldl_inv1; intros) | (simp only [inv_lit]; with_reducible apply keyOk_mk) | (with_reducible apply wrByte_wf) | (with_reducible apply wrBytes_wf) | (with_reducible apply inv_mem) | (with_reducible apply inv_outer) | (exact memWf_nil) | (with_reducible apply State.bzWait_inv) | (with_reducible apply State.barArrive_inv) | (with_reducible apply State.barHear_inv) | (with_reducible apply State.dropPeer_inv) | (with_reducible apply State.bzDone_inv) | (intro _) | (with_reducible refine (id ?_ : List.length _ = List.length _); simp; done) | split | dsimp only)

theorem execBzEnd_inv (s : State) (hI : s.Inv) : ResInv (execBzEnd s) := by
  unfold execBzEnd
  try dsimp only
  repeat' (first | (with_reducible assumption) | (with_reducible rfl) | (with_reducible apply next_inv) | (with_reducible refine inv_snd (by assumption) ?_) | (with_reducible refine inv_fst (by assumption) ?_) | (with_reducible apply foldl_inv; intros) | (with_reducible apply foldl_inv2; intros) | (with_reducible apply foldl_inv1; intros) | (simp only [inv_lit]; with_reducible apply keyOk_mk) | (with_reducible apply wrByte_wf) | (with_reducible apply wrBytes_wf) | (with_reducible apply inv_mem) | (with_reducible apply inv_outer) | (exact memWf_nil) | (with_reducible apply State.bzWait_inv) | (with_reducible apply State.onBz_inv) | (intro _) | (with_reducible refine (id ?_ : List.length _ = List.length _); simp; done) | split | dsimp only)

theorem execBzNop_inv (s : State) (hI : s.Inv) : ResInv (execBzNop s) := by
  unfold execBzNop
  try dsimp only
  repeat' (first | (with_reducible assumption) | (with_reducible rfl) | (with_reducible apply next_inv) | (with_reducible refine inv_snd (by assumption) ?_) | (with_reducible refine inv_fst (by assumption) ?_) | (with_reducible apply foldl_inv; intros) | (with_reducible apply foldl_inv2; intros) | (with_reducible apply foldl_inv1; intros) | (simp only [inv_lit]; with_reducible apply keyOk_mk) | (with_reducible apply wrByte_wf) | (with_reducible apply wrBytes_wf) | (with_reducible apply inv_mem) | (with_reducible apply inv_outer) | (exact memWf_nil) | (with_reducible apply State.bzDone_inv) | (intro _) | (with_reducible refine (id ?_ : List.length _ = List.length _); simp; done) | split | dsimp only)

theorem execBozoakContextTurn_inv (s : State) (hI : s.Inv) : ResInv (execBozoakContextTurn s) := by
  unfold execBozoakContextTurn
  try dsimp only
  repeat' (first | (with_reducible assumption) | (with_reducible rfl) | (with_reducible apply next_inv) | (with_reducible refine inv_snd (by assumption) ?_) | (with_reducible refine inv_fst (by assumption) ?_) | (with_reducible apply foldl_inv; intros) | (with_reducible apply foldl_inv2; intros) | (with_reducible apply foldl_inv1; intros) | (simp only [inv_lit]; with_reducible apply keyOk_mk) | (with_reducible apply wrByte_wf) | (with_reducible apply wrBytes_wf) | (with_reducible apply inv_mem) | (with_reducible apply inv_outer) | (exact memWf_nil) | (with_reducible apply State.bzSettle_inv) | (intro _) | (with_reducible refine (id ?_ : List.length _ = List.length _); simp; done) | split | dsimp only)

theorem execChunkCount_inv (c : BitVec 4) (k : BitVec 4) (chunk : BitVec 20) (inc : BitVec 16) (o : Origin) (s : State) (hI : s.Inv) : ResInv (execChunkCount c k chunk inc o s) := by
  unfold execChunkCount
  try dsimp only
  repeat' (first | (with_reducible assumption) | (with_reducible rfl) | (with_reducible apply next_inv) | (with_reducible refine inv_snd (by assumption) ?_) | (with_reducible refine inv_fst (by assumption) ?_) | (with_reducible apply foldl_inv; intros) | (with_reducible apply foldl_inv2; intros) | (with_reducible apply foldl_inv1; intros) | (simp only [inv_lit]; with_reducible apply keyOk_mk) | (with_reducible apply wrByte_wf) | (with_reducible apply wrBytes_wf) | (with_reducible apply inv_mem) | (with_reducible apply inv_outer) | (exact memWf_nil) | (with_reducible apply State.release_inv) | (with_reducible apply State.vcStep_inv) | (with_reducible refine State.countChunk_inv (by assumption) ?_) | (with_reducible apply onCl_inv) | (intro _) | (with_reducible refine (id ?_ : List.length _ = List.length _); simp; done) | split | dsimp only)

/-! ### Launch -/

theorem State.peerList_inv (s : State) (r : BitVec 1024) (hI : s.Inv) : (State.peerList s r).2.Inv := by
  unfold State.peerList
  try dsimp only
  repeat' (first | (with_reducible assumption) | (with_reducible rfl) | (with_reducible apply next_inv) | (with_reducible refine inv_snd (by assumption) ?_) | (with_reducible refine inv_fst (by assumption) ?_) | (with_reducible apply foldl_inv; intros) | (with_reducible apply foldl_inv2; intros) | (with_reducible apply foldl_inv1; intros) | (simp only [inv_lit]; with_reducible apply keyOk_mk) | (with_reducible apply wrByte_wf) | (with_reducible apply wrBytes_wf) | (with_reducible apply inv_mem) | (with_reducible apply inv_outer) | (exact memWf_nil) | (with_reducible apply State.hRead_inv) | (intro _) | (with_reducible refine (id ?_ : List.length _ = List.length _); simp; done) | split | dsimp only)

theorem State.recordCode_inv (s : State) (r : BitVec 1024) (by' : SubmitBy) (hI : s.Inv) : (State.recordCode s r by').2.Inv := by
  unfold State.recordCode
  try dsimp only
  repeat' (first | (with_reducible assumption) | (with_reducible rfl) | (with_reducible apply next_inv) | (with_reducible refine inv_snd (by assumption) ?_) | (with_reducible refine inv_fst (by assumption) ?_) | (with_reducible apply foldl_inv; intros) | (with_reducible apply foldl_inv2; intros) | (with_reducible apply foldl_inv1; intros) | (simp only [inv_lit]; with_reducible apply keyOk_mk) | (with_reducible apply wrByte_wf) | (with_reducible apply wrBytes_wf) | (with_reducible apply inv_mem) | (with_reducible apply inv_outer) | (exact memWf_nil) | (with_reducible apply State.peerList_inv) | (intro _) | (with_reducible refine (id ?_ : List.length _ = List.length _); simp; done) | split | dsimp only)

theorem State.accept_inv (s : State) (r : BitVec 1024) (by' : SubmitBy) (hI : s.Inv) : (State.accept s r by').Inv := by
  unfold State.accept
  try dsimp only
  repeat' (first | (with_reducible assumption) | (with_reducible rfl) | (with_reducible apply next_inv) | (with_reducible refine inv_snd (by assumption) ?_) | (with_reducible refine inv_fst (by assumption) ?_) | (with_reducible apply foldl_inv; intros) | (with_reducible apply foldl_inv2; intros) | (with_reducible apply foldl_inv1; intros) | (simp only [inv_lit]; with_reducible apply keyOk_mk) | (with_reducible apply wrByte_wf) | (with_reducible apply wrBytes_wf) | (with_reducible apply inv_mem) | (with_reducible apply inv_outer) | (exact memWf_nil) | (with_reducible apply State.peerList_inv) | (with_reducible apply State.portLost_inv) | (with_reducible apply State.stopTask_inv) | (intro _) | (with_reducible refine (id ?_ : List.length _ = List.length _); simp; done) | split | dsimp only)

theorem State.submit_inv (s : State) (r : BitVec 1024) (by' : SubmitBy) (hI : s.Inv) : (State.submit s r by').2.Inv := by
  unfold State.submit
  try dsimp only
  repeat' (first | (with_reducible assumption) | (with_reducible rfl) | (with_reducible apply next_inv) | (with_reducible refine inv_snd (by assumption) ?_) | (with_reducible refine inv_fst (by assumption) ?_) | (with_reducible apply foldl_inv; intros) | (with_reducible apply foldl_inv2; intros) | (with_reducible apply foldl_inv1; intros) | (simp only [inv_lit]; with_reducible apply keyOk_mk) | (with_reducible apply wrByte_wf) | (with_reducible apply wrBytes_wf) | (with_reducible apply inv_mem) | (with_reducible apply inv_outer) | (exact memWf_nil) | (with_reducible apply State.recordCode_inv) | (with_reducible apply State.accept_inv) | (intro _) | (with_reducible refine (id ?_ : List.length _ = List.length _); simp; done) | split | dsimp only)

theorem State.onWin_inv (s : State) (w : BitVec 4) (f : LaunchWin → LaunchWin) (hI : s.Inv) : (State.onWin s w f).Inv := by
  unfold State.onWin
  try dsimp only
  repeat' (first | (with_reducible assumption) | (with_reducible rfl) | (with_reducible apply next_inv) | (with_reducible refine inv_snd (by assumption) ?_) | (with_reducible refine inv_fst (by assumption) ?_) | (with_reducible apply foldl_inv; intros) | (with_reducible apply foldl_inv2; intros) | (with_reducible apply foldl_inv1; intros) | (simp only [inv_lit]; with_reducible apply keyOk_mk) | (with_reducible apply wrByte_wf) | (with_reducible apply wrBytes_wf) | (with_reducible apply inv_mem) | (with_reducible apply inv_outer) | (exact memWf_nil) | (intro _) | (with_reducible refine (id ?_ : List.length _ = List.length _); simp; done) | split | dsimp only)

theorem execHostLaunchDoorbell_inv (w : BitVec 4) (tag : BitVec 32) (s : State) (hI : s.Inv) : ResInv (execHostLaunchDoorbell w tag s) := by
  unfold execHostLaunchDoorbell
  try dsimp only
  repeat' (first | (with_reducible assumption) | (with_reducible rfl) | (with_reducible apply next_inv) | (with_reducible refine inv_snd (by assumption) ?_) | (with_reducible refine inv_fst (by assumption) ?_) | (with_reducible apply foldl_inv; intros) | (with_reducible apply foldl_inv2; intros) | (with_reducible apply foldl_inv1; intros) | (simp only [inv_lit]; with_reducible apply keyOk_mk) | (with_reducible apply wrByte_wf) | (with_reducible apply wrBytes_wf) | (with_reducible apply inv_mem) | (with_reducible apply inv_outer) | (exact memWf_nil) | (refine State.viaHost_inv _ _ ?_ (by assumption); try dsimp only) | (with_reducible apply State.onWin_inv) | (intro _) | (with_reducible refine (id ?_ : List.length _ = List.length _); simp; done) | split | dsimp only)

theorem execCompletionHeadWrite_inv (w : BitVec 4) (v : BitVec 64) (s : State) (hI : s.Inv) : ResInv (execCompletionHeadWrite w v s) := by
  unfold execCompletionHeadWrite
  try dsimp only
  repeat' (first | (with_reducible assumption) | (with_reducible rfl) | (with_reducible apply next_inv) | (with_reducible refine inv_snd (by assumption) ?_) | (with_reducible refine inv_fst (by assumption) ?_) | (with_reducible apply foldl_inv; intros) | (with_reducible apply foldl_inv2; intros) | (with_reducible apply foldl_inv1; intros) | (simp only [inv_lit]; with_reducible apply keyOk_mk) | (with_reducible apply wrByte_wf) | (with_reducible apply wrBytes_wf) | (with_reducible apply inv_mem) | (with_reducible apply inv_outer) | (exact memWf_nil) | (refine State.viaHost_inv _ _ ?_ (by assumption); try dsimp only) | (with_reducible apply State.onWin_inv) | (intro _) | (with_reducible refine (id ?_ : List.length _ = List.length _); simp; done) | split | dsimp only)

theorem execLaunchWindowBind_inv (w : BitVec 4) (bound : Bool) (ctx : BitVec 12) (s : State) (hI : s.Inv) : ResInv (execLaunchWindowBind w bound ctx s) := by
  unfold execLaunchWindowBind
  try dsimp only
  repeat' (first | (with_reducible assumption) | (with_reducible rfl) | (with_reducible apply next_inv) | (with_reducible refine inv_snd (by assumption) ?_) | (with_reducible refine inv_fst (by assumption) ?_) | (with_reducible apply foldl_inv; intros) | (with_reducible apply foldl_inv2; intros) | (with_reducible apply foldl_inv1; intros) | (simp only [inv_lit]; with_reducible apply keyOk_mk) | (with_reducible apply wrByte_wf) | (with_reducible apply wrBytes_wf) | (with_reducible apply inv_mem) | (with_reducible apply inv_outer) | (exact memWf_nil) | (refine State.viaHost_inv _ _ ?_ (by assumption); try dsimp only) | (with_reducible apply State.onWin_inv) | (intro _) | (with_reducible refine (id ?_ : List.length _ = List.length _); simp; done) | split | dsimp only)

theorem execSupervisorRecord_inv (rcd : BitVec 1024) (s : State) (hI : s.Inv) : ResInv (execSupervisorRecord rcd s) := by
  unfold execSupervisorRecord
  try dsimp only
  repeat' (first | (with_reducible assumption) | (with_reducible rfl) | (with_reducible apply next_inv) | (with_reducible refine inv_snd (by assumption) ?_) | (with_reducible refine inv_fst (by assumption) ?_) | (with_reducible apply foldl_inv; intros) | (with_reducible apply foldl_inv2; intros) | (with_reducible apply foldl_inv1; intros) | (simp only [inv_lit]; with_reducible apply keyOk_mk) | (with_reducible apply wrByte_wf) | (with_reducible apply wrBytes_wf) | (with_reducible apply inv_mem) | (with_reducible apply inv_outer) | (exact memWf_nil) | (refine State.viaHost_inv _ _ ?_ (by assumption); try dsimp only) | (with_reducible apply State.submit_inv) | (with_reducible apply State.free_inv) | (intro _) | (with_reducible refine (id ?_ : List.length _ = List.length _); simp; done) | split | dsimp only)

theorem State.bindFab_inv (s : State) (sender ctx : BitVec 12) (hI : s.Inv) : (State.bindFab s sender ctx).Inv := by
  unfold State.bindFab
  try dsimp only
  repeat' (first | (with_reducible assumption) | (with_reducible rfl) | (with_reducible apply next_inv) | (with_reducible refine inv_snd (by assumption) ?_) | (with_reducible refine inv_fst (by assumption) ?_) | (with_reducible apply foldl_inv; intros) | (with_reducible apply foldl_inv2; intros) | (with_reducible apply foldl_inv1; intros) | (simp only [inv_lit]; with_reducible apply keyOk_mk) | (with_reducible apply wrByte_wf) | (with_reducible apply wrBytes_wf) | (with_reducible apply inv_mem) | (with_reducible apply inv_outer) | (exact memWf_nil) | (with_reducible apply State.free_inv) | (intro _) | (with_reducible refine (id ?_ : List.length _ = List.length _); simp; done) | split | dsimp only)

theorem execForwardedFabricRecord_inv (sender : BitVec 12) (rcd : BitVec 1024) (pos : BitVec 8) (s : State) (hI : s.Inv) : ResInv (execForwardedFabricRecord sender rcd pos s) := by
  unfold execForwardedFabricRecord
  try dsimp only
  repeat' (first | (with_reducible assumption) | (with_reducible rfl) | (with_reducible apply next_inv) | (with_reducible refine inv_snd (by assumption) ?_) | (with_reducible refine inv_fst (by assumption) ?_) | (with_reducible apply foldl_inv; intros) | (with_reducible apply foldl_inv2; intros) | (with_reducible apply foldl_inv1; intros) | (simp only [inv_lit]; with_reducible apply keyOk_mk) | (with_reducible apply wrByte_wf) | (with_reducible apply wrBytes_wf) | (with_reducible apply inv_mem) | (with_reducible apply inv_outer) | (exact memWf_nil) | (with_reducible apply State.bindFab_inv) | (with_reducible apply State.submit_inv) | (intro _) | (with_reducible refine (id ?_ : List.length _ = List.length _); simp; done) | split | dsimp only)

theorem execForwardedRecordRefusal_inv (task : Nat) (s : State) (hI : s.Inv) : ResInv (execForwardedRecordRefusal task s) := by
  unfold execForwardedRecordRefusal
  try dsimp only
  repeat' (first | (with_reducible assumption) | (with_reducible rfl) | (with_reducible apply next_inv) | (with_reducible refine inv_snd (by assumption) ?_) | (with_reducible refine inv_fst (by assumption) ?_) | (with_reducible apply foldl_inv; intros) | (with_reducible apply foldl_inv2; intros) | (with_reducible apply foldl_inv1; intros) | (simp only [inv_lit]; with_reducible apply keyOk_mk) | (with_reducible apply wrByte_wf) | (with_reducible apply wrBytes_wf) | (with_reducible apply inv_mem) | (with_reducible apply inv_outer) | (exact memWf_nil) | (with_reducible apply State.stopTask_inv) | (intro _) | (with_reducible refine (id ?_ : List.length _ = List.length _); simp; done) | split | dsimp only)

theorem State.doorbells_inv (s : State) (hI : s.Inv) : (State.doorbells s).Inv := by
  unfold State.doorbells
  try dsimp only
  repeat' (first | (with_reducible assumption) | (with_reducible rfl) | (with_reducible apply next_inv) | (with_reducible refine inv_snd (by assumption) ?_) | (with_reducible refine inv_fst (by assumption) ?_) | (with_reducible apply foldl_inv; intros) | (with_reducible apply foldl_inv2; intros) | (with_reducible apply foldl_inv1; intros) | (simp only [inv_lit]; with_reducible apply keyOk_mk) | (with_reducible apply wrByte_wf) | (with_reducible apply wrBytes_wf) | (with_reducible apply inv_mem) | (with_reducible apply inv_outer) | (exact memWf_nil) | (with_reducible apply State.submit_inv) | (with_reducible apply State.onWin_inv) | (intro _) | (with_reducible refine (id ?_ : List.length _ = List.length _); simp; done) | split | dsimp only)

theorem State.acquireAll_inv (s : State) (sc : Scope) (hI : s.Inv) : (State.acquireAll s sc).Inv := by
  unfold State.acquireAll
  try dsimp only
  repeat' (first | (with_reducible assumption) | (with_reducible rfl) | (with_reducible apply next_inv) | (with_reducible refine inv_snd (by assumption) ?_) | (with_reducible refine inv_fst (by assumption) ?_) | (with_reducible apply foldl_inv; intros) | (with_reducible apply foldl_inv2; intros) | (with_reducible apply foldl_inv1; intros) | (simp only [inv_lit]; with_reducible apply keyOk_mk) | (with_reducible apply wrByte_wf) | (with_reducible apply wrBytes_wf) | (with_reducible apply inv_mem) | (with_reducible apply inv_outer) | (exact memWf_nil) | (with_reducible apply State.dropPeer_inv) | (with_reducible apply State.acquire_inv) | (intro _) | (with_reducible refine (id ?_ : List.length _ = List.length _); simp; done) | split | dsimp only)

theorem State.windowsSet_inv (s : State) (t : Task) (gang : Nat) (hI : s.Inv) : (State.windowsSet s t gang).2.Inv := by
  unfold State.windowsSet
  try dsimp only
  repeat' (first | (with_reducible assumption) | (with_reducible rfl) | (with_reducible apply next_inv) | (with_reducible refine inv_snd (by assumption) ?_) | (with_reducible refine inv_fst (by assumption) ?_) | (with_reducible apply foldl_inv; intros) | (with_reducible apply foldl_inv2; intros) | (with_reducible apply foldl_inv1; intros) | (simp only [inv_lit]; with_reducible apply keyOk_mk) | (with_reducible apply wrByte_wf) | (with_reducible apply wrBytes_wf) | (with_reducible apply inv_mem) | (with_reducible apply inv_outer) | (exact memWf_nil) | (with_reducible apply State.acquireAll_inv) | (with_reducible apply State.hWord_inv) | (intro _) | (with_reducible refine (id ?_ : List.length _ = List.length _); simp; done) | split | dsimp only)

theorem State.putGang_inv (s : State) (t : Task) (g : Gang) (hI : s.Inv) : (State.putGang s t g).Inv := by
  unfold State.putGang
  try dsimp only
  repeat' (first | (with_reducible assumption) | (with_reducible rfl) | (with_reducible apply next_inv) | (with_reducible refine inv_snd (by assumption) ?_) | (with_reducible refine inv_fst (by assumption) ?_) | (with_reducible apply foldl_inv; intros) | (with_reducible apply foldl_inv2; intros) | (with_reducible apply foldl_inv1; intros) | (simp only [inv_lit]; with_reducible apply keyOk_mk) | (with_reducible apply wrByte_wf) | (with_reducible apply wrBytes_wf) | (with_reducible apply inv_mem) | (with_reducible apply inv_outer) | (exact memWf_nil) | (with_reducible apply State.onTask_inv) | (intro _) | (with_reducible refine (id ?_ : List.length _ = List.length _); simp; done) | split | dsimp only)

theorem State.logKey_inv (s : State) (ctx : BitVec 12) (desc : BitVec 64) (base unit fuel i n : Nat) (hI : s.Inv) : (s.logKey ctx desc base unit fuel i n).2.Inv := by
  induction fuel generalizing s i n with
  | zero => exact hI
  | succ f ih =>
    unfold State.logKey
    have h1 := State.hReadD_inv s ctx desc (base + 64 * i) 64 hI
    revert h1
    generalize s.hReadD ctx desc (base + 64 * i) 64 = q
    obtain ⟨_ | q, t⟩ := q
    · exact fun h => h
    · intro h1
      dsimp only
      split
      · exact h1
      · split
        · split
          · exact h1
          · exact ih _ _ _ h1
        · exact ih _ _ _ h1

theorem State.newKey_inv (s : State) (c unit : Nat) (g : Gen) (hI : s.Inv) : (State.newKey s c unit g).Inv := by
  unfold State.newKey
  try dsimp only
  repeat' (first | (with_reducible assumption) | (with_reducible rfl) | (with_reducible apply next_inv) | (with_reducible refine inv_snd (by assumption) ?_) | (with_reducible refine inv_fst (by assumption) ?_) | (with_reducible apply foldl_inv; intros) | (with_reducible apply foldl_inv2; intros) | (with_reducible apply foldl_inv1; intros) | (simp only [inv_lit]; with_reducible apply keyOk_mk) | (with_reducible apply wrByte_wf) | (with_reducible apply wrBytes_wf) | (with_reducible apply inv_mem) | (with_reducible apply inv_outer) | (exact memWf_nil) | (with_reducible apply onCl_inv) | (intro _) | (with_reducible refine (id ?_ : List.length _ = List.length _); simp; done) | split | dsimp only)

theorem State.logGone_inv (s : State) (c : Nat) (hI : s.Inv) : (State.logGone s c).Inv := by
  unfold State.logGone
  try dsimp only
  repeat' (first | (with_reducible assumption) | (with_reducible rfl) | (with_reducible apply next_inv) | (with_reducible refine inv_snd (by assumption) ?_) | (with_reducible refine inv_fst (by assumption) ?_) | (with_reducible apply foldl_inv; intros) | (with_reducible apply foldl_inv2; intros) | (with_reducible apply foldl_inv1; intros) | (simp only [inv_lit]; with_reducible apply keyOk_mk) | (with_reducible apply wrByte_wf) | (with_reducible apply wrBytes_wf) | (with_reducible apply inv_mem) | (with_reducible apply inv_outer) | (exact memWf_nil) | (with_reducible apply onCl_inv) | (intro _) | (with_reducible refine (id ?_ : List.length _ = List.length _); simp; done) | split | dsimp only)

theorem State.logAppend_inv (s : State) (c : Nat) (r : RunId) (unit : Nat) (key : BitVec 256) (hI : s.Inv) : (State.logAppend s c r unit key).2.Inv := by
  unfold State.logAppend
  split
  · exact State.logGone_inv _ _ hI
  · generalize leBytes 6 ((s.cl c).dt % 2 ^ 48) ++ leBytes 2 unit ++ leBytes 32 key.toNat ++ List.replicate 24 0#8 = x1
    have h := State.hWriteD_inv s r.ctx r.desc (r.log + 64 * r.logged) x1 hI
    revert h
    generalize s.hWriteD r.ctx r.desc (r.log + 64 * r.logged) x1 = q
    obtain ⟨b, t⟩ := q
    exact fun h => onCl_inv _ _ h

theorem State.replay_inv (s : State) (c unit : Nat) (g : Gen) (r : RunId) (fresh coming : BitVec 256) (recs : Nat) (hI : s.Inv) :
    (s.replay c unit g r fresh coming recs).Inv := by
  unfold State.replay
  have h2 := State.logKey_inv s r.ctx r.desc r.log unit recs 0 g.seeds hI
  revert h2
  generalize s.logKey r.ctx r.desc r.log unit recs 0 g.seeds = q
  obtain ⟨n, t⟩ := q
  intro h2
  have h3 := State.logKey_inv t r.ctx r.desc r.log unit recs 0 (g.seeds + 1) h2
  revert h3
  dsimp only
  generalize t.logKey r.ctx r.desc r.log unit recs 0 (g.seeds + 1) = q
  obtain ⟨l, u⟩ := q
  intro h3
  dsimp only
  split
  · exact State.newKey_inv _ _ _ _ h3
  · exact State.logGone_inv _ _ (State.newKey_inv _ _ _ _ h3)

theorem State.reseedFrom_inv (s : State) (c unit : Nat) (g : Gen) (fresh coming : BitVec 256) (hI : s.Inv) : (State.reseedFrom s c unit g fresh coming).2.Inv := by
  unfold State.reseedFrom
  generalize logMax = x2
  split
  · exact State.newKey_inv _ _ _ _ hI
  · split
    · exact State.newKey_inv _ _ _ _ (State.logAppend_inv _ _ _ _ _ hI)
    · split
      · exact State.replay_inv _ _ _ _ _ _ _ _ hI
      · exact State.newKey_inv _ _ _ _ hI

theorem State.reseed_inv (s : State) (c unit : Nat) (hI : s.Inv) : (State.reseed s c unit).2.Inv := by
  unfold State.reseed
  try dsimp only
  repeat' (first | (with_reducible assumption) | (with_reducible rfl) | (with_reducible apply next_inv) | (with_reducible refine inv_snd (by assumption) ?_) | (with_reducible refine inv_fst (by assumption) ?_) | (with_reducible apply foldl_inv; intros) | (with_reducible apply foldl_inv2; intros) | (with_reducible apply foldl_inv1; intros) | (simp only [inv_lit]; with_reducible apply keyOk_mk) | (with_reducible apply wrByte_wf) | (with_reducible apply wrBytes_wf) | (with_reducible apply inv_mem) | (with_reducible apply inv_outer) | (exact memWf_nil) | (with_reducible apply State.reseedFrom_inv) | (intro _) | (with_reducible refine (id ?_ : List.length _ = List.length _); simp; done) | split | dsimp only)

theorem State.reseedAll_inv (s : State) (c : Nat) (hI : s.Inv) : (State.reseedAll s c).2.Inv := by
  unfold State.reseedAll
  try dsimp only
  repeat' (first | (with_reducible assumption) | (with_reducible rfl) | (with_reducible apply next_inv) | (with_reducible refine inv_snd (by assumption) ?_) | (with_reducible refine inv_fst (by assumption) ?_) | (with_reducible apply foldl_inv; intros) | (with_reducible apply foldl_inv2; intros) | (with_reducible apply foldl_inv1; intros) | (simp only [inv_lit]; with_reducible apply keyOk_mk) | (with_reducible apply wrByte_wf) | (with_reducible apply wrBytes_wf) | (with_reducible apply inv_mem) | (with_reducible apply inv_outer) | (exact memWf_nil) | (with_reducible apply State.reseed_inv) | (intro _) | (with_reducible refine (id ?_ : List.length _ = List.length _); simp; done) | split | dsimp only)

theorem execGeneratorReseed_inv (c : BitVec 4) (unit : BitVec 9) (s : State) (hI : s.Inv) : ResInv (execGeneratorReseed c unit s) := by
  unfold execGeneratorReseed
  try dsimp only
  repeat' (first | (with_reducible assumption) | (with_reducible rfl) | (with_reducible apply next_inv) | (with_reducible refine inv_snd (by assumption) ?_) | (with_reducible refine inv_fst (by assumption) ?_) | (with_reducible apply foldl_inv; intros) | (with_reducible apply foldl_inv2; intros) | (with_reducible apply foldl_inv1; intros) | (simp only [inv_lit]; with_reducible apply keyOk_mk) | (with_reducible apply wrByte_wf) | (with_reducible apply wrBytes_wf) | (with_reducible apply inv_mem) | (with_reducible apply inv_outer) | (exact memWf_nil) | (with_reducible apply State.reseed_inv) | (with_reducible apply State.faultRun_inv) | (intro _) | (with_reducible refine (id ?_ : List.length _ = List.length _); simp; done) | split | dsimp only)

theorem State.windowVc_inv (s : State) (t : Task) (gang c : Nat) (hI : s.Inv) : (State.windowVc s t gang c).Inv := by
  unfold State.windowVc
  try dsimp only
  repeat' (first | (with_reducible assumption) | (with_reducible rfl) | (with_reducible apply next_inv) | (with_reducible refine inv_snd (by assumption) ?_) | (with_reducible refine inv_fst (by assumption) ?_) | (with_reducible apply foldl_inv; intros) | (with_reducible apply foldl_inv2; intros) | (with_reducible apply foldl_inv1; intros) | (simp only [inv_lit]; with_reducible apply keyOk_mk) | (with_reducible apply wrByte_wf) | (with_reducible apply wrBytes_wf) | (with_reducible apply inv_mem) | (with_reducible apply inv_outer) | (exact memWf_nil) | (with_reducible apply State.hXlate_inv) | (with_reducible apply State.vcAcquire_inv) | (intro _) | (with_reducible refine (id ?_ : List.length _ = List.length _); simp; done) | split | dsimp only)

theorem State.ftImage_inv (s : State) (t : Task) (hI : s.Inv) : (State.ftImage s t).2.Inv := by
  unfold State.ftImage
  try dsimp only
  repeat' (first | (with_reducible assumption) | (with_reducible rfl) | (with_reducible apply next_inv) | (with_reducible refine inv_snd (by assumption) ?_) | (with_reducible refine inv_fst (by assumption) ?_) | (with_reducible apply foldl_inv; intros) | (with_reducible apply foldl_inv2; intros) | (with_reducible apply foldl_inv1; intros) | (simp only [inv_lit]; with_reducible apply keyOk_mk) | (with_reducible apply wrByte_wf) | (with_reducible apply wrBytes_wf) | (with_reducible apply inv_mem) | (with_reducible apply inv_outer) | (exact memWf_nil) | (with_reducible apply State.hWords_inv) | (intro _) | (with_reducible refine (id ?_ : List.length _ = List.length _); simp; done) | split | dsimp only)

theorem State.pace_inv (s : State) (cs : List Nat) (hI : s.Inv) : (State.pace s cs).Inv := by
  unfold State.pace
  try dsimp only
  repeat' (first | (with_reducible assumption) | (with_reducible rfl) | (with_reducible apply next_inv) | (with_reducible refine inv_snd (by assumption) ?_) | (with_reducible refine inv_fst (by assumption) ?_) | (with_reducible apply foldl_inv; intros) | (with_reducible apply foldl_inv2; intros) | (with_reducible apply foldl_inv1; intros) | (simp only [inv_lit]; with_reducible apply keyOk_mk) | (with_reducible apply wrByte_wf) | (with_reducible apply wrBytes_wf) | (with_reducible apply inv_mem) | (with_reducible apply inv_outer) | (exact memWf_nil) | (with_reducible apply onCl_inv) | (intro _) | (with_reducible refine (id ?_ : List.length _ = List.length _); simp; done) | split | dsimp only)

theorem State.dispatched_inv (s : State) (t : Task) (g : Gang) (pl : List (Nat × Nat)) (hI : s.Inv) : (State.dispatched s t g pl).Inv := by
  unfold State.dispatched
  try dsimp only
  repeat' (first | (with_reducible assumption) | (with_reducible rfl) | (with_reducible apply next_inv) | (with_reducible refine inv_snd (by assumption) ?_) | (with_reducible refine inv_fst (by assumption) ?_) | (with_reducible apply foldl_inv; intros) | (with_reducible apply foldl_inv2; intros) | (with_reducible apply foldl_inv1; intros) | (simp only [inv_lit]; with_reducible apply keyOk_mk) | (with_reducible apply wrByte_wf) | (with_reducible apply wrBytes_wf) | (with_reducible apply inv_mem) | (with_reducible apply inv_outer) | (exact memWf_nil) | (with_reducible apply State.onTask_inv) | (with_reducible apply State.putGang_inv) | (intro _) | (with_reducible refine (id ?_ : List.length _ = List.length _); simp; done) | split | dsimp only)

theorem State.startGang_inv (s : State) (t : Task) (g : Gang) (pl : List (Nat × Nat)) (hI : s.Inv) : (State.startGang s t g pl).Inv := by
  unfold State.startGang
  try dsimp only
  repeat' (first | (with_reducible assumption) | (with_reducible rfl) | (with_reducible apply next_inv) | (with_reducible refine inv_snd (by assumption) ?_) | (with_reducible refine inv_fst (by assumption) ?_) | (with_reducible apply foldl_inv; intros) | (with_reducible apply foldl_inv2; intros) | (with_reducible apply foldl_inv1; intros) | (simp only [inv_lit]; with_reducible apply keyOk_mk) | (with_reducible apply wrByte_wf) | (with_reducible apply wrBytes_wf) | (with_reducible apply inv_mem) | (with_reducible apply inv_outer) | (exact memWf_nil) | (with_reducible apply State.ftImage_inv) | (with_reducible apply State.stopTask_inv) | (with_reducible apply State.dispatched_inv) | (with_reducible apply State.pace_inv) | (with_reducible apply State.onTask_inv) | (with_reducible apply onCl_inv) | (with_reducible apply State.windowVc_inv) | (with_reducible apply State.acquire_inv) | (with_reducible apply State.reseedAll_inv) | (with_reducible apply State.lineIn_inv) | (with_reducible apply State.endGang_inv) | (intro _) | (with_reducible refine (id ?_ : List.length _ = List.length _); simp; done) | split | dsimp only)

theorem State.requeue_inv (s : State) (id : Nat) (hI : s.Inv) : (State.requeue s id).Inv :=
  ⟨hI.1, ⟨hI.2.1.1, hI.2.1.2.1, (List.length_map _).trans hI.2.1.2.2⟩, hI.2.2⟩

theorem State.evict_inv (s : State) (v : Task × Gang) (hI : s.Inv) : (State.evict s v).Inv := by
  unfold State.evict
  try dsimp only
  repeat' (first | (with_reducible assumption) | (with_reducible rfl) | (with_reducible apply next_inv) | (with_reducible refine inv_snd (by assumption) ?_) | (with_reducible refine inv_fst (by assumption) ?_) | (with_reducible apply foldl_inv; intros) | (with_reducible apply foldl_inv2; intros) | (with_reducible apply foldl_inv1; intros) | (simp only [inv_lit]; with_reducible apply keyOk_mk) | (with_reducible apply wrByte_wf) | (with_reducible apply wrBytes_wf) | (with_reducible apply inv_mem) | (with_reducible apply inv_outer) | (exact memWf_nil) | (with_reducible apply State.putGang_inv) | (with_reducible apply State.requeue_inv) | (with_reducible apply onCl_inv) | (with_reducible apply State.endGang_inv) | (with_reducible apply State.stopTask_inv) | (intro _) | (with_reducible refine (id ?_ : List.length _ = List.length _); simp; done) | split | dsimp only)

theorem State.claim_inv (s : State) (t : Task) (g : Gang) (hI : s.Inv) : (State.claim s t g).Inv := by
  unfold State.claim
  try dsimp only
  repeat' (first | (with_reducible assumption) | (with_reducible rfl) | (with_reducible apply next_inv) | (with_reducible refine inv_snd (by assumption) ?_) | (with_reducible refine inv_fst (by assumption) ?_) | (with_reducible apply foldl_inv; intros) | (with_reducible apply foldl_inv2; intros) | (with_reducible apply foldl_inv1; intros) | (simp only [inv_lit]; with_reducible apply keyOk_mk) | (with_reducible apply wrByte_wf) | (with_reducible apply wrBytes_wf) | (with_reducible apply inv_mem) | (with_reducible apply inv_outer) | (exact memWf_nil) | (with_reducible apply State.putGang_inv) | (with_reducible apply State.evict_inv) | (intro _) | (with_reducible refine (id ?_ : List.length _ = List.length _); simp; done) | split | dsimp only)

theorem State.lapse_inv (s : State) (hI : s.Inv) : (State.lapse s).Inv := by
  unfold State.lapse
  try dsimp only
  repeat' (first | (with_reducible assumption) | (with_reducible rfl) | (with_reducible apply next_inv) | (with_reducible refine inv_snd (by assumption) ?_) | (with_reducible refine inv_fst (by assumption) ?_) | (with_reducible apply foldl_inv; intros) | (with_reducible apply foldl_inv2; intros) | (with_reducible apply foldl_inv1; intros) | (simp only [inv_lit]; with_reducible apply keyOk_mk) | (with_reducible apply wrByte_wf) | (with_reducible apply wrBytes_wf) | (with_reducible apply inv_mem) | (with_reducible apply inv_outer) | (exact memWf_nil) | (with_reducible apply State.dispatched_inv) | (intro _) | (with_reducible refine (id ?_ : List.length _ = List.length _); simp; done) | split | dsimp only)

theorem State.tryPlace_inv (s : State) (t : Task) (g : Gang) (hI : s.Inv) : (State.tryPlace s t g).2.Inv := by
  unfold State.tryPlace
  try dsimp only
  repeat' (first | (with_reducible assumption) | (with_reducible rfl) | (with_reducible apply next_inv) | (with_reducible refine inv_snd (by assumption) ?_) | (with_reducible refine inv_fst (by assumption) ?_) | (with_reducible apply foldl_inv; intros) | (with_reducible apply foldl_inv2; intros) | (with_reducible apply foldl_inv1; intros) | (simp only [inv_lit]; with_reducible apply keyOk_mk) | (with_reducible apply wrByte_wf) | (with_reducible apply wrBytes_wf) | (with_reducible apply inv_mem) | (with_reducible apply inv_outer) | (exact memWf_nil) | (with_reducible apply State.claim_inv) | (with_reducible apply State.startGang_inv) | (with_reducible apply State.free_inv) | (intro _) | (with_reducible refine (id ?_ : List.length _ = List.length _); simp; done) | split | dsimp only)

theorem State.consider_inv (s : State) (id : Nat) (hI : s.Inv) : (State.consider s id).2.Inv := by
  unfold State.consider
  try dsimp only
  repeat' (first | (with_reducible assumption) | (with_reducible rfl) | (with_reducible apply next_inv) | (with_reducible refine inv_snd (by assumption) ?_) | (with_reducible refine inv_fst (by assumption) ?_) | (with_reducible apply foldl_inv; intros) | (with_reducible apply foldl_inv2; intros) | (with_reducible apply foldl_inv1; intros) | (simp only [inv_lit]; with_reducible apply keyOk_mk) | (with_reducible apply wrByte_wf) | (with_reducible apply wrBytes_wf) | (with_reducible apply inv_mem) | (with_reducible apply inv_outer) | (exact memWf_nil) | (with_reducible apply State.stopTask_inv) | (with_reducible apply State.windowsSet_inv) | (with_reducible apply State.tryPlace_inv) | (with_reducible apply State.freeIn_inv) | (with_reducible apply State.onTask_inv) | (with_reducible apply State.putGang_inv) | (intro _) | (with_reducible refine (id ?_ : List.length _ = List.length _); simp; done) | split | dsimp only)

theorem execLaunchDispatch_inv (s : State) (hI : s.Inv) : ResInv (execLaunchDispatch s) := by
  unfold execLaunchDispatch
  try dsimp only
  repeat' (first | (with_reducible assumption) | (with_reducible rfl) | (with_reducible apply next_inv) | (with_reducible refine inv_snd (by assumption) ?_) | (with_reducible refine inv_fst (by assumption) ?_) | (with_reducible apply foldl_inv; intros) | (with_reducible apply foldl_inv2; intros) | (with_reducible apply foldl_inv1; intros) | (simp only [inv_lit]; with_reducible apply keyOk_mk) | (with_reducible apply wrByte_wf) | (with_reducible apply wrBytes_wf) | (with_reducible apply inv_mem) | (with_reducible apply inv_outer) | (exact memWf_nil) | (with_reducible apply State.doorbells_inv) | (with_reducible apply State.lapse_inv) | (with_reducible apply State.consider_inv) | (intro _) | (with_reducible refine (id ?_ : List.length _ = List.length _); simp; done) | split | dsimp only)

theorem execBuntingWindowReread_inv (task : Nat) (s : State) (hI : s.Inv) : ResInv (execBuntingWindowReread task s) := by
  unfold execBuntingWindowReread
  try dsimp only
  repeat' (first | (with_reducible assumption) | (with_reducible rfl) | (with_reducible apply next_inv) | (with_reducible refine inv_snd (by assumption) ?_) | (with_reducible refine inv_fst (by assumption) ?_) | (with_reducible apply foldl_inv; intros) | (with_reducible apply foldl_inv2; intros) | (with_reducible apply foldl_inv1; intros) | (simp only [inv_lit]; with_reducible apply keyOk_mk) | (with_reducible apply wrByte_wf) | (with_reducible apply wrBytes_wf) | (with_reducible apply inv_mem) | (with_reducible apply inv_outer) | (exact memWf_nil) | (with_reducible apply State.windowsSet_inv) | (with_reducible apply State.stopTask_inv) | (with_reducible apply State.putGang_inv) | (with_reducible apply State.freeIn_inv) | (with_reducible apply State.onTask_inv) | (intro _) | (with_reducible refine (id ?_ : List.length _ = List.length _); simp; done) | split | dsimp only)

theorem execWindowTimeout_inv (task : Nat) (s : State) (hI : s.Inv) : ResInv (execWindowTimeout task s) := by
  unfold execWindowTimeout
  try dsimp only
  repeat' (first | (with_reducible assumption) | (with_reducible rfl) | (with_reducible apply next_inv) | (with_reducible refine inv_snd (by assumption) ?_) | (with_reducible refine inv_fst (by assumption) ?_) | (with_reducible apply foldl_inv; intros) | (with_reducible apply foldl_inv2; intros) | (with_reducible apply foldl_inv1; intros) | (simp only [inv_lit]; with_reducible apply keyOk_mk) | (with_reducible apply wrByte_wf) | (with_reducible apply wrBytes_wf) | (with_reducible apply inv_mem) | (with_reducible apply inv_outer) | (exact memWf_nil) | (with_reducible apply State.stopTask_inv) | (intro _) | (with_reducible refine (id ?_ : List.length _ = List.length _); simp; done) | split | dsimp only)

theorem State.age_inv (s : State) (id : Nat) (hI : s.Inv) : (State.age s id).Inv := by
  unfold State.age
  try dsimp only
  repeat' (first | (with_reducible assumption) | (with_reducible rfl) | (with_reducible apply next_inv) | (with_reducible refine inv_snd (by assumption) ?_) | (with_reducible refine inv_fst (by assumption) ?_) | (with_reducible apply foldl_inv; intros) | (with_reducible apply foldl_inv2; intros) | (with_reducible apply foldl_inv1; intros) | (simp only [inv_lit]; with_reducible apply keyOk_mk) | (with_reducible apply wrByte_wf) | (with_reducible apply wrBytes_wf) | (with_reducible apply inv_mem) | (with_reducible apply inv_outer) | (exact memWf_nil) | (with_reducible apply State.onTask_inv) | (intro _) | (with_reducible refine (id ?_ : List.length _ = List.length _); simp; done) | split | dsimp only)

theorem execAgeingPeriod_inv (s : State) (hI : s.Inv) : ResInv (execAgeingPeriod s) := by
  unfold execAgeingPeriod
  try dsimp only
  repeat' (first | (with_reducible assumption) | (with_reducible rfl) | (with_reducible apply next_inv) | (with_reducible refine inv_snd (by assumption) ?_) | (with_reducible refine inv_fst (by assumption) ?_) | (with_reducible apply foldl_inv; intros) | (with_reducible apply foldl_inv2; intros) | (with_reducible apply foldl_inv1; intros) | (simp only [inv_lit]; with_reducible apply keyOk_mk) | (with_reducible apply wrByte_wf) | (with_reducible apply wrBytes_wf) | (with_reducible apply inv_mem) | (with_reducible apply inv_outer) | (exact memWf_nil) | (with_reducible apply State.age_inv) | (intro _) | (with_reducible refine (id ?_ : List.length _ = List.length _); simp; done) | split | dsimp only)

/-! ### Area -/

theorem State.saveArea_inv (s : State) (c : Nat) (r : RunId) (hI : s.Inv) : (State.saveArea s c r).2.Inv := by
  unfold State.saveArea
  try dsimp only
  repeat' (first | (with_reducible assumption) | (with_reducible rfl) | (with_reducible apply next_inv) | (with_reducible refine inv_snd (by assumption) ?_) | (with_reducible refine inv_fst (by assumption) ?_) | (with_reducible apply foldl_inv; intros) | (with_reducible apply foldl_inv2; intros) | (with_reducible apply foldl_inv1; intros) | (simp only [inv_lit]; with_reducible apply keyOk_mk) | (with_reducible apply wrByte_wf) | (with_reducible apply wrBytes_wf) | (with_reducible apply inv_mem) | (with_reducible apply inv_outer) | (exact memWf_nil) | (with_reducible apply State.hWriteD_inv) | (intro _) | (with_reducible refine (id ?_ : List.length _ = List.length _); simp; done) | split | dsimp only)

theorem State.hostMade_inv (s : State) (r : RunId) (a : Nat) (old now : List Byte) (hI : s.Inv) : (State.hostMade s r a old now).2.Inv := by
  unfold State.hostMade
  generalize partsOf a old.length = l
  exact foldl_inv2 (fun ok s x h => State.hXlateD_inv s r.ctx r.desc x.1 .read h) hI

theorem State.readItem_inv (s : State) (r : RunId) (a : Nat) (bs : List Byte) (ok : Bool) (q : Cluster) (hI : s.Inv) : (State.readItem s r a bs ok q).2.Inv := by
  unfold State.readItem
  have h2 := State.hReadD_inv s r.ctx r.desc a bs.length hI
  revert h2
  generalize s.hReadD r.ctx r.desc a bs.length = p
  obtain ⟨_ | now, t⟩ := p
  · exact fun h => h
  · intro h2
    dsimp only
    split
    · exact h2
    · exact State.hostMade_inv t r a bs now h2

theorem State.readArea_inv (s : State) (k : Cluster) (r : RunId) (hI : s.Inv) : (State.readArea s k r).2.Inv := by
  unfold State.readArea
  refine foldl_inv2 (fun got s x h => ?_) hI
  rcases got with _ | ⟨ok, q⟩
  · exact h
  · exact State.readItem_inv s r x.1 x.2 ok q h

/-! ### Preempt -/

theorem execPreemptionFreeze_inv (task gang : Nat) (s : State) (hI : s.Inv) : ResInv (execPreemptionFreeze task gang s) := by
  unfold execPreemptionFreeze
  try dsimp only
  repeat' (first | (with_reducible assumption) | (with_reducible rfl) | (with_reducible apply next_inv) | (with_reducible refine inv_snd (by assumption) ?_) | (with_reducible refine inv_fst (by assumption) ?_) | (with_reducible apply foldl_inv; intros) | (with_reducible apply foldl_inv2; intros) | (with_reducible apply foldl_inv1; intros) | (simp only [inv_lit]; with_reducible apply keyOk_mk) | (with_reducible apply wrByte_wf) | (with_reducible apply wrBytes_wf) | (with_reducible apply inv_mem) | (with_reducible apply inv_outer) | (exact memWf_nil) | (intro _) | (with_reducible refine (id ?_ : List.length _ = List.length _); simp; done) | split | dsimp only)

theorem State.saveOne_inv (s : State) (r : RunId) (c : Nat) (hI : s.Inv) : (State.saveOne s r c).Inv := by
  unfold State.saveOne
  try dsimp only
  repeat' (first | (with_reducible assumption) | (with_reducible rfl) | (with_reducible apply next_inv) | (with_reducible refine inv_snd (by assumption) ?_) | (with_reducible refine inv_fst (by assumption) ?_) | (with_reducible apply foldl_inv; intros) | (with_reducible apply foldl_inv2; intros) | (with_reducible apply foldl_inv1; intros) | (simp only [inv_lit]; with_reducible apply keyOk_mk) | (with_reducible apply wrByte_wf) | (with_reducible apply wrBytes_wf) | (with_reducible apply inv_mem) | (with_reducible apply inv_outer) | (exact memWf_nil) | (with_reducible apply State.release_inv) | (with_reducible apply State.saveArea_inv) | (with_reducible apply State.endGang_inv) | (with_reducible apply State.stopTask_inv) | (with_reducible apply State.vcStep_inv) | (with_reducible apply State.freeCluster_inv) | (with_reducible apply State.onTask_inv) | (intro _) | (with_reducible refine (id ?_ : List.length _ = List.length _); simp; done) | split | dsimp only)

theorem execCheckpointSave_inv (task gang : Nat) (s : State) (hI : s.Inv) : ResInv (execCheckpointSave task gang s) := by
  unfold execCheckpointSave
  try dsimp only
  repeat' (first | (with_reducible assumption) | (with_reducible rfl) | (with_reducible apply next_inv) | (with_reducible refine inv_snd (by assumption) ?_) | (with_reducible refine inv_fst (by assumption) ?_) | (with_reducible apply foldl_inv; intros) | (with_reducible apply foldl_inv2; intros) | (with_reducible apply foldl_inv1; intros) | (simp only [inv_lit]; with_reducible apply keyOk_mk) | (with_reducible apply wrByte_wf) | (with_reducible apply wrBytes_wf) | (with_reducible apply inv_mem) | (with_reducible apply inv_outer) | (exact memWf_nil) | (with_reducible apply State.saveOne_inv) | (intro _) | (with_reducible refine (id ?_ : List.length _ = List.length _); simp; done) | split | dsimp only)

theorem State.undefinedRun_inv (s : State) (c : Nat) (hI : s.Inv) : (State.undefinedRun s c).Inv := by
  unfold State.undefinedRun
  try dsimp only
  repeat' (first | (with_reducible assumption) | (with_reducible rfl) | (with_reducible apply next_inv) | (with_reducible refine inv_snd (by assumption) ?_) | (with_reducible refine inv_fst (by assumption) ?_) | (with_reducible apply foldl_inv; intros) | (with_reducible apply foldl_inv2; intros) | (with_reducible apply foldl_inv1; intros) | (simp only [inv_lit]; with_reducible apply keyOk_mk) | (with_reducible apply wrByte_wf) | (with_reducible apply wrBytes_wf) | (with_reducible apply inv_mem) | (with_reducible apply inv_outer) | (exact memWf_nil) | (with_reducible apply onCl_inv) | (intro _) | (with_reducible refine (id ?_ : List.length _ = List.length _); simp; done) | split | dsimp only)

theorem State.resumeGang_inv (s : State) (t : Task) (g : Gang) (pl : List (Nat × Nat)) (hI : s.Inv) : (State.resumeGang s t g pl).Inv := by
  unfold State.resumeGang
  try dsimp only
  repeat' (first | (with_reducible assumption) | (with_reducible rfl) | (with_reducible apply next_inv) | (with_reducible refine inv_snd (by assumption) ?_) | (with_reducible refine inv_fst (by assumption) ?_) | (with_reducible apply foldl_inv; intros) | (with_reducible apply foldl_inv2; intros) | (with_reducible apply foldl_inv1; intros) | (simp only [inv_lit]; with_reducible apply keyOk_mk) | (with_reducible apply wrByte_wf) | (with_reducible apply wrBytes_wf) | (with_reducible apply inv_mem) | (with_reducible apply inv_outer) | (exact memWf_nil) | (with_reducible apply State.dispatched_inv) | (with_reducible apply State.pace_inv) | (with_reducible apply State.onTask_inv) | (with_reducible apply State.readArea_inv) | (with_reducible apply onCl_inv) | (with_reducible apply State.undefinedRun_inv) | (with_reducible apply State.acquire_inv) | (with_reducible apply State.reseedAll_inv) | (with_reducible apply State.lineIn_inv) | (with_reducible apply State.endGang_inv) | (with_reducible apply State.stopTask_inv) | (intro _) | (with_reducible refine (id ?_ : List.length _ = List.length _); simp; done) | split | dsimp only)

theorem execGangResume_inv (task gang : Nat) (s : State) (hI : s.Inv) : ResInv (execGangResume task gang s) := by
  unfold execGangResume
  try dsimp only
  repeat' (first | (with_reducible assumption) | (with_reducible rfl) | (with_reducible apply next_inv) | (with_reducible refine inv_snd (by assumption) ?_) | (with_reducible refine inv_fst (by assumption) ?_) | (with_reducible apply foldl_inv; intros) | (with_reducible apply foldl_inv2; intros) | (with_reducible apply foldl_inv1; intros) | (simp only [inv_lit]; with_reducible apply keyOk_mk) | (with_reducible apply wrByte_wf) | (with_reducible apply wrBytes_wf) | (with_reducible apply inv_mem) | (with_reducible apply inv_outer) | (exact memWf_nil) | (with_reducible apply State.claim_inv) | (with_reducible apply State.resumeGang_inv) | (intro _) | (with_reducible refine (id ?_ : List.length _ = List.length _); simp; done) | split | dsimp only)

theorem State.memberDone_inv (s : State) (r : RunId) (c : Nat) (hI : s.Inv) : (State.memberDone s r c).Inv := by
  unfold State.memberDone
  try dsimp only
  repeat' (first | (with_reducible assumption) | (with_reducible rfl) | (with_reducible apply next_inv) | (with_reducible refine inv_snd (by assumption) ?_) | (with_reducible refine inv_fst (by assumption) ?_) | (with_reducible apply foldl_inv; intros) | (with_reducible apply foldl_inv2; intros) | (with_reducible apply foldl_inv1; intros) | (simp only [inv_lit]; with_reducible apply keyOk_mk) | (with_reducible apply wrByte_wf) | (with_reducible apply wrBytes_wf) | (with_reducible apply inv_mem) | (with_reducible apply inv_outer) | (exact memWf_nil) | (with_reducible apply State.onTask_inv) | (with_reducible apply State.checkFinal_inv) | (intro _) | (with_reducible refine (id ?_ : List.length _ = List.length _); simp; done) | split | dsimp only)

theorem State.endScope_inv (s : State) (r : RunId) (hI : s.Inv) : (State.endScope s r).2.Inv := by
  unfold State.endScope
  try dsimp only
  repeat' (first | (with_reducible assumption) | (with_reducible rfl) | (with_reducible apply next_inv) | (with_reducible refine inv_snd (by assumption) ?_) | (with_reducible refine inv_fst (by assumption) ?_) | (with_reducible apply foldl_inv; intros) | (with_reducible apply foldl_inv2; intros) | (with_reducible apply foldl_inv1; intros) | (simp only [inv_lit]; with_reducible apply keyOk_mk) | (with_reducible apply wrByte_wf) | (with_reducible apply wrBytes_wf) | (with_reducible apply inv_mem) | (with_reducible apply inv_outer) | (exact memWf_nil) | (with_reducible apply State.onTask_inv) | (with_reducible apply State.release_inv) | (intro _) | (with_reducible refine (id ?_ : List.length _ = List.length _); simp; done) | split | dsimp only)

theorem State.endRelease_inv (s : State) (c : Nat) (r : RunId) (hI : s.Inv) : (State.endRelease s c r).Inv := by
  unfold State.endRelease
  try dsimp only
  repeat' (first | (with_reducible assumption) | (with_reducible rfl) | (with_reducible apply next_inv) | (with_reducible refine inv_snd (by assumption) ?_) | (with_reducible refine inv_fst (by assumption) ?_) | (with_reducible apply foldl_inv; intros) | (with_reducible apply foldl_inv2; intros) | (with_reducible apply foldl_inv1; intros) | (simp only [inv_lit]; with_reducible apply keyOk_mk) | (with_reducible apply wrByte_wf) | (with_reducible apply wrBytes_wf) | (with_reducible apply inv_mem) | (with_reducible apply inv_outer) | (exact memWf_nil) | (with_reducible apply State.mergeAll_inv) | (with_reducible apply State.endScope_inv) | (with_reducible apply State.flushPeer_inv) | (with_reducible apply State.vcStep_inv) | (with_reducible apply State.release_inv) | (intro _) | (with_reducible refine (id ?_ : List.length _ = List.length _); simp; done) | split | dsimp only)

theorem execRunEnd_inv (c : BitVec 4) (s : State) (hI : s.Inv) : ResInv (execRunEnd c s) := by
  unfold execRunEnd
  try dsimp only
  repeat' (first | (with_reducible assumption) | (with_reducible rfl) | (with_reducible apply next_inv) | (with_reducible refine inv_snd (by assumption) ?_) | (with_reducible refine inv_fst (by assumption) ?_) | (with_reducible apply foldl_inv; intros) | (with_reducible apply foldl_inv2; intros) | (with_reducible apply foldl_inv1; intros) | (simp only [inv_lit]; with_reducible apply keyOk_mk) | (with_reducible apply wrByte_wf) | (with_reducible apply wrBytes_wf) | (with_reducible apply inv_mem) | (with_reducible apply inv_outer) | (exact memWf_nil) | (with_reducible apply onCl_inv) | (with_reducible apply State.endRelease_inv) | (with_reducible apply State.freeCluster_inv) | (with_reducible apply State.memberDone_inv) | (intro _) | (with_reducible refine (id ?_ : List.length _ = List.length _); simp; done) | split | dsimp only)

theorem execLnchAnswer_inv (c : BitVec 4) (s : State) (hI : s.Inv) : ResInv (execLnchAnswer c s) := by
  unfold execLnchAnswer
  try dsimp only
  repeat' (first | (with_reducible assumption) | (with_reducible rfl) | (with_reducible apply next_inv) | (with_reducible refine inv_snd (by assumption) ?_) | (with_reducible refine inv_fst (by assumption) ?_) | (with_reducible apply foldl_inv; intros) | (with_reducible apply foldl_inv2; intros) | (with_reducible apply foldl_inv1; intros) | (simp only [inv_lit]; with_reducible apply keyOk_mk) | (with_reducible apply wrByte_wf) | (with_reducible apply wrBytes_wf) | (with_reducible apply inv_mem) | (with_reducible apply inv_outer) | (exact memWf_nil) | (with_reducible apply State.settle_inv) | (with_reducible apply State.release_inv) | (with_reducible apply State.vcStep_inv) | (with_reducible apply State.farReadAt_inv) | (with_reducible apply State.submit_inv) | (with_reducible apply State.dropHold_inv) | (with_reducible apply State.holdWrite_inv) | (with_reducible apply State.setHold_inv) | (with_reducible apply State.replay_inv) | (with_reducible apply State.holdFails_inv) | (intro _) | (with_reducible refine (id ?_ : List.length _ = List.length _); simp; done) | split | dsimp only)

theorem State.killTask_inv (s : State) (t : Task) (hI : s.Inv) : (State.killTask s t).Inv := by
  unfold State.killTask
  try dsimp only
  repeat' (first | (with_reducible assumption) | (with_reducible rfl) | (with_reducible apply next_inv) | (with_reducible refine inv_snd (by assumption) ?_) | (with_reducible refine inv_fst (by assumption) ?_) | (with_reducible apply foldl_inv; intros) | (with_reducible apply foldl_inv2; intros) | (with_reducible apply foldl_inv1; intros) | (simp only [inv_lit]; with_reducible apply keyOk_mk) | (with_reducible apply wrByte_wf) | (with_reducible apply wrBytes_wf) | (with_reducible apply inv_mem) | (with_reducible apply inv_outer) | (exact memWf_nil) | (with_reducible apply State.endGang_inv) | (with_reducible apply State.onTask_inv) | (with_reducible apply State.stopTask_inv) | (intro _) | (with_reducible refine (id ?_ : List.length _ = List.length _); simp; done) | split | dsimp only)

theorem State.killTasks_inv (s : State) (ctx : BitVec 12) (hI : s.Inv) : (State.killTasks s ctx).Inv := by
  unfold State.killTasks
  try dsimp only
  repeat' (first | (with_reducible assumption) | (with_reducible rfl) | (with_reducible apply next_inv) | (with_reducible refine inv_snd (by assumption) ?_) | (with_reducible refine inv_fst (by assumption) ?_) | (with_reducible apply foldl_inv; intros) | (with_reducible apply foldl_inv2; intros) | (with_reducible apply foldl_inv1; intros) | (simp only [inv_lit]; with_reducible apply keyOk_mk) | (with_reducible apply wrByte_wf) | (with_reducible apply wrBytes_wf) | (with_reducible apply inv_mem) | (with_reducible apply inv_outer) | (exact memWf_nil) | (with_reducible apply State.killTask_inv) | (intro _) | (with_reducible refine (id ?_ : List.length _ = List.length _); simp; done) | split | dsimp only)

theorem State.killBozoak_inv (s : State) (ctx : BitVec 12) (hI : s.Inv) : (State.killBozoak s ctx).Inv := by
  unfold State.killBozoak
  try dsimp only
  repeat' (first | (with_reducible assumption) | (with_reducible rfl) | (with_reducible apply next_inv) | (with_reducible refine inv_snd (by assumption) ?_) | (with_reducible refine inv_fst (by assumption) ?_) | (with_reducible apply foldl_inv; intros) | (with_reducible apply foldl_inv2; intros) | (with_reducible apply foldl_inv1; intros) | (simp only [inv_lit]; with_reducible apply keyOk_mk) | (with_reducible apply wrByte_wf) | (with_reducible apply wrBytes_wf) | (with_reducible apply inv_mem) | (with_reducible apply inv_outer) | (exact memWf_nil) | (with_reducible apply State.barForget_inv) | (intro _) | (with_reducible refine (id ?_ : List.length _ = List.length _); simp; done) | split | dsimp only)

theorem execKill_inv (ctx : BitVec 12) (s : State) (hI : s.Inv) : ResInv (execKill ctx s) := by
  unfold execKill
  try dsimp only
  repeat' (first | (with_reducible assumption) | (with_reducible rfl) | (with_reducible apply next_inv) | (with_reducible refine inv_snd (by assumption) ?_) | (with_reducible refine inv_fst (by assumption) ?_) | (with_reducible apply foldl_inv; intros) | (with_reducible apply foldl_inv2; intros) | (with_reducible apply foldl_inv1; intros) | (simp only [inv_lit]; with_reducible apply keyOk_mk) | (with_reducible apply wrByte_wf) | (with_reducible apply wrBytes_wf) | (with_reducible apply inv_mem) | (with_reducible apply inv_outer) | (exact memWf_nil) | (with_reducible apply State.killTasks_inv) | (with_reducible apply State.killBozoak_inv) | (with_reducible apply State.killPeer_inv) | (intro _) | (with_reducible refine (id ?_ : List.length _ = List.length _); simp; done) | split | dsimp only)

theorem execKilldone_inv (ctx : BitVec 12) (s : State) (hI : s.Inv) : ResInv (execKilldone ctx s) := by
  unfold execKilldone
  try dsimp only
  repeat' (first | (with_reducible assumption) | (with_reducible rfl) | (with_reducible apply next_inv) | (with_reducible refine inv_snd (by assumption) ?_) | (with_reducible refine inv_fst (by assumption) ?_) | (with_reducible apply foldl_inv; intros) | (with_reducible apply foldl_inv2; intros) | (with_reducible apply foldl_inv1; intros) | (simp only [inv_lit]; with_reducible apply keyOk_mk) | (with_reducible apply wrByte_wf) | (with_reducible apply wrBytes_wf) | (with_reducible apply inv_mem) | (with_reducible apply inv_outer) | (exact memWf_nil) | (intro _) | (with_reducible refine (id ?_ : List.length _ = List.length _); simp; done) | split | dsimp only)

theorem State.vacate_inv (s : State) (c : Nat) (hI : s.Inv) : (State.vacate s c).Inv := by
  unfold State.vacate
  try dsimp only
  repeat' (first | (with_reducible assumption) | (with_reducible rfl) | (with_reducible apply next_inv) | (with_reducible refine inv_snd (by assumption) ?_) | (with_reducible refine inv_fst (by assumption) ?_) | (with_reducible apply foldl_inv; intros) | (with_reducible apply foldl_inv2; intros) | (with_reducible apply foldl_inv1; intros) | (simp only [inv_lit]; with_reducible apply keyOk_mk) | (with_reducible apply wrByte_wf) | (with_reducible apply wrBytes_wf) | (with_reducible apply inv_mem) | (with_reducible apply inv_outer) | (exact memWf_nil) | (with_reducible apply State.freeCluster_inv) | (with_reducible apply State.evict_inv) | (intro _) | (with_reducible refine (id ?_ : List.length _ = List.length _); simp; done) | split | dsimp only)

theorem State.maintRun_inv (s : State) (c : Nat) (hI : s.Inv) : (State.maintRun s c).Inv := by
  unfold State.maintRun
  try dsimp only
  repeat' (first | (with_reducible assumption) | (with_reducible rfl) | (with_reducible apply next_inv) | (with_reducible refine inv_snd (by assumption) ?_) | (with_reducible refine inv_fst (by assumption) ?_) | (with_reducible apply foldl_inv; intros) | (with_reducible apply foldl_inv2; intros) | (with_reducible apply foldl_inv1; intros) | (simp only [inv_lit]; with_reducible apply keyOk_mk) | (with_reducible apply wrByte_wf) | (with_reducible apply wrBytes_wf) | (with_reducible apply inv_mem) | (with_reducible apply inv_outer) | (exact memWf_nil) | (with_reducible apply onCl_inv) | (with_reducible apply State.reseedAll_inv) | (with_reducible apply State.free_inv) | (intro _) | (with_reducible refine (id ?_ : List.length _ = List.length _); simp; done) | split | dsimp only)

theorem execMaintenanceRun_inv (c : BitVec 4) (s : State) (hI : s.Inv) : ResInv (execMaintenanceRun c s) := by
  unfold execMaintenanceRun
  try dsimp only
  repeat' (first | (with_reducible assumption) | (with_reducible rfl) | (with_reducible apply next_inv) | (with_reducible refine inv_snd (by assumption) ?_) | (with_reducible refine inv_fst (by assumption) ?_) | (with_reducible apply foldl_inv; intros) | (with_reducible apply foldl_inv2; intros) | (with_reducible apply foldl_inv1; intros) | (simp only [inv_lit]; with_reducible apply keyOk_mk) | (with_reducible apply wrByte_wf) | (with_reducible apply wrBytes_wf) | (with_reducible apply inv_mem) | (with_reducible apply inv_outer) | (exact memWf_nil) | (with_reducible apply State.maintRun_inv) | (with_reducible apply State.vacate_inv) | (intro _) | (with_reducible refine (id ?_ : List.length _ = List.length _); simp; done) | split | dsimp only)

/-! ### Debug -/

theorem execHalt_inv (c : BitVec 4) (s : State) (hI : s.Inv) : ResInv (execHalt c s) := by
  unfold execHalt
  try dsimp only
  repeat' (first | (with_reducible assumption) | (with_reducible rfl) | (with_reducible apply next_inv) | (with_reducible refine inv_snd (by assumption) ?_) | (with_reducible refine inv_fst (by assumption) ?_) | (with_reducible apply foldl_inv; intros) | (with_reducible apply foldl_inv2; intros) | (with_reducible apply foldl_inv1; intros) | (simp only [inv_lit]; with_reducible apply keyOk_mk) | (with_reducible apply wrByte_wf) | (with_reducible apply wrBytes_wf) | (with_reducible apply inv_mem) | (with_reducible apply inv_outer) | (exact memWf_nil) | (with_reducible apply onCl_inv) | (intro _) | (with_reducible refine (id ?_ : List.length _ = List.length _); simp; done) | split | dsimp only)

theorem execResume_inv (c : BitVec 4) (s : State) (hI : s.Inv) : ResInv (execResume c s) := by
  unfold execResume
  try dsimp only
  repeat' (first | (with_reducible assumption) | (with_reducible rfl) | (with_reducible apply next_inv) | (with_reducible refine inv_snd (by assumption) ?_) | (with_reducible refine inv_fst (by assumption) ?_) | (with_reducible apply foldl_inv; intros) | (with_reducible apply foldl_inv2; intros) | (with_reducible apply foldl_inv1; intros) | (simp only [inv_lit]; with_reducible apply keyOk_mk) | (with_reducible apply wrByte_wf) | (with_reducible apply wrBytes_wf) | (with_reducible apply inv_mem) | (with_reducible apply inv_outer) | (exact memWf_nil) | (with_reducible apply onCl_inv) | (with_reducible apply State.release_inv) | (intro _) | (with_reducible refine (id ?_ : List.length _ = List.length _); simp; done) | split | dsimp only)

theorem execStep_inv (c : BitVec 4) (s : State) (hI : s.Inv) : ResInv (execStep c s) := by
  unfold execStep
  try dsimp only
  repeat' (first | (with_reducible assumption) | (with_reducible rfl) | (with_reducible apply next_inv) | (with_reducible refine inv_snd (by assumption) ?_) | (with_reducible refine inv_fst (by assumption) ?_) | (with_reducible apply foldl_inv; intros) | (with_reducible apply foldl_inv2; intros) | (with_reducible apply foldl_inv1; intros) | (simp only [inv_lit]; with_reducible apply keyOk_mk) | (with_reducible apply wrByte_wf) | (with_reducible apply wrBytes_wf) | (with_reducible apply inv_mem) | (with_reducible apply inv_outer) | (exact memWf_nil) | (with_reducible apply onCl_inv) | (with_reducible apply State.release_inv) | (intro _) | (with_reducible refine (id ?_ : List.length _ = List.length _); simp; done) | split | dsimp only)

theorem execRdreg_inv (c : BitVec 4) (r : DbgReg) (s : State) (hI : s.Inv) : ResInv (execRdreg c r s) := by
  unfold execRdreg
  try dsimp only
  repeat' (first | (with_reducible assumption) | (with_reducible rfl) | (with_reducible apply next_inv) | (with_reducible refine inv_snd (by assumption) ?_) | (with_reducible refine inv_fst (by assumption) ?_) | (with_reducible apply foldl_inv; intros) | (with_reducible apply foldl_inv2; intros) | (with_reducible apply foldl_inv1; intros) | (simp only [inv_lit]; with_reducible apply keyOk_mk) | (with_reducible apply wrByte_wf) | (with_reducible apply wrBytes_wf) | (with_reducible apply inv_mem) | (with_reducible apply inv_outer) | (exact memWf_nil) | (intro _) | (with_reducible refine (id ?_ : List.length _ = List.length _); simp; done) | split | dsimp only)

theorem execWrreg_inv (c : BitVec 4) (r : DbgReg) (v : BitVec 2048) (s : State) (hI : s.Inv) : ResInv (execWrreg c r v s) := by
  unfold execWrreg
  try dsimp only
  repeat' (first | (with_reducible assumption) | (with_reducible rfl) | (with_reducible apply next_inv) | (with_reducible refine inv_snd (by assumption) ?_) | (with_reducible refine inv_fst (by assumption) ?_) | (with_reducible apply foldl_inv; intros) | (with_reducible apply foldl_inv2; intros) | (with_reducible apply foldl_inv1; intros) | (simp only [inv_lit]; with_reducible apply keyOk_mk) | (with_reducible apply wrByte_wf) | (with_reducible apply wrBytes_wf) | (with_reducible apply inv_mem) | (with_reducible apply inv_outer) | (exact memWf_nil) | (with_reducible apply onCl_inv) | (with_reducible apply State.preXlate_inv) | (intro _) | (with_reducible refine (id ?_ : List.length _ = List.length _); simp; done) | split | dsimp only)

theorem execRdimg_inv (c : BitVec 4) (core : Option (BitVec 8)) (s : State) (hI : s.Inv) : ResInv (execRdimg c core s) := by
  unfold execRdimg
  try dsimp only
  repeat' (first | (with_reducible assumption) | (with_reducible rfl) | (with_reducible apply next_inv) | (with_reducible refine inv_snd (by assumption) ?_) | (with_reducible refine inv_fst (by assumption) ?_) | (with_reducible apply foldl_inv; intros) | (with_reducible apply foldl_inv2; intros) | (with_reducible apply foldl_inv1; intros) | (simp only [inv_lit]; with_reducible apply keyOk_mk) | (with_reducible apply wrByte_wf) | (with_reducible apply wrBytes_wf) | (with_reducible apply inv_mem) | (with_reducible apply inv_outer) | (exact memWf_nil) | (intro _) | (with_reducible refine (id ?_ : List.length _ = List.length _); simp; done) | split | dsimp only)

theorem execEdimg_inv (c : BitVec 4) (core : BitVec 8) (entry : Nat) (e : ImgEdit) (s : State) (hI : s.Inv) : ResInv (execEdimg c core entry e s) := by
  unfold execEdimg
  try dsimp only
  repeat' (first | (with_reducible assumption) | (with_reducible rfl) | (with_reducible apply next_inv) | (with_reducible refine inv_snd (by assumption) ?_) | (with_reducible refine inv_fst (by assumption) ?_) | (with_reducible apply foldl_inv; intros) | (with_reducible apply foldl_inv2; intros) | (with_reducible apply foldl_inv1; intros) | (simp only [inv_lit]; with_reducible apply keyOk_mk) | (with_reducible apply wrByte_wf) | (with_reducible apply wrBytes_wf) | (with_reducible apply inv_mem) | (with_reducible apply inv_outer) | (exact memWf_nil) | (with_reducible apply onCl_inv) | (intro _) | (with_reducible refine (id ?_ : List.length _ = List.length _); simp; done) | split | dsimp only)

/-! ### Platform -/

theorem State.bindClocks_inv (s : State) (ctx : BitVec 12) (hI : s.Inv) : (State.bindClocks s ctx).Inv := by
  unfold State.bindClocks
  try dsimp only
  repeat' (first | (with_reducible assumption) | (with_reducible rfl) | (with_reducible apply next_inv) | (with_reducible refine inv_snd (by assumption) ?_) | (with_reducible refine inv_fst (by assumption) ?_) | (with_reducible apply foldl_inv; intros) | (with_reducible apply foldl_inv2; intros) | (with_reducible apply foldl_inv1; intros) | (simp only [inv_lit]; with_reducible apply keyOk_mk) | (with_reducible apply wrByte_wf) | (with_reducible apply wrBytes_wf) | (with_reducible apply inv_mem) | (with_reducible apply inv_outer) | (exact memWf_nil) | (intro _) | (with_reducible refine (id ?_ : List.length _ = List.length _); simp; done) | split | dsimp only)

theorem execContextDescriptorWrite_inv (ctx : BitVec 12) (v : BitVec 64) (s : State) (hI : s.Inv) : ResInv (execContextDescriptorWrite ctx v s) := by
  unfold execContextDescriptorWrite
  try dsimp only
  repeat' (first | (with_reducible assumption) | (with_reducible rfl) | (with_reducible apply next_inv) | (with_reducible refine inv_snd (by assumption) ?_) | (with_reducible refine inv_fst (by assumption) ?_) | (with_reducible apply foldl_inv; intros) | (with_reducible apply foldl_inv2; intros) | (with_reducible apply foldl_inv1; intros) | (simp only [inv_lit]; with_reducible apply keyOk_mk) | (with_reducible apply wrByte_wf) | (with_reducible apply wrBytes_wf) | (with_reducible apply inv_mem) | (with_reducible apply inv_outer) | (exact memWf_nil) | (with_reducible apply State.bindClocks_inv) | (intro _) | (with_reducible refine (id ?_ : List.length _ = List.length _); simp; done) | split | dsimp only)

theorem State.dropTlb_inv (s : State) (ctx : BitVec 12) (lo hi : BitVec 57) (hI : s.Inv) : (State.dropTlb s ctx lo hi).Inv := by
  unfold State.dropTlb
  try dsimp only
  repeat' (first | (with_reducible assumption) | (with_reducible rfl) | (with_reducible apply next_inv) | (with_reducible refine inv_snd (by assumption) ?_) | (with_reducible refine inv_fst (by assumption) ?_) | (with_reducible apply foldl_inv; intros) | (with_reducible apply foldl_inv2; intros) | (with_reducible apply foldl_inv1; intros) | (simp only [inv_lit]; with_reducible apply keyOk_mk) | (with_reducible apply wrByte_wf) | (with_reducible apply wrBytes_wf) | (with_reducible apply inv_mem) | (with_reducible apply inv_outer) | (exact memWf_nil) | (intro _) | (with_reducible refine (id ?_ : List.length _ = List.length _); simp; done) | split | dsimp only)

theorem execTlbInvalidation_inv (ctx : BitVec 12) (lo hi : BitVec 57) (s : State) (hI : s.Inv) : ResInv (execTlbInvalidation ctx lo hi s) := by
  unfold execTlbInvalidation
  try dsimp only
  repeat' (first | (with_reducible assumption) | (with_reducible rfl) | (with_reducible apply next_inv) | (with_reducible refine inv_snd (by assumption) ?_) | (with_reducible refine inv_fst (by assumption) ?_) | (with_reducible apply foldl_inv; intros) | (with_reducible apply foldl_inv2; intros) | (with_reducible apply foldl_inv1; intros) | (simp only [inv_lit]; with_reducible apply keyOk_mk) | (with_reducible apply wrByte_wf) | (with_reducible apply wrBytes_wf) | (with_reducible apply inv_mem) | (with_reducible apply inv_outer) | (exact memWf_nil) | (with_reducible apply State.dropTlb_inv) | (with_reducible apply State.free_inv) | (with_reducible apply State.translate_inv) | (intro _) | (with_reducible refine (id ?_ : List.length _ = List.length _); simp; done) | split | dsimp only)

theorem execTlbInvalidationComplete_inv (ctx : BitVec 12) (lo hi : BitVec 57) (s : State) (hI : s.Inv) : ResInv (execTlbInvalidationComplete ctx lo hi s) := by
  unfold execTlbInvalidationComplete
  try dsimp only
  repeat' (first | (with_reducible assumption) | (with_reducible rfl) | (with_reducible apply next_inv) | (with_reducible refine inv_snd (by assumption) ?_) | (with_reducible refine inv_fst (by assumption) ?_) | (with_reducible apply foldl_inv; intros) | (with_reducible apply foldl_inv2; intros) | (with_reducible apply foldl_inv1; intros) | (simp only [inv_lit]; with_reducible apply keyOk_mk) | (with_reducible apply wrByte_wf) | (with_reducible apply wrBytes_wf) | (with_reducible apply inv_mem) | (with_reducible apply inv_outer) | (exact memWf_nil) | (with_reducible apply State.dropTlb_inv) | (intro _) | (with_reducible refine (id ?_ : List.length _ = List.length _); simp; done) | split | dsimp only)

theorem execSnapshotDescriptorWrite_inv (i : BitVec 4) (v : BitVec 512) (s : State) (hI : s.Inv) : ResInv (execSnapshotDescriptorWrite i v s) := by
  unfold execSnapshotDescriptorWrite
  try dsimp only
  repeat' (first | (with_reducible assumption) | (with_reducible rfl) | (with_reducible apply next_inv) | (with_reducible refine inv_snd (by assumption) ?_) | (with_reducible refine inv_fst (by assumption) ?_) | (with_reducible apply foldl_inv; intros) | (with_reducible apply foldl_inv2; intros) | (with_reducible apply foldl_inv1; intros) | (simp only [inv_lit]; with_reducible apply keyOk_mk) | (with_reducible apply wrByte_wf) | (with_reducible apply wrBytes_wf) | (with_reducible apply inv_mem) | (with_reducible apply inv_outer) | (exact memWf_nil) | (intro _) | (with_reducible refine (id ?_ : List.length _ = List.length _); simp; done) | split | dsimp only)

theorem execSnaproll_inv (i : BitVec 4) (s : State) (hI : s.Inv) : ResInv (execSnaproll i s) := by
  unfold execSnaproll
  try dsimp only
  repeat' (first | (with_reducible assumption) | (with_reducible rfl) | (with_reducible apply next_inv) | (with_reducible refine inv_snd (by assumption) ?_) | (with_reducible refine inv_fst (by assumption) ?_) | (with_reducible apply foldl_inv; intros) | (with_reducible apply foldl_inv2; intros) | (with_reducible apply foldl_inv1; intros) | (simp only [inv_lit]; with_reducible apply keyOk_mk) | (with_reducible apply wrByte_wf) | (with_reducible apply wrBytes_wf) | (with_reducible apply inv_mem) | (with_reducible apply inv_outer) | (exact memWf_nil) | (intro _) | (with_reducible refine (id ?_ : List.length _ = List.length _); simp; done) | split | dsimp only)

theorem execPeerWindowWrite_inv (i : BitVec 4) (v : BitVec 128) (s : State) (hI : s.Inv) : ResInv (execPeerWindowWrite i v s) := by
  unfold execPeerWindowWrite
  try dsimp only
  repeat' (first | (with_reducible assumption) | (with_reducible rfl) | (with_reducible apply next_inv) | (with_reducible refine inv_snd (by assumption) ?_) | (with_reducible refine inv_fst (by assumption) ?_) | (with_reducible apply foldl_inv; intros) | (with_reducible apply foldl_inv2; intros) | (with_reducible apply foldl_inv1; intros) | (simp only [inv_lit]; with_reducible apply keyOk_mk) | (with_reducible apply wrByte_wf) | (with_reducible apply wrBytes_wf) | (with_reducible apply inv_mem) | (with_reducible apply inv_outer) | (exact memWf_nil) | (refine State.viaHost_inv _ _ ?_ (by assumption); try dsimp only) | (intro _) | (with_reducible refine (id ?_ : List.length _ = List.length _); simp; done) | split | dsimp only)

theorem inv_bz {s t : State} (h : s.Inv) (ht : t.Inv) : State.Inv { s with bz := t.bz } := ⟨h.1, ⟨h.2.1.1, ht.2.1.2.1, h.2.1.2.2⟩, h.2.2⟩

theorem State.outsideAccess_inv (s : State) (peer : Bool) (k : AccKind) (a : Nat) (data : List Byte) (hI : s.Inv) : (State.outsideAccess s peer k a data).Inv := by
  have h0 : ((linesOf a data.length).foldl State.recall s).Inv := foldl_inv (fun s x h => State.recall_inv s x h) hI
  unfold State.outsideAccess
  generalize (linesOf a data.length).foldl State.recall s = t at h0 ⊢
  split
  · exact State.hBytes_inv s _ _ hI
  · split
    · exact State.land_inv _ _ _ hI
    · exact State.hPut_inv _ _ _ hI
  · have h := State.atomTarget_inv t 4 (.hbm a) .add false (data.length == 8) .none (leWord data) 0#64 false [] h0
    dsimp only
    revert h
    generalize (t.atomTarget 4 (.hbm a) .add false (data.length == 8) .none (leWord data) 0#64 false []).2 = u
    intro h
    split
    · exact inv_bz h h0
    · exact h
  · dsimp only
    generalize AccKind.size _ data.length = n
    generalize leWord (data.take n) = x
    generalize leWord (data.drop n) = y
    generalize (n == 8) = w
    next op sgn =>
    have h := State.atomTarget_inv s 4 (.hbm a) op sgn w .none x y true [] hI
    revert h
    generalize s.atomTarget 4 (.hbm a) op sgn w .none x y true [] = q
    exact fun h => h
  · exact State.tagAt_inv _ _ _ (State.hbmWrite_inv _ _ _ (State.hbmRead_inv _ _ _ hI))

theorem State.noteHost_inv (s : State) (a n : Nat) (hI : s.Inv) : (State.noteHost s a n).Inv := by
  unfold State.noteHost
  try dsimp only
  repeat' (first | (with_reducible assumption) | (with_reducible rfl) | (with_reducible apply next_inv) | (with_reducible refine inv_snd (by assumption) ?_) | (with_reducible refine inv_fst (by assumption) ?_) | (with_reducible apply foldl_inv; intros) | (with_reducible apply foldl_inv2; intros) | (with_reducible apply foldl_inv1; intros) | (simp only [inv_lit]; with_reducible apply keyOk_mk) | (with_reducible apply wrByte_wf) | (with_reducible apply wrBytes_wf) | (with_reducible apply inv_mem) | (with_reducible apply inv_outer) | (exact memWf_nil) | (intro _) | (with_reducible refine (id ?_ : List.length _ = List.length _); simp; done) | split | dsimp only)

theorem execPeerInboundRequest_inv (src : BitVec 12) (k : AccKind) (off : BitVec 39) (data : List Byte) (s : State) (hI : s.Inv) : ResInv (execPeerInboundRequest src k off data s) := by
  unfold execPeerInboundRequest
  try dsimp only
  repeat' (first | (with_reducible assumption) | (with_reducible rfl) | (with_reducible apply next_inv) | (with_reducible refine inv_snd (by assumption) ?_) | (with_reducible refine inv_fst (by assumption) ?_) | (with_reducible apply foldl_inv; intros) | (with_reducible apply foldl_inv2; intros) | (with_reducible apply foldl_inv1; intros) | (simp only [inv_lit]; with_reducible apply keyOk_mk) | (with_reducible apply wrByte_wf) | (with_reducible apply wrBytes_wf) | (with_reducible apply inv_mem) | (with_reducible apply inv_outer) | (exact memWf_nil) | (with_reducible apply State.outsideAccess_inv) | (intro _) | (with_reducible refine (id ?_ : List.length _ = List.length _); simp; done) | split | dsimp only)

theorem execHostHdmAccess_inv (k : AccKind) (addr : BitVec 39) (data : List Byte) (s : State) (hI : s.Inv) : ResInv (execHostHdmAccess k addr data s) := by
  unfold execHostHdmAccess
  try dsimp only
  repeat' (first | (with_reducible assumption) | (with_reducible rfl) | (with_reducible apply next_inv) | (with_reducible refine inv_snd (by assumption) ?_) | (with_reducible refine inv_fst (by assumption) ?_) | (with_reducible apply foldl_inv; intros) | (with_reducible apply foldl_inv2; intros) | (with_reducible apply foldl_inv1; intros) | (simp only [inv_lit]; with_reducible apply keyOk_mk) | (with_reducible apply wrByte_wf) | (with_reducible apply wrBytes_wf) | (with_reducible apply inv_mem) | (with_reducible apply inv_outer) | (exact memWf_nil) | (with_reducible apply State.outsideAccess_inv) | (with_reducible apply State.noteHost_inv) | (intro _) | (with_reducible refine (id ?_ : List.length _ = List.length _); simp; done) | split | dsimp only)

theorem State.bzRegWrite_inv (s : State) (via : Via) (k : BitVec 4) (off : Nat) (v : BitVec 64) (hI : s.Inv) : ResInv (State.bzRegWrite s via k off v) := by
  unfold State.bzRegWrite
  try dsimp only
  repeat' (first | (with_reducible assumption) | (with_reducible rfl) | (with_reducible apply next_inv) | (with_reducible refine inv_snd (by assumption) ?_) | (with_reducible refine inv_fst (by assumption) ?_) | (with_reducible apply foldl_inv; intros) | (with_reducible apply foldl_inv2; intros) | (with_reducible apply foldl_inv1; intros) | (simp only [inv_lit]; with_reducible apply keyOk_mk) | (with_reducible apply wrByte_wf) | (with_reducible apply wrBytes_wf) | (with_reducible apply inv_mem) | (with_reducible apply inv_outer) | (exact memWf_nil) | (with_reducible apply State.onBz_inv) | (with_reducible apply execBzcmdStart_inv) | (with_reducible apply execBzcmdStop_inv) | (with_reducible apply execBzcmdClrcnt_inv) | (with_reducible apply execBzbindWrite_inv) | (intro _) | (with_reducible refine (id ?_ : List.length _ = List.length _); simp; done) | split | dsimp only)

theorem execRegisterWrite_inv (off : BitVec 22) (v : BitVec 64) (s : State) (hI : s.Inv) : ResInv (execRegisterWrite off v s) := by
  unfold execRegisterWrite
  try dsimp only
  repeat' (first | (with_reducible assumption) | (with_reducible rfl) | (with_reducible apply next_inv) | (with_reducible refine inv_snd (by assumption) ?_) | (with_reducible refine inv_fst (by assumption) ?_) | (with_reducible apply foldl_inv; intros) | (with_reducible apply foldl_inv2; intros) | (with_reducible apply foldl_inv1; intros) | (simp only [inv_lit]; with_reducible apply keyOk_mk) | (with_reducible apply wrByte_wf) | (with_reducible apply wrBytes_wf) | (with_reducible apply inv_mem) | (with_reducible apply inv_outer) | (exact memWf_nil) | (with_reducible apply State.onWin_inv) | (with_reducible apply execHostLaunchDoorbell_inv) | (with_reducible apply execCompletionHeadWrite_inv) | (with_reducible apply State.bzRegWrite_inv) | (intro _) | (with_reducible refine (id ?_ : List.length _ = List.length _); simp; done) | split | dsimp only)

theorem execPcapWrite_inv (watts : BitVec 32) (s : State) (hI : s.Inv) : ResInv (execPcapWrite watts s) := by
  have h := hI.2.2.1
  unfold execPcapWrite
  refine State.viaHost_inv _ _ ?_ hI
  dsimp only
  split
  · exact ⟨hI.1, hI.2.1, (by decide : 400 ≤ (2600#32).toNat ∧ (2600#32).toNat ≤ 2600), hI.2.2.2⟩
  · split
    · have hf := State.freeIn_inv s 400 2600 hI
      refine ⟨hf.1, hf.2.1, ?_, hf.2.2.2⟩
      have h2 : 400 ≤ (s.freeIn 400 2600).1 ∧ (s.freeIn 400 2600).1 ≤ 2600 := State.freeIn_range s 400 2600 (by decide)
      show 400 ≤ (BitVec.ofNat 32 (s.freeIn 400 2600).1).toNat ∧ (BitVec.ofNat 32 (s.freeIn 400 2600).1).toNat ≤ 2600
      rw [BitVec.toNat_ofNat, Nat.mod_eq_of_lt (by omega)]
      exact h2
    · exact ⟨hI.1, hI.2.1, (by omega : 400 ≤ watts.toNat ∧ watts.toNat ≤ 2600), hI.2.2.2⟩

theorem execTemperatureLimitWrite_inv (warn crit : BitVec 16) (s : State) (hI : s.Inv) : ResInv (execTemperatureLimitWrite warn crit s) := by
  unfold execTemperatureLimitWrite
  split
  · exact ⟨hI.1, hI.2.1, hI.2.2.1, by assumption, hI.2.2.2.2⟩
  · exact hI

theorem execColumnEventLimitWrite_inv (thr seconds : BitVec 32) (s : State) (hI : s.Inv) : ResInv (execColumnEventLimitWrite thr seconds s) := by
  unfold execColumnEventLimitWrite
  split
  · next h => exact ⟨hI.1, hI.2.1, hI.2.2.1, hI.2.2.2.1, ⟨h.1, h.2.1⟩, ⟨h.2.2.1, h.2.2.2⟩⟩
  · exact hI

theorem State.allot_inv (s : State) (hI : s.Inv) : (State.allot s).Inv := by
  unfold State.allot
  generalize List.range 32 = l
  have h : ∀ (l : List Nat) (a : List Nat) (n : Nat) (t : State), t.Inv → ((l.foldl (fun (l, left, (s : State)) _ =>
      let (n, s) := s.freeIn 0 left
      (l ++ [n], left - n, s)) (a, n, t)).2.2).Inv := by
    intro l
    induction l with
    | nil => exact fun a n t h => h
    | cons x l ih => exact fun a n t h => ih _ _ _ (State.freeIn_inv t 0 n h)
  have h := h l [] s.pcap.toNat s hI
  revert h
  generalize l.foldl _ ([], s.pcap.toNat, s) = q
  obtain ⟨a, b, t⟩ := q
  exact fun h => h

theorem State.grant_inv (s : State) (c : Nat) (hI : s.Inv) : (State.grant s c).2.2.Inv := by
  unfold State.grant
  try dsimp only
  repeat' (first | (with_reducible assumption) | (with_reducible rfl) | (with_reducible apply next_inv) | (with_reducible refine inv_snd (by assumption) ?_) | (with_reducible refine inv_fst (by assumption) ?_) | (with_reducible apply foldl_inv; intros) | (with_reducible apply foldl_inv2; intros) | (with_reducible apply foldl_inv1; intros) | (simp only [inv_lit]; with_reducible apply keyOk_mk) | (with_reducible apply wrByte_wf) | (with_reducible apply wrBytes_wf) | (with_reducible apply inv_mem) | (with_reducible apply inv_outer) | (exact memWf_nil) | (with_reducible apply State.free_inv) | (with_reducible apply State.freeIn_inv) | (intro _) | (with_reducible refine (id ?_ : List.length _ = List.length _); simp; done) | split | dsimp only)

theorem execPowerWindow_inv (s : State) (hI : s.Inv) : ResInv (execPowerWindow s) := by
  unfold execPowerWindow
  try dsimp only
  repeat' (first | (with_reducible assumption) | (with_reducible rfl) | (with_reducible apply next_inv) | (with_reducible refine inv_snd (by assumption) ?_) | (with_reducible refine inv_fst (by assumption) ?_) | (with_reducible apply foldl_inv; intros) | (with_reducible apply foldl_inv2; intros) | (with_reducible apply foldl_inv1; intros) | (simp only [inv_lit]; with_reducible apply keyOk_mk) | (with_reducible apply wrByte_wf) | (with_reducible apply wrBytes_wf) | (with_reducible apply inv_mem) | (with_reducible apply inv_outer) | (exact memWf_nil) | (with_reducible apply State.grant_inv) | (with_reducible apply onCl_inv) | (with_reducible apply State.allot_inv) | (intro _) | (with_reducible refine (id ?_ : List.length _ = List.length _); simp; done) | split | dsimp only)

theorem execDroopDetect_inv (c : BitVec 4) (s : State) (hI : s.Inv) : ResInv (execDroopDetect c s) := by
  unfold execDroopDetect
  try dsimp only
  repeat' (first | (with_reducible assumption) | (with_reducible rfl) | (with_reducible apply next_inv) | (with_reducible refine inv_snd (by assumption) ?_) | (with_reducible refine inv_fst (by assumption) ?_) | (with_reducible apply foldl_inv; intros) | (with_reducible apply foldl_inv2; intros) | (with_reducible apply foldl_inv1; intros) | (simp only [inv_lit]; with_reducible apply keyOk_mk) | (with_reducible apply wrByte_wf) | (with_reducible apply wrBytes_wf) | (with_reducible apply inv_mem) | (with_reducible apply inv_outer) | (exact memWf_nil) | (with_reducible apply onCl_inv) | (intro _) | (with_reducible refine (id ?_ : List.length _ = List.length _); simp; done) | split | dsimp only)

theorem State.train_inv (s : State) (hI : s.Inv) : (State.train s).Inv := by
  unfold State.train
  try dsimp only
  repeat' (first | (with_reducible assumption) | (with_reducible rfl) | (with_reducible apply next_inv) | (with_reducible refine inv_snd (by assumption) ?_) | (with_reducible refine inv_fst (by assumption) ?_) | (with_reducible apply foldl_inv; intros) | (with_reducible apply foldl_inv2; intros) | (with_reducible apply foldl_inv1; intros) | (simp only [inv_lit]; with_reducible apply keyOk_mk) | (with_reducible apply wrByte_wf) | (with_reducible apply wrBytes_wf) | (with_reducible apply inv_mem) | (with_reducible apply inv_outer) | (exact memWf_nil) | (with_reducible apply State.free_inv) | (intro _) | (with_reducible refine (id ?_ : List.length _ = List.length _); simp; done) | split | dsimp only)

theorem reset_clusters : State.reset.clusters = List.replicate 16 Cluster.reset := rfl
theorem reset_bz : State.reset.bz = List.replicate 16 BzCtx.reset := rfl
theorem reset_wins : State.reset.wins = List.replicate 16 LaunchWin.reset := rfl
theorem State.boot_inv (s : State) (hI : s.Inv) : (State.boot s).Inv := by
  have hl : (400 ≤ State.reset.pcap.toNat ∧ State.reset.pcap.toNat ≤ 2600) ∧ (70 ≤ State.reset.twarn.toNat ∧
      State.reset.twarn.toNat ≤ State.reset.tcrit.toNat ∧ State.reset.tcrit.toNat ≤ 115) ∧ (1 ≤ State.reset.colthr.toNat ∧
      State.reset.colthr.toNat ≤ 255) ∧ (1 ≤ State.reset.colwin.toNat ∧ State.reset.colwin.toNat ≤ 3600) := by decide
  unfold State.boot
  have ht := State.train_inv s hI
  revert ht
  generalize s.train = t
  intro ht
  dsimp only
  have hc (f : Cluster × Nat → Cluster) : (State.reset.clusters.zipIdx.map f).length = 16 := by
    rw [reset_clusters, List.length_map, List.length_zipIdx, List.length_replicate]
  have hb : State.reset.bz.length = 16 := by rw [reset_bz, List.length_replicate]
  have hw : State.reset.wins.length = 16 := by rw [reset_wins, List.length_replicate]
  split <;> exact ⟨ht.1, ⟨hc _, hb, hw⟩, hl⟩

theorem execWarmReset_inv (s : State) (hI : s.Inv) : ResInv (execWarmReset s) := by
  unfold execWarmReset
  try dsimp only
  repeat' (first | (with_reducible assumption) | (with_reducible rfl) | (with_reducible apply next_inv) | (with_reducible refine inv_snd (by assumption) ?_) | (with_reducible refine inv_fst (by assumption) ?_) | (with_reducible apply foldl_inv; intros) | (with_reducible apply foldl_inv2; intros) | (with_reducible apply foldl_inv1; intros) | (simp only [inv_lit]; with_reducible apply keyOk_mk) | (with_reducible apply wrByte_wf) | (with_reducible apply wrBytes_wf) | (with_reducible apply inv_mem) | (with_reducible apply inv_outer) | (exact memWf_nil) | (with_reducible apply State.boot_inv) | (intro _) | (with_reducible refine (id ?_ : List.length _ = List.length _); simp; done) | split | dsimp only)

theorem execColdReset_inv (s : State) (hI : s.Inv) : ResInv (execColdReset s) :=
  State.boot_inv _ ⟨⟨rfl, hI.1.2⟩, hI.2⟩

theorem State.sampleMonitors_inv (s : State) (hI : s.Inv) : (State.sampleMonitors s).Inv := by
  unfold State.sampleMonitors
  try dsimp only
  repeat' (first | (with_reducible assumption) | (with_reducible rfl) | (with_reducible apply next_inv) | (with_reducible refine inv_snd (by assumption) ?_) | (with_reducible refine inv_fst (by assumption) ?_) | (with_reducible apply foldl_inv; intros) | (with_reducible apply foldl_inv2; intros) | (with_reducible apply foldl_inv1; intros) | (simp only [inv_lit]; with_reducible apply keyOk_mk) | (with_reducible apply wrByte_wf) | (with_reducible apply wrBytes_wf) | (with_reducible apply inv_mem) | (with_reducible apply inv_outer) | (exact memWf_nil) | (with_reducible apply State.freeNats_inv) | (intro _) | (with_reducible refine (id ?_ : List.length _ = List.length _); simp; done) | split | dsimp only)

theorem execMonitorSample_inv (s : State) (hI : s.Inv) : ResInv (execMonitorSample s) := by
  unfold execMonitorSample
  have h := State.sampleMonitors_inv s hI
  revert h
  generalize s.sampleMonitors = q
  intro h
  have h2 := State.free_inv q h
  dsimp only
  split
  · refine next_inv ?_
    split
    · exact State.boot_inv _ h2
    · exact State.boot_inv _ ⟨⟨rfl, h2.1.2⟩, h2.2⟩
  · exact h

theorem State.spoilPeer_inv (s : State) (l : Option PeerLine) (hI : s.Inv) : (State.spoilPeer s l).Inv := by
  unfold State.spoilPeer
  try dsimp only
  repeat' (first | (with_reducible assumption) | (with_reducible rfl) | (with_reducible apply next_inv) | (with_reducible refine inv_snd (by assumption) ?_) | (with_reducible refine inv_fst (by assumption) ?_) | (with_reducible apply foldl_inv; intros) | (with_reducible apply foldl_inv2; intros) | (with_reducible apply foldl_inv1; intros) | (simp only [inv_lit]; with_reducible apply keyOk_mk) | (with_reducible apply wrByte_wf) | (with_reducible apply wrBytes_wf) | (with_reducible apply inv_mem) | (with_reducible apply inv_outer) | (exact memWf_nil) | (intro _) | (with_reducible refine (id ?_ : List.length _ = List.length _); simp; done) | split | dsimp only)

theorem State.storeError_inv (s : State) (kind a b : Nat) (hI : s.Inv) : (State.storeError s kind a b).Inv := by
  unfold State.storeError
  try dsimp only
  repeat' (first | (with_reducible assumption) | (with_reducible rfl) | (with_reducible apply next_inv) | (with_reducible refine inv_snd (by assumption) ?_) | (with_reducible refine inv_fst (by assumption) ?_) | (with_reducible apply foldl_inv; intros) | (with_reducible apply foldl_inv2; intros) | (with_reducible apply foldl_inv1; intros) | (simp only [inv_lit]; with_reducible apply keyOk_mk) | (with_reducible apply wrByte_wf) | (with_reducible apply wrBytes_wf) | (with_reducible apply inv_mem) | (with_reducible apply inv_outer) | (exact memWf_nil) | (with_reducible apply onCl_inv) | (with_reducible apply State.spoilPeer_inv) | (with_reducible apply State.setRdc_inv) | (intro _) | (with_reducible refine (id ?_ : List.length _ = List.length _); simp; done) | split | dsimp only)

theorem execPatrolScrub_inv (s : State) (hI : s.Inv) : ResInv (execPatrolScrub s) := by
  unfold execPatrolScrub
  try dsimp only
  repeat' (first | (with_reducible assumption) | (with_reducible rfl) | (with_reducible apply next_inv) | (with_reducible refine inv_snd (by assumption) ?_) | (with_reducible refine inv_fst (by assumption) ?_) | (with_reducible apply foldl_inv; intros) | (with_reducible apply foldl_inv2; intros) | (with_reducible apply foldl_inv1; intros) | (simp only [inv_lit]; with_reducible apply keyOk_mk) | (with_reducible apply wrByte_wf) | (with_reducible apply wrBytes_wf) | (with_reducible apply inv_mem) | (with_reducible apply inv_outer) | (exact memWf_nil) | (with_reducible apply State.free_inv) | (with_reducible apply State.storeError_inv) | (intro _) | (with_reducible refine (id ?_ : List.length _ = List.length _); simp; done) | split | dsimp only)

theorem execLinkFailure_inv (link : BitVec 3) (s : State) (hI : s.Inv) : ResInv (execLinkFailure link s) := by
  unfold execLinkFailure
  try dsimp only
  repeat' (first | (with_reducible assumption) | (with_reducible rfl) | (with_reducible apply next_inv) | (with_reducible refine inv_snd (by assumption) ?_) | (with_reducible refine inv_fst (by assumption) ?_) | (with_reducible apply foldl_inv; intros) | (with_reducible apply foldl_inv2; intros) | (with_reducible apply foldl_inv1; intros) | (simp only [inv_lit]; with_reducible apply keyOk_mk) | (with_reducible apply wrByte_wf) | (with_reducible apply wrBytes_wf) | (with_reducible apply inv_mem) | (with_reducible apply inv_outer) | (exact memWf_nil) | (intro _) | (with_reducible refine (id ?_ : List.length _ = List.length _); simp; done) | split | dsimp only)

theorem execNoiseSourceFailure_inv (c : BitVec 4) (s : State) (hI : s.Inv) : ResInv (execNoiseSourceFailure c s) := by
  unfold execNoiseSourceFailure
  try dsimp only
  repeat' (first | (with_reducible assumption) | (with_reducible rfl) | (with_reducible apply next_inv) | (with_reducible refine inv_snd (by assumption) ?_) | (with_reducible refine inv_fst (by assumption) ?_) | (with_reducible apply foldl_inv; intros) | (with_reducible apply foldl_inv2; intros) | (with_reducible apply foldl_inv1; intros) | (simp only [inv_lit]; with_reducible apply keyOk_mk) | (with_reducible apply wrByte_wf) | (with_reducible apply wrBytes_wf) | (with_reducible apply inv_mem) | (with_reducible apply inv_outer) | (exact memWf_nil) | (intro _) | (with_reducible refine (id ?_ : List.length _ = List.length _); simp; done) | split | dsimp only)

/-! ### Security -/

theorem State.beginStep_inv (s : State) (h : Handover) (n : Nat) (hI : s.Inv) : (State.beginStep s h n).Inv := by
  unfold State.beginStep
  try dsimp only
  repeat' (first | (with_reducible assumption) | (with_reducible rfl) | (with_reducible apply next_inv) | (with_reducible refine inv_snd (by assumption) ?_) | (with_reducible refine inv_fst (by assumption) ?_) | (with_reducible apply foldl_inv; intros) | (with_reducible apply foldl_inv2; intros) | (with_reducible apply foldl_inv1; intros) | (simp only [inv_lit]; with_reducible apply keyOk_mk) | (with_reducible apply wrByte_wf) | (with_reducible apply wrBytes_wf) | (with_reducible apply inv_mem) | (with_reducible apply inv_outer) | (exact memWf_nil) | (with_reducible apply State.freeIn_inv) | (intro _) | (with_reducible refine (id ?_ : List.length _ = List.length _); simp; done) | split | dsimp only)

theorem State.handKill_inv (s : State) (hI : s.Inv) : (State.handKill s).Inv := by
  unfold State.handKill
  try dsimp only
  repeat' (first | (with_reducible assumption) | (with_reducible rfl) | (with_reducible apply next_inv) | (with_reducible refine inv_snd (by assumption) ?_) | (with_reducible refine inv_fst (by assumption) ?_) | (with_reducible apply foldl_inv; intros) | (with_reducible apply foldl_inv2; intros) | (with_reducible apply foldl_inv1; intros) | (simp only [inv_lit]; with_reducible apply keyOk_mk) | (with_reducible apply wrByte_wf) | (with_reducible apply wrBytes_wf) | (with_reducible apply inv_mem) | (with_reducible apply inv_outer) | (exact memWf_nil) | (with_reducible apply State.killTask_inv) | (intro _) | (with_reducible refine (id ?_ : List.length _ = List.length _); simp; done) | split | dsimp only)

theorem State.handZero_inv (s : State) (hI : s.Inv) : (State.handZero s).Inv :=
  ⟨hI.1, ⟨(List.length_map _).trans hI.2.1.1, List.length_replicate .., hI.2.1.2.2⟩, hI.2.2⟩

theorem State.handSweep_inv (s : State) (h : Handover) (hI : s.Inv) : (State.handSweep s h).2.Inv := by
  unfold State.handSweep
  try dsimp only
  repeat' (first | (with_reducible assumption) | (with_reducible rfl) | (with_reducible apply next_inv) | (with_reducible refine inv_snd (by assumption) ?_) | (with_reducible refine inv_fst (by assumption) ?_) | (with_reducible apply foldl_inv; intros) | (with_reducible apply foldl_inv2; intros) | (with_reducible apply foldl_inv1; intros) | (simp only [inv_lit]; with_reducible apply keyOk_mk) | (with_reducible apply wrByte_wf) | (with_reducible apply wrBytes_wf) | (with_reducible apply inv_mem) | (with_reducible apply inv_outer) | (exact memWf_nil) | (with_reducible apply State.free_inv) | (with_reducible apply State.freeIn_inv) | (with_reducible apply State.freeBytes_inv) | (intro _) | (with_reducible refine (id ?_ : List.length _ = List.length _); simp; done) | split | dsimp only)

theorem State.handKeys_inv (s : State) (hI : s.Inv) : (State.handKeys s).Inv := by
  unfold State.handKeys
  try dsimp only
  repeat' (first | (with_reducible assumption) | (with_reducible rfl) | (with_reducible apply next_inv) | (with_reducible refine inv_snd (by assumption) ?_) | (with_reducible refine inv_fst (by assumption) ?_) | (with_reducible apply foldl_inv; intros) | (with_reducible apply foldl_inv2; intros) | (with_reducible apply foldl_inv1; intros) | (simp only [inv_lit]; with_reducible apply keyOk_mk) | (with_reducible apply wrByte_wf) | (with_reducible apply wrBytes_wf) | (with_reducible apply inv_mem) | (with_reducible apply inv_outer) | (exact memWf_nil) | (intro _) | (with_reducible refine (id ?_ : List.length _ = List.length _); simp; done) | split | dsimp only)

theorem State.healthRuns_inv (s : State) (hI : s.Inv) : (State.healthRuns s).Inv := by
  unfold State.healthRuns
  try dsimp only
  repeat' (first | (with_reducible assumption) | (with_reducible rfl) | (with_reducible apply next_inv) | (with_reducible refine inv_snd (by assumption) ?_) | (with_reducible refine inv_fst (by assumption) ?_) | (with_reducible apply foldl_inv; intros) | (with_reducible apply foldl_inv2; intros) | (with_reducible apply foldl_inv1; intros) | (simp only [inv_lit]; with_reducible apply keyOk_mk) | (with_reducible apply wrByte_wf) | (with_reducible apply wrBytes_wf) | (with_reducible apply inv_mem) | (with_reducible apply inv_outer) | (exact memWf_nil) | (with_reducible apply State.maintRun_inv) | (intro _) | (with_reducible refine (id ?_ : List.length _ = List.length _); simp; done) | split | dsimp only)

theorem State.unitCodes_inv (s : State) (old fault : BitVec 8) (hI : s.Inv) : (State.unitCodes s old fault).2.Inv := by
  unfold State.unitCodes
  try dsimp only
  repeat' (first | (with_reducible assumption) | (with_reducible rfl) | (with_reducible apply next_inv) | (with_reducible refine inv_snd (by assumption) ?_) | (with_reducible refine inv_fst (by assumption) ?_) | (with_reducible apply foldl_inv; intros) | (with_reducible apply foldl_inv2; intros) | (with_reducible apply foldl_inv1; intros) | (simp only [inv_lit]; with_reducible apply keyOk_mk) | (with_reducible apply wrByte_wf) | (with_reducible apply wrBytes_wf) | (with_reducible apply inv_mem) | (with_reducible apply inv_outer) | (exact memWf_nil) | (with_reducible apply State.freeIn_inv) | (intro _) | (with_reducible refine (id ?_ : List.length _ = List.length _); simp; done) | split | dsimp only)

theorem State.handHealth_inv (s : State) (h : Handover) (hI : s.Inv) : (State.handHealth s h).2.2.2.2.Inv := by
  unfold State.handHealth
  try dsimp only
  repeat' (first | (with_reducible assumption) | (with_reducible rfl) | (with_reducible apply next_inv) | (with_reducible refine inv_snd (by assumption) ?_) | (with_reducible refine inv_fst (by assumption) ?_) | (with_reducible apply foldl_inv; intros) | (with_reducible apply foldl_inv2; intros) | (with_reducible apply foldl_inv1; intros) | (simp only [inv_lit]; with_reducible apply keyOk_mk) | (with_reducible apply wrByte_wf) | (with_reducible apply wrBytes_wf) | (with_reducible apply inv_mem) | (with_reducible apply inv_outer) | (exact memWf_nil) | (with_reducible apply State.unitCodes_inv) | (intro _) | (with_reducible refine (id ?_ : List.length _ = List.length _); simp; done) | split | dsimp only)

theorem State.publish_inv (s : State) (body : List Byte) (signed : Bool) (hI : s.Inv) : (State.publish s body signed).Inv := by
  unfold State.publish
  try dsimp only
  repeat' (first | (with_reducible assumption) | (with_reducible rfl) | (with_reducible apply next_inv) | (with_reducible refine inv_snd (by assumption) ?_) | (with_reducible refine inv_fst (by assumption) ?_) | (with_reducible apply foldl_inv; intros) | (with_reducible apply foldl_inv2; intros) | (with_reducible apply foldl_inv1; intros) | (simp only [inv_lit]; with_reducible apply keyOk_mk) | (with_reducible apply wrByte_wf) | (with_reducible apply wrBytes_wf) | (with_reducible apply inv_mem) | (with_reducible apply inv_outer) | (exact memWf_nil) | (intro _) | (with_reducible refine (id ?_ : List.length _ = List.length _); simp; done) | split | dsimp only)

theorem State.failCodes_inv (s : State) (h : Handover) (hI : s.Inv) : (State.failCodes s h).2.2.2.Inv := by
  unfold State.failCodes
  try dsimp only
  repeat' (first | (with_reducible assumption) | (with_reducible rfl) | (with_reducible apply next_inv) | (with_reducible refine inv_snd (by assumption) ?_) | (with_reducible refine inv_fst (by assumption) ?_) | (with_reducible apply foldl_inv; intros) | (with_reducible apply foldl_inv2; intros) | (with_reducible apply foldl_inv1; intros) | (simp only [inv_lit]; with_reducible apply keyOk_mk) | (with_reducible apply wrByte_wf) | (with_reducible apply wrBytes_wf) | (with_reducible apply inv_mem) | (with_reducible apply inv_outer) | (exact memWf_nil) | (with_reducible apply State.unitCodes_inv) | (intro _) | (with_reducible refine (id ?_ : List.length _ = List.length _); simp; done) | split | dsimp only)

theorem State.handFail_inv (s : State) (h : Handover) (hI : s.Inv) : (State.handFail s h).Inv := by
  unfold State.handFail
  try dsimp only
  repeat' (first | (with_reducible assumption) | (with_reducible rfl) | (with_reducible apply next_inv) | (with_reducible refine inv_snd (by assumption) ?_) | (with_reducible refine inv_fst (by assumption) ?_) | (with_reducible apply foldl_inv; intros) | (with_reducible apply foldl_inv2; intros) | (with_reducible apply foldl_inv1; intros) | (simp only [inv_lit]; with_reducible apply keyOk_mk) | (with_reducible apply wrByte_wf) | (with_reducible apply wrBytes_wf) | (with_reducible apply inv_mem) | (with_reducible apply inv_outer) | (exact memWf_nil) | (with_reducible apply State.failCodes_inv) | (with_reducible apply State.publish_inv) | (intro _) | (with_reducible refine (id ?_ : List.length _ = List.length _); simp; done) | split | dsimp only)

theorem State.handStep_inv (s : State) (h : Handover) (hI : s.Inv) : (State.handStep s h).Inv := by
  unfold State.handStep
  try dsimp only
  repeat' (first | (with_reducible assumption) | (with_reducible rfl) | (with_reducible apply next_inv) | (with_reducible refine inv_snd (by assumption) ?_) | (with_reducible refine inv_fst (by assumption) ?_) | (with_reducible apply foldl_inv; intros) | (with_reducible apply foldl_inv2; intros) | (with_reducible apply foldl_inv1; intros) | (simp only [inv_lit]; with_reducible apply keyOk_mk) | (with_reducible apply wrByte_wf) | (with_reducible apply wrBytes_wf) | (with_reducible apply inv_mem) | (with_reducible apply inv_outer) | (exact memWf_nil) | (with_reducible apply State.beginStep_inv) | (with_reducible apply State.handZero_inv) | (with_reducible apply State.handSweep_inv) | (with_reducible apply State.handKeys_inv) | (with_reducible apply State.healthRuns_inv) | (with_reducible apply State.handFail_inv) | (with_reducible apply State.handHealth_inv) | (with_reducible apply State.publish_inv) | (intro _) | (with_reducible refine (id ?_ : List.length _ = List.length _); simp; done) | split | dsimp only)

theorem State.handTurn_inv (s : State) (hI : s.Inv) : (State.handTurn s).Inv := by
  unfold State.handTurn
  try dsimp only
  repeat' (first | (with_reducible assumption) | (with_reducible rfl) | (with_reducible apply next_inv) | (with_reducible refine inv_snd (by assumption) ?_) | (with_reducible refine inv_fst (by assumption) ?_) | (with_reducible apply foldl_inv; intros) | (with_reducible apply foldl_inv2; intros) | (with_reducible apply foldl_inv1; intros) | (simp only [inv_lit]; with_reducible apply keyOk_mk) | (with_reducible apply wrByte_wf) | (with_reducible apply wrBytes_wf) | (with_reducible apply inv_mem) | (with_reducible apply inv_outer) | (exact memWf_nil) | (with_reducible apply State.handFail_inv) | (with_reducible apply State.handStep_inv) | (intro _) | (with_reducible refine (id ?_ : List.length _ = List.length _); simp; done) | split | dsimp only)

theorem execHandover_inv (nonce : BitVec 256) (s : State) (hI : s.Inv) : ResInv (execHandover nonce s) := by
  unfold execHandover
  try dsimp only
  repeat' (first | (with_reducible assumption) | (with_reducible rfl) | (with_reducible apply next_inv) | (with_reducible refine inv_snd (by assumption) ?_) | (with_reducible refine inv_fst (by assumption) ?_) | (with_reducible apply foldl_inv; intros) | (with_reducible apply foldl_inv2; intros) | (with_reducible apply foldl_inv1; intros) | (simp only [inv_lit]; with_reducible apply keyOk_mk) | (with_reducible apply wrByte_wf) | (with_reducible apply wrBytes_wf) | (with_reducible apply inv_mem) | (with_reducible apply inv_outer) | (exact memWf_nil) | (refine State.viaHost_inv _ _ ?_ (by assumption); try dsimp only) | (with_reducible apply State.handKill_inv) | (with_reducible apply State.beginStep_inv) | (intro _) | (with_reducible refine (id ?_ : List.length _ = List.length _); simp; done) | split | dsimp only)

theorem execHandoverStepOverrun_inv (s : State) (hI : s.Inv) : ResInv (execHandoverStepOverrun s) := by
  unfold execHandoverStepOverrun
  try dsimp only
  repeat' (first | (with_reducible assumption) | (with_reducible rfl) | (with_reducible apply next_inv) | (with_reducible refine inv_snd (by assumption) ?_) | (with_reducible refine inv_fst (by assumption) ?_) | (with_reducible apply foldl_inv; intros) | (with_reducible apply foldl_inv2; intros) | (with_reducible apply foldl_inv1; intros) | (simp only [inv_lit]; with_reducible apply keyOk_mk) | (with_reducible apply wrByte_wf) | (with_reducible apply wrBytes_wf) | (with_reducible apply inv_mem) | (with_reducible apply inv_outer) | (exact memWf_nil) | (with_reducible apply State.handFail_inv) | (intro _) | (with_reducible refine (id ?_ : List.length _ = List.length _); simp; done) | split | dsimp only)

theorem execMeasurementSlotExtend_inv (slot : BitVec 4) (digest : BitVec 256) (s : State) (hI : s.Inv) : ResInv (execMeasurementSlotExtend slot digest s) := by
  unfold execMeasurementSlotExtend
  try dsimp only
  repeat' (first | (with_reducible assumption) | (with_reducible rfl) | (with_reducible apply next_inv) | (with_reducible refine inv_snd (by assumption) ?_) | (with_reducible refine inv_fst (by assumption) ?_) | (with_reducible apply foldl_inv; intros) | (with_reducible apply foldl_inv2; intros) | (with_reducible apply foldl_inv1; intros) | (simp only [inv_lit]; with_reducible apply keyOk_mk) | (with_reducible apply wrByte_wf) | (with_reducible apply wrBytes_wf) | (with_reducible apply inv_mem) | (with_reducible apply inv_outer) | (exact memWf_nil) | (with_reducible apply State.boot_inv) | (intro _) | (with_reducible refine (id ?_ : List.length _ = List.length _); simp; done) | split | dsimp only)

theorem State.answer_inv (s : State) (n : Nat) (bs : List Byte) (hI : s.Inv) : (State.answer s n bs).Inv := by
  unfold State.answer
  try dsimp only
  repeat' (first | (with_reducible assumption) | (with_reducible rfl) | (with_reducible apply next_inv) | (with_reducible refine inv_snd (by assumption) ?_) | (with_reducible refine inv_fst (by assumption) ?_) | (with_reducible apply foldl_inv; intros) | (with_reducible apply foldl_inv2; intros) | (with_reducible apply foldl_inv1; intros) | (simp only [inv_lit]; with_reducible apply keyOk_mk) | (with_reducible apply wrByte_wf) | (with_reducible apply wrBytes_wf) | (with_reducible apply inv_mem) | (with_reducible apply inv_outer) | (exact memWf_nil) | (intro _) | (with_reducible refine (id ?_ : List.length _ = List.length _); simp; done) | split | dsimp only)

theorem State.spdmRefuse_inv (s : State) (hI : s.Inv) : (State.spdmRefuse s).Inv := by
  unfold State.spdmRefuse
  try dsimp only
  repeat' (first | (with_reducible assumption) | (with_reducible rfl) | (with_reducible apply next_inv) | (with_reducible refine inv_snd (by assumption) ?_) | (with_reducible refine inv_fst (by assumption) ?_) | (with_reducible apply foldl_inv; intros) | (with_reducible apply foldl_inv2; intros) | (with_reducible apply foldl_inv1; intros) | (simp only [inv_lit]; with_reducible apply keyOk_mk) | (with_reducible apply wrByte_wf) | (with_reducible apply wrBytes_wf) | (with_reducible apply inv_mem) | (with_reducible apply inv_outer) | (exact memWf_nil) | (intro _) | (with_reducible refine (id ?_ : List.length _ = List.length _); simp; done) | split | dsimp only)

theorem execGetVersion_inv (s : State) (hI : s.Inv) : ResInv (execGetVersion s) := by
  unfold execGetVersion
  try dsimp only
  repeat' (first | (with_reducible assumption) | (with_reducible rfl) | (with_reducible apply next_inv) | (with_reducible refine inv_snd (by assumption) ?_) | (with_reducible refine inv_fst (by assumption) ?_) | (with_reducible apply foldl_inv; intros) | (with_reducible apply foldl_inv2; intros) | (with_reducible apply foldl_inv1; intros) | (simp only [inv_lit]; with_reducible apply keyOk_mk) | (with_reducible apply wrByte_wf) | (with_reducible apply wrBytes_wf) | (with_reducible apply inv_mem) | (with_reducible apply inv_outer) | (exact memWf_nil) | (with_reducible apply State.answer_inv) | (intro _) | (with_reducible refine (id ?_ : List.length _ = List.length _); simp; done) | split | dsimp only)

theorem execGetCapabilities_inv (s : State) (hI : s.Inv) : ResInv (execGetCapabilities s) := by
  unfold execGetCapabilities
  try dsimp only
  repeat' (first | (with_reducible assumption) | (with_reducible rfl) | (with_reducible apply next_inv) | (with_reducible refine inv_snd (by assumption) ?_) | (with_reducible refine inv_fst (by assumption) ?_) | (with_reducible apply foldl_inv; intros) | (with_reducible apply foldl_inv2; intros) | (with_reducible apply foldl_inv1; intros) | (simp only [inv_lit]; with_reducible apply keyOk_mk) | (with_reducible apply wrByte_wf) | (with_reducible apply wrBytes_wf) | (with_reducible apply inv_mem) | (with_reducible apply inv_outer) | (exact memWf_nil) | (with_reducible apply State.answer_inv) | (intro _) | (with_reducible refine (id ?_ : List.length _ = List.length _); simp; done) | split | dsimp only)

theorem execNegotiateAlgorithms_inv (offer : List Byte) (s : State) (hI : s.Inv) : ResInv (execNegotiateAlgorithms offer s) := by
  unfold execNegotiateAlgorithms
  try dsimp only
  repeat' (first | (with_reducible assumption) | (with_reducible rfl) | (with_reducible apply next_inv) | (with_reducible refine inv_snd (by assumption) ?_) | (with_reducible refine inv_fst (by assumption) ?_) | (with_reducible apply foldl_inv; intros) | (with_reducible apply foldl_inv2; intros) | (with_reducible apply foldl_inv1; intros) | (simp only [inv_lit]; with_reducible apply keyOk_mk) | (with_reducible apply wrByte_wf) | (with_reducible apply wrBytes_wf) | (with_reducible apply inv_mem) | (with_reducible apply inv_outer) | (exact memWf_nil) | (with_reducible apply State.answer_inv) | (intro _) | (with_reducible refine (id ?_ : List.length _ = List.length _); simp; done) | split | dsimp only)

theorem execGetDigests_inv (s : State) (hI : s.Inv) : ResInv (execGetDigests s) := by
  unfold execGetDigests
  try dsimp only
  repeat' (first | (with_reducible assumption) | (with_reducible rfl) | (with_reducible apply next_inv) | (with_reducible refine inv_snd (by assumption) ?_) | (with_reducible refine inv_fst (by assumption) ?_) | (with_reducible apply foldl_inv; intros) | (with_reducible apply foldl_inv2; intros) | (with_reducible apply foldl_inv1; intros) | (simp only [inv_lit]; with_reducible apply keyOk_mk) | (with_reducible apply wrByte_wf) | (with_reducible apply wrBytes_wf) | (with_reducible apply inv_mem) | (with_reducible apply inv_outer) | (exact memWf_nil) | (with_reducible apply State.answer_inv) | (intro _) | (with_reducible refine (id ?_ : List.length _ = List.length _); simp; done) | split | dsimp only)

theorem execGetCertificate_inv (slot : BitVec 8) (off len : BitVec 16) (s : State) (hI : s.Inv) : ResInv (execGetCertificate slot off len s) := by
  unfold execGetCertificate
  try dsimp only
  repeat' (first | (with_reducible assumption) | (with_reducible rfl) | (with_reducible apply next_inv) | (with_reducible refine inv_snd (by assumption) ?_) | (with_reducible refine inv_fst (by assumption) ?_) | (with_reducible apply foldl_inv; intros) | (with_reducible apply foldl_inv2; intros) | (with_reducible apply foldl_inv1; intros) | (simp only [inv_lit]; with_reducible apply keyOk_mk) | (with_reducible apply wrByte_wf) | (with_reducible apply wrBytes_wf) | (with_reducible apply inv_mem) | (with_reducible apply inv_outer) | (exact memWf_nil) | (with_reducible apply State.answer_inv) | (with_reducible apply State.spdmRefuse_inv) | (intro _) | (with_reducible refine (id ?_ : List.length _ = List.length _); simp; done) | split | dsimp only)

theorem execChallenge_inv (slot : BitVec 8) (nonce : BitVec 256) (s : State) (hI : s.Inv) : ResInv (execChallenge slot nonce s) := by
  unfold execChallenge
  try dsimp only
  repeat' (first | (with_reducible assumption) | (with_reducible rfl) | (with_reducible apply next_inv) | (with_reducible refine inv_snd (by assumption) ?_) | (with_reducible refine inv_fst (by assumption) ?_) | (with_reducible apply foldl_inv; intros) | (with_reducible apply foldl_inv2; intros) | (with_reducible apply foldl_inv1; intros) | (simp only [inv_lit]; with_reducible apply keyOk_mk) | (with_reducible apply wrByte_wf) | (with_reducible apply wrBytes_wf) | (with_reducible apply inv_mem) | (with_reducible apply inv_outer) | (exact memWf_nil) | (with_reducible apply State.answer_inv) | (with_reducible apply State.spdmRefuse_inv) | (intro _) | (with_reducible refine (id ?_ : List.length _ = List.length _); simp; done) | split | dsimp only)

theorem execGetMeasurements_inv (index : BitVec 8) (sign : Bool) (nonce : BitVec 256) (s : State) (hI : s.Inv) : ResInv (execGetMeasurements index sign nonce s) := by
  unfold execGetMeasurements
  try dsimp only
  repeat' (first | (with_reducible assumption) | (with_reducible rfl) | (with_reducible apply next_inv) | (with_reducible refine inv_snd (by assumption) ?_) | (with_reducible refine inv_fst (by assumption) ?_) | (with_reducible apply foldl_inv; intros) | (with_reducible apply foldl_inv2; intros) | (with_reducible apply foldl_inv1; intros) | (simp only [inv_lit]; with_reducible apply keyOk_mk) | (with_reducible apply wrByte_wf) | (with_reducible apply wrBytes_wf) | (with_reducible apply inv_mem) | (with_reducible apply inv_outer) | (exact memWf_nil) | (with_reducible apply State.spdmRefuse_inv) | (with_reducible apply State.answer_inv) | (intro _) | (with_reducible refine (id ?_ : List.length _ = List.length _); simp; done) | split | dsimp only)

theorem execKeyExchange_inv (exch : List Byte) (s : State) (hI : s.Inv) : ResInv (execKeyExchange exch s) := by
  unfold execKeyExchange
  try dsimp only
  repeat' (first | (with_reducible assumption) | (with_reducible rfl) | (with_reducible apply next_inv) | (with_reducible refine inv_snd (by assumption) ?_) | (with_reducible refine inv_fst (by assumption) ?_) | (with_reducible apply foldl_inv; intros) | (with_reducible apply foldl_inv2; intros) | (with_reducible apply foldl_inv1; intros) | (simp only [inv_lit]; with_reducible apply keyOk_mk) | (with_reducible apply wrByte_wf) | (with_reducible apply wrBytes_wf) | (with_reducible apply inv_mem) | (with_reducible apply inv_outer) | (exact memWf_nil) | (with_reducible apply State.answer_inv) | (intro _) | (with_reducible refine (id ?_ : List.length _ = List.length _); simp; done) | split | dsimp only)

theorem execFinish_inv (session : Nat) (mac : List Byte) (s : State) (hI : s.Inv) : ResInv (execFinish session mac s) := by
  unfold execFinish
  try dsimp only
  repeat' (first | (with_reducible assumption) | (with_reducible rfl) | (with_reducible apply next_inv) | (with_reducible refine inv_snd (by assumption) ?_) | (with_reducible refine inv_fst (by assumption) ?_) | (with_reducible apply foldl_inv; intros) | (with_reducible apply foldl_inv2; intros) | (with_reducible apply foldl_inv1; intros) | (simp only [inv_lit]; with_reducible apply keyOk_mk) | (with_reducible apply wrByte_wf) | (with_reducible apply wrBytes_wf) | (with_reducible apply inv_mem) | (with_reducible apply inv_outer) | (exact memWf_nil) | (with_reducible apply State.spdmRefuse_inv) | (with_reducible apply State.answer_inv) | (intro _) | (with_reducible refine (id ?_ : List.length _ = List.length _); simp; done) | split | dsimp only)

theorem execEndSession_inv (session : Nat) (s : State) (hI : s.Inv) : ResInv (execEndSession session s) := by
  unfold execEndSession
  try dsimp only
  repeat' (first | (with_reducible assumption) | (with_reducible rfl) | (with_reducible apply next_inv) | (with_reducible refine inv_snd (by assumption) ?_) | (with_reducible refine inv_fst (by assumption) ?_) | (with_reducible apply foldl_inv; intros) | (with_reducible apply foldl_inv2; intros) | (with_reducible apply foldl_inv1; intros) | (simp only [inv_lit]; with_reducible apply keyOk_mk) | (with_reducible apply wrByte_wf) | (with_reducible apply wrBytes_wf) | (with_reducible apply inv_mem) | (with_reducible apply inv_outer) | (exact memWf_nil) | (with_reducible apply State.answer_inv) | (with_reducible apply State.spdmRefuse_inv) | (intro _) | (with_reducible refine (id ?_ : List.length _ = List.length _); simp; done) | split | dsimp only)

theorem execIdeKm_inv (session : Nat) (port : BitVec 3) (link : Bool) (key : BitVec 256) (s : State) (hI : s.Inv) : ResInv (execIdeKm session port link key s) := by
  unfold execIdeKm
  try dsimp only
  repeat' (first | (with_reducible assumption) | (with_reducible rfl) | (with_reducible apply next_inv) | (with_reducible refine inv_snd (by assumption) ?_) | (with_reducible refine inv_fst (by assumption) ?_) | (with_reducible apply foldl_inv; intros) | (with_reducible apply foldl_inv2; intros) | (with_reducible apply foldl_inv1; intros) | (simp only [inv_lit]; with_reducible apply keyOk_mk) | (with_reducible apply wrByte_wf) | (with_reducible apply wrBytes_wf) | (with_reducible apply inv_mem) | (with_reducible apply inv_outer) | (exact memWf_nil) | (with_reducible apply State.spdmRefuse_inv) | (intro _) | (with_reducible refine (id ?_ : List.length _ = List.length _); simp; done) | split | dsimp only)

/-! ### Dispatch -/

theorem exec_inv (i : Instr) (s : State) (hI : s.Inv) : ResInv (exec i s) :=
  match i with
  | .add sd sa sb => execAdd_inv sd sa sb s hI
  | .sub sd sa sb => execSub_inv sd sa sb s hI
  | .and sd sa sb => execAnd_inv sd sa sb s hI
  | .or sd sa sb => execOr_inv sd sa sb s hI
  | .xor sd sa sb => execXor_inv sd sa sb s hI
  | .shl sd sa sb => execShl_inv sd sa sb s hI
  | .shr sd sa sb => execShr_inv sd sa sb s hI
  | .sra sd sa sb => execSra_inv sd sa sb s hI
  | .mul sd sa sb => execMul_inv sd sa sb s hI
  | .mulh sgn sd sa sb => execMulh_inv sgn sd sa sb s hI
  | .min sgn sd sa sb => execMin_inv sgn sd sa sb s hI
  | .max sgn sd sa sb => execMax_inv sgn sd sa sb s hI
  | .addImm sd sa imm => execAddImm_inv sd sa imm s hI
  | .subImm sd sa imm => execSubImm_inv sd sa imm s hI
  | .andImm sd sa imm => execAndImm_inv sd sa imm s hI
  | .orImm sd sa imm => execOrImm_inv sd sa imm s hI
  | .xorImm sd sa imm => execXorImm_inv sd sa imm s hI
  | .shlImm sd sa k => execShlImm_inv sd sa k s hI
  | .shrImm sd sa k => execShrImm_inv sd sa k s hI
  | .sraImm sd sa k => execSraImm_inv sd sa k s hI
  | .mulImm sd sa imm => execMulImm_inv sd sa imm s hI
  | .mulhImm sd sa imm => execMulhImm_inv sd sa imm s hI
  | .minImm sd sa imm => execMinImm_inv sd sa imm s hI
  | .maxImm sd sa imm => execMaxImm_inv sd sa imm s hI
  | .cmp c bd sa sb => execCmp_inv c bd sa sb s hI
  | .cmpImm c bd sa imm => execCmpImm_inv c bd sa imm s hI
  | .fop op bd ba bb => execFop_inv op bd ba bb s hI
  | .nopn n => execNopn_inv n s hI
  | .ldi sd imm => execLdi_inv sd imm s hI
  | .ldih sd h imm => execLdih_inv sd h imm s hI
  | .br cf disp => execBr_inv cf disp s hI
  | .jmp sa => execJmp_inv sa s hI
  | .call sd disp => execCall_inv sd disp s hI
  | .ret sa => execRet_inv sa s hI
  | .loop n => execLoop_inv n s hI
  | .loopReg sa => execLoopReg_inv sa s hI
  | .lbrk cf disp => execLbrk_inv cf disp s hI
  | .pini sa sb => execPini_inv sa sb s hI
  | .parr sa => execParr_inv sa s hI
  | .pwait sa sb => execPwait_inv sa sb s hI
  | .pwaitImm sa ph => execPwaitImm_inv sa ph s hI
  | .bset sc sa sb => execBset_inv sc sa sb s hI
  | .bwait sc sa sb => execBwait_inv sc sa sb s hI
  | .ldf sgn sz sd sa off => execLdf_inv sgn sz sd sa off s hI
  | .stf sz sd sa off => execStf_inv sz sd sa off s hI
  | .atom op sgn w64 ret ord sc sd sa sb => execAtom_inv op sgn w64 ret ord sc sd sa sb s hI
  | .fence kind sc => execFence_inv kind sc s hI
  | .cred op sd aa => execCred_inv op sd aa s hI
  | .cmsk m => execCmsk_inv m s hI
  | .tex ek imm => execTex_inv ek imm s hI
  | .texReg ek sa imm => execTexReg_inv ek sa imm s hI
  | .srr sd sel => execSrr_inv sd sel s hI
  | .srw sel sa => execSrw_inv sel sa s hI
  | .trap code => execTrap_inv code s hI
  | .lnch sd sa => execLnch_inv sd sa s hI
  | .aadd ad aa ab => execAadd_inv ad aa ab s hI
  | .asub ad aa ab => execAsub_inv ad aa ab s hI
  | .aaddi ad aa imm => execAaddi_inv ad aa imm s hI
  | .ashl ad aa n => execAshl_inv ad aa n s hI
  | .amov ad aa => execAmov_inv ad aa s hI
  | .aldi ad imm => execAldi_inv ad imm s hI
  | .acix m ad => execAcix_inv m ad s hI
  | .afroms ad n => execAfroms_inv ad n s hI
  | .shw tm fld sm => execShw_inv tm fld sm s hI
  | .shwi tm fld imm => execShwi_inv tm fld imm s hI
  | .ftw ft sm => execFtw_inv ft sm s hI
  | .ftwField ft fld imm => execFtwField_inv ft fld imm s hI
  | .vld vt aa pd ck off => execVld_inv vt aa pd ck off s hI
  | .vst vt aa pd off => execVst_inv vt aa pd off s hI
  | .vldb vt aa pd ck off => execVldb_inv vt aa pd ck off s hI
  | .vlds vt aa pd ck stride => execVlds_inv vt aa pd ck stride s hI
  | .vldx half vt aa pd vi => execVldx_inv half vt aa pd vi s hI
  | .vstx half vt aa pd vi => execVstx_inv half vt aa pd vi s hI
  | .pld pt aa ck off => execPld_inv pt aa ck off s hI
  | .pst pt aa off => execPst_inv pt aa off s hI
  | .dld dt aa ck off => execDld_inv dt aa ck off s hI
  | .dst dt aa off => execDst_inv dt aa off s hI
  | .vldf vt tm aa pd off => execVldf_inv vt tm aa pd off s hI
  | .vstf vt tm aa pd off => execVstf_inv vt tm aa pd off s hI
  | .vupd op ty vt tm aa pd => execVupd_inv op ty vt tm aa pd s hI
  | .vadd c sz sgn sat vd va vb => execVadd_inv c sz sgn sat vd va vb s hI
  | .vsub c sz sgn sat vd va vb => execVsub_inv c sz sgn sat vd va vb s hI
  | .vmul c sz vd va vb => execVmul_inv c sz vd va vb s hI
  | .vmulh c sz sgn vd va vb => execVmulh_inv c sz sgn vd va vb s hI
  | .vmad c sz vd va vb vc => execVmad_inv c sz vd va vb vc s hI
  | .vmin c sz sgn vd va vb => execVmin_inv c sz sgn vd va vb s hI
  | .vmax c sz sgn vd va vb => execVmax_inv c sz sgn vd va vb s hI
  | .vabs c sz sat vd va => execVabs_inv c sz sat vd va s hI
  | .vneg c sz sat vd va => execVneg_inv c sz sat vd va s hI
  | .vand c sz vd va vb => execVand_inv c sz vd va vb s hI
  | .vor c sz vd va vb => execVor_inv c sz vd va vb s hI
  | .vxor c sz vd va vb => execVxor_inv c sz vd va vb s hI
  | .vnot c sz vd va => execVnot_inv c sz vd va s hI
  | .vshl c sz vd va vb => execVshl_inv c sz vd va vb s hI
  | .vshr c sz vd va vb => execVshr_inv c sz vd va vb s hI
  | .vsra c sz vd va vb => execVsra_inv c sz vd va vb s hI
  | .vclz c sz vd va => execVclz_inv c sz vd va s hI
  | .vpopc c sz vd va => execVpopc_inv c sz vd va s hI
  | .fadd c ty vd va vb => execFadd_inv c ty vd va vb s hI
  | .fsub c ty vd va vb => execFsub_inv c ty vd va vb s hI
  | .fmul c ty vd va vb => execFmul_inv c ty vd va vb s hI
  | .ffma c ty vd va vb vc => execFfma_inv c ty vd va vb vc s hI
  | .ffms c ty vd va vb vc => execFfms_inv c ty vd va vb vc s hI
  | .fmin c ty vd va vb => execFmin_inv c ty vd va vb s hI
  | .fmax c ty vd va vb => execFmax_inv c ty vd va vb s hI
  | .fabs c ty vd va => execFabs_inv c ty vd va s hI
  | .fneg c ty vd va => execFneg_inv c ty vd va s hI
  | .fcps c ty vd va vb => execFcps_inv c ty vd va vb s hI
  | .fexp2 c ty vd va => execFexp2_inv c ty vd va s hI
  | .flog2 c ty vd va => execFlog2_inv c ty vd va s hI
  | .frcp c ty vd va => execFrcp_inv c ty vd va s hI
  | .frsq c ty vd va => execFrsq_inv c ty vd va s hI
  | .fsqrt c ty vd va => execFsqrt_inv c ty vd va s hI
  | .ftanh c ty vd va => execFtanh_inv c ty vd va s hI
  | .fsigm c ty vd va => execFsigm_inv c ty vd va s hI
  | .fsin c ty vd va => execFsin_inv c ty vd va s hI
  | .fcos c ty vd va => execFcos_inv c ty vd va s hI
  | .vcmp c sz cond pd va vb => execVcmp_inv c sz cond pd va vb s hI
  | .fcmp c ty cond pd va vb => execFcmp_inv c ty cond pd va vb s hI
  | .vsel c sz vd va vb => execVsel_inv c sz vd va vb s hI
  | .fcls c ty vd va => execFcls_inv c ty vd va s hI
  | .vcvt c k rm nsat vd va => execVcvt_inv c k rm nsat vd va s hI
  | .vpack sz sat vd va vb => execVpack_inv sz sat vd va vb s hI
  | .vunpk sz sgn hi vd va => execVunpk_inv sz sgn hi vd va s hI
  | .vqnt fs vd va => execVqnt_inv fs vd va s hI
  | .vdqt fs vd va => execVdqt_inv fs vd va s hI
  | .vred c k vd va => execVred_inv c k vd va s hI
  | .vamax c ty m vd va => execVamax_inv c ty m vd va s hI
  | .vscan c k excl vd va => execVscan_inv c k excl vd va s hI
  | .vperm c sz vd va vb => execVperm_inv c sz vd va vb s hI
  | .vshuf c sz vd va vb vc => execVshuf_inv c sz vd va vb vc s hI
  | .vbcst c sz idx vd va => execVbcst_inv c sz idx vd va s hI
  | .vsld c sz k vd va vb => execVsld_inv c sz k vd va vb s hI
  | .vzip c sz hi vd va vb => execVzip_inv c sz hi vd va vb s hI
  | .vmov c sz rep vd va => execVmov_inv c sz rep vd va s hI
  | .vmovi c sz imm vd => execVmovi_inv c sz imm vd s hI
  | .pand c pd pa pb => execPand_inv c pd pa pb s hI
  | .por c pd pa pb => execPor_inv c pd pa pb s hI
  | .pxor c pd pa pb => execPxor_inv c pd pa pb s hI
  | .pnot c pd pa => execPnot_inv c pd pa s hI
  | .pcnt c sz pd pa => execPcnt_inv c sz pd pa s hI
  | .pfirst c sz pd pa => execPfirst_inv c sz pd pa s hI
  | .vrnd c m vd => execVrnd_inv c m vd s hI
  | .vchk rng mir ty trp t pd va vb => execVchk_inv rng mir ty trp t pd va vb s hI
  | .mbld fs pl ck aa off => execMbld_inv fs pl ck aa off s hI
  | .mbldh pl => execMbldh_inv pl s hI
  | .mrow op bk fs pl va m st hoff vh => execMrow_inv op bk fs pl va m st hoff vh s hI
  | .mchk bk fs pl reg st => execMchk_inv bk fs pl reg st s hI
  | .mzero bk => execMzero_inv bk s hI
  | .macc bd bs => execMacc_inv bd bs s hI
  | .mdrn bk fs m nochk ckw tm col => execMdrn_inv bk fs m nochk ckw tm col s hI
  | .mdrnk bk fs va k nochk mode m nr rb => execMdrnk_inv bk fs va k nochk mode m nr rb s hI
  | .mstat va clr => execMstat_inv va clr s hI
  | .mrd bk va ln => execMrd_inv bk va ln s hI
  | .mwr bk va ln => execMwr_inv bk va ln s hI
  | .mrot bd bs pl m => execMrot_inv bd bs pl m s hI
  | .mdiag va => execMdiag_inv va s hI
  | .mspr va persist row => execMspr_inv va persist row s hI
  | .xld o => execXld_inv o s hI
  | .xldw o => execXldw_inv o s hI
  | .xst o => execXst_inv o s hI
  | .xput o => execXput_inv o s hI
  | .xb o => execXb_inv o s hI
  | .xpsh one sa sb => execXpsh_inv one sa sb s hI
  | .xgth o => execXgth_inv o s hI
  | .xsct o => execXsct_inv o s hI
  | .xchn o => execXchn_inv o s hI
  | .xpair o => execXpair_inv o s hI
  | .xfil sp o => execXfil_inv sp o s hI
  | .xcol k o => execXcol_inv k o s hI
  | .xfen o => execXfen_inv o s hI
  | .xcan all sq => execXcan_inv all sq s hI
  | .dadd m dd da db => execDadd_inv m dd da db s hI
  | .dsub m dd da db => execDsub_inv m dd da db s hI
  | .dmul m dd da db => execDmul_inv m dd da db s hI
  | .dmax m dd da db => execDmax_inv m dd da db s hI
  | .dmin m dd da db => execDmin_inv m dd da db s hI
  | .daff dd da va => execDaff_inv dd da va s hI
  | .dmap f dd da => execDmap_inv f dd da s hI
  | .dmix dd da db va => execDmix_inv dd da db va s hI
  | .dfrs dd va => execDfrs_inv dd va s hI
  | .dfrw dd va => execDfrw_inv dd va s hI
  | .dpnt dd va => execDpnt_inv dd va s hI
  | .dsmp va da => execDsmp_inv va da s hI
  | .dmom va da => execDmom_inv va da s hI
  | .dqnt lin da va => execDqnt_inv lin da va s hI
  | .dtag op dd da va => execDtag_inv op dd da va s hI
  | .dmov sel dd da => execDmov_inv sel dd da s hI
  | .dcnd dd da va => execDcnd_inv dd da va s hI
  | .send pt ind c p => execSend_inv pt ind c p s hI
  | .recv pr c => execRecv_inv pr c s hI
  | .rrs rop pr pt ind c p => execRrs_inv rop pr pt ind c p s hI
  | .rrd rop pr c => execRrd_inv rop pr c s hI
  | .copy c => execCopy_inv c s hI
  | .waitc c => execWaitc_inv c s hI
  | .sig ind idx p => execSig_inv ind idx p s hI
  | .sigBit b => execSigBit_inv b s hI
  | .waits idx n => execWaits_inv idx n s hI
  | .bzLoop gd n => execBzLoop_inv gd n s hI
  | .setv gd imm => execSetv_inv gd imm s hI
  | .addv gd ga imm => execAddv_inv gd ga imm s hI
  | .peer gd p => execPeer_inv gd p s hI
  | .peerInd gd pg => execPeerInd_inv gd pg s hI
  | .peerXor gd pg => execPeerXor_inv gd pg s hI
  | .bar acq rel => execBar_inv acq rel s hI
  | .chunkCount c k chunk inc o => execChunkCount_inv c k chunk inc o s hI
  | .deliveryComplete id => execDeliveryComplete_inv id s hI
  | .deliveryFailure id => execDeliveryFailure_inv id s hI
  | .buntingWindowReread task => execBuntingWindowReread_inv task s hI
  | .windowTimeout task => execWindowTimeout_inv task s hI
  | .preemptionFreeze task gang => execPreemptionFreeze_inv task gang s hI
  | .checkpointSave task gang => execCheckpointSave_inv task gang s hI
  | .gangResume task gang => execGangResume_inv task gang s hI
  | .killdone ctx => execKilldone_inv ctx s hI
  | .runEnd c => execRunEnd_inv c s hI
  | .farAccessHoldEnd c => execFarAccessHoldEnd_inv c s hI
  | .pwaitResume c => execPwaitResume_inv c s hI
  | .bwaitComplete c => execBwaitComplete_inv c s hI
  | .ttsyncRelease c => execTtsyncRelease_inv c s hI
  | .lnchAnswer c => execLnchAnswer_inv c s hI
  | .amaxfComplete c => execAmaxfComplete_inv c s hI
  | .holdTimeout c => execHoldTimeout_inv c s hI
  | .slipLimit c => execSlipLimit_inv c s hI
  | .slipEnd c => execSlipEnd_inv c s hI
  | .codeFetchArrival c => execCodeFetchArrival_inv c s hI
  | .gatherEntryArrival c => execGatherEntryArrival_inv c s hI
  | .copyCommandStart c => execCopyCommandStart_inv c s hI
  | .copyCommandComplete c => execCopyCommandComplete_inv c s hI
  | .bsetPerform c => execBsetPerform_inv c s hI
  | .postedAtomPerform c => execPostedAtomPerform_inv c s hI
  | .updateLineMerge c line => execUpdateLineMerge_inv c line s hI
  | .windowWrite c => execWindowWrite_inv c s hI
  | .resultLanding c => execResultLanding_inv c s hI
  | .scratchpadPerform c => execScratchpadPerform_inv c s hI
  | .planeReady c => execPlaneReady_inv c s hI
  | .arrayColumnStep c => execArrayColumnStep_inv c s hI
  | .drainComplete c => execDrainComplete_inv c s hI
  | .maintenanceRun c => execMaintenanceRun_inv c s hI
  | .tlbInvalidationComplete ctx lo hi => execTlbInvalidationComplete_inv ctx lo hi s hI
  | .throttleHoldEnd c => execThrottleHoldEnd_inv c s hI
  | .generatorReseed c unit => execGeneratorReseed_inv c unit s hI
  | .translationReplay c => execTranslationReplay_inv c s hI
  | .kill ctx => execKill_inv ctx s hI
  | .droopDetect c => execDroopDetect_inv c s hI
  | .bozoakContextTurn => execBozoakContextTurn_inv s hI
  | .bzcmdStart via k => execBzcmdStart_inv via k s hI
  | .bzcmdStop via k => execBzcmdStop_inv via k s hI
  | .bzcmdClrcnt via k => execBzcmdClrcnt_inv via k s hI
  | .bzbindWrite k v => execBzbindWrite_inv k v s hI
  | .signalArrival k idx => execSignalArrival_inv k idx s hI
  | .hostLaunchDoorbell w tag => execHostLaunchDoorbell_inv w tag s hI
  | .completionHeadWrite w v => execCompletionHeadWrite_inv w v s hI
  | .supervisorRecord rcd => execSupervisorRecord_inv rcd s hI
  | .forwardedFabricRecord sender rcd pos => execForwardedFabricRecord_inv sender rcd pos s hI
  | .launchDispatch => execLaunchDispatch_inv s hI
  | .ageingPeriod => execAgeingPeriod_inv s hI
  | .remotePennantUpdate c addr operand => execRemotePennantUpdate_inv c addr operand s hI
  | .launchWindowBind w bound ctx => execLaunchWindowBind_inv w bound ctx s hI
  | .contextDescriptorWrite ctx v => execContextDescriptorWrite_inv ctx v s hI
  | .peerWindowWrite x0 v => execPeerWindowWrite_inv x0 v s hI
  | .peerInboundRequest src k off data => execPeerInboundRequest_inv src k off data s hI
  | .snapshotDescriptorWrite x0 v => execSnapshotDescriptorWrite_inv x0 v s hI
  | .snaproll x0 => execSnaproll_inv x0 s hI
  | .tlbInvalidation ctx lo hi => execTlbInvalidation_inv ctx lo hi s hI
  | .pcapWrite watts => execPcapWrite_inv watts s hI
  | .temperatureLimitWrite warn crit => execTemperatureLimitWrite_inv warn crit s hI
  | .columnEventLimitWrite thr seconds => execColumnEventLimitWrite_inv thr seconds s hI
  | .halt c => execHalt_inv c s hI
  | .step c => execStep_inv c s hI
  | .resume c => execResume_inv c s hI
  | .rdreg c r => execRdreg_inv c r s hI
  | .wrreg c r v => execWrreg_inv c r v s hI
  | .rdimg c core => execRdimg_inv c core s hI
  | .edimg c core entry e => execEdimg_inv c core entry e s hI
  | .handover nonce => execHandover_inv nonce s hI
  | .handoverStepOverrun => execHandoverStepOverrun_inv s hI
  | .getVersion => execGetVersion_inv s hI
  | .getCapabilities => execGetCapabilities_inv s hI
  | .negotiateAlgorithms offer => execNegotiateAlgorithms_inv offer s hI
  | .getDigests => execGetDigests_inv s hI
  | .getCertificate slot off len => execGetCertificate_inv slot off len s hI
  | .challenge slot nonce => execChallenge_inv slot nonce s hI
  | .getMeasurements index sign nonce => execGetMeasurements_inv index sign nonce s hI
  | .keyExchange exch => execKeyExchange_inv exch s hI
  | .finish session mac => execFinish_inv session mac s hI
  | .endSession session => execEndSession_inv session s hI
  | .ideKm session port link key => execIdeKm_inv session port link key s hI
  | .powerWindow => execPowerWindow_inv s hI
  | .monitorSample => execMonitorSample_inv s hI
  | .patrolScrub => execPatrolScrub_inv s hI
  | .linkFailure link => execLinkFailure_inv link s hI
  | .coldReset => execColdReset_inv s hI
  | .warmReset => execWarmReset_inv s hI
  | .registerWrite off v => execRegisterWrite_inv off v s hI
  | .noiseSourceFailure c => execNoiseSourceFailure_inv c s hI
  | .measurementSlotExtend slot digest => execMeasurementSlotExtend_inv slot digest s hI
  | .hostHdmAccess k addr data => execHostHdmAccess_inv k addr data s hI
  | .forwardedRecordRefusal task => execForwardedRecordRefusal_inv task s hI
  | .nop => execNop_inv s hI
  | .endl => execEndl_inv s hI
  | .ttsync => execTtsync_inv s hI
  | .rft => execRft_inv s hI
  | .endRun => execEndRun_inv s hI
  | .yieldRun => execYieldRun_inv s hI
  | .bzEndl => execBzEndl_inv s hI
  | .bzEnd => execBzEnd_inv s hI
  | .bzNop => execBzNop_inv s hI

/-! ### Turns -/

theorem andThen_inv {r : Res} {f : State → Res} (h : ResInv r) (hf : ∀ s, s.Inv → ResInv (f s)) : ResInv (andThen r f) := by
  cases r with
  | next s => exact hf s h
  | fault e => exact h
  | refused e => exact h

theorem runSlots_inv (l : List (Slot × Instr)) (s : State) (hI : s.Inv) : ResInv (runSlots l s) := by
  suffices h : ∀ r : Res, ResInv r → ResInv (l.foldl (fun r x => andThen r fun s => exec x.2 (s.at' x.1)) r) from h _ hI
  induction l with
  | nil => exact fun r h => h
  | cons x l ih => exact fun r h => ih _ (andThen_inv h fun s hs => exec_inv _ _ (State.at'_inv s x.1 hs))

theorem runHurt_inv (c : Nat) (l : List (Slot × Instr)) (s : State) (hI : s.Inv) : ResInv (runHurt c l s) := by
  unfold runHurt
  generalize s.cl c = k
  dsimp only
  suffices h : ∀ r : Res, ResInv r → ResInv (l.foldl _ r) from h _ hI
  intro r hr
  refine List.foldlRecOn l _ hr fun r hr x _ => andThen_inv hr fun s hs => ite_inv (exec_inv _ _ (State.at'_inv _ _ hs)) (ite_inv (onCl_inv _ _ hs) ?_)
  exact andThen_inv (exec_inv _ _ (State.at'_inv _ _ (onCl_inv _ _ hs))) fun s hs => onCl_inv _ _ hs

theorem runBundle_inv (c : Nat) (l : List (Slot × Instr)) (s : State) (hI : s.Inv) : ResInv (runBundle c l s) := by
  unfold runBundle
  try dsimp only
  repeat' (first | (with_reducible assumption) | (with_reducible rfl) | (with_reducible apply next_inv) | (with_reducible refine inv_snd (by assumption) ?_) | (with_reducible refine inv_fst (by assumption) ?_) | (with_reducible apply foldl_inv; intros) | (with_reducible apply foldl_inv2; intros) | (with_reducible apply foldl_inv1; intros) | (simp only [inv_lit]; with_reducible apply keyOk_mk) | (with_reducible apply wrByte_wf) | (with_reducible apply wrBytes_wf) | (with_reducible apply inv_mem) | (with_reducible apply inv_outer) | (exact memWf_nil) | (with_reducible apply runSlots_inv) | (with_reducible apply runHurt_inv) | (intro _) | (with_reducible refine (id ?_ : List.length _ = List.length _); simp; done) | split | dsimp only)

theorem State.issueBundle_inv (s : State) (c : Nat) (l : List (Slot × Instr)) (len : Nat) (hI : s.Inv) : ResInv (State.issueBundle s c l len) := by
  unfold State.issueBundle
  refine andThen_inv (runBundle_inv _ _ _ (State.linkNow_inv _ _ _ (onCl_inv _ _ hI))) fun s hs => ?_
  dsimp only
  refine next_inv ?_
  repeat' split
  all_goals exact onCl_inv _ _ hs

theorem State.tryBundle_inv (s : State) (c : Nat) (b : Slots) (len : Nat) (hI : s.Inv) : ResInv (State.tryBundle s c b len) := by
  unfold State.tryBundle
  try dsimp only
  repeat' (first | (with_reducible assumption) | (with_reducible rfl) | (with_reducible apply next_inv) | (with_reducible refine inv_snd (by assumption) ?_) | (with_reducible refine inv_fst (by assumption) ?_) | (with_reducible apply foldl_inv; intros) | (with_reducible apply foldl_inv2; intros) | (with_reducible apply foldl_inv1; intros) | (simp only [inv_lit]; with_reducible apply keyOk_mk) | (with_reducible apply wrByte_wf) | (with_reducible apply wrBytes_wf) | (with_reducible apply inv_mem) | (with_reducible apply inv_outer) | (exact memWf_nil) | (with_reducible apply State.issueTrap_inv) | (with_reducible apply onCl_inv) | (with_reducible apply State.takeTrap_inv) | (with_reducible apply State.poisonTrap_inv) | (with_reducible apply State.beginHold_inv) | (with_reducible apply State.issueBundle_inv) | (intro _) | (with_reducible refine (id ?_ : List.length _ = List.length _); simp; done) | split | dsimp only)

theorem State.awaitLine_inv (s : State) (c line : Nat) (hI : s.Inv) : (State.awaitLine s c line).Inv := by
  unfold State.awaitLine
  try dsimp only
  repeat' (first | (with_reducible assumption) | (with_reducible rfl) | (with_reducible apply next_inv) | (with_reducible refine inv_snd (by assumption) ?_) | (with_reducible refine inv_fst (by assumption) ?_) | (with_reducible apply foldl_inv; intros) | (with_reducible apply foldl_inv2; intros) | (with_reducible apply foldl_inv1; intros) | (simp only [inv_lit]; with_reducible apply keyOk_mk) | (with_reducible apply wrByte_wf) | (with_reducible apply wrBytes_wf) | (with_reducible apply inv_mem) | (with_reducible apply inv_outer) | (exact memWf_nil) | (with_reducible apply onCl_inv) | (with_reducible apply State.issueTrap_inv) | (with_reducible apply State.free_inv) | (intro _) | (with_reducible refine (id ?_ : List.length _ = List.length _); simp; done) | split | dsimp only)

theorem State.prefetch_inv (s : State) (c : Nat) (hI : s.Inv) : (State.prefetch s c).Inv := by
  unfold State.prefetch
  try dsimp only
  repeat' (first | (with_reducible assumption) | (with_reducible rfl) | (with_reducible apply next_inv) | (with_reducible refine inv_snd (by assumption) ?_) | (with_reducible refine inv_fst (by assumption) ?_) | (with_reducible apply foldl_inv; intros) | (with_reducible apply foldl_inv2; intros) | (with_reducible apply foldl_inv1; intros) | (simp only [inv_lit]; with_reducible apply keyOk_mk) | (with_reducible apply wrByte_wf) | (with_reducible apply wrBytes_wf) | (with_reducible apply inv_mem) | (with_reducible apply inv_outer) | (exact memWf_nil) | (with_reducible apply State.free_inv) | (with_reducible apply onCl_inv) | (intro _) | (with_reducible refine (id ?_ : List.length _ = List.length _); simp; done) | split | dsimp only)

theorem State.takePoints_inv (s : State) (c : Nat) (due : List CpTrap) (hI : s.Inv) : (State.takePoints s c due).Inv := by
  unfold State.takePoints
  try dsimp only
  repeat' (first | (with_reducible assumption) | (with_reducible rfl) | (with_reducible apply next_inv) | (with_reducible refine inv_snd (by assumption) ?_) | (with_reducible refine inv_fst (by assumption) ?_) | (with_reducible apply foldl_inv; intros) | (with_reducible apply foldl_inv2; intros) | (with_reducible apply foldl_inv1; intros) | (simp only [inv_lit]; with_reducible apply keyOk_mk) | (with_reducible apply wrByte_wf) | (with_reducible apply wrBytes_wf) | (with_reducible apply inv_mem) | (with_reducible apply inv_outer) | (exact memWf_nil) | (with_reducible apply onCl_inv) | (with_reducible apply State.takeTrap_inv) | (intro _) | (with_reducible refine (id ?_ : List.length _ = List.length _); simp; done) | split | dsimp only)

theorem State.dueTrap_inv {s t : State} {c : Nat} (e : s.dueTrap c = some t) (hI : s.Inv) : t.Inv := by
  unfold State.dueTrap at e
  dsimp only at e
  split at e <;> cases e
  · exact State.takeSoft_inv _ _ _ _ hI
  · exact State.takeTrap_inv _ _ _ _ _ _ _ (onCl_inv _ _ hI)
  · exact State.takePoints_inv _ _ _ hI

theorem State.dueBlind_inv {s t : State} {c line : Nat} (e : s.dueBlind c line = some t) (hI : s.Inv) : t.Inv := by
  unfold State.dueBlind at e
  dsimp only at e
  have h := State.skipPad_inv c 512 (s.cl c).pc s hI
  revert h e
  generalize State.skipPad c 512 (s.cl c).pc s = q
  obtain ⟨a, u⟩ := q
  intro e h
  split at e
  · exact State.dueTrap_inv e (onCl_inv _ _ h)
  · cases e

theorem State.atPc_inv (s : State) (c n : Nat) (hI : s.Inv) : ResInv (s.atPc c n) := by
  induction n generalizing s with
  | zero => exact hI
  | succ n ih =>
    unfold State.atPc
    dsimp only
    split
    · show ((s.dueBlind c _).getD _).Inv
      cases e : s.dueBlind c ((s.cl c).pc.toNat / 64) with
      | some t => exact State.dueBlind_inv e hI
      | none => exact State.awaitLine_inv _ _ _ hI
    · split
      · exact ih _ (onCl_inv _ _ hI)
      · cases e : s.dueTrap c with
        | some t => exact State.dueTrap_inv e hI
        | none => exact State.tryBundle_inv _ _ _ _ hI
      · cases e : s.dueTrap c with
        | some t => exact State.dueTrap_inv e hI
        | none => exact State.issueTrap_inv _ _ _ hI

theorem State.maintIssue_inv (s : State) (c : Nat) (m : BitVec 256) (i : Instr) (then' : MaintSt) (hI : s.Inv) : ResInv (s.maintIssue c m i then') :=
  andThen_inv (exec_inv _ _ (State.at'_inv _ _ (onCl_inv _ _ hI))) fun _ h => onCl_inv _ _ h

theorem State.maintTurn_inv (s : State) (c : Nat) (hI : s.Inv) : ResInv (State.maintTurn s c) := by
  unfold State.maintTurn
  try dsimp only
  repeat' (first | (with_reducible assumption) | (with_reducible rfl) | (with_reducible apply next_inv) | (with_reducible refine inv_snd (by assumption) ?_) | (with_reducible refine inv_fst (by assumption) ?_) | (with_reducible apply foldl_inv; intros) | (with_reducible apply foldl_inv2; intros) | (with_reducible apply foldl_inv1; intros) | (simp only [inv_lit]; with_reducible apply keyOk_mk) | (with_reducible apply wrByte_wf) | (with_reducible apply wrBytes_wf) | (with_reducible apply inv_mem) | (with_reducible apply inv_outer) | (exact memWf_nil) | (with_reducible apply State.maintIssue_inv) | (with_reducible apply onCl_inv) | (intro _) | (with_reducible refine (id ?_ : List.length _ = List.length _); simp; done) | split | dsimp only)

theorem State.issueTurn_inv (s : State) (c : Nat) (hI : s.Inv) : ResInv (s.issueTurn c) := by
  unfold State.issueTurn
  have hq : ({ s with cur := ⟨c, .s, s.cur.bz⟩ } : State).Inv := hI
  revert hq
  generalize ({ s with cur := ⟨c, .s, s.cur.bz⟩ } : State) = q
  intro hq
  dsimp only
  refine ite_inv hq (ite_inv (onCl_inv _ _ hq) (ite_inv ?_ (ite_inv (State.maintTurn_inv _ _ hq) (State.atPc_inv _ _ _ (onCl_inv _ _ hq)))))
  cases e : q.dueTrap c with
  | some t => exact State.dueTrap_inv e hq
  | none => exact ite_inv (onCl_inv _ _ hq) (State.beginHold_inv _ _ _ hq)

theorem State.probeTurn_inv (s : State) (c : Nat) (hI : s.Inv) : (s.probeTurn c).Inv := by
  unfold State.probeTurn
  dsimp only
  split
  · split
    · refine ⟨hI.1, ⟨?_, hI.2.1.2⟩, hI.2.2⟩
      simpa [State.onCl, State.setCl] using hI.2.1.1
    · exact hI
  · exact hI

theorem State.bozoakWord_inv (s : State) (k : Nat) (hI : s.Inv) : ResInv (State.bozoakWord s k) := by
  unfold State.bozoakWord
  try dsimp only
  repeat' (first | (with_reducible assumption) | (with_reducible rfl) | (with_reducible apply next_inv) | (with_reducible refine inv_snd (by assumption) ?_) | (with_reducible refine inv_fst (by assumption) ?_) | (with_reducible apply foldl_inv; intros) | (with_reducible apply foldl_inv2; intros) | (with_reducible apply foldl_inv1; intros) | (simp only [inv_lit]; with_reducible apply keyOk_mk) | (with_reducible apply wrByte_wf) | (with_reducible apply wrBytes_wf) | (with_reducible apply inv_mem) | (with_reducible apply inv_outer) | (exact memWf_nil) | (with_reducible apply State.bzFault_inv) | (with_reducible apply State.hWord_inv) | (with_reducible apply exec_inv) | (intro _) | (with_reducible refine (id ?_ : List.length _ = List.length _); simp; done) | split | dsimp only)

theorem State.holdsTurn_inv (s : State) (c : Nat) (hI : s.Inv) : (State.holdsTurn s c).Inv := by
  unfold State.holdsTurn
  try dsimp only
  repeat' (first | (with_reducible assumption) | (with_reducible rfl) | (with_reducible apply next_inv) | (with_reducible refine inv_snd (by assumption) ?_) | (with_reducible refine inv_fst (by assumption) ?_) | (with_reducible apply foldl_inv; intros) | (with_reducible apply foldl_inv2; intros) | (with_reducible apply foldl_inv1; intros) | (simp only [inv_lit]; with_reducible apply keyOk_mk) | (with_reducible apply wrByte_wf) | (with_reducible apply wrBytes_wf) | (with_reducible apply inv_mem) | (with_reducible apply inv_outer) | (exact memWf_nil) | (with_reducible apply onCl_inv) | (with_reducible apply State.pace_inv) | (with_reducible apply State.land_inv) | (intro _) | (with_reducible refine (id ?_ : List.length _ = List.length _); simp; done) | split | dsimp only)

theorem State.cycleTurn_inv (s : State) (c : Nat) (hI : s.Inv) : (State.cycleTurn s c).Inv := by
  unfold State.cycleTurn
  try dsimp only
  repeat' (first | (with_reducible assumption) | (with_reducible rfl) | (with_reducible apply next_inv) | (with_reducible refine inv_snd (by assumption) ?_) | (with_reducible refine inv_fst (by assumption) ?_) | (with_reducible apply foldl_inv; intros) | (with_reducible apply foldl_inv2; intros) | (with_reducible apply foldl_inv1; intros) | (simp only [inv_lit]; with_reducible apply keyOk_mk) | (with_reducible apply wrByte_wf) | (with_reducible apply wrBytes_wf) | (with_reducible apply inv_mem) | (with_reducible apply inv_outer) | (exact memWf_nil) | (with_reducible apply onCl_inv) | (with_reducible apply State.endCycle_inv) | (with_reducible apply State.runOn_inv) | (intro _) | (with_reducible refine (id ?_ : List.length _ = List.length _); simp; done) | split | dsimp only)

theorem State.engineTurn_inv (s : State) (c : Nat) (hI : s.Inv) : (State.engineTurn s c).Inv := by
  unfold State.engineTurn
  try dsimp only
  repeat' (first | (with_reducible assumption) | (with_reducible rfl) | (with_reducible apply next_inv) | (with_reducible refine inv_snd (by assumption) ?_) | (with_reducible refine inv_fst (by assumption) ?_) | (with_reducible apply foldl_inv; intros) | (with_reducible apply foldl_inv2; intros) | (with_reducible apply foldl_inv1; intros) | (simp only [inv_lit]; with_reducible apply keyOk_mk) | (with_reducible apply wrByte_wf) | (with_reducible apply wrBytes_wf) | (with_reducible apply inv_mem) | (with_reducible apply inv_outer) | (exact memWf_nil) | (with_reducible apply State.prefetch_inv) | (with_reducible apply State.free_inv) | (intro _) | (with_reducible refine (id ?_ : List.length _ = List.length _); simp; done) | split | dsimp only)

theorem State.deliveryEvents_inv (s : State) (hI : s.Inv) : (State.deliveryEvents s).2.Inv := by
  unfold State.deliveryEvents
  try dsimp only
  repeat' (first | (with_reducible assumption) | (with_reducible rfl) | (with_reducible apply next_inv) | (with_reducible refine inv_snd (by assumption) ?_) | (with_reducible refine inv_fst (by assumption) ?_) | (with_reducible apply foldl_inv; intros) | (with_reducible apply foldl_inv2; intros) | (with_reducible apply foldl_inv1; intros) | (simp only [inv_lit]; with_reducible apply keyOk_mk) | (with_reducible apply wrByte_wf) | (with_reducible apply wrBytes_wf) | (with_reducible apply inv_mem) | (with_reducible apply inv_outer) | (exact memWf_nil) | (with_reducible apply State.free_inv) | (intro _) | (with_reducible refine (id ?_ : List.length _ = List.length _); simp; done) | split | dsimp only)

theorem State.launchEvents_inv (s : State) (hI : s.Inv) : (State.launchEvents s).2.Inv := by
  unfold State.launchEvents
  try dsimp only
  repeat' (first | (with_reducible assumption) | (with_reducible rfl) | (with_reducible apply next_inv) | (with_reducible refine inv_snd (by assumption) ?_) | (with_reducible refine inv_fst (by assumption) ?_) | (with_reducible apply foldl_inv; intros) | (with_reducible apply foldl_inv2; intros) | (with_reducible apply foldl_inv1; intros) | (simp only [inv_lit]; with_reducible apply keyOk_mk) | (with_reducible apply wrByte_wf) | (with_reducible apply wrBytes_wf) | (with_reducible apply inv_mem) | (with_reducible apply inv_outer) | (exact memWf_nil) | (with_reducible apply State.free_inv) | (intro _) | (with_reducible refine (id ?_ : List.length _ = List.length _); simp; done) | split | dsimp only)

theorem State.halyardTurn_inv (s : State) (hI : s.Inv) : (State.halyardTurn s).Inv := by
  unfold State.halyardTurn
  try dsimp only
  repeat' (first | (with_reducible assumption) | (with_reducible rfl) | (with_reducible apply next_inv) | (with_reducible refine inv_snd (by assumption) ?_) | (with_reducible refine inv_fst (by assumption) ?_) | (with_reducible apply foldl_inv; intros) | (with_reducible apply foldl_inv2; intros) | (with_reducible apply foldl_inv1; intros) | (simp only [inv_lit]; with_reducible apply keyOk_mk) | (with_reducible apply wrByte_wf) | (with_reducible apply wrBytes_wf) | (with_reducible apply inv_mem) | (with_reducible apply inv_outer) | (exact memWf_nil) | (with_reducible apply State.handTurn_inv) | (with_reducible apply State.deliveryEvents_inv) | (with_reducible apply State.launchEvents_inv) | (intro _) | (with_reducible refine (id ?_ : List.length _ = List.length _); simp; done) | split | dsimp only)

theorem State.newCycle_inv (s : State) (hI : s.Inv) : (State.newCycle s).Inv := by
  unfold State.newCycle
  try dsimp only
  repeat' (first | (with_reducible assumption) | (with_reducible rfl) | (with_reducible apply next_inv) | (with_reducible refine inv_snd (by assumption) ?_) | (with_reducible refine inv_fst (by assumption) ?_) | (with_reducible apply foldl_inv; intros) | (with_reducible apply foldl_inv2; intros) | (with_reducible apply foldl_inv1; intros) | (simp only [inv_lit]; with_reducible apply keyOk_mk) | (with_reducible apply wrByte_wf) | (with_reducible apply wrBytes_wf) | (with_reducible apply inv_mem) | (with_reducible apply inv_outer) | (exact memWf_nil) | (intro _) | (with_reducible refine (id ?_ : List.length _ = List.length _); simp; done) | split | dsimp only)

theorem fault_inv {e : Fault} : ResInv (.fault e) := trivial
theorem turn_inv (t : Turn) (s : State) (hI : s.Inv) : ResInv (turn t s) := by
  cases t <;> unfold turn <;> dsimp only
  · exact exec_inv _ _ hI
  all_goals first | exact State.halyardTurn_inv _ hI | split
  all_goals first | exact fault_inv | exact State.holdsTurn_inv _ _ hI | exact State.cycleTurn_inv _ _ hI | exact State.issueTurn_inv _ _ hI | exact State.engineTurn_inv _ _ hI | exact State.bozoakWord_inv _ _ hI | exact State.probeTurn_inv _ _ hI

theorem State.advance_inv (s : State) (hI : s.Inv) : ResInv (State.advance s) := by
  unfold State.advance
  try dsimp only
  repeat' (first | (with_reducible assumption) | (with_reducible rfl) | (with_reducible apply next_inv) | (with_reducible refine inv_snd (by assumption) ?_) | (with_reducible refine inv_fst (by assumption) ?_) | (with_reducible apply foldl_inv; intros) | (with_reducible apply foldl_inv2; intros) | (with_reducible apply foldl_inv1; intros) | (simp only [inv_lit]; with_reducible apply keyOk_mk) | (with_reducible apply wrByte_wf) | (with_reducible apply wrBytes_wf) | (with_reducible apply inv_mem) | (with_reducible apply inv_outer) | (exact memWf_nil) | (with_reducible apply State.newCycle_inv) | (with_reducible apply turn_inv) | (intro _) | (with_reducible refine (id ?_ : List.length _ = List.length _); simp; done) | split | dsimp only)


end Sys2Proof.Machine
end

