-- ==== Sys2Proof/Laws/Layout.lean ====
section
/-!
SUPPORT. What the fields of the layouts read from a word made of fields, and what the enumerated codes decode to.
-/
namespace Sys2Proof

/-! ### Fields of a concatenation -/

@[simp] theorem extract_low {n m : Nat} (x : BitVec n) (y : BitVec m) (k w : Nat) (h : k + w ≤ m) :
    BitVec.extractLsb' k w (no_index (x ++ y)) = y.extractLsb' k w := by
  apply BitVec.eq_of_getLsbD_eq
  intro i hi
  simp only [BitVec.getLsbD_extractLsb', BitVec.getLsbD_append]
  have h1 : k + i < m := by omega
  simp [h1, hi]

@[simp] theorem extract_high {n m : Nat} (x : BitVec n) (y : BitVec m) (k w : Nat) (h : m ≤ k) :
    BitVec.extractLsb' k w (no_index (x ++ y)) = x.extractLsb' (k - m) w := by
  apply BitVec.eq_of_getLsbD_eq
  intro i hi
  simp only [BitVec.getLsbD_extractLsb', BitVec.getLsbD_append]
  have h1 : ¬ k + i < m := by omega
  have h2 : k + i - m = k - m + i := by omega
  simp [h1, hi, h2]

@[simp] theorem extract_all {n : Nat} (x : BitVec n) : x.extractLsb' 0 n = x := by
  apply BitVec.eq_of_getLsbD_eq
  intro i hi
  simp [hi]

/-- Two neighbouring fields make the field they lie in. -/
theorem extract_join {n : Nat} (x : BitVec n) (lo a b : Nat) :
    x.extractLsb' (lo + b) a ++ x.extractLsb' lo b = x.extractLsb' lo (a + b) := by
  apply BitVec.eq_of_getLsbD_eq
  intro i hi
  simp only [BitVec.getLsbD_extractLsb', BitVec.getLsbD_append]
  by_cases h : i < b
  · simp [h, hi]
  · have h1 : lo + b + (i - b) = lo + i := by omega
    have h2 : i - b < a := by omega
    simp [h, hi, h1, h2]

@[simp] theorem bit_zero : bit 0#1 = false := rfl
@[simp] theorem bit_one : bit 1#1 = true := rfl
@[simp] theorem ofBit_false : ofBit false = 0#1 := rfl
@[simp] theorem ofBit_true : ofBit true = 1#1 := rfl
@[simp] theorem bit_ofBit (b : Bool) : bit (ofBit b) = b := by cases b <;> rfl

/-- Two halves of a conversion's field (Table 11-4). -/
theorem join_halves (f : BitVec 12) : f.extractLsb' 6 6 ++ f.extractLsb' 0 6 = f :=
  (extract_join f 0 6 6).trans (extract_all f)
/-- The three parts of VMOVI's immediate. -/
theorem join_thirds (f : BitVec 18) : f.extractLsb' 12 6 ++ f.extractLsb' 6 6 ++ f.extractLsb' 0 6 = f :=
  (congrArg (fun v : BitVec 12 => (v ++ f.extractLsb' 0 6 : BitVec 18)) (extract_join f 6 6 6)).trans
    ((extract_join f 0 12 6).trans (extract_all f))
/-- A row number of MSPR leaves the bits above its field zero. -/
theorem row_high (r : Fin 66) : (BitVec.ofNat 24 r.val).extractLsb' 7 17 = 0#17 := by revert r; decide
/-- A register of PEER lies in the low bits of the flags. -/
theorem peer_low (g : BitVec 3) : 0#7 ++ g &&& 1016#10 = 0#10 := by revert g; decide
theorem peer_ind (g : BitVec 3) : 4#7 ++ g &&& 984#10 = 0#10 := by revert g; decide
theorem peer_xor (g : BitVec 3) : 32#7 ++ g &&& 760#10 = 0#10 := by revert g; decide

/-! ### Checks of a decoder -/

@[simp] theorem okIf_true (i : Instr) : okIf true i = .ok i := rfl
@[simp] theorem withCode_some {α : Type} (a : α) (f : α → Dec) : withCode (some a) f = f a := rfl
theorem onlyWf_ok (i : Instr) (h : i.wf = true) : onlyWf (.ok i) = .ok i := by simp [onlyWf, h]

/-! ### Layouts -/

@[simp] theorem LaySR.of_wordSR (op : BitVec 6) (sd sa sb : BitVec 5) (fn : BitVec 11) :
    LaySR.of (wordSR op sd sa sb fn) = ⟨op, sd, sa, sb, fn⟩ := by simp [LaySR.of, wordSR]
@[simp] theorem LaySR.op_wordSI (op : BitVec 6) (sd sa : BitVec 5) (imm : BitVec 16) : (LaySR.of (wordSI op sd sa imm)).op = op := by
  simp [LaySR.of, wordSI]
@[simp] theorem LaySR.sd_wordSI (op : BitVec 6) (sd sa : BitVec 5) (imm : BitVec 16) : (LaySR.of (wordSI op sd sa imm)).sd = sd := by
  simp [LaySR.of, wordSI]
@[simp] theorem LaySR.sa_wordSI (op : BitVec 6) (sd sa : BitVec 5) (imm : BitVec 16) : (LaySR.of (wordSI op sd sa imm)).sa = sa := by
  simp [LaySR.of, wordSI]
@[simp] theorem LaySR.imm16_wordSI (op : BitVec 6) (sd sa : BitVec 5) (imm : BitVec 16) :
    (LaySR.of (wordSI op sd sa imm)).imm16 = imm := by
  have h : LaySR.of (wordSI op sd sa imm) = ⟨op, sd, sa, imm.extractLsb' 11 5, imm.extractLsb' 0 11⟩ := by simp [LaySR.of, wordSI]
  rw [h]
  exact (extract_join imm 0 5 11).trans (extract_all imm)
@[simp] theorem LaySR.op_wordSW (op : BitVec 6) (sd : BitVec 5) (imm : BitVec 21) : (LaySR.of (wordSW op sd imm)).op = op := by
  simp [LaySR.of, wordSW]
@[simp] theorem LaySR.sd_wordSW (op : BitVec 6) (sd : BitVec 5) (imm : BitVec 21) : (LaySR.of (wordSW op sd imm)).sd = sd := by
  simp [LaySR.of, wordSW]
@[simp] theorem LaySR.imm21_wordSW (op : BitVec 6) (sd : BitVec 5) (imm : BitVec 21) : (LaySR.of (wordSW op sd imm)).imm21 = imm := by
  have h : LaySR.of (wordSW op sd imm) = ⟨op, sd, imm.extractLsb' 16 5, imm.extractLsb' 11 5, imm.extractLsb' 0 11⟩ := by
    simp [LaySR.of, wordSW]
  rw [h]
  exact (congrArg (fun v : BitVec 10 => (v ++ imm.extractLsb' 0 11 : BitVec 21)) (extract_join imm 11 5 5)).trans
    ((extract_join imm 0 10 11).trans (extract_all imm))

@[simp] theorem LayA.of_wordAR (op : BitVec 6) (ad aa ab : BitVec 4) (fn : BitVec 14) :
    LayA.of (wordAR op ad aa ab fn) = ⟨op, ad, aa, ab, fn⟩ := by simp [LayA.of, wordAR]
@[simp] theorem LayA.op_wordAI (op : BitVec 6) (ad aa : BitVec 4) (imm : BitVec 18) : (LayA.of (wordAI op ad aa imm)).op = op := by
  simp [LayA.of, wordAI]
@[simp] theorem LayA.ad_wordAI (op : BitVec 6) (ad aa : BitVec 4) (imm : BitVec 18) : (LayA.of (wordAI op ad aa imm)).ad = ad := by
  simp [LayA.of, wordAI]
@[simp] theorem LayA.aa_wordAI (op : BitVec 6) (ad aa : BitVec 4) (imm : BitVec 18) : (LayA.of (wordAI op ad aa imm)).aa = aa := by
  simp [LayA.of, wordAI]
@[simp] theorem LayA.imm18_wordAI (op : BitVec 6) (ad aa : BitVec 4) (imm : BitVec 18) : (LayA.of (wordAI op ad aa imm)).imm18 = imm := by
  have h : LayA.of (wordAI op ad aa imm) = ⟨op, ad, aa, imm.extractLsb' 14 4, imm.extractLsb' 0 14⟩ := by simp [LayA.of, wordAI]
  rw [h]
  exact (extract_join imm 0 4 14).trans (extract_all imm)
@[simp] theorem LayAT.of_wordAT (op : BitVec 6) (ix : BitVec 4) (fld : BitVec 6) (ss : BitVec 5) (imm : BitVec 11) :
    LayAT.of (wordAT op ix fld ss imm) = ⟨op, ix, fld, ss, imm⟩ := by simp [LayAT.of, wordAT]
@[simp] theorem LayA.op_wordAT (op : BitVec 6) (ix : BitVec 4) (fld : BitVec 6) (ss : BitVec 5) (imm : BitVec 11) :
    (LayA.of (wordAT op ix fld ss imm)).op = op := by simp [LayA.of, wordAT]

@[simp] theorem LayL.of_wordLM (op vt : BitVec 6) (aa pd : BitVec 4) (qt : BitVec 2) (ck : BitVec 4) (off : BitVec 6) :
    LayL.of (wordLM op vt aa pd qt ck off) = ⟨op, vt, aa, pd, qt, ck, off⟩ := by simp [LayL.of, wordLM]
@[simp] theorem LayLX.of_wordLX (op vt : BitVec 6) (aa pd : BitVec 4) (qt : BitVec 2) (vi : BitVec 6) (qi fn : BitVec 2) :
    LayLX.of (wordLX op vt aa pd qt vi qi fn) = ⟨op, vt, aa, pd, qt, vi, qi, fn⟩ := by simp [LayLX.of, wordLX]
@[simp] theorem LayL.op_wordLX (op vt : BitVec 6) (aa pd : BitVec 4) (qt : BitVec 2) (vi : BitVec 6) (qi fn : BitVec 2) :
    (LayL.of (wordLX op vt aa pd qt vi qi fn)).op = op := by simp [LayL.of, wordLX]
@[simp] theorem LayL.vt_wordLX (op vt : BitVec 6) (aa pd : BitVec 4) (qt : BitVec 2) (vi : BitVec 6) (qi fn : BitVec 2) :
    (LayL.of (wordLX op vt aa pd qt vi qi fn)).vt = vt := by simp [LayL.of, wordLX]
@[simp] theorem LayL.qt_wordLX (op vt : BitVec 6) (aa pd : BitVec 4) (qt : BitVec 2) (vi : BitVec 6) (qi fn : BitVec 2) :
    (LayL.of (wordLX op vt aa pd qt vi qi fn)).qt = qt := by simp [LayL.of, wordLX]

@[simp] theorem LayV.of_word (x : LayV) : LayV.of x.word = x := by simp [LayV.of, LayV.word]
@[simp] theorem LayM.of_word (x : LayM) : LayM.of x.word = x := by simp [LayM.of, LayM.word]
@[simp] theorem LayX.of_word (x : LayX) : LayX.of x.word = x := by simp [LayX.of, LayX.word]
@[simp] theorem LayD.of_word (x : LayD) : LayD.of x.word = x := by simp [LayD.of, LayD.word]
@[simp] theorem LayC.of_word (x : LayC) : LayC.of x.word = x := by simp [LayC.of, LayC.word]
@[simp] theorem LayI.of_word (x : LayI) : LayI.of x.word = x := by simp [LayI.of, LayI.word]
@[simp] theorem LayC.op_wordI (x : LayI) : (LayC.of x.word).op = x.op := by simp [LayC.of, LayI.word]
@[simp] theorem LayI.rest_zero (op : BitVec 6) : (LayI.word ⟨op, 0#3, 0#3, 0#20, 0#32⟩).extractLsb' 0 58 = 0#58 := by
  simp only [LayI.word]
  revert op
  decide

/-! ### Enumerated codes -/

@[simp] theorem Scope.ofCode_code (s : Scope) : Scope.ofCode s.code = s := by cases s <;> rfl
@[simp] theorem CF.ofCode_code (c : CF) : CF.ofCode c.code = some c := by
  rcases c with _ | k | k
  · rfl
  · revert k; decide
  · revert k; decide
@[simp] theorem chkOf_code (c : Chk) : chkOf (chkCode c) = some c := by
  rcases c with _ | k <;> first | rfl | (revert k; decide)
@[simp] theorem VRange.ofCode_code (r : VRange) : VRange.ofCode r.wcode r.scode = some r := by
  rcases r with k | h | _
  · revert k; decide
  · cases h <;> rfl
  · rfl
@[simp] theorem FSel.ofCode_code (f : FSel) : FSel.ofCode f.code = some f := by
  rcases f with k | k <;> (revert k; decide)
@[simp] theorem condAll_code (c : Cond) : condAll[c.code % 16]? = some c := by cases c <;> rfl
@[simp] theorem flagAll_code (c : FlagOp) : flagAll[c.code % 4]? = some c := by cases c <;> rfl
@[simp] theorem msizeAll_code (c : MSize) : msizeAll[c.code % 4]? = some c := by cases c <;> rfl
@[simp] theorem atomAll_code (c : AtomOp) : atomAll[c.code % 8]? = some c := by cases c <;> rfl
@[simp] theorem orderAll_code (c : MOrder) : orderAll[c.code % 4]? = some c := by cases c <;> rfl
@[simp] theorem redAll_code (c : RedOp) : redAll[c.code % 16]? = some c := by cases c <;> rfl
@[simp] theorem cixAll_code (c : CixMode) : cixAll[c.code % 8]? = some c := by cases c <;> rfl
@[simp] theorem ftFieldAll_code (c : FtField) : ftFieldAll[c.code % 64 - 1]? = some c := by cases c <;> rfl
@[simp] theorem ftField_ne_zero (c : FtField) : BitVec.ofNat 6 c.code ≠ 0#6 := by cases c <;> decide
@[simp] theorem updOpAll_code (c : UpdOp) : updOpAll[c.code % 8]? = some c := by cases c <;> rfl
@[simp] theorem updTyAll_code (c : UpdTy) : updTyAll[c.code % 8]? = some c := by cases c <;> rfl
@[simp] theorem iszAll_code (c : ISz) : iszAll[c.code % 4]? = some c := by cases c <;> rfl
@[simp] theorem ftyAll_code (c : FTy) : ftyAll[c.code % 4]? = some c := by cases c <;> rfl
@[simp] theorem fcondAll_code (c : FCond) : fcondAll[c.code % 8]? = some c := by cases c <;> rfl
@[simp] theorem sfmtAll_code (c : SFmt) : sfmtAll[c.code % 16]? = some c := by cases c <;> rfl
@[simp] theorem ikindAll_code (c : IKind) : ikindAll[c.code % 16]? = some c := by cases c <;> rfl
@[simp] theorem rmAll_code (c : RMode) : rmAll[c.code % 8]? = some c := by cases c <;> rfl
@[simp] theorem packAll_code (c : PackSat) : packAll[c.code % 4]? = some c := by cases c <;> rfl
@[simp] theorem selAll_code (c : SelMode) : selAll[c.code % 4]? = some c := by cases c <;> rfl
@[simp] theorem cellAll_code (c : CellOp) : cellAll[c.code % 8]? = some c := by cases c <;> rfl
@[simp] theorem startAll_code (c : StartMode) : startAll[c.code % 4]? = some c := by cases c <;> rfl
@[simp] theorem pairAll_code (c : PairMode) : pairAll[c.code % 4]? = some c := by cases c <;> rfl
@[simp] theorem mapAll_code (c : MapFn) : mapAll[c.code % 16]? = some c := by cases c <;> rfl
@[simp] theorem tagAll_code (c : TagOp) : tagAll[c.code % 4]? = some c := by cases c <;> rfl
@[simp] theorem PairMode.code_high (c : PairMode) : (BitVec.ofNat 9 c.code).extractLsb' 2 7 = 0#7 := by cases c <;> rfl
@[simp] theorem TagOp.code_high (c : TagOp) : (BitVec.ofNat 9 c.code).extractLsb' 2 7 = 0#7 := by cases c <;> rfl
@[simp] theorem MapFn.code_high (c : MapFn) : (BitVec.ofNat 9 c.code).extractLsb' 4 5 = 0#5 := by cases c <;> rfl
@[simp] theorem StartMode.code_mod (c : StartMode) : startAll[c.code % 4 % 4]? = some c := by cases c <;> rfl
@[simp] theorem rankAll_code (c : RankSign) : rankAll[c.code % 4]? = some c := by cases c <;> rfl
@[simp] theorem ropAll_code (c : BzRop) : ropAll[c.code % 4]? = some c := by cases c <;> rfl

end Sys2Proof
end

