-- ==== Sys2Proof/Laws/PerInstr.lean ====
section
/-!
SUPPORT. The families of statements made per instruction: Encoding says that a well-formed instruction's word decodes to it.
-/
namespace Sys2Proof.Laws.Encoding

/-- An instruction has a word, which decodes to it with every operand; an operation or event of the device has none. -/
def Statement (i : Instr) : Prop :=
  i.wf = true → (∃ w, encode i = some w ∧ decodeWord w = .ok i) ∨ (encode i = none ∧ i.isEvent = true)

/-- A word in hand. -/
theorem of_word {i : Instr} (w : SlotWord) (he : encode i = some w) (hd : i.wf = true → decodeWord w = .ok i) : Statement i :=
  fun h => .inl ⟨w, he, hd h⟩
theorem of_event {i : Instr} (he : encode i = none) (hv : i.isEvent = true) : Statement i := fun _ => .inr ⟨he, hv⟩

theorem add (sd : BitVec 5) (sa : BitVec 5) (sb : BitVec 5) : Statement (.add sd sa sb) :=
  of_word _ rfl fun h => by simp [decodeWord, decodeS, onlyWf, h]
theorem sub (sd : BitVec 5) (sa : BitVec 5) (sb : BitVec 5) : Statement (.sub sd sa sb) :=
  of_word _ rfl fun h => by simp [decodeWord, decodeS, onlyWf, h]
theorem and (sd : BitVec 5) (sa : BitVec 5) (sb : BitVec 5) : Statement (.and sd sa sb) :=
  of_word _ rfl fun h => by simp [decodeWord, decodeS, onlyWf, h]
theorem or (sd : BitVec 5) (sa : BitVec 5) (sb : BitVec 5) : Statement (.or sd sa sb) :=
  of_word _ rfl fun h => by simp [decodeWord, decodeS, onlyWf, h]
theorem xor (sd : BitVec 5) (sa : BitVec 5) (sb : BitVec 5) : Statement (.xor sd sa sb) :=
  of_word _ rfl fun h => by simp [decodeWord, decodeS, onlyWf, h]
theorem shl (sd : BitVec 5) (sa : BitVec 5) (sb : BitVec 5) : Statement (.shl sd sa sb) :=
  of_word _ rfl fun h => by simp [decodeWord, decodeS, onlyWf, h]
theorem shr (sd : BitVec 5) (sa : BitVec 5) (sb : BitVec 5) : Statement (.shr sd sa sb) :=
  of_word _ rfl fun h => by simp [decodeWord, decodeS, onlyWf, h]
theorem sra (sd : BitVec 5) (sa : BitVec 5) (sb : BitVec 5) : Statement (.sra sd sa sb) :=
  of_word _ rfl fun h => by simp [decodeWord, decodeS, onlyWf, h]
theorem mul (sd : BitVec 5) (sa : BitVec 5) (sb : BitVec 5) : Statement (.mul sd sa sb) :=
  of_word _ rfl fun h => by simp [decodeWord, decodeS, onlyWf, h]
theorem mulh (sgn : Bool) (sd : BitVec 5) (sa : BitVec 5) (sb : BitVec 5) : Statement (.mulh sgn sd sa sb) :=
  of_word _ rfl fun h => by simp [decodeWord, decodeS, onlyWf, h]
theorem min (sgn : Bool) (sd : BitVec 5) (sa : BitVec 5) (sb : BitVec 5) : Statement (.min sgn sd sa sb) :=
  of_word _ rfl fun h => by simp [decodeWord, decodeS, onlyWf, h]
theorem max (sgn : Bool) (sd : BitVec 5) (sa : BitVec 5) (sb : BitVec 5) : Statement (.max sgn sd sa sb) :=
  of_word _ rfl fun h => by simp [decodeWord, decodeS, onlyWf, h]
theorem addImm (sd : BitVec 5) (sa : BitVec 5) (imm : BitVec 16) : Statement (.addImm sd sa imm) :=
  of_word _ rfl fun h => by simp [decodeWord, decodeS, onlyWf, h]
theorem subImm (sd : BitVec 5) (sa : BitVec 5) (imm : BitVec 16) : Statement (.subImm sd sa imm) :=
  of_word _ rfl fun h => by simp [decodeWord, decodeS, onlyWf, h]
theorem andImm (sd : BitVec 5) (sa : BitVec 5) (imm : BitVec 16) : Statement (.andImm sd sa imm) :=
  of_word _ rfl fun h => by simp [decodeWord, decodeS, onlyWf, h]
theorem orImm (sd : BitVec 5) (sa : BitVec 5) (imm : BitVec 16) : Statement (.orImm sd sa imm) :=
  of_word _ rfl fun h => by simp [decodeWord, decodeS, onlyWf, h]
theorem xorImm (sd : BitVec 5) (sa : BitVec 5) (imm : BitVec 16) : Statement (.xorImm sd sa imm) :=
  of_word _ rfl fun h => by simp [decodeWord, decodeS, onlyWf, h]
theorem shlImm (sd : BitVec 5) (sa : BitVec 5) (k : BitVec 6) : Statement (.shlImm sd sa k) :=
  of_word _ rfl fun h => by simp [decodeWord, decodeS, onlyWf, h]
theorem shrImm (sd : BitVec 5) (sa : BitVec 5) (k : BitVec 6) : Statement (.shrImm sd sa k) :=
  of_word _ rfl fun h => by simp [decodeWord, decodeS, onlyWf, h]
theorem sraImm (sd : BitVec 5) (sa : BitVec 5) (k : BitVec 6) : Statement (.sraImm sd sa k) :=
  of_word _ rfl fun h => by simp [decodeWord, decodeS, onlyWf, h]
theorem mulImm (sd : BitVec 5) (sa : BitVec 5) (imm : BitVec 16) : Statement (.mulImm sd sa imm) :=
  of_word _ rfl fun h => by simp [decodeWord, decodeS, onlyWf, h]
theorem mulhImm (sd : BitVec 5) (sa : BitVec 5) (imm : BitVec 16) : Statement (.mulhImm sd sa imm) :=
  of_word _ rfl fun h => by simp [decodeWord, decodeS, onlyWf, h]
theorem minImm (sd : BitVec 5) (sa : BitVec 5) (imm : BitVec 16) : Statement (.minImm sd sa imm) :=
  of_word _ rfl fun h => by simp [decodeWord, decodeS, onlyWf, h]
theorem maxImm (sd : BitVec 5) (sa : BitVec 5) (imm : BitVec 16) : Statement (.maxImm sd sa imm) :=
  of_word _ rfl fun h => by simp [decodeWord, decodeS, onlyWf, h]
theorem cmp (c : Cond) (bd : BitVec 3) (sa : BitVec 5) (sb : BitVec 5) : Statement (.cmp c bd sa sb) :=
  of_word _ rfl fun h => by simp [decodeWord, decodeS, onlyWf, h]
theorem cmpImm (c : Cond) (bd : BitVec 3) (sa : BitVec 5) (imm : BitVec 12) : Statement (.cmpImm c bd sa imm) :=
  of_word _ rfl fun h => by simp [decodeWord, decodeS, onlyWf, h]
theorem fop (op : FlagOp) (bd : BitVec 3) (ba : BitVec 3) (bb : BitVec 3) : Statement (.fop op bd ba bb) :=
  of_word _ rfl fun h => by simp [decodeWord, decodeS, onlyWf, h]
theorem nopn (n : BitVec 21) : Statement (.nopn n) :=
  of_word _ rfl fun h => by simp [decodeWord, decodeS, onlyWf, h]
theorem ldi (sd : BitVec 5) (imm : BitVec 21) : Statement (.ldi sd imm) :=
  of_word _ rfl fun h => by simp [decodeWord, decodeS, onlyWf, h]
theorem ldih (sd : BitVec 5) (h : BitVec 2) (imm : BitVec 16) : Statement (.ldih sd h imm) :=
  of_word _ rfl fun h => by simp [decodeWord, decodeS, onlyWf, h]
theorem br (cf : CF) (disp : BitVec 21) : Statement (.br cf disp) :=
  of_word _ rfl fun h => by simp [decodeWord, decodeS, onlyWf, h]
theorem jmp (sa : BitVec 5) : Statement (.jmp sa) :=
  of_word _ rfl fun h => by simp [decodeWord, decodeS, onlyWf, h]
theorem call (sd : BitVec 5) (disp : BitVec 21) : Statement (.call sd disp) :=
  of_word _ rfl fun h => by simp [decodeWord, decodeS, onlyWf, h]
theorem ret (sa : BitVec 5) : Statement (.ret sa) :=
  of_word _ rfl fun h => by simp [decodeWord, decodeS, onlyWf, h]
theorem loop (n : BitVec 16) : Statement (.loop n) :=
  of_word _ rfl fun h => by
    have hn : n ≠ 0#16 := by simpa [Instr.wf] using h
    simp [decodeWord, decodeS, onlyWf, h, hn]
theorem loopReg (sa : BitVec 5) : Statement (.loopReg sa) :=
  of_word _ rfl fun h => by simp [decodeWord, decodeS, onlyWf, h]
theorem lbrk (cf : CF) (disp : BitVec 21) : Statement (.lbrk cf disp) :=
  of_word _ rfl fun h => by simp [decodeWord, decodeS, onlyWf, h]
theorem pini (sa : BitVec 5) (sb : BitVec 5) : Statement (.pini sa sb) :=
  of_word _ rfl fun h => by simp [decodeWord, decodeS, onlyWf, h]
theorem parr (sa : BitVec 5) : Statement (.parr sa) :=
  of_word _ rfl fun h => by simp [decodeWord, decodeS, onlyWf, h]
theorem pwait (sa : BitVec 5) (sb : BitVec 5) : Statement (.pwait sa sb) :=
  of_word _ rfl fun h => by simp [decodeWord, decodeS, onlyWf, h]
theorem pwaitImm (sa : BitVec 5) (ph : Bool) : Statement (.pwaitImm sa ph) :=
  of_word _ rfl fun h => by simp [decodeWord, decodeS, onlyWf, h]
theorem bset (sc : Scope) (sa : BitVec 5) (sb : BitVec 5) : Statement (.bset sc sa sb) :=
  of_word _ rfl fun h => by simp [decodeWord, decodeS, onlyWf, h]
theorem bwait (sc : Scope) (sa : BitVec 5) (sb : BitVec 5) : Statement (.bwait sc sa sb) :=
  of_word _ rfl fun h => by simp [decodeWord, decodeS, onlyWf, h]
theorem ldf (sgn : Bool) (sz : MSize) (sd : BitVec 5) (sa : BitVec 5) (off : BitVec 12) : Statement (.ldf sgn sz sd sa off) :=
  of_word _ rfl fun h => by simp [decodeWord, decodeS, onlyWf, h]
theorem stf (sz : MSize) (sd : BitVec 5) (sa : BitVec 5) (off : BitVec 12) : Statement (.stf sz sd sa off) :=
  of_word _ rfl fun h => by simp [decodeWord, decodeS, onlyWf, h]
theorem atom (op : AtomOp) (sgn : Bool) (w64 : Bool) (ret : Bool) (ord : MOrder) (sc : Scope) (sd : BitVec 5) (sa : BitVec 5) (sb : BitVec 5) : Statement (.atom op sgn w64 ret ord sc sd sa sb) :=
  of_word _ rfl fun h => by simp [decodeWord, decodeS, onlyWf, h]
theorem fence (kind : FenceKind) (sc : Scope) : Statement (.fence kind sc) :=
  by cases kind <;> exact of_word _ rfl fun h => by simp [decodeWord, decodeS, onlyWf, h]
theorem cred (op : RedOp) (sd : BitVec 5) (aa : BitVec 4) : Statement (.cred op sd aa) :=
  of_word _ rfl fun h => by simp [decodeWord, decodeS, onlyWf, h]
theorem cmsk (m : CmskOp) : Statement (.cmsk m) :=
  by cases m <;> exact of_word _ rfl fun h => by simp [decodeWord, decodeS, onlyWf, h]
theorem tex (ek : BitVec 3) (imm : BitVec 16) : Statement (.tex ek imm) :=
  of_word _ rfl fun h => by simp [decodeWord, decodeS, onlyWf, h]
theorem texReg (ek : BitVec 3) (sa : BitVec 5) (imm : BitVec 16) : Statement (.texReg ek sa imm) :=
  of_word _ rfl fun h => by simp [decodeWord, decodeS, onlyWf, h]
theorem srr (sd : BitVec 5) (sel : BitVec 12) : Statement (.srr sd sel) :=
  of_word _ rfl fun h => by simp [decodeWord, decodeS, onlyWf, h]
theorem srw (sel : BitVec 12) (sa : BitVec 5) : Statement (.srw sel sa) :=
  of_word _ rfl fun h => by simp [decodeWord, decodeS, onlyWf, h]
theorem trap (code : BitVec 16) : Statement (.trap code) :=
  of_word _ rfl fun h => by simp [decodeWord, decodeS, onlyWf, h]
theorem lnch (sd : BitVec 5) (sa : BitVec 5) : Statement (.lnch sd sa) :=
  of_word _ rfl fun h => by simp [decodeWord, decodeS, onlyWf, h]
theorem aadd (ad : BitVec 4) (aa : BitVec 4) (ab : BitVec 4) : Statement (.aadd ad aa ab) :=
  of_word _ rfl fun h => by simp [decodeWord, decodeA, onlyWf, h]
theorem asub (ad : BitVec 4) (aa : BitVec 4) (ab : BitVec 4) : Statement (.asub ad aa ab) :=
  of_word _ rfl fun h => by simp [decodeWord, decodeA, onlyWf, h]
theorem aaddi (ad : BitVec 4) (aa : BitVec 4) (imm : BitVec 18) : Statement (.aaddi ad aa imm) :=
  of_word _ rfl fun h => by simp [decodeWord, decodeA, onlyWf, h]
theorem ashl (ad : BitVec 4) (aa : BitVec 4) (n : BitVec 5) : Statement (.ashl ad aa n) :=
  of_word _ rfl fun h => by simp [decodeWord, decodeA, onlyWf, h]
theorem amov (ad : BitVec 4) (aa : BitVec 4) : Statement (.amov ad aa) :=
  of_word _ rfl fun h => by simp [decodeWord, decodeA, onlyWf, h]
theorem aldi (ad : BitVec 4) (imm : BitVec 18) : Statement (.aldi ad imm) :=
  of_word _ rfl fun h => by simp [decodeWord, decodeA, onlyWf, h]
theorem acix (m : CixMode) (ad : BitVec 4) : Statement (.acix m ad) :=
  of_word _ rfl fun h => by simp [decodeWord, decodeA, onlyWf, h]
theorem afroms (ad : BitVec 4) (n : BitVec 5) : Statement (.afroms ad n) :=
  of_word _ rfl fun h => by simp [decodeWord, decodeA, onlyWf, h]
theorem shw (tm : BitVec 4) (fld : Fin 53) (sm : BitVec 5) : Statement (.shw tm fld sm) :=
  of_word _ rfl fun h => by
    have hf : fld.val % 64 = fld.val := Nat.mod_eq_of_lt (by omega)
    simp [decodeWord, decodeA, onlyWf, h, hf]
theorem shwi (tm : BitVec 4) (fld : Fin 53) (imm : BitVec 11) : Statement (.shwi tm fld imm) :=
  of_word _ rfl fun h => by
    have hf : fld.val % 64 = fld.val := Nat.mod_eq_of_lt (by omega)
    simp [decodeWord, decodeA, onlyWf, h, hf]
theorem ftw (ft : BitVec 3) (sm : BitVec 5) : Statement (.ftw ft sm) :=
  of_word _ rfl fun h => by simp [decodeWord, decodeA, onlyWf, h]
theorem ftwField (ft : BitVec 3) (fld : FtField) (imm : BitVec 11) : Statement (.ftwField ft fld imm) :=
  of_word _ rfl fun h => by simp [decodeWord, decodeA, onlyWf, h]
theorem vld (vt : BitVec 6) (aa : BitVec 4) (pd : BitVec 4) (ck : Chk) (off : BitVec 6) : Statement (.vld vt aa pd ck off) :=
  of_word _ rfl fun h => by simp [decodeWord, decodeL, onlyWf, h]
theorem vst (vt : VSrc) (aa : BitVec 4) (pd : BitVec 4) (off : BitVec 6) : Statement (.vst vt aa pd off) :=
  of_word _ rfl fun h => by simp [decodeWord, decodeL, onlyWf, h]
theorem vldb (vt : BitVec 6) (aa : BitVec 4) (pd : BitVec 4) (ck : Chk) (off : BitVec 6) : Statement (.vldb vt aa pd ck off) :=
  of_word _ rfl fun h => by simp [decodeWord, decodeL, onlyWf, h]
theorem vlds (vt : BitVec 6) (aa : BitVec 4) (pd : BitVec 4) (ck : Chk) (stride : BitVec 6) : Statement (.vlds vt aa pd ck stride) :=
  of_word _ rfl fun h => by simp [decodeWord, decodeL, onlyWf, h]
theorem vldx (half : Bool) (vt : BitVec 6) (aa : BitVec 4) (pd : BitVec 4) (vi : VSrc) : Statement (.vldx half vt aa pd vi) :=
  of_word _ rfl fun h => by simp [decodeWord, decodeL, onlyWf, h]
theorem vstx (half : Bool) (vt : VSrc) (aa : BitVec 4) (pd : BitVec 4) (vi : VSrc) : Statement (.vstx half vt aa pd vi) :=
  of_word _ rfl fun h => by simp [decodeWord, decodeL, onlyWf, h]
theorem pld (pt : BitVec 4) (aa : BitVec 4) (ck : Chk) (off : BitVec 6) : Statement (.pld pt aa ck off) :=
  of_word _ rfl fun h => by simp [decodeWord, decodeL, onlyWf, h]
theorem pst (pt : BitVec 4) (aa : BitVec 4) (off : BitVec 6) : Statement (.pst pt aa off) :=
  of_word _ rfl fun h => by simp [decodeWord, decodeL, onlyWf, h]
theorem dld (dt : BitVec 3) (aa : BitVec 4) (ck : Chk) (off : BitVec 6) : Statement (.dld dt aa ck off) :=
  of_word _ rfl fun h => by simp [decodeWord, decodeL, onlyWf, h]
theorem dst (dt : BitVec 3) (aa : BitVec 4) (off : BitVec 6) : Statement (.dst dt aa off) :=
  of_word _ rfl fun h => by simp [decodeWord, decodeL, onlyWf, h]
theorem vldf (vt : BitVec 6) (tm : BitVec 4) (aa : BitVec 4) (pd : BitVec 4) (off : BitVec 6) : Statement (.vldf vt tm aa pd off) :=
  of_word _ rfl fun h => by simp [decodeWord, decodeL, onlyWf, h]
theorem vstf (vt : VSrc) (tm : BitVec 4) (aa : BitVec 4) (pd : BitVec 4) (off : BitVec 6) : Statement (.vstf vt tm aa pd off) :=
  of_word _ rfl fun h => by simp [decodeWord, decodeL, onlyWf, h]
theorem vupd (op : UpdOp) (ty : UpdTy) (vt : VSrc) (tm : BitVec 4) (aa : BitVec 4) (pd : BitVec 4) : Statement (.vupd op ty vt tm aa pd) :=
  of_word _ rfl fun h => by simp [decodeWord, decodeL, onlyWf, h]
theorem vadd (c : VCtl) (sz : ISz) (sgn : Bool) (sat : Bool) (vd : BitVec 6) (va : VSrc) (vb : VSrc) : Statement (.vadd c sz sgn sat vd va vb) :=
  of_word _ rfl fun h => by simp [decodeWord, decodeV, onlyWf, h, noSrc, immC, pReg, fullCtl]
theorem vsub (c : VCtl) (sz : ISz) (sgn : Bool) (sat : Bool) (vd : BitVec 6) (va : VSrc) (vb : VSrc) : Statement (.vsub c sz sgn sat vd va vb) :=
  of_word _ rfl fun h => by simp [decodeWord, decodeV, onlyWf, h, noSrc, immC, pReg, fullCtl]
theorem vmul (c : VCtl) (sz : ISz) (vd : BitVec 6) (va : VSrc) (vb : VSrc) : Statement (.vmul c sz vd va vb) :=
  of_word _ rfl fun h => by simp [decodeWord, decodeV, onlyWf, h, noSrc, immC, pReg, fullCtl]
theorem vmulh (c : VCtl) (sz : ISz) (sgn : Bool) (vd : BitVec 6) (va : VSrc) (vb : VSrc) : Statement (.vmulh c sz sgn vd va vb) :=
  of_word _ rfl fun h => by simp [decodeWord, decodeV, onlyWf, h, noSrc, immC, pReg, fullCtl]
theorem vmad (c : VCtl) (sz : ISz) (vd : BitVec 6) (va : VSrc) (vb : VSrc) (vc : VSrc) : Statement (.vmad c sz vd va vb vc) :=
  of_word _ rfl fun h => by simp [decodeWord, decodeV, onlyWf, h, noSrc, immC, pReg, fullCtl]
theorem vmin (c : VCtl) (sz : ISz) (sgn : Bool) (vd : BitVec 6) (va : VSrc) (vb : VSrc) : Statement (.vmin c sz sgn vd va vb) :=
  of_word _ rfl fun h => by simp [decodeWord, decodeV, onlyWf, h, noSrc, immC, pReg, fullCtl]
theorem vmax (c : VCtl) (sz : ISz) (sgn : Bool) (vd : BitVec 6) (va : VSrc) (vb : VSrc) : Statement (.vmax c sz sgn vd va vb) :=
  of_word _ rfl fun h => by simp [decodeWord, decodeV, onlyWf, h, noSrc, immC, pReg, fullCtl]
theorem vabs (c : VCtl) (sz : ISz) (sat : Bool) (vd : BitVec 6) (va : VSrc) : Statement (.vabs c sz sat vd va) :=
  of_word _ rfl fun h => by simp [decodeWord, decodeV, onlyWf, h, noSrc, immC, pReg, fullCtl]
theorem vneg (c : VCtl) (sz : ISz) (sat : Bool) (vd : BitVec 6) (va : VSrc) : Statement (.vneg c sz sat vd va) :=
  of_word _ rfl fun h => by simp [decodeWord, decodeV, onlyWf, h, noSrc, immC, pReg, fullCtl]
theorem vand (c : VCtl) (sz : ISz) (vd : BitVec 6) (va : VSrc) (vb : VSrc) : Statement (.vand c sz vd va vb) :=
  of_word _ rfl fun h => by simp [decodeWord, decodeV, onlyWf, h, noSrc, immC, pReg, fullCtl]
theorem vor (c : VCtl) (sz : ISz) (vd : BitVec 6) (va : VSrc) (vb : VSrc) : Statement (.vor c sz vd va vb) :=
  of_word _ rfl fun h => by simp [decodeWord, decodeV, onlyWf, h, noSrc, immC, pReg, fullCtl]
theorem vxor (c : VCtl) (sz : ISz) (vd : BitVec 6) (va : VSrc) (vb : VSrc) : Statement (.vxor c sz vd va vb) :=
  of_word _ rfl fun h => by simp [decodeWord, decodeV, onlyWf, h, noSrc, immC, pReg, fullCtl]
theorem vnot (c : VCtl) (sz : ISz) (vd : BitVec 6) (va : VSrc) : Statement (.vnot c sz vd va) :=
  of_word _ rfl fun h => by simp [decodeWord, decodeV, onlyWf, h, noSrc, immC, pReg, fullCtl]
theorem vshl (c : VCtl) (sz : ISz) (vd : BitVec 6) (va : VSrc) (vb : VSrc) : Statement (.vshl c sz vd va vb) :=
  of_word _ rfl fun h => by simp [decodeWord, decodeV, onlyWf, h, noSrc, immC, pReg, fullCtl]
theorem vshr (c : VCtl) (sz : ISz) (vd : BitVec 6) (va : VSrc) (vb : VSrc) : Statement (.vshr c sz vd va vb) :=
  of_word _ rfl fun h => by simp [decodeWord, decodeV, onlyWf, h, noSrc, immC, pReg, fullCtl]
theorem vsra (c : VCtl) (sz : ISz) (vd : BitVec 6) (va : VSrc) (vb : VSrc) : Statement (.vsra c sz vd va vb) :=
  of_word _ rfl fun h => by simp [decodeWord, decodeV, onlyWf, h, noSrc, immC, pReg, fullCtl]
theorem vclz (c : VCtl) (sz : ISz) (vd : BitVec 6) (va : VSrc) : Statement (.vclz c sz vd va) :=
  of_word _ rfl fun h => by simp [decodeWord, decodeV, onlyWf, h, noSrc, immC, pReg, fullCtl]
theorem vpopc (c : VCtl) (sz : ISz) (vd : BitVec 6) (va : VSrc) : Statement (.vpopc c sz vd va) :=
  of_word _ rfl fun h => by simp [decodeWord, decodeV, onlyWf, h, noSrc, immC, pReg, fullCtl]
theorem fadd (c : VCtl) (ty : FTy) (vd : BitVec 6) (va : VSrc) (vb : VSrc) : Statement (.fadd c ty vd va vb) :=
  of_word _ rfl fun h => by simp [decodeWord, decodeV, onlyWf, h, noSrc, immC, pReg, fullCtl]
theorem fsub (c : VCtl) (ty : FTy) (vd : BitVec 6) (va : VSrc) (vb : VSrc) : Statement (.fsub c ty vd va vb) :=
  of_word _ rfl fun h => by simp [decodeWord, decodeV, onlyWf, h, noSrc, immC, pReg, fullCtl]
theorem fmul (c : VCtl) (ty : FTy) (vd : BitVec 6) (va : VSrc) (vb : VSrc) : Statement (.fmul c ty vd va vb) :=
  of_word _ rfl fun h => by simp [decodeWord, decodeV, onlyWf, h, noSrc, immC, pReg, fullCtl]
theorem ffma (c : VCtl) (ty : FTy) (vd : BitVec 6) (va : VSrc) (vb : VSrc) (vc : VSrc) : Statement (.ffma c ty vd va vb vc) :=
  of_word _ rfl fun h => by simp [decodeWord, decodeV, onlyWf, h, noSrc, immC, pReg, fullCtl]
theorem ffms (c : VCtl) (ty : FTy) (vd : BitVec 6) (va : VSrc) (vb : VSrc) (vc : VSrc) : Statement (.ffms c ty vd va vb vc) :=
  of_word _ rfl fun h => by simp [decodeWord, decodeV, onlyWf, h, noSrc, immC, pReg, fullCtl]
theorem fmin (c : VCtl) (ty : FTy) (vd : BitVec 6) (va : VSrc) (vb : VSrc) : Statement (.fmin c ty vd va vb) :=
  of_word _ rfl fun h => by simp [decodeWord, decodeV, onlyWf, h, noSrc, immC, pReg, fullCtl]
theorem fmax (c : VCtl) (ty : FTy) (vd : BitVec 6) (va : VSrc) (vb : VSrc) : Statement (.fmax c ty vd va vb) :=
  of_word _ rfl fun h => by simp [decodeWord, decodeV, onlyWf, h, noSrc, immC, pReg, fullCtl]
theorem fabs (c : VCtl) (ty : FTy) (vd : BitVec 6) (va : VSrc) : Statement (.fabs c ty vd va) :=
  of_word _ rfl fun h => by simp [decodeWord, decodeV, onlyWf, h, noSrc, immC, pReg, fullCtl]
theorem fneg (c : VCtl) (ty : FTy) (vd : BitVec 6) (va : VSrc) : Statement (.fneg c ty vd va) :=
  of_word _ rfl fun h => by simp [decodeWord, decodeV, onlyWf, h, noSrc, immC, pReg, fullCtl]
theorem fcps (c : VCtl) (ty : FTy) (vd : BitVec 6) (va : VSrc) (vb : VSrc) : Statement (.fcps c ty vd va vb) :=
  of_word _ rfl fun h => by simp [decodeWord, decodeV, onlyWf, h, noSrc, immC, pReg, fullCtl]
theorem fexp2 (c : VCtl) (ty : FTy) (vd : BitVec 6) (va : VSrc) : Statement (.fexp2 c ty vd va) :=
  of_word _ rfl fun h => by simp [decodeWord, decodeV, onlyWf, h, noSrc, immC, pReg, fullCtl]
theorem flog2 (c : VCtl) (ty : FTy) (vd : BitVec 6) (va : VSrc) : Statement (.flog2 c ty vd va) :=
  of_word _ rfl fun h => by simp [decodeWord, decodeV, onlyWf, h, noSrc, immC, pReg, fullCtl]
theorem frcp (c : VCtl) (ty : FTy) (vd : BitVec 6) (va : VSrc) : Statement (.frcp c ty vd va) :=
  of_word _ rfl fun h => by simp [decodeWord, decodeV, onlyWf, h, noSrc, immC, pReg, fullCtl]
theorem frsq (c : VCtl) (ty : FTy) (vd : BitVec 6) (va : VSrc) : Statement (.frsq c ty vd va) :=
  of_word _ rfl fun h => by simp [decodeWord, decodeV, onlyWf, h, noSrc, immC, pReg, fullCtl]
theorem fsqrt (c : VCtl) (ty : FTy) (vd : BitVec 6) (va : VSrc) : Statement (.fsqrt c ty vd va) :=
  of_word _ rfl fun h => by simp [decodeWord, decodeV, onlyWf, h, noSrc, immC, pReg, fullCtl]
theorem ftanh (c : VCtl) (ty : FTy) (vd : BitVec 6) (va : VSrc) : Statement (.ftanh c ty vd va) :=
  of_word _ rfl fun h => by simp [decodeWord, decodeV, onlyWf, h, noSrc, immC, pReg, fullCtl]
theorem fsigm (c : VCtl) (ty : FTy) (vd : BitVec 6) (va : VSrc) : Statement (.fsigm c ty vd va) :=
  of_word _ rfl fun h => by simp [decodeWord, decodeV, onlyWf, h, noSrc, immC, pReg, fullCtl]
theorem fsin (c : VCtl) (ty : FTy) (vd : BitVec 6) (va : VSrc) : Statement (.fsin c ty vd va) :=
  of_word _ rfl fun h => by simp [decodeWord, decodeV, onlyWf, h, noSrc, immC, pReg, fullCtl]
theorem fcos (c : VCtl) (ty : FTy) (vd : BitVec 6) (va : VSrc) : Statement (.fcos c ty vd va) :=
  of_word _ rfl fun h => by simp [decodeWord, decodeV, onlyWf, h, noSrc, immC, pReg, fullCtl]
theorem vcmp (c : VCtl) (sz : ISz) (cond : Cond) (pd : BitVec 4) (va : VSrc) (vb : VSrc) : Statement (.vcmp c sz cond pd va vb) :=
  of_word _ rfl fun h => by simp [decodeWord, decodeV, onlyWf, h, noSrc, immC, pReg, fullCtl]
theorem fcmp (c : VCtl) (ty : FTy) (cond : FCond) (pd : BitVec 4) (va : VSrc) (vb : VSrc) : Statement (.fcmp c ty cond pd va vb) :=
  of_word _ rfl fun h => by simp [decodeWord, decodeV, onlyWf, h, noSrc, immC, pReg, fullCtl]
theorem vsel (c : VCtl) (sz : ISz) (vd : BitVec 6) (va : VSrc) (vb : VSrc) : Statement (.vsel c sz vd va vb) :=
  of_word _ rfl fun h => by simp [decodeWord, decodeV, onlyWf, h, noSrc, immC, pReg, fullCtl]
theorem fcls (c : VCtl) (ty : FTy) (vd : BitVec 6) (va : VSrc) : Statement (.fcls c ty vd va) :=
  of_word _ rfl fun h => by simp [decodeWord, decodeV, onlyWf, h, noSrc, immC, pReg, fullCtl]
theorem vcvt (c : VCtl) (k : CvtKind) (rm : RMode) (nsat : Bool) (vd : BitVec 6) (va : VSrc) : Statement (.vcvt c k rm nsat vd va) :=
  by
  cases k <;> refine of_word _ rfl fun h => ?_ <;>
    simp only [decodeWord, decodeV, LayV.of_word, immC, join_halves] <;> simp [onlyWf, h, noSrc]
theorem vpack (sz : ISz) (sat : PackSat) (vd : BitVec 6) (va : VSrc) (vb : VSrc) : Statement (.vpack sz sat vd va vb) :=
  of_word _ rfl fun h => by simp [decodeWord, decodeV, onlyWf, h, noSrc, immC, pReg, fullCtl]
theorem vunpk (sz : ISz) (sgn : Bool) (hi : Bool) (vd : BitVec 6) (va : VSrc) : Statement (.vunpk sz sgn hi vd va) :=
  of_word _ rfl fun h => by simp [decodeWord, decodeV, onlyWf, h, noSrc, immC, pReg, fullCtl]
theorem vqnt (fs : FSel) (vd : BitVec 6) (va : VSrc) : Statement (.vqnt fs vd va) :=
  of_word _ rfl fun h => by simp [decodeWord, decodeV, onlyWf, h, noSrc, immC, pReg, fullCtl]
theorem vdqt (fs : FSel) (vd : BitVec 6) (va : VSrc) : Statement (.vdqt fs vd va) :=
  of_word _ rfl fun h => by simp [decodeWord, decodeV, onlyWf, h, noSrc, immC, pReg, fullCtl]
theorem vred (c : VCtl) (k : RedKind) (vd : BitVec 6) (va : VSrc) : Statement (.vred c k vd va) :=
  by
  rcases k with ⟨op, sz⟩ | ⟨op, ty⟩ <;> cases op <;>
    first | (refine fun h => absurd h ?_; simp [Instr.wf, RedKind.wf]; done) |
      exact of_word _ rfl fun h => by simp [decodeWord, decodeV, onlyWf, h, noSrc, immC, redAll, RedOp.code, pReg, fullCtl]
theorem vamax (c : VCtl) (ty : FTy) (m : SelMode) (vd : BitVec 6) (va : VSrc) : Statement (.vamax c ty m vd va) :=
  of_word _ rfl fun h => by simp [decodeWord, decodeV, onlyWf, h, noSrc, immC, pReg, fullCtl]
theorem vscan (c : VCtl) (k : RedKind) (excl : Bool) (vd : BitVec 6) (va : VSrc) : Statement (.vscan c k excl vd va) :=
  by
  rcases k with ⟨op, sz⟩ | ⟨op, ty⟩ <;> cases op <;>
    first | (refine fun h => absurd h ?_; simp [Instr.wf, RedKind.wf]; done) |
      exact of_word _ rfl fun h => by simp [decodeWord, decodeV, onlyWf, h, noSrc, immC, redAll, RedOp.code, pReg, fullCtl]
theorem vperm (c : VCtl) (sz : ISz) (vd : BitVec 6) (va : VSrc) (vb : VSrc) : Statement (.vperm c sz vd va vb) :=
  of_word _ rfl fun h => by simp [decodeWord, decodeV, onlyWf, h, noSrc, immC, pReg, fullCtl]
theorem vshuf (c : VCtl) (sz : ISz) (vd : BitVec 6) (va : VSrc) (vb : VSrc) (vc : VSrc) : Statement (.vshuf c sz vd va vb vc) :=
  of_word _ rfl fun h => by simp [decodeWord, decodeV, onlyWf, h, noSrc, immC, pReg, fullCtl]
theorem vbcst (c : VCtl) (sz : ISz) (idx : BitVec 6) (vd : BitVec 6) (va : VSrc) : Statement (.vbcst c sz idx vd va) :=
  of_word _ rfl fun h => by simp [decodeWord, decodeV, onlyWf, h, noSrc, immC, pReg, fullCtl]
theorem vsld (c : VCtl) (sz : ISz) (k : BitVec 6) (vd : BitVec 6) (va : VSrc) (vb : VSrc) : Statement (.vsld c sz k vd va vb) :=
  of_word _ rfl fun h => by simp [decodeWord, decodeV, onlyWf, h, noSrc, immC, pReg, fullCtl]
theorem vzip (c : VCtl) (sz : ISz) (hi : Bool) (vd : BitVec 6) (va : VSrc) (vb : VSrc) : Statement (.vzip c sz hi vd va vb) :=
  of_word _ rfl fun h => by simp [decodeWord, decodeV, onlyWf, h, noSrc, immC, pReg, fullCtl]
theorem vmov (c : VCtl) (sz : ISz) (rep : BitVec 6) (vd : BitVec 6) (va : VSrc) : Statement (.vmov c sz rep vd va) :=
  of_word _ rfl fun h => by simp [decodeWord, decodeV, onlyWf, h, noSrc, immC, pReg, fullCtl]
theorem vmovi (c : VCtl) (sz : ISz) (imm : BitVec 18) (vd : BitVec 6) : Statement (.vmovi c sz imm vd) :=
  by
  refine of_word _ rfl fun h => ?_
  simp only [decodeWord, decodeV, LayV.of_word, immC, join_thirds]
  simp [onlyWf, h]
theorem pand (c : VCtl) (pd : BitVec 4) (pa : BitVec 4) (pb : BitVec 4) : Statement (.pand c pd pa pb) :=
  of_word _ rfl fun h => by simp [decodeWord, decodeV, onlyWf, h, noSrc, immC, pReg, fullCtl]
theorem por (c : VCtl) (pd : BitVec 4) (pa : BitVec 4) (pb : BitVec 4) : Statement (.por c pd pa pb) :=
  of_word _ rfl fun h => by simp [decodeWord, decodeV, onlyWf, h, noSrc, immC, pReg, fullCtl]
theorem pxor (c : VCtl) (pd : BitVec 4) (pa : BitVec 4) (pb : BitVec 4) : Statement (.pxor c pd pa pb) :=
  of_word _ rfl fun h => by simp [decodeWord, decodeV, onlyWf, h, noSrc, immC, pReg, fullCtl]
theorem pnot (c : VCtl) (pd : BitVec 4) (pa : BitVec 4) : Statement (.pnot c pd pa) :=
  of_word _ rfl fun h => by simp [decodeWord, decodeV, onlyWf, h, noSrc, immC, pReg, fullCtl]
theorem pcnt (c : VCtl) (sz : ISz) (pd : BitVec 4) (pa : BitVec 4) : Statement (.pcnt c sz pd pa) :=
  of_word _ rfl fun h => by simp [decodeWord, decodeV, onlyWf, h, noSrc, immC, pReg, fullCtl]
theorem pfirst (c : VCtl) (sz : ISz) (pd : BitVec 4) (pa : BitVec 4) : Statement (.pfirst c sz pd pa) :=
  of_word _ rfl fun h => by simp [decodeWord, decodeV, onlyWf, h, noSrc, immC, pReg, fullCtl]
theorem vrnd (c : VCtl) (m : RndMode) (vd : BitVec 6) : Statement (.vrnd c m vd) :=
  by cases m <;> exact of_word _ rfl fun h => by simp [decodeWord, decodeV, onlyWf, h, noSrc, immC, pReg, fullCtl]
theorem vchk (rng : VRange) (mir : Bool) (ty : FTy) (trp : Bool) (t : BitVec 5) (pd : BitVec 4) (va : VSrc) (vb : VSrc) : Statement (.vchk rng mir ty trp t pd va vb) :=
  of_word _ rfl fun h => by simp [decodeWord, decodeV, onlyWf, h, noSrc, immC, pReg, fullCtl]
theorem mbld (fs : FSel) (pl : Bool) (ck : Chk) (aa : BitVec 4) (off : BitVec 12) : Statement (.mbld fs pl ck aa off) :=
  of_word _ rfl fun h => by simp [decodeWord, decodeM, onlyWf, h, noSrc, immC]
theorem mbldh (pl : Bool) : Statement (.mbldh pl) :=
  of_word _ rfl fun h => by simp [decodeWord, decodeM, onlyWf, h, noSrc, immC]
theorem mrow (op : CellOp) (bk : BitVec 2) (fs : FSel) (pl : Bool) (va : VSrc) (m : BitVec 6) (st : StartMode) (hoff : BitVec 7) (vh : VSrc) : Statement (.mrow op bk fs pl va m st hoff vh) :=
  of_word _ rfl fun h => by simp [decodeWord, decodeM, onlyWf, h, noSrc, immC]
theorem mchk (bk : BitVec 2) (fs : FSel) (pl : Bool) (reg : Option VSrc) (st : StartMode) : Statement (.mchk bk fs pl reg st) :=
  by cases reg <;> exact of_word _ rfl fun h => by simp [decodeWord, decodeM, onlyWf, h, noSrc, immC]
theorem mzero (bk : Option (BitVec 2)) : Statement (.mzero bk) :=
  by cases bk <;> exact of_word _ rfl fun h => by simp [decodeWord, decodeM, onlyWf, h, noSrc, immC]
theorem macc (bd : BitVec 2) (bs : BitVec 2) : Statement (.macc bd bs) :=
  of_word _ rfl fun h => by simp [decodeWord, decodeM, onlyWf, h, noSrc, immC]
theorem mdrn (bk : BitVec 2) (fs : FSel) (m : Fin 64) (nochk : Bool) (ckw : Bool) (tm : BitVec 4) (col : Option (BitVec 4 × BitVec 16)) : Statement (.mdrn bk fs m nochk ckw tm col) :=
  by
  have hm : (m.val + 1) % 256 = m.val + 1 := Nat.mod_eq_of_lt (by omega)
  have hl : m.val + 1 ≤ 64 := by omega
  cases col <;> exact of_word _ rfl fun h => by simp [decodeWord, decodeM, onlyWf, h, noSrc, immC, hm, hl]
theorem mdrnk (bk : BitVec 2) (fs : FSel) (va : BitVec 6) (k : BitVec 4) (nochk : Bool) (mode : SelMode) (m : Fin 64) (nr : BitVec 5) (rb : BitVec 6) : Statement (.mdrnk bk fs va k nochk mode m nr rb) :=
  by
  have hm : (m.val + 1) % 128 = m.val + 1 := Nat.mod_eq_of_lt (by omega)
  have hl : m.val + 1 ≤ 64 := by omega
  exact of_word _ rfl fun h => by simp [decodeWord, decodeM, onlyWf, h, noSrc, immC, hm, hl]
theorem mstat (va : BitVec 6) (clr : Bool) : Statement (.mstat va clr) :=
  of_word _ rfl fun h => by simp [decodeWord, decodeM, onlyWf, h, noSrc, immC]
theorem mrd (bk : BitVec 2) (va : BitVec 6) (ln : BankLine) : Statement (.mrd bk va ln) :=
  by
  have hp : ln.part.val % 4 = ln.part.val := Nat.mod_eq_of_lt (by omega)
  have hi : ln.idx.val % 128 = ln.idx.val := Nat.mod_eq_of_lt (by omega)
  exact of_word _ rfl fun h => by simp [decodeWord, decodeM, onlyWf, h, noSrc, immC, BankLine.aux, hp, hi]
theorem mwr (bk : BitVec 2) (va : VSrc) (ln : BankLine) : Statement (.mwr bk va ln) :=
  by
  have hp : ln.part.val % 4 = ln.part.val := Nat.mod_eq_of_lt (by omega)
  have hi : ln.idx.val % 128 = ln.idx.val := Nat.mod_eq_of_lt (by omega)
  exact of_word _ rfl fun h => by simp [decodeWord, decodeM, onlyWf, h, noSrc, immC, BankLine.aux, hp, hi]
theorem mrot (bd : BitVec 2) (bs : BitVec 2) (pl : Bool) (m : Fin 64) : Statement (.mrot bd bs pl m) :=
  by
  have hm : (m.val + 1) % 256 = m.val + 1 := Nat.mod_eq_of_lt (by omega)
  have hl : m.val + 1 ≤ 64 := by omega
  exact of_word _ rfl fun h => by simp [decodeWord, decodeM, onlyWf, h, noSrc, immC, hm, hl]
theorem mdiag (va : BitVec 6) : Statement (.mdiag va) :=
  of_word _ rfl fun h => by simp [decodeWord, decodeM, onlyWf, h, noSrc, immC]
theorem mspr (va : BitVec 6) (persist : Bool) (row : Fin 66) : Statement (.mspr va persist row) :=
  by
  have hr : row.val % 128 = row.val := Nat.mod_eq_of_lt (by omega)
  exact of_word _ rfl fun h => by simp [decodeWord, decodeM, onlyWf, h, noSrc, immC, hr, row_high]
theorem xld (o : XOps) : Statement (.xld o) :=
  of_word _ rfl fun h => by simp [decodeWord, decodeX, onlyWf, h]
theorem xldw (o : XOps) : Statement (.xldw o) :=
  of_word _ rfl fun h => by simp [decodeWord, decodeX, onlyWf, h]
theorem xst (o : XOps) : Statement (.xst o) :=
  of_word _ rfl fun h => by simp [decodeWord, decodeX, onlyWf, h]
theorem xput (o : XOps) : Statement (.xput o) :=
  of_word _ rfl fun h => by simp [decodeWord, decodeX, onlyWf, h]
theorem xb (o : XOps) : Statement (.xb o) :=
  of_word _ rfl fun h => by simp [decodeWord, decodeX, onlyWf, h]
theorem xpsh (one : Bool) (sa : BitVec 5) (sb : BitVec 5) : Statement (.xpsh one sa sb) :=
  of_word _ rfl fun h => by simp [decodeWord, decodeX, onlyWf, h]
theorem xgth (o : XOps) : Statement (.xgth o) :=
  of_word _ rfl fun h => by simp [decodeWord, decodeX, onlyWf, h]
theorem xsct (o : XOps) : Statement (.xsct o) :=
  of_word _ rfl fun h => by simp [decodeWord, decodeX, onlyWf, h]
theorem xchn (o : XOps) : Statement (.xchn o) :=
  of_word _ rfl fun h => by simp [decodeWord, decodeX, onlyWf, h]
theorem xpair (o : XOps) : Statement (.xpair o) :=
  of_word _ rfl fun h => by simp [decodeWord, decodeX, onlyWf, h]
theorem xfil (sp : Bool) (o : XOps) : Statement (.xfil sp o) :=
  of_word _ rfl fun h => by simp [decodeWord, decodeX, onlyWf, h]
theorem xcol (k : BitVec 4) (o : XOps) : Statement (.xcol k o) :=
  of_word _ rfl fun h => by simp [decodeWord, decodeX, onlyWf, h]
theorem xfen (o : XOps) : Statement (.xfen o) :=
  of_word _ rfl fun h => by simp [decodeWord, decodeX, onlyWf, h]
theorem xcan (all : Bool) (sq : BitVec 12) : Statement (.xcan all sq) :=
  of_word _ rfl fun h => by simp [decodeWord, decodeX, onlyWf, h]
theorem dadd (m : PairMode) (dd : BitVec 3) (da : BitVec 3) (db : BitVec 3) : Statement (.dadd m dd da db) :=
  of_word _ rfl fun h => by simp [decodeWord, decodeD, onlyWf, h, noSrc, immC]
theorem dsub (m : PairMode) (dd : BitVec 3) (da : BitVec 3) (db : BitVec 3) : Statement (.dsub m dd da db) :=
  of_word _ rfl fun h => by simp [decodeWord, decodeD, onlyWf, h, noSrc, immC]
theorem dmul (m : PairMode) (dd : BitVec 3) (da : BitVec 3) (db : BitVec 3) : Statement (.dmul m dd da db) :=
  of_word _ rfl fun h => by simp [decodeWord, decodeD, onlyWf, h, noSrc, immC]
theorem dmax (m : PairMode) (dd : BitVec 3) (da : BitVec 3) (db : BitVec 3) : Statement (.dmax m dd da db) :=
  of_word _ rfl fun h => by simp [decodeWord, decodeD, onlyWf, h, noSrc, immC]
theorem dmin (m : PairMode) (dd : BitVec 3) (da : BitVec 3) (db : BitVec 3) : Statement (.dmin m dd da db) :=
  of_word _ rfl fun h => by simp [decodeWord, decodeD, onlyWf, h, noSrc, immC]
theorem daff (dd : BitVec 3) (da : BitVec 3) (va : VSrc) : Statement (.daff dd da va) :=
  of_word _ rfl fun h => by simp [decodeWord, decodeD, onlyWf, h, noSrc, immC]
theorem dmap (f : MapFn) (dd : BitVec 3) (da : BitVec 3) : Statement (.dmap f dd da) :=
  of_word _ rfl fun h => by simp [decodeWord, decodeD, onlyWf, h, noSrc, immC]
theorem dmix (dd : BitVec 3) (da : BitVec 3) (db : BitVec 3) (va : VSrc) : Statement (.dmix dd da db va) :=
  of_word _ rfl fun h => by simp [decodeWord, decodeD, onlyWf, h, noSrc, immC]
theorem dfrs (dd : BitVec 3) (va : VSrc) : Statement (.dfrs dd va) :=
  of_word _ rfl fun h => by simp [decodeWord, decodeD, onlyWf, h, noSrc, immC]
theorem dfrw (dd : BitVec 3) (va : VSrc) : Statement (.dfrw dd va) :=
  of_word _ rfl fun h => by simp [decodeWord, decodeD, onlyWf, h, noSrc, immC]
theorem dpnt (dd : BitVec 3) (va : VSrc) : Statement (.dpnt dd va) :=
  of_word _ rfl fun h => by simp [decodeWord, decodeD, onlyWf, h, noSrc, immC]
theorem dsmp (va : BitVec 6) (da : BitVec 3) : Statement (.dsmp va da) :=
  of_word _ rfl fun h => by simp [decodeWord, decodeD, onlyWf, h, noSrc, immC]
theorem dmom (va : BitVec 6) (da : BitVec 3) : Statement (.dmom va da) :=
  of_word _ rfl fun h => by simp [decodeWord, decodeD, onlyWf, h, noSrc, immC]
theorem dqnt (lin : Bool) (da : BitVec 3) (va : VSrc) : Statement (.dqnt lin da va) :=
  of_word _ rfl fun h => by simp [decodeWord, decodeD, onlyWf, h, noSrc, immC]
theorem dtag (op : TagOp) (dd : BitVec 3) (da : BitVec 3) (va : VSrc) : Statement (.dtag op dd da va) :=
  of_word _ rfl fun h => by simp [decodeWord, decodeD, onlyWf, h, noSrc, immC]
theorem dmov (sel : BitVec 8) (dd : BitVec 3) (da : BitVec 3) : Statement (.dmov sel dd da) :=
  of_word _ rfl fun h => by simp [decodeWord, decodeD, onlyWf, h, noSrc, immC]
theorem dcnd (dd : BitVec 3) (da : BitVec 3) (va : VSrc) : Statement (.dcnd dd da va) :=
  of_word _ rfl fun h => by simp [decodeWord, decodeD, onlyWf, h, noSrc, immC]
theorem send (pt : Bool) (ind : Bool) (c : ChunkEx) (p : PeerEx) : Statement (.send pt ind c p) :=
  by
  refine of_word _ rfl fun h => ?_
  cases pt <;> cases ind <;> simp [decodeWord, decodeBz, onlyWf, h]
theorem recv (pr : Bool) (c : ChunkEx) : Statement (.recv pr c) :=
  by
  refine of_word _ rfl fun h => ?_
  cases pr <;> simp [decodeWord, decodeBz, onlyWf, h, noPeer]
theorem rrs (rop : BzRop) (pr : Bool) (pt : Bool) (ind : Bool) (c : ChunkEx) (p : PeerEx) : Statement (.rrs rop pr pt ind c p) :=
  by
  refine of_word _ rfl fun h => ?_
  cases rop <;> cases pr <;> cases pt <;> cases ind <;> simp [decodeWord, decodeBz, onlyWf, h, ropAll, BzRop.code]
theorem rrd (rop : BzRop) (pr : Bool) (c : ChunkEx) : Statement (.rrd rop pr c) :=
  by
  refine of_word _ rfl fun h => ?_
  cases rop <;> cases pr <;> simp [decodeWord, decodeBz, onlyWf, h, noPeer, ropAll, BzRop.code]
theorem copy (c : ChunkEx) : Statement (.copy c) :=
  of_word _ rfl fun h => by simp [decodeWord, decodeBz, onlyWf, h, noPeer, noChunk]
theorem waitc (c : ChunkEx) : Statement (.waitc c) :=
  of_word _ rfl fun h => by simp [decodeWord, decodeBz, onlyWf, h, noPeer, noChunk]
theorem sig (ind : Bool) (idx : BitVec 6) (p : PeerEx) : Statement (.sig ind idx p) :=
  by
  refine of_word _ rfl fun h => ?_
  cases ind <;> simp [decodeWord, decodeBz, onlyWf, h, RankSign.code, rankAll]
theorem sigBit (b : BitVec 12) : Statement (.sigBit b) :=
  of_word _ rfl fun h => by simp [decodeWord, decodeBz, onlyWf, h, noPeer, RankSign.code, rankAll]
theorem waits (idx : BitVec 6) (n : BitVec 16) : Statement (.waits idx n) :=
  of_word _ rfl fun h => by simp [decodeWord, decodeBz, onlyWf, h, noPeer, noChunk]
theorem bzLoop (gd : BitVec 3) (n : BitVec 32) : Statement (.bzLoop gd n) :=
  of_word _ rfl fun h => by simp [decodeWord, decodeBz, onlyWf, h, noPeer, noChunk]
theorem setv (gd : BitVec 3) (imm : BitVec 32) : Statement (.setv gd imm) :=
  of_word _ rfl fun h => by simp [decodeWord, decodeBz, onlyWf, h, noPeer, noChunk]
theorem addv (gd : BitVec 3) (ga : BitVec 3) (imm : BitVec 32) : Statement (.addv gd ga imm) :=
  of_word _ rfl fun h => by simp [decodeWord, decodeBz, onlyWf, h, noPeer, noChunk]
theorem peer (gd : BitVec 3) (p : PeerEx) : Statement (.peer gd p) :=
  of_word _ rfl fun h => by simp [decodeWord, decodeBz, onlyWf, h, noChunk, RankSign.code, rankAll, peer_low, peer_ind, peer_xor]
theorem peerInd (gd : BitVec 3) (pg : BitVec 3) : Statement (.peerInd gd pg) :=
  of_word _ rfl fun h => by simp [decodeWord, decodeBz, onlyWf, h, noChunk, RankSign.code, rankAll, peer_low, peer_ind, peer_xor]
theorem peerXor (gd : BitVec 3) (pg : BitVec 3) : Statement (.peerXor gd pg) :=
  of_word _ rfl fun h => by simp [decodeWord, decodeBz, onlyWf, h, noChunk, RankSign.code, rankAll, peer_low, peer_ind, peer_xor]
theorem bar (acq : Bool) (rel : Bool) : Statement (.bar acq rel) :=
  by
  refine of_word _ rfl fun h => ?_
  cases acq <;> cases rel <;> simp [decodeWord, decodeBz, onlyWf, h, noPeer, noChunk, RankSign.code, rankAll]
theorem chunkCount (c : BitVec 4) (k : BitVec 4) (chunk : BitVec 20) (inc : BitVec 16) (o : Origin) : Statement (.chunkCount c k chunk inc o) := of_event rfl rfl
theorem deliveryComplete (id : Nat) : Statement (.deliveryComplete id) := of_event rfl rfl
theorem deliveryFailure (id : Nat) : Statement (.deliveryFailure id) := of_event rfl rfl
theorem buntingWindowReread (task : Nat) : Statement (.buntingWindowReread task) := of_event rfl rfl
theorem windowTimeout (task : Nat) : Statement (.windowTimeout task) := of_event rfl rfl
theorem preemptionFreeze (task : Nat) (gang : Nat) : Statement (.preemptionFreeze task gang) := of_event rfl rfl
theorem checkpointSave (task : Nat) (gang : Nat) : Statement (.checkpointSave task gang) := of_event rfl rfl
theorem gangResume (task : Nat) (gang : Nat) : Statement (.gangResume task gang) := of_event rfl rfl
theorem killdone (ctx : BitVec 12) : Statement (.killdone ctx) := of_event rfl rfl
theorem runEnd (c : BitVec 4) : Statement (.runEnd c) := of_event rfl rfl
theorem farAccessHoldEnd (c : BitVec 4) : Statement (.farAccessHoldEnd c) := of_event rfl rfl
theorem pwaitResume (c : BitVec 4) : Statement (.pwaitResume c) := of_event rfl rfl
theorem bwaitComplete (c : BitVec 4) : Statement (.bwaitComplete c) := of_event rfl rfl
theorem ttsyncRelease (c : BitVec 4) : Statement (.ttsyncRelease c) := of_event rfl rfl
theorem lnchAnswer (c : BitVec 4) : Statement (.lnchAnswer c) := of_event rfl rfl
theorem amaxfComplete (c : BitVec 4) : Statement (.amaxfComplete c) := of_event rfl rfl
theorem holdTimeout (c : BitVec 4) : Statement (.holdTimeout c) := of_event rfl rfl
theorem slipLimit (c : BitVec 4) : Statement (.slipLimit c) := of_event rfl rfl
theorem slipEnd (c : BitVec 4) : Statement (.slipEnd c) := of_event rfl rfl
theorem codeFetchArrival (c : BitVec 4) : Statement (.codeFetchArrival c) := of_event rfl rfl
theorem gatherEntryArrival (c : BitVec 4) : Statement (.gatherEntryArrival c) := of_event rfl rfl
theorem copyCommandStart (c : BitVec 4) : Statement (.copyCommandStart c) := of_event rfl rfl
theorem copyCommandComplete (c : BitVec 4) : Statement (.copyCommandComplete c) := of_event rfl rfl
theorem bsetPerform (c : BitVec 4) : Statement (.bsetPerform c) := of_event rfl rfl
theorem postedAtomPerform (c : BitVec 4) : Statement (.postedAtomPerform c) := of_event rfl rfl
theorem updateLineMerge (c : BitVec 4) (line : Nat) : Statement (.updateLineMerge c line) := of_event rfl rfl
theorem windowWrite (c : BitVec 4) : Statement (.windowWrite c) := of_event rfl rfl
theorem resultLanding (c : BitVec 4) : Statement (.resultLanding c) := of_event rfl rfl
theorem scratchpadPerform (c : BitVec 4) : Statement (.scratchpadPerform c) := of_event rfl rfl
theorem planeReady (c : BitVec 4) : Statement (.planeReady c) := of_event rfl rfl
theorem arrayColumnStep (c : BitVec 4) : Statement (.arrayColumnStep c) := of_event rfl rfl
theorem drainComplete (c : BitVec 4) : Statement (.drainComplete c) := of_event rfl rfl
theorem maintenanceRun (c : BitVec 4) : Statement (.maintenanceRun c) := of_event rfl rfl
theorem tlbInvalidationComplete (ctx : BitVec 12) (lo : BitVec 57) (hi : BitVec 57) : Statement (.tlbInvalidationComplete ctx lo hi) := of_event rfl rfl
theorem throttleHoldEnd (c : BitVec 4) : Statement (.throttleHoldEnd c) := of_event rfl rfl
theorem generatorReseed (c : BitVec 4) (unit : BitVec 9) : Statement (.generatorReseed c unit) := of_event rfl rfl
theorem translationReplay (c : BitVec 4) : Statement (.translationReplay c) := of_event rfl rfl
theorem kill (ctx : BitVec 12) : Statement (.kill ctx) := of_event rfl rfl
theorem droopDetect (c : BitVec 4) : Statement (.droopDetect c) := of_event rfl rfl
theorem bozoakContextTurn : Statement (.bozoakContextTurn) := of_event rfl rfl
theorem bzcmdStart (via : Via) (k : BitVec 4) : Statement (.bzcmdStart via k) := of_event rfl rfl
theorem bzcmdStop (via : Via) (k : BitVec 4) : Statement (.bzcmdStop via k) := of_event rfl rfl
theorem bzcmdClrcnt (via : Via) (k : BitVec 4) : Statement (.bzcmdClrcnt via k) := of_event rfl rfl
theorem bzbindWrite (k : BitVec 4) (v : BitVec 64) : Statement (.bzbindWrite k v) := of_event rfl rfl
theorem signalArrival (k : BitVec 4) (idx : BitVec 6) : Statement (.signalArrival k idx) := of_event rfl rfl
theorem hostLaunchDoorbell (w : BitVec 4) (tag : BitVec 32) : Statement (.hostLaunchDoorbell w tag) := of_event rfl rfl
theorem completionHeadWrite (w : BitVec 4) (v : BitVec 64) : Statement (.completionHeadWrite w v) := of_event rfl rfl
theorem supervisorRecord (rcd : BitVec 1024) : Statement (.supervisorRecord rcd) := of_event rfl rfl
theorem forwardedFabricRecord (sender : BitVec 12) (rcd : BitVec 1024) (pos : BitVec 8) : Statement (.forwardedFabricRecord sender rcd pos) := of_event rfl rfl
theorem launchDispatch : Statement (.launchDispatch) := of_event rfl rfl
theorem ageingPeriod : Statement (.ageingPeriod) := of_event rfl rfl
theorem remotePennantUpdate (c : BitVec 4) (addr : BitVec 26) (operand : BitVec 64) : Statement (.remotePennantUpdate c addr operand) := of_event rfl rfl
theorem launchWindowBind (w : BitVec 4) (bound : Bool) (ctx : BitVec 12) : Statement (.launchWindowBind w bound ctx) := of_event rfl rfl
theorem contextDescriptorWrite (ctx : BitVec 12) (v : BitVec 64) : Statement (.contextDescriptorWrite ctx v) := of_event rfl rfl
theorem peerWindowWrite (i : BitVec 4) (v : BitVec 128) : Statement (.peerWindowWrite i v) := of_event rfl rfl
theorem peerInboundRequest (src : BitVec 12) (k : AccKind) (off : BitVec 39) (data : List Byte) : Statement (.peerInboundRequest src k off data) := of_event rfl rfl
theorem snapshotDescriptorWrite (i : BitVec 4) (v : BitVec 512) : Statement (.snapshotDescriptorWrite i v) := of_event rfl rfl
theorem snaproll (i : BitVec 4) : Statement (.snaproll i) := of_event rfl rfl
theorem tlbInvalidation (ctx : BitVec 12) (lo : BitVec 57) (hi : BitVec 57) : Statement (.tlbInvalidation ctx lo hi) := of_event rfl rfl
theorem pcapWrite (watts : BitVec 32) : Statement (.pcapWrite watts) := of_event rfl rfl
theorem temperatureLimitWrite (warn : BitVec 16) (crit : BitVec 16) : Statement (.temperatureLimitWrite warn crit) := of_event rfl rfl
theorem columnEventLimitWrite (thr : BitVec 32) (seconds : BitVec 32) : Statement (.columnEventLimitWrite thr seconds) := of_event rfl rfl
theorem halt (c : BitVec 4) : Statement (.halt c) := of_event rfl rfl
theorem step (c : BitVec 4) : Statement (.step c) := of_event rfl rfl
theorem resume (c : BitVec 4) : Statement (.resume c) := of_event rfl rfl
theorem rdreg (c : BitVec 4) (r : DbgReg) : Statement (.rdreg c r) := of_event rfl rfl
theorem wrreg (c : BitVec 4) (r : DbgReg) (v : BitVec 2048) : Statement (.wrreg c r v) := of_event rfl rfl
theorem rdimg (c : BitVec 4) (core : Option (BitVec 8)) : Statement (.rdimg c core) := of_event rfl rfl
theorem edimg (c : BitVec 4) (core : BitVec 8) (entry : Nat) (e : ImgEdit) : Statement (.edimg c core entry e) := of_event rfl rfl
theorem handover (nonce : BitVec 256) : Statement (.handover nonce) := of_event rfl rfl
theorem handoverStepOverrun : Statement (.handoverStepOverrun) := of_event rfl rfl
theorem getVersion : Statement (.getVersion) := of_event rfl rfl
theorem getCapabilities : Statement (.getCapabilities) := of_event rfl rfl
theorem negotiateAlgorithms (offer : List Byte) : Statement (.negotiateAlgorithms offer) := of_event rfl rfl
theorem getDigests : Statement (.getDigests) := of_event rfl rfl
theorem getCertificate (slot : BitVec 8) (off : BitVec 16) (len : BitVec 16) : Statement (.getCertificate slot off len) := of_event rfl rfl
theorem challenge (slot : BitVec 8) (nonce : BitVec 256) : Statement (.challenge slot nonce) := of_event rfl rfl
theorem getMeasurements (index : BitVec 8) (sign : Bool) (nonce : BitVec 256) : Statement (.getMeasurements index sign nonce) := of_event rfl rfl
theorem keyExchange (exch : List Byte) : Statement (.keyExchange exch) := of_event rfl rfl
theorem finish (session : Nat) (mac : List Byte) : Statement (.finish session mac) := of_event rfl rfl
theorem endSession (session : Nat) : Statement (.endSession session) := of_event rfl rfl
theorem ideKm (session : Nat) (port : BitVec 3) (link : Bool) (key : BitVec 256) : Statement (.ideKm session port link key) := of_event rfl rfl
theorem powerWindow : Statement (.powerWindow) := of_event rfl rfl
theorem monitorSample : Statement (.monitorSample) := of_event rfl rfl
theorem patrolScrub : Statement (.patrolScrub) := of_event rfl rfl
theorem linkFailure (link : BitVec 3) : Statement (.linkFailure link) := of_event rfl rfl
theorem coldReset : Statement (.coldReset) := of_event rfl rfl
theorem warmReset : Statement (.warmReset) := of_event rfl rfl
theorem registerWrite (off : BitVec 22) (v : BitVec 64) : Statement (.registerWrite off v) := of_event rfl rfl
theorem noiseSourceFailure (c : BitVec 4) : Statement (.noiseSourceFailure c) := of_event rfl rfl
theorem measurementSlotExtend (slot : BitVec 4) (digest : BitVec 256) : Statement (.measurementSlotExtend slot digest) := of_event rfl rfl
theorem hostHdmAccess (k : AccKind) (addr : BitVec 39) (data : List Byte) : Statement (.hostHdmAccess k addr data) := of_event rfl rfl
theorem forwardedRecordRefusal (task : Nat) : Statement (.forwardedRecordRefusal task) := of_event rfl rfl
theorem nop : Statement (.nop) :=
  fun _ => .inl ⟨_, rfl, rfl⟩
theorem endl : Statement (.endl) :=
  of_word _ rfl fun h => by simp [decodeWord, decodeS, onlyWf, h]
theorem ttsync : Statement (.ttsync) :=
  of_word _ rfl fun h => by simp [decodeWord, decodeS, onlyWf, h]
theorem rft : Statement (.rft) :=
  of_word _ rfl fun h => by simp [decodeWord, decodeS, onlyWf, h]
theorem endRun : Statement (.endRun) :=
  of_word _ rfl fun h => by simp [decodeWord, decodeS, onlyWf, h]
theorem yieldRun : Statement (.yieldRun) :=
  of_word _ rfl fun h => by simp [decodeWord, decodeS, onlyWf, h]
theorem bzEndl : Statement (.bzEndl) :=
  of_word _ rfl fun h => by simp [decodeWord, decodeBz, onlyWf, h, noPeer, noChunk]
theorem bzEnd : Statement (.bzEnd) :=
  of_word _ rfl fun h => by simp [decodeWord, decodeBz, onlyWf, h, noPeer, noChunk]
theorem bzNop : Statement (.bzNop) :=
  of_word _ rfl fun h => by simp [decodeWord, decodeBz, onlyWf, h, noPeer, noChunk]

end Sys2Proof.Laws.Encoding
end

