-- ==== Sys2Proof/Laws/State.lean ====
section
/-!
SUPPORT. What the shared updates of a state, a cluster and a core leave as it was, field by field.
-/
namespace Sys2Proof.Machine

/-! ### A cluster is replaced -/

@[simp] theorem State.setCl_ct (s : State) (c : Nat) (k : Cluster) : (s.setCl c k).ct = s.ct := rfl
@[simp] theorem State.setCl_mem (s : State) (c : Nat) (k : Cluster) : (s.setCl c k).mem = s.mem := rfl
@[simp] theorem State.setCl_wtag (s : State) (c : Nat) (k : Cluster) : (s.setCl c k).wtag = s.wtag := rfl
@[simp] theorem State.setCl_poison (s : State) (c : Nat) (k : Cluster) : (s.setCl c k).poison = s.poison := rfl
@[simp] theorem State.setCl_outer (s : State) (c : Nat) (k : Cluster) : (s.setCl c k).outer = s.outer := rfl
@[simp] theorem State.setCl_hostPut (s : State) (c : Nat) (k : Cluster) : (s.setCl c k).hostPut = s.hostPut := rfl
@[simp] theorem State.setCl_rdc (s : State) (c : Nat) (k : Cluster) : (s.setCl c k).rdc = s.rdc := rfl
@[simp] theorem State.setCl_sidecar (s : State) (c : Nat) (k : Cluster) : (s.setCl c k).sidecar = s.sidecar := rfl
@[simp] theorem State.setCl_sideScope (s : State) (c : Nat) (k : Cluster) : (s.setCl c k).sideScope = s.sideScope := rfl
@[simp] theorem State.setCl_cvec (s : State) (c : Nat) (k : Cluster) : (s.setCl c k).cvec = s.cvec := rfl
@[simp] theorem State.setCl_ctxTab (s : State) (c : Nat) (k : Cluster) : (s.setCl c k).ctxTab = s.ctxTab := rfl
@[simp] theorem State.setCl_inWin (s : State) (c : Nat) (k : Cluster) : (s.setCl c k).inWin = s.inWin := rfl
@[simp] theorem State.setCl_snap (s : State) (c : Nat) (k : Cluster) : (s.setCl c k).snap = s.snap := rfl
@[simp] theorem State.setCl_stlb (s : State) (c : Nat) (k : Cluster) : (s.setCl c k).stlb = s.stlb := rfl
@[simp] theorem State.setCl_tlbInv (s : State) (c : Nat) (k : Cluster) : (s.setCl c k).tlbInv = s.tlbInv := rfl
@[simp] theorem State.setCl_ageq (s : State) (c : Nat) (k : Cluster) : (s.setCl c k).ageq = s.ageq := rfl
@[simp] theorem State.setCl_tasks (s : State) (c : Nat) (k : Cluster) : (s.setCl c k).tasks = s.tasks := rfl
@[simp] theorem State.setCl_nextTask (s : State) (c : Nat) (k : Cluster) : (s.setCl c k).nextTask = s.nextTask := rfl
@[simp] theorem State.setCl_reserve (s : State) (c : Nat) (k : Cluster) : (s.setCl c k).reserve = s.reserve := rfl
@[simp] theorem State.setCl_reservePre (s : State) (c : Nat) (k : Cluster) : (s.setCl c k).reservePre = s.reservePre := rfl
@[simp] theorem State.setCl_maintWait (s : State) (c : Nat) (k : Cluster) : (s.setCl c k).maintWait = s.maintWait := rfl
@[simp] theorem State.setCl_killing (s : State) (c : Nat) (k : Cluster) : (s.setCl c k).killing = s.killing := rfl
@[simp] theorem State.setCl_killCt (s : State) (c : Nat) (k : Cluster) : (s.setCl c k).killCt = s.killCt := rfl
@[simp] theorem State.setCl_wins (s : State) (c : Nat) (k : Cluster) : (s.setCl c k).wins = s.wins := rfl
@[simp] theorem State.setCl_fabBind (s : State) (c : Nat) (k : Cluster) : (s.setCl c k).fabBind = s.fabBind := rfl
@[simp] theorem State.setCl_bz (s : State) (c : Nat) (k : Cluster) : (s.setCl c k).bz = s.bz := rfl
@[simp] theorem State.setCl_bzTurn (s : State) (c : Nat) (k : Cluster) : (s.setCl c k).bzTurn = s.bzTurn := rfl
@[simp] theorem State.setCl_barIn (s : State) (c : Nat) (k : Cluster) : (s.setCl c k).barIn = s.barIn := rfl
@[simp] theorem State.setCl_deliveries (s : State) (c : Nat) (k : Cluster) : (s.setCl c k).deliveries = s.deliveries := rfl
@[simp] theorem State.setCl_nextDelivery (s : State) (c : Nat) (k : Cluster) : (s.setCl c k).nextDelivery = s.nextDelivery := rfl
@[simp] theorem State.setCl_pcap (s : State) (c : Nat) (k : Cluster) : (s.setCl c k).pcap = s.pcap := rfl
@[simp] theorem State.setCl_grants (s : State) (c : Nat) (k : Cluster) : (s.setCl c k).grants = s.grants := rfl
@[simp] theorem State.setCl_droopUsed (s : State) (c : Nat) (k : Cluster) : (s.setCl c k).droopUsed = s.droopUsed := rfl
@[simp] theorem State.setCl_twarn (s : State) (c : Nat) (k : Cluster) : (s.setCl c k).twarn = s.twarn := rfl
@[simp] theorem State.setCl_tcrit (s : State) (c : Nat) (k : Cluster) : (s.setCl c k).tcrit = s.tcrit := rfl
@[simp] theorem State.setCl_sensors (s : State) (c : Nat) (k : Cluster) : (s.setCl c k).sensors = s.sensors := rfl
@[simp] theorem State.setCl_volts (s : State) (c : Nat) (k : Cluster) : (s.setCl c k).volts = s.volts := rfl
@[simp] theorem State.setCl_procs (s : State) (c : Nat) (k : Cluster) : (s.setCl c k).procs = s.procs := rfl
@[simp] theorem State.setCl_sourceFail (s : State) (c : Nat) (k : Cluster) : (s.setCl c k).sourceFail = s.sourceFail := rfl
@[simp] theorem State.setCl_errLog (s : State) (c : Nat) (k : Cluster) : (s.setCl c k).errLog = s.errLog := rfl
@[simp] theorem State.setCl_logOld (s : State) (c : Nat) (k : Cluster) : (s.setCl c k).logOld = s.logOld := rfl
@[simp] theorem State.setCl_colthr (s : State) (c : Nat) (k : Cluster) : (s.setCl c k).colthr = s.colthr := rfl
@[simp] theorem State.setCl_colwin (s : State) (c : Nat) (k : Cluster) : (s.setCl c k).colwin = s.colwin := rfl
@[simp] theorem State.setCl_spare (s : State) (c : Nat) (k : Cluster) : (s.setCl c k).spare = s.spare := rfl
@[simp] theorem State.setCl_svcOut (s : State) (c : Nat) (k : Cluster) : (s.setCl c k).svcOut = s.svcOut := rfl
@[simp] theorem State.setCl_svcHot (s : State) (c : Nat) (k : Cluster) : (s.setCl c k).svcHot = s.svcHot := rfl
@[simp] theorem State.setCl_dieOut (s : State) (c : Nat) (k : Cluster) : (s.setCl c k).dieOut = s.dieOut := rfl
@[simp] theorem State.setCl_linkBad (s : State) (c : Nat) (k : Cluster) : (s.setCl c k).linkBad = s.linkBad := rfl
@[simp] theorem State.setCl_portUp (s : State) (c : Nat) (k : Cluster) : (s.setCl c k).portUp = s.portUp := rfl
@[simp] theorem State.setCl_stackBad (s : State) (c : Nat) (k : Cluster) : (s.setCl c k).stackBad = s.stackBad := rfl
@[simp] theorem State.setCl_errCount (s : State) (c : Nat) (k : Cluster) : (s.setCl c k).errCount = s.errCount := rfl
@[simp] theorem State.setCl_unitErrs (s : State) (c : Nat) (k : Cluster) : (s.setCl c k).unitErrs = s.unitErrs := rfl
@[simp] theorem State.setCl_hand (s : State) (c : Nat) (k : Cluster) : (s.setCl c k).hand = s.hand := rfl
@[simp] theorem State.setCl_report (s : State) (c : Nat) (k : Cluster) : (s.setCl c k).report = s.report := rfl
@[simp] theorem State.setCl_meas (s : State) (c : Nat) (k : Cluster) : (s.setCl c k).meas = s.meas := rfl
@[simp] theorem State.setCl_ideKeys (s : State) (c : Nat) (k : Cluster) : (s.setCl c k).ideKeys = s.ideKeys := rfl
@[simp] theorem State.setCl_sessions (s : State) (c : Nat) (k : Cluster) : (s.setCl c k).sessions = s.sessions := rfl
@[simp] theorem State.setCl_nextSession (s : State) (c : Nat) (k : Cluster) : (s.setCl c k).nextSession = s.nextSession := rfl
@[simp] theorem State.setCl_ready (s : State) (c : Nat) (k : Cluster) : (s.setCl c k).ready = s.ready := rfl
@[simp] theorem State.setCl_failed (s : State) (c : Nat) (k : Cluster) : (s.setCl c k).failed = s.failed := rfl
@[simp] theorem State.setCl_inputs (s : State) (c : Nat) (k : Cluster) : (s.setCl c k).inputs = s.inputs := rfl
@[simp] theorem State.setCl_outbox (s : State) (c : Nat) (k : Cluster) : (s.setCl c k).outbox = s.outbox := rfl
@[simp] theorem State.setCl_agenda (s : State) (c : Nat) (k : Cluster) : (s.setCl c k).agenda = s.agenda := rfl
@[simp] theorem State.setCl_cur (s : State) (c : Nat) (k : Cluster) : (s.setCl c k).cur = s.cur := rfl
@[simp] theorem State.setCl_fresh (s : State) (c : Nat) (k : Cluster) : (s.setCl c k).fresh = s.fresh := rfl

/-! ### A cluster is changed -/

@[simp] theorem State.onCl_ct (s : State) (c : Nat) (f : Cluster → Cluster) : (s.onCl c f).ct = s.ct := rfl
@[simp] theorem State.onCl_mem (s : State) (c : Nat) (f : Cluster → Cluster) : (s.onCl c f).mem = s.mem := rfl
@[simp] theorem State.onCl_wtag (s : State) (c : Nat) (f : Cluster → Cluster) : (s.onCl c f).wtag = s.wtag := rfl
@[simp] theorem State.onCl_poison (s : State) (c : Nat) (f : Cluster → Cluster) : (s.onCl c f).poison = s.poison := rfl
@[simp] theorem State.onCl_outer (s : State) (c : Nat) (f : Cluster → Cluster) : (s.onCl c f).outer = s.outer := rfl
@[simp] theorem State.onCl_hostPut (s : State) (c : Nat) (f : Cluster → Cluster) : (s.onCl c f).hostPut = s.hostPut := rfl
@[simp] theorem State.onCl_rdc (s : State) (c : Nat) (f : Cluster → Cluster) : (s.onCl c f).rdc = s.rdc := rfl
@[simp] theorem State.onCl_sidecar (s : State) (c : Nat) (f : Cluster → Cluster) : (s.onCl c f).sidecar = s.sidecar := rfl
@[simp] theorem State.onCl_sideScope (s : State) (c : Nat) (f : Cluster → Cluster) : (s.onCl c f).sideScope = s.sideScope := rfl
@[simp] theorem State.onCl_cvec (s : State) (c : Nat) (f : Cluster → Cluster) : (s.onCl c f).cvec = s.cvec := rfl
@[simp] theorem State.onCl_ctxTab (s : State) (c : Nat) (f : Cluster → Cluster) : (s.onCl c f).ctxTab = s.ctxTab := rfl
@[simp] theorem State.onCl_inWin (s : State) (c : Nat) (f : Cluster → Cluster) : (s.onCl c f).inWin = s.inWin := rfl
@[simp] theorem State.onCl_snap (s : State) (c : Nat) (f : Cluster → Cluster) : (s.onCl c f).snap = s.snap := rfl
@[simp] theorem State.onCl_stlb (s : State) (c : Nat) (f : Cluster → Cluster) : (s.onCl c f).stlb = s.stlb := rfl
@[simp] theorem State.onCl_tlbInv (s : State) (c : Nat) (f : Cluster → Cluster) : (s.onCl c f).tlbInv = s.tlbInv := rfl
@[simp] theorem State.onCl_ageq (s : State) (c : Nat) (f : Cluster → Cluster) : (s.onCl c f).ageq = s.ageq := rfl
@[simp] theorem State.onCl_tasks (s : State) (c : Nat) (f : Cluster → Cluster) : (s.onCl c f).tasks = s.tasks := rfl
@[simp] theorem State.onCl_nextTask (s : State) (c : Nat) (f : Cluster → Cluster) : (s.onCl c f).nextTask = s.nextTask := rfl
@[simp] theorem State.onCl_reserve (s : State) (c : Nat) (f : Cluster → Cluster) : (s.onCl c f).reserve = s.reserve := rfl
@[simp] theorem State.onCl_reservePre (s : State) (c : Nat) (f : Cluster → Cluster) : (s.onCl c f).reservePre = s.reservePre := rfl
@[simp] theorem State.onCl_maintWait (s : State) (c : Nat) (f : Cluster → Cluster) : (s.onCl c f).maintWait = s.maintWait := rfl
@[simp] theorem State.onCl_killing (s : State) (c : Nat) (f : Cluster → Cluster) : (s.onCl c f).killing = s.killing := rfl
@[simp] theorem State.onCl_killCt (s : State) (c : Nat) (f : Cluster → Cluster) : (s.onCl c f).killCt = s.killCt := rfl
@[simp] theorem State.onCl_wins (s : State) (c : Nat) (f : Cluster → Cluster) : (s.onCl c f).wins = s.wins := rfl
@[simp] theorem State.onCl_fabBind (s : State) (c : Nat) (f : Cluster → Cluster) : (s.onCl c f).fabBind = s.fabBind := rfl
@[simp] theorem State.onCl_bz (s : State) (c : Nat) (f : Cluster → Cluster) : (s.onCl c f).bz = s.bz := rfl
@[simp] theorem State.onCl_bzTurn (s : State) (c : Nat) (f : Cluster → Cluster) : (s.onCl c f).bzTurn = s.bzTurn := rfl
@[simp] theorem State.onCl_barIn (s : State) (c : Nat) (f : Cluster → Cluster) : (s.onCl c f).barIn = s.barIn := rfl
@[simp] theorem State.onCl_deliveries (s : State) (c : Nat) (f : Cluster → Cluster) : (s.onCl c f).deliveries = s.deliveries := rfl
@[simp] theorem State.onCl_nextDelivery (s : State) (c : Nat) (f : Cluster → Cluster) : (s.onCl c f).nextDelivery = s.nextDelivery := rfl
@[simp] theorem State.onCl_pcap (s : State) (c : Nat) (f : Cluster → Cluster) : (s.onCl c f).pcap = s.pcap := rfl
@[simp] theorem State.onCl_grants (s : State) (c : Nat) (f : Cluster → Cluster) : (s.onCl c f).grants = s.grants := rfl
@[simp] theorem State.onCl_droopUsed (s : State) (c : Nat) (f : Cluster → Cluster) : (s.onCl c f).droopUsed = s.droopUsed := rfl
@[simp] theorem State.onCl_twarn (s : State) (c : Nat) (f : Cluster → Cluster) : (s.onCl c f).twarn = s.twarn := rfl
@[simp] theorem State.onCl_tcrit (s : State) (c : Nat) (f : Cluster → Cluster) : (s.onCl c f).tcrit = s.tcrit := rfl
@[simp] theorem State.onCl_sensors (s : State) (c : Nat) (f : Cluster → Cluster) : (s.onCl c f).sensors = s.sensors := rfl
@[simp] theorem State.onCl_volts (s : State) (c : Nat) (f : Cluster → Cluster) : (s.onCl c f).volts = s.volts := rfl
@[simp] theorem State.onCl_procs (s : State) (c : Nat) (f : Cluster → Cluster) : (s.onCl c f).procs = s.procs := rfl
@[simp] theorem State.onCl_sourceFail (s : State) (c : Nat) (f : Cluster → Cluster) : (s.onCl c f).sourceFail = s.sourceFail := rfl
@[simp] theorem State.onCl_errLog (s : State) (c : Nat) (f : Cluster → Cluster) : (s.onCl c f).errLog = s.errLog := rfl
@[simp] theorem State.onCl_logOld (s : State) (c : Nat) (f : Cluster → Cluster) : (s.onCl c f).logOld = s.logOld := rfl
@[simp] theorem State.onCl_colthr (s : State) (c : Nat) (f : Cluster → Cluster) : (s.onCl c f).colthr = s.colthr := rfl
@[simp] theorem State.onCl_colwin (s : State) (c : Nat) (f : Cluster → Cluster) : (s.onCl c f).colwin = s.colwin := rfl
@[simp] theorem State.onCl_spare (s : State) (c : Nat) (f : Cluster → Cluster) : (s.onCl c f).spare = s.spare := rfl
@[simp] theorem State.onCl_svcOut (s : State) (c : Nat) (f : Cluster → Cluster) : (s.onCl c f).svcOut = s.svcOut := rfl
@[simp] theorem State.onCl_svcHot (s : State) (c : Nat) (f : Cluster → Cluster) : (s.onCl c f).svcHot = s.svcHot := rfl
@[simp] theorem State.onCl_dieOut (s : State) (c : Nat) (f : Cluster → Cluster) : (s.onCl c f).dieOut = s.dieOut := rfl
@[simp] theorem State.onCl_linkBad (s : State) (c : Nat) (f : Cluster → Cluster) : (s.onCl c f).linkBad = s.linkBad := rfl
@[simp] theorem State.onCl_portUp (s : State) (c : Nat) (f : Cluster → Cluster) : (s.onCl c f).portUp = s.portUp := rfl
@[simp] theorem State.onCl_stackBad (s : State) (c : Nat) (f : Cluster → Cluster) : (s.onCl c f).stackBad = s.stackBad := rfl
@[simp] theorem State.onCl_errCount (s : State) (c : Nat) (f : Cluster → Cluster) : (s.onCl c f).errCount = s.errCount := rfl
@[simp] theorem State.onCl_unitErrs (s : State) (c : Nat) (f : Cluster → Cluster) : (s.onCl c f).unitErrs = s.unitErrs := rfl
@[simp] theorem State.onCl_hand (s : State) (c : Nat) (f : Cluster → Cluster) : (s.onCl c f).hand = s.hand := rfl
@[simp] theorem State.onCl_report (s : State) (c : Nat) (f : Cluster → Cluster) : (s.onCl c f).report = s.report := rfl
@[simp] theorem State.onCl_meas (s : State) (c : Nat) (f : Cluster → Cluster) : (s.onCl c f).meas = s.meas := rfl
@[simp] theorem State.onCl_ideKeys (s : State) (c : Nat) (f : Cluster → Cluster) : (s.onCl c f).ideKeys = s.ideKeys := rfl
@[simp] theorem State.onCl_sessions (s : State) (c : Nat) (f : Cluster → Cluster) : (s.onCl c f).sessions = s.sessions := rfl
@[simp] theorem State.onCl_nextSession (s : State) (c : Nat) (f : Cluster → Cluster) : (s.onCl c f).nextSession = s.nextSession := rfl
@[simp] theorem State.onCl_ready (s : State) (c : Nat) (f : Cluster → Cluster) : (s.onCl c f).ready = s.ready := rfl
@[simp] theorem State.onCl_failed (s : State) (c : Nat) (f : Cluster → Cluster) : (s.onCl c f).failed = s.failed := rfl
@[simp] theorem State.onCl_inputs (s : State) (c : Nat) (f : Cluster → Cluster) : (s.onCl c f).inputs = s.inputs := rfl
@[simp] theorem State.onCl_outbox (s : State) (c : Nat) (f : Cluster → Cluster) : (s.onCl c f).outbox = s.outbox := rfl
@[simp] theorem State.onCl_agenda (s : State) (c : Nat) (f : Cluster → Cluster) : (s.onCl c f).agenda = s.agenda := rfl
@[simp] theorem State.onCl_cur (s : State) (c : Nat) (f : Cluster → Cluster) : (s.onCl c f).cur = s.cur := rfl
@[simp] theorem State.onCl_fresh (s : State) (c : Nat) (f : Cluster → Cluster) : (s.onCl c f).fresh = s.fresh := rfl

/-! ### The current cluster is changed -/

@[simp] theorem State.onMe_ct (s : State) (f : Cluster → Cluster) : (s.onMe f).ct = s.ct := rfl
@[simp] theorem State.onMe_mem (s : State) (f : Cluster → Cluster) : (s.onMe f).mem = s.mem := rfl
@[simp] theorem State.onMe_wtag (s : State) (f : Cluster → Cluster) : (s.onMe f).wtag = s.wtag := rfl
@[simp] theorem State.onMe_poison (s : State) (f : Cluster → Cluster) : (s.onMe f).poison = s.poison := rfl
@[simp] theorem State.onMe_outer (s : State) (f : Cluster → Cluster) : (s.onMe f).outer = s.outer := rfl
@[simp] theorem State.onMe_hostPut (s : State) (f : Cluster → Cluster) : (s.onMe f).hostPut = s.hostPut := rfl
@[simp] theorem State.onMe_rdc (s : State) (f : Cluster → Cluster) : (s.onMe f).rdc = s.rdc := rfl
@[simp] theorem State.onMe_sidecar (s : State) (f : Cluster → Cluster) : (s.onMe f).sidecar = s.sidecar := rfl
@[simp] theorem State.onMe_sideScope (s : State) (f : Cluster → Cluster) : (s.onMe f).sideScope = s.sideScope := rfl
@[simp] theorem State.onMe_cvec (s : State) (f : Cluster → Cluster) : (s.onMe f).cvec = s.cvec := rfl
@[simp] theorem State.onMe_ctxTab (s : State) (f : Cluster → Cluster) : (s.onMe f).ctxTab = s.ctxTab := rfl
@[simp] theorem State.onMe_inWin (s : State) (f : Cluster → Cluster) : (s.onMe f).inWin = s.inWin := rfl
@[simp] theorem State.onMe_snap (s : State) (f : Cluster → Cluster) : (s.onMe f).snap = s.snap := rfl
@[simp] theorem State.onMe_stlb (s : State) (f : Cluster → Cluster) : (s.onMe f).stlb = s.stlb := rfl
@[simp] theorem State.onMe_tlbInv (s : State) (f : Cluster → Cluster) : (s.onMe f).tlbInv = s.tlbInv := rfl
@[simp] theorem State.onMe_ageq (s : State) (f : Cluster → Cluster) : (s.onMe f).ageq = s.ageq := rfl
@[simp] theorem State.onMe_tasks (s : State) (f : Cluster → Cluster) : (s.onMe f).tasks = s.tasks := rfl
@[simp] theorem State.onMe_nextTask (s : State) (f : Cluster → Cluster) : (s.onMe f).nextTask = s.nextTask := rfl
@[simp] theorem State.onMe_reserve (s : State) (f : Cluster → Cluster) : (s.onMe f).reserve = s.reserve := rfl
@[simp] theorem State.onMe_reservePre (s : State) (f : Cluster → Cluster) : (s.onMe f).reservePre = s.reservePre := rfl
@[simp] theorem State.onMe_maintWait (s : State) (f : Cluster → Cluster) : (s.onMe f).maintWait = s.maintWait := rfl
@[simp] theorem State.onMe_killing (s : State) (f : Cluster → Cluster) : (s.onMe f).killing = s.killing := rfl
@[simp] theorem State.onMe_killCt (s : State) (f : Cluster → Cluster) : (s.onMe f).killCt = s.killCt := rfl
@[simp] theorem State.onMe_wins (s : State) (f : Cluster → Cluster) : (s.onMe f).wins = s.wins := rfl
@[simp] theorem State.onMe_fabBind (s : State) (f : Cluster → Cluster) : (s.onMe f).fabBind = s.fabBind := rfl
@[simp] theorem State.onMe_bz (s : State) (f : Cluster → Cluster) : (s.onMe f).bz = s.bz := rfl
@[simp] theorem State.onMe_bzTurn (s : State) (f : Cluster → Cluster) : (s.onMe f).bzTurn = s.bzTurn := rfl
@[simp] theorem State.onMe_barIn (s : State) (f : Cluster → Cluster) : (s.onMe f).barIn = s.barIn := rfl
@[simp] theorem State.onMe_deliveries (s : State) (f : Cluster → Cluster) : (s.onMe f).deliveries = s.deliveries := rfl
@[simp] theorem State.onMe_nextDelivery (s : State) (f : Cluster → Cluster) : (s.onMe f).nextDelivery = s.nextDelivery := rfl
@[simp] theorem State.onMe_pcap (s : State) (f : Cluster → Cluster) : (s.onMe f).pcap = s.pcap := rfl
@[simp] theorem State.onMe_grants (s : State) (f : Cluster → Cluster) : (s.onMe f).grants = s.grants := rfl
@[simp] theorem State.onMe_droopUsed (s : State) (f : Cluster → Cluster) : (s.onMe f).droopUsed = s.droopUsed := rfl
@[simp] theorem State.onMe_twarn (s : State) (f : Cluster → Cluster) : (s.onMe f).twarn = s.twarn := rfl
@[simp] theorem State.onMe_tcrit (s : State) (f : Cluster → Cluster) : (s.onMe f).tcrit = s.tcrit := rfl
@[simp] theorem State.onMe_sensors (s : State) (f : Cluster → Cluster) : (s.onMe f).sensors = s.sensors := rfl
@[simp] theorem State.onMe_volts (s : State) (f : Cluster → Cluster) : (s.onMe f).volts = s.volts := rfl
@[simp] theorem State.onMe_procs (s : State) (f : Cluster → Cluster) : (s.onMe f).procs = s.procs := rfl
@[simp] theorem State.onMe_sourceFail (s : State) (f : Cluster → Cluster) : (s.onMe f).sourceFail = s.sourceFail := rfl
@[simp] theorem State.onMe_errLog (s : State) (f : Cluster → Cluster) : (s.onMe f).errLog = s.errLog := rfl
@[simp] theorem State.onMe_logOld (s : State) (f : Cluster → Cluster) : (s.onMe f).logOld = s.logOld := rfl
@[simp] theorem State.onMe_colthr (s : State) (f : Cluster → Cluster) : (s.onMe f).colthr = s.colthr := rfl
@[simp] theorem State.onMe_colwin (s : State) (f : Cluster → Cluster) : (s.onMe f).colwin = s.colwin := rfl
@[simp] theorem State.onMe_spare (s : State) (f : Cluster → Cluster) : (s.onMe f).spare = s.spare := rfl
@[simp] theorem State.onMe_svcOut (s : State) (f : Cluster → Cluster) : (s.onMe f).svcOut = s.svcOut := rfl
@[simp] theorem State.onMe_svcHot (s : State) (f : Cluster → Cluster) : (s.onMe f).svcHot = s.svcHot := rfl
@[simp] theorem State.onMe_dieOut (s : State) (f : Cluster → Cluster) : (s.onMe f).dieOut = s.dieOut := rfl
@[simp] theorem State.onMe_linkBad (s : State) (f : Cluster → Cluster) : (s.onMe f).linkBad = s.linkBad := rfl
@[simp] theorem State.onMe_portUp (s : State) (f : Cluster → Cluster) : (s.onMe f).portUp = s.portUp := rfl
@[simp] theorem State.onMe_stackBad (s : State) (f : Cluster → Cluster) : (s.onMe f).stackBad = s.stackBad := rfl
@[simp] theorem State.onMe_errCount (s : State) (f : Cluster → Cluster) : (s.onMe f).errCount = s.errCount := rfl
@[simp] theorem State.onMe_unitErrs (s : State) (f : Cluster → Cluster) : (s.onMe f).unitErrs = s.unitErrs := rfl
@[simp] theorem State.onMe_hand (s : State) (f : Cluster → Cluster) : (s.onMe f).hand = s.hand := rfl
@[simp] theorem State.onMe_report (s : State) (f : Cluster → Cluster) : (s.onMe f).report = s.report := rfl
@[simp] theorem State.onMe_meas (s : State) (f : Cluster → Cluster) : (s.onMe f).meas = s.meas := rfl
@[simp] theorem State.onMe_ideKeys (s : State) (f : Cluster → Cluster) : (s.onMe f).ideKeys = s.ideKeys := rfl
@[simp] theorem State.onMe_sessions (s : State) (f : Cluster → Cluster) : (s.onMe f).sessions = s.sessions := rfl
@[simp] theorem State.onMe_nextSession (s : State) (f : Cluster → Cluster) : (s.onMe f).nextSession = s.nextSession := rfl
@[simp] theorem State.onMe_ready (s : State) (f : Cluster → Cluster) : (s.onMe f).ready = s.ready := rfl
@[simp] theorem State.onMe_failed (s : State) (f : Cluster → Cluster) : (s.onMe f).failed = s.failed := rfl
@[simp] theorem State.onMe_inputs (s : State) (f : Cluster → Cluster) : (s.onMe f).inputs = s.inputs := rfl
@[simp] theorem State.onMe_outbox (s : State) (f : Cluster → Cluster) : (s.onMe f).outbox = s.outbox := rfl
@[simp] theorem State.onMe_agenda (s : State) (f : Cluster → Cluster) : (s.onMe f).agenda = s.agenda := rfl
@[simp] theorem State.onMe_cur (s : State) (f : Cluster → Cluster) : (s.onMe f).cur = s.cur := rfl
@[simp] theorem State.onMe_fresh (s : State) (f : Cluster → Cluster) : (s.onMe f).fresh = s.fresh := rfl

/-! ### The active cores are changed -/

@[simp] theorem State.onActive_ct (s : State) (f : Nat → Core → Core) : (s.onActive f).ct = s.ct := rfl
@[simp] theorem State.onActive_mem (s : State) (f : Nat → Core → Core) : (s.onActive f).mem = s.mem := rfl
@[simp] theorem State.onActive_wtag (s : State) (f : Nat → Core → Core) : (s.onActive f).wtag = s.wtag := rfl
@[simp] theorem State.onActive_poison (s : State) (f : Nat → Core → Core) : (s.onActive f).poison = s.poison := rfl
@[simp] theorem State.onActive_outer (s : State) (f : Nat → Core → Core) : (s.onActive f).outer = s.outer := rfl
@[simp] theorem State.onActive_hostPut (s : State) (f : Nat → Core → Core) : (s.onActive f).hostPut = s.hostPut := rfl
@[simp] theorem State.onActive_rdc (s : State) (f : Nat → Core → Core) : (s.onActive f).rdc = s.rdc := rfl
@[simp] theorem State.onActive_sidecar (s : State) (f : Nat → Core → Core) : (s.onActive f).sidecar = s.sidecar := rfl
@[simp] theorem State.onActive_sideScope (s : State) (f : Nat → Core → Core) : (s.onActive f).sideScope = s.sideScope := rfl
@[simp] theorem State.onActive_cvec (s : State) (f : Nat → Core → Core) : (s.onActive f).cvec = s.cvec := rfl
@[simp] theorem State.onActive_ctxTab (s : State) (f : Nat → Core → Core) : (s.onActive f).ctxTab = s.ctxTab := rfl
@[simp] theorem State.onActive_inWin (s : State) (f : Nat → Core → Core) : (s.onActive f).inWin = s.inWin := rfl
@[simp] theorem State.onActive_snap (s : State) (f : Nat → Core → Core) : (s.onActive f).snap = s.snap := rfl
@[simp] theorem State.onActive_stlb (s : State) (f : Nat → Core → Core) : (s.onActive f).stlb = s.stlb := rfl
@[simp] theorem State.onActive_tlbInv (s : State) (f : Nat → Core → Core) : (s.onActive f).tlbInv = s.tlbInv := rfl
@[simp] theorem State.onActive_ageq (s : State) (f : Nat → Core → Core) : (s.onActive f).ageq = s.ageq := rfl
@[simp] theorem State.onActive_tasks (s : State) (f : Nat → Core → Core) : (s.onActive f).tasks = s.tasks := rfl
@[simp] theorem State.onActive_nextTask (s : State) (f : Nat → Core → Core) : (s.onActive f).nextTask = s.nextTask := rfl
@[simp] theorem State.onActive_reserve (s : State) (f : Nat → Core → Core) : (s.onActive f).reserve = s.reserve := rfl
@[simp] theorem State.onActive_reservePre (s : State) (f : Nat → Core → Core) : (s.onActive f).reservePre = s.reservePre := rfl
@[simp] theorem State.onActive_maintWait (s : State) (f : Nat → Core → Core) : (s.onActive f).maintWait = s.maintWait := rfl
@[simp] theorem State.onActive_killing (s : State) (f : Nat → Core → Core) : (s.onActive f).killing = s.killing := rfl
@[simp] theorem State.onActive_killCt (s : State) (f : Nat → Core → Core) : (s.onActive f).killCt = s.killCt := rfl
@[simp] theorem State.onActive_wins (s : State) (f : Nat → Core → Core) : (s.onActive f).wins = s.wins := rfl
@[simp] theorem State.onActive_fabBind (s : State) (f : Nat → Core → Core) : (s.onActive f).fabBind = s.fabBind := rfl
@[simp] theorem State.onActive_bz (s : State) (f : Nat → Core → Core) : (s.onActive f).bz = s.bz := rfl
@[simp] theorem State.onActive_bzTurn (s : State) (f : Nat → Core → Core) : (s.onActive f).bzTurn = s.bzTurn := rfl
@[simp] theorem State.onActive_barIn (s : State) (f : Nat → Core → Core) : (s.onActive f).barIn = s.barIn := rfl
@[simp] theorem State.onActive_deliveries (s : State) (f : Nat → Core → Core) : (s.onActive f).deliveries = s.deliveries := rfl
@[simp] theorem State.onActive_nextDelivery (s : State) (f : Nat → Core → Core) : (s.onActive f).nextDelivery = s.nextDelivery := rfl
@[simp] theorem State.onActive_pcap (s : State) (f : Nat → Core → Core) : (s.onActive f).pcap = s.pcap := rfl
@[simp] theorem State.onActive_grants (s : State) (f : Nat → Core → Core) : (s.onActive f).grants = s.grants := rfl
@[simp] theorem State.onActive_droopUsed (s : State) (f : Nat → Core → Core) : (s.onActive f).droopUsed = s.droopUsed := rfl
@[simp] theorem State.onActive_twarn (s : State) (f : Nat → Core → Core) : (s.onActive f).twarn = s.twarn := rfl
@[simp] theorem State.onActive_tcrit (s : State) (f : Nat → Core → Core) : (s.onActive f).tcrit = s.tcrit := rfl
@[simp] theorem State.onActive_sensors (s : State) (f : Nat → Core → Core) : (s.onActive f).sensors = s.sensors := rfl
@[simp] theorem State.onActive_volts (s : State) (f : Nat → Core → Core) : (s.onActive f).volts = s.volts := rfl
@[simp] theorem State.onActive_procs (s : State) (f : Nat → Core → Core) : (s.onActive f).procs = s.procs := rfl
@[simp] theorem State.onActive_sourceFail (s : State) (f : Nat → Core → Core) : (s.onActive f).sourceFail = s.sourceFail := rfl
@[simp] theorem State.onActive_errLog (s : State) (f : Nat → Core → Core) : (s.onActive f).errLog = s.errLog := rfl
@[simp] theorem State.onActive_logOld (s : State) (f : Nat → Core → Core) : (s.onActive f).logOld = s.logOld := rfl
@[simp] theorem State.onActive_colthr (s : State) (f : Nat → Core → Core) : (s.onActive f).colthr = s.colthr := rfl
@[simp] theorem State.onActive_colwin (s : State) (f : Nat → Core → Core) : (s.onActive f).colwin = s.colwin := rfl
@[simp] theorem State.onActive_spare (s : State) (f : Nat → Core → Core) : (s.onActive f).spare = s.spare := rfl
@[simp] theorem State.onActive_svcOut (s : State) (f : Nat → Core → Core) : (s.onActive f).svcOut = s.svcOut := rfl
@[simp] theorem State.onActive_svcHot (s : State) (f : Nat → Core → Core) : (s.onActive f).svcHot = s.svcHot := rfl
@[simp] theorem State.onActive_dieOut (s : State) (f : Nat → Core → Core) : (s.onActive f).dieOut = s.dieOut := rfl
@[simp] theorem State.onActive_linkBad (s : State) (f : Nat → Core → Core) : (s.onActive f).linkBad = s.linkBad := rfl
@[simp] theorem State.onActive_portUp (s : State) (f : Nat → Core → Core) : (s.onActive f).portUp = s.portUp := rfl
@[simp] theorem State.onActive_stackBad (s : State) (f : Nat → Core → Core) : (s.onActive f).stackBad = s.stackBad := rfl
@[simp] theorem State.onActive_errCount (s : State) (f : Nat → Core → Core) : (s.onActive f).errCount = s.errCount := rfl
@[simp] theorem State.onActive_unitErrs (s : State) (f : Nat → Core → Core) : (s.onActive f).unitErrs = s.unitErrs := rfl
@[simp] theorem State.onActive_hand (s : State) (f : Nat → Core → Core) : (s.onActive f).hand = s.hand := rfl
@[simp] theorem State.onActive_report (s : State) (f : Nat → Core → Core) : (s.onActive f).report = s.report := rfl
@[simp] theorem State.onActive_meas (s : State) (f : Nat → Core → Core) : (s.onActive f).meas = s.meas := rfl
@[simp] theorem State.onActive_ideKeys (s : State) (f : Nat → Core → Core) : (s.onActive f).ideKeys = s.ideKeys := rfl
@[simp] theorem State.onActive_sessions (s : State) (f : Nat → Core → Core) : (s.onActive f).sessions = s.sessions := rfl
@[simp] theorem State.onActive_nextSession (s : State) (f : Nat → Core → Core) : (s.onActive f).nextSession = s.nextSession := rfl
@[simp] theorem State.onActive_ready (s : State) (f : Nat → Core → Core) : (s.onActive f).ready = s.ready := rfl
@[simp] theorem State.onActive_failed (s : State) (f : Nat → Core → Core) : (s.onActive f).failed = s.failed := rfl
@[simp] theorem State.onActive_inputs (s : State) (f : Nat → Core → Core) : (s.onActive f).inputs = s.inputs := rfl
@[simp] theorem State.onActive_outbox (s : State) (f : Nat → Core → Core) : (s.onActive f).outbox = s.outbox := rfl
@[simp] theorem State.onActive_agenda (s : State) (f : Nat → Core → Core) : (s.onActive f).agenda = s.agenda := rfl
@[simp] theorem State.onActive_cur (s : State) (f : Nat → Core → Core) : (s.onActive f).cur = s.cur := rfl
@[simp] theorem State.onActive_fresh (s : State) (f : Nat → Core → Core) : (s.onActive f).fresh = s.fresh := rfl

/-! ### A result is under way -/

@[simp] theorem State.under_ct (s : State) (d : SDest) (v : BitVec 256) (lat : Nat) : (s.under d v lat).ct = s.ct := rfl
@[simp] theorem State.under_mem (s : State) (d : SDest) (v : BitVec 256) (lat : Nat) : (s.under d v lat).mem = s.mem := rfl
@[simp] theorem State.under_wtag (s : State) (d : SDest) (v : BitVec 256) (lat : Nat) : (s.under d v lat).wtag = s.wtag := rfl
@[simp] theorem State.under_poison (s : State) (d : SDest) (v : BitVec 256) (lat : Nat) : (s.under d v lat).poison = s.poison := rfl
@[simp] theorem State.under_outer (s : State) (d : SDest) (v : BitVec 256) (lat : Nat) : (s.under d v lat).outer = s.outer := rfl
@[simp] theorem State.under_hostPut (s : State) (d : SDest) (v : BitVec 256) (lat : Nat) : (s.under d v lat).hostPut = s.hostPut := rfl
@[simp] theorem State.under_rdc (s : State) (d : SDest) (v : BitVec 256) (lat : Nat) : (s.under d v lat).rdc = s.rdc := rfl
@[simp] theorem State.under_sidecar (s : State) (d : SDest) (v : BitVec 256) (lat : Nat) : (s.under d v lat).sidecar = s.sidecar := rfl
@[simp] theorem State.under_sideScope (s : State) (d : SDest) (v : BitVec 256) (lat : Nat) : (s.under d v lat).sideScope = s.sideScope := rfl
@[simp] theorem State.under_cvec (s : State) (d : SDest) (v : BitVec 256) (lat : Nat) : (s.under d v lat).cvec = s.cvec := rfl
@[simp] theorem State.under_ctxTab (s : State) (d : SDest) (v : BitVec 256) (lat : Nat) : (s.under d v lat).ctxTab = s.ctxTab := rfl
@[simp] theorem State.under_inWin (s : State) (d : SDest) (v : BitVec 256) (lat : Nat) : (s.under d v lat).inWin = s.inWin := rfl
@[simp] theorem State.under_snap (s : State) (d : SDest) (v : BitVec 256) (lat : Nat) : (s.under d v lat).snap = s.snap := rfl
@[simp] theorem State.under_stlb (s : State) (d : SDest) (v : BitVec 256) (lat : Nat) : (s.under d v lat).stlb = s.stlb := rfl
@[simp] theorem State.under_tlbInv (s : State) (d : SDest) (v : BitVec 256) (lat : Nat) : (s.under d v lat).tlbInv = s.tlbInv := rfl
@[simp] theorem State.under_ageq (s : State) (d : SDest) (v : BitVec 256) (lat : Nat) : (s.under d v lat).ageq = s.ageq := rfl
@[simp] theorem State.under_tasks (s : State) (d : SDest) (v : BitVec 256) (lat : Nat) : (s.under d v lat).tasks = s.tasks := rfl
@[simp] theorem State.under_nextTask (s : State) (d : SDest) (v : BitVec 256) (lat : Nat) : (s.under d v lat).nextTask = s.nextTask := rfl
@[simp] theorem State.under_reserve (s : State) (d : SDest) (v : BitVec 256) (lat : Nat) : (s.under d v lat).reserve = s.reserve := rfl
@[simp] theorem State.under_reservePre (s : State) (d : SDest) (v : BitVec 256) (lat : Nat) : (s.under d v lat).reservePre = s.reservePre := rfl
@[simp] theorem State.under_maintWait (s : State) (d : SDest) (v : BitVec 256) (lat : Nat) : (s.under d v lat).maintWait = s.maintWait := rfl
@[simp] theorem State.under_killing (s : State) (d : SDest) (v : BitVec 256) (lat : Nat) : (s.under d v lat).killing = s.killing := rfl
@[simp] theorem State.under_killCt (s : State) (d : SDest) (v : BitVec 256) (lat : Nat) : (s.under d v lat).killCt = s.killCt := rfl
@[simp] theorem State.under_wins (s : State) (d : SDest) (v : BitVec 256) (lat : Nat) : (s.under d v lat).wins = s.wins := rfl
@[simp] theorem State.under_fabBind (s : State) (d : SDest) (v : BitVec 256) (lat : Nat) : (s.under d v lat).fabBind = s.fabBind := rfl
@[simp] theorem State.under_bz (s : State) (d : SDest) (v : BitVec 256) (lat : Nat) : (s.under d v lat).bz = s.bz := rfl
@[simp] theorem State.under_bzTurn (s : State) (d : SDest) (v : BitVec 256) (lat : Nat) : (s.under d v lat).bzTurn = s.bzTurn := rfl
@[simp] theorem State.under_barIn (s : State) (d : SDest) (v : BitVec 256) (lat : Nat) : (s.under d v lat).barIn = s.barIn := rfl
@[simp] theorem State.under_deliveries (s : State) (d : SDest) (v : BitVec 256) (lat : Nat) : (s.under d v lat).deliveries = s.deliveries := rfl
@[simp] theorem State.under_nextDelivery (s : State) (d : SDest) (v : BitVec 256) (lat : Nat) : (s.under d v lat).nextDelivery = s.nextDelivery := rfl
@[simp] theorem State.under_pcap (s : State) (d : SDest) (v : BitVec 256) (lat : Nat) : (s.under d v lat).pcap = s.pcap := rfl
@[simp] theorem State.under_grants (s : State) (d : SDest) (v : BitVec 256) (lat : Nat) : (s.under d v lat).grants = s.grants := rfl
@[simp] theorem State.under_droopUsed (s : State) (d : SDest) (v : BitVec 256) (lat : Nat) : (s.under d v lat).droopUsed = s.droopUsed := rfl
@[simp] theorem State.under_twarn (s : State) (d : SDest) (v : BitVec 256) (lat : Nat) : (s.under d v lat).twarn = s.twarn := rfl
@[simp] theorem State.under_tcrit (s : State) (d : SDest) (v : BitVec 256) (lat : Nat) : (s.under d v lat).tcrit = s.tcrit := rfl
@[simp] theorem State.under_sensors (s : State) (d : SDest) (v : BitVec 256) (lat : Nat) : (s.under d v lat).sensors = s.sensors := rfl
@[simp] theorem State.under_volts (s : State) (d : SDest) (v : BitVec 256) (lat : Nat) : (s.under d v lat).volts = s.volts := rfl
@[simp] theorem State.under_procs (s : State) (d : SDest) (v : BitVec 256) (lat : Nat) : (s.under d v lat).procs = s.procs := rfl
@[simp] theorem State.under_sourceFail (s : State) (d : SDest) (v : BitVec 256) (lat : Nat) : (s.under d v lat).sourceFail = s.sourceFail := rfl
@[simp] theorem State.under_errLog (s : State) (d : SDest) (v : BitVec 256) (lat : Nat) : (s.under d v lat).errLog = s.errLog := rfl
@[simp] theorem State.under_logOld (s : State) (d : SDest) (v : BitVec 256) (lat : Nat) : (s.under d v lat).logOld = s.logOld := rfl
@[simp] theorem State.under_colthr (s : State) (d : SDest) (v : BitVec 256) (lat : Nat) : (s.under d v lat).colthr = s.colthr := rfl
@[simp] theorem State.under_colwin (s : State) (d : SDest) (v : BitVec 256) (lat : Nat) : (s.under d v lat).colwin = s.colwin := rfl
@[simp] theorem State.under_spare (s : State) (d : SDest) (v : BitVec 256) (lat : Nat) : (s.under d v lat).spare = s.spare := rfl
@[simp] theorem State.under_svcOut (s : State) (d : SDest) (v : BitVec 256) (lat : Nat) : (s.under d v lat).svcOut = s.svcOut := rfl
@[simp] theorem State.under_svcHot (s : State) (d : SDest) (v : BitVec 256) (lat : Nat) : (s.under d v lat).svcHot = s.svcHot := rfl
@[simp] theorem State.under_dieOut (s : State) (d : SDest) (v : BitVec 256) (lat : Nat) : (s.under d v lat).dieOut = s.dieOut := rfl
@[simp] theorem State.under_linkBad (s : State) (d : SDest) (v : BitVec 256) (lat : Nat) : (s.under d v lat).linkBad = s.linkBad := rfl
@[simp] theorem State.under_portUp (s : State) (d : SDest) (v : BitVec 256) (lat : Nat) : (s.under d v lat).portUp = s.portUp := rfl
@[simp] theorem State.under_stackBad (s : State) (d : SDest) (v : BitVec 256) (lat : Nat) : (s.under d v lat).stackBad = s.stackBad := rfl
@[simp] theorem State.under_errCount (s : State) (d : SDest) (v : BitVec 256) (lat : Nat) : (s.under d v lat).errCount = s.errCount := rfl
@[simp] theorem State.under_unitErrs (s : State) (d : SDest) (v : BitVec 256) (lat : Nat) : (s.under d v lat).unitErrs = s.unitErrs := rfl
@[simp] theorem State.under_hand (s : State) (d : SDest) (v : BitVec 256) (lat : Nat) : (s.under d v lat).hand = s.hand := rfl
@[simp] theorem State.under_report (s : State) (d : SDest) (v : BitVec 256) (lat : Nat) : (s.under d v lat).report = s.report := rfl
@[simp] theorem State.under_meas (s : State) (d : SDest) (v : BitVec 256) (lat : Nat) : (s.under d v lat).meas = s.meas := rfl
@[simp] theorem State.under_ideKeys (s : State) (d : SDest) (v : BitVec 256) (lat : Nat) : (s.under d v lat).ideKeys = s.ideKeys := rfl
@[simp] theorem State.under_sessions (s : State) (d : SDest) (v : BitVec 256) (lat : Nat) : (s.under d v lat).sessions = s.sessions := rfl
@[simp] theorem State.under_nextSession (s : State) (d : SDest) (v : BitVec 256) (lat : Nat) : (s.under d v lat).nextSession = s.nextSession := rfl
@[simp] theorem State.under_ready (s : State) (d : SDest) (v : BitVec 256) (lat : Nat) : (s.under d v lat).ready = s.ready := rfl
@[simp] theorem State.under_failed (s : State) (d : SDest) (v : BitVec 256) (lat : Nat) : (s.under d v lat).failed = s.failed := rfl
@[simp] theorem State.under_inputs (s : State) (d : SDest) (v : BitVec 256) (lat : Nat) : (s.under d v lat).inputs = s.inputs := rfl
@[simp] theorem State.under_outbox (s : State) (d : SDest) (v : BitVec 256) (lat : Nat) : (s.under d v lat).outbox = s.outbox := rfl
@[simp] theorem State.under_agenda (s : State) (d : SDest) (v : BitVec 256) (lat : Nat) : (s.under d v lat).agenda = s.agenda := rfl
@[simp] theorem State.under_cur (s : State) (d : SDest) (v : BitVec 256) (lat : Nat) : (s.under d v lat).cur = s.cur := rfl
@[simp] theorem State.under_fresh (s : State) (d : SDest) (v : BitVec 256) (lat : Nat) : (s.under d v lat).fresh = s.fresh := rfl

/-! ### A free value is drawn -/

@[simp] theorem State.free_ct (s : State) : (s.free.2).ct = s.ct := rfl
@[simp] theorem State.free_clusters (s : State) : (s.free.2).clusters = s.clusters := rfl
@[simp] theorem State.free_mem (s : State) : (s.free.2).mem = s.mem := rfl
@[simp] theorem State.free_wtag (s : State) : (s.free.2).wtag = s.wtag := rfl
@[simp] theorem State.free_poison (s : State) : (s.free.2).poison = s.poison := rfl
@[simp] theorem State.free_outer (s : State) : (s.free.2).outer = s.outer := rfl
@[simp] theorem State.free_hostPut (s : State) : (s.free.2).hostPut = s.hostPut := rfl
@[simp] theorem State.free_rdc (s : State) : (s.free.2).rdc = s.rdc := rfl
@[simp] theorem State.free_sidecar (s : State) : (s.free.2).sidecar = s.sidecar := rfl
@[simp] theorem State.free_sideScope (s : State) : (s.free.2).sideScope = s.sideScope := rfl
@[simp] theorem State.free_cvec (s : State) : (s.free.2).cvec = s.cvec := rfl
@[simp] theorem State.free_ctxTab (s : State) : (s.free.2).ctxTab = s.ctxTab := rfl
@[simp] theorem State.free_inWin (s : State) : (s.free.2).inWin = s.inWin := rfl
@[simp] theorem State.free_snap (s : State) : (s.free.2).snap = s.snap := rfl
@[simp] theorem State.free_stlb (s : State) : (s.free.2).stlb = s.stlb := rfl
@[simp] theorem State.free_tlbInv (s : State) : (s.free.2).tlbInv = s.tlbInv := rfl
@[simp] theorem State.free_ageq (s : State) : (s.free.2).ageq = s.ageq := rfl
@[simp] theorem State.free_tasks (s : State) : (s.free.2).tasks = s.tasks := rfl
@[simp] theorem State.free_nextTask (s : State) : (s.free.2).nextTask = s.nextTask := rfl
@[simp] theorem State.free_reserve (s : State) : (s.free.2).reserve = s.reserve := rfl
@[simp] theorem State.free_reservePre (s : State) : (s.free.2).reservePre = s.reservePre := rfl
@[simp] theorem State.free_maintWait (s : State) : (s.free.2).maintWait = s.maintWait := rfl
@[simp] theorem State.free_killing (s : State) : (s.free.2).killing = s.killing := rfl
@[simp] theorem State.free_killCt (s : State) : (s.free.2).killCt = s.killCt := rfl
@[simp] theorem State.free_wins (s : State) : (s.free.2).wins = s.wins := rfl
@[simp] theorem State.free_fabBind (s : State) : (s.free.2).fabBind = s.fabBind := rfl
@[simp] theorem State.free_bz (s : State) : (s.free.2).bz = s.bz := rfl
@[simp] theorem State.free_bzTurn (s : State) : (s.free.2).bzTurn = s.bzTurn := rfl
@[simp] theorem State.free_barIn (s : State) : (s.free.2).barIn = s.barIn := rfl
@[simp] theorem State.free_deliveries (s : State) : (s.free.2).deliveries = s.deliveries := rfl
@[simp] theorem State.free_nextDelivery (s : State) : (s.free.2).nextDelivery = s.nextDelivery := rfl
@[simp] theorem State.free_pcap (s : State) : (s.free.2).pcap = s.pcap := rfl
@[simp] theorem State.free_grants (s : State) : (s.free.2).grants = s.grants := rfl
@[simp] theorem State.free_droopUsed (s : State) : (s.free.2).droopUsed = s.droopUsed := rfl
@[simp] theorem State.free_twarn (s : State) : (s.free.2).twarn = s.twarn := rfl
@[simp] theorem State.free_tcrit (s : State) : (s.free.2).tcrit = s.tcrit := rfl
@[simp] theorem State.free_sensors (s : State) : (s.free.2).sensors = s.sensors := rfl
@[simp] theorem State.free_volts (s : State) : (s.free.2).volts = s.volts := rfl
@[simp] theorem State.free_procs (s : State) : (s.free.2).procs = s.procs := rfl
@[simp] theorem State.free_sourceFail (s : State) : (s.free.2).sourceFail = s.sourceFail := rfl
@[simp] theorem State.free_errLog (s : State) : (s.free.2).errLog = s.errLog := rfl
@[simp] theorem State.free_logOld (s : State) : (s.free.2).logOld = s.logOld := rfl
@[simp] theorem State.free_colthr (s : State) : (s.free.2).colthr = s.colthr := rfl
@[simp] theorem State.free_colwin (s : State) : (s.free.2).colwin = s.colwin := rfl
@[simp] theorem State.free_spare (s : State) : (s.free.2).spare = s.spare := rfl
@[simp] theorem State.free_svcOut (s : State) : (s.free.2).svcOut = s.svcOut := rfl
@[simp] theorem State.free_svcHot (s : State) : (s.free.2).svcHot = s.svcHot := rfl
@[simp] theorem State.free_dieOut (s : State) : (s.free.2).dieOut = s.dieOut := rfl
@[simp] theorem State.free_linkBad (s : State) : (s.free.2).linkBad = s.linkBad := rfl
@[simp] theorem State.free_portUp (s : State) : (s.free.2).portUp = s.portUp := rfl
@[simp] theorem State.free_stackBad (s : State) : (s.free.2).stackBad = s.stackBad := rfl
@[simp] theorem State.free_errCount (s : State) : (s.free.2).errCount = s.errCount := rfl
@[simp] theorem State.free_unitErrs (s : State) : (s.free.2).unitErrs = s.unitErrs := rfl
@[simp] theorem State.free_hand (s : State) : (s.free.2).hand = s.hand := rfl
@[simp] theorem State.free_report (s : State) : (s.free.2).report = s.report := rfl
@[simp] theorem State.free_meas (s : State) : (s.free.2).meas = s.meas := rfl
@[simp] theorem State.free_ideKeys (s : State) : (s.free.2).ideKeys = s.ideKeys := rfl
@[simp] theorem State.free_sessions (s : State) : (s.free.2).sessions = s.sessions := rfl
@[simp] theorem State.free_nextSession (s : State) : (s.free.2).nextSession = s.nextSession := rfl
@[simp] theorem State.free_ready (s : State) : (s.free.2).ready = s.ready := rfl
@[simp] theorem State.free_failed (s : State) : (s.free.2).failed = s.failed := rfl
@[simp] theorem State.free_inputs (s : State) : (s.free.2).inputs = s.inputs := rfl
@[simp] theorem State.free_outbox (s : State) : (s.free.2).outbox = s.outbox := rfl
@[simp] theorem State.free_agenda (s : State) : (s.free.2).agenda = s.agenda := rfl
@[simp] theorem State.free_cur (s : State) : (s.free.2).cur = s.cur := rfl

/-! ### The slot of a bundle is set -/

@[simp] theorem State.at'_ct (s : State) (p : Slot) : (s.at' p).ct = s.ct := rfl
@[simp] theorem State.at'_clusters (s : State) (p : Slot) : (s.at' p).clusters = s.clusters := rfl
@[simp] theorem State.at'_mem (s : State) (p : Slot) : (s.at' p).mem = s.mem := rfl
@[simp] theorem State.at'_wtag (s : State) (p : Slot) : (s.at' p).wtag = s.wtag := rfl
@[simp] theorem State.at'_poison (s : State) (p : Slot) : (s.at' p).poison = s.poison := rfl
@[simp] theorem State.at'_outer (s : State) (p : Slot) : (s.at' p).outer = s.outer := rfl
@[simp] theorem State.at'_hostPut (s : State) (p : Slot) : (s.at' p).hostPut = s.hostPut := rfl
@[simp] theorem State.at'_rdc (s : State) (p : Slot) : (s.at' p).rdc = s.rdc := rfl
@[simp] theorem State.at'_sidecar (s : State) (p : Slot) : (s.at' p).sidecar = s.sidecar := rfl
@[simp] theorem State.at'_sideScope (s : State) (p : Slot) : (s.at' p).sideScope = s.sideScope := rfl
@[simp] theorem State.at'_cvec (s : State) (p : Slot) : (s.at' p).cvec = s.cvec := rfl
@[simp] theorem State.at'_ctxTab (s : State) (p : Slot) : (s.at' p).ctxTab = s.ctxTab := rfl
@[simp] theorem State.at'_inWin (s : State) (p : Slot) : (s.at' p).inWin = s.inWin := rfl
@[simp] theorem State.at'_snap (s : State) (p : Slot) : (s.at' p).snap = s.snap := rfl
@[simp] theorem State.at'_stlb (s : State) (p : Slot) : (s.at' p).stlb = s.stlb := rfl
@[simp] theorem State.at'_tlbInv (s : State) (p : Slot) : (s.at' p).tlbInv = s.tlbInv := rfl
@[simp] theorem State.at'_ageq (s : State) (p : Slot) : (s.at' p).ageq = s.ageq := rfl
@[simp] theorem State.at'_tasks (s : State) (p : Slot) : (s.at' p).tasks = s.tasks := rfl
@[simp] theorem State.at'_nextTask (s : State) (p : Slot) : (s.at' p).nextTask = s.nextTask := rfl
@[simp] theorem State.at'_reserve (s : State) (p : Slot) : (s.at' p).reserve = s.reserve := rfl
@[simp] theorem State.at'_reservePre (s : State) (p : Slot) : (s.at' p).reservePre = s.reservePre := rfl
@[simp] theorem State.at'_maintWait (s : State) (p : Slot) : (s.at' p).maintWait = s.maintWait := rfl
@[simp] theorem State.at'_killing (s : State) (p : Slot) : (s.at' p).killing = s.killing := rfl
@[simp] theorem State.at'_killCt (s : State) (p : Slot) : (s.at' p).killCt = s.killCt := rfl
@[simp] theorem State.at'_wins (s : State) (p : Slot) : (s.at' p).wins = s.wins := rfl
@[simp] theorem State.at'_fabBind (s : State) (p : Slot) : (s.at' p).fabBind = s.fabBind := rfl
@[simp] theorem State.at'_bz (s : State) (p : Slot) : (s.at' p).bz = s.bz := rfl
@[simp] theorem State.at'_bzTurn (s : State) (p : Slot) : (s.at' p).bzTurn = s.bzTurn := rfl
@[simp] theorem State.at'_barIn (s : State) (p : Slot) : (s.at' p).barIn = s.barIn := rfl
@[simp] theorem State.at'_deliveries (s : State) (p : Slot) : (s.at' p).deliveries = s.deliveries := rfl
@[simp] theorem State.at'_nextDelivery (s : State) (p : Slot) : (s.at' p).nextDelivery = s.nextDelivery := rfl
@[simp] theorem State.at'_pcap (s : State) (p : Slot) : (s.at' p).pcap = s.pcap := rfl
@[simp] theorem State.at'_grants (s : State) (p : Slot) : (s.at' p).grants = s.grants := rfl
@[simp] theorem State.at'_droopUsed (s : State) (p : Slot) : (s.at' p).droopUsed = s.droopUsed := rfl
@[simp] theorem State.at'_twarn (s : State) (p : Slot) : (s.at' p).twarn = s.twarn := rfl
@[simp] theorem State.at'_tcrit (s : State) (p : Slot) : (s.at' p).tcrit = s.tcrit := rfl
@[simp] theorem State.at'_sensors (s : State) (p : Slot) : (s.at' p).sensors = s.sensors := rfl
@[simp] theorem State.at'_volts (s : State) (p : Slot) : (s.at' p).volts = s.volts := rfl
@[simp] theorem State.at'_procs (s : State) (p : Slot) : (s.at' p).procs = s.procs := rfl
@[simp] theorem State.at'_sourceFail (s : State) (p : Slot) : (s.at' p).sourceFail = s.sourceFail := rfl
@[simp] theorem State.at'_errLog (s : State) (p : Slot) : (s.at' p).errLog = s.errLog := rfl
@[simp] theorem State.at'_logOld (s : State) (p : Slot) : (s.at' p).logOld = s.logOld := rfl
@[simp] theorem State.at'_colthr (s : State) (p : Slot) : (s.at' p).colthr = s.colthr := rfl
@[simp] theorem State.at'_colwin (s : State) (p : Slot) : (s.at' p).colwin = s.colwin := rfl
@[simp] theorem State.at'_spare (s : State) (p : Slot) : (s.at' p).spare = s.spare := rfl
@[simp] theorem State.at'_svcOut (s : State) (p : Slot) : (s.at' p).svcOut = s.svcOut := rfl
@[simp] theorem State.at'_svcHot (s : State) (p : Slot) : (s.at' p).svcHot = s.svcHot := rfl
@[simp] theorem State.at'_dieOut (s : State) (p : Slot) : (s.at' p).dieOut = s.dieOut := rfl
@[simp] theorem State.at'_linkBad (s : State) (p : Slot) : (s.at' p).linkBad = s.linkBad := rfl
@[simp] theorem State.at'_portUp (s : State) (p : Slot) : (s.at' p).portUp = s.portUp := rfl
@[simp] theorem State.at'_stackBad (s : State) (p : Slot) : (s.at' p).stackBad = s.stackBad := rfl
@[simp] theorem State.at'_errCount (s : State) (p : Slot) : (s.at' p).errCount = s.errCount := rfl
@[simp] theorem State.at'_unitErrs (s : State) (p : Slot) : (s.at' p).unitErrs = s.unitErrs := rfl
@[simp] theorem State.at'_hand (s : State) (p : Slot) : (s.at' p).hand = s.hand := rfl
@[simp] theorem State.at'_report (s : State) (p : Slot) : (s.at' p).report = s.report := rfl
@[simp] theorem State.at'_meas (s : State) (p : Slot) : (s.at' p).meas = s.meas := rfl
@[simp] theorem State.at'_ideKeys (s : State) (p : Slot) : (s.at' p).ideKeys = s.ideKeys := rfl
@[simp] theorem State.at'_sessions (s : State) (p : Slot) : (s.at' p).sessions = s.sessions := rfl
@[simp] theorem State.at'_nextSession (s : State) (p : Slot) : (s.at' p).nextSession = s.nextSession := rfl
@[simp] theorem State.at'_ready (s : State) (p : Slot) : (s.at' p).ready = s.ready := rfl
@[simp] theorem State.at'_failed (s : State) (p : Slot) : (s.at' p).failed = s.failed := rfl
@[simp] theorem State.at'_inputs (s : State) (p : Slot) : (s.at' p).inputs = s.inputs := rfl
@[simp] theorem State.at'_outbox (s : State) (p : Slot) : (s.at' p).outbox = s.outbox := rfl
@[simp] theorem State.at'_agenda (s : State) (p : Slot) : (s.at' p).agenda = s.agenda := rfl
@[simp] theorem State.at'_fresh (s : State) (p : Slot) : (s.at' p).fresh = s.fresh := rfl

/-! ### A result of the S slot is queued -/

@[simp] theorem Cluster.sLand_pc (k : Cluster) (d : SDest) (v : BitVec 256) (lat : Nat) : (k.sLand d v lat).pc = k.pc := rfl
@[simp] theorem Cluster.sLand_s (k : Cluster) (d : SDest) (v : BitVec 256) (lat : Nat) : (k.sLand d v lat).s = k.s := rfl
@[simp] theorem Cluster.sLand_b (k : Cluster) (d : SDest) (v : BitVec 256) (lat : Nat) : (k.sLand d v lat).b = k.b := rfl
@[simp] theorem Cluster.sLand_e (k : Cluster) (d : SDest) (v : BitVec 256) (lat : Nat) : (k.sLand d v lat).e = k.e := rfl
@[simp] theorem Cluster.sLand_lc (k : Cluster) (d : SDest) (v : BitVec 256) (lat : Nat) : (k.sLand d v lat).lc = k.lc := rfl
@[simp] theorem Cluster.sLand_loops (k : Cluster) (d : SDest) (v : BitVec 256) (lat : Nat) : (k.sLand d v lat).loops = k.loops := rfl
@[simp] theorem Cluster.sLand_rrbv (k : Cluster) (d : SDest) (v : BitVec 256) (lat : Nat) : (k.sLand d v lat).rrbv = k.rrbv := rfl
@[simp] theorem Cluster.sLand_rrbp (k : Cluster) (d : SDest) (v : BitVec 256) (lat : Nat) : (k.sLand d v lat).rrbp = k.rrbp := rfl
@[simp] theorem Cluster.sLand_gqctl (k : Cluster) (d : SDest) (v : BitVec 256) (lat : Nat) : (k.sLand d v lat).gqctl = k.gqctl := rfl
@[simp] theorem Cluster.sLand_slipmax (k : Cluster) (d : SDest) (v : BitVec 256) (lat : Nat) : (k.sLand d v lat).slipmax = k.slipmax := rfl
@[simp] theorem Cluster.sLand_holdmax (k : Cluster) (d : SDest) (v : BitVec 256) (lat : Nat) : (k.sLand d v lat).holdmax = k.holdmax := rfl
@[simp] theorem Cluster.sLand_cmsk (k : Cluster) (d : SDest) (v : BitVec 256) (lat : Nat) : (k.sLand d v lat).cmsk = k.cmsk := rfl
@[simp] theorem Cluster.sLand_dt (k : Cluster) (d : SDest) (v : BitVec 256) (lat : Nat) : (k.sLand d v lat).dt = k.dt := rfl
@[simp] theorem Cluster.sLand_trapcause (k : Cluster) (d : SDest) (v : BitVec 256) (lat : Nat) : (k.sLand d v lat).trapcause = k.trapcause := rfl
@[simp] theorem Cluster.sLand_trappc (k : Cluster) (d : SDest) (v : BitVec 256) (lat : Nat) : (k.sLand d v lat).trappc = k.trappc := rfl
@[simp] theorem Cluster.sLand_trapdt (k : Cluster) (d : SDest) (v : BitVec 256) (lat : Nat) : (k.sLand d v lat).trapdt = k.trapdt := rfl
@[simp] theorem Cluster.sLand_trapopc (k : Cluster) (d : SDest) (v : BitVec 256) (lat : Nat) : (k.sLand d v lat).trapopc = k.trapopc := rfl
@[simp] theorem Cluster.sLand_traphnd (k : Cluster) (d : SDest) (v : BitVec 256) (lat : Nat) : (k.sLand d v lat).traphnd = k.traphnd := rfl
@[simp] theorem Cluster.sLand_errinj (k : Cluster) (d : SDest) (v : BitVec 256) (lat : Nat) : (k.sLand d v lat).errinj = k.errinj := rfl
@[simp] theorem Cluster.sLand_lvlix (k : Cluster) (d : SDest) (v : BitVec 256) (lat : Nat) : (k.sLand d v lat).lvlix = k.lvlix := rfl
@[simp] theorem Cluster.sLand_delay (k : Cluster) (d : SDest) (v : BitVec 256) (lat : Nat) : (k.sLand d v lat).delay = k.delay := rfl
@[simp] theorem Cluster.sLand_linkPend (k : Cluster) (d : SDest) (v : BitVec 256) (lat : Nat) : (k.sLand d v lat).linkPend = k.linkPend := rfl
@[simp] theorem Cluster.sLand_nopLeft (k : Cluster) (d : SDest) (v : BitVec 256) (lat : Nat) : (k.sLand d v lat).nopLeft = k.nopLeft := rfl
@[simp] theorem Cluster.sLand_next (k : Cluster) (d : SDest) (v : BitVec 256) (lat : Nat) : (k.sLand d v lat).next = k.next := rfl
@[simp] theorem Cluster.sLand_hc (k : Cluster) (d : SDest) (v : BitVec 256) (lat : Nat) : (k.sLand d v lat).hc = k.hc := rfl
@[simp] theorem Cluster.sLand_win (k : Cluster) (d : SDest) (v : BitVec 256) (lat : Nat) : (k.sLand d v lat).win = k.win := rfl
@[simp] theorem Cluster.sLand_fetches (k : Cluster) (d : SDest) (v : BitVec 256) (lat : Nat) : (k.sLand d v lat).fetches = k.fetches := rfl
@[simp] theorem Cluster.sLand_fetchFault (k : Cluster) (d : SDest) (v : BitVec 256) (lat : Nat) : (k.sLand d v lat).fetchFault = k.fetchFault := rfl
@[simp] theorem Cluster.sLand_tmw (k : Cluster) (d : SDest) (v : BitVec 256) (lat : Nat) : (k.sLand d v lat).tmw = k.tmw := rfl
@[simp] theorem Cluster.sLand_ftw (k : Cluster) (d : SDest) (v : BitVec 256) (lat : Nat) : (k.sLand d v lat).ftw = k.ftw := rfl
@[simp] theorem Cluster.sLand_pend (k : Cluster) (d : SDest) (v : BitVec 256) (lat : Nat) : (k.sLand d v lat).pend = k.pend := rfl
@[simp] theorem Cluster.sLand_cps (k : Cluster) (d : SDest) (v : BitVec 256) (lat : Nat) : (k.sLand d v lat).cps = k.cps := rfl
@[simp] theorem Cluster.sLand_holds (k : Cluster) (d : SDest) (v : BitVec 256) (lat : Nat) : (k.sLand d v lat).holds = k.holds := rfl
@[simp] theorem Cluster.sLand_slip (k : Cluster) (d : SDest) (v : BitVec 256) (lat : Nat) : (k.sLand d v lat).slip = k.slip := rfl
@[simp] theorem Cluster.sLand_frozenPre (k : Cluster) (d : SDest) (v : BitVec 256) (lat : Nat) : (k.sLand d v lat).frozenPre = k.frozenPre := rfl
@[simp] theorem Cluster.sLand_halted (k : Cluster) (d : SDest) (v : BitVec 256) (lat : Nat) : (k.sLand d v lat).halted = k.halted := rfl
@[simp] theorem Cluster.sLand_freezeCt (k : Cluster) (d : SDest) (v : BitVec 256) (lat : Nat) : (k.sLand d v lat).freezeCt = k.freezeCt := rfl
@[simp] theorem Cluster.sLand_maint (k : Cluster) (d : SDest) (v : BitVec 256) (lat : Nat) : (k.sLand d v lat).maint = k.maint := rfl
@[simp] theorem Cluster.sLand_dbg (k : Cluster) (d : SDest) (v : BitVec 256) (lat : Nat) : (k.sLand d v lat).dbg = k.dbg := rfl
@[simp] theorem Cluster.sLand_throttle (k : Cluster) (d : SDest) (v : BitVec 256) (lat : Nat) : (k.sLand d v lat).throttle = k.throttle := rfl
@[simp] theorem Cluster.sLand_handler (k : Cluster) (d : SDest) (v : BitVec 256) (lat : Nat) : (k.sLand d v lat).handler = k.handler := rfl
@[simp] theorem Cluster.sLand_ports (k : Cluster) (d : SDest) (v : BitVec 256) (lat : Nat) : (k.sLand d v lat).ports = k.ports := rfl
@[simp] theorem Cluster.sLand_groups (k : Cluster) (d : SDest) (v : BitVec 256) (lat : Nat) : (k.sLand d v lat).groups = k.groups := rfl
@[simp] theorem Cluster.sLand_lastD (k : Cluster) (d : SDest) (v : BitVec 256) (lat : Nat) : (k.sLand d v lat).lastD = k.lastD := rfl
@[simp] theorem Cluster.sLand_lastMchk (k : Cluster) (d : SDest) (v : BitVec 256) (lat : Nat) : (k.sLand d v lat).lastMchk = k.lastMchk := rfl
@[simp] theorem Cluster.sLand_lastBf (k : Cluster) (d : SDest) (v : BitVec 256) (lat : Nat) : (k.sLand d v lat).lastBf = k.lastBf := rfl
@[simp] theorem Cluster.sLand_preReq (k : Cluster) (d : SDest) (v : BitVec 256) (lat : Nat) : (k.sLand d v lat).preReq = k.preReq := rfl
@[simp] theorem Cluster.sLand_run (k : Cluster) (d : SDest) (v : BitVec 256) (lat : Nat) : (k.sLand d v lat).run = k.run := rfl
@[simp] theorem Cluster.sLand_prevCtx (k : Cluster) (d : SDest) (v : BitVec 256) (lat : Nat) : (k.sLand d v lat).prevCtx = k.prevCtx := rfl
@[simp] theorem Cluster.sLand_tts (k : Cluster) (d : SDest) (v : BitVec 256) (lat : Nat) : (k.sLand d v lat).tts = k.tts := rfl
@[simp] theorem Cluster.sLand_clock (k : Cluster) (d : SDest) (v : BitVec 256) (lat : Nat) : (k.sLand d v lat).clock = k.clock := rfl
@[simp] theorem Cluster.sLand_clockAcc (k : Cluster) (d : SDest) (v : BitVec 256) (lat : Nat) : (k.sLand d v lat).clockAcc = k.clockAcc := rfl
@[simp] theorem Cluster.sLand_ticks (k : Cluster) (d : SDest) (v : BitVec 256) (lat : Nat) : (k.sLand d v lat).ticks = k.ticks := rfl
@[simp] theorem Cluster.sLand_inService (k : Cluster) (d : SDest) (v : BitVec 256) (lat : Nat) : (k.sLand d v lat).inService = k.inService := rfl
@[simp] theorem Cluster.sLand_tm (k : Cluster) (d : SDest) (v : BitVec 256) (lat : Nat) : (k.sLand d v lat).tm = k.tm := rfl
@[simp] theorem Cluster.sLand_tmDirty (k : Cluster) (d : SDest) (v : BitVec 256) (lat : Nat) : (k.sLand d v lat).tmDirty = k.tmDirty := rfl
@[simp] theorem Cluster.sLand_buf (k : Cluster) (d : SDest) (v : BitVec 256) (lat : Nat) : (k.sLand d v lat).buf = k.buf := rfl
@[simp] theorem Cluster.sLand_active (k : Cluster) (d : SDest) (v : BitVec 256) (lat : Nat) : (k.sLand d v lat).active = k.active := rfl
@[simp] theorem Cluster.sLand_lastStart (k : Cluster) (d : SDest) (v : BitVec 256) (lat : Nat) : (k.sLand d v lat).lastStart = k.lastStart := rfl
@[simp] theorem Cluster.sLand_lastStream (k : Cluster) (d : SDest) (v : BitVec 256) (lat : Nat) : (k.sLand d v lat).lastStream = k.lastStream := rfl
@[simp] theorem Cluster.sLand_doneCmds (k : Cluster) (d : SDest) (v : BitVec 256) (lat : Nat) : (k.sLand d v lat).doneCmds = k.doneCmds := rfl
@[simp] theorem Cluster.sLand_nextCmd (k : Cluster) (d : SDest) (v : BitVec 256) (lat : Nat) : (k.sLand d v lat).nextCmd = k.nextCmd := rfl
@[simp] theorem Cluster.sLand_addrQ (k : Cluster) (d : SDest) (v : BitVec 256) (lat : Nat) : (k.sLand d v lat).addrQ = k.addrQ := rfl
@[simp] theorem Cluster.sLand_unclaimed (k : Cluster) (d : SDest) (v : BitVec 256) (lat : Nat) : (k.sLand d v lat).unclaimed = k.unclaimed := rfl
@[simp] theorem Cluster.sLand_egen (k : Cluster) (d : SDest) (v : BitVec 256) (lat : Nat) : (k.sLand d v lat).egen = k.egen := rfl
@[simp] theorem Cluster.sLand_winW (k : Cluster) (d : SDest) (v : BitVec 256) (lat : Nat) : (k.sLand d v lat).winW = k.winW := rfl
@[simp] theorem Cluster.sLand_inits (k : Cluster) (d : SDest) (v : BitVec 256) (lat : Nat) : (k.sLand d v lat).inits = k.inits := rfl
@[simp] theorem Cluster.sLand_parrs (k : Cluster) (d : SDest) (v : BitVec 256) (lat : Nat) : (k.sLand d v lat).parrs = k.parrs := rfl
@[simp] theorem Cluster.sLand_penUpds (k : Cluster) (d : SDest) (v : BitVec 256) (lat : Nat) : (k.sLand d v lat).penUpds = k.penUpds := rfl
@[simp] theorem Cluster.sLand_posted (k : Cluster) (d : SDest) (v : BitVec 256) (lat : Nat) : (k.sLand d v lat).posted = k.posted := rfl
@[simp] theorem Cluster.sLand_grpFault (k : Cluster) (d : SDest) (v : BitVec 256) (lat : Nat) : (k.sLand d v lat).grpFault = k.grpFault := rfl
@[simp] theorem Cluster.sLand_nextPost (k : Cluster) (d : SDest) (v : BitVec 256) (lat : Nat) : (k.sLand d v lat).nextPost = k.nextPost := rfl
@[simp] theorem Cluster.sLand_relAfter (k : Cluster) (d : SDest) (v : BitVec 256) (lat : Nat) : (k.sLand d v lat).relAfter = k.relAfter := rfl
@[simp] theorem Cluster.sLand_relFence (k : Cluster) (d : SDest) (v : BitVec 256) (lat : Nat) : (k.sLand d v lat).relFence = k.relFence := rfl
@[simp] theorem Cluster.sLand_relaxed (k : Cluster) (d : SDest) (v : BitVec 256) (lat : Nat) : (k.sLand d v lat).relaxed = k.relaxed := rfl
@[simp] theorem Cluster.sLand_upd (k : Cluster) (d : SDest) (v : BitVec 256) (lat : Nat) : (k.sLand d v lat).upd = k.upd := rfl
@[simp] theorem Cluster.sLand_far (k : Cluster) (d : SDest) (v : BitVec 256) (lat : Nat) : (k.sLand d v lat).far = k.far := rfl
@[simp] theorem Cluster.sLand_penAcc (k : Cluster) (d : SDest) (v : BitVec 256) (lat : Nat) : (k.sLand d v lat).penAcc = k.penAcc := rfl
@[simp] theorem Cluster.sLand_penVc (k : Cluster) (d : SDest) (v : BitVec 256) (lat : Nat) : (k.sLand d v lat).penVc = k.penVc := rfl
@[simp] theorem Cluster.sLand_drains (k : Cluster) (d : SDest) (v : BitVec 256) (lat : Nat) : (k.sLand d v lat).drains = k.drains := rfl
@[simp] theorem Cluster.sLand_vc (k : Cluster) (d : SDest) (v : BitVec 256) (lat : Nat) : (k.sLand d v lat).vc = k.vc := rfl
@[simp] theorem Cluster.sLand_tlb (k : Cluster) (d : SDest) (v : BitVec 256) (lat : Nat) : (k.sLand d v lat).tlb = k.tlb := rfl
@[simp] theorem Cluster.sLand_ending (k : Cluster) (d : SDest) (v : BitVec 256) (lat : Nat) : (k.sLand d v lat).ending = k.ending := rfl
@[simp] theorem Cluster.sLand_rft (k : Cluster) (d : SDest) (v : BitVec 256) (lat : Nat) : (k.sLand d v lat).rft = k.rft := rfl
@[simp] theorem Cluster.sLand_issued (k : Cluster) (d : SDest) (v : BitVec 256) (lat : Nat) : (k.sLand d v lat).issued = k.issued := rfl
@[simp] theorem Cluster.sLand_hurt (k : Cluster) (d : SDest) (v : BitVec 256) (lat : Nat) : (k.sLand d v lat).hurt = k.hurt := rfl
@[simp] theorem Cluster.sLand_holdFault (k : Cluster) (d : SDest) (v : BitVec 256) (lat : Nat) : (k.sLand d v lat).holdFault = k.holdFault := rfl
@[simp] theorem Cluster.sLand_soft (k : Cluster) (d : SDest) (v : BitVec 256) (lat : Nat) : (k.sLand d v lat).soft = k.soft := rfl
@[simp] theorem Cluster.sLand_cores (k : Cluster) (d : SDest) (v : BitVec 256) (lat : Nat) : (k.sLand d v lat).cores = k.cores := rfl

/-! ### Cores of a mask are changed -/

@[simp] theorem Cluster.onCores_pc (k : Cluster) (m : BitVec 256) (f : Nat → Core → Core) : (k.onCores m f).pc = k.pc := rfl
@[simp] theorem Cluster.onCores_s (k : Cluster) (m : BitVec 256) (f : Nat → Core → Core) : (k.onCores m f).s = k.s := rfl
@[simp] theorem Cluster.onCores_b (k : Cluster) (m : BitVec 256) (f : Nat → Core → Core) : (k.onCores m f).b = k.b := rfl
@[simp] theorem Cluster.onCores_e (k : Cluster) (m : BitVec 256) (f : Nat → Core → Core) : (k.onCores m f).e = k.e := rfl
@[simp] theorem Cluster.onCores_lc (k : Cluster) (m : BitVec 256) (f : Nat → Core → Core) : (k.onCores m f).lc = k.lc := rfl
@[simp] theorem Cluster.onCores_loops (k : Cluster) (m : BitVec 256) (f : Nat → Core → Core) : (k.onCores m f).loops = k.loops := rfl
@[simp] theorem Cluster.onCores_rrbv (k : Cluster) (m : BitVec 256) (f : Nat → Core → Core) : (k.onCores m f).rrbv = k.rrbv := rfl
@[simp] theorem Cluster.onCores_rrbp (k : Cluster) (m : BitVec 256) (f : Nat → Core → Core) : (k.onCores m f).rrbp = k.rrbp := rfl
@[simp] theorem Cluster.onCores_gqctl (k : Cluster) (m : BitVec 256) (f : Nat → Core → Core) : (k.onCores m f).gqctl = k.gqctl := rfl
@[simp] theorem Cluster.onCores_slipmax (k : Cluster) (m : BitVec 256) (f : Nat → Core → Core) : (k.onCores m f).slipmax = k.slipmax := rfl
@[simp] theorem Cluster.onCores_holdmax (k : Cluster) (m : BitVec 256) (f : Nat → Core → Core) : (k.onCores m f).holdmax = k.holdmax := rfl
@[simp] theorem Cluster.onCores_cmsk (k : Cluster) (m : BitVec 256) (f : Nat → Core → Core) : (k.onCores m f).cmsk = k.cmsk := rfl
@[simp] theorem Cluster.onCores_dt (k : Cluster) (m : BitVec 256) (f : Nat → Core → Core) : (k.onCores m f).dt = k.dt := rfl
@[simp] theorem Cluster.onCores_trapcause (k : Cluster) (m : BitVec 256) (f : Nat → Core → Core) : (k.onCores m f).trapcause = k.trapcause := rfl
@[simp] theorem Cluster.onCores_trappc (k : Cluster) (m : BitVec 256) (f : Nat → Core → Core) : (k.onCores m f).trappc = k.trappc := rfl
@[simp] theorem Cluster.onCores_trapdt (k : Cluster) (m : BitVec 256) (f : Nat → Core → Core) : (k.onCores m f).trapdt = k.trapdt := rfl
@[simp] theorem Cluster.onCores_trapopc (k : Cluster) (m : BitVec 256) (f : Nat → Core → Core) : (k.onCores m f).trapopc = k.trapopc := rfl
@[simp] theorem Cluster.onCores_traphnd (k : Cluster) (m : BitVec 256) (f : Nat → Core → Core) : (k.onCores m f).traphnd = k.traphnd := rfl
@[simp] theorem Cluster.onCores_errinj (k : Cluster) (m : BitVec 256) (f : Nat → Core → Core) : (k.onCores m f).errinj = k.errinj := rfl
@[simp] theorem Cluster.onCores_lvlix (k : Cluster) (m : BitVec 256) (f : Nat → Core → Core) : (k.onCores m f).lvlix = k.lvlix := rfl
@[simp] theorem Cluster.onCores_delay (k : Cluster) (m : BitVec 256) (f : Nat → Core → Core) : (k.onCores m f).delay = k.delay := rfl
@[simp] theorem Cluster.onCores_linkPend (k : Cluster) (m : BitVec 256) (f : Nat → Core → Core) : (k.onCores m f).linkPend = k.linkPend := rfl
@[simp] theorem Cluster.onCores_nopLeft (k : Cluster) (m : BitVec 256) (f : Nat → Core → Core) : (k.onCores m f).nopLeft = k.nopLeft := rfl
@[simp] theorem Cluster.onCores_next (k : Cluster) (m : BitVec 256) (f : Nat → Core → Core) : (k.onCores m f).next = k.next := rfl
@[simp] theorem Cluster.onCores_hc (k : Cluster) (m : BitVec 256) (f : Nat → Core → Core) : (k.onCores m f).hc = k.hc := rfl
@[simp] theorem Cluster.onCores_win (k : Cluster) (m : BitVec 256) (f : Nat → Core → Core) : (k.onCores m f).win = k.win := rfl
@[simp] theorem Cluster.onCores_fetches (k : Cluster) (m : BitVec 256) (f : Nat → Core → Core) : (k.onCores m f).fetches = k.fetches := rfl
@[simp] theorem Cluster.onCores_fetchFault (k : Cluster) (m : BitVec 256) (f : Nat → Core → Core) : (k.onCores m f).fetchFault = k.fetchFault := rfl
@[simp] theorem Cluster.onCores_simg (k : Cluster) (m : BitVec 256) (f : Nat → Core → Core) : (k.onCores m f).simg = k.simg := rfl
@[simp] theorem Cluster.onCores_tmw (k : Cluster) (m : BitVec 256) (f : Nat → Core → Core) : (k.onCores m f).tmw = k.tmw := rfl
@[simp] theorem Cluster.onCores_ftw (k : Cluster) (m : BitVec 256) (f : Nat → Core → Core) : (k.onCores m f).ftw = k.ftw := rfl
@[simp] theorem Cluster.onCores_pend (k : Cluster) (m : BitVec 256) (f : Nat → Core → Core) : (k.onCores m f).pend = k.pend := rfl
@[simp] theorem Cluster.onCores_cps (k : Cluster) (m : BitVec 256) (f : Nat → Core → Core) : (k.onCores m f).cps = k.cps := rfl
@[simp] theorem Cluster.onCores_holds (k : Cluster) (m : BitVec 256) (f : Nat → Core → Core) : (k.onCores m f).holds = k.holds := rfl
@[simp] theorem Cluster.onCores_slip (k : Cluster) (m : BitVec 256) (f : Nat → Core → Core) : (k.onCores m f).slip = k.slip := rfl
@[simp] theorem Cluster.onCores_frozenPre (k : Cluster) (m : BitVec 256) (f : Nat → Core → Core) : (k.onCores m f).frozenPre = k.frozenPre := rfl
@[simp] theorem Cluster.onCores_halted (k : Cluster) (m : BitVec 256) (f : Nat → Core → Core) : (k.onCores m f).halted = k.halted := rfl
@[simp] theorem Cluster.onCores_freezeCt (k : Cluster) (m : BitVec 256) (f : Nat → Core → Core) : (k.onCores m f).freezeCt = k.freezeCt := rfl
@[simp] theorem Cluster.onCores_maint (k : Cluster) (m : BitVec 256) (f : Nat → Core → Core) : (k.onCores m f).maint = k.maint := rfl
@[simp] theorem Cluster.onCores_dbg (k : Cluster) (m : BitVec 256) (f : Nat → Core → Core) : (k.onCores m f).dbg = k.dbg := rfl
@[simp] theorem Cluster.onCores_throttle (k : Cluster) (m : BitVec 256) (f : Nat → Core → Core) : (k.onCores m f).throttle = k.throttle := rfl
@[simp] theorem Cluster.onCores_handler (k : Cluster) (m : BitVec 256) (f : Nat → Core → Core) : (k.onCores m f).handler = k.handler := rfl
@[simp] theorem Cluster.onCores_ports (k : Cluster) (m : BitVec 256) (f : Nat → Core → Core) : (k.onCores m f).ports = k.ports := rfl
@[simp] theorem Cluster.onCores_groups (k : Cluster) (m : BitVec 256) (f : Nat → Core → Core) : (k.onCores m f).groups = k.groups := rfl
@[simp] theorem Cluster.onCores_lastD (k : Cluster) (m : BitVec 256) (f : Nat → Core → Core) : (k.onCores m f).lastD = k.lastD := rfl
@[simp] theorem Cluster.onCores_lastMchk (k : Cluster) (m : BitVec 256) (f : Nat → Core → Core) : (k.onCores m f).lastMchk = k.lastMchk := rfl
@[simp] theorem Cluster.onCores_lastBf (k : Cluster) (m : BitVec 256) (f : Nat → Core → Core) : (k.onCores m f).lastBf = k.lastBf := rfl
@[simp] theorem Cluster.onCores_preReq (k : Cluster) (m : BitVec 256) (f : Nat → Core → Core) : (k.onCores m f).preReq = k.preReq := rfl
@[simp] theorem Cluster.onCores_run (k : Cluster) (m : BitVec 256) (f : Nat → Core → Core) : (k.onCores m f).run = k.run := rfl
@[simp] theorem Cluster.onCores_prevCtx (k : Cluster) (m : BitVec 256) (f : Nat → Core → Core) : (k.onCores m f).prevCtx = k.prevCtx := rfl
@[simp] theorem Cluster.onCores_tts (k : Cluster) (m : BitVec 256) (f : Nat → Core → Core) : (k.onCores m f).tts = k.tts := rfl
@[simp] theorem Cluster.onCores_clock (k : Cluster) (m : BitVec 256) (f : Nat → Core → Core) : (k.onCores m f).clock = k.clock := rfl
@[simp] theorem Cluster.onCores_clockAcc (k : Cluster) (m : BitVec 256) (f : Nat → Core → Core) : (k.onCores m f).clockAcc = k.clockAcc := rfl
@[simp] theorem Cluster.onCores_ticks (k : Cluster) (m : BitVec 256) (f : Nat → Core → Core) : (k.onCores m f).ticks = k.ticks := rfl
@[simp] theorem Cluster.onCores_inService (k : Cluster) (m : BitVec 256) (f : Nat → Core → Core) : (k.onCores m f).inService = k.inService := rfl
@[simp] theorem Cluster.onCores_tm (k : Cluster) (m : BitVec 256) (f : Nat → Core → Core) : (k.onCores m f).tm = k.tm := rfl
@[simp] theorem Cluster.onCores_tmDirty (k : Cluster) (m : BitVec 256) (f : Nat → Core → Core) : (k.onCores m f).tmDirty = k.tmDirty := rfl
@[simp] theorem Cluster.onCores_buf (k : Cluster) (m : BitVec 256) (f : Nat → Core → Core) : (k.onCores m f).buf = k.buf := rfl
@[simp] theorem Cluster.onCores_active (k : Cluster) (m : BitVec 256) (f : Nat → Core → Core) : (k.onCores m f).active = k.active := rfl
@[simp] theorem Cluster.onCores_lastStart (k : Cluster) (m : BitVec 256) (f : Nat → Core → Core) : (k.onCores m f).lastStart = k.lastStart := rfl
@[simp] theorem Cluster.onCores_lastStream (k : Cluster) (m : BitVec 256) (f : Nat → Core → Core) : (k.onCores m f).lastStream = k.lastStream := rfl
@[simp] theorem Cluster.onCores_doneCmds (k : Cluster) (m : BitVec 256) (f : Nat → Core → Core) : (k.onCores m f).doneCmds = k.doneCmds := rfl
@[simp] theorem Cluster.onCores_nextCmd (k : Cluster) (m : BitVec 256) (f : Nat → Core → Core) : (k.onCores m f).nextCmd = k.nextCmd := rfl
@[simp] theorem Cluster.onCores_addrQ (k : Cluster) (m : BitVec 256) (f : Nat → Core → Core) : (k.onCores m f).addrQ = k.addrQ := rfl
@[simp] theorem Cluster.onCores_unclaimed (k : Cluster) (m : BitVec 256) (f : Nat → Core → Core) : (k.onCores m f).unclaimed = k.unclaimed := rfl
@[simp] theorem Cluster.onCores_egen (k : Cluster) (m : BitVec 256) (f : Nat → Core → Core) : (k.onCores m f).egen = k.egen := rfl
@[simp] theorem Cluster.onCores_winW (k : Cluster) (m : BitVec 256) (f : Nat → Core → Core) : (k.onCores m f).winW = k.winW := rfl
@[simp] theorem Cluster.onCores_inits (k : Cluster) (m : BitVec 256) (f : Nat → Core → Core) : (k.onCores m f).inits = k.inits := rfl
@[simp] theorem Cluster.onCores_parrs (k : Cluster) (m : BitVec 256) (f : Nat → Core → Core) : (k.onCores m f).parrs = k.parrs := rfl
@[simp] theorem Cluster.onCores_penUpds (k : Cluster) (m : BitVec 256) (f : Nat → Core → Core) : (k.onCores m f).penUpds = k.penUpds := rfl
@[simp] theorem Cluster.onCores_posted (k : Cluster) (m : BitVec 256) (f : Nat → Core → Core) : (k.onCores m f).posted = k.posted := rfl
@[simp] theorem Cluster.onCores_grpFault (k : Cluster) (m : BitVec 256) (f : Nat → Core → Core) : (k.onCores m f).grpFault = k.grpFault := rfl
@[simp] theorem Cluster.onCores_nextPost (k : Cluster) (m : BitVec 256) (f : Nat → Core → Core) : (k.onCores m f).nextPost = k.nextPost := rfl
@[simp] theorem Cluster.onCores_relAfter (k : Cluster) (m : BitVec 256) (f : Nat → Core → Core) : (k.onCores m f).relAfter = k.relAfter := rfl
@[simp] theorem Cluster.onCores_relFence (k : Cluster) (m : BitVec 256) (f : Nat → Core → Core) : (k.onCores m f).relFence = k.relFence := rfl
@[simp] theorem Cluster.onCores_relaxed (k : Cluster) (m : BitVec 256) (f : Nat → Core → Core) : (k.onCores m f).relaxed = k.relaxed := rfl
@[simp] theorem Cluster.onCores_upd (k : Cluster) (m : BitVec 256) (f : Nat → Core → Core) : (k.onCores m f).upd = k.upd := rfl
@[simp] theorem Cluster.onCores_far (k : Cluster) (m : BitVec 256) (f : Nat → Core → Core) : (k.onCores m f).far = k.far := rfl
@[simp] theorem Cluster.onCores_penAcc (k : Cluster) (m : BitVec 256) (f : Nat → Core → Core) : (k.onCores m f).penAcc = k.penAcc := rfl
@[simp] theorem Cluster.onCores_penVc (k : Cluster) (m : BitVec 256) (f : Nat → Core → Core) : (k.onCores m f).penVc = k.penVc := rfl
@[simp] theorem Cluster.onCores_drains (k : Cluster) (m : BitVec 256) (f : Nat → Core → Core) : (k.onCores m f).drains = k.drains := rfl
@[simp] theorem Cluster.onCores_vc (k : Cluster) (m : BitVec 256) (f : Nat → Core → Core) : (k.onCores m f).vc = k.vc := rfl
@[simp] theorem Cluster.onCores_tlb (k : Cluster) (m : BitVec 256) (f : Nat → Core → Core) : (k.onCores m f).tlb = k.tlb := rfl
@[simp] theorem Cluster.onCores_ending (k : Cluster) (m : BitVec 256) (f : Nat → Core → Core) : (k.onCores m f).ending = k.ending := rfl
@[simp] theorem Cluster.onCores_rft (k : Cluster) (m : BitVec 256) (f : Nat → Core → Core) : (k.onCores m f).rft = k.rft := rfl
@[simp] theorem Cluster.onCores_issued (k : Cluster) (m : BitVec 256) (f : Nat → Core → Core) : (k.onCores m f).issued = k.issued := rfl
@[simp] theorem Cluster.onCores_hurt (k : Cluster) (m : BitVec 256) (f : Nat → Core → Core) : (k.onCores m f).hurt = k.hurt := rfl
@[simp] theorem Cluster.onCores_holdFault (k : Cluster) (m : BitVec 256) (f : Nat → Core → Core) : (k.onCores m f).holdFault = k.holdFault := rfl
@[simp] theorem Cluster.onCores_soft (k : Cluster) (m : BitVec 256) (f : Nat → Core → Core) : (k.onCores m f).soft = k.soft := rfl

/-! ### The active cores of a cluster are changed -/

@[simp] theorem Cluster.onActive_pc (k : Cluster) (f : Nat → Core → Core) : (k.onActive f).pc = k.pc := rfl
@[simp] theorem Cluster.onActive_s (k : Cluster) (f : Nat → Core → Core) : (k.onActive f).s = k.s := rfl
@[simp] theorem Cluster.onActive_b (k : Cluster) (f : Nat → Core → Core) : (k.onActive f).b = k.b := rfl
@[simp] theorem Cluster.onActive_e (k : Cluster) (f : Nat → Core → Core) : (k.onActive f).e = k.e := rfl
@[simp] theorem Cluster.onActive_lc (k : Cluster) (f : Nat → Core → Core) : (k.onActive f).lc = k.lc := rfl
@[simp] theorem Cluster.onActive_loops (k : Cluster) (f : Nat → Core → Core) : (k.onActive f).loops = k.loops := rfl
@[simp] theorem Cluster.onActive_rrbv (k : Cluster) (f : Nat → Core → Core) : (k.onActive f).rrbv = k.rrbv := rfl
@[simp] theorem Cluster.onActive_rrbp (k : Cluster) (f : Nat → Core → Core) : (k.onActive f).rrbp = k.rrbp := rfl
@[simp] theorem Cluster.onActive_gqctl (k : Cluster) (f : Nat → Core → Core) : (k.onActive f).gqctl = k.gqctl := rfl
@[simp] theorem Cluster.onActive_slipmax (k : Cluster) (f : Nat → Core → Core) : (k.onActive f).slipmax = k.slipmax := rfl
@[simp] theorem Cluster.onActive_holdmax (k : Cluster) (f : Nat → Core → Core) : (k.onActive f).holdmax = k.holdmax := rfl
@[simp] theorem Cluster.onActive_cmsk (k : Cluster) (f : Nat → Core → Core) : (k.onActive f).cmsk = k.cmsk := rfl
@[simp] theorem Cluster.onActive_dt (k : Cluster) (f : Nat → Core → Core) : (k.onActive f).dt = k.dt := rfl
@[simp] theorem Cluster.onActive_trapcause (k : Cluster) (f : Nat → Core → Core) : (k.onActive f).trapcause = k.trapcause := rfl
@[simp] theorem Cluster.onActive_trappc (k : Cluster) (f : Nat → Core → Core) : (k.onActive f).trappc = k.trappc := rfl
@[simp] theorem Cluster.onActive_trapdt (k : Cluster) (f : Nat → Core → Core) : (k.onActive f).trapdt = k.trapdt := rfl
@[simp] theorem Cluster.onActive_trapopc (k : Cluster) (f : Nat → Core → Core) : (k.onActive f).trapopc = k.trapopc := rfl
@[simp] theorem Cluster.onActive_traphnd (k : Cluster) (f : Nat → Core → Core) : (k.onActive f).traphnd = k.traphnd := rfl
@[simp] theorem Cluster.onActive_errinj (k : Cluster) (f : Nat → Core → Core) : (k.onActive f).errinj = k.errinj := rfl
@[simp] theorem Cluster.onActive_lvlix (k : Cluster) (f : Nat → Core → Core) : (k.onActive f).lvlix = k.lvlix := rfl
@[simp] theorem Cluster.onActive_delay (k : Cluster) (f : Nat → Core → Core) : (k.onActive f).delay = k.delay := rfl
@[simp] theorem Cluster.onActive_linkPend (k : Cluster) (f : Nat → Core → Core) : (k.onActive f).linkPend = k.linkPend := rfl
@[simp] theorem Cluster.onActive_nopLeft (k : Cluster) (f : Nat → Core → Core) : (k.onActive f).nopLeft = k.nopLeft := rfl
@[simp] theorem Cluster.onActive_next (k : Cluster) (f : Nat → Core → Core) : (k.onActive f).next = k.next := rfl
@[simp] theorem Cluster.onActive_hc (k : Cluster) (f : Nat → Core → Core) : (k.onActive f).hc = k.hc := rfl
@[simp] theorem Cluster.onActive_win (k : Cluster) (f : Nat → Core → Core) : (k.onActive f).win = k.win := rfl
@[simp] theorem Cluster.onActive_fetches (k : Cluster) (f : Nat → Core → Core) : (k.onActive f).fetches = k.fetches := rfl
@[simp] theorem Cluster.onActive_fetchFault (k : Cluster) (f : Nat → Core → Core) : (k.onActive f).fetchFault = k.fetchFault := rfl
@[simp] theorem Cluster.onActive_simg (k : Cluster) (f : Nat → Core → Core) : (k.onActive f).simg = k.simg := rfl
@[simp] theorem Cluster.onActive_tmw (k : Cluster) (f : Nat → Core → Core) : (k.onActive f).tmw = k.tmw := rfl
@[simp] theorem Cluster.onActive_ftw (k : Cluster) (f : Nat → Core → Core) : (k.onActive f).ftw = k.ftw := rfl
@[simp] theorem Cluster.onActive_pend (k : Cluster) (f : Nat → Core → Core) : (k.onActive f).pend = k.pend := rfl
@[simp] theorem Cluster.onActive_cps (k : Cluster) (f : Nat → Core → Core) : (k.onActive f).cps = k.cps := rfl
@[simp] theorem Cluster.onActive_holds (k : Cluster) (f : Nat → Core → Core) : (k.onActive f).holds = k.holds := rfl
@[simp] theorem Cluster.onActive_slip (k : Cluster) (f : Nat → Core → Core) : (k.onActive f).slip = k.slip := rfl
@[simp] theorem Cluster.onActive_frozenPre (k : Cluster) (f : Nat → Core → Core) : (k.onActive f).frozenPre = k.frozenPre := rfl
@[simp] theorem Cluster.onActive_halted (k : Cluster) (f : Nat → Core → Core) : (k.onActive f).halted = k.halted := rfl
@[simp] theorem Cluster.onActive_freezeCt (k : Cluster) (f : Nat → Core → Core) : (k.onActive f).freezeCt = k.freezeCt := rfl
@[simp] theorem Cluster.onActive_maint (k : Cluster) (f : Nat → Core → Core) : (k.onActive f).maint = k.maint := rfl
@[simp] theorem Cluster.onActive_dbg (k : Cluster) (f : Nat → Core → Core) : (k.onActive f).dbg = k.dbg := rfl
@[simp] theorem Cluster.onActive_throttle (k : Cluster) (f : Nat → Core → Core) : (k.onActive f).throttle = k.throttle := rfl
@[simp] theorem Cluster.onActive_handler (k : Cluster) (f : Nat → Core → Core) : (k.onActive f).handler = k.handler := rfl
@[simp] theorem Cluster.onActive_ports (k : Cluster) (f : Nat → Core → Core) : (k.onActive f).ports = k.ports := rfl
@[simp] theorem Cluster.onActive_groups (k : Cluster) (f : Nat → Core → Core) : (k.onActive f).groups = k.groups := rfl
@[simp] theorem Cluster.onActive_lastD (k : Cluster) (f : Nat → Core → Core) : (k.onActive f).lastD = k.lastD := rfl
@[simp] theorem Cluster.onActive_lastMchk (k : Cluster) (f : Nat → Core → Core) : (k.onActive f).lastMchk = k.lastMchk := rfl
@[simp] theorem Cluster.onActive_lastBf (k : Cluster) (f : Nat → Core → Core) : (k.onActive f).lastBf = k.lastBf := rfl
@[simp] theorem Cluster.onActive_preReq (k : Cluster) (f : Nat → Core → Core) : (k.onActive f).preReq = k.preReq := rfl
@[simp] theorem Cluster.onActive_run (k : Cluster) (f : Nat → Core → Core) : (k.onActive f).run = k.run := rfl
@[simp] theorem Cluster.onActive_prevCtx (k : Cluster) (f : Nat → Core → Core) : (k.onActive f).prevCtx = k.prevCtx := rfl
@[simp] theorem Cluster.onActive_tts (k : Cluster) (f : Nat → Core → Core) : (k.onActive f).tts = k.tts := rfl
@[simp] theorem Cluster.onActive_clock (k : Cluster) (f : Nat → Core → Core) : (k.onActive f).clock = k.clock := rfl
@[simp] theorem Cluster.onActive_clockAcc (k : Cluster) (f : Nat → Core → Core) : (k.onActive f).clockAcc = k.clockAcc := rfl
@[simp] theorem Cluster.onActive_ticks (k : Cluster) (f : Nat → Core → Core) : (k.onActive f).ticks = k.ticks := rfl
@[simp] theorem Cluster.onActive_inService (k : Cluster) (f : Nat → Core → Core) : (k.onActive f).inService = k.inService := rfl
@[simp] theorem Cluster.onActive_tm (k : Cluster) (f : Nat → Core → Core) : (k.onActive f).tm = k.tm := rfl
@[simp] theorem Cluster.onActive_tmDirty (k : Cluster) (f : Nat → Core → Core) : (k.onActive f).tmDirty = k.tmDirty := rfl
@[simp] theorem Cluster.onActive_buf (k : Cluster) (f : Nat → Core → Core) : (k.onActive f).buf = k.buf := rfl
@[simp] theorem Cluster.onActive_active (k : Cluster) (f : Nat → Core → Core) : (k.onActive f).active = k.active := rfl
@[simp] theorem Cluster.onActive_lastStart (k : Cluster) (f : Nat → Core → Core) : (k.onActive f).lastStart = k.lastStart := rfl
@[simp] theorem Cluster.onActive_lastStream (k : Cluster) (f : Nat → Core → Core) : (k.onActive f).lastStream = k.lastStream := rfl
@[simp] theorem Cluster.onActive_doneCmds (k : Cluster) (f : Nat → Core → Core) : (k.onActive f).doneCmds = k.doneCmds := rfl
@[simp] theorem Cluster.onActive_nextCmd (k : Cluster) (f : Nat → Core → Core) : (k.onActive f).nextCmd = k.nextCmd := rfl
@[simp] theorem Cluster.onActive_addrQ (k : Cluster) (f : Nat → Core → Core) : (k.onActive f).addrQ = k.addrQ := rfl
@[simp] theorem Cluster.onActive_unclaimed (k : Cluster) (f : Nat → Core → Core) : (k.onActive f).unclaimed = k.unclaimed := rfl
@[simp] theorem Cluster.onActive_egen (k : Cluster) (f : Nat → Core → Core) : (k.onActive f).egen = k.egen := rfl
@[simp] theorem Cluster.onActive_winW (k : Cluster) (f : Nat → Core → Core) : (k.onActive f).winW = k.winW := rfl
@[simp] theorem Cluster.onActive_inits (k : Cluster) (f : Nat → Core → Core) : (k.onActive f).inits = k.inits := rfl
@[simp] theorem Cluster.onActive_parrs (k : Cluster) (f : Nat → Core → Core) : (k.onActive f).parrs = k.parrs := rfl
@[simp] theorem Cluster.onActive_penUpds (k : Cluster) (f : Nat → Core → Core) : (k.onActive f).penUpds = k.penUpds := rfl
@[simp] theorem Cluster.onActive_posted (k : Cluster) (f : Nat → Core → Core) : (k.onActive f).posted = k.posted := rfl
@[simp] theorem Cluster.onActive_grpFault (k : Cluster) (f : Nat → Core → Core) : (k.onActive f).grpFault = k.grpFault := rfl
@[simp] theorem Cluster.onActive_nextPost (k : Cluster) (f : Nat → Core → Core) : (k.onActive f).nextPost = k.nextPost := rfl
@[simp] theorem Cluster.onActive_relAfter (k : Cluster) (f : Nat → Core → Core) : (k.onActive f).relAfter = k.relAfter := rfl
@[simp] theorem Cluster.onActive_relFence (k : Cluster) (f : Nat → Core → Core) : (k.onActive f).relFence = k.relFence := rfl
@[simp] theorem Cluster.onActive_relaxed (k : Cluster) (f : Nat → Core → Core) : (k.onActive f).relaxed = k.relaxed := rfl
@[simp] theorem Cluster.onActive_upd (k : Cluster) (f : Nat → Core → Core) : (k.onActive f).upd = k.upd := rfl
@[simp] theorem Cluster.onActive_far (k : Cluster) (f : Nat → Core → Core) : (k.onActive f).far = k.far := rfl
@[simp] theorem Cluster.onActive_penAcc (k : Cluster) (f : Nat → Core → Core) : (k.onActive f).penAcc = k.penAcc := rfl
@[simp] theorem Cluster.onActive_penVc (k : Cluster) (f : Nat → Core → Core) : (k.onActive f).penVc = k.penVc := rfl
@[simp] theorem Cluster.onActive_drains (k : Cluster) (f : Nat → Core → Core) : (k.onActive f).drains = k.drains := rfl
@[simp] theorem Cluster.onActive_vc (k : Cluster) (f : Nat → Core → Core) : (k.onActive f).vc = k.vc := rfl
@[simp] theorem Cluster.onActive_tlb (k : Cluster) (f : Nat → Core → Core) : (k.onActive f).tlb = k.tlb := rfl
@[simp] theorem Cluster.onActive_ending (k : Cluster) (f : Nat → Core → Core) : (k.onActive f).ending = k.ending := rfl
@[simp] theorem Cluster.onActive_rft (k : Cluster) (f : Nat → Core → Core) : (k.onActive f).rft = k.rft := rfl
@[simp] theorem Cluster.onActive_issued (k : Cluster) (f : Nat → Core → Core) : (k.onActive f).issued = k.issued := rfl
@[simp] theorem Cluster.onActive_hurt (k : Cluster) (f : Nat → Core → Core) : (k.onActive f).hurt = k.hurt := rfl
@[simp] theorem Cluster.onActive_holdFault (k : Cluster) (f : Nat → Core → Core) : (k.onActive f).holdFault = k.holdFault := rfl
@[simp] theorem Cluster.onActive_soft (k : Cluster) (f : Nat → Core → Core) : (k.onActive f).soft = k.soft := rfl

/-! ### One core is changed -/

@[simp] theorem Cluster.onCore_pc (k : Cluster) (i : Nat) (f : Core → Core) : (k.onCore i f).pc = k.pc := rfl
@[simp] theorem Cluster.onCore_s (k : Cluster) (i : Nat) (f : Core → Core) : (k.onCore i f).s = k.s := rfl
@[simp] theorem Cluster.onCore_b (k : Cluster) (i : Nat) (f : Core → Core) : (k.onCore i f).b = k.b := rfl
@[simp] theorem Cluster.onCore_e (k : Cluster) (i : Nat) (f : Core → Core) : (k.onCore i f).e = k.e := rfl
@[simp] theorem Cluster.onCore_lc (k : Cluster) (i : Nat) (f : Core → Core) : (k.onCore i f).lc = k.lc := rfl
@[simp] theorem Cluster.onCore_loops (k : Cluster) (i : Nat) (f : Core → Core) : (k.onCore i f).loops = k.loops := rfl
@[simp] theorem Cluster.onCore_rrbv (k : Cluster) (i : Nat) (f : Core → Core) : (k.onCore i f).rrbv = k.rrbv := rfl
@[simp] theorem Cluster.onCore_rrbp (k : Cluster) (i : Nat) (f : Core → Core) : (k.onCore i f).rrbp = k.rrbp := rfl
@[simp] theorem Cluster.onCore_gqctl (k : Cluster) (i : Nat) (f : Core → Core) : (k.onCore i f).gqctl = k.gqctl := rfl
@[simp] theorem Cluster.onCore_slipmax (k : Cluster) (i : Nat) (f : Core → Core) : (k.onCore i f).slipmax = k.slipmax := rfl
@[simp] theorem Cluster.onCore_holdmax (k : Cluster) (i : Nat) (f : Core → Core) : (k.onCore i f).holdmax = k.holdmax := rfl
@[simp] theorem Cluster.onCore_cmsk (k : Cluster) (i : Nat) (f : Core → Core) : (k.onCore i f).cmsk = k.cmsk := rfl
@[simp] theorem Cluster.onCore_dt (k : Cluster) (i : Nat) (f : Core → Core) : (k.onCore i f).dt = k.dt := rfl
@[simp] theorem Cluster.onCore_trapcause (k : Cluster) (i : Nat) (f : Core → Core) : (k.onCore i f).trapcause = k.trapcause := rfl
@[simp] theorem Cluster.onCore_trappc (k : Cluster) (i : Nat) (f : Core → Core) : (k.onCore i f).trappc = k.trappc := rfl
@[simp] theorem Cluster.onCore_trapdt (k : Cluster) (i : Nat) (f : Core → Core) : (k.onCore i f).trapdt = k.trapdt := rfl
@[simp] theorem Cluster.onCore_trapopc (k : Cluster) (i : Nat) (f : Core → Core) : (k.onCore i f).trapopc = k.trapopc := rfl
@[simp] theorem Cluster.onCore_traphnd (k : Cluster) (i : Nat) (f : Core → Core) : (k.onCore i f).traphnd = k.traphnd := rfl
@[simp] theorem Cluster.onCore_errinj (k : Cluster) (i : Nat) (f : Core → Core) : (k.onCore i f).errinj = k.errinj := rfl
@[simp] theorem Cluster.onCore_lvlix (k : Cluster) (i : Nat) (f : Core → Core) : (k.onCore i f).lvlix = k.lvlix := rfl
@[simp] theorem Cluster.onCore_delay (k : Cluster) (i : Nat) (f : Core → Core) : (k.onCore i f).delay = k.delay := rfl
@[simp] theorem Cluster.onCore_linkPend (k : Cluster) (i : Nat) (f : Core → Core) : (k.onCore i f).linkPend = k.linkPend := rfl
@[simp] theorem Cluster.onCore_nopLeft (k : Cluster) (i : Nat) (f : Core → Core) : (k.onCore i f).nopLeft = k.nopLeft := rfl
@[simp] theorem Cluster.onCore_next (k : Cluster) (i : Nat) (f : Core → Core) : (k.onCore i f).next = k.next := rfl
@[simp] theorem Cluster.onCore_hc (k : Cluster) (i : Nat) (f : Core → Core) : (k.onCore i f).hc = k.hc := rfl
@[simp] theorem Cluster.onCore_win (k : Cluster) (i : Nat) (f : Core → Core) : (k.onCore i f).win = k.win := rfl
@[simp] theorem Cluster.onCore_fetches (k : Cluster) (i : Nat) (f : Core → Core) : (k.onCore i f).fetches = k.fetches := rfl
@[simp] theorem Cluster.onCore_fetchFault (k : Cluster) (i : Nat) (f : Core → Core) : (k.onCore i f).fetchFault = k.fetchFault := rfl
@[simp] theorem Cluster.onCore_simg (k : Cluster) (i : Nat) (f : Core → Core) : (k.onCore i f).simg = k.simg := rfl
@[simp] theorem Cluster.onCore_tmw (k : Cluster) (i : Nat) (f : Core → Core) : (k.onCore i f).tmw = k.tmw := rfl
@[simp] theorem Cluster.onCore_ftw (k : Cluster) (i : Nat) (f : Core → Core) : (k.onCore i f).ftw = k.ftw := rfl
@[simp] theorem Cluster.onCore_pend (k : Cluster) (i : Nat) (f : Core → Core) : (k.onCore i f).pend = k.pend := rfl
@[simp] theorem Cluster.onCore_cps (k : Cluster) (i : Nat) (f : Core → Core) : (k.onCore i f).cps = k.cps := rfl
@[simp] theorem Cluster.onCore_holds (k : Cluster) (i : Nat) (f : Core → Core) : (k.onCore i f).holds = k.holds := rfl
@[simp] theorem Cluster.onCore_slip (k : Cluster) (i : Nat) (f : Core → Core) : (k.onCore i f).slip = k.slip := rfl
@[simp] theorem Cluster.onCore_frozenPre (k : Cluster) (i : Nat) (f : Core → Core) : (k.onCore i f).frozenPre = k.frozenPre := rfl
@[simp] theorem Cluster.onCore_halted (k : Cluster) (i : Nat) (f : Core → Core) : (k.onCore i f).halted = k.halted := rfl
@[simp] theorem Cluster.onCore_freezeCt (k : Cluster) (i : Nat) (f : Core → Core) : (k.onCore i f).freezeCt = k.freezeCt := rfl
@[simp] theorem Cluster.onCore_maint (k : Cluster) (i : Nat) (f : Core → Core) : (k.onCore i f).maint = k.maint := rfl
@[simp] theorem Cluster.onCore_dbg (k : Cluster) (i : Nat) (f : Core → Core) : (k.onCore i f).dbg = k.dbg := rfl
@[simp] theorem Cluster.onCore_throttle (k : Cluster) (i : Nat) (f : Core → Core) : (k.onCore i f).throttle = k.throttle := rfl
@[simp] theorem Cluster.onCore_handler (k : Cluster) (i : Nat) (f : Core → Core) : (k.onCore i f).handler = k.handler := rfl
@[simp] theorem Cluster.onCore_ports (k : Cluster) (i : Nat) (f : Core → Core) : (k.onCore i f).ports = k.ports := rfl
@[simp] theorem Cluster.onCore_groups (k : Cluster) (i : Nat) (f : Core → Core) : (k.onCore i f).groups = k.groups := rfl
@[simp] theorem Cluster.onCore_lastD (k : Cluster) (i : Nat) (f : Core → Core) : (k.onCore i f).lastD = k.lastD := rfl
@[simp] theorem Cluster.onCore_lastMchk (k : Cluster) (i : Nat) (f : Core → Core) : (k.onCore i f).lastMchk = k.lastMchk := rfl
@[simp] theorem Cluster.onCore_lastBf (k : Cluster) (i : Nat) (f : Core → Core) : (k.onCore i f).lastBf = k.lastBf := rfl
@[simp] theorem Cluster.onCore_preReq (k : Cluster) (i : Nat) (f : Core → Core) : (k.onCore i f).preReq = k.preReq := rfl
@[simp] theorem Cluster.onCore_run (k : Cluster) (i : Nat) (f : Core → Core) : (k.onCore i f).run = k.run := rfl
@[simp] theorem Cluster.onCore_prevCtx (k : Cluster) (i : Nat) (f : Core → Core) : (k.onCore i f).prevCtx = k.prevCtx := rfl
@[simp] theorem Cluster.onCore_tts (k : Cluster) (i : Nat) (f : Core → Core) : (k.onCore i f).tts = k.tts := rfl
@[simp] theorem Cluster.onCore_clock (k : Cluster) (i : Nat) (f : Core → Core) : (k.onCore i f).clock = k.clock := rfl
@[simp] theorem Cluster.onCore_clockAcc (k : Cluster) (i : Nat) (f : Core → Core) : (k.onCore i f).clockAcc = k.clockAcc := rfl
@[simp] theorem Cluster.onCore_ticks (k : Cluster) (i : Nat) (f : Core → Core) : (k.onCore i f).ticks = k.ticks := rfl
@[simp] theorem Cluster.onCore_inService (k : Cluster) (i : Nat) (f : Core → Core) : (k.onCore i f).inService = k.inService := rfl
@[simp] theorem Cluster.onCore_tm (k : Cluster) (i : Nat) (f : Core → Core) : (k.onCore i f).tm = k.tm := rfl
@[simp] theorem Cluster.onCore_tmDirty (k : Cluster) (i : Nat) (f : Core → Core) : (k.onCore i f).tmDirty = k.tmDirty := rfl
@[simp] theorem Cluster.onCore_buf (k : Cluster) (i : Nat) (f : Core → Core) : (k.onCore i f).buf = k.buf := rfl
@[simp] theorem Cluster.onCore_active (k : Cluster) (i : Nat) (f : Core → Core) : (k.onCore i f).active = k.active := rfl
@[simp] theorem Cluster.onCore_lastStart (k : Cluster) (i : Nat) (f : Core → Core) : (k.onCore i f).lastStart = k.lastStart := rfl
@[simp] theorem Cluster.onCore_lastStream (k : Cluster) (i : Nat) (f : Core → Core) : (k.onCore i f).lastStream = k.lastStream := rfl
@[simp] theorem Cluster.onCore_doneCmds (k : Cluster) (i : Nat) (f : Core → Core) : (k.onCore i f).doneCmds = k.doneCmds := rfl
@[simp] theorem Cluster.onCore_nextCmd (k : Cluster) (i : Nat) (f : Core → Core) : (k.onCore i f).nextCmd = k.nextCmd := rfl
@[simp] theorem Cluster.onCore_addrQ (k : Cluster) (i : Nat) (f : Core → Core) : (k.onCore i f).addrQ = k.addrQ := rfl
@[simp] theorem Cluster.onCore_unclaimed (k : Cluster) (i : Nat) (f : Core → Core) : (k.onCore i f).unclaimed = k.unclaimed := rfl
@[simp] theorem Cluster.onCore_egen (k : Cluster) (i : Nat) (f : Core → Core) : (k.onCore i f).egen = k.egen := rfl
@[simp] theorem Cluster.onCore_winW (k : Cluster) (i : Nat) (f : Core → Core) : (k.onCore i f).winW = k.winW := rfl
@[simp] theorem Cluster.onCore_inits (k : Cluster) (i : Nat) (f : Core → Core) : (k.onCore i f).inits = k.inits := rfl
@[simp] theorem Cluster.onCore_parrs (k : Cluster) (i : Nat) (f : Core → Core) : (k.onCore i f).parrs = k.parrs := rfl
@[simp] theorem Cluster.onCore_penUpds (k : Cluster) (i : Nat) (f : Core → Core) : (k.onCore i f).penUpds = k.penUpds := rfl
@[simp] theorem Cluster.onCore_posted (k : Cluster) (i : Nat) (f : Core → Core) : (k.onCore i f).posted = k.posted := rfl
@[simp] theorem Cluster.onCore_grpFault (k : Cluster) (i : Nat) (f : Core → Core) : (k.onCore i f).grpFault = k.grpFault := rfl
@[simp] theorem Cluster.onCore_nextPost (k : Cluster) (i : Nat) (f : Core → Core) : (k.onCore i f).nextPost = k.nextPost := rfl
@[simp] theorem Cluster.onCore_relAfter (k : Cluster) (i : Nat) (f : Core → Core) : (k.onCore i f).relAfter = k.relAfter := rfl
@[simp] theorem Cluster.onCore_relFence (k : Cluster) (i : Nat) (f : Core → Core) : (k.onCore i f).relFence = k.relFence := rfl
@[simp] theorem Cluster.onCore_relaxed (k : Cluster) (i : Nat) (f : Core → Core) : (k.onCore i f).relaxed = k.relaxed := rfl
@[simp] theorem Cluster.onCore_upd (k : Cluster) (i : Nat) (f : Core → Core) : (k.onCore i f).upd = k.upd := rfl
@[simp] theorem Cluster.onCore_far (k : Cluster) (i : Nat) (f : Core → Core) : (k.onCore i f).far = k.far := rfl
@[simp] theorem Cluster.onCore_penAcc (k : Cluster) (i : Nat) (f : Core → Core) : (k.onCore i f).penAcc = k.penAcc := rfl
@[simp] theorem Cluster.onCore_penVc (k : Cluster) (i : Nat) (f : Core → Core) : (k.onCore i f).penVc = k.penVc := rfl
@[simp] theorem Cluster.onCore_drains (k : Cluster) (i : Nat) (f : Core → Core) : (k.onCore i f).drains = k.drains := rfl
@[simp] theorem Cluster.onCore_vc (k : Cluster) (i : Nat) (f : Core → Core) : (k.onCore i f).vc = k.vc := rfl
@[simp] theorem Cluster.onCore_tlb (k : Cluster) (i : Nat) (f : Core → Core) : (k.onCore i f).tlb = k.tlb := rfl
@[simp] theorem Cluster.onCore_ending (k : Cluster) (i : Nat) (f : Core → Core) : (k.onCore i f).ending = k.ending := rfl
@[simp] theorem Cluster.onCore_rft (k : Cluster) (i : Nat) (f : Core → Core) : (k.onCore i f).rft = k.rft := rfl
@[simp] theorem Cluster.onCore_issued (k : Cluster) (i : Nat) (f : Core → Core) : (k.onCore i f).issued = k.issued := rfl
@[simp] theorem Cluster.onCore_hurt (k : Cluster) (i : Nat) (f : Core → Core) : (k.onCore i f).hurt = k.hurt := rfl
@[simp] theorem Cluster.onCore_holdFault (k : Cluster) (i : Nat) (f : Core → Core) : (k.onCore i f).holdFault = k.holdFault := rfl
@[simp] theorem Cluster.onCore_soft (k : Cluster) (i : Nat) (f : Core → Core) : (k.onCore i f).soft = k.soft := rfl

/-! ### Results of a core are queued -/

@[simp] theorem Core.fly_v (x : Core) (es : List PEntry) : (x.fly es).v = x.v := rfl
@[simp] theorem Core.fly_p (x : Core) (es : List PEntry) : (x.fly es).p = x.p := rfl
@[simp] theorem Core.fly_a (x : Core) (es : List PEntry) : (x.fly es).a = x.a := rfl
@[simp] theorem Core.fly_dPts (x : Core) (es : List PEntry) : (x.fly es).dPts = x.dPts := rfl
@[simp] theorem Core.fly_dWords (x : Core) (es : List PEntry) : (x.fly es).dWords = x.dWords := rfl
@[simp] theorem Core.fly_ft (x : Core) (es : List PEntry) : (x.fly es).ft = x.ft := rfl
@[simp] theorem Core.fly_m (x : Core) (es : List PEntry) : (x.fly es).m = x.m := rfl
@[simp] theorem Core.fly_lin (x : Core) (es : List PEntry) : (x.fly es).lin = x.lin := rfl
@[simp] theorem Core.fly_stale (x : Core) (es : List PEntry) : (x.fly es).stale = x.stale := rfl
@[simp] theorem Core.fly_edge (x : Core) (es : List PEntry) : (x.fly es).edge = x.edge := rfl
@[simp] theorem Core.fly_plane0 (x : Core) (es : List PEntry) : (x.fly es).plane0 = x.plane0 := rfl
@[simp] theorem Core.fly_plane1 (x : Core) (es : List PEntry) : (x.fly es).plane1 = x.plane1 := rfl
@[simp] theorem Core.fly_spm (x : Core) (es : List PEntry) : (x.fly es).spm = x.spm := rfl
@[simp] theorem Core.fly_spTag (x : Core) (es : List PEntry) : (x.fly es).spTag = x.spTag := rfl
@[simp] theorem Core.fly_bst (x : Core) (es : List PEntry) : (x.fly es).bst = x.bst := rfl
@[simp] theorem Core.fly_bstTag (x : Core) (es : List PEntry) : (x.fly es).bstTag = x.bstTag := rfl
@[simp] theorem Core.fly_poisonOrg (x : Core) (es : List PEntry) : (x.fly es).poisonOrg = x.poisonOrg := rfl
@[simp] theorem Core.fly_gq (x : Core) (es : List PEntry) : (x.fly es).gq = x.gq := rfl
@[simp] theorem Core.fly_dstat (x : Core) (es : List PEntry) : (x.fly es).dstat = x.dstat := rfl
@[simp] theorem Core.fly_streams (x : Core) (es : List PEntry) : (x.fly es).streams = x.streams := rfl
@[simp] theorem Core.fly_loads (x : Core) (es : List PEntry) : (x.fly es).loads = x.loads := rfl
@[simp] theorem Core.fly_bankUpds (x : Core) (es : List PEntry) : (x.fly es).bankUpds = x.bankUpds := rfl
@[simp] theorem Core.fly_lastStream (x : Core) (es : List PEntry) : (x.fly es).lastStream = x.lastStream := rfl
@[simp] theorem Core.fly_inputFree (x : Core) (es : List PEntry) : (x.fly es).inputFree = x.inputFree := rfl
@[simp] theorem Core.fly_diagFree (x : Core) (es : List PEntry) : (x.fly es).diagFree = x.diagFree := rfl
@[simp] theorem Core.fly_retired (x : Core) (es : List PEntry) : (x.fly es).retired = x.retired := rfl
@[simp] theorem Core.fly_gen (x : Core) (es : List PEntry) : (x.fly es).gen = x.gen := rfl
@[simp] theorem Core.fly_bad (x : Core) (es : List PEntry) : (x.fly es).bad = x.bad := rfl
@[simp] theorem Core.fly_hurt (x : Core) (es : List PEntry) : (x.fly es).hurt = x.hurt := rfl
@[simp] theorem Core.fly_upset (x : Core) (es : List PEntry) : (x.fly es).upset = x.upset := rfl
@[simp] theorem Core.fly_dirty (x : Core) (es : List PEntry) : (x.fly es).dirty = x.dirty := rfl
@[simp] theorem Core.fly_dirtyAll (x : Core) (es : List PEntry) : (x.fly es).dirtyAll = x.dirtyAll := rfl

/-! ### Clusters read back -/

@[simp] theorem State.cl_setCl_same (s : State) (c : Nat) (k : Cluster) (h : c < s.clusters.length) : (s.setCl c k).cl c = k := by
  simp [State.cl, State.setCl, List.getD, h]
@[simp] theorem State.cl_setCl_other (s : State) (c d : Nat) (k : Cluster) (h : c ≠ d) : (s.setCl c k).cl d = s.cl d := by
  simp [State.cl, State.setCl, List.getD, h]
@[simp] theorem State.cl_onCl_same (s : State) (c : Nat) (f : Cluster → Cluster) (h : c < s.clusters.length) : (s.onCl c f).cl c = f (s.cl c) :=
  State.cl_setCl_same s c _ h
@[simp] theorem State.cl_onCl_other (s : State) (c d : Nat) (f : Cluster → Cluster) (h : c ≠ d) : (s.onCl c f).cl d = s.cl d :=
  State.cl_setCl_other s c d _ h
@[simp] theorem State.setCl_length (s : State) (c : Nat) (k : Cluster) : (s.setCl c k).clusters.length = s.clusters.length := by
  simp [State.setCl]
@[simp] theorem State.onCl_length (s : State) (c : Nat) (f : Cluster → Cluster) : (s.onCl c f).clusters.length = s.clusters.length :=
  State.setCl_length s c _
theorem State.me_onMe (s : State) (f : Cluster → Cluster) (h : s.cur.cl < s.clusters.length) : (s.onMe f).me = f s.me :=
  State.cl_onCl_same s s.cur.cl f h

/-! ### Cores read back -/

theorem Cluster.core_onCores (k : Cluster) (m : BitVec 256) (f : Nat → Core → Core) (i : Nat) (h : i < k.cores.length) :
    (k.onCores m f).core i = if m.getLsbD i then f i (k.core i) else k.core i := by
  simp [Cluster.core, Cluster.onCores, List.getD, h]
theorem Cluster.core_onActive (k : Cluster) (f : Nat → Core → Core) (i : Nat) (h : i < k.cores.length) :
    (k.onActive f).core i = if k.cmsk.getLsbD i then f i (k.core i) else k.core i := Cluster.core_onCores k k.cmsk f i h

/-! ### What the shared operations answer -/

theorem State.guard_none (s : State) (f : State → State) : s.guard none f = .next (f s) := rfl
theorem State.guard_some (s : State) (t : TrapInfo) (f : State → State) : s.guard (some t) f = .next (s.issueTrap s.cur.cl t) := rfl
theorem State.guard_next (s : State) (t : Option TrapInfo) (f : State → State) : ∃ u, s.guard t f = .next u := by
  cases t <;> exact ⟨_, rfl⟩
theorem State.sOut_next (s : State) (sd : BitVec 5) (v : Word) (lat : Nat) : s.sOut sd v lat = .next (s.sResult sd v lat) := rfl
theorem State.bOut_next (s : State) (bd : BitVec 3) (v : Bool) : s.bOut bd v = .next (s.bResult bd v) := rfl
theorem State.aOut_next (s : State) (ad : BitVec 4) (f : Nat → Core → BitVec 32) :
    s.aOut ad f = .next (s.onActive fun i x => x.fly [s.me.flyA ad 1 (f i x)]) := rfl

end Sys2Proof.Machine
end

