-- ==== Sys2Proof/Tests/Slice0.lean ====
section
/-!
SUPPORT. Tests: ill-formed terms are refused, words of the encoding tables decode to what they stand for, single steps, and for each statement
with hypotheses a state and operands that meet them.
-/
namespace Sys2Proof.Tests
open Sys2Proof Sys2Proof.Machine
set_option Elab.async false

/-! ### Ill-formed terms -/

def v0 : VSrc := ⟨0#6, 0#2⟩
/-- Control fields that are reserved: mirror with width 1024 (R94). -/
def badCtl : VCtl := ⟨.w1024, true, 0#4⟩
def okCtl : VCtl := ⟨.w1024, false, 0#4⟩
/-- A scope with neither ACQ nor REL (Table 13-2). -/
def badX : XOps := ⟨0#4, 0#5, 0#16, 0#12, 0#5, 0#5, false, false, .die, false⟩
def okX : XOps := ⟨0#4, 0#5, 0#16, 0#12, 0#5, 0#5, false, false, .cluster, false⟩
def peerNone : PeerEx := ⟨1#12, 0#12, 0#3⟩
def chunk0 : ChunkEx := ⟨0#12, .none, 0#4, 0#3⟩
def peer0 : PeerEx := ⟨0#12, 0#12, 0#3⟩

theorem test_wf_scalar : (Instr.wf (.fop .not 0#3 0#3 7#3) || Instr.wf (.nopn 0#21) || Instr.wf (.loop 0#16) ||
    Instr.wf (.atom .add true true true .none .cluster 0#5 0#5 0#5) || Instr.wf (.atom .cas false true false .none .cluster 0#5 0#5 0#5) ||
    Instr.wf (.atom .add false true false .none .cluster 1#5 0#5 0#5) || Instr.wf (.srr 0#5 9#12) || Instr.wf (.srw 0x60#12 0#5)) = false := by decide
theorem test_wf_load : (Instr.wf (.vlds 0#6 0#4 0#4 none 0#6) || Instr.wf (.vupd .xor .f32 v0 0#4 0#4 0#4)) = false := by decide
theorem test_wf_vector : (Instr.wf (.vadd badCtl .w8 false false 0#6 v0 v0) || Instr.wf (.vred badCtl (.int .add .w8) 0#6 v0) ||
    Instr.wf (.vred okCtl (.int .fadd .w8) 0#6 v0) || Instr.wf (.vscan badCtl (.fp .fmax .f32) true 0#6 v0) ||
    Instr.wf (.vscan okCtl (.fp .add .f32) true 0#6 v0) || Instr.wf (.vmov okCtl .w8 1#6 63#6 v0) || Instr.wf (.vmov okCtl .w8 1#6 0#6 ⟨63#6, 0#2⟩) ||
    Instr.wf (.vmov badCtl .w8 0#6 0#6 v0) || Instr.wf (.vchk .w1024 true .f32 false 0#5 0#4 v0 v0)) = false := by decide
theorem test_wf_array : (Instr.wf (.mdrnk 0#2 (.ft 0#3) 0#6 15#4 false .max 63 2#5 0#6) ||
    Instr.wf (.mdrnk 0#2 (.ft 0#3) 0#6 0#4 false .max 3 3#5 1#6) || Instr.wf (.mdrnk 0#2 (.ft 0#3) 63#6 0#4 false .max 3 0#5 0#6)) = false := by decide
theorem test_wf_copy : (Instr.wf (.xld badX) || Instr.wf (.xpsh true 0#5 1#5) || Instr.wf (.xfil true badX) || Instr.wf (.xcol 0#4 badX) ||
    Instr.wf (.xcol 0#4 { okX with sq := 1#12 }) || Instr.wf (.xcol 0#4 { okX with tm := 1#4 }) || Instr.wf (.xfen { okX with sq := 1#12 }) ||
    Instr.wf (.xfen { okX with sa := 1#5 }) || Instr.wf (.xfen { okX with sb := 1#5 }) || Instr.wf (.xfen badX) || Instr.wf (.xcan true 1#12)) = false := by
  decide
theorem test_wf_rest : (Instr.wf (.dfrw 0#3 ⟨63#6, 0#2⟩) || Instr.wf (.send false true chunk0 peerNone) ||
    Instr.wf (.rrs .add false false true chunk0 peerNone) || Instr.wf (.sig true 0#6 ⟨0#12, 1#12, 0#3⟩) || Instr.wf (.waits 0#6 0#16)) = false := by decide

/-! ### Words of the encoding tables, field by field -/

/-- ADD s4, s5, s6: op 1 in [31:26], sd, sa, sb below it (Table 9-1). -/
theorem test_decode_add : decodeWord (.s (1#6 ++ 4#5 ++ 5#5 ++ 6#5 ++ 0#11)) = .ok (.add 4#5 5#5 6#5) := by decide +kernel
theorem test_decode_atom : decodeWord (.s 0xC08532D8#32) = .ok (.atom .add false true true .ar .device 4#5 5#5 6#5) := by decide +kernel
/-- AADDI a1, a1, 128 (Table 9-7). -/
theorem test_decode_aaddi : decodeWord (.a (3#6 ++ 1#4 ++ 1#4 ++ 128#18)) = .ok (.aaddi 1#4 1#4 128#18) := by decide +kernel
theorem test_decode_ftw : decodeWord (.a 0x2C88000E#32) = .ok (.ftwField 2#3 .t 14#11) := by decide +kernel
theorem test_decode_vld : decodeWord (.l 0x047202C2#32) = .ok (.vld 7#6 2#4 0#4 (some 3#3) 2#6) := by decide +kernel
theorem test_decode_fadd : decodeWord (.v 0x414041810010#48) = .ok (.fadd okCtl .f32 40#6 ⟨2#6, 0#2⟩ ⟨3#6, 1#2⟩) := by decide +kernel
theorem test_decode_mrow : decodeWord (.m 0x0D91A205000040E9#64) = .ok (.mrow .mac 1#2 (.lc 1) true ⟨40#6, 2#2⟩ 5#6 .entry 64#7 ⟨41#6, 3#2⟩) := by
  decide +kernel
theorem test_decode_xld : decodeWord (.x 0x04E8019000A84840#64) = .ok (.xld ⟨3#4, 20#5, 200#16, 5#12, 8#5, 9#5, false, false, .cluster, true⟩) := by
  decide +kernel
theorem test_decode_dmax : decodeWord (.d 0x134A0000#32) = .ok (.dmax .tags 6#3 4#3 5#3) := by decide +kernel
theorem test_decode_send : decodeWord (.bz 0x040040001F400040#64) = .ok (.send true false ⟨0#12, .plus, 15#4, 1#3⟩ ⟨1#12, 0#12, 0#3⟩) := by
  decide +kernel
/-- Op 0 of the S slot is NOP only as the zero word (R83, R111). -/
theorem test_decode_reserved : ∃ e, decodeWord (.s 1#32) = .error e := ⟨_, rfl⟩

/-! ### States to start from -/

def run0 : RunId := {
  task := 0, gang := 0, member := 0, leaf := 0, ctx := 0#12, desc := 0x8000000000200000#64, prio := 0#3, rngm := 0#2, ckpt := 0, tgSize := 1
  startCt := 0, priv := false, logged := 0, logFlag := false }
/-- A cluster with one core, which is active, and a run. -/
def k0 : Cluster := { Cluster.reset with cores := [Core.reset], cmsk := 1#256, run := some run0 }
/-- A device of one such cluster. -/
def on (k : Cluster) : State := { State.reset with clusters := [k] }
/-- The same with context 0 mapped one to one. -/
def mapped (k : Cluster) : State := { State.reset.withFetchWord 64 0 with clusters := [k], agenda := [] }
/-- s1 and s2 of a cluster. -/
def sRegs (a b : Word) : List Word := [0#64, a, b] ++ List.replicate 29 0#64
/-- Operands in s1 and s2. -/
def ops (a b : Word) : State := on { k0 with s := sRegs a b }
def banked0 : Banked := {
  pc := 0#57, cmsk := 0#256, loops := [], lc := [], rrbv := 0#5, rrbp := 0#3, gqctl := false, simg := [], tmw := [], ftw := [], pipes := [], inits := []
  parrs := [], pend := [], cps := [], ports := [], groups := [], lastD := none, lastMchk := none, lastBf := none, delay := none, nopLeft := 0
  streams := [], loads := [], bankUpds := [], drains := [], lastStream := [], inputFree := [], diagFree := [], inEnd := false, aq := true }
/-- In handler mode. -/
def kH : Cluster := { k0 with handler := some banked0 }
def priv0 : RunId := { run0 with priv := true }
def kP : Cluster := { k0 with run := some priv0 }
theorem snd_of {α β : Type} {p : α × β} {a : α} (h : p.1 = a) : ∃ b, p = (a, b) := ⟨p.2, by subst h; rfl⟩

/-! ### One step each -/

/-- NOP's bundle, at the head of the agenda, advances PC by its 5 bytes. -/
theorem test_step_nop : (match step (State.reset.withFetchWord 40 1) with | .next t => (t.cl 0).pc | _ => 0#57) = 5#57 := by decide +kernel
/-- ADD s1 = s1 + s2 wraps, and lands a cycle on. -/
theorem test_add_wraps : (match exec (.add 1#5 1#5 2#5) (ops (BitVec.allOnes 64) 2#64) with | .next t => t.me.simg | _ => []) =
    [⟨.s 1#5, 1#256, 1⟩] := by decide +kernel
/-- MULH of two negative numbers is the high half of a positive product. -/
theorem test_mulh_signed : (match exec (.mulh true 3#5 1#5 2#5) (ops (BitVec.allOnes 64) (BitVec.allOnes 64)) with | .next t => t.me.simg | _ => []) =
    [⟨.s 3#5, 0#256, 3⟩] := by decide +kernel
/-- SHL by 65 shifts by 1. -/
theorem test_shl_modulo : (match exec (.shl 3#5 1#5 2#5) (ops 3#64 65#64) with | .next t => t.me.simg | _ => []) = [⟨.s 3#5, 6#256, 1⟩] := by
  decide +kernel
/-- LDIH puts its half at bits 63 to 48 and keeps the rest. -/
theorem test_ldih : (match exec (.ldih 1#5 3#2 0xABCD#16) (ops 0x1111222233334444#64 0#64) with | .next t => t.me.simg | _ => []) =
    [⟨.s 1#5, 0xABCD222233334444#256, 1⟩] := by decide +kernel
/-- A soft trap of a run with no handler goes to the supervisor, and the run ends. -/
theorem test_trap_report : (match exec .rft (on k0) with | .next t => ((t.cl 0).run.isNone, t.outbox.length) | _ => (false, 0)) = (true, 1) := by
  decide +kernel
/-- A core's sum of address registers, on the active core alone. -/
theorem test_aaddi : (match exec (.aaddi 1#4 0#4 0x3FFFF#18) (on k0) with | .next t => (t.me.core 0).pipe.map (·.val) | _ => []) =
    [0xFFFFFFFF#256] := by decide +kernel
/-- 2.0 + 1.5 = 3.5 in every f32 element. -/
theorem test_fadd : (match exec (.fadd ⟨.w256 0#2, false, 0#4⟩ .f32 3#6 ⟨1#6, 0#2⟩ ⟨2#6, 1#2⟩) (on { k0 with
      cores := [{ Core.reset with v := [0#1024, 0x40000000#1024, 0x3FC00000#1024] ++ List.replicate 61 0#1024 }] }) with
    | .next t => (t.me.core 0).pipe.map (fun e => e.val.extractLsb' 0 32) | _ => []) = [0x40600000#32] := by decide +kernel
/-- Saturation of a signed byte sum. -/
theorem test_vadd_saturates : (match exec (.vadd ⟨.w256 0#2, false, 0#4⟩ .w8 true true 3#6 ⟨1#6, 0#2⟩ ⟨1#6, 1#2⟩) (on { k0 with
      cores := [{ Core.reset with v := [0#1024, 0x7F80#1024] ++ List.replicate 62 0#1024 }] }) with
    | .next t => (t.me.core 0).pipe.map (fun e => e.val.extractLsb' 0 16) | _ => []) = [0x7F80#16] := by decide +kernel
/-- The worked example of R231: one arrival and 256 units flip the phase and reload the counts; 512 units set OVF as well. -/
theorem test_pennant_flips : let p := pennantInit 0x400001#64
    pennantMerge p 1 256 = p ^^^ 0x8000000000000000#64 ∧ pennantMerge p 1 512 = p ^^^ 0xC000000000000000#64 := by decide +kernel
/-- A Bozoak SETV writes its register and the word completes. -/
theorem test_setv : (match exec (.setv 2#3 7#32) State.reset with | .next t => ((t.bzc 0).g.getD 2 0#32, (t.bzc 0).pc) | _ => (0#32, 0#57)) =
    (7#32, 8#57) := by decide +kernel
/-- The check word of the bytes "123456789" (CRC-32C). -/
theorem test_crc32c : crc32c ((List.range 9).map fun i => BitVec.ofNat 8 (0x31 + i)) = 0xE3069283#32 := by decide +kernel

/-! ### States and operands that meet the hypotheses of the statements, clause by clause -/

theorem witness_EncodedInstructionDecodes : Instr.wf (.add 4#5 5#5 6#5) = true ∧ Instr.isEvent (.add 4#5 5#5 6#5) = false := ⟨rfl, rfl⟩
/-- An empty header, one that crosses at offset 60, and one that ends at byte 64. -/
theorem witness_BundleFraming : ([] : List Byte).getD 0 0#8 = 0#8 ∧ 64 < 60 + bundleLen 1#8 ∧ 59 + bundleLen 1#8 ≤ 64 := by decide
theorem witness_StepRunsEvent : ({ State.reset with agenda := [.event .nop] } : State).agenda = .event .nop :: [] := rfl
def atNop : State := State.reset.withFetchWord 40 1
def atNop0 : State := { atNop with agenda := [], cur := ⟨0, .s, 0⟩ }
def atNop1 : State := atNop0.onCl 0 Cluster.trimWin
set_option maxRecDepth 20000 in
theorem witness_StepRunsBundle : atNop.agenda = .issue 0 :: [] ∧ atNop0.mayIssue 0 ∧ (atNop1.cl 0).fetches1 5 [(.s, .ok .nop)] ∧
    atNop1.clear 0 [(.s, .ok .nop)] :=
  ⟨rfl, ⟨rfl, rfl, by decide, rfl, rfl, rfl, rfl, rfl, rfl, rfl⟩, ⟨0, 1#512, by decide +kernel, rfl⟩,
    ⟨by decide +kernel, by decide +kernel, by decide +kernel, by decide +kernel, rfl⟩⟩
/-- A cluster all of whose words are good, with no link to come, and one whose s1 has an error that the instruction would read. -/
theorem witness_StepRunsWords : k0.whole ∧ (atNop1.cl 0).linkPend = none ∧ ({ k0 with hurt := [.s 1#5] } : Cluster).seqHurt (.add 3#5 1#5 2#5) = true := by
  unfold Cluster.whole; decide +kernel
theorem witness_StepRunsOneSlot : atNop.agenda = .issue 0 :: [] ∧ atNop0.mayIssue 0 ∧ (atNop1.cl 0).fetches1 5 [(.s, .ok .nop)] ∧
    atNop1.clear 0 [(.s, .ok .nop)] ∧
    ∃ t, exec .nop ((atNop1.onCl 0 fun k => { k.reservePorts [(.s, .nop)] with next := k.pc + BitVec.ofNat 57 5 }).at' .s) = .next t :=
  ⟨witness_StepRunsBundle.1, witness_StepRunsBundle.2.1, witness_StepRunsBundle.2.2.1, witness_StepRunsBundle.2.2.2, _, rfl⟩
def atWord : State := State.reset.withFetchWord 64 0x3C00000000000000
theorem witness_StepRunsBozoakWord : atWord.agenda = .bzFetch 0 :: [] ∧ (atWord.bzc 0).st = .running ∧ (atWord.bzc 0).stopping = false ∧
    (atWord.bzc 0).overrun = false ∧ ∃ t, ({ atWord with agenda := [], cur := { atWord.cur with bz := 0 } } : State).hWord (atWord.bzc 0).ctx (atWord.bzc 0).pc.toNat =
      (some 0x3C00000000000000#64, t) := ⟨rfl, rfl, rfl, rfl, snd_of (by decide +kernel)⟩
theorem witness_StepAdvancesTime : State.reset.agenda = [] ∧ 15 < State.reset.clusters.length := ⟨rfl, by decide⟩
def running : State := { State.reset with agenda := [.event .nop] }
theorem witness_StepKeepsSoundness : running.Inv ∧ step running = .next { running with agenda := [] } :=
  ⟨⟨⟨rfl, rfl⟩, ⟨rfl, rfl, rfl⟩, by unfold State.limitsOk; decide⟩, rfl⟩
theorem witness_FlagOperations : (7#3 : BitVec 3) ≠ 0#3 := by decide
def lv0 : LoopLv := ⟨2#32, 0#57, 0, false⟩
/-- A window of one line whose first two bundles are NOPs. -/
def callOn : State := on { k0 with win := [(0, 1#512 ||| (1#512 <<< 40))] }
theorem witness_TransfersAndLoops : (CF.taken .always (on k0).me.flag = true ∧ CF.taken (.ifSet 7#3) (on k0).me.flag = false) ∧
    farRange ((ops (BitVec.ofNat 64 (2 ^ 57 - 1)) 0#64).sx 1#5) = false ∧ ((on k0).me.loops.length ≠ 6 ∧ (0xFFFF#16) ≠ 0#16) ∧
    ((ops 0xFFFFFFFF#64 0#64).me.loops.length ≠ 6 ∧ (ops 0xFFFFFFFF#64 0#64).sx 1#5 ≠ 0#64 ∧ ((ops 0xFFFFFFFF#64 0#64).sx 1#5).toNat < 2 ^ 32) ∧
    (on { k0 with loops := [lv0] }).me.loops = lv0 :: [] ∧
    ((callOn.afterBundle 0 callOn.me.next).1 = some 5#57 ∧ ((callOn.afterBundle 0 callOn.me.next).2.afterBundle 0 5#57).1 = some 10#57) ∧
    ((callOn.linkOf).1 = some 10#57 ∧ ((on k0).linkOf).1 = none) ∧
    ((on { k0 with linkPend := some (31#5, false) }).cl 0).linkPend = some (31#5, ((on { k0 with linkPend := some (31#5, false) }).cl 0).handler.isSome) := by
  decide +kernel
/-- The last pennant of the cluster, its phase off; the last address of a bitmap word. -/
def penTop : State := ops (BitVec.ofNat 64 (2 ^ 26 - 8)) 0#64
def bitTop : State := ops (BitVec.ofNat 64 (2 ^ 57 - 8)) 63#64
theorem witness_WaitsAndPennants : ((on k0).me.tgSize ≤ 1 ∧ 1 < (on { k0 with run := some { run0 with tgSize := 2 } }).me.tgSize) ∧
    ((penTop.sx 1#5).toNat < 2 ^ 26 ∧ (penTop.sx 1#5).toNat % 8 = 0 ∧ penTop.me.penSample (penTop.sx 1#5).toNat true = .differs ∧
      penTop.me.penSample (penTop.sx 1#5).toNat ((penTop.sx 2#5).getLsbD 0) = .waits) ∧
    (on { k0 with cores := [{ Core.reset with spm := [(7, 0x40#8)] }] }).me.penSample 0 false = .overflow ∧
    ((bitTop.sx 1#5).toNat + 8 * ((bitTop.sx 2#5).toNat / 64) < 2 ^ 57 ∧ (bitTop.sx 1#5).toNat % 8 = 0) := by decide +kernel
def farTop : State := ops (BitVec.ofNat 64 (2 ^ 57 - 128)) 0#64
theorem witness_FarAccesses : ((farTop.sx 1#5 + (120#12).signExtend 64).toNat < 2 ^ 57 ∧ (farTop.sx 1#5 + (120#12).signExtend 64).toNat % MSize.bytes .b8 = 0) ∧
    ((farTop.sx 1#5).toNat < 2 ^ 57 ∧ (farTop.sx 1#5).toNat % 128 = 0) := by decide +kernel
theorem witness_ScalarTraps : ((on { k0 with loops := List.replicate 6 lv0 }).me.loops.length = 6 ∧ (on k0).me.loops = []) ∧
    ((on k0).me.loops.length ≠ 6 ∧ (on k0).sx 1#5 = 0#64 ∧ 2 ^ 32 ≤ ((ops 0x100000000#64 0#64).sx 1#5).toNat) ∧
    (2 ^ 57 ≤ ((ops (BitVec.ofNat 64 (2 ^ 57 - 1)) 0#64).sx 1#5 + (1#12).signExtend 64).toNat) ∧
    ((farTop.sx 1#5 + (1#12).signExtend 64).toNat < 2 ^ 57 ∧ (farTop.sx 1#5 + (1#12).signExtend 64).toNat % MSize.bytes .b2 ≠ 0) ∧
    ((on { k0 with tm := [] , cores := [{ Core.reset with a := 1#32 :: List.replicate 15 0#32 }] }).me.firstBad
      fun _ x => decide ((on { k0 with cores := [{ Core.reset with a := 1#32 :: List.replicate 15 0#32 }] }).me.farAddr x 0#4 0#4 0#6 % 128 ≠ 0)) = some 0 ∧
    (2 ^ 57 ≤ ((ops (BitVec.ofNat 64 (2 ^ 57)) 0#64).sx 1#5).toNat ∧ 2 ^ 26 ≤ ((ops 0x4000000#64 0#64).sx 1#5).toNat ∧
      ((ops 0x3FFFFFC#64 0#64).sx 1#5).toNat < 2 ^ 26 ∧ ((ops 0x3FFFFFC#64 0#64).sx 1#5).toNat % 8 ≠ 0 ∧ ((ops 0x3FFFFFC#64 0#64).sx 1#5).toNat % 128 ≠ 0) ∧
    2 ^ 57 ≤ (bitTop.sx 1#5).toNat + 8 * (((ops 0#64 64#64).sx 2#5).toNat / 64) ∧
    (selAssigned 0x60#12 = false ∧ (on k0).me.priv = false ∧ (on k0).mEntry (.mdiag 0#6) = none ∧
      (on k0).mEntry (.mspr 0#6 true 65) = none ∧ (on k0).me.injOk = false) ∧
    (selAssigned 0x5F#12 = true ∧ 0x5F#12 ∉ [2#12, 4#12, 6#12, 7#12, 8#12, 0x14#12, 0x18#12]) := by decide +kernel
def drain0 : Drain := ⟨false, 0#2, 0, 100, 1#256, 5#4, none, [], [], [], false, [], ⟨0#57, 0⟩, .mdrn 0#2 (.ft 0#3) 0 false false 5#4 none, []⟩
theorem witness_SystemAndRunControl : (selAssigned 0x5F#12 = true ∧ selAssigned 0#12 = true ∧ ¬(0x40 ≤ (0#12 : BitVec 12).toNat ∧ (0#12 : BitVec 12).toNat ≤ 0x5F)) ∧
    ((on kP).me.priv = true ∧ (on kP).me.injOk = true) ∧ (on { k0 with drains := [drain0] }).me.drainOn ((0x55#12 : BitVec 12).setWidth 4) = true ∧
    (on k0).me.drainOn ((0x5F#12 : BitVec 12).setWidth 4) = false ∧ (0x40 ≤ (0x4F#12 : BitVec 12).toNat ∧ (0x4F#12 : BitVec 12).toNat ≤ 0x4F) ∧
    ((on kH).me.handler.isSome = true ∧ (on kH).me.quiet = true ∧ (on { kH with drains := [drain0] }).me.quiet = false ∧ (on k0).me.handler = none) := by
  decide +kernel
theorem witness_AddressSlot : tmSigned 41 = false ∧ tmSigned 34 = true := by decide
/-- A core whose a1 holds an address. -/
def aCore (a : BitVec 32) : Core := { Core.reset with a := [0#32, a] ++ List.replicate 14 0#32 }
def aOn (a : BitVec 32) : State := on { k0 with cores := [aCore a] }
theorem witness_NearAccesses : (on k0).lCheck ((on k0).me.accVld 1#4 0#4 0#6) = none ∧ (on k0).lCheck ((on k0).me.accVldb 1#4 0#4 0#6) = none ∧
    (on k0).lCheck ((on k0).me.accVlds 1#4 0#4 1#6) = none ∧ (on k0).lCheck ((on k0).me.accVldx true 1#4 0#4 v0) = none ∧
    (on k0).lCheck (accP 1#4 0#6) = none ∧ (on k0).lCheck (accD 1#4 0#6) = none := by decide +kernel
/-- A vector at the last address leaves the scratchpads, one at 1 is misaligned, one at 0 passes. -/
theorem witness_NearAccessChecks :
    ((aOn 0x3FFFFC0#32).me.cmsk.getLsbD 0 = true ∧ ((aOn 0x3FFFFC0#32).me.accVld 1#4 0#4 0#6 (aCore 0x3FFFFC0#32)).rangeBad = true) ∧
    ((aOn 1#32).me.accVld 1#4 0#4 0#6 (aCore 1#32)).rangeBad = false ∧ ((aOn 1#32).me.accVld 1#4 0#4 0#6 (aCore 1#32)).alignBad = true ∧
    ((aOn 0#32).me.accVld 1#4 0#4 0#6 (aCore 0#32)).alignBad = false ∧ (aOn 0#32).me.cmsk.getLsbD 255 = false := by decide +kernel
theorem witness_FarVectorAccesses : (aOn 128#32).vfarCheck 0#4 1#4 0#6 = none := by decide +kernel
/-- A core whose format-table entries hold reserved codes. -/
def kRsv : Cluster := { k0 with cores := [{ Core.reset with ft := List.replicate 8 0xFFF#64 }] }
theorem witness_VectorConversionsAndReductions : (on k0).ftCheck (.ft 5#3) qntOk = none ∧ (on k0).ftCheck (.ft 0#3) dqtOk = none ∧
    ((on kRsv).me.firstBad fun _ x => !qntOk ((on kRsv).me.fte x (.ft 5#3))) = some 0 ∧
    ((on kRsv).me.firstBad fun _ x => !dqtOk ((on kRsv).me.fte x (.ft 0#3))) = some 0 := by decide +kernel
/-- Runs of registers that end at 63, and one past it. -/
theorem witness_VectorMovements : ISz.w32 ≠ ISz.w64 ∧ ((60#6 : BitVec 6).toNat + (3#6 : BitVec 6).toNat ≤ 63) ∧
    (63 < (60#6 : BitVec 6).toNat + (4#6 : BitVec 6).toNat) := by decide
def planeK : PFmt := .code 1#4
def mOn (f : PFmt) : State := on { k0 with cores := [{ Core.reset with plane0 := ⟨f, [], [], []⟩ }] }
theorem witness_ArrayStreams : (on k0).mCheck (.mbld (.ft 3#3) false none 1#4 0#12) = none ∧ (on k0).mCheck (.mbldh true) = none ∧
    (mOn planeK).mCheck (.mrow .mac 0#2 (.ft 3#3) false v0 0#6 .zero 0#7 v0) = none ∧
    (mOn planeK).mCheck (.mchk 0#2 (.ft 3#3) false none .entry) = none ∧ (mOn .had).mCheck (.mrot 1#2 0#2 false 63) = none := by decide +kernel
def full0 : State := on { Cluster.reset with cmsk := 1#256, run := some priv0, tm := [(20, 256#64)] }
theorem witness_ArrayBanksAndDrains : ((on k0).mCheck (.mzero (some 3#2)) = none ∧ (on k0).mCheck (.mzero none) = none ∧ (on k0).mCheck (.macc 0#2 1#2) = none ∧
      (on k0).mCheck (.mrd 0#2 63#6 ⟨true, 2, 64⟩) = none ∧ (on k0).mCheck (.mwr 0#2 v0 ⟨false, 0, 0⟩) = none ∧ (on k0).mCheck (.mstat 0#6 true) = none) ∧
    (full0.cur.cl < full0.clusters.length ∧ full0.me.cores.length = 256 ∧ full0.me.cmsk.getLsbD 0 = true) ∧
    full0.mCheck (.mdrn 0#2 (.ft 3#3) 63 false false 0#4 none) = none ∧ full0.mCheck (.mdrnk 0#2 (.ft 3#3) 0#6 0#4 false .max 63 31#5 32#6) = none ∧
    full0.mCheck (.mdiag 0#6) = none ∧ full0.mCheck (.mspr 0#6 false 65) = none ∧ full0.mCheck (.mspr 0#6 true 65) = none := by decide +kernel
/-- The array of a core taken, its row input taken, its four drains, a bank streamed a cycle ago; an image at the end of the B-store, and a misaligned one. -/
def mWith (x : Core) : State := on { k0 with cores := [x] }
def mrow0 : Instr := .mrow .mac 0#2 (.ft 3#3) false v0 0#6 .zero 0#7 v0
theorem witness_ArrayTraps : Instr.inM mrow0 = true ∧ ({ kH with handler := some { banked0 with aq := false } } : Cluster).handler = some { banked0 with aq := false } ∧
    (mrow0.fsel = some (.ft 3#3) ∧ ((on kRsv).me.firstBad fun _ x => !ftMOk ((on kRsv).me.fte x (.ft 3#3))) = some 0) ∧
    ((on k0).me.firstBad fun _ x => (x.plane false).fmt != .had) = some 0 ∧ ((on k0).mEntry (.mzero none) = none ∧ (on k0).mPriv (.mzero none) = none) ∧
    ((mWith { Core.reset with diagFree := 1 }).me.firstBad fun _ x => decide ((mWith { Core.reset with diagFree := 1 }).me.now < x.diagFree)) = some 0 ∧
    ((mWith { Core.reset with inputFree := 1 }).me.firstBad fun _ x => decide ((mWith { Core.reset with inputFree := 1 }).me.now < x.inputFree)) = some 0 ∧
    ((on { k0 with drains := List.replicate 4 drain0 }).me.firstBad fun n _ =>
      decide (4 ≤ (((on { k0 with drains := List.replicate 4 drain0 }).me.drains.filter fun d => d.cores.getLsbD n).length))) = some 0 ∧
    ((on k0).mOcc (.mbld (.ft 3#3) false none 1#4 0#12) = none ∧
      ((aOn 0x7FFFF#32).me.firstBad fun _ x => decide ((x.areg 1#4 + ((0#12).setWidth 32 <<< 7)).toNat + planeSpan (ftB ((aOn 0#32).me.fte x (.ft 3#3))) > 2 ^ 19)) = some 0 ∧
      ((aOn 1#32).me.firstBad fun _ x => decide ((x.areg 1#4 + ((0#12).setWidth 32 <<< 7)).toNat + planeSpan (ftB ((aOn 0#32).me.fte x (.ft 3#3))) > 2 ^ 19)) = none ∧
      ((aOn 1#32).me.firstBad fun _ x => decide ((x.areg 1#4 + ((0#12).setWidth 32 <<< 7)).toNat % 128 ≠ 0)) = some 0) ∧
    ((mWith { Core.reset with lastStream := [(0, 1)] }).me.firstBad fun _ x => (flushBanks (.mrd 0#2 63#6 ⟨true, 2, 64⟩)).any (x.unflushed 0)) = some 0 := by
  decide +kernel
/-- A drain of core 0 with a status record, a fold and one byte of its tile. -/
def drain1 : Drain := { drain0 with out := [(5, 7#8)], folds := [1#32], bflag := true, stat := [(0, 1#1024)] }
theorem witness_ArrayContents : (swfFrom 0#32 0 Core.reset.m = true ∧ (0 ≤ 64 ∧ 64 ≤ 64)) ∧
    (drain1.col = none ∧ drain1.stat = [(0, 1#1024)] ∧ 0 < (on k0).clusters.length ∧ 0 < ((on k0).cl 0).cores.length ∧ swfFrom 0#64 0 ((on k0).cl 0).tm = true ∧
      drain1.bflag = true ∧ drain1.folds ≠ []) ∧
    ((5, 7#8) ∈ drain1.out ∧ 5 / 2 ^ 18 < k0.cores.length) ∧ [[0#32]][0]? = some [0#32] := by decide +kernel
/-- A map of one row of 32 f32 elements, for core 0. -/
def kRow : Cluster := { k0 with tm := [(4, 1#64), (8, 32#64), (17, 32#64), (18, 1#64), (20, 128#64), (23, 32#64), (24, 1#64)] }
/-- 256 indices fit the address queue, and 255 leave room for one. -/
theorem witness_CopySlot : ((on kRow).xCheck (.xld okX) = none ∧ (on kRow).me.buf.length < 64 ∧
      Instr.xld okX ∈ [Instr.xld okX, .xldw okX, .xst okX, .xput okX, .xb okX, .xgth okX, .xsct okX, .xchn okX, .xpair okX, .xfil true okX, .xcol 0#4 okX,
        .xfen okX]) ∧
    ((on k0).me.handler = none ∧ (on { k0 with addrQ := List.replicate 255 0#32 }).me.addrQ.length < 256 ∧
      (on { k0 with addrQ := List.replicate 254 0#32 }).me.addrQ.length < 255) ∧
    (Instr.inX (.xfen okX) = true ∧ (on kH).me.handler.isSome = true) ∧
    ((on k0).me.handler = none ∧ ((on k0).me.mkCmd (.xld okX) okX).bad (on k0).cur.cl (on k0).me.unclaimed = true) ∧
    256 < (on { k0 with addrQ := List.replicate 256 0#32 }).me.addrQ.length + 1 ∧
    ((on { kRow with buf := List.replicate 64 (kRow.mkCmd (.xfen okX) okX) }).xCheck (.xld okX) = none ∧
      64 ≤ (on { kRow with buf := List.replicate 64 (kRow.mkCmd (.xfen okX) okX) }).me.buf.length) := by decide +kernel
theorem witness_DistributionSlot : (on { k0 with lastD := some 4, dt := 8 }).dCheck = none ∧ (⟨62#6, 0#2⟩ : VSrc).r ≠ 63#6 ∧
    (Instr.inD (.dmov 0#8 0#3 1#3) = true ∧ (on { k0 with lastD := some 4, dt := 7 }).me.lastD = some 4 ∧ (on { k0 with lastD := some 4, dt := 7 }).me.now < 4 + 4) ∧
    (⟨63#6, 0#2⟩ : VSrc).r = 63#6 := by decide +kernel
/-- Context 0 of the Bozoak engine at a word, with the rest of the device as reset leaves it. -/
def bzOn (b : BzCtx) : State := { State.reset with bz := [b] }
def b0 : BzCtx := { BzCtx.reset with st := .running }
theorem witness_BozoakRegisters : (0 ≤ (bzOn b0).bzMe.gi 0#3 ∧ (bzOn b0).bzMe.gi 0#3 < ((bzOn b0).bzMe.size : Int)) ∧
    ((bzOn b0).bzMe.loops.length ≠ 2 ∧ (0x7FFFFFFF#32) ≠ 0#32 ∧ (0x7FFFFFFF#32).getLsbD 31 = false) ∧
    ((bzOn { b0 with loops := [(0#3, 2#32, 0#57)] }).bzMe.loops = (0#3, 2#32, 0#57) :: [] ∧ (1#32).slt 2#32 = true ∧ (1#32).slt 1#32 = false) ∧
    (bzOn b0).inFlight 0 = false := by decide +kernel
theorem witness_BozoakFaults : (bzOn b0).cur.bz < (bzOn b0).bz.length ∧
    (bzOn { b0 with loops := [(0#3, 2#32, 0#57), (1#3, 2#32, 0#57)] }).bzMe.loops.length = 2 ∧ (bzOn b0).bzMe.loops = [] ∧
    ((bzOn { b0 with g := List.replicate 8 (BitVec.allOnes 32) }).bzMe.gi 0#3 < 0 ∧
      ((bzOn { b0 with g := List.replicate 8 1#32 }).bzMe.size : Int) ≤ (bzOn { b0 with g := List.replicate 8 1#32 }).bzMe.gi 0#3) ∧
    (bzOn b0).bzMe.lenOk ((bzOn b0).bzMe.chunk chunk0) = false ∧ (bzOn b0).bzMe.obase = 0 := by decide +kernel
/-- Words of each kind that breaks its rules; a program that stands at one. -/
def atBad : State := State.reset.withFetchWord 64 1
theorem witness_BozoakWordFaults : 16 ≤ ((0x4000000000000000#64).extractLsb' 58 6).toNat ∧
    (((1#64).extractLsb' 58 6).toNat = 0 ∧ (1#64).extractLsb' 0 58 ≠ 0#58) ∧
    (((0x1800000000C00000#64).extractLsb' 58 6).toNat = 6 ∧ (0x1800000000C00000#64).extractLsb' 22 2 = 3#2) ∧
    (((0x1000000000000300#64).extractLsb' 58 6).toNat = 4 ∧ (0x1000000000000300#64).extractLsb' 8 2 = 3#2) ∧
    (((0x1800000000000001#64).extractLsb' 58 6).toNat = 6 ∧ (0x1800000000000001#64).getLsbD 0 = true) ∧
    ((0x80000000#32).getLsbD 31 = true) ∧
    (atBad.bzMe.st = .running ∧ atBad.bzMe.stopping = false ∧ atBad.bzMe.overrun = false ∧
      (∃ t, atBad.hWord atBad.bzMe.ctx atBad.bzMe.pc.toNat = (some 1#64, t)) ∧ ∃ e, decodeWord (.bz 1#64) = .error e) :=
  ⟨by decide, by decide, by decide, by decide, by decide, by decide, rfl, rfl, rfl, snd_of (by decide +kernel), _, rfl⟩
/-- A communicator of one rank with one chunk of 4 bytes, its work buffer at 0x10000, its output area at 0x20000, its landing zone at 0x30000. -/
def b1 : BzCtx := { b0 with
  bind := 0x8000000000000000#64, dsc := (0x10000#512 <<< 263) ||| (0x20000#512 <<< 327), peers := [0x30000#64 <<< 16], chunks := [0x0000000100000004#64] }
def bzMapped (b : BzCtx) : State := { State.reset.withFetchWord 64 0 with bz := [b], agenda := [] }
theorem witness_BozoakCopyLength : ({ b1 with chunks := [] } : BzCtx).obase ≠ 0 ∧ ({ b1 with chunks := [] } : BzCtx).lenOk 0 = false := by decide +kernel
theorem witness_BozoakSends : (bzMapped b1).bzMe.lenOk ((bzMapped b1).bzMe.chunk chunk0) = true ∧ (bzMapped b1).bzMe.obase ≠ 0 ∧
    (∃ t, (bzMapped b1).hRead b1.ctx (b1.dbase + b1.chunk chunk0 * b1.chsz) (b1.len (b1.chunk chunk0)) = (some [0#8, 0#8, 0#8, 0#8], t)) ∧
    (∃ u, (bzMapped b1).hWrite b1.ctx (b1.obase + b1.chunk chunk0 * b1.chsz) [0#8, 0#8, 0#8, 0#8] = (true, u)) :=
  ⟨by decide +kernel, by decide +kernel, snd_of (by decide +kernel), snd_of (by decide +kernel)⟩
/-- The slot of chunk 0 is full: the checksum of four zero bytes, the length 4, and the mark. -/
def full1 : State := { bzMapped b1 with mem := wrBytes (wrBytes (bzMapped b1).mem 0x30000 ((leBytes 4 (crc32c [0#8, 0#8, 0#8, 0#8]).toNat) ++ [4#8])) 0x3000C [1#8] }
def slotHd : List Byte := leBytes 4 (crc32c [0#8, 0#8, 0#8, 0#8]).toNat ++ [4#8, 0#8, 0#8, 0#8, 0#8, 0#8, 0#8, 0#8, 1#8] ++ List.replicate 115 0#8
def full2 : State := (full1.hBytes (.hbm (b1.slot b1.rank (b1.chunk chunk0) false)) 128).2
def full3 : State := (full2.hBytes (.hbm (b1.slot b1.rank (b1.chunk chunk0) false + 128)) 4).2
def full4 : State := (full3.hRead b1.ctx (b1.dbase + b1.chunk chunk0 * b1.chsz) 4).2
theorem witness_BozoakReceives : full1.zoneLost (b1.slot b1.rank (b1.chunk chunk0) false) (128 + b1.len (b1.chunk chunk0)) = false ∧ b1.lzBad = [] ∧ b1.lenOk (b1.chunk chunk0) = true ∧ full1.raw (full1.readAddr (b1.slot b1.rank (b1.chunk chunk0) false + 12)) = 1#8 ∧
    (full1.hBytes (.hbm (b1.slot b1.rank (b1.chunk chunk0) false)) 128).1 = slotHd ∧ leNat ((slotHd.drop 4).take 4) = b1.len (b1.chunk chunk0) ∧
    (full2.hBytes (.hbm (b1.slot b1.rank (b1.chunk chunk0) false + 128)) (b1.len (b1.chunk chunk0))).1 = [0#8, 0#8, 0#8, 0#8] ∧
    leNat (slotHd.take 4) = (crc32c [0#8, 0#8, 0#8, 0#8]).toNat ∧ b1.ckv = false ∧
    (full3.hWrite b1.ctx (b1.dbase + b1.chunk chunk0 * b1.chsz) [0#8, 0#8, 0#8, 0#8]).1 = true ∧
    (full3.hRead b1.ctx (b1.dbase + b1.chunk chunk0 * b1.chsz) (b1.len (b1.chunk chunk0))).1 = some [0#8, 0#8, 0#8, 0#8] ∧
    (full4.hWrite b1.ctx (b1.dbase + b1.chunk chunk0 * b1.chsz) (b1.reduce .add [0#8, 0#8, 0#8, 0#8] [0#8, 0#8, 0#8, 0#8])).1 = true ∧
    b1.reduce .add [0#8, 0#8, 0#8, 0#8] [0#8, 0#8, 0#8, 0#8] = [0#8, 0#8, 0#8, 0#8] := by decide +kernel
/-- A full slot of n bytes with a checksum and a length in its header; one of e4m3 vectors, whose first element and whose working copy's may be nonzero. -/
def slotOn (b : BzCtx) (crc : Nat) (len : Byte) (hi : Byte) (bs loc : List Byte) : State :=
  { bzMapped b with mem := wrBytes (wrBytes (wrBytes (wrBytes (bzMapped b).mem 0x30000 (leBytes 4 crc ++ [len, hi])) 0x3000C [1#8]) 0x30080 bs) 0x10000 loc }
def ckv1 : BzCtx := { b1 with dsc := b1.dsc ||| (0x13#512 <<< 36), chunks := [0x0000000100000144#64] }
def zeros : List Byte := List.replicate 324 0#8
def oneUp : List Byte := 0x38#8 :: List.replicate 323 0#8
theorem witness_BozoakSlotFaults :
    (let s := slotOn b1 0 5#8 0#8 [] []
     b1.lzBad = [] ∧ b1.lenOk (b1.chunk chunk0) = true ∧ s.raw (s.readAddr (0x30000 + 12)) = 1#8 ∧ s.zoneLost 0x30000 132 = false ∧
       b1.slot b1.rank (b1.chunk chunk0) false = 0x30000 ∧ leNat (((s.hBytes (.hbm 0x30000) 128).1.drop 4).take 4) ≠ b1.len (b1.chunk chunk0)) ∧
    (let s := slotOn b1 0 4#8 0#8 [] []
     let t := (s.hBytes (.hbm 0x30000) 128).2
     leNat (((s.hBytes (.hbm 0x30000) 128).1.drop 4).take 4) = b1.len (b1.chunk chunk0) ∧
       leNat ((s.hBytes (.hbm 0x30000) 128).1.take 4) ≠ (crc32c (t.hBytes (.hbm 0x30080) 4).1).toNat) := by decide +kernel
theorem oneUp_fails : ckv1.verify oneUp = false := by decide +kernel
theorem zeros_agree : ckv1.verify zeros = true := by decide +kernel
/-! CRCs of 324 bytes, 54 at a time. -/
theorem crc_zeros_0 : (List.replicate 54 0#8).foldl crcByte 0xFFFFFFFF = 0x590f3fa0 := by decide +kernel
theorem crc_zeros_1 : (List.replicate 54 0#8).foldl crcByte 0x590f3fa0 = 0xb3f88c19 := by decide +kernel
theorem crc_zeros_2 : (List.replicate 54 0#8).foldl crcByte 0xb3f88c19 = 0xc1d2d5fa := by decide +kernel
theorem crc_zeros_3 : (List.replicate 54 0#8).foldl crcByte 0xc1d2d5fa = 0xdfb45177 := by decide +kernel
theorem crc_zeros_4 : (List.replicate 54 0#8).foldl crcByte 0xdfb45177 = 0xec9ce76d := by decide +kernel
theorem crc_zeros_5 : (List.replicate 54 0#8).foldl crcByte 0xec9ce76d = 0xc0635f6 := by decide +kernel
theorem crc_oneUp_0 : (0x38#8 :: List.replicate 53 0#8).foldl crcByte 0xFFFFFFFF = 0xf8e343a9 := by decide +kernel
theorem crc_oneUp_1 : (List.replicate 54 0#8).foldl crcByte 0xf8e343a9 = 0xce003f4e := by decide +kernel
theorem crc_oneUp_2 : (List.replicate 54 0#8).foldl crcByte 0xce003f4e = 0xd5e019fc := by decide +kernel
theorem crc_oneUp_3 : (List.replicate 54 0#8).foldl crcByte 0xd5e019fc = 0xf5dc96db := by decide +kernel
theorem crc_oneUp_4 : (List.replicate 54 0#8).foldl crcByte 0xf5dc96db = 0xdaf9c0e4 := by decide +kernel
theorem crc_oneUp_5 : (List.replicate 54 0#8).foldl crcByte 0xdaf9c0e4 = 0x54d35aa2 := by decide +kernel
theorem crc_zeros : crc32c zeros = 0xf3f9ca09#32 := by
  have h : zeros = List.replicate 54 0#8 ++ List.replicate 54 0#8 ++ List.replicate 54 0#8 ++ List.replicate 54 0#8 ++ List.replicate 54 0#8 ++ List.replicate 54 0#8 := by decide +kernel
  rw [crc32c, h]
  simp only [List.foldl_append, crc_zeros_0, crc_zeros_1, crc_zeros_2, crc_zeros_3, crc_zeros_4, crc_zeros_5]
  decide
theorem crc_oneUp : crc32c oneUp = 0xab2ca55d#32 := by
  have h : oneUp = (0x38#8 :: List.replicate 53 0#8) ++ List.replicate 54 0#8 ++ List.replicate 54 0#8 ++ List.replicate 54 0#8 ++ List.replicate 54 0#8 ++ List.replicate 54 0#8 := by decide +kernel
  rw [crc32c, h]
  simp only [List.foldl_append, crc_oneUp_0, crc_oneUp_1, crc_oneUp_2, crc_oneUp_3, crc_oneUp_4, crc_oneUp_5]
  decide
/-- Slots of those vectors, as the engine reads them. -/
def badSlot : State := slotOn ckv1 0xab2ca55d 0x44#8 1#8 [0x38#8] []
def badSlot1 : State := (badSlot.hBytes (.hbm 0x30000) 128).2
def goodSlot : State := slotOn ckv1 0xf3f9ca09 0x44#8 1#8 [] [0x38#8]
def goodSlot1 : State := (goodSlot.hBytes (.hbm 0x30000) 128).2
def goodSlot2 : State := (goodSlot1.hBytes (.hbm 0x30080) 324).2
theorem witness_BozoakVectors :
    ckv1.lzBad = [] ∧ ckv1.lenOk (ckv1.chunk chunk0) = true ∧ ckv1.ckv = true ∧ ckv1.slot ckv1.rank (ckv1.chunk chunk0) false = 0x30000 ∧
    leNat (((badSlot.hBytes (.hbm 0x30000) 128).1.drop 4).take 4) = ckv1.len (ckv1.chunk chunk0) ∧
    leNat (((goodSlot.hBytes (.hbm 0x30000) 128).1.drop 4).take 4) = ckv1.len (ckv1.chunk chunk0) := by decide +kernel
theorem bad_bytes : (badSlot1.hBytes (.hbm 0x30080) 324).1 = oneUp := by decide +kernel
theorem bad_crc : leNat ((badSlot.hBytes (.hbm 0x30000) 128).1.take 4) = (crc32c oneUp).toNat := by rw [crc_oneUp]; decide +kernel
theorem good_bytes : (goodSlot1.hBytes (.hbm 0x30080) 324).1 = zeros := by decide +kernel
theorem good_crc : leNat ((goodSlot.hBytes (.hbm 0x30000) 128).1.take 4) = (crc32c zeros).toNat := by rw [crc_zeros]; decide +kernel
theorem good_local : (goodSlot2.hRead ckv1.ctx ckv1.dbase 324).1 = some oneUp := by decide +kernel
/-- The peer of a word is this device, or another. -/
def here : BzCtx := { b1 with peers := [Config.deviceId.setWidth 64] }
def away : BzCtx := { b1 with peers := [(~~~Config.deviceId).setWidth 64] }
theorem here_dev : here.dev (here.peerAt peer0) = Config.deviceId := by
  have h : here.peerAt peer0 = 0 := by decide +kernel
  rw [h]; show ((Config.deviceId.setWidth 64).setWidth 12 : BitVec 12) = _; simp
theorem away_dev : away.dev (away.peerAt peer0) ≠ Config.deviceId := by
  have h : away.peerAt peer0 = 0 := by decide +kernel
  have n : ∀ x : BitVec 12, ~~~x ≠ x := by decide +kernel
  rw [h]; show ((~~~Config.deviceId).setWidth 64).setWidth 12 ≠ Config.deviceId; simpa using n Config.deviceId
/-- Rank 0 of two, both of this device, arrived at a barrier. -/
def pair : BzCtx := { b1 with arrived := true, dsc := b1.dsc ||| (1#512 <<< 10), peers := [Config.deviceId.setWidth 64, Config.deviceId.setWidth 64] }
theorem pair_dev : pair.dev 1 = Config.deviceId := by show ((Config.deviceId.setWidth 64).setWidth 12 : BitVec 12) = _; simp
/-- The other member has not arrived, and has. -/
theorem pair_waits : sget 0 (pair.barKey pair.rank 1) (bzOn pair).barIn = 0 := rfl
theorem pair_meets : 0 < sget 0 (pair.barKey pair.rank 1) [(pair.barKey pair.rank 1, 1)] := by simp [sget]
/-- Counts and signals at their targets, and one short of them. -/
theorem witness_BozoakSynchronises :
    (b1.target (b1.chunk chunk0) ≤ sget 0 (b1.chunk chunk0) ({ b1 with counts := [(0, 1)] } : BzCtx).counts ∧
      sget 0 (b1.chunk chunk0) b1.counts < b1.target (b1.chunk chunk0)) ∧
    ((1#16).toNat ≤ (sget 0#32 0 ((bzMapped { b1 with sig := [(0, 1#32)] }).foldSig 0 0).bzMe.sig).toNat ∧
      (sget 0#32 0 ((bzMapped b1).foldSig 0 0).bzMe.sig).toNat < (1#16).toNat) ∧
    (b1.sigDue = none ∧ (bzMapped b1).inFlight 0 = false ∧ b1.arrived = false) ∧
    ({ bzOn b1 with deliveries := [⟨0, 0#4, 0#12, 0#12, 0x30000, [1#8], [], 0⟩] } : State).inFlight 0 = true ∧
    (pair.arrived = true ∧ pair.others = [1]) ∧
    ((bzOn { b1 with sigDue := some 0 }).bzMe.sigDue = some (bzOn { b1 with sigDue := some 0 }).ct) ∧
    ((bzMapped b1).hXlate b1.ctx (b1.bmap + 8 * ((0#12).toNat / 64)) .write).1 = some (.hbm 0) := by decide +kernel
theorem zoneLost_none {s : State} (h : s.linkBad = 0#8) (off n : Nat) : s.zoneLost off n = false := by
  have g : ∀ l : List Nat, l.any s.linkBad.getLsbD = false := fun l => by rw [List.any_eq_false, h]; simp
  simp only [State.zoneLost, State.routeLost, g, Bool.or_self]
/-- Every fabric port open, and none; a member on this device, and one on another. -/
theorem witness_BozoakPorts : ({ bzOn away with ideKeys := (List.range 16).map fun n => (n, 1#256) } : State).fabricPorts.length = 7 ∧
    (bzOn away).fabricPorts = [] ∧ (bzOn here).zoneLost 0x30000 8 = false ∧ here.lz 0 = 0 ∧ (bzOn here).zoneLost (here.sigWord 0 0) 8 = false ∧
    (∀ r, r ∈ pair.others → pair.dev r = Config.deviceId) ∧ ({ pair with arrived := false } : BzCtx).arrived = false := by
  refine ⟨by decide +kernel, by decide +kernel, by decide +kernel, ?_, zoneLost_none rfl _ _, ?_, rfl⟩
  · show ((Config.deviceId.setWidth 64).extractLsb' 16 39 : BitVec 39).toNat = 0
    rw [show ((Config.deviceId.setWidth 64).extractLsb' 16 39 : BitVec 39) = 0#39 from (by
      have h : ∀ d : BitVec 12, ((d.setWidth 64).extractLsb' 16 39 : BitVec 39) = 0#39 := by decide +kernel
      exact h _)]
    rfl
  · intro r hr
    have h : pair.others = [1] := by decide +kernel
    rw [h] at hr; simp only [List.mem_singleton] at hr; subst hr; exact pair_dev
def hold0 (k : HoldKind) (due : Nat) : Hold := ⟨k, .s, 0#57, 0, due, false, []⟩
def held (k : HoldKind) (due : Nat) : State := on { k0 with holds := [hold0 k due] }
def heldMapped (k : HoldKind) : State := mapped { k0 with holds := [hold0 k 0] }
def ldf0 : HoldKind := .far (.ldf false 8 1#5) [⟨0, 0x10000, 0#128, 0#1024⟩]
def lnch0 : HoldKind := .lnch 1#5 0x10000
/-- What a LNCH's answer reads its record from. -/
def lnchReady (s : State) : State := ((s.settle 0 (s.cl 0).nextPost).release 0 .device).vcStep 0
def o0 : Origin := ⟨0#57, 0⟩
/-- In replayable mode (R309): the run's descriptor says so, and nothing is mapped. -/
def heldReplay : State := on { k0 with holds := [hold0 ldf0 0], run := some { run0 with desc := 0xF000000000200000#64 } }
/-- A PWAIT at a pennant with phase 0 and no overflow, waiting for phase 1's end; one waiting for phase 0's; and a BWAIT of no bits. -/
def pw (ph : Bool) : HoldKind := .pwait 0 ph
def bw (m : Word) : HoldKind := .bwait 0x10000 m .cluster
/-- A pennant that has overflowed. -/
def heldOvf : State := on { k0 with holds := [hold0 (pw false) 1], cores := [{ Core.reset with spm := [(7, 0x40#8)] }] }
theorem witness_HoldsEnd :
    ((heldMapped ldf0).dueHolds 0 = [hold0 ldf0 0] ∧ (heldMapped ldf0).farBusy 0 (.ldf false 8 1#5) [⟨0, 0x10000, 0#128, 0#1024⟩] = false ∧
      ((heldMapped ldf0).farPerform 0 o0 (.ldf false 8 1#5) [⟨0, 0x10000, 0#128, 0#1024⟩]).1 = .done ∧
      ((heldMapped ldf0).cl 0).holdOrigin (hold0 ldf0 0) = o0) ∧
    (heldReplay.farPerform 0 o0 (.ldf false 8 1#5) [⟨0, 0x10000, 0#128, 0#1024⟩]).1 = .again ∧
    ((held ldf0 0).farPerform 0 o0 (.ldf false 8 1#5) [⟨0, 0x10000, 0#128, 0#1024⟩]).1 ≠ .done ∧
    ((heldMapped lnch0).dueHolds 0 = [hold0 lnch0 0] ∧ ((lnchReady (heldMapped lnch0)).farReadAt 0 0x10000 128 none (List.range 128) false).1 =
      .ok (List.replicate 128 0#8)) ∧
    ((lnchReady (held lnch0 0)).farReadAt 0 0x10000 128 none (List.range 128) false).1 ≠ .ok (List.replicate 128 0#8) ∧
    ((held lnch0 0).cl 0).replays { cause := 0#8 } = false ∧
    ((held (pw true) 0).cl 0).penSample 0 true = .differs ∧ ((held (pw false) 0).cl 0).penSample 0 false = .waits ∧
    (held (pw true) 1).ct < (hold0 (pw true) 1).due ∧ (heldOvf.cl 0).penSample 0 false = .overflow ∧
    ((heldMapped (bw 0#64)).xlate 0 0x10000 .read none).1 = .ok (.hbm 0x10000) ∧ ((heldMapped (bw 0#64)).hbmRead 0x10000 8).1 = List.replicate 8 0#8 ∧
    (leWord (List.replicate 8 0#8) &&& 0#64 = 0#64 ∧ leWord (List.replicate 8 0#8) &&& 1#64 ≠ 1#64) := by decide +kernel
/-- The page of a hold's access in its cluster's TLB. -/
def paged (k : Cluster) : State := on { k with tlb := [(0#12, 0, 0x4B#64, 30)] }
def stf0 : HoldKind := .far (.stf 8) [⟨0, 0x10000, 0#128, 0#1024⟩]
def seen (h : HoldKind) : State := paged { k0 with holds := [hold0 h 0] }
theorem witness_AccessHoldsEnd : ((seen ldf0).seesAt 0 0x10000 .read 0x10000 ∧ (seen stf0).seesAt 0 0x10000 .write 0x10000) ∧
    ((seen ldf0).dueHolds 0 = [hold0 ldf0 0] ∧ (seen stf0).dueHolds 0 = [hold0 stf0 0] ∧ (seen lnch0).dueHolds 0 = [hold0 lnch0 0]) ∧
    (((seen ldf0).cl 0).relAfter = [] ∧ ((seen ldf0).cl 0).rde = false ∧ (seen ldf0).noPartials) ∧
    (List.range 128).all (fun j => !(seen lnch0).poisoned (128 * ((0x10000 + j) / 128)) 128) = true ∧
    (((seen lnch0).cl 0).far = [] ∧ (seen lnch0).rdcOf 0 = []) :=
  ⟨⟨⟨by decide +kernel, ⟨0x4B#64, 30, by decide +kernel, by decide, by decide +kernel⟩, by decide +kernel⟩, ⟨by decide +kernel, ⟨0x4B#64, 30, by decide +kernel, by decide, by decide +kernel⟩, by decide +kernel⟩⟩, by decide +kernel, ⟨by decide +kernel, by decide +kernel, fun k h => by
    simp only [seen, paged, on, List.mem_singleton] at h; subst h; rfl⟩, by decide +kernel, by decide +kernel⟩
/-- A PWAIT that its sample has decided, and one to be so. -/
theorem witness_PennantWaitEnds : ((held (.pflip 0 true) 1).ct < (hold0 (.pflip 0 true) 1).due) ∧ (hold0 (.pflip 0 true) 0).due ≤ (held (.pflip 0 true) 0).ct ∧
    ((held (.pflip 0 false) 0).cl 0).holds = [hold0 (.pflip 0 false) 0] := ⟨by decide, by decide, rfl⟩
theorem witness_BuntingWaitEnds : (seen (bw 0#64)).dueHolds 0 = [hold0 (bw 0#64) 0] ∧ (seen (bw 0#64)).seesAt 0 0x10000 .read 0x10000 ∧
    (seen (bw 0#64)).poisoned 0x10000 8 = false ∧ leWord ((seen (bw 0#64)).bytesAt 0x10000 8) &&& 0#64 = 0#64 ∧
    leWord ((seen (bw 1#64)).bytesAt 0x10000 8) &&& 1#64 ≠ 1#64 :=
  ⟨by decide +kernel, ⟨by decide +kernel, ⟨0x4B#64, 30, by decide +kernel, by decide, by decide +kernel⟩, by decide +kernel⟩, by decide +kernel, by decide +kernel, by decide +kernel⟩
def ttOn (t : Option Nat) : State := { on { k0 with tts := t, holds := [hold0 .ttsync 0] } with ct := 32 }
def tired (k : HoldKind) (ct : Nat) : State := { on { k0 with holds := [hold0 k 0], holdmax := 1 } with ct := ct }
def slipping (ct : Nat) : State := { on { k0 with slip := some 0 } with ct := ct }
/-- Members that arrived 32 cycles ago, and 31; a hold of HOLDMAX, and one cycle more; a slip of SLIPMAX, and one cycle more. -/
theorem witness_OtherHoldsAndLimits : ((ttOn (some 0)).ttReady 0 = true ∧ (ttOn (some 1)).ttReady 0 = false) ∧
    (((held (.amaxf 1#5 5#4) 0).cl 0).drainOn 5#4 = false ∧ ((on { k0 with holds := [hold0 (.amaxf 1#5 5#4) 0], drains := [drain0] }).cl 0).drainOn 5#4 = true) ∧
    (((on { k0 with fetches := [(1, 0)] }).cl 0).fetches = [(1, 0)] ∧ 0 ≤ (on { k0 with fetches := [(1, 0)] }).ct) ∧
    (((on { k0 with holds := [⟨ldf0, .s, 0#57, 0, 0, true, []⟩] }).cl 0).holds = [⟨ldf0, .s, 0#57, 0, 0, true, []⟩] ∧ 0 < (on k0).clusters.length) ∧
    ((tired .ttsync 1).ct - (hold0 .ttsync 0).start ≤ ((tired .ttsync 1).cl 0).holdmax ∧
      ((tired .ttsync 2).cl 0).holdmax < (tired .ttsync 2).ct - (hold0 .ttsync 0).start ∧ preIssue .ttsync = false ∧
      ((tired .emptyQueue 2).cl 0).holdmax < (tired .emptyQueue 2).ct - (hold0 .emptyQueue 0).start ∧ preIssue .emptyQueue = true) ∧
    (((slipping 4096).cl 0).slip = some 0 ∧ (slipping 4096).ct - 0 ≤ ((slipping 4096).cl 0).slipmax.toNat ∧
      ((slipping 4097).cl 0).slipmax.toNat < (slipping 4097).ct - 0) := by decide +kernel
set_option maxRecDepth 20000 in
/-- A slip whose bundle's tags match now. -/
theorem witness_SlipEnd : (atNop.cl 0).bundleNow = some [(.s, .ok .nop)] ∧ (atNop.cl 0).tagOut (legal [(.s, .ok .nop)]) ≠ .late := ⟨rfl, by decide +kernel⟩
/-- A fence command that is due, a gather with room, and posted operations that are ready. -/
def due0 : Cmd := (kRow.mkCmd (.xfen okX) okX).settled 0
def kDue : Cluster := { kRow with buf := [due0], issued := true }
def act0 (g : List (Nat × List (BitVec 1024))) : Active := ⟨due0, 0, [], [], 0, 0#20, [], [], 0, 0, true, [], 0, [], [], none, false, false, false, [], g, [], []⟩
def post0 (p : PostKind) : Posted := ⟨0, 0, p, ⟨0#57, 0⟩, 0, 0⟩
def kPost (p : PostKind) : Cluster := { k0 with posted := [post0 p] }
def setBit0 : PostKind := .bset 0x10000 0 .device [] none
theorem witness_ClusterEvents : (((on { k0 with issued := true }).cl 0).issued = true ∧ ((on k0).cl 0).issued = false) ∧
    (((on kDue).cl 0).engineRuns 0 = true ∧ ((on kDue).cl 0).lastStream ≤ ((on kDue).cl 0).ticks ∧ ((on kDue).cl 0).starter 0 = some due0) ∧
    (((on { k0 with lastStream := 1 }).cl 0).ticks < ((on { k0 with lastStream := 1 }).cl 0).lastStream ∧ ((on k0).cl 0).starter 0 = none ∧
      ((on { k0 with halted := true }).cl 0).engineRuns 0 = false ∧ ((on k0).cl 0).tmw = []) ∧
    (((on { k0 with active := [act0 [(0, [1#1024])]] }).cl 0).active = [act0 [(0, [1#1024])]] ∧
      (((on { k0 with cores := [{ Core.reset with gq := List.replicate 15 0#1024 }] }).cl 0).core 0).gq.length < 16) ∧
    (kPost setBit0).postReady (post0 setBit0) = true ∧
    (kPost (.atom 0x10000 .add false true 1#64 none)).postReady (post0 (.atom 0x10000 .add false true 1#64 none)) = true ∧
    (kPost (.vupd 0 0 0x10000 .add .n64 1#64)).postReady (post0 (.vupd 0 0 0x10000 .add .n64 1#64)) = true ∧
    (({ State.reset with clusters := kPost setBit0 :: List.replicate 15 Cluster.reset } : State).clusters.length = 16 ∧
      post0 setBit0 ∈ (({ State.reset with clusters := kPost setBit0 :: List.replicate 15 Cluster.reset } : State).cl 0).posted ∧
      (post0 setBit0).since = State.reset.ct) ∧
    (mapped k0).windowBusy 0 0x10000 8 .write = false := by decide +kernel
/-- A load that has written its last byte, one with a byte due and one with a byte to come; a write from outside at the last address. -/
def fin0 : Active := { act0 [] with cmd := (kRow.mkCmd (.xld okX) okX).settled 0, loose := true, formed := true }
def bsOut (t : Nat) : Active := { fin0 with outs := [(.bs 0 0, 1#8, t)] }
def outer0 : WinWrite := ⟨2 ^ 26 - 1, 1#8, 0, none, none⟩
def outK : Cluster := { Cluster.reset with winW := [outer0] }
theorem witness_CopyContents : ((0x10000 : Nat) < 2 ^ 57 ∧ (paged kRow).seesAt 0 0x10000 .write 0x10000 ∧ ((paged kRow).cl 0).rde = false) ∧
    (State.reset.clusters.length = 16 ∧ 255 < (State.reset.cl 15).cores.length ∧ Memory.wf ((State.reset.cl 15).core 255).bst = true) ∧
    ((bsOut 0).outs = [(.bs 0 0, 1#8, 0)] ∧ (bsOut 0).whole = [] ∧ (bsOut 0).replay = false ∧ 0 ≤ State.reset.ct ∧ State.reset.ct < 1 ∧
      ∃ u, State.reset.copyPut 0 (bsOut 0) (.bs 0 0) 1#8 = (.ok (), u)) ∧
    (outK.winW = [outer0] ∧ outK.cores.length = 256 ∧ (outK.cores.all fun x => Memory.wf x.spm) = true ∧ outer0.addr < 2 ^ 26 ∧ outer0.addr ∈ [2 ^ 26 - 1]) ∧
    (outer0.addr ∉ ([] : List Nat) ∧ bankOf (2 ^ 26 - 1) = bankOf outer0.addr ∧ outer0.by' = none) ∧
    (((on { kRow with active := [fin0] }).cl 0).active = [fin0] ∧ fin0.cmd.instr = .xld okX ∧ fin0.waits = [] ∧ fin0.loose = true ∧ fin0.formed = true ∧
      fin0.replay = false ∧ fin0.rd = [] ∧ fin0.outs = [] ∧ fin0.whole = [] ∧ fin0.gather = [] ∧ fin0.due ≤ (on kRow).ct ∧ fin0.fail = none ∧
      ((on { kRow with active := [fin0] }).cl 0).lastStream ≤ ((on { kRow with active := [fin0] }).cl 0).ticks) ∧
    (swfFrom 0#16 0 ((State.reset.cl 15).core 255).spTag = true ∧ (63 < 64) ∧ ({ fin0 with pages := [(0, 0, 63)] } : Active).pages = [(0, 0, 63)]) :=
  ⟨⟨by decide, ⟨rfl, ⟨0x4B#64, 30, rfl, by decide, by decide⟩, rfl⟩, by decide +kernel⟩, by decide +kernel, ⟨rfl, rfl, rfl, by decide, by decide, snd_of (by decide +kernel)⟩,
    by decide +kernel, by decide, by decide +kernel, by decide +kernel⟩
/-- A unit that has used its 2^20 blocks and two draws of the next key. -/
def spentGen : Gen := ⟨0#256, 2 ^ 24 + 2, 1, 1#256⟩
def logging : RunId := { run0 with rngm := 1#2 }
theorem witness_GeneratorsReseed : (256#9 : BitVec 9).toNat ≤ 256 ∧ (((on k0).cl 0).run = some run0 ∧ run0.rngm = 0#2) ∧
    ((mapped { k0 with run := some logging }).cl 0).run = some logging ∧ logging.rngm = 1#2 ∧
    (∃ t, ({ mapped { k0 with run := some logging } with fresh := 2 } : State).logAppend 0 logging 256 (Config.freeKey 0) = (true, t)) ∧
    (∃ t, ({ on { k0 with run := some logging } with fresh := 2 } : State).logAppend 0 logging 256 (Config.freeKey 0) = (false, t)) ∧
    (((on { k0 with egen := spentGen }).cl 0).unit 256 = spentGen ∧ 2 ^ 24 ≤ spentGen.draws ∧ ((on k0).cl 0).unit 0 = Core.reset.gen ∧
      Core.reset.gen.draws < 2 ^ 24) :=
  ⟨by decide +kernel, by decide +kernel, rfl, rfl, snd_of (by decide +kernel), snd_of (by decide +kernel), by decide +kernel⟩
/-! A descriptor in memory whose only rank is this device, whatever its number; Halyard's TLB holds the page. -/
def idLo : Byte := Config.deviceId.setWidth 8
def idHi : Byte := (Config.deviceId.extractLsb' 8 4).setWidth 8
def dscBytes : List Byte := leBytes 64 ((0x700000 <<< 71) ||| (0x41000 <<< 135) ||| (0x1000 <<< 199))
def starting : State := { State.reset with
  clusters := [], snap := [], ideKeys := [(0, 1#256)], stlb := [(4, 0#12, 0, 0x4B#64, 30)], ctxTab := [(0, 0x8000000000200000#64)]
  bz := [{ BzCtx.reset with bind := 0x8000000000000000#64, desc := 0x40000#64, st := .idle }]
  mem := [(0x4000B, 0x38#8), (0x40012, 8#8), (0x40013, 2#8), (0x4001A, 8#8), (0x41000, 4#8), (0x700000, idLo), (0x700001, idHi)] }
theorem pair_of {α β : Type} {p : α × β} {a : α} {b : β} (h : p.1 = a) (h' : p.2 = b) : p = (a, b) := by subst h; subst h'; rfl
theorem bzRead_of {s : State} {k : Nat} {b1 : BzCtx} {bs : List Byte} {ps cs : List Word} {s1 s2 s3 : State}
    (h0 : ((s.bzc k).desc.setWidth 57).toNat % 64 = 0)
    (h1 : (s.dropPeer 4 .device).hRead (s.bzc k).ctx ((s.bzc k).desc.setWidth 57).toNat 64 = (some bs, s1))
    (hb : b1 = { s.bzc k with dsc := BitVec.ofNat 512 (leNat bs) }) (h2 : b1.descOk = true) (h3 : s1.hWords b1.ctx b1.ptab b1.size = (some ps, s2))
    (h4 : s2.hWords b1.ctx b1.ctab b1.nchk = (some cs, s3))
    (h5 : (ps.any (fun p => p.extractLsb' 55 9 != 0#9 || p.extractLsb' 12 4 != 0#4 || (p.extractLsb' 16 39).toNat % 128 != 0) ||
      cs.any fun c => c.extractLsb' 48 16 != 0#16 || c.extractLsb' 21 11 != 0#11) = false)
    (h6 : ({ b1 with peers := ps, chunks := cs } : BzCtx).dev b1.rank = Config.deviceId) :
    s.bzRead k = (some { b1 with peers := ps, chunks := cs }, s3) := by
  subst hb
  have h6' : ({ s.bzc k with dsc := BitVec.ofNat 512 (leNat bs), peers := ps, chunks := cs } : BzCtx).dev
    ({ s.bzc k with dsc := BitVec.ofNat 512 (leNat bs), peers := ps, chunks := cs } : BzCtx).rank = Config.deviceId := h6
  simp only [State.bzRead, h0, h1, h2, h3, h4, h5, h6', ne_eq, not_true_eq_false, if_false, Bool.not_true, bne_self_eq_false, Bool.or_self]
  rfl
def startDesc : BzCtx := { BzCtx.reset with bind := 0x8000000000000000#64, desc := 0x40000#64, st := .idle, dsc := BitVec.ofNat 512 (leNat dscBytes) }
theorem starting_desc : (starting.hRead 0#12 0x40000 64).1 = some dscBytes := by decide +kernel
theorem starting_chunks : (starting.hWords 0#12 0x41000 1).1 = some [4#64] := by decide +kernel
set_option maxRecDepth 20000 in
theorem starting_peer : (starting.hbmRead 0x700000 8).1 = [idLo, idHi] ++ List.replicate 6 0#8 := rfl
theorem starting_desc' : starting.hRead 0#12 0x40000 64 = (some dscBytes, starting) := pair_of starting_desc rfl
theorem starting_chunks' : starting.hWords 0#12 0x41000 1 = (some [4#64], starting) := pair_of starting_chunks rfl
theorem starting_at : starting.hXlate 0#12 0x700000 .read = (some (.hbm 0x700000), starting) := pair_of (by decide +kernel) rfl
theorem starting_clean : starting.poisoned 0x700000 8 = false := by decide +kernel
theorem starting_word : starting.hRead 0#12 0x700000 8 = (some ([idLo, idHi] ++ List.replicate 6 0#8), starting) := by
  have h1 : partsOf 0x700000 8 = [(0x700000, 8)] := by decide +kernel
  have h2 : starting.hbmRead 0x700000 8 = ([idLo, idHi] ++ List.replicate 6 0#8, starting) := pair_of starting_peer rfl
  have hx : starting.hXlateD 0#12 (starting.descOf 0#12) 0x700000 .read = (some (.hbm 0x700000), starting) := starting_at
  simp only [State.hRead, State.hReadD, h1, List.foldl, hx, State.hBytes, starting_clean, h2, Bool.false_eq_true, if_false, List.nil_append]
theorem idWord_word : leWord ([idLo, idHi] ++ List.replicate 6 0#8) = Config.deviceId.setWidth 64 := by
  have h : ∀ d : BitVec 12, leWord ([d.setWidth 8, (d.extractLsb' 8 4).setWidth 8] ++ List.replicate 6 0#8) = d.setWidth 64 := by decide +kernel
  exact h _
theorem starting_peers : starting.hWords 0#12 0x700000 1 = (some [Config.deviceId.setWidth 64], starting) := by
  have h : chunks 8 ([idLo, idHi] ++ List.replicate 6 0#8).length ([idLo, idHi] ++ List.replicate 6 0#8) = [[idLo, idHi] ++ List.replicate 6 0#8] := rfl
  simp only [State.hWords, Nat.mul_one, starting_word, h, List.map, idWord_word]
theorem witness_bzRead : ∃ b, starting.bzRead 0 = (some b, starting) := by
  have g : ∀ d : BitVec 12, ((d.setWidth 64 : Word).extractLsb' 55 9 != 0#9 || (d.setWidth 64 : Word).extractLsb' 12 4 != 0#4 ||
    ((d.setWidth 64 : Word).extractLsb' 16 39).toNat % 128 != 0) = false ∧ (d.setWidth 64 : Word).setWidth 12 = d := by decide +kernel
  refine ⟨_, bzRead_of (b1 := startDesc) (bs := dscBytes) rfl starting_desc' rfl (by decide +kernel) (ps := [Config.deviceId.setWidth 64]) ?_ (cs := [4#64]) (s2 := starting) (s3 := starting) ?_ ?_ ?_⟩
  · have e1 : startDesc.ptab = 0x700000 := by decide +kernel
    have e2 : startDesc.size = 1 := by decide +kernel
    rw [e1, e2]; exact starting_peers
  · have e1 : startDesc.ctab = 0x41000 := by decide +kernel
    have e2 : startDesc.nchk = 1 := by decide +kernel
    rw [e1, e2]; exact starting_chunks'
  · simp only [List.any_cons, List.any_nil, Bool.or_false, (g Config.deviceId).1]; decide
  · have hr : startDesc.rank = 0 := by decide +kernel
    rw [hr]; exact (g Config.deviceId).2
def dlv (d : BitVec 12) : Delivery := ⟨0, 0#4, 0#12, d, 0x30000, [1#8], List.replicate 128 0#8, 0⟩
def sending (d : BitVec 12) (b : BzCtx) : State := { bzOn b with deliveries := [dlv d] }
def winOn (x : LaunchWin) : State := { State.reset with wins := [x] }
def inWin0 : BitVec 128 := (1#128 <<< 102) ||| (1#128 <<< 100) ||| (0x10#128 <<< 46)
def open0 : State := { State.reset with inWin := [inWin0], ideKeys := [(0, 1#256), (1, 1#256), (2, 1#256)] }
/-- The same, with every port open. -/
def keyed (s : State) : State := { s with ideKeys := (List.range 16).map fun n => (n, 1#256) }
def bzHost (b : BzCtx) : State := keyed (bzOn b)
theorem witness_BozoakCommands : State.reset.portOpen 0 false = false ∧
    (starting.portOpen 0 false = true ∧ starting.reaches .supervisor 0 = true ∧ (starting.bzc 0).st = .idle ∧ swfFrom 0 0 starting.barIn = true ∧
      ∃ t, (bzHost { BzCtx.reset with st := .idle, desc := 1#64 }).bzRead 0 = (none, t)) ∧
    ((bzHost b1).portOpen 0 false = true ∧ (bzHost b1).reaches .supervisor 0 = true ∧ (bzHost b1).inFlight 0 = false ∧ ((bzHost b1).bzc 0).bound = true ∧
      ((bzHost b1).bzc 0).st = .running ∧ 0 < (bzHost b1).bz.length) ∧
    (bzHost b1).reaches (.window 3#4) 0 = false ∧ ((bzHost BzCtx.reset).portOpen 0 false = true ∧ ((bzHost BzCtx.reset).bzc 0).bound = false ∧
      ((bzHost BzCtx.reset).bzc 0).st ≠ .running) :=
  ⟨by decide +kernel, ⟨by decide +kernel, by decide +kernel, by decide +kernel, by decide +kernel, snd_of (by decide +kernel)⟩, by decide +kernel,
    by decide +kernel, by decide +kernel⟩
/-- Windows that any source may write through; a context whose only other member is of another device. -/
def openWin : BitVec 128 := (1#128 <<< 102) ||| (1#128 <<< 101) ||| (0x10#128 <<< 46)
def signalled (b : BzCtx) : State := { bzHost b with inWin := [openWin] }
theorem openWin_admits : ∀ src : BitVec 12, winAdmits openWin src .atomicAdd (b1.sigWord b1.rank 0) 8 = true := by decide +kernel
theorem witness_BozoakSignals : ((bzHost b1).bzc 0).peers ≠ [] ∧ (bzHost b1).fabricPorts ≠ [] ∧
    ((signalled b1).hand = none ∧ (signalled b1).zoneLost (b1.sigWord b1.rank 0) 8 = false ∧
      (∃ w, w ∈ (signalled b1).inWin ∧ winAdmits w ((signalled b1).someMember b1).1 .atomicAdd (b1.sigWord b1.rank 0) 8 = true)) ∧
    (∀ w, w ∈ ({ bzHost b1 with inWin := [] } : State).inWin → winAdmits w 0#12 .atomicAdd 0 8 = false) :=
  ⟨by decide +kernel, by decide +kernel, ⟨rfl, zoneLost_none rfl _ _, openWin, List.mem_singleton.2 rfl, openWin_admits _⟩,
    fun _ h => absurd h (List.not_mem_nil)⟩
/-- A delivery that has failed, of a context that runs under a binding, and of one that does not. -/
def failing (b : BzCtx) : State := { bzOn b with deliveries := [⟨0, 0#4, 0#12, 0#12, 0x30000, [], [], 0⟩] }
theorem witness_DeliveryFailure :
    (∀ b : BzCtx, (({ failing b with deliveries := [] } : State).landPart ⟨0, 0#4, 0#12, 0#12, 0x30000, [], [], 0⟩).bzc 0 = b) ∧
    b1.st = .running ∧ b1.bound = true ∧ BzCtx.reset.bound = false := by
  refine ⟨fun b => ?_, by decide +kernel⟩
  simp only [State.landPart, Delivery.parts, List.length_nil, chunks, List.zipIdx, List.map, List.filter, List.foldl, ite_self]
  rfl
theorem witness_BozoakHostEvents :
    (starting.reaches .supervisor 0 = true ∧ (starting.bzc 0).st = .idle ∧ ∃ t, (bzOn { BzCtx.reset with st := .idle, desc := 1#64 }).bzRead 0 = (none, t)) ∧
    ((bzOn b1).reaches .supervisor 0 = true ∧ (bzOn b1).inFlight 0 = false ∧ ((bzOn b1).bzc 0).bound = true) ∧
    (bzOn b1).reaches (.window 3#4) 0 = false ∧ ((0x8000000000000001#64).getLsbD 63 = true ∧ ((bzOn BzCtx.reset).bzc 0).bound = false) ∧
    (State.reset.bz.all (fun b => !b.stopping) = true ∧ State.reset.bz.length = 16) ∧
    ((sending (~~~Config.deviceId) b1).deliveries = [dlv (~~~Config.deviceId)] ∧ (dlv (~~~Config.deviceId)).dev ≠ Config.deviceId ∧
      ((sending (~~~Config.deviceId) b1).bzc 0).stopping = false ∧ ((sending (~~~Config.deviceId) b1).bzc 0).st = .running) ∧
    ((dlv Config.deviceId).dev = Config.deviceId ∧ (sending Config.deviceId BzCtx.reset).fullSlot 0x30000 128 = none) ∧
    (((bzOn { b1 with st := .idle }).bzc 0).peers ≠ [] ∧ ((bzOn { b1 with st := .idle }).bzc 0).st ≠ .running ∧ open0.fabricPorts ≠ []) ∧
    ((on k0).cl 0).tilePending ⟨0#57, 0⟩ = false :=
  ⟨⟨by decide +kernel, by decide +kernel, snd_of (by decide +kernel)⟩, by decide +kernel, by decide +kernel, by decide +kernel, by decide +kernel,
    ⟨rfl, (by have n : ∀ x : BitVec 12, ~~~x ≠ x := by decide +kernel
              exact n _), rfl, rfl⟩, ⟨rfl, by decide +kernel⟩, by decide +kernel, by decide +kernel⟩
/-- A run's count that reaches a context of its own, and a tile that has not performed. -/
theorem witness_ChunkCount : ((((on k0).release 0 .device).vcStep 0).countChunk 0 0#4 4095 1).isSome = false ∧
    ((({ on k0 with bz := [b1] } : State).release 0 .device).vcStep 0 |>.countChunk 0 0#4 4095 1).isSome = true ∧
    ((on { k0 with cores := [{ Core.reset with pipe := [⟨.store, .v, 0, 0, .m, 0, 1, 0, 0#256, 0#32, [], none, none, 0#3, ⟨0#57, 0⟩⟩] }] }).cl 0).tilePending ⟨0#57, 0⟩ = true := by
  decide +kernel
def boundWin : LaunchWin := { LaunchWin.reset with bound := some 0#12 }
/-- A record with one window on bit 0 of the word at 0x10000. -/
def winRcd : BitVec 1024 := ((1#1024 <<< 95) ||| 0x2000#1024) <<< 640
def task0 (r : BitVec 1024) (st : GangSt) : Task :=
  ⟨0, r, .mailbox, 0#12, 0, 0, 0, 0, 0, 1, 1, [⟨0, st, [], 0, 0, [], false⟩], [], [], false, none, 0, [], false⟩
def taskOn (t : Task) (s : State) : State := { s with tasks := [t] }
theorem witness_LaunchUnit : (0 < (winOn boundWin).wins.length ∧ boundWin.bound.isSome = true ∧ boundWin.busy = false) ∧ (State.reset.fabricPorts = [] ∧ open0.fabricPorts ≠ [] ∧
      open0.fabBind.find? (fun q => q.1 == 1#12 && q.2.1 == rcdCtx 0#1024) = none) ∧
    (({ State.reset with fabBind := [(1#12, 0#12, 2#12)] } : State).fabBind.find? (fun q => q.1 == 1#12 && q.2.1 == rcdCtx 0#1024) = some (1#12, 0#12, 2#12)) ∧
    ({ State.reset with failed := true } : State).doorbells.lapse.failed = true ∧
    ((taskOn (task0 0#1024 .queued) State.reset).doorbells.lapse.failed = false ∧
      (taskOn (task0 0#1024 .queued) State.reset).doorbells.lapse.tasks = [task0 0#1024 .queued]) ∧
    ((taskOn (task0 winRcd .blocked) State.reset).task 0 = some (task0 winRcd .blocked) ∧
      (task0 winRcd .blocked).candidate = some ⟨0, .blocked, [], 0, 0, [], false⟩) ∧
    ((taskOn (task0 0#1024 .blocked) State.reset).windowsSet (task0 0#1024 .blocked) 0).1 = some true ∧
    ((taskOn (task0 winRcd .blocked) (mapped k0)).windowsSet (task0 winRcd .blocked) 0).1 = some false ∧
    ((taskOn (task0 winRcd .blocked) State.reset).windowsSet (task0 winRcd .blocked) 0).1 = none ∧
    (holdmaxOf (State.reset.descOf 0#12) < 2 ^ 32 + 1 - 0 ∧ State.reset.ct - 0 ≤ holdmaxOf (State.reset.descOf 0#12)) := by decide +kernel
def savedGang : Gang := ⟨0, .frozen, [], 0, 0, [⟨k0, 0⟩], false⟩
def savedTask : Task := { task0 0#1024 .queued with gangs := [savedGang] }
def kFree : Cluster := { k0 with run := none }
def ended : State := on { k0 with holds := [hold0 .endWait 0] }
theorem witness_GangsAndKills : ((taskOn savedTask (on kFree)).task 0 = some savedTask ∧ savedTask.gangs.find? (fun x => x.idx == 0) = some savedGang ∧
      savedGang.saving = false ∧ savedGang.saved ≠ [] ∧
      (taskOn savedTask (on kFree)).place savedTask savedGang ((taskOn savedTask (on kFree)).usable savedTask) ≠ none ∧ (on kFree).reserve = none) ∧
    ((ended.cl 0).run = some run0 ∧ ended.endReady 0 = true ∧ (ended.cl 0).cps = [] ∧ (ended.cl 0).holdFault = none ∧ (on k0).endReady 0 = false) ∧
    (5#12 ∈ ({ State.reset with killing := [5#12] } : State).killing ∧ State.reset.ctxInFlight 5#12 = false ∧
      (sending 0#12 b1).ctxInFlight 0#12 = true) ∧
    ((on kFree).killing = [] ∧ (on kFree).hand = none ∧ (on kFree).failed = false ∧ ((on kFree).cl 0).run = none ∧ 0 < (on kFree).clusters.length) ∧
    (((on k0).cl 0).run = some run0 ∧ run0.priv = false) ∧ ({ State.reset with killing := [5#12] } : State).killing ≠ [] := by decide +kernel
/-- A task of one gang that runs on cluster 0, from the mailbox or a window; a Bozoak context bound to its context. -/
def killed (src : TaskSrc) : Task := { task0 1#1024 .running with src := src, gangs := [⟨0, .running, [0], 0, 0, [], false⟩] }
def killOn (src : TaskSrc) : State := { on k0 with tasks := [killed src], bz := [b1] }
theorem witness_KillEnds : (((killOn .mailbox).tasks.map (·.id)).Nodup ∧ (killed .mailbox).ctx = 0#12 ∧ rcdVer (killed .mailbox).rcd ≠ 0#8 ∧
      ((killed .mailbox).gangs.map (·.idx)).Nodup ∧ 0 ∈ (⟨0, .running, [0], 0, 0, [], false⟩ : Gang).clusters ∧ ((killOn .mailbox).cl 0).run = some run0 ∧
      run0.task = (killed .mailbox).id ∧ run0.gang = 0) ∧
    ((killed .mailbox).src = .mailbox ∧ (killed (.window 15#4 7#32)).src = .window 15#4 7#32 ∧ (killOn (.window 15#4 7#32)).tasks = [killed (.window 15#4 7#32)]) ∧
    (((killOn .mailbox).bzc 0).bound = true ∧ ((killOn .mailbox).bzc 0).ctx = 0#12 ∧ ((killOn .mailbox).bzc 0).st ≠ .unbound ∧
      ((killOn .mailbox).bzc 1).bound = false) := by decide +kernel
/-- A maintenance run that waits, and one that a kill bars; an occupant with supervisor privilege. -/
theorem witness_Maintenance : (({ on kFree with maintWait := 1#16 } : State).maintWait.getLsbD 0 = true ∧ (on kFree).maintWait.getLsbD 0 = false ∧
      ((on kFree).cl 0).run = none ∧ 0 < (on kFree).clusters.length) ∧
    (((on kP).cl 0).run = some priv0 ∧ priv0.priv = true) ∧
    (({ on kFree with killing := [5#12] } : State).killing ≠ [] ∧ ({ on kFree with killing := [5#12] } : State).maintWait.getLsbD 0 = false) ∧
    (¬((on kFree).killing ≠ [] ∨ (on kFree).hand.isSome = true ∨ (on kFree).failed = true)) := by decide +kernel
theorem witness_TablesAndSnapshots : ((0x8000000000000000#64).getLsbD 63 = true ∧ (State.reset.descOf 7#12).getLsbD 63 = false) ∧
    (7#12, 0#57, 0xFFF#57) ∈ ({ State.reset with tlbInv := [(7#12, 0#57, 0xFFF#57)] } : State).tlbInv ∧
    (snapClean 0#512).getLsbD 383 = false ∧
    ((snapClean (1#512 <<< 383)).getLsbD 383 = true ∧ State.reset.snapOk (snapOf 0 (snapClean (1#512 <<< 383))) = false) := by decide +kernel
/-- A region that is enabled, of a context with no run and of one with a run. -/
def snapped (s : State) : State := { s with snap := [1#512 <<< 383] ++ List.replicate 15 0#512 }
theorem witness_Snaproll : ((snapped State.reset).snaps.find? (fun q => q.idx == 0)).isSome = true ∧ (snapped State.reset).ctxLive 0#12 = false ∧
    (snapped (on k0)).ctxLive 0#12 = true := by decide +kernel
/-- A window that admits reads alone, of the first MiB and from any source. -/
theorem witness_OutsideAccesses :
    (open0.hand = none ∧ open0.fabricIde = true ∧
      open0.inWin.any (fun w => winAdmits w 5#12 .read (0x1000#39 : BitVec 39).toNat (AccKind.size .read (List.replicate 64 0#8).length)) = true ∧
      open0.outsideOk .read (0x1000#39 : BitVec 39).toNat (List.replicate 64 0#8) = true) ∧
    open0.inWin.any (fun w => winAdmits w 5#12 .write (0x1000#39 : BitVec 39).toNat 64) = false ∧
    open0.inWin.any (fun w => winAdmits w 5#12 .read (0xFFFC1#39 : BitVec 39).toNat 64) = false ∧
    (open0.portOpen 0 true = true ∧ open0.outsideOk .write (0x1000#39 : BitVec 39).toNat (List.replicate 64 0#8) = true ∧
      (0x1000#39 : BitVec 39).toNat + 64 ≤ 2 ^ 39) ∧
    State.reset.portOpen 0 true = false ∧ State.reset.portOpen 0 false = false ∧ State.reset.fabricIde = false ∧
    (open0.portOpen 0 false = true ∧ 0x10000 ≤ (0x10078#22 : BitVec 22).toNat ∧ (0x10078#22 : BitVec 22).toNat < 0x20000 ∧ (0x10078#22 : BitVec 22).toNat % 8 = 0 ∧
      (0x10078#22 : BitVec 22).toNat % 0x1000 < 0x80) ∧
    (0x100000 ≤ (0x10F008#22 : BitVec 22).toNat ∧ (0x10F008#22 : BitVec 22).toNat < 0x110000 ∧ (0x10F008#22 : BitVec 22).toNat % 0x1000 = 8) := by
  decide +kernel
theorem witness_Limits : ((keyed State.reset).portOpen 0 false = true ∧ 2600 < (2601#32 : BitVec 32).toNat ∧ ¬ 2600 < (2600#32 : BitVec 32).toNat) ∧
    (State.reset.clusters.length = 16 ∧ State.reset.droopUsed.length = 16) ∧
    (({ State.reset with droopUsed := List.replicate 16 818 } : State).droopUsed.getD 15 0 ≤ 818 ∧
      818 < ({ State.reset with droopUsed := List.replicate 16 819 } : State).droopUsed.getD 15 0) ∧
    (14 ∉ State.reset.gangMates 15) := by decide +kernel
theorem witness_PlatformAndResets : 400 ≤ (400#32 : BitVec 32).toNat ∧ (70 ≤ (70#16 : BitVec 16).toNat ∧ (70#16 : BitVec 16).toNat ≤ (115#16 : BitVec 16).toNat ∧
      (115#16 : BitVec 16).toNat ≤ 115) ∧ (1 ≤ (255#32 : BitVec 32).toNat ∧ (255#32 : BitVec 32).toNat ≤ 255 ∧ 1 ≤ (3600#32 : BitVec 32).toNat ∧
      (3600#32 : BitVec 32).toNat ≤ 3600) ∧ State.reset.droopUsed.getD 15 0 ≤ 818 ∧ State.reset.gangMates 15 = [15] := by decide +kernel
def hot0 : State := { State.reset with clusters := k0 :: k0 :: List.replicate 14 Cluster.reset, sensors := 116 :: List.replicate 271 0 }
/-- Two clusters of a gang on a die above TCRIT. The monitors' readings are open, so of the two cases of a sample none is shown. -/
theorem witness_PowerWindow : hot0.clusters.length = 16 ∧ hot0.tcrit.toNat < hot0.hottest (1 / 4) ∧ ¬ hot0.tcrit.toNat < hot0.hottest (15 / 4) ∧
    (hot0.cl 0).gangOf.isSome = true ∧ (hot0.cl 0).gangOf = (hot0.cl 1).gangOf := by decide +kernel
def loadOn : Core := { Core.reset with pipe := [⟨.v, .v, 0, 0, .v0, 0, 1, 0, 0#256, 0xFFFFFFFF#32, [], none, none, 0#3, ⟨0#57, 0⟩⟩] }
/-- An entry of the image whose value may be edited, and none at the next place. -/
theorem witness_DebugEvents : ((on k0).cl 0).halted = false ∧ ({ k0 with halted := true } : Cluster).halted = true ∧
    (∃ x, (({ k0 with cores := [loadOn] } : Cluster).capture.core 0).edit ({ k0 with cores := [loadOn] } : Cluster).now 0 (.mask 1#32) = some x) ∧
    (({ k0 with cores := [loadOn] } : Cluster).capture.core 0).edit ({ k0 with cores := [loadOn] } : Cluster).now 1 (.mask 1#32) = none :=
  ⟨by decide +kernel, by decide +kernel, Option.isSome_iff_exists.1 (by decide +kernel), by decide +kernel⟩
/-- A register of each kind that WRREG tells apart. -/
theorem witness_RegisterWrites : (DbgReg.core (.v 255#8 63#6) = some 255#8) ∧ (DbgReg.core .pc = none ∧ DbgReg.pc ≠ .ageq ∧ (∀ l st, DbgReg.pc ≠ .loop l st) ∧
    (∀ m f, DbgReg.pc = .tm m f → f.val ≠ 0)) ∧ (DbgReg.tm 15#4 0 = .tm 15#4 0 ∧ (0 : Fin 53).val = 0) ∧
    (DbgReg.core (.tm 15#4 52) = none ∧ ∀ m f, DbgReg.tm 15#4 52 = .tm m f → f.val ≠ 0) :=
  ⟨rfl, ⟨rfl, (by decide), (fun _ _ h => by cases h), fun _ _ h => by cases h⟩, ⟨rfl, rfl⟩, rfl, fun _ _ h => by cases h; decide⟩
def hand0 : Handover := ⟨0#256, 1, 0, 0, 0, false, 0#8, 0#16, []⟩
theorem witness_Handover : ((keyed (killOn .mailbox)).portOpen 0 false = true ∧ (keyed (killOn .mailbox)).hand = none ∧
      ((keyed (killOn .mailbox)).tasks.map (·.id)).Nodup ∧ killed .mailbox ∈ (keyed (killOn .mailbox)).tasks ∧
      ((killed .mailbox).gangs.map (·.idx)).Nodup ∧ ((keyed (killOn .mailbox)).cl 0).run = some run0) ∧
    (({ keyed State.reset with hand := some hand0 } : State).portOpen 0 false = true ∧ ({ keyed State.reset with hand := some hand0 } : State).hand.isSome = true) ∧
    State.reset.portOpen 0 false = false := by decide +kernel
theorem witness_SecurityEvents : State.reset.hand = none ∧ ({ State.reset with hand := some hand0 } : State).hand.isSome = true ∧
    (({ State.reset with hand := some hand0 } : State).hand = some hand0 ∧ hand0.failed = false) ∧ 7 ≤ (7#4 : BitVec 4).toNat ∧ (6#4 : BitVec 4).toNat < 7 ∧
    State.reset.spdmUp = true ∧ (1#8 : BitVec 8) ≠ 0#8 ∧ (1 ≤ (16#8 : BitVec 8).toNat ∧ (16#8 : BitVec 8).toNat ≤ 16) ∧ (17#8 : BitVec 8).toNat ≤ 17 ∧
    ({ State.reset with sessions := [⟨0, 0#384, true⟩] } : State).sessions = [⟨0, 0#384, true⟩] ∧ (⟨0, 0#384, false⟩ : Session).live = false := by decide +kernel
theorem witness_FrameOfResults : Instr.isResult (.add 1#5 1#5 2#5) = true ∧ ∃ t, exec (.add 1#5 1#5 2#5) (ops 1#64 2#64) = .next t := ⟨rfl, _, rfl⟩
theorem witness_FrameOfCoreWork : (Instr.inA (.aaddi 1#4 0#4 1#18) = true ∧ ∃ t, exec (.aaddi 1#4 0#4 1#18) (on k0) = .next t) ∧
    (Instr.inV (.vnot ⟨.w256 0#2, false, 0#4⟩ .w8 3#6 ⟨1#6, 0#2⟩) = true ∧ ∃ t, exec (.vnot ⟨.w256 0#2, false, 0#4⟩ .w8 3#6 ⟨1#6, 0#2⟩) (on k0) = .next t) :=
  ⟨⟨by decide +kernel, _, rfl⟩, by decide +kernel, _, rfl⟩
theorem witness_FrameOfArray : Instr.inM (.mzero (some 3#2)) = true ∧ ∃ t, exec (.mzero (some 3#2)) (on k0) = .next t := ⟨by decide +kernel, _, rfl⟩
theorem witness_FrameOfMemory : Instr.inBundle (.stf .b8 1#5 2#5 0#12) = true ∧ ∃ t, exec (.stf .b8 1#5 2#5 0#12) (on k0) = .next t := ⟨by decide +kernel, _, rfl⟩
theorem next_of {r : Res} (h : (match r with | .next _ => true | _ => false) = true) : ∃ t, r = .next t := by
  cases r with
  | next t => exact ⟨t, rfl⟩
  | fault _ => cases h
  | refused _ => cases h
/-- The words that look at the lines after them; a TRAP in a bundle that holds, and in one that does not. -/
theorem witness_FrameOfMemory_lines : (∃ t, exec (.call 31#5 0#21) callOn = .next t) ∧ (∃ t, exec (.loop 2#16) callOn = .next t) ∧
    (∃ t, exec (.trap 0#16) callOn = .next t) ∧ callOn.me.holds = [] ∧ (held .ttsync 0).me.holds ≠ [] :=
  ⟨next_of (by decide +kernel), next_of (by decide +kernel), next_of (by decide +kernel), rfl, by decide⟩
theorem witness_ResultLandsInItsRegister : (⟨.s 5#5, 1#256, 1⟩ : SEntry).dest = .s 5#5 ∧ k0.s.length = 32 ∧ (5#5 : BitVec 5) ≠ 6#5 ∧
    (⟨.b 7#3, 1#256, 1⟩ : SEntry).dest = .b 7#3 ∧ (7#3 : BitVec 3) ≠ 6#3 ∧ (⟨.cmsk, 1#256, 1⟩ : SEntry).dest ≠ .rrbv ∧
    (⟨.link 31#5, 10#256, 1⟩ : SEntry).dest = .link 31#5 := by decide +kernel
def slice0 : PEntry := ⟨.v, .v, 63, 3, .v0, 1, 1, 0, 0#256, 1#32, [], none, none, 0#3, ⟨0#57, 0⟩⟩
theorem witness_LanesLand : slice0.kind = .v ∧ slice0.dest < Core.reset.v.length ∧ slice0.part < 4 ∧ 63 < Core.reset.v.length ∧
    (96 / 32 = slice0.part ∧ slice0.mask.getLsbD (96 % 32) = true) ∧ ¬ 97 / 32 ≠ slice0.part ∧ slice0.mask.getLsbD (97 % 32) = false := by decide +kernel
/-- The last register of each kind and its last slice; a bit written and p0; a write of the last field of a map, due and not, and one of a format table. -/
def sliceOf (k : PKind) (dest part : Nat) : PEntry := ⟨k, k, dest, part, .v0, 1, 1, 0, BitVec.allOnes 256, 0x80000001#32, [], none, none, 0#3, ⟨0#57, 0⟩⟩
theorem witness_OtherLanesLand : ((sliceOf .p 15 0).dest < Core.reset.p.length ∧ (sliceOf .p 15 0).val.getLsbD (128 + 127) = true ∧ (15 : Nat) ≠ 0) ∧
    ((sliceOf .d 7 7).dest < Core.reset.dPts.length ∧ (sliceOf .d 7 7).part < 8 ∧ 255 / 32 = (sliceOf .d 7 7).part ∧ (sliceOf .d 7 7).mask.getLsbD (255 % 32) = true) ∧
    ((sliceOf .dwords 7 0).dest < Core.reset.dWords.length ∧ (sliceOf .dwords 7 0).mask.getLsbD 0 = true ∧ (sliceOf .dwords 7 0).mask.getLsbD 15 = false) ∧
    ((sliceOf .a 15 0).dest < Core.reset.a.length ∧ (sliceOf .a 15 0).mask.getLsbD 0 = true ∧ (sliceOf .a 15 0).mask.getLsbD 3 = false) := by decide +kernel
def tmDue (t : Nat) : Cluster := { k0 with tmw := [⟨64 * 15 + 52, 1#64, t⟩] }
def ftDue (t : Nat) (f : Option FtField) : Cluster := { k0 with ftw := [⟨7#3, f, BitVec.allOnes 64, 1#256, t⟩] }
theorem witness_TableWritesLand : ((tmDue 0).tmw = [⟨64 * 15 + 52, 1#64, 0⟩] ∧ (tmDue 0).ftw = [] ∧ 0 ≤ (tmDue 0).now ∧ swfFrom 0#64 0 (tmDue 0).tm = true ∧
      64 * (15#4 : BitVec 4).toNat + 52 = 64 * 15 + 52) ∧
    ((ftDue 0 none).tmw = [] ∧ 0 ≤ (ftDue 0 (some .t)).now ∧ 0 < (ftDue 0 none).cores.length ∧ ((ftDue 0 none).core 0).ft.length = 8 ∧
      (1#256 : BitVec 256).getLsbD 0 = true ∧ (7#3 : BitVec 3).toNat = 7) ∧
    ((∀ w, w ∈ (tmDue 9).tmw → (tmDue 9).now < w.land) ∧ ∀ f, f ∈ (ftDue 9 none).ftw → (ftDue 9 none).now < f.land) := by
  refine ⟨by decide +kernel, by decide +kernel, fun w h => ?_, fun f h => ?_⟩
  · simp only [tmDue, List.mem_singleton] at h; subst h; decide
  · simp only [ftDue, List.mem_singleton] at h; subst h; decide
theorem witness_RotationIsOneToOne : (31#6 : BitVec 6).toNat < 32 ∧ 32 ≤ (32#6 : BitVec 6).toNat ∧ (7#4 : BitVec 4).toNat < 8 ∧ 8 ≤ (8#4 : BitVec 4).toNat ∧
    physV 31#5 63#6 = physV 31#5 63#6 ∧ physP 7#3 15#4 = physP 7#3 15#4 := by decide
theorem witness_StoresWriteTheirBytes : (Cluster.reset.cores.length = 256 ∧ (Cluster.reset.cores.all fun x => Memory.wf x.spm) = true ∧ 2 ^ 26 - 1 < 2 ^ 26) ∧
    (Memory.wf State.reset.mem = true ∧ State.reset.snaps = [] ∧ (State.reset.clusters.all fun k => k.upd.isEmpty) = true) := by decide +kernel
/-- One that flips at exact counts, one that is short, and one that overflows. -/
theorem witness_PennantMerges : let p := pennantInit 0x400001#64
    ((p.extractLsb' 42 10).toNat ≤ 1 ∧ (p.extractLsb' 0 21).toNat ≤ 256) ∧ ¬ (p.extractLsb' 0 21).toNat ≤ 255 ∧ (p.extractLsb' 0 21).toNat < 257 := by
  decide
def crossing : State := { on { k0 with pc := 60#57, win := [(0, 1#512 <<< 480)] } with agenda := [.issue 0] }
def crossing0 : State := { crossing with agenda := [], cur := ⟨0, .s, crossing.cur.bz⟩ }
theorem witness_CrossingBundleTraps : crossing.agenda = .issue 0 :: [] ∧ crossing0.mayIssue 0 ∧
    (((crossing0.onCl 0 Cluster.trimWin).cl 0).win.find? fun x => x.1 == ((crossing0.onCl 0 Cluster.trimWin).cl 0).pc.toNat / 64) = some (0, 1#512 <<< 480) ∧
    (1#512 <<< 480 : BitVec 512).extractLsb' (8 * 60) 8 ≠ 0#8 ∧ 64 < 60 + bundleLen ((1#512 <<< 480).extractLsb' (8 * 60) 8) :=
  ⟨rfl, ⟨rfl, rfl, by decide, rfl, rfl, rfl, rfl, rfl, rfl, rfl⟩, by decide +kernel, by decide +kernel, by decide +kernel⟩
/-- A handler, the one cause and the other, and a run in its handler already. -/
theorem witness_TrapDelivery : 0 < (on k0).clusters.length ∧ ((on k0).cl 0).run = some run0 ∧ ((on k0).cl 0).traphnd = 0#64 ∧
    (({ k0 with traphnd := 64#64 } : Cluster).traphnd ≠ 0#64 ∧ runHandled cSOFT = true ∧ k0.handler = none) ∧ runHandled cMACHINE = false ∧ kH.handler ≠ none := by
  decide +kernel
theorem witness_HandlerEntry : 0 < (on { k0 with traphnd := 64#64 }).clusters.length ∧ ((on { k0 with traphnd := 64#64 }).cl 0).traphnd ≠ 0#64 ∧
    runHandled cSOFT = true ∧ ((on { k0 with traphnd := 64#64 }).cl 0).handler = none := by decide +kernel
/-- A handler that wrote s1 and moved TRAPPC on. -/
theorem witness_ReturnUndoesEntry : k0.handler = none ∧
    ({ k0.enterHandler true 0#57 with s := sRegs 1#64 0#64, trappc := 5#64 } : Cluster).handler = (k0.enterHandler true 0#57).handler ∧
    ({ k0.enterHandler true 0#57 with s := sRegs 1#64 0#64, trappc := 5#64 } : Cluster).cores.length = k0.cores.length := ⟨rfl, rfl, rfl⟩

end Sys2Proof.Tests
end

section
/-!
PROOFS. A bundle that would leave its fetch line: the line's byte at PC, the decoder's answer, the sequencer's turn where it may issue, and the trap.
-/
namespace Sys2Proof.Machine

/-! ### The bytes of a fetch line -/

/-- Byte o of a fetch line is the eight bits from 8 * o on (R6, R84). -/
theorem lineBytes_getD (w : BitVec 512) {o : Nat} (ho : o < 64) :
    ((List.range 64).map fun i => w.extractLsb' (8 * i) 8).getD o 0#8 = w.extractLsb' (8 * o) 8 := by
  simp [List.getD, ho]

theorem decodeBundle_of_crossing {line : List Byte} {o : Nat} (hpad : line.getD o 0#8 ≠ 0#8) (hlen : 64 < o + bundleLen (line.getD o 0#8)) :
    decodeBundle line o = .error .crossing := by
  unfold decodeBundle
  rw [if_neg hpad, if_pos hlen]

/-! ### What trimming the code window leaves as it was -/

@[simp] theorem Cluster.trimWin_soft (k : Cluster) : k.trimWin.soft = k.soft := rfl
@[simp] theorem Cluster.trimWin_holdFault (k : Cluster) : k.trimWin.holdFault = k.holdFault := rfl
@[simp] theorem Cluster.trimWin_cps (k : Cluster) : k.trimWin.cps = k.cps := rfl
@[simp] theorem Cluster.trimWin_now (k : Cluster) : k.trimWin.now = k.now := rfl

/-! ### The sequencer's turn where it may issue -/

/-- A cluster with a run is one of the device's: what is read beyond them is a cluster in reset, which has none. -/
theorem State.lt_length_of_run {s : State} {c : Nat} (h : (s.cl c).run.isSome = true) : c < s.clusters.length := by
  by_contra hc
  have hreset : s.cl c = Cluster.reset := by simp [State.cl, List.getD, hc]
  rw [hreset] at h
  exact absurd h (by decide)

theorem State.dueTrap_eq_none {s : State} {c : Nat} (hsoft : (s.cl c).soft = none) (hfault : (s.cl c).holdFault = none)
    (hcps : ((s.cl c).cps.filter fun t => decide (t.due ≤ (s.cl c).now)) = []) : s.dueTrap c = none := by
  simp only [State.dueTrap, hsoft, hfault, hcps]

/-- Where the sequencer may issue, no trap is due at the bundle, and trimming the window brings none. -/
theorem State.mayIssue.dueTrap_trimWin {s : State} {c : Nat} (h : s.mayIssue c) : (s.onCl c Cluster.trimWin).dueTrap c = none := by
  obtain ⟨hrun, -, -, -, hsoft, hfault, hcps, -, -, -⟩ := h
  have hcl := State.cl_onCl_same s c Cluster.trimWin (State.lt_length_of_run hrun)
  apply State.dueTrap_eq_none
  · rw [hcl, Cluster.trimWin_soft, hsoft]
  · rw [hcl, Cluster.trimWin_holdFault, hfault]
  · rw [hcl, Cluster.trimWin_cps, Cluster.trimWin_now, hcps]

/-- Where the sequencer may issue, its turn goes to the bundle at PC. -/
theorem State.issueTurn_of_mayIssue {s : State} {c : Nat} (h : State.mayIssue { s with cur := ⟨c, .s, s.cur.bz⟩ } c) :
    s.issueTurn c = (State.onCl { s with cur := ⟨c, .s, s.cur.bz⟩ } c Cluster.trimWin).atPc c 512 := by
  obtain ⟨hrun, hfrozen, hthrottle, hnop, -, -, -, hrft, hending, hmaint⟩ := h
  have hrun' := Option.isNone_eq_false_iff.mpr hrun
  have hthrottle' := Nat.not_lt.mpr hthrottle
  simp [State.issueTurn, hrun', hfrozen, hthrottle', hnop, hrft, hending, hmaint]

/-- A step with a cluster's issue turn at the head of the agenda is that turn. -/
theorem step_issue {s : State} {c : Nat} {r : List Turn} (hc : c < 16) (ha : s.agenda = .issue c :: r) :
    step s = State.issueTurn { s with agenda := r } c := by
  simp only [step, State.advance, ha, turn, if_pos hc]

/-- The bundle at PC, its line in the window and no trap due, is the illegal-bundle trap where its length would leave the line (R84). -/
theorem State.atPc_of_crossing {s : State} {c line fuel : Nat} {w : BitVec 512}
    (hwin : (s.cl c).win.find? (fun x => x.1 == (s.cl c).pc.toNat / 64) = some (line, w))
    (hpad : w.extractLsb' (8 * ((s.cl c).pc.toNat % 64)) 8 ≠ 0#8)
    (hlen : 64 < (s.cl c).pc.toNat % 64 + bundleLen (w.extractLsb' (8 * ((s.cl c).pc.toNat % 64)) 8))
    (hdue : s.dueTrap c = none) : s.atPc c (fuel + 1) = .next (s.issueTrap c { cause := cILLBUN, info := 1#16 }) := by
  have hbyte := lineBytes_getD w (Nat.mod_lt (s.cl c).pc.toNat (by decide : 0 < 64))
  have hdec := decodeBundle_of_crossing (hbyte.symm ▸ hpad) (hbyte.symm ▸ hlen)
  simp only [State.atPc, hwin, hdec, hdue]

/-- Settles O57: the turn reaches the bundle at PC with no trap due, and the decoder refuses the bundle as crossing. -/
theorem crossingBundleTraps : Obligations.CrossingBundleTraps := by
  unfold Obligations.CrossingBundleTraps
  intro s c r line w hc ha s0 s1 o h hmay hwin hpad hlen
  calc step s = State.issueTurn { s with agenda := r } c := step_issue hc ha
    _ = s1.atPc c 512 := State.issueTurn_of_mayIssue hmay
    _ = .next (s1.issueTrap c { cause := cILLBUN, info := 1#16 }) := State.atPc_of_crossing hwin hpad hlen hmay.dueTrap_trimWin

end Sys2Proof.Machine
end

section
/-!
PROOFS. FOP: its one answer for every operation, and when a word of the complement is an instruction.
-/
namespace Sys2Proof.Machine

/-- FOP always completes, with the operation of the two flags under way (R129). -/
theorem exec_fop_eq_next (s : State) (op : FlagOp) (bd ba bb : BitVec 3) :
    exec (.fop op bd ba bb) s = .next (s.bResult bd (op.apply (s.me.flag ba) (s.me.flag bb))) := by
  rw [exec_fop, execFop, State.bOut_next]

/-- The complement reads no second flag, so its field must be zero (R129). -/
theorem wf_fop_not (bd ba bb : BitVec 3) : Instr.wf (.fop .not bd ba bb) = (bb == 0#3) := rfl

/-- Settles O13, from FOP's one answer and the operation's four cases. -/
theorem flagOperations : Obligations.FlagOperations := by
  unfold Obligations.FlagOperations
  refine ⟨fun s op bd ba bb => ⟨_, exec_fop_eq_next s op bd ba bb, ?_⟩, fun s bd ba bb => ⟨?_, ?_, ?_, ?_⟩, fun bd ba bb hbb => ?_⟩
  · cases op <;> rfl
  · exact exec_fop_eq_next s .and bd ba bb
  · exact exec_fop_eq_next s .or bd ba bb
  · exact exec_fop_eq_next s .xor bd ba bb
  · exact exec_fop_eq_next s .not bd ba bb
  · rw [wf_fop_not, beq_eq_false_iff_ne]
    exact hbb

end Sys2Proof.Machine
end

section
/-!
PROOFS. A step keeps soundness: a step is a turn of the cycle, and every turn keeps it.
-/
namespace Sys2Proof.Machine

/-- Settles O11, from what every turn of a cycle keeps. -/
theorem stepKeepsSoundness : Obligations.StepKeepsSoundness := by
  unfold Obligations.StepKeepsSoundness
  intro s t hinv hstep
  have hres : ResInv (step s) := State.advance_inv s hinv
  rw [hstep] at hres
  exact hres

end Sys2Proof.Machine
end

section
/-!
PROOFS. Every instruction's word decodes to it: the instructions' own statements, put together.
-/
namespace Sys2Proof.Laws.Encoding

/-- The statement of every instruction, from its own; an event of the device has no word. -/
theorem statement_all : ∀ i : Instr, Statement i
  | .add .. => add _ _ _ | .sub .. => sub _ _ _ | .and .. => and _ _ _ | .or .. => or _ _ _ | .xor .. => xor _ _ _ | .shl .. => shl _ _ _
  | .shr .. => shr _ _ _ | .sra .. => sra _ _ _ | .mul .. => mul _ _ _ | .mulh .. => mulh _ _ _ _ | .min .. => min _ _ _ _ | .max .. => max _ _ _ _
  | .addImm .. => addImm _ _ _ | .subImm .. => subImm _ _ _ | .andImm .. => andImm _ _ _ | .orImm .. => orImm _ _ _ | .xorImm .. => xorImm _ _ _
  | .shlImm .. => shlImm _ _ _ | .shrImm .. => shrImm _ _ _ | .sraImm .. => sraImm _ _ _ | .mulImm .. => mulImm _ _ _ | .mulhImm .. => mulhImm _ _ _
  | .minImm .. => minImm _ _ _ | .maxImm .. => maxImm _ _ _ | .cmp .. => cmp _ _ _ _ | .cmpImm .. => cmpImm _ _ _ _ | .fop .. => fop _ _ _ _
  | .nopn .. => nopn _ | .ldi .. => ldi _ _ | .ldih .. => ldih _ _ _ | .br .. => br _ _ | .jmp .. => jmp _ | .call .. => call _ _ | .ret .. => ret _
  | .loop .. => loop _ | .loopReg .. => loopReg _ | .lbrk .. => lbrk _ _ | .pini .. => pini _ _ | .parr .. => parr _ | .pwait .. => pwait _ _
  | .pwaitImm .. => pwaitImm _ _ | .bset .. => bset _ _ _ | .bwait .. => bwait _ _ _ | .ldf .. => ldf _ _ _ _ _ | .stf .. => stf _ _ _ _
  | .atom .. => atom _ _ _ _ _ _ _ _ _ | .fence .. => fence _ _ | .cred .. => cred _ _ _ | .cmsk .. => cmsk _ | .tex .. => tex _ _
  | .texReg .. => texReg _ _ _ | .srr .. => srr _ _ | .srw .. => srw _ _ | .trap .. => trap _ | .lnch .. => lnch _ _ | .aadd .. => aadd _ _ _
  | .asub .. => asub _ _ _ | .aaddi .. => aaddi _ _ _ | .ashl .. => ashl _ _ _ | .amov .. => amov _ _ | .aldi .. => aldi _ _ | .acix .. => acix _ _
  | .afroms .. => afroms _ _ | .shw .. => shw _ _ _ | .shwi .. => shwi _ _ _ | .ftw .. => ftw _ _ | .ftwField .. => ftwField _ _ _
  | .vld .. => vld _ _ _ _ _ | .vst .. => vst _ _ _ _ | .vldb .. => vldb _ _ _ _ _ | .vlds .. => vlds _ _ _ _ _ | .vldx .. => vldx _ _ _ _ _
  | .vstx .. => vstx _ _ _ _ _ | .pld .. => pld _ _ _ _ | .pst .. => pst _ _ _ | .dld .. => dld _ _ _ _ | .dst .. => dst _ _ _
  | .vldf .. => vldf _ _ _ _ _ | .vstf .. => vstf _ _ _ _ _ | .vupd .. => vupd _ _ _ _ _ _ | .vadd .. => vadd _ _ _ _ _ _ _
  | .vsub .. => vsub _ _ _ _ _ _ _ | .vmul .. => vmul _ _ _ _ _ | .vmulh .. => vmulh _ _ _ _ _ _ | .vmad .. => vmad _ _ _ _ _ _
  | .vmin .. => vmin _ _ _ _ _ _ | .vmax .. => vmax _ _ _ _ _ _ | .vabs .. => vabs _ _ _ _ _ | .vneg .. => vneg _ _ _ _ _
  | .vand .. => vand _ _ _ _ _ | .vor .. => vor _ _ _ _ _ | .vxor .. => vxor _ _ _ _ _ | .vnot .. => vnot _ _ _ _ | .vshl .. => vshl _ _ _ _ _
  | .vshr .. => vshr _ _ _ _ _ | .vsra .. => vsra _ _ _ _ _ | .vclz .. => vclz _ _ _ _ | .vpopc .. => vpopc _ _ _ _ | .fadd .. => fadd _ _ _ _ _
  | .fsub .. => fsub _ _ _ _ _ | .fmul .. => fmul _ _ _ _ _ | .ffma .. => ffma _ _ _ _ _ _ | .ffms .. => ffms _ _ _ _ _ _
  | .fmin .. => fmin _ _ _ _ _ | .fmax .. => fmax _ _ _ _ _ | .fabs .. => fabs _ _ _ _ | .fneg .. => fneg _ _ _ _ | .fcps .. => fcps _ _ _ _ _
  | .fexp2 .. => fexp2 _ _ _ _ | .flog2 .. => flog2 _ _ _ _ | .frcp .. => frcp _ _ _ _ | .frsq .. => frsq _ _ _ _ | .fsqrt .. => fsqrt _ _ _ _
  | .ftanh .. => ftanh _ _ _ _ | .fsigm .. => fsigm _ _ _ _ | .fsin .. => fsin _ _ _ _ | .fcos .. => fcos _ _ _ _ | .vcmp .. => vcmp _ _ _ _ _ _
  | .fcmp .. => fcmp _ _ _ _ _ _ | .vsel .. => vsel _ _ _ _ _ | .fcls .. => fcls _ _ _ _ | .vcvt .. => vcvt _ _ _ _ _ _
  | .vpack .. => vpack _ _ _ _ _ | .vunpk .. => vunpk _ _ _ _ _ | .vqnt .. => vqnt _ _ _ | .vdqt .. => vdqt _ _ _ | .vred .. => vred _ _ _ _
  | .vamax .. => vamax _ _ _ _ _ | .vscan .. => vscan _ _ _ _ _ | .vperm .. => vperm _ _ _ _ _ | .vshuf .. => vshuf _ _ _ _ _ _
  | .vbcst .. => vbcst _ _ _ _ _ | .vsld .. => vsld _ _ _ _ _ _ | .vzip .. => vzip _ _ _ _ _ _ | .vmov .. => vmov _ _ _ _ _
  | .vmovi .. => vmovi _ _ _ _ | .pand .. => pand _ _ _ _ | .por .. => por _ _ _ _ | .pxor .. => pxor _ _ _ _ | .pnot .. => pnot _ _ _
  | .pcnt .. => pcnt _ _ _ _ | .pfirst .. => pfirst _ _ _ _ | .vrnd .. => vrnd _ _ _ | .vchk .. => vchk _ _ _ _ _ _ _ _ | .mbld .. => mbld _ _ _ _ _
  | .mbldh .. => mbldh _ | .mrow .. => mrow _ _ _ _ _ _ _ _ _ | .mchk .. => mchk _ _ _ _ _ | .mzero .. => mzero _ | .macc .. => macc _ _
  | .mdrn .. => mdrn _ _ _ _ _ _ _ | .mdrnk .. => mdrnk _ _ _ _ _ _ _ _ _ | .mstat .. => mstat _ _ | .mrd .. => mrd _ _ _ | .mwr .. => mwr _ _ _
  | .mrot .. => mrot _ _ _ _ | .mdiag .. => mdiag _ | .mspr .. => mspr _ _ _ | .xld .. => xld _ | .xldw .. => xldw _ | .xst .. => xst _
  | .xput .. => xput _ | .xb .. => xb _ | .xpsh .. => xpsh _ _ _ | .xgth .. => xgth _ | .xsct .. => xsct _ | .xchn .. => xchn _
  | .xpair .. => xpair _ | .xfil .. => xfil _ _ | .xcol .. => xcol _ _ | .xfen .. => xfen _ | .xcan .. => xcan _ _ | .dadd .. => dadd _ _ _ _
  | .dsub .. => dsub _ _ _ _ | .dmul .. => dmul _ _ _ _ | .dmax .. => dmax _ _ _ _ | .dmin .. => dmin _ _ _ _ | .daff .. => daff _ _ _
  | .dmap .. => dmap _ _ _ | .dmix .. => dmix _ _ _ _ | .dfrs .. => dfrs _ _ | .dfrw .. => dfrw _ _ | .dpnt .. => dpnt _ _ | .dsmp .. => dsmp _ _
  | .dmom .. => dmom _ _ | .dqnt .. => dqnt _ _ _ | .dtag .. => dtag _ _ _ _ | .dmov .. => dmov _ _ _ | .dcnd .. => dcnd _ _ _
  | .send .. => send _ _ _ _ | .recv .. => recv _ _ | .rrs .. => rrs _ _ _ _ _ _ | .rrd .. => rrd _ _ _ | .copy .. => copy _ | .waitc .. => waitc _
  | .sig .. => sig _ _ _ | .sigBit .. => sigBit _ | .waits .. => waits _ _ | .bzLoop .. => bzLoop _ _ | .setv .. => setv _ _ | .addv .. => addv _ _ _
  | .peer .. => peer _ _ | .peerInd .. => peerInd _ _ | .peerXor .. => peerXor _ _ | .bar .. => bar _ _ | .nop .. => nop | .endl .. => endl
  | .ttsync .. => ttsync | .rft .. => rft | .endRun .. => endRun | .yieldRun .. => yieldRun | .bzEndl .. => bzEndl | .bzEnd .. => bzEnd
  | .bzNop .. => bzNop
  | .bozoakContextTurn .. | .bzcmdStart .. | .bzcmdStop .. | .bzcmdClrcnt .. | .bzbindWrite .. | .chunkCount .. | .deliveryComplete ..
  | .deliveryFailure .. | .signalArrival .. | .hostLaunchDoorbell .. | .completionHeadWrite .. | .supervisorRecord .. | .forwardedFabricRecord ..
  | .launchDispatch .. | .buntingWindowReread .. | .windowTimeout .. | .ageingPeriod .. | .preemptionFreeze .. | .checkpointSave .. | .gangResume ..
  | .kill .. | .killdone .. | .runEnd .. | .farAccessHoldEnd .. | .pwaitResume .. | .bwaitComplete .. | .ttsyncRelease .. | .lnchAnswer ..
  | .amaxfComplete .. | .holdTimeout .. | .slipLimit .. | .slipEnd .. | .codeFetchArrival .. | .gatherEntryArrival .. | .copyCommandStart ..
  | .copyCommandComplete .. | .bsetPerform .. | .postedAtomPerform .. | .updateLineMerge .. | .windowWrite .. | .remotePennantUpdate ..
  | .resultLanding .. | .scratchpadPerform .. | .planeReady .. | .arrayColumnStep .. | .drainComplete .. | .maintenanceRun .. | .translationReplay ..
  | .launchWindowBind .. | .contextDescriptorWrite .. | .peerWindowWrite .. | .peerInboundRequest .. | .snapshotDescriptorWrite .. | .snaproll ..
  | .tlbInvalidation .. | .tlbInvalidationComplete .. | .pcapWrite .. | .temperatureLimitWrite .. | .columnEventLimitWrite .. | .halt .. | .step ..
  | .resume .. | .rdreg .. | .wrreg .. | .rdimg .. | .edimg .. | .handover .. | .handoverStepOverrun .. | .getVersion .. | .getCapabilities ..
  | .negotiateAlgorithms .. | .getDigests .. | .getCertificate .. | .challenge .. | .getMeasurements .. | .keyExchange .. | .finish ..
  | .endSession .. | .ideKm .. | .powerWindow .. | .throttleHoldEnd .. | .droopDetect .. | .monitorSample .. | .patrolScrub .. | .generatorReseed ..
  | .linkFailure .. | .coldReset .. | .warmReset .. | .registerWrite .. | .noiseSourceFailure .. | .measurementSlotExtend .. | .hostHdmAccess ..
  | .forwardedRecordRefusal .. => of_event rfl rfl

end Sys2Proof.Laws.Encoding

namespace Sys2Proof.Machine

/-- Settles O1: an instruction that is no event of the device has a word, by its own statement. -/
theorem encodedInstructionDecodes : Obligations.EncodedInstructionDecodes := by
  unfold Obligations.EncodedInstructionDecodes
  intro i hwf hinstr
  rcases Laws.Encoding.statement_all i hwf with hword | ⟨-, hevent⟩
  · exact hword
  · exact absurd hevent (by simp [hinstr])

end Sys2Proof.Machine
end

section
/-!
PROOFS. Every instruction and event answers a next state: what the shared forms answer, then the meanings that look further, then all of them.
-/
namespace Sys2Proof.Machine

/-- An outcome that is a next state, neither a fault nor a refusal. -/
def Answers (r : Res) : Prop := ∃ t, r = .next t

namespace Answers

theorem next (t : State) : Answers (.next t) := ⟨t, rfl⟩
theorem guard (s : State) (x : Option TrapInfo) (f : State → State) : Answers (s.guard x f) := State.guard_next s x f
theorem ite {p : Prop} [Decidable p] {a b : Res} (ha : Answers a) (hb : Answers b) : Answers (if p then a else b) := by
  split
  · exact ha
  · exact hb
theorem viaHost {s : State} {f : State → Res} (hf : Answers (f s)) : Answers (s.viaHost f) := ite hf (next _)

/-! ### Forms that slots share -/

theorem loadV (s : State) (vt : BitVec 6) (ops : List VSrc) (acc : Core → LAccess) : Answers (s.loadV vt ops acc) := guard _ _ _
theorem storeV (s : State) (ops : List VSrc) (vt : VSrc) (acc : Core → LAccess) : Answers (s.storeV ops vt acc) := guard _ _ _
theorem xIssue (i : Instr) (o : XOps) (s : State) : Answers (s.xIssue i o) := guard _ _ _
theorem dOut (s : State) (dd : BitVec 3) (srcs : List VSrc) (f : Core → (VSrc → BitVec 1024) → Nat → DEl) : Answers (s.dOut dd srcs f) := guard _ _ _
theorem dVec (s : State) (va : BitVec 6) (srcs : List VSrc) (n : Nat) (f : List Nat → Core → (VSrc → BitVec 1024) → Nat → BitVec 32) :
    Answers (s.dVec va srcs n f) := guard _ _ _

/-! ### The sequencer, the V slots and the events of a cluster -/

theorem execCall (sd : BitVec 5) (disp : BitVec 21) (s : State) : Answers (execCall sd disp s) := by
  unfold Machine.execCall
  split
  · exact next _
  · exact next _
theorem execVrnd (c : VCtl) (m : RndMode) (vd : BitVec 6) (s : State) : Answers (execVrnd c m vd s) := by
  cases m
  · exact next _
  · exact next _
theorem execChunkCount (c k : BitVec 4) (chunk : BitVec 20) (inc : BitVec 16) (o : Origin) (s : State) : Answers (execChunkCount c k chunk inc o s) :=
  ite (next _) (next _)
theorem execGeneratorReseed (c : BitVec 4) (u : BitVec 9) (s : State) : Answers (execGeneratorReseed c u s) := ite (next _) (next _)

/-! ### Bozoak words -/

theorem bzFault (s : State) (cause : BitVec 8) : Answers (s.bzFault cause) := next _
theorem bzWait (s : State) : Answers s.bzWait := next _
theorem bzDone (s : State) : Answers s.bzDone := next _
theorem bzUsed (s : State) (b : BzCtx) (c at' : Nat) (on : Option (Nat × Bool)) (out : List Byte) : Answers (s.bzUsed b c at' on out) := by
  unfold State.bzUsed
  split
  · exact bzFault _ _
  · dsimp only
    split
    · exact bzDone _
    · exact bzDone _
theorem bzUse (s : State) (c : Nat) (pr : Bool) (rop : Option BzRop) (on : Option (Nat × Bool)) : Answers (s.bzUse c pr rop on) := by
  unfold State.bzUse
  refine ite (bzFault _ _) (ite (bzWait _) (ite (bzFault _ _) (ite (bzFault _ _) (ite (bzFault _ _) ?_))))
  cases rop with
  | none => exact bzUsed _ _ _ _ _ _
  | some op =>
    dsimp only
    split
    · exact bzFault _ _
    · exact ite (bzFault _ _) (ite (bzFault _ _) (bzUsed _ _ _ _ _ _))
theorem execSend (pt ind : Bool) (c : ChunkEx) (p : PeerEx) (s : State) : Answers (execSend pt ind c p s) := by
  unfold Machine.execSend
  dsimp only
  split
  · exact bzFault _ _
  · refine ite (bzFault _ _) ?_
    split
    · exact bzFault _ _
    · exact bzDone _
theorem execRrs (rop : BzRop) (pr pt ind : Bool) (c : ChunkEx) (p : PeerEx) (s : State) : Answers (execRrs rop pr pt ind c p s) := by
  unfold Machine.execRrs
  split
  · exact bzFault _ _
  · exact bzUse _ _ _ _ _
theorem execCopy (c : ChunkEx) (s : State) : Answers (execCopy c s) := by
  unfold Machine.execCopy
  refine ite (bzFault _ _) (ite (bzFault _ _) ?_)
  split
  · exact bzFault _ _
  · split
    · exact bzFault _ _
    · exact bzDone _
theorem execSig (ind : Bool) (idx : BitVec 6) (p : PeerEx) (s : State) : Answers (execSig ind idx p s) := by
  unfold Machine.execSig
  dsimp only
  split
  · exact bzFault _ _
  · split
    · refine ite (bzWait _) ?_
      split
      · exact bzWait _
      · exact next _
    · exact ite (bzWait _) (bzDone _)
theorem execSigBit (i : BitVec 12) (s : State) : Answers (execSigBit i s) := by
  unfold Machine.execSigBit
  dsimp only
  split
  · exact bzFault _ _
  · exact bzDone _
theorem execPeerInd (gd pg : BitVec 3) (s : State) : Answers (execPeerInd gd pg s) := by
  unfold Machine.execPeerInd
  split
  · exact bzFault _ _
  · exact next _
theorem execBzEndl (s : State) : Answers (execBzEndl s) := by
  unfold Machine.execBzEndl
  split
  · exact bzFault _ _
  · exact ite (next _) (next _)
theorem execBar (acq rel : Bool) (s : State) : Answers (execBar acq rel s) := ite (ite (bzWait _) (next _)) (ite (bzDone _) (next _))

/-! ### Writes and records from outside -/

theorem execSignalArrival (k : BitVec 4) (idx : BitVec 6) (s : State) : Answers (execSignalArrival k idx s) := ite (next _) (ite (next _) (next _))
theorem execPcapWrite (w : BitVec 32) (s : State) : Answers (execPcapWrite w s) := viaHost (ite (next _) (ite (next _) (next _)))
theorem execMonitorSample (s : State) : Answers (execMonitorSample s) := ite (next _) (next _)
theorem execHostLaunchDoorbell (w : BitVec 4) (tag : BitVec 32) (s : State) : Answers (execHostLaunchDoorbell w tag s) := viaHost (next _)
theorem execCompletionHeadWrite (w : BitVec 4) (v : BitVec 64) (s : State) : Answers (execCompletionHeadWrite w v s) := viaHost (next _)
theorem bzRegWrite (s : State) (via : Via) (k : BitVec 4) (off : Nat) (v : BitVec 64) : Answers (s.bzRegWrite via k off v) :=
  ite (next _) (ite (ite (viaHost (next _)) (ite (viaHost (next _)) (ite (viaHost (next _)) (next _)))) (ite (viaHost (next _)) (next _)))
theorem execRegisterWrite (off : BitVec 22) (v : BitVec 64) (s : State) : Answers (execRegisterWrite off v s) :=
  ite (next _) (ite (next _) (ite
    (ite (next _) (ite (execHostLaunchDoorbell _ _ _) (ite (execCompletionHeadWrite _ _ _) (ite (bzRegWrite _ _ _ _ _) (next _)))))
    (ite (bzRegWrite _ _ _ _ _) (next _))))

end Answers

/-- Every instruction and event answers: most have one next state whatever the state, those with a check of their own have their trap's besides, and
the host's writes their refusal. -/
theorem exec_answers (i : Instr) (s : State) : Answers (exec i s) := by
  cases i with
  | lbrk | jmp | ret | loop | loopReg | pini | parr | pwait | pwaitImm | bset | bwait | ldf | stf | atom | srr | srw | lnch | pld | pst | dld
  | dst | vldf | vstf | vupd | vqnt | vdqt | vmov | mbld | mbldh | mrow | mchk | mzero | macc | mdrn | mdrnk | mstat | mrd | mwr | mrot
  | mdiag | mspr | xpsh | xcan | dfrw | endl | rft
    => unfold exec; exact Answers.guard _ _ _
  | vld | vldb | vlds | vldx => unfold exec; exact Answers.loadV _ _ _ _
  | vst | vstx => unfold exec; exact Answers.storeV _ _ _ _
  | xld | xldw | xst | xput | xb | xgth | xsct | xchn | xpair | xfil | xcol | xfen => unfold exec; exact Answers.xIssue _ _ _
  | dadd | dsub | dmul | dmax | dmin | daff | dmap | dmix | dfrs | dpnt | dtag | dmov | dcnd => unfold exec; exact Answers.dOut _ _ _ _
  | dsmp | dmom | dqnt => unfold exec; exact Answers.dVec _ _ _ _ _
  | bzcmdStart | bzcmdStop | bzcmdClrcnt | bzbindWrite | hostLaunchDoorbell | completionHeadWrite | supervisorRecord | launchWindowBind
  | peerWindowWrite | handover
    => unfold exec; exact Answers.viaHost (Answers.next _)
  | call => exact Answers.execCall _ _ _
  | vrnd => exact Answers.execVrnd _ _ _ _
  | send => exact Answers.execSend _ _ _ _ _
  | recv => unfold exec; exact Answers.bzUse _ _ _ _ _
  | rrd => unfold exec; exact Answers.bzUse _ _ _ _ _
  | rrs => exact Answers.execRrs _ _ _ _ _ _ _
  | copy => exact Answers.execCopy _ _
  | sig => exact Answers.execSig _ _ _ _
  | sigBit => exact Answers.execSigBit _ _
  | peerInd => exact Answers.execPeerInd _ _ _
  | bar => exact Answers.execBar _ _ _
  | bzEndl => exact Answers.execBzEndl _
  | chunkCount => exact Answers.execChunkCount _ _ _ _ _ _
  | generatorReseed => exact Answers.execGeneratorReseed _ _ _
  | signalArrival => exact Answers.execSignalArrival _ _ _
  | pcapWrite => exact Answers.execPcapWrite _ _
  | monitorSample => exact Answers.execMonitorSample _
  | registerWrite => exact Answers.execRegisterWrite _ _ _
  | waitc | waits => unfold exec; exact Answers.ite (Answers.bzWait _) (Answers.bzDone _)
  | bzLoop => unfold exec; exact Answers.ite (Answers.bzFault _ _) (Answers.bzDone _)
  | bzEnd => unfold exec; exact Answers.ite (Answers.bzWait _) (Answers.next _)
  | forwardedFabricRecord => unfold exec; exact Answers.ite (Answers.next _) (Answers.next _)
  | _ => exact Answers.next _

/-- Settles O9. -/
theorem execAnswersNext : Obligations.ExecAnswersNext := exec_answers

end Sys2Proof.Machine
end

section
/-!
PROOFS. The S slot's results: each value as the rules give it, and that nothing but the result under way changes.
-/
namespace Sys2Proof.Machine

/-! ### What a change of the current cluster leaves as it was -/

/-- Beyond the device's clusters a change has no place: both read as a cluster in reset. -/
theorem State.me_of_le {s : State} (h : s.clusters.length ≤ s.cur.cl) : s.me = Cluster.reset := by
  simp [State.me, State.cl, List.getD, h]

/-- A property of a cluster and its successor that a cluster has with itself, and with what it is changed to, holds of the current one. -/
theorem State.me_onMe_rel (R : Cluster → Cluster → Prop) (s : State) (f : Cluster → Cluster) (hrefl : ∀ k, R k k) (hf : R s.me (f s.me)) :
    R s.me (s.onMe f).me := by
  rcases Nat.lt_or_ge s.cur.cl s.clusters.length with h | h
  · rw [State.me_onMe s f h]
    exact hf
  · have hme : (s.onMe f).me = s.me :=
      (State.me_of_le (s := s.onMe f) ((State.onCl_length s s.cur.cl f).symm ▸ h)).trans (State.me_of_le h).symm
    rw [hme]
    exact hrefl _

theorem State.onMe_onlyMe (s : State) (f : Cluster → Cluster) : s.onlyMe (s.onMe f) :=
  ⟨rfl, State.onCl_length s s.cur.cl f, fun d hd => State.cl_onCl_other s s.cur.cl d f hd.symm⟩

/-- A result under way is all that changes (R96). -/
theorem State.under_onlyResults (s : State) (d : SDest) (v : BitVec 256) (lat : Nat) : s.onlyResults (s.under d v lat) :=
  ⟨s.onMe_onlyMe _, State.me_onMe_rel (fun k k' => k' = { k with simg := k'.simg }) s _ (fun _ => rfl) rfl⟩

/-- A change of the current cluster is what it comes to there. -/
theorem State.onMe_congr {s : State} {f g : Cluster → Cluster} (h : f s.me = g s.me) : s.onMe f = s.onMe g := congrArg (s.setCl s.cur.cl) h

/-! ### The one result of an S instruction -/

theorem exec_cmsk_eq_next (s : State) (m : CmskOp) : exec (.cmsk m) s = .next (s.under .cmsk (s.me.newMask m) 1) :=
  congrArg Host.Outcome.next (State.onMe_congr rfl)
theorem exec_tex_eq_next (s : State) (ek : BitVec 3) (imm : BitVec 16) : exec (.tex ek imm) s = .next (s.under (.e ek) (imm.setWidth 256) 1) := rfl
theorem exec_texReg_eq_next (s : State) (ek : BitVec 3) (sa : BitVec 5) (imm : BitVec 16) :
    exec (.texReg ek sa imm) s = .next (s.under (.e ek) (((s.sx sa).setWidth 16 + imm).setWidth 256) 1) :=
  congrArg Host.Outcome.next (State.onMe_congr rfl)

/-- An instruction of one result puts that result under way, in every state (R124). -/
theorem exec_of_isResult {i : Instr} (s : State) (h : i.isResult = true) : ∃ d v lat, exec i s = .next (s.under d v lat) := by
  cases i with
  | add | sub | and | or | xor | shl | shr | sra | mul | mulh | min | max | addImm | subImm | andImm | orImm | xorImm | shlImm | shrImm | sraImm
  | mulImm | mulhImm | minImm | maxImm | cmp | cmpImm | fop | ldi | ldih | cred | tex => exact ⟨_, _, _, rfl⟩
  | cmsk => exact ⟨_, _, _, exec_cmsk_eq_next _ _⟩
  | texReg => exact ⟨_, _, _, exec_texReg_eq_next _ _ _ _⟩
  | _ => exact absurd h Bool.false_ne_true

/-- Settles O48, from the one result. -/
theorem frameOfResults : Obligations.FrameOfResults := by
  unfold Obligations.FrameOfResults
  intro i s t hi ht
  obtain ⟨d, v, lat, hexec⟩ := exec_of_isResult s hi
  cases hexec.symm.trans ht
  exact s.under_onlyResults d v lat

/-! ### Values -/

theorem shCount_eq (b : Word) : shCount b = b.toNat % 64 := by simp [shCount]

theorem mulHigh_eq (sgn : Bool) (a b : Word) : mulHigh sgn a b =
    if sgn then BitVec.ofInt 64 (a.toInt * b.toInt / 2 ^ 64) else BitVec.ofNat 64 (a.toNat * b.toNat / 2 ^ 64) := rfl

theorem lesser_eq (sgn : Bool) (a b : Word) : lesser sgn a b = if (if sgn then b.slt a else b.ult a) then b else a := by cases sgn <;> rfl

theorem greater_eq (sgn : Bool) (a b : Word) : greater sgn a b = if (if sgn then a.slt b else a.ult b) then b else a := by cases sgn <;> rfl

/-- The integer operations, each by its own meaning (R124 to R127). -/
theorem integerResults : Claims.IntegerResults := by
  unfold Claims.IntegerResults
  intro s sd sa sb sgn imm k c21 h a b
  have hshl : exec (.shl sd sa sb) s = .next (s.sResult sd (a <<< shCount b) 1) := rfl
  have hshr : exec (.shr sd sa sb) s = .next (s.sResult sd (a >>> shCount b) 1) := rfl
  have hsra : exec (.sra sd sa sb) s = .next (s.sResult sd (a.sshiftRight (shCount b)) 1) := rfl
  have hmin : exec (.min sgn sd sa sb) s = .next (s.sResult sd (lesser sgn a b) 1) := rfl
  have hmax : exec (.max sgn sd sa sb) s = .next (s.sResult sd (greater sgn a b) 1) := rfl
  rw [shCount_eq] at hshl hshr hsra
  rw [lesser_eq] at hmin
  rw [greater_eq] at hmax
  exact ⟨rfl, rfl, rfl, rfl, rfl, hshl, hshr, hsra, rfl, rfl, hmin, hmax, rfl, rfl, rfl, rfl, rfl, rfl, rfl, rfl, rfl, rfl, rfl, rfl, rfl, rfl⟩

theorem compareSetsFlag : Claims.CompareSetsFlag := by
  unfold Claims.CompareSetsFlag
  exact fun _ _ _ _ _ _ => ⟨rfl, rfl⟩

/-- CRED, CMSK and TEX, each by its own meaning (R148 to R150). -/
theorem crossCoreResults : Claims.CrossCoreResults := by
  unfold Claims.CrossCoreResults
  intro s op sd sa aa m ek imm
  refine ⟨?_, exec_cmsk_eq_next s m, exec_tex_eq_next s ek imm, exec_texReg_eq_next s ek sa imm⟩
  rw [exec_cred, execCred, State.sOut_next, Cluster.credIn]

/-- Settles O17. -/
theorem scalarResults : Obligations.ScalarResults := ⟨integerResults, compareSetsFlag, crossCoreResults⟩

end Sys2Proof.Machine
end

section
/-!
PROOFS. The checks of an instruction: the fields they look at as bounds of an address, and what a check of range, then alignment answers.
-/
namespace Sys2Proof.Machine

/-! ### Fields as bounds -/

/-- The bits of a word from n on are zero where the word is below 2^n. -/
theorem high_ne_zero_iff (x : Word) {n m : Nat} (h : n + m = 64) : (x.extractLsb' n m != 0#m) = decide (2 ^ n ≤ x.toNat) := by
  have hlt : x.toNat / 2 ^ n < 2 ^ m := Nat.div_lt_of_lt_mul (by rw [← Nat.pow_add, h]; exact x.isLt)
  have hzero : x.extractLsb' n m = 0#m ↔ ¬ 2 ^ n ≤ x.toNat := by
    rw [BitVec.toNat_eq, BitVec.extractLsb'_toNat, Nat.shiftRight_eq_div_pow, Nat.mod_eq_of_lt hlt]
    simp [Nat.div_eq_zero_iff]
  rw [Bool.eq_iff_iff, bne_iff_ne, decide_eq_true_iff, ne_eq, hzero, not_not]

/-- The low n bits of a word are zero where it is a multiple of 2^n. -/
theorem low_ne_zero_iff (x : Word) (n : Nat) : (x.extractLsb' 0 n != 0#n) = decide (x.toNat % 2 ^ n ≠ 0) := by
  rw [Bool.eq_iff_iff, bne_iff_ne, decide_eq_true_iff, ne_eq, BitVec.toNat_eq, BitVec.extractLsb'_toNat, Nat.shiftRight_zero]
  rfl

/-- A far address is out of range from 2^57 on (R143). -/
theorem farRange_eq (a : Word) : farRange a = decide (2 ^ 57 ≤ a.toNat) := high_ne_zero_iff a (by decide)

/-! ### A check of range, then alignment -/

section
variable {r l : Bool} {x y : TrapInfo}

theorem firstOf_range (hr : r = true) : firstOf [failIf r x, failIf l y] = some x := by subst hr; rfl
theorem firstOf_align (hr : r = false) (hl : l = true) : firstOf [failIf r x, failIf l y] = some y := by subst hr hl; rfl
theorem firstOf_pass (hr : r = false) (hl : l = false) : firstOf [failIf r x, failIf l y] = none := by subst hr hl; rfl
theorem failIf_true (hr : r = true) : failIf r x = some x := by subst hr; rfl
theorem failIf_false (hr : r = false) : failIf r x = none := by subst hr; rfl

end

section
variable {s : State} {sa sb : BitVec 5} {a : Word} {n : Nat}

/-! ### Addresses of pennants, within 2^26 and a multiple of 8 (R138) -/

theorem State.penCheck_range (h : 2 ^ 26 ≤ (s.sx sa).toNat) : s.penCheck sa = some (s.trapOf cRANGE) :=
  firstOf_range ((high_ne_zero_iff _ (by decide)).trans (decide_eq_true h))
theorem State.penCheck_align (hr : (s.sx sa).toNat < 2 ^ 26) (h : (s.sx sa).toNat % 8 ≠ 0) : s.penCheck sa = some (s.trapOf cALIGN) :=
  firstOf_align ((high_ne_zero_iff _ (by decide)).trans (decide_eq_false (Nat.not_le.mpr hr))) ((low_ne_zero_iff _ 3).trans (decide_eq_true h))
theorem State.penCheck_pass (hr : (s.sx sa).toNat < 2 ^ 26) (h : (s.sx sa).toNat % 8 = 0) : s.penCheck sa = none :=
  firstOf_pass ((high_ne_zero_iff _ (by decide)).trans (decide_eq_false (Nat.not_le.mpr hr)))
    ((low_ne_zero_iff _ 3).trans (decide_eq_false (not_not_intro h)))

/-! ### Addresses of bitmap words (R140, R141) -/

theorem State.bsetCheck_range (h : 2 ^ 57 ≤ (s.sx sa).toNat + 8 * ((s.sx sb).toNat / 64)) : s.bsetCheck sa sb = some (s.trapOf cRANGE) :=
  firstOf_range (decide_eq_true h)
theorem State.bsetCheck_align (hr : (s.sx sa).toNat + 8 * ((s.sx sb).toNat / 64) < 2 ^ 57) (h : (s.sx sa).toNat % 8 ≠ 0) :
    s.bsetCheck sa sb = some (s.trapOf cALIGN) :=
  firstOf_align (decide_eq_false (Nat.not_le.mpr hr)) ((low_ne_zero_iff _ 3).trans (decide_eq_true h))
theorem State.bsetCheck_pass (hr : (s.sx sa).toNat + 8 * ((s.sx sb).toNat / 64) < 2 ^ 57) (h : (s.sx sa).toNat % 8 = 0) : s.bsetCheck sa sb = none :=
  firstOf_pass (decide_eq_false (Nat.not_le.mpr hr)) ((low_ne_zero_iff _ 3).trans (decide_eq_false (not_not_intro h)))

theorem State.bwaitCheck_range (h : 2 ^ 57 ≤ (s.sx sa).toNat) : s.bwaitCheck sa = some (s.trapOf cRANGE) :=
  firstOf_range ((farRange_eq _).trans (decide_eq_true h))
theorem State.bwaitCheck_align (hr : (s.sx sa).toNat < 2 ^ 57) (h : (s.sx sa).toNat % 8 ≠ 0) : s.bwaitCheck sa = some (s.trapOf cALIGN) :=
  firstOf_align ((farRange_eq _).trans (decide_eq_false (Nat.not_le.mpr hr))) ((low_ne_zero_iff _ 3).trans (decide_eq_true h))
theorem State.bwaitCheck_pass (hr : (s.sx sa).toNat < 2 ^ 57) (h : (s.sx sa).toNat % 8 = 0) : s.bwaitCheck sa = none :=
  firstOf_pass ((farRange_eq _).trans (decide_eq_false (Nat.not_le.mpr hr))) ((low_ne_zero_iff _ 3).trans (decide_eq_false (not_not_intro h)))

/-! ### Far addresses (R130, R143) -/

theorem State.farCheck_range (h : 2 ^ 57 ≤ a.toNat) : s.farCheck a n = some (s.trapOf cRANGE) :=
  firstOf_range ((farRange_eq _).trans (decide_eq_true h))
theorem State.farCheck_align (hr : a.toNat < 2 ^ 57) (h : a.toNat % n ≠ 0) : s.farCheck a n = some (s.trapOf cALIGN) :=
  firstOf_align ((farRange_eq _).trans (decide_eq_false (Nat.not_le.mpr hr))) (bne_iff_ne.mpr h)
theorem State.farCheck_pass (hr : a.toNat < 2 ^ 57) (h : a.toNat % n = 0) : s.farCheck a n = none :=
  firstOf_pass ((farRange_eq _).trans (decide_eq_false (Nat.not_le.mpr hr))) (by simp [h])

theorem State.jumpCheck_range (h : 2 ^ 57 ≤ (s.sx sa).toNat) : s.jumpCheck sa = some (s.trapOf cRANGE) :=
  failIf_true ((farRange_eq _).trans (decide_eq_true h))
theorem State.jumpCheck_pass (h : farRange (s.sx sa) = false) : s.jumpCheck sa = none := failIf_false h

end

end Sys2Proof.Machine
end

section
/-!
PROOFS. The waits, pennants, bunting, far accesses and traps of the S slot: each passes its check and has its effect, or takes the check's trap.
-/
namespace Sys2Proof.Machine

/-- A guarded instruction whose check passes has its effect, in the words of a statement. -/
theorem exec_of_pass {i : Instr} {s t : State} {x : Option TrapInfo} {f : State → State} (hi : exec i s = s.guard x f) (hx : x = none) (ht : f s = t) :
    exec i s = .next t := hi.trans ((State.guard_pass hx).trans (congrArg _ ht))
/-- One whose check fails takes its trap. -/
theorem exec_of_trap {i : Instr} {s : State} {x : Option TrapInfo} {f : State → State} {y : TrapInfo} (hi : exec i s = s.guard x f) (hx : x = some y) :
    exec i s = .next (s.issueTrap s.cur.cl y) := hi.trans (State.guard_trap hx)

/-! ### Waits -/

theorem waits : Claims.Waits := by
  unfold Claims.Waits
  intro s n
  refine ⟨rfl, rfl, fun h => ?_, fun h => ?_⟩
  · rw [exec_ttsync, execTtsync, if_pos h]
  · rw [exec_ttsync, execTtsync, if_neg (Nat.not_le.mpr h)]

/-! ### Pennants and bunting -/

theorem State.penWait_differs {s : State} {a : Nat} {ph : Bool} (h : s.me.penSample a ph = .differs) :
    s.penWait a ph = (s.onMe fun k => k.consume a).dropPeer (s.cur.cl / 4) .fabric := by rw [State.penWait, h]
theorem State.penWait_overflow {s : State} {a : Nat} {ph : Bool} (h : s.me.penSample a ph = .overflow) :
    s.penWait a ph = s.onMe fun k => k.faultHold (penOverflow s.cur.slot) k.origin := by rw [State.penWait, h]
theorem State.penWait_waits {s : State} {a : Nat} {ph : Bool} (h : s.me.penSample a ph = .waits) :
    s.penWait a ph = s.beginHold (.pwait a ph) 0 := by rw [State.penWait, h]

theorem pennantsAndBunting : Claims.PennantsAndBunting := by
  unfold Claims.PennantsAndBunting
  intro s sa sb ph sc a
  refine ⟨fun hr ha => ?_, fun hr ha => ?_, fun hr ha => ?_⟩
  · have hpass : s.penCheck sa = none := State.penCheck_pass hr ha
    refine ⟨exec_of_pass (exec_pini _ _ _) hpass (State.onMe_congr rfl), exec_of_pass (exec_parr _ _) hpass (State.onMe_congr rfl), ?_, ?_, ?_, ?_, ?_, ?_⟩
    · exact fun h => exec_of_pass (exec_pwaitImm _ _ _) hpass (State.penWait_differs h)
    · exact fun h => exec_of_pass (exec_pwaitImm _ _ _) hpass (State.penWait_overflow h)
    · exact fun h => exec_of_pass (exec_pwaitImm _ _ _) hpass (State.penWait_waits h)
    · exact fun h => exec_of_pass (exec_pwait _ _ _) hpass (State.penWait_differs h)
    · exact fun h => exec_of_pass (exec_pwait _ _ _) hpass (State.penWait_overflow h)
    · exact fun h => exec_of_pass (exec_pwait _ _ _) hpass (State.penWait_waits h)
  · exact exec_of_pass (exec_bset _ _ _ _) (State.bsetCheck_pass hr ha) rfl
  · exact exec_of_pass (exec_bwait _ _ _ _) (State.bwaitCheck_pass hr ha) rfl

/-- Settles O15. -/
theorem waitsAndPennants : Obligations.WaitsAndPennants := ⟨waits, pennantsAndBunting⟩

/-! ### Far accesses -/

/-- Settles O16: each access passes its check of range, then alignment; FENCE has none. -/
theorem farAccesses : Obligations.FarAccesses := by
  unfold Obligations.FarAccesses
  intro s sgn w64 rtn sz op ord sc sd sa sb off ea
  refine ⟨fun hr ha => ⟨?_, ?_⟩, fun hr ha => ?_, fun hr ha => ?_, rfl, rfl, rfl⟩
  · exact exec_of_pass (exec_ldf _ _ _ _ _ _) (State.farCheck_pass hr ha) rfl
  · exact exec_of_pass (exec_stf _ _ _ _ _) (State.farCheck_pass hr ha) rfl
  · exact exec_of_pass (exec_atom _ _ _ _ _ _ _ _ _ _) (State.farCheck_pass hr ha) rfl
  · exact exec_of_pass (exec_lnch _ _ _) (State.farCheck_pass hr ha) rfl

/-! ### Traps -/

/-- LOOP's first check is the stack's depth, its second the count (R133). -/
theorem State.loopCheck_full {s : State} (count : Word) (h : s.me.loops.length = 6) : s.loopCheck count = some (s.trapOf cLOOPSTK) :=
  firstOf_range (by simp [h])
theorem State.loopCheck_count {s : State} {count : Word} (h : s.me.loops.length ≠ 6) (hc : count = 0#64 ∨ 2 ^ 32 ≤ count.toNat) :
    s.loopCheck count = some (s.trapOf cLOOPCNT) :=
  firstOf_align (by simp [h]) (by simpa using hc)
theorem State.loopCheck_pass {s : State} {count : Word} (h : s.me.loops.length ≠ 6) (hz : count ≠ 0#64) (hc : count.toNat < 2 ^ 32) :
    s.loopCheck count = none :=
  firstOf_pass (by simp [h]) (by simpa using ⟨hz, hc⟩)
theorem State.noLoopCheck_nil {s : State} (h : s.me.loops = []) : s.noLoopCheck = some (s.trapOf cLOOPSTK) := failIf_true (by simp [h])
theorem State.noLoopCheck_cons {s : State} {l : LoopLv} {r : List LoopLv} (h : s.me.loops = l :: r) : s.noLoopCheck = none := failIf_false (by simp [h])

theorem loopTraps : Claims.LoopTraps := by
  unfold Claims.LoopTraps
  intro s n sa cf disp
  refine ⟨fun h => ⟨?_, ?_⟩, fun h hc => ?_, fun h => ⟨?_, ?_⟩⟩
  · exact exec_of_trap (exec_loop _ _) (State.loopCheck_full _ h)
  · exact exec_of_trap (exec_loopReg _ _) (State.loopCheck_full _ h)
  · exact exec_of_trap (exec_loopReg _ _) (State.loopCheck_count h hc)
  · exact exec_of_trap (exec_endl _) (State.noLoopCheck_nil h)
  · exact exec_of_trap (exec_lbrk _ _ _) (State.noLoopCheck_nil h)

theorem State.vfarCheck_some {s : State} {tm aa : BitVec 4} {off : BitVec 6} {c : Nat}
    (h : (s.me.firstBad fun _ x => decide (s.me.farAddr x tm aa off % 128 ≠ 0)) = some c) : s.vfarCheck tm aa off = some (s.trapOf cALIGN (some c)) :=
  congrArg (Option.map _) h

theorem farAddressTraps : Claims.FarAddressTraps := by
  unfold Claims.FarAddressTraps
  intro s sgn w64 rtn ph sz op ord sc sd sa sb off tm aa pd vt vs uo uy o6 c ea a w traps
  refine ⟨fun h => ⟨?_, ?_, ?_, ?_, ?_⟩, fun hr h => ?_, fun hr h => ?_, fun hr h => ?_, fun h => ?_, fun hr h => ?_, fun h => ⟨?_, ?_, ?_, ?_⟩,
    fun hr h => ⟨?_, ?_, ?_, ?_⟩, fun h => ⟨?_, ?_⟩, fun hr h => ⟨?_, ?_⟩, fun h => ⟨?_, ?_⟩, fun h => ?_⟩
  · exact exec_of_trap (exec_jmp _ _) (State.jumpCheck_range h)
  · exact exec_of_trap (exec_ret _ _) (State.jumpCheck_range h)
  · exact exec_of_trap (exec_bwait _ _ _ _) (State.bwaitCheck_range h)
  · exact exec_of_trap (exec_lnch _ _ _) (State.farCheck_range h)
  · exact exec_of_trap (exec_atom _ _ _ _ _ _ _ _ _ _) (State.farCheck_range h)
  · exact exec_of_trap (exec_bwait _ _ _ _) (State.bwaitCheck_align hr h)
  · exact exec_of_trap (exec_lnch _ _ _) (State.farCheck_align hr h)
  · exact exec_of_trap (exec_atom _ _ _ _ _ _ _ _ _ _) (State.farCheck_align hr h)
  · exact exec_of_trap (exec_bset _ _ _ _) (State.bsetCheck_range h)
  · exact exec_of_trap (exec_bset _ _ _ _) (State.bsetCheck_align hr h)
  · exact exec_of_trap (exec_pini _ _ _) (State.penCheck_range h)
  · exact exec_of_trap (exec_parr _ _) (State.penCheck_range h)
  · exact exec_of_trap (exec_pwait _ _ _) (State.penCheck_range h)
  · exact exec_of_trap (exec_pwaitImm _ _ _) (State.penCheck_range h)
  · exact exec_of_trap (exec_pini _ _ _) (State.penCheck_align hr h)
  · exact exec_of_trap (exec_parr _ _) (State.penCheck_align hr h)
  · exact exec_of_trap (exec_pwait _ _ _) (State.penCheck_align hr h)
  · exact exec_of_trap (exec_pwaitImm _ _ _) (State.penCheck_align hr h)
  · exact exec_of_trap (exec_ldf _ _ _ _ _ _) (State.farCheck_range h)
  · exact exec_of_trap (exec_stf _ _ _ _ _) (State.farCheck_range h)
  · exact exec_of_trap (exec_ldf _ _ _ _ _ _) (State.farCheck_align hr h)
  · exact exec_of_trap (exec_stf _ _ _ _ _) (State.farCheck_align hr h)
  · exact exec_of_trap (exec_vldf _ _ _ _ _ _) (State.vfarCheck_some h)
  · exact exec_of_trap (exec_vstf _ _ _ _ _ _) (State.vfarCheck_some h)
  · exact exec_of_trap (exec_vupd _ _ _ _ _ _ _) (State.vfarCheck_some h)

/-! ### Registers a run may not read or write -/

/-- SRR and SRW look first whether the selector is assigned (R151). -/
theorem State.srrCheck_unassigned {s : State} {sel : BitVec 12} (h : selAssigned sel = false) : s.srrCheck sel = some (s.trapOf cILLINS) :=
  firstOf_range (by simp [h])
theorem State.srwCheck_unassigned {s : State} {sel : BitVec 12} (h : selAssigned sel = false) : s.srwCheck sel = some (s.trapOf cILLINS) :=
  firstOf_range (by simp [h])
theorem State.srrCheck_priv {s : State} {sel : BitVec 12} (ha : selAssigned sel = true)
    (h : sel = 4#12 ∧ s.me.priv = false ∨ sel = 0x18#12 ∧ s.me.injOk = false) : s.srrCheck sel = some (s.trapOf cPRIV) :=
  firstOf_align (by simp [ha]) (by simpa using h)
theorem State.srrCheck_pass {s : State} {sel : BitVec 12} (ha : selAssigned sel = true) (hp : sel = 4#12 → s.me.priv = true)
    (hi : sel = 0x18#12 → s.me.injOk = true) : s.srrCheck sel = none :=
  firstOf_pass (by simp [ha]) (by simpa using ⟨hp, hi⟩)

/-- A register that SRW may write: the open ones, ERRINJ where the context may inject, AGEQ for the supervisor (Table 9-6). -/
def State.srwOpen (s : State) (sel : BitVec 12) : Prop :=
  sel ∈ [2#12, 6#12, 7#12, 8#12, 0x14#12] ∨ sel = 0x18#12 ∧ s.me.injOk = true ∨ sel = 4#12 ∧ s.me.priv = true

theorem State.srwOpen_iff (s : State) (sel : BitVec 12) :
    (sel == 2#12 || sel == 6#12 || sel == 7#12 || sel == 8#12 || sel == 0x14#12 || (sel == 0x18#12 && s.me.injOk) || (sel == 4#12 && s.me.priv)) = true ↔
      s.srwOpen sel := by
  simp [State.srwOpen, or_assoc]

theorem State.srwCheck_priv {s : State} {sel : BitVec 12} (ha : selAssigned sel = true) (h : ¬ s.srwOpen sel) :
    s.srwCheck sel = some (s.trapOf cPRIV) :=
  firstOf_align (by simp [ha]) (Bool.not_eq_true' _ ▸ Bool.eq_false_iff.mpr (mt (s.srwOpen_iff sel).mp h))
theorem State.srwCheck_pass {s : State} {sel : BitVec 12} (ha : selAssigned sel = true) (h : s.srwOpen sel) : s.srwCheck sel = none :=
  firstOf_pass (by simp [ha]) (Bool.not_eq_false' _ ▸ (s.srwOpen_iff sel).mpr h)

/-- The array's privilege is looked at once the checks of R80 have passed (R100, R262). -/
theorem State.mCheck_priv {s : State} {i : Instr} {x : TrapInfo} (he : s.mEntry i = none) (hp : s.mPriv i = some x) : s.mCheck i = some x := by
  rw [State.mCheck, he, hp]
  rfl

theorem not_srwOpen_of_notMem {s : State} {sel : BitVec 12} (h : sel ∉ [2#12, 4#12, 6#12, 7#12, 8#12, 0x14#12, 0x18#12]) : ¬ s.srwOpen sel := by
  rintro (hsel | ⟨rfl, -⟩ | ⟨rfl, -⟩)
  · exact h (by simp only [List.mem_cons] at hsel ⊢; tauto)
  · exact h (by decide)
  · exact h (by decide)

theorem privilegeTraps : Claims.PrivilegeTraps := by
  unfold Claims.PrivilegeTraps
  intro s sd sa sel va per row
  refine ⟨fun h => ⟨?_, ?_⟩, fun h => ⟨?_, ?_, fun he => ?_, fun he => ?_⟩, fun h => ⟨?_, ?_⟩, fun ha hsel => ?_⟩
  · exact exec_of_trap (exec_srr _ _ _) (State.srrCheck_unassigned h)
  · exact exec_of_trap (exec_srw _ _ _) (State.srwCheck_unassigned h)
  · exact exec_of_trap (exec_srr _ _ _) (State.srrCheck_priv (by decide) (.inl ⟨rfl, h⟩))
  · exact exec_of_trap (exec_srw _ _ _) (State.srwCheck_priv (by decide) (by simp [State.srwOpen, h]))
  · exact exec_of_trap (exec_mdiag _ _) (State.mCheck_priv he (failIf_true (by simp [h])))
  · exact exec_of_trap (exec_mspr _ _ _ _) (State.mCheck_priv he (failIf_true (by simp [h])))
  · exact exec_of_trap (exec_srr _ _ _) (State.srrCheck_priv (by decide) (.inr ⟨rfl, h⟩))
  · exact exec_of_trap (exec_srw _ _ _) (State.srwCheck_priv (by decide) (by simp [State.srwOpen, h]))
  · exact exec_of_trap (exec_srw _ _ _) (State.srwCheck_priv ha (not_srwOpen_of_notMem hsel))

/-- Settles O18. -/
theorem scalarTraps : Obligations.ScalarTraps := ⟨loopTraps, farAddressTraps, privilegeTraps⟩

end Sys2Proof.Machine
end

section
/-!
PROOFS. Transfers of control, loops, system registers and run control: each past its check.
-/
namespace Sys2Proof.Machine

/-! ### Transfers (R130, R131) -/

theorem execCall_of_linkOf_some {s u : State} {link : BitVec 57} (sd : BitVec 5) (disp : BitVec 21) (h : s.linkOf = (some link, u)) :
    exec (.call sd disp) s =
      .next ((u.onMe fun k => { k with delay := some (u.me.pc + disp.signExtend 57, 2) }).onMe fun k => k.sWrite sd (link.setWidth 64) 1) := by
  rw [exec_call, execCall, h]
  rfl

theorem State.linkOf_eq {s t u : State} {a : BitVec 57} {b : Option (BitVec 57)} (ha : s.afterBundle s.cur.cl s.me.next = (some a, t))
    (hb : t.afterBundle t.cur.cl a = (b, u)) : s.linkOf = (b, u) := by
  rw [State.linkOf, ha]
  exact hb

/-- A delay bundle that shows where the link lies puts it into the register (R131). -/
theorem State.linkNow_last {s : State} {c : Nat} {sd : BitVec 5} (h : (s.cl c).linkPend = some (sd, (s.cl c).handler.isSome)) (tgt : BitVec 57) :
    s.linkNow c (some (tgt, 1)) = s.onCl c fun k => { k with s := k.s.set sd.toNat ((s.cl c).next.setWidth 64), linkPend := none } := by
  simp [State.linkNow, h]
theorem State.linkNow_first {s t : State} {c : Nat} {sd : BitVec 5} {a : BitVec 57} (h : (s.cl c).linkPend = some (sd, (s.cl c).handler.isSome))
    (tgt : BitVec 57) (ha : s.afterBundle c (s.cl c).next = (some a, t)) :
    s.linkNow c (some (tgt, 2)) = t.onCl c fun k => { k with s := k.s.set sd.toNat (a.setWidth 64), linkPend := none } := by
  simp [State.linkNow, h, ha]

theorem transfers : Claims.Transfers := by
  unfold Claims.Transfers
  intro s cf disp sa sd c tgt called
  refine ⟨fun h => ?_, fun h => ?_, fun h => ?_, fun h => ?_, ?_, fun a b t u ha hb => ?_, fun h => ⟨?_, fun a t ha => ?_⟩⟩
  · rw [exec_br, execBr, if_pos h]
    rfl
  · rw [exec_br, execBr, if_neg (Bool.eq_false_iff.mp h)]
  · exact exec_of_pass (exec_jmp _ _) (State.jumpCheck_pass h) rfl
  · exact exec_of_pass (exec_ret _ _) (State.jumpCheck_pass h) rfl
  · split
    next link u hlink => exact execCall_of_linkOf_some sd disp hlink
    next u hlink =>
      rw [exec_call, execCall, hlink]
      rfl
  · exact execCall_of_linkOf_some sd disp (State.linkOf_eq ha hb)
  · exact State.linkNow_last h tgt
  · exact State.linkNow_first h tgt ha

/-! ### Loops (R133, R134) -/

theorem Cluster.endIteration_eq {k : Cluster} {l : LoopLv} {r : List LoopLv} (h : k.loops = l :: r) :
    let v := k.lc.getD r.length 0#32 + 1#32
    let counted : Cluster := { k.sLand (.lc r.length) (v.setWidth 256) 1 with rrbv := k.rrbv - 1#5, rrbp := k.rrbp - 1#3 }
    k.endIteration = if v.ult l.tc then
      { counted with next := l.start, loops := { l with last := k.pc.toNat / 64, closed := true } :: r } else { counted with loops := r } := by
  unfold Cluster.endIteration
  rw [h]
  rfl

theorem loops : Claims.Loops := by
  unfold Claims.Loops
  intro s n sa cf disp l r started
  refine ⟨fun hfull hn => ?_, fun hfull hz hc => ?_, fun h => ?_, fun h ht => ?_, fun h ht => ?_⟩
  · have hval : (imm16z n).toNat = n.toNat := BitVec.toNat_setWidth_of_le (by decide)
    have hz : imm16z n ≠ 0#64 := fun h => hn (BitVec.eq_of_toNat_eq (hval.symm.trans (by rw [h]; rfl)))
    have hc : (imm16z n).toNat < 2 ^ 32 := hval ▸ n.isLt.trans (by decide)
    have hcount : (imm16z n).setWidth 32 = n.setWidth 32 := BitVec.setWidth_setWidth_of_le n (by decide)
    refine exec_of_pass (exec_loop _ _) (State.loopCheck_pass hfull hz hc) (State.onMe_congr ?_)
    rw [Cluster.enterLoop, hcount]
    rfl
  · exact exec_of_pass (exec_loopReg _ _) (State.loopCheck_pass hfull hz hc) (State.onMe_congr rfl)
  · exact exec_of_pass (exec_endl _) (State.noLoopCheck_cons h) (State.onMe_congr (Cluster.endIteration_eq h))
  · refine exec_of_pass (exec_lbrk _ _ _) (State.noLoopCheck_cons h) ((if_pos ht).trans (State.onMe_congr ?_))
    rw [h]
    rfl
  · exact exec_of_pass (exec_lbrk _ _ _) (State.noLoopCheck_cons h) (if_neg (Bool.eq_false_iff.mp ht))

/-- Settles O14. -/
theorem transfersAndLoops : Obligations.TransfersAndLoops := ⟨transfers, loops⟩

/-! ### System registers (R151) -/

/-- The selectors of AMAX and AMAXF are assigned, and neither AGEQ's nor ERRINJ's (Table 9-6). -/
theorem State.srrCheck_amax {s : State} {sel : BitVec 12} (hlo : 0x40 ≤ sel.toNat) (hhi : sel.toNat ≤ 0x5F) : s.srrCheck sel = none := by
  refine State.srrCheck_pass ?_ ?_ ?_
  · simp only [selAssigned, Bool.or_eq_true, Bool.and_eq_true, decide_eq_true_eq]
    exact .inr ⟨hlo, hhi⟩
  · rintro rfl
    exact absurd hlo (by decide)
  · rintro rfl
    exact absurd hlo (by decide)

theorem systemRegisters : Claims.SystemRegisters := by
  unfold Claims.SystemRegisters
  intro s sd sa sel
  refine ⟨fun ha hp hi hn => ?_, fun hlo hhi => ?_, fun hlo hhi hd => ?_, fun hlo hhi hd => ?_, ?_, ?_, ?_, ?_, ?_, fun hi => ?_, fun hp => ?_⟩
  · refine exec_of_pass (exec_srr _ _ _) (State.srrCheck_pass ha hp hi) ?_
    dsimp only
    rw [if_neg (by omega), if_neg (by omega)]
    rfl
  · refine exec_of_pass (exec_srr _ _ _) (State.srrCheck_amax (by omega) (by omega)) ?_
    dsimp only
    rw [if_neg (by omega), if_pos ⟨hlo, hhi⟩]
    rfl
  · refine exec_of_pass (exec_srr _ _ _) (State.srrCheck_amax (by omega) (by omega)) ?_
    dsimp only
    rw [if_neg (by simp [hd]), if_neg (by omega)]
    rfl
  · exact exec_of_pass (exec_srr _ _ _) (State.srrCheck_amax (by omega) (by omega)) (if_pos ⟨hlo, hhi, hd⟩)
  · exact exec_of_pass (exec_srw _ _ _) (State.srwCheck_pass (by decide) (.inl (by decide))) rfl
  · exact exec_of_pass (exec_srw _ _ _) (State.srwCheck_pass (by decide) (.inl (by decide))) rfl
  · exact exec_of_pass (exec_srw _ _ _) (State.srwCheck_pass (by decide) (.inl (by decide))) rfl
  · exact exec_of_pass (exec_srw _ _ _) (State.srwCheck_pass (by decide) (.inl (by decide))) rfl
  · exact exec_of_pass (exec_srw _ _ _) (State.srwCheck_pass (by decide) (.inl (by decide))) rfl
  · exact exec_of_pass (exec_srw _ _ _) (State.srwCheck_pass (by decide) (.inr (.inl ⟨rfl, hi⟩))) rfl
  · exact exec_of_pass (exec_srw _ _ _) (State.srwCheck_pass (by decide) (.inr (.inr ⟨rfl, hp⟩))) rfl

/-! ### Run control (R153, R154) -/

theorem runControl : Claims.RunControl := by
  unfold Claims.RunControl
  intro s code
  refine ⟨rfl, fun hh hq => ?_, fun hh hq => ?_, fun hh => ?_, rfl, State.onMe_congr rfl ▸ rfl⟩
  · exact exec_of_pass (exec_rft _) (failIf_false (by simpa using hh)) (State.onMe_congr (if_pos hq))
  · exact exec_of_pass (exec_rft _) (failIf_false (by simpa using hh)) (State.onMe_congr (if_neg (Bool.eq_false_iff.mp hq)))
  · exact exec_of_trap (exec_rft _) (failIf_true (by simp [hh]))

/-- Settles O19. -/
theorem systemAndRunControl : Obligations.SystemAndRunControl := ⟨systemRegisters, runControl⟩

end Sys2Proof.Machine
end

section
/-!
PROOFS. The A slot and the L slot: results and writes under way, accesses that pass their check, and the far vector accesses.
-/
namespace Sys2Proof.Machine

/-! ### The A slot -/

theorem addressResults : Claims.AddressResults := by
  unfold Claims.AddressResults
  intro s ad aa ab imm n sn out
  exact ⟨s.aOut_next ad _, s.aOut_next ad _, s.aOut_next ad _, s.aOut_next ad _, s.aOut_next ad _, s.aOut_next ad _, s.aOut_next ad _,
    s.aOut_next ad _, s.aOut_next ad _, s.aOut_next ad _, s.aOut_next ad _, s.aOut_next ad _, s.aOut_next ad _⟩

theorem mapAndTableWrites : Claims.MapAndTableWrites := by
  unfold Claims.MapAndTableWrites
  intro s tm fld sm imm ft f field
  refine ⟨rfl, fun h => ?_, fun h => ?_, congrArg Host.Outcome.next (State.onMe_congr rfl), rfl⟩
  · rw [exec_shwi, execShwi, if_pos h]
    rfl
  · rw [exec_shwi, execShwi, if_neg (Bool.eq_false_iff.mp h)]
    rfl

/-- Settles O20. -/
theorem addressSlot : Obligations.AddressSlot := ⟨addressResults, mapAndTableWrites⟩

/-! ### Near accesses -/

/-- A load of every active core whose address check passes (R158 to R162). -/
theorem State.loadV_of_pass {s : State} {acc : Core → LAccess} (h : s.lCheck acc = none) (v : BitVec 6) (ops : List VSrc) :
    s.loadV v ops acc = .next (s.onActive fun i x => (s.me.popOn ops x).fly ((List.range 4).map fun g =>
      s.me.loadEntry .v (s.me.vphys v) g (pickLat i (acc x) 2 8) (pickLat i (acc x) 4 14) (laneGroup (acc x).lanes g 32))) :=
  (State.guard_pass h).trans (congrArg _ (State.onMe_congr rfl))
/-- And so a store. -/
theorem State.storeV_of_pass {s : State} {acc : Core → LAccess} (h : s.lCheck acc = none) (ops : List VSrc) (v : VSrc) :
    s.storeV ops v acc = .next (s.onActive fun i x => (s.me.popOn ops x).fly ((List.range 4).map fun g =>
      s.me.storeEntry g (pickLat i (acc x) 2 8) (laneGroup (acc x).lanes g 32) ((s.me.vsrc x v).extractLsb' (256 * g) 256))) :=
  (State.guard_pass h).trans (congrArg _ (State.onMe_congr rfl))

/-- Settles O21: every access passes its check and puts its lanes under way (R158 to R169). -/
theorem nearAccesses : Obligations.NearAccesses := by
  unfold Obligations.NearAccesses
  intro s v vs vi aa pd p ck off half d k load store
  refine ⟨fun h => ⟨?_, ?_⟩, fun h => ?_, fun h => ?_, fun h => ⟨?_, ?_⟩, fun h => ⟨?_, ?_⟩, fun h => ⟨?_, ?_⟩⟩
  · exact (exec_vld _ _ _ _ _ _).trans (State.loadV_of_pass h v [])
  · exact (exec_vst _ _ _ _ _).trans (State.storeV_of_pass h [vs] vs)
  · exact (exec_vldb _ _ _ _ _ _).trans (State.loadV_of_pass h v [])
  · exact (exec_vlds _ _ _ _ _ _).trans (State.loadV_of_pass h v [])
  · exact (exec_vldx _ _ _ _ _ _).trans (State.loadV_of_pass h v [vi])
  · exact (exec_vstx _ _ _ _ _ _).trans (State.storeV_of_pass h [vi, vs] vs)
  · exact exec_of_pass (exec_pld _ _ _ _ _) h (State.onMe_congr rfl)
  · exact exec_of_pass (exec_pst _ _ _ _) h (State.onMe_congr rfl)
  · exact exec_of_pass (exec_dld _ _ _ _ _) h (State.onMe_congr rfl)
  · exact exec_of_pass (exec_dst _ _ _ _) h (State.onMe_congr rfl)

/-- Settles O23. -/
theorem farVectorAccesses : Obligations.FarVectorAccesses := by
  unfold Obligations.FarVectorAccesses
  intro s v off vs tm aa pd op ty k
  refine ⟨fun h => ⟨?_, ?_⟩, fun h => ?_⟩
  · exact exec_of_pass (exec_vldf _ _ _ _ _ _) h rfl
  · exact exec_of_pass (exec_vstf _ _ _ _ _ _) h rfl
  · exact exec_of_pass (exec_vupd _ _ _ _ _ _ _) h rfl

end Sys2Proof.Machine
end

section
/-!
PROOFS. The V slots: every operation is the common frame with its element function.
-/
namespace Sys2Proof.Machine

/-- Settles O24: each operation is an element function of one, two or three operands in the common frame. -/
theorem vectorIntegers : Obligations.VectorIntegers := by
  unfold Obligations.VectorIntegers
  intro s c sz sgn sat vd va vb vc w un bin
  exact ⟨rfl, rfl, rfl, rfl, rfl, rfl, rfl, rfl, rfl, rfl, rfl, rfl, rfl, rfl, rfl, rfl, rfl, rfl⟩

/-- Settles O25: each operation is an element function of the sub-type in the common frame. -/
theorem vectorFloats : Obligations.VectorFloats := by
  unfold Obligations.VectorFloats
  intro s c ty vd va vb vc w d r un bin tri
  exact ⟨rfl, rfl, rfl, rfl, rfl, rfl, rfl, rfl, rfl, rfl, rfl, rfl, rfl, rfl, rfl, rfl, rfl, rfl, rfl⟩

/-- Settles O26: comparisons and predicate operations are the frame of a predicate result, the choices the frame of a vector result. -/
theorem vectorChoices : Obligations.VectorChoices := by
  unfold Obligations.VectorChoices
  intro s c sz ty cond fc vd pd pa pb va vb trp t w bits
  exact ⟨rfl, rfl, rfl, rfl, rfl, rfl, rfl, rfl, rfl, rfl, rfl⟩

/-! ### Conversions and reductions -/

/-- The check of a format-table entry names the lowest core whose entry may not be used (R80). -/
theorem State.ftCheck_of_firstBad {s : State} {f : FSel} {ok : BitVec 64 → Bool} {j : Nat}
    (h : (s.me.firstBad fun _ x => !ok (s.me.fte x f)) = some j) : s.ftCheck f ok = some (s.trapOf cILLINS (some j)) := by
  rw [State.ftCheck, h]
  rfl

theorem vectorConversions : Claims.VectorConversions := by
  unfold Claims.VectorConversions
  intro s j c ck rm nsat sz sat sgn hi f vd va vb full w n
  refine ⟨rfl, rfl, rfl, ?_, ?_, ?_, ?_⟩
  · exact fun h => exec_of_trap (exec_vqnt _ _ _ _) (State.ftCheck_of_firstBad h)
  · exact fun h => exec_of_trap (exec_vdqt _ _ _ _) (State.ftCheck_of_firstBad h)
  · exact fun h => exec_of_pass (exec_vqnt _ _ _ _) h (State.onMe_congr rfl)
  · exact fun h => exec_of_pass (exec_vdqt _ _ _ _) h (State.onMe_congr rfl)

theorem vectorReductions : Claims.VectorReductions := by
  unfold Claims.VectorReductions
  intro s c k ty m excl vd va w part
  exact ⟨rfl, rfl, rfl⟩

/-- Settles O27: conversions and reductions in the common frame, and the quantisers where every active core's entry allows them. -/
theorem vectorConversionsAndReductions : Obligations.VectorConversionsAndReductions := ⟨vectorConversions, vectorReductions⟩

/-! ### Repeated moves -/

/-- One cluster of one core, whose rotation base is 1. -/
def rotatedBy1 : State :=
  { State.reset with
    clusters := [{ Cluster.reset with cores := [Core.reset], rrbv := 1#5, cmsk := 1#256 }], cur := { State.reset.cur with cl := 0 } }

/-- The registers the entries of the first core's pipe carry. -/
def pipeDests (r : Res) : List Nat :=
  match r with
  | .next t => (t.me.core 0).pipe.map (·.dest)
  | _ => []

/-- Refutes O28: the entry that carries a VMOV's repetitions names the register rotation puts in v32's place (R90), where the statement has the
architectural number: with base 1, v33 and not v32. -/
theorem not_vectorMovements : ¬ Obligations.VectorMovements := by
  intro h
  have hrep := (h.2 rotatedBy1 ⟨.w1024, false, 0#4⟩ .w64 1#6 32#6 ⟨0#6, 0#2⟩).1 (by decide) (by decide)
  have hdests := congrArg pipeDests hrep
  exact absurd hdests (by decide)

end Sys2Proof.Machine
end

section
/-!
PROOFS. Sample words, bundle headers, the plain cases of a step, and the values of reset.
-/
namespace Sys2Proof.Machine

/-! ### Words and bundles -/

/-- Settles O2: the decoder evaluated on the words. -/
theorem sampleWordsDecode : Obligations.SampleWordsDecode := by
  unfold Obligations.SampleWordsDecode
  exact ⟨rfl, rfl, rfl, rfl, rfl, rfl, rfl, rfl⟩

/-- Decoding keeps the slots the header announces, in their order. -/
theorem decodeSlots_map_fst (ss : List Slot) (bs : List Byte) : (decodeSlots ss bs).map (·.1) = ss := by
  induction ss generalizing bs with
  | nil => rfl
  | cons p ps ih => rw [decodeSlots, List.map_cons, ih]

/-- A bundle has its header byte, and at most one word in each slot (R83). -/
theorem bundleLen_bounds : ∀ h : Byte, 1 ≤ bundleLen h ∧ bundleLen h ≤ 45 := by decide

/-- Settles O3: the branches of the bundle decoder. -/
theorem bundleFraming : Obligations.BundleFraming := by
  unfold Obligations.BundleFraming
  intro line o h
  refine ⟨fun hpad => if_pos hpad, decodeBundle_of_crossing, fun hpad hlen => ?_, bundleLen_bounds h⟩
  refine ⟨decodeSlots (headerSlots h) (line.drop (o + 1)), ?_, decodeSlots_map_fst _ _⟩
  rw [decodeBundle, if_neg hpad, if_neg (Nat.not_lt.mpr hlen)]

/-! ### Steps -/

/-- A step is the turn at the head of the agenda. -/
theorem step_of_agenda {s : State} {u : Turn} {r : List Turn} (h : s.agenda = u :: r) : step s = turn u { s with agenda := r } := by
  rw [step, State.advance, h]

/-- Settles O4. -/
theorem stepRunsEvent : Obligations.StepRunsEvent := fun _ _ _ h => step_of_agenda h

/-- Own time advances on a cluster that issued, in the counter of its mode (R27, R344). -/
theorem Cluster.tick_spec (k : Cluster) :
    k.tick.dt = k.dt + (if k.issued && k.handler.isNone then 1 else 0) ∧ k.tick.hc = k.hc + (if k.issued && k.handler.isSome then 1 else 0) ∧
      k.tick = { k with dt := k.tick.dt, hc := k.tick.hc, issued := false } := by
  rcases hi : k.issued with _ | _
  · cases k
    cases hi
    exact ⟨rfl, rfl, rfl⟩
  · rcases hh : k.handler with _ | b
    · simp [Cluster.tick, hi, hh]
    · simp [Cluster.tick, hi, hh]

/-- Settles O8: the new cycle ticks every cluster. -/
theorem stepAdvancesTime : Obligations.StepAdvancesTime := by
  intro s hs
  have hstep : step s = .next s.newCycle := by rw [step, State.advance, hs]
  refine ⟨s.newCycle, hstep, rfl, rfl, rfl, List.length_map _, fun c hc => ?_⟩
  have hcl : s.newCycle.cl c = (s.cl c).tick := by
    simp [State.cl, State.newCycle, List.getD, hc]
  rw [hcl]
  exact (s.cl c).tick_spec

/-! ### Reset -/

/-- Settles O10. -/
theorem resetIsSound : Obligations.ResetIsSound :=
  ⟨⟨rfl, rfl⟩, ⟨rfl, rfl, rfl⟩, by decide, by decide, by decide, by decide⟩

/-- A cluster of the device in reset is a cluster in reset. -/
theorem State.reset_cl (c : Nat) : State.reset.cl c = Cluster.reset := by
  rw [State.cl, reset_clusters, List.getD, List.getElem?_replicate]
  split <;> rfl

/-- A Bozoak context of the device in reset is unbound. -/
theorem State.reset_bzc (k : Nat) : State.reset.bzc k = BzCtx.reset := by
  rw [State.bzc, reset_bz, List.getD, List.getElem?_replicate]
  split <;> rfl

/-- With no enabled descriptor there is no snapshot region (R370). -/
theorem State.snaps_of_disabled {s : State} (h : ∀ d, d ∈ s.snap → d.getLsbD 383 = false) : s.snaps = [] := by
  rw [State.snaps, List.map_eq_nil_iff, List.filter_eq_nil_iff]
  rintro ⟨d, i⟩ hx
  simpa using h d (List.fst_mem_of_mem_zipIdx hx)

/-- Settles O12. -/
theorem resetValues : Obligations.ResetValues := by
  refine ⟨rfl, fun c _ => ?_, fun a => rfl, rfl, rfl, fun x => ?_, ?_, fun k _ => ?_, rfl, rfl, rfl, rfl, rfl, rfl, rfl⟩
  · rw [State.reset_cl]
    exact ⟨rfl, rfl, rfl⟩
  · exact BitVec.getLsbD_zero
  · exact State.snaps_of_disabled fun d hd => (List.eq_of_mem_replicate hd).symm ▸ BitVec.getLsbD_zero
  · rw [State.reset_bzc]
    rfl

/-! ### Rotation -/

/-- One down among the 32 upper registers, the lowest of them followed by the highest. -/
theorem upper32_pred : ∀ a : BitVec 6, 32 ≤ a.toNat → (32#6 ||| (a - 1#6)).toNat = 32 + (a.toNat - 32 + 31) % 32 := by decide
/-- One down among the 8 upper predicates, the lowest of them followed by the highest. -/
theorem upper8_pred : ∀ c : BitVec 4, 8 ≤ c.toNat → (8#4 ||| (c - 1#4)).toNat = 8 + (c.toNat - 8 + 7) % 8 := by decide

/-- Settles O54: an upper register's number is its distance from the base, modulo the number of upper registers. -/
theorem rotationIsOneToOne : Obligations.RotationIsOneToOne := by
  intro v a b p c d
  have ha := a.isLt
  have hb := b.isLt
  have hc := c.isLt
  have hd := d.isLt
  have hv := v.isLt
  have hp := p.isLt
  have hv1 : (v - 1#5).toNat = (v.toNat + 31) % 32 := by rw [BitVec.toNat_sub, Nat.add_comm]; rfl
  have hp1 : (p - 1#3).toNat = (p.toNat + 7) % 8 := by rw [BitVec.toNat_sub, Nat.add_comm]; rfl
  refine ⟨fun h => ?_, ?_, fun h => if_pos h, fun h => ?_, fun h => ?_, ?_, fun h => if_pos h, fun h => ?_⟩
  · apply BitVec.eq_of_toNat_eq
    unfold physV at h
    split at h <;> split at h <;> omega
  · unfold physV
    split <;> omega
  · rw [physV, physV, upper32_pred a h, hv1]
    split <;> split <;> omega
  · apply BitVec.eq_of_toNat_eq
    unfold physP at h
    split at h <;> split at h <;> omega
  · unfold physP
    split <;> omega
  · rw [physP, physP, upper8_pred c h, hp1]
    split <;> split <;> omega

/-! ### Pennants -/

section
variable (a b : Bool) (x y : BitVec 10) (z u : BitVec 21)

/-- A pennant word of its fields: phase, overflow, arrivals and units to come and of a phase (R230). -/
def pennantWord : Word := ofBit a ++ ofBit b ++ x ++ y ++ z ++ u

theorem pennantWord_units : (pennantWord a b x y z u).extractLsb' 0 21 = u := by
  ext i hi
  simp [pennantWord]
theorem pennantWord_unitsInit : (pennantWord a b x y z u).extractLsb' 21 21 = z := by
  ext i hi
  simp [pennantWord]
theorem pennantWord_arr : (pennantWord a b x y z u).extractLsb' 42 10 = y := by
  ext i hi
  simp [pennantWord]
theorem pennantWord_arrInit : (pennantWord a b x y z u).extractLsb' 52 10 = x := by
  ext i hi
  simp [pennantWord]
theorem pennantWord_ovf : (pennantWord a b x y z u).getLsbD 62 = b := by
  simp only [pennantWord, BitVec.getLsbD_append]
  cases b <;> rfl
theorem pennantWord_phase : (pennantWord a b x y z u).getLsbD 63 = a := by
  simp only [pennantWord, BitVec.getLsbD_append]
  cases a <;> rfl

end

section
variable {w : Word} {a u : Nat}

/-- The arrivals and the units still to come, as a pennant word counts them (R230). -/
def arrLeft (w : Word) : Nat := (w.extractLsb' 42 10).toNat
def unitsLeft (w : Word) : Nat := (w.extractLsb' 0 21).toNat

/-- What is left of a count, as the merge computes it over the integers. -/
theorem clamped_sub (n m : Nat) : (if (n : Int) - (m : Int) < 0 then 0 else ((n : Int) - (m : Int)).toNat) = n - m := by
  split <;> omega

/-- A merge as a word of its fields; with both counts used up the phase flips and they start again. -/
theorem pennantMerge_eq (h : a ≠ 0 ∨ u ≠ 0) :
    pennantMerge w a u =
      let flip := arrLeft w - a == 0 && unitsLeft w - u == 0
      pennantWord (w.getLsbD 63 != flip) (w.getLsbD 62 || (decide (arrLeft w < a) || decide (unitsLeft w < u))) (w.extractLsb' 52 10)
        (BitVec.ofNat 10 (if flip then (w.extractLsb' 52 10).toNat else arrLeft w - a)) (w.extractLsb' 21 21)
        (BitVec.ofNat 21 (if flip then (w.extractLsb' 21 21).toNat else unitsLeft w - u)) := by
  have hneg (n m : Nat) : decide ((n : Int) - (m : Int) < 0) = decide (n < m) := by
    rw [decide_eq_decide]
    omega
  rw [pennantMerge, if_neg (by omega)]
  simp only [clamped_sub, hneg]
  rfl

theorem pennantMerge_flips (h : a ≠ 0 ∨ u ≠ 0) (ha : arrLeft w ≤ a) (hu : unitsLeft w ≤ u) :
    pennantMerge w a u = pennantWord (!w.getLsbD 63) (w.getLsbD 62 || (decide (arrLeft w < a) || decide (unitsLeft w < u)))
      (w.extractLsb' 52 10) (w.extractLsb' 52 10) (w.extractLsb' 21 21) (w.extractLsb' 21 21) := by
  rw [pennantMerge_eq h, Nat.sub_eq_zero_of_le ha, Nat.sub_eq_zero_of_le hu]
  simp only [beq_self_eq_true, Bool.and_self, if_true, Bool.bne_true, BitVec.ofNat_toNat, BitVec.setWidth_eq]

theorem pennantMerge_counts (h : a ≠ 0 ∨ u ≠ 0) (hn : ¬ (arrLeft w ≤ a ∧ unitsLeft w ≤ u)) :
    pennantMerge w a u = pennantWord (w.getLsbD 63) (w.getLsbD 62 || (decide (arrLeft w < a) || decide (unitsLeft w < u)))
      (w.extractLsb' 52 10) (BitVec.ofNat 10 (arrLeft w - a)) (w.extractLsb' 21 21) (BitVec.ofNat 21 (unitsLeft w - u)) := by
  have hflip : (arrLeft w - a == 0 && unitsLeft w - u == 0) = false := by
    rw [Bool.and_eq_false_iff, beq_eq_false_iff_ne, beq_eq_false_iff_ne]
    omega
  rw [pennantMerge_eq h]
  simp [hflip]

end

/-- Settles O56: the two cases of a merge, read field by field. -/
theorem pennantMerges : Obligations.PennantMerges := by
  intro w a u arr units p
  refine ⟨fun ha hu => if_pos ⟨ha, hu⟩, fun h => ?_⟩
  have harr : arr w < 2 ^ 10 := (w.extractLsb' 42 10).isLt
  have hunits : units w < 2 ^ 21 := (w.extractLsb' 0 21).isLt
  by_cases hflip : arr w ≤ a ∧ units w ≤ u
  · have hp : p = _ := pennantMerge_flips h hflip.1 hflip.2
    simp only [arr, units, hp, pennantWord_arrInit, pennantWord_unitsInit, pennantWord_ovf, pennantWord_phase, pennantWord_arr, pennantWord_units]
    refine ⟨trivial, trivial, ?_, fun _ => ⟨trivial, trivial, trivial⟩, fun hn => absurd hflip hn⟩
    rw [Bool.or_eq_true, Bool.or_eq_true, decide_eq_true_iff, decide_eq_true_iff]
    rfl
  · have hp : p = _ := pennantMerge_counts h hflip
    simp only [arr, units, hp, pennantWord_arrInit, pennantWord_unitsInit, pennantWord_ovf, pennantWord_phase, pennantWord_arr, pennantWord_units]
    refine ⟨trivial, trivial, ?_, fun hy => absurd hy hflip, fun _ => ⟨trivial, ?_, ?_⟩⟩
    · rw [Bool.or_eq_true, Bool.or_eq_true, decide_eq_true_iff, decide_eq_true_iff]
      rfl
    · exact Nat.mod_eq_of_lt (Nat.lt_of_le_of_lt (Nat.sub_le _ _) harr)
    · exact Nat.mod_eq_of_lt (Nat.lt_of_le_of_lt (Nat.sub_le _ _) hunits)

end Sys2Proof.Machine
end

section
/-!
PROOFS. The X slot: what the copy commands share, their entry into the buffer, the index queue, and the traps.
-/
namespace Sys2Proof.Machine

/-! ### Copy commands -/

/-- The copy commands of given operands. -/
def copyCommands (o : XOps) (sp : Bool) (kk : BitVec 4) : List Instr :=
  [.xld o, .xldw o, .xst o, .xput o, .xb o, .xgth o, .xsct o, .xchn o, .xpair o, .xfil sp o, .xcol kk o, .xfen o]

/-- The index-queue entries a command of n indices claims (R226). -/
def Instr.claims (i : Instr) (n : Nat) : Int := match i with | .xgth _ | .xsct _ => (n : Int) | _ => 0

section
variable {s : State} {i : Instr} {o : XOps} {sp : Bool} {kk : BitVec 4}

/-- A copy command issues by the rule they share, has operands, and pushes nothing; as it enters the buffer, those of an index queue claim their
entries. -/
theorem copyCommand_spec (h : i ∈ copyCommands o sp kk) :
    exec i s = s.xIssue i o ∧ xops i = some o ∧ s.xPushCheck i = none ∧ ∀ (k : Cluster) (c : Nat), k.enqueue c i o =
      { k with
        buf := k.buf ++ [(k.mkCmd i o).settled c], nextCmd := k.nextCmd + 1
        unclaimed := k.unclaimed - Instr.claims i ((k.sreg o.sa).toNat % 512) } := by
  simp only [copyCommands, List.mem_cons, List.not_mem_nil, or_false] at h
  rcases h with rfl | rfl | rfl | rfl | rfl | rfl | rfl | rfl | rfl | rfl | rfl | rfl
  · exact ⟨rfl, rfl, rfl, fun _ _ => rfl⟩
  · exact ⟨rfl, rfl, rfl, fun _ _ => rfl⟩
  · exact ⟨rfl, rfl, rfl, fun _ _ => rfl⟩
  · exact ⟨rfl, rfl, rfl, fun _ _ => rfl⟩
  · exact ⟨rfl, rfl, rfl, fun _ _ => rfl⟩
  · exact ⟨rfl, rfl, rfl, fun _ _ => rfl⟩
  · exact ⟨rfl, rfl, rfl, fun _ _ => rfl⟩
  · exact ⟨rfl, rfl, rfl, fun _ _ => rfl⟩
  · exact ⟨rfl, rfl, rfl, fun _ _ => rfl⟩
  · exact ⟨rfl, rfl, rfl, fun _ _ => rfl⟩
  · exact ⟨rfl, rfl, rfl, fun _ _ => rfl⟩
  · exact ⟨rfl, rfl, rfl, fun _ _ => rfl⟩

/-- A command that passes its checks enters the buffer, where there is room. -/
theorem exec_copy_enters (hi : i ∈ copyCommands o sp kk) (hc : s.xCheck i = none) (hroom : s.me.buf.length < 64) :
    exec i s = .next (s.onMe fun k => k.enqueue s.cur.cl i o) :=
  exec_of_pass (copyCommand_spec hi).1 hc (if_neg (Nat.not_le.mpr hroom))
/-- One that finds the buffer full holds before issue. -/
theorem exec_copy_holds (hi : i ∈ copyCommands o sp kk) (hc : s.xCheck i = none) (hfull : 64 ≤ s.me.buf.length) :
    exec i s = .next (s.beginHold .fullBuffer 0) :=
  exec_of_pass (copyCommand_spec hi).1 hc (if_pos hfull)

end

theorem copyCommandsEnter : Claims.CopyCommandsEnter := by
  unfold Claims.CopyCommandsEnter
  intro s o sp kk i hi hc hroom
  obtain ⟨-, -, -, henq⟩ := copyCommand_spec (s := s) hi
  rw [exec_copy_enters hi hc hroom]
  exact congrArg Host.Outcome.next (congrArg s.onMe (funext fun k => henq k s.cur.cl))

/-! ### The checks of an X word -/

section
variable {s : State} {i : Instr}

/-- A check after one that passes is the answer. -/
theorem firstOf_second {x y : Option TrapInfo} (hx : x = none) : firstOf [x, y] = y := by
  subst hx
  cases y <;> rfl

/-- In a handler the check fails, whatever the word (R345). -/
theorem State.xCheck_handler (h : s.me.handler.isSome = true) : s.xCheck i = some (s.trapOf cILLINS) := by
  rw [State.xCheck, failIf_true h]
  rfl
/-- Outside one it is the check of the map, then that of a push. -/
theorem State.xCheck_run (h : s.me.handler = none) : s.xCheck i = firstOf [s.xMapCheck i, s.xPushCheck i] := by
  rw [State.xCheck, failIf_false (by rw [h]; rfl)]
  rfl
/-- A push has no map, and fails where its indices have no room in the queue (R226). -/
theorem State.xCheck_xpsh {one : Bool} {sa sb : BitVec 5} (h : s.me.handler = none) :
    s.xCheck (.xpsh one sa sb) =
      failIf (decide (256 < s.me.addrQ.length + (if one then 1 else 2))) { s.trapOf cSCHED none 3#16 with slot := 6#3 } := by
  rw [State.xCheck_run h]
  exact firstOf_second rfl

/-- A command whose check fails takes its trap. -/
theorem State.xIssue_trap {o : XOps} {x : TrapInfo} (hx : s.xCheck i = some x) : s.xIssue i o = .next (s.issueTrap s.cur.cl x) := State.guard_trap hx

/-- In a handler every X instruction is illegal. -/
theorem exec_inX_handler (hi : i.inX = true) (hh : s.me.handler.isSome = true) : exec i s = .next (s.issueTrap s.cur.cl (s.trapOf cILLINS)) := by
  have hx : s.xCheck i = some (s.trapOf cILLINS) := State.xCheck_handler hh
  cases i with
  | xld => exact (exec_xld _ _).trans (State.xIssue_trap hx)
  | xldw => exact (exec_xldw _ _).trans (State.xIssue_trap hx)
  | xst => exact (exec_xst _ _).trans (State.xIssue_trap hx)
  | xput => exact (exec_xput _ _).trans (State.xIssue_trap hx)
  | xb => exact (exec_xb _ _).trans (State.xIssue_trap hx)
  | xgth => exact (exec_xgth _ _).trans (State.xIssue_trap hx)
  | xsct => exact (exec_xsct _ _).trans (State.xIssue_trap hx)
  | xchn => exact (exec_xchn _ _).trans (State.xIssue_trap hx)
  | xpair => exact (exec_xpair _ _).trans (State.xIssue_trap hx)
  | xfil => exact (exec_xfil _ _ _).trans (State.xIssue_trap hx)
  | xcol => exact (exec_xcol _ _ _).trans (State.xIssue_trap hx)
  | xfen => exact (exec_xfen _ _).trans (State.xIssue_trap hx)
  | xpsh => exact exec_of_trap (exec_xpsh _ _ _ _) hx
  | xcan => exact exec_of_trap (exec_xcan _ _ _) hx
  | cmsk m => cases m <;> exact absurd hi Bool.false_ne_true
  | vrnd c m => cases m <;> exact absurd hi Bool.false_ne_true
  | vred c k => cases k <;> exact absurd hi Bool.false_ne_true
  | vscan c k => cases k <;> exact absurd hi Bool.false_ne_true
  | mzero b => cases b <;> exact absurd hi Bool.false_ne_true
  | _ => exact absurd hi Bool.false_ne_true

end

theorem indexQueueAndCancel : Claims.IndexQueueAndCancel := by
  unfold Claims.IndexQueueAndCancel
  intro s sa sb all sq
  refine ⟨fun hh hroom => ?_, fun hh hroom => ?_, fun hh => ?_⟩
  · exact exec_of_pass (exec_xpsh _ _ _ _) ((State.xCheck_xpsh hh).trans (failIf_false (decide_eq_false (Nat.not_lt.mpr hroom)))) rfl
  · exact exec_of_pass (exec_xpsh _ _ _ _) ((State.xCheck_xpsh hh).trans (failIf_false (decide_eq_false (Nat.not_lt.mpr (Nat.succ_le_succ hroom))))) rfl
  · exact exec_of_pass (exec_xcan _ _ _) (State.xCheck_run hh) rfl

theorem copyTraps : Claims.CopyTraps := by
  unfold Claims.CopyTraps
  intro s i o sp one kk sa sb commands
  refine ⟨exec_inX_handler, fun hi hh hbad => ?_, fun hh hfull => ?_, fun hi hc hfull => exec_copy_holds hi hc hfull⟩
  · obtain ⟨hexec, hops, -, -⟩ := copyCommand_spec (s := s) hi
    refine exec_of_trap hexec ?_
    rw [State.xCheck_run hh, State.xMapCheck, hops]
    dsimp only
    rw [failIf_true hbad]
    rfl
  · exact exec_of_trap (exec_xpsh _ _ _ _) ((State.xCheck_xpsh hh).trans (failIf_true (decide_eq_true hfull)))

/-- Settles O31. -/
theorem copySlot : Obligations.CopySlot := ⟨copyCommandsEnter, indexQueueAndCancel, copyTraps⟩

end Sys2Proof.Machine
end

section
/-!
PROOFS. The D slot: results and readings where the issue interval allows, and the traps where it does not.
-/
namespace Sys2Proof.Machine

section
variable {s : State} {dd : BitVec 3} {srcs : List VSrc} {f : Core → (VSrc → BitVec 1024) → Nat → DEl}
  {g : List Nat → Core → (VSrc → BitVec 1024) → Nat → BitVec 32} {v : BitVec 6} {n : Nat}

theorem State.dOut_of_pass (h : s.dCheck = none) : s.dOut dd srcs f = .next (s.dNext dd srcs f) := State.guard_pass h
theorem State.dOut_of_trap {x : TrapInfo} (h : s.dCheck = some x) : s.dOut dd srcs f = .next (s.issueTrap s.cur.cl x) := State.guard_trap h
theorem State.dVec_of_pass (h : s.dCheck = none) : s.dVec v srcs n g = .next (s.dVecNext v srcs n g) := State.guard_pass h
theorem State.dVec_of_trap {x : TrapInfo} (h : s.dCheck = some x) : s.dVec v srcs n g = .next (s.issueTrap s.cur.cl x) := State.guard_trap h

/-- The check of the issue interval fails fewer than four cycles after the last D instruction (R99). -/
theorem State.dCheck_early {t : Nat} (hl : s.me.lastD = some t) (ht : s.me.now < t + 4) : s.dCheck = some (s.trapOf cILLBUN none 4#16) := by
  rw [State.dCheck, hl]
  exact failIf_true (decide_eq_true ht)

end

theorem distributionResults : Claims.DistributionResults := by
  unfold Claims.DistributionResults
  intro s pm dd da db va mf tg sel out h
  have hout {srcs f} : s.dOut dd srcs f = .next (s.dNext dd srcs f) := State.dOut_of_pass h
  exact ⟨hout, hout, hout, hout, hout, hout, hout, hout, hout, hout, hout, hout, hout⟩

/-- DFRW of a register that has a next one has the check of the issue interval alone. -/
theorem State.dfrwCheck {s : State} {va : VSrc} (hv : va.r ≠ 63#6) : firstOf [failIf (va.r == 63#6) (s.trapOf cILLINS), s.dCheck] = s.dCheck :=
  firstOf_second (failIf_false (beq_eq_false_iff_ne.mpr hv))

theorem distributionReadings : Claims.DistributionReadings := by
  unfold Claims.DistributionReadings
  intro s dd da v va lin h
  refine ⟨State.dVec_of_pass h, State.dVec_of_pass h, State.dVec_of_pass h, fun hv => ?_⟩
  exact exec_of_pass (exec_dfrw _ _ _) ((State.dfrwCheck hv).trans h) rfl

theorem distributionTraps : Claims.DistributionTraps := by
  unfold Claims.DistributionTraps
  intro s i dd va t
  refine ⟨fun hi hv hl ht => ?_, fun hv => ?_⟩
  · have hc := State.dCheck_early hl ht
    cases i with
    | dadd => exact (exec_dadd _ _ _ _ _).trans (State.dOut_of_trap hc)
    | dsub => exact (exec_dsub _ _ _ _ _).trans (State.dOut_of_trap hc)
    | dmul => exact (exec_dmul _ _ _ _ _).trans (State.dOut_of_trap hc)
    | dmax => exact (exec_dmax _ _ _ _ _).trans (State.dOut_of_trap hc)
    | dmin => exact (exec_dmin _ _ _ _ _).trans (State.dOut_of_trap hc)
    | daff => exact (exec_daff _ _ _ _).trans (State.dOut_of_trap hc)
    | dmap => exact (exec_dmap _ _ _ _).trans (State.dOut_of_trap hc)
    | dmix => exact (exec_dmix _ _ _ _ _).trans (State.dOut_of_trap hc)
    | dfrs => exact (exec_dfrs _ _ _).trans (State.dOut_of_trap hc)
    | dpnt => exact (exec_dpnt _ _ _).trans (State.dOut_of_trap hc)
    | dsmp => exact (exec_dsmp _ _ _).trans (State.dVec_of_trap hc)
    | dmom => exact (exec_dmom _ _ _).trans (State.dVec_of_trap hc)
    | dqnt => exact (exec_dqnt _ _ _ _).trans (State.dVec_of_trap hc)
    | dtag => exact (exec_dtag _ _ _ _ _).trans (State.dOut_of_trap hc)
    | dmov => exact (exec_dmov _ _ _ _).trans (State.dOut_of_trap hc)
    | dcnd => exact (exec_dcnd _ _ _ _).trans (State.dOut_of_trap hc)
    | dfrw d v => exact exec_of_trap (exec_dfrw _ _ _) ((State.dfrwCheck (hv d v rfl)).trans hc)
    | cmsk m => cases m <;> exact absurd hi Bool.false_ne_true
    | vrnd c m => cases m <;> exact absurd hi Bool.false_ne_true
    | vred c k => cases k <;> exact absurd hi Bool.false_ne_true
    | vscan c k => cases k <;> exact absurd hi Bool.false_ne_true
    | mzero b => cases b <;> exact absurd hi Bool.false_ne_true
    | _ => exact absurd hi Bool.false_ne_true
  · exact exec_of_trap (exec_dfrw _ _ _) (x := firstOf [failIf (va.r == 63#6) (s.trapOf cILLINS), s.dCheck]) (by rw [failIf_true (beq_iff_eq.mpr hv)]; rfl)

/-- Settles O32. -/
theorem distributionSlot : Obligations.DistributionSlot := ⟨distributionResults, distributionReadings, distributionTraps⟩

end Sys2Proof.Machine
end

section
/-!
PROOFS. The M slot: its checks and their traps, plane loads and streams, bank operations and drains, and what the array writes.
-/
namespace Sys2Proof.Machine

/-! ### Streams -/

/-- Settles O29: with its checks passed each form starts its loads or streams. -/
theorem arrayStreams : Obligations.ArrayStreams := by
  intro s f pl ck aa off op bk bs va vh m st ho r n k load
  refine ⟨fun h => ?_, fun h => ?_, fun h => ?_, fun h => ?_, fun h => ?_⟩
  · exact exec_of_pass (exec_mbld _ _ _ _ _ _) h (State.onMe_congr rfl)
  · exact exec_of_pass (exec_mbldh _ _) h (State.onMe_congr rfl)
  · exact exec_of_pass (exec_mrow _ _ _ _ _ _ _ _ _ _) h rfl
  · exact exec_of_pass (exec_mchk _ _ _ _ _ _) h rfl
  · exact exec_of_pass (exec_mrot _ _ _ _ _) h rfl

/-! ### Bank operations -/

theorem arrayBanks : Claims.ArrayBanks := by
  unfold Claims.ArrayBanks
  intro s bk bs v vs ln clr k full
  refine ⟨fun h => ?_, fun h => ?_, fun h => ?_, fun h => ?_, fun h => ?_, fun h => ?_⟩
  · exact exec_of_pass (exec_mzero _ _) h (State.onMe_congr rfl)
  · exact exec_of_pass (exec_mzero _ _) h rfl
  · exact exec_of_pass (exec_macc _ _ _) h (State.onMe_congr rfl)
  · exact exec_of_pass (exec_mrd _ _ _ _) h (State.onMe_congr rfl)
  · exact exec_of_pass (exec_mwr _ _ _ _) h (State.onMe_congr rfl)
  · exact exec_of_pass (exec_mstat _ _ _) h (State.onMe_congr rfl)

/-! ### Drains -/

/-- An injection and the end of a drain leave the list of drains as it is. -/
theorem Cluster.inject_drains (k : Cluster) (bk : BitVec 2) : (k.inject bk).drains = k.drains := by
  unfold Cluster.inject
  dsimp only
  split
  · split <;> rfl
  · rfl
theorem Cluster.drainEnd_drains (k : Cluster) (bk : BitVec 2) (due : Nat) (trap : Option TrapInfo) (chks : List (Nat × ArrCheck)) :
    (k.drainEnd bk due trap chks).drains = k.drains := by
  cases trap with
  | some t => rfl
  | none =>
    refine List.foldlRecOn (motive := fun q : Cluster => q.drains = k.drains) chks _ rfl fun q hq c _ => ?_
    dsimp only
    split
    · exact hq
    · exact hq

/-- Each of the two forms adds one drain. -/
theorem Cluster.mdrn_drains (k : Cluster) (bk : BitVec 2) (f : FSel) (m : Nat) (nochk ckw : Bool) (tm : BitVec 4) (col : Option (BitVec 4 × BitVec 16)) :
    (k.mdrn bk f m nochk ckw tm col).drains.length = k.drains.length + 1 := by
  unfold Cluster.mdrn
  dsimp only
  rw [Cluster.drainEnd_drains, Cluster.onActive, Cluster.onCores, List.length_append, Cluster.inject_drains]
  rfl
theorem Cluster.mdrnk_drains (k : Cluster) (bk : BitVec 2) (f : FSel) (v : BitVec 6) (kn : Nat) (nochk : Bool) (mode : SelMode) (m nr rb : Nat) :
    (k.mdrnk bk f v kn nochk mode m nr rb).drains.length = k.drains.length + 1 := by
  unfold Cluster.mdrnk
  dsimp only
  rw [Cluster.drainEnd_drains, List.length_append, Cluster.inject_drains]
  rfl

/-! ### Diagnostics -/

/-- A change of the active cores that keeps a part of every core keeps it everywhere. -/
theorem Cluster.onActive_keeps {α : Type} (p : Core → α) {f : Nat → Core → Core} (hf : ∀ i x, p (f i x) = p x) (k : Cluster) (i : Nat) :
    p ((k.onActive f).core i) = p (k.core i) := by
  rcases Nat.lt_or_ge i k.cores.length with hi | hi
  · rw [k.core_onActive f i hi]
    split
    · exact hf i _
    · rfl
  · simp [Cluster.core, Cluster.onActive, Cluster.onCores, List.getD, hi]

/-- What is under way on a core, and how long its array is taken. -/
def Core.arrayTaken (x : Core) : List PEntry × Nat := (x.pipe, x.diagFree)

/-- Queued bank changes are neither. -/
theorem Cluster.queueUpds_arrayTaken (k : Cluster) (lat : Nat) (ops : List (Core → BankOp)) (i : Nat) :
    ((ops.foldl (fun k op => k.queueUpd lat op) k).core i).arrayTaken = (k.core i).arrayTaken :=
  List.foldlRecOn (motive := fun q : Cluster => (q.core i).arrayTaken = (k.core i).arrayTaken) ops _ rfl fun q hq op _ => by
    refine Eq.trans ?_ hq
    exact q.onActive_keeps (f := fun _ x => { x with bankUpds := x.bankUpds ++ [⟨q.now + lat, q.now, op x⟩] }) Core.arrayTaken (fun _ _ => rfl) i

section
variable {s : State} {v : BitVec 6} {row : Fin 66} {i : Nat}

/-- A number below 2^66 is below it as a register's value. -/
theorem toNat_ofNat_mod_lt (n : Nat) : (BitVec.ofNat 1024 (n % 2 ^ 66)).toNat < 2 ^ 66 := by
  rw [BitVec.toNat_ofNat]
  exact Nat.lt_of_le_of_lt (Nat.mod_le _ _) (Nat.mod_lt _ (by decide))

/-- MDIAG in its cluster, with the device's free values from n on (R262). -/
def Cluster.diag (k : Cluster) (v : BitVec 6) (n : Nat) : Cluster :=
  (([fun _ => .planesNone] ++ allBanks.map fun b _ => .zero b) : List (Core → BankOp)).foldl (fun k op => k.queueUpd 160 op)
    (k.onActive fun i x => ({ x with diagFree := k.now + 160 } : Core).fly (k.flyV .m (k.vphys v) 160 [0, 1, 2, 3]
      (BitVec.ofNat 1024 (Config.freeNat (n + i) % 2 ^ 66)) (BitVec.allOnes 128)))

theorem exec_mdiag_of_pass (h : s.mCheck (.mdiag v) = none) :
    exec (.mdiag v) s = .next { s.onMe (fun k => k.diag v s.fresh) with fresh := s.fresh + 256 } :=
  exec_of_pass (exec_mdiag _ _) h rfl

/-- On an active core the answer is under way and the array is taken for 160 cycles. -/
theorem Cluster.core_diag (k : Cluster) (n : Nat) (hi : i < k.cores.length) (hact : k.cmsk.getLsbD i = true) :
    ((k.diag v n).core i).arrayTaken = ((k.core i).pipe ++ k.flyV .m (k.vphys v) 160 [0, 1, 2, 3]
      (BitVec.ofNat 1024 (Config.freeNat (n + i) % 2 ^ 66)) (BitVec.allOnes 128), k.now + 160) := by
  rw [Cluster.diag, Cluster.queueUpds_arrayTaken, Cluster.core_onActive _ _ _ hi, if_pos hact]
  rfl

/-- MDIAG: only active cores change. -/
theorem mdiag_answers (hcl : s.cur.cl < s.clusters.length) (hlen : s.me.cores.length = 256) (h : s.mCheck (.mdiag v) = none) :
    ∃ t, exec (.mdiag v) s = .next t ∧ s.sameMem t ∧ ∀ i, i < 256 → s.me.cmsk.getLsbD i = true → (t.me.core i).diagFree = s.me.now + 160 ∧
      ∃ q : BitVec 1024, q.toNat < 2 ^ 66 ∧
        (t.me.core i).pipe = (s.me.core i).pipe ++ s.me.flyV .m (s.me.vphys v) 160 [0, 1, 2, 3] q (BitVec.allOnes 128) := by
  refine ⟨_, exec_mdiag_of_pass h, ⟨rfl, rfl⟩, fun i hi hact => ?_⟩
  have hme : State.me { s.onMe (fun k => k.diag v s.fresh) with fresh := s.fresh + 256 } = s.me.diag v s.fresh :=
    s.me_onMe (fun k => k.diag v s.fresh) hcl
  obtain ⟨hpipe, hfree⟩ := Prod.mk.inj (s.me.core_diag (v := v) s.fresh (hlen ▸ hi) hact)
  rw [hme]
  exact ⟨hfree, _, toNat_ofNat_mod_lt _, hpipe⟩

/-- MSPR in its cluster (R263). -/
def Cluster.spr (k : Cluster) (v : BitVec 6) (row : Fin 66) : Cluster :=
  k.onActive fun _ x =>
    let ops : List BankOp := if sprCode x row.val = 0 then [.retire row.val, .planesNone] else []
    ({ x with bankUpds := x.bankUpds ++ ops.map (fun o => (⟨k.now + 64, k.now, o⟩ : BankUpd)), diagFree := k.now + 64 } : Core).fly
      (k.flyV .m (k.vphys v) 64 [0, 1, 2, 3] (BitVec.ofNat 1024 (sprCode x row.val)) (BitVec.allOnes 128))

/-- A persistent retirement is noted core by core; the spare map alone changes. -/
def State.noteSpares (s : State) (row : Fin 66) (cores : List Nat) : State :=
  cores.foldl (fun t i => { t with
    spare := sput 0#32 (256 * s.cur.cl + i) (spareNext (sget 0#32 (256 * s.cur.cl + i) t.spare) (sprCode (s.me.core i) row.val) row.val) t.spare }) s

theorem State.noteSpares_spareOnly (s : State) (row : Fin 66) (cores : List Nat) : ∃ m, s.noteSpares row cores = { s with spare := m } :=
  List.foldlRecOn (motive := fun t : State => ∃ m, t = { s with spare := m }) cores _ ⟨s.spare, rfl⟩ fun t ht i _ => by
    obtain ⟨m, rfl⟩ := ht
    exact ⟨_, rfl⟩

theorem exec_mspr_of_pass (p : Bool) (h : s.mCheck (.mspr v p row) = none) : ∃ m, (p = false → m = s.spare) ∧
    exec (.mspr v p row) s = .next { s.onMe (fun k => k.spr v row) with spare := m } := by
  cases p with
  | false => exact ⟨s.spare, fun _ => rfl, exec_of_pass (exec_mspr _ _ _ _) h rfl⟩
  | true =>
    obtain ⟨m, hm⟩ := s.noteSpares_spareOnly row s.me.activeIdx
    exact ⟨m, nofun, exec_of_pass (exec_mspr _ _ _ _) h (congrArg (fun t : State => t.onMe fun k => k.spr v row) hm)⟩

/-- On an active core the code is under way and the array is taken for 64 cycles. -/
theorem Cluster.core_spr (k : Cluster) (hi : i < k.cores.length) (hact : k.cmsk.getLsbD i = true) :
    ((k.spr v row).core i).arrayTaken = ((k.core i).pipe ++ k.flyV .m (k.vphys v) 64 [0, 1, 2, 3]
      (BitVec.ofNat 1024 (sprCode (k.core i) row.val)) (BitVec.allOnes 128), k.now + 64) := by
  rw [Cluster.spr, Cluster.core_onActive _ _ _ hi, if_pos hact]
  rfl

/-- MSPR, whether it persists or not: the spare map apart, only active cores change. -/
theorem mspr_answers (p : Bool) (hcl : s.cur.cl < s.clusters.length) (hlen : s.me.cores.length = 256) (h : s.mCheck (.mspr v p row) = none) :
    ∃ t, exec (.mspr v p row) s = .next t ∧ s.sameMem t ∧ (p = false → t.spare = s.spare) ∧ ∀ i, i < 256 → s.me.cmsk.getLsbD i = true →
      (t.me.core i).diagFree = s.me.now + 64 ∧ (t.me.core i).pipe = (s.me.core i).pipe ++ s.me.flyV .m (s.me.vphys v) 64 [0, 1, 2, 3]
        (BitVec.ofNat 1024 (sprCode (s.me.core i) row.val)) (BitVec.allOnes 128) := by
  obtain ⟨m, hm, hexec⟩ := exec_mspr_of_pass p h
  refine ⟨_, hexec, ⟨rfl, rfl⟩, hm, fun i hi hact => ?_⟩
  have hme : State.me { s.onMe (fun k => k.spr v row) with spare := m } = s.me.spr v row := s.me_onMe (fun k => k.spr v row) hcl
  obtain ⟨hpipe, hfree⟩ := Prod.mk.inj (s.me.core_spr (v := v) (row := row) (hlen ▸ hi) hact)
  rw [hme]
  exact ⟨hfree, hpipe⟩

end

theorem arrayDrains : Claims.ArrayDrains := by
  unfold Claims.ArrayDrains
  intro s bk f m nochk ckw tm col v kk mode nr rb row hcl hlen
  refine ⟨fun h => ?_, fun h => ?_, fun h => ?_, fun h => ?_, fun h => ?_⟩
  · refine ⟨_, exec_of_pass (exec_mdrn _ _ _ _ _ _ _ _) h rfl, rfl, ?_⟩
    rw [State.me_onMe _ _ hcl, Cluster.mdrn_drains]
  · refine ⟨_, exec_of_pass (exec_mdrnk _ _ _ _ _ _ _ _ _ _) h rfl, rfl, ?_⟩
    rw [State.me_onMe _ _ hcl, Cluster.mdrnk_drains]
  · exact mdiag_answers hcl hlen h
  · obtain ⟨t, ht, hmem, hsp, hans⟩ := mspr_answers false hcl hlen h
    exact ⟨t, ht, hmem, hsp rfl, hans⟩
  · obtain ⟨t, ht, hmem, -, hans⟩ := mspr_answers true hcl hlen h
    exact ⟨t, ht, hmem, hans⟩

/-! ### Checks -/

section
variable {s : State} {i : Instr} {x : TrapInfo} {j : Nat}

/-- An M instruction whose check fails takes its trap. -/
theorem exec_inM_trap (hi : i.inM = true) (h : s.mCheck i = some x) : exec i s = .next (s.issueTrap s.cur.cl x) := by
  cases i with
  | mbld => exact exec_of_trap (exec_mbld _ _ _ _ _ _) h
  | mbldh => exact exec_of_trap (exec_mbldh _ _) h
  | mrow => exact exec_of_trap (exec_mrow _ _ _ _ _ _ _ _ _ _) h
  | mchk => exact exec_of_trap (exec_mchk _ _ _ _ _ _) h
  | mzero => exact exec_of_trap (exec_mzero _ _) h
  | macc => exact exec_of_trap (exec_macc _ _ _) h
  | mdrn => exact exec_of_trap (exec_mdrn _ _ _ _ _ _ _ _) h
  | mdrnk => exact exec_of_trap (exec_mdrnk _ _ _ _ _ _ _ _ _ _) h
  | mstat => exact exec_of_trap (exec_mstat _ _ _) h
  | mrd => exact exec_of_trap (exec_mrd _ _ _ _) h
  | mwr => exact exec_of_trap (exec_mwr _ _ _ _) h
  | mrot => exact exec_of_trap (exec_mrot _ _ _ _ _) h
  | mdiag => exact exec_of_trap (exec_mdiag _ _) h
  | mspr => exact exec_of_trap (exec_mspr _ _ _ _) h
  | cmsk m => cases m <;> exact absurd hi Bool.false_ne_true
  | vrnd c m => cases m <;> exact absurd hi Bool.false_ne_true
  | vred c k => cases k <;> exact absurd hi Bool.false_ne_true
  | vscan c k => cases k <;> exact absurd hi Bool.false_ne_true
  | _ => exact absurd hi Bool.false_ne_true

/-- A check of the active cores names the lowest that fails it. -/
theorem State.coreCheck_of_firstBad {cause : BitVec 8} {info : BitVec 16} {bad : Nat → Core → Bool} (h : s.me.firstBad bad = some j) :
    s.coreCheck cause info bad = some (s.trapOf cause (some j) info) := by
  rw [State.coreCheck, h]
  rfl
theorem State.coreCheck_of_allGood {cause : BitVec 8} {info : BitVec 16} {bad : Nat → Core → Bool} (h : s.me.firstBad bad = none) :
    s.coreCheck cause info bad = none := by
  rw [State.coreCheck, h]
  rfl

/-! ### The order of the checks (R100) -/

theorem firstOf_head {y : Option TrapInfo} {l : List (Option TrapInfo)} (h : y = some x) : firstOf (y :: l) = some x := by
  subst h
  rfl
theorem firstOf_next {y : Option TrapInfo} {l : List (Option TrapInfo)} (h : y = none) : firstOf (y :: l) = firstOf l := by
  subst h
  rfl

theorem State.mCheck_entry (h : s.mEntry i = some x) : s.mCheck i = some x := firstOf_head h
theorem State.mCheck_occ (he : s.mEntry i = none) (hp : s.mPriv i = none) (h : s.mOcc i = some x) : s.mCheck i = some x :=
  (firstOf_next he).trans ((firstOf_next hp).trans (firstOf_head h))
theorem State.mCheck_range (he : s.mEntry i = none) (hp : s.mPriv i = none) (ho : s.mOcc i = none) (h : s.mRange i = some x) : s.mCheck i = some x :=
  (firstOf_next he).trans ((firstOf_next hp).trans ((firstOf_next ho).trans (firstOf_head h)))
theorem State.mCheck_align (he : s.mEntry i = none) (hp : s.mPriv i = none) (ho : s.mOcc i = none) (hr : s.mRange i = none) (h : s.mAlign i = some x) :
    s.mCheck i = some x :=
  (firstOf_next he).trans ((firstOf_next hp).trans ((firstOf_next ho).trans ((firstOf_next hr).trans (firstOf_head h))))
theorem State.mCheck_flush (he : s.mEntry i = none) (hp : s.mPriv i = none) (ho : s.mOcc i = none) (hr : s.mRange i = none) (ha : s.mAlign i = none)
    (h : s.mFlush i = some x) : s.mCheck i = some x :=
  (firstOf_next he).trans ((firstOf_next hp).trans ((firstOf_next ho).trans ((firstOf_next hr).trans ((firstOf_next ha).trans (firstOf_head h)))))

/-- In a handler entered with array work unfinished no M instruction may issue (R345). -/
theorem State.mEntry_handler {b : Banked} (hb : s.me.handler = some b) (haq : b.aq = false) : s.mEntry i = some (s.trapOf cILLINS) := by
  dsimp only [State.mEntry]
  rw [hb]
  refine firstOf_head (failIf_true ?_)
  show (!b.aq) = true
  rw [haq]
  rfl
theorem State.mEntry_fsel {f : FSel} (hi : i.inM = true) (hh : s.me.handler = none) (hf : i.fsel = some f)
    (hbad : (s.me.firstBad fun _ x => !ftMOk (s.me.fte x f)) = some j) : s.mEntry i = some (s.trapOf cILLINS (some j)) := by
  have hft : s.ftCheck f ftMOk = some (s.trapOf cILLINS (some j)) := State.ftCheck_of_firstBad hbad
  dsimp only [State.mEntry]
  rw [hh]
  refine (firstOf_next rfl).trans ?_
  cases i with
  | mbld | mrow | mchk | mdrn | mdrnk =>
    cases hf
    exact firstOf_head hft
  | vqnt | vdqt => exact absurd hi Bool.false_ne_true
  | _ => cases hf
/-- A rotation needs the Hadamard plane (R259). -/
theorem State.mEntry_mrot {bd bs : BitVec 2} {pl : Bool} {n : Fin 64} (hh : s.me.handler = none)
    (hbad : (s.me.firstBad fun _ x => (x.plane pl).fmt != .had) = some j) : s.mEntry (.mrot bd bs pl n) = some (s.trapOf cILLINS (some j)) := by
  dsimp only [State.mEntry]
  rw [hh]
  exact (firstOf_next rfl).trans (firstOf_head (State.coreCheck_of_firstBad hbad))

theorem State.mOcc_array (h : (s.me.firstBad fun _ x => decide (s.me.now < x.diagFree)) = some j) :
    s.mOcc i = some (s.trapOf cILLBUN (some j) 4#16) := firstOf_head (State.coreCheck_of_firstBad h)
theorem State.mOcc_input (hfree : (s.me.firstBad fun _ x => decide (s.me.now < x.diagFree)) = none)
    (hi : match i with | .mrow .. | .mchk .. | .mrot .. => True | _ => False)
    (h : (s.me.firstBad fun _ x => decide (s.me.now < x.inputFree)) = some j) : s.mOcc i = some (s.trapOf cILLBUN (some j) 4#16) := by
  refine (firstOf_next (State.coreCheck_of_allGood hfree)).trans ?_
  cases i with
  | mrow | mchk | mrot => exact firstOf_head (State.coreCheck_of_firstBad h)
  | _ => cases hi
theorem State.mOcc_drains (hfree : (s.me.firstBad fun _ x => decide (s.me.now < x.diagFree)) = none)
    (hi : match i with | .mdrn .. | .mdrnk .. => True | _ => False)
    (h : (s.me.firstBad fun n _ => decide (4 ≤ (s.me.drains.filter fun d => d.cores.getLsbD n).length)) = some j) :
    s.mOcc i = some (s.trapOf cILLBUN (some j) 4#16) := by
  refine (firstOf_next (State.coreCheck_of_allGood hfree)).trans ?_
  cases i with
  | mdrn | mdrnk => exact firstOf_head (State.coreCheck_of_firstBad h)
  | _ => cases hi

/-- The flush rule holds MDIAG and MSPR to drains as well (R262, R263). -/
theorem State.mFlush_of_firstBad (h : (s.me.firstBad fun n x => (flushBanks i).any (x.unflushed s.me.now) ||
      (match i with | .mdiag _ | .mspr _ _ _ => decide (s.me.drainsOf n > 0) | _ => false)) = some j) :
    s.mFlush i = some (s.trapOf cSCHED (some j) 2#16) := by
  unfold State.mFlush
  cases i with
  | mdiag | mspr => exact State.coreCheck_of_firstBad h
  | _ => exact State.coreCheck_of_firstBad h

end

theorem arrayTraps : Claims.ArrayTraps := by
  unfold Claims.ArrayTraps
  intro s i j b f hi k traps first
  have take {x : TrapInfo} (h : s.mCheck i = some x) : traps x := exec_inM_trap hi h
  refine ⟨fun hb haq => take (State.mCheck_entry (State.mEntry_handler hb haq)),
    fun hh hf h => take (State.mCheck_entry (State.mEntry_fsel hi hh hf h)), ?_, fun he hp => ⟨fun h => take (State.mCheck_occ he hp (State.mOcc_array h)),
    fun hfree => ⟨fun hform h => take (State.mCheck_occ he hp (State.mOcc_input hfree hform h)),
      fun hform h => take (State.mCheck_occ he hp (State.mOcc_drains hfree hform h))⟩, ?_,
    fun ho hr ha h => take (State.mCheck_flush he hp ho hr ha (State.mFlush_of_firstBad h))⟩⟩
  · rintro hh bd bs pl n rfl h
    exact take (State.mCheck_entry (State.mEntry_mrot hh h))
  · rintro ho fs pl ck aa off rfl at' out
    refine ⟨fun h => take (State.mCheck_range he hp ho (State.coreCheck_of_firstBad h)), fun hgood h => ?_⟩
    exact take (State.mCheck_align he hp ho (State.coreCheck_of_allGood hgood) (State.coreCheck_of_firstBad h))

end Sys2Proof.Machine
end

section
/-!
PROOFS. What the array writes: the element of a column step, what a completed drain leaves, its tile as stores and as bytes.
-/
namespace Sys2Proof.Machine

/-! ### Elements of the banks -/

theorem Core.touch_m (x : Core) (a b : Nat) : (x.touch a b).m = x.m := by
  unfold Core.touch
  split <;> rfl

/-- Rows and columns up to 64 of a bank have places of their own. -/
theorem mkey_inj {b c i j k l : Nat} (hi : i ≤ 64) (hj : j ≤ 64) (hk : k ≤ 64) (hl : l ≤ 64) : mkey b i j = mkey c k l ↔ b = c ∧ i = k ∧ j = l := by
  unfold mkey
  omega

/-- A write of an element changes that element and no other. -/
theorem Core.cell_setCell {x : Core} {b c i j k l : Nat} (v : BitVec 32) (h : swfFrom 0#32 0 x.m = true) (hi : i ≤ 64) (hj : j ≤ 64) (hk : k ≤ 64)
    (hl : l ≤ 64) : (x.setCell b i j v).cell c k l = if c = b ∧ k = i ∧ l = j then v else x.cell c k l := by
  unfold Core.cell Core.setCell
  rw [Core.touch_m]
  refine (sget_sput_from h).trans ?_
  simp only [mkey_inj hk hl hi hj]

/-- The sum a column step builds: of an f4x row of the array on element values as they stand before a scale of zero, else by the operation (R245). -/
theorem stepCol_eq (x : Core) (st : Stream) (n : Nat) (h : n = 64 → st.chkCol = true) :
    x.stepCol st n =
      let col (kk : Nat) : Ext := if n = 64 then (x.plane st.plane).sum kk else (x.plane st.plane).get n kk
      let b (kk : Nat) : Ext := match st.src with | .rot _ _ => Ext.mul (col kk) (.num (1 / 8)) | _ => col kk
      let start : Ext := if st.fresh then freshOf st.op else val32 (x.cell st.bank.toNat st.row n)
      x.setCell st.bank.toNat st.row n (code32 (if st.src = .row .mac ∧ st.f4 = true ∧ n < 64 then
          f4Steps (fun kk => st.a.getD kk (.zero false)) b (fun kk => sget none kk st.z) (fun kk => sget none (128 * n + kk) (x.plane st.plane).z) start
        else colSteps st.op st.f4 st.a b start)) := by
  have hn : ¬ (n = 64 ∧ (!st.chkCol) = true) := by
    rintro ⟨h64, hck⟩
    rw [h h64] at hck
    exact Bool.false_ne_true hck
  unfold Core.stepCol
  rw [if_neg hn]
  rcases hsrc : st.src with op | ⟨r, q⟩ | ⟨b, r⟩
  · cases op <;> simp
  · simp
  · simp

/-! ### A completed drain (R255) -/

/-- What completing a drain leaves of its cluster: the status records, the flag, the magnitudes, and the drain gone. -/
def Cluster.takeStats (k : Cluster) (d : Drain) : Cluster :=
  d.stat.foldl (fun k (i, st) => k.onCore i fun x => { x with dstat := statNext x.dstat st }) k
def Cluster.takeFlag (k : Cluster) (d : Drain) : Cluster := if d.bflag then k.putTm (64 * d.tm.toNat + 40) 1#64 else k
def Cluster.takeFolds (k : Cluster) (d : Drain) : Cluster :=
  if d.folds.isEmpty then k else k.putTm (64 * d.tm.toNat + 41) (foldAmax (k.tmField d.tm 41) d.folds)
def Cluster.dropDrain (k : Cluster) (d : Drain) : Cluster := { k with drains := k.drains.filter fun e => !(e.issue == d.issue && e.origin == d.origin) }
def Cluster.drained (k : Cluster) (d : Drain) : Cluster := (((k.takeStats d).takeFlag d).takeFolds d).dropDrain d

theorem State.finishDrain_cl {s : State} {c : Nat} {d : Drain} (hcol : d.col = none) (hc : c < s.clusters.length) :
    (s.finishDrain c d).cl c = (s.cl c).drained d := by
  have key (u : State) (hu : u.clusters = s.clusters) : (u.onCl c fun k => k.drained d).cl c = (s.cl c).drained d := by
    rw [State.cl_onCl_same _ _ _ (hu ▸ hc), State.cl, hu]
    rfl
  unfold State.finishDrain
  rw [hcol]
  dsimp only
  split
  · exact key _ rfl
  · exact key _ rfl

section
variable {k : Cluster} {d : Drain} {n : Nat} {w : BitVec 1024}

theorem Cluster.core_onCore_same {f : Core → Core} (h : n < k.cores.length) : (k.onCore n f).core n = f (k.core n) := by
  simp [Cluster.core, Cluster.onCore, List.getD, h]
theorem Cluster.core_onCore_other {f : Core → Core} {m : Nat} (h : m ≠ n) : (k.onCore n f).core m = k.core m := by
  simp [Cluster.core, Cluster.onCore, List.getD, h.symm]

/-- A field of a map is no word of a core. -/
theorem Cluster.putTm_cores (key : Nat) (v : Word) : (k.putTm key v).cores = k.cores := rfl
theorem Cluster.tmField_putTm {t : BitVec 4} {f g : Nat} {v : Word} (h : swfFrom 0#64 0 k.tm = true) :
    (k.putTm (64 * t.toNat + g) v).tmField t f = if f = g then v else k.tmField t f := by
  refine (sget_sput_from h).trans ?_
  simp only [Nat.add_left_cancel_iff]
  rfl
theorem Cluster.putTm_wf {key : Nat} {v : Word} (h : swfFrom 0#64 0 k.tm = true) : swfFrom 0#64 0 (k.putTm key v).tm = true := sput_wf key h

theorem Cluster.takeFlag_cores : (k.takeFlag d).cores = k.cores := by
  unfold Cluster.takeFlag
  split <;> rfl
theorem Cluster.takeFlag_wf (h : swfFrom 0#64 0 k.tm = true) : swfFrom 0#64 0 (k.takeFlag d).tm = true := by
  unfold Cluster.takeFlag
  split
  · exact Cluster.putTm_wf h
  · exact h
theorem Cluster.takeFlag_tmField {f : Nat} (h : swfFrom 0#64 0 k.tm = true) :
    (k.takeFlag d).tmField d.tm f = if d.bflag = true ∧ f = 40 then 1#64 else k.tmField d.tm f := by
  unfold Cluster.takeFlag
  split
  next hb =>
    rw [Cluster.tmField_putTm h, hb]
    simp
  next hb => rw [if_neg fun hx => hb hx.1]

theorem Cluster.takeFolds_cores : (k.takeFolds d).cores = k.cores := by
  unfold Cluster.takeFolds
  split <;> rfl
theorem Cluster.takeFolds_tmField {f : Nat} (h : swfFrom 0#64 0 k.tm = true) :
    (k.takeFolds d).tmField d.tm f = if d.folds ≠ [] ∧ f = 41 then foldAmax (k.tmField d.tm 41) d.folds else k.tmField d.tm f := by
  unfold Cluster.takeFolds
  split
  next he => rw [if_neg fun hx => hx.1 (List.isEmpty_iff.mp he)]
  next he =>
    have hne : d.folds ≠ [] := fun h => he (List.isEmpty_iff.mpr h)
    rw [Cluster.tmField_putTm h]
    simp [hne]

/-- One record: its core takes it, and no map changes. -/
theorem Cluster.takeStats_single (hstat : d.stat = [(n, w)]) : k.takeStats d = k.onCore n fun x => { x with dstat := statNext x.dstat w } := by
  rw [Cluster.takeStats, hstat]
  rfl

theorem Cluster.core_drained (hstat : d.stat = [(n, w)]) (m : Nat) :
    (k.drained d).core m = (k.onCore n fun x => { x with dstat := statNext x.dstat w }).core m := by
  have hcores : (k.drained d).cores = (k.takeStats d).cores := Cluster.takeFolds_cores.trans Cluster.takeFlag_cores
  rw [Cluster.core, hcores, Cluster.takeStats_single hstat]
  rfl

/-- Its maps: the flag where a value was out of bounds, and the magnitudes folded in. -/
theorem Cluster.tmField_drained (hstat : d.stat = [(n, w)]) (hwf : swfFrom 0#64 0 k.tm = true) (f : Nat) :
    (k.drained d).tmField d.tm f =
      if d.folds ≠ [] ∧ f = 41 then foldAmax (k.tmField d.tm 41) d.folds else if d.bflag = true ∧ f = 40 then 1#64 else k.tmField d.tm f := by
  have htm : (k.takeStats d).tm = k.tm := by
    rw [Cluster.takeStats_single hstat]
    rfl
  have hfield (g : Nat) : (k.takeStats d).tmField d.tm g = k.tmField d.tm g := by rw [Cluster.tmField, htm, Cluster.tmField]
  rw [← htm] at hwf
  refine (Cluster.takeFolds_tmField (Cluster.takeFlag_wf hwf)).trans ?_
  rw [Cluster.takeFlag_tmField hwf, Cluster.takeFlag_tmField hwf, hfield, hfield]
  simp

end

/-! ### The tile of a drain as stores -/

/-- Chunks hold every element, and at most n each. -/
theorem mem_chunks {α : Type} {n : Nat} (hn : 0 < n) {a : α} {fuel : Nat} {l : List α} (hl : l.length ≤ fuel) (ha : a ∈ l) :
    ∃ ch, ch ∈ chunks n fuel l ∧ a ∈ ch ∧ ch.length ≤ n := by
  induction fuel generalizing l with
  | zero => exact absurd ha (List.eq_nil_of_length_eq_zero (Nat.le_zero.mp hl) ▸ List.not_mem_nil)
  | succ fuel ih =>
    have hne : ¬ l.isEmpty = true := fun h => List.not_mem_nil (List.isEmpty_iff.mp h ▸ ha)
    rw [chunks, if_neg hne]
    rw [← List.take_append_drop n l, List.mem_append] at ha
    rcases ha with ha | ha
    · exact ⟨_, List.mem_cons_self, ha, List.length_take_le n l⟩
    · have hlen : (l.drop n).length ≤ fuel := by
        rw [List.length_drop]
        omega
      obtain ⟨ch, hch, hin, hle⟩ := ih hlen ha
      exact ⟨ch, List.mem_cons_of_mem _ hch, hin, hle⟩

/-- Bit i of byte j of a little-endian number. -/
theorem testBit_leNat (bs : List Byte) {j i : Nat} (hj : j < bs.length) (hi : i < 8) : (leNat bs).testBit (8 * j + i) = bs[j].getLsbD i := by
  induction bs generalizing j with
  | nil => exact absurd hj (Nat.not_lt_zero j)
  | cons b bs ih =>
    have hsum : leNat (b :: bs) = 2 ^ 8 * leNat bs + b.toNat := Nat.add_comm _ _
    rw [hsum, Nat.testBit_two_pow_mul_add _ b.isLt]
    cases j with
    | zero =>
      rw [if_pos (by omega), Nat.mul_zero, Nat.zero_add]
      rfl
    | succ j =>
      rw [if_neg (by omega), show 8 * (j + 1) + i - 8 = 8 * j + i by omega, ih (Nat.lt_of_succ_lt_succ hj)]
      rfl

/-- A byte lane of a slice made of bytes. -/
theorem laneByte_leNat {bs : List Byte} {j : Nat} (hj : j < bs.length) (hlen : bs.length ≤ 32) :
    laneByte (BitVec.ofNat 256 (leNat bs)) j = bs[j] := by
  apply BitVec.eq_of_getLsbD_eq
  intro i hi
  rw [laneByte, BitVec.getLsbD_extractLsb', BitVec.getLsbD_ofNat, testBit_leNat bs hj hi, decide_eq_true hi, decide_eq_true (by omega), Bool.true_and,
    Bool.true_and]

/-- The store of a chunk of a tile. -/
def tileStore (k : Cluster) (d : Drain) (l : List (Nat × Byte)) (g : Nat) : PEntry :=
  { entryOf .store .store .m 0 (g % 8) k.now d.issue (BitVec.ofNat 256 (leNat (l.map (·.2)))) (BitVec.ofNat 32 (2 ^ l.length - 1)) d.origin with
    addrs := l.map (·.1) }

/-- It stores each byte of the chunk at its address. -/
theorem tileStore_stores (k : Cluster) (d : Drain) {l : List (Nat × Byte)} (g : Nat) {a : Nat} {v : Byte} (hl : l.length ≤ 32) (h : (a, v) ∈ l) :
    ∃ j, (j, a) ∈ (tileStore k d l g).lanes ∧ laneByte (tileStore k d l g).val j = v := by
  obtain ⟨j, hj, hget⟩ := List.getElem_of_mem h
  refine ⟨j, ?_, ?_⟩
  · rw [PEntry.lanes, List.mem_filterMap]
    refine ⟨(a, j), ?_, ?_⟩
    · rw [List.mem_zipIdx_iff_getElem?]
      simp [tileStore, hj, hget]
    · have hbit : (BitVec.ofNat 32 (2 ^ l.length - 1)).getLsbD j = true := by
        rw [BitVec.getLsbD_ofNat, Nat.testBit_two_pow_sub_one, decide_eq_true hj, decide_eq_true (by omega), Bool.and_self]
      exact if_pos hbit
  · have hj' : j < (l.map (·.2)).length := by rwa [List.length_map]
    refine (laneByte_leNat hj' (by rwa [List.length_map])).trans ?_
    rw [List.getElem_map, hget]

/-- A change of every core reads back core by core. -/
theorem Cluster.core_mapIdx {k : Cluster} (f : Nat → Core → Core) {i : Nat} (hi : i < k.cores.length) :
    Cluster.core { k with cores := k.cores.zipIdx.map fun (x, i) => f i x } i = f i (k.core i) := by
  simp [Cluster.core, List.getD, hi]

/-- The stores a core gets of a tile. -/
def tileStoresOf (k : Cluster) (d : Drain) (i : Nat) : List PEntry :=
  (chunks 32 d.out.length (d.out.filter fun (a, _) => a / 2 ^ 18 == i)).zipIdx.map fun (l, g) => tileStore k d l g

theorem Cluster.core_tileStores {k : Cluster} {d : Drain} {i : Nat} (hi : i < k.cores.length) :
    (k.tileStores d).core i = (k.core i).fly (tileStoresOf k d i) := Cluster.core_mapIdx (fun i x => x.fly (tileStoresOf k d i)) hi

/-- Every byte of the tile is a store of its core. -/
theorem Cluster.tileStores_stores {k : Cluster} {d : Drain} {a : Nat} {v : Byte} (h : (a, v) ∈ d.out) (hi : a / 2 ^ 18 < k.cores.length) :
    ∃ y, y ∈ ((k.tileStores d).core (a / 2 ^ 18)).pipe ∧ y.kind = .store ∧ y.land = k.now ∧ y.issue = d.issue ∧
      ∃ j, (j, a) ∈ y.lanes ∧ laneByte y.val j = v := by
  have hmem : (a, v) ∈ d.out.filter fun (b, _) => b / 2 ^ 18 == a / 2 ^ 18 := List.mem_filter.mpr ⟨h, beq_self_eq_true _⟩
  obtain ⟨l, hl, hin, hlen⟩ := mem_chunks (n := 32) (by decide) (List.length_filter_le _ d.out) hmem
  obtain ⟨g, hg, hget⟩ := List.getElem_of_mem hl
  refine ⟨tileStore k d l g, ?_, rfl, rfl, rfl, tileStore_stores k d g hlen hin⟩
  rw [Cluster.core_tileStores hi]
  refine List.mem_append_right _ (List.mem_map.mpr ⟨(l, g), ?_, rfl⟩)
  rw [List.mem_zipIdx_iff_getElem?, List.getElem?_eq_getElem hg, hget]

/-! ### The bytes of a tile (R203, R254) -/

section
variable {k : Cluster} {tm : BitVec 4} {e : BitVec 64} {ckw : Bool} {ds : List Nat} {rows : List (List (BitVec 32))} {i : Nat} {ys : List (BitVec 32)}

/-- Numbers laid out as bytes from a base. -/
def putBytes (base : Nat) (bs : List Nat) : List (Nat × Byte) := bs.zipIdx.map fun (b, j) => (base + j, BitVec.ofNat 8 b)

theorem mem_putBytes {base j b : Nat} {bs : List Nat} (h : bs[j]? = some b) : (base + j, BitVec.ofNat 8 b) ∈ putBytes base bs :=
  List.mem_map.mpr ⟨(b, j), List.mem_zipIdx_iff_getElem?.mpr h, rfl⟩

/-- A row's data and headers stand in the tile where the map places them. -/
theorem Cluster.mem_tileBytes {z : Nat × Byte} (h : rows[i]? = some ys)
    (hz : let out := drainRow e (val32 ((k.tmField tm 35).setWidth 32)) (ds.drop (64 * i)) ys
      z ∈ putBytes (k.tmN tm 19 + i * k.tmN tm 20) out.1 ++ putBytes (k.tmN tm 22 + i * k.tmN tm 20 / hdrDiv (ftD e)) out.2.1) :
    z ∈ k.tileBytes tm e ckw ds rows := by
  refine List.mem_append_left _ (List.mem_flatMap.mpr ⟨(drainRow e (val32 ((k.tmField tm 35).setWidth 32)) (ds.drop (64 * i)) ys, i), ?_, hz⟩)
  rw [List.mem_zipIdx_iff_getElem?, List.getElem?_map, List.getElem?_zipIdx, h, Nat.zero_add]
  rfl

end

theorem arrayContents : Claims.ArrayContents := by
  unfold Claims.ArrayContents
  intro s c x st n r q bk d k w tm e ckw ds rows a v
  refine ⟨?_, fun hcol hstat hc hn hwf => ?_, fun h hi => Cluster.tileStores_stores h hi, fun i ys h => ?_⟩
  · intro hwf hst hr hq hn hck col b start
    rw [stepCol_eq x st n hck]
    refine (Core.cell_setCell _ hwf hst hn hr hq).trans ?_
    simp only [← BitVec.toNat_eq]
    rfl
  · intro t
    rw [show t.cl c = (s.cl c).drained d from State.finishDrain_cl hcol hc]
    refine ⟨?_, fun m hm => ?_, fun hb => ?_, fun hf => ?_⟩
    · rw [Cluster.core_drained hstat, Cluster.core_onCore_same hn]
    · rw [Cluster.core_drained hstat, Cluster.core_onCore_other hm]
    · rw [Cluster.tmField_drained hstat hwf, if_neg (fun h => absurd h.2 (by decide)), if_pos ⟨hb, rfl⟩]
    · rw [Cluster.tmField_drained hstat hwf, if_pos ⟨hf, rfl⟩]
  · exact ⟨fun j b hb => Cluster.mem_tileBytes h (List.mem_append_left _ (mem_putBytes hb)),
      fun j b hb => Cluster.mem_tileBytes h (List.mem_append_right _ (mem_putBytes hb))⟩

/-- Settles O30: banks, drains, traps and contents of the array. -/
theorem arrayBanksAndDrains : Obligations.ArrayBanksAndDrains := ⟨arrayBanks, arrayDrains, arrayTraps, arrayContents⟩

end Sys2Proof.Machine
end

section
/-!
PROOFS. What A, V, near L and D instructions leave as it was.
-/
namespace Sys2Proof.Machine

/-! ### Work of a core that touches its pipeline, its gather queue, its generator and the soft error alone -/

namespace Core.onlyPipe
variable {x y : Core}

theorem refl (x : Core) : Core.onlyPipe x x := rfl
/-- The work as the four parts it gives. -/
theorem parts (h : Core.onlyPipe x y) : ∃ p g n u, y = { x with pipe := p, gq := g, gen := n, upset := u } := ⟨_, _, _, _, h⟩
theorem fly (h : Core.onlyPipe x y) (es : List PEntry) : Core.onlyPipe x (y.fly es) := by
  obtain ⟨p, g, n, u, rfl⟩ := h.parts
  rfl
theorem draw (h : Core.onlyPipe x y) (n : Nat) : Core.onlyPipe x (y.draw n).2 := by
  obtain ⟨p, g, n, u, rfl⟩ := h.parts
  rfl
theorem pop (h : Core.onlyPipe x y) (c : Prop) [Decidable c] : Core.onlyPipe x (if c then { y with gq := y.gq.tail } else y) := by
  obtain ⟨p, g, n, u, rfl⟩ := h.parts
  split <;> rfl
theorem popOn (h : Core.onlyPipe x y) (k : Cluster) (ops : List VSrc) : Core.onlyPipe x (k.popOn ops y) := h.pop _
theorem struck (h : Core.onlyPipe x y) (c : VCtl) : Core.onlyPipe x (y.struck c) := by
  obtain ⟨p, g, n, u, rfl⟩ := h.parts
  unfold Core.struck
  split <;> rfl

end Core.onlyPipe

/-! ### Work of the active cores -/

/-- Only work of the current cluster's active cores is under way. -/
def State.coreWork (s t : State) : Prop := s.onlyCores t ∧ ∀ j, j < 256 → Core.onlyPipe (s.me.core j) (t.me.core j)

/-- The same of one cluster. -/
def Cluster.coreWork (k q : Cluster) : Prop :=
  q = { k with cores := q.cores, lastD := q.lastD } ∧ q.cores.length = k.cores.length ∧ (∀ i, i < 256 → k.cmsk.getLsbD i = false → q.core i = k.core i) ∧
    ∀ j, j < 256 → Core.onlyPipe (k.core j) (q.core j)

theorem Cluster.core_of_le {k : Cluster} {i : Nat} (h : k.cores.length ≤ i) : k.core i = Core.reset := by
  simp [Cluster.core, List.getD, h]

theorem Cluster.onActive_length (k : Cluster) (f : Nat → Core → Core) : (k.onActive f).cores.length = k.cores.length := by
  simp [Cluster.onActive, Cluster.onCores]

/-- A core after work of the active ones: its own work, or as it was. -/
theorem Cluster.core_onActive_cases (k : Cluster) (f : Nat → Core → Core) (i : Nat) :
    k.cmsk.getLsbD i = true ∧ (k.onActive f).core i = f i (k.core i) ∨ (k.onActive f).core i = k.core i := by
  rcases Nat.lt_or_ge i k.cores.length with hi | hi
  · rw [k.core_onActive f i hi]
    split
    next h => exact .inl ⟨h, rfl⟩
    next => exact .inr rfl
  · rw [Cluster.core_of_le hi, Cluster.core_of_le ((k.onActive_length f).symm ▸ hi)]
    exact .inr rfl

theorem Cluster.onActive_coreWork (k : Cluster) {f : Nat → Core → Core} (hf : ∀ i x, Core.onlyPipe x (f i x)) (l : Option Nat) :
    k.coreWork { k.onActive f with lastD := l } := by
  refine ⟨rfl, k.onActive_length f, fun i _ hi => ?_, fun j _ => ?_⟩
  · rcases k.core_onActive_cases f i with ⟨h, -⟩ | h
    · exact absurd (h.symm.trans hi) (by decide)
    · exact h
  · show Core.onlyPipe (k.core j) ((k.onActive f).core j)
    rcases k.core_onActive_cases f j with ⟨-, h⟩ | h
    · rw [h]
      exact hf j _
    · rw [h]
      exact Core.onlyPipe.refl _

theorem State.onMe_coreWork (s : State) {g : Cluster → Cluster} (hg : s.me.coreWork (g s.me)) : s.coreWork (s.onMe g) := by
  obtain ⟨hcl, hlen, hinactive, hcores⟩ := State.me_onMe_rel Cluster.coreWork s g
    (fun k => ⟨rfl, rfl, fun _ _ _ => rfl, fun _ _ => Core.onlyPipe.refl _⟩) hg
  exact ⟨⟨s.onMe_onlyMe g, hcl, hlen, hinactive⟩, hcores⟩

/-! ### The forms of the slots -/

/-- What an instruction answers is its own trap, or work of cores. -/
def State.coreWorkOr (s : State) (r : Res) : Prop := ∀ t, r = .next t → s.trapped t ∨ s.coreWork t

namespace State.coreWorkOr
variable (s : State)

theorem next {t : State} (h : s.coreWork t) : s.coreWorkOr (.next t) := fun u hu => by
  cases hu
  exact .inr h
theorem active {f : Cluster → Nat → Core → Core} (hf : ∀ i x, Core.onlyPipe x (f s.me i x)) : s.coreWork (s.onMe fun k => k.onActive (f k)) :=
  s.onMe_coreWork (s.me.onActive_coreWork hf s.me.lastD)
theorem activeD {f : Cluster → Nat → Core → Core} (hf : ∀ i x, Core.onlyPipe x (f s.me i x)) (l : Cluster → Option Nat) :
    s.coreWork (s.onMe fun k => { k.onActive (f k) with lastD := l k }) := s.onMe_coreWork (s.me.onActive_coreWork hf (l s.me))
theorem guard {x : Option TrapInfo} {f : State → State} (h : s.coreWork (f s)) : s.coreWorkOr (s.guard x f) := fun u hu => by
  cases x with
  | none =>
    cases hu
    exact .inr h
  | some t =>
    cases hu
    exact .inl ⟨t, rfl⟩

theorem aOut (ad : BitVec 4) (f : Nat → Core → BitVec 32) : s.coreWorkOr (s.aOut ad f) := next s (active s fun _ _ => (Core.onlyPipe.refl _).fly _)
theorem loadV (v : BitVec 6) (ops : List VSrc) (acc : Core → LAccess) : s.coreWorkOr (s.loadV v ops acc) :=
  guard s (active s fun _ _ => ((Core.onlyPipe.refl _).popOn _ _).fly _)
theorem storeV (ops : List VSrc) (v : VSrc) (acc : Core → LAccess) : s.coreWorkOr (s.storeV ops v acc) :=
  guard s (active s fun _ _ => ((Core.onlyPipe.refl _).popOn _ _).fly _)
theorem vOp (c : VCtl) (w lat : Nat) (v : BitVec 6) (srcs : List VSrc) (every : Bool) (n : Nat)
    (f : List Nat → (VSrc → BitVec 1024) → BitVec 128 → Nat → Nat) : s.coreWorkOr (s.vOp c w lat v srcs every n f) :=
  next s (active s fun _ _ => ((((Core.onlyPipe.refl _).draw n).struck c).popOn _ _).fly _)
theorem pOp (c : VCtl) (w lat : Nat) (p : BitVec 4) (srcs : List VSrc) (every : Bool) (chk : (VSrc → BitVec 1024) → BitVec 2)
    (f : Core → Cluster → (VSrc → BitVec 1024) → Nat → Bool) : s.coreWorkOr (s.pOp c w lat p srcs every chk f) :=
  next s (active s fun _ _ => (((Core.onlyPipe.refl _).struck c).popOn _ _).fly _)
theorem dOut (d : BitVec 3) (srcs : List VSrc) (f : Core → (VSrc → BitVec 1024) → Nat → DEl) : s.coreWorkOr (s.dOut d srcs f) :=
  guard s (activeD s (fun _ _ => ((Core.onlyPipe.refl _).popOn _ _).fly _) fun k => some k.now)
theorem dVec (v : BitVec 6) (srcs : List VSrc) (n : Nat) (f : List Nat → Core → (VSrc → BitVec 1024) → Nat → BitVec 32) :
    s.coreWorkOr (s.dVec v srcs n f) :=
  guard s (activeD s (fun _ _ => (((Core.onlyPipe.refl _).draw n).popOn _ _).fly _) fun k => some k.now)

/-- Accesses of predicate and distribution registers, the quantisers and the repeated forms have work of their own. -/
theorem near {acc : Core → LAccess} {f : Cluster → Nat → Core → List PEntry} :
    s.coreWorkOr (s.guard (s.lCheck acc) fun s => s.onMe fun k => k.onActive fun i x => x.fly (f k i x)) :=
  guard s (active s fun _ _ => (Core.onlyPipe.refl _).fly _)
theorem vqnt (f : FSel) (v : BitVec 6) (va : VSrc) : s.coreWorkOr (execVqnt f v va s) :=
  guard s (active s fun _ x => (((Core.onlyPipe.refl x).draw _).popOn _ _).fly _)
theorem vdqt (f : FSel) (v : BitVec 6) (va : VSrc) : s.coreWorkOr (execVdqt f v va s) :=
  guard s (active s fun _ x => ((Core.onlyPipe.refl x).popOn _ _).fly _)
theorem vmov (c : VCtl) (sz : ISz) (rep v : BitVec 6) (va : VSrc) : s.coreWorkOr (execVmov c sz rep v va s) :=
  guard s (active s fun _ x => (((Core.onlyPipe.refl x).pop _).struck c).fly _)
theorem dfrw (d : BitVec 3) (va : VSrc) : s.coreWorkOr (execDfrw d va s) :=
  guard s (activeD s (fun _ x => ((Core.onlyPipe.refl x).pop _).fly _) fun k => some k.now)

end State.coreWorkOr

/-- The instructions without a form of their own: no write of a map or a table, and no far access (R156, R157, R171). -/
def Instr.nearWork (i : Instr) : Prop :=
  match i with | .shw .. | .shwi .. | .ftw .. | .ftwField .. | .vldf .. | .vstf .. | .vupd .. => False | _ => True

open State.coreWorkOr in
/-- Every A, V, near L and D instruction is one of the forms. -/
theorem exec_coreWorkOr {i : Instr} (s : State) (h : (i.inA || i.inV || i.inL || i.inD) = true) (hn : Instr.nearWork i) :
    s.coreWorkOr (exec i s) := by
  cases i with
  | aadd | asub | aaddi | ashl | amov | aldi | acix | afroms => exact aOut s _ _
  | vld | vldb | vlds | vldx => exact loadV s _ _ _
  | vst | vstx => exact storeV s _ _ _
  | pld | pst | dld | dst => exact near s
  | vadd | vsub | vmul | vmulh | vmad | vmin | vmax | vabs | vneg | vand | vor | vxor | vnot | vshl | vshr | vsra | vclz | vpopc | fadd
  | fsub | fmul | ffma | ffms | fmin | fmax | fabs | fneg | fcps | fexp2 | flog2 | frcp | frsq | fsqrt | ftanh | fsigm | fsin | fcos | vsel
  | fcls | vcvt | vpack | vunpk | vred | vamax | vscan | vperm | vshuf | vbcst | vsld | vzip | vmovi => exact vOp s _ _ _ _ _ _ _ _
  | vcmp | fcmp | pand | por | pxor | pnot | pcnt | pfirst | vchk => exact pOp s _ _ _ _ _ _ _ _
  | vrnd c m => cases m <;> exact vOp s _ _ _ _ _ _ _ _
  | vqnt => exact vqnt s _ _ _
  | vdqt => exact vdqt s _ _ _
  | vmov => exact vmov s _ _ _ _ _
  | dfrw => exact dfrw s _ _
  | dadd | dsub | dmul | dmax | dmin | daff | dmap | dmix | dfrs | dpnt | dtag | dmov | dcnd => exact dOut s _ _ _
  | dsmp | dmom | dqnt => exact dVec s _ _ _ _
  | shw | shwi | ftw | ftwField | vldf | vstf | vupd => cases hn
  | cmsk m => cases m <;> exact absurd h Bool.false_ne_true
  | mzero b => cases b <;> exact absurd h Bool.false_ne_true
  | _ => exact absurd h Bool.false_ne_true

/-- Settles O49: every form gives work to the active cores alone. -/
theorem frameOfCoreWork : Obligations.FrameOfCoreWork := fun _ s t h hn ht => exec_coreWorkOr s h hn t ht

end Sys2Proof.Machine
end

section
/-!
PROOFS. What M instructions leave as it was: the registers and memories of every core, and the sequencer's state.
-/
namespace Sys2Proof.Machine

/-! ### The registers and memories of a core -/

/-- The registers and memories of a core together. -/
def Core.regs (x : Core) : List (BitVec 1024) × List (BitVec 128) × List (BitVec 32) × List (BitVec 2048) × List (BitVec 128) × List (BitVec 64) ×
    List Host.Cell × List Host.Cell := (x.v, x.p, x.a, x.dPts, x.dWords, x.ft, x.spm, x.bst)

theorem Core.sameRegs_of_regs {x y : Core} (h : y.regs = x.regs) : Core.sameRegs x y := by
  simpa only [Core.regs, Prod.mk.injEq, Core.sameRegs] using h

section
variable (x : Core) {α : Type}

theorem Core.foldl_regs {f : Core → α → Core} (hf : ∀ x a, (f x a).regs = x.regs) (l : List α) : (l.foldl f x).regs = x.regs :=
  List.foldlRecOn (motive := fun y : Core => y.regs = x.regs) l f rfl fun y hy a _ => (hf y a).trans hy

theorem Core.touch_regs (a b : Nat) : (x.touch a b).regs = x.regs := by
  unfold Core.touch
  split <;> rfl
theorem Core.setCell_regs (b i j : Nat) (v : BitVec 32) : (x.setCell b i j v).regs = x.regs := Core.touch_regs _ _ _
theorem Core.setPlane_regs (pl : Bool) (p : Plane) : (x.setPlane pl p).regs = x.regs := by
  cases pl
  · exact Core.touch_regs _ _ _
  · exact Core.touch_regs _ _ _
theorem Core.setEdge_regs (b k : Nat) (v : Ext) : (x.setEdge b k v).regs = x.regs := Core.touch_regs _ _ _
theorem Core.clearEdge_regs (b : BitVec 2) : (x.clearEdge b).regs = x.regs := Core.touch_regs _ _ _
theorem Core.zeroBank_regs (b : BitVec 2) : (x.zeroBank b).regs = x.regs := (Core.touch_regs _ _ _).trans (Core.clearEdge_regs _ _)
theorem Core.stepCol_regs (st : Stream) (n : Nat) : (x.stepCol st n).regs = x.regs := by
  unfold Core.stepCol
  split
  · rfl
  · exact Core.setCell_regs _ _ _ _ _
theorem Core.stepStream_regs (now : Nat) (st : Stream) : (x.stepStream now st).1.regs = x.regs :=
  Core.foldl_regs x (fun y n => y.stepCol_regs _ n) _
/-- The addition of a sampled bank, over given cells and edges (R248). -/
def Core.addBank (cells edges : List Nat) (d : BitVec 2) (vals : SMap (BitVec 32)) (lin stale : Bool) (edge : SMap Ext) : Core :=
  let x := cells.foldl (fun x i =>
    x.setCell d.toNat (i / 65) (i % 65) (code32 (Ext.add (val32 (x.cell d.toNat (i / 65) (i % 65))) (val32 (sget 0#32 i vals))))) x
  let x := edges.foldl (fun x k => x.setEdge d.toNat k (Ext.add (x.edgeOf d.toNat k) (sget (.zero false) k edge))) x
  (({ x with lin := setBit x.lin d (x.linOf d && lin), stale := setBit x.stale d (x.staleOf d || stale) }).touch 2 d.toNat).touch 7 d.toNat

theorem Core.addBank_regs (cells edges : List Nat) (d : BitVec 2) (vals : SMap (BitVec 32)) (lin stale : Bool) (edge : SMap Ext) :
    (x.addBank cells edges d vals lin stale edge).regs = x.regs := by
  refine (Core.touch_regs _ _ _).trans ((Core.touch_regs _ _ _).trans ?_)
  exact (Core.foldl_regs _ (fun y k => y.setEdge_regs _ _ _) _).trans (Core.foldl_regs x (fun y k => y.setCell_regs _ _ _ _) _)
theorem Core.bankUpd_accAdd (t o : Nat) (d : BitVec 2) (vals : SMap (BitVec 32)) (lin stale : Bool) (edge : SMap Ext) :
    x.bankUpd ⟨t, o, .accAdd d vals lin stale edge⟩ = (x.addBank (List.range 4225) (List.range 128) d vals lin stale edge, none) := by
  unfold Core.bankUpd Core.addBank
  rfl
theorem Core.bankUpd_regs (u : BankUpd) : (x.bankUpd u).1.regs = x.regs := by
  obtain ⟨t, o, op⟩ := u
  cases op with
  | zero b => exact Core.zeroBank_regs _ _
  | accSample d s => rfl
  | accAdd d vals lin stale edge =>
    rw [Core.bankUpd_accAdd]
    dsimp only
    rw [Core.addBank_regs]
  | write b cells => exact Core.foldl_regs x (fun y z => y.setCell_regs _ _ _ _) _
  | fix b i j er ec => exact Core.setCell_regs _ _ _ _ _
  | unseen b cells => rfl
  | planesNone => exact (Core.setPlane_regs _ _ _).trans (Core.setPlane_regs _ _ _)
  | retire row => rfl
theorem Core.arrayWork_regs (now : Nat) (work : List ArrWork) : (x.arrayWork now work).regs = x.regs := by
  refine Core.foldl_regs x (fun y w => ?_) work
  cases w with
  | stream st =>
    have h := y.stepStream_regs now st
    dsimp only
    split
    next heq => rw [heq] at h; exact h
    next heq => rw [heq] at h; exact h
  | upd u =>
    have h := y.bankUpd_regs u
    dsimp only
    split
    next heq => rw [heq] at h; exact h
    next heq => rw [heq] at h; exact h
theorem Core.arrayCycle_regs (now : Nat) : (x.arrayCycle now).regs = x.regs := by
  unfold Core.arrayCycle
  dsimp only
  split
  · exact (Core.arrayWork_regs _ _ _).trans rfl
  · exact (Core.arrayWork_regs _ _ _).trans rfl
theorem Core.pop_regs (c : Prop) [Decidable c] : (if c then { x with gq := x.gq.tail } else x : Core).regs = x.regs := by
  split <;> rfl
theorem Core.popOn_regs (k : Cluster) (ops : List VSrc) : (k.popOn ops x).regs = x.regs := Core.pop_regs x _

end

/-! ### A cluster after an M instruction -/

/-- Only cores, drains, completion-point traps, the injection and the marks of the array's use change, and of a core no register or memory. -/
def Cluster.arrayOnly (k q : Cluster) : Prop :=
  q = { k with cores := q.cores, drains := q.drains, cps := q.cps, errinj := q.errinj, lastMchk := q.lastMchk, lastBf := q.lastBf } ∧
    ∀ j, (q.core j).regs = (k.core j).regs

namespace Cluster.arrayOnly
variable {k q r : Cluster}

theorem refl (k : Cluster) : k.arrayOnly k := ⟨rfl, fun _ => rfl⟩
theorem parts (h : k.arrayOnly q) : ∃ cs ds cp inj m b, q = { k with cores := cs, drains := ds, cps := cp, errinj := inj, lastMchk := m, lastBf := b } :=
  ⟨_, _, _, _, _, _, h.1⟩
theorem trans (h : k.arrayOnly q) (h' : q.arrayOnly r) : k.arrayOnly r := by
  refine ⟨?_, fun j => (h'.2 j).trans (h.2 j)⟩
  obtain ⟨cs, ds, cp, inj, m, b, rfl⟩ := h.parts
  obtain ⟨cs', ds', cp', inj', m', b', rfl⟩ := h'.parts
  rfl
theorem onActive (k : Cluster) {f : Nat → Core → Core} (hf : ∀ i x, (f i x).regs = x.regs) : k.arrayOnly (k.onActive f) :=
  ⟨rfl, fun j => k.onActive_keeps Core.regs hf j⟩
theorem onCore (k : Cluster) (i : Nat) {f : Core → Core} (hf : ∀ x, (f x).regs = x.regs) : k.arrayOnly (k.onCore i f) := by
  refine ⟨rfl, fun j => ?_⟩
  by_cases hj : j = i
  · subst hj
    rcases Nat.lt_or_ge j k.cores.length with h | h
    · rw [Cluster.core_onCore_same h]
      exact hf _
    · rw [Cluster.core_of_le h, Cluster.core_of_le (by simpa [Cluster.onCore] using h)]
  · rw [Cluster.core_onCore_other hj]
theorem foldl {α : Type} {f : Cluster → α → Cluster} (hf : ∀ (q : Cluster) a, q.arrayOnly (f q a)) (l : List α) (k : Cluster) : k.arrayOnly (l.foldl f k) :=
  List.foldlRecOn (motive := fun q : Cluster => k.arrayOnly q) l f (refl k) fun q hq a _ => hq.trans (hf q a)

theorem stepNow (k : Cluster) : k.arrayOnly k.stepNow := onActive k fun _ x => x.arrayCycle_regs _
theorem queueUpd (k : Cluster) (lat : Nat) (op : Core → BankOp) : k.arrayOnly (k.queueUpd lat op) := onActive k fun _ _ => rfl
theorem inject (k : Cluster) (bk : BitVec 2) : k.arrayOnly (k.inject bk) := by
  unfold Cluster.inject
  dsimp only
  split
  · split
    · exact ⟨rfl, fun _ => rfl⟩
    · exact trans ⟨rfl, fun _ => rfl⟩ (onCore _ _ fun x => Core.setCell_regs x _ _ _ _)
  · exact refl k
theorem drainEnd (k : Cluster) (bk : BitVec 2) (due : Nat) (trap : Option TrapInfo) (chks : List (Nat × ArrCheck)) :
    k.arrayOnly (k.drainEnd bk due trap chks) := by
  cases trap with
  | some t => exact ⟨rfl, fun _ => rfl⟩
  | none =>
    refine foldl (fun q c => ?_) chks k
    dsimp only
    split
    · exact onCore q _ fun _ => rfl
    · exact refl q
theorem mdrn (k : Cluster) (bk : BitVec 2) (f : FSel) (m : Nat) (nochk ckw : Bool) (tm : BitVec 4) (col : Option (BitVec 4 × BitVec 16)) :
    k.arrayOnly (k.mdrn bk f m nochk ckw tm col) := by
  refine trans (inject k bk) (trans ?_ (drainEnd _ _ _ _ _))
  exact trans ⟨rfl, fun _ => rfl⟩ (onActive _ fun _ _ => rfl)
theorem mdrnk (k : Cluster) (bk : BitVec 2) (f : FSel) (v : BitVec 6) (kn : Nat) (nochk : Bool) (mode : SelMode) (m nr rb : Nat) :
    k.arrayOnly (k.mdrnk bk f v kn nochk mode m nr rb) := by
  exact trans (inject k bk) (trans ⟨rfl, fun _ => rfl⟩ (drainEnd _ _ _ _ _))

theorem diag (k : Cluster) (v : BitVec 6) (n : Nat) : k.arrayOnly (k.diag v n) := by
  unfold Cluster.diag
  refine trans ?_ (foldl (fun q op => queueUpd q 160 op) _ _)
  exact onActive k fun _ _ => rfl

end Cluster.arrayOnly

/-! ### What each core does -/

section
variable (k : Cluster) (x : Core)

theorem Cluster.rowIn_regs (op : CellOp) (bk : BitVec 2) (f : FSel) (pl : Bool) (va : VSrc) (m : BitVec 6) (st : StartMode) (ho : BitVec 7) (vh : VSrc) :
    (k.rowIn op bk f pl va m st ho vh x).regs = x.regs := by
  unfold Cluster.rowIn
  cases op with
  | mac => exact (Core.foldl_regs _ (fun y z => Core.setEdge_regs y _ _ _) _).trans (Core.popOn_regs x k _)
  | _ => exact Core.popOn_regs x k _
theorem Cluster.chkIn_regs (bk : BitVec 2) (f : FSel) (pl : Bool) (r : Option VSrc) (st : StartMode) : (k.chkIn bk f pl r st x).regs = x.regs := by
  unfold Cluster.chkIn
  dsimp only
  exact Eq.trans (Core.clearEdge_regs _ _) ((Core.touch_regs _ _ _).trans (Core.pop_regs x _))

end

/-! ### The state after an M instruction -/

/-- Memory and the other clusters are as they were, and the current one as an M instruction leaves it. -/
def State.arrayOnly (s t : State) : Prop := s.sameMem t ∧ (∀ d, d ≠ s.cur.cl → t.cl d = s.cl d) ∧ s.me.arrayOnly t.me

theorem State.onMe_arrayOnly (s : State) {g : Cluster → Cluster} (hg : s.me.arrayOnly (g s.me)) : s.arrayOnly (s.onMe g) :=
  ⟨⟨rfl, rfl⟩, fun d hd => State.cl_onCl_other s s.cur.cl d g hd.symm, State.me_onMe_rel Cluster.arrayOnly s g Cluster.arrayOnly.refl hg⟩

/-- What an instruction answers is its own trap, or such a state. -/
def State.arrayOnlyOr (s : State) (r : Res) : Prop := ∀ t, r = .next t → s.trapped t ∨ s.arrayOnly t

theorem State.arrayOnlyOr_guard (s : State) {x : Option TrapInfo} {f : State → State} (h : s.arrayOnly (f s)) : s.arrayOnlyOr (s.guard x f) := fun u hu => by
  cases x with
  | none =>
    cases hu
    exact .inr h
  | some t =>
    cases hu
    exact .inl ⟨t, rfl⟩

theorem State.arrayOnlyOr_onMe (s : State) {x : Option TrapInfo} {g : Cluster → Cluster} (hg : s.me.arrayOnly (g s.me)) :
    s.arrayOnlyOr (s.guard x fun s => s.onMe g) := s.arrayOnlyOr_guard (s.onMe_arrayOnly hg)

theorem State.arrayOnlyOr_mdiag (s : State) (v : BitVec 6) : s.arrayOnlyOr (execMdiag v s) := by
  refine s.arrayOnlyOr_guard ?_
  obtain ⟨hmem, hcl, hme⟩ := s.onMe_arrayOnly (g := fun k => k.diag v s.fresh) (.diag _ v s.fresh)
  exact ⟨hmem, hcl, hme⟩

theorem State.arrayOnlyOr_mspr (s : State) (v : BitVec 6) (p : Bool) (row : Fin 66) : s.arrayOnlyOr (execMspr v p row s) := by
  have hspr (u : State) : u.arrayOnly (u.onMe fun k => k.spr v row) := u.onMe_arrayOnly (.onActive _ fun _ _ => rfl)
  refine s.arrayOnlyOr_guard ?_
  cases p with
  | false => exact hspr s
  | true =>
    obtain ⟨m, hm⟩ := s.noteSpares_spareOnly row s.me.activeIdx
    obtain ⟨hmem, hcl, hme⟩ := hspr (s.noteSpares row s.me.activeIdx)
    rw [hm] at hmem hcl hme
    show s.arrayOnly ((s.noteSpares row s.me.activeIdx).onMe fun k => k.spr v row)
    rw [hm]
    exact ⟨hmem, hcl, hme⟩

/-- Every M instruction is its trap, or work of the array. -/
theorem exec_arrayOnlyOr {i : Instr} (s : State) (h : i.inM = true) : s.arrayOnlyOr (exec i s) := by
  cases i with
  | mbld | mbldh => exact s.arrayOnlyOr_onMe (.onActive _ fun _ _ => rfl)
  | mrow =>
    exact s.arrayOnlyOr_onMe (.trans (.trans (.onActive _ fun _ x => Cluster.rowIn_regs _ x _ _ _ _ _ _ _ _ _) ⟨rfl, fun _ => rfl⟩) (.stepNow _))
  | mchk => exact s.arrayOnlyOr_onMe (.trans (.onActive _ fun _ x => Cluster.chkIn_regs _ x _ _ _ _ _) ⟨rfl, fun _ => rfl⟩)
  | mzero b => cases b <;> exact s.arrayOnlyOr_onMe (.foldl (fun q op => .queueUpd q 2 _) _ _)
  | macc => exact s.arrayOnlyOr_onMe (.queueUpd _ _ _)
  | mdrn => exact s.arrayOnlyOr_onMe (.mdrn _ _ _ _ _ _ _ _)
  | mdrnk => exact s.arrayOnlyOr_onMe (.mdrnk _ _ _ _ _ _ _ _ _ _)
  | mstat | mrd => exact s.arrayOnlyOr_onMe (.onActive _ fun _ _ => rfl)
  | mwr => exact s.arrayOnlyOr_onMe (.onActive _ fun _ x => Core.popOn_regs x _ _)
  | mrot bd bs =>
    refine s.arrayOnlyOr_onMe (.trans (.onActive _ fun _ x => ?_) (.stepNow _))
    exact (Core.clearEdge_regs { x with lin := setBit x.lin bd (x.linOf bs), stale := setBit x.stale bd (x.staleOf bs) } bd).trans rfl
  | mdiag v =>
    rw [exec_mdiag]
    exact s.arrayOnlyOr_mdiag v
  | mspr v p row =>
    rw [exec_mspr]
    exact s.arrayOnlyOr_mspr v p row
  | cmsk m => cases m <;> exact absurd h Bool.false_ne_true
  | vrnd c m => cases m <;> exact absurd h Bool.false_ne_true
  | vred c k => cases k <;> exact absurd h Bool.false_ne_true
  | vscan c k => cases k <;> exact absurd h Bool.false_ne_true
  | _ => exact absurd h Bool.false_ne_true

/-- Settles O50: no M instruction changes more than work of the array, and no register or memory of a core. -/
theorem frameOfArray : Obligations.FrameOfArray := by
  intro i s t hi ht
  refine (exec_arrayOnlyOr s hi t ht).imp_right ?_
  rintro ⟨hmem, hcl, hme⟩
  have hregs (j : Nat) : Core.sameRegs (s.me.core j) (t.me.core j) := Core.sameRegs_of_regs (hme.2 j)
  obtain ⟨cs, ds, cp, inj, m, b, ht⟩ := hme.parts
  rw [ht] at hregs ⊢
  exact ⟨hmem, hcl, rfl, rfl, rfl, rfl, rfl, ⟨rfl, rfl, rfl, rfl, rfl, rfl, rfl, rfl, rfl, rfl, rfl⟩, ⟨rfl, rfl, rfl, rfl, rfl, rfl⟩, fun j _ => hregs j⟩

end Sys2Proof.Machine
end

section
/-!
PROOFS. Results landing in the registers of a core, byte lane by byte lane, and table writes landing in the sequencer and the cores.
-/
namespace Sys2Proof.Machine

/-! ### Byte lanes of a word -/

/-- The bytes a mask names, as bits. -/
def mergeBits (n mask : Nat) : Nat := (List.range n).foldl (fun m j => if mask.testBit j then m ||| (0xFF <<< (8 * j)) else m) 0

theorem testBit_byteOnes (j b : Nat) : (0xFF <<< (8 * j)).testBit b = decide (b / 8 = j) := by
  rw [Nat.testBit_shiftLeft, show 0xFF = 2 ^ 8 - 1 from rfl, Nat.testBit_two_pow_sub_one, ← Bool.decide_and, decide_eq_decide]
  omega

theorem testBit_foldl_lanes (mask b : Nat) (l : List Nat) (m : Nat) :
    (l.foldl (fun m j => if mask.testBit j then m ||| (0xFF <<< (8 * j)) else m) m).testBit b =
      (m.testBit b || (decide (b / 8 ∈ l) && mask.testBit (b / 8))) := by
  induction l generalizing m with
  | nil => simp
  | cons j l ih =>
    rw [List.foldl_cons, ih]
    by_cases hj : b / 8 = j
    · subst hj
      cases hm : mask.testBit (b / 8)
      · simp
      · rw [if_pos rfl, Nat.testBit_or, testBit_byteOnes, decide_eq_true rfl]
        simp
    · have hbit : (if mask.testBit j then m ||| (0xFF <<< (8 * j)) else m).testBit b = m.testBit b := by
        split
        · rw [Nat.testBit_or, testBit_byteOnes, decide_eq_false hj, Bool.or_false]
        · rfl
      rw [hbit]
      simp [hj]

theorem testBit_mergeBits (n mask b : Nat) : (mergeBits n mask).testBit b = (decide (b / 8 < n) && mask.testBit (b / 8)) := by
  rw [mergeBits, testBit_foldl_lanes, Nat.zero_testBit, Bool.false_or]
  simp only [List.mem_range]

/-- A byte of a merge: the new one where the mask has its lane (R89). -/
theorem mergeLanes_byte {n w j : Nat} (old new : BitVec w) (mask : Nat) (hj : j < n) (hw : 8 * j + 8 ≤ w) :
    (mergeLanes n old new mask).extractLsb' (8 * j) 8 = if mask.testBit j then new.extractLsb' (8 * j) 8 else old.extractLsb' (8 * j) 8 := by
  apply BitVec.eq_of_getLsbD_eq
  intro i hi
  have hlane : (BitVec.ofNat w (mergeBits n mask)).getLsbD (8 * j + i) = mask.testBit j := by
    rw [BitVec.getLsbD_ofNat, testBit_mergeBits, show (8 * j + i) / 8 = j by omega, decide_eq_true hj, decide_eq_true (by omega), Bool.true_and, Bool.true_and]
  have hmerge : mergeLanes n old new mask = (old &&& ~~~(BitVec.ofNat w (mergeBits n mask))) ||| (new &&& BitVec.ofNat w (mergeBits n mask)) := rfl
  rw [hmerge, BitVec.getLsbD_extractLsb', BitVec.getLsbD_or, BitVec.getLsbD_and, BitVec.getLsbD_not, BitVec.getLsbD_and, hlane, decide_eq_true hi,
    decide_eq_true (by omega : 8 * j + i < w)]
  cases mask.testBit j <;> simp [hi]

/-- A register with one slice of 256 bits replaced. -/
def putSlice {w : Nat} (old : BitVec w) (p : Nat) (s : BitVec 256) : BitVec w :=
  (old &&& ~~~((BitVec.allOnes 256).setWidth w <<< (256 * p))) ||| (s.setWidth w <<< (256 * p))

theorem putSlice_byte {w p j : Nat} (old : BitVec w) (s : BitVec 256) (hj : 8 * j + 8 ≤ w) :
    (putSlice old p s).extractLsb' (8 * j) 8 = if j / 32 = p then s.extractLsb' (8 * (j % 32)) 8 else old.extractLsb' (8 * j) 8 := by
  apply BitVec.eq_of_getLsbD_eq
  intro i hi
  have hb : 8 * j + i < w := by omega
  rw [BitVec.getLsbD_extractLsb', putSlice, BitVec.getLsbD_or, BitVec.getLsbD_and, BitVec.getLsbD_not, BitVec.getLsbD_shiftLeft, BitVec.getLsbD_shiftLeft,
    BitVec.getLsbD_setWidth, BitVec.getLsbD_setWidth, BitVec.getLsbD_allOnes, decide_eq_true hi, decide_eq_true hb]
  by_cases hp : j / 32 = p
  · have hoff : 8 * j + i - 256 * p = 8 * (j % 32) + i := by omega
    rw [if_pos hp, hoff, BitVec.getLsbD_extractLsb', decide_eq_true hi, decide_eq_false (by omega : ¬ 8 * j + i < 256 * p),
      decide_eq_true (by omega : 8 * (j % 32) + i < w), decide_eq_true (by omega : 8 * (j % 32) + i < 256)]
    simp
  · rw [if_neg hp, BitVec.getLsbD_extractLsb', decide_eq_true hi]
    by_cases hlt : 8 * j + i < 256 * p
    · simp [hlt]
    · have hge : ¬ 8 * j + i - 256 * p < 256 := by omega
      simp [hge, BitVec.getLsbD_of_ge s _ (by omega : 256 ≤ 8 * j + i - 256 * p)]

/-- A slice of a register merged by lanes: the new byte where the lane lies in the slice and the mask has it. -/
theorem putSlice_merge_byte {w p j : Nat} (old : BitVec w) (new : BitVec 256) (mask : BitVec 32) (hj : 8 * j + 8 ≤ w) :
    (putSlice old p (mergeLanes 32 (old.extractLsb' (256 * p) 256) new mask.toNat)).extractLsb' (8 * j) 8 =
      if j / 32 = p ∧ mask.getLsbD (j % 32) = true then new.extractLsb' (8 * (j % 32)) 8 else old.extractLsb' (8 * j) 8 := by
  rw [putSlice_byte old _ hj, mergeLanes_byte _ _ _ (Nat.mod_lt _ (by decide)) (by omega)]
  by_cases hp : j / 32 = p
  · rw [if_pos hp]
    have hold : (old.extractLsb' (256 * p) 256).extractLsb' (8 * (j % 32)) 8 = old.extractLsb' (8 * j) 8 := by
      apply BitVec.eq_of_getLsbD_eq
      intro i hi
      rw [BitVec.getLsbD_extractLsb', BitVec.getLsbD_extractLsb', BitVec.getLsbD_extractLsb', decide_eq_true (by omega : 8 * (j % 32) + i < 256),
        Bool.true_and, show 256 * p + (8 * (j % 32) + i) = 8 * j + i by omega]
    rw [hold]
    by_cases hm : mask.toNat.testBit (j % 32) = true
    · rw [if_pos hm, if_pos ⟨hp, hm⟩]
    · rw [if_neg hm, if_neg fun h => hm h.2]
  · rw [if_neg hp, if_neg fun h => hp h.1]

/-! ### Registers read back -/

section
variable {α : Type} {l : List α} {d y : α} {n r : Nat}

theorem getD_set (hn : n < l.length) : (l.set n y).getD r d = if r = n then y else l.getD r d := by
  rw [List.getD, List.getD, List.getElem?_set]
  by_cases h : n = r
  · subst h
    simp [hn]
  · rw [if_neg h, if_neg fun h' => h h'.symm]

/-- A register whose bytes are given where it is the destination, and as they were elsewhere. -/
theorem byte_getD_set {w : Nat} {l : List (BitVec w)} {d y : BitVec w} {z : BitVec 8} {q : Prop} [Decidable q] {j : Nat} (hn : n < l.length)
    (hy : y.extractLsb' (8 * j) 8 = if q then z else (l.getD n d).extractLsb' (8 * j) 8) :
    ((l.set n y).getD r d).extractLsb' (8 * j) 8 = if r = n ∧ q then z else (l.getD r d).extractLsb' (8 * j) 8 := by
  rw [getD_set hn]
  by_cases hr : r = n
  · subst hr
    rw [if_pos rfl, hy]
    simp
  · rw [if_neg hr, if_neg fun h => hr h.1]

end

section
variable (x : Core) (e : PEntry)

theorem Core.touch_eq (a b : Nat) : x.touch a b = { x with dirty := (x.touch a b).dirty } := by
  unfold Core.touch
  split <;> rfl

/-- The files of registers after a result of each kind lands. -/
theorem Core.landReg_v : (x.landReg .v e).v =
    x.v.set e.dest (putSlice (x.vreg e.dest) e.part (mergeLanes 32 ((x.vreg e.dest).extractLsb' (256 * e.part) 256) e.val e.mask.toNat)) :=
  congrArg Core.v (Core.touch_eq _ _ _)
theorem Core.landReg_dPts : (x.landReg .d e).dPts = x.dPts.set e.dest (putSlice (x.dPts.getD e.dest 0#2048) e.part
    (mergeLanes 32 ((x.dPts.getD e.dest 0#2048).extractLsb' (256 * e.part) 256) e.val e.mask.toNat)) := congrArg Core.dPts (Core.touch_eq _ _ _)
theorem Core.landReg_dWords : (x.landReg .dwords e).dWords =
    x.dWords.set e.dest (mergeLanes 16 (x.dWords.getD e.dest 0#128) (dwClean (e.val.setWidth 128)) e.mask.toNat) := congrArg Core.dWords (Core.touch_eq _ _ _)
theorem Core.landReg_a : (x.landReg .a e).a = x.a.set e.dest (mergeLanes 4 (x.a.getD e.dest 0#32) (e.val.setWidth 32) e.mask.toNat) := rfl
theorem Core.landReg_p (h : e.dest ≠ 0) : (x.landReg .p e).p =
    x.p.set e.dest ((x.preg e.dest &&& ~~~(e.val.extractLsb' 128 128)) ||| (e.val.setWidth 128 &&& e.val.extractLsb' 128 128)) := by
  unfold Core.landReg
  dsimp only
  rw [if_neg h]
  exact congrArg Core.p (Core.touch_eq _ _ _)
theorem Core.landReg_p0 (h : e.dest = 0) : (x.landReg .p e).p = x.p := by
  unfold Core.landReg
  dsimp only
  rw [if_pos h]
  rfl

end

theorem vectorLanesLand : Claims.VectorLanesLand := by
  unfold Claims.VectorLanesLand
  intro x e r j _ hdest _ _ hj
  rw [Core.vreg, Core.landReg_v]
  exact byte_getD_set hdest (putSlice_merge_byte _ _ _ (by omega))

/-- A predicate bit lands where it is among the bits written; p0 stays. -/
theorem Core.landReg_preg (x : Core) (e : PEntry) {r j : Nat} (hdest : e.dest < x.p.length) (hj : j < 128) :
    ((x.landReg .p e).preg r).getLsbD j = if r = e.dest ∧ r ≠ 0 ∧ e.val.getLsbD (128 + j) = true then e.val.getLsbD j else (x.preg r).getLsbD j := by
  by_cases h0 : r = 0
  · subst h0
    rw [if_neg fun h => h.2.1 rfl]
    rfl
  · by_cases hr : r = e.dest
    · subst hr
      rw [Core.preg, if_neg h0, Core.landReg_p x e h0, getD_set hdest, if_pos rfl, BitVec.getLsbD_or, BitVec.getLsbD_and, BitVec.getLsbD_and,
        BitVec.getLsbD_not, BitVec.getLsbD_extractLsb', BitVec.getLsbD_setWidth, decide_eq_true hj]
      cases hm : e.val.getLsbD (128 + j) <;> simp [h0]
    · rw [if_neg fun h => hr h.1, Core.preg, Core.preg, if_neg h0, if_neg h0]
      by_cases hd : e.dest = 0
      · rw [Core.landReg_p0 x e hd]
      · rw [Core.landReg_p x e hd, getD_set hdest, if_neg hr]

/-- A byte of a narrower part of a word. -/
theorem setWidth_byte {w n j : Nat} (x : BitVec w) (h : 8 * j + 8 ≤ n) : (x.setWidth n).extractLsb' (8 * j) 8 = x.extractLsb' (8 * j) 8 := by
  apply BitVec.eq_of_getLsbD_eq
  intro i hi
  rw [BitVec.getLsbD_extractLsb', BitVec.getLsbD_extractLsb', BitVec.getLsbD_setWidth, decide_eq_true (by omega : 8 * j + i < n), Bool.true_and]

/-- A landing result leaves the other files, the format table, the memories and the banks. -/
theorem Core.landReg_keeps (x : Core) (e : PEntry) {kd : PKind} (hkd : kd ∈ [PKind.v, .p, .d, .dwords, .a]) :
    let y := x.landReg kd e
    (kd ≠ .v → y.v = x.v) ∧ (kd ≠ .p → y.p = x.p) ∧ (kd ≠ .d → y.dPts = x.dPts) ∧ (kd ≠ .dwords → y.dWords = x.dWords) ∧ (kd ≠ .a → y.a = x.a) ∧
      y.ft = x.ft ∧ y.spm = x.spm ∧ y.bst = x.bst ∧ y.m = x.m := by
  simp only [List.mem_cons, List.not_mem_nil, or_false] at hkd
  rcases hkd with rfl | rfl | rfl | rfl | rfl
  · unfold Core.landReg
    dsimp only
    rw [Core.touch_eq]
    exact ⟨fun h => absurd rfl h, fun _ => rfl, fun _ => rfl, fun _ => rfl, fun _ => rfl, rfl, rfl, rfl, rfl⟩
  · unfold Core.landReg
    dsimp only
    split
    · exact ⟨fun _ => rfl, fun h => absurd rfl h, fun _ => rfl, fun _ => rfl, fun _ => rfl, rfl, rfl, rfl, rfl⟩
    · rw [Core.touch_eq]
      exact ⟨fun _ => rfl, fun h => absurd rfl h, fun _ => rfl, fun _ => rfl, fun _ => rfl, rfl, rfl, rfl, rfl⟩
  · unfold Core.landReg
    dsimp only
    rw [Core.touch_eq]
    exact ⟨fun _ => rfl, fun _ => rfl, fun h => absurd rfl h, fun _ => rfl, fun _ => rfl, rfl, rfl, rfl, rfl⟩
  · unfold Core.landReg
    dsimp only
    rw [Core.touch_eq]
    exact ⟨fun _ => rfl, fun _ => rfl, fun _ => rfl, fun h => absurd rfl h, fun _ => rfl, rfl, rfl, rfl, rfl⟩
  · exact ⟨fun _ => rfl, fun _ => rfl, fun _ => rfl, fun _ => rfl, fun h => absurd rfl h, rfl, rfl, rfl, rfl⟩

theorem otherLanesLand : Claims.OtherLanesLand := by
  unfold Claims.OtherLanesLand
  intro x e r j
  refine ⟨fun hdest hj => x.landReg_preg e hdest hj, fun hdest _ hj => ?_, fun hdest hj => ?_, fun hdest hj => ?_, fun kd hkd => ?_⟩
  · rw [Core.landReg_dPts]
    exact byte_getD_set hdest (putSlice_merge_byte _ _ _ (by omega))
  · rw [Core.landReg_dWords]
    exact byte_getD_set hdest (mergeLanes_byte _ _ _ hj (by omega))
  · rw [Core.landReg_a]
    refine byte_getD_set hdest ((mergeLanes_byte _ _ _ hj (by omega)).trans ?_)
    rw [setWidth_byte e.val (by omega)]
    rfl
  · exact x.landReg_keeps e hkd

/-! ### Table writes -/

section
variable {k : Cluster} {f : FtWrite} {i t : Nat}

/-- The change a due write of a format table makes on a core. -/
def ftLand (f : FtWrite) (x : Core) : Core :=
  let x := if f.fld.isNone then x.heal (· == CoreWord.ft f.ft.toNat) else x
  let old := x.ft.getD f.ft.toNat 0#64
  { x with ft := x.ft.set f.ft.toNat (ftClean (match f.fld with | none => f.val | some y => ftPut old y f.val)) }

theorem ftLand_ft (x : Core) : (ftLand f x).ft =
    x.ft.set f.ft.toNat (ftClean (match f.fld with | none => f.val | some y => ftPut (x.ft.getD f.ft.toNat 0#64) y f.val)) := by
  unfold ftLand
  dsimp only
  split <;> rfl

/-- Due writes of maps, then those of format tables; the others wait. -/
theorem Cluster.landTables_eq (k : Cluster) : k.landTables =
    let k1 := (k.tmw.filter fun w => decide (w.land ≤ k.now)).foldl (fun (k : Cluster) w => k.putTm w.key w.val) k
    let k2 := (k1.ftw.filter fun w => decide (w.land ≤ k.now)).foldl (fun (k : Cluster) w => k.onCores w.cores fun _ x => ftLand w x) k1
    { k2 with tmw := k2.tmw.filter (fun w => !decide (w.land ≤ k.now)), ftw := k2.ftw.filter fun w => !decide (w.land ≤ k.now) } := rfl

/-- With one due write of a map, that field. -/
theorem Cluster.landTables_tm {w : TmWrite} (hw : k.tmw = [w]) (hf : k.ftw = []) (h : w.land ≤ k.now) :
    k.landTables = { k.putTm w.key w.val with tmw := [], ftw := [] } := by
  have hdue : (k.tmw.filter fun w => decide (w.land ≤ k.now)) = [w] := by simp [hw, h]
  have hpast : (k.tmw.filter fun w => !decide (w.land ≤ k.now)) = [] := by simp [hw, h]
  have hftw : (k.putTm w.key w.val).ftw = [] := hf
  have htmw : (k.putTm w.key w.val).tmw = k.tmw := rfl
  rw [Cluster.landTables_eq, hdue]
  dsimp only [List.foldl]
  rw [hftw]
  dsimp only [List.filter, List.foldl]
  rw [hftw, htmw, hpast]
  rfl
/-- With one due write of a format table, that change on its cores. -/
theorem Cluster.landTables_ft (hw : k.tmw = []) (hf : k.ftw = [f]) (h : f.land ≤ k.now) :
    k.landTables = { k.onCores f.cores fun _ x => ftLand f x with tmw := [], ftw := [] } := by
  have hdue : (k.ftw.filter fun w => decide (w.land ≤ k.now)) = [f] := by simp [hf, h]
  have hpast : (k.ftw.filter fun w => !decide (w.land ≤ k.now)) = [] := by simp [hf, h]
  have hftw : (k.onCores f.cores fun _ x => ftLand f x).ftw = k.ftw := rfl
  have htmw : (k.onCores f.cores fun _ x => ftLand f x).tmw = [] := hw
  rw [Cluster.landTables_eq, hw]
  dsimp only [List.filter, List.foldl]
  rw [hdue]
  dsimp only [List.foldl]
  rw [hftw, htmw, hpast]
  rfl
/-- With none due, nothing. -/
theorem Cluster.landTables_early (hw : ∀ w, w ∈ k.tmw → k.now < w.land) (hf : ∀ f, f ∈ k.ftw → k.now < f.land) : k.landTables = k := by
  have htm : (k.tmw.filter fun w => decide (w.land ≤ k.now)) = [] := List.filter_eq_nil_iff.mpr fun w h => by simpa using hw w h
  have hft : (k.ftw.filter fun w => decide (w.land ≤ k.now)) = [] := List.filter_eq_nil_iff.mpr fun f h => by simpa using hf f h
  have htm' : (k.tmw.filter fun w => !decide (w.land ≤ k.now)) = k.tmw := List.filter_eq_self.mpr fun w h => by simpa using hw w h
  have hft' : (k.ftw.filter fun w => !decide (w.land ≤ k.now)) = k.ftw := List.filter_eq_self.mpr fun f h => by simpa using hf f h
  rw [Cluster.landTables_eq, htm]
  dsimp only [List.foldl]
  rw [hft]
  dsimp only [List.foldl]
  rw [htm', hft']

end

theorem tableWritesLand : Claims.TableWritesLand := by
  unfold Claims.TableWritesLand
  intro k w f m fld i t _
  refine ⟨fun hw hf h hwf => ?_, fun hw hf h hi hlen ht => ?_, Cluster.landTables_early⟩
  · rw [Cluster.landTables_tm hw hf h]
    exact ⟨sget_sput_from hwf, rfl, rfl⟩
  · rw [Cluster.landTables_ft hw hf h]
    refine ⟨?_, rfl, rfl⟩
    have hcore : ({ k.onCores f.cores fun _ x => ftLand f x with tmw := [], ftw := [] } : Cluster).core i =
        if f.cores.getLsbD i then ftLand f (k.core i) else k.core i := k.core_onCores f.cores (fun _ x => ftLand f x) i hi
    rw [hcore]
    by_cases hc : f.cores.getLsbD i = true
    · rw [if_pos hc, ftLand_ft, getD_set (hlen ▸ f.ft.isLt)]
      by_cases ht' : t = f.ft.toNat
      · rw [if_pos ht', if_pos ⟨hc, ht'⟩, ht'] <;> rfl
      · rw [if_neg ht', if_neg fun h => ht' h.2]
    · rw [if_neg hc, if_neg fun h => hc h.1]

/-- Settles O53: lanes of each file, and the tables. -/
theorem lanesLand : Obligations.LanesLand := ⟨vectorLanesLand, otherLanesLand, tableWritesLand⟩

end Sys2Proof.Machine
end

section
/-!
PROOFS. Stores: bytes of a scratchpad by their cluster addresses, and bytes of device memory where nothing redirects or holds them.
-/
namespace Sys2Proof.Machine

/-! ### Bytes of a scratchpad -/

theorem Core.touch_spm (x : Core) (a b : Nat) : (x.touch a b).spm = x.spm := by
  unfold Core.touch
  split <;> rfl

/-- A change of one core's scratchpad at the byte of an address is one of that cluster byte and no other (R22). -/
theorem Cluster.spByte_onCore {k : Cluster} {f : Core → Core} {a b : Nat} {v : Byte} (hlen : k.cores.length = 256)
    (hwf : ∀ x, x ∈ k.cores → Memory.wf x.spm = true)
    (hf : ∀ x : Core, Memory.wf x.spm = true → ∀ i, rdByte (f x).spm i = if i = a % 2 ^ 18 then v else rdByte x.spm i) (ha : a < 2 ^ 26) (hb : b < 2 ^ 26) :
    (k.onCore (a / 2 ^ 18 % 256) f).spByte b = if b = a then v else k.spByte b := by
  have hcore : a / 2 ^ 18 % 256 < k.cores.length := by
    rw [hlen]
    exact Nat.mod_lt _ (by decide)
  have hmem : Memory.wf (k.core (a / 2 ^ 18 % 256)).spm = true := by
    have hget : k.core (a / 2 ^ 18 % 256) = k.cores[a / 2 ^ 18 % 256] := List.getD_eq_getElem _ _ hcore
    rw [hget]
    exact hwf _ (List.getElem_mem hcore)
  unfold Cluster.spByte
  by_cases hc : b / 2 ^ 18 % 256 = a / 2 ^ 18 % 256
  · rw [hc, Cluster.core_onCore_same hcore]
    refine (hf _ hmem _).trans ?_
    have hiff : b % 2 ^ 18 = a % 2 ^ 18 ↔ b = a := by omega
    simp only [hiff]
  · rw [Cluster.core_onCore_other hc, if_neg]
    rintro rfl
    exact hc rfl
/-- A write of a scratchpad byte changes that byte and no other (R22). -/
theorem Cluster.spByte_spWrite {k : Cluster} {a b : Nat} {v : Byte} (hlen : k.cores.length = 256) (hwf : ∀ x, x ∈ k.cores → Memory.wf x.spm = true)
    (ha : a < 2 ^ 26) (hb : b < 2 ^ 26) : (k.spWrite a v).spByte b = if b = a then v else k.spByte b := by
  refine Cluster.spByte_onCore hlen hwf (fun x hx i => ?_) ha hb
  rw [Core.touch_spm]
  exact rdByte_wrByte _ _ _ hx

/-! ### Bytes of device memory -/

section
variable {s : State}

/-- Without snapshot regions a write goes where it is addressed, and no root word stands in its way (R370, R371). -/
theorem State.writeAddr_of_noSnaps (h : s.snaps = []) (a : Nat) : s.writeAddr a = (s, a) := by
  have hat : s.snapAt a = none := by rw [State.snapAt, h]; rfl
  rw [State.writeAddr, hat]
theorem State.isRoot_of_noSnaps (h : s.snaps = []) (a : Nat) : s.isRoot a = false := by
  rw [State.isRoot, h]
  rfl

/-- Without partial results a recall has nothing to do (R296). -/
theorem State.recall_of_noUpd (h : ∀ k, k ∈ s.clusters → k.upd = []) (l : Nat) : s.recall l = s := by
  refine if_pos (List.all_eq_true.mpr fun k hk => ?_)
  rw [h k hk]
  rfl
theorem State.recalls_of_noUpd (h : ∀ k, k ∈ s.clusters → k.upd = []) (ls : List Nat) : ls.foldl State.recall s = s := by
  induction ls with
  | nil => rfl
  | cons l ls ih => rw [List.foldl_cons, State.recall_of_noUpd h, ih]

/-- Marking landing zones leaves memory, the regions and the clusters. -/
theorem State.markZone_keeps (a n : Nat) : (s.markZone a n).mem = s.mem ∧ (s.markZone a n).snap = s.snap ∧ (s.markZone a n).clusters = s.clusters := by
  unfold State.markZone
  split
  · exact ⟨rfl, rfl, rfl⟩
  · exact ⟨rfl, rfl, rfl⟩
theorem State.unpoisons_mem (ls : List Nat) (p : Nat → Prop) [DecidablePred p] :
    (ls.foldl (fun s l => if p l then s.unpoison (128 * l) else s) s).mem = s.mem :=
  List.foldlRecOn (motive := fun t : State => t.mem = s.mem) ls _ rfl fun t ht l _ => by
    split
    · exact ht
    · exact ht

/-- Bytes put where nothing redirects them (R290). -/
theorem State.rdByte_hbmPut {a : Nat} {bs : List Byte} {b : Nat} (hwf : Memory.wf s.mem = true) (h : s.snaps = []) :
    rdByte (s.hbmPut a bs).mem b = if a ≤ b ∧ b < a + bs.length then bs.getD (b - a) 0#8 else rdByte s.mem b := by
  induction bs generalizing s a with
  | nil => rw [if_neg (by simp only [List.length_nil]; omega)]; rfl
  | cons v bs ih =>
    have hput : s.hbmPut a (v :: bs) = State.hbmPut { s with mem := wrByte s.mem a v } (a + 1) bs := by
      rw [State.hbmPut, State.isRoot_of_noSnaps h, State.writeAddr_of_noSnaps h]
      rfl
    rw [hput, ih (s := { s with mem := wrByte s.mem a v }) (wrByte_wf a v hwf) h]
    refine (congrArg (fun z => if a + 1 ≤ b ∧ b < a + 1 + bs.length then bs.getD (b - (a + 1)) 0#8 else z) (rdByte_wrByte a b v hwf)).trans ?_
    rw [List.length_cons]
    rcases Nat.lt_trichotomy b a with hlt | rfl | hgt
    · rw [if_neg (by omega), if_neg (by omega), if_neg (by omega)]
    · rw [if_neg (by omega), if_pos rfl, if_pos (by omega), Nat.sub_self]
      rfl
    · have hsub : b - a = (b - (a + 1)) + 1 := by omega
      rw [hsub, List.getD_cons_succ, if_neg (by omega : ¬ b = a)]
      by_cases hin : b < a + 1 + bs.length
      · rw [if_pos ⟨hgt, hin⟩, if_pos (by omega)]
      · rw [if_neg fun h => hin h.2, if_neg (by omega)]

end

/-- Settles O55: scratchpad bytes by core and offset, memory bytes in their order. -/
theorem storesWriteTheirBytes : Obligations.StoresWriteTheirBytes := by
  refine ⟨fun k a v b hlen hwf ha hb => Cluster.spByte_spWrite hlen hwf ha hb, fun s a bs b hwf hs hu => ?_⟩
  obtain ⟨hmem, hsnap, hcl⟩ := s.markZone_keeps a bs.length
  have hu' : ∀ k, k ∈ (s.markZone a bs.length).clusters → k.upd = [] := by rwa [hcl]
  have hs' : (s.markZone a bs.length).snaps = [] := by rw [State.snaps, hsnap]; exact hs
  unfold State.hbmWrite
  rw [State.recalls_of_noUpd hu']
  dsimp only
  rw [← hmem] at hwf ⊢
  exact (congrArg (rdByte · b) (State.unpoisons_mem _ fun l => a ≤ 128 * l ∧ 128 * (l + 1) ≤ a + bs.length)).trans (State.rdByte_hbmPut hwf hs')

end Sys2Proof.Machine
end

section
/-!
PROOFS. Traps: entering the handler, returning from it, and delivery to the handler or the supervisor.
-/
namespace Sys2Proof.Machine

/-! ### Entering the handler (R343) -/

section
variable {s : State} {c : Nat} {x : TrapInfo} {pc opc : BitVec 57} {dt : Nat} {multi : Bool}

/-- A cluster whose trap registers are written. -/
def Cluster.withTrap (k : Cluster) (x : TrapInfo) (pc opc : BitVec 57) (dt : Nat) (multi : Bool) : Cluster :=
  { k with
    trapcause := causeWord x k.arrayQuiet multi, trappc := pc.setWidth 64, trapdt := (dtBits dt).setWidth 64
    trapopc := ofBit k.arrayQuiet ++ 0#6 ++ opc }

theorem State.takeTrap_handler (hnd : (s.cl c).traphnd ≠ 0#64) (hx : runHandled x.cause = true) (hh : (s.cl c).handler = none) :
    s.takeTrap c x pc dt opc multi = s.setCl c (((s.cl c).withTrap x pc opc dt multi).enterHandler (s.cl c).arrayQuiet pc) :=
  if_pos ⟨hnd, hx, by rw [hh]; rfl⟩

end

theorem Cluster.core_mapCores (k : Cluster) (f : Core → Core) {i : Nat} (hi : i < k.cores.length) :
    Cluster.core { k with cores := k.cores.map f } i = f (k.core i) := by
  simp [Cluster.core, List.getD, hi]

/-- Settles O59: what the entry writes, banks, sets and shares. -/
theorem handlerEntry : Obligations.HandlerEntry := by
  intro s c x pc opc dt multi hc hnd hx hh k t u
  have ht : t = s.setCl c ((k.withTrap x pc opc dt multi).enterHandler k.arrayQuiet pc) := State.takeTrap_handler hnd hx hh
  have hu : u = (k.withTrap x pc opc dt multi).enterHandler k.arrayQuiet pc := by
    show t.cl c = _
    rw [ht, State.cl_setCl_same _ _ _ hc]
  rw [hu]
  refine ⟨⟨rfl, rfl, rfl, rfl⟩, ⟨rfl, rfl, rfl, rfl, rfl, rfl, rfl, rfl⟩, ⟨_, rfl, rfl, rfl, rfl, rfl, rfl, rfl, rfl, rfl, rfl, rfl⟩,
    ⟨rfl, rfl, rfl, rfl, rfl, List.length_map _, fun i hi => ?_⟩, ?_, ?_, fun d hd => ?_⟩
  · have hcore : ((k.withTrap x pc opc dt multi).enterHandler k.arrayQuiet pc).core i =
        { k.core i with pipe := [], streams := [], loads := [], bankUpds := [], lastStream := [], inputFree := 0, diagFree := 0 } :=
      Cluster.core_mapCores (k.withTrap x pc opc dt multi) _ hi
    rw [hcore]
    exact ⟨⟨rfl, rfl, rfl, rfl, rfl, rfl, rfl, rfl⟩, rfl⟩
  · rw [ht]
    exact ⟨rfl, rfl⟩
  · rw [ht]
    rfl
  · rw [ht, State.cl_setCl_other _ _ _ _ hd.symm]

/-! ### Returning from it (R346) -/

section
variable {k w : Cluster} {b : Banked}

theorem Cluster.leaveHandler_of_handler (h : w.handler = some b) : w.leaveHandler =
    { w with
      handler := none, hc := 0, rft := false, issued := false, pc := w.trappc.setWidth 57, next := w.trappc.setWidth 57, cmsk := b.cmsk
      loops := b.loops, lc := b.lc, rrbv := b.rrbv, rrbp := b.rrbp, gqctl := b.gqctl, simg := b.simg, tmw := b.tmw, ftw := b.ftw, inits := b.inits
      parrs := b.parrs, pend := b.pend ++ w.pend, cps := b.cps, ports := b.ports, groups := b.groups, lastD := b.lastD, lastMchk := b.lastMchk
      lastBf := b.lastBf, delay := b.delay, nopLeft := b.nopLeft, drains := b.drains, ending := b.inEnd, cores := zipCores w.cores b } := by
  rw [Cluster.leaveHandler, h]

/-- A core with what the entry banked of it back. -/
def Core.restored (x : Core) (b : Banked) (i : Nat) : Core :=
  { x with
    pipe := b.pipes.getD i [], streams := b.streams.getD i [], loads := b.loads.getD i [], bankUpds := b.bankUpds.getD i []
    lastStream := b.lastStream.getD i [], inputFree := b.inputFree.getD i 0, diagFree := b.diagFree.getD i 0 }

theorem Cluster.core_leaveHandler (h : w.handler = some b) {i : Nat} (hi : i < w.cores.length) : w.leaveHandler.core i = (w.core i).restored b i := by
  rw [Cluster.leaveHandler_of_handler h]
  exact Cluster.core_mapIdx (k := w) (fun i x => x.restored b i) hi

end

theorem getD_map {α β : Type} {l : List α} {f : α → β} {d : β} {e : α} {i : Nat} (hi : i < l.length) : (l.map f).getD i d = f (l.getD i e) := by
  simp [List.getD, hi]

/-- Settles O60: the banked state comes back as it was taken. -/
theorem returnUndoesEntry : Obligations.ReturnUndoesEntry := by
  intro k aq pc hk u
  have hpc : (pc.setWidth 64).setWidth 57 = pc := by
    rw [BitVec.setWidth_setWidth_of_le _ (by decide), BitVec.setWidth_eq]
  refine ⟨fun w hw hlen => ?_, rfl, hpc, ?_, List.append_nil _⟩
  · intro v
    have hv : v = _ := Cluster.leaveHandler_of_handler hw
    refine ⟨?_, ?_, fun i hi => ?_⟩
    · rw [hv]
      exact ⟨rfl, rfl, rfl, rfl, rfl, rfl, rfl, rfl, rfl, rfl, rfl, rfl, rfl, rfl, rfl, rfl, rfl, rfl, rfl⟩
    · rw [hv]
      exact ⟨rfl, rfl, rfl, rfl, rfl, rfl, rfl, rfl, rfl, rfl⟩
    · rw [show v.core i = _ from Cluster.core_leaveHandler hw (hlen ▸ hi)]
      exact ⟨⟨rfl, rfl, rfl, rfl, rfl, rfl, rfl, rfl⟩, rfl, getD_map hi, getD_map hi, getD_map hi, getD_map hi⟩
  · refine List.ext_getElem (by simp [u, zipCores, Cluster.leaveHandler, Cluster.enterHandler]) fun i hi hi' => ?_
    simp [u, zipCores, Cluster.leaveHandler, Cluster.enterHandler, hi']

/-! ### Delivery to the supervisor (R338, R342) -/

section
variable {s : State} {c : Nat}

/-- What is in the outbox stays there, and the clusters as many as they are. -/
def State.grows (s t : State) : Prop := (∀ m, m ∈ s.outbox → m ∈ t.outbox) ∧ t.clusters.length = s.clusters.length

theorem State.grows_refl (s : State) : s.grows s := ⟨fun _ h => h, rfl⟩
theorem State.grows_trans {t u : State} (h : s.grows t) (h' : t.grows u) : s.grows u := ⟨fun m hm => h'.1 m (h.1 m hm), h'.2.trans h.2⟩
theorem State.grows_foldl {α : Type} {f : State → α → State} (hf : ∀ (t : State) a, t.grows (f t a)) (l : List α) (s : State) : s.grows (l.foldl f s) :=
  List.foldlRecOn (motive := fun t : State => s.grows t) l f s.grows_refl fun _ ht a _ => s.grows_trans ht (hf _ a)

theorem State.freeCluster_grows (s : State) (c : Nat) : s.grows (s.freeCluster c) := by
  unfold State.freeCluster
  dsimp only
  split
  · exact ⟨fun _ h => h, by simp⟩
  · exact ⟨fun _ h => h, by simp⟩
theorem State.endGang_grows (s : State) (task gang : Nat) : s.grows (s.endGang task gang) := by
  unfold State.endGang
  split
  · exact s.grows_refl
  · exact s.grows_trans (State.grows_foldl State.freeCluster_grows _ s) ⟨fun _ h => h, rfl⟩

/-- A cluster that is freed has no run and is in no handler. -/
theorem State.freeCluster_run (hc : c < s.clusters.length) : ((s.freeCluster c).cl c).run = none ∧ ((s.freeCluster c).cl c).handler = none := by
  have hcl : (s.freeCluster c).cl c = { (s.cl c).freed with
      winW := (s.cl c).freed.winW.filter fun w => match w.src with | some (d, _) => d != c | none => true } := by
    rw [← State.cl_onCl_same s c Cluster.freed hc]
    unfold State.freeCluster
    dsimp only
    split
    · exact getD_map ((s.onCl_length c _).symm ▸ hc)
    · exact getD_map ((s.onCl_length c _).symm ▸ hc)
  rw [hcl]
  exact ⟨rfl, rfl⟩

/-- Stopping a task leaves the clusters; its final status may be told. -/
theorem State.finalStatus_keeps (s : State) (t : Task) (code : Nat) : s.grows (s.finalStatus t code) ∧ (s.finalStatus t code).clusters = s.clusters := by
  unfold State.finalStatus
  split
  · exact ⟨⟨fun _ h => h, rfl⟩, rfl⟩
  · exact ⟨⟨fun _ h => List.mem_append_left _ h, rfl⟩, rfl⟩
  · exact ⟨s.grows_refl, rfl⟩
  · exact ⟨s.grows_refl, rfl⟩
theorem State.checkFinal_keeps (s : State) (id : Nat) : s.grows (s.checkFinal id) ∧ (s.checkFinal id).clusters = s.clusters := by
  unfold State.checkFinal
  split
  · exact ⟨s.grows_refl, rfl⟩
  · dsimp only
    split
    · exact ⟨s.grows_refl, rfl⟩
    · exact s.finalStatus_keeps _ _
theorem State.stopTask_keeps (s : State) (id code : Nat) : s.grows (s.stopTask id code) ∧ (s.stopTask id code).clusters = s.clusters :=
  State.checkFinal_keeps (s.onTask id _) id

theorem State.faultRun_ends {r : RunId} (hc : c < s.clusters.length) (hr : (s.cl c).run = some r) :
    s.grows (s.faultRun c) ∧ ((s.faultRun c).cl c).run = none ∧ ((s.faultRun c).cl c).handler = none := by
  have hgang : s.grows (s.endGang r.task r.gang) := s.endGang_grows _ _
  obtain ⟨hstop, hcl⟩ := ((s.endGang r.task r.gang).freeCluster c).stopTask_keeps r.task 17
  have hfault : s.faultRun c = ((s.endGang r.task r.gang).freeCluster c).stopTask r.task 17 := by rw [State.faultRun, hr]
  have hend : (s.faultRun c).cl c = ((s.endGang r.task r.gang).freeCluster c).cl c := by rw [hfault, State.cl, hcl, State.cl]
  rw [hend, hfault]
  exact ⟨s.grows_trans hgang ((s.endGang r.task r.gang).grows_trans (State.freeCluster_grows _ c) hstop), State.freeCluster_run (hgang.2 ▸ hc)⟩

/-- A state with the report of a trap told to the supervisor. -/
def State.reported (s : State) (k : Cluster) (r : RunId) (wtag : BitVec 24) (y : Nat) : State :=
  { s with outbox := s.outbox ++
      [OutMsg.report k.readCause k.trappc k.trapdt k.trapopc k.traphnd r.ctx r.leaf s.ct wtag (BitVec.ofNat 56 y)] }

/-- A trap that the handler does not take is reported, with a machine error's syndrome a free value, and the run ends. -/
theorem State.takeTrap_supervisor {x : TrapInfo} {pc opc : BitVec 57} {dt : Nat} {multi : Bool} {r : RunId} (hr : (s.cl c).run = some r)
    (hn : ¬ ((s.cl c).traphnd ≠ 0#64 ∧ runHandled x.cause = true ∧ (s.cl c).handler = none)) :
    let k' := (s.cl c).withTrap x pc opc dt multi
    let t := s.setCl c k'
    s.takeTrap c x pc dt opc multi =
      ((if x.cause = cMACHINE then t.free.2 else t).reported k' r x.wtag (if x.cause = cMACHINE then t.free.1 else 0)).faultRun c := by
  have hcond : ¬ ((s.cl c).traphnd ≠ 0#64 ∧ runHandled x.cause = true ∧ (s.cl c).handler.isNone = true) := by
    rwa [Option.isNone_iff_eq_none]
  intro k' t
  unfold State.takeTrap
  dsimp only [k', t, Cluster.withTrap]
  rw [if_neg hcond]
  by_cases hm : x.cause = cMACHINE
  · rw [if_pos hm, if_pos hm, if_pos hm, hr]
    rfl
  · rw [if_neg hm, if_neg hm, if_neg hm, hr]
    rfl

end

/-- Settles O58: the handler takes what is its own, and the supervisor the rest. -/
theorem trapDelivery : Obligations.TrapDelivery := by
  intro s c x pc opc dt multi r hc hr k t mine
  refine ⟨fun ⟨hnd, hx, hh⟩ => ?_, fun hn => ?_⟩
  · have ht : t = s.setCl c ((k.withTrap x pc opc dt multi).enterHandler k.arrayQuiet pc) := State.takeTrap_handler hnd hx hh
    rw [ht, State.cl_setCl_same _ _ _ hc]
    exact ⟨rfl, hr, rfl⟩
  · generalize hk' : k.withTrap x pc opc dt multi = k'
    have htrap := State.takeTrap_supervisor (pc := pc) (opc := opc) (dt := dt) (multi := multi) hr hn
    rw [show (s.cl c).withTrap x pc opc dt multi = k' from hk'] at htrap
    set v := if x.cause = cMACHINE then (s.setCl c k').free.2 else s.setCl c k' with hv
    set y := if x.cause = cMACHINE then (s.setCl c k').free.1 else 0 with hy
    have hcl : v.clusters = (s.setCl c k').clusters ∧ v.ct = s.ct := by
      rw [hv]
      split
      · exact ⟨rfl, rfl⟩
      · exact ⟨rfl, rfl⟩
    set u := v.reported k' r x.wtag y with hu
    have hku : u.cl c = k' := (congrArg (List.getD · c _) hcl.1).trans (State.cl_setCl_same s c _ hc)
    have hlen : c < u.clusters.length := by
      rw [show u.clusters = _ from hcl.1, State.setCl_length]
      exact hc
    have hmem : OutMsg.report k'.readCause k'.trappc k'.trapdt k'.trapopc k'.traphnd r.ctx r.leaf s.ct x.wtag (BitVec.ofNat 56 y) ∈ u.outbox := by
      rw [← hcl.2]
      exact List.mem_append_right _ (List.mem_singleton.mpr rfl)
    have hrun' : (u.cl c).run = some r := by
      rw [hku, ← hk']
      exact hr
    obtain ⟨hgrow, hrun, hhandler⟩ := State.faultRun_ends hlen hrun'
    have ht : t = u.faultRun c := htrap
    rw [ht]
    subst hk'
    refine ⟨hrun, hhandler, BitVec.ofNat 56 y, fun h => ?_, hgrow.1 _ hmem⟩
    rw [hy, if_neg h]

end Sys2Proof.Machine
end

section
/-!
PROOFS. The Bozoak engine: a turn's word, registers and loops, the words that fault, the words that move chunks, counts, signals and barriers.
-/
namespace Sys2Proof.Machine

/-! ### A turn of a running context -/

section
variable {s t : State} {k : Nat} {w : BitVec 64}

/-- The word of a running context, as it is read and decoded (R310, R319). -/
theorem State.bozoakWord_of_running (hst : (s.bzc k).st = .running) (hstop : (s.bzc k).stopping = false) (hov : (s.bzc k).overrun = false) :
    s.bozoakWord k =
      match ({ s with cur := { s.cur with bz := k } } : State).hWord (s.bzc k).ctx (s.bzc k).pc.toNat with
      | (none, s) => s.bzFault bzTRANS
      | (some w, s) =>
        match decodeWord (.bz w) with
        | .ok i => exec i s
        | .error .reserved => s.bzFault bzRSVD
        | .error _ => s.bzFault bzILLOP := by
  unfold State.bozoakWord
  refine (if_neg ?_).trans (if_neg ?_)
  · rintro (h | h)
    · exact h hst
    · exact absurd (hstop.symm.trans h) Bool.false_ne_true
  · exact fun h => absurd (hov.symm.trans h) Bool.false_ne_true

theorem State.bozoakWord_ok {i : Instr} (hst : (s.bzc k).st = .running) (hstop : (s.bzc k).stopping = false) (hov : (s.bzc k).overrun = false)
    (hw : ({ s with cur := { s.cur with bz := k } } : State).hWord (s.bzc k).ctx (s.bzc k).pc.toNat = (some w, t)) (hi : decodeWord (.bz w) = .ok i) :
    s.bozoakWord k = exec i t := by
  rw [State.bozoakWord_of_running hst hstop hov, hw]
  dsimp only
  rw [hi]

theorem State.bozoakWord_error {e : DecErr} (hst : (s.bzc k).st = .running) (hstop : (s.bzc k).stopping = false) (hov : (s.bzc k).overrun = false)
    (hw : ({ s with cur := { s.cur with bz := k } } : State).hWord (s.bzc k).ctx (s.bzc k).pc.toNat = (some w, t)) (he : decodeWord (.bz w) = .error e) :
    s.bozoakWord k = t.bzFault (if e = .reserved then bzRSVD else bzILLOP) := by
  rw [State.bozoakWord_of_running hst hstop hov, hw]
  dsimp only
  rw [he]
  cases e <;> rfl

end

/-- Settles O7: the turn reads the word, decodes it and executes it. -/
theorem stepRunsBozoakWord : Obligations.StepRunsBozoakWord := by
  intro s t k w i r hk hag s0 hst hstop hov hw hi
  rw [step_of_agenda hag]
  show (if k < 16 then State.bozoakWord { s with agenda := r } k else _) = _
  rw [if_pos hk]
  exact State.bozoakWord_ok (s := { s with agenda := r }) hst hstop hov hw hi

/-! ### Registers, loops, NOP and END -/

section
variable {b : BzCtx}

/-- A peer taken from a register is one of the communicator, or none. -/
theorem BzCtx.peerOf_true_of_in {p : PeerEx} (h0 : 0 ≤ b.gi p.pg) (h1 : b.gi p.pg < (b.size : Int)) : b.peerOf true p = some (b.gi p.pg).toNat :=
  (if_pos rfl).trans (if_pos ⟨h0, h1⟩)
theorem BzCtx.peerOf_true_of_out {p : PeerEx} (h : b.gi p.pg < 0 ∨ (b.size : Int) ≤ b.gi p.pg) : b.peerOf true p = none :=
  (if_pos rfl).trans (if_neg fun ⟨h0, h1⟩ => by omega)
theorem BzCtx.peerOf_false (p : PeerEx) : b.peerOf false p = some (b.peerAt p) := rfl

end

/-- Settles O33: each word by its own equation. -/
theorem bozoakRegisters : Obligations.BozoakRegisters := by
  intro s gd ga imm p l ls b wr
  refine ⟨rfl, rfl, rfl, fun h0 h1 => ?_, rfl, fun hl hn hs => ?_, fun hl => ?_, rfl, fun hf => ?_⟩
  · show execPeerInd gd ga s = _
    rw [execPeerInd, BzCtx.peerOf_true_of_in (p := ⟨0#12, 0#12, ga⟩) h0 h1]
    rfl
  · refine if_neg ?_
    rintro (h | h | h)
    · exact hl h
    · exact hn h
    · exact absurd (hs.symm.trans h) Bool.false_ne_true
  · have hx : exec .bzEndl s = _ := congrArg (fun l => match l with
      | [] => s.bzFault bzLOOP
      | (gd, n, start) :: rest =>
        let v := s.bzMe.g.getD gd.toNat 0#32 + 1#32
        if v.slt n then Host.Outcome.next (s.onBz s.cur.bz fun b => { b.setG gd v with pc := start })
        else (s.onBz s.cur.bz fun b => { b.setG gd v with loops := rest }).bzDone) hl
    intro v
    refine ⟨fun h => hx.trans (if_pos h), fun h => hx.trans (if_neg ?_)⟩
    exact fun h' => absurd (h.symm.trans h') Bool.false_ne_true
  · exact if_neg fun h => absurd (hf.symm.trans h) Bool.false_ne_true

/-! ### Words that fault -/

section
variable {s : State}

theorem State.bzc_onBz_same (s : State) {k : Nat} (f : BzCtx → BzCtx) (hk : k < s.bz.length) : (s.onBz k f).bzc k = f (s.bzc k) :=
  (getD_set hk).trans (if_pos rfl)

/-- The current context faults with a cause: its PC and memory are as they were (R321). -/
theorem State.bzFault_stops (hk : s.cur.bz < s.bz.length) (cause : BitVec 8) :
    ∃ t, s.bzFault cause = .next t ∧ (t.bzc s.cur.bz).st = .fault ∧ (t.bzc s.cur.bz).cause = cause ∧ (t.bzc s.cur.bz).pc = s.bzMe.pc ∧ t.mem = s.mem := by
  refine ⟨_, rfl, ?_⟩
  rw [State.bzc_onBz_same s _ hk]
  exact ⟨rfl, rfl, rfl, rfl⟩

variable {c : ChunkEx} {p : PeerEx} {pr pt : Bool}

theorem execSend_noPeer (h : s.bzMe.peerOf true p = none) : execSend pt true c p s = s.bzFault bzBADPEER := by rw [execSend, h]
theorem execRrs_noPeer {rop : BzRop} (h : s.bzMe.peerOf true p = none) : execRrs rop pr pt true c p s = s.bzFault bzBADPEER := by rw [execRrs, h]
theorem execSig_noPeer {idx : BitVec 6} (h : s.bzMe.peerOf true p = none) : execSig true idx p s = s.bzFault bzBADPEER := by rw [execSig, h]
theorem execPeerInd_noPeer {gd ga : BitVec 3} (h : s.bzMe.peerOf true ⟨0#12, 0#12, ga⟩ = none) : execPeerInd gd ga s = s.bzFault bzBADPEER := by
  rw [execPeerInd, h]
theorem execBzEndl_noLoop (h : s.bzMe.loops = []) : execBzEndl s = s.bzFault bzLOOP := by rw [execBzEndl, h]
theorem State.bzUse_badLen (pr : Bool) (rop : Option BzRop) (on : Option (Nat × Bool)) {c : Nat} (h : s.bzMe.lenOk c = false) :
    s.bzUse c pr rop on = s.bzFault bzLEN := if_pos (by rw [h]; rfl)

end

section
variable {w : BitVec 64}

/-- A word's opcode as the number it is. -/
theorem opcode_eq {n : Nat} (h : (w.extractLsb' 58 6).toNat = n) : w.extractLsb' 58 6 = BitVec.ofNat 6 n := by
  rw [← h, BitVec.ofNat_toNat, BitVec.setWidth_eq]

/-- Flags outside a mask make a word illegal: a flag it does not use is set. -/
theorem flags_not_only {fl m : BitVec 10} (hf : fl.getLsbD 0 = true) (hm : m.getLsbD 0 = false) : (fl &&& ~~~m == 0#10) = false := by
  rw [beq_eq_false_iff_ne]
  intro h
  have h0 := congrArg (·.getLsbD 0) h
  simp only [BitVec.getLsbD_and, BitVec.getLsbD_not, hf, hm] at h0
  exact absurd h0 (by decide)

theorem decodeWord_error {e : DecErr} (h : decodeBz w = .error e) : decodeWord (.bz w) = .error e := by
  rw [decodeWord, h]
  rfl

theorem decodeBz_unassigned (h : 16 ≤ (w.extractLsb' 58 6).toNat) : decodeBz w = .error .opcode := by
  have hop (n : Nat) (hn : n < 16) : w.extractLsb' 58 6 ≠ BitVec.ofNat 6 n := by
    intro he
    have := congrArg BitVec.toNat he
    rw [BitVec.toNat_ofNat, Nat.mod_eq_of_lt (by omega)] at this
    omega
  unfold decodeBz
  simp only [LayC.of, hop 0 (by decide), hop 1 (by decide), hop 2 (by decide), hop 3 (by decide), hop 4 (by decide), hop 5 (by decide),
    hop 6 (by decide), hop 7 (by decide), hop 8 (by decide), hop 9 (by decide), hop 10 (by decide), hop 11 (by decide), hop 12 (by decide),
    hop 13 (by decide), hop 14 (by decide), hop 15 (by decide), if_false]

theorem decodeBz_rest (h : (w.extractLsb' 58 6).toNat = 0 ∨ (w.extractLsb' 58 6).toNat = 10 ∨ (w.extractLsb' 58 6).toNat = 15)
    (hr : w.extractLsb' 0 58 ≠ 0#58) : decodeBz w = .error .reserved := by
  have hz : (w.extractLsb' 0 58 == 0#58) = false := beq_eq_false_iff_ne.mpr hr
  obtain h | h | h := h
  · simp [decodeBz, LayC.of, opcode_eq h, hz, okIf]
  · simp [decodeBz, LayC.of, opcode_eq h, hz, okIf]
  · simp [decodeBz, LayC.of, opcode_eq h, hz, okIf]

theorem decodeBz_chunkCode (h1 : 1 ≤ (w.extractLsb' 58 6).toNat) (h6 : (w.extractLsb' 58 6).toNat ≤ 6) (hc : w.extractLsb' 22 2 = 3#2) :
    decodeBz w = .error .reserved := by
  obtain h | h | h | h | h | h : (w.extractLsb' 58 6).toNat = 1 ∨ (w.extractLsb' 58 6).toNat = 2 ∨ (w.extractLsb' 58 6).toNat = 3 ∨
      (w.extractLsb' 58 6).toNat = 4 ∨ (w.extractLsb' 58 6).toNat = 5 ∨ (w.extractLsb' 58 6).toNat = 6 := by omega
  all_goals simp [decodeBz, LayC.of, opcode_eq h, hc, withCode, rankAll]

/-- What hangs on an unassigned reduction code is refused, whatever the chunk code. -/
theorem withCode_reserved {α : Type} {x : Option α} {f : α → Dec} (h : ∀ a, f a = .error .reserved) : withCode x f = .error .reserved := by
  cases x with
  | none => rfl
  | some a => exact h a

theorem decodeBz_reductionCode (h : (w.extractLsb' 58 6).toNat = 3 ∨ (w.extractLsb' 58 6).toNat = 4) (hc : w.extractLsb' 8 2 = 3#2) :
    decodeBz w = .error .reserved := by
  have hrop : (w.extractLsb' 0 10).extractLsb' 8 2 = 3#2 := by
    rw [← hc]
    ext i hi
    simp
  obtain h | h := h
  · simp only [decodeBz, LayC.of, opcode_eq h, hrop]
    exact withCode_reserved fun _ => rfl
  · simp only [decodeBz, LayC.of, opcode_eq h, hrop]
    exact withCode_reserved fun _ => rfl

theorem decodeBz_flag (h : (w.extractLsb' 58 6).toNat = 1 ∨ (w.extractLsb' 58 6).toNat = 2 ∨ (w.extractLsb' 58 6).toNat = 5 ∨ (w.extractLsb' 58 6).toNat = 6)
    (hf : w.getLsbD 0 = true) : decodeBz w = .error .reserved := by
  have hfl : (w.extractLsb' 0 10).getLsbD 0 = true := by simpa using hf
  obtain h | h | h | h := h
  · simp only [decodeBz, LayC.of, opcode_eq h, flags_not_only hfl (m := 0x060#10) rfl]
    exact withCode_reserved fun _ => rfl
  · simp only [decodeBz, LayC.of, opcode_eq h, flags_not_only hfl (m := 0x080#10) rfl, Bool.and_false]
    exact withCode_reserved fun _ => rfl
  · simp only [decodeBz, LayC.of, opcode_eq h, flags_not_only hfl (m := 0#10) rfl, Bool.and_false]
    exact withCode_reserved fun _ => rfl
  · simp only [decodeBz, LayC.of, opcode_eq h, flags_not_only hfl (m := 0#10) rfl, Bool.and_false]
    exact withCode_reserved fun _ => rfl

end

theorem bozoakWordFaults : Claims.BozoakWordFaults := by
  intro s gd ga imm c p pr pt rop idx w hk b stops
  have hstop {i : Instr} (cause : BitVec 8) (h : exec i s = s.bzFault cause) : stops cause i := by
    obtain ⟨t, ht, hrest⟩ := State.bzFault_stops hk cause
    exact ⟨t, h.trans ht, hrest⟩
  refine ⟨fun h => hstop _ (if_pos h), fun h => hstop _ (execBzEndl_noLoop h),
    fun h => hstop _ (execPeerInd_noPeer (BzCtx.peerOf_true_of_out (p := ⟨0#12, 0#12, ga⟩) h)), fun h => ?_, fun h => ?_, fun h => hstop _ (if_pos h), ?_, ?_⟩
  · have hp := BzCtx.peerOf_true_of_out h
    exact ⟨hstop _ (execSend_noPeer hp), hstop _ (execRrs_noPeer hp), hstop _ (execSig_noPeer hp)⟩
  · have hl : (!b.lenOk (b.chunk c)) = true := by rw [h]; rfl
    exact ⟨hstop _ (if_pos hl), hstop _ (State.bzUse_badLen pr none none h), hstop _ (State.bzUse_badLen pr (some rop) none h),
      hstop _ (State.bzUse_badLen pr (some rop) (some (b.peerAt p, pt)) h),
      fun ho => hstop _ ((if_neg ho).trans (if_pos hl))⟩
  · exact ⟨fun h => decodeWord_error (decodeBz_unassigned h), fun h hr => decodeWord_error (decodeBz_rest h hr),
      fun h1 h6 hc => decodeWord_error (decodeBz_chunkCode h1 h6 hc), fun h hc => decodeWord_error (decodeBz_reductionCode h hc),
      fun h hf => decodeWord_error (decodeBz_flag h hf)⟩
  · exact fun t e hst hs ho hw he => State.bozoakWord_error hst hs ho hw he

/-! ### Received slots -/

/-- What is done with the data of a slot that is right: reduced where an operation is given, written, freed and sent on (R324 to R327). -/
def State.useData (s : State) (b : BzCtx) (ch at' : Nat) (rop : Option BzRop) (on : Option (Nat × Bool)) (rcv : List Byte) : Res :=
  match rop with
  | none => s.bzUsed b ch at' on rcv
  | some op =>
    match s.hRead b.ctx (b.work ch) (b.len ch) with
    | (none, s) => s.bzFault bzTRANS
    | (some loc, s) =>
      if b.ckv && !b.verify loc then s.bzFault bzCKSUM
      else if b.ckv && !b.verify (b.reduce op loc rcv) then s.bzFault bzCKSUM else s.bzUsed b ch at' on (b.reduce op loc rcv)

/-- The checks of the data of a slot against its header and its vectors (R324). -/
def State.useBytes (s : State) (b : BzCtx) (ch at' : Nat) (rop : Option BzRop) (on : Option (Nat × Bool)) (hd rcv : List Byte) : Res :=
  if leNat (hd.take 4) ≠ (crc32c rcv).toNat then s.bzFault bzE2E
  else if b.ckv && !b.verify rcv then s.bzFault bzCKSUM else s.useData b ch at' rop on rcv

section
variable {s t : State} {b : BzCtx} {ch at' : Nat} {pr pt : Bool} {op : BzRop} {rop : Option BzRop} {on : Option (Nat × Bool)} {hd rcv loc : List Byte}

/-- A full slot of right length, written by deliveries alone, is read and checked. -/
theorem State.bzUse_of_full (hbad : s.bzMe.lzBad = []) (hlen : s.bzMe.lenOk ch = true)
    (hfull : s.raw (s.readAddr (s.bzMe.slot s.bzMe.rank ch pr + 12)) = 1#8) (hlost : s.zoneLost (s.bzMe.slot s.bzMe.rank ch pr) (128 + s.bzMe.len ch) = false) :
    s.bzUse ch pr rop on =
      let at' := s.bzMe.slot s.bzMe.rank ch pr
      let h := s.hBytes (.hbm at') 128
      let r := h.2.hBytes (.hbm (at' + 128)) (s.bzMe.len ch)
      if leNat ((h.1.drop 4).take 4) ≠ s.bzMe.len ch then h.2.bzFault bzLEN else r.2.useBytes s.bzMe ch at' rop on h.1 r.1 := by
  have hl : ¬ (!s.bzMe.lenOk ch) = true := by
    rw [hlen]
    exact Bool.false_ne_true
  have hf : ¬ (s.raw (s.readAddr (s.bzMe.slot s.bzMe.rank ch pr + 12)) ≠ 1#8 ∨ s.zoneLost (s.bzMe.slot s.bzMe.rank ch pr) (128 + s.bzMe.len ch) = true) := by
    rw [hfull, hlost]
    exact fun h => h.elim (fun h => h rfl) Bool.false_ne_true
  have he : s.bzMe.lzBad.isEmpty = true := by
    rw [hbad]
    rfl
  unfold State.bzUse
  dsimp only
  rw [if_neg hl, if_neg hf, if_pos he, if_pos he]
  rfl

theorem State.useBytes_e2e (h : leNat (hd.take 4) ≠ (crc32c rcv).toNat) : s.useBytes b ch at' rop on hd rcv = s.bzFault bzE2E := if_pos h
theorem State.useBytes_cksum (h : leNat (hd.take 4) = (crc32c rcv).toNat) (hc : b.ckv = true) (hv : b.verify rcv = false) :
    s.useBytes b ch at' rop on hd rcv = s.bzFault bzCKSUM := (if_neg fun hn => hn h).trans (if_pos (by rw [hc, hv]; rfl))
theorem ckv_holds {v : Bool} (hv : b.ckv = true → v = true) : ¬ (b.ckv && !v) = true := by
  cases hc : b.ckv with
  | false => exact Bool.false_ne_true
  | true => simp [hv hc]
theorem State.useBytes_right (h : leNat (hd.take 4) = (crc32c rcv).toNat) (hv : b.ckv = true → b.verify rcv = true) :
    s.useBytes b ch at' rop on hd rcv = s.useData b ch at' rop on rcv := (if_neg fun hn => hn h).trans (if_neg (ckv_holds hv))

/-- A reduction whose local copy or result disagrees with its vectors faults (R327). -/
theorem State.useData_cksum (hr : s.hRead b.ctx (b.work ch) (b.len ch) = (some loc, t)) (hc : b.ckv = true)
    (hv : b.verify loc = false ∨ b.verify (b.reduce op loc rcv) = false) : s.useData b ch at' (some op) on rcv = t.bzFault bzCKSUM := by
  rw [State.useData, hr]
  dsimp only
  rw [hc, Bool.true_and, Bool.true_and]
  cases hl : b.verify loc with
  | false => rfl
  | true => rw [hv.resolve_left (by rw [hl]; exact Bool.noConfusion)]; rfl
theorem State.useData_reduce (hr : s.hRead b.ctx (b.work ch) (b.len ch) = (some loc, t))
    (hv : b.ckv = true → b.verify loc = true ∧ b.verify (b.reduce op loc rcv) = true) :
    s.useData b ch at' (some op) on rcv = t.bzUsed b ch at' on (b.reduce op loc rcv) := by
  rw [State.useData, hr]
  exact (if_neg (ckv_holds fun h => (hv h).1)).trans (if_neg (ckv_holds fun h => (hv h).2))

/-- The result is written, the slot freed, and the word completes, a delivery started where there is one to go on. -/
theorem State.bzUsed_done {out : List Byte} (hw : s.hWrite b.ctx (b.work ch) out = (true, t)) : s.bzUsed b ch at' none out = (t.hPutZone (at' + 12) [0#8]).bzDone := by
  rw [State.bzUsed, hw]
theorem State.bzUsed_on {r : Nat} {out : List Byte} (hw : s.hWrite b.ctx (b.work ch) out = (true, t)) :
    s.bzUsed b ch at' (some (r, pt)) out = ((t.hPutZone (at' + 12) [0#8]).deliver (t.hPutZone (at' + 12) [0#8]).cur.bz r ch pt out).bzDone := by
  rw [State.bzUsed, hw]

end

theorem bozoakSlotFaults : Claims.BozoakSlotFaults := by
  intro s t1 t2 u3 rop pr pt c p hd rcv loc b ch slot reducing all hbad hlen hfull hlost hhd
  have huse (op : Option BzRop) (on : Option (Nat × Bool)) : s.bzUse ch pr op on =
      if leNat ((hd.drop 4).take 4) ≠ b.len ch then t1.bzFault bzLEN
      else (t1.hBytes (.hbm (slot + 128)) (b.len ch)).2.useBytes b ch slot op on hd (t1.hBytes (.hbm (slot + 128)) (b.len ch)).1 := by
    rw [State.bzUse_of_full hbad hlen hfull hlost]
    dsimp only
    rw [show s.hBytes (.hbm (s.bzMe.slot s.bzMe.rank ch pr)) 128 = (hd, t1) from hhd]
  have hall {t : State} {cause : BitVec 8} (h : ∀ op on, s.bzUse ch pr op on = t.bzFault cause) : all t cause :=
    ⟨h none none, h (some rop) none, h (some rop) (some (b.peerAt p, pt))⟩
  refine ⟨fun h => hall fun op on => (huse op on).trans (if_pos h), fun h hrcv => ?_⟩
  have hdata (op : Option BzRop) (on : Option (Nat × Bool)) : s.bzUse ch pr op on = t2.useBytes b ch slot op on hd rcv := by
    rw [huse, if_neg fun hn => hn h, hrcv]
  refine ⟨fun h => hall fun op on => (hdata op on).trans (State.useBytes_e2e h), fun h hc => ⟨fun hv => hall fun op on => (hdata op on).trans
    (State.useBytes_cksum h hc hv), fun hv hloc hbadv => ?_⟩⟩
  have hred (on : Option (Nat × Bool)) : s.bzUse ch pr (some rop) on = u3.bzFault bzCKSUM :=
    ((hdata _ on).trans (State.useBytes_right h fun _ => hv)).trans (State.useData_cksum hloc hc hbadv)
  exact ⟨hred _, hred _⟩

/-- Settles O34. -/
theorem bozoakFaults : Obligations.BozoakFaults := ⟨bozoakWordFaults, bozoakSlotFaults⟩

/-! ### Words that move chunks -/

section
variable {s t u : State} {c : ChunkEx} {p : PeerEx} {pt ind : Bool} {r : Nat} {bs : List Byte}

theorem execSend_done (hp : s.bzMe.peerOf ind p = some r) (hlen : s.bzMe.lenOk (s.bzMe.chunk c) = true)
    (hr : s.hRead s.bzMe.ctx (s.bzMe.work (s.bzMe.chunk c)) (s.bzMe.len (s.bzMe.chunk c)) = (some bs, t)) :
    execSend pt ind c p s = (t.deliver t.cur.bz r (s.bzMe.chunk c) pt bs).bzDone := by
  rw [execSend, hp]
  refine (if_neg ?_).trans ?_
  · rw [hlen]
    exact Bool.false_ne_true
  · rw [hr]

theorem execCopy_done (ho : s.bzMe.obase ≠ 0) (hlen : s.bzMe.lenOk (s.bzMe.chunk c) = true)
    (hr : s.hRead s.bzMe.ctx (s.bzMe.work (s.bzMe.chunk c)) (s.bzMe.len (s.bzMe.chunk c)) = (some bs, t))
    (hw : t.hWrite s.bzMe.ctx (s.bzMe.obase + s.bzMe.chunk c * s.bzMe.chsz) bs = (true, u)) : execCopy c s = u.bzDone := by
  refine (if_neg ho).trans ((if_neg ?_).trans ?_)
  · rw [hlen]
    exact Bool.false_ne_true
  · rw [hr]
    dsimp only
    rw [hw]

end

theorem bozoakSends : Claims.BozoakSends := by
  intro s t pt c p bs b ch done hlen hr
  exact ⟨⟨execSend_done (ind := false) rfl hlen hr, fun h0 h1 => execSend_done (BzCtx.peerOf_true_of_in h0 h1) hlen hr⟩,
    fun ho u hw => execCopy_done ho hlen hr hw⟩

theorem bozoakReceives : Claims.BozoakReceives := by
  intro s t1 t2 t3 u3 u4 rop pr pt c p hd rcv loc b ch done slot next hbad hlen hfull hlost hhd hn hrcv hcrc hv
  have huse (op : Option BzRop) (on : Option (Nat × Bool)) : s.bzUse ch pr op on = t2.useData b ch slot op on rcv := by
    rw [State.bzUse_of_full hbad hlen hfull hlost]
    dsimp only
    rw [show s.hBytes (.hbm (s.bzMe.slot s.bzMe.rank ch pr)) 128 = (hd, t1) from hhd,
      show t1.hBytes (.hbm (s.bzMe.slot s.bzMe.rank ch pr + 128)) (s.bzMe.len ch) = (rcv, t2) from hrcv]
    exact (if_neg fun h => h hn).trans (State.useBytes_right hcrc hv)
  refine ⟨fun hw => (huse none none).trans (State.bzUsed_done hw), fun hloc hck hw => ⟨?_, ?_⟩⟩
  · exact ((huse _ _).trans (State.useData_reduce hloc hck)).trans (State.bzUsed_done hw)
  · exact ((huse _ _).trans (State.useData_reduce hloc hck)).trans (State.bzUsed_on hw)

/-- Settles O35. -/
theorem bozoakChunks : Obligations.BozoakChunks := ⟨bozoakSends, bozoakReceives⟩

/-! ### Counts, signals and barriers -/

section
variable {s t : State} {b : BzCtx} {r i : Nat}

theorem State.portLost_of_all (s : State) (h : s.fabricPorts.length = 7) (d a : Nat) : s.portLost (.peer d a) = (false, s) := by
  simp only [State.portLost, h]
  rfl
theorem State.portLost_of_none (s : State) (h : s.fabricPorts = []) (d a : Nat) : s.portLost (.peer d a) = (true, s) := by
  simp only [State.portLost, h]
  rfl

/-- An add of 1 to a signal word here, at a peer, or none where no port takes it (R330, R383). -/
theorem State.sendSig_here (hd : b.dev r = Config.deviceId) (hl : s.zoneLost (b.sigWord r i) 8 = false) :
    s.sendSig b r i = (true, s.addWord (b.sigWord r i)) := by
  rw [State.sendSig, if_pos hd, hl]
  rfl
theorem State.sendSig_away (hd : b.dev r ≠ Config.deviceId) (hp : s.fabricPorts.length = 7) :
    s.sendSig b r i = (true,
      let pa := peerPa (b.dev r).toNat (b.sigWord r i)
      { s with outer := wrBytes s.outer pa (leBytes 8 (leWord (rdBytes s.outer pa 8) + 1#64).toNat), outbox := s.outbox ++ [.peerAdd (b.dev r) (b.sigWord r i)] }) := by
  rw [State.sendSig, if_neg hd, s.portLost_of_all hp]
theorem State.sendSig_shut (hd : b.dev r ≠ Config.deviceId) (hp : s.fabricPorts = []) : s.sendSig b r i = (false, s) := by
  rw [State.sendSig, if_neg hd, s.portLost_of_none hp]

section
variable {idx : BitVec 6} {p : PeerEx} (hdue : s.bzMe.sigDue = none) (hf : s.inFlight s.cur.bz = false)
include hdue hf

/-- SIG with nothing of the context in flight sends its add (R330). -/
theorem execSig_send : execSig false idx p s =
    let q := s.free.2.sendSig s.bzMe (s.bzMe.peerAt p) idx.toNat
    if q.1 then .next (q.2.onBz q.2.cur.bz fun b => { b with sigDue := some (q.2.ct + 1 + s.free.1) }) else .next q.2 := by
  rw [execSig, BzCtx.peerOf_false]
  dsimp only
  rw [hdue]
  dsimp only
  rw [hf]
  generalize s.free.2.sendSig s.bzMe (s.bzMe.peerAt p) idx.toNat = q
  obtain ⟨_ | _, t⟩ := q
  · rfl
  · rfl

end

/-- The members of other devices bring nothing where all have made the arrival waited for, and leave alone what a member here has made. -/
theorem State.barHear_of_all (h : ∀ r, r ∈ b.others → b.barGen ≤ sget 0 (b.barKey b.rank r) s.barIn) : s.barHear b = s := by
  unfold State.barHear
  split
  · rfl
  · have hnil : (b.others.filter fun r => b.dev r != Config.deviceId && decide (sget 0 (b.barKey b.rank r) s.barIn < b.barGen)) = [] := by
      refine List.filter_eq_nil_iff.mpr fun r hr => ?_
      have := h r hr
      simp
      omega
    rw [hnil]
    rfl

/-- A value that is not the default, put at one key, leaves the others as they read. -/
theorem sget_sput_other {α : Type} [DecidableEq α] {d x : α} {k a : Nat} (hx : x ≠ d) (ha : a ≠ k) (m : SMap α) : sget d a (sput d k x m) = sget d a m := by
  induction m with
  | nil =>
    rw [sput, if_neg hx]
    simp only [sget]
    split
    · rfl
    · rfl
  | cons e m ih =>
    obtain ⟨i, y⟩ := e
    simp only [sput, if_neg hx]
    split
    · next hki =>
      simp only [sget, if_neg ha]
      split
      · rw [if_pos (by omega)]
      · rfl
    · split
      · next hki =>
        subst hki
        simp only [sget, if_neg ha]
      · simp only [sget, ih]

theorem BzCtx.barKey_inj {l q q' : Nat} (h : b.barKey l q = b.barKey l q') : q = q' := Nat.add_left_cancel h

/-- What comes in of members elsewhere leaves contexts, memory and the arrivals of a member here. -/
theorem State.barHear_keeps (hr : b.dev r = Config.deviceId) :
    (s.barHear b).bz = s.bz ∧ (s.barHear b).mem = s.mem ∧ sget 0 (b.barKey b.rank r) (s.barHear b).barIn = sget 0 (b.barKey b.rank r) s.barIn := by
  unfold State.barHear
  split
  · exact ⟨rfl, rfl, rfl⟩
  · refine List.foldlRecOn (motive := fun t : State => t.bz = s.bz ∧ t.mem = s.mem ∧ sget 0 (b.barKey b.rank r) t.barIn = sget 0 (b.barKey b.rank r) s.barIn)
      _ _ ⟨rfl, rfl, rfl⟩ fun t ⟨hbz, hmem, hin⟩ q hq => ?_
    obtain ⟨_, hq⟩ := List.mem_filter.mp hq
    simp only [Bool.and_eq_true, bne_iff_ne, decide_eq_true_eq] at hq
    have hkey : b.barKey b.rank r ≠ b.barKey b.rank q := fun h => hq.1 (BzCtx.barKey_inj h ▸ hr)
    dsimp only
    split
    · exact ⟨hbz, hmem, (sget_sput_other (by omega) hkey t.barIn).trans hin⟩
    · exact ⟨hbz, hmem, hin⟩

section
variable {acq rel : Bool}

/-- A BAR that has announced itself completes once every member has started as many, and else waits (R332). -/
theorem execBar_arrived (ha : s.bzMe.arrived = true) : execBar acq rel s =
    if (s.bzMe.others.all fun r => decide (s.bzMe.barGen ≤ sget 0 (s.bzMe.barKey s.bzMe.rank r) (s.barHear s.bzMe).barIn)) = true then
      (if acq then (List.range 4).foldl (fun s d => s.dropPeer d .fabric) (s.barHear s.bzMe) else s.barHear s.bzMe).bzDone
    else .next (s.barHear s.bzMe) :=
  if_neg (by rw [ha]; exact Bool.false_ne_true)
theorem execBar_announce (ha : s.bzMe.arrived = false) : execBar acq rel s =
    if ((rel && s.inFlight s.cur.bz) || (s.fabricPorts.isEmpty && s.bzMe.others.any fun r => s.bzMe.dev r != Config.deviceId)) = true then s.bzWait
    else .next (s.barArrive s.cur.bz) :=
  if_pos (by rw [ha]; rfl)

end

end

/-- Settles O36: each word by its condition. -/
theorem bozoakSynchronises : Obligations.BozoakSynchronises := by
  intro s t c idx n i p acq rel tg b ch done
  refine ⟨fun h => if_neg (Nat.not_lt.mpr h), fun h => if_pos h, ?_, fun hdue hf hd => ?_, fun hdue hf hd hl => ?_, fun hdue => ?_, fun hx => ?_,
    fun ha h1 h2 => ?_, fun ha h => ?_, fun ha h => ?_, fun r ha hr hd hlt => ?_⟩
  · intro f v
    exact ⟨fun h => if_neg (Nat.not_lt.mpr h), fun h => if_pos h⟩
  · intro off pa
    refine ⟨fun hp => ?_, fun hp => ?_⟩
    · refine (execSig_send hdue hf).trans ?_
      rw [State.sendSig_away (s := s.free.2) hd hp]
      rfl
    · refine (execSig_send hdue hf).trans ?_
      rw [State.sendSig_shut (s := s.free.2) hd hp]
      rfl
  · refine (execSig_send hdue hf).trans ?_
    rw [State.sendSig_here (s := s.free.2) hd hl]
    rfl
  · show execSig false idx p s = _
    rw [execSig, BzCtx.peerOf_false]
    dsimp only
    rw [show s.bzMe.sigDue = some s.ct from hdue]
    exact if_neg (Nat.lt_irrefl _)
  · show execSigBit i s = _
    rw [execSigBit, show s.hXlate s.bzMe.ctx (s.bzMe.bmap + 8 * (i.toNat / 64)) .write = (some tg, t) from hx]
    rfl
  · refine (execBar_announce ha).trans (if_neg ?_)
    simp only [Bool.or_eq_true, Bool.and_eq_true, List.isEmpty_iff, List.any_eq_true, bne_iff_ne]
    rintro (⟨hrel, hf⟩ | ⟨hp, r, hr, hd⟩)
    · obtain h1 | h1 := h1
      · exact absurd (h1.symm.trans hrel) Bool.false_ne_true
      · exact absurd (h1.symm.trans hf) Bool.false_ne_true
    · exact h2.elim (fun h => h hp) fun h => hd (h r hr)
  · refine (execBar_announce ha).trans (if_pos ?_)
    simpa only [Bool.or_eq_true, Bool.and_eq_true, List.isEmpty_iff, List.any_eq_true, bne_iff_ne] using h
  · refine (execBar_arrived ha).trans ((if_pos ?_).trans ?_)
    · rw [State.barHear_of_all h]
      exact List.all_eq_true.mpr fun r hr => decide_eq_true (h r hr)
    · rw [State.barHear_of_all h]
      rfl
  · obtain ⟨hbz, hmem, hin⟩ := State.barHear_keeps (s := s) hd
    refine ⟨s.barHear b, (execBar_arrived ha).trans (if_neg fun hall => ?_), hbz, hmem⟩
    have := of_decide_eq_true (List.all_eq_true.mp hall r hr)
    rw [hin] at this
    exact absurd hlt (Nat.not_lt.mpr this)

end Sys2Proof.Machine
end

section
/-!
PROOFS. The tables of translation and the snapshot regions, accesses from outside, and debug operations.
-/
namespace Sys2Proof.Machine

/-! ### The context table and TLB invalidation -/

section
variable {s : State} {ctx : BitVec 12} {lo hi : BitVec 57}

/-- Entries that do not meet a range lie below it or above it. -/
theorem not_meets {x : BitVec 12} {vp b : Nat} (h : (!(x == ctx && decide (vp * 2 ^ b ≤ hi.toNat) && decide (lo.toNat < (vp + 1) * 2 ^ b))) = true)
    (hx : x = ctx) : hi.toNat < vp * 2 ^ b ∨ (vp + 1) * 2 ^ b ≤ lo.toNat := by
  subst hx
  simp only [beq_self_eq_true, Bool.true_and, Bool.not_eq_true', Bool.and_eq_false_iff, decide_eq_false_iff_not, Nat.not_le, Nat.not_lt] at h
  exact h

theorem State.dropTlb_stlb {e : Nat × BitVec 12 × Nat × BitVec 64 × Nat} (he : e ∈ (s.dropTlb ctx lo hi).stlb) (hx : e.2.1 = ctx) :
    hi.toNat < e.2.2.1 * 2 ^ e.2.2.2.2 ∨ (e.2.2.1 + 1) * 2 ^ e.2.2.2.2 ≤ lo.toNat :=
  not_meets (List.mem_filter.mp he).2 hx
theorem State.dropTlb_tlb {k : Cluster} (hk : k ∈ (s.dropTlb ctx lo hi).clusters) {e : BitVec 12 × Nat × BitVec 64 × Nat} (he : e ∈ k.tlb) (hx : e.1 = ctx) :
    hi.toNat < e.2.1 * 2 ^ e.2.2.2 ∨ (e.2.1 + 1) * 2 ^ e.2.2.2 ≤ lo.toNat := by
  obtain ⟨q, -, rfl⟩ := List.mem_map.mp hk
  exact not_meets (List.mem_filter.mp he).2 hx

end

theorem translationTables : Claims.TranslationTables := by
  intro s ctx v lo hi
  refine ⟨?_, ?_, fun h => ?_⟩
  · have hbit : (v &&& 0xF00FFFFFFFFFFFFF#64).getLsbD 63 = v.getLsbD 63 := by
      rw [BitVec.getLsbD_and]
      exact Bool.and_true _
    refine ⟨_, rfl, ?_, ?_, fun hv hd => ?_⟩
    · split
      · rfl
      · rfl
    · split
      · rfl
      · rfl
    · rw [if_pos (by rw [hbit, hv, hd]; rfl)]
      exact ⟨rfl, rfl⟩
  · exact ⟨_, rfl, rfl, rfl, fun e he hx => State.dropTlb_stlb he hx, fun k hk e he hx => State.dropTlb_tlb hk he hx⟩
  · have hc : (s.dropTlb ctx lo hi).tlbInv.contains (ctx, lo, hi) = true := List.contains_iff_mem.mpr h
    exact ⟨_, congrArg Host.Outcome.next (if_pos hc), rfl, rfl⟩

theorem snapshotRegisters : Claims.SnapshotRegisters := by
  intro s i v r d
  refine ⟨fun h => ?_, fun hen hok => ?_, fun hr => ⟨fun hl => ?_, fun hl => ?_⟩⟩
  · refine congrArg Host.Outcome.next (if_neg fun hb => ?_)
    obtain ⟨hen, hok⟩ := (Bool.and_eq_true _ _).mp hb
    obtain h | h := h
    · exact absurd (h.symm.trans hen) Bool.false_ne_true
    · rw [show s.snapOk (snapOf i.toNat (snapClean v)) = true from h] at hok
      exact absurd hok Bool.false_ne_true
  · exact congrArg Host.Outcome.next (if_pos (by
      rw [show (snapClean v).getLsbD 383 = true from hen, show s.snapOk (snapOf i.toNat (snapClean v)) = false from hok]
      rfl))
  · show execSnaproll i s = _
    rw [execSnaproll, hr]
    exact congrArg Host.Outcome.next (if_pos hl)
  · rw [exec_snaproll, execSnaproll, hr]
    exact ⟨_, congrArg Host.Outcome.next (if_neg fun h => absurd (hl.symm.trans h) Bool.false_ne_true), rfl⟩

/-- Settles O43. -/
theorem tablesAndSnapshots : Obligations.TablesAndSnapshots := ⟨translationTables, snapshotRegisters⟩

/-! ### Accesses from outside -/

section
variable {s : State}

/-- A write of the host is made over its open port, and refused over a closed one (R383). -/
theorem State.viaHost_open (h : s.portOpen 0 false = true) (f : State → Res) : s.viaHost f = f s := if_pos h
theorem State.viaHost_shut (h : s.portOpen 0 false = false) (f : State → Res) : s.viaHost f = .next { s with outbox := s.outbox ++ [.refused] } :=
  if_neg fun ho => absurd (h.symm.trans ho) Bool.false_ne_true

/-- A write to a register whose offset is whole reaches its block. -/
theorem execRegisterWrite_window {off : BitVec 22} {v : BitVec 64} (hp : s.portOpen 0 false = true) (h0 : off.toNat % 8 = 0)
    (h1 : 0x10000 ≤ off.toNat ∧ off.toNat < 0x20000) (hr : off.toNat % 0x1000 < 0x80) :
    execRegisterWrite off v s = .next (s.onWin (BitVec.ofNat 4 (off.toNat / 0x1000)) fun x => x.putRec (off.toNat % 0x1000) v) := by
  refine (if_neg ?_).trans ((if_neg fun h => h h0).trans ((if_pos h1).trans (if_pos hr)))
  rw [hp]
  exact Bool.false_ne_true
theorem execRegisterWrite_supervisor {off : BitVec 22} {v : BitVec 64} (hp : s.portOpen 0 false = true) (h0 : off.toNat % 8 = 0)
    (h1 : 0x100000 ≤ off.toNat ∧ off.toNat < 0x110000) :
    execRegisterWrite off v s = s.bzRegWrite .supervisor (BitVec.ofNat 4 (off.toNat / 0x1000)) (off.toNat % 0x1000) v := by
  refine (if_neg ?_).trans ((if_neg fun h => h h0).trans ((if_neg fun h => ?_).trans (if_pos h1)))
  · rw [hp]
    exact Bool.false_ne_true
  · omega

end

/-- Settles O44: what each access needs, and what it does where it has it. -/
theorem outsideAccesses : Obligations.OutsideAccesses := by
  intro s i w src a k d off v
  refine ⟨fun h => (exec_peerWindowWrite i w s).trans (State.viaHost_open h _), fun h => (exec_peerWindowWrite i w s).trans (State.viaHost_shut h _), ?_, fun hp hok hlen => ?_, fun hp => ?_, fun hp => ?_, fun hp h1 h2 h0 hr => ?_,
    fun hp h1 h2 h8 => ?_⟩
  · intro admitted
    refine ⟨fun hh hf ha hok => ?_, fun h => ?_⟩
    · refine congrArg Host.Outcome.next (if_pos ?_)
      rw [hh, hf, hok, show (s.inWin.any fun w => winAdmits w src k a.toNat (AccKind.size k d.length)) = true from ha]
      rfl
    · refine congrArg Host.Outcome.next (if_neg fun hb => ?_)
      simp only [Bool.and_eq_true, Option.isNone_iff_eq_none] at hb
      obtain ⟨⟨⟨hh, hf⟩, ha⟩, -⟩ := hb
      obtain h | h | h := h
      · rw [hh] at h
        exact absurd h Bool.false_ne_true
      · exact absurd (h.symm.trans hf) Bool.false_ne_true
      · exact absurd (h.symm.trans ha) Bool.false_ne_true
  · have hb : (s.portOpen 0 true && s.outsideOk k a.toNat d && decide (a.toNat + d.length ≤ 2 ^ 39)) = true := by
      rw [hp, hok, decide_eq_true hlen]
      rfl
    exact ⟨fun hk => congrArg Host.Outcome.next ((if_pos hb).trans (if_pos hk)), fun hk => congrArg Host.Outcome.next ((if_pos hb).trans (if_neg hk))⟩
  · refine congrArg Host.Outcome.next (if_neg ?_)
    rw [hp]
    exact Bool.false_ne_true
  · exact if_pos (by rw [hp]; rfl)
  · exact execRegisterWrite_window hp h0 ⟨h1, h2⟩ hr
  · refine (execRegisterWrite_supervisor hp (by omega) ⟨h1, h2⟩).trans ?_
    rw [h8]
    rfl

/-! ### Debug -/

section
variable {s : State} {c : Nat} {f g : Cluster → Cluster}

theorem State.onCl_congr (h : f (s.cl c) = g (s.cl c)) : s.onCl c f = s.onCl c g := congrArg (s.setCl c) h
/-- Changing nothing of a cluster changes nothing. -/
theorem State.onCl_self (h : f (s.cl c) = s.cl c) : s.onCl c f = s := by
  have hset : s.clusters.set c (s.cl c) = s.clusters := by
    refine List.ext_getElem? fun i => ?_
    rw [List.getElem?_set]
    split
    · next hi =>
      subst hi
      split
      · next hlt => simp [State.cl, List.getD, hlt]
      · next hge => rw [List.getElem?_eq_none (Nat.le_of_not_lt hge)]
    · rfl
  rw [State.onCl, h, State.setCl, hset]

end

section
variable {s : State} {c : BitVec 4} {r : DbgReg} {v : BitVec 2048}

/-- A core's register: the word it gives new contents is good again (R360). -/
theorem execWrreg_core {i : BitVec 8} (h : r.core = some i) :
    execWrreg c r v s = .next (s.onCl c.toNat fun k => (k.dbgWrite r v).onCore i.toNat (·.heal r.mends)) := by
  cases r with
  | v | p | a | dPts | dWords | ft | spTag | bstTag =>
    cases h
    rfl
  | _ => exact absurd h (Option.some_ne_none i).symm

/-- A register that is none of a core, no loop word, no map's BASE and not AGEQ. -/
theorem execWrreg_plain (hcore : r.core = none) (hage : r ≠ .ageq) (hloop : ∀ l st, r ≠ .loop l st) (htm : ∀ m f, r = .tm m f → f.val ≠ 0) :
    execWrreg c r v s = .next (s.onCl c.toNat fun k => k.dbgWrite r v) := by
  cases r with
  | v | p | a | dPts | dWords | ft | spTag | bstTag => exact absurd hcore (Option.some_ne_none _)
  | loop l st => exact absurd rfl (hloop l st)
  | ageq => exact absurd rfl hage
  | tm m f => exact congrArg Host.Outcome.next (if_neg (htm m f rfl))
  | _ => rfl

end

/-- Settles O46: each operation on the cluster it is for. -/
theorem debugEvents : Obligations.DebugEvents := by
  intro s c r v core n e x k
  refine ⟨fun h => ?_, fun h => ⟨?_, ?_⟩, rfl, fun i h => execWrreg_core h, ?_, ?_, ?_, fun hcore hage hloop htm => execWrreg_plain hcore hage hloop htm, rfl, rfl,
    fun h => ?_, fun h => ?_⟩
  · exact congrArg Host.Outcome.next (State.onCl_congr (if_neg fun h' => absurd (h.symm.trans h') Bool.false_ne_true))
  · exact congrArg Host.Outcome.next (State.onCl_congr (if_pos h))
  · exact congrArg Host.Outcome.next (State.onCl_congr (if_pos h))
  · rintro l st rfl
    rfl
  · rintro m f rfl hf
    exact congrArg Host.Outcome.next (if_pos hf)
  · rintro rfl
    show Host.Outcome.next { s.onCl c.toNat _ with ageq := v.setWidth 32 } = _
    rw [State.onCl_self rfl]
  · show execEdimg c core n e s = _
    rw [execEdimg, show ((s.cl c.toNat).capture.core core.toNat).edit (s.cl c.toNat).now n e = some x from h]
  · show execEdimg c core n e s = _
    rw [execEdimg, show ((s.cl c.toNat).capture.core core.toNat).edit (s.cl c.toNat).now n e = none from h]

end Sys2Proof.Machine
end

section
/-!
PROOFS. Handover, measurement and SPDM: killing every task, the steps of a handover, and the responder's answers.
-/
namespace Sys2Proof.Machine

/-! ### The run of a cluster when others are freed -/

section
variable {s t u : State} {c d : Nat}

/-- A step of the launch unit that only ends runs: each cluster has its run yet, or none; memory, time and the contexts stand. -/
def State.onlyEnds (s t : State) : Prop :=
  (∀ c, (t.cl c).run = (s.cl c).run ∨ (t.cl c).run = none) ∧ t.mem = s.mem ∧ t.ct = s.ct

theorem State.onlyEnds_refl (s : State) : s.onlyEnds s := ⟨fun _ => .inl rfl, rfl, rfl⟩
theorem State.onlyEnds_trans (h : s.onlyEnds t) (h' : t.onlyEnds u) : s.onlyEnds u := by
  obtain ⟨hrun, hmem, hct⟩ := h
  obtain ⟨hrun', hmem', hct'⟩ := h'
  refine ⟨fun c => ?_, hmem'.trans hmem, hct'.trans hct⟩
  obtain h' | h' := hrun' c
  · rw [h']
    exact hrun c
  · exact .inr h'
/-- A run that has ended stays ended. -/
theorem State.onlyEnds_none (h : s.onlyEnds t) (hc : (s.cl c).run = none) : (t.cl c).run = none := by
  obtain h | h := h.1 c
  · exact h.trans hc
  · exact h
theorem State.onlyEnds_foldl {α : Type} {f : State → α → State} (hf : ∀ (t : State) a, t.onlyEnds (f t a)) (l : List α) (s : State) : s.onlyEnds (l.foldl f s) :=
  List.foldlRecOn (motive := fun t : State => s.onlyEnds t) l f s.onlyEnds_refl fun _ ht a _ => State.onlyEnds_trans ht (hf _ a)
/-- With the clusters, memory and time as they are, nothing has ended. -/
theorem State.onlyEnds_of_eq (hcl : t.clusters = s.clusters) (hmem : t.mem = s.mem) (hct : t.ct = s.ct) : s.onlyEnds t :=
  ⟨fun c => .inl (by rw [State.cl, hcl, State.cl]), hmem, hct⟩

/-- A list's element under a map that leaves the default as it is. -/
theorem getD_map_run (l : List Cluster) (f : Cluster → Cluster) (hf : ∀ k, (f k).run = k.run) (d : Nat) :
    ((l.map f).getD d Cluster.reset).run = (l.getD d Cluster.reset).run := by
  rw [List.getD, List.getD, List.getElem?_map]
  cases l[d]? with
  | none => rfl
  | some k => exact hf k

/-- A cluster without the writes still on their way to it that copies of a freed cluster made. -/
def Cluster.dropFrom (c : Nat) (k : Cluster) : Cluster :=
  { k with winW := k.winW.filter fun w => match w.src with | some (d, _) => d != c | none => true }

/-- Freeing a cluster ends its run and no other. -/
theorem State.freeCluster_runs (s : State) (c d : Nat) : ((s.freeCluster c).cl d).run = if d = c then none else (s.cl d).run := by
  have hfreed : ((s.onCl c Cluster.freed).cl d).run = if d = c then none else (s.cl d).run := by
    split
    · next h =>
      subst h
      by_cases hd : d < s.clusters.length
      · rw [State.cl_onCl_same s d Cluster.freed hd]
        rfl
      · have hout : (s.onCl d Cluster.freed).cl d = Cluster.reset := by
          simp [State.cl, List.getD, State.onCl, State.setCl, hd]
        rw [hout]
        rfl
    · next h => rw [State.cl_onCl_other s c d Cluster.freed fun he => h he.symm]
  rw [← hfreed]
  unfold State.freeCluster
  dsimp only
  split
  · exact getD_map_run _ (Cluster.dropFrom c) (fun _ => rfl) d
  · exact getD_map_run _ (Cluster.dropFrom c) (fun _ => rfl) d
theorem State.freeCluster_onlyEnds (s : State) (c : Nat) : s.onlyEnds (s.freeCluster c) := by
  refine ⟨fun d => ?_, ?_, ?_⟩
  · rw [State.freeCluster_runs]
    split
    · exact .inr rfl
    · exact .inl rfl
  · unfold State.freeCluster
    dsimp only
    split
    · rfl
    · rfl
  · unfold State.freeCluster
    dsimp only
    split
    · rfl
    · rfl
theorem State.freeCluster_tasks (s : State) (c : Nat) : (s.freeCluster c).tasks = s.tasks := by
  unfold State.freeCluster
  dsimp only
  split
  · rfl
  · rfl
theorem State.freeClusters_tasks (l : List Nat) (s : State) : (l.foldl State.freeCluster s).tasks = s.tasks :=
  List.foldlRecOn (motive := fun t : State => t.tasks = s.tasks) l _ rfl fun t h c _ => (t.freeCluster_tasks c).trans h
theorem State.freeClusters_run {l : List Nat} (s : State) (hc : c ∈ l) : ((l.foldl State.freeCluster s).cl c).run = none := by
  induction l generalizing s with
  | nil => exact absurd hc (List.not_mem_nil)
  | cons d l ih =>
    obtain h | h := List.mem_cons.mp hc
    · subst h
      refine State.onlyEnds_none (State.onlyEnds_foldl State.freeCluster_onlyEnds l _) ?_
      rw [State.freeCluster_runs, if_pos rfl]
    · exact ih _ h

end

/-! ### Killing a task -/

section
variable {s : State} {id idx : Nat} {x : Task} {g : Gang} {pre rest : List Task}

/-- The gangs of a task that are none of a list's. -/
def Task.without (x : Task) (l : List Nat) : Task := { x with gangs := x.gangs.filter fun g => !l.contains g.idx }

theorem State.endGang_onlyEnds (s : State) (task gang : Nat) : s.onlyEnds (s.endGang task gang) := by
  unfold State.endGang
  split
  · exact s.onlyEnds_refl
  · exact State.onlyEnds_trans (State.onlyEnds_foldl State.freeCluster_onlyEnds _ s) (State.onlyEnds_of_eq rfl rfl rfl)

/-- A task whose number is no other's is the one of that number. -/
theorem State.task_unique (h : s.tasks = pre ++ x :: rest) (hr : x.id ∉ (pre ++ rest).map (·.id)) : s.task x.id = some x := by
  have hpre : (pre.find? fun t => t.id == x.id) = none := List.find?_eq_none.mpr fun t ht he =>
    hr (List.mem_map.mpr ⟨t, List.mem_append_left _ ht, beq_iff_eq.mp he⟩)
  rw [State.task, h, List.find?_append, hpre, List.find?_cons, beq_self_eq_true]
  rfl
theorem map_onTask {f : Task → Task} {n : Nat} (hx : x.id = n) (hr : n ∉ (pre ++ rest).map (·.id)) :
    ((pre ++ x :: rest).map fun t => if t.id = n then f t else t) = pre ++ f x :: rest := by
  have hother (l : List Task) (hl : ∀ t, t ∈ l → t ∈ pre ++ rest) : l.map (fun t => if t.id = n then f t else t) = l := by
    refine (List.map_congr_left (g := id) fun t ht => if_neg fun he => hr ?_).trans (List.map_id l)
    rw [← he]
    exact List.mem_map_of_mem (hl t ht)
  rw [List.map_append, List.map_cons, if_pos hx, hother pre fun t => List.mem_append_left _, hother rest fun t => List.mem_append_right _]

theorem Task.without_nil (x : Task) : x.without [] = x := by
  cases x
  simp [Task.without]

/-- Ending a gang of a task: it is the task's no more, and the clusters it had on it have no run. -/
theorem State.endGang_tasks {l : List Nat} (h : s.tasks = pre ++ x.without l :: rest) (hr : x.id ∉ (pre ++ rest).map (·.id)) (idx : Nat) :
    (s.endGang x.id idx).tasks = pre ++ x.without (l ++ [idx]) :: rest := by
  have hx : s.task x.id = some (x.without l) := State.task_unique (x := x.without l) h hr
  have hfilter : ((x.without l).gangs.filter fun g => g.idx != idx) = (x.without (l ++ [idx])).gangs := by
    simp only [Task.without, List.filter_filter]
    refine List.filter_congr fun g _ => ?_
    rw [Bool.eq_iff_iff]
    simp [and_comm]
  rw [State.endGang, hx]
  dsimp only [Option.bind]
  split
  · next hnone =>
    have hall := List.find?_eq_none.mp hnone
    have hsame : (x.without (l ++ [idx])).gangs = (x.without l).gangs := by
      rw [← hfilter]
      exact List.filter_eq_self.mpr fun g hg => by simpa using hall g hg
    rw [h]
    exact congrArg (fun g => pre ++ ({ x with gangs := g } : Task) :: rest) hsame.symm
  · show ((_ : State).tasks.map _) = _
    rw [State.freeClusters_tasks, h]
    refine (map_onTask (x := x.without l) rfl hr).trans ?_
    exact congrArg (fun g => pre ++ ({ x with gangs := g } : Task) :: rest) hfilter

theorem State.endGang_run {c : Nat} {r : RunId} {l : List Nat} (h : s.tasks = pre ++ x.without l :: rest) (hr : x.id ∉ (pre ++ rest).map (·.id)) (hg : (x.gangs.map (·.idx)).Nodup) (hm : g ∈ x.gangs)
    (hl : g.idx ∉ l) (hc : c ∈ g.clusters) (hrun : (s.cl c).run = some r) (ht : r.task = x.id) (hi : r.gang = g.idx) :
    ((s.endGang x.id g.idx).cl c).run = none := by
  have hx : s.task x.id = some (x.without l) := State.task_unique (x := x.without l) h hr
  have hfind : ((x.without l).gangs.find? fun q => q.idx == g.idx) = some g := by
    have hmem : g ∈ (x.without l).gangs := List.mem_filter.mpr ⟨hm, by simpa using hl⟩
    cases hf : (x.without l).gangs.find? fun q => q.idx == g.idx with
    | none => exact absurd (beq_self_eq_true g.idx) (List.find?_eq_none.mp hf g hmem)
    | some q =>
      have hq : q ∈ x.gangs := (List.mem_filter.mp (List.mem_of_find?_eq_some hf)).1
      have hidx : q.idx = g.idx := beq_iff_eq.mp (List.find?_some (p := fun q : Gang => q.idx == g.idx) hf)
      rw [List.inj_on_of_nodup_map hg hq hm hidx]
  rw [State.endGang, hx]
  dsimp only [Option.bind]
  rw [hfind]
  refine State.freeClusters_run s (List.mem_filter.mpr ⟨hc, ?_⟩)
  rw [hrun]
  dsimp only
  rw [ht, hi, beq_self_eq_true, beq_self_eq_true]
  rfl

end

/-- Ending the gangs of a list, of one task. -/
theorem State.endGangs_tasks {s : State} {x : Task} {pre rest : List Task} (hr : x.id ∉ (pre ++ rest).map (·.id)) (gs : List Gang) {l : List Nat}
    (h : s.tasks = pre ++ x.without l :: rest) :
    (gs.foldl (fun s g => s.endGang x.id g.idx) s).tasks = pre ++ x.without (l ++ gs.map (·.idx)) :: rest := by
  induction gs generalizing s l with
  | nil => simpa using h
  | cons g gs ih =>
    rw [List.foldl_cons, ih (State.endGang_tasks h hr g.idx)]
    simp
theorem State.endGangs_onlyEnds (s : State) (id : Nat) (gs : List Gang) : s.onlyEnds (gs.foldl (fun s g => s.endGang id g.idx) s) :=
  State.onlyEnds_foldl (fun t (g : Gang) => t.endGang_onlyEnds id g.idx) gs s

theorem State.endGangs_run {s : State} {x : Task} {pre rest : List Task} {g : Gang} {c : Nat} {r : RunId} (hr : x.id ∉ (pre ++ rest).map (·.id))
    (hg : (x.gangs.map (·.idx)).Nodup) (hm : g ∈ x.gangs) (hc : c ∈ g.clusters) (ht : r.task = x.id) (hi : r.gang = g.idx) (gs : List Gang) {l : List Nat}
    (hgs : g ∈ gs) (hl : g.idx ∉ l) (h : s.tasks = pre ++ x.without l :: rest) (hrun : (s.cl c).run = some r) :
    ((gs.foldl (fun s g => s.endGang x.id g.idx) s).cl c).run = none := by
  induction gs generalizing s l with
  | nil => exact absurd hgs List.not_mem_nil
  | cons q gs ih =>
    rw [List.foldl_cons]
    obtain hq | hq := (s.endGang_onlyEnds x.id q.idx).1 c
    · by_cases hqi : q.idx = g.idx
      · refine State.onlyEnds_none (State.endGangs_onlyEnds _ x.id gs) ?_
        rw [hqi]
        exact State.endGang_run h hr hg hm hl hc hrun ht hi
      · have hgs' : g ∈ gs := (List.mem_cons.mp hgs).resolve_left fun he => hqi (he ▸ rfl)
        refine ih hgs' (fun hmem => ?_) (State.endGang_tasks h hr q.idx) (hq.trans hrun)
        obtain h' | h' := List.mem_append.mp hmem
        · exact hl h'
        · exact hqi (List.mem_singleton.mp h').symm
    · exact State.onlyEnds_none (State.endGangs_onlyEnds _ x.id gs) hq

/-- A task without gangs that has been stopped is gone once its end is looked at. -/
theorem State.checkFinal_stopped {s : State} {x : Task} {pre rest : List Task} (h : s.tasks = pre ++ x :: rest) (hr : x.id ∉ (pre ++ rest).map (·.id))
    (hg : x.gangs = []) (hs : x.stop.isNone = false) :
    s.checkFinal x.id = { s.finalStatus x (x.stop.getD 16) with tasks := (s.finalStatus x (x.stop.getD 16)).tasks.filter fun t => t.id != x.id } := by
  rw [State.checkFinal, State.task_unique h hr]
  dsimp only
  rw [hg, hs]
  exact if_neg Bool.false_ne_true
theorem State.checkFinal_gone {s : State} {x : Task} {pre rest : List Task} (h : s.tasks = pre ++ x :: rest) (hr : x.id ∉ (pre ++ rest).map (·.id))
    (hg : x.gangs = []) (hs : x.stop.isNone = false) : (s.checkFinal x.id).tasks = pre ++ rest := by
  have hfinal (code : Nat) : (s.finalStatus x code).tasks = s.tasks := by
    unfold State.finalStatus
    split
    · rfl
    · rfl
    · rfl
    · rfl
  have hother (l : List Task) (hl : ∀ t, t ∈ l → t ∈ pre ++ rest) : l.filter (fun t => t.id != x.id) = l :=
    List.filter_eq_self.mpr fun t ht => bne_iff_ne.mpr fun he => hr (List.mem_map.mpr ⟨t, hl t ht, he⟩)
  rw [State.checkFinal_stopped h hr hg hs]
  show ((s.finalStatus x _).tasks.filter fun t => t.id != x.id) = pre ++ rest
  rw [hfinal, h, List.filter_append, List.filter_cons_of_neg (by simp), hother pre fun t => List.mem_append_left _,
    hother rest fun t => List.mem_append_right _]
theorem State.finalStatus_mem (s : State) (t : Task) (code : Nat) : (s.finalStatus t code).mem = s.mem ∧ (s.finalStatus t code).ct = s.ct := by
  unfold State.finalStatus
  split
  · exact ⟨rfl, rfl⟩
  · exact ⟨rfl, rfl⟩
  · exact ⟨rfl, rfl⟩
  · exact ⟨rfl, rfl⟩
theorem State.checkFinal_onlyEnds (s : State) (id : Nat) : s.onlyEnds (s.checkFinal id) := by
  refine State.onlyEnds_of_eq (s.checkFinal_keeps id).2 ?_ ?_
  · unfold State.checkFinal
    split
    · rfl
    · dsimp only
      split
      · rfl
      · exact (s.finalStatus_mem _ _).1
  · unfold State.checkFinal
    split
    · rfl
    · dsimp only
      split
      · rfl
      · exact (s.finalStatus_mem _ _).2

section
variable {s : State} {x : Task} {pre rest : List Task}

/-- A task that is not stopping, and one that stops with a code: it keeps the gangs that have runs (R53). -/
def Task.goingOn (t : Task) : Task := { t with stop := none }
def Task.stopped (code : Nat) (t : Task) : Task :=
  { t with stop := some (t.stop.getD code), gangs := t.gangs.filter fun g => g.st == .running || g.st == .frozen || !g.saved.isEmpty }

theorem State.killTask_onlyEnds (s : State) (x : Task) : s.onlyEnds (s.killTask x) := by
  refine State.onlyEnds_trans (s.endGangs_onlyEnds x.id x.gangs) ?_
  exact State.onlyEnds_trans (State.onlyEnds_of_eq rfl rfl rfl) (State.checkFinal_onlyEnds _ x.id)

/-- A task about to be killed, its gangs ended. -/
def State.killReady (s : State) (x : Task) : State :=
  ((x.gangs.foldl (fun s g => s.endGang x.id g.idx) s).onTask x.id Task.goingOn).onTask x.id (Task.stopped 18)
def Task.killed (x : Task) : Task := ((x.without (x.gangs.map (·.idx))).goingOn).stopped 18
theorem Task.killed_gangs (x : Task) : x.killed.gangs = [] := by
  have hempty : (x.without (x.gangs.map (·.idx))).gangs = [] := List.filter_eq_nil_iff.mpr fun g hg => by simpa using ⟨g, hg, rfl⟩
  show (x.without (x.gangs.map (·.idx))).gangs.filter _ = []
  rw [hempty]
  rfl
theorem State.killReady_tasks (h : s.tasks = pre ++ x :: rest) (hr : x.id ∉ (pre ++ rest).map (·.id)) : (s.killReady x).tasks = pre ++ x.killed :: rest := by
  have hgangs := State.endGangs_tasks hr x.gangs (l := []) (s := s) (by rw [h, x.without_nil])
  rw [List.nil_append] at hgangs
  unfold State.killReady Task.killed
  generalize x.gangs.foldl (fun s g => s.endGang x.id g.idx) s = u at hgangs ⊢
  generalize hy : x.without (x.gangs.map (·.idx)) = y at hgangs ⊢
  have hid : y.id = x.id := by rw [← hy]; rfl
  show ((u.tasks.map _).map _) = _
  rw [hgangs, map_onTask (x := y) hid hr, map_onTask (x := y.goingOn) hid hr]
theorem State.killTask_eq (s : State) (x : Task) : s.killTask x = (s.killReady x).checkFinal x.id := rfl

/-- A task that is killed is gone, and the others stand (R59). -/
theorem State.killTask_tasks (h : s.tasks = pre ++ x :: rest) (hr : x.id ∉ (pre ++ rest).map (·.id)) : (s.killTask x).tasks = pre ++ rest :=
  State.checkFinal_gone (x := x.killed) (State.killReady_tasks h hr) hr x.killed_gangs rfl

theorem State.killTask_run {g : Gang} {c : Nat} {r : RunId} (h : s.tasks = pre ++ x :: rest) (hr : x.id ∉ (pre ++ rest).map (·.id))
    (hg : (x.gangs.map (·.idx)).Nodup) (hm : g ∈ x.gangs) (hc : c ∈ g.clusters) (ht : r.task = x.id) (hi : r.gang = g.idx)
    (hrun : (s.cl c).run = some r) : ((s.killTask x).cl c).run = none := by
  have hend := State.endGangs_run hr hg hm hc ht hi x.gangs (l := []) hm List.not_mem_nil (by rw [h, x.without_nil]) hrun
  exact State.onlyEnds_none (State.onlyEnds_trans (State.onlyEnds_of_eq rfl rfl rfl) (State.checkFinal_onlyEnds _ x.id)) hend

end

/-! ### Killing the tasks of a list -/

/-- The tasks of a state that are none of a list's. -/
def tasksBut (l ts : List Task) : List Task := ts.filter fun t => !(l.map (·.id)).contains t.id

/-- A task among those with one number each, and the others. -/
theorem split_task {ts : List Task} {x : Task} (hx : x ∈ ts) (hn : (ts.map (·.id)).Nodup) :
    ∃ pre rest, ts = pre ++ x :: rest ∧ x.id ∉ (pre ++ rest).map (·.id) ∧ ((pre ++ rest).map (·.id)).Nodup := by
  obtain ⟨pre, rest, rfl⟩ := List.append_of_mem hx
  refine ⟨pre, rest, rfl, ?_⟩
  rw [List.map_append, List.map_cons, List.nodup_middle, List.nodup_cons, ← List.map_append] at hn
  exact hn

/-- Killing some tasks leaves the others as they are. -/
theorem State.kills_tasks (l : List Task) (s : State) (hs : ∀ t, t ∈ l → t ∈ s.tasks) (hn : (s.tasks.map (·.id)).Nodup) (hl : (l.map (·.id)).Nodup) :
    (l.foldl State.killTask s).tasks = tasksBut l s.tasks := by
  induction l generalizing s with
  | nil => exact (List.filter_eq_self.mpr fun _ _ => rfl).symm
  | cons x l ih =>
    obtain ⟨hx, hl⟩ := List.nodup_cons.mp hl
    obtain ⟨pre, rest, h, hr, hn'⟩ := split_task (hs x List.mem_cons_self) hn
    have hkill := State.killTask_tasks h hr
    rw [List.foldl_cons, ih _ (fun t ht => ?_) (by rw [hkill]; exact hn') hl, hkill, h]
    · have hbut (ts : List Task) (ht : ∀ t, t ∈ ts → t ∈ pre ++ rest) : tasksBut l ts = tasksBut (x :: l) ts := by
        refine List.filter_congr fun t htm => ?_
        have hne : t.id ≠ x.id := fun he => hr (List.mem_map.mpr ⟨t, ht t htm, he⟩)
        simp [hne]
      rw [tasksBut, List.filter_append, ← tasksBut, ← tasksBut, hbut pre fun t => List.mem_append_left _, hbut rest fun t => List.mem_append_right _]
      conv_rhs => rw [tasksBut, List.filter_append, List.filter_cons_of_neg (by simp)]
      rfl
    · have htx : t ≠ x := fun he => hx (List.mem_map.mpr ⟨t, ht, by rw [he]⟩)
      have hmem := hs t (List.mem_cons_of_mem x ht)
      rw [h, List.mem_append, List.mem_cons] at hmem
      rw [hkill, List.mem_append]
      exact hmem.imp_right fun hm => hm.resolve_left htx
/-- Every gang of a task killed is gone from its clusters. -/
theorem State.kills_run {x : Task} {g : Gang} {c : Nat} {r : RunId} (hg : (x.gangs.map (·.idx)).Nodup) (hm : g ∈ x.gangs) (hc : c ∈ g.clusters)
    (ht : r.task = x.id) (hi : r.gang = g.idx) (l : List Task) (hxl : x ∈ l) (s : State) (hs : ∀ t, t ∈ l → t ∈ s.tasks)
    (hn : (s.tasks.map (·.id)).Nodup) (hl : (l.map (·.id)).Nodup) (hrun : (s.cl c).run = some r) : ((l.foldl State.killTask s).cl c).run = none := by
  induction l generalizing s with
  | nil => exact absurd hxl List.not_mem_nil
  | cons y l ih =>
    obtain ⟨hy, hl⟩ := List.nodup_cons.mp hl
    obtain ⟨pre, rest, h, hr, hn'⟩ := split_task (hs y List.mem_cons_self) hn
    obtain hk | hk := (s.killTask_onlyEnds y).1 c
    · obtain he | hxl := List.mem_cons.mp hxl
      · subst he
        exact State.onlyEnds_none (State.onlyEnds_foldl State.killTask_onlyEnds l _) (State.killTask_run h hr hg hm hc ht hi hrun)
      · have hkill := State.killTask_tasks h hr
        refine ih hxl _ (fun t htl => ?_) (by rw [hkill]; exact hn') hl (hk.trans hrun)
        have hty : t ≠ y := fun he => hy (List.mem_map.mpr ⟨t, htl, by rw [he]⟩)
        have hmem := hs t (List.mem_cons_of_mem y htl)
        rw [h, List.mem_append, List.mem_cons] at hmem
        rw [hkill, List.mem_append]
        exact hmem.imp_right fun hm => hm.resolve_left hty
    · exact State.onlyEnds_none (State.onlyEnds_foldl State.killTask_onlyEnds l _) hk

/-! ### Handover and measurement -/

/-- After step 1 no context is bound (R373). -/
theorem State.handKill_unbound (s : State) (k : Nat) : (s.handKill.bzc k).bound = false ∧ (s.handKill.bzc k).st = .unbound := by
  show (((List.map _ _).getD k BzCtx.reset).bound = false ∧ ((List.map _ _).getD k BzCtx.reset).st = .unbound)
  rw [List.getD, List.getElem?_map]
  cases (s.tasks.foldl State.killTask s).bz[k]? with
  | none => exact ⟨show (0#64).getLsbD 63 = false from rfl, rfl⟩
  | some b => exact ⟨show (0#64).getLsbD 63 = false from rfl, rfl⟩

theorem State.handFail_marks (s : State) (h : Handover) :
    (s.handFail h).failed = true ∧ (s.handFail h).ready = false ∧ (s.handFail h).hand = some { h with failed := true } := ⟨rfl, rfl, rfl⟩

theorem handoverAndMeasurement : Claims.HandoverAndMeasurement := by
  intro s nonce dg slot h
  refine ⟨fun hp hn => ?_, fun hp => (exec_handover nonce s).trans (State.viaHost_shut hp _),
    fun hp hsome => ((exec_handover nonce s).trans (State.viaHost_open hp _)).trans (congrArg Host.Outcome.next (if_pos hsome)), fun hh hf => ?_,
    fun hs => congrArg Host.Outcome.next (if_neg (Nat.not_lt.mpr hs)), fun hs => congrArg Host.Outcome.next (if_pos hs)⟩
  · obtain ⟨hrun, hmem, hct⟩ := State.onlyEnds_foldl State.killTask_onlyEnds s.tasks s
    obtain ⟨hlo, hhi⟩ := s.handKill.freeIn_range (lo := 1) (hi := stepBound 1) (by decide)
    have hkill : s.handKill.ct = s.ct := hct
    refine ⟨_, ((exec_handover nonce s).trans (State.viaHost_open hp _)).trans (congrArg Host.Outcome.next (if_neg (by rw [hn]; exact Bool.false_ne_true))), rfl, hmem,
      ⟨s.ct + (s.handKill.freeIn 1 (stepBound 1)).1, by omega, by omega, ?_⟩, s.handKill_unbound,
      fun hnd => ⟨?_, fun x g c r hx hg hm hc hr ht hi => State.kills_run hg hm hc ht hi s.tasks hx s (fun _ h => h) hnd hnd hr⟩⟩
    · show some (Handover.mk nonce 1 s.ct s.handKill.ct (s.handKill.ct + (s.handKill.freeIn 1 (stepBound 1)).1) false 0#8 0#16 []) = _
      rw [hkill]
    · show (s.tasks.foldl State.killTask s).tasks = []
      rw [State.kills_tasks s.tasks s (fun _ h => h) hnd hnd]
      exact List.filter_eq_nil_iff.mpr fun t ht => by simpa using ⟨t, ht, rfl⟩
  · rw [exec_handoverStepOverrun, execHandoverStepOverrun, hh]
    exact ⟨_, congrArg Host.Outcome.next (if_neg (by rw [hf]; exact Bool.false_ne_true)), s.handFail_marks h⟩

/-! ### SPDM -/

section
variable {s : State} (hu : s.spdmUp = true)
include hu

theorem State.answer_up (n : Nat) (bs : List Byte) : s.answer n bs = { s with outbox := s.outbox ++ [.spdm n bs] } := if_pos hu
theorem State.spdmRefuse_up : s.spdmRefuse = { s with outbox := s.outbox ++ [.refused] } := if_pos hu

/-- Measurements by index: one slot, or with the report's digest among them (R378). -/
theorem execGetMeasurements_up {i : BitVec 8} (h1 : 1 ≤ i.toNat) (h17 : i.toNat ≤ 17) (sign : Bool) (nonce : BitVec 256) : execGetMeasurements i sign nonce s =
    .next { s with outbox := s.outbox ++ [.spdm 6 (if sign then signed (s.measBlock i.toNat ++ digestBytes nonce) else s.measBlock i.toNat)] } := by
  unfold execGetMeasurements
  dsimp only
  rw [if_neg (by omega), if_neg (by omega), if_pos h17]
  exact congrArg Host.Outcome.next (State.answer_up hu _ _)

theorem execKeyExchange_up (b : List Byte) : execKeyExchange b s = .next { s with
      sessions := s.sessions ++ [⟨s.nextSession, (Config.exchange s.nextSession b).2, false⟩], nextSession := s.nextSession + 1
      outbox := s.outbox ++ [.spdm 7 (signed (leBytes 96 (Config.exchange s.nextSession b).1.toNat))] } := by
  unfold execKeyExchange
  rw [if_pos hu]
  exact congrArg Host.Outcome.next (if_pos hu)

variable {x : Session} (hx : s.sessions = [x])
include hx

theorem execFinish_up : execFinish x.id (digestBytes (Config.finishMac x.secret)) s =
    .next { s with sessions := [{ x with live := true }], outbox := s.outbox ++ [.spdm 8 []] } := by
  have hfind : (s.sessions.find? fun y => y.id == x.id) = some x := by
    rw [hx, List.find?_cons, beq_self_eq_true]
  have hmap : (s.sessions.map fun y : Session => if y.id = x.id then { y with live := true } else y) = [{ x with live := true }] := by
    rw [hx]
    exact congrArg (· :: []) (if_pos rfl)
  rw [execFinish, hfind]
  dsimp only
  rw [if_neg (by rw [hu]; exact Bool.false_ne_true), if_pos rfl, hmap]
  exact congrArg Host.Outcome.next (if_pos hu)

theorem execEndSession_up : execEndSession x.id s = .next { s with sessions := [], outbox := s.outbox ++ [.spdm 9 []] } := by
  have hany : (s.spdmUp && s.sessions.any fun y => y.id == x.id) = true := by
    rw [hu, hx]
    simp
  have hfilter : (s.sessions.filter fun y => y.id != x.id) = [] := by
    rw [hx]
    simp
  rw [execEndSession, if_pos hany, hfilter]
  exact congrArg Host.Outcome.next (if_pos hu)

/-- A key is programmed over a live session alone (R383). -/
theorem execIdeKm_up (port : BitVec 3) (link : Bool) (key : BitVec 256) : execIdeKm x.id port link key s =
    .next (if x.live then { s with
        ideKeys := (s.ideKeys.filter fun q => q.1 != 2 * port.toNat + (if link then 1 else 0)) ++ [(2 * port.toNat + (if link then 1 else 0), key)] }
      else { s with outbox := s.outbox ++ [.refused] }) := by
  have hany : (s.spdmUp && s.sessions.any fun y => y.id == x.id && y.live) = x.live := by
    rw [hu, hx]
    simp
  unfold execIdeKm
  dsimp only
  rw [hany, State.spdmRefuse_up hu]

end

theorem spdmAnswers : Claims.SpdmAnswers := by
  intro s b off len nonce key i x port link hu said refused
  have hsay (n : Nat) (a : List Byte) : Host.Outcome.next (s.answer n a) = said n a := congrArg _ (State.answer_up hu n a)
  have hno : Host.Outcome.next s.spdmRefuse = refused := congrArg _ (State.spdmRefuse_up hu)
  refine ⟨hsay _ _, hsay _ _, hsay _ _, hsay _ _, hsay _ _, fun hi => ⟨(congrArg _ (if_neg hi)).trans hno, (congrArg _ (if_neg hi)).trans hno⟩, hsay _ _,
    fun h1 h16 => ?_, fun h1 h17 => execGetMeasurements_up hu h1 h17 true nonce, execKeyExchange_up hu b,
    fun hx => ⟨execFinish_up hu hx, execEndSession_up hu hx, fun hl => ?_, fun hl => ?_⟩⟩
  · have hblock : s.measBlock i.toNat = leBytes 1 i.toNat ++ digestBytes (s.meas.getD (i.toNat - 1) 0#256) := by
      rw [State.measBlock, if_neg (by omega)]
    exact (execGetMeasurements_up hu h1 (by omega) false nonce).trans (congrArg (said 6) hblock)
  · rw [exec_ideKm, execIdeKm_up hu hx, if_pos hl]
  · rw [exec_ideKm, execIdeKm_up hu hx, if_neg (by rw [hl]; exact Bool.false_ne_true)]

/-- Settles O47. -/
theorem securityEvents : Obligations.SecurityEvents := ⟨handoverAndMeasurement, spdmAnswers⟩

end Sys2Proof.Machine
end

section
/-!
PROOFS. The platform: limits, droops, power windows, scrubbing, and resets.
-/
namespace Sys2Proof.Machine

/-! ### The greatest of a list -/

theorem foldl_max_le_iff {l : List Nat} {a n : Nat} : l.foldl Nat.max a ≤ n ↔ a ≤ n ∧ ∀ x, x ∈ l → x ≤ n := by
  induction l generalizing a with
  | nil => simp
  | cons y l ih =>
    rw [List.foldl_cons, ih]
    simp [and_assoc]
theorem foldl_max_mem (l : List Nat) (a : Nat) : l.foldl Nat.max a = a ∨ l.foldl Nat.max a ∈ l := by
  induction l generalizing a with
  | nil => exact .inl rfl
  | cons y l ih =>
    rw [List.foldl_cons]
    obtain h | h := ih (Nat.max a y)
    · rw [h]
      obtain hm | hm := Nat.le_total a y
      · exact .inr (by rw [show Nat.max a y = y from Nat.max_eq_right hm]; exact List.mem_cons_self)
      · exact .inl (Nat.max_eq_left hm)
    · exact .inr (List.mem_cons_of_mem y h)
theorem le_foldl_max {l : List Nat} {a x : Nat} (h : x ∈ l) : x ≤ l.foldl Nat.max a := (foldl_max_le_iff.mp (Nat.le_refl _)).2 x h

/-! ### Droops (R387) -/

section
variable {s t : State} {c d used till : Nat}

theorem State.mem_gangMates : d ∈ s.gangMates c ↔ d < 16 ∧ (d = c ∨ ((s.cl c).gangOf.isSome = true ∧ (s.cl d).gangOf = (s.cl c).gangOf)) := by
  simp [State.gangMates]

/-- A droop at one cluster: a hold, or the mark of too many. -/
def State.droop (used till : Nat) (s : State) (d : Nat) : State :=
  if used + 32 ≤ 850 then { s with droopUsed := s.droopUsed.set d (used + 32) }.onCl d fun k => { k with throttle := till }
  else { s with droopUsed := s.droopUsed.set d 851 }

/-- A cluster and its share of a window after a droop. -/
def Cluster.drooped (used till : Nat) (k : Cluster) : Cluster := if used + 32 ≤ 850 then { k with throttle := till } else k
theorem Cluster.drooped_drooped (k : Cluster) : (k.drooped used till).drooped used till = k.drooped used till := by
  unfold Cluster.drooped
  split
  · rfl
  · rfl

theorem State.droop_keeps (s : State) (d : Nat) : (s.droop used till d).mem = s.mem ∧ (s.droop used till d).clusters.length = s.clusters.length ∧
    (s.droop used till d).droopUsed.length = s.droopUsed.length := by
  unfold State.droop
  split
  · exact ⟨rfl, State.onCl_length _ _ _, List.length_set⟩
  · exact ⟨rfl, rfl, List.length_set⟩
theorem State.droop_cl (hd : d < s.clusters.length) (e : Nat) : (s.droop used till d).cl e = if e = d then (s.cl e).drooped used till else s.cl e := by
  unfold State.droop Cluster.drooped
  split
  · split
    · next h =>
      subst h
      exact State.cl_onCl_same { s with droopUsed := _ } e _ hd
    · next h => exact State.cl_onCl_other { s with droopUsed := _ } d e _ fun he => h he.symm
  · rw [ite_self]
    rfl
theorem State.droop_used (hd : d < s.droopUsed.length) (e : Nat) :
    (s.droop used till d).droopUsed.getD e 0 = if e = d then (if used + 32 ≤ 850 then used + 32 else 851) else s.droopUsed.getD e 0 := by
  unfold State.droop
  split
  · exact getD_set hd
  · exact getD_set hd

/-- The clusters of a list droop together, and no other. -/
theorem State.droops_spec (l : List Nat) (s : State) (hc : ∀ d, d ∈ l → d < s.clusters.length) (hu : ∀ d, d ∈ l → d < s.droopUsed.length) :
    let t := l.foldl (State.droop used till) s
    t.mem = s.mem ∧ (∀ e, t.cl e = if e ∈ l then (s.cl e).drooped used till else s.cl e) ∧
      ∀ e, t.droopUsed.getD e 0 = if e ∈ l then (if used + 32 ≤ 850 then used + 32 else 851) else s.droopUsed.getD e 0 := by
  induction l generalizing s with
  | nil => simp
  | cons d l ih =>
    obtain ⟨hmem, hlen, hulen⟩ := s.droop_keeps (used := used) (till := till) d
    have hcd := hc d List.mem_cons_self
    have hud := hu d List.mem_cons_self
    obtain ⟨hm, hcl, hused⟩ := ih (s.droop used till d) (fun e he => hlen ▸ hc e (List.mem_cons_of_mem d he)) fun e he => hulen ▸ hu e (List.mem_cons_of_mem d he)
    refine ⟨hm.trans hmem, fun e => (hcl e).trans ?_, fun e => (hused e).trans ?_⟩
    · rw [State.droop_cl hcd]
      by_cases hed : e = d
      · by_cases hel : e ∈ l
        · rw [if_pos hel, if_pos hed, if_pos (List.mem_cons_of_mem d hel), Cluster.drooped_drooped]
        · rw [if_neg hel, if_pos hed, if_pos (List.mem_cons.mpr (.inl hed))]
      · simp [hed]
    · rw [State.droop_used hud]
      by_cases hed : e = d
      · simp [hed]
      · simp [hed]

end

/-- What a gang has used of its share, and the latest end of a hold of one of its clusters. -/
def State.mostUsed (s : State) (c : Nat) : Nat := ((s.gangMates c).map fun d => s.droopUsed.getD d 0).foldl Nat.max 0
def State.latestHold (s : State) (c : Nat) : Nat := ((s.gangMates c).map fun d => (s.cl d).throttle).foldl Nat.max 0

theorem execDroopDetect_eq (s : State) (c : BitVec 4) :
    execDroopDetect c s = .next ((s.gangMates c.toNat).foldl (State.droop (s.mostUsed c.toNat) (Nat.max (s.latestHold c.toNat) (s.ct + 32))) s) := rfl

section
variable {s : State} {c e : Nat}

theorem State.used_le_mostUsed (he : e ∈ s.gangMates c) : s.droopUsed.getD e 0 ≤ s.mostUsed c :=
  le_foldl_max (List.mem_map_of_mem (f := fun d => s.droopUsed.getD d 0) he)
theorem State.throttle_le_latestHold (he : e ∈ s.gangMates c) : (s.cl e).throttle ≤ s.latestHold c :=
  le_foldl_max (List.mem_map_of_mem (f := fun d => (s.cl d).throttle) he)
theorem State.mostUsed_is (s : State) (c : Nat) : s.mostUsed c = 0 ∨ ∃ e, e ∈ s.gangMates c ∧ s.mostUsed c = s.droopUsed.getD e 0 := by
  obtain h | h := foldl_max_mem ((s.gangMates c).map fun d => s.droopUsed.getD d 0) 0
  · exact .inl h
  · obtain ⟨e, he, heq⟩ := List.mem_map.mp h
    exact .inr ⟨e, he, heq.symm⟩
theorem State.latestHold_is (s : State) (c : Nat) : s.latestHold c = 0 ∨ ∃ e, e ∈ s.gangMates c ∧ s.latestHold c = (s.cl e).throttle := by
  obtain h | h := foldl_max_mem ((s.gangMates c).map fun d => (s.cl d).throttle) 0
  · exact .inl h
  · obtain ⟨e, he, heq⟩ := List.mem_map.mp h
    exact .inr ⟨e, he, heq.symm⟩

end

theorem droopDetect_spec (s : State) (c : BitVec 4) (hl : s.clusters.length = 16) (hu : s.droopUsed.length = 16) : ∃ t, exec (.droopDetect c) s = .next t ∧ t.mem = s.mem ∧
    (∀ d, d ∉ s.gangMates c.toNat → t.cl d = s.cl d ∧ t.droopUsed.getD d 0 = s.droopUsed.getD d 0) ∧
    ∀ d, d ∈ s.gangMates c.toNat → ∃ u v, (∀ e, e ∈ s.gangMates c.toNat → s.droopUsed.getD e 0 ≤ u ∧ (s.cl e).throttle ≤ v) ∧
      (u = 0 ∨ ∃ e, e ∈ s.gangMates c.toNat ∧ u = s.droopUsed.getD e 0) ∧ (v = s.ct + 32 ∨ ∃ e, e ∈ s.gangMates c.toNat ∧ v = (s.cl e).throttle) ∧
      s.ct + 32 ≤ v ∧
      (u ≤ 818 → t.droopUsed.getD d 0 = u + 32 ∧ t.cl d = { s.cl d with throttle := v }) ∧
      (818 < u → t.droopUsed.getD d 0 = 851 ∧ t.cl d = s.cl d) := by
  have hin (d : Nat) (hd : d ∈ s.gangMates c.toNat) : d < 16 := (State.mem_gangMates.mp hd).1
  obtain ⟨hmem, hcl, hus⟩ := State.droops_spec (used := s.mostUsed c.toNat) (till := Nat.max (s.latestHold c.toNat) (s.ct + 32)) (s.gangMates c.toNat) s
    (fun d hd => hl ▸ hin d hd) fun d hd => hu ▸ hin d hd
  refine ⟨_, (exec_droopDetect c s).trans (execDroopDetect_eq s c), hmem, fun d hd => ⟨(hcl d).trans (if_neg hd), (hus d).trans (if_neg hd)⟩,
    fun d hd => ⟨s.mostUsed c.toNat, Nat.max (s.latestHold c.toNat) (s.ct + 32),
      fun e he => ⟨State.used_le_mostUsed he, Nat.le_trans (State.throttle_le_latestHold he) (Nat.le_max_left _ _)⟩, s.mostUsed_is _, ?_, Nat.le_max_right _ _,
      fun h => ⟨(hus d).trans ((if_pos hd).trans (if_pos (by omega))), (hcl d).trans ((if_pos hd).trans (if_pos (by omega)))⟩,
      fun h => ⟨(hus d).trans ((if_pos hd).trans (if_neg (by omega))), (hcl d).trans ((if_pos hd).trans (if_neg (by omega)))⟩⟩⟩
  obtain hm | hm := Nat.le_total (s.latestHold c.toNat) (s.ct + 32)
  · exact .inl (Nat.max_eq_right hm)
  · obtain h | ⟨e, he, h⟩ := s.latestHold_is c.toNat
    · omega
    · exact .inr ⟨e, he, (Nat.max_eq_left hm).trans h⟩

/-! ### Power windows (R386, R388) -/

/-- One of the grants of a window: a free share of what is left. -/
def allotOne (q : List Nat × Nat × State) : List Nat × Nat × State :=
  let (l, left, s) := q
  let (n, s) := s.freeIn 0 left
  (l ++ [n], left - n, s)

/-- What has been granted and what is left make the whole; only free numbers are used up. -/
theorem allotOne_spec (q : List Nat × Nat × State) : (allotOne q).1.sum + (allotOne q).2.1 = q.1.sum + q.2.1 ∧ ∃ f, (allotOne q).2.2 = { q.2.2 with fresh := f } := by
  obtain ⟨l, left, s⟩ := q
  obtain ⟨-, h⟩ := s.freeIn_range 0 left (Nat.zero_le _)
  refine ⟨?_, _, rfl⟩
  show (l ++ [(s.freeIn 0 left).1]).sum + (left - (s.freeIn 0 left).1) = l.sum + left
  rw [List.sum_append, List.sum_singleton]
  omega
theorem allots_spec (k : List Nat) (q : List Nat × Nat × State) :
    (k.foldl (fun q _ => allotOne q) q).1.sum + (k.foldl (fun q _ => allotOne q) q).2.1 = q.1.sum + q.2.1 ∧
      ∃ f, (k.foldl (fun q _ => allotOne q) q).2.2 = { q.2.2 with fresh := f } := by
  induction k generalizing q with
  | nil => exact ⟨rfl, q.2.2.fresh, rfl⟩
  | cons _ k ih =>
    obtain ⟨hsum, f, hf⟩ := allotOne_spec q
    obtain ⟨hsum', f', hf'⟩ := ih (allotOne q)
    refine ⟨hsum'.trans hsum, f', hf'.trans ?_⟩
    rw [hf]

/-- A grant, halved for a cluster of a die above TWARN (R388). -/
def State.halved (s : State) (p : Nat × Nat) : Nat := if p.2 < 16 ∧ s.twarn.toNat < s.hottest (p.2 / 4) then p.1 / 2 else p.1

/-- The arbiter's grants of a window stay under the cap, and granting them changes nothing else (R386). -/
theorem State.allot_spec (s : State) : ∃ g f, s.allot = { s with grants := g, fresh := f } ∧ g.foldl Nat.add 0 ≤ s.pcap.toNat := by
  obtain ⟨hsum, f, hf⟩ := allots_spec (List.range 32) ([], s.pcap.toNat, s)
  set q := (List.range 32).foldl (fun q _ => allotOne q) ([], s.pcap.toNat, s) with hq
  have hallot : s.allot = { q.2.2 with grants := q.1.zipIdx.map fun (n, i) => if i < 16 ∧ q.2.2.twarn.toNat < q.2.2.hottest (i / 4) then n / 2 else n } := rfl
  rw [hf] at hallot
  refine ⟨q.1.zipIdx.map s.halved, f, hallot, ?_⟩
  have hle : (q.1.zipIdx.map s.halved).sum ≤ (q.1.zipIdx.map Prod.fst).sum := by
    refine List.sum_le_sum fun p _ => ?_
    show (if _ then p.1 / 2 else p.1) ≤ p.1
    split
    · exact Nat.div_le_self _ _
    · exact Nat.le_refl _
  rw [List.zipIdx_map_fst] at hle
  have hfold : (q.1.zipIdx.map s.halved).foldl Nat.add 0 = (q.1.zipIdx.map s.halved).sum := List.sum_eq_foldl.symm
  rw [hfold]
  refine Nat.le_trans hle ?_
  have hwhole : q.1.sum + q.2.1 = s.pcap.toNat := hsum.trans (Nat.zero_add _)
  omega

/-- The cluster before a cluster that runs the same gang; and the longest of the holds of its gang that are under way. -/
def State.mateBefore (s : State) (c : Nat) : Option Nat := (List.range c).find? fun d => (s.cl c).gangOf.isSome && (s.cl d).gangOf == (s.cl c).gangOf
def State.holdLeft (s : State) (c : Nat) : Nat := ((s.gangMates c).map fun d => (s.cl d).throttle - s.ct).foldl Nat.max 0
/-- What a window gives a cluster, the first of its gang or a later one. -/
def State.windowShare (s : State) (c : Nat) : Nat × Nat × State :=
  match s.mateBefore c with
  | some d => ((s.cl d).clock, (s.cl d).throttle - s.ct, s)
  | none =>
    let (clock, hold, s') := s.grant c
    if (s'.cl c).run.isNone && decide (s'.hottest (c / 4) ≤ s'.tcrit.toNat) then (1700, s.holdLeft c, s') else (clock, Nat.max hold (s.holdLeft c), s')
def State.powerStep (s : State) (c : Nat) : State :=
  let (clock, hold, s) := s.windowShare c
  { s with droopUsed := s.droopUsed.set c hold }.onCl c fun k => { k with clock := clock, throttle := s.ct + hold }

theorem execPowerWindow_eq (s : State) : execPowerWindow s = .next ((List.range 16).foldl State.powerStep s.allot) := by
  rfl

section
variable {s t : State} {c d n : Nat}

theorem State.grant_spec (s : State) (c : Nat) : (∃ f, (s.grant c).2.2 = { s with fresh := f }) ∧ (s.grant c).2.1 ≤ 850 ∧
    ((s.gangMates c).any (fun d => decide (s.tcrit.toNat < s.hottest (d / 4))) = true → (s.grant c).2.1 = 850) := by
  obtain ⟨-, h⟩ := s.free.2.freeIn_range 0 850 (Nat.zero_le _)
  unfold State.grant
  dsimp only
  cases hhot : (s.free.2.freeIn 0 850).2.gangMates c |>.any fun d => decide ((s.free.2.freeIn 0 850).2.tcrit.toNat < (s.free.2.freeIn 0 850).2.hottest (d / 4)) with
  | true => exact ⟨⟨_, rfl⟩, Nat.le_refl _, fun _ => rfl⟩
  | false => exact ⟨⟨_, rfl⟩, h, fun h => absurd (hhot.symm.trans h) Bool.false_ne_true⟩

theorem State.windowShare_of_mate (h : s.mateBefore c = some d) : s.windowShare c = ((s.cl d).clock, (s.cl d).throttle - s.ct, s) := by
  rw [State.windowShare, h]

/-- The first of its gang: its hold covers those under way, and no more than 850 cycles beyond them; all 850 on a die that is too hot. -/
theorem State.windowShare_of_first (h : s.mateBefore c = none) :
    (∃ f, (s.windowShare c).2.2 = { s with fresh := f }) ∧ s.holdLeft c ≤ (s.windowShare c).2.1 ∧ (s.windowShare c).2.1 ≤ Nat.max 850 (s.holdLeft c) ∧
      ∀ d, d ∈ s.gangMates c → s.tcrit.toNat < s.hottest (d / 4) → (d = c ∨ (s.cl c).run.isSome = true) → 850 ≤ (s.windowShare c).2.1 := by
  obtain ⟨⟨f, hf⟩, hle, hhot⟩ := s.grant_spec c
  rw [State.windowShare, h]
  dsimp only
  rw [hf]
  by_cases hcool : ((s.cl c).run.isNone && decide (s.hottest (c / 4) ≤ s.tcrit.toNat)) = true
  · have hif : ((({ s with fresh := f } : State).cl c).run.isNone && decide (({ s with fresh := f } : State).hottest (c / 4) ≤ ({ s with fresh := f } : State).tcrit.toNat)) = true := hcool
    rw [if_pos hif]
    refine ⟨⟨f, rfl⟩, Nat.le_refl _, Nat.le_max_right _ _, fun d hd hh hrun => ?_⟩
    simp only [Bool.and_eq_true, decide_eq_true_eq, Option.isNone_iff_eq_none] at hcool
    obtain ⟨hnone, hle⟩ := hcool
    rw [hnone] at hrun
    obtain he | he := hrun
    · rw [he] at hh
      omega
    · exact absurd he Bool.false_ne_true
  · have hif : ¬ ((({ s with fresh := f } : State).cl c).run.isNone && decide (({ s with fresh := f } : State).hottest (c / 4) ≤ ({ s with fresh := f } : State).tcrit.toNat)) = true := hcool
    rw [if_neg hif]
    refine ⟨⟨f, rfl⟩, Nat.le_max_right _ _, ?_, fun d hd hh _ => ?_⟩
    · exact Nat.max_le.mpr ⟨Nat.le_trans hle (Nat.le_max_left _ _), Nat.le_max_right _ _⟩
    · rw [hhot (List.any_eq_true.mpr ⟨d, hd, decide_eq_true hh⟩)]
      exact Nat.le_max_left _ _

/-- What a window leaves as it is: memory, time, grants, limits, and what each cluster runs. -/
structure State.WindowKeeps (s t : State) : Prop where
  mem : t.mem = s.mem
  ct : t.ct = s.ct
  len : t.clusters.length = s.clusters.length
  grants : t.grants = s.grants
  tcrit : t.tcrit = s.tcrit
  sensors : t.sensors = s.sensors
  run : ∀ c, (t.cl c).run = (s.cl c).run

theorem State.WindowKeeps.gangOf (h : s.WindowKeeps t) (c : Nat) : (t.cl c).gangOf = (s.cl c).gangOf := by
  rw [Cluster.gangOf, h.run c, Cluster.gangOf]
theorem State.WindowKeeps.gangMates (h : s.WindowKeeps t) (c : Nat) : t.gangMates c = s.gangMates c := by
  simp only [State.gangMates, h.gangOf]
theorem State.WindowKeeps.hottest (h : s.WindowKeeps t) (d : Nat) : t.hottest d = s.hottest d := by
  rw [State.hottest, h.sensors, State.hottest]

theorem State.mateBefore_some (h : s.mateBefore c = some d) : d < c ∧ (s.cl c).gangOf.isSome = true ∧ (s.cl d).gangOf = (s.cl c).gangOf := by
  obtain ⟨hg, he⟩ := (Bool.and_eq_true _ _).mp (List.find?_some (p := fun d => (s.cl c).gangOf.isSome && (s.cl d).gangOf == (s.cl c).gangOf) h)
  exact ⟨List.mem_range.mp (List.mem_of_find?_eq_some h), hg, beq_iff_eq.mp he⟩
theorem State.mateBefore_none (h : s.mateBefore c = none) (hd : d ∈ s.gangMates c) : c ≤ d := by
  by_contra hlt
  obtain ⟨-, he | ⟨hg, he⟩⟩ := State.mem_gangMates.mp hd
  · omega
  · refine List.find?_eq_none.mp h d (List.mem_range.mpr (by omega)) ?_
    rw [hg, he, beq_self_eq_true]
    rfl
/-- Two clusters of one gang have the same mates. -/
theorem State.gangMates_of_mate (hg : (s.cl c).gangOf.isSome = true) (he : (s.cl d).gangOf = (s.cl c).gangOf) : s.gangMates d = s.gangMates c := by
  refine List.filter_congr fun e _ => ?_
  rw [he, hg, Bool.true_and, Bool.eq_iff_iff]
  simp only [Bool.or_eq_true, beq_iff_eq]
  constructor
  · rintro (h | h)
    · exact .inr (h ▸ he)
    · exact .inr h
  · rintro (h | h)
    · exact .inr (by rw [h])
    · exact .inr h

/-- The clusters below n have their shares of a window, and those from n on are as they were. -/
structure State.Powered (s : State) (n : Nat) (t : State) : Prop where
  keeps : s.WindowKeeps t
  rest : ∀ c, n ≤ c → t.cl c = s.cl c
  after : ∀ c, c < n → s.ct ≤ (t.cl c).throttle
  atMost : ∀ c m, c < n → (∀ d, d ∈ s.gangMates c → (s.cl d).throttle ≤ s.ct + m) → (t.cl c).throttle ≤ s.ct + Nat.max 850 m
  hot : ∀ c d, c < n → d ∈ s.gangMates c → s.tcrit.toNat < s.hottest (d / 4) → s.ct + 850 ≤ (t.cl c).throttle
  covers : ∀ c d, c < n → d ∈ s.gangMates c → (s.cl d).throttle ≤ (t.cl c).throttle
  one : ∀ c d, c < n → d < n → (s.cl c).gangOf.isSome = true → (s.cl c).gangOf = (s.cl d).gangOf →
    (t.cl c).clock = (t.cl d).clock ∧ (t.cl c).throttle = (t.cl d).throttle

theorem State.windowShare_fresh (t : State) (c : Nat) : ∃ f, (t.windowShare c).2.2 = { t with fresh := f } := by
  cases hm : t.mateBefore c with
  | none => exact (State.windowShare_of_first hm).1
  | some d =>
    rw [State.windowShare_of_mate hm]
    exact ⟨t.fresh, rfl⟩

/-- A cluster's share is set at it alone. -/
theorem State.powerStep_eq (t : State) (c : Nat) : ∃ u : State, t.powerStep c = u.onCl c (fun k => { k with clock := (t.windowShare c).1, throttle := t.ct + (t.windowShare c).2.1 }) ∧
    u.clusters = t.clusters ∧ u.mem = t.mem ∧ u.ct = t.ct ∧ u.grants = t.grants ∧ u.tcrit = t.tcrit ∧ u.sensors = t.sensors := by
  obtain ⟨f, hf⟩ := t.windowShare_fresh c
  unfold State.powerStep
  dsimp only
  rw [hf]
  exact ⟨_, rfl, rfl, rfl, rfl, rfl, rfl, rfl⟩
theorem State.powerStep_cl (hc : c < t.clusters.length) (d : Nat) : (t.powerStep c).cl d =
    if d = c then { t.cl d with clock := (t.windowShare c).1, throttle := t.ct + (t.windowShare c).2.1 } else t.cl d := by
  obtain ⟨u, hu, hcl, -⟩ := t.powerStep_eq c
  have hsame (e : Nat) : u.cl e = t.cl e := by rw [State.cl, hcl, State.cl]
  rw [hu]
  split
  · next h =>
    subst h
    rw [State.cl_onCl_same u d _ (hcl ▸ hc), hsame]
  · next h => rw [State.cl_onCl_other u c d _ fun he => h he.symm, hsame]
theorem State.powerStep_keeps (hc : c < t.clusters.length) : t.WindowKeeps (t.powerStep c) := by
  obtain ⟨u, hu, hcl, hmem, hct, hgr, htc, hse⟩ := t.powerStep_eq c
  refine ⟨?_, ?_, ?_, ?_, ?_, ?_, fun d => ?_⟩
  · rw [hu]; exact hmem
  · rw [hu]; exact hct
  · rw [hu, State.onCl_length, hcl]
  · rw [hu]; exact hgr
  · rw [hu]; exact htc
  · rw [hu]; exact hse
  · rw [State.powerStep_cl hc]
    split
    · rfl
    · rfl

variable (h : s.Powered n t)
include h

theorem State.Powered.mateBefore (d : Nat) : t.mateBefore d = s.mateBefore d := by
  simp only [State.mateBefore, h.keeps.gangOf]

/-- A cluster whose gang has its share already takes the same. -/
theorem State.Powered.share_of_mate (hm : t.mateBefore n = some d) :
    d < n ∧ s.gangMates d = s.gangMates n ∧ (t.windowShare n).1 = (t.cl d).clock ∧ s.ct + (t.windowShare n).2.1 = (t.cl d).throttle := by
  obtain ⟨hd, hg, he⟩ := State.mateBefore_some ((h.mateBefore n).symm.trans hm)
  have hafter := h.after d hd
  refine ⟨hd, State.gangMates_of_mate hg he, by rw [State.windowShare_of_mate hm], ?_⟩
  rw [State.windowShare_of_mate hm]
  show s.ct + ((t.cl d).throttle - t.ct) = _
  rw [h.keeps.ct]
  omega
/-- The first of a gang finds the holds of its gang as they were. -/
theorem State.Powered.holdLeft_of_first (hm : t.mateBefore n = none) : t.holdLeft n = s.holdLeft n := by
  have hmap : ((s.gangMates n).map fun d => (t.cl d).throttle - t.ct) = (s.gangMates n).map fun d => (s.cl d).throttle - s.ct := by
    refine List.map_congr_left fun d hd => ?_
    rw [h.rest d (State.mateBefore_none ((h.mateBefore n).symm.trans hm) hd), h.keeps.ct]
  rw [State.holdLeft, h.keeps.gangMates, hmap, State.holdLeft]

theorem State.Powered.share_atMost {m : Nat} (hd : ∀ d, d ∈ s.gangMates n → (s.cl d).throttle ≤ s.ct + m) : s.ct + (t.windowShare n).2.1 ≤ s.ct + Nat.max 850 m := by
  cases hm : t.mateBefore n with
  | some d =>
    obtain ⟨hlt, hmates, -, hthr⟩ := h.share_of_mate hm
    rw [hthr]
    exact h.atMost d m hlt (hmates ▸ hd)
  | none =>
    obtain ⟨-, -, hle, -⟩ := State.windowShare_of_first hm
    rw [h.holdLeft_of_first hm] at hle
    have hleft : s.holdLeft n ≤ m := by
      refine foldl_max_le_iff.mpr ⟨Nat.zero_le _, fun x hx => ?_⟩
      obtain ⟨d, hd', rfl⟩ := List.mem_map.mp hx
      have := hd d hd'
      omega
    have hmax : Nat.max 850 (s.holdLeft n) ≤ Nat.max 850 m := Nat.max_le.mpr ⟨Nat.le_max_left _ _, Nat.le_trans hleft (Nat.le_max_right _ _)⟩
    omega
theorem State.Powered.share_hot (hd : d ∈ s.gangMates n) (hh : s.tcrit.toNat < s.hottest (d / 4)) : s.ct + 850 ≤ s.ct + (t.windowShare n).2.1 := by
  cases hm : t.mateBefore n with
  | some e =>
    obtain ⟨hlt, hmates, -, hthr⟩ := h.share_of_mate hm
    rw [hthr]
    exact h.hot e d hlt (hmates ▸ hd) hh
  | none =>
    obtain ⟨-, -, -, hhot⟩ := State.windowShare_of_first hm
    refine Nat.add_le_add_left (hhot d ?_ ?_ ?_) _
    · rw [h.keeps.gangMates]
      exact hd
    · rw [h.keeps.tcrit, h.keeps.hottest]
      exact hh
    · obtain ⟨-, he | ⟨hg, -⟩⟩ := State.mem_gangMates.mp hd
      · exact .inl he
      · right
        rw [h.keeps.run]
        simpa [Cluster.gangOf] using hg
theorem State.Powered.share_covers (hd : d ∈ s.gangMates n) : (s.cl d).throttle ≤ s.ct + (t.windowShare n).2.1 := by
  cases hm : t.mateBefore n with
  | some e =>
    obtain ⟨hlt, hmates, -, hthr⟩ := h.share_of_mate hm
    rw [hthr]
    exact h.covers e d hlt (hmates ▸ hd)
  | none =>
    obtain ⟨-, hge, -, -⟩ := State.windowShare_of_first hm
    rw [h.holdLeft_of_first hm] at hge
    have hleft : (s.cl d).throttle - s.ct ≤ s.holdLeft n := le_foldl_max (List.mem_map_of_mem (f := fun d => (s.cl d).throttle - s.ct) hd)
    omega
/-- A cluster takes the share of any before it of its gang. -/
theorem State.Powered.share_one (hd : d < n) (hg : (s.cl n).gangOf.isSome = true) (he : (s.cl n).gangOf = (s.cl d).gangOf) (hd16 : d < 16) :
    (t.windowShare n).1 = (t.cl d).clock ∧ s.ct + (t.windowShare n).2.1 = (t.cl d).throttle := by
  cases hm : t.mateBefore n with
  | none =>
    have := State.mateBefore_none ((h.mateBefore n).symm.trans hm) (State.mem_gangMates.mpr ⟨hd16, .inr ⟨hg, he.symm⟩⟩)
    omega
  | some e =>
    obtain ⟨hlt, -, hclock, hthr⟩ := h.share_of_mate hm
    obtain ⟨-, -, heg⟩ := State.mateBefore_some ((h.mateBefore n).symm.trans hm)
    obtain ⟨hc, ht⟩ := h.one e d hlt hd (heg ▸ hg) (heg.trans he)
    exact ⟨hclock.trans hc, hthr.trans ht⟩

theorem State.Powered.next (hn : n < 16) (hl : s.clusters.length = 16) : s.Powered (n + 1) (t.powerStep n) := by
  have hlen : n < t.clusters.length := by rw [h.keeps.len, hl]; exact hn
  have hcl (c : Nat) := State.powerStep_cl hlen c
  have hold (c : Nat) (hc : c < n) : (t.powerStep n).cl c = t.cl c := (hcl c).trans (if_neg (by omega))
  have hnew : (t.powerStep n).cl n = { t.cl n with clock := (t.windowShare n).1, throttle := s.ct + (t.windowShare n).2.1 } := by
    rw [hcl n, if_pos rfl, h.keeps.ct]
  obtain ⟨hmem, hct, hlen', hgr, htc, hse, hrun⟩ := State.powerStep_keeps hlen
  refine ⟨⟨hmem.trans h.keeps.mem, hct.trans h.keeps.ct, hlen'.trans h.keeps.len, hgr.trans h.keeps.grants, htc.trans h.keeps.tcrit, hse.trans h.keeps.sensors,
    fun c => (hrun c).trans (h.keeps.run c)⟩, fun c hc => ?_, fun c hc => ?_, fun c m hc hd => ?_, fun c d hc hd hh => ?_, fun c d hc hd => ?_, fun c d hc hd hg he => ?_⟩
  · rw [hcl c, if_neg (by omega), h.rest c (by omega)]
  · obtain hc | rfl := Nat.lt_succ_iff_lt_or_eq.mp hc
    · rw [hold c hc]
      exact h.after c hc
    · rw [hnew]
      exact Nat.le_add_right _ _
  · obtain hc | rfl := Nat.lt_succ_iff_lt_or_eq.mp hc
    · rw [hold c hc]
      exact h.atMost c m hc hd
    · rw [hnew]
      exact h.share_atMost hd
  · obtain hc | rfl := Nat.lt_succ_iff_lt_or_eq.mp hc
    · rw [hold c hc]
      exact h.hot c d hc hd hh
    · rw [hnew]
      exact h.share_hot hd hh
  · obtain hc | rfl := Nat.lt_succ_iff_lt_or_eq.mp hc
    · rw [hold c hc]
      exact h.covers c d hc hd
    · rw [hnew]
      exact h.share_covers hd
  · obtain hc | rfl := Nat.lt_succ_iff_lt_or_eq.mp hc
    · obtain hd | rfl := Nat.lt_succ_iff_lt_or_eq.mp hd
      · rw [hold c hc, hold d hd]
        exact h.one c d hc hd hg he
      · obtain ⟨h1, h2⟩ := h.share_one hc (he ▸ hg) he.symm (by omega)
        rw [hold c hc, hnew]
        exact ⟨h1.symm, h2.symm⟩
    · obtain hd | rfl := Nat.lt_succ_iff_lt_or_eq.mp hd
      · rw [hold d hd, hnew]
        exact h.share_one hd hg he (by omega)
      · exact ⟨rfl, rfl⟩

end

theorem State.powered_all {s t : State} (hk : s.Powered 0 t) (hl : s.clusters.length = 16) (n : Nat) (hn : n ≤ 16) :
    s.Powered n ((List.range n).foldl State.powerStep t) := by
  induction n with
  | zero => exact hk
  | succ n ih =>
    rw [List.range_succ, List.foldl_append]
    exact (ih (by omega)).next (by omega) hl

theorem powerWindow_spec (s : State) (hl : s.clusters.length = 16) : ∃ t, exec .powerWindow s = .next t ∧ t.mem = s.mem ∧ t.clusters.length = 16 ∧
    t.grants.foldl Nat.add 0 ≤ s.pcap.toNat ∧
    (∀ c n, c < 16 → (∀ d, d ∈ s.gangMates c → (s.cl d).throttle ≤ s.ct + n) → (t.cl c).throttle ≤ s.ct + Nat.max 850 n) ∧
    (∀ c, c < 16 → (s.tcrit.toNat < s.hottest (c / 4) → s.ct + 850 ≤ (t.cl c).throttle) ∧ ∀ d, d ∈ s.gangMates c → (s.cl d).throttle ≤ (t.cl c).throttle) ∧
    ∀ c d, c < 16 → d < 16 → (s.cl c).gangOf.isSome = true → (s.cl c).gangOf = (s.cl d).gangOf →
      (t.cl c).clock = (t.cl d).clock ∧ (t.cl c).throttle = (t.cl d).throttle := by
  obtain ⟨g, f, hallot, hg⟩ := s.allot_spec
  have hzero : ({ s with grants := g } : State).Powered 0 s.allot := by
    rw [hallot]
    exact ⟨⟨rfl, rfl, rfl, rfl, rfl, rfl, fun _ => rfl⟩, fun _ _ => rfl, fun _ h => absurd h (Nat.not_lt_zero _), fun _ _ h => absurd h (Nat.not_lt_zero _),
      fun _ _ h => absurd h (Nat.not_lt_zero _), fun _ _ h => absurd h (Nat.not_lt_zero _), fun _ _ h => absurd h (Nat.not_lt_zero _)⟩
  have h := State.powered_all hzero hl 16 (Nat.le_refl _)
  refine ⟨_, (exec_powerWindow s).trans (execPowerWindow_eq s), h.keeps.mem, h.keeps.len.trans hl, ?_, h.atMost, fun c hc => ⟨h.hot c c hc ?_, fun d => h.covers c d hc⟩, h.one⟩
  · rw [h.keeps.grants]
    exact hg
  · exact State.mem_gangMates.mpr ⟨hc, .inl rfl⟩

/-! ### Scrubbing (R360, R362) -/

section
variable {s : State}

/-- An error that is found leaves the bytes of memory, here and at peers, and the count of errors. -/
def State.SameBytes (s t : State) : Prop := t.mem = s.mem ∧ t.outer = s.outer ∧ t.clusters.length = s.clusters.length ∧ t.errCount = s.errCount

theorem State.sameBytes_onCl (s : State) (c : Nat) (f : Cluster → Cluster) : s.SameBytes (s.onCl c f) := ⟨rfl, rfl, s.onCl_length c f, rfl⟩
theorem State.sameBytes_poison (s : State) (c : Nat) (f : Cluster → Cluster) (p : SMap Bool) : s.SameBytes { s.onCl c f with poison := p } :=
  ⟨rfl, rfl, s.onCl_length c f, rfl⟩
theorem State.sameBytes_spoilPeer (s : State) (l : Option PeerLine) : s.SameBytes (s.spoilPeer l) := by
  unfold State.spoilPeer
  split
  · split
    · exact ⟨rfl, rfl, rfl, rfl⟩
    · exact ⟨rfl, rfl, rfl, rfl⟩
  · exact ⟨rfl, rfl, rfl, rfl⟩
theorem State.sameBytes_trans {t u : State} (h : s.SameBytes t) (h' : t.SameBytes u) : s.SameBytes u := by
  obtain ⟨h1, h2, h3, h4⟩ := h
  obtain ⟨h1', h2', h3', h4'⟩ := h'
  exact ⟨h1'.trans h1, h2'.trans h2, h3'.trans h3, h4'.trans h4⟩

theorem State.sameBytes_storeError (s : State) (kind a b : Nat) : s.SameBytes (s.storeError kind a b) := by
  unfold State.storeError
  dsimp only
  split
  · exact ⟨rfl, rfl, rfl, rfl⟩
  · exact ⟨rfl, rfl, rfl, rfl⟩
  · exact s.sameBytes_onCl _ _
  · exact s.sameBytes_onCl _ _
  · exact s.sameBytes_onCl _ _
  · exact ⟨rfl, rfl, rfl, rfl⟩
  · exact State.sameBytes_trans (s.sameBytes_spoilPeer _) (State.sameBytes_onCl _ _ _)
  · exact State.sameBytes_trans (s.sameBytes_spoilPeer _) ⟨rfl, rfl, rfl, rfl⟩
  · split
    · exact s.sameBytes_poison _ _ _
    · exact ⟨rfl, rfl, rfl, rfl⟩
  · exact ⟨rfl, rfl, rfl, rfl⟩
  · exact ⟨rfl, rfl, rfl, rfl⟩
  · exact s.sameBytes_onCl _ _
  · exact s.sameBytes_onCl _ _

/-- The state with the error that the scrubber finds, if any. -/
def State.scrub (s : State) (r a b : Nat) : State := if r % 2 = 1 then s.storeError (r / 2 % 13) a b else s
theorem State.sameBytes_scrub (s : State) (r a b : Nat) : s.SameBytes (s.scrub r a b) := by
  unfold State.scrub
  split
  · exact s.sameBytes_storeError _ _ _
  · exact ⟨rfl, rfl, rfl, rfl⟩
def State.scrubbed (s : State) : State := s.free.2.free.2.free.2.scrub s.free.1 s.free.2.free.1 s.free.2.free.2.free.1
theorem State.sameBytes_scrubbed (s : State) : s.SameBytes s.scrubbed := s.free.2.free.2.free.2.sameBytes_scrub _ _ _

theorem execPatrolScrub_eq (s : State) : execPatrolScrub s =
    .next { s.scrubbed with outbox := s.scrubbed.outbox ++ s.scrubbed.badWords, errCount := s.scrubbed.errCount + s.scrubbed.badWords.length } := rfl

theorem patrolScrub_spec (s : State) : ∃ t, exec .patrolScrub s = .next t ∧ t.mem = s.mem ∧ t.outer = s.outer ∧ t.clusters.length = s.clusters.length ∧
    s.errCount ≤ t.errCount := by
  rw [exec_patrolScrub, execPatrolScrub_eq]
  obtain ⟨hmem, houter, hlen, herr⟩ := s.sameBytes_scrubbed
  exact ⟨_, rfl, hmem, houter, hlen, Nat.le_trans (Nat.le_of_eq herr.symm) (Nat.le_add_right _ _)⟩

end

theorem platformLimits : Claims.PlatformLimits := by
  intro s w thr sec a b c l
  refine ⟨fun hp h4 => ?_, fun h1 h2 h3 => congrArg Host.Outcome.next (if_pos ⟨h1, h2, h3⟩), fun h1 h2 h3 h4 => congrArg Host.Outcome.next (if_pos ⟨h1, h2, h3, h4⟩),
    droopDetect_spec s c, powerWindow_spec s, patrolScrub_spec s, rfl, rfl⟩
  refine ((exec_pcapWrite w s).trans (State.viaHost_open hp _)).trans ?_
  by_cases h : 2600 < w.toNat
  · rw [if_pos h, if_pos h]
  · rw [if_neg h, if_neg (by omega), if_neg h]

/-! ### Resets (R391) -/

section
variable {s : State}

/-- A state after boot: what is kept, and that nothing of the device's own is left. -/
structure State.Booted (s t : State) : Prop where
  mem : t.mem = s.mem
  wtag : t.wtag = s.wtag
  poison : t.poison = s.poison
  outer : t.outer = s.outer
  spare : t.spare = s.spare
  errLog : t.errLog = s.errLog
  svcHot : t.svcHot = s.svcHot
  ct : t.ct = 0
  tasks : t.tasks = []
  agenda : t.agenda = []
  inputs : ∀ e, e ∈ t.inputs → ownWork e.2 = false
  run : ∀ c, (t.cl c).run = none

/-- A cluster list made of fresh clusters runs nothing. -/
theorem bootClusters_run (f : Cluster × Nat → Cluster) (hf : ∀ p, (f p).run = p.1.run) (c : Nat) :
    (((List.replicate 16 Cluster.reset).zipIdx.map f).getD c Cluster.reset).run = none := by
  rw [List.getD, List.getElem?_map, List.getElem?_zipIdx, List.getElem?_replicate]
  split
  · exact hf _
  · rfl

/-- A cluster as boot leaves it: in service or not, with the rows that its cores retire. -/
def bootCluster (serves : Nat → Bool) (spare : SMap (BitVec 32)) (p : Cluster × Nat) : Cluster :=
  { p.1 with inService := serves p.2, cores := p.1.cores.zipIdx.map fun (x, i) => { x with retired := spareRows (sget 0#32 (256 * p.2 + i) spare) } }

theorem State.boot_spec (s : State) : s.Booted s.boot := by
  have hinputs (e : Nat × Instr) (he : e ∈ s.train.inputs.filter fun (_, i) => !ownWork i) : ownWork e.2 = false := by
    simpa using (List.mem_filter.mp he).2
  unfold State.boot
  dsimp only
  split
  · exact ⟨rfl, rfl, rfl, rfl, rfl, rfl, rfl, rfl, rfl, rfl, hinputs, fun c => bootClusters_run (bootCluster _ _) (fun _ => rfl) c⟩
  · exact ⟨rfl, rfl, rfl, rfl, rfl, rfl, rfl, rfl, rfl, rfl, hinputs, fun c => bootClusters_run (bootCluster _ _) (fun _ => rfl) c⟩

end

theorem resets : Claims.Resets := by
  intro s
  have hcold := ({ s with mem := [], wtag := [], poison := [] } : State).boot_spec
  refine ⟨⟨_, rfl, s.boot_spec.mem, s.boot_spec.poison, s.boot_spec.spare, s.boot_spec.errLog, s.boot_spec.ct, s.boot_spec.tasks, s.boot_spec.agenda, s.boot_spec.inputs,
    fun c _ => s.boot_spec.run c⟩, ⟨_, rfl, hcold.mem, hcold.wtag, hcold.poison, hcold.spare, hcold.ct, hcold.tasks, fun c _ => hcold.run c⟩, ?_⟩
  have hkeep : s.sampleMonitors.mem = s.mem ∧ s.sampleMonitors.ct = s.ct ∧ s.sampleMonitors.outer = s.outer ∧ s.sampleMonitors.svcHot = s.svcHot := ⟨rfl, rfl, rfl, rfl⟩
  rw [exec_monitorSample]
  unfold execMonitorSample
  dsimp only
  generalize s.sampleMonitors = u at hkeep
  obtain ⟨hmem, hct, houter, hhot⟩ := hkeep
  cases hany : u.sensors.any fun x => decide (125 < x) with
  | false => exact ⟨u, if_neg Bool.false_ne_true, houter, fun _ => ⟨rfl, hmem, hct⟩, fun h => absurd h Bool.false_ne_true⟩
  | true =>
    have hhot' : ∀ v : State, v.svcHot = u.svcHot + 1 → v.outer = u.outer → v.boot.outer = s.outer ∧ v.boot.svcHot = s.svcHot + 1 ∧ v.boot.ct = 0 ∧ v.boot.tasks = [] := by
      intro v hv ho
      exact ⟨(v.boot_spec.outer.trans ho).trans houter, (v.boot_spec.svcHot.trans hv).trans (by rw [hhot]), v.boot_spec.ct, v.boot_spec.tasks⟩
    obtain ⟨h1, h1'⟩ := hhot' { u.free.2 with svcHot := u.svcHot + 1 } rfl rfl
    obtain ⟨h2, h2'⟩ := hhot' { u.free.2 with svcHot := u.svcHot + 1, mem := [], wtag := [], poison := [] } rfl rfl
    refine ⟨_, if_pos rfl, ?_, fun h => absurd h.symm Bool.false_ne_true, fun _ => ?_⟩
    · split
      · exact h1
      · exact h2
    · split
      · exact h1'
      · exact h2'

/-- Settles O45. -/
theorem platformAndResets : Obligations.PlatformAndResets := ⟨platformLimits, resets⟩

end Sys2Proof.Machine
end

section
/-!
PROOFS. A step at a sequencer's turn: the bundle that passes every check runs its slots, and PC goes on.
-/
namespace Sys2Proof.Machine

/-! ### The turn reaches the bundle -/

section
variable {s : State} {c len fuel : Nat} {b : Slots}

/-- The bundle at PC, its line in the window and no trap due, is tried. -/
theorem State.atPc_of_fetches (h : (s.cl c).fetches1 len b) (hdue : s.dueTrap c = none) : s.atPc c (fuel + 1) = s.tryBundle c b len := by
  obtain ⟨line, w, hwin, hdec⟩ := h
  simp only [State.atPc, hwin, hdec, hdue]

/-- A bundle that passes every check and need not wait issues. -/
theorem State.tryBundle_of_clear (h : s.clear c b) : s.tryBundle c b len = s.issueBundle c (legal b) len := by
  obtain ⟨hcheck, hpoint, htag, hqueue, hfull⟩ := h
  have hpend : (if (legal b).any (fun x => deliveryPoint x.2) = true then firstPend (s.cl c).pend else none) = none := by
    obtain h | h := hpoint
    · rw [h]
      rfl
    · rw [h, ite_self]
  unfold State.tryBundle
  rw [hcheck]
  dsimp only
  rw [hpend]
  dsimp only
  rw [htag]
  dsimp only
  rw [hqueue, hfull]
  rfl

end

/-! ### The slots run -/

section
variable {s t : State} {c : Nat} {l : List (Slot × Instr)} {p : Slot} {i : Instr}

/-- Where no word has an uncorrectable error, the slots run one after another (R360). -/
theorem runBundle_of_whole (h : (s.cl c).whole) : runBundle c l s = l.foldl (fun q x => andThen q fun t => exec x.2 (t.at' x.1)) (.next s) := by
  obtain ⟨hhurt, hcores⟩ := h
  have hcond : ((s.cl c).hurt.isEmpty && (s.cl c).cores.all (·.hurt.isEmpty)) = true := by
    rw [hhurt]
    exact List.all_eq_true.mpr fun x hx => by rw [hcores x hx]; rfl
  exact if_pos hcond

/-- An instruction that uses such a word of the sequencer leaves its result unwritten (R360). -/
theorem runBundle_of_seqHurt (h : (s.cl c).seqHurt i = true) : runBundle c [(p, i)] s =
    .next (s.onCl c fun q => q.wordTrap p i ((s.cl c).activeIdx.filter ((s.cl c).coreHurt i)).head?) := by
  have hhurt : (s.cl c).hurt.isEmpty = false := by
    have := ((Bool.and_eq_true _ _).mp h).1
    simpa using this
  have hcond : ¬ ((s.cl c).hurt.isEmpty && (s.cl c).cores.all (·.hurt.isEmpty)) = true := by
    rw [hhurt]
    exact Bool.false_ne_true
  refine (if_neg hcond).trans ?_
  show (if ((s.cl c).activeIdx.filter ((s.cl c).coreHurt i)).isEmpty && !(s.cl c).seqHurt i then _ else if (s.cl c).seqHurt i || p = .s || p = .x then _ else _) = _
  rw [h]
  simp

/-- A cluster that has left its bundle by itself: a step of the debugger is over. -/
def Cluster.leave (k : Cluster) : Cluster := { k with dbg := if k.dbg == .step then .stepped else k.dbg }
/-- What becomes of PC after a bundle's slots: nothing after a TRAP taken or a return, and after RFT that waits; else it goes on (R131, R153). -/
def Cluster.afterSlots (k : Cluster) (l : List (Slot × Instr)) (before : Option (BitVec 57 × Nat)) : Cluster :=
  if l.any (fun x => match x.2 with | .trap _ => true | _ => false) && k.soft.isNone then k.leave
  else if l.any (fun x => x.2 == .rft) then if k.rft then { k with issued := true } else k.leave
  else k.goOn before

/-- The slots run, and PC goes on from where they leave it. -/
theorem State.issueBundle_eq (s : State) (c : Nat) (l : List (Slot × Instr)) (len : Nat) : s.issueBundle c l len =
    andThen (runBundle c (slotOrder l) ((s.onCl c fun k => { k.reservePorts l with next := k.pc + BitVec.ofNat 57 len }).linkNow c (s.cl c).delay))
      fun t => .next (t.onCl c fun k => k.afterSlots l (s.cl c).delay) := by
  unfold State.issueBundle
  dsimp only
  refine congrArg (andThen _) (funext fun t => congrArg Host.Outcome.next ?_)
  have hon (a : Bool) (f g : Cluster → Cluster) : (if a = true then t.onCl c f else t.onCl c g) = t.onCl c fun k => if a = true then f k else g k := by
    cases a
    · rfl
    · rfl
  show (if (l.any _ && (t.cl c).soft.isNone) = true then _ else if l.any _ = true then (if (t.cl c).rft = true then _ else _) else _) = _
  rw [hon, hon, hon]
  rfl

/-- A link value that is not awaited is left alone. -/
theorem State.linkNow_of_none {before : Option (BitVec 57 × Nat)} (h : (s.cl c).linkPend = none) : s.linkNow c before = s := by
  unfold State.linkNow
  split
  · next hp => exact absurd (h.symm.trans hp) (Option.some_ne_none _).symm
  · rfl

end

/-! ### The step -/

section
variable {s : State} {c len : Nat} {b : Slots} {r : List Turn}

/-- The step at a turn whose bundle may issue: its slots run, and PC goes on. -/
theorem step_of_bundle (hc : c < 16) (ha : s.agenda = .issue c :: r) :
    let s0 : State := { s with agenda := r, cur := ⟨c, .s, s.cur.bz⟩ }
    let s1 := s0.onCl c Cluster.trimWin
    let s2 := (s1.onCl c fun k => { k.reservePorts (legal b) with next := k.pc + BitVec.ofNat 57 len }).linkNow c (s1.cl c).delay
    s0.mayIssue c → (s1.cl c).fetches1 len b → s1.clear c b →
    step s = andThen (runBundle c (slotOrder (legal b)) s2) fun t => .next (t.onCl c fun k => k.afterSlots (legal b) (s1.cl c).delay) := by
  intro s0 s1 s2 hmay hfetch hclear
  calc step s = State.issueTurn { s with agenda := r } c := step_issue hc ha
    _ = s1.atPc c 512 := State.issueTurn_of_mayIssue hmay
    _ = s1.tryBundle c b len := State.atPc_of_fetches hfetch hmay.dueTrap_trimWin
    _ = s1.issueBundle c (legal b) len := State.tryBundle_of_clear hclear
    _ = _ := State.issueBundle_eq s1 c (legal b) len

end

/-- Settles O5: the turn reaches the bundle, which passes its checks and issues. -/
theorem stepRunsBundle : Obligations.StepRunsBundle := by
  intro s c len b r hc ha s0 s1 s2 after hmay hfetch hclear
  have hstep : step s = andThen (runBundle c (slotOrder (legal b)) s2) after := step_of_bundle hc ha hmay hfetch hclear
  refine ⟨hstep, fun hwhole => ?_, fun hlink => State.linkNow_of_none ?_⟩
  · rw [hstep, runBundle_of_whole hwhole]
  · have hlen : c < s1.clusters.length := by
      rw [State.onCl_length]
      exact State.lt_length_of_run hmay.1
    rw [State.cl_onCl_same _ _ _ hlen]
    exact hlink

/-! ### A bundle of one slot -/

section
variable {k : Cluster} {p : Slot} {i : Instr} {before : Option (BitVec 57 × Nat)}

theorem Cluster.afterSlots_any : k.afterSlots [(p, i)] before =
    if (match i with | .trap _ => true | _ => false) && k.soft.isNone then k.leave
    else if i == .rft then if k.rft then { k with issued := true } else k.leave
    else k.goOn before := by
  have hany (f : Instr → Bool) : ([(p, i)].any fun x => f x.2) = f i := Bool.or_false _
  unfold Cluster.afterSlots
  rw [hany fun i => match i with | .trap _ => true | _ => false, hany fun i => i == .rft]

theorem Cluster.afterSlots_trap (n : BitVec 16) : k.afterSlots [(p, .trap n)] before = if k.soft.isNone then k.leave else k.goOn before := by
  rw [Cluster.afterSlots_any, beq_eq_false_iff_ne.mpr Instr.noConfusion]
  rfl
theorem Cluster.afterSlots_rft : k.afterSlots [(p, .rft)] before = if k.rft then { k with issued := true } else k.leave := by
  rw [Cluster.afterSlots_any]
  exact (if_neg Bool.false_ne_true).trans (if_pos (beq_self_eq_true _))
/-- After any other instruction PC goes on. -/
theorem Cluster.afterSlots_other (htrap : ∀ n, i ≠ .trap n) (hrft : i ≠ .rft) : k.afterSlots [(p, i)] before = k.goOn before := by
  rw [Cluster.afterSlots_any, beq_eq_false_iff_ne.mpr hrft]
  split
  · next n => exact absurd rfl (htrap n)
  · rfl

/-- PC after one slot, by its instruction. -/
theorem Cluster.afterSlots_one : k.afterSlots [(p, i)] before =
    match i with
    | .trap _ => if k.soft.isNone then k.leave else k.goOn before
    | .rft => if k.rft then { k with issued := true } else k.leave
    | _ => k.goOn before := by
  cases i with
  | trap n => exact Cluster.afterSlots_trap n
  | rft => exact Cluster.afterSlots_rft
  | _ => exact Cluster.afterSlots_other (fun _ => Instr.noConfusion) Instr.noConfusion

theorem Cluster.seqHurt_trap (k : Cluster) (n : BitVec 16) : k.seqHurt (.trap n) = false := Bool.and_false _
theorem Cluster.seqHurt_rft (k : Cluster) : k.seqHurt .rft = false := Bool.and_false _

end

theorem slotOrder_one (p : Slot) (i : Instr) : slotOrder [(p, i)] = [(p, i)] := by
  cases p with
  | s => rfl
  | _ => rfl

/-- Settles O6. -/
theorem stepRunsOneSlot : Obligations.StepRunsOneSlot := by
  intro s c len p i r hc ha s0 s1 s2 hmay hfetch hclear
  have hstep : step s = andThen (runBundle c [(p, i)] s2) fun t => .next (t.onCl c fun k => k.afterSlots [(p, i)] (s1.cl c).delay) := by
    have h := step_of_bundle hc ha hmay hfetch hclear
    rw [show legal [(p, Except.ok i)] = [(p, i)] from rfl, slotOrder_one] at h
    exact h
  refine ⟨fun hwhole t ht => ?_, fun hhurt => ?_⟩
  · rw [hstep, runBundle_of_whole hwhole]
    show andThen (exec i (s2.at' p)) _ = _
    rw [ht]
    refine congrArg Host.Outcome.next (State.onCl_congr ?_)
    exact Cluster.afterSlots_one
  · have hgo (k : Cluster) : k.afterSlots [(p, i)] (s1.cl c).delay = k.goOn (s1.cl c).delay := by
      refine Cluster.afterSlots_other (fun n h => ?_) fun h => ?_
      · subst h
        exact absurd ((Cluster.seqHurt_trap _ _).symm.trans hhurt) Bool.false_ne_true
      · subst h
        exact absurd ((Cluster.seqHurt_rft _).symm.trans hhurt) Bool.false_ne_true
    rw [hstep]
    clear_value s2 s1
    rw [runBundle_of_seqHurt hhurt]
    simp only [andThen, hgo]

end Sys2Proof.Machine
end

section
/-!
PROOFS. The other holds, and the limits of holds and slips.
-/
namespace Sys2Proof.Machine

/-! ### Holds that other events end -/

section
variable {s : State} {c : BitVec 4} {h : Hold}

theorem execAmaxfComplete_one {sd : BitVec 5} {tm : BitVec 4} (hh : (s.cl c.toNat).holds = [h]) (hk : h.kind = .amaxf sd tm) :
    execAmaxfComplete c s = .next (if (s.cl c.toNat).drainOn tm then s else
      (s.dropHold c.toNat h).onCl c.toNat fun k => k.sWrite sd (k.tmField tm 41) 1) := by
  unfold execAmaxfComplete
  simp only [hh, List.foldl_cons, List.foldl_nil, hk]

/-- The only line under way, once due, leaves no fetch. -/
theorem execCodeFetchArrival_one {l f : Nat} (hf : (s.cl c.toNat).fetches = [(l, f)]) (hd : f ≤ s.ct) :
    execCodeFetchArrival c s = .next (((s.onCl c.toNat fun k => { k with fetches := [] }).lineIn c.toNat l).onCl c.toNat fun k =>
      { k with holds := k.holds.filter fun h => match h.kind with | .lateFetch m => !(m == l) | _ => true }) := by
  have hnone : (s.onCl c.toNat fun k => { k with fetches := k.fetches.filter fun (_, t) => !decide (t ≤ s.ct) }) =
      s.onCl c.toNat fun k => { k with fetches := [] } := by
    refine State.onCl_congr ?_
    rw [hf]
    simp [hd]
  have hkeep : (fun h : Hold => match h.kind with | .lateFetch m => !([(l, f)].any fun (a, _) => a == m) | _ => true) =
      fun h => match h.kind with | .lateFetch m => !(m == l) | _ => true := by
    funext h
    cases h.kind with
    | lateFetch m =>
      show (!(l == m || false)) = !(m == l)
      rw [Bool.or_false, BEq.comm]
    | _ => rfl
  have hdue : ((s.cl c.toNat).fetches.filter fun (_, t) => decide (t ≤ s.ct)) = [(l, f)] := by simp [hf, hd]
  unfold execCodeFetchArrival
  simp only [hdue, hnone, List.foldl_cons, List.foldl_nil]
  rw [← hkeep] <;> rfl

/-- A cluster whose waiting accesses are to be reissued. -/
def Cluster.repaired (ct : Nat) (k : Cluster) : Cluster :=
  { k with
    holds := k.holds.map fun h => if h.replay then { h with replay := false, due := ct + 1 } else h
    active := k.active.map fun a => { a with replay := false }
    fetchFault := [] }
/-- A bundle that waits for a line has it fetched again. -/
def State.refetch (c : Nat) (s : State) (h : Hold) : State :=
  match h.kind with
  | .lateFetch l => s.free.2.onCl c fun k => { k with fetches := (k.fetches.filter fun (m, _) => m != l) ++ [(l, s.ct + 1 + s.free.1)] }
  | _ => s
theorem execTranslationReplay_eq : execTranslationReplay c s = .next (((s.onCl c.toNat (Cluster.repaired s.ct)).cl c.toNat).holds.foldl
    (State.refetch c.toNat) (s.onCl c.toNat (Cluster.repaired s.ct))) := rfl
theorem State.refetch_far {k : FarKind} {ps : List FarPart} (c : Nat) (s : State) (hk : h.kind = .far k ps) : s.refetch c h = s := by
  simp only [State.refetch, hk]

/-- An access that waits for a repair is due again in the next cycle. -/
theorem execTranslationReplay_far {k : FarKind} {ps : List FarPart} (hh : (s.cl c.toNat).holds = [h]) (hk : h.kind = .far k ps) (hr : h.replay = true)
    (hc : c.toNat < s.clusters.length) :
    ∃ t, execTranslationReplay c s = .next t ∧ (t.cl c.toNat).holds = [{ h with replay := false, due := s.ct + 1 }] := by
  have hmap : ((s.onCl c.toNat (Cluster.repaired s.ct)).cl c.toNat).holds = [{ h with replay := false, due := s.ct + 1 }] := by
    rw [State.cl_onCl_same _ _ _ hc]
    simp [Cluster.repaired, hh, hr]
  rw [execTranslationReplay_eq, hmap, List.foldl_cons, List.foldl_nil, State.refetch_far (h := { h with replay := false, due := s.ct + 1 }) _ _ hk]
  exact ⟨_, rfl, hmap⟩

end

theorem otherHoldsEnd : Claims.OtherHoldsEnd := by
  intro s c h sd tm l f
  refine ⟨fun ht => ?_, fun ht => ?_, fun hh hk => ?_, rfl, execCodeFetchArrival_one, fun hh ⟨k, ps, hk⟩ hr hc => execTranslationReplay_far hh hk hr hc⟩
  · exact congrArg Host.Outcome.next (if_pos ht)
  · exact congrArg Host.Outcome.next (if_neg (Bool.eq_false_iff.mp ht))
  · rw [exec_amaxfComplete, execAmaxfComplete_one hh hk]
    exact ⟨fun hd => congrArg Host.Outcome.next (if_neg (Bool.eq_false_iff.mp hd)), fun hd => congrArg Host.Outcome.next (if_pos hd)⟩

/-! ### Limits -/

section
variable {s : State} {c : BitVec 4} {h : Hold}

theorem execHoldTimeout_one (hh : (s.cl c.toNat).holds = [h]) :
    execHoldTimeout c s = .next (if s.ct - h.start ≤ (s.cl c.toNat).holdmax then s
      else if preIssue h.kind then (s.dropHold c.toNat h).issueTrap c.toNat (schedTrap 1#16 h.slot)
      else (s.abandon c.toNat h).holdFails c.toNat h (schedTrap 1#16 h.slot)) := by
  unfold execHoldTimeout
  simp [hh]

end

theorem limitsOfHolds : Claims.LimitsOfHolds := by
  intro s c h t b k
  refine ⟨fun hh => ?_, fun hs => ?_, fun hb ht => ?_⟩
  · rw [exec_holdTimeout, execHoldTimeout_one hh]
    refine ⟨fun hm => congrArg Host.Outcome.next (if_pos hm), fun hm hp => ?_, fun hm hp => ?_⟩
    · exact congrArg Host.Outcome.next ((if_neg (Nat.not_le.mpr hm)).trans (if_pos hp))
    · exact congrArg Host.Outcome.next ((if_neg (Nat.not_le.mpr hm)).trans (if_neg (Bool.eq_false_iff.mp hp)))
  · have hx : execSlipLimit c s = .next (if s.ct - t ≤ k.slipmax.toNat then s else
        (s.onCl c.toNat fun k => { k with slip := none }).issueTrap c.toNat (schedTrap 0#16 .l)) := by
      unfold execSlipLimit
      simp only [show (s.cl c.toNat).slip = some t from hs]
      rfl
    rw [exec_slipLimit, hx]
    exact ⟨fun hm => congrArg Host.Outcome.next (if_pos hm), fun hm => congrArg Host.Outcome.next (if_neg (Nat.not_le.mpr hm))⟩
  · refine congrArg Host.Outcome.next (State.onCl_congr ?_)
    simp only [show (s.cl c.toNat).bundleNow = some b from hb]
    exact if_neg ht

/-- Settles O38: with one hold, slip or line under way each event is its one step, and each limit its comparison. -/
theorem otherHoldsAndLimits : Obligations.OtherHoldsAndLimits := ⟨otherHoldsEnd, limitsOfHolds⟩

end Sys2Proof.Machine
end

section
/-!
PROOFS. The ends of holds: far accesses, LNCH, PWAIT and BWAIT.
-/
namespace Sys2Proof.Machine

/-! ### Accesses of device memory that nothing stands in the way of -/

section
variable {s : State} {c va p : Nat} {acc : Acc}

/-- An access the TLB serves is translated to its byte of device memory, and nothing changes (R304, R307). -/
theorem State.translate_of_seesAt (h : s.seesAt c va acc p) : s.translate (some c) (s.cl c).ctx (s.cl c).desc va acc = (.ok (.hbm p), s) := by
  obtain ⟨hd, ⟨e, bits, ht, hl, hp⟩, -⟩ := h
  unfold State.translate
  rw [hd, ht]
  simp only [State.leafTarget, hl, hp]
  rfl
theorem State.xlateN_of_seesAt (h : s.seesAt c va acc p) (n : Nat) (core : Option (BitVec 8)) : s.xlateN c va n acc core = (.ok (.hbm p), s) := by
  obtain ⟨-, -, hr⟩ := id h
  unfold State.xlateN
  simp [State.translate_of_seesAt h, hr, State.portLost]
theorem State.windowBusy_of_seesAt (h : s.seesAt c va acc p) (n : Nat) : s.windowBusy c va n acc = false := by
  unfold State.windowBusy
  rw [State.translate_of_seesAt h]

/-- Only bytes of device memory, with their tags and poison, have changed. -/
def State.bytesOnly (s t : State) : Prop := t = { s with mem := t.mem, wtag := t.wtag, poison := t.poison }
theorem State.bytesOnly.refl (s : State) : s.bytesOnly s := rfl
theorem State.bytesOnly.trans {s t u : State} (h : s.bytesOnly t) (h' : t.bytesOnly u) : s.bytesOnly u := by
  unfold State.bytesOnly at h h' ⊢
  refine h'.trans ?_
  rw [h]
theorem State.bytesOnly.clusters {s t : State} (h : s.bytesOnly t) : t.clusters = s.clusters := by rw [h]
theorem State.bytesOnly.bz {s t : State} (h : s.bytesOnly t) : t.bz = s.bz := by rw [h]

theorem State.copyRange_bytesOnly (s : State) (src dst n : Nat) : s.bytesOnly (s.copyRange src dst n) :=
  List.foldlRecOn (motive := s.bytesOnly) _ _ rfl fun _ ht _ _ => ht.trans rfl
theorem State.setMapBit_bytesOnly (s : State) (base i : Nat) (v : Bool) : s.bytesOnly (s.setMapBit base i v) := rfl
/-- A page copy of a write changes nothing else (R370). -/
theorem State.writeAddr_bytesOnly (s : State) (a : Nat) : s.bytesOnly (s.writeAddr a).1 := by
  unfold State.writeAddr
  split
  · rfl
  · next r _ =>
    dsimp only
    generalize (if (s.rawWord r.root).getLsbD 0 then r.map1 else r.map0) = com, (if (s.rawWord r.root).getLsbD 0 then r.map0 else r.map1) = work
    split
    · rfl
    · split
      · exact .trans (State.copyRange_bytesOnly _ _ _ _) (State.setMapBit_bytesOnly _ _ _ _)
      · rfl
theorem State.hbmPut_bytesOnly (bs : List Byte) (s : State) (a : Nat) : s.bytesOnly (s.hbmPut a bs) := by
  induction bs generalizing s a with
  | nil => rfl
  | cons b bs ih =>
    rw [State.hbmPut]
    refine State.bytesOnly.trans ?_ (ih _ _)
    split
    · rfl
    · exact (s.writeAddr_bytesOnly a).trans rfl
theorem State.hbmWrite_clusters (h : s.noPartials) (a : Nat) (bs : List Byte) : (s.hbmWrite a bs).clusters = s.clusters := by
  have hcl := (s.markZone_keeps a bs.length).2.2
  unfold State.hbmWrite
  rw [State.recalls_of_noUpd (by rw [hcl]; exact h)]
  refine List.foldlRecOn (motive := fun t : State => t.clusters = s.clusters) _ _ ((State.hbmPut_bytesOnly bs _ a).clusters.trans hcl) fun t ht l _ => ?_
  split
  · exact ht
  · exact ht

/-- Without detection no access races (R302). -/
theorem State.raceIn_off (s : State) (c : Nat) (ls : List Nat) : s.raceIn c false ls = none := by
  refine List.findSome?_eq_none_iff.mpr fun l _ => ?_
  simp [State.raceAt]

theorem not_poisoned_touched {lanes : List Nat} (h : ∀ j, j ∈ lanes → s.poisoned (128 * ((p + j) / 128)) 128 = false) :
    ((touched p lanes).any fun l => s.poisoned (128 * l) 128) = false := by
  refine List.any_eq_false.mpr fun l hl => Bool.eq_false_iff.mp ?_
  obtain ⟨j, hj, rfl⟩ := List.mem_map.mp (List.mem_eraseDups.mp hl)
  exact h j hj

/-- A read of device memory that no error, race or partial result stands over gives its bytes (R290). -/
theorem State.farReadAt_of_seesAt {n : Nat} {core : Option (BitVec 8)} {lanes : List Nat} {race : Bool} (h : s.seesAt c va .read p) (hu : s.noPartials)
    (hp : ∀ j, j ∈ lanes → s.poisoned (128 * ((p + j) / 128)) 128 = false) (hr : race = false ∨ (s.cl c).rde = false) :
    s.farReadAt c va n core lanes race = (.ok (s.bytesAt p n), s) := by
  have hrace : (if race then s.raceIn c (s.cl c).rde (touched p lanes) else none) = none := by
    obtain rfl | hr := hr
    · rfl
    · rw [hr, State.raceIn_off, ite_self]
  unfold State.farReadAt
  rw [State.xlateN_of_seesAt h]
  dsimp only
  rw [State.recalls_of_noUpd hu, not_poisoned_touched hp, hrace]
  rfl

/-- A plain write of device memory writes its bytes and tags their granules (R290, R302). -/
theorem State.farWrite_of_seesAt {core : Option (BitVec 8)} {bs : List Byte} (h : s.seesAt c va .write p) (hu : s.noPartials) (hr : (s.cl c).rde = false) :
    s.farWrite c va (bs.map some) core = (.ok (), (s.hbmWrite p bs).tagWrite c false 0#20 (touched p (List.range bs.length))) := by
  have hall : (List.range (bs.map some).length).filter (fun i => ((bs.map some).getD i none).isSome) = List.range bs.length := by
    rw [List.length_map]
    refine List.filter_eq_self.mpr fun i hi => ?_
    simp [List.mem_range.mp hi]
  have hput : s.putMasked (c / 4) (.hbm p) (bs.map some) = s.hbmWrite p bs := by
    unfold State.putMasked
    rw [if_pos (by simp)]
    simp [State.paWrite]
  have hrde : ((s.hbmWrite p bs).cl c).rde = false := by
    rw [State.cl, State.hbmWrite_clusters hu]
    exact hr
  unfold State.farWrite
  rw [State.xlateN_of_seesAt h]
  dsimp only
  rw [State.recalls_of_noUpd hu, hr, State.raceIn_off]
  dsimp only
  rw [hput, hrde, hall]
  rfl

/-- With no FENCE before it an access has nothing to settle (R147). -/
theorem State.settle_none (h : (s.cl c).relAfter = []) (n : Nat) : s.settle c n = s := by
  unfold State.settle
  rw [h]
  rfl

end

/-! ### Far accesses (R143) -/

section
variable {s t : State} {c : BitVec 4} {h : Hold}

theorem length_leBytes (n w : Nat) : (leBytes n w).length = n := by
  induction n generalizing w with
  | zero => rfl
  | succ n ih => exact congrArg Nat.succ (ih _)

/-- The only hold that is due, for an access that meets none of the program's in a bank (R23). -/
theorem execFarAccessHoldEnd_one {k : FarKind} {ps : List FarPart} {x : HoldEnd} (hd : s.dueHolds c.toNat = [h]) (hk : h.kind = .far k ps)
    (hb : s.farBusy c.toNat k ps = false) (hp : s.farPerform c.toNat ((s.cl c.toNat).holdOrigin h) k ps = (x, t)) :
    execFarAccessHoldEnd c s = .next (match x with
      | .done => t.dropHold c.toNat h
      | .again => t.setHold c.toNat h { h with replay := true }
      | .fault x => t.holdFails c.toNat h x) := by
  unfold execFarAccessHoldEnd
  simp only [hd, List.foldl_cons, List.foldl_nil, hk, hb, hp]
  cases x with
  | done => rfl
  | fault x => rfl
  | again => rfl

theorem State.farPerform_ldf {sgn : Bool} {n p : Nat} {sd : BitVec 5} {q : FarPart} (o : Origin) (hr : (s.cl c.toNat).relAfter = []) (hu : s.noPartials)
    (hrde : (s.cl c.toNat).rde = false) (hs : s.seesAt c.toNat q.va .read p) (hp : ∀ j, j < n → s.poisoned (128 * ((p + j) / 128)) 128 = false) :
    s.farPerform c.toNat o (.ldf sgn n sd) [q] = (.done, s.holdWrite c.toNat sd (extWord sgn n (leWord (s.bytesAt p n)))) := by
  unfold State.farPerform
  rw [State.settle_none hr]
  simp only [List.headD_cons, State.farRead, State.farReadAt_of_seesAt hs hu (fun j hj => hp j (List.mem_range.mp hj)) (.inr hrde)]
theorem State.farPerform_stf {n p : Nat} {q : FarPart} (o : Origin) (hr : (s.cl c.toNat).relAfter = []) (hu : s.noPartials)
    (hrde : (s.cl c.toNat).rde = false) (hs : s.seesAt c.toNat q.va .write p) :
    s.farPerform c.toNat o (.stf n) [q] =
      (.done, (s.hbmWrite p (leBytes n q.data.toNat)).tagWrite c.toNat false 0#20 (touched p (List.range n))) := by
  unfold State.farPerform
  rw [State.settle_none hr]
  simp only [List.headD_cons, State.farWrite_of_seesAt hs hu hrde, length_leBytes]

end

/-! ### LNCH (R152) -/

section
variable {s t : State} {c : BitVec 4} {h : Hold} {sd : BitVec 5} {va : Nat}

theorem execLnchAnswer_ok {bs : List Byte} (hd : s.dueHolds c.toNat = [h]) (hk : h.kind = .lnch sd va)
    (hr : (((s.settle c.toNat (s.cl c.toNat).nextPost).release c.toNat .device).vcStep c.toNat).farReadAt c.toNat va 128 none (List.range 128) false =
      (.ok bs, t)) :
    execLnchAnswer c s = .next (((t.submit (BitVec.ofNat 1024 (leNat bs)) (.lnch c.toNat)).2.dropHold c.toNat h).holdWrite c.toNat sd
      (BitVec.ofNat 64 (t.submit (BitVec.ofNat 1024 (leNat bs)) (.lnch c.toNat)).1)) := by
  unfold execLnchAnswer
  simp only [hd, List.foldl_cons, List.foldl_nil, hk, hr]
theorem execLnchAnswer_error {x : TrapInfo} (hd : s.dueHolds c.toNat = [h]) (hk : h.kind = .lnch sd va)
    (hr : (((s.settle c.toNat (s.cl c.toNat).nextPost).release c.toNat .device).vcStep c.toNat).farReadAt c.toNat va 128 none (List.range 128) false =
      (.error x, t)) (hx : (t.cl c.toNat).replays x = false) :
    execLnchAnswer c s = .next (t.holdFails c.toNat h x) := by
  unfold execLnchAnswer
  simp only [hd, List.foldl_cons, List.foldl_nil, hk, hr, hx]
  rfl

/-- A cluster that no update has reached holds no partial results. -/
theorem State.noPartials.cl (h : s.noPartials) (c : Nat) : (s.cl c).upd = [] := by
  rw [State.cl, List.getD_eq_getElem?_getD]
  cases hk : s.clusters[c]? with
  | none => rfl
  | some k => exact h k (List.mem_of_getElem? hk)

/-- A release with nothing to merge and no copies of peer lines has nothing to do (R287, R296, R298). -/
theorem State.release_idle {c : Nat} (hu : s.noPartials) (hf : (s.cl c).far = []) (hrdc : s.rdcOf (c / 4) = []) (sc : Scope) : s.release c sc = s := by
  have hmerge : s.mergeAll c = s := by
    unfold State.mergeAll
    rw [hu.cl c]
    rfl
  have hfar : s.onFar c (·.map fun x => { x with dirty := 0#128 }) = s := by
    have hmap : (s.cl c).far.map (fun x => { x with dirty := 0#128 }) = (s.cl c).far := by
      rw [hf]
      rfl
    exact State.onCl_self (congrArg (fun l => { s.cl c with far := l }) hmap)
  have hset : s.setRdc (c / 4) [] = s := by
    unfold State.setRdc
    have hs : s.rdc.set (c / 4) [] = s.rdc := by
      refine List.ext_getElem? fun i => ?_
      rw [List.getElem?_set]
      split
      · next hi =>
        subst hi
        split
        · next hl => rw [List.getElem?_eq_getElem hl, ← show s.rdc.getD (c / 4) [] = s.rdc[c / 4] by simp [hl]]; exact congrArg some hrdc.symm
        · next hl => exact (List.getElem?_eq_none (Nat.not_lt.mp hl)).symm
      · rfl
    rw [hs]
  unfold State.release
  rw [hmerge]
  unfold State.flushPeer
  simp only [hf, List.reverse_nil, List.foldl_nil, hfar, hrdc, List.map_nil, hset, ite_self]

/-- Stepping a clock changes nothing that a cluster's reads of device memory depend on (R302). -/
theorem State.vcStep_field {α : Sort _} (f : Cluster → α) (hf : ∀ k : Cluster, ∀ v, f { k with vc := v } = f k) (s : State) (c : Nat) :
    f ((s.vcStep c).cl c) = f (s.cl c) := by
  by_cases hc : c < s.clusters.length
  · rw [State.vcStep, State.cl_onCl_same _ _ _ hc]
    exact hf _ _
  · rw [State.vcStep, State.onCl, State.setCl, List.set_eq_of_length_le (Nat.not_lt.mp hc)]
theorem State.noPartials.vcStep (h : s.noPartials) (c : Nat) : (s.vcStep c).noPartials := by
  intro k hk
  obtain hk | rfl := List.mem_or_eq_of_mem_set hk
  · exact h k hk
  · exact h.cl c
theorem State.seesAt.vcStep {c p : Nat} {acc : Acc} (h : s.seesAt c va acc p) : (s.vcStep c).seesAt c va acc p := by
  obtain ⟨hd, ⟨e, bits, ht, hl, hp⟩, hr⟩ := h
  refine ⟨(State.vcStep_field (fun k => k.desc.getLsbD 63) (fun _ _ => rfl) s c).trans hd, ⟨e, bits, ?_, hl, hp⟩, hr⟩
  rw [State.vcStep_field Cluster.ctx (fun _ _ => rfl)]
  unfold State.tlbHit at ht ⊢
  dsimp only at ht ⊢
  rw [State.vcStep_field Cluster.tlb (fun _ _ => rfl)]
  exact ht

/-- LNCH with nothing to release reads its record as it stands. -/
theorem State.lnchRead {c p : Nat} (hr : (s.cl c).relAfter = []) (hu : s.noPartials) (hf : (s.cl c).far = []) (hrdc : s.rdcOf (c / 4) = [])
    (hs : s.seesAt c va .read p) (hp : ∀ j, j < 128 → s.poisoned (128 * ((p + j) / 128)) 128 = false) :
    (((s.settle c (s.cl c).nextPost).release c .device).vcStep c).farReadAt c va 128 none (List.range 128) false = (.ok (s.bytesAt p 128), s.vcStep c) := by
  rw [State.settle_none hr, State.release_idle hu hf hrdc]
  exact State.farReadAt_of_seesAt hs.vcStep (hu.vcStep c) (fun j hj => hp j (List.mem_range.mp hj)) (.inl rfl)

end

theorem accessHoldsEnd : Claims.AccessHoldsEnd := by
  intro s t c h hd
  refine ⟨fun sgn n sd q p hk hr hu hrde hs hp => ?_, fun n q p hk hr hu hrde hs => ?_, fun sd va p hk hr hu hf hrdc hs hp => ?_,
    fun k ps hk hb => ⟨fun hp => ?_, fun hp => ?_, fun x hp => ?_⟩, fun sd va hk => ⟨fun bs hr => ?_, fun x hr hx => ?_⟩⟩
  · refine execFarAccessHoldEnd_one hd hk ?_ (State.farPerform_ldf _ hr hu hrde hs hp)
    simp [State.farBusy, State.windowBusy_of_seesAt hs]
  · refine execFarAccessHoldEnd_one hd hk ?_ (State.farPerform_stf _ hr hu hrde hs)
    simp [State.farBusy, State.windowBusy_of_seesAt hs]
  · intro u v
    have hrel : u = s.vcStep c.toNat := by
      show (s.release c.toNat .device).vcStep c.toNat = _
      rw [State.release_idle hu hf hrdc]
    refine (execLnchAnswer_ok hd hk (State.lnchRead hr hu hf hrdc hs hp)).trans ?_
    show _ = Host.Outcome.next (((u.submit _ _).2.dropHold c.toNat h).holdWrite c.toNat sd (BitVec.ofNat 64 (u.submit _ _).1))
    rw [hrel]
  · exact execFarAccessHoldEnd_one hd hk hb hp
  · exact execFarAccessHoldEnd_one hd hk hb hp
  · exact execFarAccessHoldEnd_one hd hk hb hp
  · exact execLnchAnswer_ok hd hk hr
  · exact execLnchAnswer_error hd hk hr hx

/-! ### PWAIT (R138) -/

section
variable {s : State} {c : BitVec 4} {h : Hold} {a : Nat}

theorem execPwaitResume_one (hh : (s.cl c.toNat).holds = [h]) : execPwaitResume c s = .next (s.penTurn c.toNat h) := by
  unfold execPwaitResume
  rw [hh]
  rfl
theorem State.penTurn_pwait {ph : Bool} (c : Nat) (hk : h.kind = .pwait a ph) : s.penTurn c h = match (s.cl c).penSample a ph with
    | .differs => s.setHold c h { h with kind := .pflip a false, due := s.ct + 1 }
    | .overflow => s.setHold c h { h with kind := .pflip a true, due := s.ct + 1 }
    | .waits => s := by
  unfold State.penTurn
  rw [hk] <;> rfl
theorem State.penTurn_pflip {ovf : Bool} (c : Nat) (hk : h.kind = .pflip a ovf) : s.penTurn c h =
    if s.ct < h.due then s
    else if ovf then s.holdFails c h (penOverflow h.slot)
    else ((s.dropHold c h).onCl c fun k => k.consume a).dropPeer (c / 4) .fabric := by
  unfold State.penTurn
  rw [hk]

end

theorem pennantWaitEnds : Claims.PennantWaitEnds := by
  intro s c h a ph hh
  rw [exec_pwaitResume, execPwaitResume_one hh]
  refine ⟨fun hk => ?_, fun hk hd => ?_, fun hk hd => ?_, fun hk hd => ?_⟩
  · rw [State.penTurn_pwait _ hk]
    refine ⟨fun hp => ?_, fun hp => ?_, fun hp => ?_⟩
    · rw [hp]
    · rw [hp]
    · rw [hp]
  · obtain hk | hk := hk
    · rw [State.penTurn_pflip _ hk, if_pos hd]
    · rw [State.penTurn_pflip _ hk, if_pos hd]
  · rw [State.penTurn_pflip _ hk, if_neg (Nat.not_lt.mpr hd), if_pos rfl]
  · rw [State.penTurn_pflip _ hk, if_neg (Nat.not_lt.mpr hd), if_neg Bool.false_ne_true]

/-! ### BWAIT (R141) -/

theorem execBwaitComplete_one {s : State} {c : BitVec 4} {h : Hold} {a p : Nat} {mask : Word} {sc : Scope} (hd : s.dueHolds c.toNat = [h])
    (hk : h.kind = .bwait a mask sc) (hs : s.seesAt c.toNat a .read p) (hp : s.poisoned p 8 = false) (hu : s.noPartials) :
    execBwaitComplete c s = .next (if leWord (s.bytesAt p 8) &&& mask = mask then (s.dropHold c.toNat h).acquireAt c.toNat sc (.hbm p)
      else s.free.2.setHold c.toNat h { h with due := s.ct + (s.freeIn 1 1024).1 }) := by
  have hread : s.paRead (c.toNat / 4) (.hbm p) 8 = (s.bytesAt p 8, s) := by
    show s.hbmRead p 8 = _
    unfold State.hbmRead
    rw [State.recalls_of_noUpd hu]
    rfl
  unfold execBwaitComplete
  simp only [hd, List.foldl_cons, List.foldl_nil, hk, State.xlate, State.xlateN_of_seesAt hs, hp, hread]
  rfl

theorem buntingWaitEnds : Claims.BuntingWaitEnds := by
  intro s c h a p mask sc hd hk hs hp hu w
  rw [exec_bwaitComplete, execBwaitComplete_one hd hk hs hp hu]
  refine ⟨fun hw => congrArg Host.Outcome.next (if_pos hw), fun hw => ?_⟩
  obtain ⟨hlo, hhi⟩ := State.freeIn_range s 1 1024 (by decide)
  exact ⟨_, hlo, hhi, congrArg Host.Outcome.next (if_neg hw)⟩

/-- Settles O37: an access that the TLB serves, with no partial result, error or race over it, reads and writes device memory as it stands. -/
theorem holdsEnd : Obligations.HoldsEnd := ⟨accessHoldsEnd, pennantWaitEnds, buntingWaitEnds⟩

end Sys2Proof.Machine
end

section
/-!
PROOFS. The events of a cluster, of its copy engine, and of its generators.
-/
namespace Sys2Proof.Machine

theorem cycleEvents : Claims.CycleEvents := by
  intro s c a v i
  refine ⟨rfl, fun h => ?_, rfl, rfl, rfl, fun h => ?_, fun h => ?_, fun h => ?_, fun h => ?_, rfl⟩
  · show Host.Outcome.next (s.landingNow c.toNat) = _
    unfold State.landingNow
    dsimp only
    rw [show (s.cl c.toNat).tmw = [] from h]
    rfl
  · exact congrArg Host.Outcome.next (State.onCl_congr (if_pos h))
  · exact congrArg Host.Outcome.next (State.onCl_congr (if_neg (Bool.eq_false_iff.mp h)))
  · exact congrArg Host.Outcome.next (State.onCl_congr (if_pos h))
  · exact congrArg Host.Outcome.next (State.onCl_congr (if_neg (Bool.eq_false_iff.mp h)))

/-! ### An acquire leaves the posted operations (R287) -/

/-- The posted operations of every cluster are as they were, in the same cycle. -/
def State.samePosted (s t : State) : Prop := t.ct = s.ct ∧ t.clusters.length = s.clusters.length ∧ ∀ d, (t.cl d).posted = (s.cl d).posted

section
variable {s t u : State}

theorem State.samePosted.refl (s : State) : s.samePosted s := ⟨rfl, rfl, fun _ => rfl⟩
theorem State.samePosted.trans (h : s.samePosted t) (h' : t.samePosted u) : s.samePosted u :=
  ⟨h'.1.trans h.1, h'.2.1.trans h.2.1, fun d => (h'.2.2 d).trans (h.2.2 d)⟩
theorem State.samePosted.foldl {α : Type} {l : List α} {f : State → α → State} (h : s.samePosted t) (hf : ∀ t x, State.samePosted t (f t x)) :
    s.samePosted (l.foldl f t) := List.foldlRecOn (motive := s.samePosted) l f h fun t ht x _ => ht.trans (hf t x)
theorem State.samePosted.onFar (h : s.samePosted t) (c : Nat) (f : List PeerLine → List PeerLine) : s.samePosted (t.onFar c f) := by
  refine h.trans ⟨rfl, State.onCl_length t c _, fun d => ?_⟩
  by_cases hd : c = d
  · subst hd
    by_cases hc : c < t.clusters.length
    · rw [State.onFar, State.cl_onCl_same _ _ _ hc]
    · rw [State.onFar, State.onCl, State.setCl, List.set_eq_of_length_le (Nat.not_lt.mp hc)]
  · rw [State.onFar, State.cl_onCl_other _ _ _ _ hd]
theorem State.samePosted.writeBack (h : s.samePosted t) (die : Nat) (l : PeerLine) : s.samePosted (State.writeBack die t l) := by
  unfold State.writeBack
  split
  · exact h
  · exact h.foldl fun t _ => .refl t
theorem State.samePosted.keepRdc (h : s.samePosted t) (die : Nat) (x : PeerLine) : s.samePosted (t.keepRdc die x) :=
  h.foldl fun t l => (State.samePosted.refl t).writeBack die l
theorem State.samePosted.ownLine (h : s.samePosted t) (die : Nat) (x : PeerLine) (ctx : BitVec 12) : s.samePosted (t.ownLine die x ctx).2 := by
  unfold State.ownLine
  split
  · exact h.writeBack _ _
  · exact h
theorem State.samePosted.toRdc (h : s.samePosted t) (die : Nat) (l : PeerLine) : s.samePosted (State.toRdc die t l) := by
  unfold State.toRdc
  split
  · exact h
  · exact (h.ownLine _ _ _).keepRdc _ _
/-- The far cache of a cluster is given up, its dirty bytes to the RDC. -/
def State.emptyFar (die : Nat) (s : State) (c : Nat) : State := ((s.cl c).far.reverse.foldl (State.toRdc die) s).onFar c fun _ => []
theorem State.samePosted.emptyFar (h : s.samePosted t) (die c : Nat) : s.samePosted (State.emptyFar die t c) :=
  (h.foldl fun t l => (State.samePosted.refl t).toRdc die l).onFar c _
theorem State.samePosted.acquire (h : s.samePosted t) (c : Nat) (sc : Scope) : s.samePosted (t.acquire c sc) := by
  have hfar : s.samePosted (((List.range 4).map (4 * (c / 4) + ·)).foldl (State.emptyFar (c / 4)) t) :=
    h.foldl fun t d => (State.samePosted.refl t).emptyFar _ d
  unfold State.acquire State.dropPeer
  split
  · exact h
  · extract_lets u
    have hu : s.samePosted u := hfar
    clear_value u
    split
    · exact hu.foldl fun t l => (State.samePosted.refl t).writeBack _ l
    · exact hu
theorem State.samePosted.readTimes {hdr ts : List CopyTarget} {lo hi mid : Nat} {rd : List (CopyTarget × Nat)} (h : s.samePosted t)
    (hr : t.readTimes hdr ts lo hi = (rd, mid, u)) : s.samePosted u := by
  obtain rfl : (t.readTimes hdr ts lo hi).2.2 = u := by rw [hr]
  unfold State.readTimes
  dsimp only
  split
  · exact h
  · exact h
/-- The time a command's copy takes is a free one. -/
theorem State.samePosted.freeLen {p : Prop} [Decidable p] {lo room n : Nat} (h : s.samePosted t)
    (hn : (if p then t.freeIn lo room else match t.free with | (f, s) => (lo + f, s)) = (n, u)) : s.samePosted u := by
  obtain rfl : (if p then t.freeIn lo room else match t.free with | (f, s) => (lo + f, s)).2 = u := by rw [hn]
  split
  · exact h
  · exact h

end

/-- A posted operation as a command that starts leaves it: a BSET of that cycle waits for the command too (R140). -/
def Posted.waitsFor (ct : Nat) (x : Cmd) (p : Posted) : Posted :=
  match p.kind with
  | .bset va bit sc cmds f => if p.since = ct then { p with kind := .bset va bit sc (cmds ++ [x.id]) f } else p
  | _ => p

/-- A command that starts leaves its cluster's posted operations but for the BSETs of that cycle. -/
theorem State.startCmd_onCl (s : State) (c : Nat) (x : Cmd) : ∃ t F, s.samePosted t ∧ (∀ k : Cluster, (F k).posted = k.posted.map (Posted.waitsFor t.ct x)) ∧
    s.startCmd c x = t.onCl c F := by
  unfold State.startCmd
  extract_lets k n popped idx desc targets stream pend acq sc u lo
  have hu : s.samePosted u := by
    show s.samePosted (if acq = true then _ else _)
    split
    · exact (State.samePosted.refl s).acquire c sc
    · exact .refl s
  clear_value u
  split
  extract_lets vas hazard sb bound quick room
  split
  next hl =>
    split
    next hr => exact ⟨_, _, (hu.freeLen hl).readTimes hr, fun k => rfl, rfl⟩

/-- A BSET of the cycle a command starts in waits for the command (R140). -/
theorem State.startCmd_bset {s : State} {c : Nat} (hc : c < s.clusters.length) {x : Cmd} {p : Posted} {va b : Nat} {sc : Scope} {cmds : List Nat}
    {f : Option Scope} (hp : p ∈ (s.cl c).posted) (hk : p.kind = .bset va b sc cmds f) (hs : p.since = s.ct) :
    { p with kind := .bset va b sc (cmds ++ [x.id]) f } ∈ ((s.startCmd c x).cl c).posted := by
  obtain ⟨t, F, ⟨hct, hlen, hpost⟩, hF, heq⟩ := s.startCmd_onCl c x
  rw [heq, State.cl_onCl_same _ _ _ (hlen ▸ hc), hF, hpost]
  refine List.mem_map.mpr ⟨p, hp, ?_⟩
  unfold Posted.waitsFor
  rw [hk, hct]
  exact if_pos hs

/-! ### The engine, the gathers and the posted operations -/

section
variable {s : State} {c : BitVec 4}

theorem execCopyCommandStart_idle (h : (s.cl c.toNat).engineRuns s.ct = false ∨ (s.cl c.toNat).ticks < (s.cl c.toNat).lastStream ∨
    (s.cl c.toNat).starter c.toNat = none) : execCopyCommandStart c s = .next s := by
  obtain h | h | h := h
  · exact congrArg Host.Outcome.next (if_pos (by rw [h]; rfl))
  · exact congrArg Host.Outcome.next (if_pos (by rw [decide_eq_true h, Bool.or_true]))
  · refine congrArg Host.Outcome.next ?_
    rw [h]
    exact ite_self _
theorem execCopyCommandStart_starts {x : Cmd} (hr : (s.cl c.toNat).engineRuns s.ct = true) (hl : (s.cl c.toNat).lastStream ≤ (s.cl c.toNat).ticks)
    (hx : (s.cl c.toNat).starter c.toNat = some x) : execCopyCommandStart c s = .next (s.startCmd c.toNat x) := by
  refine congrArg Host.Outcome.next ((if_neg ?_).trans ?_)
  · rw [hr, decide_eq_false (Nat.not_lt.mpr hl)]
    exact Bool.false_ne_true
  · rw [hx]

/-- The only gather under way gives a core with room its next vector. -/
theorem execGatherEntryArrival_one {a : Active} {v : BitVec 1024} {r : List (BitVec 1024)} {j : Nat} (ha : (s.cl c.toNat).active = [a])
    (hg : a.gather = [(j, v :: r)]) (hq : ((s.cl c.toNat).core j).gq.length < 16) :
    execGatherEntryArrival c s = .next (s.onCl c.toNat fun k =>
      { k.onCore j fun x => { x with gq := x.gq ++ [v] } with active := [{ a with gather := [(j, r)] }] }) := by
  refine congrArg Host.Outcome.next (State.onCl_congr ?_)
  simp [ha, hg, hq, Cluster.onCore]

/-- The only BSET posted performs when it is due. -/
theorem execBsetPerform_one {p : Posted} {va b : Nat} {sc : Scope} {cmds : List Nat} {f : Option Scope} (hp : (s.cl c.toNat).posted = [p])
    (hk : p.kind = .bset va b sc cmds f) (hd : p.due ≤ s.ct) (hr : (s.cl c.toNat).postReady p = true) (hw : s.windowBusy c.toNat va 8 .write = false) :
    execBsetPerform c s = .next (s.setBitAt c.toNat p va b sc f) := by
  unfold execBsetPerform
  simp [hp, hk, hd, hr, hw]
theorem execPostedAtomPerform_atom {p : Posted} {va : Nat} {op : AtomOp} {sgn w64 : Bool} {v : Word} {f : Option Scope}
    (hp : (s.cl c.toNat).posted = [p]) (hk : p.kind = .atom va op sgn w64 v f) (hd : p.due ≤ s.ct) (hr : (s.cl c.toNat).postReady p = true)
    (hw : s.windowBusy c.toNat va (if w64 then 8 else 4) .write = false) :
    execPostedAtomPerform c s = .next (s.postPerform c.toNat p va (atomUpd op) (atomTy sgn w64) v .s none f) := by
  unfold execPostedAtomPerform
  simp [hp, hk, hd, hr, hw]
theorem execPostedAtomPerform_vupd {p : Posted} {j e va : Nat} {op : UpdOp} {ty : UpdTy} {v : Word}
    (hp : (s.cl c.toNat).posted = [p]) (hk : p.kind = .vupd j e va op ty v) (hd : p.due ≤ s.ct) (hr : (s.cl c.toNat).postReady p = true)
    (hw : s.windowBusy c.toNat va (updBytes ty) .write = false) :
    execPostedAtomPerform c s = .next (s.postPerform c.toNat p va op ty v .l (some (BitVec.ofNat 8 j)) none) := by
  unfold execPostedAtomPerform
  simp [hp, hk, hd, hr, hw]

end

theorem copyEvents : Claims.CopyEvents := by
  intro s c x p line i k
  refine ⟨execCopyCommandStart_starts, fun p va b sc cmds f hlen hp hk hs => State.startCmd_bset (hlen ▸ c.isLt) hp hk hs, execCopyCommandStart_idle, rfl,
    fun a v r j => execGatherEntryArrival_one, fun va b sc cmds f => execBsetPerform_one, fun va op sgn w64 v f => execPostedAtomPerform_atom,
    fun j e va op ty v => execPostedAtomPerform_vupd, rfl⟩

/-! ### What a copy leaves behind it -/

section
variable {s u : State} {c : Nat} {a : Active}

/-- A byte to memory is a plain write at its home (R290). -/
theorem State.copyPut_mem {va p : Nat} {b : Byte} (hva : va < 2 ^ 57) (hu : s.noPartials) (hs : s.seesAt c va .write p) (hr : (s.cl c).rde = false) :
    s.copyPut c a (.mem va) b = (.ok (), (s.hbmWrite p [b]).tagWrite c false a.clk [p / 128]) := by
  have hrace : s.raceAt c false p = none := by simp [State.raceAt]
  unfold State.copyPut
  dsimp only
  rw [if_neg (Nat.not_le.mpr hva), State.xlate, State.xlateN_of_seesAt hs]
  dsimp only
  rw [State.recall_of_noUpd hu, hr, hrace]

theorem Core.touch_bst (x : Core) (a b : Nat) : (x.touch a b).bst = x.bst := by
  unfold Core.touch
  split
  · rfl
  · rfl
/-- A byte to a B-store is in it. -/
theorem State.copyPut_bs {n o o' : Nat} {b : Byte} (hc : c < s.clusters.length) (hn : n < (s.cl c).cores.length)
    (hwf : Memory.wf ((s.cl c).core n).bst = true) :
    (((s.copyPut c a (.bs n o) b).2.cl c).core n).bsByte o' = if o' = o then b else ((s.cl c).core n).bsByte o' := by
  show (((s.onCl c fun q => q.onCore n fun x => x.bsWrite o b).cl c).core n).bsByte o' = _
  rw [State.cl_onCl_same _ _ _ hc, Cluster.core_onCore_same hn, Core.bsByte, Core.bsWrite, Core.touch_bst]
  exact rdByte_wrByte _ _ _ hwf

/-- The one byte still to be written, once due. -/
theorem State.copyWrites_due {t : CopyTarget} {b : Byte} {at' : Nat} (ho : a.outs = [(t, b, at')]) (hw : a.whole = []) (hr : a.replay = false)
    (hd : at' ≤ s.ct) (hp : s.copyPut c a t b = (.ok (), u)) : s.copyWrites c a = (u, { a with outs := [] }) := by
  have hp' : s.copyPut c { a with outs := [] } t b = (.ok (), u) := hp
  have hct : ¬ (a.replay = true ∨ s.ct < at') := by
    rw [hr]
    simp [hd]
  unfold State.copyWrites
  simp only [ho, List.foldl_cons, List.foldl_nil, if_neg hct, hp']
  simp only [hw, List.filter_nil, List.foldl_nil, List.reverse_nil, ite_self]
/-- The one byte still to be written, before it is due. -/
theorem State.copyWrites_wait {t : CopyTarget} {b : Byte} {at' : Nat} (ho : a.outs = [(t, b, at')]) (hw : a.whole = []) (hd : s.ct < at') :
    s.copyWrites c a = (s, a) := by
  have hct : a.replay = true ∨ s.ct < at' := .inr hd
  unfold State.copyWrites
  simp only [ho, List.foldl_cons, List.foldl_nil, if_pos hct, hw, List.filter_nil, List.reverse_singleton, ite_self]
  rw [← ho, ← hw]

/-! A command whose bytes have all performed: each part of its cycle finds nothing to do. -/

theorem State.loosen_loose (h : a.loose = true) : s.loosen c a = (s, a) := if_pos (by rw [h]; rfl)
theorem State.copyReads_none (h : a.rd = []) : s.copyReads c a = (s, a) := by
  unfold State.copyReads
  simp only [h, List.foldl_nil, List.reverse_nil]
  rw [← h]
theorem State.copyWrites_none (ho : a.outs = []) (hw : a.whole = []) : s.copyWrites c a = (s, a) := by
  unfold State.copyWrites
  simp only [ho, List.foldl_nil, List.reverse_nil, hw, List.filter_nil, ite_self]
  rw [← ho, ← hw]
theorem State.copyDone_of (hf : a.formed = true) (hl : (s.cl c).lastStream ≤ (s.cl c).ticks) (hrd : a.rd = []) (ho : a.outs = []) (hwt : a.waits = [])
    (hr : a.replay = false) (hd : a.due ≤ s.ct) (hg : a.gather = []) (hw : ∀ k, k ∈ s.clusters → ∀ w, w ∈ k.winW → w.src ≠ some (c, a.cmd.id)) :
    s.copyDone c a = true := by
  have hwin : (s.clusters.all fun k => k.winW.all fun w => w.src != some (c, a.cmd.id)) = true :=
    List.all_eq_true.mpr fun k hk => List.all_eq_true.mpr fun w hwm => bne_iff_ne.mpr (hw k hk w hwm)
  unfold State.copyDone
  rw [hwin]
  simp [hf, hl, hrd, ho, hwt, hr, hd, hg]

/-- A load that has written every byte ends. -/
theorem State.copyStep_load {x : XOps} (ha : (s.cl c).active = [a]) (hi : a.cmd.instr = .xld x) (hwt : a.waits = []) (hlo : a.loose = true)
    (hf : a.formed = true) (hr : a.replay = false) (hrd : a.rd = []) (ho : a.outs = []) (hwh : a.whole = []) (hg : a.gather = []) (hd : a.due ≤ s.ct)
    (hl : (s.cl c).lastStream ≤ (s.cl c).ticks) (hw : ∀ k, k ∈ s.clusters → ∀ w, w ∈ k.winW → w.src ≠ some (c, a.cmd.id)) :
    s.copyStep c a.cmd.id = s.endCmd c a := by
  unfold State.copyStep
  simp [ha, hi, hwt, State.loosen_loose hlo, State.copyReads_none hrd, hf, State.copyWrites_none ho hwh, State.copyDone_of hf hl hrd ho hwt hr hd hg hw]
theorem State.endCmd_load {x : XOps} (hi : a.cmd.instr = .xld x) (hf : a.fail = none) :
    s.endCmd c a = ((a.pages.foldl (fun s p => s.pageTag p (x.sq.setWidth 16) none) (s.copyRelease c a.cmd)).creditPen c a.cmd 0
      ((a.nbytes + 15) / 16) (s.cl c).vc).retire c a := by
  have hsq : a.cmd.sq = x.sq := by
    unfold Cmd.sq
    rw [hi]
    rfl
  rw [← hsq]
  unfold State.endCmd
  simp only [hf, hi]
theorem State.endCmd_failed {code : BitVec 3} {e : TrapInfo} (hf : a.fail = some (code, e)) : s.endCmd c a = s.failCmd c a code e := by
  unfold State.endCmd
  rw [hf]

/-! ### Page tags -/

/-- The tag of a scratchpad page is set, and every other stays. -/
theorem State.pageTag_spTag {m n o o' : Nat} {tag : BitVec 16} {org : Option PendFault} (hm : m < s.clusters.length) (hn : n < (s.cl m).cores.length)
    (hwf : swfFrom 0#16 0 ((s.cl m).core n).spTag = true) (ho : o < 64) :
    sget 0#16 o' (((s.pageTag (m, n, o) tag org).cl m).core n).spTag = if o' = o then tag else sget 0#16 o' ((s.cl m).core n).spTag := by
  unfold State.pageTag
  dsimp only
  rw [State.cl_onCl_same _ _ _ hm, Cluster.core_onCore_same hn, if_pos ho]
  exact sget_sput_from hwf
theorem Cluster.addPend_cores (k : Cluster) (f : PendFault) : (k.addPend f).cores = k.cores := by
  unfold Cluster.addPend
  split
  · split
    · rfl
    · rfl
  · rfl
/-- What changes no core of a cluster leaves its cores. -/
theorem State.onCl_cores {f : Cluster → Cluster} (hf : ∀ k, (f k).cores = k.cores) (d : Nat) : ((s.onCl c f).cl d).cores = (s.cl d).cores := by
  by_cases hd : c = d
  · subst hd
    by_cases hc : c < s.clusters.length
    · rw [State.cl_onCl_same _ _ _ hc, hf]
    · rw [State.onCl, State.setCl, List.set_eq_of_length_le (Nat.not_lt.mp hc)]
  · rw [State.cl_onCl_other _ _ _ _ hd]
theorem State.retire_cores (s : State) (c : Nat) (a : Active) (d : Nat) : ((s.retire c a).cl d).cores = (s.cl d).cores := by
  rw [State.retire, State.onCl_cores]
  exact fun _ => rfl
/-- A load that failed leaves its one page poisoned with its code. -/
theorem State.failCmd_spTag {y : Nat × Nat × Nat} {code : BitVec 3} {e : TrapInfo} (hp : a.pages = [y]) (hy : y.1 = c) (ho : y.2.2 < 64)
    (hn : y.2.1 < (s.cl c).cores.length) (hc : c < s.clusters.length) (hwf : swfFrom 0#16 0 ((s.cl c).core y.2.1).spTag = true) :
    sget 0#16 y.2.2 (((s.failCmd c a code e).cl c).core y.2.1).spTag = 1#1 ++ code ++ a.cmd.sq := by
  obtain ⟨m, n, o⟩ := y
  obtain rfl : m = c := hy
  unfold State.failCmd
  rw [hp]
  dsimp only [List.foldl_cons, List.foldl_nil]
  generalize ht : s.pageTag (m, n, o) _ _ = t
  have htag : sget 0#16 o ((t.cl m).core n).spTag = 1#1 ++ code ++ a.cmd.sq := by
    rw [← ht]
    exact (State.pageTag_spTag hc hn hwf ho).trans (if_pos rfl)
  unfold Cluster.core at htag ⊢
  rw [State.retire_cores]
  split
  · rw [State.onCl_cores fun k => k.addPend_cores _]
    exact htag
  · exact htag

end

/-! ### Writes from outside (R23, R289) -/

section
variable {k : Cluster} {w : WinWrite} {ct : Nat} {ld st : List Nat}

/-- The only write from outside performs where the program's banks allow. -/
theorem Cluster.outsideWrites_now (h : k.winW = [w]) (hd : w.at' ≤ ct) (hb : w.addr ∈ st ∨ ∀ y, y ∈ ld ++ st → bankOf y ≠ bankOf w.addr) :
    k.outsideWrites ct ld st = ({ k with winW := [] } : Cluster).spWriteRun w.addr [w.byte] := by
  have hnow : (st.contains w.addr || !((ld ++ st).map bankOf).eraseDups.contains (bankOf w.addr)) = true := by
    simp only [Bool.or_eq_true, List.contains_iff_mem, Bool.not_eq_true', Bool.eq_false_iff, ne_eq, List.mem_eraseDups, List.mem_map]
    refine hb.imp_right fun hb ⟨y, hy, he⟩ => hb y hy he
  unfold Cluster.outsideWrites
  simp only [h, hd, hnow, decide_true, Bool.true_or, Bool.and_self, List.filter_cons, List.filter_nil]
  rfl
/-- One whose bank the program accesses takes a later cycle. -/
theorem Cluster.outsideWrites_wait (h : k.winW = [w]) (hd : w.at' ≤ ct) (hs : w.addr ∉ st) (hb : ∃ y, y ∈ ld ++ st ∧ bankOf y = bankOf w.addr)
    (hby : w.by' = none) : k.outsideWrites ct ld st = { k with winW := [{ w with at' := ct + 1 }] } := by
  have hnow : (st.contains w.addr || !((ld ++ st).map bankOf).eraseDups.contains (bankOf w.addr)) = false := by
    rw [Bool.or_eq_false_iff]
    refine ⟨Bool.eq_false_iff.mpr fun hc => hs (List.contains_iff_mem.mp hc), ?_⟩
    obtain ⟨y, hy, he⟩ := hb
    rw [Bool.not_eq_false', List.contains_iff_mem]
    exact List.mem_eraseDups.mpr (List.mem_map.mpr ⟨y, hy, he⟩)
  unfold Cluster.outsideWrites
  simp only [h, hd, hnow, hby, List.isEmpty_cons, Bool.false_eq_true, if_false, decide_true, Bool.or_false, Bool.and_false, Bool.not_false, if_true,
    List.filter_cons, List.filter_nil, List.map_cons, List.map_nil]
  rfl
theorem Cluster.spByte_spWriteRun {a b : Nat} {v : Byte} (hlen : k.cores.length = 256) (hwf : ∀ x, x ∈ k.cores → Memory.wf x.spm = true)
    (ha : a < 2 ^ 26) (hb : b < 2 ^ 26) : (k.spWriteRun a [v]).spByte b = if b = a then v else k.spByte b := by
  refine Cluster.spByte_onCore hlen hwf (fun x hx i => ?_) ha hb
  rw [Core.touch_spm]
  refine (rdByte_wrBytes _ _ _ hx).trans ?_
  rcases Nat.lt_trichotomy i (a % 2 ^ 18) with hlt | rfl | hgt
  · rw [if_pos hlt, if_neg (Nat.ne_of_lt hlt)]
  · rw [if_neg (Nat.lt_irrefl _), if_pos rfl, Nat.sub_self]
    rfl
  · rw [if_neg (Nat.not_lt.mpr (Nat.le_of_lt hgt)), if_neg (Nat.ne_of_gt hgt),
      List.getElem?_eq_none (by simpa using Nat.le_sub_of_add_le (by omega : 1 + a % 2 ^ 18 ≤ i))]
    rfl

end

theorem copyContents : Claims.CopyContents := by
  intro s u c a t b at' va p n m o x k w ct ld st tag code e i
  refine ⟨fun hva hu hs hr => State.copyPut_mem hva hu hs hr, fun hlen hn hwf => ⟨rfl, fun o' => State.copyPut_bs (hlen ▸ c.isLt) hn hwf⟩,
    fun ho hw hr => ⟨fun hd hp => State.copyWrites_due ho hw hr hd hp, fun hd => State.copyWrites_wait ho hw hd⟩,
    fun hw hd => ⟨fun hb hlen hwf ha => ?_, fun hs hb hby => Cluster.outsideWrites_wait hw hd hs hb hby⟩,
    fun ha hi hwt hlo hf hr hrd ho hwh hg hd hl hw => ?_, fun hm hlen hn hwf ho o' => State.pageTag_spTag (hlen ▸ hm) hn hwf ho,
    fun y hp hy ho hn hlen hwf => State.failCmd_spTag hp hy ho hn (hlen ▸ c.isLt) hwf⟩
  · rw [Cluster.outsideWrites_now hw hd hb]
    exact ⟨rfl, fun o' ho' => Cluster.spByte_spWriteRun hlen hwf ha ho'⟩
  · have hstep : execCopyCommandComplete c s = .next (s.endCmd c.toNat a) := by
      unfold execCopyCommandComplete
      rw [show (s.cl c.toNat).active = [a] from ha]
      exact congrArg Host.Outcome.next (State.copyStep_load ha hi hwt hlo hf hr hrd ho hwh hg hd hl hw)
    rw [exec_copyCommandComplete, hstep]
    exact ⟨fun hf => congrArg Host.Outcome.next (State.endCmd_load hi hf), fun hf => congrArg Host.Outcome.next (State.endCmd_failed hf)⟩

/-! ### Generators (R389, R390) -/

theorem generatorsReseed : Claims.GeneratorsReseed := by
  intro s t c u r hu hr g fresh coming key g' s'
  have hexec : execGeneratorReseed c u s = .next (match s.reseed c.toNat u.toNat with
      | (true, s) => s
      | (false, s) => s.faultRun c.toNat) := if_pos hu
  have hrun : (s'.cl c.toNat).run = some r := hr
  rw [exec_generatorReseed, hexec]
  unfold State.reseed State.reseedFrom
  rw [hrun]
  refine ⟨fun hm => ?_, fun hm hl => ?_, fun hm hl => ?_⟩
  · dsimp only
    rw [hm, if_neg (by decide), if_neg (by decide)]
    rfl
  · have hl' : s'.logAppend c.toNat r u.toNat (((s.cl c.toNat).unit u.toNat).keyNow (Config.freeKey s.fresh)) = (true, t) := hl
    dsimp only
    rw [if_pos hm, hl']
    rfl
  · have hl' : s'.logAppend c.toNat r u.toNat (((s.cl c.toNat).unit u.toNat).keyNow (Config.freeKey s.fresh)) = (false, t) := hl
    dsimp only
    rw [if_pos hm, hl']
    rfl

/-- Settles O39: each event of a cluster on the parts of its state that it reads. -/
theorem clusterEvents : Obligations.ClusterEvents := ⟨cycleEvents, copyEvents, copyContents, generatorsReseed⟩

end Sys2Proof.Machine
end

section
/-!
PROOFS. What reaches the Bozoak engine from outside its words.
-/
namespace Sys2Proof.Machine

/-! ### Reads leave the contexts but for what their landing zones hold undefined (R317) -/

/-- A context without what its landing zone holds undefined. -/
def BzCtx.zoneless (b : BzCtx) : BzCtx := { b with lzBad := [] }
/-- Contexts differ at most in what their landing zones hold undefined. -/
def State.sameCtxs (s t : State) : Prop := ∀ k, (t.bzc k).zoneless = (s.bzc k).zoneless

section
variable {s t u : State}

theorem State.sameCtxs.refl (s : State) : s.sameCtxs s := fun _ => rfl
theorem State.sameCtxs.trans (h : s.sameCtxs t) (h' : t.sameCtxs u) : s.sameCtxs u := fun k => (h' k).trans (h k)
theorem State.sameCtxs.of_bz (h : s.sameCtxs t) (hu : u.bz = t.bz) : s.sameCtxs u := fun k => by
  rw [← h k, State.bzc, hu]
  rfl
theorem State.sameCtxs.foldl {α : Type} {l : List α} {f : State → α → State} (h : s.sameCtxs t) (hf : ∀ t x, State.sameCtxs t (f t x)) :
    s.sameCtxs (l.foldl f t) := List.foldlRecOn (motive := s.sameCtxs) l f h fun t ht x _ => ht.trans (hf t x)

theorem State.sameCtxs.markZone (h : s.sameCtxs t) (a n : Nat) : s.sameCtxs (t.markZone a n) := by
  unfold State.markZone
  split
  · exact h
  · refine h.trans fun k => ?_
    by_cases hk : k < t.bz.length
    · rw [State.bzc, getD_map hk (e := BzCtx.reset)]
      rfl
    · rw [State.bzc, State.bzc, List.getD_eq_default _ _ (by simpa using hk), List.getD_eq_default _ _ (Nat.not_lt.mp hk)]
theorem State.sameCtxs.bytes (h : s.sameCtxs t) (hu : t.bytesOnly u) : s.sameCtxs u := h.of_bz hu.bz
theorem State.sameCtxs.mergeIn (h : s.sameCtxs t) (c line : Nat) : s.sameCtxs (t.mergeIn c line) := by
  unfold State.mergeIn
  dsimp only
  split
  · exact h
  · split
    · exact h
    · refine State.sameCtxs.foldl (h.of_bz rfl) fun t x => ?_
      exact (((State.sameCtxs.refl t).markZone _ _).bytes (State.hbmPut_bytesOnly _ _ _)).of_bz rfl
theorem State.sameCtxs.recall (h : s.sameCtxs t) (line : Nat) : s.sameCtxs (t.recall line) := by
  unfold State.recall
  split
  · exact h
  · exact State.sameCtxs.foldl (h.of_bz rfl) fun t _ => (State.sameCtxs.refl t).mergeIn _ _
theorem State.sameCtxs.hbmRead (h : s.sameCtxs t) (a n : Nat) : s.sameCtxs (t.hbmRead a n).2 := h.foldl fun t l => (State.sameCtxs.refl t).recall l
theorem State.sameCtxs.writeBack (h : s.sameCtxs t) (die : Nat) (l : PeerLine) : s.sameCtxs (State.writeBack die t l) := by
  unfold State.writeBack
  split
  · exact h
  · exact h.foldl fun t _ => .refl t
theorem State.sameCtxs.expel (h : s.sameCtxs t) (die line : Nat) : s.sameCtxs (t.expel die line) := by
  unfold State.expel
  split
  · exact h
  · refine State.sameCtxs.foldl ?_ fun t c => ?_
    · split
      · exact (h.writeBack _ _).of_bz rfl
      · exact h.of_bz rfl
    · split
      · exact ((State.sameCtxs.refl t).writeBack _ _).of_bz rfl
      · exact .refl t
theorem State.sameCtxs.paRead (h : s.sameCtxs t) (die : Nat) (x : Target) (n : Nat) : s.sameCtxs (t.paRead die x n).2 := by
  cases x with
  | hbm a => exact h.hbmRead a n
  | window c a => exact h
  | penAlias c a => exact h
  | host a => exact h
  | peer d a => exact h.foldl fun t l => (State.sameCtxs.refl t).expel die l
theorem State.sameCtxs.portLost (h : s.sameCtxs t) (x : Target) : s.sameCtxs (t.portLost x).2 := by
  cases x with
  | peer d a =>
    unfold State.portLost
    dsimp only
    split
    · exact h
    · split
      · exact h
      · exact h
  | _ => exact h
/-- The state of an answer, taken apart. -/
theorem State.sameCtxs.of_snd {α : Type} {x : α × State} {a : α} (h : s.sameCtxs x.2) (hx : x = (a, u)) : s.sameCtxs u := by
  subst hx
  exact h
theorem State.sameCtxs.walkRead (h : s.sameCtxs t) (die a : Nat) : s.sameCtxs (t.walkRead die a).2 := by
  unfold State.walkRead
  split
  · exact h
  · next x _ =>
    split
    · exact h
    · dsimp only
      cases x with
      | hbm b =>
        dsimp only
        split
        · exact h
        · exact h.paRead _ _ _
      | peer d b =>
        dsimp only
        split
        · next hp => exact (h.portLost _).of_snd hp
        · next hp =>
          split
          · exact ((h.portLost _).of_snd hp).of_bz rfl
          · exact State.sameCtxs.paRead (((h.portLost _).of_snd hp).of_bz (u := State.free _ |>.2) rfl) _ _ _
      | _ =>
        dsimp only
        split
        · next hp => exact (h.portLost _).of_snd hp
        · next hp => exact ((h.portLost _).of_snd hp).paRead _ _ _
theorem State.sameCtxs.walk (die va choice : Nat) (fuel : Nat) : ∀ (lvl base : Nat) {t : State}, s.sameCtxs t →
    s.sameCtxs (Machine.walk die va choice fuel lvl base t).2 := by
  induction fuel with
  | zero => exact fun _ _ _ h => h
  | succ fuel ih =>
    intro lvl base t h
    unfold Machine.walk
    dsimp only
    split
    · next hr => exact (h.walkRead _ _).of_snd hr
    · next hr =>
      have ht := (h.walkRead _ _).of_snd hr
      split
      · exact ht
      · split
        · exact ht
        · split
          · split
            · split
              · next hr' => exact (ht.walkRead _ _).of_snd hr'
              · next hr' => exact (ht.walkRead _ _).of_snd hr'
            · exact ht
          · exact ih _ _ ht
theorem State.sameCtxs.translate (h : s.sameCtxs t) (c : Option Nat) (ctx : BitVec 12) (desc : BitVec 64) (va : Nat) (acc : Acc) :
    s.sameCtxs (t.translate c ctx desc va acc).2 := by
  unfold State.translate
  generalize hq : Machine.walk _ _ _ _ _ _ _ = q
  have hw : s.sameCtxs q.2 := hq ▸ State.sameCtxs.walk _ _ _ _ _ _ (h.of_bz rfl)
  clear hq
  split
  · exact h
  · cases t.tlbHit c ctx va with
    | some x => exact h
    | none =>
      obtain ⟨e | x, u⟩ := q
      · exact hw
      · refine hw.of_bz ?_
        cases c with
        | none => rfl
        | some c => rfl
theorem State.sameCtxs.hXlateD (h : s.sameCtxs t) (ctx : BitVec 12) (desc : BitVec 64) (va : Nat) (acc : Acc) :
    s.sameCtxs (t.hXlateD ctx desc va acc).2 := by
  unfold State.hXlateD
  split
  · exact h
  · split
    · next hr => exact (h.translate _ _ _ _ _).of_snd hr
    · next hr =>
      have ht := (h.translate _ _ _ _ _).of_snd hr
      split
      · exact ht
      · split
        · next hp => exact (ht.portLost _).of_snd hp
        · next hp => exact ((ht.portLost _).of_snd hp).of_bz rfl
        · next hp => exact (ht.portLost _).of_snd hp
theorem State.sameCtxs.hBytes (h : s.sameCtxs t) (x : Target) (n : Nat) : s.sameCtxs (t.hBytes x n).2 := by
  unfold State.hBytes
  split
  · split
    · exact h.of_bz rfl
    · exact h.hbmRead _ _
  · split
    · exact h.of_bz rfl
    · exact h.paRead _ _ _
  · exact h.paRead _ _ _
/-- A part of a range read: none once one part has failed. -/
def State.hPart (ctx : BitVec 12) (desc : BitVec 64) (x : Option (List Byte) × State) (y : Nat × Nat) : Option (List Byte) × State :=
  match x.1 with
  | none => (none, x.2)
  | some bs =>
    match x.2.hXlateD ctx desc y.1 .read with
    | (none, s) => (none, s)
    | (some t, s) => (some (bs ++ (s.hBytes t y.2).1), (s.hBytes t y.2).2)
theorem State.sameCtxs.hReadD (h : s.sameCtxs t) (ctx : BitVec 12) (desc : BitVec 64) (va n : Nat) : s.sameCtxs (t.hReadD ctx desc va n).2 := by
  show s.sameCtxs ((partsOf va n).foldl (State.hPart ctx desc) (some [], t)).2
  refine List.foldlRecOn (motive := fun x : Option (List Byte) × State => s.sameCtxs x.2) _ _ h fun x hx y _ => ?_
  unfold State.hPart
  split
  · exact hx
  · split
    · next hr => exact (hx.hXlateD _ _ _ _).of_snd hr
    · next hr => exact ((hx.hXlateD _ _ _ _).of_snd hr).hBytes _ _
theorem State.sameCtxs.hRead (h : s.sameCtxs t) (ctx : BitVec 12) (va n : Nat) : s.sameCtxs (t.hRead ctx va n).2 := h.hReadD _ _ _ _
theorem State.sameCtxs.hWords (h : s.sameCtxs t) (ctx : BitVec 12) (va n : Nat) : s.sameCtxs (t.hWords ctx va n).2 := by
  unfold State.hWords
  split
  · next hr => exact (h.hRead _ _ _).of_snd hr
  · next hr => exact (h.hRead _ _ _).of_snd hr
/-- START's reads (R313). -/
theorem State.sameCtxs.bzRead (h : s.sameCtxs t) (k : Nat) : s.sameCtxs (t.bzRead k).2 := by
  unfold State.bzRead
  dsimp only
  rw [show t.dropPeer 4 .device = t from rfl]
  split
  · exact h
  · split
    · next hr => exact (h.hRead _ _ _).of_snd hr
    · next hr =>
      have ht := (h.hRead _ _ _).of_snd hr
      split
      · exact ht
      · split
        · next hp => exact (ht.hWords _ _ _).of_snd hp
        · next hp =>
          have hu := (ht.hWords _ _ _).of_snd hp
          split
          · next hc => exact (hu.hWords _ _ _).of_snd hc
          · next hc =>
            split
            · exact (hu.hWords _ _ _).of_snd hc
            · exact (hu.hWords _ _ _).of_snd hc

end

/-! ### START, STOP, CLRCNT and the binding (R311, R312) -/

/-- A context as START leaves it. -/
def BzCtx.started (b : BzCtx) (bad : List Nat) : BzCtx :=
  { b with
    pc := b.prog, g := List.replicate 8 0#32, loops := [], sig := [], barGen := 0, cause := 0#8, st := .running, stopping := false
    arrived := false, sigDue := none, lzBad := bad }
/-- The BARs that the members on this device have started, for a context's program that has started none. -/
def State.barKnown (s : State) (b : BzCtx) (m : SMap Nat) : SMap Nat :=
  b.others.foldl (fun m r => sput 0 (b.barKey b.rank r) (if b.dev r = Config.deviceId then s.barOf b r else 0) m) m

section
variable {s t : State} {k : Nat} {b : BzCtx}

/-- Of the members on other devices no BAR is known. -/
theorem State.barKnown_far {m : SMap Nat} (s : State) (hm : swfFrom 0 0 m = true) {r : Nat} (hr : r ∈ b.others) (hd : b.dev r ≠ Config.deviceId) :
    sget 0 (b.barKey b.rank r) (s.barKnown b m) = 0 := by
  suffices h : ∀ (l : List Nat) (m : SMap Nat), swf 0 m = true → (r ∈ l ∨ sget 0 (b.barKey b.rank r) m = 0) →
      sget 0 (b.barKey b.rank r) (l.foldl (fun m r => sput 0 (b.barKey b.rank r) (if b.dev r = Config.deviceId then s.barOf b r else 0) m) m) = 0 from
    h _ _ hm (.inl hr)
  intro l
  induction l with
  | nil => exact fun m _ h => h.resolve_left List.not_mem_nil
  | cons y l ih =>
    refine fun m hm h => ih _ (sput_wf _ hm) ?_
    by_cases hy : r = y
    · subst hy
      exact .inr ((sget_sput hm).trans ((if_pos rfl).trans (if_neg hd)))
    · obtain h | h := h
      · exact .inl ((List.mem_cons.mp h).resolve_left hy)
      · have hkey : b.barKey b.rank r ≠ b.barKey b.rank y := by
          unfold BzCtx.barKey
          omega
        exact .inr ((sget_sput hm).trans ((if_neg hkey).trans h))
theorem State.barForget_wf (s : State) (k : Nat) (h : swf 0 s.barIn = true) : swf 0 (s.barForget k).barIn = true :=
  List.foldlRecOn (motive := fun m => swf 0 m = true) _ _ h fun _ hm _ _ => sput_wf _ hm

theorem State.bzStart_none (h : s.bzRead k = (none, t)) : s.bzStart k = t.onBz k (·.fault bzBADDESC) := by
  unfold State.bzStart
  rw [h]
theorem State.bzStart_some (h : s.bzRead k = (some b, t)) :
    s.bzStart k =
      let bad := if (t.bzc k).lz (t.bzc k).rank == b.lz b.rank && (t.bzc k).chsz == b.chsz && (t.bzc k).nchk == b.nchk then (t.bzc k).lzBad else []
      let u := ((t.barForget k).onBz k fun _ => b.started bad).barForget k
      { t.onBz k fun _ => b.started bad with barIn := u.barKnown b u.barIn } := by
  unfold State.bzStart
  rw [h]
  rfl

/-- A stopping context as it is once its deliveries are acknowledged (R312). -/
def BzCtx.settled (b : BzCtx) : BzCtx := { b with stopping := false, st := if b.bound then .stopped else .unbound }
theorem State.bzSettle_stopping (h : (s.bzc k).stopping = true) (hf : s.inFlight k = false) : s.bzSettle k = s.onBz k BzCtx.settled :=
  if_pos (by rw [h, hf]; rfl)
theorem State.bzSettle_none (h : (s.bzc k).stopping = false) : s.bzSettle k = s := if_neg (by rw [h]; exact Bool.false_ne_true)

/-- START of a context whose landing zone stays in place keeps what is undefined there, and knows no BAR of members elsewhere. -/
theorem State.bzStart_started (h : s.bzRead k = (some b, t)) : ∃ m,
    s.bzStart k = { t.onBz k fun _ => b.started (if (s.bzc k).lz (s.bzc k).rank = b.lz b.rank ∧ (s.bzc k).chsz = b.chsz ∧ (s.bzc k).nchk = b.nchk
      then (t.bzc k).lzBad else []) with barIn := m } ∧
      (swfFrom 0 0 t.barIn = true → ∀ r, r ∈ b.others → b.dev r ≠ Config.deviceId → sget 0 (b.barKey b.rank r) m = 0) := by
  have hctx : (t.bzc k).zoneless = (s.bzc k).zoneless := ((State.sameCtxs.refl s).bzRead k).of_snd h k
  have hlz := congrArg (fun b : BzCtx => b.lz b.rank) hctx
  have hsz := congrArg BzCtx.chsz hctx
  have hn := congrArg BzCtx.nchk hctx
  change (t.bzc k).lz (t.bzc k).rank = (s.bzc k).lz (s.bzc k).rank at hlz
  change (t.bzc k).chsz = (s.bzc k).chsz at hsz
  change (t.bzc k).nchk = (s.bzc k).nchk at hn
  rw [State.bzStart_some h]
  dsimp only
  rw [hlz, hsz, hn]
  simp only [Bool.and_eq_true, beq_iff_eq, and_assoc]
  generalize (if (s.bzc k).lz (s.bzc k).rank = b.lz b.rank ∧ (s.bzc k).chsz = b.chsz ∧ (s.bzc k).nchk = b.nchk then (t.bzc k).lzBad else []) = bad
  generalize hv : (t.barForget k).onBz k (fun _ => b.started bad) = v
  have hwf : swfFrom 0 0 t.barIn = true → swf 0 (v.barForget k).barIn = true := fun h => State.barForget_wf v k (by
    rw [← hv]
    exact State.barForget_wf t k h)
  exact ⟨(v.barForget k).barKnown b (v.barForget k).barIn, rfl, fun h r hr hd => State.barKnown_far _ (hwf h) hr hd⟩

/-- A context that runs and has no delivery in flight stops (R312). -/
theorem State.bzStop_stops (hr : (s.bzc k).st = .running) (hf : s.inFlight k = false) (hb : (s.bzc k).bound = true) (hk : k < s.bz.length) :
    ((s.bzStop k).bzc k).st = .stopped ∧ ((s.bzStop k).bzc k).pc = (s.bzc k).pc ∧ ((s.bzStop k).bzc k).g = (s.bzc k).g := by
  generalize hv : (s.barForget k).onBz k (fun b => { b with stopping := true, sigDue := none, arrived := false }) = v
  have hctx : v.bzc k = { s.bzc k with stopping := true, sigDue := none, arrived := false } := by
    rw [← hv]
    exact State.bzc_onBz_same _ _ hk
  have hlen : v.bz.length = s.bz.length := by
    rw [← hv]
    exact List.length_set
  have hstop : s.bzStop k = v.onBz k BzCtx.settled := by
    rw [← State.bzSettle_stopping (by rw [hctx]) (show v.inFlight k = false by rw [← hv]; exact hf), ← hv]
    exact if_pos (by rw [hr]; rfl)
  rw [hstop, State.bzc_onBz_same _ _ (hlen ▸ hk), hctx]
  exact ⟨if_pos hb, rfl, rfl⟩

/-- The two fields of a binding that stand (R311). -/
theorem bzBind_bit (v : BitVec 64) : (v &&& 0x8000000000000FFF#64).getLsbD 63 = v.getLsbD 63 := by
  rw [BitVec.getLsbD_and]
  exact Bool.and_true _
theorem bzBind_ctx (v : BitVec 64) : (v &&& 0x8000000000000FFF#64).setWidth 12 = v.setWidth 12 := by
  rw [BitVec.setWidth_and]
  exact BitVec.and_allOnes

/-- A context as a new binding leaves it (R311). -/
def BzCtx.freshBound (b : BzCtx) : BzCtx :=
  { b with st := .idle, counts := [], cause := 0#8, stopping := false, sigDue := none, arrived := false, overrun := false, lzBad := [] }
theorem State.bzBind_new {v : BitVec 64} (hv : v.getLsbD 63 = true) (hb : (s.bzc k).bound = false) :
    s.bzBind k v = ((s.onBz k fun b => { b with bind := v &&& 0x8000000000000FFF#64 }).barForget k).onBz k BzCtx.freshBound := by
  unfold State.bzBind
  dsimp only
  rw [if_pos ((bzBind_bit v).trans hv), hb]
  rfl
theorem State.bzBind_clear {v : BitVec 64} (hv : v.getLsbD 63 = false) (hr : (s.bzc k).st ≠ .running) :
    s.bzBind k v = (((s.onBz k fun b => { b with bind := v &&& 0x8000000000000FFF#64 }).onBz k fun b =>
      { b with overrun := false, lzBad := [] }).barForget k).onBz k fun b => { b with st := .unbound } := by
  unfold State.bzBind
  dsimp only
  rw [if_neg (by rw [bzBind_bit, hv]; exact Bool.false_ne_true), if_neg (by simpa using hr)]

end

theorem bozoakCommands : Claims.BozoakCommands := by
  intro s t via k b v x refused
  refine ⟨fun hp => ⟨(exec_bzcmdStart via k s).trans (State.viaHost_shut hp _),
    (exec_bzcmdStop via k s).trans (State.viaHost_shut hp _), (exec_bzcmdClrcnt via k s).trans (State.viaHost_shut hp _),
    (exec_bzbindWrite k v s).trans (State.viaHost_shut hp _)⟩, fun hp => ?_⟩
  have hstart : exec (.bzcmdStart via k) s = .next (if s.reaches via k.toNat && (x.st == .idle || x.st == .stopped || x.st == .fault) then
      s.bzStart k.toNat else s) := (exec_bzcmdStart via k s).trans (State.viaHost_open hp _)
  have hclr : exec (.bzcmdClrcnt via k) s = .next (if s.reaches via k.toNat && (x.st == .idle || x.st == .stopped || x.st == .fault) then
      s.onBz k.toNat (fun b => { b with counts := [] }) else s) := (exec_bzcmdClrcnt via k s).trans (State.viaHost_open hp _)
  have hstop : exec (.bzcmdStop via k) s = .next (if s.reaches via k.toNat then s.bzStop k.toNat else s) :=
    (exec_bzcmdStop via k s).trans (State.viaHost_open hp _)
  have hbind : exec (.bzbindWrite k v) s = .next (s.bzBind k.toNat v) := (exec_bzbindWrite k v s).trans (State.viaHost_open hp _)
  refine ⟨fun hr hst => ?_, fun hr hst hf hb hk => ?_, fun hr => ?_, fun hv hb hk => ?_, fun hv hst hk => ?_⟩
  · have hcond : (s.reaches via k.toNat && (x.st == .idle || x.st == .stopped || x.st == .fault)) = true := by
      simpa [hr] using (or_assoc.mpr hst)
    rw [hstart, hclr, if_pos hcond, if_pos hcond]
    refine ⟨fun h => ?_, fun h => congrArg Host.Outcome.next (State.bzStart_none h), rfl⟩
    obtain ⟨m, hm, hfar⟩ := State.bzStart_started h
    exact ⟨m, congrArg Host.Outcome.next hm, hfar⟩
  · rw [hstop, if_pos hr]
    exact ⟨_, rfl, State.bzStop_stops hst hf hb hk⟩
  · rw [hstart, hstop, hclr, hr]
    exact ⟨rfl, rfl, rfl⟩
  · refine ⟨_, hbind.trans (congrArg Host.Outcome.next (State.bzBind_new hv hb)), ?_⟩
    have hbound := State.bzc_onBz_same s (fun b => { b with bind := v &&& 0x8000000000000FFF#64 }) hk
    rw [State.bzc_onBz_same _ _ (by exact List.length_set.symm ▸ hk)]
    refine ⟨rfl, rfl, ?_, rfl⟩
    exact (congrArg BzCtx.ctx hbound).trans (bzBind_ctx v)
  · refine ⟨_, hbind.trans (congrArg Host.Outcome.next (State.bzBind_clear hv hst)), ?_⟩
    generalize hu : s.onBz k.toNat (fun b => { b with bind := v &&& 0x8000000000000FFF#64 }) = u
    have hlen : k.toNat < u.bz.length := by
      rw [← hu]
      exact List.length_set.symm ▸ hk
    have hbound : (u.bzc k.toNat).bound = false := by
      rw [← hu, State.bzc_onBz_same _ _ hk]
      exact (bzBind_bit v).trans hv
    have hclean := State.bzc_onBz_same u (fun b => { b with overrun := false, lzBad := [] }) hlen
    rw [State.bzc_onBz_same _ _ (by exact List.length_set.symm ▸ hlen)]
    exact ⟨rfl, (congrArg BzCtx.bound hclean).trans hbound⟩

/-! ### Turns, deliveries, signals and counts (R310, R318, R323, R330) -/

section
variable {s : State} {d : Delivery} {k c : BitVec 4}

/-- With no context about to stop the turn settles none. -/
theorem State.bzc_not_stopping (h : s.bz.all (fun b => !b.stopping) = true) (k : Nat) : (s.bzc k).stopping = false := by
  rw [State.bzc, List.getD_eq_getElem?_getD]
  cases hk : s.bz[k]? with
  | none => rfl
  | some b => exact Bool.not_eq_true' _ |>.mp (List.all_eq_true.mp h b (List.mem_of_getElem? hk))
theorem State.bzSettles_none (h : s.bz.all (fun b => !b.stopping) = true) (ks : List Nat) : ks.foldl State.bzSettle s = s := by
  induction ks with
  | nil => rfl
  | cons k ks ih => rw [List.foldl_cons, State.bzSettle_none (State.bzc_not_stopping h k), ih]
theorem execBozoakContextTurn_quiet (h : s.bz.all (fun b => !b.stopping) = true) :
    execBozoakContextTurn s = .next { s with
      agenda := (((List.range 16).map fun i => (s.bzTurn + i) % 16).filter fun k => (s.bzc k).st == .running).map Turn.bzFetch ++ s.agenda
      bzTurn := (s.bzTurn + 1) % 16 } := by
  have hlive : (fun k => (s.bzc k).st == .running && !(s.bzc k).stopping) = fun k => (s.bzc k).st == BzState.running := by
    funext k
    rw [State.bzc_not_stopping h k, Bool.not_false, Bool.and_true]
  unfold execBozoakContextTurn
  dsimp only
  rw [State.bzSettles_none h, hlive]

theorem find_delivery (h : s.deliveries = [d]) : (s.deliveries.find? fun e => e.id == d.id) = some d := by
  rw [h]
  exact List.find?_cons_of_pos (beq_self_eq_true _)
theorem filter_delivery (h : s.deliveries = [d]) : (s.deliveries.filter fun e => e.id != d.id) = [] := by
  rw [h]
  simp
/-- The only delivery lands at a peer. -/
theorem execDeliveryComplete_peer (h : s.deliveries = [d]) (hd : d.dev ≠ Config.deviceId) :
    execDeliveryComplete d.id s = .next (((({ s with deliveries := [] } : State).peerOut (peerPa d.dev.toNat (d.slotOff + 128)) d.bytes).peerOut
      (peerPa d.dev.toNat d.slotOff) d.header).bzSettle d.k.toNat) := by
  unfold execDeliveryComplete
  rw [find_delivery h]
  dsimp only
  rw [filter_delivery h, if_neg hd]
/-- The only delivery lands in a slot here that is not full. -/
theorem execDeliveryComplete_own (h : s.deliveries = [d]) (hd : d.dev = Config.deviceId) (hf : s.fullSlot d.slotOff 128 = none) :
    execDeliveryComplete d.id s = .next ((((({ s with deliveries := [] } : State).hPutZone (d.slotOff + 128) d.bytes).hPutZone d.slotOff
      d.header).cleanZone d.slotOff 128).bzSettle d.k.toNat) := by
  have hfull : ({ s with deliveries := [] } : State).fullSlot d.slotOff 128 = none := hf
  unfold execDeliveryComplete
  rw [find_delivery h]
  dsimp only
  rw [filter_delivery h, if_pos hd, hfull]
theorem execDeliveryFailure_one (h : s.deliveries = [d]) :
    execDeliveryFailure d.id s = .next (if ((({ s with deliveries := [] } : State).landPart d).bzc d.k.toNat).st = .running ∧
        ((({ s with deliveries := [] } : State).landPart d).bzc d.k.toNat).bound = true then
      (({ s with deliveries := [] } : State).landPart d).onBz d.k.toNat (·.fault bzLINK)
      else (({ s with deliveries := [] } : State).landPart d).bzSettle d.k.toNat) := by
  unfold execDeliveryFailure
  rw [find_delivery h]
  dsimp only
  rw [filter_delivery h]

/-- A signal that arrives: refused, or an add of 1 that a running engine folds. -/
theorem execSignalArrival_open {idx : BitVec 6} (hp : (s.bzc k.toNat).peers ≠ []) (hf : s.fabricPorts ≠ []) :
    execSignalArrival k idx s =
      let b := s.bzc k.toNat
      let off := b.sigWord b.rank idx.toNat
      let src := (s.someMember b).1
      let u : State := { s with fresh := s.fresh + 1 }
      if s.hand.isSome || s.zoneLost off 8 || !(s.inWin.any fun w => winAdmits w src .atomicAdd off 8) then
        .next { u with outbox := u.outbox ++ [.abort src] }
      else .next (if b.st = .running then (u.addWord off).foldSig k.toNat idx.toNat else u.addWord off) := by
  refine if_neg ?_
  rw [List.isEmpty_eq_false_iff.mpr hp, List.isEmpty_eq_false_iff.mpr hf]
  exact Bool.false_ne_true

end

theorem bozoakEvents : Claims.BozoakEvents := by
  intro s d k c idx chunk inc o
  refine ⟨fun h _ => ⟨_, execBozoakContextTurn_quiet h, rfl, rfl, rfl, rfl⟩, fun h hd => execDeliveryComplete_peer h hd,
    fun h hd hf => execDeliveryComplete_own h hd hf, fun h => ?_, fun hp hf => ?_, fun h => (exec_chunkCount c k chunk inc o s).trans (if_pos h), fun t h hc => ?_⟩
  · intro t
    rw [exec_deliveryFailure, execDeliveryFailure_one h]
    refine ⟨fun hr hb => congrArg Host.Outcome.next (if_pos ⟨hr, hb⟩), fun hn => congrArg Host.Outcome.next (if_neg fun ⟨hr, hb⟩ => ?_)⟩
    obtain hn | hn := hn
    · exact hn hr
    · exact Bool.false_ne_true (hn.symm.trans hb)
  · intro b off src u
    rw [exec_signalArrival, execSignalArrival_open hp hf]
    refine ⟨fun hh hz hw => ?_, fun hn => if_pos ?_⟩
    · have hadm : (s.hand.isSome || s.zoneLost off 8 || !(s.inWin.any fun w => winAdmits w src .atomicAdd off 8)) = false := by
        rw [hh, hz, List.any_eq_true.mpr hw]
        rfl
      refine ⟨fun hr => (if_neg (Bool.eq_false_iff.mp hadm)).trans (congrArg Host.Outcome.next (if_neg hr)),
        fun hr => (if_neg (Bool.eq_false_iff.mp hadm)).trans (congrArg Host.Outcome.next (if_pos hr))⟩
    · obtain hh | hw := hn
      · rw [hh]
        rfl
      · have hnone : (s.inWin.any fun w => winAdmits w src .atomicAdd off 8) = false := List.any_eq_false.mpr fun w hmem => Bool.eq_false_iff.mp (hw w hmem)
        show (_ || !(s.inWin.any fun w => winAdmits w src .atomicAdd off 8)) = true
        rw [hnone]
        exact Bool.or_true _
  · rw [exec_chunkCount]
    unfold execChunkCount
    dsimp only
    rw [if_neg (Bool.eq_false_iff.mp h), hc]

/-- Settles O40: port 0 opens the registers, START's reads leave the descriptor it had, and each arrival is its one case. -/
theorem bozoakHostEvents : Obligations.BozoakHostEvents := ⟨bozoakCommands, bozoakEvents⟩

end Sys2Proof.Machine
end

section
/-!
PROOFS. Records, doorbells and decisions of the launch unit.
-/
namespace Sys2Proof.Machine

section
variable {s : State} {w : BitVec 4} {sender ctx : BitVec 12} {r : BitVec 1024} {pos : BitVec 8}

/-- A change of a launch window is a change of its entry. -/
theorem State.onWin_eq_set (h : w.toNat < s.wins.length) (f : LaunchWin → LaunchWin) :
    s.onWin w f = { s with wins := s.wins.set w.toNat (f (s.wins.getD w.toNat LaunchWin.reset)) } := by
  have hget : s.wins.getD w.toNat LaunchWin.reset = s.wins[w.toNat] := List.getD_eq_getElem _ _ h
  rw [hget, State.onWin, List.modify_eq_set_get f h]
  rfl

/-! ### Records of other devices (R42) -/

/-- A binding of the supervisor's that stands is kept. -/
theorem State.bindFab_bound (h : (s.fabBind.find? fun q => q.1 == sender && q.2.1 == rcdCtx r) = some (sender, rcdCtx r, ctx)) :
    s.bindFab sender (rcdCtx r) = s := by
  have hq : (sender == sender && rcdCtx r == rcdCtx r) = true := by rw [beq_self_eq_true, beq_self_eq_true, Bool.and_self]
  exact if_pos (List.any_eq_true.mpr ⟨_, List.mem_of_find?_eq_some h, hq⟩)
theorem State.bindFab_outbox (s : State) (sender ctx : BitVec 12) : (s.bindFab sender ctx).outbox = s.outbox := by
  unfold State.bindFab
  split
  · rfl
  · dsimp only
    split
    · rfl
    · rfl
/-- A forwarded record that an open port brings, once its sender's context is bound or found unbound. -/
theorem execForwardedFabricRecord_open (hp : s.fabricPorts ≠ []) :
    execForwardedFabricRecord sender r pos s = .next (match (s.bindFab sender (rcdCtx r)).fabBind.find? fun q => q.1 == sender && q.2.1 == rcdCtx r with
      | none => { s.bindFab sender (rcdCtx r) with
          outbox := (s.bindFab sender (rcdCtx r)).outbox ++ [.refuse sender ((s.bindFab sender (rcdCtx r)).unboundCode r)] }
      | some (_, _, ctx) => match (s.bindFab sender (rcdCtx r)).submit r (.peer sender ctx pos.toNat) with
        | (0, t) => t
        | (n, t) => { t with outbox := t.outbox ++ [.refuse sender n] }) := by
  refine if_neg ?_
  rw [List.isEmpty_eq_false_iff.mpr hp]
  exact Bool.false_ne_true

end

theorem launchRecords : Claims.LaunchRecords := by
  intro s w tag v b ctx sender r pos id x refused
  refine ⟨fun hp => ⟨(exec_hostLaunchDoorbell w tag s).trans (State.viaHost_shut hp _), (exec_completionHeadWrite w v s).trans (State.viaHost_shut hp _),
      (exec_launchWindowBind w b ctx s).trans (State.viaHost_shut hp _), (exec_supervisorRecord r s).trans (State.viaHost_shut hp _)⟩,
    fun hp hw hb hbusy => ?_, fun hp hw hb => ?_, fun hp hw => ?_, fun hp => ?_, fun hp => ?_, fun hp hf => ?_, fun t hp hf ht => ?_, rfl⟩
  · have hopen : ¬ (x.bound.isNone || x.busy) = true := by
      rw [hbusy, Option.isNone_eq_false_iff.mpr hb]
      exact Bool.false_ne_true
    refine (exec_hostLaunchDoorbell w tag s).trans ((State.viaHost_open hp _).trans (congrArg Host.Outcome.next ?_))
    rw [State.onWin_eq_set hw, if_neg hopen]
  · have hbound : ¬ x.bound.isNone = true := by
      rw [Option.isNone_eq_false_iff.mpr hb]
      exact Bool.false_ne_true
    refine (exec_completionHeadWrite w v s).trans ((State.viaHost_open hp _).trans (congrArg Host.Outcome.next ?_))
    rw [State.onWin_eq_set hw, if_neg hbound]
  · refine (exec_launchWindowBind w b ctx s).trans ((State.viaHost_open hp _).trans (congrArg Host.Outcome.next ?_))
    rw [State.onWin_eq_set hw]
  · exact (exec_supervisorRecord r s).trans (State.viaHost_open hp _)
  · exact (exec_forwardedFabricRecord sender r pos s).trans (if_pos (List.isEmpty_iff.mpr hp))
  · intro u ran
    rw [exec_forwardedFabricRecord, execForwardedFabricRecord_open hp]
    show Host.Outcome.next (match u.fabBind.find? _ with | none => _ | some (_, _, ctx) => _) = _ ∨ _
    cases hb : u.fabBind.find? fun q => q.1 == sender && q.2.1 == rcdCtx r with
    | none => exact .inl (by rw [← State.bindFab_outbox s sender (rcdCtx r)])
    | some q => exact .inr ⟨q.2.2, rfl⟩
  · rw [exec_forwardedFabricRecord, execForwardedFabricRecord_open hp, State.bindFab_bound hf, hf]
    dsimp only
    rw [ht] <;> rfl

/-! ### Decisions (R49, R55, R60) -/

section
variable {s u : State} {t : Task} {g : Gang}

/-- The only record there is is the one considered. -/
theorem execLaunchDispatch_one (hf : s.doorbells.lapse.failed = false) (ht : s.doorbells.lapse.tasks = [t]) :
    execLaunchDispatch s = .next (s.doorbells.lapse.consider t.id).2 := by
  have horder : s.doorbells.lapse.dispatchOrder = [t.id] := by
    unfold State.dispatchOrder
    rw [ht]
    rfl
  unfold execLaunchDispatch
  generalize s.doorbells.lapse = v at hf horder ⊢
  dsimp only
  rw [if_neg (Bool.eq_false_iff.mp hf), horder, List.foldl_cons, List.foldl_nil, if_neg Bool.false_ne_true]

/-- A blocked gang's windows are read again (R49). -/
theorem execBuntingWindowReread_blocked (ht : s.task t.id = some t) (hc : t.candidate = some g) (hg : g.st = .blocked) :
    execBuntingWindowReread t.id s = .next (match s.windowsSet t g.idx with
      | (none, s) => s.stopTask t.id 17
      | (some true, s) => s.putGang t { g with st := .ready }
      | (some false, s) => s.free.2.onTask t.id fun t => { t with reread := s.ct + (s.freeIn 1 1024).1 }) := by
  unfold execBuntingWindowReread
  simp only [ht, hc, Option.bind_some, Option.map_some, hg, ne_eq, not_true_eq_false, if_false]
  rfl
theorem execWindowTimeout_blocked (ht : s.task t.id = some t) (hc : t.candidate = some g) (hg : g.st = .blocked) :
    execWindowTimeout t.id s = .next (if holdmaxOf (s.descOf t.ctx) < s.ct - g.blockedAt then s.stopTask t.id 19 else s) := by
  unfold execWindowTimeout
  simp only [ht, hc, Option.bind_some, Option.map_some, hg, true_and]

end

theorem launchDecisions : Claims.LaunchDecisions := by
  intro s u t g
  refine ⟨fun hf => ?_, execLaunchDispatch_one, fun ht hc hg => ?_, rfl⟩
  · exact congrArg Host.Outcome.next (if_pos hf)
  · rw [exec_buntingWindowReread, execBuntingWindowReread_blocked ht hc hg, exec_windowTimeout, execWindowTimeout_blocked ht hc hg]
    refine ⟨fun hw => ?_, fun hw => ?_, fun hw => ?_, fun hl => congrArg Host.Outcome.next (if_pos hl),
      fun hl => congrArg Host.Outcome.next (if_neg (Nat.not_lt.mpr hl))⟩
    · rw [hw]
    · obtain ⟨hlo, hhi⟩ := State.freeIn_range u 1 1024 (by decide)
      rw [hw]
      exact ⟨_, hlo, hhi, rfl⟩
    · rw [hw]

/-- Settles O41: each write of the host and each turn of the unit, on the window, record or gang that it is about. -/
theorem launchUnit : Obligations.LaunchUnit := ⟨launchRecords, launchDecisions⟩

end Sys2Proof.Machine
end

section
/-!
PROOFS. Pre-emption, the end of a run, kills and maintenance.
-/
namespace Sys2Proof.Machine

/-! ### Pre-emption and the end of a run (R50, R352 to R356) -/

section
variable {s : State} {c : BitVec 4} {r : RunId} {id : Nat} {t : Task} {g : Gang} {pl : List (Nat × Nat)}

/-- A saved gang that has a place resumes there, where no reservation stands. -/
theorem execGangResume_placed (ht : s.task id = some t) (hg : (t.gangs.find? fun x => x.idx == g.idx) = some g) (hs : g.saving = false) (hv : g.saved ≠ [])
    (hp : s.place t g (s.usable t) = some pl) (hr : s.reserve = none) : execGangResume id g.idx s = .next (s.resumeGang t g pl) := by
  have hres : ({ s with reserve := none } : State) = s := by rw [← hr]
  unfold execGangResume
  simp only [ht, hg, Option.bind_some, Option.map_some, hs, List.isEmpty_eq_false_iff.mpr hv, Bool.or_self, Bool.false_eq_true, if_false, hp, hr, hres]

/-- A run whose END has nothing left to wait for and no fault to take ends. -/
theorem execRunEnd_ready (hr : (s.cl c.toNat).run = some r) (he : s.endReady c.toNat = true) (hc : (s.cl c.toNat).cps = [])
    (hf : (s.cl c.toNat).holdFault = none) : execRunEnd c s = .next (((s.endRelease c.toNat r).freeCluster c.toNat).memberDone r c.toNat) := by
  unfold execRunEnd
  simp [hr, he, hc, hf]
theorem execRunEnd_waits (hr : (s.cl c.toNat).run = some r) (he : s.endReady c.toNat = false) : execRunEnd c s = .next s := by
  unfold execRunEnd
  simp [hr, he]

end

theorem preemptionEvents : Claims.PreemptionEvents := fun _ _ _ _ _ _ _ =>
  ⟨rfl, rfl, execGangResume_placed, execRunEnd_ready, execRunEnd_waits⟩

/-! ### What ending a gang leaves (R53) -/

/-- The Bozoak contexts, the messages out and the launch windows are as they were. -/
def State.sameOut (s t : State) : Prop := t.bz = s.bz ∧ t.outbox = s.outbox ∧ t.wins = s.wins

section
variable {s t u : State}

theorem State.sameOut.refl (s : State) : s.sameOut s := ⟨rfl, rfl, rfl⟩
theorem State.sameOut.trans (h : s.sameOut t) (h' : t.sameOut u) : s.sameOut u := ⟨h'.1.trans h.1, h'.2.1.trans h.2.1, h'.2.2.trans h.2.2⟩
theorem State.sameOut.foldl {α : Type} {f : State → α → State} (hf : ∀ t x, State.sameOut t (f t x)) (l : List α) (s : State) : s.sameOut (l.foldl f s) :=
  List.foldlRecOn (motive := s.sameOut) l f (.refl s) fun t ht x _ => ht.trans (hf t x)
theorem State.freeCluster_sameOut (s : State) (c : Nat) : s.sameOut (s.freeCluster c) := by
  unfold State.freeCluster
  dsimp only
  split
  · exact ⟨rfl, rfl, rfl⟩
  · exact ⟨rfl, rfl, rfl⟩
theorem State.endGang_sameOut (s : State) (task gang : Nat) : s.sameOut (s.endGang task gang) := by
  unfold State.endGang
  split
  · exact .refl s
  · exact (State.sameOut.foldl State.freeCluster_sameOut _ s).trans ⟨rfl, rfl, rfl⟩
theorem State.killReady_sameOut (s : State) (x : Task) : s.sameOut (s.killReady x) :=
  (State.sameOut.foldl (fun t (g : Gang) => t.endGang_sameOut x.id g.idx) x.gangs s).trans ⟨rfl, rfl, rfl⟩
theorem State.finalStatus_bz (s : State) (x : Task) (code : Nat) : (s.finalStatus x code).bz = s.bz := by
  unfold State.finalStatus
  split
  · rfl
  · rfl
  · rfl
  · rfl
theorem State.killTask_bz (s : State) (x : Task) : (s.killTask x).bz = s.bz := by
  rw [State.killTask_eq]
  refine Eq.trans ?_ (s.killReady_sameOut x).1
  generalize s.killReady x = t
  unfold State.checkFinal
  split
  · rfl
  · dsimp only
    split
    · rfl
    · exact t.finalStatus_bz _ _
theorem State.kills_bz (l : List Task) (s : State) : (l.foldl State.killTask s).bz = s.bz :=
  List.foldlRecOn (motive := fun t : State => t.bz = s.bz) l _ rfl fun t ht x _ => (t.killTask_bz x).trans ht

/-- The only task there is ends KILLED, its status where its record came from. -/
theorem State.killTask_status {x : Task} (h : s.tasks = [x]) :
    (x.src = .mailbox → (s.killTask x).outbox = s.outbox ++ [.mailbox 18]) ∧
    (∀ w tag, x.src = .window w tag → (s.killTask x).wins = s.wins.modify w.toNat fun y =>
      { y with cring := y.cring.set y.ctail.toNat (tag ++ 18#32), ctail := y.ctail + 1#6 }) := by
  obtain ⟨-, hout, hwins⟩ := s.killReady_sameOut x
  have hr : x.id ∉ (([] : List Task) ++ []).map (fun t : Task => t.id) := List.not_mem_nil
  have hfin := State.checkFinal_stopped (x := x.killed) (State.killReady_tasks (pre := []) (rest := []) h hr) hr x.killed_gangs rfl
  rw [State.killTask_eq]
  refine ⟨fun hsrc => ?_, fun w tag hsrc => ?_⟩
  · refine (congrArg State.outbox hfin).trans ?_
    show ((s.killReady x).finalStatus x.killed 18).outbox = _
    rw [State.finalStatus, show x.killed.src = .mailbox from hsrc, ← hout]
  · refine (congrArg State.wins hfin).trans ?_
    show ((s.killReady x).finalStatus x.killed 18).wins = _
    rw [State.finalStatus, show x.killed.src = .window w tag from hsrc, ← hwins]

/-- Forgetting BARs changes nothing else (R332). -/
theorem State.barForgets_eq (ks : List Nat) (s : State) : ∃ m, ks.foldl State.barForget s = { s with barIn := m } := by
  induction ks generalizing s with
  | nil => exact ⟨_, rfl⟩
  | cons k ks ih =>
    obtain ⟨m, h⟩ := ih (s.barForget k)
    exact ⟨m, h⟩

end

/-! ### A kill (R59, R335, R357) -/

/-- A Bozoak context bound to a context that is killed. -/
def BzCtx.killed (ctx : BitVec 12) (b : BzCtx) : BzCtx :=
  if b.bound && b.ctx == ctx && b.st != .unbound then { b with st := .stopped, counts := [], stopping := false, sigDue := none, arrived := false } else b

section
variable {s : State} {ctx : BitVec 12}

/-- The tasks a kill of a context ends. -/
def State.doomed (s : State) (ctx : BitVec 12) : List Task := s.tasks.filter fun t => t.ctx == ctx && rcdVer t.rcd != 0#8

/-- What a kill leaves, as its parts leave it. -/
theorem execKill_eq (s : State) (ctx : BitVec 12) : ∃ u, execKill ctx s = .next u ∧ ctx ∈ u.killing ∧
    u.tasks = ((s.doomed ctx).foldl State.killTask s).tasks ∧ u.outbox = ((s.doomed ctx).foldl State.killTask s).outbox ∧
    u.wins = ((s.doomed ctx).foldl State.killTask s).wins ∧ u.bz = s.bz.map (BzCtx.killed ctx) ∧
    ∀ d, (u.cl d).run = (((s.doomed ctx).foldl State.killTask s).cl d).run := by
  have hkill : s.killTasks ctx = (s.doomed ctx).foldl State.killTask s := rfl
  have hbz := State.kills_bz (s.doomed ctx) s
  rw [← hkill] at hbz ⊢
  generalize hv : s.killTasks ctx = v at hbz ⊢
  obtain ⟨m, hm⟩ := State.barForgets_eq ((List.range 16).filter fun k => (v.bzc k).bound && (v.bzc k).ctx == ctx) v
  have hboz : v.killBozoak ctx = { v with barIn := m, bz := v.bz.map (BzCtx.killed ctx) } := by
    unfold State.killBozoak
    rw [hm]
    rfl
  have hexec : execKill ctx s = .next { (v.killBozoak ctx).killPeer ctx with
      killing := if ((v.killBozoak ctx).killPeer ctx).killing.contains ctx then ((v.killBozoak ctx).killPeer ctx).killing
        else ((v.killBozoak ctx).killPeer ctx).killing ++ [ctx], killCt := ((v.killBozoak ctx).killPeer ctx).ct } := by
    rw [← hv]
    rfl
  refine ⟨_, hexec, ?_, ?_⟩
  · show ctx ∈ (if _ then _ else _)
    split
    · next hc => exact List.contains_iff_mem.mp hc
    · exact List.mem_append_right _ (List.mem_singleton.mpr rfl)
  · rw [hboz]
    exact ⟨rfl, rfl, rfl, congrArg (List.map _) hbz, getD_map_run v.clusters _ fun _ => rfl⟩

end

theorem killEnds : Claims.KillEnds := by
  intro s ctx t
  obtain ⟨u, hu, hkilling, htasks, hout, hwins, hbz, hrun⟩ := execKill_eq s ctx
  have hsub : ∀ x, x ∈ s.doomed ctx → x ∈ s.tasks := fun x hx => (List.mem_filter.mp hx).1
  have hdoomed : ∀ x, x ∈ s.tasks → x.ctx = ctx → rcdVer x.rcd ≠ 0#8 → x ∈ s.doomed ctx := fun x hx hc hv =>
    List.mem_filter.mpr ⟨hx, by simp [hc, hv]⟩
  refine ⟨u, hu, hkilling, fun hn => ?_, fun ht hc hv => ?_, fun k => ?_⟩
  · have hl : ((s.doomed ctx).map (·.id)).Nodup := hn.sublist (List.filter_sublist.map _)
    rw [htasks, State.kills_tasks _ s hsub hn hl]
    refine ⟨fun x hx hc => ?_, fun x hx hc => ?_, fun ht hc hv hg g c r hgm hcm hr hrt hrg => ?_⟩
    · obtain ⟨hx, hbut⟩ := List.mem_filter.mp hx
      by_contra hv
      have hmem : x.id ∈ (s.doomed ctx).map (·.id) := List.mem_map_of_mem (hdoomed x hx hc hv)
      rw [Bool.not_eq_true', ← Bool.not_eq_true, List.contains_iff_mem] at hbut
      exact hbut hmem
    · refine List.mem_filter.mpr ⟨hx, ?_⟩
      rw [Bool.not_eq_true', ← Bool.not_eq_true, List.contains_iff_mem]
      intro hmem
      obtain ⟨y, hy, hid⟩ := List.mem_map.mp hmem
      have hxy : y = x := List.inj_on_of_nodup_map hn (hsub y hy) hx hid
      subst hxy
      exact hc (by simpa using And.left (by simpa using (List.mem_filter.mp hy).2))
    · rw [hrun]
      exact State.kills_run hg hgm hcm hrt hrg _ (hdoomed t ht hc hv) s hsub hn hl hr
  · have hone : s.doomed ctx = [t] := by
      unfold State.doomed
      rw [ht]
      simp [hc, hv]
    rw [hout, hwins, hone]
    exact State.killTask_status ht
  · intro b
    have hget : u.bzc k = BzCtx.killed ctx b := by
      rw [State.bzc, hbz]
      by_cases hk : k < s.bz.length
      · exact getD_map hk
      · rw [List.getD_eq_default _ _ (by simpa using hk)]
        have hb : b = BzCtx.reset := List.getD_eq_default _ _ (Nat.not_lt.mp hk)
        rw [hb]
        rfl
    rw [hget]
    unfold BzCtx.killed
    refine ⟨fun ⟨hb, hc, hst⟩ => ?_, fun hn => if_neg fun h => hn ?_⟩
    · rw [if_pos (by simp [hb, hc, hst])]
      exact ⟨rfl, rfl, rfl, rfl⟩
    · simpa [and_assoc] using h

/-! ### KILLDONE and maintenance runs (R364, R365) -/

section
variable {s : State} {c : Nat}

/-- A cluster whose run draws fresh keys, with a maintenance run that starts: its messages, its wait and its run stand. -/
def State.keepsMaint (s t : State) : Prop :=
  t.outbox = s.outbox ∧ t.maintWait = s.maintWait ∧ t.clusters.length = s.clusters.length ∧
    ∀ d, (t.cl d).run = (s.cl d).run ∧ (t.cl d).maint = (s.cl d).maint
theorem Cluster.setUnit_keeps (k : Cluster) (u : Nat) (g : Gen) : (k.setUnit u g).run = k.run ∧ (k.setUnit u g).maint = k.maint := by
  unfold Cluster.setUnit
  split
  · exact ⟨rfl, rfl⟩
  · exact ⟨rfl, rfl⟩
theorem State.newKey_keepsMaint (s : State) (c u : Nat) (g : Gen) : s.keepsMaint (s.newKey c u g) := by
  refine ⟨rfl, rfl, State.onCl_length s c _, fun d => ?_⟩
  unfold State.newKey
  by_cases hd : c = d
  · subst hd
    by_cases hc : c < s.clusters.length
    · rw [State.cl_onCl_same _ _ _ hc]
      exact Cluster.setUnit_keeps _ _ _
    · rw [State.onCl, State.setCl, List.set_eq_of_length_le (Nat.not_lt.mp hc)]
      exact ⟨rfl, rfl⟩
  · rw [State.cl_onCl_other _ _ _ _ hd]
    exact ⟨rfl, rfl⟩
/-- A unit of a run that logs no keys takes a fresh one (R389). -/
theorem State.reseed_keepsMaint {r : RunId} (hr : (s.cl c).run = some r) (hm : r.rngm = 0#2) (u : Nat) : s.keepsMaint (s.reseed c u).2 := by
  have hrun : (({ s with fresh := s.fresh + 2 } : State).cl c).run = some r := hr
  unfold State.reseed State.reseedFrom
  rw [hrun]
  dsimp only
  rw [hm, if_neg (by decide), if_neg (by decide)]
  exact State.newKey_keepsMaint { s with fresh := s.fresh + 2 } c u _
theorem State.reseedAll_keepsMaint {r : RunId} (hr : (s.cl c).run = some r) (hm : r.rngm = 0#2) : s.keepsMaint (s.reseedAll c).2 := by
  refine List.foldlRecOn (motive := fun x : Bool × State => s.keepsMaint x.2) (List.range 257) _ ⟨rfl, rfl, rfl, fun _ => ⟨rfl, rfl⟩⟩ fun x hx u _ => ?_
  obtain ⟨hout, hwait, hlen, hcl⟩ := hx
  obtain ⟨hout', hwait', hlen', hcl'⟩ := State.reseed_keepsMaint ((hcl c).1.trans hr) hm u
  exact ⟨hout'.trans hout, hwait'.trans hwait, hlen'.trans hlen, fun d => ⟨(hcl' d).1.trans (hcl d).1, (hcl' d).2.trans (hcl d).2⟩⟩

/-- The run of the management core on a cluster, as task n from a cycle on (R365). -/
def maintRunId (n ct : Nat) : RunId :=
  { task := n, gang := 0, member := 0, leaf := 0, ctx := 0#12, desc := 0#64, prio := 7#3, rngm := 0#2, ckpt := 0, tgSize := 1
    startCt := ct, priv := true, logged := 0, logFlag := false }
def Cluster.maintStart (n ct : Nat) (k : Cluster) : Cluster :=
  { ({ k with prevCtx := none } : Cluster).start (maintRunId n ct) maintRcd [] (List.replicate 16 0#20) resetFt with maint := .start }
theorem State.maintRun_eq (s : State) (c : Nat) : ∃ ts,
    s.maintRun c = ((({ s with tasks := ts, nextTask := s.nextTask + 1 } : State).onCl c (Cluster.maintStart s.nextTask s.ct)).reseedAll c).2 := ⟨_, rfl⟩
/-- A maintenance run starts on its cluster with priority 7 and supervisor privilege (R365). -/
theorem State.maintRun_runs (hc : c < s.clusters.length) : (s.maintRun c).outbox = s.outbox ∧ (s.maintRun c).maintWait = s.maintWait ∧
    ((s.maintRun c).cl c).run = some (maintRunId s.nextTask s.ct) ∧ ((s.maintRun c).cl c).maint = .start := by
  obtain ⟨ts, h⟩ := s.maintRun_eq c
  rw [h]
  generalize hv : ({ s with tasks := ts, nextTask := s.nextTask + 1 } : State) = v
  have hstart : (v.onCl c (Cluster.maintStart s.nextTask s.ct)).cl c = (v.cl c).maintStart s.nextTask s.ct := by
    refine State.cl_onCl_same _ _ _ ?_
    rw [← hv]
    exact hc
  have hrun : ((v.onCl c (Cluster.maintStart s.nextTask s.ct)).cl c).run = some (maintRunId s.nextTask s.ct) := by
    rw [hstart]
    rfl
  obtain ⟨hout, hwait, -, hcl⟩ := State.reseedAll_keepsMaint hrun rfl
  refine ⟨hout.trans ?_, hwait.trans ?_, (hcl c).1.trans hrun, (hcl c).2.trans ?_⟩
  · rw [← hv]
    rfl
  · rw [← hv]
    rfl
  · rw [hstart]
    rfl

end

section
variable {s : State} {ctx : BitVec 12} {c : BitVec 4}

theorem execKilldone_quiet (hk : ctx ∈ s.killing) (hf : s.ctxInFlight ctx = false) : execKilldone ctx s = .next { s with
    killing := s.killing.filter fun x => decide (x ≠ ctx), outbox := s.outbox ++ [.killdone ctx] } := by
  have hbne : (fun x : BitVec 12 => x != ctx) = fun x => decide (x ≠ ctx) := by
    funext x
    rw [Bool.eq_iff_iff]
    simp
  unfold execKilldone
  rw [hf, List.contains_iff_mem.mpr hk, hbne]
  rfl
theorem execKilldone_busy (hf : s.ctxInFlight ctx = true) : execKilldone ctx s = .next s := by
  refine congrArg Host.Outcome.next (if_neg ?_)
  rw [hf]
  simp

/-- The state in which a maintenance run of a cluster is accepted: it waits, and its status has been given (R393). -/
def State.maintAsked (s : State) (c : Nat) : State :=
  if s.maintWait.getLsbD c then s else { s with maintWait := s.maintWait ||| (1#16 <<< c), outbox := s.outbox ++ [.mailbox 0] }
theorem State.maintAsked_clusters (s : State) (c : Nat) : (s.maintAsked c).clusters = s.clusters := by
  unfold State.maintAsked
  split
  · rfl
  · rfl
/-- A maintenance run is refused only where none waits and a kill, a handover or a failure stands in the way (R393). -/
def State.maintBarred (s : State) (c : Nat) : Bool := !s.maintWait.getLsbD c && (!s.killing.isEmpty || s.hand.isSome || s.failed)
theorem State.maintBarred_iff (s : State) (c : Nat) :
    s.maintBarred c = true ↔ s.maintWait.getLsbD c = false ∧ (s.killing ≠ [] ∨ s.hand.isSome = true ∨ s.failed = true) := by
  simp [State.maintBarred, or_assoc]

theorem execMaintenanceRun_barred (h : s.maintBarred c.toNat = true) : execMaintenanceRun c s = .next { s with outbox := s.outbox ++ [.mailbox 1] } :=
  congrArg Host.Outcome.next (if_pos h)
theorem execMaintenanceRun_open (h : s.maintBarred c.toNat = false) : execMaintenanceRun c s = .next (match (s.cl c.toNat).run with
    | none => { s.maintAsked c.toNat with maintWait := (s.maintAsked c.toNat).maintWait &&& ~~~(1#16 <<< c.toNat) }.maintRun c.toNat
    | some r => { (if r.priv then s.maintAsked c.toNat else (s.maintAsked c.toNat).vacate c.toNat) with
        inputs := (if r.priv then s.maintAsked c.toNat else (s.maintAsked c.toNat).vacate c.toNat).inputs ++
          [((if r.priv then s.maintAsked c.toNat else (s.maintAsked c.toNat).vacate c.toNat).ct + 1, .maintenanceRun c)] }) := by
  have hcl : (s.maintAsked c.toNat).cl c.toNat = s.cl c.toNat := by rw [State.cl, State.maintAsked_clusters, State.cl]
  rw [← hcl]
  exact congrArg Host.Outcome.next (if_neg (Bool.eq_false_iff.mp h))

end

theorem killAndMaintenance : Claims.KillAndMaintenance := by
  refine ⟨killEnds, fun s ctx c => ⟨execKilldone_quiet, execKilldone_busy, ?_⟩⟩
  intro waits barred u
  refine ⟨fun ho => ?_, fun hw hb => execMaintenanceRun_barred ((s.maintBarred_iff _).mpr ⟨hw, hb⟩)⟩
  have hopen : s.maintBarred c.toNat = false := by
    refine Bool.eq_false_iff.mpr fun h => ?_
    obtain ⟨hw, hb⟩ := (s.maintBarred_iff _).mp h
    obtain ho | ho := ho
    · exact Bool.false_ne_true (hw.symm.trans ho)
    · exact ho hb
  rw [exec_maintenanceRun, execMaintenanceRun_open hopen]
  refine ⟨fun hr hc => ?_, fun r hr hp => ?_, fun r hr hp => ?_⟩
  · rw [hr]
    obtain ⟨hout, hwait, hrun, hm⟩ := State.maintRun_runs (s := { s.maintAsked c.toNat with maintWait := (s.maintAsked c.toNat).maintWait &&& ~~~(1#16 <<< c.toNat) })
      (c := c.toNat) (by show c.toNat < (s.maintAsked c.toNat).clusters.length; rw [State.maintAsked_clusters]; exact hc)
    refine ⟨_, _, rfl, hout, ?_, hrun, rfl, rfl, hm⟩
    rw [hwait]
    show ((s.maintAsked c.toNat).maintWait &&& ~~~(1#16 <<< c.toNat)).getLsbD c.toNat = false
    simp
  · rw [hr]
    dsimp only
    rw [hp]
    rfl
  · rw [hr]
    dsimp only
    rw [hp]
    rfl

/-- Settles O42: a kill takes each task of its context apart, and the other events act on the gang, the run or the cluster they name. -/
theorem gangsAndKills : Obligations.GangsAndKills := ⟨preemptionEvents, killAndMaintenance⟩

end Sys2Proof.Machine
end
